-- ==== Sys2Proof/Word.lean ====
section
/-! DEFINITION. The words and bytes of the model and nothing else (spec/00_scope.md, Notation and R5): a byte,
the widths the spec gives its register, tag, LBA, stripe and watch numbers. -/

namespace Sys2Proof

/-- One byte. -/
abbrev Byte := BitVec 8
/-- A 16-bit field. -/
abbrev Half := BitVec 16
/-- A 32-bit register or field. -/
abbrev Word32 := BitVec 32
/-- A 64-bit register, address, tag or time. -/
abbrev Word64 := BitVec 64
/-- A run of bytes, lowest address first. -/
abbrev Bytes := List Byte

end Sys2Proof
end

