-- ==== Sys2Proof/Syntax.lean ====
section
/-! DEFINITION. The commands of the block: one constructor of Instr per row of spec/opcode_table.json, in the table's
order, with the operands that come from outside the controller (what a host, a drive, a pin, a partner, the chain or
a measuring unit supplies). What the controller already holds (a queued packet, a read descriptor, an outstanding
drive command) is no operand: the meaning takes it from the state. -/

namespace Sys2Proof

/-- Who sent a command packet: command ring c, or the Tilel chain (R245, R247). -/
inductive CmdSrc where
  | ring (c : BitVec 4)
  | chain
deriving DecidableEq, Repr

/-- A ring of R200: data ring 0 to 1023, command ring 0 to 15, event ring E0 or E1. -/
inductive RingId where
  | data (n : BitVec 10)
  | cmd (c : BitVec 4)
  | event (p : Bool)
deriving DecidableEq, Repr

/-- What an MSI-X holdoff belongs to: a ring (R230) or a completion queue (R287). -/
inductive IrqSource where
  | ring (r : RingId)
  | mq (q : BitVec 3)
deriving DecidableEq, Repr

/-- The 64-byte sector seal of R62, field by field, reserved fields included. -/
structure Seal where
  version : Byte
  flags : Byte
  setId : Byte
  profileId : Byte
  fragIndex : Byte
  row : Byte
  chartRev : Half
  stripe : BitVec 48
  rsv0E : Half
  lba : BitVec 48
  rsv16 : Half
  watch : BitVec 48
  rsv1E : Half
  generation : Word32
  incarnation : Word32
  lastWriteMask : Word64
  rsv30 : Word64
  crc : Word64
deriving DecidableEq, Repr

/-- A sector as a drive holds it: 4096 data bytes and its seal (R62). -/
structure Sector where
  data : Bytes
  sl : Seal
deriving DecidableEq, Repr

/-- How a read of host memory or of a drive ended: its data, or the failure of R282 (detail 0x01 Unsupported
Request, 0x02 Completer Abort, 0x03 poisoned). -/
inductive BusResult where
  | ok (bytes : Bytes)
  | unsupported
  | aborted
  | poisoned
deriving DecidableEq, Repr

/-- How a drive read ended: its sectors in order, or an error status (R345 detail 0x07). -/
inductive DriveReadResult where
  | ok (sectors : List Sector)
  | error
deriving DecidableEq, Repr

/-- One entry of a scatter-gather list (R269). -/
structure SglEntry where
  addr : Word64
  len : Word32
  zero : Word32
deriving DecidableEq, Repr

/-- What the read of a descriptor's scatter-gather list gave: no list was needed, its entries, or the detail of
R282 when it could not be read. -/
inductive SglFetch where
  | notNeeded
  | entries (es : List SglEntry)
  | unreadable (detail : Byte)
deriving DecidableEq, Repr

/-- What a calibration sweep of one bank measured (R376, R377): the column chosen per quadrant, the window of each in
percent of the level separation, whether the 64 KiB read-back was clean, and the bank temperature. -/
structure Sweep where
  q0 : BitVec 5
  q1 : BitVec 5
  q2 : BitVec 5
  q3 : BitVec 5
  windows : List Nat
  readbackClean : Bool
  tempC : Int
deriving DecidableEq, Repr

/-- One measurement of the start-up survey (R460): item, instance and value, none when it was not measured. -/
structure SurveyMeasure where
  item : Byte
  inst : Byte
  value : Option Int
deriving DecidableEq, Repr

/-- What bring-up learns of a drive (R324 to R326): the I/O queue pairs it allocates, CAP.MQES, the namespace 1
capacity, whether the format is 4096 + 64 without protection, a separate metadata buffer, dual porting, whether
deallocated blocks read as zero, the link rate and width reached, and the SMART bytes. -/
structure DriveInfo where
  pairs : Nat
  mqes : Nat
  sectors : Nat
  formatOk : Bool
  mdSep : Bool
  dual : Bool
  dlfeatZero : Bool
  gen : BitVec 2
  width : BitVec 3
  critWarn : Byte
  pctUsed : Byte
  nguid : Nat
deriving DecidableEq, Repr

/-- How the bring-up of R324 ended. -/
inductive BringupResult where
  | ok (info : DriveInfo)
  | failed
deriving DecidableEq, Repr

/-- The header fields of a pair-link flit that the receiver acts on (R411). -/
structure FlitHdr where
  seq : BitVec 12
  ack : BitVec 12
  credits : Byte
deriving DecidableEq, Repr

/-- What the host has programmed in a port's configuration space by the time its link serves requests (R424, R437, R439, R440):
Memory Space Enable, MSI-X Enable and Function Mask, 10-bit Tag Requester Enable, Completion Timeout Disable, ASPM L1, L0p
Enable on both partners, Max Payload Size and Max Read Request Size in bytes. -/
structure HostCfg where
  memEnable : Bool
  msixEnable : Bool
  functionMask : Bool
  tags10 : Bool
  ctoDisable : Bool
  aspmL1 : Bool
  l0pBoth : Bool
  mps : Nat
  mrrs : Nat
deriving DecidableEq, Repr

/-- One forwarded descriptor (R401): the reading side's ring and position, and its 64 bytes. -/
structure FwdDesc where
  ring : Half
  index : Half
  lap : Bool
  bytes : Bytes
deriving DecidableEq, Repr

/-- The state a partner reports in a STATE flit (R396, R412): `lowestState` is the state code of its lowest-numbered non-EMPTY set,
none when it holds none, `sameState` whether its pair-wide state is identical to this side's, `nguids` the NGUID of the dual-ported
drive at each port. -/
structure PartnerState where
  side : Bool
  device : Half
  epoch : Word32
  lowestState : Option (BitVec 3)
  sameState : Bool
  nguids : List (Nat × Nat)
  chainAddr : BitVec 5
  chainValid : Bool
  joining : Bool
  leaving : Bool
deriving DecidableEq, Repr

/-- A requester class of the Chart Unit (R99). -/
inductive LookupClass where
  | deadReckoning
  | hostIo
  | rebuild
  | scrub
deriving DecidableEq, Repr

/-- The four outstanding-read kinds a bus answer may belong to: which tag of which port (R285). -/
structure TagRef where
  port : Bool
  tag : BitVec 10
deriving DecidableEq, Repr

/-- A register of a Siette program (R88). -/
abbrev GReg := BitVec 4

/-- A word error that a command meets in the memories it reads: a word of Stripe Cache way i, corrected or not (R316); a word of
victim-tier slot t, or its address stamp (R316); the word of a decode-matrix cache entry (R55, R60). -/
inductive WordError where
  | line (i : Nat) (corrected : Bool)
  | slot (t : Nat) (stamp : Bool)
  | matrix (cluster : Bool) (profile : BitVec 6) (mask : Word64)
deriving DecidableEq, Repr

/-- What the words of a read of the Transfer Buffer, of OTP or of the firmware store showed: no error, one corrected in place, or one
that cannot be (R289, R479). -/
inductive WordCheck where
  | good
  | corrected
  | bad
deriving DecidableEq, Repr

/-- Which copies of a chart table word failed their check (R81): none, the one in the chart cache, both in the Map Store too, or the
one in the chart store as well. -/
inductive TableWords where
  | good
  | cacheBad
  | mapBad
  | allBad
deriving DecidableEq, Repr

/-- A word error of the Log (R105, R147): corrected; uncorrectable in one bank's copy; or a unit of a live record, named by its
SEQ, unreadable in both copies of a pair. -/
inductive LogWord where
  | corrected (bank : BitVec 5)
  | uncorrectable (bank : BitVec 5)
  | unreadable (pair : BitVec 3) (seq : Word64)
deriving DecidableEq, Repr

/-- The commands of the block, one per row of the opcode table, in its order. `ctx` names a Siette context: 0 to 63
are the lookup contexts of the Chart Unit (R98), 64 is the Reaction Sequencer (R359). -/
inductive Instr where
  -- start-up and resets
  | powerOn (bifur cold : Bool)
  | powerLoss
  | coldStartProceed
  | bootComplete (otp store : WordCheck)
  | startupCalibrationDone (calref0 calref1 : Nat) (sweeps : List Sweep)
  | mapStoreTrainingDone (eyes : List (Nat × Bool × Bool))
  | almanacComplete
  | surveyComplete (ms : List SurveyMeasure)
  | journalWalkEnd
  | setReplayEnd (set : BitVec 6) (ok : Bool)
  | softReset (key : Half)
  | chainReset (b0 b1 : Byte)
  | perstN (p : Bool)
  | perstNRelease (p : Bool)
  | flr (p : Bool)
  | d3hotEntry (p : Bool)
  | d0Return (p : Bool)
  | dockEnter
  | dockExit
  -- power hold and monitors
  | pwrwarnNAssert
  | railSample (mv : List Nat) (pwrwarnHigh : Bool)
  | holdQualificationExpiry
  | holdResume
  | junctionSample (tj : List (Option Int)) (banks : List (Option Int))
  -- fix and watches
  | fixPpsEdge (rising : Bool) (intervalNs : Nat) (leadNs : Int) (jitterPpb : Nat)
  | fixPpsLost
  | todLapse
  | watchBoundary
  | watchSeal
  | sealGraceExpiry (seq : Word64)
  | holdoverTick
  | watchLengthChange
  | generationLimit (set : BitVec 6)
  -- the Log
  | recordCommit (seq : Word64)
  | anchor
  | relocation
  | stripeCommit (set : BitVec 6) (stripe : BitVec 48) (rowFirst rowCount : Nat)
  | bankFailure (bank : BitVec 5)
  | bankErrorWindow (words : List LogWord)
  | resilverComplete (pair : BitVec 3)
  | lifeRecordDue
  | calTemperatureCheck (calref : Nat) (temps : List (Option Int))
  | calIntervalDue (bank : BitVec 5)
  | calFailHoldoffExpiry (bank : BitVec 5)
  | calRunStart
  | calCopyComplete
  | calSweepComplete (calref0 calref1 : Nat) (sweep : Sweep)
  | calBankSel (bank : BitVec 5) (value : Word32)
  -- rings
  | dataRingDoorbell (n : BitVec 10) (value : Word32)
  | commandRingDoorbell (c : BitVec 4) (value : Word32)
  | eventRingDoorbell (p : Bool) (value : Word32)
  | ringEnable (r : RingId)
  | ringDisable (n : BitVec 10)
  | commandRingDisable (c : BitVec 4)
  | eventRingDisable (p : Bool)
  | ringDisableComplete (r : RingId)
  | privLock
  | descriptorFetch (r : RingId)
  | descriptorReadComplete (r : RingId) (result : BusResult)
  | haltCloseEnd
  | ringReadTimeout (r : RingId)
  | ioRead (n : BitVec 10) (sgl : SglFetch) (errs : List WordError)
  | ioWrite (n : BitVec 10) (sgl : SglFetch) (errs : List WordError)
  | allocationRetry (n : BitVec 10)
  | ioWriteZeroes (n : BitVec 10)
  | ioVerify (n : BitVec 10)
  | ioNop (n : BitVec 10)
  | msixHoldoffExpiry (r : IrqSource)
  | msixUnmask (p : Bool) (vector : BitVec 11)
  -- the Command Interpreter
  | deferredCommandStart (src : CmdSrc)
  | bufferReadComplete (src : CmdSrc) (result : BusResult)
  | bufferReadTimeout (src : CmdSrc)
  | mgmtWatchdog
  | fwRestartDone
  | setCreate (src : CmdSrc)
  | setModify (src : CmdSrc)
  | setStart (src : CmdSrc)
  | setStop (src : CmdSrc)
  | setDelete (src : CmdSrc)
  | setRecover (src : CmdSrc)
  | setQuery (src : CmdSrc)
  | setReadPreserved (src : CmdSrc)
  | setDrainComplete (set : BitVec 6)
  | profileDefine (src : CmdSrc)
  | profileDelete (src : CmdSrc)
  | profileQuery (src : CmdSrc)
  | chartLoad (src : CmdSrc)
  | chartTableWrite (src : CmdSrc)
  | chartDelete (src : CmdSrc)
  | chartRevise (src : CmdSrc)
  | chartLookup (src : CmdSrc)
  | lookupAccept (cls : LookupClass)
  | lookupComplete (ctx : BitVec 7)
  | chartFlush
  | portQuery (src : CmdSrc)
  | portConfig (src : CmdSrc)
  | portFail (src : CmdSrc)
  | portRelease (src : CmdSrc)
  | portReset (src : CmdSrc)
  | portAdmin (src : CmdSrc)
  | groupPower (src : CmdSrc)
  | logQuery (src : CmdSrc)
  | watchSetTod (src : CmdSrc)
  | watchSetLength (src : CmdSrc)
  | watchQuery (src : CmdSrc)
  | cleanRange (src : CmdSrc)
  | invalRange (src : CmdSrc)
  | discardRange (src : CmdSrc)
  | wayMasks (src : CmdSrc)
  | regionSet (src : CmdSrc)
  | regionQuery (src : CmdSrc)
  | faultRead (src : CmdSrc)
  | faultAck (src : CmdSrc)
  | faultClear (src : CmdSrc)
  | faultLoadReaction (src : CmdSrc)
  | calRun (src : CmdSrc)
  | calQuery (src : CmdSrc)
  | lifeRead (src : CmdSrc)
  | lifeRecord (src : CmdSrc)
  | pairJoin (src : CmdSrc)
  | pairLeave (src : CmdSrc)
  | pairQuery (src : CmdSrc)
  | fwDownload (src : CmdSrc)
  | fwCommit (src : CmdSrc)
  | fwQuery (src : CmdSrc)
  | diagInject (src : CmdSrc)
  | diagEcho (src : CmdSrc)
  -- Siette
  | sAdd (ctx : BitVec 7) (rd ra rb : GReg)
  | sSub (ctx : BitVec 7) (rd ra rb : GReg)
  | sAnd (ctx : BitVec 7) (rd ra rb : GReg)
  | sOr (ctx : BitVec 7) (rd ra rb : GReg)
  | sXor (ctx : BitVec 7) (rd ra rb : GReg)
  | sShl (ctx : BitVec 7) (rd ra rb : GReg)
  | sShr (ctx : BitVec 7) (rd ra rb : GReg)
  | sAddi (ctx : BitVec 7) (rd ra : GReg) (imm : BitVec 18)
  | sAndi (ctx : BitVec 7) (rd ra : GReg) (imm : BitVec 18)
  | sOri (ctx : BitVec 7) (rd ra : GReg) (imm : BitVec 18)
  | sXori (ctx : BitVec 7) (rd ra : GReg) (imm : BitVec 18)
  | sShli (ctx : BitVec 7) (rd ra : GReg) (imm : BitVec 18)
  | sShri (ctx : BitVec 7) (rd ra : GReg) (imm : BitVec 18)
  | sMovi (ctx : BitVec 7) (rd : GReg) (lane : BitVec 2) (imm : BitVec 16)
  | sMovk (ctx : BitVec 7) (rd : GReg) (lane : BitVec 2) (imm : BitVec 16)
  | sMul (ctx : BitVec 7) (rd ra rb : GReg)
  | sMulhi (ctx : BitVec 7) (rd ra rb : GReg)
  | sDivm (ctx : BitVec 7) (rd ra rb : GReg)
  | sModr (ctx : BitVec 7) (rd ra rb : GReg)
  | sMix (ctx : BitVec 7) (rd ra rb : GReg)
  | sSltu (ctx : BitVec 7) (rd ra rb : GReg)
  | sSeq (ctx : BitVec 7) (rd ra rb : GReg)
  | sSel (ctx : BitVec 7) (rd rc ra rb : GReg)
  | sBz (ctx : BitVec 7) (ra : GReg) (off : BitVec 8)
  | sBnz (ctx : BitVec 7) (ra : GReg) (off : BitVec 8)
  | sBr (ctx : BitVec 7) (off : BitVec 8)
  | sSkeq (ctx : BitVec 7) (ra rb : GReg)
  | sSkne (ctx : BitVec 7) (ra rb : GReg)
  | sSklt (ctx : BitVec 7) (ra rb : GReg)
  | sLdt (ctx : BitVec 7) (rd ra : GReg) (table width : BitVec 2) (words : TableWords)
  | sPtest (ctx : BitVec 7) (rd ra : GReg)
  | sEmit (ctx : BitVec 7) (ra rb : GReg)
  | sFault (ctx : BitVec 7) (code : BitVec 14)
  | sCrr (ctx : BitVec 7) (rd : GReg) (index : BitVec 14)
  | sCrw (ctx : BitVec 7) (ra : GReg) (index : BitVec 14)
  | sRaise (ctx : BitVec 7) (ra : GReg) (event : BitVec 14)
  | sDone (ctx : BitVec 7)
  | actHalt (ctx : BitVec 7) (ra : GReg)
  | actPreserve (ctx : BitVec 7) (ra : GReg)
  | actStopSet (ctx : BitVec 7) (ra : GReg)
  | actFailPort (ctx : BitVec 7) (ra : GReg)
  | actContainHost (ctx : BitVec 7) (ra : GReg)
  | actClear (ctx : BitVec 7) (ra : GReg)
  | actLife (ctx : BitVec 7) (ra : GReg)
  | reactionStart
  -- coding clusters
  | codingPassDispatch
  | codingPassComplete (engine : BitVec 5) (outputs : List Bytes)
  | cesSelfTestComplete (cluster : Bool) (pass : Bool)
  | cesIdleSelfTest (pass0 pass1 : Bool)
  | decodeSolveComplete (cluster : Bool) (verified : Bool)
  -- drives
  | driveReadComplete (id : Nat) (result : DriveReadResult) (errs : List WordError)
  | driveWriteComplete (id : Nat) (ok : Bool)
  | driveFlushComplete (port : Byte) (ok : Bool)
  | driveAdminComplete (port : Byte) (ok : Bool) (cqe : Bytes) (data : Bytes)
  | driveShutdownComplete (port : Byte)
  | deadReckoningThreshold (id : Nat) (errs : List WordError)
  | hardTimeout (id : Nat)
  | portSealLimit (port : Byte)
  | writeLagLimit (id : Nat)
  | receiverDetection (port : Byte) (found : Bool)
  | driveBringupComplete (port : Byte) (result : BringupResult)
  | cstsRdyTimeout (port : Byte)
  | linkDown (port : Byte) (receiver : Bool)
  | recoveryTimeout (port : Byte)
  | portResetEnd (port : Byte) (receiver : Bool)
  | quarantineReset (port : Byte)
  | driveAsyncEvent (port : Byte) (critWarn : Byte)
  | healthPoll (logs : List (Byte × Byte × Byte))
  | driveDmaReject (port : Byte)
  | driveLinkErrorWindow (port : Byte) (errors : Nat)
  | driveL1Entry (port : Byte)
  | groupDrainEnd (group : BitVec 4)
  | drainTimeout (group : BitVec 4)
  | groupWakeDelay (group : BitVec 4) (receivers : List Byte)
  | catchupExtentDone (port : Byte) (extent : Nat)
  -- rebuild, scrub, arbitration
  | rebuildPacingWindow
  | rebuildStripeDone (set : BitVec 6) (stripe : BitVec 48)
  | rebuildRetakeLimit (set : BitVec 6) (stripe : BitVec 48)
  | rebuildCursorDurable (set : BitVec 6)
  | scrubPassStart
  | scrubPacingWindow
  | scrubRowReadComplete (set : BitVec 6) (stripe : BitVec 48) (row : Byte) (sectors : List (Nat × Sector))
  | rowArbitrationDone (set : BitVec 6) (stripe : BitVec 48) (row : Byte) (sectors : List (Nat × Sector))
  | scrubCursorSave
  | resyncRowDone (set : BitVec 6) (stripe : BitVec 48) (row : Byte) (sectors : List (Nat × Sector))
  -- Stripe Cache and Map Store
  | tierMoveComplete (key : Nat)
  | mapChannelFailure (ch : BitVec 3) (detail : Byte)
  | cacheInvalidationDone
  -- Data Movers
  | burstGrant (writeEngine : Bool) (words : WordCheck)
  | moverReadCompletion (t : TagRef) (result : BusResult)
  | moverReadTimeout (t : TagRef)
  | tagQuarantineExpiry (t : TagRef)
  | transferComplete (ch : BitVec 6)
  | flushReadComplete (ch : BitVec 6) (result : BusResult)
  | copy (ch : BitVec 6) (desc : BusResult) (srcList dstList : SglFetch)
  | channelEnable (ch : BitVec 6)
  | channelDisable (ch : BitVec 6)
  | swReq (ch : BitVec 6)
  | channelDesc (ch : BitVec 6) (value : Word64)
  | mqEnable (q : BitVec 3) (enable : Bool)
  | mqCons (q : BitVec 3) (value : Word32)
  | pwinPages (value : BitVec 13)
  -- pair link
  | pairLinkDown (detail : Byte)
  | pairLaneRetrain (lane : BitVec 3)
  | flitIdle (h : FlitHdr)
  | flitNak (h : FlitHdr)
  | flitMirror (h : FlitHdr) (position : Word64) (units : List Bytes)
  | flitMirrorAck (h : FlitHdr) (seqs : List Word64)
  | flitFwdDesc (h : FlitHdr) (descs : List FwdDesc)
  | flitFwdGrant (h : FlitHdr) (ref : Word64) (status detail : Byte) (watch : BitVec 48) (gen : Word32)
  | flitFwdData (h : FlitHdr) (ref : Word64) (data : Bytes)
  | flitFwdDone (h : FlitHdr) (ref : Word64) (status detail : Byte)
  | flitSealReady (h : FlitHdr) (watch : BitVec 48) (holdover : Bool)
  | flitMeta (h : FlitHdr) (token : Bool) (page : Bytes)
  | flitHaltNotice (h : FlitHdr)
  | flitState (h : FlitHdr) (ps : PartnerState)
  | joinTimeout
  | pairWaitExpiry
  | probeTimeout
  | fenceWaitExpiry
  | takeoverComplete
  | fenceInFall
  | fenceInRise
  -- Tilel chain
  | chainCmd (seq : Byte) (packet : Bytes)
  | scratchWrite (seq : Byte) (offset : Half) (data : Bytes)
  | scratchRead (seq : Byte) (offset count : Half)
  | chainTod (value : Word64)
  | chainEnum (hop : Byte)
  | alertQuery (seq : Byte)
  | chainProbe (seq src : Byte) (side : Bool)
  | probeReply (pairState : BitVec 3) (linkDown : Bool)
  | alertAck
  | chainBreak
  | chainFrameForward (dest : Byte) (frame : Bytes)
  | alertClr
  -- host ports
  | portContainment (p : Bool) (cause : Byte)
  | containNow (p : Bool)
  | hpuRelease (p : Bool) (viaVsec : Bool)
  | hostTlpError (p : Bool) (poisoned : Bool)
  | hostCorrectableWindow (p : Bool) (errors : Nat)
  | hostL1Entry (p : Bool)
  | l0pNarrow (p : Bool)
  | l0pWiden (p : Bool)
  | bar2Write (p : Bool) (addr : Word64) (data : Bytes)
  | bar2Read (p : Bool) (addr : Word64) (len : Nat) (words : WordCheck)
  | barSizeWrite (p : Bool) (code : BitVec 6)
  | bar0BadAccess (p : Bool) (offset : BitVec 26) (width : Nat)
  | pwinGo
  | pwinCommitInForce
  | poolPageRelease (page : BitVec 13)
  | registerWrite (p : Bool) (offset : BitVec 26) (wide : Bool) (value : Word64)
  | shutdownTimeout (port : Byte)
  | rangeWalkEnd (src : CmdSrc)
  | victimTierEmptied
  | jtagDebugAttempt
  | decayFloorCrossed (rail : BitVec 3)
  | controllerFatalStatus (port : Byte)
  | uncorrectableLinkError (port : Byte) (receiver : Bool)
  | flitError (again : Bool)
  | chainFrameCrcError (toThisUnit : Bool)
  | hotReset (p : Bool)
  | hostLinkUp (p : Bool) (speed : BitVec 4) (width : BitVec 6) (cfg : HostCfg)
  | gapClosed
  | lowerHalfRead (p : Bool) (offset : BitVec 26)
  | dpgClkreqN (group : BitVec 4) (low : Bool)
deriving DecidableEq, Repr

end Sys2Proof
end

