-- ==== Sys2Proof/Decode.lean ====
section
/-! DEFINITION. The decoder of table words. spec/opcode_table.json gives no row any bits: the block is commanded by register
writes, ring entries, frames, pins and events, and none of its commands is a word of the table. The Siette instruction
words, which the spec does encode (R90, R91), are decoded where programs run (Machine/Siette.lean). -/

namespace Sys2Proof

/-- The command that a table word spells: none, since no row of the table has bits. -/
def decodeTableWord (_nbits _w : Nat) : Option Instr := none

end Sys2Proof
end

