-- ==== Sys2Proof/Machine/Bits.lean ====
section
/-! DEFINITION. Bit fields and little-endian byte order (spec/00_scope.md R5). -/

namespace Sys2Proof.Machine

/-- The field of `len` bits from bit `lo` of a number. -/
def bitsOf (w lo len : Nat) : Nat := w / 2 ^ lo % 2 ^ len

/-- Bit i of a number. -/
def bitOf (w i : Nat) : Bool := w / 2 ^ i % 2 == 1

/-- A Bool as 0 or 1. -/
def ofBool (b : Bool) : Nat := if b then 1 else 0

/-- The number with the field of `len` bits from bit `lo` replaced. -/
def putBits (w lo len v : Nat) : Nat :=
  w - bitsOf w lo len * 2 ^ lo + v % 2 ^ len * 2 ^ lo

/-- The little-endian number in a run of bytes (R5). -/
def leNat : Bytes → Nat
  | [] => 0
  | b :: bs => b.toNat + 256 * leNat bs

/-- The little-endian number of `n` bytes at offset `off` (R5). -/
def leAt (bs : Bytes) (off n : Nat) : Nat := leNat ((bs.drop off).take n)

/-- The n little-endian bytes of a number (R5). -/
def leBytes : Nat → Nat → Bytes
  | 0, _ => []
  | n + 1, v => BitVec.ofNat 8 v :: leBytes n (v / 256)

/-- Byte at an offset, zero past the end. -/
def byteAt (bs : Bytes) (off : Nat) : Byte := bs.getD off 0

/-- n bytes of a run from an offset, padded with zeros past the end. -/
def sliceAt (bs : Bytes) (off n : Nat) : Bytes := (List.range n).map (fun i => byteAt bs (off + i))

/-- n equal bytes. -/
def fill (n : Nat) (b : Byte) : Bytes := List.replicate n b

/-- Whether every byte of a run is zero. -/
def allZero (bs : Bytes) : Bool := bs.all (· == 0)

/-- The offset of the first non-zero byte among n bytes from an offset. -/
def firstNonZero (bs : Bytes) (off n : Nat) : Option Nat :=
  (List.range n).findSome? (fun i => if byteAt bs (off + i) == 0 then none else some (off + i))

/-- A signed number as n bits, two's complement. -/
def signedNat (n : Nat) (v : Int) : Nat := (v % (2 ^ n : Nat)).toNat

/-- A number of n bits read as two's complement. -/
def signedOf (n w : Nat) : Int := if w % 2 ^ n < 2 ^ (n - 1) then (w % 2 ^ n : Nat) else (w % 2 ^ n : Nat) - (2 ^ n : Nat)

/-- The indices below n whose bit is set. -/
def bitList (n w : Nat) : List Nat := (List.range n).filter (fun i => bitOf w i)

/-- The mask with the listed bits set. -/
def maskOf (is : List Nat) : Nat := is.foldl (fun m i => if bitOf m i then m else m + 2 ^ i) 0

/-- Saturation at 2^n − 1. -/
def satTo (n v : Nat) : Nat := min v (2 ^ n - 1)

/-- A list with the entries equal to x removed. -/
def without {α : Type} [DecidableEq α] (l : List α) (x : α) : List α := l.filter (fun y => decide (y ≠ x))

/-- A list with x in it, at the end if it was not there. -/
def withElem {α : Type} [DecidableEq α] (l : List α) (x : α) : List α := if x ∈ l then l else l ++ [x]

end Sys2Proof.Machine
end

