-- ==== Sys2Proof/Config.lean ====
section
/-! DEFINITION. What the spec leaves to the implementation or leaves open, as constants with no value a proof can use,
and the fixed constants of the part (spec/00_scope.md R1). -/

namespace Sys2Proof

/-- The three parts of R1. -/
inductive Part where
  | np9256
  | np9192
  | np9128
deriving DecidableEq, Repr

namespace Config

/-- FREE VALUE. A 64-bit value the spec calls undefined (R281: BYTES and DESC after a disable), applied to the state's
counter of such values. -/
opaque freeWord : Nat → Word64

/-- UNINTERPRETED. SHA-384 of R473 and R474, a function of the standard that the spec only names. -/
opaque sha384 : Bytes → Bytes

/-- UNINTERPRETED. ECDSA P-384 verification of R473 and R474: public key, digest, signature. -/
opaque ecdsaVerify : Bytes → Bytes → Bytes → Bool

/-- UNINTERPRETED. Where the spec lets the movers choose (R424, R285): how a host read tag is numbered. -/
opaque freeTag : Nat → BitVec 10

/-- Drive ports of the part (R1). -/
def ports : Part → Nat
  | .np9256 => 256
  | .np9192 => 192
  | .np9128 => 128

/-- Port groups of the part (R1). -/
def groups : Part → Nat
  | .np9256 => 16
  | .np9192 => 12
  | .np9128 => 8

/-- Coding clusters of the part (R1). -/
def clusters : Part → Nat
  | .np9256 => 2
  | .np9192 => 2
  | .np9128 => 1

/-- Log banks of the part (R102). -/
def banks : Part → Nat
  | .np9256 => 17
  | .np9192 => 17
  | .np9128 => 9

/-- Mirror pairs of the part (R102). -/
def pairs : Part → Nat
  | .np9256 => 8
  | .np9192 => 8
  | .np9128 => 4

/-- Peer windows of the part (R1). -/
def windows : Part → Nat
  | .np9256 => 64
  | .np9192 => 64
  | .np9128 => 16

/-- Whether the part has the pair link (R1). -/
def hasPair : Part → Bool
  | .np9256 => true
  | .np9192 => true
  | .np9128 => false

/-- PCI Device ID (R1, R425). -/
def device : Part → Half
  | .np9256 => 0x9256#16
  | .np9192 => 0x9192#16
  | .np9128 => 0x9128#16

/-- Journal units (R108). -/
def journalUnits : Part → Nat
  | .np9256 => 14680064
  | .np9192 => 14680064
  | .np9128 => 7340032

/-- Chart store size in KiB (R77). -/
def chartStoreKib : Part → Nat
  | .np9256 => 65536
  | .np9192 => 65536
  | .np9128 => 32768

/-- Limit of journaled data no COMMIT record covers, in sectors of 4 KiB (R135). -/
def uncoveredSectors : Part → Nat
  | .np9256 => 65536
  | .np9192 => 65536
  | .np9128 => 32768

/-- Rebuild and scrub read limit in bytes per 1 ms window (R185): 700 or 450 GB/s. -/
def rebuildBytesPerMs : Part → Nat
  | .np9256 => 700000000
  | .np9192 => 700000000
  | .np9128 => 450000000

end Config
end Sys2Proof
end

