-- ==== Sys2Proof/Machine/Tab.lean ====
section
/-! DEFINITION. Sparse tables, the one way the model keeps indexed state: a list of (key, value) pairs with keys strictly
rising and no entry equal to what an unlisted key reads as. Memory of bytes is a table of bytes. -/

namespace Sys2Proof.Machine

/-- A sparse table. -/
abbrev Tab (α : Type) := List (Nat × α)

/-- The value at key k, d where k is not listed. -/
def Tab.get {α : Type} (t : Tab α) (d : α) (k : Nat) : α :=
  match t with
  | [] => d
  | (j, v) :: r => if j = k then v else Tab.get r d k

/-- The entry inserted at its place, an entry of that key replaced. -/
def Tab.insert {α : Type} (t : Tab α) (k : Nat) (v : α) : Tab α :=
  match t with
  | [] => [(k, v)]
  | (j, w) :: r =>
    if k < j then (k, v) :: (j, w) :: r
    else if k = j then (k, v) :: r
    else (j, w) :: Tab.insert r k v

/-- The table without key k. -/
def Tab.remove {α : Type} (t : Tab α) (k : Nat) : Tab α :=
  match t with
  | [] => []
  | (j, w) :: r => if j = k then Tab.remove r k else (j, w) :: Tab.remove r k

/-- Key k set to v: the canonical form is kept, since writing what an unlisted key reads as removes the entry. -/
def Tab.set {α : Type} [DecidableEq α] (t : Tab α) (d : α) (k : Nat) (v : α) : Tab α :=
  if v = d then t.remove k else t.insert k v

/-- Key k changed by f. -/
def Tab.modify {α : Type} [DecidableEq α] (t : Tab α) (d : α) (k : Nat) (f : α → α) : Tab α :=
  t.set d k (f (t.get d k))

/-- Every listed entry changed by f; an entry that becomes the default leaves the list. -/
def Tab.mapV {α : Type} [DecidableEq α] (t : Tab α) (d : α) (f : Nat → α → α) : Tab α :=
  match t with
  | [] => []
  | (k, v) :: r => if f k v = d then Tab.mapV r d f else (k, f k v) :: Tab.mapV r d f

/-- The listed keys whose value satisfies p. -/
def Tab.keysWith {α : Type} (t : Tab α) (p : Nat → α → Bool) : List Nat :=
  (t.filter (fun e => p e.1 e.2)).map (fun e => e.1)

/-- Keys strictly rising, all above b. -/
def Tab.rising {α : Type} (b : Option Nat) (t : Tab α) : Bool :=
  match t with
  | [] => true
  | (k, _) :: r => (match b with
    | none => true
    | some j => decide (j < k)) && Tab.rising (some k) r

/-- The canonical form: keys strictly rising, no entry equal to the default. -/
def Tab.wf {α : Type} [DecidableEq α] (t : Tab α) (d : α) : Bool :=
  Tab.rising none t && t.all (fun e => decide (e.2 ≠ d))

/-- Memory: bytes by address (Host.Cell), an unlisted byte reads as 0 (DESIGN CHOICE, log entry 5). -/
abbrev Memory := Tab Byte

/-- One byte of a memory. -/
def Memory.read (m : Memory) (a : Nat) : Byte := Tab.get m 0#8 a

/-- One byte written. -/
def Memory.write (m : Memory) (a : Nat) (b : Byte) : Memory := Tab.set m 0#8 a b

/-- n bytes from address a. -/
def Memory.readBytes (m : Memory) (a : Nat) : Nat → Bytes
  | 0 => []
  | n + 1 => Memory.read m a :: Memory.readBytes m (a + 1) n

/-- A run of bytes written from address a. -/
def Memory.writeBytes (m : Memory) (a : Nat) : Bytes → Memory
  | [] => m
  | b :: bs => Memory.writeBytes (Memory.write m a b) (a + 1) bs

/-- The canonical form of a memory. -/
abbrev Memory.wf (m : Memory) : Bool := Tab.wf m 0#8

end Sys2Proof.Machine
end

