-- ==== Sys2Proof/Machine/State.lean ====
section
/-! DEFINITION. The state of the controller as plain data: every register, ring, queue, buffer, counter, mode and pin the
spec names, grouped by the unit that owns it (spec/01_promises.md, Three planes), the queue of waiting commands, and
State.reset. A register whose content is not kept in a richer field here lives in `regs`, keyed by its BAR0 offset. -/

namespace Sys2Proof.Machine

/-- No command of this block ends the machine with a fault: every error the spec describes is a status, a fault record,
a containment or a halt after which registers can still be read. The type has no constructor; nobody raises it. -/
inductive Fault where
deriving DecidableEq, Repr

/-- Why a command has no meaning. -/
inductive Refusal where
  /-- Raised by Machine/Dispatch.lean for a command that has no meaning yet; safe. -/
  | notModelled (mnemonic : String)
deriving DecidableEq, Repr

/-! ## Global control -/

/-- Start-up phases of R458 and R480. -/
inductive Phase where
  | boot
  | survey
  | recovery
  | running
  | dock
  | romRecovery
deriving DecidableEq, Repr

/-- Fault levels (R348). -/
inductive Level where
  | note
  | warn
  | contain
  | stop
deriving DecidableEq, Repr

/-- Reset kinds that GCS.LAST_RESET records (R480). -/
inductive ResetKind where
  | powerOn
  | soft
  | chain
deriving DecidableEq, Repr

/-- One entry of GCS.SURVEYn (R480). -/
structure SurveyEntry where
  item : Byte
  inst : Byte
  verdict : BitVec 2
  value : Int
  limit : Half
deriving DecidableEq, Repr

/-- Global control: fuses, straps, power pins, phase, halt (R1, R423, R458, R221, R464, R468). `resetNow` is the reset in
progress (R463), `lastReset` the one that last completed (R480). -/
structure Gcs where
  part : Part
  bifur : Bool
  pwrgd : Bool
  coldWait : Bool
  phase : Phase
  calDone : Bool
  mapTrained : Bool
  almanac : Bool
  surveyDone : Bool
  halted : Bool
  haltClosing : Bool
  haltReason : Byte
  haltCmd : Bool
  haltRing : Nat
  haltIndex : Nat
  haltLap : Bool
  lastReset : ResetKind
  resetNow : Option ResetKind
  writeDrivers : Bool
  survey : List SurveyEntry
  surveyKept : Bool
  surveyPosted : List Bool
  deferredCalendar : List Nat
  latch : Tab (Option Word32)
  splitLow : Tab (Option Word32)
deriving DecidableEq, Repr

/-! ## Fault Collector and Siette -/

/-- FLT.SRCn (R368). -/
structure SrcState where
  count : Nat
  openLevel : Level
  isOpen : Bool
  injected : Bool
  lastDetail : Byte
deriving DecidableEq, Repr

/-- The first-fault record (R353). -/
structure FirstFault where
  source : Byte
  level : Level
  detail : Byte
  fixNs : Word64
  valid : Bool
  injected : Bool
  overflow : Bool
  acked : Bool
  escalated : Bool
deriving DecidableEq, Repr

/-- A queued reaction with its preloads (R358, R360). -/
structure Reaction where
  source : Byte
  level : Level
  nominal : Level
  detail : Byte
  injected : Bool
  escalated : Bool
  latched : Bool
  overflow : Bool
  fixNs : Word64
  count : Nat
  port : Nat
deriving DecidableEq, Repr

/-- A table of a chart or of a reaction program (R76, R365): entry width code and bytes. -/
structure STable where
  width : BitVec 2
  size : Nat
  bytes : Memory
deriving DecidableEq, Repr

/-- A stored Siette program with its tables T0 to T3. -/
structure SProg where
  code : List Word32
  tables : Tab (Option STable)
deriving DecidableEq, Repr

/-- How a Siette program ended (R88). -/
inductive SEnd where
  | emit (port : Byte) (dba : Word64)
  | fault (detail code : Byte)
  | done
deriving DecidableEq, Repr

/-- A revision descriptor (R82): retire entries hold the retired port, none where not VALID. -/
structure Revision where
  rev : Half
  slot : BitVec 7
  params : Tab Word64
  retire : Tab (Option Byte)
deriving DecidableEq, Repr

/-- What a drive command serves. -/
inductive Purpose where
  | hostRead (io : Nat)
  | verify (io : Nat)
  | commitRead (seq : Nat)
  | reconstruct (op : Nat)
  | rebuild
  | scrub
  | arbitration
  | prefetch
  | preserved
  | hostWrite (io : Nat)
  | stripeCommit (seq : Nat)
  | replay
  | repair
  | rebuildWrite
  | resync
  | catchup
  | management
deriving DecidableEq, Repr

/-- A chart lookup that a read needs: whom it serves and the revision its stripe operation sampled (R71, R83, R100). `id`
is also the id of the drive command that follows it. -/
structure LookupReq where
  id : Nat
  cls : LookupClass
  set : BitVec 6
  stripe : Nat
  frag : Nat
  row : Nat
  rev : Revision
  purpose : Purpose
deriving DecidableEq, Repr

/-- What a Siette context runs for: nothing, a chart lookup (R71, R98), or a reaction (R359). -/
inductive SUse where
  | idle
  | lookup (r : LookupReq)
  | reaction (r : Reaction)
deriving DecidableEq, Repr

/-- One Siette machine (R88): sixteen registers, program counter, and what it runs. -/
structure SCtx where
  use : SUse
  g : Tab Word64
  pc : Nat
  steps : Nat
  prog : SProg
  ended : Option SEnd
  setSel : Word64
  srcSel : Word64
deriving DecidableEq, Repr

/-- An entry of the reaction event log (R363). -/
structure RevEntry where
  code : BitVec 14
  source : Byte
  level : Level
  seq : Word32
  payload : Word64
deriving DecidableEq, Repr

/-- The Fault Collector and the Reaction Sequencer (R347 to R368). -/
structure Flt where
  first : FirstFault
  srcs : Tab SrcState
  queue : List Reaction
  loaded : Tab (Option SProg)
  rev : Tab (Option RevEntry)
  revSeq : Word32
  pinLow : Bool
deriving DecidableEq, Repr

/-! ## Array sets, profiles, charts -/

/-- Set states with their codes 0 to 4 (R33, R233). -/
inductive SetState where
  | empty
  | stopped
  | running
  | draining
  | preserved
deriving DecidableEq, Repr

/-- Write policies (R29, R251). -/
inductive WritePolicy where
  | journalAll
  | journalPartial
  | writeThrough
  | readOnly
deriving DecidableEq, Repr

/-- A region of a set (R307). -/
structure Region where
  policy : WritePolicy
  sealedAck : Bool
  first : Nat
  blocks : Nat
deriving DecidableEq, Repr

/-- A stripe range of an intent on a resync list (R141, R142). -/
structure Resync where
  seq : Nat
  stripe : Nat
  count : Nat
  rowsDone : List (Nat × Nat)
  watch : BitVec 48
  generation : Word32
deriving DecidableEq, Repr

/-- A stripe that rebuild has in flight (R183). -/
structure RebuildStripe where
  stripe : Nat
  takes : Nat
  done : Bool
  touched : Bool
deriving DecidableEq, Repr

/-- An array set: the attributes of R29, its revisions (R83), regions, cursors and the lists recovery keeps. -/
structure ArraySet where
  state : SetState
  incarnation : Word32
  members : List Byte
  profile : BitVec 6
  fragLog2 : Nat
  stripeCount : BitVec 48
  writePolicy : WritePolicy
  sealedAck : Bool
  paritySeal : Bool
  drThreshUs : Word32
  current : Revision
  pending : Option Revision
  queued : Option Revision
  cursor : BitVec 48
  candidate : BitVec 48
  inFlight : List RebuildStripe
  lostRows : Nat
  extents : List Nat
  scrubCursor : BitVec 48
  scrubLive : BitVec 48
  scrubGrant : BitVec 48
  scrubRow : Nat
  regions : Tab (Option Region)
  liveRegions : Tab (Option Region)
  resync : List Resync
  unresolved : List (Nat × Nat)
  suspects : List (Nat × Nat × Nat)
  replaying : Bool
  replayed : Bool
  heldStripes : List Nat
  genWatch : BitVec 48
  generation : Nat
  side : Bool
  ownedFrom : BitVec 48
  adopted : Option (BitVec 48)
  lostPosted : List (Nat × Nat)
deriving DecidableEq, Repr

/-- Code types of R44 with their codes 0 to 3. -/
inductive CodeType where
  | replica
  | xor
  | rs
  | lrc
deriving DecidableEq, Repr

/-- A code profile (R44): PAR is c, 1, m or g, LOCAL is l. -/
structure Profile where
  typ : CodeType
  k : Nat
  par : Nat
  loc : Nat
deriving DecidableEq, Repr

/-- The Chart Unit's store (R76, R77) and its cached lines (R80), a line named by slot, table and 64-byte line. -/
structure Cht where
  progs : Tab (Option (List Word32))
  tables : Tab (Option STable)
  cached : List (Nat × Nat)
  waiting : List LookupReq
  bgCredit : Nat
  firstFault : Word64
deriving DecidableEq, Repr

/-! ## The Log -/

/-- Record types of R113; DATA and COMMIT are the two kinds of redo. -/
inductive RecType where
  | intent
  | data
  | commit
  | sealRec
  | retire
  | life
deriving DecidableEq, Repr

/-- Where a record stands: its units being written, durable in every copy, ended without effect (R112). -/
inductive RecStatus where
  | writing
  | committed
  | abandoned
deriving DecidableEq, Repr

/-- A Log record (R113 to R120). `sectors` is the payload: (fragment, row, 4096 bytes). `partner` is set once the partner
copy is durable (R403); `openWrites` are the drive commands it still waits for (R121). `names` holds what a retire record
names, and the rows of a DATA record that are not yet durable on the drives (R133). -/
structure Rec where
  seq : Nat
  typ : RecType
  pos : Nat
  units : Nat
  set : BitVec 6
  profile : BitVec 6
  rowFirst : Nat
  rowCount : Nat
  incarnation : Word32
  generation : Word32
  watch : BitVec 48
  stripe : Nat
  stripeCount : Nat
  fragMask : Word64
  lwm : Word64
  encode : Bool
  zero : Bool
  relocated : Bool
  holdover : Bool
  sectors : List (Nat × Nat × Bytes)
  names : List Nat
  fixNs : Word64
  status : RecStatus
  retired : Bool
  sealedAck : Bool
  io : Option Nat
  localDone : Bool
  partner : Bool
  covered : Bool
  reserve : Nat
  openWrites : List Nat
  mirror : Bool
  filled : Bool
deriving DecidableEq, Repr

/-- An anchor (R110). -/
structure Anchor where
  pos : Nat
  seq : Nat
  epoch : Nat
  watchHw : BitVec 48
  fixNs : Word64
deriving DecidableEq, Repr

/-- A mirror pair's role (R102, R103): its banks, single copy, and the bank that resilvering fills. -/
structure PairRole where
  copyA : BitVec 5
  copyB : BitVec 5
  single : Bool
  resilvering : Bool
  target : BitVec 5
deriving DecidableEq, Repr

/-- A life record's content (R120). -/
structure Life where
  seq : Nat
  fixNs : Word64
  writes : Tab Nat
  tmax : Tab Int
  powerOnS : Nat
  hotS : Nat
deriving DecidableEq, Repr

/-- The Log (R102 to R148). Records are kept oldest first, retired ones until the tail passes them. `life` is the newest
committed life record, `lives` those appended and not yet committed; the running counters of R120 stand beside them. `walked`
once the journal walk of a start-up has ended (R140). -/
structure Log where
  recs : List Rec
  head : Nat
  nextSeq : Nat
  anchors : Tab (Option Anchor)
  anchorSlot : Nat
  epoch : Nat
  tailMoved : Nat
  replaying : Bool
  paced : Bool
  full : Bool
  credit : Int
  creditAt : Word64
  freed : List (Word64 × Nat)
  pacedAdds : List (Word64 × Nat)
  pairs : List PairRole
  spare : Option (BitVec 5)
  fenced : List (BitVec 5)
  life : Life
  lives : List Life
  bankWrites : Tab Nat
  tmax : Tab Int
  powerOnS : Nat
  hotS : Nat
  walked : Bool
deriving DecidableEq, Repr

/-! ## The Watch Timer -/

/-- Timer states with their codes 0 to 4 (R152). -/
inductive TimerState where
  | unset
  | acquiring
  | locked
  | holdover
  | slewing
deriving DecidableEq, Repr

/-- The Watch Timer (R149 to R166). `fracPs` is the part of fix time below 1 ns in tenths of a ps, `todSrc` names the command
that submitted the pending value, `gapTenths` is the part of a negative Δ not yet closed in the same unit, and
`closedFlags` the HOLDOVER flags of closed watches not yet sealed, by the highest watch of each run. -/
structure Wch where
  fixNs : Word64
  fracPs : Nat
  timer : TimerState
  beyond : Bool
  length : Nat
  nextLength : Option (Nat × Word64)
  sealedWatch : BitVec 48
  sealedHoldover : Bool
  closed : BitVec 48
  holdoverSeen : Bool
  tod : Option Word64
  todArrival : Word64
  todSrc : Option CmdSrc
  offsetNs : Int
  consecutive : Nat
  rejectedRun : Nat
  edgeAnchored : Bool
  holdBase : Nat
  holdS : Nat
  holdRate : Nat
  maxDrift : Nat
  ppsCount : Nat
  ppsReject : Nat
  closing : Bool
  gapTenths : Nat
  closedFlags : List (Nat × Bool)
  partnerReady : List (BitVec 48 × Bool)
  ownReady : BitVec 48
deriving DecidableEq, Repr

/-! ## Rings and I/O -/

/-- Ring states with their codes 0 to 4 (R210). -/
inductive RingState where
  | disabled
  | active
  | disabling
  | faulted
  | halted
deriving DecidableEq, Repr

/-- A data descriptor as read (R217). -/
structure Desc where
  pos : Nat
  opcode : Byte
  flags : Byte
  set : Byte
  mode : Byte
  blocks : Nat
  tag : Word64
  lba : Nat
  addr0 : Word64
  addr1 : Word64
  len0 : Nat
  len1 : Nat
deriving DecidableEq, Repr

/-- An event record (R233), without its PHASE, which its place in the ring gives. -/
structure EventRecord where
  typ : Byte
  lap : Bool
  kindCmd : Bool
  status : Byte
  detail : Byte
  ring : Half
  index : Half
  tag : Word64
  lba : BitVec 48
  setId : Byte
  count : Word32
  aux : Word32
deriving DecidableEq, Repr

/-- An ended entry that the head has not passed: its position, the record it needs, and the outcome (R228). -/
structure Ended where
  pos : Nat
  status : Byte
  record : Option EventRecord
deriving DecidableEq, Repr

/-- A ring context (R208 to R210) beyond its configuration registers: positions count modulo 2N. `queue` holds
descriptors read and not admitted, `ended` the outcomes waiting for the head, `hold` an event ring's hold (R236). -/
structure Ring where
  state : RingState
  head : Nat
  tail : Nat
  fetched : Nat
  inRead : Nat
  retried : Bool
  queue : List Desc
  ended : List Ended
  exc : Word32
  ignored : Nat
  doneCount : Nat
  stallUs : Nat
  stallSince : Word64
  evtWait : Bool
  admitWait : Bool
  unsignalled : Nat
  hold : List EventRecord
  isFull : Bool
  fullOwed : Bool
  dropped : Nat
  fullUs : Nat
  fullSince : Word64
  droppedNow : Nat
  dropEpisode : Bool
  waitB : List EventRecord
  lastTurn : Bool
deriving DecidableEq, Repr

/-- The kind of an I/O operation (R218). -/
inductive IoKind where
  | read
  | write
  | writeZeroes
  | verify
deriving DecidableEq, Repr

/-- An admitted descriptor that has not ended. `waits` pairs the id of a read with the block it brings, `lost`
its lost blocks, `blocks` the data gathered or written, `ranges` the host or
pool ranges of the descriptor, `waitRecs` and `waitWrites` the records and drive writes still
to come, `fwd` whether the partner forwarded it, `away` whether this side forwarded it to the partner, `inbound` the bytes that
FWD_DATA flits have brought for it (R401). -/
structure Io where
  id : Nat
  ring : BitVec 10
  kind : IoKind
  desc : Desc
  set : BitVec 6
  watch : BitVec 48
  generation : Word32
  holdover : Bool
  blocks : List (Nat × Bytes)
  waits : List (Nat × Nat)
  lost : List Nat
  waitRecs : List Nat
  waitWrites : List Nat
  waitSeal : Bool
  committed : Bool
  dataIn : Bool
  lined : Bool
  ranges : List (Nat × Nat)
  held : List (Nat × Nat)
  fwd : Bool
  away : Bool
  inbound : Bytes
deriving DecidableEq, Repr

/-! ## Drives -/

/-- The drive commands of R328. -/
inductive DriveOp where
  | read
  | write
  | flush
  | shutdown
  | deallocate
  | writeZeroes
  | admin (opcode : Byte)
deriving DecidableEq, Repr

/-- A command outstanding to a drive, or its quarantined remains after it ended for the controller (R332). -/
structure DriveCmd where
  id : Nat
  port : Byte
  op : DriveOp
  purpose : Purpose
  set : BitVec 6
  stripe : Nat
  frag : Nat
  row : Nat
  dba : Nat
  sector : Option Sector
  slow : Bool
  lagged : Bool
  quarantined : Bool
  discard : Bool
  rowTouched : Bool
  issued : Bool
deriving DecidableEq, Repr

/-- Port states with their codes 0 to 8 (R322). -/
inductive PortState where
  | empty
  | training
  | ready
  | recovery
  | contained
  | resetting
  | dark
  | error
  | merged
deriving DecidableEq, Repr

/-- A drive port (R318 to R346). `catchupNext` is the next stripe that catch-up takes (R342 step 5). -/
structure Port where
  state : PortState
  failed : Bool
  catchup : Bool
  formatOk : Bool
  dual : Bool
  mdSep : Bool
  gen : BitVec 2
  genMax : BitVec 2
  width : BitVec 3
  warning : Bool
  critWarn : Byte
  pctUsed : Byte
  nsze : Nat
  recordedCapacity : Option Nat
  pairsGranted : Nat
  depthLog2 : Nat
  catchupMap : List Nat
  shutdownSent : Bool
  shutdownDone : Bool
  resetSrc : Option CmdSrc
  adminSrc : Option CmdSrc
  inL1 : Bool
  nguid : Nat
  sealFails : Nat
  catchupNext : Nat
deriving DecidableEq, Repr

/-- Group states with their codes 0 to 3 (R339). -/
inductive GroupState where
  | powered
  | draining
  | dark
  | waking
deriving DecidableEq, Repr

/-- A port group (R339 to R342). -/
structure Group where
  state : GroupState
  pwren : Bool
  perstLow : Bool
  clkreqLow : Bool
  force : Bool
  leftovers : Nat
  src : Option CmdSrc
  lastPort : Byte
  lastDetail : Byte
  lastLink : Bool
deriving DecidableEq, Repr

/-! ## Reconstruction, arbitration, coding -/

/-- Why a row is read beyond the sector asked for: to decode it (R172), to decide a BLANK or FOREIGN sector (R69), for
VERIFY (R218), or for the parity seal (R70). -/
inductive RowMode where
  | decode
  | wholeRow
  | verify
  | sealCheck
deriving DecidableEq, Repr

/-- A reconstruction of one fragment of one row (R172, R173): `orig` is the id of the read it answers for, `mask` the erasure
mask, `chosen` the fragments read, `got` those that arrived CURRENT, `bad` the others of a whole-row read (R69). -/
structure RowOp where
  id : Nat
  set : BitVec 6
  stripe : Nat
  row : Nat
  frag : Nat
  orig : Nat
  rev : Revision
  mask : Word64
  chosen : List Nat
  verifier : Option Nat
  got : List (Nat × Sector)
  bad : List Nat
  blanks : List Nat
  waiting : List Nat
  cluster : Bool
  solveWait : Bool
  passWait : Bool
  used : Option Bytes
  verified : Bool
  voided : Bool
  mode : RowMode
  purpose : Purpose
  age : Nat
  vp : Option (Nat × Nat)
  vmask : Word64
  touched : Bool
  readers : List (BitVec 10 × Desc)
deriving DecidableEq, Repr

/-- A new data sector of a stripe commit at the version of its newest DATA record (R131). -/
structure NewSector where
  frag : Nat
  row : Nat
  data : Bytes
  ver : Nat × Nat
  zero : Bool
  holdover : Bool
deriving DecidableEq, Repr

/-- A stripe commit of a run of rows with one parity version (R131), or the encoding of an intent-only write (`intent` is
its record): the new data, what was read, the reads outstanding as (read id, fragment, row), the parity once computed, the
COMMIT record once appended, and whether it has left its first method for the other (R502). -/
structure CommitOp where
  id : Nat
  set : BitVec 6
  stripe : Nat
  rowFirst : Nat
  rowCount : Nat
  vp : Nat × Nat
  lwm : Word64
  zero : Bool
  holdover : Bool
  rev : Revision
  data : List NewSector
  rmw : Bool
  encode : Bool
  got : List (Nat × Nat × Sector)
  waits : List (Nat × Nat × Nat)
  parity : List (Nat × Nat × Bytes)
  dataRecs : List Nat
  record : Option Nat
  intent : Option Nat
  tried : Bool
deriving DecidableEq, Repr

/-- A coding pass: coefficient rows over its input streams of `bytes` bytes (R56, R57), for a reconstruction or a stripe
commit. -/
structure Pass where
  id : Nat
  coeffs : List Bytes
  inputs : List Bytes
  rowOp : Option Nat
  commit : Option Nat
  bytes : Nat
deriving DecidableEq, Repr

/-- A coding cluster (R54 to R61): engines 0 to 7 and CE-S as 8. -/
structure Cluster where
  fenced : List Nat
  spareFor : Option Nat
  spareOk : Bool
  spareTesting : Bool
  queues : Tab (List Pass)
  solverFenced : Bool
  solveRetried : Bool
  solves : List (BitVec 6 × Word64)
  cache : List (BitVec 6 × Word64)
deriving DecidableEq, Repr

/-! ## Stripe Cache -/

/-- Line states of R295. -/
inductive LineState where
  | invalid
  | filling
  | clean
  | pending
  | dirty
deriving DecidableEq, Repr

/-- The key of a line (R294). -/
structure LineKey where
  set : BitVec 6
  stripe : Nat
  frag : Nat
  row : Nat
deriving DecidableEq, Repr

/-- A Stripe Cache line or a victim-tier slot (R293 to R306). -/
structure Line where
  state : LineState
  key : LineKey
  data : Bytes
  sl : Seal
  age : Nat
  pin : Bool
  doa : Bool
  stale : Bool
  prefetched : Bool
  coldInsert : Bool
  hit : Bool
  order : Nat
  io : Option Nat
deriving DecidableEq, Repr

/-- A stride detector (R308). -/
structure Detector where
  ring : BitVec 10
  set : BitVec 6
  last : Nat
  blocks : Nat
  stride : Int
  conf : Nat
  ahead : Option Int
  used : Nat
deriving DecidableEq, Repr

/-- The Stripe Cache and the victim tier (R293 to R317): lines keyed by set × 16 + way, slots by
(channel × 1984 + tier set) × 4 + slot. -/
structure Scc where
  lines : Tab Line
  tier : Tab Line
  ready : Bool
  vtReady : Bool
  detectors : List Detector
  moving : List (Nat × Nat)
  order : Nat
  noLine : List LineKey
  /-- Lines whose rows an allocation wants stripe-committed, the tier having declined them (R299); answered where a
  command evaluates the Log's occupancy. -/
  asks : List LineKey
deriving DecidableEq, Repr

/-! ## Data Movers -/

/-- Channel states with their codes 0 to 4 (R278). -/
inductive ChanState where
  | disabled
  | idle
  | running
  | holding
  | halted
deriving DecidableEq, Repr

/-- A transfer on a mover channel (R265), a mover descriptor in progress included (R274): the I/O it serves, its host port,
its source and destination ranges (address and length; a source that is the data path has none, nor a destination that is),
whether each lies in the Transfer Buffer pool, the source bytes asked for, the pieces that arrived by offset, the destination
bytes written, and for line 0 the descriptor's TAG, NEXT, FLUSH and windows. -/
structure Transfer where
  io : Option Nat
  port : Bool
  bytes : Nat
  srcs : List (Nat × Nat)
  srcPool : Bool
  dsts : List (Nat × Nat)
  dstPool : Bool
  asked : Nat
  got : List (Nat × Bytes)
  moved : Nat
  tag : Word64
  next : Word64
  flush : Bool
  held : List (Nat × Nat)
deriving DecidableEq, Repr

/-- A record bound for a completion queue (R287). -/
structure MqRecord where
  channel : Byte
  status : Byte
  detail : Byte
  bytes : Word32
  tag : Word64
deriving DecidableEq, Repr

/-- A mover channel (R264 to R292), beyond its CFG register. The transfer in progress is the first of `queue`; `held` is a
record that waits for its queue, with the NEXT that follows it (R288). -/
structure Channel where
  state : ChanState
  enable : Bool
  swReq : Bool
  desc : Word64
  status : Byte
  detail : Byte
  bytes : Word64
  errors : Nat
  queue : List Transfer
  held : Option (MqRecord × Word64)
  flushWait : Bool
deriving DecidableEq, Repr

/-- A completion queue (R287). -/
structure Mq where
  enabled : Bool
  prod : Nat
  cons : Nat
  waiting : List (Nat × MqRecord)
  unsignalled : Nat
deriving DecidableEq, Repr

/-- Who issued a non-posted read: a mover channel, the Ring Engine for a ring's entries, or the Command Interpreter for a
command's buffer (R285). -/
inductive ReadUser where
  | chan (n : Nat)
  | ring (r : RingId)
  | buffer (src : CmdSrc)
deriving DecidableEq, Repr

/-- A non-posted read in flight (R282, R285): its tag, its user, the offset and length of what it brings, its reissues left;
`dead` when its outcome is discarded. -/
structure HostRead where
  port : Bool
  tag : BitVec 10
  user : ReadUser
  off : Nat
  len : Nat
  left : Nat
  dead : Bool
deriving DecidableEq, Repr

/-- The Data Movers (R263 to R292). `quarantine` holds port, tag, and whether the timeout was reported (R284, R286); `retries`
the reissues that wait for a tag; `tagCount` numbers the tags drawn. -/
structure Dmv where
  chans : Tab Channel
  mqs : Tab Mq
  reads : List HostRead
  retries : List HostRead
  quarantine : List (Bool × BitVec 10 × Bool)
  quarReported : List Bool
  unassigned : List (Nat × Transfer)
  lastRead : Nat
  lastWrite : Nat
  tagCount : Nat
deriving DecidableEq, Repr

/-! ## Command Interpreter -/

/-- A deferred command in progress with its keys (R248), and what it has done so far: the records it waits for, its counts,
its walks, and for SET_READ_PRESERVED the reads outstanding with their blocks, the blocks read and the blocks lost. -/
structure Deferred where
  src : CmdSrc
  packet : Bytes
  keys : List (Nat × Nat)
  waitWrites : List Nat
  count : Nat
  count2 : Nat
  walks : Nat
  waits : List (Nat × Nat)
  blocks : List (Nat × Bytes)
  lost : List Nat
deriving DecidableEq, Repr

/-- A command whose buffer is being read (R244). -/
structure BufWait where
  src : CmdSrc
  packet : Bytes
  retried : Bool
deriving DecidableEq, Repr

/-- A firmware image slot of the store (R472, R473): `staged` lists the byte ranges downloaded, as first byte and end. -/
structure FwSlot where
  image : Memory
  total : Nat
  staged : List (Nat × Nat)
deriving DecidableEq, Repr

/-- OTP and the firmware store (R472 to R481). -/
structure Sec where
  lock : BitVec 2
  provisioned : BitVec 4
  revoked : BitVec 4
  keyDigests : Tab Bytes
  rollback : Nat
  slotA : FwSlot
  slotB : FwSlot
  running : Option Bool
  pending : Option Bool
  lastRan : Bool
  fallback : Bool
  rom : Bool
  fwRunning : Word32
  boots : Nat
  serial : Word64
deriving DecidableEq, Repr

/-- The Command Interpreter (R240 to R262): packets waiting per source, deferred commands, the command whose buffer is
read, the chain's last reply, the scratch buffer. `srcs` is keyed by ring number, 16 for the chain. `fwRestart` while the
management processor restarts, with the source of the FW_COMMIT that the new firmware answers, none after a watchdog. -/
structure Interp where
  srcs : Tab (List Bytes)
  busy : List CmdSrc
  deferred : List Deferred
  bufs : List BufWait
  chainBusySeq : Option Byte
  chainLastSeq : Option Byte
  chainReply : Bytes
  scratch : Memory
  fwRestart : Option (Option CmdSrc)
  heldReplies : List (CmdSrc × Bytes)
deriving DecidableEq, Repr

/-! ## Monitors, calibration, hold -/

/-- Hold sub-states with their codes 0 to 3 (R388). -/
inductive HoldState where
  | normal
  | hold
  | qualify
  | wait
deriving DecidableEq, Repr

/-- Phases of a calibration run (R374). -/
inductive CalPhase where
  | copy
  | sweep
deriving DecidableEq, Repr

/-- A calibration run in progress (R374). -/
structure CalRun where
  bank : BitVec 5
  phase : CalPhase
  spare : Option (BitVec 5)
  src : Option CmdSrc
deriving DecidableEq, Repr

/-- A bank's selection and the facts of its last run (R369, R370, R378). -/
structure BankCal where
  sel : BitVec 20
  otp : BitVec 20
  origin : BitVec 2
  tempC : Int
  timeNs : Word64
  nowC : Option Int
  due : Bool
  barred : Bool
  /-- Whether a run has succeeded since power-on (R372). -/
  ran : Bool
deriving DecidableEq, Repr

/-- Monitors, calibration and the Hold state (R369 to R392). -/
structure Mon where
  hold : HoldState
  byPin : Bool
  byRail : Bool
  byTrip : Bool
  holdRail : BitVec 3
  holdSince : Word64
  holdUs : Nat
  pwrwarnLow : Bool
  thermtrip : Bool
  railMv : Tab Nat
  railLow : List Nat
  railHigh : List Nat
  tj : List (Option Int)
  tjOver : Bool
  failedSensors : List Nat
  calref : Nat
  calrefOk : Bool
  calrefSeen : Bool
  calrefRun : Nat
  resumeSet : Bool
  banks : Tab BankCal
  run : Option CalRun
  queue : List (BitVec 5 × CmdSrc)
  lastBank : BitVec 5
  lastReason : Byte
deriving DecidableEq, Repr

/-! ## Pair link and chain -/

/-- Pair states with their codes 0 to 5 (R394). -/
inductive PairState where
  | single
  | joining
  | paired
  | takeover
  | alone
  | fenced
deriving DecidableEq, Repr

/-- The pair link (R393 to R412). `replayBuf` holds the flits not yet acknowledged as SEQ, TYPE, argument and data; `failures`
counts the failures of one received flit, `nakRun` those of the sent flit after `nakSeq`; `mirror` and `mirrorUnits` are the records
and the units of the mirror half, `forwarded` the descriptors of the partner that wait for admission. -/
structure Pair where
  state : PairState
  former : PairState
  side : Bool
  epoch : Word32
  link : Bool
  lanesUp : Nat
  fenceOut : Bool
  fenceInLow : Bool
  joinSrc : Option CmdSrc
  partnerAddr : BitVec 5
  partnerValid : Bool
  token : Bool
  seqTx : BitVec 12
  seqRx : BitVec 12
  replayBuf : List (BitVec 12 × Nat × Nat × Bytes)
  failures : Nat
  nakSeq : BitVec 12
  nakRun : Nat
  lanesHigh : Bool
  mirror : List Rec
  mirrorUnits : Tab Bytes
  probing : Bool
  fenceWait : Bool
  forwarded : List FwdDesc
  takeovers : Nat
  afterReset : Bool
deriving DecidableEq, Repr

/-- The chain interface (R413 to R422). -/
structure Chn where
  address : Option (BitVec 5)
  alert : Bool
  origSeq : Byte
deriving DecidableEq, Repr

/-! ## Host ports and peer windows -/

/-- A peer window (R448). -/
structure Window where
  offset : Nat
  pages : Nat
  tbPage : Nat
  valid : Bool
  read : Bool
  write : Bool
  port0 : Bool
  port1 : Bool
deriving DecidableEq, Repr

/-- An MSI-X table entry (R437). -/
structure MsixEntry where
  addr : Word64
  data : Word32
  masked : Bool
deriving DecidableEq, Repr

/-- A host port (R423 to R447). -/
structure Hpu where
  perstLow : Bool
  dlUp : Bool
  speed : BitVec 4
  width : BitVec 6
  contained : Bool
  cause : Byte
  d3hot : Bool
  inL1 : Bool
  narrow : Bool
  cfg : HostCfg
  barSize : Nat
  msix : Tab MsixEntry
  pendingBits : List Nat
deriving DecidableEq, Repr

/-- Peer windows and their pool (R448 to R457). -/
structure Pwin where
  shadow : Tab Window
  active : Tab Window
  next : Option (Tab Window)
  gen : Word32
  error : Bool
  errWindow : BitVec 6
  errReason : Byte
  draining : List Nat
  pool : Memory
  lastMiss : Word64
  lastMissPort : Bool
  lastMissRead : Bool
  lastMissReason : Byte
deriving DecidableEq, Repr

/-- Map Store channels (R197, R494 to R496). -/
structure MapStore where
  trained : List Nat
  fenced : List Nat
  eyes : Tab Nat
  late : List Nat
deriving DecidableEq, Repr

/-- The rebuild and scrub schedulers (R185, R190, R191): whether a scrub pass runs and keeps pace, and the set that had the
last rebuild window. -/
structure Sched where
  scrubbing : Bool
  behind : Bool
  turn : Nat
deriving DecidableEq, Repr

/-! ## What the controller sends -/

/-- What leaves the controller, newest first in State.out: replies, records, head words, messages, frames, drive
commands, data written to a host, mover records, flits and completions of host requests. -/
inductive Out where
  | reply (src : CmdSrc) (opcode : Half) (tag : Word64) (status detail : Byte) (result : Bytes)
  | hostWrite (p : Bool) (addr : Word64) (data : Bytes)
  | record (p : Bool) (pos : Nat) (r : EventRecord)
  | headWord (r : RingId) (word : Word64)
  | msix (p : Bool) (vector : Nat)
  | chainFrame (typ seq : Byte) (payload : Bytes)
  | chainForward (frame : Bytes)
  | driveCmd (c : DriveCmd)
  | adminCmd (port : Byte) (entry data : Bytes)
  | mqRecord (q pos : Nat) (r : MqRecord)
  | memRead (p : Bool) (tag : BitVec 10) (addr len : Nat)
  | flit (seq ack : BitVec 12) (typ arg : Nat) (data : Bytes)
  | readData (p : Bool) (data : Bytes)
  | unsupported (p : Bool)
  | completerAbort (p : Bool)
  | refclk (group : BitVec 4) (running : Bool)
deriving DecidableEq, Repr

/-! ## The whole state -/

/-- The controller. -/
structure State where
  gcs : Gcs
  regs : Tab Word64
  flt : Flt
  ctxs : Tab SCtx
  sets : Tab ArraySet
  incarnations : Tab Nat
  profiles : Tab (Option Profile)
  cht : Cht
  log : Log
  wch : Wch
  rings : Tab Ring
  privLock : Bool
  ios : List Io
  nextId : Nat
  dcmds : List DriveCmd
  ports : Tab Port
  portGroups : Tab Group
  rowOps : List RowOp
  commits : List CommitOp
  passes : List Pass
  arbitrating : List (BitVec 6 × Nat × Nat)
  clusters : Tab Cluster
  scc : Scc
  dmv : Dmv
  interp : Interp
  sec : Sec
  mon : Mon
  pair : Pair
  chn : Chn
  hpus : Tab Hpu
  pwin : Pwin
  map : MapStore
  sched : Sched
  freeCount : Nat
  out : List Out
  pending : List Instr
deriving DecidableEq, Repr

/-! ## Values at reset

Each `…At0` is a unit at the first power-on of a controller whose Log is empty (R497): the reset value of the owning
chapter's table where it gives one, zero, none or empty otherwise (log entry 4). -/

/-- GCS at power-on (R480): phase BOOT, last reset power-on. Drivers of the Log enabled (R486). -/
def Gcs.at0 : Gcs :=
  { part := .np9256, bifur := false, pwrgd := true, coldWait := false, phase := .boot, calDone := false,
    mapTrained := false, almanac := false, surveyDone := false, halted := false, haltClosing := false,
    haltReason := 0, haltCmd := false, haltRing := 0, haltIndex := 0, haltLap := false, lastReset := .powerOn,
    resetNow := some .powerOn,
    writeDrivers := true, survey := [], surveyKept := false, surveyPosted := [false, false],
    deferredCalendar := [], latch := [], splitLow := [] }

/-- A fault source never raised (R368). -/
def SrcState.at0 : SrcState :=
  { count := 0, openLevel := .note, isOpen := false, injected := false, lastDetail := 0 }

/-- No first fault held: VALID is 0 at power-on (R353). -/
def FirstFault.at0 : FirstFault :=
  { source := 0, level := .note, detail := 0, fixNs := 0, valid := false, injected := false, overflow := false,
    acked := false, escalated := false }

/-- The collector at power-on (R368). -/
def Flt.at0 : Flt :=
  { first := FirstFault.at0, srcs := [], queue := [], loaded := [], rev := [], revSeq := 0, pinLow := false }

/-- A Siette context that runs nothing (R88). -/
def SCtx.at0 : SCtx :=
  { use := .idle, g := [], pc := 0, steps := 0, prog := { code := [], tables := [] }, ended := none,
    setSel := 0, srcSel := 0 }

/-- The revision a set starts with before CHART_REVISE or SET_CREATE gives it one (R82). -/
def Revision.at0 : Revision := { rev := 0, slot := 0, params := [], retire := [] }

/-- An EMPTY set (R33). -/
def ArraySet.at0 : ArraySet :=
  { state := .empty, incarnation := 0, members := [], profile := 0, fragLog2 := 0, stripeCount := 0,
    writePolicy := .journalAll, sealedAck := false, paritySeal := false, drThreshUs := 0,
    current := Revision.at0, pending := none, queued := none, cursor := 0, candidate := 0, inFlight := [],
    lostRows := 0, extents := [], scrubCursor := 0, scrubLive := 0, scrubGrant := 0, scrubRow := 0, regions := [], liveRegions := [], resync := [],
    unresolved := [], suspects := [], replaying := false, replayed := false, heldStripes := [], genWatch := 0, generation := 0,
    side := false, ownedFrom := 0, adopted := none, lostPosted := [] }

/-- An empty chart store (R76). -/
def Cht.at0 : Cht :=
  { progs := [], tables := [], cached := [], waiting := [], bgCredit := 0, firstFault := 0 }

/-- No life record yet (R120). -/
def Life.at0 : Life := { seq := 0, fixNs := 0, writes := [], tmax := [], powerOnS := 0, hotS := 0 }

/-- The role table of a new part: pair p is (LB2p, LB2p+1), the last bank the spare (R102, log entry 6). -/
def Log.at0 : Log :=
  { recs := [], head := 0, nextSeq := 1, anchors := [], anchorSlot := 0, epoch := 0, tailMoved := 0,
    replaying := false, paced := false, full := false, credit := 0, creditAt := 0, freed := [], pacedAdds := [],
    pairs :=
      [ { copyA := 0, copyB := 1, single := false, resilvering := false, target := 0 },
        { copyA := 2, copyB := 3, single := false, resilvering := false, target := 0 },
        { copyA := 4, copyB := 5, single := false, resilvering := false, target := 0 },
        { copyA := 6, copyB := 7, single := false, resilvering := false, target := 0 },
        { copyA := 8, copyB := 9, single := false, resilvering := false, target := 0 },
        { copyA := 10, copyB := 11, single := false, resilvering := false, target := 0 },
        { copyA := 12, copyB := 13, single := false, resilvering := false, target := 0 },
        { copyA := 14, copyB := 15, single := false, resilvering := false, target := 0 } ],
    spare := some 16, fenced := [], life := Life.at0, lives := [], bankWrites := [],
    tmax := [], powerOnS := 0, hotS := 0, walked := false }

/-- The Watch Timer before R163 starts it: UNSET at fix time 0 with the default length 1 ms (R152, R155). -/
def Wch.at0 : Wch :=
  { fixNs := 0, fracPs := 0, timer := .unset, beyond := false, length := 1000000, nextLength := none,
    sealedWatch := 0, sealedHoldover := true, closed := 0, holdoverSeen := true, tod := none, todArrival := 0,
    todSrc := none, offsetNs := 0, consecutive := 0, rejectedRun := 0, edgeAnchored := false, holdBase := 0,
    holdS := 0, holdRate := 0, maxDrift := 0, ppsCount := 0, ppsReject := 0, closing := false,
    gapTenths := 0, closedFlags := [], partnerReady := [], ownReady := 0 }

/-- A ring context at its reset values (R208, R211). -/
def Ring.at0 : Ring :=
  { state := .disabled, head := 0, tail := 0, fetched := 0, inRead := 0, retried := false, queue := [], ended := [],
    exc := 0, ignored := 0, doneCount := 0, stallUs := 0, stallSince := 0, evtWait := false, admitWait := false, unsignalled := 0,
    hold := [], isFull := false, fullOwed := false, dropped := 0, fullUs := 0, fullSince := 0, droppedNow := 0,
    dropEpisode := false, waitB := [], lastTurn := false }

/-- A drive port at the first power-on: EMPTY, form x1, GEN_MAX 32 GT/s (R318, R320, R322, log entry 7). -/
def Port.at0 : Port :=
  { state := .empty, failed := false, catchup := false, formatOk := false, dual := false, mdSep := false, gen := 0,
    genMax := 3, width := 1, warning := false, critWarn := 0, pctUsed := 0, nsze := 0, recordedCapacity := none,
    pairsGranted := 0, depthLog2 := 0, catchupMap := [], shutdownSent := false, shutdownDone := false,
    resetSrc := none, adminSrc := none, inL1 := false, nguid := 0, sealFails := 0, catchupNext := 0 }

/-- A port group at the first power-on: POWERED (R339, log entry 7). -/
def Group.at0 : Group :=
  { state := .powered, pwren := true, perstLow := false, clkreqLow := false, force := false, leftovers := 0,
    src := none, lastPort := 0, lastDetail := 0, lastLink := false }

/-- A coding cluster with nothing fenced and its CE-S not yet tested (R59). -/
def Cluster.at0 : Cluster :=
  { fenced := [], spareFor := none, spareOk := true, spareTesting := false, queues := [], solverFenced := false,
    solveRetried := false, solves := [], cache := [] }

/-- A seal of zeros. -/
def Seal.zero : Seal :=
  { version := 0, flags := 0, setId := 0, profileId := 0, fragIndex := 0, row := 0, chartRev := 0, stripe := 0,
    rsv0E := 0, lba := 0, rsv16 := 0, watch := 0, rsv1E := 0, generation := 0, incarnation := 0, lastWriteMask := 0,
    rsv30 := 0, crc := 0 }

/-- An INVALID line (R295). -/
def Line.at0 : Line :=
  { state := .invalid, key := { set := 0, stripe := 0, frag := 0, row := 0 }, data := [], sl := Seal.zero,
    age := 0, pin := false, doa := false, stale := false, prefetched := false, coldInsert := false,
    hit := false, order := 0, io := none }

/-- The Stripe Cache before its reset walk has ended (R296). -/
def Scc.at0 : Scc :=
  { lines := [], tier := [], ready := false, vtReady := false, detectors := [], moving := [],
    order := 0, noLine := [], asks := [] }

/-- A mover channel; ENABLE of channels 0 to 47 is 1 at reset, of 48 to 63 it is 0 (R265). -/
def Channel.at0 (n : Nat) : Channel :=
  { state := if n < 48 then .idle else .disabled, enable := decide (n < 48), swReq := false, desc := 0, status := 0,
    detail := 0, bytes := 0, errors := 0, queue := [], held := none, flushWait := false }

/-- A completion queue at its reset values (R287). -/
def Mq.at0 : Mq := { enabled := false, prod := 0, cons := 0, waiting := [], unsignalled := 0 }

/-- The Data Movers at reset (R263, R292). -/
def Dmv.at0 : Dmv :=
  { chans := [], mqs := [], reads := [], retries := [], quarantine := [], quarReported := [false, false], unassigned := [],
    lastRead := 0, lastWrite := 0, tagCount := 0 }

/-- An empty firmware slot (R472). -/
def FwSlot.at0 : FwSlot := { image := [], total := 0, staged := [] }

/-- OTP of a part with nothing provisioned and both image slots empty (R474, log entry 8). -/
def Sec.at0 : Sec :=
  { lock := 0, provisioned := 0, revoked := 0, keyDigests := [], rollback := 0, slotA := FwSlot.at0,
    slotB := FwSlot.at0, running := none, pending := none, lastRan := false, fallback := false, rom := false,
    fwRunning := 0, boots := 0, serial := 0 }

/-- The Command Interpreter with nothing waiting (R247). -/
def Interp.at0 : Interp :=
  { srcs := [], busy := [], deferred := [], bufs := [], chainBusySeq := none, chainLastSeq := none,
    chainReply := [], scratch := [], fwRestart := none, heldReplies := [] }

/-- A bank's selection before the start-up calibration (R370, R381). -/
def BankCal.at0 : BankCal :=
  { sel := 0, otp := 0, origin := 2, tempC := 0, timeNs := 0, nowC := none, due := false, barred := false, ran := false }

/-- Monitors, calibration and Hold at power-on (R391, R392). -/
def Mon.at0 : Mon :=
  { hold := .normal, byPin := false, byRail := false, byTrip := false, holdRail := 0, holdSince := 0, holdUs := 0, pwrwarnLow := false,
    thermtrip := false, railMv := [], railLow := [], railHigh := [], tj := [], tjOver := false,
    failedSensors := [], calref := 0, calrefOk := false, calrefSeen := false, calrefRun := 0, resumeSet := false,
    banks := [], run := none, queue := [], lastBank := 0, lastReason := 0 }

/-- A controller with no recorded pair state: SINGLE (R394, R395). -/
def Pair.at0 : Pair :=
  { state := .single, former := .single, side := false, epoch := 0, link := false, lanesUp := 0, fenceOut := false,
    fenceInLow := false, joinSrc := none, partnerAddr := 0, partnerValid := false, token := false, seqTx := 0,
    seqRx := 0, replayBuf := [], failures := 0, nakSeq := 0, nakRun := 0, lanesHigh := false, mirror := [], mirrorUnits := [], probing := false,
    fenceWait := false, forwarded := [], takeovers := 0, afterReset := false }

/-- A unit with no chain address (R417). -/
def Chn.at0 : Chn := { address := none, alert := false, origSeq := 0 }

/-- A window that is not VALID (R457). -/
def Window.at0 : Window :=
  { offset := 0, pages := 0, tbPage := 0, valid := false, read := false, write := false, port0 := false,
    port1 := false }

/-- A masked MSI-X entry, as the PCI Express base specification resets it (log entry 9). -/
def MsixEntry.at0 : MsixEntry := { addr := 0, data := 0, masked := true }

/-- A configuration space before the host writes it: everything disabled, the smallest payload and the read request size that
the PCI Express base specification resets them to (log entry 9). -/
def HostCfg.at0 : HostCfg :=
  { memEnable := false, msixEnable := false, functionMask := false, tags10 := false, ctoDisable := false, aspmL1 := false,
    l0pBoth := false, mps := 128, mrrs := 512 }

/-- A host port in reset, its link down, BAR2 at 1 GiB (R430, R456). -/
def Hpu.at0 : Hpu :=
  { perstLow := true, dlUp := false, speed := 0, width := 0, contained := false, cause := 0, d3hot := false,
    inL1 := false, narrow := false, cfg := HostCfg.at0, barSize := 10, msix := [], pendingBits := [] }

/-- No window in force (R457). -/
def Pwin.at0 : Pwin :=
  { shadow := [], active := [], next := none, gen := 0, error := false, errWindow := 0, errReason := 0,
    draining := [], pool := [], lastMiss := 0, lastMissPort := false, lastMissRead := false, lastMissReason := 0 }

/-- Map Store channels before training (R495). -/
def MapStore.at0 : MapStore := { trained := [], fenced := [], eyes := [], late := [] }

/-- The machine right after its first rise of PWRGD (R458, R497): phase BOOT, an empty Log, an empty metadata area,
every register at its reset value, no command waiting. -/
def State.reset : State :=
  { gcs := Gcs.at0, regs := [], flt := Flt.at0, ctxs := [], sets := [], incarnations := [], profiles := [],
    cht := Cht.at0, log := Log.at0, wch := Wch.at0, rings := [], privLock := false, ios := [], nextId := 0,
    dcmds := [], ports := [], portGroups := [], rowOps := [], commits := [], passes := [], arbitrating := [], clusters := [], scc := Scc.at0,
    dmv := Dmv.at0, interp := Interp.at0, sec := Sec.at0, mon := Mon.at0, pair := Pair.at0, chn := Chn.at0,
    hpus := [], pwin := Pwin.at0, map := MapStore.at0, sched := { scrubbing := false, behind := false, turn := 0 }, freeCount := 0,
    out := [], pending := [] }

/-! ## One named update per field -/

/-- The state with `gcs` replaced. -/
def State.withGcs (s : State) (v : Gcs) : State := { s with gcs := v }

/-- The state with `regs` replaced. -/
def State.withRegs (s : State) (v : Tab Word64) : State := { s with regs := v }

/-- The state with `flt` replaced. -/
def State.withFlt (s : State) (v : Flt) : State := { s with flt := v }

/-- The state with `ctxs` replaced. -/
def State.withCtxs (s : State) (v : Tab SCtx) : State := { s with ctxs := v }

/-- The state with `sets` replaced. -/
def State.withSets (s : State) (v : Tab ArraySet) : State := { s with sets := v }

/-- The state with `incarnations` replaced. -/
def State.withIncarnations (s : State) (v : Tab Nat) : State := { s with incarnations := v }

/-- The state with `profiles` replaced. -/
def State.withProfiles (s : State) (v : Tab (Option Profile)) : State := { s with profiles := v }

/-- The state with `cht` replaced. -/
def State.withCht (s : State) (v : Cht) : State := { s with cht := v }

/-- The state with `log` replaced. -/
def State.withLog (s : State) (v : Log) : State := { s with log := v }

/-- The state with `wch` replaced. -/
def State.withWch (s : State) (v : Wch) : State := { s with wch := v }

/-- The state with `rings` replaced. -/
def State.withRings (s : State) (v : Tab Ring) : State := { s with rings := v }

/-- The state with `privLock` replaced. -/
def State.withPrivLock (s : State) (v : Bool) : State := { s with privLock := v }

/-- The state with `ios` replaced. -/
def State.withIos (s : State) (v : List Io) : State := { s with ios := v }

/-- The state with `nextId` replaced. -/
def State.withNextId (s : State) (v : Nat) : State := { s with nextId := v }

/-- The state with `dcmds` replaced. -/
def State.withDcmds (s : State) (v : List DriveCmd) : State := { s with dcmds := v }

/-- The state with `ports` replaced. -/
def State.withPorts (s : State) (v : Tab Port) : State := { s with ports := v }

/-- The state with `portGroups` replaced. -/
def State.withPortGroups (s : State) (v : Tab Group) : State := { s with portGroups := v }

/-- The state with `rowOps` replaced. -/
def State.withRowOps (s : State) (v : List RowOp) : State := { s with rowOps := v }

/-- The state with `commits` replaced. -/
def State.withCommits (s : State) (v : List CommitOp) : State := { s with commits := v }

/-- The state with `passes` replaced. -/
def State.withPasses (s : State) (v : List Pass) : State := { s with passes := v }

/-- The state with `arbitrating` replaced. -/
def State.withArbitrating (s : State) (v : List (BitVec 6 × Nat × Nat)) : State := { s with arbitrating := v }

/-- The state with `clusters` replaced. -/
def State.withClusters (s : State) (v : Tab Cluster) : State := { s with clusters := v }

/-- The state with `scc` replaced. -/
def State.withScc (s : State) (v : Scc) : State := { s with scc := v }

/-- The state with `dmv` replaced. -/
def State.withDmv (s : State) (v : Dmv) : State := { s with dmv := v }

/-- The state with `interp` replaced. -/
def State.withInterp (s : State) (v : Interp) : State := { s with interp := v }

/-- The state with `sec` replaced. -/
def State.withSec (s : State) (v : Sec) : State := { s with sec := v }

/-- The state with `mon` replaced. -/
def State.withMon (s : State) (v : Mon) : State := { s with mon := v }

/-- The state with `pair` replaced. -/
def State.withPair (s : State) (v : Pair) : State := { s with pair := v }

/-- The state with `chn` replaced. -/
def State.withChn (s : State) (v : Chn) : State := { s with chn := v }

/-- The state with `hpus` replaced. -/
def State.withHpus (s : State) (v : Tab Hpu) : State := { s with hpus := v }

/-- The state with `pwin` replaced. -/
def State.withPwin (s : State) (v : Pwin) : State := { s with pwin := v }

/-- The state with `map` replaced. -/
def State.withMap (s : State) (v : MapStore) : State := { s with map := v }

/-- The state with `sched` replaced. -/
def State.withSched (s : State) (v : Sched) : State := { s with sched := v }

/-- The state with `freeCount` replaced. -/
def State.withFreeCount (s : State) (v : Nat) : State := { s with freeCount := v }

/-- The state with `out` replaced. -/
def State.withOut (s : State) (v : List Out) : State := { s with out := v }

/-- The state with `pending` replaced. -/
def State.withPending (s : State) (v : List Instr) : State := { s with pending := v }

end Sys2Proof.Machine
end

