-- ==== Sys2Proof/Machine/RegMap.lean ====
section
/-! DEFINITION. The register map: the BAR0 offset of every register of the spec's tables (R429 and the owning chapters'
tables), which bits of it are RW, and its reset value. A register that a richer field of State holds has no stored word. -/

namespace Sys2Proof.Machine

/-- A register or a run of like registers: base offset, stride, count, whether 64 bits wide, the RW bits, reset value. -/
structure RegRow where
  base : Nat
  stride : Nat
  count : Nat
  wide : Bool
  rw : Nat
  rst : Nat
deriving DecidableEq, Repr

/-- CHT.CAP (R101). -/
def Reg.chtCap : Nat := 0x70000
/-- CHT.CTL (R101). -/
def Reg.chtCtl : Nat := 0x70004
/-- CHT.STAT (R101). -/
def Reg.chtStat : Nat := 0x70008
/-- CHT.LOOKUPS (R101). -/
def Reg.chtLookups : Nat := 0x70010
/-- CHT.MISSES (R101). -/
def Reg.chtMisses : Nat := 0x70018
/-- CHT.FAULTS (R101). -/
def Reg.chtFaults : Nat := 0x70020
/-- CHT.LAST_FAULT (R101). -/
def Reg.chtLastFault : Nat := 0x70028
/-- CHT.SLOT_VALID0 (R101). -/
def Reg.chtSlotValid0 : Nat := 0x70030
/-- CHT.SLOT_VALID1 (R101). -/
def Reg.chtSlotValid1 : Nat := 0x70034
/-- CHT.SLOT_VALID2 (R101). -/
def Reg.chtSlotValid2 : Nat := 0x70038
/-- CHT.SLOT_VALID3 (R101). -/
def Reg.chtSlotValid3 : Nat := 0x7003c
/-- CHT.STORE_USED (R101). -/
def Reg.chtStoreUsed : Nat := 0x70040
/-- CHT.STORE_SIZE (R101). -/
def Reg.chtStoreSize : Nat := 0x70044
/-- CHT.PRIO (R101). -/
def Reg.chtPrio : Nat := 0x70048
/-- LOG.CAP (R148). -/
def Reg.logCap : Nat := 0x80000
/-- LOG.CTL (R148). -/
def Reg.logCtl : Nat := 0x80004
/-- LOG.STAT (R148). -/
def Reg.logStat : Nat := 0x80008
/-- LOG.HEAD_SEQ (R148). -/
def Reg.logHeadSeq : Nat := 0x80010
/-- LOG.TAIL_SEQ (R148). -/
def Reg.logTailSeq : Nat := 0x80018
/-- LOG.USED (R148). -/
def Reg.logUsed : Nat := 0x80020
/-- LOG.THRESH (R148). -/
def Reg.logThresh : Nat := 0x80024
/-- LOG.RATE (R148). -/
def Reg.logRate : Nat := 0x80028
/-- LOG.RESYNC (R148). -/
def Reg.logResync : Nat := 0x8002c
/-- LOG.COMMITS (R148). -/
def Reg.logCommits : Nat := 0x80030
/-- LOG.HELD (R148). -/
def Reg.logHeld : Nat := 0x80038
/-- LOG.RELOCS (R148). -/
def Reg.logRelocs : Nat := 0x80040
/-- LOG.SPARE (R148). -/
def Reg.logSpare : Nat := 0x80048
/-- LOG.PAIRp (R148). -/
def Reg.logPair (i : Nat) : Nat := 0x80080 + 4 * i
/-- LOG.BANKn.WRITES (R148). -/
def Reg.logBankWrites (i : Nat) : Nat := 0x80100 + 0x10 * i
/-- LOG.BANKn.WEAR (R148). -/
def Reg.logBankWear (i : Nat) : Nat := 0x80108 + 0x10 * i
/-- WCH.CTL (R166). -/
def Reg.wchCtl : Nat := 0x30000
/-- WCH.STAT (R166). -/
def Reg.wchStat : Nat := 0x30004
/-- WCH.LENGTH (R166). -/
def Reg.wchLength : Nat := 0x30008
/-- WCH.NOW (R166). -/
def Reg.wchNow : Nat := 0x30010
/-- WCH.WATCH (R166). -/
def Reg.wchWatch : Nat := 0x30018
/-- WCH.SEALED (R166). -/
def Reg.wchSealed : Nat := 0x30020
/-- WCH.OFFSET (R166). -/
def Reg.wchOffset : Nat := 0x30028
/-- WCH.HOLD (R166). -/
def Reg.wchHold : Nat := 0x3002c
/-- WCH.HOLD_BOUND (R166). -/
def Reg.wchHoldBound : Nat := 0x30030
/-- WCH.HOLD_TIME (R166). -/
def Reg.wchHoldTime : Nat := 0x30034
/-- WCH.HOLD_RATE (R166). -/
def Reg.wchHoldRate : Nat := 0x30038
/-- WCH.SEAL (R166). -/
def Reg.wchSeal : Nat := 0x3003c
/-- WCH.PPS_COUNT (R166). -/
def Reg.wchPpsCount : Nat := 0x30040
/-- WCH.PPS_REJECT (R166). -/
def Reg.wchPpsReject : Nat := 0x30044
/-- GCS.RBS_CTL (R199). -/
def Reg.gcsRbsCtl : Nat := 0x10800
/-- GCS.RBS_SHARE (R199). -/
def Reg.gcsRbsShare : Nat := 0x10804
/-- GCS.RBS_SCRUB (R199). -/
def Reg.gcsRbsScrub : Nat := 0x10808
/-- GCS.RBS_WINDOW (R199). -/
def Reg.gcsRbsWindow : Nat := 0x1080c
/-- GCS.RBS_FAIL (R199). -/
def Reg.gcsRbsFail : Nat := 0x10810
/-- GCS.RBS_DR (R199). -/
def Reg.gcsRbsDr : Nat := 0x10814
/-- GCS.RBS_STAT (R199). -/
def Reg.gcsRbsStat : Nat := 0x10818
/-- GCS.RBS_DR_COUNT (R199). -/
def Reg.gcsRbsDrCount : Nat := 0x10820
/-- GCS.RBS_LATE_AGREE (R199). -/
def Reg.gcsRbsLateAgree : Nat := 0x10828
/-- GCS.RBS_LATE_MISMATCH (R199). -/
def Reg.gcsRbsLateMismatch : Nat := 0x1082c
/-- GCS.RBS_REPAIRS (R199). -/
def Reg.gcsRbsRepairs : Nat := 0x10830
/-- GCS.RBS_LOST_ROWS (R199). -/
def Reg.gcsRbsLostRows : Nat := 0x10838
/-- GCS.RBS_SCRUB_PASSES (R199). -/
def Reg.gcsRbsScrubPasses : Nat := 0x10840
/-- GCS.RBS_REBUILDn (R199). -/
def Reg.gcsRbsRebuild (i : Nat) : Nat := 0x10900 + 8 * i
/-- GCS.RBS_SCRUBn (R199). -/
def Reg.gcsRbsScrubCur (i : Nat) : Nat := 0x10b00 + 8 * i
/-- RNG.Dn.BASE (R208). -/
def Reg.ringBase (i : Nat) : Nat := 0x100000 + 0x40 * i
/-- RNG.Dn.SHADOW (R208). -/
def Reg.ringShadow (i : Nat) : Nat := 0x100008 + 0x40 * i
/-- RNG.Dn.CFG (R208). -/
def Reg.ringCfg (i : Nat) : Nat := 0x100010 + 0x40 * i
/-- RNG.Dn.CTL (R208). -/
def Reg.ringCtl (i : Nat) : Nat := 0x100014 + 0x40 * i
/-- RNG.Dn.INT (R208). -/
def Reg.ringInt (i : Nat) : Nat := 0x100018 + 0x40 * i
/-- RNG.Dn.STAT (R208). -/
def Reg.ringStat (i : Nat) : Nat := 0x10001c + 0x40 * i
/-- RNG.Dn.HEAD (R208). -/
def Reg.ringHead (i : Nat) : Nat := 0x100020 + 0x40 * i
/-- RNG.Dn.TAIL (R208). -/
def Reg.ringTail (i : Nat) : Nat := 0x100028 + 0x40 * i
/-- RNG.Dn.IGNORED (R208). -/
def Reg.ringIgnored (i : Nat) : Nat := 0x10002c + 0x40 * i
/-- RNG.Dn.DONE (R208). -/
def Reg.ringDone (i : Nat) : Nat := 0x100030 + 0x40 * i
/-- RNG.Dn.STALL (R208). -/
def Reg.ringStall (i : Nat) : Nat := 0x100038 + 0x40 * i
/-- RNG.CTL (R239). -/
def Reg.rngCtl : Nat := 0x110800
/-- RNG.HALT (R239). -/
def Reg.rngHalt : Nat := 0x110808
/-- RNG.ADMITTED (R239). -/
def Reg.rngAdmitted : Nat := 0x110810
/-- RNG.READ_FAULTS (R239). -/
def Reg.rngReadFaults : Nat := 0x110818
/-- DMV.CAP (R292). -/
def Reg.dmvCap : Nat := 0x50000
/-- DMV.TB (R292). -/
def Reg.dmvTb : Nat := 0x50004
/-- DMV.TB_FREE (R292). -/
def Reg.dmvTbFree : Nat := 0x50008
/-- DMV.RD_TIMEOUT (R292). -/
def Reg.dmvRdTimeout : Nat := 0x5000c
/-- DMV.LATE_CPL (R292). -/
def Reg.dmvLateCpl : Nat := 0x50010
/-- DMV.QUAR (R292). -/
def Reg.dmvQuar : Nat := 0x50014
/-- DMV.RETRIES (R292). -/
def Reg.dmvRetries : Nat := 0x50018
/-- DMV.MQq.BASE (R292). -/
def Reg.dmvMqBase (i : Nat) : Nat := 0x50100 + 0x20 * i
/-- DMV.MQq.CFG (R292). -/
def Reg.dmvMqCfg (i : Nat) : Nat := 0x50108 + 0x20 * i
/-- DMV.MQq.CTL (R292). -/
def Reg.dmvMqCtl (i : Nat) : Nat := 0x5010c + 0x20 * i
/-- DMV.MQq.PROD (R292). -/
def Reg.dmvMqProd (i : Nat) : Nat := 0x50110 + 0x20 * i
/-- DMV.MQq.CONS (R292). -/
def Reg.dmvMqCons (i : Nat) : Nat := 0x50114 + 0x20 * i
/-- DMV.MQq.INT (R292). -/
def Reg.dmvMqInt (i : Nat) : Nat := 0x50118 + 0x20 * i
/-- DMV.MQq.STAT (R292). -/
def Reg.dmvMqStat (i : Nat) : Nat := 0x5011c + 0x20 * i
/-- DMV.CHn.CFG (R292). -/
def Reg.dmvChCfg (i : Nat) : Nat := 0x50400 + 0x40 * i
/-- DMV.CHn.CTL (R292). -/
def Reg.dmvChCtl (i : Nat) : Nat := 0x50404 + 0x40 * i
/-- DMV.CHn.STAT (R292). -/
def Reg.dmvChStat (i : Nat) : Nat := 0x50408 + 0x40 * i
/-- DMV.CHn.DESC (R292). -/
def Reg.dmvChDesc (i : Nat) : Nat := 0x50410 + 0x40 * i
/-- DMV.CHn.BYTES (R292). -/
def Reg.dmvChBytes (i : Nat) : Nat := 0x50418 + 0x40 * i
/-- DMV.CHn.ERRORS (R292). -/
def Reg.dmvChErrors (i : Nat) : Nat := 0x50420 + 0x40 * i
/-- SCC.CAP (R317). -/
def Reg.sccCap : Nat := 0x60000
/-- SCC.VT_CAP (R317). -/
def Reg.sccVtCap : Nat := 0x60004
/-- SCC.STAT (R317). -/
def Reg.sccStat : Nat := 0x60008
/-- SCC.MASK0 (R317). -/
def Reg.sccMask0 : Nat := 0x60010
/-- SCC.MASK1 (R317). -/
def Reg.sccMask1 : Nat := 0x60014
/-- SCC.MASK2 (R317). -/
def Reg.sccMask2 : Nat := 0x60018
/-- SCC.PF (R317). -/
def Reg.sccPf : Nat := 0x60020
/-- SCC.VT (R317). -/
def Reg.sccVt : Nat := 0x60024
/-- SCC.DIRTY (R317). -/
def Reg.sccDirty : Nat := 0x60028
/-- SCC.HITS (R317). -/
def Reg.sccHits : Nat := 0x60030
/-- SCC.MISSES (R317). -/
def Reg.sccMisses : Nat := 0x60038
/-- SCC.VT_HITS (R317). -/
def Reg.sccVtHits : Nat := 0x60040
/-- SCC.VT_ACCEPTS (R317). -/
def Reg.sccVtAccepts : Nat := 0x60048
/-- SCC.VT_DECLINES (R317). -/
def Reg.sccVtDeclines : Nat := 0x6004c
/-- SCC.EVICT_DIRTY (R317). -/
def Reg.sccEvictDirty : Nat := 0x60050
/-- SCC.DOA (R317). -/
def Reg.sccDoa : Nat := 0x60058
/-- SCC.BYPASS (R317). -/
def Reg.sccBypass : Nat := 0x6005c
/-- SCC.PF_ISSUED (R317). -/
def Reg.sccPfIssued : Nat := 0x60060
/-- SCC.PF_USED (R317). -/
def Reg.sccPfUsed : Nat := 0x60068
/-- SCC.PF_DROPPED (R317). -/
def Reg.sccPfDropped : Nat := 0x60070
/-- SCC.PF_BUSY (R317). -/
def Reg.sccPfBusy : Nat := 0x60074
/-- DP.Pn.CFG (R346). -/
def Reg.dpCfg (i : Nat) : Nat := 0x1000000 + 0x4000 * i
/-- DP.Pn.QCFG (R346). -/
def Reg.dpQcfg (i : Nat) : Nat := 0x1000004 + 0x4000 * i
/-- DP.Pn.STAT (R346). -/
def Reg.dpStat (i : Nat) : Nat := 0x1000008 + 0x4000 * i
/-- DP.Pn.LIVE (R346). -/
def Reg.dpLive (i : Nat) : Nat := 0x1000010 + 0x4000 * i
/-- DP.Pn.NSZE (R346). -/
def Reg.dpNsze (i : Nat) : Nat := 0x1000018 + 0x4000 * i
/-- DP.Pn.QSTAT (R346). -/
def Reg.dpQstat (i : Nat) : Nat := 0x1000020 + 0x4000 * i
/-- DP.Pn.QUAR (R346). -/
def Reg.dpQuar (i : Nat) : Nat := 0x1000024 + 0x4000 * i
/-- DP.Pn.HEALTH (R346). -/
def Reg.dpHealth (i : Nat) : Nat := 0x1000028 + 0x4000 * i
/-- DP.Pn.READS (R346). -/
def Reg.dpReads (i : Nat) : Nat := 0x1000030 + 0x4000 * i
/-- DP.Pn.WRITES (R346). -/
def Reg.dpWrites (i : Nat) : Nat := 0x1000038 + 0x4000 * i
/-- DP.Pn.TIMEOUTS (R346). -/
def Reg.dpTimeouts (i : Nat) : Nat := 0x1000040 + 0x4000 * i
/-- DP.Pn.READ_ERRORS (R346). -/
def Reg.dpReadErrors (i : Nat) : Nat := 0x1000044 + 0x4000 * i
/-- DP.Pn.LINK_DOWNS (R346). -/
def Reg.dpLinkDowns (i : Nat) : Nat := 0x1000048 + 0x4000 * i
/-- DP.Pn.LINK_ERRORS (R346). -/
def Reg.dpLinkErrors (i : Nat) : Nat := 0x100004c + 0x4000 * i
/-- DP.Gn.STAT (R346). -/
def Reg.dpgStat (i : Nat) : Nat := 0x1003000 + 0x40000 * i
/-- DP.Gn.LAST (R346). -/
def Reg.dpgLast (i : Nat) : Nat := 0x1003004 + 0x40000 * i
/-- DP.CAP (R346). -/
def Reg.dpCap : Nat := 0x1003800
/-- DP.QPOOL (R346). -/
def Reg.dpQpool : Nat := 0x1003804
/-- DP.QPOOL_FREE (R346). -/
def Reg.dpQpoolFree : Nat := 0x1003808
/-- DP.TIMEOUT (R346). -/
def Reg.dpTimeout : Nat := 0x1003810
/-- DP.QUAR_RESET (R346). -/
def Reg.dpQuarReset : Nat := 0x1003814
/-- DP.LINKERR (R346). -/
def Reg.dpLinkerr : Nat := 0x1003818
/-- DP.HEALTH (R346). -/
def Reg.dpHealthPoll : Nat := 0x100381c
/-- DP.PM (R346). -/
def Reg.dpPm : Nat := 0x1003820
/-- DP.DMA_REJECTS (R346). -/
def Reg.dpDmaRejects : Nat := 0x1003824
/-- FLT.CAP (R368). -/
def Reg.fltCap : Nat := 0x20000
/-- FLT.PIN_LEVEL (R368). -/
def Reg.fltPinLevel : Nat := 0x20004
/-- FLT.ESC (R368). -/
def Reg.fltEsc : Nat := 0x20008
/-- FLT.EVT (R368). -/
def Reg.fltEvt : Nat := 0x2000c
/-- FLT.STAT (R368). -/
def Reg.fltStat : Nat := 0x20010
/-- FLT.FIRST (R368). -/
def Reg.fltFirst : Nat := 0x20018
/-- FLT.FIRST_TIME (R368). -/
def Reg.fltFirstTime : Nat := 0x20020
/-- FLT.RX_LAST (R368). -/
def Reg.fltRxLast : Nat := 0x20028
/-- FLT.RX_RUN (R368). -/
def Reg.fltRxRun : Nat := 0x20030
/-- FLT.RX_DROPPED (R368). -/
def Reg.fltRxDropped : Nat := 0x20038
/-- FLT.RX_COALESCED (R368). -/
def Reg.fltRxCoalesced : Nat := 0x2003c
/-- FLT.SLOTS (R368). -/
def Reg.fltSlots : Nat := 0x20040
/-- FLT.OPENi (R368). -/
def Reg.fltOpen (i : Nat) : Nat := 0x20060 + 4 * i
/-- FLT.REVk.INFO (R368). -/
def Reg.fltRevInfo (i : Nat) : Nat := 0x20080 + 0x10 * i
/-- FLT.REVk.PAYLOAD (R368). -/
def Reg.fltRevPayload (i : Nat) : Nat := 0x20088 + 0x10 * i
/-- FLT.SCRATCHi (R368). -/
def Reg.fltScratch (i : Nat) : Nat := 0x20200 + 8 * i
/-- FLT.SRCn (R368). -/
def Reg.fltSrc (i : Nat) : Nat := 0x21000 + 8 * i
/-- MON.CAP (R391). -/
def Reg.monCap : Nat := 0x40000
/-- MON.RAILr.LEVEL (R391). -/
def Reg.monRailLevel (i : Nat) : Nat := 0x40010 + 8 * i
/-- MON.RAILr.WARN (R391). -/
def Reg.monRailWarn (i : Nat) : Nat := 0x40014 + 8 * i
/-- MON.TJ (R391). -/
def Reg.monTj : Nat := 0x40050
/-- MON.TJS0 (R391). -/
def Reg.monTjs0 : Nat := 0x40058
/-- MON.TJS1 (R391). -/
def Reg.monTjs1 : Nat := 0x4005c
/-- MON.PINS (R391). -/
def Reg.monPins : Nat := 0x40060
/-- MON.CALREF (R391). -/
def Reg.monCalref : Nat := 0x40064
/-- MON.BANK_Tn (R391). -/
def Reg.monBankT (i : Nat) : Nat := 0x40080 + 4 * i
/-- CAL.CTL (R391). -/
def Reg.calCtl : Nat := 0x40400
/-- CAL.TRIG (R391). -/
def Reg.calTrig : Nat := 0x40404
/-- CAL.STAT (R391). -/
def Reg.calStat : Nat := 0x40408
/-- CAL.DUE (R391). -/
def Reg.calDue : Nat := 0x4040c
/-- CAL.GEN (R391). -/
def Reg.calGen : Nat := 0x40410
/-- CAL.RUNS (R391). -/
def Reg.calRuns : Nat := 0x40414
/-- CAL.FAILS (R391). -/
def Reg.calFails : Nat := 0x40418
/-- CAL.BANKn.SEL (R391). -/
def Reg.calBankSel (i : Nat) : Nat := 0x40440 + 4 * i
/-- CAL.BANKn.INFO (R391). -/
def Reg.calBankInfo (i : Nat) : Nat := 0x404a0 + 4 * i
/-- CAL.BANKn.TIME (R391). -/
def Reg.calBankTime (i : Nat) : Nat := 0x40500 + 8 * i
/-- GCS.HOLD (R392). -/
def Reg.gcsHold : Nat := 0x10400
/-- GCS.HOLD_STAT (R392). -/
def Reg.gcsHoldStat : Nat := 0x10404
/-- GCS.HOLD_COUNT (R392). -/
def Reg.gcsHoldCount : Nat := 0x10408
/-- GCS.HOLD_US (R392). -/
def Reg.gcsHoldUs : Nat := 0x1040c
/-- PAIR.CAP (R421). -/
def Reg.pairCap : Nat := 0x90000
/-- PAIR.STAT (R421). -/
def Reg.pairStat : Nat := 0x90004
/-- PAIR.CTL (R421). -/
def Reg.pairCtl : Nat := 0x90008
/-- PAIR.EPOCH (R421). -/
def Reg.pairEpoch : Nat := 0x9000c
/-- PAIR.OWNER (R421). -/
def Reg.pairOwner : Nat := 0x90010
/-- PAIR.PARTNER (R421). -/
def Reg.pairPartner : Nat := 0x90018
/-- PAIR.JOIN_FAIL (R421). -/
def Reg.pairJoinFail : Nat := 0x9001c
/-- PAIR.FLITS_TX (R421). -/
def Reg.pairFlitsTx : Nat := 0x90020
/-- PAIR.FLITS_RX (R421). -/
def Reg.pairFlitsRx : Nat := 0x90028
/-- PAIR.REPLAYS (R421). -/
def Reg.pairReplays : Nat := 0x90030
/-- PAIR.MIRROR_USED (R421). -/
def Reg.pairMirrorUsed : Nat := 0x90034
/-- PAIR.FORWARDED (R421). -/
def Reg.pairForwarded : Nat := 0x90038
/-- PAIR.TAKEOVERS (R421). -/
def Reg.pairTakeovers : Nat := 0x90040
/-- CHN.STAT (R422). -/
def Reg.chnStat : Nat := 0xa0000
/-- CHN.CTL (R422). -/
def Reg.chnCtl : Nat := 0xa0004
/-- CHN.ALERT (R422). -/
def Reg.chnAlert : Nat := 0xa0008
/-- CHN.FRAMES_RX (R422). -/
def Reg.chnFramesRx : Nat := 0xa0010
/-- CHN.FRAMES_TX (R422). -/
def Reg.chnFramesTx : Nat := 0xa0014
/-- CHN.CRC_ERRORS (R422). -/
def Reg.chnCrcErrors : Nat := 0xa0018
/-- CHN.BUSY_DROPS (R422). -/
def Reg.chnBusyDrops : Nat := 0xa001c
/-- CHN.LAST_SEQ (R422). -/
def Reg.chnLastSeq : Nat := 0xa0020
/-- HPUn.CAP (R456). -/
def Reg.hpuCap (i : Nat) : Nat := 0xc0000 + 0x8000 * i
/-- HPUn.CTL (R456). -/
def Reg.hpuCtl (i : Nat) : Nat := 0xc0004 + 0x8000 * i
/-- HPUn.STAT (R456). -/
def Reg.hpuStat (i : Nat) : Nat := 0xc0008 + 0x8000 * i
/-- HPUn.PM (R456). -/
def Reg.hpuPm (i : Nat) : Nat := 0xc000c + 0x8000 * i
/-- HPUn.CORR_ERRORS (R456). -/
def Reg.hpuCorrErrors (i : Nat) : Nat := 0xc0010 + 0x8000 * i
/-- HPUn.CORR_LIMIT (R456). -/
def Reg.hpuCorrLimit (i : Nat) : Nat := 0xc0014 + 0x8000 * i
/-- HPUn.POSTED_DROPS (R456). -/
def Reg.hpuPostedDrops (i : Nat) : Nat := 0xc0018 + 0x8000 * i
/-- HPUn.CONTAINS (R456). -/
def Reg.hpuContains (i : Nat) : Nat := 0xc001c + 0x8000 * i
/-- HPUn.L1_ENTRIES (R456). -/
def Reg.hpuL1Entries (i : Nat) : Nat := 0xc0020 + 0x8000 * i
/-- HPUn.L0P_CHANGES (R456). -/
def Reg.hpuL0pChanges (i : Nat) : Nat := 0xc0024 + 0x8000 * i
/-- PWIN.CAP (R457). -/
def Reg.pwinCap : Nat := 0xb0000
/-- PWIN.COMMIT (R457). -/
def Reg.pwinCommit : Nat := 0xb0004
/-- PWIN.GEN (R457). -/
def Reg.pwinGen : Nat := 0xb0008
/-- PWIN.STAT (R457). -/
def Reg.pwinStat : Nat := 0xb000c
/-- PWIN.DROPS (R457). -/
def Reg.pwinDrops : Nat := 0xb0010
/-- PWIN.URS (R457). -/
def Reg.pwinUrs : Nat := 0xb0014
/-- PWIN.LAST_MISS (R457). -/
def Reg.pwinLastMiss : Nat := 0xb0018
/-- PWIN.LAST_MISS_INFO (R457). -/
def Reg.pwinLastMissInfo : Nat := 0xb0020
/-- PWIN.Wn.BASE (R457). -/
def Reg.pwinWBase (i : Nat) : Nat := 0xb0100 + 0x20 * i
/-- PWIN.Wn.MAP (R457). -/
def Reg.pwinWMap (i : Nat) : Nat := 0xb0108 + 0x20 * i
/-- PWIN.Wn.ACTIVE_BASE (R457). -/
def Reg.pwinWActiveBase (i : Nat) : Nat := 0xb0900 + 0x20 * i
/-- PWIN.Wn.ACTIVE_MAP (R457). -/
def Reg.pwinWActiveMap (i : Nat) : Nat := 0xb0908 + 0x20 * i
/-- GCS.ID (R480). -/
def Reg.gcsId : Nat := 0x10000
/-- GCS.RESET (R480). -/
def Reg.gcsReset : Nat := 0x10004
/-- GCS.STAT (R480). -/
def Reg.gcsStat : Nat := 0x10008
/-- GCS.LAST_RESET (R480). -/
def Reg.gcsLastReset : Nat := 0x1000c
/-- GCS.DOCK (R480). -/
def Reg.gcsDock : Nat := 0x10010
/-- GCS.DOCK_COUNT (R480). -/
def Reg.gcsDockCount : Nat := 0x10014
/-- GCS.SURVEY (R480). -/
def Reg.gcsSurvey : Nat := 0x10020
/-- GCS.SURVEYn (R480). -/
def Reg.gcsSurveyEntry (i : Nat) : Nat := 0x11000 + 8 * i
/-- SEC.STAT (R481). -/
def Reg.secStat : Nat := 0xf0000
/-- SEC.KEYS (R481). -/
def Reg.secKeys : Nat := 0xf0004
/-- SEC.FW_RUNNING (R481). -/
def Reg.secFwRunning : Nat := 0xf0008
/-- SEC.FW_STAGED (R481). -/
def Reg.secFwStaged : Nat := 0xf000c
/-- SEC.ROLLBACK (R481). -/
def Reg.secRollback : Nat := 0xf0010
/-- SEC.BOOTS (R481). -/
def Reg.secBoots : Nat := 0xf0014
/-- MAP.CAP (R496). -/
def Reg.mapCap : Nat := 0xe0000
/-- MAP.STAT (R496). -/
def Reg.mapStat : Nat := 0xe0004
/-- MAP.CHc.TRAIN (R496). -/
def Reg.mapChTrain (i : Nat) : Nat := 0xe0100 + 0x40 * i
/-- MAP.CHc.ODT (R496). -/
def Reg.mapChOdt (i : Nat) : Nat := 0xe0104 + 0x40 * i
/-- MAP.CHc.CORRECTED (R496). -/
def Reg.mapChCorrected (i : Nat) : Nat := 0xe0108 + 0x40 * i
/-- MAP.CHc.UNCORRECTABLE (R496). -/
def Reg.mapChUncorrectable (i : Nat) : Nat := 0xe010c + 0x40 * i
/-- MAP.CHc.STAMP_ERRORS (R496). -/
def Reg.mapChStampErrors (i : Nat) : Nat := 0xe0110 + 0x40 * i
/-- MAP.CHc.PARITY_ERRORS (R496). -/
def Reg.mapChParityErrors (i : Nat) : Nat := 0xe0114 + 0x40 * i
/-- MAP.CHc.READS (R496). -/
def Reg.mapChReads (i : Nat) : Nat := 0xe0118 + 0x40 * i
/-- MAP.CHc.WRITES (R496). -/
def Reg.mapChWrites (i : Nat) : Nat := 0xe0120 + 0x40 * i

/-- The registers of R101. -/
def Reg.rowsR101 : List RegRow :=
  [ ⟨0x70000, 0, 1, false, 0, 0x84080⟩
  , ⟨0x70004, 0, 1, false, 0, 0⟩
  , ⟨0x70008, 0, 1, false, 0, 0⟩
  , ⟨0x70010, 0, 1, true, 0, 0⟩
  , ⟨0x70018, 0, 1, true, 0, 0⟩
  , ⟨0x70020, 0, 1, false, 0, 0⟩
  , ⟨0x70028, 0, 1, true, 0, 0⟩
  , ⟨0x70030, 0, 1, false, 0, 0⟩
  , ⟨0x70034, 0, 1, false, 0, 0⟩
  , ⟨0x70038, 0, 1, false, 0, 0⟩
  , ⟨0x7003c, 0, 1, false, 0, 0⟩
  , ⟨0x70040, 0, 1, false, 0, 0⟩
  , ⟨0x70044, 0, 1, false, 0, 0⟩
  , ⟨0x70048, 0, 1, false, 0xf, 2⟩ ]

/-- The registers of R148. -/
def Reg.rowsR148 : List RegRow :=
  [ ⟨0x80000, 0, 1, false, 0, 0⟩
  , ⟨0x80004, 0, 1, false, 0, 0⟩
  , ⟨0x80008, 0, 1, false, 0, 0⟩
  , ⟨0x80010, 0, 1, true, 0, 0⟩
  , ⟨0x80018, 0, 1, true, 0, 0⟩
  , ⟨0x80020, 0, 1, false, 0, 0⟩
  , ⟨0x80024, 0, 1, false, 0xffff, 0x5a4b⟩
  , ⟨0x80028, 0, 1, false, 0xff, 0⟩
  , ⟨0x8002c, 0, 1, false, 0, 0⟩
  , ⟨0x80030, 0, 1, true, 0, 0⟩
  , ⟨0x80038, 0, 1, true, 0, 0⟩
  , ⟨0x80040, 0, 1, true, 0, 0⟩
  , ⟨0x80048, 0, 1, false, 0, 0⟩
  , ⟨0x80080, 4, 8, false, 0, 0⟩
  , ⟨0x80100, 0x10, 17, true, 0, 0⟩
  , ⟨0x80108, 0x10, 17, true, 0, 0⟩ ]

/-- The registers of R166. -/
def Reg.rowsR166 : List RegRow :=
  [ ⟨0x30000, 0, 1, false, 3, 1⟩
  , ⟨0x30004, 0, 1, false, 0, 8⟩
  , ⟨0x30008, 0, 1, false, 0, 0⟩
  , ⟨0x30010, 0, 1, true, 0, 0⟩
  , ⟨0x30018, 0, 1, true, 0, 0⟩
  , ⟨0x30020, 0, 1, true, 0, 0x1000000000000⟩
  , ⟨0x30028, 0, 1, false, 0, 0⟩
  , ⟨0x3002c, 0, 1, false, 0xffff, 0x64⟩
  , ⟨0x30030, 0, 1, false, 0, 0⟩
  , ⟨0x30034, 0, 1, false, 0, 0⟩
  , ⟨0x30038, 0, 1, false, 0, 0⟩
  , ⟨0x3003c, 0, 1, false, 0x3fff, 0x1f4⟩
  , ⟨0x30040, 0, 1, false, 0, 0⟩
  , ⟨0x30044, 0, 1, false, 0, 0⟩ ]

/-- The registers of R199. -/
def Reg.rowsR199 : List RegRow :=
  [ ⟨0x10800, 0, 1, false, 3, 3⟩
  , ⟨0x10804, 0, 1, false, 0xffff, 0x51e⟩
  , ⟨0x10808, 0, 1, false, 0xffffffff, 0x127500⟩
  , ⟨0x1080c, 0, 1, false, 0xff, 0x40⟩
  , ⟨0x10810, 0, 1, false, 0xffff, 0x40⟩
  , ⟨0x10814, 0, 1, false, 0xff, 0xc8⟩
  , ⟨0x10818, 0, 1, false, 0, 0⟩
  , ⟨0x10820, 0, 1, true, 0, 0⟩
  , ⟨0x10828, 0, 1, false, 0, 0⟩
  , ⟨0x1082c, 0, 1, false, 0, 0⟩
  , ⟨0x10830, 0, 1, true, 0, 0⟩
  , ⟨0x10838, 0, 1, true, 0, 0⟩
  , ⟨0x10840, 0, 1, false, 0, 0⟩
  , ⟨0x10900, 8, 64, true, 0, 0⟩
  , ⟨0x10b00, 8, 64, true, 0, 0⟩ ]

/-- The registers of R208. -/
def Reg.rowsR208 : List RegRow :=
  [ ⟨0x100000, 0x40, 1024, true, 0xfffffffffffff000, 0⟩
  , ⟨0x100008, 0x40, 1024, true, 0xfffffffffffffff8, 0⟩
  , ⟨0x100010, 0x40, 1024, false, 0x87ff01ff, 0⟩
  , ⟨0x100014, 0x40, 1024, false, 1, 0⟩
  , ⟨0x100018, 0x40, 1024, false, 0xffffff, 0⟩
  , ⟨0x10001c, 0x40, 1024, false, 0, 0⟩
  , ⟨0x100020, 0x40, 1024, true, 0, 0⟩
  , ⟨0x100028, 0x40, 1024, false, 0, 0⟩
  , ⟨0x10002c, 0x40, 1024, false, 0, 0⟩
  , ⟨0x100030, 0x40, 1024, true, 0, 0⟩
  , ⟨0x100038, 0x40, 1024, true, 0, 0⟩ ]

/-- The registers of R239. -/
def Reg.rowsR239 : List RegRow :=
  [ ⟨0x110800, 0, 1, false, 0, 0⟩
  , ⟨0x110808, 0, 1, true, 0, 0⟩
  , ⟨0x110810, 0, 1, true, 0, 0⟩
  , ⟨0x110818, 0, 1, false, 0, 0⟩ ]

/-- The registers of R292. -/
def Reg.rowsR292 : List RegRow :=
  [ ⟨0x50000, 0, 1, false, 0, 0x18000840⟩
  , ⟨0x50004, 0, 1, false, 0x1fff, 0x800⟩
  , ⟨0x50008, 0, 1, false, 0, 0x1000⟩
  , ⟨0x5000c, 0, 1, false, 0xfffff, 0xc350⟩
  , ⟨0x50010, 0, 1, false, 0, 0⟩
  , ⟨0x50014, 0, 1, false, 0, 0⟩
  , ⟨0x50018, 0, 1, true, 0, 0⟩
  , ⟨0x50100, 0x20, 8, true, 0xfffffffffffff000, 0⟩
  , ⟨0x50108, 0x20, 8, false, 0x87ff011f, 0⟩
  , ⟨0x5010c, 0x20, 8, false, 1, 0⟩
  , ⟨0x50110, 0x20, 8, false, 0, 0⟩
  , ⟨0x50114, 0x20, 8, false, 0x1ffff, 0⟩
  , ⟨0x50118, 0x20, 8, false, 0xffffff, 0⟩
  , ⟨0x5011c, 0x20, 8, false, 0, 0⟩
  , ⟨0x50400, 0x40, 64, false, 0x3fff77ff, 0x40c0030⟩
  , ⟨0x50404, 0x40, 64, false, 1, 0⟩
  , ⟨0x50408, 0x40, 64, false, 0, 0⟩
  , ⟨0x50410, 0x40, 64, true, 0xffffffffffffffc0, 0⟩
  , ⟨0x50418, 0x40, 64, true, 0, 0⟩
  , ⟨0x50420, 0x40, 64, false, 0, 0⟩ ]

/-- The registers of R317. -/
def Reg.rowsR317 : List RegRow :=
  [ ⟨0x60000, 0, 1, false, 0, 0x10600⟩
  , ⟨0x60004, 0, 1, false, 0, 0xf800⟩
  , ⟨0x60008, 0, 1, false, 0, 0⟩
  , ⟨0x60010, 0, 1, false, 0, 0xfffffff0⟩
  , ⟨0x60014, 0, 1, false, 0, 0x40003⟩
  , ⟨0x60018, 0, 1, false, 0, 0xffff0008⟩
  , ⟨0x60020, 0, 1, false, 0xffff03f1, 0x10000241⟩
  , ⟨0x60024, 0, 1, false, 0xff03, 0x4003⟩
  , ⟨0x60028, 0, 1, false, 0, 0⟩
  , ⟨0x60030, 0, 1, true, 0, 0⟩
  , ⟨0x60038, 0, 1, true, 0, 0⟩
  , ⟨0x60040, 0, 1, true, 0, 0⟩
  , ⟨0x60048, 0, 1, false, 0, 0⟩
  , ⟨0x6004c, 0, 1, false, 0, 0⟩
  , ⟨0x60050, 0, 1, true, 0, 0⟩
  , ⟨0x60058, 0, 1, false, 0, 0⟩
  , ⟨0x6005c, 0, 1, false, 0, 0⟩
  , ⟨0x60060, 0, 1, true, 0, 0⟩
  , ⟨0x60068, 0, 1, true, 0, 0⟩
  , ⟨0x60070, 0, 1, false, 0, 0⟩
  , ⟨0x60074, 0, 1, false, 0, 0⟩ ]

/-- The registers of R346. -/
def Reg.rowsR346 : List RegRow :=
  [ ⟨0x1000000, 0x4000, 256, false, 0, 0⟩
  , ⟨0x1000004, 0x4000, 256, false, 0xf1f, 0x604⟩
  , ⟨0x1000008, 0x4000, 256, false, 0, 0⟩
  , ⟨0x1000010, 0x4000, 256, true, 0, 0⟩
  , ⟨0x1000018, 0x4000, 256, true, 0, 0⟩
  , ⟨0x1000020, 0x4000, 256, false, 0, 0⟩
  , ⟨0x1000024, 0x4000, 256, false, 0, 0⟩
  , ⟨0x1000028, 0x4000, 256, false, 0, 0⟩
  , ⟨0x1000030, 0x4000, 256, true, 0, 0⟩
  , ⟨0x1000038, 0x4000, 256, true, 0, 0⟩
  , ⟨0x1000040, 0x4000, 256, false, 0, 0⟩
  , ⟨0x1000044, 0x4000, 256, false, 0, 0⟩
  , ⟨0x1000048, 0x4000, 256, false, 0, 0⟩
  , ⟨0x100004c, 0x4000, 256, false, 0, 0⟩
  , ⟨0x1003000, 0x40000, 16, false, 0, 0⟩
  , ⟨0x1003004, 0x40000, 16, false, 0, 0⟩
  , ⟨0x1003800, 0, 1, false, 0, 0⟩
  , ⟨0x1003804, 0, 1, false, 0, 0x20000⟩
  , ⟨0x1003808, 0, 1, false, 0, 0x20000⟩
  , ⟨0x1003810, 0, 1, false, 0xffff, 0x7d0⟩
  , ⟨0x1003814, 0, 1, false, 0xffff, 0xa⟩
  , ⟨0x1003818, 0, 1, false, 0xffff, 0x10⟩
  , ⟨0x100381c, 0, 1, false, 0xffff, 0x3c⟩
  , ⟨0x1003820, 0, 1, false, 0xff07, 0x1403⟩
  , ⟨0x1003824, 0, 1, false, 0, 0⟩ ]

/-- The registers of R368. -/
def Reg.rowsR368 : List RegRow :=
  [ ⟨0x20000, 0, 1, false, 0, 0x2c400b⟩
  , ⟨0x20004, 0, 1, false, 3, 2⟩
  , ⟨0x20008, 0, 1, false, 7, 2⟩
  , ⟨0x2000c, 0, 1, false, 3, 1⟩
  , ⟨0x20010, 0, 1, false, 0, 0⟩
  , ⟨0x20018, 0, 1, false, 0, 0⟩
  , ⟨0x20020, 0, 1, true, 0, 0⟩
  , ⟨0x20028, 0, 1, true, 0, 0⟩
  , ⟨0x20030, 0, 1, true, 0, 0⟩
  , ⟨0x20038, 0, 1, false, 0, 0⟩
  , ⟨0x2003c, 0, 1, false, 0, 0⟩
  , ⟨0x20040, 0, 1, true, 0, 0⟩
  , ⟨0x20060, 4, 8, false, 0, 0⟩
  , ⟨0x20080, 0x10, 16, true, 0, 0⟩
  , ⟨0x20088, 0x10, 16, true, 0, 0⟩
  , ⟨0x20200, 8, 16, true, 0xffffffffffffffff, 0⟩
  , ⟨0x21000, 8, 256, true, 0, 0⟩ ]

/-- The registers of R391. -/
def Reg.rowsR391 : List RegRow :=
  [ ⟨0x40000, 0, 1, false, 0, 0x87⟩
  , ⟨0x40010, 8, 7, false, 0, 0⟩
  , ⟨0x40014, 8, 7, false, 0xffffffff, 0xc000000⟩
  , ⟨0x40050, 0, 1, false, 0xff00, 0x6400⟩
  , ⟨0x40058, 0, 1, false, 0, 0⟩
  , ⟨0x4005c, 0, 1, false, 0, 0⟩
  , ⟨0x40060, 0, 1, false, 0, 0⟩
  , ⟨0x40064, 0, 1, false, 0, 0⟩
  , ⟨0x40080, 4, 17, false, 0, 0⟩
  , ⟨0x40400, 0, 1, false, 1, 1⟩
  , ⟨0x40404, 0, 1, false, 0xffffff, 0xa808⟩
  , ⟨0x40408, 0, 1, false, 0, 0⟩
  , ⟨0x4040c, 0, 1, false, 0, 0⟩
  , ⟨0x40410, 0, 1, false, 0, 0⟩
  , ⟨0x40414, 0, 1, false, 0, 0⟩
  , ⟨0x40418, 0, 1, false, 0, 0⟩
  , ⟨0x40440, 4, 17, false, 0xffffffff, 0⟩
  , ⟨0x404a0, 4, 17, false, 0, 0⟩
  , ⟨0x40500, 8, 17, true, 0, 0⟩ ]

/-- The registers of R392. -/
def Reg.rowsR392 : List RegRow :=
  [ ⟨0x10400, 0, 1, false, 0xff01, 0x200⟩
  , ⟨0x10404, 0, 1, false, 0, 0⟩
  , ⟨0x10408, 0, 1, false, 0, 0⟩
  , ⟨0x1040c, 0, 1, false, 0, 0⟩ ]

/-- The registers of R421. -/
def Reg.rowsR421 : List RegRow :=
  [ ⟨0x90000, 0, 1, false, 0, 8⟩
  , ⟨0x90004, 0, 1, false, 0, 0⟩
  , ⟨0x90008, 0, 1, false, 0xff, 0x1e⟩
  , ⟨0x9000c, 0, 1, false, 0, 0⟩
  , ⟨0x90010, 0, 1, true, 0, 0⟩
  , ⟨0x90018, 0, 1, false, 0, 0⟩
  , ⟨0x9001c, 0, 1, false, 0, 0⟩
  , ⟨0x90020, 0, 1, true, 0, 0⟩
  , ⟨0x90028, 0, 1, true, 0, 0⟩
  , ⟨0x90030, 0, 1, false, 0, 0⟩
  , ⟨0x90034, 0, 1, false, 0, 0⟩
  , ⟨0x90038, 0, 1, true, 0, 0⟩
  , ⟨0x90040, 0, 1, false, 0, 0⟩ ]

/-- The registers of R422. -/
def Reg.rowsR422 : List RegRow :=
  [ ⟨0xa0000, 0, 1, false, 0, 0⟩
  , ⟨0xa0004, 0, 1, false, 3, 2⟩
  , ⟨0xa0008, 0, 1, false, 0, 0⟩
  , ⟨0xa0010, 0, 1, false, 0, 0⟩
  , ⟨0xa0014, 0, 1, false, 0, 0⟩
  , ⟨0xa0018, 0, 1, false, 0, 0⟩
  , ⟨0xa001c, 0, 1, false, 0, 0⟩
  , ⟨0xa0020, 0, 1, false, 0, 0⟩ ]

/-- The registers of R456. -/
def Reg.rowsR456 : List RegRow :=
  [ ⟨0xc0000, 0x8000, 2, false, 0, 6⟩
  , ⟨0xc0004, 0x8000, 2, false, 0, 0⟩
  , ⟨0xc0008, 0x8000, 2, false, 0, 0⟩
  , ⟨0xc000c, 0x8000, 2, false, 0xff07ff, 0x190320⟩
  , ⟨0xc0010, 0x8000, 2, false, 0, 0⟩
  , ⟨0xc0014, 0x8000, 2, false, 0xffff, 0x10⟩
  , ⟨0xc0018, 0x8000, 2, false, 0, 0⟩
  , ⟨0xc001c, 0x8000, 2, false, 0, 0⟩
  , ⟨0xc0020, 0x8000, 2, false, 0, 0⟩
  , ⟨0xc0024, 0x8000, 2, false, 0, 0⟩ ]

/-- The registers of R457. -/
def Reg.rowsR457 : List RegRow :=
  [ ⟨0xb0000, 0, 1, false, 0, 0⟩
  , ⟨0xb0004, 0, 1, false, 0, 0⟩
  , ⟨0xb0008, 0, 1, false, 0, 0⟩
  , ⟨0xb000c, 0, 1, false, 0, 0⟩
  , ⟨0xb0010, 0, 1, false, 0, 0⟩
  , ⟨0xb0014, 0, 1, false, 0, 0⟩
  , ⟨0xb0018, 0, 1, true, 0, 0⟩
  , ⟨0xb0020, 0, 1, false, 0, 0⟩
  , ⟨0xb0100, 0x20, 64, true, 0xffffff000, 0⟩
  , ⟨0xb0108, 0x20, 64, true, 0x1f1fff1fff, 0⟩
  , ⟨0xb0900, 0x20, 64, true, 0, 0⟩
  , ⟨0xb0908, 0x20, 64, true, 0, 0⟩ ]

/-- The registers of R480. -/
def Reg.rowsR480 : List RegRow :=
  [ ⟨0x10000, 0, 1, false, 0, 0⟩
  , ⟨0x10004, 0, 1, false, 0, 0⟩
  , ⟨0x10008, 0, 1, false, 0, 0⟩
  , ⟨0x1000c, 0, 1, false, 0, 0⟩
  , ⟨0x10010, 0, 1, false, 0, 0⟩
  , ⟨0x10014, 0, 1, false, 0, 0⟩
  , ⟨0x10020, 0, 1, false, 0, 0⟩
  , ⟨0x11000, 8, 128, true, 0, 0⟩ ]

/-- The registers of R481. -/
def Reg.rowsR481 : List RegRow :=
  [ ⟨0xf0000, 0, 1, false, 0, 0⟩
  , ⟨0xf0004, 0, 1, false, 0, 0⟩
  , ⟨0xf0008, 0, 1, false, 0, 0⟩
  , ⟨0xf000c, 0, 1, false, 0, 0⟩
  , ⟨0xf0010, 0, 1, false, 0, 0⟩
  , ⟨0xf0014, 0, 1, false, 0, 0⟩ ]

/-- The registers of R496. -/
def Reg.rowsR496 : List RegRow :=
  [ ⟨0xe0000, 0, 1, false, 0, 0x1708⟩
  , ⟨0xe0004, 0, 1, false, 0, 0⟩
  , ⟨0xe0100, 0x40, 8, false, 0, 0⟩
  , ⟨0xe0104, 0x40, 8, false, 3, 1⟩
  , ⟨0xe0108, 0x40, 8, false, 0, 0⟩
  , ⟨0xe010c, 0x40, 8, false, 0, 0⟩
  , ⟨0xe0110, 0x40, 8, false, 0, 0⟩
  , ⟨0xe0114, 0x40, 8, false, 0, 0⟩
  , ⟨0xe0118, 0x40, 8, true, 0, 0⟩
  , ⟨0xe0120, 0x40, 8, true, 0, 0⟩ ]

/-- Command and event ring contexts (R209): CFG.PRIV is bit 9 of a command ring's CFG; an event ring has no SHADOW. -/
def Reg.rowsR209 : List RegRow :=
  [ ⟨0x110000, 0x40, 16, true, 0xfffffffffffff000, 0⟩
  , ⟨0x110008, 0x40, 16, true, 0xfffffffffffffff8, 0⟩
  , ⟨0x110010, 0x40, 16, false, 0x87ff031f, 0⟩
  , ⟨0x110014, 0x40, 16, false, 1, 0⟩
  , ⟨0x110018, 0x40, 16, false, 0xffffff, 0⟩
  , ⟨0x11001c, 0x40, 16, false, 0, 0⟩
  , ⟨0x110020, 0x40, 16, true, 0, 0⟩
  , ⟨0x110028, 0x40, 16, false, 0, 0⟩
  , ⟨0x11002c, 0x40, 16, false, 0, 0⟩
  , ⟨0x110030, 0x40, 16, true, 0, 0⟩
  , ⟨0x110038, 0x40, 16, true, 0, 0⟩
  , ⟨0x110400, 0x40, 2, true, 0xfffffffffffff000, 0⟩
  , ⟨0x110410, 0x40, 2, false, 0x87ff001f, 0⟩
  , ⟨0x110414, 0x40, 2, false, 1, 0⟩
  , ⟨0x110418, 0x40, 2, false, 0xffffff, 0⟩
  , ⟨0x11041c, 0x40, 2, false, 0, 0⟩
  , ⟨0x110420, 0x40, 2, true, 0, 0⟩
  , ⟨0x110428, 0x40, 2, false, 0, 0⟩
  , ⟨0x11042c, 0x40, 2, false, 0, 0⟩
  , ⟨0x110430, 0x40, 2, true, 0, 0⟩
  , ⟨0x110438, 0x40, 2, true, 0, 0⟩ ]

/-- The whole map. -/
def Reg.rows : List RegRow :=
  Reg.rowsR101 ++
  Reg.rowsR209 ++
  Reg.rowsR148 ++
  Reg.rowsR166 ++
  Reg.rowsR199 ++
  Reg.rowsR208 ++
  Reg.rowsR239 ++
  Reg.rowsR292 ++
  Reg.rowsR317 ++
  Reg.rowsR346 ++
  Reg.rowsR368 ++
  Reg.rowsR391 ++
  Reg.rowsR392 ++
  Reg.rowsR421 ++
  Reg.rowsR422 ++
  Reg.rowsR456 ++
  Reg.rowsR457 ++
  Reg.rowsR480 ++
  Reg.rowsR481 ++
  Reg.rowsR496

/-- Whether the row's registers include the one at this offset. -/
def RegRow.covers (r : RegRow) (off : Nat) : Bool :=
  if r.count = 1 then decide (off = r.base)
  else decide (r.base ≤ off) && decide (r.base + r.stride * r.count > off) && decide ((off - r.base) % r.stride = 0)

/-- The register at an offset, if the map has one. -/
def Reg.find (off : Nat) : Option RegRow := Reg.rows.find? (fun r => r.covers off)

end Sys2Proof.Machine
end

