-- ==== Sys2Proof/Machine/Regs.lean ====
section
/-! DEFINITION. The stored registers of BAR0: reading, writing and counting, with the reset value of each offset
(spec/00_scope.md R6 to R10; the reset values are those of the owning chapters' tables). -/

namespace Sys2Proof.Machine

/-- LOW_MV and HIGH_MV at reset of rail r, with HYST_MV 12 (R383, R391). -/
def railWarnReset (r : Nat) : Nat :=
  let v := ([(720, 780), (768, 832), (816, 884), (1728, 1872), (864, 936), (1152, 1248), (1152, 1248)] :
    List (Nat × Nat)).getD r (0, 0)
  v.1 + v.2 * 2 ^ 12 + 12 * 2 ^ 24

/-- CHn.CFG at reset: the line and PRIO of R265 and R267, MQ 0, BURST_LOG2 12, PACE_PAGES 64 (R292). -/
def chanCfgReset (n : Nat) : Nat :=
  let line := if n < 16 then 1 else if n < 32 then 2 else if n < 40 then 3 else if n < 48 then 4 else 0
  let prio := if n < 32 then 0 else if n < 40 then 1 else if n < 48 then 2 else 3
  line + 3 * 2 ^ 4 + prio * 2 ^ 8 + 0xC * 2 ^ 16 + 0x40 * 2 ^ 20

/-- The reset value of the register at an offset on a part. -/
def Reg.reset (p : Part) (off : Nat) : Word64 :=
  if off = Reg.logRate then (if p = .np9128 then 0x0E else 0x1C)
  else match Reg.find off with
    | none => 0
    | some r =>
      if r.base = Reg.monRailWarn 0 then BitVec.ofNat 64 (railWarnReset ((off - r.base) / r.stride))
      else if r.base = Reg.dmvChCfg 0 then BitVec.ofNat 64 (chanCfgReset ((off - r.base) / r.stride))
      else BitVec.ofNat 64 r.rst

/-- The part fused into this controller (R1). -/
def State.part (s : State) : Part := s.gcs.part

/-- The stored word of the register at an offset. -/
def State.reg (s : State) (off : Nat) : Word64 := Tab.get s.regs (Reg.reset s.gcs.part off) off

/-- The stored word as a number. -/
def State.regN (s : State) (off : Nat) : Nat := (s.reg off).toNat

/-- The stored word replaced. -/
def State.setReg (s : State) (off : Nat) (v : Word64) : State :=
  s.withRegs (Tab.set s.regs (Reg.reset s.gcs.part off) off v)

/-- The stored word replaced by a number. -/
def State.setRegN (s : State) (off : Nat) (v : Nat) : State := s.setReg off (BitVec.ofNat 64 v)

/-- A 64-bit counter advanced; it wraps (log entry 10). -/
def State.count64 (s : State) (off n : Nat) : State := s.setRegN off ((s.regN off + n) % 2 ^ 64)

/-- A 32-bit counter advanced; it wraps (log entry 10). -/
def State.count32 (s : State) (off n : Nat) : State := s.setRegN off ((s.regN off + n) % 2 ^ 32)

/-- A 32-bit counter advanced, saturating. -/
def State.sat32 (s : State) (off n : Nat) : State := s.setRegN off (satTo 32 (s.regN off + n))

/-- Every stored register for which `f` holds returned to its reset value. -/
def State.dropRegs (s : State) (f : Nat → Bool) : State := s.withRegs (s.regs.filter (fun e => !f e.1))

/-- Whether an offset lies in a range of `len` bytes from `base`. -/
def inBlock (base len off : Nat) : Bool := decide (base ≤ off) && decide (off < base + len)

/-- A field of a stored register. -/
def State.regField (s : State) (off lo len : Nat) : Nat := bitsOf (s.regN off) lo len

/-- A bit of a stored register. -/
def State.regBit (s : State) (off i : Nat) : Bool := bitOf (s.regN off) i

/-- A flit sent on the pair link with the next SEQ; the replay buffer keeps the newest 512 (R411, R412). -/
def State.sendFlit (s : State) (typ arg : Nat) (data : Bytes) : State :=
  let p := s.pair
  let seq := p.seqTx + 1
  let buf := p.replayBuf ++ [(seq, typ, arg, data)]
  let s := s.withPair { p with seqTx := seq, replayBuf := buf.drop (buf.length - 512) }
  (s.count64 Reg.pairFlitsTx 1).withOut (.flit seq p.seqRx typ arg data :: s.out)

end Sys2Proof.Machine
end

