-- ==== Sys2Proof/Machine/LogCore.lean ====
section
/-! DEFINITION. The Log as a store of records (spec/04_the_log.md): appending a record, occupancy, anchors, the tail,
bank write counts, life records, and the seal-record bookkeeping that other units share. -/

namespace Sys2Proof.Machine

/-- Journal units of this side: half of them in PAIRED, TAKEOVER and ALONE (R108, R402). -/
def State.journalUnits (s : State) : Nat :=
  match s.pair.state with
  | .paired | .takeover | .alone => Config.journalUnits s.part / 2
  | _ => Config.journalUnits s.part

/-- The records of this side's own half: those adopted from the mirror half stay where they are (R402, R407). -/
def Log.own (l : Log) : List Rec := l.recs.filter (fun r => !r.mirror)

/-- The position of the oldest record that the tail has not passed, the head when there is none. -/
def Log.tailPos (l : Log) : Nat :=
  match l.own with
  | [] => l.head
  | r :: _ => r.pos

/-- SEQ of the oldest unretired record, the next SEQ when there is none (R110, R148). -/
def Log.tailSeq (l : Log) : Nat :=
  match l.own with
  | [] => l.nextSeq
  | r :: _ => r.seq

/-- Written units: from the tail to the head. -/
def State.writtenUnits (s : State) : Nat :=
  match s.log.own with
  | [] => 0
  | r :: rest =>
    if rest.isEmpty then r.units
    else (s.log.head + s.journalUnits - r.pos % s.journalUnits) % s.journalUnits

/-- Journal occupancy in units: written plus reserved (spec/04, Small-write throttling). -/
def State.occupancy (s : State) : Nat := s.writtenUnits + (s.log.recs.map (fun r => r.reserve)).foldl (· + ·) 0

/-- Occupancy in percent. -/
def State.occPct (s : State) : Nat := s.occupancy * 100 / s.journalUnits

/-- Units of the first x units of Log space that lie in pair p of n (R104). -/
def pairUnitsBelow (n p x : Nat) : Nat := x / (4 * n) * 4 + min 4 (x % (4 * n) - 4 * p)

/-- Units of [pos, pos + k) that lie in pair p of n. -/
def pairUnits (n p pos k : Nat) : Nat := pairUnitsBelow n p (pos + k) - pairUnitsBelow n p pos

/-- The spare bank written beside pair role r while a calibration run copies one of its banks (R374). -/
def State.joinedSpare (s : State) (r : PairRole) : Option (BitVec 5) :=
  match s.mon.run with
  | some c => if c.phase = .copy ∧ (c.bank = r.copyA ∨ c.bank = r.copyB) then c.spare else none
  | none => none

/-- u unit writes counted in the banks of pair p: both copies unless fenced, and a spare that has joined the pair. -/
def State.countPair (s : State) (t : Tab Nat) (p u : Nat) : Tab Nat :=
  let r := s.log.pairs.getD p { copyA := 0, copyB := 0, single := false, resilvering := false, target := 0 }
  let t := if r.copyA ∈ s.log.fenced then t else Tab.modify t 0 r.copyA.toNat (· + u)
  let t := if r.copyB ∈ s.log.fenced then t else Tab.modify t 0 r.copyB.toNat (· + u)
  match s.joinedSpare r with
  | none => t
  | some b => Tab.modify t 0 b.toNat (· + u)

/-- k unit writes at a position counted per bank (R104, R138, R374). -/
def State.countUnits (s : State) (pos k : Nat) : State :=
  let n := Config.pairs s.part
  let w := (List.range n).foldl (fun t p => s.countPair t p (pairUnits n p pos k)) s.log.bankWrites
  s.withLog { s.log with bankWrites := w }

/-- The highest WATCH of any committed record, retired ones included (R110). -/
def Log.watchHw (l : Log) : BitVec 48 :=
  let newest := match Tab.get l.anchors none ((l.anchorSlot + 63) % 64) with
    | none => 0
    | some a => a.watchHw
  l.recs.foldl (fun m r => if r.status = .committed ∧ m.toNat < r.watch.toNat then r.watch else m) newest

/-- The next anchor slot written (R110): position and SEQ of the oldest unretired record, EPOCH one more than the last. -/
def State.writeAnchor (s : State) : State :=
  let l := s.log
  s.withLog { l with
    anchors := Tab.set l.anchors none l.anchorSlot
      (some { pos := l.tailPos, seq := l.tailSeq, epoch := l.epoch + 1, watchHw := l.watchHw, fixNs := s.wch.fixNs }),
    anchorSlot := (l.anchorSlot + 1) % 64, epoch := l.epoch + 1, tailMoved := 0 }

/-- The newest valid anchor (R110). -/
def Log.newestAnchor (l : Log) : Option Anchor :=
  if l.epoch = 0 then none else Tab.get l.anchors none ((l.anchorSlot + 63) % 64)

/-- 8 MiB in units. -/
def anchorUnits : Nat := 131072

/-- An anchor written first when the head would otherwise come within 8 MiB of the newest anchor's position (R110). -/
def State.anchorAhead (s : State) (units : Nat) : State :=
  match s.log.newestAnchor with
  | none => s
  | some a =>
    if s.journalUnits ≤ (s.log.head + s.journalUnits - a.pos % s.journalUnits) % s.journalUnits + units + anchorUnits
    then s.writeAnchor else s

/-- A record of a type with every other field clear. -/
def Rec.blank (t : RecType) (units : Nat) : Rec :=
  { seq := 0, typ := t, pos := 0, units := units, set := 0, profile := 0, rowFirst := 0, rowCount := 0,
    incarnation := 0, generation := 0, watch := 0, stripe := 0, stripeCount := 0, fragMask := 0, lwm := 0,
    encode := false, zero := false, relocated := false, holdover := false, sectors := [], names := [], fixNs := 0,
    status := .writing, retired := false, sealedAck := false, io := none, localDone := false, partner := false,
    covered := false, reserve := 0, openWrites := [], mirror := false, filled := true }

/-- A record appended at the head with the next SEQ (R111); its units are being written. -/
def State.appendRec (s : State) (r : Rec) : State :=
  let s := s.anchorAhead r.units
  let l := s.log
  let r := { r with seq := l.nextSeq, pos := l.head }
  let s := s.withLog { l with recs := l.recs ++ [r], head := (l.head + r.units) % s.journalUnits, nextSeq := l.nextSeq + 1 }
  let s := s.countUnits r.pos r.units
  if s.pair.state = .paired then s.sendFlit 2 r.pos [] else s

/-- The highest bank temperatures seen, the present ones included (R120). -/
def State.bankTmax (s : State) : Tab Int :=
  (List.range (Config.banks s.part)).foldl (fun t n =>
    match (Tab.get s.mon.banks BankCal.at0 n).nowC with
    | none => t
    | some c => if Tab.get t 0 n < c then Tab.set t 0 n c else t) s.log.tmax

/-- A life record written (R120): its counters are those of this instant. -/
def State.appendLife (s : State) : State :=
  let v : Life := { seq := s.log.nextSeq, fixNs := s.wch.fixNs, writes := s.log.bankWrites, tmax := s.bankTmax,
                    powerOnS := s.log.powerOnS, hotS := s.log.hotS }
  let s := s.appendRec { Rec.blank .life 6 with fixNs := s.wch.fixNs }
  s.withLog { s.log with lives := s.log.lives ++ [{ v with seq := s.log.nextSeq - 1 }], tmax := v.tmax }

/-- A life record committed: it is the newest one unless a newer one already is (R120). -/
def Log.lifeCommitted (l : Log) (seq : Nat) : Log :=
  match l.lives.find? (fun v => v.seq = seq) with
  | none => l
  | some v => { l with life := if l.life.seq < seq then v else l.life, lives := l.lives.filter (fun w => w.seq ≠ seq) }

/-- Whether the tail may pass a record: it is retired, had no effect, or is a committed record that needs no retirement and
is not the newest life record (R120, R121, R133). -/
def Log.passable (l : Log) (r : Rec) : Bool :=
  match r.status with
  | .abandoned => true
  | .writing => false
  | .committed =>
    match r.typ with
    | .sealRec | .retire => true
    | .life => l.recs.any (fun q => q.typ = .life && decide (r.seq < q.seq) && q.status = .committed)
    | _ => r.retired

/-- The records past the tail, and the units the tail frees; an adopted record leaves once it is retired and holds nothing back. -/
def Log.trimmed (l : Log) : List Rec → List Rec × Nat
  | [] => ([], 0)
  | r :: rest =>
    if r.mirror then let (q, n) := l.trimmed rest; (if r.retired then q else r :: q, n)
    else if l.passable r then let (q, n) := l.trimmed rest; (q, n + r.units) else (r :: rest, 0)

/-- The tail advanced past every record it may pass; an anchor when it has advanced 8 MiB (R110), a fresh life record when
only the newest one holds it (R120). -/
def State.trimLog (s : State) : State :=
  let (recs, freed) := s.log.trimmed s.log.recs
  let s := s.withLog { s.log with recs := recs, tailMoved := s.log.tailMoved + freed,
                                  freed := if freed = 0 then s.log.freed else (s.wch.fixNs, freed) :: s.log.freed.take 64 }
  let s := if anchorUnits ≤ s.log.tailMoved then s.writeAnchor else s
  match s.log.own with
  | r :: q :: rest =>
    if r.typ = .life ∧ r.status = .committed ∧ !((q :: rest).any (fun x => x.typ = .life)) then s.appendLife else s
  | _ => s

/-- A record changed. -/
def State.modRec (s : State) (seq : Nat) (f : Rec → Rec) : State :=
  s.withLog { s.log with recs := s.log.recs.map (fun r => if r.seq = seq then f r else r) }

/-- A record by SEQ. -/
def State.findRec (s : State) (seq : Nat) : Option Rec := s.log.recs.find? (fun r => r.seq = seq)

/-- Retire records naming the listed records, five at most in each (R119). -/
def State.appendRetires (s : State) : Nat → List Nat → State
  | 0, _ => s
  | _, [] => s
  | fuel + 1, seqs => (s.appendRec { Rec.blank .retire 1 with names := seqs.take 5 }).appendRetires fuel (seqs.drop 5)

/-- The DATA rate in bytes per ns (R130, R148). -/
def State.dataRate (s : State) : Nat := s.regField Reg.logRate 0 8

/-- The credit now: grown at the DATA rate since it was last taken, capped at 10 µs of it (R130). -/
def State.creditNow (s : State) : Int :=
  min (s.dataRate * 10000 : Nat) (s.log.credit + ((s.dataRate * (s.wch.fixNs.toNat - s.log.creditAt.toNat) : Nat) : Int))

/-- Payload deducted from the credit at admission (R130). -/
def State.deductCredit (s : State) (bytes : Nat) : State :=
  s.withLog { s.log with credit := s.creditNow - (bytes : Int), creditAt := s.wch.fixNs }

/-- Sum of the units listed with a time within the last 100 µs. -/
def State.recentUnits (s : State) (l : List (Word64 × Nat)) : Nat :=
  (l.filter (fun e => decide (s.wch.fixNs.toNat ≤ e.1.toNat + 100000))).foldl (fun n e => n + e.2) 0

/-- Journaled data not covered by a committed COMMIT record, in sectors (R135). -/
def State.uncoveredSectors (s : State) : Nat :=
  (s.log.recs.filter (fun r => r.typ = .data && decide (r.status ≠ .abandoned) && !r.covered && !r.retired)).foldl
    (fun n r => n + r.rowCount * (bitList 64 r.fragMask.toNat).length) 0

end Sys2Proof.Machine
end

