-- ==== Sys2Proof/Machine/Events.lean ====
section
/-! DEFINITION. What leaves through a host port about rings: MSI-X messages (R230, R437, R438), event records with their
hold (R233 to R237), and head words (R228, R229). -/

namespace Sys2Proof.Machine

/-- The key of a ring in State.rings: data ring n is n, command ring c is 1024 + c, event ring Ep is 1040 + p. -/
def ringKey : RingId → Nat
  | .data n => n.toNat
  | .cmd c => 1024 + c.toNat
  | .event p => 1040 + ofBool p

/-- The BAR0 offset of a ring's context (R208). -/
def ringCtx : RingId → Nat
  | .data n => 0x100000 + 64 * n.toNat
  | .cmd c => 0x110000 + 64 * c.toNat
  | .event p => 0x110400 + 64 * ofBool p

/-- Every data and command ring. -/
def hostRings : List RingId :=
  (List.range 1024).map (fun n => .data (BitVec.ofNat 10 n)) ++ (List.range 16).map (fun c => .cmd (BitVec.ofNat 4 c))

/-- A ring context. -/
def State.ring (s : State) (r : RingId) : Ring := Tab.get s.rings Ring.at0 (ringKey r)

/-- A ring context replaced. -/
def State.setRing (s : State) (r : RingId) (v : Ring) : State := s.withRings (Tab.set s.rings Ring.at0 (ringKey r) v)

/-- A ring context changed. -/
def State.modRing (s : State) (r : RingId) (f : Ring → Ring) : State := s.setRing r (f (s.ring r))

/-- BASE of a ring (R208). -/
def State.ringBase (s : State) (r : RingId) : Nat := s.regN (ringCtx r)

/-- SHADOW of a ring (R208). -/
def State.ringShadow (s : State) (r : RingId) : Nat := s.regN (ringCtx r + 8)

/-- CFG of a ring (R208, R209). -/
def State.ringCfg (s : State) (r : RingId) : Nat := s.regN (ringCtx r + 0x10)

/-- INT of a ring (R208). -/
def State.ringInt (s : State) (r : RingId) : Nat := s.regN (ringCtx r + 0x18)

/-- N, the entries of a ring (R200). -/
def State.ringN (s : State) (r : RingId) : Nat := 2 ^ bitsOf (s.ringCfg r) 0 5

/-- The host port of a ring (R201, R209). -/
def State.ringPort (s : State) (r : RingId) : Bool :=
  match r with
  | .event p => p
  | _ => bitOf (s.ringCfg r) 8

/-- The priority level of a data ring (R208). -/
def State.ringPrio (s : State) (r : RingId) : Nat := bitsOf (s.ringCfg r) 5 3

/-- CFG.PRIV of a command ring (R209). -/
def State.ringPriv (s : State) (c : BitVec 4) : Bool := bitOf (s.ringCfg (.cmd c)) 9

/-- The count of entries from position a to position b of a ring of n entries (R202). -/
def posCount (n a b : Nat) : Nat := (b % (2 * n) + 2 * n - a % (2 * n)) % (2 * n)

/-- The position k entries after a. -/
def posAdd (n a k : Nat) : Nat := (a + k) % (2 * n)

/-- The index of a position (R202). -/
def posIndex (n a : Nat) : Nat := a % n

/-- The lap of a position (R202). -/
def posLap (n a : Nat) : Bool := a / n % 2 == 1

/-- A host port. -/
def State.hpu (s : State) (p : Bool) : Hpu := Tab.get s.hpus Hpu.at0 (ofBool p)

/-- A host port replaced. -/
def State.setHpu (s : State) (p : Bool) (v : Hpu) : State := s.withHpus (Tab.set s.hpus Hpu.at0 (ofBool p) v)

/-- A host port changed. -/
def State.modHpu (s : State) (p : Bool) (f : Hpu → Hpu) : State := s.setHpu p (f (s.hpu p))

/-- What leaves the controller, newest first. -/
def State.emit (s : State) (o : Out) : State := s.withOut (o :: s.out)

/-- The controller writes nothing more to host memory: the halt close has ended (R221). -/
def State.haltClosed (s : State) : Bool := s.gcs.halted && !s.gcs.haltClosing

/-- Port p sends no memory request: contained (R443), in D3hot (R471), or its link in reset. -/
def State.portSilent (s : State) (p : Bool) : Bool :=
  (s.hpu p).contained || (s.hpu p).d3hot || s.haltClosed

/-- An outbound TLP of port p; it takes the link out of L1 (R439). -/
def State.hostOut (s : State) (p : Bool) (o : Out) : State :=
  (if (s.hpu p).inL1 then s.modHpu p (fun h => { h with inL1 := false }) else s).emit o

/-- An entry of port p's MSI-X table (R437). -/
def State.msixEntry (s : State) (p : Bool) (v : Nat) : MsixEntry := Tab.get (s.hpu p).msix MsixEntry.at0 v

/-- The MSI-X message of vector v of port p: nothing while MSI-X Enable is 0, the pending bit while the vector is masked
or the port is frozen, the message otherwise (R438, R443). -/
def State.sendMsix (s : State) (p : Bool) (v : Nat) : State :=
  if !(s.hpu p).cfg.msixEnable || s.haltClosed then s
  else if s.portSilent p || (s.hpu p).cfg.functionMask || (s.msixEntry p v).masked then
    s.modHpu p (fun h => { h with pendingBits := withElem h.pendingBits v })
  else s.hostOut p (.msix p v)

/-- k completions (or records) of a ring signalled: the message goes when COUNT is reached or HOLDOFF is 0 (R230). -/
def State.notify (s : State) (r : RingId) (k : Nat) : State :=
  if !bitOf (s.ringCfg r) 31 then s
  else
    let u := (s.ring r).unsignalled + k
    if bitsOf (s.ringInt r) 0 16 = 0 || decide (max 1 (bitsOf (s.ringInt r) 16 8) ≤ u) then
      (s.modRing r (fun g => { g with unsignalled := 0 })).sendMsix (s.ringPort r) (bitsOf (s.ringCfg r) 16 11)
    else s.modRing r (fun g => { g with unsignalled := u })

/-! ## Event records -/

/-- A fault as its unit raises it: source, nominal level, detail, the port of sources 0xA0 to 0xBF (256 otherwise, R360),
and the injected flag (R262). -/
structure FaultReq where
  source : Byte
  level : Level
  detail : Byte
  port : Nat
  injected : Bool
deriving DecidableEq, Repr

/-- A real fault with no port. -/
def fault (source : Byte) (level : Level) (detail : Byte) : FaultReq :=
  { source := source, level := level, detail := detail, port := 256, injected := false }

/-- Record classes of R234. -/
inductive RecordClass where
  | classA
  | classB
  | classC
deriving DecidableEq, Repr

/-- The class of a record TYPE (R234). -/
def recordClass (t : Byte) : RecordClass :=
  if t = 1 ∨ t = 2 then .classA else if t = 3 ∨ t = 4 ∨ t = 0x0A then .classB else .classC

/-- A record with the values of R234 for unnamed fields. -/
def EventRecord.blank (t : Byte) : EventRecord :=
  { typ := t, lap := false, kindCmd := false, status := 0, detail := 0, ring := 0xFFFF, index := 0, tag := 0,
    lba := 0, setId := 0xFF, count := 0, aux := 0 }

/-- Microseconds of fix time from t until now. -/
def State.usSince (s : State) (t : Word64) : Nat := (s.wch.fixNs.toNat - t.toNat) / 1000

/-- Free entries of event ring p. -/
def State.eventFree (s : State) (p : Bool) : Nat :=
  s.ringN (.event p) - posCount (s.ringN (.event p)) (s.ring (.event p)).head (s.ring (.event p)).tail

/-- A record written into the next free entry of event ring p; the ring becomes full when N entries are taken (R237). -/
def State.writeRecord (s : State) (p : Bool) (r : EventRecord) : State × List FaultReq :=
  let g := s.ring (.event p)
  let n := s.ringN (.event p)
  let tail := posAdd n g.tail 1
  let full := decide (posCount n g.head tail = n)
  let g := { g with tail := tail, doneCount := (g.doneCount + 1) % 2 ^ 64, isFull := full, fullOwed := g.fullOwed || full,
                    fullSince := if full then s.wch.fixNs else g.fullSince,
                    droppedNow := if full then 0 else g.droppedNow,
                    dropEpisode := if full then false else g.dropEpisode }
  let s := (s.setRing (.event p) g).hostOut p (.record p ((s.ring (.event p)).tail) r)
  (s.notify (.event p) 1, if full then [fault 0x24 .note (BitVec.ofNat 8 (ofBool p))] else [])

/-- The outcome of posting to one event ring: written or held or not wanted, dropped, or refused for want of room. -/
inductive Posted where
  | yes
  | dropped
  | noRoom
deriving DecidableEq, Repr

/-- Whether a record may be written to event ring p at once: the ring has a free entry, nothing waits in its hold before it,
no EVENT_FULL record is owed, and the port is not silent (R236, R237, R444). -/
def State.canWrite (s : State) (p : Bool) : Bool :=
  decide (0 < s.eventFree p) && (s.ring (.event p)).hold.isEmpty && !(s.ring (.event p)).fullOwed && !s.portSilent p

/-- Whether the hold of event ring p has room for a record of this class (R236). -/
def State.holdRoom (s : State) (p : Bool) (cl : RecordClass) : Bool :=
  let h := (s.ring (.event p)).hold
  decide (h.length < 256) && (cl ≠ .classC || decide ((h.filter (fun r => recordClass r.typ = .classC)).length < 64))

/-- A record posted to event ring p (R236): written, held, or, for class C, dropped, while for class B it waits with the operation
that forms it. In the halt close a record that finds no free entry is not written (R221). -/
def State.postTo (s : State) (p : Bool) (r : EventRecord) : State × List FaultReq × Posted :=
  let g := s.ring (.event p)
  if g.state ≠ .active || s.haltClosed then (s, [], .yes)
  else if s.canWrite p then let (s, f) := s.writeRecord p r; (s, f, .yes)
  else if s.gcs.halted then (s, [], .noRoom)
  else if recordClass r.typ = .classB ∧ (!s.holdRoom p .classB ∨ g.waitB ≠ []) then
    (s.setRing (.event p) { g with waitB := g.waitB ++ [r] }, [], .yes)
  else if s.holdRoom p (recordClass r.typ) then
    (s.setRing (.event p) { g with hold := g.hold ++ [r] }, [], .yes)
  else if recordClass r.typ = .classC then
    (s.setRing (.event p) { g with dropped := satTo 32 (g.dropped + 1), droppedNow := g.droppedNow + 1,
                                   dropEpisode := true },
      if g.dropEpisode then [] else [fault 0x25 .note (BitVec.ofNat 8 (ofBool p))], .dropped)
  else (s, [], .noRoom)

/-- A record posted to each ACTIVE event ring (R235). -/
def State.postBoth (s : State) (r : EventRecord) : State × List FaultReq :=
  let (s, f, _) := s.postTo false r
  let (s, g, _) := s.postTo true r
  (s, f ++ g)

/-- Whether an operation waits for the record that it forms (R236): the repairs of rows and the stripes of rebuild then wait. -/
def State.classBWaits (s : State) : Bool :=
  !(s.ring (.event false)).waitB.isEmpty || !(s.ring (.event true)).waitB.isEmpty

/-- Class B records that wait enter the hold as it empties (R236). -/
def State.refillHold (s : State) (p : Bool) : State :=
  s.modRing (.event p) (fun g =>
    let k := 256 - g.hold.length
    { g with hold := g.hold ++ g.waitB.take k, waitB := g.waitB.drop k })

/-- The records of event ring p's hold written while entries are free, n of them at most (R236). -/
def State.drainHold (s : State) (p : Bool) : Nat → State × List FaultReq
  | 0 => (s, [])
  | n + 1 =>
    let g := s.ring (.event p)
    match g.hold with
    | [] => (s, [])
    | r :: rest =>
      if decide (0 < s.eventFree p) && !s.portSilent p && decide (g.state = .active) then
        let (s, f) := ((s.setRing (.event p) { g with hold := rest }).refillHold p).writeRecord p r
        let (s, f') := s.drainHold p n
        (s, f ++ f')
      else (s, [])

/-- The EVENT_FULL record of event ring p, the first one written once space has freed (R237), then its hold. -/
def State.spaceFreed (s : State) (p : Bool) : State × List FaultReq :=
  let g := s.ring (.event p)
  if g.state ≠ .active ∨ s.portSilent p ∨ s.eventFree p = 0 then (s, [])
  else
    let (s, f) :=
      if g.fullOwed then
        let us := s.usSince g.fullSince
        let s := s.setRing (.event p) { g with fullOwed := false, isFull := false, fullUs := satTo 32 (g.fullUs + us) }
        s.writeRecord p { EventRecord.blank 7 with count := BitVec.ofNat 32 (satTo 32 us),
                                                   aux := BitVec.ofNat 32 (satTo 32 g.droppedNow) }
      else (s, [])
    let (s, f') := s.drainHold p (g.hold.length + g.waitB.length)
    (s, f ++ f')

/-! ## Head words -/

/-- The head word of a ring (R228): INDEX, LAP and, for a data ring, EXC_COUNT. -/
def headWordOf (n head : Nat) (exc : Word32) : Word64 :=
  BitVec.ofNat 64 (posIndex n head + ofBool (posLap n head) * 2 ^ 16 + exc.toNat * 2 ^ 32)

/-- The head word of ring r published (R229), k entries having completed. -/
def State.publish (s : State) (r : RingId) (k : Nat) : State :=
  let g := s.ring r
  (s.hostOut (s.ringPort r) (.headWord r (headWordOf (s.ringN r) g.head g.exc))).notify r k

/-- Whether the rings of this state publish: every state but DISABLED, and HALTED only in the halt close (R210). -/
def ringPublishes (s : State) (r : RingId) : Bool :=
  match (s.ring r).state with
  | .disabled => false
  | .halted => s.gcs.haltClosing
  | _ => true

/-- The head of a data ring moved past its finished entries, at most `fuel`, each entry's record posted before the head
passes it; the head stalls at an entry whose class A record finds no room (R228, R236). Answers how many it passed. -/
def State.passEnded (s : State) (r : RingId) : Nat → State × List FaultReq × Nat
  | 0 => (s, [], 0)
  | fuel + 1 =>
    let g := s.ring r
    match g.ended.find? (fun e => e.pos = g.head) with
    | none => (s, [], 0)
    | some e =>
      let pass (s : State) (x : Nat) : State :=
        s.modRing r (fun g => { g with head := posAdd (s.ringN r) g.head 1, exc := g.exc + BitVec.ofNat 32 x,
                                       ended := g.ended.filter (fun d => d.pos ≠ e.pos),
                                       doneCount := (g.doneCount + 1) % 2 ^ 64,
                                       stallUs := if g.evtWait then satTo 32 (g.stallUs + s.usSince g.stallSince)
                                                  else g.stallUs,
                                       evtWait := false })
      match e.record with
      | none => let (s, f, k) := (pass s 0).passEnded r fuel; (s, f, k + 1)
      | some rec =>
        match s.postTo (s.ringPort r) rec with
        | (s, f, .noRoom) =>
          (s.modRing r (fun g => { g with evtWait := true,
                                          stallSince := if g.evtWait then g.stallSince else s.wch.fixNs }), f, 0)
        | (s, f, _) => let (s, f', k) := (pass s 1).passEnded r fuel; (s, f ++ f', k + 1)

/-- The head of data ring r brought up to date and published if it moved (R229). -/
def State.advanceHead (s : State) (r : RingId) : State × List FaultReq :=
  if !ringPublishes s r || s.portSilent (s.ringPort r) then (s, [])
  else
    let (s, f, k) := s.passEnded r (s.ring r).ended.length
    (if k = 0 then s else s.publish r k, f)

/-- An entry of data ring r ended with its outcome; the head moves if it can. -/
def State.endEntry (s : State) (r : RingId) (pos : Nat) (status : Byte) (rec : Option EventRecord) :
    State × List FaultReq :=
  (s.modRing r (fun g => { g with ended := g.ended ++ [{ pos := pos, status := status, record := rec }] })).advanceHead r

end Sys2Proof.Machine
end

