-- ==== Sys2Proof/Machine/Endings.lean ====
section
/-! DEFINITION. How outstanding work ends: replies of command packets (R232, R241, R416), descriptors ended with an outcome
(R228), aborted runs (R213), entry of a set to PRESERVED (R38, R315), and the halt of the controller (R221). These
operations answer the state and the faults they raise; Machine/Faults.lean raises them. -/

namespace Sys2Proof.Machine

/-! ## Chain frames and replies -/

/-- A chain frame sent by this unit (R415, R422). -/
def State.sendFrame (s : State) (typ seq : Byte) (payload : Bytes) : State :=
  (s.count32 Reg.chnFramesTx 1).emit (.chainFrame typ seq payload)

/-- A frame this unit originates: SEQ is its running count (R415). -/
def State.originate (s : State) (typ : Byte) (payload : Bytes) : State :=
  (s.sendFrame typ s.chn.origSeq payload).withChn { s.chn with origSeq := s.chn.origSeq + 1 }

/-- The 32 bytes of an event record (R233) with PHASE zero: its place in a ring gives PHASE. -/
def EventRecord.bytes (r : EventRecord) : Bytes :=
  [r.typ, BitVec.ofNat 8 (2 * ofBool r.lap + 4 * ofBool r.kindCmd), r.status, r.detail] ++
  leBytes 2 r.ring.toNat ++ leBytes 2 r.index.toNat ++ leBytes 8 r.tag.toNat ++ leBytes 6 r.lba.toNat ++
  [r.setId, 0] ++ leBytes 4 r.count.toNat ++ leBytes 4 r.aux.toNat

/-- The unit drives CHN_ALERT_N low (R419). -/
def State.setAlert (s : State) : State := s.withChn { s.chn with alert := true }

/-- The key of a command source: ring c is c, the chain is 16. -/
def srcKey : CmdSrc → Nat
  | .ring c => c.toNat
  | .chain => 16

/-- The packets waiting at a source, the one in front the oldest. -/
def State.srcQueue (s : State) (src : CmdSrc) : List Bytes := Tab.get s.interp.srcs [] (srcKey src)

/-- The packets waiting at a source replaced. -/
def State.setSrcQueue (s : State) (src : CmdSrc) (q : List Bytes) : State :=
  s.withInterp { s.interp with srcs := Tab.set s.interp.srcs [] (srcKey src) q }

/-- The reply over a packet (R241). -/
def replyBytes (pkt : Bytes) (status detail : Byte) (result : Bytes) : Bytes :=
  sliceAt pkt 0 3 ++ [0, status, detail, 0, 0] ++ sliceAt pkt 8 8 ++ sliceAt result 0 112

/-- A RESULT with the listed fields: offset in the packet, size, value; every other byte zero. -/
def resultOf (fields : List (Nat × Nat × Nat)) : Bytes :=
  fields.foldl (fun r f => r.take (f.1 - 0x10) ++ leBytes f.2.1 f.2.2 ++ r.drop (f.1 - 0x10 + f.2.1)) (fill 112 0)

/-- The reply of a command ring written and its head word published (R232). -/
def State.writeReply (s : State) (c : BitVec 4) (bytes : Bytes) : State :=
  let r : RingId := .cmd c
  if !ringPublishes s r then s
  else
    let s := s.hostOut (s.ringPort r)
      (.reply (.ring c) (BitVec.ofNat 16 (leAt bytes 0 2)) (BitVec.ofNat 64 (leAt bytes 8 8)) (byteAt bytes 4)
        (byteAt bytes 5) (bytes.drop 16))
    let s := s.modRing r (fun g => { g with head := posAdd (s.ringN r) g.head 1,
                                            doneCount := (g.doneCount + 1) % 2 ^ 64 })
    s.publish r 1

/-- The reply to the packet at the front of a source: written to its ring, or sent by chain frame and kept for a repeated
SEQ (R416). A frozen port's reply waits (R444); a halted controller writes none to a ring (R246). -/
def State.reply (s : State) (src : CmdSrc) (pkt : Bytes) (status detail : Byte) (result : Bytes) : State :=
  let bytes := replyBytes pkt status detail result
  let s := s.setSrcQueue src ((s.srcQueue src).drop 1)
  let s := s.withInterp { s.interp with busy := without s.interp.busy src }
  match src with
  | .ring c =>
    if s.gcs.halted then s
    else if s.portSilent (s.ringPort (.cmd c)) then
      s.withInterp { s.interp with heldReplies := s.interp.heldReplies ++ [(src, bytes)] }
    else s.writeReply c bytes
  | .chain =>
    let seq := s.interp.chainBusySeq.getD 0
    let s := s.withInterp { s.interp with chainReply := bytes, chainLastSeq := some seq, chainBusySeq := none }
    (s.setRegN Reg.chnLastSeq seq.toNat).sendFrame 0x81 seq bytes

/-- Data written to the buffer whose descriptor stands at an offset of a packet (R244): SPACE 1 is the scratch buffer, SPACE 0
host memory through the ring's port. Answers whether it could be written: a frozen port writes nothing (R443). -/
def State.writeBuffer (s : State) (src : CmdSrc) (pkt : Bytes) (off : Nat) (data : Bytes) : State × Bool :=
  let addr := leAt pkt off 8
  if (byteAt pkt (off + 0xC)).toNat = 1 then
    (s.withInterp { s.interp with scratch := Memory.writeBytes s.interp.scratch addr data }, true)
  else match src with
    | .chain => (s, false)
    | .ring c =>
      let p := s.ringPort (.cmd c)
      if s.portSilent p then (s, false)
      else (if data.isEmpty then s else s.hostOut p (.hostWrite p (BitVec.ofNat 64 addr) data), true)

/-- A deferred command ended: it leaves the running list and replies (R248). -/
def State.endDeferred (s : State) (d : Deferred) (status detail : Byte) (result : Bytes) : State :=
  (s.withInterp { s.interp with deferred := s.interp.deferred.filter (fun e => e.src ≠ d.src) }).reply d.src d.packet
    status detail result

/-- A command ended with a reply, a deferred one leaving the running list. -/
def State.endCommand (s : State) (src : CmdSrc) (pkt : Bytes) (status detail : Byte) (result : Bytes) : State :=
  match s.interp.deferred.find? (fun d => d.src = src) with
  | some d => s.endDeferred d status detail result
  | none => s.reply src pkt status detail result

/-- Every deferred command ended without a reply: nothing that completes later answers for it (R246, R349). -/
def State.forgetDeferred (s : State) : State :=
  let s := s.withInterp { s.interp with deferred := [] }
  let s := s.withPorts (Tab.mapV s.ports Port.at0 (fun _ v => { v with resetSrc := none, adminSrc := none }))
  let s := s.withPortGroups (Tab.mapV s.portGroups Group.at0 (fun _ g => { g with src := none }))
  let s := s.withMon { s.mon with queue := [], run := s.mon.run.map (fun c => { c with src := none }) }
  (s.withPair { s.pair with joinSrc := none }).withWch { s.wch with todSrc := none }

/-- The deferred command of one source ended without a reply (R215). -/
def State.forgetSource (s : State) (src : CmdSrc) : State :=
  let keep (o : Option CmdSrc) : Option CmdSrc := if o = some src then none else o
  let s := s.withInterp { s.interp with deferred := s.interp.deferred.filter (fun d => d.src ≠ src) }
  let s := s.withPorts (Tab.mapV s.ports Port.at0 (fun _ v => { v with resetSrc := keep v.resetSrc, adminSrc := keep v.adminSrc }))
  let s := s.withPortGroups (Tab.mapV s.portGroups Group.at0 (fun _ g => { g with src := keep g.src }))
  let s := s.withMon { s.mon with queue := s.mon.queue.filter (fun q => q.2 ≠ src),
                                  run := s.mon.run.map (fun c => { c with src := keep c.src }) }
  (s.withPair { s.pair with joinSrc := keep s.pair.joinSrc }).withWch { s.wch with todSrc := keep s.wch.todSrc }

/-! ## Descriptors -/

/-- The IO_STATUS record of a descriptor (R234). -/
def State.ioRecord (s : State) (ring : BitVec 10) (d : Desc) (status detail : Byte) (lba count : Nat) : EventRecord :=
  let n := s.ringN (.data ring)
  { EventRecord.blank 1 with
      lap := posLap n d.pos, status := status, detail := detail, ring := ring.setWidth 16,
      index := BitVec.ofNat 16 (posIndex n d.pos), tag := d.tag, lba := BitVec.ofNat 48 lba, setId := d.set,
      count := BitVec.ofNat 32 count }

/-- A descriptor ends: IO_STATUS when it ends other than OK or has EVT set (R234); the head moves if it can. -/
def State.endDesc (s : State) (ring : BitVec 10) (d : Desc) (status detail : Byte) (lba count : Nat) :
    State × List FaultReq :=
  let rec? := if status ≠ 0 || d.flags.getLsbD 2 then some (s.ioRecord ring d status detail lba count) else none
  s.endEntry (.data ring) d.pos status rec?

/-- Lines of the Stripe Cache and the tier that satisfy p invalidated: a FILLING line becomes DOA, a pinned line leaves
lookups until its pin ends, any other line is freed (R295, R313). -/
def invalidLine (l : Line) : Line :=
  match l.state with
  | .filling => { l with doa := true }
  | _ => if l.pin then { l with stale := true } else Line.at0

/-- `invalidLine` over every line of either tier that satisfies p. -/
def Scc.invalidate (c : Scc) (p : Line → Bool) : Scc :=
  { c with lines := Tab.mapV c.lines Line.at0 (fun _ l => if p l then invalidLine l else l),
           tier := Tab.mapV c.tier Line.at0 (fun _ l => if p l then Line.at0 else l) }

/-- An I/O's uncommitted DATA records are abandoned (R112) and its PENDING lines dropped (R301). -/
def State.abandonIo (s : State) (id : Nat) : State :=
  let s := s.withLog { s.log with recs := s.log.recs.map (fun r =>
    if r.io = some id ∧ r.status = .writing then { r with status := .abandoned, reserve := 0 } else r) }
  s.withScc (s.scc.invalidate (fun l => l.state = .pending && l.io = some id))

/-- The data of an I/O's outstanding drive reads is discarded on arrival (R213). -/
def State.discardReads (s : State) (id : Nat) : State :=
  s.withDcmds (s.dcmds.map (fun d => if d.purpose = .hostRead id ∨ d.purpose = .verify id then { d with discard := true } else d))

/-- The reference of a forwarded descriptor (R401): the reading side's ring and position. -/
def Io.ref (io : Io) : Nat := io.ring.toNat + 2 ^ 16 * io.desc.pos

/-- An admitted descriptor ends with an outcome and leaves the outstanding list; one that the partner forwarded answers
with FWD_DONE instead of ending an entry here (R401). -/
def State.endIo (s : State) (io : Io) (status detail : Byte) (lba count : Nat) : State × List FaultReq :=
  let s := s.withIos (s.ios.filter (fun j => j.id ≠ io.id))
  let s := if status = 0 then s else (s.abandonIo io.id).discardReads io.id
  if io.fwd then (if s.pair.state = .paired then s.sendFlit 7 io.ref [status, detail] else s, [])
  else s.endDesc io.ring io.desc status detail lba count

/-- Each of the listed descriptors ended as `f` says. -/
def State.endIos (s : State) (f : Io → Byte × Byte) : List Io → State × List FaultReq
  | [] => (s, [])
  | io :: rest =>
    let (s, a) := s.endIo io (f io).1 (f io).2 io.desc.lba io.desc.blocks
    let (s, b) := s.endIos f rest
    (s, a ++ b)

/-! ## Aborted runs (R213) -/

/-- For each position, whether it is aborted and the length of the aborted run from it on. -/
def runsOf : List (Nat × Bool) → List (Nat × Bool × Nat)
  | [] => []
  | (p, a) :: rest =>
    let t := runsOf rest
    let next := match t with
      | [] => 0
      | (_, _, n) :: _ => n
    (p, a, if a then next + 1 else 0) :: t

/-- The ended entries of the aborted positions: the first of each maximal run carries a RANGE_ABORT record. -/
def abortEntries (mk : Nat → Nat → EventRecord) : Bool → List (Nat × Bool × Nat) → List Ended
  | _, [] => []
  | prev, (p, a, n) :: rest =>
    if a then
      { pos := p, status := 1, record := if prev then none else some (mk p n) } :: abortEntries mk true rest
    else abortEntries mk false rest

/-- The RANGE_ABORT record of a run of data ring n from position p: TAG is the first entry's when it was read. -/
def State.abortRecord (s : State) (n : BitVec 10) (tags : List (Nat × Word64)) (p count : Nat) : EventRecord :=
  let sz := s.ringN (.data n)
  { EventRecord.blank 2 with
      lap := posLap sz p, status := 1, ring := n.setWidth 16, index := BitVec.ofNat 16 (posIndex sz p),
      tag := (tags.find? (fun t => t.1 = p)).elim 0 (fun t => t.2), count := BitVec.ofNat 32 count }

/-- The entries of data ring n from its head up to (not including) position `stop` that are neither ended nor, when
`keep` holds of the admitted I/O, kept: all of them end ABORTED, in runs. -/
def State.abortRing (s : State) (n : BitVec 10) (stop : Nat) (keep : Io → Bool) : State × List FaultReq :=
  let r : RingId := .data n
  let g := s.ring r
  let sz := s.ringN r
  let mine := s.ios.filter (fun io => io.ring = n && !io.fwd)
  let tags := g.queue.map (fun d => (d.pos, d.tag)) ++ mine.map (fun io => (io.desc.pos, io.desc.tag))
  let ps := (List.range (posCount sz g.head stop)).map (fun k => posAdd sz g.head k)
  let flags := ps.map (fun p =>
    (p, !(g.ended.any (fun e => e.pos = p)) && !(mine.any (fun io => io.desc.pos = p && keep io))))
  let gone := mine.filter (fun io => !keep io)
  let s := s.withIos (s.ios.filter (fun io => !(io.ring = n && !io.fwd && !keep io)))
  let s := gone.foldl (fun s io => (s.abandonIo io.id).discardReads io.id) s
  let s := s.modRing r (fun g => { g with queue := [], fetched := g.tail, inRead := 0,
                                          ended := g.ended ++ abortEntries (s.abortRecord n tags) false (runsOf flags) })
  s.advanceHead r

/-! ## PRESERVED (R36, R38) -/

/-- An array set. -/
def State.set (s : State) (id : Nat) : ArraySet := Tab.get s.sets ArraySet.at0 id

/-- An array set replaced. -/
def State.setSet (s : State) (id : Nat) (v : ArraySet) : State := s.withSets (Tab.set s.sets ArraySet.at0 id v)

/-- An array set changed. -/
def State.modSet (s : State) (id : Nat) (f : ArraySet → ArraySet) : State := s.setSet id (f (s.set id))

/-- The code of a set state (R233). -/
def SetState.code : SetState → Nat
  | .empty => 0
  | .stopped => 1
  | .running => 2
  | .draining => 3
  | .preserved => 4

/-- The SET_STATE record of a set (R234). -/
def setStateRecord (id code : Nat) : EventRecord :=
  { EventRecord.blank 5 with setId := BitVec.ofNat 8 id, aux := BitVec.ofNat 32 code }

/-- The opcode of a packet (R240). -/
def opcodeOf (pkt : Bytes) : Nat := leAt pkt 0 2

/-- Whether SET_RECOVER of a set is running (R144). -/
def State.recovering (s : State) (id : Nat) : Bool :=
  s.interp.deferred.any (fun d => decide (opcodeOf d.packet = 0x0106) && decide ((byteAt d.packet 0x10).toNat = id))

/-- Deferred commands that lose their legality when set `id` leaves RUNNING, DRAINING and STOPPED end with ABORTED, detail
0x01, their RESULT the work done (R248). -/
def State.endRangeCommands (s : State) (id : Nat) : State :=
  (s.interp.deferred.filter (fun d =>
    (opcodeOf d.packet = 0x0701 ∨ opcodeOf d.packet = 0x0702 ∨ opcodeOf d.packet = 0x0703) ∧
      (byteAt d.packet 0x10).toNat % 64 = id)).foldl
    (fun s d => s.endDeferred d 1 1 (resultOf [(0x28, 8, d.count)])) s

/-- Detectors of a set freed (R308). -/
def State.freeDetectors (s : State) (id : Nat) : State :=
  s.withScc { s.scc with detectors := s.scc.detectors.filter (fun d => d.set.toNat ≠ id) }

/-- Set `id` enters PRESERVED (R36, R38, R315); an EMPTY or PRESERVED set is unchanged. -/
def State.preservePairs (s : State) (id : Nat) : State × List FaultReq :=
  let a := s.set id
  if a.state = .empty ∨ a.state = .preserved then (s, [])
  else
    let s := s.setSet id { a with state := .preserved, inFlight := [], replaying := false }
    let s := s.withRowOps (s.rowOps.filter (fun o => o.set.toNat ≠ id))
    let s := s.withCommits (s.commits.filter (fun o => o.set.toNat ≠ id))
    let s := s.withCht { s.cht with waiting := s.cht.waiting.filter (fun r => r.set.toNat ≠ id) }
    let (s, f) := s.endIos (fun io => if io.committed then (0, 0) else (1, 0))
      (s.ios.filter (fun io => io.set.toNat = id))
    let s := (s.withScc (s.scc.invalidate (fun l => l.key.set.toNat = id))).freeDetectors id
    let s := s.endRangeCommands id
    let (s, g) := s.postBoth (setStateRecord id 4)
    (s, f ++ g)

/-- The listed sets preserved in turn. -/
def State.preserveAll (s : State) : List Nat → State × List FaultReq
  | [] => (s, [])
  | i :: rest =>
    let (s, f) := s.preservePairs i
    let (s, g) := s.preserveAll rest
    (s, f ++ g)

/-! ## The halt (R221) -/

/-- What a halt latches: reason, and the malformed entry's ring and position; none for the HALT action (R362). -/
structure HaltInfo where
  reason : Byte
  entry : Option (RingId × Nat)
  silent : Bool
deriving DecidableEq, Repr

/-- The entries of every data ring that were not admitted end ABORTED; the ring of the malformed entry stops at it. -/
def State.abortAllRings (s : State) (h : HaltInfo) : List (BitVec 10) → State × List FaultReq
  | [] => (s, [])
  | n :: rest =>
    let stop := match h.entry with
      | some (.data m, p) => if m = n then p else (s.ring (.data n)).tail
      | _ => (s.ring (.data n)).tail
    let (s, f) := s.abortRing n stop (fun _ => true)
    let (s, g) := s.abortAllRings h rest
    (s, f ++ g)

/-- Data rings with a context that is not at its reset values. -/
def State.liveDataRings (s : State) : List (BitVec 10) :=
  (Tab.keysWith s.rings (fun k g => decide (k < 1024) && decide (g.state ≠ .disabled))).map (BitVec.ofNat 10)

/-- The HALT record (R234, R362). -/
def State.haltRecord (s : State) (h : HaltInfo) : EventRecord :=
  match h.entry with
  | none => EventRecord.blank 0x0A
  | some (r, p) =>
    let n := s.ringN r
    { EventRecord.blank 0x0A with
        lap := posLap n p,
        kindCmd := (match r with
          | .cmd _ => true
          | _ => false),
        detail := h.reason,
        ring := (match r with
          | .data m => m.setWidth 16
          | .cmd c => c.setWidth 16
          | .event q => BitVec.ofNat 16 (ofBool q)),
        index := BitVec.ofNat 16 (posIndex n p) }

/-- A halt: fetch and admission stop, every data and command ring enters HALTED, FAULT_N is driven low, every non-EMPTY set
is preserved, unadmitted entries end ABORTED, and one HALT record is posted to each ACTIVE event ring and sent as a chain
EVENT frame. A controller already halted is unchanged. -/
def State.haltPairs (s : State) (h : HaltInfo) : State × List FaultReq :=
  if s.gcs.halted then (s, [])
  else
    let live := s.liveDataRings
    let kind := match h.entry with
      | some (.cmd _, _) => true
      | _ => false
    let paired := s.pair.state ≠ .single && s.pair.side
    let ringNo := match h.entry with
      | some (.cmd c, _) => c.toNat + (if paired then 16 else 0)
      | some (.data m, _) => m.toNat + (if paired then 1024 else 0)
      | _ => 0
    let pos := match h.entry with
      | some (r, p) => (posIndex (s.ringN r) p, posLap (s.ringN r) p)
      | none => (0, false)
    let s := s.withGcs { s.gcs with halted := true, haltClosing := !h.silent, haltReason := h.reason, haltCmd := kind,
                                    haltRing := ringNo, haltIndex := pos.1, haltLap := pos.2 }
    let s := s.withRings (Tab.mapV s.rings Ring.at0 (fun k g =>
      if k < 1040 ∧ g.state ≠ .disabled then { g with state := .halted } else g))
    let s := (s.withFlt { s.flt with pinLow := true, queue := [] }).setAlert
    let taken := decide (CmdSrc.chain ∈ s.interp.busy)
    let s := s.withInterp { s.interp with srcs := s.interp.srcs.filter (fun e => e.1 = 16 && !taken), busy := [], bufs := [],
                                          chainBusySeq := if taken then none else s.interp.chainBusySeq, heldReplies := [] }
    let s := s.forgetDeferred
    let s := if s.pair.state = .paired then s.sendFlit 0x0A 0 [] else s
    let (s, a) := s.preserveAll ((List.range 64))
    let (s, b) := s.abortAllRings h live
    let rec1 := s.haltRecord h
    let (s, c) := s.postBoth rec1
    (s.originate 0x09 rec1.bytes, a ++ b ++ c)

end Sys2Proof.Machine
end

