-- ==== Sys2Proof/Machine/Flags.lean ====
section
/-! DEFINITION. The status codes and their order (spec/00_scope.md R11, R12), the fault levels and their order (R348), and
the level a fault takes by escalation (spec/12_faults_and_reaction.md R352). -/

namespace Sys2Proof.Machine

/-- Status codes of R11 by name. -/
def stOk : Byte := 0x00
/-- ABORTED. -/
def stAborted : Byte := 0x01
/-- BAD_OPCODE. -/
def stBadOpcode : Byte := 0x02
/-- BAD_FIELD. -/
def stBadField : Byte := 0x03
/-- SET_STATE. -/
def stSetState : Byte := 0x04
/-- NO_RESOURCE. -/
def stNoResource : Byte := 0x05
/-- MEDIA_LOST. -/
def stMediaLost : Byte := 0x06
/-- TIMEOUT. -/
def stTimeout : Byte := 0x07
/-- BUS_ERROR. -/
def stBusError : Byte := 0x08
/-- ALIGNMENT. -/
def stAlignment : Byte := 0x09
/-- OVERLAP. -/
def stOverlap : Byte := 0x0A
/-- NOT_PRESENT. -/
def stNotPresent : Byte := 0x0B
/-- HELD. -/
def stHeld : Byte := 0x0C
/-- CONTAINED. -/
def stContained : Byte := 0x0D
/-- DENIED. -/
def stDenied : Byte := 0x0E
/-- CAL_REF_BAD. -/
def stCalRefBad : Byte := 0x0F

/-- A byte whose value the spec does not state (log entry 25), and the state that has drawn it. -/
def State.freeByte (s : State) : State × Byte :=
  (s.withFreeCount (s.freeCount + 1), (Config.freeWord s.freeCount).setWidth 8)

/-- The place of a status code in the order of R12; lower is reported first. -/
def statusRank (c : Byte) : Nat :=
  if c = 0x02 then 1 else if c = 0x03 then 2 else if c = 0x0B then 3 else if c = 0x0E then 4 else if c = 0x09 then 5
  else if c = 0x0A then 6 else if c = 0x04 then 7 else if c = 0x0D then 8 else if c = 0x0C then 9
  else if c = 0x05 then 10 else 11

/-- Of two failures the one that R12 reports; the first listed on equal rank. -/
def firstFailure (a b : Byte × Byte) : Byte × Byte := if statusRank b.1 < statusRank a.1 then b else a

/-- The failure that R12 reports among a list of checks, none when every check passes. -/
def reported (checks : List (Option (Byte × Byte))) : Option (Byte × Byte) :=
  (checks.filterMap id).foldl (fun acc c => match acc with
    | none => some c
    | some a => some (firstFailure a c)) none

/-- A check: the failure when the condition holds. -/
def failIf (b : Bool) (status : Byte) (detail : Nat) : Option (Byte × Byte) :=
  if b then some (status, BitVec.ofNat 8 detail) else none

/-- The code of a level (R348). -/
def Level.code : Level → Nat
  | .note => 0
  | .warn => 1
  | .contain => 2
  | .stop => 3

/-- The level of a code. -/
def Level.ofCode (n : Nat) : Level :=
  match n % 4 with
  | 0 => .note
  | 1 => .warn
  | 2 => .contain
  | _ => .stop

/-- The level above (R352); STOP stays STOP. -/
def Level.up (l : Level) : Level := Level.ofCode (min 3 (l.code + 1))

/-- The higher of two levels. -/
def Level.sup (a b : Level) : Level := if a.code < b.code then b else a

/-- A fault source (R368). -/
def State.src (s : State) (n : Byte) : SrcState := Tab.get s.flt.srcs SrcState.at0 n.toNat

/-- A fault source replaced. -/
def State.setSrc (s : State) (n : Byte) (v : SrcState) : State :=
  s.withFlt { s.flt with srcs := Tab.set s.flt.srcs SrcState.at0 n.toNat v }

/-- Whether a fault escalates (R352): its nominal level is enabled in FLT.ESC and below STOP, and its source is open with
the same last detail. Sources 0x01 and 0x02 never escalate (R349). -/
def State.escalates (s : State) (f : FaultReq) : Bool :=
  s.regBit Reg.fltEsc f.level.code && decide (f.level ≠ .stop) && (s.src f.source).isOpen &&
    decide ((s.src f.source).lastDetail = f.detail) && decide (f.source ≠ 1) && decide (f.source ≠ 2)

/-- The level of a fault after escalation. -/
def State.faultLevel (s : State) (f : FaultReq) : Level := if s.escalates f then f.level.up else f.level

/-- Whether any source is open at or above FLT.PIN_LEVEL, or the controller is halted: FAULT_N is driven low (R355). -/
def State.pinWanted (s : State) : Bool :=
  s.gcs.halted ||
    s.flt.srcs.any (fun e => e.2.isOpen && decide (s.regField Reg.fltPinLevel 0 2 ≤ e.2.openLevel.code))

/-- FAULT_N re-evaluated (R355). -/
def State.evalPin (s : State) : State := s.withFlt { s.flt with pinLow := s.pinWanted }

/-- The source group of a source (R347), 11 for a reserved one. -/
def sourceGroup (n : Byte) : Nat :=
  let v := n.toNat
  if v < 0x10 then 0 else if v < 0x30 then 1 else if v < 0x40 then 2 else if v < 0x60 then 3 else if v < 0x80 then 4
  else if v < 0x90 then 5 else if v < 0xA0 then 6 else if v < 0xC0 then 7 else if v < 0xD0 then 8
  else if v < 0xE0 then 9 else if v < 0xF0 then 10 else 11

end Sys2Proof.Machine
end

