-- ==== Sys2Proof/Machine/Faults.lean ====
section
/-! DEFINITION. The Fault Collector: capturing a fault in the seven steps of R350, in the order of R351, with the first-fault
record (R353), the event record and chain frame (R356), and the reaction queue (R358); and the operations of
Machine/Endings.lean with their faults raised. -/

namespace Sys2Proof.Machine

/-- Whether capture is armed (R353): no valid record, or an acknowledged one whose FIX_NS is not this cycle's. -/
def State.captureArmed (s : State) : Bool :=
  !s.flt.first.valid || (s.flt.first.acked && decide (s.flt.first.fixNs ≠ s.wch.fixNs))

/-- Step 3 of R350: the record latched, or OVERFLOW set. -/
def State.latchFirst (s : State) (f : FaultReq) (lvl : Level) (esc : Bool) : State :=
  if s.captureArmed then
    s.withFlt { s.flt with first :=
      { source := f.source, level := lvl, detail := f.detail, fixNs := s.wch.fixNs, valid := true,
        injected := f.injected, overflow := false, acked := false, escalated := esc } }
  else s.withFlt { s.flt with first := { s.flt.first with overflow := true } }

/-- Steps 1 to 5 of R350. -/
def State.capture (s : State) (f : FaultReq) : State :=
  let lvl := s.faultLevel f
  let esc := s.escalates f
  let c := s.src f.source
  let s := s.setSrc f.source { c with count := satTo 32 (c.count + 1) }
  let s := s.latchFirst f lvl esc
  let c := s.src f.source
  let s := s.setSrc f.source
    { c with isOpen := true, openLevel := if c.isOpen then c.openLevel.sup lvl else lvl, lastDetail := f.detail,
             injected := f.injected }
  s.evalPin

/-- The FAULT event record (R234, R356). -/
def faultRecord (f : FaultReq) (lvl : Level) : EventRecord :=
  { EventRecord.blank 8 with
      detail := f.detail,
      aux := BitVec.ofNat 32 (f.source.toNat + lvl.code * 2 ^ 8 + ofBool f.injected * 2 ^ 10) }

/-- Step 6 of R350: the record and the chain EVENT frame (R356, R415); none from a halt on (R357). -/
def State.faultEvent (s : State) (f : FaultReq) (lvl : Level) : State × List FaultReq :=
  if lvl.code < s.regField Reg.fltEvt 0 2 || s.gcs.halted then (s, [])
  else
    let s := if s.regField Reg.chnCtl 0 2 ≤ lvl.code then s.originate 0x09 (faultRecord f lvl).bytes else s
    s.postBoth (faultRecord f lvl)

/-- Step 7 of R350: the reaction queued, merged with a queued one of the same source, level and detail, or dropped; a STOP
reaction that finds no room halts the controller (R358). -/
def State.queueReaction (s : State) (f : FaultReq) (lvl : Level) (esc latched : Bool) : State × List FaultReq :=
  if f.source = 1 ∨ f.source = 2 ∨ s.gcs.halted then (s, [])
  else
    let r : Reaction :=
      { source := f.source, level := lvl, nominal := f.level, detail := f.detail, injected := f.injected,
        escalated := esc, latched := latched, overflow := s.flt.first.overflow, fixNs := s.wch.fixNs,
        count := (s.src f.source).count, port := f.port }
    let same (q : Reaction) : Bool := q.source = f.source && q.level = lvl && q.detail = f.detail
    if s.flt.queue.any same then
      ((s.count32 Reg.fltRxCoalesced 1).withFlt
        { s.flt with queue := s.flt.queue.map (fun q => if same q then r else q) }, [])
    else
      let low := (s.flt.queue.filter (fun q => q.level.code < 2)).length
      let room := s.flt.queue.length < 64 && (decide (2 ≤ lvl.code) || decide (low < 48))
      if room then (s.withFlt { s.flt with queue := s.flt.queue ++ [r] }, [])
      else if lvl = .stop then s.haltPairs { reason := 0, entry := none, silent := false }
      else (s.count32 Reg.fltRxDropped 1, [fault 0x02 .warn f.source])

/-- The idle CE-S of every present cluster on test (R59). -/
def State.testSpares (s : State) : State :=
  s.withClusters ((List.range (Config.clusters s.part)).foldl (fun t c => Tab.modify t Cluster.at0 c (fun v =>
    if v.spareFor.isNone ∧ v.spareOk then { v with spareTesting := true } else v)) s.clusters)

/-- Idle-dock left for RUNNING (R470); a life record and a CE-S self-test deferred in it run once (R469). -/
def State.leaveDock (s : State) : State :=
  if s.gcs.phase = .dock then
    let s' := s.withGcs { s.gcs with phase := .running, deferredCalendar := [] }
    let s' := if 1 ∈ s.gcs.deferredCalendar then s'.appendLife else s'
    if 2 ∈ s.gcs.deferredCalendar then s'.testSpares else s'
  else s

/-- One fault taken through R350; a fault at WARN or above ends Idle-dock first (R470). -/
def State.raiseOne (s : State) (f : FaultReq) : State × List FaultReq :=
  let lvl := s.faultLevel f
  let esc := s.escalates f
  let latched := s.captureArmed
  let s := if lvl = .note then s else s.leaveDock
  let s := s.capture f
  let (s, a) := s.faultEvent f lvl
  let (s, b) := s.queueReaction f lvl esc latched
  (s, a ++ b)

/-- The listed faults raised in turn, then the faults they cause, `fuel` faults at most. -/
def State.raiseFuel (s : State) : Nat → List FaultReq → State
  | 0, _ => s
  | _, [] => s
  | fuel + 1, f :: rest =>
    let (s, more) := s.raiseOne f
    s.raiseFuel fuel (rest ++ more)

/-- Whether fault a comes before fault b in one cycle (R351). -/
def faultBefore (a b : FaultReq) : Bool :=
  if a.injected ≠ b.injected then !a.injected
  else if a.level ≠ b.level then decide (b.level.code < a.level.code)
  else decide (a.source.toNat ≤ b.source.toNat)

/-- A fault put into its place in the order of R351. -/
def insertFault (f : FaultReq) : List FaultReq → List FaultReq
  | [] => [f]
  | g :: rest => if faultBefore g f then g :: insertFault f rest else f :: g :: rest

/-- The faults of one cycle in the order of R351. -/
def orderFaults (fs : List FaultReq) : List FaultReq := fs.foldl (fun acc f => insertFault f acc) []

/-- The faults of one cycle raised (R350, R351). The bound is never reached: a fault causes at most one 0x02, and the two
event rings at most two 0x24 and two 0x25, and one halt its records. -/
def State.raiseAll (s : State) (fs : List FaultReq) : State := s.raiseFuel (4 * fs.length + 64) (orderFaults fs)

/-- One fault raised. -/
def State.raise (s : State) (source : Byte) (level : Level) (detail : Byte) : State :=
  s.raiseAll [fault source level detail]

/-- One fault of a drive port group raised with its port (R360), recorded in DP.Gn.LAST. -/
def State.raisePort (s : State) (base : Nat) (port : Byte) (level : Level) (detail : Byte) (link : Bool) : State :=
  let g := port.toNat / 16
  let v := Tab.get s.portGroups Group.at0 g
  let s := s.withPortGroups (Tab.set s.portGroups Group.at0 g
    { v with lastPort := port, lastDetail := detail, lastLink := link })
  s.raiseAll [{ source := BitVec.ofNat 8 (base + g), level := level, detail := detail, port := port.toNat,
                injected := false }]

/-- A state with the faults of an operation raised. -/
def raised (x : State × List FaultReq) : State := x.1.raiseAll x.2

/-- A descriptor ended, its faults raised. -/
def State.finishDesc (s : State) (ring : BitVec 10) (d : Desc) (status detail : Byte) (lba count : Nat) : State :=
  raised (s.endDesc ring d status detail lba count)

/-- An admitted descriptor ended, its faults raised. -/
def State.finishIo (s : State) (io : Io) (status detail : Byte) (lba count : Nat) : State :=
  raised (s.endIo io status detail lba count)

/-- A record posted to both event rings, its faults raised. -/
def State.post (s : State) (r : EventRecord) : State := raised (s.postBoth r)

/-- A set preserved, its faults raised (R36). -/
def State.preserve (s : State) (id : Nat) : State := raised (s.preservePairs id)

/-- The controller halted, the faults of the halt close raised (R221). -/
def State.halt (s : State) (h : HaltInfo) : State := raised (s.haltPairs h)

/-- FAULT_CLEAR's effect on one source (R354). -/
def State.clearSource (s : State) (n : Byte) : State :=
  let c := s.src n
  (s.setSrc n { c with isOpen := false, openLevel := .note, lastDetail := 0 }).evalPin

/-- FAULT_CLEAR's effect with ALL (R354). -/
def State.clearAllSources (s : State) : State :=
  (s.withFlt { s.flt with srcs := Tab.mapV s.flt.srcs SrcState.at0 (fun _ c =>
    { c with isOpen := false, openLevel := .note, lastDetail := 0 }) }).evalPin

/-- Whether a source ID is assigned by an owning chapter (R347, R349, R60, R95, R147, R165, R238, R345, R390, R420, R455,
R479, R291, R316). -/
def sourceAssigned (n : Byte) : Bool :=
  let v := n.toNat
  (decide (1 ≤ v) && decide (v ≤ 3)) || (decide (0x10 ≤ v) && decide (v ≤ 0x25)) ||
  (decide (0x30 ≤ v) && decide (v ≤ 0x35)) || (decide (0x40 ≤ v) && decide (v ≤ 0x4D)) ||
  (decide (0x50 ≤ v) && decide (v ≤ 0x5A)) || (decide (0x60 ≤ v) && decide (v ≤ 0x74)) ||
  (decide (0x80 ≤ v) && decide (v ≤ 0x87)) || (decide (0x90 ≤ v) && decide (v ≤ 0x92)) ||
  (decide (0xA0 ≤ v) && decide (v ≤ 0xCA)) || (decide (0xD0 ≤ v) && decide (v ≤ 0xDC)) ||
  (decide (0xE0 ≤ v) && decide (v ≤ 0xE5))

end Sys2Proof.Machine
end

