-- ==== Sys2Proof/Machine/Watch.lean ====
section
/-! DEFINITION. The Watch Timer's events (spec/05_watches_and_fix.md): FIX_PPS edges, time of day, watch boundaries, seals,
holdover. -/

namespace Sys2Proof.Machine

/-- The code of a timer state (R152). -/
def TimerState.code : TimerState → Nat
  | .unset => 0
  | .acquiring => 1
  | .locked => 2
  | .holdover => 3
  | .slewing => 4

/-- The watch number at a fix time (R156). -/
def watchAt (fix length : Nat) : BitVec 48 := BitVec.ofNat 48 (fix / length)

/-- The watch in force. -/
def State.watch (s : State) : BitVec 48 := watchAt s.wch.fixNs.toNat s.wch.length

/-- The HOLDOVER flag applied to versions: 0 only in LOCKED (R152). -/
def State.holdoverFlag (s : State) : Bool := decide (s.wch.timer ≠ .locked)

/-- The holdover error bound in ns, zero outside HOLDOVER (R161, R166). -/
def Wch.holdBound (w : Wch) : Nat :=
  if w.timer = .holdover then w.holdBase + w.holdS * w.holdRate + (w.gapTenths + 9999) / 10000 else 0

/-- Entry to a timer state: acceptance of edges starts afresh (R150), BEYOND clears on LOCKED (R162). -/
def State.enterTimer (s : State) (t : TimerState) : State :=
  let w := s.wch
  if w.timer = t then s
  else s.withWch { w with timer := t, edgeAnchored := false, consecutive := 0, rejectedRun := 0,
                          beyond := if t = .locked then false else w.beyond,
                          holdS := 0, closing := false, gapTenths := 0,
                          holdoverSeen := w.holdoverSeen || decide (t ≠ .locked) }

/-- Entry to HOLDOVER with a constant term (R161): the rate is the larger of the floor and the drift seen in LOCKED. -/
def State.enterHoldover (s : State) (base : Nat) : State :=
  let s := s.enterTimer .holdover
  s.withWch { s.wch with holdBase := base, holdS := 0, holdRate := max (s.regField Reg.wchHold 0 16) s.wch.maxDrift }

/-- Fix time stepped forward to a value; it never moves back (R149). -/
def State.stepFix (s : State) (ns : Nat) : State :=
  if s.wch.fixNs.toNat ≤ ns then s.withWch { s.wch with fixNs := BitVec.ofNat 64 ns, fracPs := 0 } else s

/-- The reply to the command that submitted a time of day, if one did (R258). -/
def State.replyTod (s : State) (src : Option CmdSrc) (status detail : Byte) (result : Bytes) : State :=
  match src with
  | none => s
  | some c =>
    match (s.interp.deferred.find? (fun d => d.src = c ∧ opcodeOf d.packet = 0x0601)) with
    | none => s
    | some d => s.endDeferred d status detail result

/-- RESULT of WATCH_SET_TOD (R257): the edge's fix time, Δ, the timer state after. -/
def State.todResult (s : State) (value : Nat) (delta : Int) : Bytes :=
  resultOf [(0x18, 8, value), (0x20, 8, signedNat 64 delta), (0x28, 1, s.wch.timer.code)]

/-- A pending or arriving time of day applied at this instant (R151 items 4 and 5). -/
def State.applyTod (s : State) (value : Nat) (src : Option CmdSrc) (atEdge : Bool) : State :=
  let delta : Int := (value : Int) - s.wch.fixNs.toNat
  let s := s.withWch { s.wch with tod := none, todSrc := none }
  if delta < -1000000000 then
    (s.raise 0xDB .note 0x01).replyTod src stBadField 0x18 []
  else
    let t := if 0 ≤ delta then s.stepFix value else s
    let t :=
      if atEdge then
        if delta < 0 then t.enterTimer .slewing
        else if s.wch.timer = .unset then t.enterTimer .acquiring else t
      else
        let t := t.enterHoldover 10000
        if delta < 0 then t.withWch { t.wch with closing := true, gapTenths := (-delta).toNat * 10000 } else t
    t.replyTod src stOk 0 (t.todResult value delta)

/-- A time of day submitted by WATCH_SET_TOD or a chain broadcast (R151 items 1, 2 and 5): the earlier one is replaced. -/
def State.submitTod (s : State) (value : Word64) (src : Option CmdSrc) : State :=
  if value.toNat % 1000000000 ≠ 0 then s.raise 0xDB .note 0x02
  else
    let old := s.wch.todSrc
    let s := s.withWch { s.wch with tod := none, todSrc := none }
    let s := s.replyTod old stAborted 0x02 []
    if s.regBit Reg.wchCtl 0 then
      s.withWch { s.wch with tod := some value, todArrival := s.wch.fixNs, todSrc := src }
    else s.applyTod value.toNat src false

/-- Whether an edge lies in the window of the timer state (R150). -/
def Wch.inWindow (w : Wch) (interval : Nat) : Bool :=
  let tol (d : Nat) : Bool := decide (1000000000 ≤ interval + d) && decide (interval ≤ 1000000000 + d)
  match w.timer with
  | .locked | .slewing => tol 1000
  | .acquiring => !w.edgeAnchored || tol 100000
  | .unset | .holdover => !w.edgeAnchored || tol 100000 || decide (1500000000 ≤ interval) || decide (3 ≤ w.rejectedRun)

/-- Whether the edge is accepted whatever its interval, so that the count of R153 restarts from it (R150). -/
def Wch.alwaysAccepted (w : Wch) (interval : Nat) : Bool :=
  match w.timer with
  | .locked | .slewing => false
  | .acquiring => !w.edgeAnchored
  | .unset | .holdover => !w.edgeAnchored || decide (1500000000 ≤ interval) || decide (3 ≤ w.rejectedRun)

/-- The transitions of R153 at an accepted edge that applies no time of day: `lead` is the timer minus the edge. -/
def State.edgeTransition (s : State) (lead : Int) : State :=
  match s.wch.timer with
  | .acquiring | .holdover =>
    if 4 ≤ s.wch.consecutive then
      if lead ≤ 100 then
        let s := if lead < 0 then s.stepFix (s.wch.fixNs.toNat + (-lead).toNat) else s
        s.enterTimer .locked
      else s.enterTimer .slewing
    else s
  | .slewing => if -100 ≤ lead ∧ lead ≤ 100 then s.enterTimer .locked else s
  | _ => s

/-- FIX_PPS lost (R153): LOCKED, ACQUIRING and SLEWING enter HOLDOVER. -/
def State.fixLost (s : State) : State :=
  match s.wch.timer with
  | .locked => (s.enterHoldover 100).raise 0xD8 .warn 0x01
  | .acquiring | .slewing => (s.enterHoldover 100).raise 0xD8 .note 0x01
  | _ => s

/-- FIX_PPS_EDGE (R150 to R153): a third consecutive rejected edge loses the fix. The edge's polarity, its interval from the previous accepted edge, the timer's lead over
it, and the largest drift of the last 64 s are measured by the fix input. -/
def execFixPpsEdge (rising : Bool) (intervalNs : Nat) (leadNs : Int) (jitterPpb : Nat) (s : State) :
    Host.Outcome State Fault Refusal :=
  if !s.regBit Reg.wchCtl 0 || rising = s.regBit Reg.wchCtl 1 then .next s
  else if !s.wch.inWindow intervalNs then
    let n := (s.wch.ppsReject + 1) % 2 ^ 32
    let run := s.wch.rejectedRun + 1
    let s := (s.withWch { s.wch with ppsReject := n, rejectedRun := run, consecutive := 0 }).raise 0xDA .note (BitVec.ofNat 8 n)
    .next (if 3 ≤ run then s.fixLost else s)
  else
    let w := s.wch
    let s := s.withWch { w with
      ppsCount := (w.ppsCount + 1) % 2 ^ 32, offsetNs := leadNs, rejectedRun := 0, edgeAnchored := true,
      consecutive := if w.alwaysAccepted intervalNs then 1 else w.consecutive + 1,
      maxDrift := if w.timer = .locked then jitterPpb else w.maxDrift }
    match s.wch.tod with
    | some v =>
      if s.wch.todArrival.toNat + 10000 ≤ s.wch.fixNs.toNat then .next (s.applyTod v.toNat s.wch.todSrc true)
      else .next (s.edgeTransition leadNs)
    | none => .next (s.edgeTransition leadNs)

/-- FIX_PPS_LOST (R153): no edge accepted for 1.5 s, or three rejected in a row. -/
def execFixPpsLost (s : State) : Host.Outcome State Fault Refusal := .next s.fixLost

/-- TOD_LAPSE (R151 item 3, R258). -/
def execTodLapse (s : State) : Host.Outcome State Fault Refusal :=
  match s.wch.tod with
  | none => .next s
  | some _ =>
    let src := s.wch.todSrc
    let s := s.withWch { s.wch with tod := none, todSrc := none }
    .next ((s.raise 0xDB .note 0x03).replyTod src stTimeout 0x03 [])

/-- GAP_CLOSED (R151 item 5): the timer returns to its normal rate and the bound loses the unclosed part. -/
def execGapClosed (s : State) : Host.Outcome State Fault Refusal :=
  .next (s.withWch { s.wch with closing := false, gapTenths := 0 })

/-- WATCH_BOUNDARY (R154, R157): every watch below the one in force is closed, with the HOLDOVER flag of R158. -/
def execWatchBoundary (s : State) : Host.Outcome State Fault Refusal :=
  let w := s.wch
  let now := s.watch.toNat
  if now = 0 ∨ now - 1 ≤ w.closed.toNat then .next s
  else
    let flag := w.holdoverSeen || s.holdoverFlag
    .next (s.withWch { w with closed := BitVec.ofNat 48 (now - 1), holdoverSeen := s.holdoverFlag,
                              closedFlags := w.closedFlags ++ [(now - 1, flag)] })

/-- Whether a record is a DATA record of a SEALED write of a watch at or below n. -/
def sealedDataOf (n : Nat) (r : Rec) : Bool := r.typ = .data && r.sealedAck && decide (r.watch.toNat ≤ n)

/-- The highest watch that may be sealed: below the lowest watch with an open SEALED DATA record (R158). -/
def State.sealTarget (s : State) : Nat :=
  s.log.recs.foldl (fun m r =>
    if r.status = .writing ∧ sealedDataOf m r then r.watch.toNat - 1 else m) s.wch.closed.toNat

/-- The HOLDOVER flag of a closed watch (R158). -/
def Wch.flagOf (w : Wch) (n : Nat) : Bool :=
  (w.closedFlags.find? (fun e => n ≤ e.1)).elim (decide (w.timer ≠ .locked)) (fun e => e.2)

/-- Watch n sealed: WCH.SEALED advances, a seal record is written when some SEALED DATA record of a watch since the last
seal has committed (R118, R158). -/
def State.sealTo (s : State) (n : Nat) (flag : Bool) : State :=
  let need := s.log.recs.any (fun r => sealedDataOf n r && decide (s.wch.sealedWatch.toNat < r.watch.toNat) &&
    decide (r.status = .committed))
  let s := if need then
      s.appendRec { Rec.blank .sealRec 1 with watch := BitVec.ofNat 48 n, holdover := flag,
                                               fixNs := BitVec.ofNat 64 ((n + 1) * s.wch.length) }
    else s
  s.withWch { s.wch with sealedWatch := BitVec.ofNat 48 n, sealedHoldover := flag,
                         closedFlags := s.wch.closedFlags.filter (fun e => n < e.1),
                         partnerReady := s.wch.partnerReady.filter (fun e => n < e.1.toNat) }

/-- The lowest watch above the last seal, at or below n, in which a SEALED DATA record committed; n if there is none. -/
def State.nextSeal (s : State) (n : Nat) : Nat :=
  s.log.recs.foldl (fun m r =>
    if r.status = .committed ∧ sealedDataOf m r ∧ s.wch.sealedWatch.toNat < r.watch.toNat then r.watch.toNat else m) n

/-- The seal of R158, joint with the partner's in PAIRED (R405). -/
def State.trySeal (s : State) : State :=
  let target := s.sealTarget
  if target ≤ s.wch.sealedWatch.toNat then s
  else
    let n := s.nextSeal target
    let flag := s.wch.flagOf n
    match s.pair.state with
    | .paired =>
      let s := if s.wch.ownReady.toNat < target then
          (s.withWch { s.wch with ownReady := BitVec.ofNat 48 target }).sendFlit 8 (target + 2 ^ 48 * ofBool flag) []
        else s
      match s.wch.partnerReady.find? (fun e => n ≤ e.1.toNat) with
      | none => s
      | some e => s.sealTo n (flag || e.2)
    | .takeover | .fenced => s
    | _ => s.sealTo n flag

/-- WATCH_SEAL (R158, R405). -/
def execWatchSeal (s : State) : Host.Outcome State Fault Refusal := .next s.trySeal

/-- SEAL_GRACE_EXPIRY (R159): an uncommitted DATA record of a SEALED write of a closed watch is abandoned. -/
def execSealGraceExpiry (seq : Word64) (s : State) : Host.Outcome State Fault Refusal :=
  match s.findRec seq.toNat with
  | none => .next s
  | some r =>
    if r.status = .writing ∧ sealedDataOf s.wch.closed.toNat r then
      let set := r.set
      let s := s.modRec seq.toNat (fun r => { r with status := .abandoned, reserve := 0 })
      let s := match s.ios.find? (fun io => r.io = some io.id) with
        | none => s
        | some io => s.finishIo io stTimeout 0x01 io.desc.lba io.desc.blocks
      .next ((s.raise 0xDC .note (set.setWidth 8)).trimLog)
    else .next s

/-- HOLDOVER_TICK (R161, R162): HOLD_TIME advances; BEYOND sets when the bound reaches L. -/
def execHoldoverTick (s : State) : Host.Outcome State Fault Refusal :=
  if s.wch.timer ≠ .holdover then .next s
  else
    let s := s.withWch { s.wch with holdS := s.wch.holdS + 1 }
    if s.wch.length ≤ s.wch.holdBound ∧ !s.wch.beyond then
      .next ((s.withWch { s.wch with beyond := true }).raise 0xD9 .warn 0x01)
    else .next s

/-- WATCH_LENGTH_CHANGE (R155): at its whole second of fix time the new length is in force, kept in the metadata area. -/
def execWatchLengthChange (s : State) : Host.Outcome State Fault Refusal :=
  match s.wch.nextLength with
  | none => .next s
  | some (len, due) =>
    if s.wch.fixNs.toNat < due.toNat then .next s else
    let below := s.wch.fixNs.toNat / len - 1
    let w := s.wch
    .next (s.withWch { w with
      length := len, nextLength := none,
      closed := if w.length < len then BitVec.ofNat 48 below else w.closed,
      sealedWatch := if w.length < len then BitVec.ofNat 48 (min below w.sealedWatch.toNat) else w.sealedWatch })

/-- The highest GENERATION count of a watch (R157). -/
def State.maxGeneration (s : State) : Nat := if s.pair.state = .single then 2 ^ 32 - 1 else 2 ^ 31 - 1

/-- GENERATION_LIMIT (R157): rings whose next descriptor is a write to the set wait at admission until the next boundary. -/
def execGenerationLimit (set : BitVec 6) (s : State) : Host.Outcome State Fault Refusal :=
  let a := s.set set.toNat
  if a.genWatch = s.watch ∧ s.maxGeneration < a.generation then
    .next (s.withRings (Tab.mapV s.rings Ring.at0 (fun k g =>
      match g.queue with
      | d :: _ =>
        if k < 1024 ∧ d.set.toNat = set.toNat ∧ (d.opcode = 2 ∨ d.opcode = 3) then { g with admitWait := true } else g
      | [] => g)))
  else .next s

end Sys2Proof.Machine
end

