-- ==== Sys2Proof/Machine/CalOps.lean ====
section
/-! DEFINITION. Operations shared by the Log's banks, calibration and the Hold state: bank roles and the rotating spare
(spec/04_the_log.md R103, R106, R107), ending a calibration run (spec/13 R379), CALREF samples (R385), and entering and
leaving Hold (R386 to R389). -/

namespace Sys2Proof.Machine

/-- A bank's calibration state. -/
def State.bank (s : State) (n : BitVec 5) : BankCal := Tab.get s.mon.banks BankCal.at0 n.toNat

/-- A bank's calibration state changed. -/
def State.modBank (s : State) (n : BitVec 5) (f : BankCal → BankCal) : State :=
  s.withMon { s.mon with banks := Tab.modify s.mon.banks BankCal.at0 n.toNat f }

/-- The present banks (R102). -/
def State.presentBanks (s : State) : List (BitVec 5) := (List.range (Config.banks s.part)).map (BitVec.ofNat 5)

/-- Whether a bank is present and not fenced. -/
def State.bankLive (s : State) (n : BitVec 5) : Bool := decide (n ∈ s.presentBanks) && decide (n ∉ s.log.fenced)

/-- A bank role read (R102). -/
def State.pairRole (s : State) (p : Nat) : PairRole :=
  s.log.pairs.getD p { copyA := 0, copyB := 0, single := false, resilvering := false, target := 0 }

/-- A bank role replaced. -/
def State.setRole (s : State) (p : Nat) (r : PairRole) : State := s.withLog { s.log with pairs := s.log.pairs.set p r }

/-- The pair that holds a bank as a copy. -/
def State.pairOfBank (s : State) (b : BitVec 5) : Option Nat :=
  (List.range (Config.pairs s.part)).find? (fun p => (s.pairRole p).copyA = b || (s.pairRole p).copyB = b)

/-- In pair p, bank `old` replaced by bank `new`. -/
def PairRole.swap (r : PairRole) (old new : BitVec 5) : PairRole :=
  { r with copyA := if r.copyA = old then new else r.copyA, copyB := if r.copyB = old then new else r.copyB }

/-- Bank `new` becomes the second copy of pair p in place of `old`, and resilvering starts (R106). -/
def State.replaceCopy (s : State) (p : Nat) (old new : BitVec 5) : State :=
  s.setRole p { (s.pairRole p).swap old new with single := false, resilvering := true, target := new }

/-- A spare that became free repairs a pair that runs on one copy (R107). -/
def State.useFreeSpare (s : State) : State :=
  match s.log.spare with
  | none => s
  | some b =>
    match (List.range (Config.pairs s.part)).find? (fun p => (s.pairRole p).single) with
    | none => s
    | some p =>
      let r := s.pairRole p
      let dead := if r.copyA ∈ s.log.fenced then r.copyA else r.copyB
      (s.withLog { s.log with spare := none }).replaceCopy p dead b

/-- The bank that a run's end leaves as the spare: the joined spare in the copy phase, the bank under test in the sweep
phase (R379). -/
def CalRun.released (c : CalRun) : BitVec 5 :=
  match c.phase with
  | .copy => c.spare.getD c.bank
  | .sweep => c.bank

/-- A run that ended without passing: the last reason kept, CAL.FAILS advanced, source 0xC1 raised (R377, R379, R390). -/
def State.failRun (s : State) (reason : Byte) : State :=
  let s := s.withMon { s.mon with run := none, lastReason := reason }
  (s.count32 Reg.calFails 1).raise 0xC1 (if reason = 2 ∨ reason = 3 ∨ reason = 4 then .warn else .note) reason

/-- A calibration run ended by Hold, by the reference or by a bank fault: the freed bank becomes the spare again, and the
ended bank stays due (R379). -/
def State.endCalRun (s : State) (reason : Byte) : State :=
  match s.mon.run with
  | none => s
  | some c =>
    let s := s.withLog { s.log with spare := some c.released }
    let s := s.modBank c.bank (fun b => { b with due := true })
    let s := match c.src with
      | none => s
      | some src => s.withMon { s.mon with queue := (c.bank, src) :: s.mon.queue }
    (s.failRun reason).useFreeSpare

/-- A selection as CAL.BANKn.SEL shows it, CHECK included (R369). -/
def selShown (v : Nat) : Nat :=
  v + (((v % 32) ^^^ (v / 32 % 32) ^^^ (v / 1024 % 32) ^^^ (v / 32768 % 32) ^^^ 0x15)) * 2 ^ 20

/-- A bank's temperature now (R391): zero before its first sample, a value that the spec does not state while its sensor has failed
(log entry 25). -/
def State.bankTemp (s : State) (n : BitVec 5) : State × Byte :=
  match (s.bank n).nowC with
  | some c => (s, BitVec.ofNat 8 (signedNat 8 c))
  | none => if 0x10 + n.toNat ∈ s.mon.failedSensors then s.freeByte else (s, 0)

/-- RESULT of CAL_RUN (R259): the last bank, its selection and temperature, the banks completed. -/
def State.calResult (s : State) (n : BitVec 5) (done : Nat) : State × Bytes :=
  let (s, c) := s.bankTemp n
  (s, resultOf [(0x10, 1, n.toNat), (0x14, 4, selShown (s.bank n).sel.toNat), (0x18, 1, c.toNat), (0x19, 1, done)])

/-- The deferred CAL_RUN of a source ended (R259); its remaining banks leave the queue. -/
def State.endCalCommand (s : State) (src : CmdSrc) (n : BitVec 5) (status : Byte) : State :=
  match s.interp.deferred.find? (fun d => d.src = src ∧ opcodeOf d.packet = 0x0901) with
  | none => s
  | some d =>
    let s := s.withMon { s.mon with queue := s.mon.queue.filter (fun e => e.2 ≠ src) }
    let (s, r) := s.calResult n d.count
    s.endDeferred d status 0 r

/-- Whether a CALREF sample in units of 10 µV lies within 1.17 to 1.23 V. -/
def calrefGood (v : Nat) : Bool := decide (117000 ≤ v) && decide (v ≤ 123000)

/-- A CALREF sample (R385): source 0xC0 once per excursion, and at NOTE when back in range. -/
def State.sampleCalref (s : State) (v : Nat) : State :=
  let good := calrefGood v
  let was := s.mon.calrefOk
  let seen := s.mon.calrefSeen
  let s := s.withMon { s.mon with calref := v % 2 ^ 18, calrefOk := good, calrefSeen := true }
  if good then (if seen && !was then s.raise 0xC0 .note 0x03 else s)
  else if was || !seen then s.raise 0xC0 .warn (if v < 117000 then 0x01 else 0x02)
  else s

/-- Whether the controller is in the Hold state (R388). -/
def State.inHold (s : State) : Bool := decide (s.mon.hold ≠ .normal)

/-- Writes that wait at admission complete with HELD, detail 0x02 (R387). -/
def State.refuseWaiting (s : State) : List (BitVec 10) → State
  | [] => s
  | n :: rest =>
    let g := s.ring (.data n)
    match g.queue with
    | d :: q =>
      if g.admitWait && (d.opcode = 2 || d.opcode = 3) then
        let s := s.setRing (.data n) { g with queue := q, admitWait := false }
        (s.finishDesc n d stHeld 0x02 d.lba d.blocks).refuseWaiting rest
      else s.refuseWaiting rest
    | [] => s.refuseWaiting rest

/-- The causes of Hold (R386, R384). -/
inductive HoldCause where
  | pin
  | rail (r : BitVec 3)
  | trip (sensor : Nat)
deriving DecidableEq, Repr

/-- Entry to the Hold state (R386, R387): counted, recorded, a run ended, waiting writes refused, its source raised. From
QUALIFY or WAIT the sub-state returns to HOLD without a new entry. -/
def State.enterHold (s : State) (c : HoldCause) : State :=
  let m := s.mon
  let s := s.withMon { m with
    hold := .hold,
    byPin := (m.byPin && decide (m.hold ≠ .normal)) || decide (c = .pin),
    byRail := (m.byRail && decide (m.hold ≠ .normal)) || (match c with
      | .rail _ => true
      | _ => false),
    byTrip := (m.byTrip && decide (m.hold ≠ .normal)) || (match c with
      | .trip _ => true
      | _ => false),
    holdRail := (match c with
      | .rail r => if m.byRail && decide (m.hold ≠ .normal) then m.holdRail else r
      | _ => m.holdRail) }
  if m.hold ≠ .normal then s
  else
    let s := ((s.withMon { s.mon with holdSince := s.wch.fixNs }).count32 Reg.gcsHoldCount 1).leaveDock
    let s := match c with
      | .pin => s.raise 0xC5 .warn 0x01
      | .rail r => s.raise 0xC4 .warn (r.setWidth 8)
      | .trip _ => s
    (s.endCalRun 0x06).refuseWaiting s.liveDataRings

/-- RECOVERY begins once the Almanac is complete, the Map Store has trained and the Log is calibrated (R139, R458). -/
def State.beginRecovery (s : State) : State :=
  if s.gcs.phase = .survey ∧ s.gcs.almanac ∧ s.gcs.mapTrained ∧ s.gcs.calDone then
    (s.withGcs { s.gcs with phase := .recovery }).withLog { s.log with replaying := true }
  else s

/-- Whether replayed sets may return: not in the Hold state (R459), nor in JOINING or FENCED (R396). -/
def State.mayReturn (s : State) : Bool :=
  !s.inHold && decide (s.pair.state ≠ .joining) && decide (s.pair.state ≠ .fenced)

/-- Sets whose replay has ended return to the state that R39 gives; with none left in replay the controller is RUNNING and the
reset in progress has completed (R39, R458, R459, R464, R480). -/
def State.returnSets (s : State) : State :=
  if s.gcs.phase ≠ .recovery ∨ !s.log.walked then s
  else
    let s := if s.mayReturn then s.withSets (Tab.mapV s.sets ArraySet.at0 (fun _ a =>
        if a.replaying ∧ a.replayed then { a with replaying := false } else a)) else s
    let s := s.withLog { s.log with replaying := s.sets.any (fun e => e.2.replaying && !e.2.replayed) }
    if s.sets.any (fun e => e.2.replaying) then s
    else s.withGcs { s.gcs with phase := .running, lastReset := s.gcs.resetNow.getD s.gcs.lastReset, resetNow := none }

/-- The end of the Hold state (R389): RESUME clears, source 0xC7 is raised; sets that waited in RECOVERY return (R459). -/
def State.endHold (s : State) (detail : Byte) : State :=
  let s := s.withMon { s.mon with hold := .normal, resumeSet := false,
                                  holdUs := satTo 32 (s.usSince s.mon.holdSince) }
  (s.raise 0xC7 .note detail).returnSets

/-- LOW_MV and HYST_MV of a rail (R391). -/
def State.railLow (s : State) (r : Nat) : Nat := s.regField (Reg.monRailWarn r) 0 12

/-- HIGH_MV of a rail. -/
def State.railHigh (s : State) (r : Nat) : Nat := s.regField (Reg.monRailWarn r) 12 12

/-- HYST_MV of a rail. -/
def State.railHyst (s : State) (r : Nat) : Nat := s.regField (Reg.monRailWarn r) 24 8

/-- Whether the supply is qualified (R388). -/
def State.qualified (s : State) : Bool :=
  !s.mon.pwrwarnLow &&
    (List.range 7).all (fun r => decide (s.railLow r + s.railHyst r ≤ Tab.get s.mon.railMv 0 r))

/-- The sub-state after a change of the supply (R389). -/
def State.stepHold (s : State) : State :=
  match s.mon.hold with
  | .normal => s
  | .hold => if s.qualified && !s.mon.thermtrip then s.withMon { s.mon with hold := .qualify } else s
  | .qualify | .wait => if s.qualified then s else s.withMon { s.mon with hold := .hold }

end Sys2Proof.Machine
end

