-- ==== Sys2Proof/Machine/Hold.lean ====
section
/-! DEFINITION. Supply and thermal monitors and the Hold state (spec/13_calibration_and_hold.md R383 to R389). -/

namespace Sys2Proof.Machine

/-- PWRWARN_N_ASSERT (R386): low for at least 50 ns. -/
def execPwrwarnNAssert (s : State) : Host.Outcome State Fault Refusal :=
  let s := s.withMon { s.mon with pwrwarnLow := true }
  .next (s.enterHold .pin)

/-- The sources that a rail sample raises and the rails that are low and high (R383). -/
def State.railFaults (s : State) (high : List Nat) : List FaultReq :=
  (high.filter (fun r => r ∉ s.mon.railHigh)).map (fun r => fault 0xC6 .warn (BitVec.ofNat 8 r))

/-- RAIL_SAMPLE (R383, R388): seven rails in mV and the level of PWRWARN_N. -/
def execRailSample (mv : List Nat) (pwrwarnHigh : Bool) (s : State) : Host.Outcome State Fault Refusal :=
  let v (r : Nat) : Nat := mv.getD r 0
  let low := (List.range 7).filter (fun r => decide (v r < s.railLow r))
  let high := (List.range 7).filter (fun r => decide (s.railHigh r < v r))
  let fs := s.railFaults high
  let s := s.withMon { s.mon with
    railMv := (List.range 7).foldl (fun t r => Tab.set t 0 r (v r)) s.mon.railMv, railLow := low, railHigh := high,
    pwrwarnLow := !pwrwarnHigh }
  let s := s.raiseAll fs
  match low with
  | r :: _ => .next (s.enterHold (.rail (BitVec.ofNat 3 r)))
  | [] => .next s.stepHold

/-- Whether a sensor sample is valid (R384). -/
def sensorOk (v : Option Int) : Bool :=
  match v with
  | none => false
  | some c => decide (-40 ≤ c) && decide (c ≤ 150)

/-- The highest valid sample, none when every sensor failed. -/
def maxSample (l : List (Option Int)) : Option Int :=
  l.foldl (fun m v => if sensorOk v then (match m, v with
    | none, v => v
    | some a, some b => some (max a b)
    | m, none => m) else m) none

/-- The first sensor whose sample exceeds a limit. -/
def sensorOver (l : List (Option Int)) (limit : Int) : Option Nat :=
  (List.range l.length).find? (fun i => sensorOk (l.getD i none) && decide (limit < (l.getD i none).getD limit))

/-- JUNCTION_SAMPLE (R384): eight junction sensors and one per bank. -/
def execJunctionSample (tj banks : List (Option Int)) (s : State) : Host.Outcome State Fault Refusal :=
  let warnC : Int := s.regField Reg.monTj 8 8
  let failed := (List.range (min 8 tj.length)).filter (fun i => !sensorOk (tj.getD i none)) ++
    ((List.range (min (Config.banks s.part) banks.length)).filter (fun i => !sensorOk (banks.getD i none))).map (0x10 + ·)
  let f1 := (failed.filter (fun i => i ∉ s.mon.failedSensors)).map (fun i => fault 0xCA .note (BitVec.ofNat 8 i))
  let hot := sensorOver (tj.take 8) warnC
  let f2 := match hot with
    | some i => if s.mon.tjOver then [] else [fault 0xC8 .warn (BitVec.ofNat 8 i)]
    | none => []
  let trip := sensorOver (tj.take 8) 115
  let s := s.withMon { s.mon with
    tj := tj.take 8, tjOver := hot.isSome, failedSensors := failed,
    banks := (List.range (min (Config.banks s.part) banks.length)).foldl (fun t i =>
      Tab.modify t BankCal.at0 i (fun b =>
        { b with nowC := if sensorOk (banks.getD i none) then banks.getD i none else none })) s.mon.banks }
  match trip with
  | none => .next (s.raiseAll (f1 ++ f2))
  | some i =>
    if s.mon.thermtrip then .next (s.raiseAll (f1 ++ f2))
    else
      let s := (s.withMon { s.mon with thermtrip := true }).enterHold (.trip i)
      .next (s.raiseAll (f1 ++ f2 ++ [fault 0xC9 .stop (BitVec.ofNat 8 i)]))

end Sys2Proof.Machine
end

