-- ==== Sys2Proof/Machine/Cal.lean ====
section
/-! DEFINITION. Log calibration (spec/13_calibration_and_hold.md R369 to R382): due causes, runs, sweeps, host selections. -/

namespace Sys2Proof.Machine

/-- A quadrant's column in a selection. -/
def selCol (sel : BitVec 20) (q : Nat) : Nat := sel.toNat / 2 ^ (5 * q) % 32

/-- CHECK of a selection (R369). -/
def selCheck (sel : BitVec 20) : Nat :=
  selCol sel 0 ^^^ selCol sel 1 ^^^ selCol sel 2 ^^^ selCol sel 3 ^^^ 0x15

/-- CAL.BANKn.SEL of a selection. -/
def selWord (sel : BitVec 20) : Nat := sel.toNat + selCheck sel * 2 ^ 20

/-- Whether every quadrant of a lies within d columns of b. -/
def selWithin (a b : BitVec 20) (d : Nat) : Bool :=
  (List.range 4).all (fun q => decide (selCol a q ≤ selCol b q + d) && decide (selCol b q ≤ selCol a q + d))

/-- The selection that a sweep chose. -/
def sweepSel (w : Sweep) : BitVec 20 :=
  BitVec.ofNat 20 (w.q0.toNat + w.q1.toNat * 2 ^ 5 + w.q2.toNat * 2 ^ 10 + w.q3.toNat * 2 ^ 15)

/-- The first check of R377 that a sweep fails, against a selection and a column limit; none when it passes. -/
def sweepReason (w : Sweep) (ref0 ref1 : Nat) (base : BitVec 20) (limit : Nat) : Option Byte :=
  if !(calrefGood ref0 && calrefGood ref1) then some 1
  else if !((List.range 4).all (fun q => decide (12 ≤ w.windows.getD q 0))) then some 2
  else if !selWithin (sweepSel w) base limit then some 3
  else if !w.readbackClean then some 4
  else none

/-- A passing selection brought into force with origin 0 (R371, R378); CAL.GEN advances when it changed. -/
def State.takeSelection (s : State) (n : BitVec 5) (w : Sweep) : State :=
  let old := (s.bank n).sel
  let s := s.modBank n (fun b => { b with sel := sweepSel w, origin := 0, tempC := w.tempC, timeNs := s.wch.fixNs,
                                          due := false, barred := false, ran := true })
  if old = sweepSel w then s else s.count32 Reg.calGen 1

/-- The start-up calibration of one bank (R381). -/
def State.startupBank (s : State) (ref0 ref1 : Nat) (n : BitVec 5) (w : Sweep) : State :=
  match sweepReason w ref0 ref1 (s.bank n).otp 10 with
  | none => s.takeSelection n w
  | some r =>
    let s := s.modBank n (fun b => { b with sel := b.otp, origin := 2, nowC := some w.tempC })
    if r = 1 then s else s.raise 0xC1 .warn r

/-- STARTUP_CALIBRATION_DONE (R381): every present bank swept in place. -/
def execStartupCalibrationDone (calref0 calref1 : Nat) (sweeps : List Sweep) (s : State) :
    Host.Outcome State Fault Refusal :=
  if s.gcs.phase ≠ .survey ∨ s.gcs.calDone then .next s
  else
    let s := (s.sampleCalref calref0).sampleCalref calref1
    let blank : Sweep := { q0 := 0, q1 := 0, q2 := 0, q3 := 0, windows := [], readbackClean := false, tempC := 0 }
    let s := s.presentBanks.foldl (fun s n => s.startupBank calref0 calref1 n (sweeps.getD n.toNat blank)) s
    let s := if calrefGood calref0 && calrefGood calref1 then s else s.raise 0xC2 .warn 0x01
    .next (s.withGcs { s.gcs with calDone := true }).beginRecovery

/-- Whether a bank is due at a temperature check (R372): its temperature moved by more than DELTA_C since its last
successful run, or its selection has origin 1 or 2 and CALREF was in range at three consecutive checks. -/
def State.dueAtCheck (s : State) (n : BitVec 5) : Bool :=
  let b := s.bank n
  let now := match b.nowC with
    | some c => some c
    | none => maxSample s.mon.tj
  let delta : Int := s.regField Reg.calTrig 0 8
  let moved := match now with
    | none => false
    | some c => decide (delta < c - b.tempC) || decide (delta < b.tempC - c)
  (moved && !b.barred && b.ran) || (decide (b.origin ≠ 0) && decide (3 ≤ s.mon.calrefRun))

/-- CAL_TEMPERATURE_CHECK (R164, R372, R385): once a second; a run that loses its reference ends (R379). The powered and
hot seconds of the life record advance (R120). -/
def execCalTemperatureCheck (calref : Nat) (temps : List (Option Int)) (s : State) : Host.Outcome State Fault Refusal :=
  let s := s.sampleCalref calref
  let good := calrefGood calref
  let hot := match maxSample s.mon.tj with
    | some c => decide (95 < c)
    | none => false
  let s := s.withLog { s.log with powerOnS := s.log.powerOnS + 1, hotS := s.log.hotS + ofBool hot }
  let s := s.withMon { s.mon with
    calrefRun := if good then min 3 (s.mon.calrefRun + 1) else 0,
    banks := (List.range (min (Config.banks s.part) temps.length)).foldl (fun t i =>
      Tab.modify t BankCal.at0 i (fun b =>
        { b with nowC := if sensorOk (temps.getD i none) then temps.getD i none else none })) s.mon.banks }
  let s := s.withLog { s.log with tmax := s.bankTmax }
  let s := if good then s else
    match s.mon.run with
    | none => s
    | some c =>
      let s := (s.endCalRun 0x01)
      match c.src with
      | none => s
      | some src => s.endCalCommand src c.bank stCalRefBad
  if s.regBit Reg.calCtl 0 then
    .next (s.presentBanks.foldl (fun s n =>
      if s.bankLive n && s.dueAtCheck n then s.modBank n (fun b => { b with due := true }) else s) s)
  else .next s

/-- CAL_INTERVAL_DUE (R372): MAX_H hours since the bank's last successful run. -/
def execCalIntervalDue (bank : BitVec 5) (s : State) : Host.Outcome State Fault Refusal :=
  if s.regBit Reg.calCtl 0 && s.bankLive bank && !(s.bank bank).barred then
    .next (s.modBank bank (fun b => { b with due := true }))
  else .next s

/-- CAL_FAIL_HOLDOFF_EXPIRY (R378). -/
def execCalFailHoldoffExpiry (bank : BitVec 5) (s : State) : Host.Outcome State Fault Refusal :=
  .next (s.modBank bank (fun b => { b with barred := false }))

/-- How far a bank's temperature has moved since its last successful run. -/
def State.tempChange (s : State) (n : BitVec 5) : Nat :=
  (((s.bank n).nowC.getD ((maxSample s.mon.tj).getD (s.bank n).tempC)) - (s.bank n).tempC).natAbs

/-- The next bank to calibrate (R373): the first that CAL_RUN named, else the due bank with the largest change. -/
def State.nextCalBank (s : State) : Option (BitVec 5 × Option CmdSrc) :=
  match s.mon.queue with
  | (n, src) :: _ => some (n, some src)
  | [] =>
    ((s.presentBanks.filter (fun n => (s.bank n).due && s.bankLive n)).foldl (fun m n => match m with
      | none => some n
      | some k => if s.tempChange k < s.tempChange n then some n else some k) none).map (fun n => (n, none))

/-- The deferred CAL_RUN of a run that ended: one more bank completed; the reply once no bank of it waits (R259). -/
def State.calBankDone (s : State) (src : Option CmdSrc) (n : BitVec 5) (ok : Bool) : State :=
  match src with
  | none => s
  | some src =>
    let s := s.withInterp { s.interp with deferred := s.interp.deferred.map (fun d =>
      if d.src = src ∧ ok then { d with count := d.count + 1 } else d) }
    if s.mon.queue.any (fun e => e.2 = src) then s else s.endCalCommand src n stOk

/-- CAL_RUN_START (R373, R374): the next bank's run starts when a spare is free and neither Hold nor Idle-dock is in force; a bank
fenced since CAL_RUN named it is passed over. -/
def execCalRunStart (s : State) : Host.Outcome State Fault Refusal :=
  if s.mon.run.isSome || s.inHold || s.gcs.phase = .dock then .next s
  else
    match s.log.spare, s.nextCalBank with
    | some spare, some (n, src) =>
      if !s.bankLive n then
        .next ((s.withMon { s.mon with queue := s.mon.queue.drop 1 }).calBankDone src n false)
      else
      let isSpare := decide (n = spare)
      let run : CalRun := { bank := n, phase := if isSpare then .sweep else .copy, spare := if isSpare then none else some spare, src := src }
      let s := s.withMon { s.mon with run := some run, queue := s.mon.queue.filter (fun e => some e ≠ src.map (fun c => (n, c))),
                                      lastBank := n }
      .next (s.withLog { s.log with spare := none })
    | _, _ => .next s

/-- CAL_COPY_COMPLETE (R374): the spare takes the bank's place in its pair, and the sweep begins. -/
def execCalCopyComplete (s : State) : Host.Outcome State Fault Refusal :=
  match s.mon.run with
  | some c =>
    match c.phase, c.spare, s.pairOfBank c.bank with
    | .copy, some b, some p =>
      let s := s.setRole p ((s.pairRole p).swap c.bank b)
      let s := s.withLog { s.log with bankWrites := Tab.modify s.log.bankWrites 0 b.toNat (· + 2097152) }
      .next (s.withMon { s.mon with run := some { c with phase := .sweep, spare := none } })
    | _, _, _ => .next s
  | none => .next s

/-- CAL_SWEEP_COMPLETE (R376 to R378): the checks decide the selection, and the bank becomes the spare. -/
def execCalSweepComplete (calref0 calref1 : Nat) (sweep : Sweep) (s : State) : Host.Outcome State Fault Refusal :=
  match s.mon.run with
  | none => .next s
  | some c =>
    if c.phase ≠ .sweep then .next s
    else
      let s := (s.sampleCalref calref0).sampleCalref calref1
      let s := s.withLog { s.log with spare := some c.bank }
      match sweepReason sweep calref0 calref1 (s.bank c.bank).sel 6 with
      | none =>
        let s := (s.takeSelection c.bank sweep).count32 Reg.calRuns 1
        let s := (s.withMon { s.mon with run := none }).useFreeSpare
        .next (s.calBankDone c.src c.bank true)
      | some r =>
        let s := s.modBank c.bank (fun b => { b with due := decide (r = 1), barred := b.barred || decide (r ≠ 1) })
        let s := (s.failRun r).useFreeSpare
        match r, c.src with
        | 1, some src => .next (s.endCalCommand src c.bank stCalRefBad)
        | _, src => .next (s.calBankDone src c.bank false)

/-- CAL_BANK_SEL (R380): a host write to CAL.BANKn.SEL. -/
def execCalBankSel (bank : BitVec 5) (value : Word32) (s : State) : Host.Outcome State Fault Refusal :=
  if s.haltClosed then .next s
  else
    let s := s.leaveDock
    let sel := BitVec.ofNat 20 value.toNat
    if !s.bankLive bank then .next s
    else if value.toNat / 2 ^ 20 % 32 ≠ selCheck sel then .next (s.raise 0xC3 .note 0x01)
    else if (s.mon.run.map (fun c => c.bank)) = some bank then .next (s.raise 0xC3 .note 0x02)
    else if !selWithin sel (s.bank bank).otp 10 then .next (s.raise 0xC3 .note 0x03)
    else .next ((s.modBank bank (fun b => { b with sel := sel, origin := 1 })).count32 Reg.calGen 1)

end Sys2Proof.Machine
end

