-- ==== Sys2Proof/Machine/Crc.lean ====
section
/-! DEFINITION. The cyclic codes of the spec: the CRC-64 of seals, records and anchors (spec/02_codes_and_seals.md R63)
and the CRC-32 of the Almanac (spec/15_host_port.md R432). -/

namespace Sys2Proof.Machine

/-- One bit of a reflected CRC of 64 bits. -/
def crc64Bit (c : Word64) : Word64 :=
  if c.getLsbD 0 then (c >>> 1) ^^^ 0xC96C5795D7870F42#64 else c >>> 1

/-- n bits. -/
def crc64Bits : Nat → Word64 → Word64
  | 0, c => c
  | n + 1, c => crc64Bits n (crc64Bit c)

/-- One byte, least significant bit first. -/
def crc64Byte (c : Word64) (b : Byte) : Word64 := crc64Bits 8 (c ^^^ b.setWidth 64)

/-- The CRC-64 of R63. -/
def crc64 (bs : Bytes) : Word64 := (bs.foldl crc64Byte (BitVec.allOnes 64)) ^^^ BitVec.allOnes 64

/-- One bit of the CRC-32 of IEEE 802.3, reflected. -/
def crc32Bit (c : Word32) : Word32 :=
  if c.getLsbD 0 then (c >>> 1) ^^^ 0xEDB88320#32 else c >>> 1

/-- n bits. -/
def crc32Bits : Nat → Word32 → Word32
  | 0, c => c
  | n + 1, c => crc32Bits n (crc32Bit c)

/-- The CRC-32 of IEEE 802.3 (R432). -/
def crc32 (bs : Bytes) : Word32 :=
  (bs.foldl (fun c b => crc32Bits 8 (c ^^^ b.setWidth 32)) (BitVec.allOnes 32)) ^^^ BitVec.allOnes 32

end Sys2Proof.Machine
end

