-- ==== Sys2Proof/Machine/Gf.lean ====
section
/-! DEFINITION. The field GF(2^8) of spec/02_codes_and_seals.md R48 and linear algebra over it: rank and linear
combinations by elimination, and the Gauss–Jordan inverse of R54. -/

namespace Sys2Proof.Machine

/-- Multiplication by α, field polynomial 0x11D (R48). -/
def gfDouble (a : Byte) : Byte := if a.getLsbD 7 then (a <<< 1) ^^^ 0x1D#8 else a <<< 1

/-- n steps of the shift-and-add product. -/
def gfMulAux : Nat → Byte → Byte → Byte
  | 0, _, _ => 0
  | n + 1, a, b => (if b.getLsbD 0 then a else 0) ^^^ gfMulAux n (gfDouble a) (b >>> 1)

/-- The product in GF(2^8) (R48). -/
def gfMul (a b : Byte) : Byte := gfMulAux 8 a b

/-- a to the power n. -/
def gfPow (a : Byte) : Nat → Byte
  | 0 => 1
  | n + 1 => gfMul a (gfPow a n)

/-- The inverse of a non-zero element, a^254 (R48); 0 for 0. -/
def gfInv (a : Byte) : Byte :=
  let a2 := gfMul a a
  let a4 := gfMul a2 a2
  let a8 := gfMul a4 a4
  let a16 := gfMul a8 a8
  let a32 := gfMul a16 a16
  let a64 := gfMul a32 a32
  let a128 := gfMul a64 a64
  gfMul a2 (gfMul a4 (gfMul a8 (gfMul a16 (gfMul a32 (gfMul a64 a128)))))

/-- A row of coefficients, or a run of bytes, scaled. -/
def gfScale (c : Byte) (v : Bytes) : Bytes := if c = 1 then v else v.map (gfMul c)

/-- The sum of two rows. -/
def gfAdd (u v : Bytes) : Bytes := List.zipWith (· ^^^ ·) u v

/-- The combination of byte streams by coefficients; `n` zero bytes when there are none. -/
def gfCombine (n : Nat) (coeffs : Bytes) (vs : List Bytes) : Bytes :=
  (List.zip coeffs vs).foldl (fun acc cv => if cv.1 = 0 then acc else gfAdd acc (gfScale cv.1 cv.2)) (fill n 0)

/-- A reduced row: its pivot column, the row, and its combination over the original rows. -/
abbrev GfRow := Nat × Bytes × Bytes

/-- A row and its combination reduced by the basis. -/
def gfReduce (basis : List GfRow) (row comb : Bytes) : Bytes × Bytes :=
  basis.foldl (fun rc b =>
    let c := byteAt rc.1 b.1
    if c = 0 then rc else (gfAdd rc.1 (gfScale c b.2.1), gfAdd rc.2 (gfScale c b.2.2))) (row, comb)

/-- The unit row e_i of length n. -/
def gfUnit (n i : Nat) : Bytes := (List.range n).map (fun j => if j = i then 1 else 0)

/-- A basis extended by a row, when the row is independent of it. -/
def gfExtend (basis : List GfRow) (row comb : Bytes) : List GfRow :=
  let (r, c) := gfReduce basis row comb
  match (List.range r.length).find? (fun j => byteAt r j ≠ 0) with
  | none => basis
  | some p =>
    let inv := gfInv (byteAt r p)
    basis ++ [(p, gfScale inv r, gfScale inv c)]

/-- The basis of a list of rows, in order. -/
def gfBasis (rows : List Bytes) : List GfRow :=
  ((List.range rows.length).zip rows).foldl (fun b ir => gfExtend b ir.2 (gfUnit rows.length ir.1)) []

/-- The rank of a list of rows. -/
def gfRank (rows : List Bytes) : Nat := (gfBasis rows).length

/-- The coefficients over the rows that give a target row, none when the rows do not determine it. -/
def gfSolve (rows : List Bytes) (target : Bytes) : Option Bytes :=
  let (r, c) := gfReduce (gfBasis rows) target (fill rows.length 0)
  if allZero r then some c else none

/-- The inverse of a square matrix given by rows (R54): row i expresses unit vector i over the rows. -/
def gfInverse (rows : List Bytes) : Option (List Bytes) :=
  (List.range rows.length).mapM (fun i => gfSolve rows (gfUnit rows.length i))

/-- The product of two matrices given by rows. -/
def gfMatMul (a b : List Bytes) : List Bytes := a.map (fun r => gfCombine ((b.headD []).length) r b)

/-- The identity matrix. -/
def gfIdentity (n : Nat) : List Bytes := (List.range n).map (gfUnit n)

/-- The check of R54 item 4: the inverse multiplied back against the matrix. -/
def gfInverseVerified (rows inv : List Bytes) : Bool := gfMatMul inv rows == gfIdentity rows.length

end Sys2Proof.Machine
end

