-- ==== Sys2Proof/Machine/Operands.lean ====
section
/-! DEFINITION. What a command's operands name on the array: code profiles and fragment roles, block to fragment (R44 to
R47), generators and coding (R49 to R53), and sector seals with the tests of R62 to R67 (spec/02_codes_and_seals.md). -/

namespace Sys2Proof.Machine

/-! ## Profiles -/

/-- The width w of a profile (R44). -/
def Profile.width (p : Profile) : Nat :=
  match p.typ with
  | .replica => p.par
  | .xor => p.k + 1
  | .rs => p.k + p.par
  | .lrc => p.k + p.loc + p.par

/-- The guaranteed tolerance t (R44). -/
def Profile.tol (p : Profile) : Nat :=
  match p.typ with
  | .replica => p.par - 1
  | .xor => 1
  | .rs => p.par
  | .lrc => p.par

/-- The limits of R44. -/
def Profile.valid (p : Profile) : Bool :=
  match p.typ with
  | .replica => decide (p.k = 1) && decide (2 ≤ p.par) && decide (p.par ≤ 4) && decide (p.loc = 0)
  | .xor => decide (2 ≤ p.k) && decide (p.k ≤ 63) && decide (p.par = 1) && decide (p.loc = 0)
  | .rs => decide (2 ≤ p.k) && decide (p.k ≤ 48) && decide (1 ≤ p.par) && decide (p.par ≤ 16) && decide (p.loc = 0) &&
      decide (p.k + p.par ≤ 64)
  | .lrc => decide (4 ≤ p.k) && decide (p.k ≤ 48) && decide (2 ≤ p.loc) && decide (p.loc ≤ 8) && decide (1 ≤ p.par) &&
      decide (p.par ≤ 8) && decide (p.k % p.loc = 0) && decide (2 ≤ p.k / p.loc) && decide (p.k + p.loc + p.par ≤ 64)

/-- The code of a profile type (R44). -/
def CodeType.code : CodeType → Nat
  | .replica => 0
  | .xor => 1
  | .rs => 2
  | .lrc => 3

/-- L, the data fragments of an LRC group (R45). -/
def Profile.groupLen (p : Profile) : Nat := p.k / p.loc

/-- Whether a fragment index holds a local parity (R45). -/
def Profile.isLocal (p : Profile) (i : Nat) : Bool :=
  decide (p.typ = .lrc) && decide (p.k ≤ i) && decide (i < p.k + p.loc)

/-- Whether a fragment index is any parity fragment, or a copy other than copy 0 (R45, R64). -/
def Profile.isParity (p : Profile) (i : Nat) : Bool := decide (p.k ≤ i) && decide (i < p.width)

/-- The data fragments of LRC group q. -/
def Profile.groupData (p : Profile) (q : Nat) : List Nat := (List.range p.groupLen).map (fun j => q * p.groupLen + j)

/-- The members of LRC group q: its data and its local parity. -/
def Profile.groupMembers (p : Profile) (q : Nat) : List Nat := p.groupData q ++ [p.k + q]

/-- c(j, i) = 1 / (i ⊕ (0x40 + j)) (R49). -/
def cauchy (j i : Nat) : Byte := gfInv (BitVec.ofNat 8 (i ^^^ (0x40 + j)))

/-- The generator row of a fragment over the k data fragments (R49, R50). -/
def Profile.genRow (p : Profile) (f : Nat) : Bytes :=
  (List.range p.k).map (fun i =>
    if f < p.k then (if i = f then 1 else 0)
    else match p.typ with
      | .replica => 1
      | .xor => 1
      | .rs => cauchy (f - p.k) i
      | .lrc =>
        if f < p.k + p.loc then (if i / p.groupLen = f - p.k then 1 else 0) else cauchy (f - p.k - p.loc) i)

/-- Every fragment index of a stripe. -/
def Profile.frags (p : Profile) : List Nat := List.range p.width

/-- The parity fragments, or the further copies. -/
def Profile.parities (p : Profile) : List Nat := p.frags.filter p.isParity

/-- The fragments outside an erasure mask. -/
def Profile.survivors (p : Profile) (e : Word64) : List Nat := p.frags.filter (fun i => !e.getLsbD i)

/-- Whether the erasure pattern is decodable: the survivors have rank k (R46). -/
def Profile.decodable (p : Profile) (e : Word64) : Bool := gfRank ((p.survivors e).map p.genRow) == p.k

/-- What choose() of R53 answers: the groups repaired by XOR with the member each repairs, and the fragments used; a
fragment that a plan repairs is obtained from the plan's other members. -/
structure Choice where
  plans : List (Nat × List Nat)
  use : List Nat
deriving DecidableEq, Repr

/-- The XOR repairs of LRC groups with exactly one member erased, and the mask that remains (R53). -/
def Profile.repairs (p : Profile) (e : Word64) : List (Nat × List Nat) × Word64 :=
  if p.typ ≠ .lrc then ([], e)
  else
    (List.range p.loc).foldl (fun acc q =>
      match (p.groupMembers q).filter (fun i => acc.2.getLsbD i) with
      | [i] => (acc.1 ++ [(i, (p.groupMembers q).filter (fun j => j ≠ i))],
          acc.2 &&& ~~~(BitVec.ofNat 64 (2 ^ i)))
      | _ => acc) ([], e)

/-- choose() of R53, of row `row` of stripe `stripe`; none when media is lost. -/
def Profile.choose (p : Profile) (e : Word64) (stripe row : Nat) : Option Choice :=
  match p.typ with
  | .replica =>
    (((List.range p.par).map (fun i => ((stripe + row) % p.par + i) % p.par)).find? (fun i => !e.getLsbD i)).map
      (fun i => { plans := [], use := [i] })
  | _ =>
    let (plans, e) := p.repairs e
    let data := (List.range p.k).filter (fun i => !e.getLsbD i)
    let use := (p.frags.filter (fun i => decide (p.k ≤ i) && !e.getLsbD i)).foldl (fun use i =>
      if use.length < p.k then
        (if gfRank (use.map p.genRow) < gfRank ((use ++ [i]).map p.genRow) then use ++ [i] else use)
      else use) data
    if use.length < p.k then none else some { plans := plans, use := use }

/-- The fragments that a choice reads: a repaired fragment is replaced by its plan's members. -/
def Choice.reads (c : Choice) : List Nat :=
  (c.use.flatMap (fun i => match c.plans.find? (fun pl => pl.1 = i) with
    | some pl => pl.2
    | none => [i])).eraseDups

/-- The coefficients over a list of read fragments that give fragment `f`: one over the members of f's XOR plan, the
decode-matrix row otherwise (R53, R54). -/
def Profile.coeffs (p : Profile) (c : Choice) (reads : List Nat) (f : Nat) : Option Bytes :=
  match c.plans.find? (fun pl => pl.1 = f) with
  | some pl => some (reads.map (fun i => if i ∈ pl.2 then 1 else 0))
  | none => gfSolve (reads.map p.genRow) (p.genRow f)

/-- Whether a choice needs a matrix solve for fragment f: pure XOR repair, XOR codes and REPLICA reads do not (R54). -/
def Profile.needsSolve (p : Profile) (c : Choice) (f : Nat) : Bool :=
  (decide (p.typ = .rs) || decide (p.typ = .lrc)) && !(c.plans.any (fun pl => pl.1 = f))

/-! ## Sets: block to fragment (R47) -/

/-- Sectors per fragment s. -/
def ArraySet.s (a : ArraySet) : Nat := 2 ^ a.fragLog2

/-- The stripe, data fragment and row of logical block `lba` (R47). -/
def locate (k s lba : Nat) : Nat × Nat × Nat := (lba / (k * s), lba % (k * s) / s, lba % s)

/-- The LBA of row `row` of data fragment `frag` of a stripe. -/
def lbaOf (k s stripe frag row : Nat) : Nat := stripe * (k * s) + frag * s + row

/-! ## Seals (R62 to R67) -/

/-- Seal bytes 0x00 to 0x37 (R62). -/
def sealBytes (q : Seal) : Bytes :=
  [q.version, q.flags, q.setId, q.profileId, q.fragIndex, q.row] ++ leBytes 2 q.chartRev.toNat ++
  leBytes 6 q.stripe.toNat ++ leBytes 2 q.rsv0E.toNat ++ leBytes 6 q.lba.toNat ++ leBytes 2 q.rsv16.toNat ++
  leBytes 6 q.watch.toNat ++ leBytes 2 q.rsv1E.toNat ++ leBytes 4 q.generation.toNat ++
  leBytes 4 q.incarnation.toNat ++ leBytes 8 q.lastWriteMask.toNat ++ leBytes 8 q.rsv30.toNat

/-- The CRC of a sector: over its 4096 data bytes followed by seal bytes 0x00 to 0x37 (R63). -/
def sectorCrc (data : Bytes) (q : Seal) : Word64 := crc64 (data ++ sealBytes q)

/-- A version: watch, then generation (R65). -/
abbrev Version := Nat × Nat

/-- The version of a seal. -/
def sealVersion (q : Seal) : Version := (q.watch.toNat, q.generation.toNat)

/-- Versions compared first by WATCH, then by GENERATION (R65). -/
def verLt (a b : Version) : Bool := decide (a.1 < b.1) || (decide (a.1 = b.1) && decide (a.2 < b.2))

/-- The higher of two versions. -/
def verMax (a b : Version) : Version := if verLt a b then b else a

/-- Classes of R66. -/
inductive SectorClass where
  | blank
  | corrupt
  | foreign
  | misdirected
  | current
deriving DecidableEq, Repr

/-- What the tests compare a seal with: the set, its profile and the place read. -/
structure Place where
  setId : Byte
  profileId : Byte
  incarnation : Word32
  profile : Profile
  s : Nat
  stripe : Nat
  frag : Nat
  row : Nat
  now : Nat
deriving DecidableEq, Repr

/-- The LBA that the seal at a place carries (R62). -/
def Place.lba (p : Place) : Nat :=
  match p.profile.typ with
  | .replica => lbaOf p.profile.k p.s p.stripe 0 p.row
  | _ => lbaOf p.profile.k p.s p.stripe (if p.frag < p.profile.k then p.frag else 0) p.row

/-- PARITY and LOCAL as the role of a fragment index gives them (R64). -/
def roleFlags (p : Profile) (f : Nat) : Nat := ofBool (p.isParity f) + 2 * ofBool (p.isLocal f)

/-- Test 3 of R66 on FLAGS (R64): bit 7 clear, and PARITY and LOCAL those of the seal's own FRAG_INDEX when it is below
the width. -/
def flagsFit (p : Profile) (q : Seal) : Bool :=
  decide (q.flags.toNat < 128) &&
    (decide (p.width ≤ q.fragIndex.toNat) || decide (q.flags.toNat % 4 = roleFlags p q.fragIndex.toNat))

/-- Whether every reserved field and bit of a seal is zero (R62). -/
def sealReservedZero (q : Seal) : Bool :=
  decide (q.setId.toNat < 64) && decide (q.profileId.toNat < 64) && decide (q.rsv0E = 0) && decide (q.rsv16 = 0) &&
    decide (q.rsv1E = 0) && decide (q.rsv30 = 0)

/-- Tests 1 to 6 of R66 in order. -/
def classify (p : Place) (x : Sector) : SectorClass :=
  let q := x.sl
  if q = Seal.zero ∧ allZero x.data then .blank
  else if q.crc ≠ sectorCrc x.data q then .corrupt
  else if q.version ≠ 1 ∨ !sealReservedZero q ∨ !flagsFit p.profile q then .corrupt
  else if q.setId ≠ p.setId ∨ q.incarnation ≠ p.incarnation then .foreign
  else if q.stripe.toNat ≠ p.stripe ∨ q.fragIndex.toNat ≠ p.frag ∨ q.row.toNat ≠ p.row ∨ q.profileId ≠ p.profileId ∨
      q.lba.toNat ≠ p.lba then .misdirected
  else if p.now + 1 < q.watch.toNat then .corrupt
  else .current

/-- The FLAGS that a write sets beyond the role: ZERO, HOLDOVER, and the origin bits REPLAY, REBUILT, REPAIRED (R64). -/
structure SealFlags where
  zero : Bool
  holdover : Bool
  replay : Bool
  rebuilt : Bool
  repaired : Bool
deriving DecidableEq, Repr

/-- An ordinary write's flags. -/
def SealFlags.plain (zero holdover : Bool) : SealFlags :=
  { zero := zero, holdover := holdover, replay := false, rebuilt := false, repaired := false }

/-- The sector written at a place with a version (R62, R71). -/
def sealFor (p : Place) (rev : Half) (fl : SealFlags) (v : Version) (lwm : Word64) (data : Bytes) : Sector :=
  let q : Seal := { Seal.zero with
    version := 1,
    flags := BitVec.ofNat 8 (roleFlags p.profile p.frag + 4 * ofBool fl.zero + 8 * ofBool fl.holdover +
      16 * ofBool fl.replay + 32 * ofBool fl.rebuilt + 64 * ofBool fl.repaired),
    setId := p.setId, profileId := p.profileId, fragIndex := BitVec.ofNat 8 p.frag, row := BitVec.ofNat 8 p.row,
    chartRev := rev, stripe := BitVec.ofNat 48 p.stripe, lba := BitVec.ofNat 48 p.lba, watch := BitVec.ofNat 48 v.1,
    generation := BitVec.ofNat 32 v.2, incarnation := p.incarnation,
    lastWriteMask := if p.profile.isParity p.frag ∧ p.profile.typ ≠ .replica then lwm else 0 }
  { data := data, sl := { q with crc := sectorCrc data q } }

/-- What R67 finds in the CURRENT sectors of a row (fragment, seal): the parity version, the stale fragments, and whether
the row is inconsistent. -/
structure RowCheck where
  vp : Option Version
  mask : Option Word64
  stale : List Nat
  inconsistent : Bool
deriving DecidableEq, Repr

/-- R67 over the CURRENT sectors of a row. -/
def rowCheck (p : Profile) (l : List (Nat × Seal)) : RowCheck :=
  if p.typ = .replica then
    let top := l.foldl (fun m fs => match m with
      | none => some (sealVersion fs.2)
      | some v => some (verMax v (sealVersion fs.2))) (none : Option Version)
    { vp := top, mask := none, inconsistent := false,
      stale := (l.filter (fun fs => match top with
        | none => false
        | some v => verLt (sealVersion fs.2) v)).map (fun fs => fs.1) }
  else
    let par := l.filter (fun fs => p.isParity fs.1)
    let dat := l.filter (fun fs => !p.isParity fs.1)
    match par.foldl (fun m fs => match m with
      | none => some (sealVersion fs.2)
      | some v => some (verMax v (sealVersion fs.2))) (none : Option Version) with
    | none => { vp := none, mask := none, stale := [], inconsistent := false }
    | some vp =>
      let old := (par.filter (fun fs => verLt (sealVersion fs.2) vp)).map (fun fs => fs.1)
      let masks := ((par.filter (fun fs => decide (sealVersion fs.2 = vp))).map (fun fs => fs.2.lastWriteMask)).eraseDups
      match masks with
      | [m] =>
        if dat.any (fun fs => verLt vp (sealVersion fs.2)) then
          { vp := some vp, mask := some m, stale := par.map (fun fs => fs.1), inconsistent := false }
        else
          { vp := some vp, mask := some m,
            stale := old ++ (dat.filter (fun fs => m.getLsbD fs.1 && verLt (sealVersion fs.2) vp)).map (fun fs => fs.1),
            inconsistent := dat.any (fun fs => !m.getLsbD fs.1 && decide (sealVersion fs.2 = vp)) }
      | _ => { vp := some vp, mask := none, stale := old, inconsistent := true }

/-! ## Coding (R49 to R57) -/

/-- The parity streams of a row range from its k data streams, each of n bytes (R49, R50). -/
def Profile.encode (p : Profile) (n : Nat) (data : List Bytes) : List Bytes :=
  p.parities.map (fun f => gfCombine n (p.genRow f) data)

/-- The column sums of a pass's coefficients over `cols` inputs (R57). -/
def columnSums (coeffs : List Bytes) (cols : Nat) : Bytes :=
  (List.range cols).map (fun i => coeffs.foldl (fun a r => a ^^^ byteAt r i) 0)

/-- The column-sum check of R57. -/
def columnSumOk (coeffs inputs outputs : List Bytes) (n : Nat) : Bool :=
  gfCombine n (columnSums coeffs inputs.length) inputs == outputs.foldl gfAdd (fill n 0)

end Sys2Proof.Machine
end

