-- ==== Sys2Proof/Machine/Words.lean ====
section
/-! DEFINITION. The words that units publish about themselves: the live state word of a port (spec/11_drive_ports.md R344)
and the status words that registers and reaction programs read (R361, R368, R166, R148, R199). -/

namespace Sys2Proof.Machine

/-- The code of a port state (R322). -/
def PortState.code : PortState → Nat
  | .empty => 0
  | .training => 1
  | .ready => 2
  | .recovery => 3
  | .contained => 4
  | .resetting => 5
  | .dark => 6
  | .error => 7
  | .merged => 8

/-- The code of a group state (R339). -/
def GroupState.code : GroupState → Nat
  | .powered => 0
  | .draining => 1
  | .dark => 2
  | .waking => 3

/-- A drive port. -/
def State.port (s : State) (p : Byte) : Port := Tab.get s.ports Port.at0 p.toNat

/-- A drive port changed. -/
def State.modPort (s : State) (p : Byte) (f : Port → Port) : State :=
  s.withPorts (Tab.modify s.ports Port.at0 p.toNat f)

/-- A port group. -/
def State.group (s : State) (g : Nat) : Group := Tab.get s.portGroups Group.at0 g

/-- A port group changed. -/
def State.modGroup (s : State) (g : Nat) (f : Group → Group) : State :=
  s.withPortGroups (Tab.modify s.portGroups Group.at0 g f)

/-- The group of a port (R318). -/
def groupOf (p : Byte) : Nat := p.toNat / 16

/-- Whether a port is present on this part (R1, R3). -/
def State.portPresent (s : State) (p : Byte) : Bool := decide (p.toNat < Config.ports s.part)

/-- The sixteen ports of a group. -/
def groupPorts (g : Nat) : List Byte := (List.range 16).map (fun i => BitVec.ofNat 8 (16 * g + i))

/-- Every present port. -/
def State.allPorts (s : State) : List Byte := (List.range (Config.ports s.part)).map (BitVec.ofNat 8)

/-- The set of which a port is a member (R31). -/
def State.memberOf (s : State) (p : Byte) : Option Nat :=
  (s.sets.find? (fun e => decide (e.2.state ≠ .empty) && decide (p ∈ e.2.members))).map (fun e => e.1)

/-- The commands outstanding to a port. -/
def State.outstanding (s : State) (p : Byte) : List DriveCmd := s.dcmds.filter (fun d => d.port = p && !d.quarantined)

/-- The commands of a port in quarantine (R332). -/
def State.quarantined (s : State) (p : Byte) : List DriveCmd := s.dcmds.filter (fun d => d.port = p && d.quarantined)

/-- The live state word of a port (R344). A command of the model moves one sector, so one page is quarantined per command
that moves data. -/
def State.liveWord (s : State) (p : Byte) : Word64 :=
  let v := s.port p
  BitVec.ofNat 64 (v.state.code + 16 * ofBool v.failed + 32 * ofBool v.catchup + 64 * ofBool v.formatOk +
    128 * ofBool v.dual + 2 ^ 8 * v.gen.toNat + 2 ^ 10 * (if v.state = .merged then 0 else v.width.toNat) +
    2 ^ 13 * (s.group (groupOf p)).state.code + 2 ^ 15 * ofBool v.warning +
    2 ^ 16 * ((s.memberOf p).getD 0xFF) + 2 ^ 32 * satTo 16 (s.outstanding p).length +
    2 ^ 48 * satTo 16 (s.quarantined p).length)

/-- WCH.STAT (R166). -/
def State.wchStat (s : State) : Nat :=
  s.wch.timer.code + 8 * ofBool s.holdoverFlag + 16 * ofBool s.wch.beyond + 32 * ofBool s.wch.tod.isSome

/-- FLT.FIRST (R368). -/
def State.fltFirstWord (s : State) : Nat :=
  let f := s.flt.first
  f.source.toNat + 2 ^ 8 * f.level.code + 2 ^ 16 * f.detail.toNat + 2 ^ 24 * ofBool f.valid +
    2 ^ 25 * ofBool f.injected + 2 ^ 26 * ofBool f.overflow + 2 ^ 27 * ofBool f.acked + 2 ^ 28 * ofBool f.escalated

/-- FLT.SRCn (R368). -/
def State.fltSrcWord (s : State) (n : Byte) : Nat :=
  let c := s.src n
  c.count % 2 ^ 32 + 2 ^ 32 * c.openLevel.code + 2 ^ 34 * ofBool c.isOpen + 2 ^ 35 * ofBool c.injected +
    2 ^ 40 * c.lastDetail.toNat

/-- Whether any pair of the Log runs on one copy. -/
def State.logDegraded (s : State) : Bool := (s.log.pairs.take (Config.pairs s.part)).any (fun r => r.single)

/-- Whether any pair is resilvering. -/
def State.logResilvering (s : State) : Bool := (s.log.pairs.take (Config.pairs s.part)).any (fun r => r.resilvering)

/-- Whether any present bank is read in margin-tolerant mode (R382). -/
def State.logMargin (s : State) : Bool := s.presentBanks.any (fun n => (s.bank n).origin = 2 && s.bankLive n)

/-- LOG.STAT (R148). -/
def State.logStatWord (s : State) : Nat :=
  ofBool s.log.replaying + 2 * ofBool (s.sets.any (fun e => !e.2.resync.isEmpty)) +
    4 * ofBool s.log.paced + 8 * ofBool s.log.full + 16 * ofBool s.logDegraded +
    32 * ofBool s.logResilvering + 64 * ofBool s.logMargin

/-- GCS.RBS_STAT (R199). -/
def State.rbsStatWord (s : State) : Nat :=
  ofBool (s.sets.any (fun e => e.2.pending.isSome)) + 2 * ofBool s.sched.scrubbing + 4 * ofBool s.sched.behind

/-- SETWORD of a set (R361). -/
def State.setWord (s : State) (id : Nat) : Nat :=
  let a := s.set id
  a.state.code + 8 * ofBool a.pending.isSome + 16 * ofBool a.queued.isSome +
    32 * ofBool (!a.resync.isEmpty || !a.unresolved.isEmpty) + 64 * ofBool a.replaying +
    2 ^ 8 * a.profile.toNat + 2 ^ 16 * a.current.rev.toNat

/-- A profile by ID. -/
def State.profile (s : State) (id : BitVec 6) : Option Profile := Tab.get s.profiles none id.toNat

/-- The profile of a set; a blank REPLICA profile for a set that names none. -/
def State.setProfile (s : State) (a : ArraySet) : Profile :=
  (s.profile a.profile).getD { typ := .replica, k := 1, par := 2, loc := 0 }

end Sys2Proof.Machine
end

