-- ==== Sys2Proof/Machine/Siette.lean ====
section
/-! DEFINITION. The Siette language (spec/03_charts_and_siette.md R88 to R95, reaction context in spec/12 R359 to R364):
instructions and their encodings, the effect of each on a machine's registers, verification, and chart lookups. -/

namespace Sys2Proof.Machine

/-- An instruction of R91 with its fields. -/
inductive SIns where
  | add (rd ra rb : GReg)
  | sub (rd ra rb : GReg)
  | and (rd ra rb : GReg)
  | or (rd ra rb : GReg)
  | xor (rd ra rb : GReg)
  | shl (rd ra rb : GReg)
  | shr (rd ra rb : GReg)
  | addi (rd ra : GReg) (imm : BitVec 18)
  | andi (rd ra : GReg) (imm : BitVec 18)
  | ori (rd ra : GReg) (imm : BitVec 18)
  | xori (rd ra : GReg) (imm : BitVec 18)
  | shli (rd ra : GReg) (imm : BitVec 18)
  | shri (rd ra : GReg) (imm : BitVec 18)
  | movi (rd : GReg) (lane : BitVec 2) (imm : BitVec 16)
  | movk (rd : GReg) (lane : BitVec 2) (imm : BitVec 16)
  | mul (rd ra rb : GReg)
  | mulhi (rd ra rb : GReg)
  | divm (rd ra rb : GReg)
  | modr (rd ra rb : GReg)
  | mix (rd ra rb : GReg)
  | sltu (rd ra rb : GReg)
  | seq (rd ra rb : GReg)
  | sel (rd rc ra rb : GReg)
  | bz (ra : GReg) (off : BitVec 8)
  | bnz (ra : GReg) (off : BitVec 8)
  | br (off : BitVec 8)
  | skeq (ra rb : GReg)
  | skne (ra rb : GReg)
  | sklt (ra rb : GReg)
  | ldt (rd ra : GReg) (table width : BitVec 2)
  | ptest (rd ra : GReg)
  | emit (ra rb : GReg)
  | fault (code : BitVec 14)
  | act (ra : GReg) (action : BitVec 14)
  | crr (rd : GReg) (index : BitVec 14)
  | crw (ra : GReg) (index : BitVec 14)
  | raise (ra : GReg) (event : BitVec 14)
  | done
deriving DecidableEq, Repr

/-- The instruction of a word, none where the opcode is reserved or a field that R90 marks zero is not zero. -/
def decodeSiette (w : Word32) : Option SIns :=
  let n := w.toNat
  let op := n / 2 ^ 26
  let rd := BitVec.ofNat 4 (n / 2 ^ 22)
  let ra := BitVec.ofNat 4 (n / 2 ^ 18)
  let rb := BitVec.ofNat 4 (n / 2 ^ 14)
  let lo14 := n % 2 ^ 14
  let imm14 := BitVec.ofNat 14 n
  let imm18 := BitVec.ofNat 18 n
  let fR (i : SIns) : Option SIns := if lo14 = 0 then some i else none
  let fK (i : SIns) : Option SIns := if n / 2 ^ 16 % 16 = 0 then some i else none
  let fB (i : SIns) : Option SIns := if rd = 0 ∧ n / 2 ^ 8 % 2 ^ 10 = 0 then some i else none
  let fS (i : SIns) : Option SIns := if rd = 0 ∧ lo14 = 0 then some i else none
  let lane := BitVec.ofNat 2 (n / 2 ^ 20)
  let off := BitVec.ofNat 8 n
  if op = 0x01 then fR (.add rd ra rb) else if op = 0x02 then fR (.sub rd ra rb)
  else if op = 0x03 then fR (.and rd ra rb) else if op = 0x04 then fR (.or rd ra rb)
  else if op = 0x05 then fR (.xor rd ra rb) else if op = 0x06 then fR (.shl rd ra rb)
  else if op = 0x07 then fR (.shr rd ra rb) else if op = 0x08 then some (.addi rd ra imm18)
  else if op = 0x09 then some (.andi rd ra imm18) else if op = 0x0A then some (.ori rd ra imm18)
  else if op = 0x0B then some (.xori rd ra imm18) else if op = 0x0C then some (.shli rd ra imm18)
  else if op = 0x0D then some (.shri rd ra imm18) else if op = 0x0E then fK (.movi rd lane (BitVec.ofNat 16 n))
  else if op = 0x0F then fK (.movk rd lane (BitVec.ofNat 16 n)) else if op = 0x10 then fR (.mul rd ra rb)
  else if op = 0x11 then fR (.mulhi rd ra rb) else if op = 0x12 then fR (.divm rd ra rb)
  else if op = 0x13 then fR (.modr rd ra rb) else if op = 0x14 then fR (.mix rd ra rb)
  else if op = 0x18 then fR (.sltu rd ra rb) else if op = 0x19 then fR (.seq rd ra rb)
  else if op = 0x1A then (if n % 2 ^ 10 = 0 then some (.sel rd (BitVec.ofNat 4 (n / 2 ^ 10)) ra rb) else none)
  else if op = 0x20 then fB (.bz ra off) else if op = 0x21 then fB (.bnz ra off)
  else if op = 0x22 then (if ra = 0 then fB (.br off) else none)
  else if op = 0x24 then fS (.skeq ra rb) else if op = 0x25 then fS (.skne ra rb)
  else if op = 0x26 then fS (.sklt ra rb)
  else if op = 0x28 then fR (.ldt rd ra (BitVec.ofNat 2 (n / 2 ^ 16)) (BitVec.ofNat 2 (n / 2 ^ 14)))
  else if op = 0x2C then (if rb = 0 then fR (.ptest rd ra) else none)
  else if op = 0x30 then fS (.emit ra rb)
  else if op = 0x31 then (if n / 2 ^ 14 % 2 ^ 12 = 0 then some (.fault imm14) else none)
  else if op = 0x38 then (if rd = 0 ∧ rb = 0 then some (.act ra imm14) else none)
  else if op = 0x39 then (if ra = 0 ∧ rb = 0 then some (.crr rd imm14) else none)
  else if op = 0x3A then (if rd = 0 ∧ rb = 0 then some (.crw ra imm14) else none)
  else if op = 0x3B then (if rd = 0 ∧ rb = 0 then some (.raise ra imm14) else none)
  else if op = 0x3C then (if n % 2 ^ 26 = 0 then some .done else none)
  else none

/-- The word with an opcode and the fields [25:22], [21:18], [17:14] and [13:0] of R90. -/
def sWord (op rd ra rb lo : Nat) : Word32 :=
  BitVec.ofNat 32 (op * 2 ^ 26 + rd * 2 ^ 22 + ra * 2 ^ 18 + rb * 2 ^ 14 + lo)

/-- The word with an opcode, rd, ra and the 18 bits [17:0] of R90. -/
def sWordI (op rd ra imm : Nat) : Word32 := BitVec.ofNat 32 (op * 2 ^ 26 + rd * 2 ^ 22 + ra * 2 ^ 18 + imm)

/-- The word of an instruction, from the format and opcode tables of R90 and R91. -/
def encodeSiette : SIns → Word32
  | .add rd ra rb => sWord 0x01 rd.toNat ra.toNat rb.toNat 0
  | .sub rd ra rb => sWord 0x02 rd.toNat ra.toNat rb.toNat 0
  | .and rd ra rb => sWord 0x03 rd.toNat ra.toNat rb.toNat 0
  | .or rd ra rb => sWord 0x04 rd.toNat ra.toNat rb.toNat 0
  | .xor rd ra rb => sWord 0x05 rd.toNat ra.toNat rb.toNat 0
  | .shl rd ra rb => sWord 0x06 rd.toNat ra.toNat rb.toNat 0
  | .shr rd ra rb => sWord 0x07 rd.toNat ra.toNat rb.toNat 0
  | .addi rd ra imm => sWordI 0x08 rd.toNat ra.toNat imm.toNat
  | .andi rd ra imm => sWordI 0x09 rd.toNat ra.toNat imm.toNat
  | .ori rd ra imm => sWordI 0x0A rd.toNat ra.toNat imm.toNat
  | .xori rd ra imm => sWordI 0x0B rd.toNat ra.toNat imm.toNat
  | .shli rd ra imm => sWordI 0x0C rd.toNat ra.toNat imm.toNat
  | .shri rd ra imm => sWordI 0x0D rd.toNat ra.toNat imm.toNat
  | .movi rd lane imm => sWordI 0x0E rd.toNat (lane.toNat * 4) imm.toNat
  | .movk rd lane imm => sWordI 0x0F rd.toNat (lane.toNat * 4) imm.toNat
  | .mul rd ra rb => sWord 0x10 rd.toNat ra.toNat rb.toNat 0
  | .mulhi rd ra rb => sWord 0x11 rd.toNat ra.toNat rb.toNat 0
  | .divm rd ra rb => sWord 0x12 rd.toNat ra.toNat rb.toNat 0
  | .modr rd ra rb => sWord 0x13 rd.toNat ra.toNat rb.toNat 0
  | .mix rd ra rb => sWord 0x14 rd.toNat ra.toNat rb.toNat 0
  | .sltu rd ra rb => sWord 0x18 rd.toNat ra.toNat rb.toNat 0
  | .seq rd ra rb => sWord 0x19 rd.toNat ra.toNat rb.toNat 0
  | .sel rd rc ra rb => sWord 0x1A rd.toNat ra.toNat rb.toNat (rc.toNat * 2 ^ 10)
  | .bz ra off => sWordI 0x20 0 ra.toNat off.toNat
  | .bnz ra off => sWordI 0x21 0 ra.toNat off.toNat
  | .br off => sWordI 0x22 0 0 off.toNat
  | .skeq ra rb => sWord 0x24 0 ra.toNat rb.toNat 0
  | .skne ra rb => sWord 0x25 0 ra.toNat rb.toNat 0
  | .sklt ra rb => sWord 0x26 0 ra.toNat rb.toNat 0
  | .ldt rd ra table width => sWord 0x28 rd.toNat ra.toNat (table.toNat * 4 + width.toNat) 0
  | .ptest rd ra => sWord 0x2C rd.toNat ra.toNat 0 0
  | .emit ra rb => sWord 0x30 0 ra.toNat rb.toNat 0
  | .fault code => sWord 0x31 0 0 0 code.toNat
  | .act ra action => sWord 0x38 0 ra.toNat 0 action.toNat
  | .crr rd index => sWord 0x39 rd.toNat 0 0 index.toNat
  | .crw ra index => sWord 0x3A 0 ra.toNat 0 index.toNat
  | .raise ra event => sWord 0x3B 0 ra.toNat 0 event.toNat
  | .done => sWord 0x3C 0 0 0 0

/-- Whether an instruction is one of the reaction-context operations (R91). -/
def SIns.isReaction : SIns → Bool
  | .act _ _ | .crr _ _ | .crw _ _ | .raise _ _ | .done => true
  | _ => false

/-- Whether the shift immediate, branch offset and skip place of the instruction at index i of n obey R79. -/
def SIns.placeOk (i : SIns) (idx n : Nat) : Bool :=
  match i with
  | .shli _ _ imm | .shri _ _ imm => decide (imm.toNat ≤ 63)
  | .bz _ off | .bnz _ off | .br off => decide (off.toNat ≠ 0) && decide (idx + off.toNat < n)
  | .skeq _ _ | .skne _ _ | .sklt _ _ => decide (idx + 2 < n)
  | _ => true

/-- Whether an instruction may end a chart program (R79). -/
def SIns.endsChart : SIns → Bool
  | .emit _ _ | .fault _ => true
  | _ => false

/-- Whether an instruction may end a reaction program (R365). -/
def SIns.endsReaction : SIns → Bool
  | .done | .fault _ => true
  | _ => false

/-- The control register indices a CRR may name (R361). -/
def crrDefined (i : Nat) : Bool :=
  decide (i < 0x13) || decide (i = 0x20) || decide (i = 0x21) || decide (i = 0x22) || decide (i = 0x23) ||
    decide (i = 0x24) || decide (i = 0x25) || decide (i = 0x30) || decide (i = 0x31)

/-- The control register indices that are RW (R361). -/
def crwDefined (i : Nat) : Bool :=
  decide (i < 0x10) || decide (i = 0x21) || decide (i = 0x22) || decide (i = 0x24)

/-- Whether the instruction at index idx of a chart program of n obeys R79. -/
def chartInsOk (w : Word32) (idx n : Nat) : Bool :=
  match decodeSiette w with
  | none => false
  | some i => !i.isReaction && i.placeOk idx n && (decide (idx + 1 < n) || i.endsChart)

/-- Whether the instruction at index idx of a reaction program of n obeys R365, with the declared tables. -/
def reactionInsOk (tables : Nat → Option (BitVec 2)) (w : Word32) (idx n : Nat) : Bool :=
  match decodeSiette w with
  | none => false
  | some i => i.placeOk idx n && (decide (idx + 1 < n) || i.endsReaction) && (match i with
    | .emit _ _ => false
    | .act _ a => decide (1 ≤ a.toNat) && decide (a.toNat ≤ 7)
    | .crr _ x => crrDefined x.toNat
    | .crw _ x => crwDefined x.toNat
    | .ldt _ _ t wd => decide (tables t.toNat = some wd)
    | _ => true)

/-- The index of the first instruction that breaks a rule of R79, none when the program verifies. An empty program, or one
longer than 256 instructions, breaks it at index 0 (log entry 12). -/
def verifyProgram (ok : Word32 → Nat → Nat → Bool) (code : List Word32) : Option Nat :=
  if code.isEmpty ∨ 256 < code.length then some 0
  else (List.range code.length).find? (fun i => !ok (code.getD i 0) i code.length)

/-! ## Registers and the pure instructions -/

/-- A register of a Siette machine; g0 reads zero (R88). -/
def SCtx.get (c : SCtx) (r : GReg) : Word64 := if r = 0 then 0 else Tab.get c.g 0 r.toNat

/-- A register written; g0 ignores writes (R88). -/
def SCtx.put (c : SCtx) (r : GReg) (v : Word64) : SCtx := if r = 0 then c else { c with g := Tab.set c.g 0 r.toNat v }

/-- A register written and the program counter advanced by one (R88). -/
def SCtx.putNext (c : SCtx) (r : GReg) (v : Word64) : SCtx := { c.put r v with pc := c.pc + 1, steps := c.steps + 1 }

/-- The program counter moved by n. -/
def SCtx.jump (c : SCtx) (n : Nat) : SCtx := { c with pc := c.pc + n, steps := c.steps + 1 }

/-- The program ended (R88). -/
def SCtx.finish (c : SCtx) (e : SEnd) : SCtx := { c with ended := some e, steps := c.steps + 1 }

/-- MIX (R92). -/
def mix64 (a b : Word64) : Word64 :=
  let x := a ^^^ (b * 0x9E3779B97F4A7C15#64)
  let x := (x ^^^ (x >>> 30)) * 0xBF58476D1CE4E5B9#64
  let x := (x ^^^ (x >>> 27)) * 0x94D049BB133111EB#64
  x ^^^ (x >>> 31)

/-- Bytes per entry of a width code (R93). -/
def widthBytes (w : BitVec 2) : Nat := 2 ^ w.toNat

/-- LDT on a program's tables: the entry, or the detail of R95. -/
def ldtValue (tables : Tab (Option STable)) (t w : BitVec 2) (i : Word64) : Except Byte Word64 :=
  match Tab.get tables none t.toNat with
  | none => .error 3
  | some tb =>
    if tb.width ≠ w then .error 3
    else if tb.size / widthBytes w ≤ i.toNat then .error 2
    else .ok (BitVec.ofNat 64 (leNat (Memory.readBytes tb.bytes (i.toNat * widthBytes w) (widthBytes w))))

/-- The effect of an instruction on a Siette machine, `ptest` being what PTEST answers in its context; the reaction-only
operations, which act outside the machine, only advance the program counter here. -/
def SCtx.exec (c : SCtx) (ptest : Byte → Word64) (i : SIns) : SCtx :=
  match i with
  | .add rd ra rb => c.putNext rd (c.get ra + c.get rb)
  | .sub rd ra rb => c.putNext rd (c.get ra - c.get rb)
  | .and rd ra rb => c.putNext rd (c.get ra &&& c.get rb)
  | .or rd ra rb => c.putNext rd (c.get ra ||| c.get rb)
  | .xor rd ra rb => c.putNext rd (c.get ra ^^^ c.get rb)
  | .shl rd ra rb => c.putNext rd (c.get ra <<< ((c.get rb).toNat % 64))
  | .shr rd ra rb => c.putNext rd (c.get ra >>> ((c.get rb).toNat % 64))
  | .addi rd ra imm => c.putNext rd (c.get ra + imm.signExtend 64)
  | .andi rd ra imm => c.putNext rd (c.get ra &&& imm.setWidth 64)
  | .ori rd ra imm => c.putNext rd (c.get ra ||| imm.setWidth 64)
  | .xori rd ra imm => c.putNext rd (c.get ra ^^^ imm.setWidth 64)
  | .shli rd ra imm => c.putNext rd (c.get ra <<< imm.toNat)
  | .shri rd ra imm => c.putNext rd (c.get ra >>> imm.toNat)
  | .movi rd lane imm => c.putNext rd (imm.setWidth 64 <<< (16 * lane.toNat))
  | .movk rd lane imm =>
    c.putNext rd ((c.get rd &&& ~~~((0xFFFF#64) <<< (16 * lane.toNat))) ||| (imm.setWidth 64 <<< (16 * lane.toNat)))
  | .mul rd ra rb => c.putNext rd (c.get ra * c.get rb)
  | .mulhi rd ra rb => c.putNext rd (BitVec.ofNat 64 ((c.get ra).toNat * (c.get rb).toNat / 2 ^ 64))
  | .divm rd ra rb => if c.get rb = 0 then c.finish (.fault 1 0) else c.putNext rd (c.get ra / c.get rb)
  | .modr rd ra rb => if c.get rb = 0 then c.finish (.fault 1 0) else c.putNext rd (c.get ra % c.get rb)
  | .mix rd ra rb => c.putNext rd (mix64 (c.get ra) (c.get rb))
  | .sltu rd ra rb => c.putNext rd (if (c.get ra).toNat < (c.get rb).toNat then 1 else 0)
  | .seq rd ra rb => c.putNext rd (if c.get ra = c.get rb then 1 else 0)
  | .sel rd rc ra rb => c.putNext rd (if c.get rc ≠ 0 then c.get ra else c.get rb)
  | .bz ra off => c.jump (if c.get ra = 0 then off.toNat else 1)
  | .bnz ra off => c.jump (if c.get ra ≠ 0 then off.toNat else 1)
  | .br off => c.jump off.toNat
  | .skeq ra rb => c.jump (if c.get ra = c.get rb then 2 else 1)
  | .skne ra rb => c.jump (if c.get ra ≠ c.get rb then 2 else 1)
  | .sklt ra rb => c.jump (if (c.get ra).toNat < (c.get rb).toNat then 2 else 1)
  | .ldt rd ra t w =>
    match ldtValue c.prog.tables t w (c.get ra) with
    | .ok v => c.putNext rd v
    | .error d => c.finish (.fault d 0)
  | .ptest rd ra => c.putNext rd (ptest (BitVec.ofNat 8 (c.get ra).toNat))
  | .emit ra rb => c.finish (.emit (BitVec.ofNat 8 (c.get ra).toNat) (c.get rb))
  | .fault code => c.finish (.fault 8 (BitVec.ofNat 8 code.toNat))
  | .done => c.finish .done
  | .act _ _ | .crr _ _ | .crw _ _ | .raise _ _ => c.jump 1

/-- The instruction a machine runs next. -/
def SCtx.next (c : SCtx) : Option SIns := (c.prog.code[c.pc]?).bind decodeSiette

/-- A chart program run to its end, at most `fuel` instructions (R88); a verified program always ends within 256. -/
def SCtx.run (ptest : Byte → Word64) : Nat → SCtx → SCtx
  | 0, c => c
  | n + 1, c =>
    match c.ended, c.next with
    | none, some i => SCtx.run ptest n (c.exec ptest i)
    | _, _ => c

/-! ## Chart lookups (R71 to R73, R89, R94, R95) -/

/-- The retire ordinal of a port in a revision (R82). -/
def Revision.ordinal (r : Revision) (p : Byte) : Option Nat :=
  (r.retire.find? (fun e => e.2 = some p)).map (fun e => e.1)

/-- What PTEST answers in a chart lookup (R94). -/
def State.chartPtest (s : State) (a : ArraySet) (r : Revision) (p : Byte) : Word64 :=
  BitVec.ofNat 64 ((r.ordinal p).elim 0 (· + 1) % 64 + 2 ^ 8 * ofBool (p ∉ a.members) + 2 ^ 9 * ofBool (!s.portPresent p))

/-- The stored program of a slot with its tables, none where the slot holds no program (R76). -/
def State.slotProg (s : State) (slot : Nat) : Option SProg :=
  (Tab.get s.cht.progs none slot).map (fun code =>
    { code := code,
      tables := (List.range 4).foldl (fun t i => Tab.set t none i (Tab.get s.cht.tables none (4 * slot + i))) [] })

/-- A Siette machine ready for a chart lookup (R89). -/
def State.lookupCtx (s : State) (req : LookupReq) (prog : SProg) : SCtx :=
  let a := s.set req.set.toNat
  let pre : List (Nat × Word64) :=
    [(1, BitVec.ofNat 64 req.stripe), (2, BitVec.ofNat 64 req.frag), (3, BitVec.ofNat 64 (s.setProfile a).width),
     (4, BitVec.ofNat 64 a.s), (5, req.rev.rev.setWidth 64), (6, req.set.setWidth 64), (7, a.stripeCount.setWidth 64)] ++
    (List.range 8).map (fun i => (8 + i, Tab.get req.rev.params 0 i))
  { SCtx.at0 with use := .lookup req, prog := prog,
                  g := pre.foldl (fun t e => Tab.set t 0 e.1 e.2) [] }

/-- The check of a bearing (R72): the detail of R95, none when it passes. -/
def State.bearingFault (s : State) (a : ArraySet) (r : Revision) (port : Byte) (dba : Nat) : Option Byte :=
  if !s.portPresent port || decide (port ∉ a.members) then some 4
  else if (r.ordinal port).isSome then some 5
  else match (s.port port).recordedCapacity with
    | none => none
    | some cap => if cap < dba + a.s then some 6 else none

/-- How a lookup ended: its bearing, or detail, FAULT code and program counter of the program fault (R95). -/
inductive Bearing where
  | at (port : Byte) (dba : Nat)
  | failed (detail code : Byte) (pc : Nat)
deriving DecidableEq, Repr

/-- The bearing of an ended machine, checked (R72). -/
def State.ctxBearing (s : State) (req : LookupReq) (c : SCtx) : Bearing :=
  match c.ended with
  | some (.emit p d) =>
    match s.bearingFault (s.set req.set.toNat) req.rev p d.toNat with
    | none => .at p d.toNat
    | some f => .failed f 0 c.pc
  | some (.fault d code) => .failed d code c.pc
  | _ => .failed 9 0 0

/-- A lookup run from its start to its bearing (R71, R75). -/
def State.lookup (s : State) (req : LookupReq) : Bearing :=
  match s.slotProg req.rev.slot.toNat with
  | none => .failed 9 0 0
  | some prog =>
    s.ctxBearing req ((s.lookupCtx req prog).run (s.chartPtest (s.set req.set.toNat) req.rev) 256)

/-- The revision that a stripe's lookups use (R83). -/
def ArraySet.revFor (a : ArraySet) (stripe : Nat) : Revision :=
  match a.pending with
  | some r => if stripe < a.cursor.toNat then r else a.current
  | none => a.current

/-- The bearing of a fragment under a revision. -/
def State.bearing (s : State) (set : BitVec 6) (rev : Revision) (stripe frag : Nat) : Bearing :=
  s.lookup { id := 0, cls := .hostIo, set := set, stripe := stripe, frag := frag, row := 0, rev := rev, purpose := .management }

end Sys2Proof.Machine
end

