-- ==== Sys2Proof/Machine/Ops.lean ====
section
/-! DEFINITION. The shared operations over the array: chart program faults and bearings (spec/03 R72, R73, R96), availability
(spec/02 R53), commands to drives (spec/11 R328 to R334, R341, R503), and the Stripe Cache with its victim tier
(spec/10 R294 to R306, R504). -/

namespace Sys2Proof.Machine

/-! ## Chart faults and bearings -/

/-- A chart program fault (R95 to R97): counted, latched in CHT.LAST_FAULT, raised, and the set preserved unless the lookup
is diagnostic. -/
def State.chartFault (s : State) (req : LookupReq) (detail code : Byte) (pc : Nat) (diag : Bool) : State :=
  let w := BitVec.ofNat 64 (req.set.toNat + 2 ^ 8 * req.rev.slot.toNat + 2 ^ 15 * ofBool diag + 2 ^ 16 * (pc % 256) +
    2 ^ 24 * detail.toNat + 2 ^ 32 * req.rev.rev.toNat + 2 ^ 48 * code.toNat)
  let s := s.count32 Reg.chtFaults 1
  let s := if s.cht.firstFault = 0 ∨ s.flt.first.acked then s.withCht { s.cht with firstFault := w } else s
  if diag then s.raise 0x4B .note detail else (s.raise 0x4B .contain detail).preserve req.set.toNat

/-- A lookup request for one fragment. -/
def lookupReq (set : BitVec 6) (rev : Revision) (stripe frag : Nat) (cls : LookupClass) : LookupReq :=
  { id := 0, cls := cls, set := set, stripe := stripe, frag := frag, row := 0, rev := rev, purpose := .management }

/-- The bearings of every fragment of a stripe, the lookups counted; none after a chart program fault, a repeated port
among them included (R72, R73). -/
def State.stripeBearings (s : State) (set : BitVec 6) (rev : Revision) (stripe : Nat) (cls : LookupClass) :
    State × Option (List (Byte × Nat)) :=
  let a := s.set set.toNat
  let w := (s.setProfile a).width
  let s := s.count64 Reg.chtLookups w
  let bs := (List.range w).map (fun f => (f, s.bearing set rev stripe f))
  match bs.find? (fun b => match b.2 with
    | .failed _ _ _ => true
    | .at _ _ => false) with
  | some (f, .failed d code pc) => (s.chartFault (lookupReq set rev stripe f cls) d code pc false, none)
  | _ =>
    let ps := bs.filterMap (fun b => match b.2 with
      | .at p d => some (p, d)
      | .failed _ _ _ => none)
    if (ps.map (fun b => b.1)).Nodup then (s, some ps)
    else (s.chartFault (lookupReq set rev stripe 0 cls) 7 0 0 false, none)

/-! ## Availability -/

/-- Whether a member port serves reads of a stripe (R53, R340, R342). -/
def State.portServes (s : State) (p : Byte) (stripe : Nat) : Bool :=
  let v := s.port p
  decide (v.state = .ready) && !v.failed && v.formatOk && decide (stripe / 1024 ∉ v.catchupMap) &&
    decide ((s.group (groupOf p)).state = .powered)

/-- Whether a fragment is unavailable (R53). -/
def State.fragOut (s : State) (set : BitVec 6) (rev : Revision) (stripe frag : Nat) : Bool :=
  match s.bearing set rev stripe frag with
  | .at p _ => !s.portServes p stripe
  | .failed _ _ _ => true

/-- The erasure mask of a stripe: its unavailable fragments (R53). -/
def State.eraseMask (s : State) (set : BitVec 6) (rev : Revision) (stripe : Nat) : Word64 :=
  BitVec.ofNat 64 (maskOf (((s.setProfile (s.set set.toNat)).frags).filter (fun f => s.fragOut set rev stripe f)))

/-- A mask with one bit set. -/
def maskBit (f : Nat) : Word64 := BitVec.ofNat 64 (2 ^ f)

/-- Whether a place lies in a row that recovery or arbitration left unresolved, with its fragment suspect (R143, R178). -/
def State.suspect (s : State) (set : BitVec 6) (stripe row frag : Nat) : Bool :=
  decide ((stripe, row, frag) ∈ (s.set set.toNat).suspects)

/-- The place of a sector, for the tests of R66. -/
def State.placeOf (s : State) (set : BitVec 6) (stripe frag row : Nat) : Place :=
  let a := s.set set.toNat
  { setId := set.setWidth 8, profileId := a.profile.setWidth 8, incarnation := a.incarnation, profile := s.setProfile a,
    s := a.s, stripe := stripe, frag := frag, row := row, now := s.watch.toNat }

/-! ## Commands to drives -/

/-- A command to a drive, not yet issued. -/
def driveCmd (id : Nat) (port : Byte) (op : DriveOp) (purpose : Purpose) (set : BitVec 6) (stripe frag row dba : Nat)
    (x : Option Sector) : DriveCmd :=
  { id := id, port := port, op := op, purpose := purpose, set := set, stripe := stripe, frag := frag, row := row, dba := dba,
    sector := x, slow := false, lagged := false, quarantined := false, discard := false, rowTouched := false,
    issued := false }

/-- Whether a write must wait in the port engine behind an earlier write of the same sector (R329). -/
def State.overlaps (s : State) (c : DriveCmd) : Bool :=
  c.op = .write && s.dcmds.any (fun d => d.port = c.port && d.op = .write && d.dba = c.dba && !d.quarantined && d.id ≠ c.id)

/-- A command queued at its port and issued to the drive unless it waits (R328, R329, R334); the link leaves L1 (R321). -/
def State.submit (s : State) (c : DriveCmd) : State :=
  let go := decide ((s.port c.port).state = .ready) && !s.overlaps c
  let s := s.modPort c.port (fun v => { v with inL1 := v.inL1 && !go })
  let c := { c with issued := go }
  let s := s.withDcmds (s.dcmds ++ [c])
  if go then s.emit (.driveCmd c) else s

/-- The waiting writes of a port that may now be issued, in order (R329, R334). -/
def State.issueWaiting (s : State) (p : Byte) : State :=
  s.dcmds.foldl (fun s c =>
    if c.port = p ∧ !c.issued ∧ (s.port p).state = .ready ∧
        !(s.dcmds.any (fun d => d.port = p && d.op = .write && d.dba = c.dba && d.issued && !d.quarantined)) then
      let c := { c with issued := true }
      (s.withDcmds (s.dcmds.map (fun d => if d.id = c.id then c else d))).emit (.driveCmd c)
    else s) s

/-- A drive write issued to a row marks the reads and reconstructions of that row (R176, R180), and a stripe that rebuild
holds done or in flight is taken again (R183). -/
def State.touchRow (s : State) (set : BitVec 6) (stripe row : Nat) (byRebuild : Bool) : State :=
  let s := s.withDcmds (s.dcmds.map (fun d =>
    if d.op = .read ∧ d.set = set ∧ d.stripe = stripe ∧ d.row = row then { d with rowTouched := true } else d))
  let s := s.withRowOps (s.rowOps.map (fun o =>
    if o.set = set ∧ o.stripe = stripe ∧ o.row = row then { o with touched := true } else o))
  if byRebuild then s
  else s.modSet set.toNat (fun a => { a with inFlight := a.inFlight.map (fun r =>
    if r.stripe = stripe then { r with done := false, touched := true } else r) })

/-- Whether a port takes a drive write now, or keeps it in RECOVERY (R334). -/
def State.portTakesWrite (s : State) (p : Byte) : Bool :=
  let v := s.port p
  (decide (v.state = .ready) && v.formatOk && decide ((s.group (groupOf p)).state = .powered)) ||
    decide (v.state = .recovery)

/-- A drive write of one sector to its bearing (R132, R175, R341, R503): issued, skipped on a failed port, or skipped with
its extent marked on a port that cannot take it. Answers the command's id when one was queued. -/
def State.driveWrite (s : State) (port : Byte) (dba : Nat) (set : BitVec 6) (stripe frag row : Nat) (x : Sector)
    (purpose : Purpose) : State × Option Nat :=
  if (s.port port).failed then (s, none)
  else if s.portTakesWrite port then
    let id := s.nextId
    let s := (s.withNextId (id + 1)).touchRow set stripe row (decide (purpose = .rebuildWrite))
    (s.submit (driveCmd id port .write purpose set stripe frag row dba (some x)), some id)
  else (s.modPort port (fun v => { v with catchupMap := withElem v.catchupMap (stripe / 1024) }), none)

/-- A read requested of the Chart Unit, which the drive read follows (R71, R98); answers its id. -/
def State.requestRead (s : State) (cls : LookupClass) (set : BitVec 6) (rev : Revision) (stripe frag row : Nat)
    (purpose : Purpose) : State × Nat :=
  let id := s.nextId
  let req : LookupReq :=
    { id := id, cls := cls, set := set, stripe := stripe, frag := frag, row := row, rev := rev, purpose := purpose }
  ((s.withNextId (id + 1)).withCht { s.cht with waiting := s.cht.waiting ++ [req] }, id)

/-! ## The Stripe Cache -/

/-- Requester classes of R297. -/
inductive CacheClass where
  | hostWrite
  | hostRead
  | rebuild
  | scrub
  | peer
  | deadReckoning
deriving DecidableEq, Repr

/-- The way mask of a class (R298). -/
def State.classMask (s : State) (c : CacheClass) : Nat :=
  match c with
  | .hostWrite => s.regField Reg.sccMask0 0 16
  | .hostRead => s.regField Reg.sccMask0 16 16
  | .rebuild => s.regField Reg.sccMask1 0 16
  | .scrub => s.regField Reg.sccMask1 16 16
  | .peer => s.regField Reg.sccMask2 0 16
  | .deadReckoning => s.regField Reg.sccMask2 16 16

/-- The mix value of a key (R294). -/
def keyHash (k : LineKey) : Nat :=
  (mix64 (BitVec.ofNat 64 k.stripe) (BitVec.ofNat 64 (k.set.toNat * 2 ^ 16 + k.frag * 2 ^ 8 + k.row))).toNat

/-- The cache set of a key (R294). -/
def keySet (k : LineKey) : Nat := keyHash k % 1536

/-- The first tier slot of a key (R304): channel h mod 8, tier set floor(h / 8) mod 1984, four slots. -/
def keyTier (k : LineKey) : Nat := (keyHash k % 8 * 1984 + keyHash k / 8 % 1984) * 4

/-- The channel of a tier slot. -/
def tierChannel (t : Nat) : Nat := t / 4 / 1984

/-- The key of a sector; a REPLICA row has one line, under fragment 0 (R294). -/
def State.keyOf (s : State) (set : BitVec 6) (stripe frag row : Nat) : LineKey :=
  { set := set, stripe := stripe, row := row,
    frag := if (s.setProfile (s.set set.toNat)).typ = .replica then 0 else frag }

/-- Whether lookups find a line (R295). -/
def Line.visible (l : Line) : Bool :=
  match l.state with
  | .clean | .dirty => !l.stale
  | .filling => !l.doa && !l.stale
  | _ => false

/-- A line of the Stripe Cache. -/
def State.line (s : State) (k : Nat) : Line := Tab.get s.scc.lines Line.at0 k

/-- A line replaced. -/
def State.setLine (s : State) (k : Nat) (l : Line) : State :=
  s.withScc { s.scc with lines := Tab.set s.scc.lines Line.at0 k l }

/-- A slot of the victim tier. -/
def State.slot (s : State) (t : Nat) : Line := Tab.get s.scc.tier Line.at0 t

/-- A slot replaced. -/
def State.setSlot (s : State) (t : Nat) (l : Line) : State :=
  s.withScc { s.scc with tier := Tab.set s.scc.tier Line.at0 t l }

/-- The visible line of a key in the Stripe Cache. -/
def State.findLine (s : State) (k : LineKey) : Option Nat :=
  ((List.range 16).map (fun w => keySet k * 16 + w)).find? (fun i => (s.line i).visible && (s.line i).key = k)

/-- The visible slot of a key in the victim tier. -/
def State.findSlot (s : State) (k : LineKey) : Option Nat :=
  ((List.range 4).map (fun i => keyTier k + i)).find? (fun t => (s.slot t).visible && (s.slot t).key = k)

/-- Tier writes pending on a channel (R305). -/
def State.tierPending (s : State) (ch : Nat) : Nat :=
  (s.scc.tier.filter (fun e => decide (tierChannel e.1 = ch) && e.2.pin)).length

/-- An evicted line offered to the victim tier (R305); answers whether it was accepted. -/
def State.offerTier (s : State) (l : Line) : State × Bool :=
  let base := keyTier l.key
  let ch := tierChannel base
  let slots := (List.range 4).map (base + ·)
  let declined := (s.count32 Reg.sccVtDeclines 1, false)
  if !s.scc.vtReady || !s.regBit Reg.sccVt 0 || (l.state = .clean && !s.regBit Reg.sccVt 1) then declined
  else if ch ∈ s.map.fenced then declined
  else if s.regField Reg.sccVt 8 8 < s.tierPending ch then declined
  else
    let put (t : Nat) : State × Bool :=
      let s := s.withScc { s.scc with order := s.scc.order + 1 }
      ((s.setSlot t { l with pin := true, order := s.scc.order }).count32 Reg.sccVtAccepts 1, true)
    match slots.find? (fun t => (s.slot t).state = .invalid) with
    | some t => put t
    | none =>
      match slots.foldl (fun m t => if (s.slot t).state = .clean && !(s.slot t).pin then (match m with
          | none => some t
          | some u => if (s.slot t).order < (s.slot u).order then some t else some u) else m) (none : Option Nat) with
      | some t => put t
      | none => declined

/-- The first DIRTY way that the tier accepts, with the state after the offers; a declined one asks for a stripe commit of its row
(R299). -/
def State.offerDirty (s : State) : List Nat → State × Option Nat
  | [] => (s, none)
  | i :: rest =>
    let (s, ok) := (s.count64 Reg.sccEvictDirty 1).offerTier (s.line i)
    if ok then (s, some i)
    else (s.withScc { s.scc with asks := withElem s.scc.asks (s.line i).key }).offerDirty rest

/-- The rounds of R299 over the candidate ways. -/
def State.allocRounds (s : State) : Nat → List Nat → State × Option Nat
  | 0, _ => (s, none)
  | n + 1, cand =>
    match cand.find? (fun i => (s.line i).state = .clean && (s.line i).age = 3) with
    | some i =>
      let l := s.line i
      if l.coldInsert && !l.hit then (s, some i) else ((s.offerTier l).1, some i)
    | none =>
      let dirty := cand.filter (fun i => (s.line i).state = .dirty && (s.line i).age = 3)
      match s.offerDirty dirty with
      | (s, some i) => (s, some i)
      | (s, none) =>
        let cand := cand.filter (fun i => i ∉ dirty)
        let s := cand.foldl (fun s i => s.setLine i { s.line i with age := min 3 ((s.line i).age + 1) }) s
        s.allocRounds n cand

/-- A way of a key's cache set allocated under a mask (R299); the way is left INVALID for its new line. -/
def State.allocate (s : State) (k : LineKey) (mask : Nat) : State × Option Nat :=
  let ways := ((List.range 16).filter (fun w => bitOf mask w)).map (fun w => keySet k * 16 + w)
  let cand := ways.filter (fun i =>
    let l := s.line i
    decide (l.state ≠ .filling) && decide (l.state ≠ .pending) && !l.pin)
  match cand.find? (fun i => (s.line i).state = .invalid) with
  | some i => (s, some i)
  | none =>
    match s.allocRounds 4 cand with
    | (s, some i) => (s.setLine i Line.at0, some i)
    | (s, none) => (s, none)

/-- A line put into a way. -/
def State.putLine (s : State) (i : Nat) (k : LineKey) (st : LineState) (data : Bytes) (q : Seal) (age : Nat)
    (pre : Bool) (io : Option Nat) : State :=
  s.setLine i { Line.at0 with state := st, key := k, data := data, sl := q, age := age, prefetched := pre,
                              coldInsert := decide (age = 3), io := io }

/-- The visible line of a key in either tier invalidated, a fill of it marked DOA (R301, R313). -/
def State.dropKey (s : State) (k : LineKey) : State :=
  s.withScc (s.scc.invalidate (fun l => l.visible && l.key = k))

/-- Whether a CLEAN line of a version may take a key (R504). -/
def State.mayInsert (s : State) (k : LineKey) (q : Seal) : Bool :=
  let ok (l : Line) : Bool := match l.state with
    | .dirty => false
    | .clean => verLt (sealVersion l.sl) (sealVersion q)
    | _ => true
  match s.findLine k, s.findSlot k with
  | some i, _ => ok (s.line i)
  | none, some t => ok (s.slot t)
  | none, none => true

/-- A CLEAN line inserted for a class (R297, R300, R504). -/
def State.insertClean (s : State) (k : LineKey) (c : CacheClass) (data : Bytes) (q : Seal) (age : Nat) : State :=
  if !s.mayInsert k q then s
  else
    match (s.dropKey k).allocate k (s.classMask c) with
    | (s, some i) => s.putLine i k .clean data q age false none
    | (s, none) => s.count32 Reg.sccBypass 1

/-- A fill started for a read: a FILLING line that carries the read's id, or no line at all (R300). -/
def State.startFill (s : State) (k : LineKey) (c : CacheClass) (age : Nat) (pre : Bool) (id : Nat) : State :=
  match s.allocate k (s.classMask c) with
  | (s, some i) => s.putLine i k .filling [] Seal.zero age pre (some id)
  | (s, none) => s.count32 Reg.sccBypass 1

/-- The line that a read's id fills. -/
def State.fillOf (s : State) (id : Nat) : Option Nat :=
  (s.scc.lines.find? (fun e => e.2.state = .filling && e.2.io = some id)).map (fun e => e.1)

/-- A fill ended: CLEAN with its data, or freed when it is DOA or failed (R295, R313). -/
def State.endFill (s : State) (id : Nat) (x : Option Sector) : State :=
  match s.fillOf id with
  | none => s
  | some i =>
    let l := s.line i
    if l.doa then (s.setLine i Line.at0).count32 Reg.sccDoa 1
    else match x with
      | none => s.setLine i Line.at0
      | some x => s.setLine i { l with state := .clean, data := x.data, sl := x.sl, io := none }

/-- The newest committed, unretired DATA record's sector of a place, with its record (R141, R302). -/
def State.newestData (s : State) (set : BitVec 6) (stripe frag row : Nat) : Option (Bytes × Rec) :=
  let inc := (s.set set.toNat).incarnation
  (s.log.recs.filter (fun r => r.typ = .data && r.set = set && r.stripe = stripe && r.incarnation = inc &&
      r.status = .committed && !r.retired && r.fragMask.getLsbD frag && decide (r.rowFirst ≤ row) &&
      decide (row < r.rowFirst + r.rowCount))).foldl (fun m r =>
    let d := if r.zero then some (fill 4096 0)
      else (r.sectors.find? (fun x => x.1 = frag && x.2.1 = row)).map (fun x => x.2.2)
    match d, m with
    | none, m => m
    | some d, none => some (d, r)
    | some d, some (e, q) =>
      if verLt (r.watch.toNat, r.generation.toNat) (q.watch.toNat, q.generation.toNat) then some (e, q)
      else some (d, r)) none

/-- What a lookup of a key finds. -/
inductive CacheHit where
  | data (b : Bytes) (q : Seal)
  | joined (id : Nat)
  | miss
deriving DecidableEq, Repr

/-- A tier line moving back into the Stripe Cache under a mask: it is visible in the tier until the move completes (R305,
R306). -/
def State.recall (s : State) (k : LineKey) (t mask : Nat) : State :=
  let l := s.slot t
  if l.pin then s
  else match s.allocate k mask with
    | (s, some i) =>
      let s := (s.setLine i { l with stale := true, pin := true }).setSlot t { l with pin := true }
      s.withScc { s.scc with moving := s.scc.moving ++ [(t, i)] }
    | (s, none) => s.count32 Reg.sccBypass 1

/-- A lookup of a sector (R295, R299, R306): the Stripe Cache, then the tier, then a DATA record that holds a sector without
a line. `keepAge` for rebuild, scrub and STREAM. -/
def State.cacheLookup (s : State) (k : LineKey) (c : CacheClass) (keepAge : Bool) : State × CacheHit :=
  match s.findLine k with
  | some i =>
    let l := s.line i
    let s := s.count64 Reg.sccHits 1
    let s := if l.prefetched && decide (c = .hostRead) then s.count64 Reg.sccPfUsed 1 else s
    let s := s.setLine i { l with age := if keepAge then l.age else 0, hit := true,
                                  prefetched := l.prefetched && decide (c ≠ .hostRead) }
    (match l.state, l.io with
      | .filling, some id => (s, .joined id)
      | _, _ => (s, .data l.data l.sl))
  | none =>
    if c = .rebuild ∨ c = .scrub then (s.count64 Reg.sccMisses 1, .miss)
    else match s.findSlot k with
      | some t =>
        let l := s.slot t
        ((s.count64 Reg.sccVtHits 1).recall k t (s.classMask c), .data l.data l.sl)
      | none =>
        let s := s.count64 Reg.sccMisses 1
        if k ∈ s.scc.noLine then
          match s.newestData k.set k.stripe k.frag k.row with
          | some (d, r) => (s, .data d { Seal.zero with watch := r.watch, generation := r.generation })
          | none => (s, .miss)
        else (s, .miss)

/-- Whether a sector is held DIRTY, with its data (R302). -/
def State.dirtyData (s : State) (k : LineKey) : Option Bytes :=
  match s.findLine k, s.findSlot k with
  | some i, _ => if (s.line i).state = .dirty then some (s.line i).data else none
  | none, some t => if (s.slot t).state = .dirty then some (s.slot t).data else none
  | none, none => none

/-- A sector held CLEAN, with its seal (R51, R302). -/
def State.cleanData (s : State) (k : LineKey) : Option (Bytes × Seal) :=
  match s.findLine k, s.findSlot k with
  | some i, _ => if (s.line i).state = .clean then some ((s.line i).data, (s.line i).sl) else none
  | none, some t => if (s.slot t).state = .clean then some ((s.slot t).data, (s.slot t).sl) else none
  | none, none => none

/-- DIRTY lines of a key at or below a version become CLEAN (R302). -/
def State.cleanKey (s : State) (k : LineKey) (v : Version) (q : Seal) : State :=
  let f (l : Line) : Line :=
    if l.state = .dirty ∧ l.key = k ∧ sealVersion l.sl = v then { l with state := .clean, sl := q } else l
  s.withScc { s.scc with lines := Tab.mapV s.scc.lines Line.at0 (fun _ l => f l),
                         tier := Tab.mapV s.scc.tier Line.at0 (fun _ l => f l),
                         noLine := without s.scc.noLine k }

end Sys2Proof.Machine
end

