-- ==== Sys2Proof/Machine/Rows.lean ====
section
/-! DEFINITION. Reading a row: reconstructions and whole-row reads (spec/06_degraded_and_rebuild.md R172 to R179, R194;
spec/02_codes_and_seals.md R53, R54, R66 to R70), repairs, and the delivery of read data to what waits for it. -/

namespace Sys2Proof.Machine

/-! ## Channels and read data -/

/-- A mover channel. -/
def State.chan (s : State) (n : Nat) : Channel := Tab.get s.dmv.chans (Channel.at0 n) n

/-- A mover channel replaced. -/
def State.setChan (s : State) (n : Nat) (c : Channel) : State :=
  s.withDmv { s.dmv with chans := Tab.set s.dmv.chans (Channel.at0 n) n c }

/-- The request line of a channel (R265). -/
def State.chanLine (s : State) (n : Nat) : Nat := s.regField (Reg.dmvChCfg n) 0 3

/-- The enabled channel of a line with the fewest transfers queued, the lowest-numbered on a tie (R266). -/
def State.lineChannel (s : State) (line : Nat) : Option Nat :=
  ((List.range 64).filter (fun n => (s.chan n).enable && s.chanLine n = line)).foldl (fun m n => match m with
    | none => some n
    | some k => if (s.chan n).queue.length < (s.chan k).queue.length then some n else some k) none

/-- A transfer assigned to a channel of a line (R266); it waits while the line has no enabled channel. -/
def State.queueTransfer (s : State) (line : Nat) (t : Transfer) : State :=
  match s.lineChannel line with
  | some n =>
    let c := s.chan n
    s.setChan n { c with queue := c.queue ++ [t], state := if c.state = .idle then .running else c.state }
  | none => s.withDmv { s.dmv with unassigned := s.dmv.unassigned ++ [(line, t)] }

/-- A transfer of nothing. -/
def Transfer.blank : Transfer :=
  { io := none, port := false, bytes := 0, srcs := [], srcPool := false, dsts := [], dstPool := false, asked := 0, got := [],
    moved := 0, tag := 0, next := 0, flush := false, held := [] }

/-- The first lost block and the span to the last one (R231). -/
def lostSpan (lost : List Nat) (lba blocks : Nat) : Nat × Nat :=
  match lost with
  | [] => (lba, blocks)
  | b :: rest =>
    let lo := rest.foldl min b
    (lo, rest.foldl max b - lo + 1)

/-- The data of a forwarded entry sent to the other side in FWD_DATA flits of up to 192 bytes (R401, R411). -/
def State.sendFwdData (s : State) (ref : Nat) (data : Bytes) : State :=
  (List.range ((data.length + 191) / 192)).foldl (fun s i => s.sendFlit 6 ref ((data.drop (192 * i)).take 192)) s

/-- The blocks of an I/O in order, as one run of bytes. -/
def Io.bytes (io : Io) : Bytes :=
  (List.range io.desc.blocks).flatMap (fun i =>
    match io.blocks.find? (fun b => decide (b.1 = io.desc.lba + i)) with
    | some b => b.2
    | none => fill 4096 0)

/-- A READ that the partner forwarded, gathered: its data goes back over the link, and the entry is done (R401). -/
def State.fwdGathered (s : State) (io : Io) : State :=
  let sp := lostSpan io.lost io.desc.lba io.desc.blocks
  if io.lost.isEmpty then (s.sendFwdData io.ref io.bytes).finishIo io stOk 0 sp.1 sp.2
  else s.finishIo io stMediaLost 0 sp.1 sp.2

/-- An I/O whose reads have all been answered: a READ's data goes to a mover channel (R265), a VERIFY ends (R218). -/
def State.ioGathered (s : State) (io : Io) : State :=
  match io.kind with
  | .read =>
    if io.fwd then s.fwdGathered io
    else
    let t : Transfer := { Transfer.blank with
      io := some io.id, port := s.ringPort (.data io.ring), bytes := io.desc.blocks * 4096, dsts := io.ranges,
      dstPool := decide (io.desc.mode = 2), got := io.blocks.map (fun b => ((b.1 - io.desc.lba) * 4096, b.2)) }
    s.queueTransfer (if io.desc.mode = 2 then 3 else 2) t
  | .verify =>
    let sp := lostSpan io.lost io.desc.lba io.desc.blocks
    s.finishIo io (if io.lost.isEmpty then stOk else stMediaLost) 0 sp.1 sp.2
  | _ => s

/-- An outstanding I/O replaced. -/
def State.setIo (s : State) (io : Io) : State := s.withIos (s.ios.map (fun j => if j.id = io.id then io else j))

/-- An I/O changed by the answer of a read: its data, or none when the block is lost. -/
def Io.answered (io : Io) (id : Nat) (res : Option Bytes) : Io :=
  let bs := (io.waits.filter (fun w => w.1 = id)).map (fun w => w.2)
  let io := { io with waits := io.waits.filter (fun w => w.1 ≠ id) }
  match res with
  | some d => { io with blocks := if io.kind = .verify then io.blocks else io.blocks ++ bs.map (fun b => (b, d)) }
  | none => { io with lost := io.lost ++ bs }

/-- The answer of a read given to every I/O that waits for it (R174, R295). -/
def State.answerIos (s : State) (id : Nat) (res : Option Bytes) : State :=
  (s.ios.filter (fun io => io.waits.any (fun w => w.1 = id))).foldl (fun s io =>
    let io := io.answered id res
    let s := s.setIo io
    if io.waits.isEmpty then s.ioGathered io else s) s

/-! ## Faults of read sectors -/

/-- The media fault source of a port's group: 0xA0 + n (R345). -/
def mediaBase : Nat := 0xA0

/-- A media or failure fault of a port. -/
def State.mediaFault (s : State) (p : Byte) (lvl : Level) (detail : Byte) : State := s.raisePort mediaBase p lvl detail false

/-- A link, engine or power fault of a port. -/
def State.linkFault (s : State) (p : Byte) (lvl : Level) (detail : Byte) : State := s.raisePort 0xB0 p lvl detail true

/-- The detail of R68 for a class of sector. -/
def SectorClass.detail : SectorClass → Byte
  | .corrupt => 1
  | .misdirected => 2
  | _ => 4

/-- A sector failure of a port reported (R68) and counted toward SEAL_LIMIT (R167). -/
def State.sectorFault (s : State) (p : Byte) (detail : Byte) : State :=
  (s.modPort p (fun v => { v with sealFails := v.sealFails + (if detail = 4 then 0 else 1) })).mediaFault p .warn detail

/-- The port of a fragment's bearing, DP0 when the chart gives none. -/
def State.fragPort (s : State) (set : BitVec 6) (rev : Revision) (stripe frag : Nat) : Byte :=
  match s.bearing set rev stripe frag with
  | .at p _ => p
  | .failed _ _ _ => 0

/-! ## Restore versions and repairs (R179, R180) -/

/-- The highest version among sectors. -/
def topVersion (g : List (Nat × Sector)) : Version := g.foldl (fun m x => verMax m (sealVersion x.2.sl)) (0, 0)

/-- The data fragments among sectors that carry a version, as a mask (R177). -/
def maskAt (p : Profile) (g : List (Nat × Sector)) (v : Version) : Word64 :=
  BitVec.ofNat 64 (maskOf ((g.filter (fun x => !p.isParity x.1 && decide (sealVersion x.2.sl = v))).map (fun x => x.1)))

/-- The parity version and mask that sectors of a row give (R67, R179); with no parity sector among them, those of the parity
that all k data sectors encode to, the highest data version and the fragments that carry it (R177 step 4). -/
def rowVersion (p : Profile) (g : List (Nat × Sector)) : Version × Word64 :=
  let chk := rowCheck p (g.map (fun x => (x.1, x.2.sl)))
  match chk.vp with
  | some v => (v, chk.mask.getD 0)
  | none =>
    let data := g.filter (fun x => !p.isParity x.1)
    (topVersion data, maskAt p data (topVersion data))

/-- ZERO and HOLDOVER for a restored sector (R179): those of a parity seal at the row's version, of any copy at it for REPLICA,
and of a sector at it when no parity sector was read. -/
def sealFlags (p : Profile) (g : List (Nat × Sector)) (vp : Version) : Bool × Bool :=
  let at? := g.filter (fun x => decide (sealVersion x.2.sl = vp))
  match (at?.find? (fun x => p.isParity x.1)).orElse (fun _ => at?.head?) with
  | some x => (x.2.sl.flags.getLsbD 2, x.2.sl.flags.getLsbD 3)
  | none => (false, false)

/-- The version one below (R179): GENERATION − 1, or the watch before with 0xFFFF_FFFF. -/
def verBefore (v : Version) : Version := if v.2 = 0 then (v.1 - 1, 2 ^ 32 - 1) else (v.1, v.2 - 1)

/-- The restore version of a fragment from the row's parity version and mask (R179). -/
def restoreVersion (p : Profile) (f : Nat) (vp : Version) (mask : Word64) : Version :=
  if p.typ = .replica ∨ p.isParity f ∨ mask.getLsbD f then vp else verBefore vp

/-- A sector with its restore version (R179): `fl` is ZERO and HOLDOVER of the parity seals. -/
def State.restoredSector (s : State) (set : BitVec 6) (rev : Revision) (stripe frag row : Nat) (data : Bytes) (vp : Version)
    (mask : Word64) (fl : Bool × Bool) (rebuilt repaired : Bool) : Sector :=
  let p := s.setProfile (s.set set.toNat)
  let z := fl.1 && (p.typ = .replica || p.isParity frag || mask.getLsbD frag)
  sealFor (s.placeOf set stripe frag row) rev.rev
    { zero := z, holdover := fl.2, replay := false, rebuilt := rebuilt, repaired := repaired }
    (restoreVersion p frag vp mask) mask data

/-- A repair or rebuild write of one sector (R179, R180), counted when it repairs. `fl` is ZERO and HOLDOVER of the parity
seals. -/
def State.restoreWrite (s : State) (set : BitVec 6) (rev : Revision) (stripe frag row : Nat) (data : Bytes) (vp : Version)
    (mask : Word64) (fl : Bool × Bool) (rebuilt : Bool) : State :=
  match s.bearing set rev stripe frag with
  | .failed _ _ _ => s
  | .at port dba =>
    let x := s.restoredSector set rev stripe frag row data vp mask fl rebuilt (!rebuilt)
    let s := if rebuilt then s else s.count64 Reg.gcsRbsRepairs 1
    (s.driveWrite port (dba + row) set stripe frag row x (if rebuilt then .rebuildWrite else .repair)).1

/-! ## Lost rows (R194) -/

/-- A MEDIA_LOST event record (R234). -/
def mediaLostRecord (set : BitVec 6) (lba : Nat) : EventRecord :=
  { EventRecord.blank 4 with setId := set.setWidth 8, lba := BitVec.ofNat 48 lba, count := 1 }

/-- The first MEDIA_LOST read of a row posts one record per block of its unavailable data fragments (R194). -/
def State.reportLost (s : State) (set : BitVec 6) (stripe row : Nat) (mask : Word64) : State :=
  let a := s.set set.toNat
  let k := (s.setProfile a).k
  if (stripe, row) ∈ a.lostPosted then s
  else
    let s := s.setSet set.toNat { a with lostPosted := a.lostPosted ++ [(stripe, row)] }
    ((List.range k).filter (fun f => mask.getLsbD f)).foldl (fun s f =>
      s.post (mediaLostRecord set (lbaOf k a.s stripe f row))) s

/-! ## Stripe commits that wait for reads -/

/-- A commit operation replaced. -/
def State.setCommit (s : State) (c : CommitOp) : State :=
  s.withCommits (s.commits.map (fun d => if d.id = c.id then c else d))

/-- A sector's row of a set cannot be brought to w − t durable fragments, or its inputs cannot be obtained: its records
cannot be retired and the set is preserved (R132, R502, R36). -/
def State.commitStuck (s : State) (c : CommitOp) : State := s.preserve c.set.toNat

/-- A pass queued for dispatch (R61). -/
def State.queuePass (s : State) (coeffs inputs : List Bytes) (rowOp commit : Option Nat) (n : Nat) : State :=
  let p : Pass := { id := s.nextId, coeffs := coeffs, inputs := inputs, rowOp := rowOp, commit := commit, bytes := n }
  (s.withNextId (s.nextId + 1)).withPasses (s.passes ++ [p])

/-! ## Row operations -/

/-- A row operation replaced. -/
def State.setRowOp (s : State) (o : RowOp) : State := s.withRowOps (s.rowOps.map (fun p => if p.id = o.id then o else p))

/-- A row operation removed. -/
def State.dropRowOp (s : State) (id : Nat) : State := s.withRowOps (s.rowOps.filter (fun o => o.id ≠ id))

/-- Whether the drive read that a row operation answers for is still outstanding. -/
def State.origOpen (s : State) (o : RowOp) : Bool :=
  s.dcmds.any (fun d => d.id = o.orig && !d.quarantined) || s.cht.waiting.any (fun r => r.id = o.orig)

/-- The rows that go to row arbitration (R177). -/
def State.arbitrate (s : State) (set : BitVec 6) (stripe row : Nat) : State :=
  s.withArbitrating (withElem s.arbitrating (set, stripe, row))

/-- The sector of a stripe commit's or intent-only write's drive write that is not done (R132): reads are served with it. -/
def State.openSector (s : State) (set : BitVec 6) (stripe f row : Nat) : Option Sector :=
  (s.dcmds.find? (fun d => decide (d.op = .write) && !d.quarantined && (match d.purpose with
    | .stripeCommit _ => true
    | _ => false) && decide (d.set = set) && decide (d.stripe = stripe) && decide (d.frag = f) && decide (d.row = row))).bind
    (fun d => d.sector)

/-- One read of a row operation: a sector whose drive write is not done (R132), a CLEAN line, or a drive read (R172 step 4). -/
def State.rowRead (s : State) (o : RowOp) (f : Nat) : State × RowOp :=
  if o.got.any (fun g => g.1 = f) ∨ f ∈ o.waiting then (s, o)
  else match s.openSector o.set o.stripe f o.row with
  | some x => (s, { o with got := o.got ++ [(f, x)] })
  | none => match s.cleanData (s.keyOf o.set o.stripe f o.row) with
    | some (d, q) =>
      if q.fragIndex.toNat = f ∧ q.version = 1 ∧ o.mode ≠ .verify then (s, { o with got := o.got ++ [(f, { data := d, sl := q })] })
      else
        let (s, _) := s.requestRead .deadReckoning o.set o.rev o.stripe f o.row (.reconstruct o.id)
        (s, { o with waiting := o.waiting ++ [f] })
    | none =>
      let (s, _) := s.requestRead .deadReckoning o.set o.rev o.stripe f o.row (.reconstruct o.id)
      (s, { o with waiting := o.waiting ++ [f] })

/-- The reads of a list of fragments. -/
def State.rowReads (s : State) (o : RowOp) : List Nat → State × RowOp
  | [] => (s, o)
  | f :: rest =>
    let (s, o) := s.rowRead o f
    s.rowReads o rest

/-- A cluster. -/
def State.cluster (s : State) (c : Bool) : Cluster := Tab.get s.clusters Cluster.at0 (ofBool c)

/-- A cluster changed. -/
def State.modCluster (s : State) (c : Bool) (f : Cluster → Cluster) : State :=
  s.withClusters (Tab.modify s.clusters Cluster.at0 (ofBool c) f)

/-- The passes queued on a cluster's engines. -/
def Cluster.queued (c : Cluster) : Nat := (c.queues.map (fun e => e.2.length)).foldl (· + ·) 0

/-- The engines of a cluster in service: those not fenced, and CE-S in the place of the one it replaces once it has passed its
self-test (R59). -/
def Cluster.healthy (c : Cluster) : List Nat :=
  (List.range 8).filter (fun e => e ∉ c.fenced) ++ (if c.spareFor.isSome && c.spareOk && !c.spareTesting then [8] else [])

/-- The present cluster with a healthy engine and the shorter queue (R61). -/
def State.shorterCluster (s : State) : Option Bool :=
  let ok (c : Bool) : Bool := decide (ofBool c < Config.clusters s.part) && !(s.cluster c).healthy.isEmpty
  if ok false && ok true then some (decide ((s.cluster true).queued < (s.cluster false).queued))
  else if ok false then some false else if ok true then some true else none

/-- The decode-matrix lookup of a row operation (R55, R61): a hit, or a solve queued unless sixteen wait or the key is
queued already; the operation waits until its cluster's cache holds the key. -/
def State.matrixLookup (s : State) (o : RowOp) : State × RowOp :=
  let c := (s.shorterCluster).getD false
  let key := ((s.set o.set.toNat).profile, o.mask)
  let v := s.cluster c
  if key ∈ v.cache then
    (s.modCluster c (fun v => { v with cache := without v.cache key ++ [key] }), { o with cluster := c, solveWait := false })
  else if key ∈ v.solves ∨ 16 ≤ v.solves.length then (s, { o with cluster := c, solveWait := true })
  else (s.modCluster c (fun v => { v with solves := v.solves ++ [key] }), { o with cluster := c, solveWait := true })

/-- What the pass of a reconstruction produces, in order: the fragment, the verifier's prediction, and the fragments whose
sectors failed and will be repaired (R173, R68). -/
def RowOp.targets (o : RowOp) : List Nat :=
  [o.frag] ++ o.verifier.toList ++ (o.bad.filter (fun f => f ≠ o.frag))

/-- The write of a decoded or copied fragment to its pending bearing (R181). -/
def State.rebuildStore (s : State) (o : RowOp) (data : Bytes) : State :=
  match (s.set o.set.toNat).pending with
  | none => s
  | some rev =>
    if o.touched then s
    else
      let vp := o.vp.getD (0, 0)
      s.restoreWrite o.set rev o.stripe o.frag o.row data vp o.vmask (sealFlags (s.setProfile (s.set o.set.toNat)) o.got vp) true

/-- The answer of a read to a stripe commit that waits for it: all reads answered leads to its pass, a lost sector stops
it (R131, R502). `ready` forms the pass. -/
def State.answerCommits (s : State) (ready : State → CommitOp → State) (id : Nat) (res : Option Sector) : State :=
  s.commits.foldl (fun s c =>
    match c.waits.find? (fun w => w.1 = id) with
    | none => s
    | some w =>
      match res with
      | none => s.commitStuck c
      | some x =>
        let c := { c with waits := c.waits.filter (fun v => v.1 ≠ id), got := c.got ++ [(w.2.1, w.2.2, x)] }
        let s := s.setCommit c
        if c.waits.isEmpty then ready s c else s) s

/-- The stream of a fragment over a commit's rows. -/
def CommitOp.stream (c : CommitOp) (pick : Nat → Bytes) : Bytes :=
  ((List.range c.rowCount).map (fun i => pick (c.rowFirst + i))).flatten

/-- The new sector of a commit at a place. -/
def CommitOp.newAt (c : CommitOp) (f r : Nat) : Option Bytes :=
  (c.data.find? (fun d => d.frag = f && d.row = r)).map (fun d => d.data)

/-- The read sector of a commit at a place. -/
def CommitOp.gotAt (c : CommitOp) (f r : Nat) : Option Bytes :=
  (c.got.find? (fun d => d.1 = f && d.2.1 = r)).map (fun d => d.2.2.data)

/-- The data fragments that a commit writes. -/
def CommitOp.newFrags (c : CommitOp) : List Nat := (c.data.map (fun d => d.frag)).eraseDups

/-- The pass of a commit whose inputs are all present (R51, R57): encoded from the k data fragments, or the old parity
changed by the generator applied to old and new data. -/
def State.commitPass (s : State) (c : CommitOp) : State :=
  let p := s.setProfile (s.set c.set.toNat)
  let n := c.rowCount * 4096
  let zero := fill 4096 0
  if c.rmw then
    let fs := c.newFrags
    let inputs := p.parities.map (fun f => c.stream (fun r => (c.gotAt f r).getD zero)) ++
      fs.map (fun f => c.stream (fun r => (c.gotAt f r).getD zero)) ++
      fs.map (fun f => c.stream (fun r => (c.newAt f r).getD zero))
    let coeffs := p.parities.map (fun f =>
      gfUnit p.parities.length (f - p.k) ++ fs.map (fun i => byteAt (p.genRow f) i) ++
        fs.map (fun i => byteAt (p.genRow f) i))
    s.queuePass coeffs inputs none (some c.id) n
  else
    let inputs := (List.range p.k).map (fun f => c.stream (fun r => ((c.newAt f r).orElse (fun _ => c.gotAt f r)).getD zero))
    s.queuePass (p.parities.map p.genRow) inputs none (some c.id) n

/-- Whether the sectors that read-modify-write read pass test 7 in every row (R67, R70). -/
def State.commitRowsOk (s : State) (c : CommitOp) : Bool :=
  let p := s.setProfile (s.set c.set.toNat)
  (List.range c.rowCount).all (fun i =>
    let k := rowCheck p ((c.got.filter (fun g => g.2.1 = c.rowFirst + i)).map (fun g => (g.1, g.2.2.sl)))
    k.stale.isEmpty && !k.inconsistent)

/-! ## Word errors of the caches (R316, R55, R60) -/

/-- The sector of a DIRTY line that lost its place, put back into the Stripe Cache from its DATA record; with no way free it stays
without a line and is served from its record (R197, R302, R306, R316). -/
def State.restoreDirty (s : State) (l : Line) : State :=
  match s.newestData l.key.set l.key.stripe l.key.frag l.key.row with
  | none => s
  | some (d, _) =>
    match s.allocate l.key (s.classMask .hostWrite) with
    | (s, some i) => s.putLine i l.key .dirty d l.sl 0 false none
    | (s, none) => s.withScc { s.scc with noLine := withElem s.scc.noLine l.key }

/-- A word error in a way of the Stripe Cache (R316): corrected; a line dropped, a write's line taking a new way; a DIRTY line
reloaded from its DATA record. -/
def State.lineError (s : State) (i : Nat) (corrected : Bool) : State :=
  let l := s.line i
  if corrected then s.raise 0x90 .note 1
  else match l.state with
    | .invalid => s
    | .clean | .filling => (s.setLine i Line.at0).raise 0x90 .note 2
    | .pending =>
      let s := match (s.setLine i Line.at0).allocate l.key (s.classMask .hostWrite) with
        | (s, some j) => s.setLine j l
        | (s, none) => s.withScc { s.scc with noLine := withElem s.scc.noLine l.key }
      s.raise 0x90 .note 2
    | .dirty => ((s.setLine i Line.at0).restoreDirty l).raise 0x90 .warn 3

/-- A word error or an address-stamp mismatch in a slot of the victim tier (R316). -/
def State.slotError (s : State) (t : Nat) (stamp : Bool) : State :=
  let l := s.slot t
  match l.state with
  | .clean => (s.setSlot t Line.at0).raise 0x91 .note (if stamp then 3 else 1)
  | .dirty => ((s.setSlot t Line.at0).restoreDirty l).raise 0x91 .warn (if stamp then 3 else 2)
  | _ => s

/-- A word error in a decode-matrix cache entry (R55, R60): the entry is dropped, so that its lookup misses. -/
def State.matrixError (s : State) (c : Bool) (key : BitVec 6 × Word64) : State :=
  if key ∈ (s.cluster c).cache then
    (s.modCluster c (fun v => { v with cache := without v.cache key })).raise (BitVec.ofNat 8 (0x4A + 0x10 * ofBool c)) .note 4
  else s

/-- The word errors that a command met, each handled before the command goes on. -/
def State.wordErrors (s : State) (errs : List WordError) : State :=
  errs.foldl (fun s e => match e with
    | .line i corrected => s.lineError i corrected
    | .slot t stamp => s.slotError t stamp
    | .matrix c p m => s.matrixError c (p, m)) s

end Sys2Proof.Machine
end

