-- ==== Sys2Proof/Machine/RowOps.lean ====
section
/-! DEFINITION. The progress of stripe commits and of row operations: what happens when the sectors they wait for have
arrived (spec/02 R67, R69, R70, R502; spec/06 R172, R173, R177, R194; spec/04 R131, R132). -/

namespace Sys2Proof.Machine

/-! ## Stripe commits -/

/-- The reads of a commit's reconstruct-write: every data sector of its rows that it does not write (R51). -/
def State.commitReads (s : State) (c : CommitOp) : List (Nat × Nat) → State × CommitOp
  | [] => (s, c)
  | (f, r) :: rest =>
    match s.cleanData (s.keyOf c.set c.stripe f r) with
    | some (d, q) => s.commitReads { c with got := c.got ++ [(f, r, { data := d, sl := q })] } rest
    | none =>
      let (s, id) := s.requestRead .hostIo c.set c.rev c.stripe f r (.commitRead c.id)
      s.commitReads { c with waits := c.waits ++ [(id, f, r)] } rest

/-- The places of a list of fragments over a commit's rows. -/
def CommitOp.places (c : CommitOp) (fs : List Nat) : List (Nat × Nat) :=
  fs.flatMap (fun f => (List.range c.rowCount).map (fun i => (f, c.rowFirst + i)))

/-- The data fragments that a commit does not write. -/
def CommitOp.oldFrags (c : CommitOp) (k : Nat) : List Nat := (List.range k).filter (fun f => f ∉ c.newFrags)

/-- The drive writes of a record issued (R121 step 2, R132): its ids kept in the record. A row that keeps fewer than w − t
durable fragments stops the commit. -/
def State.commitStore (s : State) (c : CommitOp) (seq : Nat) : State :=
  let a := s.set c.set.toNat
  let p := s.setProfile a
  match s.stripeBearings c.set c.rev c.stripe .hostIo with
  | (s, none) => s
  | (s, some bs) =>
    let rows := (List.range c.rowCount).map (c.rowFirst + ·)
    let xs : List (Nat × Nat × Sector) :=
      c.data.map (fun d => (d.frag, d.row, sealFor (s.placeOf c.set c.stripe d.frag d.row) c.rev.rev
        (SealFlags.plain d.zero d.holdover) d.ver 0 d.data)) ++
      c.parity.map (fun d => (d.1, d.2.1, sealFor (s.placeOf c.set c.stripe d.1 d.2.1) c.rev.rev
        (SealFlags.plain c.zero c.holdover) c.vp c.lwm d.2.2))
    let out := xs.foldl (fun (acc : State × List Nat × List Nat) x =>
      let b := bs.getD x.1 (0, 0)
      match acc.1.driveWrite b.1 (b.2 + x.2.1) c.set c.stripe x.1 x.2.1 x.2.2 (.stripeCommit seq) with
      | (s, some id) => (s, acc.2.1 ++ [id], acc.2.2)
      | (s, none) => (s, acc.2.1, acc.2.2 ++ [x.2.1])) (s, [], [])
    let s := out.1.modRec seq (fun r => { r with openWrites := out.2.1 })
    let weak := rows.any (fun r =>
      let gone := (bs.filter (fun b => !s.portTakesWrite b.1 || (s.port b.1).failed)).length
      decide (0 < (out.2.2.filter (fun q => q = r)).length) && decide (p.tol < gone))
    if weak then s.commitStuck c else s

/-- Parity computed: an intent-only write's drive writes follow; a stripe commit appends its COMMIT record, which releases
the reserve of the DATA records it covers (R131, R135). -/
def State.commitCoded (s : State) (c : CommitOp) (parity : List (Nat × Nat × Bytes)) : State :=
  let c := { c with parity := parity }
  match c.intent with
  | some seq => (s.setCommit c).commitStore c seq
  | none =>
    let s := s.withLog { s.log with recs := s.log.recs.map (fun r =>
      if r.seq ∈ c.dataRecs then { r with reserve := 0 } else r) }
    let seq := s.log.nextSeq
    let a := s.set c.set.toNat
    let s := s.appendRec { Rec.blank .commit (if c.encode then 1 else 2 + 64 * parity.length) with
      set := c.set, profile := a.profile, rowFirst := c.rowFirst, rowCount := c.rowCount, incarnation := a.incarnation,
      generation := BitVec.ofNat 32 c.vp.2, watch := BitVec.ofNat 48 c.vp.1, stripe := c.stripe,
      fragMask := if c.encode then 0 else BitVec.ofNat 64 (maskOf ((parity.map (fun x => x.1)).eraseDups)),
      lwm := c.lwm, encode := c.encode, holdover := c.holdover, sectors := if c.encode then [] else parity,
      names := c.dataRecs, fixNs := s.wch.fixNs }
    s.setCommit { c with record := some seq }

/-- A commit that leaves read-modify-write for reconstruct-write (R502): a missing sector of that method is decoded. -/
def State.commitToRw (s : State) (c : CommitOp) : State :=
  let c := { c with rmw := false, tried := true, got := [], waits := [] }
  let (s, c) := s.commitReads c (c.places (c.oldFrags (s.setProfile (s.set c.set.toNat)).k))
  let s := s.setCommit c
  if c.waits.isEmpty then s.commitPass c else s

/-- A commit whose reads have been answered (R51, R502): read-modify-write falls back to reconstruct-write when its sectors
fail test 7; REPLICA copies its data; otherwise its coding pass is queued. -/
def State.commitReady (s : State) (c : CommitOp) : State :=
  let p := s.setProfile (s.set c.set.toNat)
  if c.rmw && !s.commitRowsOk c then s.commitToRw c
  else if p.typ = .replica then
    s.commitCoded c ((p.parities).flatMap (fun f => c.data.map (fun d => (f, d.row, d.data))))
  else s.commitPass c

/-- Whether a sector that a commit's method needs and cannot read makes it take the other method (R502): read-modify-write
always, since reconstruct-write can decode; reconstruct-write only once, when read-modify-write can obtain every sector. -/
def State.commitSwitches (s : State) (c : CommitOp) : Bool :=
  c.rmw || (!c.tried && !(c.newFrags ++ (s.setProfile (s.set c.set.toNat)).parities).any (fun f =>
    s.fragOut c.set c.rev c.stripe f))

/-- The other method taken (R502). -/
def State.commitSwitch (s : State) (c : CommitOp) : State :=
  if c.rmw then s.commitToRw c
  else
    let c := { c with rmw := true, tried := true, got := [], waits := [] }
    let (s, c) := s.commitReads c (c.places (c.newFrags ++ (s.setProfile (s.set c.set.toNat)).parities))
    let s := s.setCommit c
    if c.waits.isEmpty then s.commitReady c else s

/-- The commit that a read serves, when it takes the other method because the read gives no sector. -/
def State.commitLeaves (s : State) (p : Purpose) : Option CommitOp :=
  match p with
  | .commitRead id => (s.commits.find? (fun c => decide (c.id = id))).filter (fun c => s.commitSwitches c)
  | _ => none

/-- SET_READ_PRESERVED with every block read or lost (R253, R231): the blocks written to its buffer but the lost ones, then the
reply, MEDIA_LOST when blocks are lost. -/
def State.deliverPreserved (s : State) (d : Deferred) : State :=
  let lba := leAt d.packet 0x18 6
  let n := leAt d.packet 0x14 2
  let addr := leAt d.packet 0x20 8
  let out := d.blocks.foldl (fun (acc : State × Bool) b =>
    let pkt := d.packet.take 0x20 ++ leBytes 8 (addr + (b.1 - lba) * 4096) ++ d.packet.drop 0x28
    let x := acc.1.writeBuffer d.src pkt 0x20 b.2
    (x.1, acc.2 && x.2)) (s, true)
  let s := out.1
  if !out.2 then s.endDeferred d stContained 1 []
  else match (List.range n).filter (fun i => lba + i ∈ d.lost) with
    | [] => s.endDeferred d stOk 0 []
    | i :: rest =>
      let (s, b) := s.freeByte
      s.endDeferred d stMediaLost b (resultOf [(0x18, 6, lba + i), (0x20, 4, (rest.getLastD i) - i + 1)])

/-- A read answered for SET_READ_PRESERVED. -/
def State.answerPreserved (s : State) (id : Nat) (res : Option Bytes) : State :=
  match s.interp.deferred.find? (fun d => d.waits.any (fun w => w.1 = id)) with
  | none => s
  | some d =>
    let mine := (d.waits.filter (fun w => w.1 = id)).map (fun w => w.2)
    let d := { d with
      waits := d.waits.filter (fun w => w.1 ≠ id),
      blocks := (match res with
        | some b => d.blocks ++ mine.map (fun x => (x, b))
        | none => d.blocks),
      lost := if res.isNone then d.lost ++ mine else d.lost }
    let s := s.withInterp { s.interp with deferred := s.interp.deferred.map (fun e => if e.src = d.src then d else e) }
    if d.waits.isEmpty then s.deliverPreserved d else s

/-- A read answered: every I/O and every stripe commit that waits for it goes on. -/
def State.answer (s : State) (id : Nat) (res : Option Sector) : State :=
  ((s.answerIos id (res.map (fun x => x.data))).answerCommits State.commitReady id res).answerPreserved id
    (res.map (fun x => x.data))

/-! ## Row operations -/

/-- A row found lost by rebuild (R186). -/
def State.rebuildLost (s : State) (o : RowOp) : State :=
  let a := s.set o.set.toNat
  let p := s.setProfile a
  let port := match (List.range 32).findSome? (fun i => Tab.get (a.pending.getD Revision.at0).retire none i) with
    | some q => q
    | none => s.fragPort o.set o.rev o.stripe o.frag
  let s := (s.mediaFault port .warn 0x20).count64 Reg.gcsRbsLostRows 1
  let s := s.modSet o.set.toNat (fun a => { a with lostRows := a.lostRows + 1 })
  ((List.range p.k).filter (fun f => o.mask.getLsbD f)).foldl (fun s f =>
    s.post (mediaLostRecord o.set (lbaOf p.k a.s o.stripe f o.row))) s

/-- What asked for a lost row is told (R194, R186): catch-up takes the extent again, which stays unavailable (R342 step 6). -/
def State.lostRow (s : State) (o : RowOp) : State :=
  match o.purpose with
  | .rebuild => s.rebuildLost o
  | .catchup => s.modPort (s.fragPort o.set o.rev o.stripe o.frag) (fun v => { v with catchupNext := 0 })
  | _ => ((s.reportLost o.set o.stripe o.row o.mask).endFill o.orig none).answer o.orig none

/-- A row that cannot be decoded: a read whose original is still outstanding keeps waiting (R172), any other is lost
(R194, R186). -/
def State.loseRow (s : State) (o : RowOp) : State :=
  let s := s.dropRowOp o.id
  if s.origOpen o then s else s.lostRow o

/-- The survivors, the verifier and the decode matrix of a reconstruction requested (R172 steps 2 to 5). -/
def State.rowChoose (s : State) (o : RowOp) : State :=
  let p := s.setProfile (s.set o.set.toNat)
  match p.choose o.mask o.stripe o.row with
  | none => s.loseRow o
  | some ch =>
    let reads := ch.reads
    let ver := if o.purpose = .rebuild ∨ o.purpose = .catchup then none
      else p.frags.find? (fun f => !o.mask.getLsbD f && decide (f ∉ reads))
    let o := { o with mode := .decode, chosen := reads, verifier := ver }
    let (s, o) := s.rowReads o (reads ++ ver.toList)
    let (s, o) := if p.needsSolve ch o.frag then s.matrixLookup o 
      else (s, { o with solveWait := false, cluster := (s.shorterCluster).getD false })
    s.setRowOp o

/-- A row operation by id. -/
def State.findRowOp (s : State) (id : Nat) : Option RowOp := s.rowOps.find? (fun o => o.id = id)

/-- The AGE of the lines of a reconstruction: 3 when it serves a descriptor with STREAM set, else 2 (R297). -/
def State.rowAge (s : State) (o : RowOp) : Nat :=
  match o.purpose with
  | .hostRead id => if s.ios.any (fun io => decide (io.id = id) && io.desc.flags.getLsbD 3) then 3 else 2
  | _ => 2

/-- The lines that dead reckoning inserts: survivors and verifier (R297). -/
def State.insertSurvivors (s : State) (o : RowOp) : State :=
  let background := decide (o.purpose = .rebuild) || decide (o.purpose = .catchup)
  let age := s.rowAge o
  (o.got.filter (fun g => g.1 ∈ o.chosen ++ o.verifier.toList)).foldl (fun s g =>
    s.insertClean (s.keyOf o.set o.stripe g.1 o.row)
      (if background then .rebuild else .deadReckoning) g.2.data g.2.sl (if background then 3 else age)) s

/-- The read of a woken port's own sector for catch-up (R342 step 5). -/
def State.catchupRead (s : State) (set : BitVec 6) (stripe frag row : Nat) (port : Byte) (dba : Nat) : State :=
  (s.withNextId (s.nextId + 1)).submit (driveCmd s.nextId port .read .catchup set stripe frag row dba none)

/-- The end of a row's catch-up (R342 step 5): the sector is rewritten unless it carries the row's version already; a row that
another drive write has overtaken is taken again (R180). -/
def State.catchupStore (s : State) (o : RowOp) (data : Bytes) : State :=
  let p := s.setProfile (s.set o.set.toNat)
  let vp := o.vp.getD (0, 0)
  let own := o.got.find? (fun g => g.1 = o.frag)
  if o.touched then
    match s.bearing o.set o.rev o.stripe o.frag with
    | .at port dba => s.catchupRead o.set o.stripe o.frag o.row port (dba + o.row)
    | .failed _ _ _ => s
  else if own.any (fun g => decide (sealVersion g.2.sl = restoreVersion p o.frag vp o.vmask)) then s
  else s.restoreWrite o.set o.rev o.stripe o.frag o.row data vp o.vmask (sealFlags p o.got vp) false

/-- A reconstruction accepted or voided (R173): a verifier that disagrees sends the row to arbitration; an accepted one is
the read's result when the original has not come first, failed sectors are repaired, and the operation stays until the
original arrives. `repairs` pairs failed fragments with their decoded data. -/
def State.acceptRow (s : State) (o : RowOp) (data : Bytes) (prediction : Option Bytes) (repairs : List (Nat × Bytes)) :
    State :=
  let vd := o.verifier.bind (fun f => (o.got.find? (fun g => g.1 = f)).map (fun g => g.2.data))
  if o.verifier.isSome && decide (vd ≠ prediction) then
    (s.setRowOp { o with voided := true, passWait := false }).arbitrate o.set o.stripe o.row
  else
    let vp := o.vp.getD (0, 0)
    let o := { o with used := some data, verified := o.verifier.isSome, passWait := false,
                      readers := (s.ios.filter (fun io => io.waits.any (fun w => w.1 = o.orig))).map (fun io => (io.ring, io.desc)) }
    let s := s.setRowOp o
    let fl := sealFlags (s.setProfile (s.set o.set.toNat)) o.got vp
    let x := s.restoredSector o.set o.rev o.stripe o.frag o.row data vp o.vmask fl false false
    let s := s.insertSurvivors o
    let s := if o.touched ∨ o.purpose = .preserved then s else
      ((o.bad.filter (fun f => f = o.frag ∧ o.purpose ≠ .catchup)).map (fun f => (f, data)) ++ repairs).foldl (fun s fd =>
        s.restoreWrite o.set o.rev o.stripe fd.1 o.row fd.2 vp o.vmask fl false) s
    match o.purpose with
    | .rebuild => (s.rebuildStore o data).dropRowOp o.id
    | .catchup => (s.catchupStore o data).dropRowOp o.id
    | _ =>
      let s := s.count64 Reg.gcsRbsDrCount 1
      let s := if (s.fillOf o.orig).isSome then s.endFill o.orig (some x)
        else s.insertClean (s.keyOf o.set o.stripe o.frag o.row) .deadReckoning data x.sl (s.rowAge o)
      let s := s.answer o.orig (some x)
      if s.origOpen o then s else s.dropRowOp o.id

/-- The streams and coefficients of a reconstruction's pass queued (R53, R57). -/
def State.rowPass (s : State) (o : RowOp) (p : Profile) : State :=
  match p.choose o.mask o.stripe o.row with
  | none => s.loseRow o
  | some ch =>
    let coeffs := o.targets.map (fun f => (p.coeffs ch o.chosen f).getD (fill o.chosen.length 0))
    let inputs := o.chosen.map (fun f => ((o.got.find? (fun g => g.1 = f)).map (fun g => g.2.data)).getD (fill 4096 0))
    (s.setRowOp { o with passWait := true }).queuePass coeffs inputs (some o.id) none 4096

/-- A reconstruction whose sectors have all arrived (R173): test 7 over them; a STALE one is left out and the survivors are
chosen again, an inconsistent row goes to arbitration, and otherwise the pass is queued. -/
def State.rowDecode (s : State) (o : RowOp) : Nat → State
  | 0 => s
  | fuel + 1 =>
    let p := s.setProfile (s.set o.set.toNat)
    let need := o.chosen ++ o.verifier.toList
    if o.mode ≠ .decode || o.solveWait || o.passWait || o.voided || o.used.isSome ||
        !need.all (fun f => o.got.any (fun g => g.1 = f)) then s
    else
      let chk := rowCheck p ((o.got.filter (fun g => g.1 ∈ need)).map (fun g => (g.1, g.2.sl)))
      if chk.inconsistent then (s.setRowOp { o with voided := true }).arbitrate o.set o.stripe o.row
      else if !chk.stale.isEmpty then
        let s := chk.stale.foldl (fun s f => s.sectorFault (s.fragPort o.set o.rev o.stripe f) 3) s
        let o := { o with mask := chk.stale.foldl (fun m f => m ||| maskBit f) o.mask, bad := o.bad ++ chk.stale,
                          got := o.got.filter (fun g => g.1 ∉ chk.stale) }
        let s := s.rowChoose o
        match s.findRowOp o.id with
        | none => s
        | some o => s.rowDecode o fuel
      else
        let v := rowVersion p (o.got.filter (fun g => g.1 ∈ need))
        let o := { o with vp := some v.1, vmask := v.2 }
        if p.typ = .replica then
          let d (f : Nat) : Option Bytes := (o.got.find? (fun g => g.1 = f)).map (fun g => g.2.data)
          let data := ((o.chosen.head?).bind d).getD []
          s.acceptRow o data (o.verifier.map (fun _ => data)) []
        else s.rowPass o p

/-- Every code equation over a list of sectors holds (R177, R192): each fragment beyond a basis is the combination of the
basis that its generator row gives. -/
def equationsHold (p : Profile) (g : List (Nat × Bytes)) : Bool :=
  let basis := g.foldl (fun (b : List (Nat × Bytes)) x =>
    if gfRank (b.map (fun y => p.genRow y.1)) < gfRank ((b ++ [x]).map (fun y => p.genRow y.1)) then b ++ [x] else b) []
  g.all (fun x => match gfSolve (basis.map (fun y => p.genRow y.1)) (p.genRow x.1) with
    | none => true
    | some c => gfCombine x.2.length c (basis.map (fun y => y.2)) == x.2)

/-- A whole-row read that ended (R69): a written row makes its BLANK and FOREIGN sectors unavailable, an unwritten one reads
as zeros, and any other is lost. -/
def State.rowBlank (s : State) (o : RowOp) : State :=
  let p := s.setProfile (s.set o.set.toNat)
  if !o.got.isEmpty then
    let s := o.blanks.foldl (fun s f => s.sectorFault (s.fragPort o.set o.rev o.stripe f) 4) s
    let mask := (o.blanks ++ o.bad).foldl (fun m f => m ||| maskBit f) o.mask
    let o := { o with mask := mask, bad := o.bad ++ o.blanks, blanks := [] }
    let s := s.rowChoose o
    match s.findRowOp o.id with
    | none => s
    | some o => s.rowDecode o 64
  else if p.width - o.blanks.length ≤ p.tol then
    ((s.dropRowOp o.id).endFill o.orig none).answer o.orig (some { data := fill 4096 0, sl := Seal.zero })
  else s.loseRow { o with mask := maskBit o.frag }

/-- A VERIFY row whose reads ended (R218, R192): a row that fails a check or an equation goes to arbitration, whose outcome it
then takes; any other is within tolerance when its unavailable fragments are decodable and none is suspect. -/
def State.rowVerify (s : State) (o : RowOp) : State :=
  let p := s.setProfile (s.set o.set.toNat)
  let fine (b : Bool) : Option Sector := if b then some { data := [], sl := Seal.zero } else none
  if o.got.isEmpty then (s.dropRowOp o.id).answer o.orig (fine (decide (p.width - o.blanks.length ≤ p.tol)))
  else
    let chk := rowCheck p (o.got.map (fun g => (g.1, g.2.sl)))
    if chk.inconsistent || !(o.bad ++ o.blanks ++ chk.stale).isEmpty ||
        !equationsHold p (o.got.map (fun g => (g.1, g.2.data))) then
      (s.setRowOp { o with voided := true }).arbitrate o.set o.stripe o.row
    else
      (s.dropRowOp o.id).answer o.orig (fine (p.decodable (s.eraseMask o.set o.rev o.stripe) &&
        !(List.range p.k).any (fun f => s.suspect o.set o.stripe o.row f)))

/-- The fragments whose seals a PARITY_SEAL read may take, in order (R70): the parity fragments, or for REPLICA the next copies
after the one read. -/
def sealOrder (p : Profile) (frag : Nat) : List Nat :=
  if p.typ = .replica then (List.range (p.width - 1)).map (fun i => (frag + 1 + i) % p.width) else p.parities

/-- A read under PARITY_SEAL (R70): the data sector is STALE when the parity sector read with it says so, and is returned
otherwise; a parity fragment that failed is replaced by the next available one, until none remains. A data sector that is
BLANK or FOREIGN needs the whole row (R69). -/
def State.rowSealCheck (s : State) (o : RowOp) : State :=
  let p := s.setProfile (s.set o.set.toNat)
  match o.got.find? (fun g => g.1 = o.frag) with
  | none =>
    if o.blanks.isEmpty then
      let s := s.rowChoose { o with mask := o.mask ||| maskBit o.frag }
      (match s.findRowOp o.id with
        | none => s
        | some o => s.rowDecode o 64)
    else
      let (s, o) := s.rowReads { o with mode := .wholeRow }
        (p.frags.filter (fun f => !o.mask.getLsbD f && decide (f ∉ o.bad ++ o.blanks)))
      if o.waiting.isEmpty then s.rowBlank o else s.setRowOp o
  | some g =>
    let s := o.blanks.foldl (fun s f => s.sectorFault (s.fragPort o.set o.rev o.stripe f) 4) s
    let o := { o with bad := o.bad ++ o.blanks, blanks := [] }
    let tried := o.bad ++ o.got.map (fun g => g.1)
    match (sealOrder p o.frag).find? (fun f => f ∉ tried && !s.fragOut o.set o.rev o.stripe f),
        o.got.any (fun g => g.1 ≠ o.frag) with
    | some f, false => let (s, o) := s.rowRead o f; s.setRowOp o
    | _, _ =>
      let chk := rowCheck p (o.got.map (fun g => (g.1, g.2.sl)))
      if o.frag ∈ chk.stale then
        let s := s.sectorFault (s.fragPort o.set o.rev o.stripe o.frag) 3
        let s := s.rowChoose { o with mask := s.eraseMask o.set o.rev o.stripe ||| maskBit o.frag, bad := o.bad ++ [o.frag],
                                      got := o.got.filter (fun g => g.1 ≠ o.frag) }
        match s.findRowOp o.id with
        | none => s
        | some o => s.rowDecode o 64
      else
        let s := if chk.inconsistent || !chk.stale.isEmpty then s.arbitrate o.set o.stripe o.row else s
        ((s.dropRowOp o.id).endFill o.orig (some g.2)).answer o.orig (some g.2)

/-- A row operation brought forward after one of its reads ended. -/
def State.rowStep (s : State) (id : Nat) : State :=
  match s.findRowOp id with
  | none => s
  | some o =>
    match o.mode with
    | .decode => s.rowDecode o 64
    | .wholeRow => if o.waiting.isEmpty then s.rowBlank o else s
    | .verify => if o.waiting.isEmpty then s.rowVerify o else s
    | .sealCheck => if o.waiting.isEmpty then s.rowSealCheck o else s

/-- A row operation started with sectors already read (R172, R69, R70, R218): its erasure mask and its first reads. -/
def State.startRowWith (s : State) (set : BitVec 6) (rev : Revision) (stripe row frag orig : Nat) (mode : RowMode)
    (purpose : Purpose) (bad : List Nat) (got : List (Nat × Sector)) : State :=
  let p := s.setProfile (s.set set.toNat)
  let base := s.eraseMask set rev stripe
  let id := s.nextId
  let o : RowOp :=
    { id := id, set := set, stripe := stripe, row := row, frag := frag, orig := orig, rev := rev,
      mask := bad.foldl (fun m f => m ||| maskBit f) (base ||| (if mode = .decode then maskBit frag else 0)),
      chosen := [], verifier := none, got := got, bad := bad, blanks := [], waiting := [], cluster := false,
      solveWait := false, passWait := false, used := none, verified := false, voided := false, mode := mode,
      purpose := purpose, age := 2, vp := none, vmask := 0, touched := false, readers := [] }
  let s := (s.withNextId (id + 1)).withRowOps (s.rowOps ++ [o])
  match mode with
  | .decode => (s.rowChoose o).rowStep id
  | .sealCheck =>
    let (s, o) := s.rowReads o ([frag] ++ (((sealOrder p frag).find? (fun f => !base.getLsbD f)).toList))
    (s.setRowOp o).rowStep id
  | _ =>
    let (s, o) := s.rowReads o (p.frags.filter (fun f => !base.getLsbD f && decide (f ∉ bad)))
    (s.setRowOp o).rowStep id

/-- A row operation started (R172, R69, R70, R218). -/
def State.startRow (s : State) (set : BitVec 6) (rev : Revision) (stripe row frag orig : Nat) (mode : RowMode)
    (purpose : Purpose) (bad : List Nat) : State :=
  s.startRowWith set rev stripe row frag orig mode purpose bad []

/-- A sector of a row operation arrived with its class (R66), or failed to (R68): a failed one is left out of a decode, and
the survivors are chosen again; a BLANK or FOREIGN one makes the controller read the whole row (R69). -/
def State.rowSector (s : State) (id f : Nat) (cls : SectorClass) (x : Option Sector) : State :=
  match s.findRowOp id with
  | none => s
  | some o =>
    let o := { o with waiting := without o.waiting f }
    match cls, x with
    | .current, some x => (s.setRowOp { o with got := o.got ++ [(f, x)] }).rowStep id
    | _, _ =>
      let blank := decide (cls = .blank) || decide (cls = .foreign)
      if blank && o.mode ≠ .decode then
        (s.setRowOp { o with blanks := o.blanks ++ [f] }).rowStep id
      else
        let o := { o with bad := o.bad ++ [f], mask := o.mask ||| maskBit f }
        match o.mode with
        | .decode =>
          if o.passWait ∨ o.used.isSome ∨ o.voided then
            (if blank then s.sectorFault (s.fragPort o.set o.rev o.stripe f) 4 else s).setRowOp o
          else if blank then
            let p := s.setProfile (s.set o.set.toNat)
            let o := { o with mode := .wholeRow, blanks := o.blanks ++ [f], bad := without o.bad f, solveWait := false }
            let (s, o) := s.rowReads o (p.frags.filter (fun i => !o.mask.getLsbD i))
            (s.setRowOp o).rowStep id
          else ((s.setRowOp o).rowChoose o).rowStep id
        | _ => (s.setRowOp o).rowStep id

end Sys2Proof.Machine
end

