-- ==== Sys2Proof/Machine/Ranges.lean ====
section
/-! DEFINITION. The progress of the range commands (spec/10_stripe_cache.md R311, R312): what they wait for and when they
reply. -/

namespace Sys2Proof.Machine

/-- The range of a range command's packet: set, first block, blocks (R257). -/
def rangeOf (pkt : Bytes) : BitVec 6 × Nat × Nat :=
  (BitVec.ofNat 6 (leAt pkt 0x10 1), leAt pkt 0x18 6, leAt pkt 0x20 6)

/-- Whether a sector's place lies in a range: a data block in it, or a parity fragment of a row that holds such a block
(R311). -/
def State.inRange (s : State) (set : BitVec 6) (lba blocks : Nat) (k : LineKey) : Bool :=
  let a := s.set set.toNat
  let p := s.setProfile a
  let hit (f : Nat) : Bool :=
    let b := lbaOf p.k a.s k.stripe f k.row
    decide (lba ≤ b) && decide (b < lba + blocks)
  decide (k.set = set) && (if k.frag < p.k then hit k.frag else (List.range p.k).any hit)

/-- The committed, unretired DATA records that hold a sector of a range. -/
def State.rangeRecs (s : State) (set : BitVec 6) (lba blocks : Nat) : List Rec :=
  s.log.recs.filter (fun r => r.typ = .data && r.set = set && r.status = .committed && !r.retired &&
    (List.range r.rowCount).any (fun i => (bitList 64 r.fragMask.toNat).any (fun f =>
      s.inRange set lba blocks { set := set, stripe := r.stripe, frag := f, row := r.rowFirst + i })))

/-- A deferred command replaced. -/
def State.setDeferred (s : State) (d : Deferred) : State :=
  s.withInterp { s.interp with deferred := s.interp.deferred.map (fun e => if e.src = d.src then d else e) }

/-- Lines of a range invalidated in both tiers and fills marked DOA, counted as lines affected (R312). -/
def State.rangeInvalidate (s : State) (d : Deferred) (clean : Bool) : State × Deferred :=
  let (set, lba, blocks) := rangeOf d.packet
  let hit (l : Line) : Bool :=
    s.inRange set lba blocks l.key && l.visible && (!clean || decide (l.state ≠ .dirty))
  let n := (s.scc.lines.filter (fun e => hit e.2)).length + (s.scc.tier.filter (fun e => hit e.2)).length
  (s.withScc (s.scc.invalidate hit), { d with count := n, walks := 2 })

/-- A range command whose walks have ended and whose DOA fills have resolved replies (R312). -/
def State.rangeReply (s : State) (d : Deferred) : State :=
  let (set, lba, blocks) := rangeOf d.packet
  let open? := s.scc.lines.any (fun e => e.2.state = .filling && e.2.doa && s.inRange set lba blocks e.2.key)
  if d.waitWrites.isEmpty && decide (d.walks = 0) && decide (d.count2 = 1) && !open? then
    s.endDeferred d stOk 0 (resultOf [(0x28, 8, d.count)])
  else s

/-- The part of a range command that follows its stripe commits: CLEAN_RANGE replies, INVAL_RANGE invalidates and walks.
`count2` is 1 once a command that walks has invalidated. -/
def State.rangeCleaned (s : State) (d : Deferred) : State :=
  if !d.waitWrites.isEmpty ∨ d.count2 = 1 then s
  else if opcodeOf d.packet = 0x0701 then s.endDeferred d stOk 0 (resultOf [(0x28, 8, d.count)])
  else if opcodeOf d.packet = 0x0702 then
    let (s, d) := s.rangeInvalidate d true
    s.setDeferred { d with count2 := 1 }
  else s

/-- Every range command brought forward: after a fill resolved, after records were retired. -/
def State.rangeStep (s : State) : State :=
  (s.interp.deferred.filter (fun d => opcodeOf d.packet = 0x0701 ∨ opcodeOf d.packet = 0x0702 ∨ opcodeOf d.packet = 0x0703)).foldl
    (fun s d => if d.count2 = 1 then s.rangeReply d else s.rangeCleaned d) s

/-- Whether a row of a stripe holds a block of a range (R311). -/
def State.rowInRange (s : State) (set : BitVec 6) (lba blocks stripe row : Nat) : Bool :=
  s.inRange set lba blocks { set := set, stripe := stripe, frag := 63, row := row }

/-- A stripe commit whose drive writes are done: the sectors it wrote in rows of a range command's range count as lines affected,
and a DATA record with no row of the range left undurable leaves the command's waiting list (R312). -/
def State.rangeDurable (s : State) (c : CommitOp) : State :=
  let s := s.withInterp { s.interp with deferred := s.interp.deferred.map (fun d =>
    let (set, lba, blocks) := rangeOf d.packet
    let inRow (row : Nat) : Bool := s.rowInRange set lba blocks c.stripe row
    let mine := decide (c.set = set) && c.dataRecs.any (fun q => q ∈ d.waitWrites)
    let n := (c.data.filter (fun x => inRow x.row)).length + (c.parity.filter (fun x => inRow x.2.1)).length
    { d with
        waitWrites := d.waitWrites.filter (fun q => s.log.recs.any (fun r =>
          decide (r.seq = q) && !r.retired && r.names.any (fun row => s.rowInRange set lba blocks r.stripe row))),
        count := if mine then d.count + n else d.count }) }
  s.rangeStep

/-- The stripe commits of a range command (R312): every row of its range that a DATA record on its waiting list holds. -/
def State.rangeCommits (s : State) (rows : List (BitVec 6 × Nat × Nat)) (commit : State → BitVec 6 → Nat → Nat → State) : State :=
  rows.foldl (fun s x => commit s x.1 x.2.1 x.2.2) s

/-- The rows that a range command has still to commit, each as set, stripe and row. -/
def State.rangeRows (s : State) (d : Deferred) : List (BitVec 6 × Nat × Nat) :=
  let (set, lba, blocks) := rangeOf d.packet
  ((s.log.recs.filter (fun r => r.seq ∈ d.waitWrites)).flatMap (fun r =>
    (r.names.filter (fun row => s.rowInRange set lba blocks r.stripe row)).map (fun row => (set, r.stripe, row)))).eraseDups

end Sys2Proof.Machine
end

