-- ==== Sys2Proof/Machine/LogOps.lean ====
section
/-! DEFINITION. The write-ordering rule at work (spec/04_the_log.md R121 to R136): commits of records, stripe commits,
completion of writes, retirement, pacing, relocation. -/

namespace Sys2Proof.Machine

/-! ## Completion of writes (R126, R127, R175) -/

/-- Whether a record's drive writes no longer hold back a completion: done, or every row of a DATA record lies under a
COMMIT record whose outstanding drive writes have all passed the write-lag limit (R175). -/
def State.released (s : State) (seq : Nat) : Bool :=
  match s.findRec seq with
  | none => true
  | some r =>
    r.covered && r.typ = .intent || r.retired ||
      (decide (r.typ = .data) && r.names.all (fun row => s.log.recs.any (fun c =>
        c.typ = .commit && c.status = .committed && c.set = r.set && c.stripe = r.stripe &&
        decide (c.rowFirst ≤ row) && decide (row < c.rowFirst + c.rowCount) && decide (seq ∈ c.names) &&
        c.openWrites.all (fun id => s.dcmds.all (fun d => d.id ≠ id || d.lagged)))))

/-- Whether every condition of a write's completion holds. -/
def State.writeDone (s : State) (io : Io) : Bool :=
  io.dataIn && io.waitRecs.isEmpty && !io.waitSeal && io.waitWrites.all s.released

/-- Writes whose conditions hold complete with OK. -/
def State.finishWrites (s : State) : State :=
  (s.ios.filter (fun io => (io.kind = .write || io.kind = .writeZeroes) && s.writeDone io)).foldl
    (fun s io => s.finishIo io stOk 0 io.desc.lba io.desc.blocks) s

/-! ## Stripe commits (R131) -/

/-- Whether a row of a stripe belongs to a stripe commit in progress. -/
def State.rowBusy (s : State) (set : BitVec 6) (stripe row : Nat) : Bool :=
  s.commits.any (fun c => c.set = set && c.stripe = stripe && decide (c.rowFirst ≤ row) && decide (row < c.rowFirst + c.rowCount))

/-- Whether a row has unretired Log records, so that a stripe commit or an intent-only write rewrites it (R192, R218). -/
def State.rowLogged (s : State) (set : BitVec 6) (stripe row : Nat) : Bool :=
  s.log.recs.any (fun r => r.set = set && !r.retired && decide (r.status ≠ .abandoned) && (match r.typ with
    | .data | .commit => decide (r.stripe = stripe) && decide (r.rowFirst ≤ row) && decide (row < r.rowFirst + r.rowCount)
    | .intent => decide (r.stripe ≤ stripe) && decide (stripe < r.stripe + r.stripeCount)
    | _ => false))

/-- The committed DATA records of a row that no COMMIT record covers. -/
def State.openData (s : State) (set : BitVec 6) (stripe row : Nat) : List Rec :=
  let inc := (s.set set.toNat).incarnation
  s.log.recs.filter (fun r => r.typ = .data && r.set = set && r.stripe = stripe && r.incarnation = inc &&
    r.status = .committed && !r.retired && decide (row ∈ r.names) && decide (r.rowFirst ≤ row) &&
    decide (row < r.rowFirst + r.rowCount))

/-- The version of a record. -/
def Rec.ver (r : Rec) : Version := (r.watch.toNat, r.generation.toNat)

/-- A record's sector of a place. -/
def Rec.sectorAt (r : Rec) (f row : Nat) : Bytes :=
  if r.zero then fill 4096 0
  else ((r.sectors.find? (fun x => x.1 = f && x.2.1 = row)).map (fun x => x.2.2)).getD (fill 4096 0)

/-- What a row of a stripe commit writes: its parity version, its mask, its newest data sectors, and the records they come
from (R131 items 1, 2 and 5). -/
structure RowPlan where
  row : Nat
  vp : Version
  lwm : Word64
  zero : Bool
  holdover : Bool
  data : List NewSector
  recs : List Nat
deriving DecidableEq, Repr

/-- The plan of a row, none when it has no open DATA record or is in a stripe commit already. -/
def State.rowPlan (s : State) (set : BitVec 6) (stripe row : Nat) : Option RowPlan :=
  if s.rowBusy set stripe row then none
  else
    let recs := s.openData set stripe row
    match recs with
    | [] => none
    | r0 :: rest =>
      let top := rest.foldl (fun m r => if verLt m.ver r.ver then r else m) r0
      let last := recs.filter (fun r => decide (r.ver = top.ver))
      let frags := (recs.flatMap (fun r => bitList 64 r.fragMask.toNat)).eraseDups
      let newest (f : Nat) : Option Rec :=
        (recs.filter (fun r => r.fragMask.getLsbD f)).foldl (fun m r => match m with
          | none => some r
          | some q => if verLt q.ver r.ver then some r else some q) none
      some { row := row, vp := top.ver, zero := top.zero, holdover := top.holdover,
             lwm := BitVec.ofNat 64 (maskOf ((last.flatMap (fun r => bitList 64 r.fragMask.toNat)).eraseDups)),
             recs := recs.map (fun r => r.seq),
             data := frags.filterMap (fun f => (newest f).map (fun r =>
               { frag := f, row := row, data := r.sectorAt f row, ver := r.ver, zero := r.zero, holdover := r.holdover })) }

/-- Whether two adjacent rows share one COMMIT record: one parity version, one mask, the same data fragments. -/
def RowPlan.joins (a b : RowPlan) : Bool :=
  decide (a.row + 1 = b.row) && decide (a.vp = b.vp) && decide (a.lwm = b.lwm) &&
    decide (a.data.map (fun d => d.frag) = b.data.map (fun d => d.frag))

/-- Plans grouped into runs of rows that share one record, a run last row first. -/
def groupPlans : List RowPlan → List (List RowPlan)
  | [] => []
  | p :: rest =>
    match groupPlans rest with
    | (q :: qs) :: gs => if p.joins q then (p :: q :: qs) :: gs else [p] :: (q :: qs) :: gs
    | gs => [p] :: gs

/-- The sectors of a list of places that need a drive read (R51). -/
def State.readsNeeded (s : State) (c : CommitOp) (ps : List (Nat × Nat)) : Nat :=
  (ps.filter (fun x => (s.cleanData (s.keyOf c.set c.stripe x.1 x.2)).isNone)).length

/-- The region that holds a block, by index (R307). -/
def ArraySet.regionAt (a : ArraySet) (lba : Nat) : Option Nat :=
  (a.liveRegions.find? (fun e => match e.2 with
    | some r => decide (r.first ≤ lba) && decide (lba < r.first + r.blocks)
    | none => false)).map (fun e => e.1)

/-- The write and acknowledgement policies of a block (R126, R307). -/
def ArraySet.policyAt (a : ArraySet) (lba : Nat) : WritePolicy × Bool :=
  match (a.regionAt lba).bind (fun i => Tab.get a.liveRegions none i) with
  | some r => (r.policy, r.sealedAck)
  | none => (a.writePolicy, a.sealedAck)

/-- Whether every block of a stripe commit is written under JOURNAL-ALL, so that its COMMIT record carries ENCODE (R126). -/
def CommitOp.journalAll (c : CommitOp) (a : ArraySet) (k : Nat) : Bool :=
  c.data.all (fun d => decide ((a.policyAt (lbaOf k a.s c.stripe d.frag d.row)).1 = .journalAll))

/-- One stripe commit started for a run of rows (R131): the method of R51, its reads, its pass. -/
def State.startCommit (s : State) (set : BitVec 6) (stripe : Nat) (plans : List RowPlan) : State :=
  match plans with
  | [] => s
  | p0 :: _ =>
    let a := s.set set.toNat
    let p := s.setProfile a
    let rev := a.revFor stripe
    let c : CommitOp :=
      { id := s.nextId, set := set, stripe := stripe, rowFirst := p0.row, rowCount := plans.length, vp := p0.vp,
        lwm := p0.lwm, zero := plans.all (fun q => q.zero), holdover := p0.holdover, rev := rev,
        data := plans.flatMap (fun q => q.data), rmw := false, encode := false, got := [], waits := [], parity := [],
        dataRecs := (plans.flatMap (fun q => q.recs)).eraseDups, record := none, intent := none, tried := false }
    let s := s.withNextId (s.nextId + 1)
    let fs := c.newFrags
    let old := c.oldFrags p.k
    let all := old.isEmpty
    let rw := c.places old
    let rmw := c.places (fs ++ p.parities)
    let bad (l : List Nat) : Bool := l.any (fun f => s.fragOut set rev stripe f)
    let useRmw := !all && !bad (fs ++ p.parities) && (decide (s.readsNeeded c rmw < s.readsNeeded c rw) || bad old)
    let c := { c with rmw := useRmw, encode := all && c.journalAll a p.k }
    let s := s.withCommits (s.commits ++ [c])
    let (s, c) := s.commitReads c (if useRmw then rmw else rw)
    let s := s.setCommit c
    if c.waits.isEmpty then s.commitReady c else s

/-- Stripe commits of the rows of a range started, where the set and the Hold state allow (R131, R144, R387, R127: a row whose
SEALED data no seal record covers yet waits). -/
def State.stripeCommit (s : State) (set : BitVec 6) (stripe rowFirst rowCount : Nat) : State :=
  let a := s.set set.toNat
  if s.inHold ∨ ¬ (a.state = .running ∨ a.state = .draining ∨ s.recovering set.toNat) then s
  else
    let rows := ((List.range rowCount).map (rowFirst + ·)).filter (fun r => r < a.s)
    let plans := rows.filterMap (fun r => s.rowPlan set stripe r)
    let ok (q : RowPlan) : Bool := q.recs.all (fun n => match s.findRec n with
      | none => true
      | some r => !r.sealedAck || decide (r.watch.toNat ≤ s.wch.sealedWatch.toNat))
    (groupPlans (plans.filter ok)).foldl (fun s g => s.startCommit set stripe g) s

/-- The stripe commits that allocations of the Stripe Cache asked for started (R299). -/
def State.answerAsks (s : State) : State :=
  s.scc.asks.foldl (fun s k => s.stripeCommit k.set k.stripe k.row 1) (s.withScc { s.scc with asks := [] })

/-- The pacing and full states after a change of occupancy, each ending 5 points below its threshold; source 0x72 is raised
once per crossing of HARD (R135), once the stripe commits
that the cache asked for have started (R299). -/
def State.evalLog (s : State) : State :=
  let s := s.answerAsks
  let pct := s.occPct
  let soft := s.regField Reg.logThresh 0 8
  let hard := s.regField Reg.logThresh 8 8
  let full := decide (hard ≤ pct) || (s.log.full && decide (hard < pct + 5))
  let soft? := decide (soft < pct) || ((s.log.paced || s.log.full) && decide (soft < pct + 5))
  let was := s.log.full
  let s := s.withLog { s.log with full := full, paced := soft? && !full }
  if full && !was then s.raise 0x72 .note (BitVec.ofNat 8 pct) else s

/-! ## Done records (R132, R133, R302) -/

/-- The AGE of an intent-only write's lines: 3 for a descriptor with STREAM set, else 0 (R297). -/
def State.commitAge (s : State) (c : CommitOp) : Nat :=
  if s.log.recs.any (fun r => decide (c.intent = some r.seq) &&
    s.ios.any (fun io => decide (r.io = some io.id) && io.desc.flags.getLsbD 3)) then 3 else 0

/-- The keys of a commit's lines: its data cleaned, its parity inserted CLEAN (R297, R302). -/
def State.commitLines (s : State) (c : CommitOp) (intent : Bool) : State :=
  let mkSeal (f row : Nat) (v : Version) (z h : Bool) (m : Word64) (d : Bytes) : Seal :=
    (sealFor (s.placeOf c.set c.stripe f row) c.rev.rev (SealFlags.plain z h) v m d).sl
  let s := c.data.foldl (fun s d =>
    let k := s.keyOf c.set c.stripe d.frag d.row
    let q := mkSeal d.frag d.row d.ver d.zero d.holdover 0 d.data
    if intent then (s.dropKey k).insertClean k .hostWrite d.data q (s.commitAge c) else s.cleanKey k d.ver q) s
  if (s.setProfile (s.set c.set.toNat)).typ = .replica then s
  else c.parity.foldl (fun s d => s.insertClean (s.keyOf c.set c.stripe d.1 d.2.1) .hostWrite d.2.2
    (mkSeal d.1 d.2.1 c.vp c.zero c.holdover c.lwm d.2.2) 0) s

/-- Every drive write of a COMMIT or intent record is done: lines become CLEAN, the DATA records whose rows are all durable,
the intent records that R128 journaled again (their `reserve` is 1 and `names` the DATA records they wait for) and the record
itself are retired, and waiting writes and range commands go on (R121, R133). -/
def State.recordDone (s : State) (seq : Nat) : State :=
  match s.commits.find? (fun c => c.record = some seq || c.intent = some seq) with
  | none => s
  | some c =>
    let intent := c.intent.isSome
    let s := s.commitLines c intent
    let s := s.withCommits (s.commits.filter (fun d => d.id ≠ c.id))
    let rows := (List.range c.rowCount).map (c.rowFirst + ·)
    let s := s.withLog { s.log with recs := s.log.recs.map (fun r =>
      if r.seq = seq then { r with covered := true }
      else if r.seq ∈ c.dataRecs ∧ r.typ = .data then { r with names := r.names.filter (fun x => x ∉ rows) } else r) }
    let gone := s.log.recs.filter (fun r => decide (r.seq ∈ c.dataRecs) && decide (r.typ = .data) && r.names.isEmpty)
    let seqs := gone.map (fun r => r.seq)
    let s := s.withLog { s.log with recs := s.log.recs.map (fun r =>
      if r.typ = .intent then { r with names := r.names.filter (fun q => q ∉ seqs) } else r) }
    let again := (s.log.recs.filter (fun r => r.typ = .intent && !r.retired && decide (r.reserve = 1) && r.names.isEmpty)).map
      (fun r => r.seq)
    let s := s.appendRetires (gone.length + again.length + 1) (seq :: seqs ++ again)
    (s.rangeDurable c).finishWrites

/-- The coding of an intent-only write begins once its record is committed (R121). -/
def State.startIntent (s : State) (r : Rec) : State :=
  s.commits.foldl (fun s c => if c.intent = some r.seq then s.commitReady c else s) s

/-- After the drive writes of a record were queued: none outstanding means it is done. -/
def State.settle (s : State) (seq : Nat) : State :=
  match s.findRec seq with
  | none => s
  | some r => if r.openWrites.isEmpty then s.recordDone seq else s

/-- An intent-only write whose parity is computed: its drive writes have been queued (R126). -/
def State.settleIntent (s : State) (seq : Nat) : State :=
  if s.commits.any (fun c => decide (c.intent = some seq) && !c.parity.isEmpty) then s.settle seq else s

/-! ## Commits of records (R112, R122, R301) -/

/-- The lines of a committed DATA record: other visible lines of its keys are invalidated and its PENDING lines become
DIRTY, in one cycle (R301). -/
def State.dirtyLines (s : State) (r : Rec) : State :=
  let keys := (bitList 64 r.fragMask.toNat).flatMap (fun f =>
    (List.range r.rowCount).map (fun i => s.keyOf r.set r.stripe f (r.rowFirst + i)))
  let s := keys.foldl (fun s k => s.dropKey k) s
  s.withScc { s.scc with lines := Tab.mapV s.scc.lines Line.at0 (fun _ l =>
    if l.state = .pending ∧ l.key ∈ keys ∧ l.io = r.io then { l with state := .dirty, io := none } else l) }

/-- The effect of a record's commit on the write it belongs to. -/
def State.ioCommitted (s : State) (r : Rec) : State :=
  match r.io with
  | none => s
  | some id =>
    s.withIos (s.ios.map (fun io =>
      if io.id = id then
        let rest := io.waitRecs.filter (fun q => q ≠ r.seq)
        { io with waitRecs := rest, committed := io.committed || (rest.isEmpty && io.waitWrites.all (fun q =>
          s.log.recs.all (fun x => x.seq ≠ q || x.typ ≠ .intent)) && !io.waitSeal) }
      else io))

/-- Whether a write of this record is completed only when its drive writes are done: WRITE-THROUGH applies (R126). -/
def State.throughOf (s : State) (r : Rec) : Bool := s.ios.any (fun io => r.io = some io.id && decide (r.seq ∈ io.waitWrites))

/-- A record committed: LOG.COMMITS advances, and what it makes durable takes effect (R112, R118, R119, R131, R301). -/
def State.commitRecord (s : State) (r : Rec) : State :=
  let s := (s.modRec r.seq (fun q => { q with status := .committed })).count64 Reg.logCommits 1
  match r.typ with
  | .data =>
    let s := (s.dirtyLines r).ioCommitted r
    let s := if s.throughOf r then s.stripeCommit r.set r.stripe r.rowFirst r.rowCount else s
    s.finishWrites
  | .intent => ((s.ioCommitted r).startIntent r).settleIntent r.seq
  | .commit =>
    let s := s.withLog { s.log with recs := s.log.recs.map (fun q =>
      if q.seq ∈ r.names ∧ q.typ = .data ∧ (List.range q.rowCount).all (fun i =>
          s.log.recs.any (fun c => c.typ = .commit && (c.status = .committed || decide (c.seq = r.seq)) &&
            decide (q.seq ∈ c.names) && decide (c.rowFirst ≤ q.rowFirst + i) &&
            decide (q.rowFirst + i < c.rowFirst + c.rowCount)))
      then { q with covered := true } else q) }
    (match s.commits.find? (fun c => c.record = some r.seq) with
      | none => s
      | some c => (s.commitStore c r.seq).settle r.seq)
  | .sealRec =>
    let s := s.withIos (s.ios.map (fun io =>
      if io.waitSeal ∧ io.watch.toNat ≤ r.watch.toNat then
        { io with waitSeal := false, committed := io.committed || io.waitRecs.isEmpty } else io))
    let again := s.log.recs.filter (fun q => q.typ = .data && q.sealedAck && q.status = .committed && !q.retired &&
      decide (q.watch.toNat ≤ r.watch.toNat) && s.throughOf q)
    (again.foldl (fun s q => s.stripeCommit q.set q.stripe q.rowFirst q.rowCount) s).finishWrites
  | .retire =>
    (s.withLog { s.log with recs := s.log.recs.map (fun q =>
      if q.seq ∈ r.names then { q with retired := true } else q) }).trimLog
  | .life => (s.withLog (s.log.lifeCommitted r.seq)).trimLog

/-- Whether an earlier record of one of the record's rows is still being written (R123). -/
def State.rowOrderHeld (s : State) (r : Rec) : Bool :=
  (decide (r.typ = .data) || decide (r.typ = .commit)) && s.log.recs.any (fun q =>
    decide (q.seq < r.seq) && decide (q.status = .writing) && decide (q.typ = .data) && decide (q.set = r.set) &&
    decide (q.stripe = r.stripe) && decide (q.rowFirst < r.rowFirst + r.rowCount) &&
    decide (r.rowFirst < q.rowFirst + q.rowCount))

/-- RECORD_COMMIT (R112, R403): the record, its payload included, is durable in both local copies; in PAIRED it is committed once the partner copy
is durable as well. -/
def execRecordCommit (seq : Word64) (s : State) : Host.Outcome State Fault Refusal :=
  match s.findRec seq.toNat with
  | none => .next s
  | some r =>
    if r.status ≠ .writing ∨ !r.filled ∨ s.rowOrderHeld r ∨ !s.gcs.writeDrivers then .next s
    else
      let s := s.modRec r.seq (fun q => { q with localDone := true })
      if s.pair.state = .paired ∧ !r.partner then .next s else .next (s.commitRecord r).evalLog

/-- ANCHOR (R110): software writes 1 to LOG.CTL.ANCHOR. -/
def execAnchor (s : State) : Host.Outcome State Fault Refusal :=
  if s.haltClosed then .next s else .next s.leaveDock.writeAnchor

/-- The unretired records from the tail up to the first record that is retired or had no effect, when the tail is at an
unretired DATA, COMMIT or intent record and such a record exists (R134). -/
def Log.relocatable (l : Log) : Option (List Rec) :=
  match l.own with
  | [] => none
  | r0 :: _ =>
    let open? (r : Rec) : Bool := r.status = .committed && !r.retired && (r.typ = .data || r.typ = .commit || r.typ = .intent)
    if !open? r0 then none
    else
      let n := l.own.takeWhile (fun r => !(r.retired || r.status = .abandoned))
      if n.length < l.own.length then some (n.filter open?) else none

/-- One record relocated: an identical copy at the head with a new SEQ and RELOCATED, the original retired (R134). What the
original's writes and operations waited for passes to the copy. -/
def State.relocate (s : State) (r : Rec) : State :=
  let seq := s.log.nextSeq
  let s := s.appendRec { r with relocated := true, status := .committed, reserve := r.reserve }
  let s := s.count64 Reg.logRelocs 1
  let s := s.modRec r.seq (fun q => { q with reserve := 0 })
  let s := s.withCommits (s.commits.map (fun c =>
    { c with dataRecs := c.dataRecs.map (fun q => if q = r.seq then seq else q),
             record := if c.record = some r.seq then some seq else c.record,
             intent := if c.intent = some r.seq then some seq else c.intent }))
  let s := s.withLog { s.log with recs := s.log.recs.map (fun q =>
    if q.typ = .commit then { q with names := q.names.map (fun x => if x = r.seq then seq else x) } else q) }
  let s := s.withIos (s.ios.map (fun io =>
    { io with waitWrites := io.waitWrites.map (fun q => if q = r.seq then seq else q) }))
  let s := s.withInterp { s.interp with deferred := s.interp.deferred.map (fun d =>
    { d with waitWrites := d.waitWrites.map (fun q => if q = r.seq then seq else q) }) }
  s.withDcmds (s.dcmds.map (fun d => if d.purpose = .stripeCommit r.seq then { d with purpose := .stripeCommit seq } else d))

/-- RELOCATION (R134). -/
def execRelocation (s : State) : Host.Outcome State Fault Refusal :=
  if !s.log.paced && !s.log.full then .next s
  else
    match s.log.relocatable with
    | none => .next s
    | some rs =>
      let s := rs.foldl (fun s r => s.relocate r) s
      .next (s.appendRetires rs.length (rs.map (fun r => r.seq))).evalLog

/-- STRIPE_COMMIT (R131). -/
def execStripeCommit (set : BitVec 6) (stripe : BitVec 48) (rowFirst rowCount : Nat) (s : State) :
    Host.Outcome State Fault Refusal := .next (s.stripeCommit set stripe.toNat rowFirst rowCount).evalLog

/-! ## Banks (R106, R107, R379) -/

/-- What a bank fault does to a calibration run: the run ends with reason 0x05 and releases a bank, which may become the
resilver target (R107, R379); the bank under test and the joined spare hold no live unit, and release none when they fail. -/
def State.endRunForFault (s : State) (failed : BitVec 5) : State :=
  match s.mon.run with
  | none => s
  | some c =>
    let mine := decide (c.bank = failed)
    let idle := decide (c.spare = some failed) || (mine && decide (c.phase = .sweep))
    let s := if idle then s else s.withLog { s.log with spare := some c.released }
    let s := s.modBank c.bank (fun b => { b with due := !mine })
    let s := match c.src with
      | none => s
      | some src => s.withMon { s.mon with queue := (c.bank, src) :: s.mon.queue }
    s.failRun 5

/-- A bank failed (R106, R107, R379): it is fenced; the spare takes its place, or the pair is left on one copy, or the pair had
only this copy. -/
def State.bankFailed (s : State) (bank : BitVec 5) : State :=
  if !s.bankLive bank then s
  else
    let src : Byte := BitVec.ofNat 8 (0x60 + bank.toNat)
    let s := s.withLog { s.log with fenced := s.log.fenced ++ [bank] }
    if s.log.spare = some bank then
      (s.withLog { s.log with spare := none }).raise src .warn 0x03
    else match s.pairOfBank bank with
    | none =>
      (s.endRunForFault bank).raise src .warn 0x03
    | some p =>
      if (s.pairRole p).single then s.raise src .stop 0x04
      else
        let s := s.endRunForFault bank
        match s.log.spare with
        | some b =>
          let s := (s.withLog { s.log with spare := none }).replaceCopy p bank b
          s.raise src .warn 0x03
        | none =>
          let s := s.setRole p { s.pairRole p with single := true, resilvering := false }
          s.raise src .contain 0x03

/-- BANK_FAILURE (R106): a bank raised an array fault, or too many of its words were uncorrectable. -/
def execBankFailure (bank : BitVec 5) (s : State) : Host.Outcome State Fault Refusal := .next (s.bankFailed bank)

/-- A word error of the Log reported (R105, R147): the other copy of the pair serves an uncorrectable word and rewrites it, and a
unit unreadable in both copies makes the set that owns its record PRESERVED. -/
def State.logWord (s : State) (w : LogWord) : State :=
  match w with
  | .corrected b => if s.bankLive b then s.raise (BitVec.ofNat 8 (0x60 + b.toNat)) .note 1 else s
  | .uncorrectable b =>
    if !s.bankLive b then s
    else
      let twin := (s.pairOfBank b).any (fun p => !(s.pairRole p).single)
      let s := if twin then s.withLog { s.log with bankWrites := Tab.modify s.log.bankWrites 0 b.toNat (· + 1) } else s
      s.raise (BitVec.ofNat 8 (0x60 + b.toNat)) .warn 2
  | .unreadable p seq =>
    let s := s.raise 0x71 .contain (p.setWidth 8)
    match s.findRec seq.toNat with
    | some r => if r.typ = .data ∨ r.typ = .commit ∨ r.typ = .intent then s.preserve r.set.toNat else s
    | none => s

/-- The uncorrectable words of a bank in a list. -/
def badWords (words : List LogWord) (b : BitVec 5) : Nat := (words.filter (fun w => w = .uncorrectable b)).length

/-- BANK_ERROR_WINDOW (R106): the word errors met in the second that ends are reported, a bank with more than 16 uncorrectable
words fails, and the counts restart. -/
def execBankErrorWindow (words : List LogWord) (s : State) : Host.Outcome State Fault Refusal :=
  let s := words.foldl State.logWord s
  .next ((s.presentBanks.filter (fun b => decide (16 < badWords words b))).foldl State.bankFailed s)

/-- RESILVER_COMPLETE (R106, R138): the pair has two copies again, and the copied units count. -/
def execResilverComplete (pair : BitVec 3) (s : State) : Host.Outcome State Fault Refusal :=
  let r := s.pairRole pair.toNat
  if !r.resilvering then .next s
  else
    let s := s.setRole pair.toNat { r with resilvering := false }
    let u := pairUnits (Config.pairs s.part) pair.toNat s.log.tailPos s.writtenUnits
    let w := Tab.modify s.log.bankWrites 0 r.target.toNat (· + u)
    .next (s.withLog { s.log with bankWrites := w })

/-- LIFE_RECORD_DUE (R120, R164): written now, or deferred in Idle-dock (R469). -/
def execLifeRecordDue (s : State) : Host.Outcome State Fault Refusal :=
  if s.gcs.phase = .dock then
    .next (s.withGcs { s.gcs with deferredCalendar := withElem s.gcs.deferredCalendar 1 })
  else .next s.appendLife.evalLog

end Sys2Proof.Machine
end

