-- ==== Sys2Proof/Machine/PortOps.lean ====
section
/-! DEFINITION. Drive ports as units: revisions that retire and restore ports (spec/03 R84, R85), failing a port (spec/06 R167
to R170), ended commands (spec/11 R332), resets and groups (R336 to R342). -/

namespace Sys2Proof.Machine

/-! ## Revisions (R84, R85) -/

/-- The revisions of a set that are live or queued (R83). -/
def ArraySet.revisions (a : ArraySet) : List Revision := [a.current] ++ a.pending.toList ++ a.queued.toList

/-- The revision that a change amends: a copy of current, or the queued one, or a copy of pending (R84). -/
def ArraySet.amendBase (a : ArraySet) : Revision :=
  match a.pending with
  | none => { a.current with rev := a.current.rev + 1 }
  | some p => a.queued.getD { p with rev := p.rev + 1 }

/-- The amended revision put in its place (R84). -/
def ArraySet.amend (a : ArraySet) (r : Revision) : ArraySet :=
  match a.pending with
  | none => { a with pending := some r, cursor := 0, candidate := 0, inFlight := [], lostRows := 0 }
  | some _ => { a with queued := some r }

/-- The lowest-numbered retire entry that no live or queued revision uses, or the entry that already retires the port in one
of them (R85). -/
def ArraySet.freeEntry (a : ArraySet) (p : Byte) : Option Nat :=
  match a.revisions.findSome? (fun r => r.ordinal p) with
  | some i => some i
  | none => (List.range 32).find? (fun i => a.revisions.all (fun r => (Tab.get r.retire none i).isNone))

/-- Why a revision change fails: the port is not a member or stands wrong in the revision, or no entry is free (R84). -/
inductive ReviseFail where
  | badPort
  | noEntry
deriving DecidableEq, Repr

/-- CHART_REVISE's change of a set (R84): retire a member port or restore a retired one. -/
def ArraySet.revise (a : ArraySet) (p : Byte) (restore : Bool) : Except ReviseFail ArraySet :=
  let base := a.amendBase
  if p ∉ a.members then .error .badPort
  else match base.ordinal p, restore with
    | some i, true => .ok (a.amend { base with retire := Tab.set base.retire none i none })
    | none, true => .error .badPort
    | some _, false => .error .badPort
    | none, false =>
      match a.freeEntry p with
      | none => .error .noEntry
      | some i => .ok (a.amend { base with retire := Tab.set base.retire none i (some p) })

/-- The automatic retirement of a failed member port (R170). -/
def State.autoRetire (s : State) (p : Byte) : State :=
  if !s.regBit Reg.gcsRbsCtl 0 then s
  else match s.memberOf p with
    | none => s
    | some id =>
      if ((s.set id).amendBase.ordinal p).isSome then s
      else match (s.set id).revise p false with
        | .ok a => s.setSet id a
        | .error _ => s.mediaFault p .warn 0x17

/-! ## Commands that end -/

/-- A slow or ended read's own reconstruction (R172): it waits while the mask is not decodable and the drive still has it. -/
def State.slowSelf (s : State) (d : DriveCmd) : State :=
  let rev := (s.set d.set.toNat).revFor d.stripe
  if s.rowOps.any (fun o => o.orig = d.id) then s
  else if (s.setProfile (s.set d.set.toNat)).decodable (s.eraseMask d.set rev d.stripe ||| maskBit d.frag) then
    s.startRow d.set rev d.stripe d.row d.frag d.id .decode d.purpose []
  else if s.dcmds.any (fun e => e.id = d.id && !e.quarantined) then s
  else s.startRow d.set rev d.stripe d.row d.frag d.id .decode d.purpose []

/-- A slow or ended read's reconstruction (R172): of the read itself, or, for a read of a reconstruction, with its fragment
added to the mask while the mask stays decodable. A stripe commit whose read has ended, or waits for a parity sector, takes its
other method instead (R502). -/
def State.slowRead (s : State) (d : DriveCmd) : State :=
  match d.purpose with
  | .hostRead _ | .verify _ | .rebuild | .preserved => s.slowSelf d
  | .commitRead _ =>
    (match s.commitLeaves d.purpose with
      | some c =>
        if s.dcmds.any (fun e => e.id = d.id && !e.quarantined) &&
            !(c.rmw && (s.setProfile (s.set d.set.toNat)).isParity d.frag) then s.slowSelf d
        else s.commitSwitch c
      | none => s.slowSelf d)
  | .reconstruct id =>
    match s.findRowOp id with
    | none => s
    | some o =>
      let o' := { o with mask := o.mask ||| maskBit d.frag, waiting := without o.waiting d.frag }
      if o.mode = .decode && (s.setProfile (s.set d.set.toNat)).decodable o'.mask && !o.passWait && o.used.isNone then
        ((s.setRowOp o').rowChoose o').rowStep id
      else if s.dcmds.any (fun e => e.id = d.id && !e.quarantined) then s
      else s.rowSector id d.frag .corrupt none
  | _ => s.endFill d.id none

/-- A drive write that no longer is outstanding: done, or counted as done (R132). -/
def State.writeSettled (s : State) (d : DriveCmd) : State :=
  match d.purpose with
  | .stripeCommit seq =>
    let s := s.modRec seq (fun r => { r with openWrites := without r.openWrites d.id })
    match s.findRec seq with
    | none => s
    | some r => if r.openWrites.isEmpty ∧ r.status = .committed then s.recordDone seq else s
  | _ => s

/-- A command that ended for the controller while the drive may still hold it (R332): its pages are quarantined. -/
def State.quarantine (s : State) (id : Nat) : State :=
  s.withDcmds (s.dcmds.map (fun d => if d.id = id then { d with quarantined := true } else d))

/-- A command that is gone. -/
def State.dropCmd (s : State) (id : Nat) : State := s.withDcmds (s.dcmds.filter (fun d => d.id ≠ id))

/-- The listed commands ended: quarantined if the drive may still hold them, dropped otherwise; reads are reconstructed and
writes count as done (R168, R332, R340). A PORT_ADMIN command goes on to its own limit (R256). -/
def State.endCommands (s : State) (gone : Bool) (ds : List DriveCmd) : State :=
  (ds.filter (fun d => match d.op with
    | .admin _ => false
    | _ => true)).foldl (fun s d =>
    let s := if gone || !d.issued then s.dropCmd d.id else s.quarantine d.id
    match d.op with
    | .read => s.slowRead d
    | .write => s.writeSettled d
    | _ => s) s

/-- Every quarantined page of a port freed (R332). -/
def State.freeQuarantine (s : State) (p : Byte) : State :=
  s.withDcmds (s.dcmds.filter (fun d => !(d.port = p && d.quarantined)))

/-! ## Failing a port (R167 to R170) -/

/-- A port declared failed with a detail of R167; a port already failed is unchanged. `gone` when the link is down, so that
nothing of its commands remains at the drive. -/
def State.failPort (s : State) (p : Byte) (detail : Byte) (gone : Bool) : State :=
  if (s.port p).failed then s
  else
    let s := (s.modPort p (fun v => { v with failed := true, catchup := false })).mediaFault p .warn detail
    let ds := s.outstanding p
    (s.endCommands gone ds).autoRetire p

/-- SET_RECOVER of a set ends with a failing status whose detail the spec does not state (R144, log entry 25). -/
def State.endRecovery (s : State) (id : Nat) (status : Byte) : State :=
  match s.interp.deferred.find? (fun d => opcodeOf d.packet = 0x0106 ∧ (byteAt d.packet 0x10).toNat = id) with
  | none => s
  | some d =>
    let (s, b) := s.freeByte
    s.endDeferred d status b []

/-- Replay of a set failed (R39, R141, R147): source 0x73, and the set is PRESERVED; replay writes that were not issued leave. -/
def State.replayFailed (s : State) (set : BitVec 6) : State :=
  let s := s.withDcmds (s.dcmds.filter (fun d => !(d.purpose = .replay && d.set = set && !d.issued)))
  let s := ((s.raise 0x73 .contain (set.setWidth 8)).preserve set.toNat).returnSets
  s.endRecovery set.toNat stMediaLost

/-- The deferred command of a source ended with a status (R248). -/
def State.endFor (s : State) (src : Option CmdSrc) (status detail : Byte) (result : Bytes) : State :=
  match src.bind (fun c => s.interp.deferred.find? (fun d => d.src = c)) with
  | none => s
  | some d => s.endDeferred d status detail result

/-- A port leaves service for a state without queues: its slots are freed (R326). -/
def Port.leave (v : Port) (st : PortState) : Port :=
  { v with state := st, pairsGranted := 0, depthLog2 := 0, gen := 0, nsze := 0, inL1 := false, shutdownSent := false,
           shutdownDone := false }

/-- The reset of PORT_RESET, PORT_CONFIG and R333 begins (R337): Flush to a READY drive, then the shutdown request. -/
def State.startReset (s : State) (p : Byte) (src : Option CmdSrc) : State :=
  let was := (s.port p).state
  let ds := s.outstanding p
  let s := s.modPort p (fun v => { v with state := .resetting, resetSrc := src, shutdownSent := false, shutdownDone := false })
  let s := s.endCommands false ds
  if was = .ready then
    let id := s.nextId
    (s.withNextId (id + 1)).emit (.driveCmd (driveCmd id p .flush .management 0 0 0 0 0 none))
  else
    (s.modPort p (fun v => { v with shutdownSent := true })).emit
      (.driveCmd (driveCmd s.nextId p .shutdown .management 0 0 0 0 0 none))

/-- The shutdown request to a drive (R337, R340). -/
def State.sendShutdown (s : State) (p : Byte) : State :=
  (s.modPort p (fun v => { v with shutdownSent := true })).emit
    (.driveCmd (driveCmd s.nextId p .shutdown .management 0 0 0 0 0 none))

/-! ## Groups (R340) -/

/-- Whether a drive stands behind a port that must be shut down before its group goes dark. -/
def Port.hasDrive (v : Port) : Bool := decide (v.state = .ready)

/-- The flush of every READY drive of a drained group (R340 step 6). -/
def State.flushGroup (s : State) (g : Nat) : State :=
  (groupPorts g).foldl (fun s p =>
    if (s.port p).hasDrive then
      let s := s.modPort p (fun v => { v with shutdownSent := false, shutdownDone := false })
      s.emit (.driveCmd (driveCmd s.nextId p .flush .management 0 0 0 0 0 none))
    else s) s

/-- A group whose drives have all shut down goes dark and its command replies (R340 step 7). -/
def State.groupDown (s : State) (g : Nat) : State :=
  let v := s.group g
  if v.state ≠ .draining ∨ (groupPorts g).any (fun p => (s.port p).hasDrive && !(s.port p).shutdownDone) then s
  else
    let s := (groupPorts g).foldl (fun s p =>
      (s.freeQuarantine p).modPort p (fun v => if v.state = .merged then v else v.leave .dark)) s
    let src := v.src
    let s := s.modGroup g (fun v => { v with state := .dark, pwren := false, src := none })
    s.endFor src stOk 0 (resultOf [(0x10, 1, g), (0x14, 4, v.leftovers)])

/-- A waking group whose ports have all settled is POWERED, and its command replies (R342 step 4). -/
def State.groupUp (s : State) (g : Nat) : State :=
  let v := s.group g
  if v.state ≠ .waking ∨ (groupPorts g).any (fun p => decide ((s.port p).state = .training) ||
      decide ((s.port p).state = .dark)) then s
  else
    let src := v.src
    (s.modGroup g (fun v => { v with state := .powered, src := none })).endFor src stOk 0 (resultOf [(0x10, 1, g)])

/-! ## Intent-only writes that fail (R128) -/

/-- The DATA records of a failed intent-only write, rows in chunks of at most 256 sectors (R117). -/
def State.journalAgain (s : State) (c : CommitOp) (io : Option Nat) : Nat → Nat → List Nat → State × List Nat
  | 0, _, acc => (s, acc)
  | fuel + 1, row, acc =>
    if c.rowFirst + c.rowCount ≤ row then (s, acc)
    else
      let fs := c.newFrags
      let n := min (c.rowFirst + c.rowCount - row) (max 1 (256 / max 1 fs.length))
      let p := s.setProfile (s.set c.set.toNat)
      let a := s.set c.set.toNat
      let secs := (c.data.filter (fun d => decide (row ≤ d.row) && decide (d.row < row + n))).map (fun d => (d.frag, d.row, d.data))
      let seq := s.log.nextSeq
      let s := s.appendRec { Rec.blank .data (2 + 64 * secs.length) with
        set := c.set, profile := a.profile, rowFirst := row, rowCount := n, incarnation := a.incarnation,
        generation := BitVec.ofNat 32 c.vp.2, watch := BitVec.ofNat 48 c.vp.1, stripe := c.stripe,
        fragMask := BitVec.ofNat 64 (maskOf fs), holdover := c.holdover, sectors := secs, fixNs := s.wch.fixNs, io := io,
        names := (List.range n).map (row + ·), reserve := (p.width - p.k) * 64 * n + 2 }
      let s := s.withScc { s.scc with noLine := s.scc.noLine ++ secs.map (fun x => s.keyOf c.set c.stripe x.1 x.2.1) }
      s.journalAgain c io fuel (row + n) (acc ++ [seq])

/-- A drive write of an intent-only write failed, or passed the write-lag limit (R128, R175): its data is journaled with the
same version, and the write goes on as a journaled one. -/
def State.intentFailed (s : State) (seq : Nat) : State :=
  match s.commits.find? (fun c => c.intent = some seq), s.findRec seq with
  | some c, some r =>
    let s := s.withCommits (s.commits.filter (fun d => d.id ≠ c.id))
    let (s, seqs) := s.journalAgain c r.io 256 c.rowFirst []
    let s := s.modRec seq (fun q => { q with names := seqs, reserve := 1, openWrites := [] })
    let s := s.deductCredit (c.data.length * 4096)
    s.withIos (s.ios.map (fun io =>
      if r.io = some io.id then
        { io with waitRecs := io.waitRecs ++ seqs, waitWrites := io.waitWrites.filter (fun q => q ≠ seq) } else io))
  | _, _ => s

/-- Whether a record is an intent record with its coding still to be written. -/
def State.isIntent (s : State) (seq : Nat) : Bool := (s.findRec seq).any (fun r => decide (r.typ = .intent))

end Sys2Proof.Machine
end

