-- ==== Sys2Proof/Machine/Lookups.lean ====
section
/-! DEFINITION. The Chart Unit's contexts and its cache (spec/03_charts_and_siette.md R72, R80, R98 to R100). -/

namespace Sys2Proof.Machine

/-- A Siette context: 0 to 63 of the Chart Unit, 64 of the Reaction Sequencer. -/
def State.ctx (s : State) (c : Nat) : SCtx := Tab.get s.ctxs SCtx.at0 c

/-- A context replaced. -/
def State.setCtx (s : State) (c : Nat) (v : SCtx) : State := s.withCtxs (Tab.set s.ctxs SCtx.at0 c v)

/-- A free lookup context (R98). -/
def State.freeCtx (s : State) : Option Nat := (List.range 64).find? (fun c => decide ((s.ctx c).use = .idle))

/-- The place of a requester class in the order of R99. -/
def lookupRank : LookupClass → Nat
  | .deadReckoning => 0
  | .hostIo => 1
  | .rebuild => 2
  | .scrub => 3

/-- Whether a class may be accepted now (R99): no class before it waits, or it is a background class within its guarantee. -/
def State.mayAccept (s : State) (c : LookupClass) : Bool :=
  let before := s.cht.waiting.any (fun r => decide (lookupRank r.cls < lookupRank c))
  let scrubBehindRebuild := decide (c = .scrub) && s.cht.waiting.any (fun r => r.cls = .rebuild)
  !before || (decide (2 ≤ lookupRank c) && !scrubBehindRebuild && decide (s.cht.bgCredit < s.regField Reg.chtPrio 0 4))

/-- A read that the drive cannot serve: its fragment is unavailable, so the row is reconstructed, a stripe commit takes its other
method (R502), or the prefetch is dropped (R53, R310). -/
def State.readElsewhere (s : State) (r : LookupReq) : State :=
  match r.purpose with
  | .prefetch => s.endFill r.id none
  | .reconstruct op => s.rowSector op r.frag .corrupt none
  | .commitRead c =>
    (match s.commitLeaves (.commitRead c) with
      | some c => s.commitSwitch c
      | none => s.startRow r.set r.rev r.stripe r.row r.frag r.id .decode r.purpose [])
  | p => s.startRow r.set r.rev r.stripe r.row r.frag r.id .decode p []

/-- LOOKUP_ACCEPT (R98, R99): the oldest waiting lookup of the class takes a free context. -/
def execLookupAccept (cls : LookupClass) (s : State) : Host.Outcome State Fault Refusal :=
  match s.freeCtx, s.cht.waiting.find? (fun r => r.cls = cls) with
  | some c, some req =>
    if !s.mayAccept cls then .next s
    else
      let bg := s.cht.waiting.any (fun r => decide (lookupRank r.cls < lookupRank cls))
      let s := s.withCht { s.cht with waiting := s.cht.waiting.filter (fun r => r.id ≠ req.id),
                                      bgCredit := if bg then s.cht.bgCredit + 1 else 0 }
      let prog := (s.slotProg req.rev.slot.toNat).getD { code := [], tables := [] }
      .next (s.setCtx c (s.lookupCtx req prog))
  | _, _ => .next s

/-- The chart cache line of an LDT (R80): slot, table and 64-byte line. -/
def ldtLine (c : SCtx) (slot : Nat) : Option (Nat × Nat) :=
  match c.next with
  | some (.ldt _ ra t w) => some (slot * 4 + t.toNat, (c.get ra).toNat * widthBytes w / 64)
  | _ => none

/-- The lines of the chart cache after a program has run from here, and the misses it met (R80, R98). -/
def runLines (ptest : Byte → Word64) (slot : Nat) : Nat → SCtx → List (Nat × Nat) → Nat → List (Nat × Nat) × Nat
  | 0, _, cache, m => (cache, m)
  | n + 1, c, cache, m =>
    match c.ended, c.next with
    | none, some i =>
      (match ldtLine c slot with
        | none => runLines ptest slot n (c.exec ptest i) cache m
        | some l =>
          if l ∈ cache then runLines ptest slot n (c.exec ptest i) (without cache l ++ [l]) m
          else runLines ptest slot n (c.exec ptest i) ((cache ++ [l]).drop (cache.length + 1 - 131072)) (m + 1))
    | _, _ => (cache, m)

/-- LOOKUP_COMPLETE (R72, R96, R98): the context's program runs to its end, its bearing is checked, and the read it serves
goes to the drive. -/
def execLookupComplete (ctx : BitVec 7) (s : State) : Host.Outcome State Fault Refusal :=
  let c := s.ctx ctx.toNat
  match c.use with
  | .lookup req =>
    let a := s.set req.set.toNat
    let pt := s.chartPtest a req.rev
    let (cache, misses) := runLines pt req.rev.slot.toNat 256 c s.cht.cached 0
    let c := c.run pt 256
    let s := (s.setCtx ctx.toNat SCtx.at0).withCht { s.cht with cached := cache }
    let s := (s.count64 Reg.chtMisses misses).count64 Reg.chtLookups 1
    match s.ctxBearing req c with
    | .failed d code pc => .next (s.chartFault req d code pc false)
    | .at p dba =>
      if s.portServes p req.stripe then
        .next (s.submit (driveCmd req.id p .read req.purpose req.set req.stripe req.frag req.row (dba + req.row) none))
      else .next (s.readElsewhere req)
  | _ => .next s

/-- FLUSH (R80): the chart cache is invalidated. -/
def execChartFlush (s : State) : Host.Outcome State Fault Refusal :=
  if s.haltClosed then .next s
  else
    let s := s.leaveDock
    .next (s.withCht { s.cht with cached := [] })

end Sys2Proof.Machine
end

