-- ==== Sys2Proof/Machine/Drives.lean ====
section
/-! DEFINITION. Events of the drive ports (spec/11_drive_ports.md; spec/06 R167 to R176; spec/02 R66 to R69). -/

namespace Sys2Proof.Machine

/-- A drive command by id. -/
def State.findCmd (s : State) (id : Nat) : Option DriveCmd := s.dcmds.find? (fun d => d.id = id)

/-- The SILENT_MISMATCH record of a read whose reconstruction was returned (R176, R234). -/
def State.mismatchRecord (s : State) (o : RowOp) (ring : BitVec 10) (d : Desc) : EventRecord :=
  { EventRecord.blank 3 with
      lap := posLap (s.ringN (.data ring)) d.pos, detail := 5, ring := ring.setWidth 16,
      index := BitVec.ofNat 16 (posIndex (s.ringN (.data ring)) d.pos), tag := d.tag,
      lba := BitVec.ofNat 48 (s.placeOf o.set o.stripe o.frag o.row).lba, setId := o.set.setWidth 8, count := 1 }

/-- The SILENT_MISMATCH records of a late original (R176, R235): to the port of each ring whose read was answered, or to
each ACTIVE event ring for a read that no descriptor issued. -/
def State.postMismatch (s : State) (o : RowOp) : State :=
  let s := s.count32 Reg.gcsRbsLateMismatch 1
  match o.readers with
  | [] => s.post { EventRecord.blank 3 with
      detail := 5, setId := o.set.setWidth 8, lba := BitVec.ofNat 48 (s.placeOf o.set o.stripe o.frag o.row).lba, count := 1 }
  | rs => rs.foldl (fun s r =>
      let (s, f, _) := s.postTo (s.ringPort (.data r.1)) (s.mismatchRecord o r.1 r.2)
      s.raiseAll f) s

/-- The late original of a reconstruction that was used (R176): the first row of its table that applies. -/
def State.lateOriginal (s : State) (o : RowOp) (d : DriveCmd) (cls : SectorClass) (x : Sector) (used : Bytes) : State :=
  let s := s.dropRowOp o.id
  let p := s.setProfile (s.set o.set.toNat)
  let vp := o.vp.getD (0, 0)
  let repair (s : State) : State :=
    s.restoreWrite o.set o.rev o.stripe o.frag o.row used vp o.vmask (sealFlags p o.got vp) false
  if o.touched ∨ d.rowTouched then s
  else if cls ≠ .current then repair (s.sectorFault d.port cls.detail)
  else if (p.isParity o.frag ∨ o.vmask.getLsbD o.frag ∨ p.typ = .replica) ∧ verLt (sealVersion x.sl) vp then
    repair (s.sectorFault d.port 3)
  else if verLt vp (sealVersion x.sl) then
    ((s.arbitrate o.set o.stripe o.row).mediaFault d.port .contain 5).postMismatch o
  else if x.data = used then s.count32 Reg.gcsRbsLateAgree 1
  else if o.verified then repair ((s.count32 Reg.gcsRbsLateMismatch 1).mediaFault d.port .warn 5)
  else ((s.arbitrate o.set o.stripe o.row).mediaFault d.port .contain 5).postMismatch o

/-- A copied sector for its pending bearing (R179, R181): its version, mask and flags kept, the new revision and REBUILT. -/
def copySector (x : Sector) (rev : Half) : Sector :=
  let q := { x.sl with chartRev := rev, flags := x.sl.flags ||| 0x20 }
  { data := x.data, sl := { q with crc := sectorCrc x.data q } }

/-- The rest of a row read for catch-up, once the port's own sector is known, none when it is not CURRENT (R342 step 5). -/
def State.catchupRow (s : State) (d : DriveCmd) (x : Option Sector) : State :=
  s.startRowWith d.set ((s.set d.set.toNat).revFor d.stripe) d.stripe d.row d.frag d.id .decode .catchup []
    ((x.map (fun y => (d.frag, y))).toList)

/-- A CURRENT sector given to what asked for it (R174, R181, R297). -/
def State.sectorGood (s : State) (d : DriveCmd) (x : Sector) : State :=
  match d.purpose with
  | .reconstruct op => s.rowSector op d.frag .current (some x)
  | .rebuild =>
    let s := s.insertClean (s.keyOf d.set d.stripe d.frag d.row) .rebuild x.data x.sl 3
    (match (s.set d.set.toNat).pending with
      | none => s
      | some rev =>
        if d.rowTouched then s
        else match s.bearing d.set rev d.stripe d.frag with
          | .failed _ _ _ => s
          | .at p dba => (s.driveWrite p (dba + d.row) d.set d.stripe d.frag d.row (copySector x rev.rev) .rebuildWrite).1)
  | .scrub => s.insertClean (s.keyOf d.set d.stripe d.frag d.row) .scrub x.data x.sl 3
  | .catchup => s.catchupRow d (some x)
  | _ => (s.endFill d.id (some x)).answer d.id (some x)

/-- A sector that failed tests 1 to 6 (R68, R69): BLANK and FOREIGN data sectors need the whole row, any other is reported, and
the row is decoded and repaired; a stripe commit may take its other method (R502). -/
def State.sectorBad (s : State) (d : DriveCmd) (cls : SectorClass) : State :=
  let rev := (s.set d.set.toNat).revFor d.stripe
  let blank := decide (cls = .blank) || decide (cls = .foreign)
  match d.purpose with
  | .reconstruct op =>
    let quiet := (s.findRowOp op).any (fun o => blank || decide (o.mode = .verify))
    let s := if quiet then s else s.sectorFault d.port cls.detail
    s.rowSector op d.frag cls none
  | .prefetch => (s.endFill d.id none).sectorFault d.port cls.detail
  | .catchup => (if blank then s else s.sectorFault d.port cls.detail).catchupRow d none
  | p =>
    match s.commitLeaves p, blank with
    | some c, true =>
      if c.rmw then s.commitSwitch c else s.startRow d.set rev d.stripe d.row d.frag d.id .wholeRow p []
    | some c, false =>
      let s := (s.sectorFault d.port cls.detail).commitSwitch c
      if c.rmw then s else s.startRow d.set rev d.stripe d.row d.frag d.id .decode p [d.frag]
    | none, true => s.startRow d.set rev d.stripe d.row d.frag d.id .wholeRow p []
    | none, false => (s.sectorFault d.port cls.detail).startRow d.set rev d.stripe d.row d.frag d.id .decode p [d.frag]

/-- A drive read answered with its first sector's class, none when the read failed. An original that fails its checks never ends
its read, and one of a voided reconstruction waits for the arbitration (R173). -/
def State.readDone (s : State) (d : DriveCmd) (cls : SectorClass) (x : Option Sector) : State :=
  match s.rowOps.find? (fun o => o.orig = d.id), x with
  | some o, some x =>
    (match o.used with
      | some u => s.lateOriginal o d cls x u
      | none =>
        if cls = .current then
          if o.voided then s else ((s.dropRowOp o.id).endFill d.id (some x)).answer d.id (some x)
        else
          (if cls = .blank ∨ cls = .foreign then s else s.sectorFault d.port cls.detail).rowSector o.id d.frag cls none)
  | some _, none => s
  | none, some x => if cls = .current then s.sectorGood d x else s.sectorBad d cls
  | none, none => s.sectorBad d .corrupt

/-- A read that completed with an error status (R345): its fragment is unavailable and the row is reconstructed, or a stripe
commit takes its other method (R502). -/
def State.readError (s : State) (d : DriveCmd) : State :=
  match s.rowOps.find? (fun o => o.orig = d.id), d.purpose with
  | some _, _ => s
  | none, .reconstruct op => s.rowSector op d.frag .corrupt none
  | none, .prefetch => s.endFill d.id none
  | none, .catchup => s.catchupRow d none
  | none, p =>
    let rev := (s.set d.set.toNat).revFor d.stripe
    match s.commitLeaves p with
    | some c =>
      let s := s.commitSwitch c
      if c.rmw then s else s.startRow d.set rev d.stripe d.row d.frag d.id .decode p [d.frag]
    | none => s.startRow d.set rev d.stripe d.row d.frag d.id .decode p [d.frag]

/-- DRIVE_READ_COMPLETE (R66, R174, R345): a quarantined command's late completion is discarded (R332). -/
def execDriveReadComplete (id : Nat) (result : DriveReadResult) (errs : List WordError) (s : State) :
    Host.Outcome State Fault Refusal :=
  let s := s.wordErrors errs
  match s.findCmd id with
  | none => .next s
  | some d =>
    if d.op ≠ .read then .next s
    else
      let s := s.dropCmd id
      if d.quarantined then .next s
      else
        let s := s.count64 (Reg.dpReads d.port.toNat) 1
        match result with
        | .error =>
          let s := s.count32 (Reg.dpReadErrors d.port.toNat) 1
          let s := (s.modPort d.port (fun v => { v with sealFails := v.sealFails + 1 })).mediaFault d.port .warn 7
          .next (s.readError d).rangeStep.evalLog
        | .ok xs =>
          match xs with
          | [] => .next (s.readDone d .corrupt none).rangeStep.evalLog
          | x :: _ => .next (s.readDone d (classify (s.placeOf d.set d.stripe d.frag d.row) x) (some x)).rangeStep.evalLog

/-- DRIVE_WRITE_COMPLETE (R121, R132, R167): a failed one fails its port; an intent-only write is then journaled (R128). -/
def execDriveWriteComplete (id : Nat) (ok : Bool) (s : State) : Host.Outcome State Fault Refusal :=
  match s.findCmd id with
  | none => .next s
  | some d =>
    if d.op ≠ .write ∨ !d.issued then .next s
    else if d.quarantined then .next (s.dropCmd id)
    else
      let s := s.count64 (Reg.dpWrites d.port.toNat) 1
      if ok then .next (((s.dropCmd id).issueWaiting d.port).writeSettled d).evalLog
      else
        let s := match d.purpose with
          | .stripeCommit seq => if s.isIntent seq then s.intentFailed seq else s
          | _ => s
        let s := ((s.dropCmd id).failPort d.port 0x14 false).writeSettled d
        .next (if d.purpose = .replay then s.replayFailed d.set else s).evalLog

/-- DRIVE_FLUSH_COMPLETE (R328, R337, R340): its failure declares the port failed; the shutdown request follows. -/
def execDriveFlushComplete (port : Byte) (ok : Bool) (s : State) : Host.Outcome State Fault Refusal :=
  let v := s.port port
  if v.state = .resetting ∨ (s.group (groupOf port)).state = .draining then
    let s := if ok then s else s.failPort port 0x14 false
    .next (s.sendShutdown port)
  else .next (if ok then s else s.failPort port 0x14 false)

/-- A drive confirmed shutdown, or its time is over: a draining group may go dark (R340). -/
def State.shutdownEnded (s : State) (port : Byte) : State :=
  (s.modPort port (fun v => { v with shutdownDone := true })).groupDown (groupOf port)

/-- DRIVE_SHUTDOWN_COMPLETE (R337, R340). -/
def execDriveShutdownComplete (port : Byte) (s : State) : Host.Outcome State Fault Refusal := .next (s.shutdownEnded port)

/-- SHUTDOWN_TIMEOUT (R340, R345): NOTE 0x0C, and the power-down or reset goes on; nothing for a port that was not asked. -/
def execShutdownTimeout (port : Byte) (s : State) : Host.Outcome State Fault Refusal :=
  if (s.port port).shutdownDone ∨ (s.port port).shutdownSent = false then .next s
  else .next ((s.linkFault port .note 0x0C).shutdownEnded port)

/-- DEAD_RECKONING_THRESHOLD (R171, R172). -/
def execDeadReckoningThreshold (id : Nat) (errs : List WordError) (s : State) : Host.Outcome State Fault Refusal :=
  let s := s.wordErrors errs
  match s.findCmd id with
  | none => .next s
  | some d =>
    if d.op ≠ .read ∨ d.quarantined ∨ d.slow then .next s
    else match d.purpose with
      | .rebuild | .scrub | .prefetch | .catchup => .next s
      | _ =>
        .next ((s.withDcmds (s.dcmds.map (fun e => if e.id = id then { e with slow := true } else e))).slowRead d)

/-- HARD_TIMEOUT (R331, R167): the port is declared failed. A PORT_ADMIN at its own limit ends with TIMEOUT, detail 0x02 (R256). -/
def execHardTimeout (id : Nat) (s : State) : Host.Outcome State Fault Refusal :=
  match s.findCmd id with
  | none => .next s
  | some d =>
    if d.quarantined ∨ !d.issued then .next s
    else
      let s := match d.op with
        | .admin 0x80 | .admin 0x10 => s
        | _ => s.count32 (Reg.dpTimeouts d.port.toNat) 1
      match d.op with
      | .admin _ =>
        let src := (s.port d.port).adminSrc
        .next (((s.dropCmd id).modPort d.port (fun v => { v with adminSrc := none })).endFor src stTimeout 2 [])
      | _ => .next (s.failPort d.port 0x12 false).evalLog

/-- PORT_SEAL_LIMIT (R167): never with SEAL_LIMIT 0, nor for a port that has not failed more sectors than it since the last
declaration or bring-up. -/
def execPortSealLimit (port : Byte) (s : State) : Host.Outcome State Fault Refusal :=
  if s.regField Reg.gcsRbsFail 0 16 = 0 ∨ (s.port port).sealFails ≤ s.regField Reg.gcsRbsFail 0 16 then .next s
  else .next ((s.modPort port (fun v => { v with sealFails := 0 })).failPort port 0x15 false).evalLog

/-- WRITE_LAG_LIMIT (R175): the drive write no longer holds back the completion; an intent-only write is journaled. -/
def execWriteLagLimit (id : Nat) (s : State) : Host.Outcome State Fault Refusal :=
  match s.findCmd id with
  | none => .next s
  | some d =>
    if d.op ≠ .write ∨ d.quarantined ∨ d.lagged then .next s
    else
      let s := s.withDcmds (s.dcmds.map (fun e => if e.id = id then { e with lagged := true } else e))
      match d.purpose with
      | .stripeCommit seq => .next (if s.isIntent seq then s.intentFailed seq else s.finishWrites)
      | _ => .next s

/-- Whether drives are being found for the first time since power came up: no insertion is reported (R345). -/
def State.starting (s : State) : Bool :=
  decide (s.gcs.phase = .boot) || decide (s.gcs.phase = .survey) || decide (s.gcs.phase = .recovery)

/-- RECEIVER_DETECTION (R322, R323): an EMPTY port with a receiver trains; hot insertion is reported (R335). A port of a
waking group is found by this detection too (R342). -/
def execReceiverDetection (port : Byte) (found : Bool) (s : State) : Host.Outcome State Fault Refusal :=
  let v := s.port port
  if !s.portPresent port ∨ v.state ≠ .empty ∨ !found ∨ (s.group (groupOf port)).state ≠ .powered then .next s
  else
    let s := s.modPort port (fun v => { v with state := .training })
    .next (if s.starting then s else s.linkFault port .note 0x0B)

/-- Queue slots in use (R326). -/
def State.slotsUsed (s : State) : Nat := (s.ports.map (fun e => e.2.pairsGranted * 2 ^ e.2.depthLog2)).foldl (· + ·) 0

/-- The queue grant of R326 items 1 to 4: pairs and log2 of the depth, none when one pair of 32 does not fit, and whether it
was reduced. -/
def queueGrant (free pairs depth : Nat) : Nat → Option (Nat × Nat × Bool)
  | 0 => none
  | fuel + 1 =>
    if pairs * 2 ^ depth ≤ free then some (pairs, depth, false)
    else if 5 < depth then (queueGrant free pairs (depth - 1) fuel).map (fun g => (g.1, g.2.1, true))
    else if 1 < pairs then (queueGrant free (pairs - 1) depth fuel).map (fun g => (g.1, g.2.1, true))
    else none

/-- Bring-up ended in ERROR (R324, R345). -/
def State.bringupFailed (s : State) (port : Byte) : State :=
  let v := s.port port
  if v.state ≠ .training then s
  else
    let src := v.resetSrc
    let s := (s.modPort port (fun v => { v.leave .error with resetSrc := none })).linkFault port .warn 3
    (s.endFor src stTimeout 3 []).groupUp (groupOf port)

/-- The lanes of a port of a quad by its form (R318). -/
def State.portLanes (s : State) (p : Byte) : Nat := (s.port p).width.toNat

/-- DRIVE_BRINGUP_COMPLETE (R324 to R327, R503): the port is READY, or in ERROR. -/
def execDriveBringupComplete (port : Byte) (result : BringupResult) (s : State) : Host.Outcome State Fault Refusal :=
  let v := s.port port
  if v.state ≠ .training ∧ v.state ≠ .recovery then .next s
  else match result with
  | .failed => .next (s.bringupFailed port)
  | .ok info =>
    let own := v.pairsGranted * 2 ^ v.depthLog2
    let free := 131072 - (s.slotsUsed - own)
    let want := min (s.regField (Reg.dpQcfg port.toNat) 0 5) info.pairs
    let depth := min (s.regField (Reg.dpQcfg port.toNat) 8 4) (Nat.log2 (info.mqes + 1))
    match queueGrant free (max 1 want) depth 32 with
    | none => .next (s.bringupFailed port)
    | some (pairs, dlog, less) =>
      let blank := v.failed && (s.memberOf port).isSome
      let s := if blank then
          s.emit (.driveCmd (driveCmd s.nextId port (if info.dlfeatZero then .deallocate else .writeZeroes) .management
            0 0 0 0 0 none))
        else s
      let src := v.resetSrc
      let s := s.modPort port (fun v => { v with
        state := .ready, formatOk := info.formatOk, dual := info.dual, mdSep := info.mdSep, gen := info.gen,
        nsze := info.sectors, recordedCapacity := some info.sectors, pairsGranted := pairs, depthLog2 := dlog,
        critWarn := info.critWarn, warning := decide (info.critWarn ≠ 0), pctUsed := info.pctUsed, nguid := info.nguid,
        resetSrc := none, sealFails := 0, shutdownSent := false, shutdownDone := false,
        catchup := info.formatOk && !v.failed && !v.catchupMap.isEmpty, catchupNext := 0 })
      let s := if info.gen.toNat < v.genMax.toNat ∨ info.width.toNat < v.width.toNat then s.linkFault port .note 2 else s
      let s := if less then s.linkFault port .note 4 else s
      let s := if info.critWarn ≠ 0 ∧ info.critWarn ≠ v.critWarn then s.linkFault port .warn 6 else s
      let s := (if v.state = .recovery then s.linkFault port .note 1 else s).issueWaiting port
      .next ((s.endFor src stOk 0 (resultOf [(0x10, 1, port.toNat)])).groupUp (groupOf port))

/-- CSTS_RDY_TIMEOUT (R324). -/
def execCstsRdyTimeout (port : Byte) (s : State) : Host.Outcome State Fault Refusal := .next (s.bringupFailed port)

/-- The outstanding commands of a port whose link went down with the drive still present (R334): reads are slow at once and
gone, writes are kept in order to be reissued. -/
def State.loseLink (s : State) (p : Byte) : State :=
  let s := s.freeQuarantine p
  let reads := (s.outstanding p).filter (fun d => d.op = .read)
  let s := s.withDcmds (s.dcmds.map (fun d => if d.port = p ∧ d.op = .write then { d with issued := false } else d))
  s.endCommands true reads

/-- A link that left L0 other than into L1 (R323, R334). -/
def State.portLinkDown (s : State) (port : Byte) (receiver : Bool) : State :=
  let v := s.port port
  match v.state with
  | .ready =>
    let s := s.count32 (Reg.dpLinkDowns port.toNat) 1
    if receiver then (s.modPort port (fun v => { v with state := .recovery, gen := 0, inL1 := false })).loseLink port
    else ((s.modPort port (fun v => v.leave .contained)).freeQuarantine port).failPort port 0x10 true
  | .training =>
    if receiver then s
    else
      let s := (s.modPort port (fun v => { v.leave .contained with resetSrc := none })).failPort port 0x10 true
      (s.endFor v.resetSrc stTimeout 3 []).groupUp (groupOf port)
  | _ => s

/-- LINK_DOWN (R334). -/
def execLinkDown (port : Byte) (receiver : Bool) (s : State) : Host.Outcome State Fault Refusal :=
  .next (s.portLinkDown port receiver).evalLog

/-- UNCORRECTABLE_LINK_ERROR (R345): WARN 0x08, and the link is taken down. -/
def execUncorrectableLinkError (port : Byte) (receiver : Bool) (s : State) : Host.Outcome State Fault Refusal :=
  .next ((s.linkFault port .warn 8).portLinkDown port receiver).evalLog

/-- RECOVERY_TIMEOUT (R323, R334). -/
def execRecoveryTimeout (port : Byte) (s : State) : Host.Outcome State Fault Refusal :=
  if (s.port port).state ≠ .recovery then .next s
  else .next ((s.modPort port (fun v => v.leave .contained)).failPort port 0x11 true).evalLog

/-- PORT_RESET_END (R323, R337): quarantined pages are freed; the port trains, or is EMPTY. -/
def execPortResetEnd (port : Byte) (receiver : Bool) (s : State) : Host.Outcome State Fault Refusal :=
  let v := s.port port
  if v.state ≠ .resetting then .next s
  else
    let s := s.freeQuarantine port
    if receiver then
      .next (s.modPort port (fun v => v.leave .training))
    else
      let src := v.resetSrc
      .next ((s.modPort port (fun v => { v.leave .empty with resetSrc := none })).endFor src stTimeout 3 [])

/-- QUARANTINE_RESET (R333). -/
def execQuarantineReset (port : Byte) (s : State) : Host.Outcome State Fault Refusal :=
  let inService := match s.memberOf port with
    | none => false
    | some id => decide ((s.set id).state = .running) || decide ((s.set id).state = .draining)
  if (s.quarantined port).isEmpty ∨ s.regField Reg.dpQuarReset 0 16 = 0 ∨ (inService = true ∧ (s.port port).failed = false) ∨
      (s.port port).state ≠ .ready then .next s
  else .next ((s.linkFault port .note 0x0A).startReset port none)

/-- A Critical Warning read (R343): WARN 0x06 once per change to a non-zero value. -/
def State.critWarning (s : State) (port : Byte) (cw : Byte) : State :=
  let was := (s.port port).critWarn
  let s := s.modPort port (fun v => { v with critWarn := cw, warning := decide (cw ≠ 0) })
  if cw ≠ 0 ∧ cw ≠ was then s.linkFault port .warn 6 else s

/-- DRIVE_ASYNC_EVENT (R343). -/
def execDriveAsyncEvent (port : Byte) (critWarn : Byte) (s : State) : Host.Outcome State Fault Refusal :=
  if (s.port port).state ≠ .ready then .next s else .next (s.critWarning port critWarn)

/-- HEALTH_POLL (R343): port, Critical Warning and Percentage Used of each READY drive; never with POLL_S 0. -/
def execHealthPoll (logs : List (Byte × Byte × Byte)) (s : State) : Host.Outcome State Fault Refusal :=
  if s.regField Reg.dpHealthPoll 0 16 = 0 then .next s
  else .next (logs.foldl (fun s l =>
    if (s.port l.1).state = .ready then
      (s.modPort l.1 (fun v => { v with pctUsed := l.2.2 })).critWarning l.1 l.2.1
    else s) s)

/-- DRIVE_DMA_REJECT (R330). -/
def execDriveDmaReject (port : Byte) (s : State) : Host.Outcome State Fault Refusal :=
  .next ((s.count32 Reg.dpDmaRejects 1).linkFault port .warn 5)

/-- DRIVE_LINK_ERROR_WINDOW (R345): the correctable errors of one second. -/
def execDriveLinkErrorWindow (port : Byte) (errors : Nat) (s : State) : Host.Outcome State Fault Refusal :=
  let s := s.count32 (Reg.dpLinkErrors port.toNat) errors
  .next (if s.regField Reg.dpLinkerr 0 16 < errors then s.linkFault port .note 7 else s)

/-- DRIVE_L1_ENTRY (R321). -/
def execDriveL1Entry (port : Byte) (s : State) : Host.Outcome State Fault Refusal :=
  if (s.port port).state = .ready ∧ s.regBit Reg.dpPm 0 then
    .next (s.modPort port (fun v => { v with inL1 := true }))
  else .next s

/-- CONTROLLER_FATAL_STATUS (R167). -/
def execControllerFatalStatus (port : Byte) (s : State) : Host.Outcome State Fault Refusal :=
  .next (s.failPort port 0x13 false).evalLog

/-- The commands outstanding to a group's ports. -/
def State.groupCmds (s : State) (g : Nat) : List DriveCmd := s.dcmds.filter (fun d => decide (groupOf d.port = g) && !d.quarantined)

/-- The drained group goes on to flush and shutdown, or straight to DARK when it has no drive (R340 steps 6 and 7). -/
def State.groupDrained (s : State) (g : Nat) : State := (s.flushGroup g).groupDown g

/-- GROUP_DRAIN_END (R340 step 3): no command is outstanding. -/
def execGroupDrainEnd (group : BitVec 4) (s : State) : Host.Outcome State Fault Refusal :=
  let g := group.toNat
  if (s.group g).state ≠ .draining ∨ !(s.groupCmds g).isEmpty then .next s else .next (s.groupDrained g)

/-- DRAIN_TIMEOUT (R340 steps 4 and 5): without FORCE the ports serve again, after the catch-up of writes skipped meanwhile. -/
def execDrainTimeout (group : BitVec 4) (s : State) : Host.Outcome State Fault Refusal :=
  let g := group.toNat
  let v := s.group g
  if v.state ≠ .draining then .next s
  else if (s.groupCmds g).isEmpty then .next (s.groupDrained g)
  else if v.force then
    let ds := s.groupCmds g
    let s := s.modGroup g (fun v => { v with leftovers := ds.length })
    .next ((s.endCommands false ds).groupDrained g).evalLog
  else
    let src := v.src
    let s := s.modGroup g (fun v => { v with state := .powered, src := none, leftovers := 0 })
    let s := (groupPorts g).foldl (fun s p => s.modPort p (fun v =>
      if v.state = .ready ∧ v.formatOk ∧ !v.failed ∧ v.catchupMap ≠ [] then { v with catchup := true, catchupNext := 0 } else v)) s
    .next ((s.linkFault (BitVec.ofNat 8 (16 * g)) .note 9).endFor src stTimeout 1 [])

/-- GROUP_WAKE_DELAY (R342 steps 2 and 3): ports with a receiver train; a member port without one has failed. -/
def execGroupWakeDelay (group : BitVec 4) (receivers : List Byte) (s : State) : Host.Outcome State Fault Refusal :=
  let g := group.toNat
  if (s.group g).state ≠ .waking then .next s
  else
    let s := (groupPorts g).foldl (fun s p =>
      if (s.port p).state ≠ .dark then s
      else if p ∈ receivers then s.modPort p (fun v => { v with state := .training })
      else
        let s := s.modPort p (fun v => { v with state := .empty })
        if (s.memberOf p).isSome then s.failPort p 0x11 true else s) s
    .next (s.groupUp g)

end Sys2Proof.Machine
end

