-- ==== Sys2Proof/Machine/Io.lean ====
section
/-! DEFINITION. Data-ring descriptors (spec/07_host_rings.md R218 to R227): the checks of admission, READ, WRITE,
WRITE_ZEROES, VERIFY and NOP, with the journaling of spec/04 R115 to R136 and the cache of spec/10 R297 to R310. -/

namespace Sys2Proof.Machine

/-! ## Admission -/

/-- The descriptor of ring n that may be admitted next, none when the ring or the controller admits nothing (R210, R221,
R223, R225, R443, R458). -/
def State.frontDesc (s : State) (n : BitVec 10) : Option Desc :=
  let g := s.ring (.data n)
  if ¬ (g.state = .active ∨ g.state = .faulted) ∨ s.gcs.halted ∨ s.portSilent (s.ringPort (.data n)) ∨ !s.scc.ready ∨
      ¬ (s.gcs.phase = .running ∨ s.gcs.phase = .dock) then none
  else match g.queue with
    | [] => none
    | d :: _ =>
      if d.flags.getLsbD 1 ∧ g.head ≠ d.pos then none
      else if (s.set d.set.toNat).replaying ∨ s.watch.toNat < (s.set d.set.toNat).ownedFrom.toNat then none
      else some d

/-- The turn of its level passes to data ring n (R223). -/
def State.passTurn (s : State) (n : BitVec 10) : State :=
  s.withRings (Tab.mapV s.rings Ring.at0 (fun k g =>
    if k < 1024 ∧ s.ringPrio (.data (BitVec.ofNat 10 k)) = s.ringPrio (.data n) then { g with lastTurn := decide (k = n.toNat) } else g))

/-- The front descriptor leaves the ring's queue: it is admitted or ended (R224). -/
def State.takeFront (s : State) (n : BitVec 10) : State :=
  ((s.passTurn n).modRing (.data n) (fun g => { g with queue := g.queue.drop 1, admitWait := false })).leaveDock

/-- The front descriptor waits at admission (R224). -/
def State.waitFront (s : State) (n : BitVec 10) : State := s.modRing (.data n) (fun g => { g with admitWait := true })

/-- The block space of a set (R30). -/
def State.blockSpace (s : State) (a : ArraySet) : Nat := a.stripeCount.toNat * ((s.setProfile a).k * a.s)

/-- The list causes of R219 and R270: lengths that do not add up, an empty entry, or a reserved field that is not zero. -/
def sglBad (es : List SglEntry) (bytes : Nat) : Bool :=
  es.any (fun e => decide (e.len = 0) || decide (e.zero ≠ 0)) || decide ((es.map (fun e => e.len.toNat)).foldl (· + ·) 0 ≠ bytes)

/-- An active peer window (R448). -/
def State.window (s : State) (w : Nat) : Window := Tab.get s.pwin.active Window.at0 w

/-- The region of a window in force, as an address and a length in the pool. -/
def State.winRange (s : State) (w : Nat) : Nat × Nat := ((s.window w).tbPage * 4096, (s.window w).pages * 4096)

/-- The data ranges of a descriptor: address and length (R219). -/
def descRanges (d : Desc) (sgl : SglFetch) : List (Nat × Nat) :=
  match d.mode.toNat, sgl with
  | 0, _ => (if d.len0 = 0 then [] else [(d.addr0.toNat, d.len0)]) ++ (if d.len1 = 0 then [] else [(d.addr1.toNat, d.len1)])
  | 1, .entries es => es.map (fun e => (e.addr.toNat, e.len.toNat))
  | _, _ => []

/-- Whether STRICT alignment fails on a range (R271). -/
def strictBad (r : Nat × Nat) : Bool := decide (r.1 % 64 ≠ 0) || decide (r.2 % 64 ≠ 0)

/-- The alignment mode of the channel that would serve a line: STRICT or not (R271, CHn.CFG.ALIGN). -/
def State.lineStrict (s : State) (line : Nat) : Bool :=
  match s.lineChannel line with
  | some n => s.regBit (Reg.dmvChCfg n) 3
  | none => false

/-- The blocks of a descriptor. -/
def Desc.lbas (d : Desc) : List Nat := (List.range d.blocks).map (d.lba + ·)

/-- Whether a descriptor writes. -/
def Desc.writes (d : Desc) : Bool := decide (d.opcode = 2) || decide (d.opcode = 3)

/-- The first check of R12 and R226 that a descriptor fails; HELD for writes in Hold and at HARD (R387, R135). -/
def State.admitCheck (s : State) (d : Desc) (sgl : SglFetch) : Option (Byte × Byte) :=
  let a := s.set d.set.toNat
  let tb := decide (d.mode = 2)
  let w := s.window (d.len0 % 64)
  let windowGone := decide (Config.windows s.part ≤ d.len0 % 64)
  let line := if tb then 3 else if d.writes then 1 else 2
  reported [
    failIf (decide (a.state ≠ .empty) && decide (s.blockSpace a < d.lba + d.blocks)) stBadField 1,
    (match sgl with
      | .entries es => failIf (decide (d.mode = 1) && sglBad es (d.blocks * 4096)) stBadField 3
      | _ => none),
    failIf (tb && !windowGone && !w.valid) stBadField 5,
    failIf (tb && !windowGone && w.valid && decide (w.pages * 4096 < d.addr0.toNat + d.blocks * 4096)) stBadField 4,
    failIf (tb && windowGone) stNotPresent 1,
    failIf (d.writes && d.lbas.any (fun b => decide ((a.policyAt b).1 = .readOnly))) stDenied 1,
    failIf (((descRanges d sgl).any strictBad && s.lineStrict line) || (tb && decide (d.addr0.toNat % 4096 ≠ 0)))
      stAlignment (if d.writes then 1 else 2),
    failIf (decide (d.mode = 1) && decide (d.addr0.toNat % 16 ≠ 0)) stAlignment 1,
    failIf (decide (a.state ≠ .running)) stSetState a.state.code,
    failIf (d.writes && s.inHold) stHeld 2,
    failIf (d.writes && s.log.full) stHeld 1 ]

/-- The failure of an unreadable list, reported only when every other check passes (R219). -/
def sglUnreadable (sgl : SglFetch) : Option (Byte × Byte) :=
  match sgl with
  | .unreadable det => some (stBusError, det)
  | _ => none

/-- The stripes that a descriptor touches. -/
def State.stripesOf (s : State) (d : Desc) : List Nat :=
  let a := s.set d.set.toNat
  let ks := (s.setProfile a).k * a.s
  (d.lbas.map (fun b => b / ks)).eraseDups

/-- Whether a stripe waits for resync (R142): a row of it has not been handled. -/
def ArraySet.resyncing (a : ArraySet) (stripe : Nat) : Bool :=
  a.resync.any (fun r => decide (r.stripe ≤ stripe) && decide (stripe < r.stripe + r.count) &&
    (List.range a.s).any (fun row => decide ((stripe, row) ∉ r.rowsDone)))

/-- The ranges of a resync list whose rows have all been handled, none UNRESOLVED, leave it, and their intent records are
retired (R142, R143). -/
def State.resyncSettle (s : State) (set : BitVec 6) : State :=
  let a := s.set set.toNat
  let inR (r : Resync) (st : Nat) : Bool := decide (r.stripe ≤ st) && decide (st < r.stripe + r.count)
  let over? (r : Resync) : Bool := decide (r.count * a.s ≤ r.rowsDone.length) && !a.unresolved.any (fun x => inR r x.1)
  let gone := a.resync.filter over?
  if gone.isEmpty then s
  else
    (s.setSet set.toNat { a with resync := a.resync.filter (fun r => !over? r) }).appendRetires gone.length
      (gone.map (fun r => r.seq))

/-- Whether an intent-only write holds a stripe (R124). -/
def State.intentHolds (s : State) (set : BitVec 6) (stripe : Nat) : Bool :=
  s.log.recs.any (fun r => r.typ = .intent && r.set = set && !r.retired && decide (r.status ≠ .abandoned) &&
    decide (r.stripe ≤ stripe) && decide (stripe < r.stripe + r.stripeCount)) ||
  (s.set set.toNat).resyncing stripe

/-- Whether scrub reads a stripe, which holds the admission of writes to it (R192). -/
def State.scrubHolds (s : State) (set : BitVec 6) (stripe : Nat) : Bool :=
  let a := s.set set.toNat
  s.sched.scrubbing && decide (a.scrubLive.toNat ≤ stripe) && decide (stripe < a.scrubGrant.toNat)

/-- Whether a write to a stripe waits (R124, R142, R177, R183, R192). -/
def State.writeWaits (s : State) (set : BitVec 6) (stripe : Nat) : Bool :=
  s.scrubHolds set stripe ||
  s.intentHolds set stripe || decide (stripe ∈ (s.set set.toNat).heldStripes) ||
    s.arbitrating.any (fun x => x.1 = set && x.2.1 = stripe)

/-! ## Parts of a write (R126) -/

/-- A part of a write: its stripe, first block within the stripe, blocks, policy, acknowledgement. -/
structure Part' where
  stripe : Nat
  off : Nat
  n : Nat
  pol : WritePolicy
  sealedAck : Bool
  region : Option Nat
deriving DecidableEq, Repr

/-- The parts of a run of blocks: split at stripe and region boundaries (R126). -/
def State.partsOf (s : State) (a : ArraySet) : List Nat → List Part'
  | [] => []
  | b :: rest =>
    let ks := (s.setProfile a).k * a.s
    let pol := a.policyAt b
    let one : Part' :=
      { stripe := b / ks, off := b % ks, n := 1, pol := pol.1, sealedAck := pol.2, region := a.regionAt b }
    match s.partsOf a rest with
    | p :: ps => if p.stripe = one.stripe ∧ p.region = one.region then { p with off := one.off, n := p.n + 1 } :: ps
      else one :: p :: ps
    | [] => [one]

/-- The rectangles of fragments and rows that cover n blocks from `off` of a stripe, at most three (R117): first fragment,
fragments, first row, rows. -/
def rectsOf (s off n : Nat) : List (Nat × Nat × Nat × Nat) :=
  let f0 := off / s
  let r0 := off % s
  let e := off + n - 1
  let f1 := e / s
  let r1 := e % s
  if f0 = f1 then [(f0, 1, r0, r1 - r0 + 1)]
  else
    let m0 := if 0 < r0 then f0 + 1 else f0
    let m1 := if r1 + 1 < s then f1 - 1 else f1
    (if 0 < r0 then [(f0, 1, r0, s - r0)] else []) ++
    (if m0 ≤ m1 then [(m0, m1 - m0 + 1, 0, s)] else []) ++
    (if r1 + 1 < s then [(f1, 1, 0, r1 + 1)] else [])

/-- Whether a part is an intent-only write (R125 to R127). -/
def State.partIntent (s : State) (a : ArraySet) (set : BitVec 6) (p : Part') : Bool :=
  let ks := (s.setProfile a).k * a.s
  decide (p.n = ks) && !p.sealedAck && (decide (p.pol = .journalPartial) || decide (p.pol = .writeThrough)) &&
    !s.log.recs.any (fun r => r.typ = .data && r.set = set && r.stripe = p.stripe && !r.retired &&
      decide (r.status ≠ .abandoned))

/-- Whether a row of a write keeps fewer than w − t durable fragments, or is beyond tolerance or unresolved without the write
covering every unavailable data fragment (R143, R178, R195). -/
def State.partLost (s : State) (set : BitVec 6) (a : ArraySet) (p : Part') : Bool :=
  let prof := s.setProfile a
  let rev := a.revFor p.stripe
  let mask := s.eraseMask set rev p.stripe
  let down := (prof.frags.filter (fun f => match s.bearing set rev p.stripe f with
    | .at q _ => (s.port q).failed || !s.portTakesWrite q
    | .failed _ _ _ => false)).length
  let rects := rectsOf a.s p.off p.n
  let covers (f row : Nat) : Bool := rects.any (fun r => decide (r.1 ≤ f) && decide (f < r.1 + r.2.1) &&
    decide (r.2.2.1 ≤ row) && decide (row < r.2.2.1 + r.2.2.2))
  let rows := (rects.flatMap (fun r => (List.range r.2.2.2).map (r.2.2.1 + ·))).eraseDups
  decide (prof.tol < down) || rows.any (fun row =>
    let sus := (List.range prof.k).filter (fun f => s.suspect set p.stripe row f ||
      (mask.getLsbD f && (!prof.decodable mask || decide ((p.stripe, row) ∈ a.unresolved))))
    !sus.isEmpty && !sus.all (fun f => covers f row))

/-- Payload bytes that a part adds to the credit, and occupancy units with the COMMIT reserve (R130, R135). -/
def State.partLoad (s : State) (a : ArraySet) (p : Part') (zero : Bool) : Nat × Nat :=
  let prof := s.setProfile a
  (rectsOf a.s p.off p.n).foldl (fun acc r =>
    let n := r.2.1 * r.2.2.2
    (acc.1 + (if zero then 0 else n * 4096),
      acc.2 + (if zero then 1 else 2 + 64 * n) + (prof.width - prof.k) * 64 * r.2.2.2 + 2)) (0, 0)

/-- The block of a write at a place of a stripe. -/
def blockAt (k s : Nat) (blocks : List Bytes) (base stripe f row : Nat) : Bytes :=
  blocks.getD (lbaOf k s stripe f row - base) (fill 4096 0)

/-- The version of an admitted write (R65, R157). -/
def Io.ver (io : Io) : Version := (io.watch.toNat, io.generation.toNat)

/-- The headers of one part of an admitted write: its DATA records, or its intent record (R111, R115 to R117, R125). Answers the
records the completion needs committed, and those whose drive writes it needs. -/
def State.logPart (s : State) (io : Io) (p : Part') : State × List Nat × List Nat :=
  let a := s.set io.set.toNat
  let prof := s.setProfile a
  let zero := decide (io.kind = .writeZeroes)
  if s.partIntent a io.set p then
    let seq := s.log.nextSeq
    (s.appendRec { Rec.blank .intent 1 with
      set := io.set, profile := a.profile, incarnation := a.incarnation, generation := io.generation, watch := io.watch,
      stripe := p.stripe, stripeCount := 1, holdover := io.holdover, fixNs := s.wch.fixNs, io := some io.id }, [seq], [seq])
  else
    (rectsOf a.s p.off p.n).foldl (fun (acc : State × List Nat × List Nat) r =>
      let seq := acc.1.log.nextSeq
      let s := acc.1.appendRec { Rec.blank .data (if zero then 1 else 2 + 64 * (r.2.1 * r.2.2.2)) with
        set := io.set, profile := a.profile, rowFirst := r.2.2.1, rowCount := r.2.2.2, incarnation := a.incarnation,
        generation := io.generation, watch := io.watch, stripe := p.stripe,
        fragMask := BitVec.ofNat 64 (maskOf ((List.range r.2.1).map (r.1 + ·))), zero := zero, holdover := io.holdover,
        fixNs := s.wch.fixNs, io := some io.id, sealedAck := p.sealedAck, names := (List.range r.2.2.2).map (r.2.2.1 + ·),
        reserve := (prof.width - prof.k) * 64 * r.2.2.2 + 2, filled := false }
      (s, acc.2.1 ++ [seq], if p.pol = .writeThrough then acc.2.2 ++ [seq] else acc.2.2)) (s, [], [])

/-- The headers of every part of an admitted write (R126). -/
def State.logWrite (s : State) (io : Io) : State × Io :=
  let parts := s.partsOf (s.set io.set.toNat) io.desc.lbas
  let x := parts.foldl (fun (acc : State × List Nat × List Nat) p =>
    let y := acc.1.logPart io p
    (y.1, acc.2.1 ++ y.2.1, acc.2.2 ++ y.2.2)) (s, [], [])
  let io := { io with waitRecs := x.2.1, waitWrites := x.2.2, waitSeal := parts.any (fun p => p.sealedAck) }
  (x.1.setIo io, io)

/-- The places of a DATA record: fragments ascending, rows ascending (R117). -/
def Rec.places (r : Rec) : List (Nat × Nat) :=
  (bitList 64 r.fragMask.toNat).flatMap (fun f => (List.range r.rowCount).map (fun i => (f, r.rowFirst + i)))

/-- The DATA records of a write that are being written. -/
def State.openRecs (s : State) (io : Io) : List Rec :=
  s.log.recs.filter (fun r => decide (r.io = some io.id) && decide (r.typ = .data) && decide (r.status = .writing))

/-- One PENDING line for each key that has none yet, up to the first allocation that finds no way (R300, R301). -/
def State.pendLines (s : State) (io : Nat) (c : CacheClass) (age : Nat) : List LineKey → State × Bool
  | [] => (s, true)
  | k :: rest =>
    if s.scc.lines.any (fun e => decide (e.2.state = .pending) && decide (e.2.io = some io) && decide (e.2.key = k)) then
      s.pendLines io c age rest
    else
      match s.allocate k (s.classMask c) with
      | (s, none) => (s, false)
      | (s, some i) => (s.putLine i k .pending [] Seal.zero age false (some io)).pendLines io c age rest

/-- The PENDING lines of a write, one per sector of its DATA records (R301). -/
def State.lineWrite (s : State) (io : Io) : State × Bool :=
  s.pendLines io.id (if io.desc.mode = 2 then .peer else .hostWrite) (if io.desc.flags.getLsbD 3 then 3 else 0)
    ((s.openRecs io).flatMap (fun r => r.places.map (fun x => s.keyOf io.set r.stripe x.1 x.2)))

/-- A PENDING line filled with its sector of a DATA record (R301). -/
def State.fillLine (s : State) (io : Io) (r : Rec) (l : Line) : Line :=
  if l.state = .pending ∧ l.io = some io.id ∧ l.key.set = io.set ∧ l.key.stripe = r.stripe then
    match r.places.find? (fun x => decide (s.keyOf io.set r.stripe x.1 x.2 = l.key)) with
    | none => l
    | some x =>
      let d := r.sectorAt x.1 x.2
      { l with data := d, sl := (sealFor (s.placeOf io.set r.stripe x.1 x.2) ((s.set io.set.toNat).revFor r.stripe).rev
        (SealFlags.plain r.zero r.holdover) io.ver 0 d).sl }
  else l

/-- The stripe commit of an intent-only write with its data (R126); it starts once its record is committed (R121). -/
def State.intentCommit (s : State) (io : Io) (blocks : List Bytes) (r : Rec) : State :=
  let a := s.set io.set.toNat
  let prof := s.setProfile a
  let zero := decide (io.kind = .writeZeroes)
  let at? (f row : Nat) : Bytes := if zero then fill 4096 0 else blockAt prof.k a.s blocks io.desc.lba r.stripe f row
  let c : CommitOp :=
    { id := s.nextId, set := io.set, stripe := r.stripe, rowFirst := 0, rowCount := a.s, vp := io.ver,
      lwm := BitVec.ofNat 64 (maskOf (List.range prof.k)), zero := zero, holdover := io.holdover,
      rev := a.revFor r.stripe, rmw := false, encode := true, got := [], waits := [], parity := [], dataRecs := [],
      record := none, intent := some r.seq, tried := false,
      data := (List.range prof.k).flatMap (fun f => (List.range a.s).map (fun row =>
        { frag := f, row := row, data := at? f row, ver := io.ver, zero := zero, holdover := io.holdover })) }
  let s := (s.withNextId (s.nextId + 1)).withCommits (s.commits ++ [c])
  if r.status = .committed then (s.startIntent r).settleIntent r.seq else s

/-- The data of a write streamed into its records and lines (R111, R126, R301), and the rows it covers resolved (R143, R178). -/
def State.fillWrite (s : State) (io : Io) (blocks : List Bytes) : State :=
  let a := s.set io.set.toNat
  let prof := s.setProfile a
  let ins := s.log.recs.filter (fun r => decide (r.io = some io.id) && decide (r.typ = .intent) && decide (r.status ≠ .abandoned))
  let s := s.withLog { s.log with recs := s.log.recs.map (fun r =>
    if r.io = some io.id ∧ r.typ = .data ∧ r.status = .writing then
      { r with filled := true, sectors := if r.zero then [] else r.places.map (fun x =>
          (x.1, x.2, blockAt prof.k a.s blocks io.desc.lba r.stripe x.1 x.2)) }
    else r) }
  let s := (s.openRecs io).foldl (fun s r =>
    s.withScc { s.scc with lines := Tab.mapV s.scc.lines Line.at0 (fun _ l => s.fillLine io r l) }) s
  let parts := s.partsOf a io.desc.lbas
  let s := s.modSet io.set.toNat (fun a => { a with
    extents := parts.foldl (fun l p => withElem l (p.stripe / 1024)) a.extents,
    unresolved := a.unresolved.filter (fun x => !parts.any (fun p => decide (p.stripe = x.1) && decide (p.n = prof.k * a.s))),
    suspects := a.suspects.filter (fun x => !parts.any (fun p => decide (p.stripe = x.1) &&
      (rectsOf a.s p.off p.n).any (fun r => decide (r.1 ≤ x.2.2) && decide (x.2.2 < r.1 + r.2.1) &&
        decide (r.2.2.1 ≤ x.2.1) && decide (x.2.1 < r.2.2.1 + r.2.2.2)))) })
  let s := (s.setIo { io with dataIn := true }).resyncSettle io.set
  ins.foldl (fun s r => s.intentCommit io blocks r) s

/-- The next GENERATION of a set (R65, R157): the count within the watch in force, with the side in bit 31 in pair mode. -/
def State.nextGeneration (s : State) (set : BitVec 6) : State × Word32 :=
  let a := s.set set.toNat
  let g := if a.genWatch = s.watch then a.generation else 0
  let s := s.setSet set.toNat { a with genWatch := s.watch, generation := g + 1 }
  let side := if a.adopted = some s.watch then !s.pair.side else s.pair.side
  (s, BitVec.ofNat 32 (g + (if s.pair.state ≠ .single ∧ side then 2 ^ 31 else 0)))

/-- Whether the generation limit of the watch is reached (R157). -/
def State.generationFull (s : State) (set : BitVec 6) : Bool :=
  let a := s.set set.toNat
  decide (a.genWatch = s.watch) && decide (s.maxGeneration < a.generation)

/-- The host or pool ranges of a descriptor's data (R219). -/
def State.ioRanges (s : State) (d : Desc) (sgl : SglFetch) : List (Nat × Nat) :=
  if d.mode = 2 then [((s.window (d.len0 % 64)).tbPage * 4096 + d.addr0.toNat, d.blocks * 4096)] else descRanges d sgl

/-- The region that a TBUF-mode descriptor holds until it completes (R454). -/
def State.ioHeld (s : State) (d : Desc) : List (Nat × Nat) := if d.mode = 2 then [s.winRange (d.len0 % 64)] else []

/-- An I/O for an admitted descriptor. -/
def newIo (id : Nat) (n : BitVec 10) (kind : IoKind) (d : Desc) (watch : BitVec 48) (gen : Word32) (h : Bool) : Io :=
  { id := id, ring := n, kind := kind, desc := d, set := BitVec.ofNat 6 d.set.toNat, watch := watch, generation := gen,
    holdover := h, blocks := [], waits := [], lost := [], waitRecs := [], waitWrites := [], waitSeal := false,
    committed := false, dataIn := false, lined := false,
    ranges := [], held := [], fwd := false, away := false, inbound := [] }

/-! ## Forwarding (R401) -/

/-- Whether the partner owns the set of a descriptor (R399): in PAIRED, and until a takeover is complete. -/
def State.partnerOwns (s : State) (d : Desc) : Bool :=
  let a := s.set (d.set.toNat % 64)
  (decide (s.pair.state = .paired) || decide (s.pair.state = .takeover)) && decide (a.state ≠ .empty) &&
    decide (a.side ≠ s.pair.side)

/-- The 64 bytes of a data descriptor, its PHASE zero (R217). -/
def Desc.bytes (d : Desc) : Bytes :=
  [d.opcode, d.flags &&& 0xFE#8, d.set, d.mode] ++ leBytes 2 d.blocks ++ [0, 0] ++ leBytes 8 d.tag.toNat ++ leBytes 6 d.lba ++
    [0, 0] ++ leBytes 8 d.addr0.toNat ++ leBytes 8 d.addr1.toNat ++ leBytes 4 d.len0 ++ leBytes 4 d.len1 ++ fill 16 0

/-- The reference of a descriptor of data ring n that this side forwards: the ring and the position, as Io.ref gives it there. -/
def State.awayRef (s : State) (n : BitVec 10) (d : Desc) : Nat :=
  let k := s.ringN (.data n)
  n.toNat + 2 ^ 16 * (posIndex k d.pos + 2 ^ 16 * ofBool (posLap k d.pos))

/-- A descriptor of a set that the partner owns: what fails here completes here; the rest is forwarded, or waits while the link is
down. HELD is for the owner to say. -/
def State.forwardDesc (s : State) (n : BitVec 10) (d : Desc) (kind : IoKind) (sgl : SglFetch) : State :=
  match ((s.admitCheck d sgl).filter (fun f => f.1 ≠ stHeld)).orElse (fun _ => sglUnreadable sgl) with
  | some (st, det) => (s.takeFront n).finishDesc n d st det d.lba d.blocks
  | none =>
    if s.pair.state ≠ .paired ∨ !s.pair.link then s.waitFront n
    else
      let s := (s.takeFront n).count64 Reg.pairForwarded 1
      let io := { newIo s.nextId n kind d 0 0 false with ranges := s.ioRanges d sgl, held := s.ioHeld d, away := true }
      ((s.withNextId (s.nextId + 1)).withIos (s.ios ++ [io])).sendFlit 4 (s.awayRef n d) d.bytes

/-- The causes for which a write waits at admission (R124, R130, R135, R142, R157, R183). -/
def State.writeMustWait (s : State) (d : Desc) : Bool :=
  let set : BitVec 6 := BitVec.ofNat 6 d.set.toNat
  let a := s.set set.toNat
  let zero := decide (d.opcode = 3)
  let parts := s.partsOf a d.lbas
  let journaled := parts.filter (fun p => !s.partIntent a set p)
  let load := journaled.foldl (fun t p => let l := s.partLoad a p zero; (t.1 + l.1, t.2 + l.2)) (0, 0)
  let small := journaled.any (fun p => decide (p.n ≠ (s.setProfile a).k * a.s))
  (s.stripesOf d).any (fun st => s.writeWaits set st) || s.generationFull set ||
    (!journaled.isEmpty && decide (s.creditNow ≤ 0)) ||
    (!journaled.isEmpty && decide (Config.uncoveredSectors s.part ≤ s.uncoveredSectors)) ||
    (s.log.paced && small && decide (s.recentUnits s.log.freed < s.recentUnits s.log.pacedAdds + load.2)) ||
    decide (s.journalUnits < s.occupancy + load.2 + (parts.length - journaled.length) + anchorUnits)

/-- Whether a descriptor must wait at admission (R224): a check that fails ends it at once. -/
def State.descWaits (s : State) (d : Desc) : Bool :=
  let bad := s.admitCheck d .notNeeded
  if s.partnerOwns d then (bad.filter (fun f => f.1 ≠ stHeld)).isNone && (decide (s.pair.state ≠ .paired) || !s.pair.link)
  else bad.isNone && (match d.opcode.toNat with
    | 2 | 3 => s.writeMustWait d
    | 1 | 4 => (s.stripesOf d).any (fun t => (s.set d.set.toNat).resyncing t)
    | _ => false)

/-- Whether the next descriptor of a data ring has been read and can be admitted now (R223). -/
def State.admissible (s : State) (n : BitVec 10) : Bool :=
  match s.frontDesc n with
  | none => false
  | some d => !s.descWaits d

/-- The place of a data ring in the round of its level: the rings after the last one served come first (R223). -/
def State.turnKey (s : State) (n : BitVec 10) : Nat :=
  match s.liveDataRings.find? (fun m => s.ringPrio (.data m) = s.ringPrio (.data n) && (s.ring (.data m)).lastTurn) with
  | none => n.toNat
  | some m => if m.toNat < n.toNat then n.toNat else n.toNat + 1024

/-- Whether a data ring may be served now (R223): no other ring of a higher level, or before it in its level's round, has a
descriptor that can be admitted. -/
def State.turn (s : State) (n : BitVec 10) : Bool :=
  let l := s.ringPrio (.data n)
  !s.liveDataRings.any (fun m => decide (m ≠ n) && s.admissible m && (decide (s.ringPrio (.data m) < l) ||
    (decide (s.ringPrio (.data m) = l) && decide (s.turnKey m < s.turnKey n))))

/-- The outcome of admission of a descriptor that the partner forwarded, with the version, sent to the reading side (R401). -/
def State.grant (s : State) (ref : Nat) (status detail : Byte) (watch : BitVec 48) (gen : Word32) : State :=
  s.sendFlit 5 ref ([status, detail] ++ leBytes 6 watch.toNat ++ leBytes 4 gen.toNat)

/-- The data of a write with its lines fetched (R265: line 1, or line 3 for TBUF; R401); a WRITE_ZEROES has its data. -/
def State.fetchWrite (s : State) (io : Io) : State :=
  if io.kind = .writeZeroes then s.fillWrite io []
  else if io.fwd then s.grant io.ref stOk 0 io.watch io.generation
  else s.queueTransfer (if io.desc.mode = 2 then 3 else 1) { Transfer.blank with
    io := some io.id, port := s.ringPort (.data io.ring), bytes := io.desc.blocks * 4096, srcs := io.ranges,
    srcPool := decide (io.desc.mode = 2) }

/-- The lines of an admitted write allocated and its data fetched; with a line wanting both wait (R300). -/
def State.startWrite (s : State) (io : Io) : State :=
  match s.lineWrite io with
  | (s, false) => s
  | (s, true) =>
    let io := { io with lined := true }
    (s.setIo io).fetchWrite io

/-- The payload of the journaled parts of a write, and the occupancy they add (R130, R135). -/
def State.writeLoad (s : State) (set : BitVec 6) (lbas : List Nat) (zero : Bool) : Nat × Nat :=
  let a := s.set set.toNat
  ((s.partsOf a lbas).filter (fun p => !s.partIntent a set p)).foldl (fun t p =>
    let l := s.partLoad a p zero
    (t.1 + l.1, t.2 + l.2)) (0, 0)

/-- A write bound to its set (R65, R130, R135): its credit, its version, its records, its lines, its data. -/
def State.bindWrite (s : State) (n : BitVec 10) (d : Desc) (sgl : SglFetch) (fwd : Bool) : State :=
  let zero := decide (d.opcode = 3)
  let set : BitVec 6 := BitVec.ofNat 6 d.set.toNat
  let load := s.writeLoad set d.lbas zero
  let s := if load.1 = 0 then s else s.deductCredit load.1
  let s := if s.log.paced then s.withLog { s.log with pacedAdds := (s.wch.fixNs, load.2) :: s.log.pacedAdds.take 255 } else s
  let (s, gen) := s.nextGeneration set
  let io := { newIo s.nextId n (if zero then .writeZeroes else .write) d s.watch gen s.holdoverFlag with
    ranges := if fwd then [] else s.ioRanges d sgl, held := if fwd then [] else s.ioHeld d, fwd := fwd }
  let s := (s.withNextId (s.nextId + 1)).withIos (s.ios ++ [io])
  let s := if fwd && zero then s.grant io.ref stOk 0 io.watch io.generation else s
  let (s, io) := s.logWrite io
  (s.startWrite io).evalLog

/-- A write admitted (R226, R37), or lost with a row that it does not cover (R143, R178, R195). -/
def State.admitWrite (s : State) (n : BitVec 10) (d : Desc) (sgl : SglFetch) : State :=
  let set : BitVec 6 := BitVec.ofNat 6 d.set.toNat
  let a := s.set set.toNat
  let lost := (s.partsOf a d.lbas).any (fun p => s.partLost set a p)
  let s := (s.takeFront n).count64 Reg.rngAdmitted 1
  if lost then s.finishDesc n d stMediaLost 0 d.lba d.blocks else s.bindWrite n d sgl false

/-- The data of a write has arrived (R301); a forwarded one's goes to its owner (R401). -/
def State.writeArrived (s : State) (io : Io) (data : Bytes) : State :=
  let blocks := (List.range io.desc.blocks).map (fun i => sliceAt data (4096 * i) 4096)
  if io.away then (s.setIo { io with dataIn := true }).sendFwdData (s.awayRef io.ring io.desc) data
  else (s.fillWrite io blocks).evalLog

/-- IO_WRITE (R126, R218, R316): a WRITE descriptor is admitted, and its data fetched; word errors met are handled first. -/
def execIoWrite (n : BitVec 10) (sgl : SglFetch) (errs : List WordError) (s : State) : Host.Outcome State Fault Refusal :=
  let s := s.wordErrors errs
  match s.frontDesc n with
  | none => .next s
  | some d =>
    if d.opcode ≠ 2 ∨ !s.turn n then .next s
    else if s.partnerOwns d then .next (s.forwardDesc n d .write sgl)
    else match (s.admitCheck d sgl).orElse (fun _ => sglUnreadable sgl) with
      | some (st, det) =>
        let s := if st = stHeld ∧ det = 1 then s.count64 Reg.logHeld 1 else s
        .next ((s.takeFront n).finishDesc n d st det d.lba d.blocks)
      | none => if s.writeMustWait d then .next (s.waitFront n) else .next (s.admitWrite n d sgl)

/-- IO_WRITE_ZEROES (R218). -/
def execIoWriteZeroes (n : BitVec 10) (s : State) : Host.Outcome State Fault Refusal :=
  match s.frontDesc n with
  | none => .next s
  | some d =>
    if d.opcode ≠ 3 ∨ !s.turn n then .next s
    else if s.partnerOwns d then .next (s.forwardDesc n d .writeZeroes .notNeeded)
    else match s.admitCheck d .notNeeded with
      | some (st, det) =>
        let s := if st = stHeld ∧ det = 1 then s.count64 Reg.logHeld 1 else s
        .next ((s.takeFront n).finishDesc n d st det d.lba d.blocks)
      | none => if s.writeMustWait d then .next (s.waitFront n) else .next (s.admitWrite n d .notNeeded)

/-- ALLOCATION_RETRY (R300): the oldest write of ring n that waits for its lines tries again. -/
def execAllocationRetry (n : BitVec 10) (s : State) : Host.Outcome State Fault Refusal :=
  match s.ios.find? (fun io => io.ring = n && !io.lined && !io.away && (io.kind = .writeZeroes || io.kind = .write)) with
  | none => .next s
  | some io => .next (s.startWrite io).evalLog

/-! ## Reads -/

/-- The sector of a block: stripe, fragment, row (R47). -/
def State.placeOfBlock (s : State) (a : ArraySet) (b : Nat) : Nat × Nat × Nat := locate (s.setProfile a).k a.s b

/-- The fragment that a read of a block addresses: for REPLICA the copy that choose() takes (R53). -/
def State.readFrag (s : State) (set : BitVec 6) (rev : Revision) (stripe frag row : Nat) : Nat :=
  let p := s.setProfile (s.set set.toNat)
  if p.typ = .replica then
    match p.choose (s.eraseMask set rev stripe) stripe row with
    | some c => c.use.headD 0
    | none => 0
  else frag

/-- One block of a READ (R295, R306, R310): found, joined, lost, or requested. -/
def State.readBlock (s : State) (io : Io) (b : Nat) : State × Io :=
  let a := s.set io.set.toNat
  let (stripe, frag, row) := s.placeOfBlock a b
  let rev := a.revFor stripe
  let cls : CacheClass := if io.desc.mode = 2 then .peer else .hostRead
  let k := s.keyOf io.set stripe frag row
  let stream := io.desc.flags.getLsbD 3
  if s.suspect io.set stripe row frag ∨ ((stripe, row) ∈ a.unresolved ∧ s.fragOut io.set rev stripe frag) then
    (s, { io with lost := io.lost ++ [b] })
  else match s.cacheLookup k cls stream with
    | (s, .data d _) => (s, { io with blocks := io.blocks ++ [(b, d)] })
    | (s, .joined id) => (s, { io with waits := io.waits ++ [(id, b)] })
    | (s, .miss) =>
      match s.openSector io.set stripe frag row with
      | some x => (s, { io with blocks := io.blocks ++ [(b, x.data)] })
      | none =>
      if a.paritySeal then
        let id := s.nextId
        let s := (s.withNextId (id + 1)).startFill k cls (if stream then 3 else 0) false id
        let io := { io with waits := io.waits ++ [(id, b)] }
        (s.withIos (s.ios.map (fun j => if j.id = io.id then io else j)), io)
      else
        let (s, id) := s.requestRead .hostIo io.set rev stripe (s.readFrag io.set rev stripe frag row) row (.hostRead io.id)
        (s.startFill k cls (if stream then 3 else 0) false id, { io with waits := io.waits ++ [(id, b)] })

/-- Every block of a READ. -/
def State.readBlocks (s : State) (io : Io) : List Nat → State × Io
  | [] => (s, io)
  | b :: rest =>
    let (s, io) := s.readBlock io b
    s.readBlocks io rest

/-- The whole-row reads that PARITY_SEAL needs, one per block requested (R70). -/
def State.sealReads (s : State) (io : Io) : State :=
  let a := s.set io.set.toNat
  if !a.paritySeal then s
  else io.waits.foldl (fun s w =>
    if s.cht.waiting.any (fun r => r.id = w.1) ∨ s.dcmds.any (fun d => d.id = w.1) ∨ s.rowOps.any (fun o => o.orig = w.1) then s
    else
      let (stripe, frag, row) := s.placeOfBlock a w.2
      s.startRow io.set (a.revFor stripe) stripe row (s.readFrag io.set (a.revFor stripe) stripe frag row) w.1 .sealCheck
        (.hostRead io.id) []) s

/-! ## Prefetch (R308 to R310) -/

/-- Prefetch sectors outstanding. -/
def State.prefetching (s : State) : Nat :=
  (s.cht.waiting.filter (fun r => r.purpose = .prefetch)).length + (s.dcmds.filter (fun d => d.purpose = .prefetch)).length

/-- One predicted block prefetched (R310). -/
def State.prefetchBlock (s : State) (set : BitVec 6) (age b : Nat) : State :=
  let a := s.set set.toNat
  let (stripe, frag, row) := s.placeOfBlock a b
  let rev := a.revFor stripe
  let k := s.keyOf set stripe frag row
  if s.blockSpace a ≤ b ∨ (s.findLine k).isSome ∨ (s.findSlot k).isSome ∨
      s.scc.lines.any (fun e => decide (e.2.state = .filling) && decide (e.2.key = k)) ∨ s.fragOut set rev stripe frag then s
  else if s.regField Reg.sccPf 16 16 ≤ s.prefetching then s.count32 Reg.sccPfDropped 1
  else
    let (s, id) := s.requestRead .hostIo set rev stripe frag row .prefetch
    (s.startFill k .hostRead age true id).count64 Reg.sccPfIssued 1

/-- The predictions of a detector (R309). -/
def State.predict (s : State) (set : BitVec 6) (lba blocks : Nat) (age : Nat) (d : Detector) : Nat → State × Detector
  | 0 => (s, d)
  | n + 1 =>
    let j := s.regField Reg.sccPf 4 4 - n
    let p : Int := lba + (j : Int) * d.stride
    let far := match d.ahead with
      | none => true
      | some h => if 0 < d.stride then decide (h < p) else decide (p < h)
    if far then
      let s := if p < 0 then s else (List.range blocks).foldl (fun s i => s.prefetchBlock set age (p.toNat + i)) s
      s.predict set lba blocks age { d with ahead := some p } n
    else s.predict set lba blocks age d n

/-- The detector of a ring updated by an admitted READ (R308, R309). -/
def State.detect (s : State) (n : BitVec 10) (d : Desc) : State :=
  let set : BitVec 6 := BitVec.ofNat 6 d.set.toNat
  let fresh : Detector :=
    { ring := n, set := set, last := d.lba, blocks := d.blocks, stride := 0, conf := 0, ahead := none, used := s.scc.order }
  let s := s.withScc { s.scc with order := s.scc.order + 1 }
  let ds := s.scc.detectors
  match ds.find? (fun x => x.ring = n) with
  | none =>
    let ds := if ds.length < 64 then ds else
      match ds.foldl (fun m x => match m with
        | none => some x
        | some y => if x.used < y.used then some x else some y) (none : Option Detector) with
      | none => ds
      | some y => ds.filter (fun x => x.ring ≠ y.ring)
    s.withScc { s.scc with detectors := ds ++ [fresh] }
  | some x =>
    let put (s : State) (y : Detector) : State :=
      s.withScc { s.scc with detectors := s.scc.detectors.map (fun z => if z.ring = n then y else z) }
    if x.set ≠ set then put s fresh
    else
      let st : Int := (d.lba : Int) - x.last
      let x := if st = x.stride ∧ st ≠ 0 then { x with conf := min 3 (x.conf + 1) }
        else { x with stride := st, ahead := none, conf := if 0 < st.natAbs ∧ st.natAbs ≤ 2 ^ 20 then 1 else 0 }
      let x := { x with last := d.lba, blocks := d.blocks, used := s.scc.order }
      if s.regField Reg.sccPf 8 2 ≤ x.conf ∧ s.regBit Reg.sccPf 0 then
        let (s, x) := s.predict set d.lba d.blocks (if d.flags.getLsbD 3 then 3 else 2) x (s.regField Reg.sccPf 4 4)
        put s x
      else put s x

/-- IO_READ (R218, R226, R316): a READ descriptor is admitted; its blocks come from the cache or the drives, word errors met being
handled first. -/
def execIoRead (n : BitVec 10) (sgl : SglFetch) (errs : List WordError) (s : State) : Host.Outcome State Fault Refusal :=
  let s := s.wordErrors errs
  match s.frontDesc n with
  | none => .next s
  | some d =>
    if d.opcode ≠ 1 ∨ !s.turn n then .next s
    else if s.partnerOwns d then .next (s.forwardDesc n d .read sgl)
    else match (s.admitCheck d sgl).orElse (fun _ => sglUnreadable sgl) with
      | some (st, det) => .next ((s.takeFront n).finishDesc n d st det d.lba d.blocks)
      | none =>
        if (s.stripesOf d).any (fun t => (s.set d.set.toNat).resyncing t) then .next (s.waitFront n)
        else
          let s := (s.takeFront n).count64 Reg.rngAdmitted 1
          let io := { newIo s.nextId n .read d s.watch 0 false with ranges := s.ioRanges d sgl, held := s.ioHeld d }
          let s := (s.withNextId (s.nextId + 1)).withIos (s.ios ++ [io])
          let (s, io) := s.readBlocks io d.lbas
          let s := s.setIo io
          let s := if io.waits.isEmpty then s.ioGathered io else s.sealReads io
          .next (s.detect n d).evalLog

/-- The rows of a VERIFY: one block of each row stands for it (R218). -/
def State.verifyRows (s : State) (io : Io) : List Nat → State × Io
  | [] => (s, io)
  | b :: rest =>
    let id := s.nextId
    let (s, io) := (s.withNextId (id + 1)).verifyRows io rest
    (s, { io with waits := (id, b) :: io.waits })

/-- The first block of each row that a VERIFY reads: rows with unretired Log records are skipped (R218). -/
def State.verifyBlocks (s : State) (set : BitVec 6) (d : Desc) : List Nat :=
  let a := s.set set.toNat
  d.lbas.filter (fun b =>
    let (st, _, row) := s.placeOfBlock a b
    !s.rowLogged set st row &&
      d.lbas.all (fun c =>
        let (st', _, row') := s.placeOfBlock a c
        decide (b ≤ c) || decide (st' ≠ st) || decide (row' ≠ row)))

/-- IO_VERIFY (R218): every row it touches is read from its drives and checked; a row with unretired Log records is
skipped. -/
def execIoVerify (n : BitVec 10) (s : State) : Host.Outcome State Fault Refusal :=
  match s.frontDesc n with
  | none => .next s
  | some d =>
    if d.opcode ≠ 4 ∨ !s.turn n then .next s
    else if s.partnerOwns d then .next (s.forwardDesc n d .verify .notNeeded)
    else match s.admitCheck d .notNeeded with
      | some (st, det) => .next ((s.takeFront n).finishDesc n d st det d.lba d.blocks)
      | none =>
        if (s.stripesOf d).any (fun t => (s.set d.set.toNat).resyncing t) then .next (s.waitFront n)
        else
          let set : BitVec 6 := BitVec.ofNat 6 d.set.toNat
          let a := s.set set.toNat
          let rows := s.verifyBlocks set d
          let s := (s.takeFront n).count64 Reg.rngAdmitted 1
          let io := newIo s.nextId n .verify d s.watch 0 false
          let s := (s.withNextId (s.nextId + 1)).withIos (s.ios ++ [io])
          let (s, io) := s.verifyRows io rows
          let s := s.setIo io
          if io.waits.isEmpty then .next (s.ioGathered io)
          else .next (io.waits.foldl (fun s w =>
            let (stripe, frag, row) := s.placeOfBlock a w.2
            s.startRow set (a.revFor stripe) stripe row frag w.1 .verify (.verify io.id) []) s)

/-- IO_NOP (R218): completes OK without admission to any set. -/
def execIoNop (n : BitVec 10) (s : State) : Host.Outcome State Fault Refusal :=
  match s.frontDesc n with
  | none => .next s
  | some d => if d.opcode ≠ 5 ∨ !s.turn n then .next s else .next ((s.takeFront n).finishDesc n d stOk 0 0 0)

end Sys2Proof.Machine
end

