-- ==== Sys2Proof/Machine/MoverOps.lean ====
section
/-! DEFINITION. The Data Movers at work (spec/09_data_movers.md R263 to R292): tags, bursts, retries, the end of transfers,
completion queues. -/

namespace Sys2Proof.Machine

/-! ## Channels -/

/-- CHn.CFG.PRIO (R267). -/
def State.chanPrio (s : State) (n : Nat) : Nat := s.regField (Reg.dmvChCfg n) 8 2

/-- The largest burst of a channel in bytes (R267). -/
def State.chanBurst (s : State) (n : Nat) : Nat := 2 ^ s.regField (Reg.dmvChCfg n) 16 4

/-- CHn.CFG.ALIGN: STRICT (R271). -/
def State.chanStrict (s : State) (n : Nat) : Bool := s.regBit (Reg.dmvChCfg n) 3

/-- The channels with anything but their reset contents, and every channel that may run: numbers below 64. -/
def chanNumbers : List Nat := List.range 64

/-- A channel changed. -/
def State.modChan (s : State) (n : Nat) (f : Channel → Channel) : State := s.setChan n (f (s.chan n))

/-- The mover-pool pages that a transfer holds (R264): its source bytes asked for and not yet written. -/
def Transfer.pages (t : Transfer) : Nat := if t.srcs.isEmpty || t.srcPool then 0 else (t.asked - t.moved + 4095) / 4096

/-- The pages that a channel holds. -/
def Channel.pages (c : Channel) : Nat := (c.queue.map Transfer.pages).foldl (· + ·) 0

/-- Free pages of the mover pool (R263, R292): the pool less what the channels, the inputs of coding passes (R58) and the
quarantined drive commands (R332) hold. -/
def State.tbFree (s : State) : Nat :=
  6144 - s.regField Reg.dmvTb 0 13 - ((s.dmv.chans.map (fun e => e.2.pages)).foldl (· + ·) 0) -
    ((s.passes.map (fun p => p.inputs.length * ((p.bytes + 4095) / 4096))).foldl (· + ·) 0) -
    (s.dcmds.filter (fun d => d.quarantined)).length

/-! ## Tags (R285, R286) -/

/-- The tags of a port's pool: 256 to 1023 with 10-bit tags, 0 to 255 otherwise. -/
def State.tagPool (s : State) (p : Bool) : List Nat :=
  if (s.hpu p).cfg.tags10 then (List.range 768).map (256 + ·) else List.range 256

/-- The tags of a port that no read uses and no quarantine holds. -/
def State.freeTags (s : State) (p : Bool) : List Nat :=
  (s.tagPool p).filter (fun t => !(s.dmv.reads.any (fun r => r.port = p && r.tag.toNat = t)) &&
    !(s.dmv.quarantine.any (fun q => q.1 = p && q.2.1.toNat = t)))

/-- A read issued with a fresh tag, which of the free ones being left open (R282, R285); it waits when none is free. -/
def State.issueRead (s : State) (r : HostRead) (addr len : Nat) : State :=
  match s.freeTags r.port with
  | [] => s.withDmv { s.dmv with retries := s.dmv.retries ++ [r] }
  | t :: ts =>
    let tag : BitVec 10 := BitVec.ofNat 10 ((t :: ts).getD ((Config.freeTag s.dmv.tagCount).toNat % (ts.length + 1)) t)
    (s.withDmv { s.dmv with reads := s.dmv.reads ++ [{ r with tag := tag }], tagCount := s.dmv.tagCount + 1 }).hostOut r.port
      (.memRead r.port tag addr len)

/-- A tag put in quarantine (R286); source 0x34 once per episode when that empties the pool. -/
def State.quarantineTag (s : State) (p : Bool) (tag : BitVec 10) (reported : Bool) : State :=
  let s := s.withDmv { s.dmv with quarantine := s.dmv.quarantine ++ [(p, tag, reported)] }
  if (s.freeTags p).isEmpty ∧ !(s.dmv.quarReported.getD (ofBool p) false) then
    (s.withDmv { s.dmv with quarReported := s.dmv.quarReported.set (ofBool p) true }).raise 0x34 .note
      (BitVec.ofNat 8 (ofBool p))
  else s

/-- The address of an offset in a list of ranges, and how many bytes of its range follow. -/
def rangeAt : List (Nat × Nat) → Nat → Option (Nat × Nat)
  | [], _ => none
  | (a, n) :: rest, off => if off < n then some (a + off, n - off) else rangeAt rest (off - n)

/-- The read of a range under an alignment mode (R271): WIDEN rounds it out to 64 bytes. -/
def widened (strict : Bool) (addr len : Nat) : Nat × Nat :=
  if strict then (addr, len) else (addr / 64 * 64, (addr + len + 63) / 64 * 64 - addr / 64 * 64)

/-- A channel's read issued for a piece of its transfer. -/
def State.issuePiece (s : State) (n : Nat) (t : Transfer) (r : HostRead) : State :=
  match rangeAt t.srcs r.off with
  | none => s.issueRead r (((rangeAt t.dsts (t.bytes - 1)).map (fun x => x.1)).getD 0) 0
  | some (a, _) => let w := widened (s.chanStrict n) a r.len; s.issueRead r w.1 w.2

/-! ## Completion queues (R287, R288) -/

/-- A completion queue. -/
def State.mq (s : State) (q : Nat) : Mq := Tab.get s.dmv.mqs Mq.at0 q

/-- A completion queue changed. -/
def State.modMq (s : State) (q : Nat) (f : Mq → Mq) : State :=
  s.withDmv { s.dmv with mqs := Tab.modify s.dmv.mqs Mq.at0 q f }

/-- N of a completion queue. -/
def State.mqN (s : State) (q : Nat) : Nat := 2 ^ s.regField (Reg.dmvMqCfg q) 0 5

/-- The host port of a completion queue. -/
def State.mqPort (s : State) (q : Nat) : Bool := s.regBit (Reg.dmvMqCfg q) 8

/-- Whether a record may be written to a queue now. -/
def State.mqRoom (s : State) (q : Nat) : Bool :=
  (s.mq q).enabled && decide (posCount (s.mqN q) (s.mq q).cons (s.mq q).prod < s.mqN q) && !s.portSilent (s.mqPort q)

/-- A record written, and its message sent under R230 with MQq.INT. -/
def State.writeMq (s : State) (q : Nat) (r : MqRecord) : State :=
  let m := s.mq q
  let s := s.hostOut (s.mqPort q) (.mqRecord q m.prod r)
  let u := m.unsignalled + 1
  let int := s.regN (Reg.dmvMqInt q)
  let en := s.regBit (Reg.dmvMqCfg q) 31
  let go := en && (decide (bitsOf int 0 16 = 0) || decide (max 1 (bitsOf int 16 8) ≤ u))
  let s := s.modMq q (fun m => { m with prod := posAdd (s.mqN q) m.prod 1, unsignalled := if go || !en then 0 else u })
  if go then s.sendMsix (s.mqPort q) (s.regField (Reg.dmvMqCfg q) 16 11) else s

/-- What a line 0 channel does once a descriptor's record is written (R279): HALTED after a failure, IDLE at the end of the
chain, the next descriptor otherwise. -/
def State.afterRecord (s : State) (n : Nat) (status : Byte) (next : Word64) : State :=
  s.modChan n (fun c =>
    if status ≠ stOk then { c with state := .halted, swReq := false, held := none }
    else if next = 0 then { c with state := .idle, swReq := false, held := none }
    else { c with state := .running, desc := next &&& ~~~63#64, held := none })

/-- A record posted to its channel's queue, or held while it finds no room (R288). -/
def State.postMq (s : State) (n : Nat) (r : MqRecord) (next : Word64) : State :=
  let q := s.regField (Reg.dmvChCfg n) 12 3
  if s.mqRoom q && (s.mq q).waiting.isEmpty then (s.writeMq q r).afterRecord n r.status next
  else (s.modChan n (fun c => { c with state := .holding, held := some (r, next) })).modMq q (fun m =>
    { m with waiting := m.waiting ++ [(n, r)] })

/-- The held records of a queue written while it has room, in the order they became ready (R288). -/
def State.drainMq (s : State) (q : Nat) : Nat → State
  | 0 => s
  | k + 1 =>
    match (s.mq q).waiting with
    | [] => s
    | (n, r) :: rest =>
      if s.mqRoom q then
        let next := ((s.chan n).held.map (fun h => h.2)).getD 0
        let s := (s.modMq q (fun m => { m with waiting := rest })).writeMq q r
        (s.afterRecord n r.status next).drainMq q k
      else s

/-- The held records of every queue. -/
def State.drainMqs (s : State) : State := (List.range 8).foldl (fun s q => s.drainMq q 64) s

/-! ## The end of a transfer -/

/-- The outstanding reads of a channel lose their effect: their outcomes are discarded (R282). -/
def State.killReads (s : State) (n : Nat) : State :=
  s.withDmv { s.dmv with reads := s.dmv.reads.map (fun r => if r.user = .chan n then { r with dead := true } else r),
                         retries := s.dmv.retries.filter (fun r => r.user ≠ .chan n) }

/-- A line 0 descriptor ends: its status, its counters, its record; source 0x31 for BUS_ERROR (R279, R282, R287). `tag` is 0
when the descriptor could not be read. -/
def State.endMover (s : State) (n : Nat) (status detail : Byte) (bytes : Nat) (tag next : Word64) : State :=
  let s := (s.killReads n).modChan n (fun c =>
    { c with status := status, detail := detail, bytes := BitVec.ofNat 64 bytes, queue := [], flushWait := false,
             errors := if status = stBusError then (c.errors + 1) % 2 ^ 32 else c.errors })
  let s := if status = stBusError then s.raise 0x31 .note (BitVec.ofNat 8 n) else s
  s.postMq n { channel := BitVec.ofNat 8 n, status := status, detail := detail, bytes := BitVec.ofNat 32 bytes, tag := tag } next

/-- The bytes that arrived, in order of their offsets. -/
def Transfer.data (t : Transfer) : Bytes :=
  (List.range t.bytes).map (fun i =>
    match t.got.find? (fun g => decide (g.1 ≤ i) && decide (i < g.1 + g.2.length)) with
    | some g => byteAt g.2 (i - g.1)
    | none => 0)

/-- The first transfer of a channel ends: the I/O it serves completes or goes on, and the channel takes its next transfer
(R265, R282, R231); a transfer whose I/O has ended already only leaves. -/
def State.endTransfer (s : State) (n : Nat) (status detail : Byte) : State :=
  match (s.chan n).queue with
  | [] => s
  | t :: rest =>
    if s.chanLine n = 0 then s.endMover n status detail t.moved t.tag t.next
    else
      let s := (s.killReads n).modChan n (fun c =>
        { c with status := status, detail := detail, bytes := BitVec.ofNat 64 t.moved, queue := rest,
                 state := if rest.isEmpty ∧ c.state = .running then .idle else c.state,
                 errors := if status = stBusError then (c.errors + 1) % 2 ^ 32 else c.errors })
      match s.ios.find? (fun io => t.io = some io.id) with
      | none => s
      | some io =>
        if status ≠ stOk then s.finishIo io status detail io.desc.lba io.desc.blocks
        else match io.kind with
          | .read =>
            let sp := lostSpan io.lost io.desc.lba io.desc.blocks
            if io.lost.isEmpty then s.finishIo io stOk 0 io.desc.lba io.desc.blocks
            else s.finishIo io stMediaLost 0 sp.1 sp.2
          | _ => s.writeArrived io t.data

/-- Whether every byte of a transfer that reads into the data path has arrived. -/
def Transfer.gathered (t : Transfer) : Bool :=
  t.dsts.isEmpty && decide (t.bytes ≤ (t.got.map (fun g => g.2.length)).foldl (· + ·) 0)

/-- A piece of a channel's transfer arrived; a transfer into the data path ends with its last piece. -/
def State.piece (s : State) (n off : Nat) (data : Bytes) : State :=
  match (s.chan n).queue with
  | [] => s
  | t :: rest =>
    let t := { t with got := t.got ++ [(off, data)] }
    let s := s.modChan n (fun c => { c with queue := t :: rest })
    if t.gathered then s.endTransfer n stOk 0 else s

/-! ## Retries (R282) -/

/-- A read of a channel failed: reissued with a fresh tag while it has reissues left, source 0x30 for each; otherwise its
transfer ends with BUS_ERROR. -/
def State.readFailed (s : State) (n : Nat) (r : HostRead) (detail : Byte) : State :=
  if r.dead then s
  else match (s.chan n).queue with
    | [] => s
    | t :: _ =>
      if r.left = 0 then s.endTransfer n stBusError detail
      else
        let s := (s.count64 Reg.dmvRetries 1).raise 0x30 .note detail
        s.issuePiece n t { r with left := r.left - 1 }

/-! ## Bursts (R267, R268) -/

/-- The next piece that the read engine would fetch for a transfer: offset, address, length. -/
def Transfer.nextRead (t : Transfer) (burst : Nat) : Option (Nat × Nat × Nat) :=
  if t.bytes ≤ t.asked then none
  else (rangeAt t.srcs t.asked).map (fun x =>
    (t.asked, x.1, min (min burst (4096 - x.1 % 4096)) (min x.2 (t.bytes - t.asked))))

/-- What the write engine would do next for a transfer: skip to an offset (lost blocks, R231), or write a piece. -/
inductive NextWrite where
  | nothing
  | pass (upto : Nat)
  | write (addr : Nat) (data : Bytes)
deriving DecidableEq, Repr

/-- The next write of a transfer: the data that follows the bytes written, as far as it has arrived, within one range, one
burst and one 4 KiB page. -/
def Transfer.nextWrite (t : Transfer) (burst : Nat) : NextWrite :=
  if t.bytes ≤ t.moved then .nothing
  else match rangeAt t.dsts t.moved with
    | none => .nothing
    | some (a, room) =>
      match t.got.find? (fun g => decide (g.1 ≤ t.moved) && decide (t.moved < g.1 + g.2.length)) with
      | some g =>
        let n := min (min burst (4096 - a % 4096)) (min room (g.1 + g.2.length - t.moved))
        .write a (sliceAt g.2 (t.moved - g.1) n)
      | none =>
        if t.srcs.isEmpty then
          .pass ((t.got.filter (fun g => decide (t.moved < g.1))).foldl (fun m g => min m g.1) t.bytes)
        else .nothing

/-- Whether the host port that a transfer needs keeps it from moving: it is contained (true in the first place), or sends
nothing for now (the second). -/
def State.transferPort (s : State) (t : Transfer) : Bool × Bool :=
  let host := (!t.srcs.isEmpty && !t.srcPool) || (!t.dsts.isEmpty && !t.dstPool)
  (host && (s.hpu t.port).contained, host && s.portSilent t.port)

/-- Whether a transfer's I/O has ended. -/
def State.orphan (s : State) (t : Transfer) : Bool :=
  match t.io with
  | none => false
  | some id => !s.ios.any (fun io => io.id = id)

/-- Whether a channel has a pending request to an engine and may be granted (R264, R267, R268). -/
def State.chanReady (s : State) (write : Bool) (n : Nat) : Bool :=
  let c := s.chan n
  match c.queue with
  | [] => false
  | t :: _ =>
    if c.state ≠ .running ∨ c.flushWait then false
    else
      let pt := s.transferPort t
      let stop := pt.1 || s.orphan t
      if write then
        (match t.nextWrite (s.chanBurst n) with
          | .nothing => stop && (t.nextRead (s.chanBurst n)).isNone
          | _ => stop || !pt.2)
      else
        (match t.nextRead (s.chanBurst n) with
          | none => false
          | some _ => stop || (!pt.2 && (t.srcPool || (decide (c.pages < s.regField (Reg.dmvChCfg n) 20 10) &&
              decide (0 < s.tbFree) && !(s.freeTags t.port).isEmpty))))

/-- The channel that an engine grants: the highest priority level, round-robin after the last one granted (R267). -/
def State.granted (s : State) (write : Bool) : Option Nat :=
  let ready := chanNumbers.filter (s.chanReady write)
  let last := if write then s.dmv.lastWrite else s.dmv.lastRead
  match ready.foldl (fun m n => min m (s.chanPrio n)) 4 with
  | 4 => none
  | p =>
    let l := ready.filter (fun n => s.chanPrio n = p)
    (l.find? (fun n => decide (last < n))).orElse (fun _ => l.head?)

/-- A run of `len` bytes from an address cut at the multiples of `unit`: offset and length of each piece (R267). -/
def cutRun (unit addr off : Nat) : Nat → Nat → List (Nat × Nat)
  | 0, _ => []
  | _, 0 => []
  | fuel + 1, len =>
    let n := min len (unit - addr % unit)
    if n = 0 then [] else (off, n) :: cutRun unit (addr + n) (off + n) fuel (len - n)

/-- One burst of the read engine for a channel: its read requests, each no larger than Max_Read_Request_Size. -/
def State.readBurst (s : State) (n : Nat) (t : Transfer) (rest : List Transfer) : State :=
  match t.nextRead (s.chanBurst n) with
  | none => s
  | some (off, a, len) =>
    let t := { t with asked := t.asked + len }
    let s := s.modChan n (fun c => { c with queue := t :: rest })
    if t.srcPool then s.piece n off (Memory.readBytes s.pwin.pool a len)
    else (cutRun (s.hpu t.port).cfg.mrrs a off 64 len).foldl (fun s x =>
      s.issuePiece n t { port := t.port, tag := 0, user := .chan n, off := x.1, len := x.2,
                         left := s.regField (Reg.dmvChCfg n) 4 3, dead := false }) s

/-- One burst of the write engine for a channel: its writes, each no larger than Max_Payload_Size. -/
def State.writeBurst (s : State) (n : Nat) (t : Transfer) (rest : List Transfer) : State :=
  match t.nextWrite (s.chanBurst n) with
  | .nothing => s
  | .pass k => s.modChan n (fun c => { c with queue := { t with moved := k } :: rest })
  | .write a data =>
    let s := s.modChan n (fun c => { c with queue := { t with moved := t.moved + data.length } :: rest,
                                            bytes := BitVec.ofNat 64 (t.moved + data.length) })
    if t.dstPool then s.withPwin { s.pwin with pool := Memory.writeBytes s.pwin.pool a data }
    else (cutRun (s.hpu t.port).cfg.mps a 0 64 data.length).foldl (fun s x =>
      s.hostOut t.port (.hostWrite t.port (BitVec.ofNat 64 (a + x.1)) (sliceAt data x.1 x.2))) s

/-- Whether the next burst of a transfer reads words of the Transfer Buffer: every write, and a read whose source is a region. -/
def State.readsBuffer (s : State) (write : Bool) (n : Nat) (t : Transfer) : Bool :=
  if write then (match t.nextWrite (s.chanBurst n) with
    | .write _ _ => true
    | _ => false)
  else t.srcPool && (t.nextRead (s.chanBurst n)).isSome

/-- A transfer whose host port is contained ends with CONTAINED at its next burst, and one whose I/O has ended leaves its
channel; any other moves one burst (R267, R282). `words` is what the Transfer Buffer words of the burst showed (R289). -/
def State.grantTo (s : State) (write : Bool) (words : WordCheck) (n : Nat) : State :=
  match (s.chan n).queue with
  | [] => s
  | t :: rest =>
    let s := s.withDmv (if write then { s.dmv with lastWrite := n } else { s.dmv with lastRead := n })
    if s.orphan t then s.endTransfer n stAborted 0
    else if (s.transferPort t).1 then s.endTransfer n stContained 1
    else
      let burst (s : State) : State := if write then s.writeBurst n t rest else s.readBurst n t rest
      match words, s.readsBuffer write n t with
      | .corrected, true => (burst s).raise 0x32 .note 1
      | .bad, true => (s.endTransfer n stBusError 4).raise 0x32 .warn 2
      | _, _ => burst s

end Sys2Proof.Machine
end

