-- ==== Sys2Proof/Machine/Movers.lean ====
section
/-! DEFINITION. The commands of the Data Movers (spec/09_data_movers.md R263 to R292). -/

namespace Sys2Proof.Machine

/-- BURST_GRANT (R267, R289): one engine grants one burst; a reissue that waited for a tag goes first. -/
def execBurstGrant (writeEngine : Bool) (words : WordCheck) (s : State) : Host.Outcome State Fault Refusal :=
  match writeEngine, s.dmv.retries.find? (fun r => !(s.freeTags r.port).isEmpty) with
  | false, some r =>
    let s := s.withDmv { s.dmv with retries := without s.dmv.retries r }
    (match r.user with
      | .chan n =>
        (match (s.chan n).queue with
          | [] => .next s
          | t :: _ => .next (s.issuePiece n t r))
      | _ => .next (s.issueRead r 0 r.len))
  | _, _ =>
    match s.granted writeEngine with
    | none => .next s
    | some n => .next (s.grantTo writeEngine words n)

/-- The detail of R282 for a failed bus answer. -/
def busDetail (r : BusResult) : Byte :=
  match r with
  | .ok _ => 0
  | .unsupported => 1
  | .aborted => 2
  | .poisoned => 3

/-- A read in flight by its tag. -/
def State.readOf (s : State) (t : TagRef) : Option HostRead :=
  s.dmv.reads.find? (fun r => r.port = t.port && r.tag = t.tag)

/-- A read that no longer is in flight. -/
def State.dropRead (s : State) (t : TagRef) : State :=
  s.withDmv { s.dmv with reads := s.dmv.reads.filter (fun r => !(r.port = t.port && r.tag = t.tag)) }

/-- MOVER_READ_COMPLETION (R282, R284): the data of a read arrives, or the read failed; one whose timeout was reported is
late and discarded. -/
def execMoverReadCompletion (t : TagRef) (result : BusResult) (s : State) : Host.Outcome State Fault Refusal :=
  match s.readOf t with
  | none =>
    if s.dmv.quarantine.any (fun q => q.1 = t.port && q.2.1 = t.tag && q.2.2) then
      .next ((s.count32 Reg.dmvLateCpl 1).raise 0x33 .note (BitVec.ofNat 8 (ofBool t.port)))
    else .next s
  | some r =>
    match r.user with
    | .chan n =>
      let s := s.dropRead t
      if r.dead ∨ (s.chan n).flushWait then .next s
      else match result with
        | .ok bytes =>
          let addr := match (s.chan n).queue with
            | [] => 0
            | x :: _ => ((rangeAt x.srcs r.off).map (fun y => y.1)).getD 0
          .next (s.piece n r.off (sliceAt bytes (addr - (widened (s.chanStrict n) addr r.len).1) r.len))
        | e => .next (s.readFailed n r (busDetail e))
    | _ => .next s

/-- MOVER_READ_TIMEOUT (R282, R286): no completion within RD_TIMEOUT; the tag is quarantined, and the read is reissued or its
transfer ends. -/
def execMoverReadTimeout (t : TagRef) (s : State) : Host.Outcome State Fault Refusal :=
  match s.readOf t with
  | none => .next s
  | some r =>
    match r.user with
    | .chan n => .next (((s.dropRead t).quarantineTag t.port t.tag true).readFailed n r 5)
    | _ => .next s

/-- TAG_QUARANTINE_EXPIRY (R286): the tag returns to its pool. -/
def execTagQuarantineExpiry (t : TagRef) (s : State) : Host.Outcome State Fault Refusal :=
  if s.dmv.quarantine.any (fun q => q.1 = t.port && q.2.1 = t.tag) then
    .next (s.withDmv { s.dmv with
      quarantine := s.dmv.quarantine.filter (fun q => !(q.1 = t.port && q.2.1 = t.tag)),
      quarReported := s.dmv.quarReported.set (ofBool t.port) false })
  else .next s

/-- TRANSFER_COMPLETE (R290, R229): the last write of a channel's transfer has left the write engine: the flush read of a
descriptor with FLUSH and a host destination, or the end of the transfer. -/
def execTransferComplete (ch : BitVec 6) (s : State) : Host.Outcome State Fault Refusal :=
  let n := ch.toNat
  let c := s.chan n
  match c.queue with
  | [] => .next s
  | t :: _ =>
    if c.state ≠ .running ∨ t.dsts.isEmpty ∨ t.moved < t.bytes ∨ c.flushWait then .next s
    else if t.flush && !t.dstPool then
      let s := s.modChan n (fun c => { c with flushWait := true })
      .next (s.issuePiece n t { port := t.port, tag := 0, user := .chan n, off := t.bytes, len := 0,
                                left := s.regField (Reg.dmvChCfg n) 4 3, dead := false })
    else .next (s.endTransfer n stOk 0)

/-- FLUSH_READ_COMPLETE (R290): the record may be posted; a failed flush read is retried under R282. -/
def execFlushReadComplete (ch : BitVec 6) (result : BusResult) (s : State) : Host.Outcome State Fault Refusal :=
  let n := ch.toNat
  if !(s.chan n).flushWait then .next s
  else match s.dmv.reads.find? (fun r => r.user = .chan n && !r.dead && decide (r.len = 0)) with
    | none => .next s
    | some r =>
      let s := s.dropRead { port := r.port, tag := r.tag }
      match result with
      | .ok _ => .next (s.endTransfer n stOk 0)
      | e => .next (s.readFailed n r (busDetail e))

/-! ## Mover descriptors (R274 to R277) -/

/-- A side of a mover descriptor: its space, window, address and list, and the detail of its alignment failure (R273). -/
structure MoverSide where
  space : Nat
  win : Nat
  addr : Nat
  entries : Nat
  sgl : Bool
  list : SglFetch
  align : Nat
deriving DecidableEq, Repr

/-- A side's fields marked zero (R274). -/
def MoverSide.zeroBad (m : MoverSide) : Bool :=
  decide (1 < m.space) || (if m.space = 1 then decide (64 ≤ m.win) else decide (m.win ≠ 0)) ||
    (!m.sgl && decide (m.entries ≠ 0))

/-- A side's list causes (R270, R274). -/
def MoverSide.listBad (m : MoverSide) (bytes : Nat) : Bool :=
  m.sgl && (decide (m.space = 1) || decide (m.entries = 0) || decide (4096 < m.entries) || (match m.list with
    | .entries es => sglBad es bytes
    | _ => false))

/-- The ranges of a side (R271, R274): host ranges, or the bytes of a window's region in the pool. -/
def State.sideRanges (s : State) (m : MoverSide) (bytes : Nat) : List (Nat × Nat) :=
  if m.space = 1 then [((s.window m.win).tbPage * 4096 + m.addr, bytes)]
  else if m.sgl then (match m.list with
    | .entries es => es.map (fun e => (e.addr.toNat, e.len.toNat))
    | _ => [])
  else [(m.addr, bytes)]

/-- The window checks of a side (R275): absent, no region, past the region. -/
def State.sideWindow (s : State) (m : MoverSide) (bytes : Nat) : List (Option (Byte × Byte)) :=
  let absent := decide (Config.windows s.part ≤ m.win)
  let w := s.window m.win
  if m.space ≠ 1 then []
  else [failIf (!absent && !w.valid) stBadField 5,
    failIf (!absent && w.valid && decide (w.pages * 4096 < m.addr + bytes)) stBadField 4,
    failIf absent stNotPresent 1]

/-- The alignment check of a side (R271, R272). -/
def State.sideAlign (s : State) (n : Nat) (m : MoverSide) (bytes : Nat) : Option (Byte × Byte) :=
  failIf (if m.space = 1 then decide (m.addr % 64 ≠ 0)
    else s.chanStrict n && (s.sideRanges m bytes).any strictBad) stAlignment m.align

/-- The extent of a list of ranges: lowest start, highest end (R276). -/
def extentOf (l : List (Nat × Nat)) : Nat × Nat :=
  match l with
  | [] => (0, 0)
  | (a, n) :: rest => rest.foldl (fun e r => (min e.1 r.1, max e.2 (r.1 + r.2))) (a, a + n)

/-- Whether two extents intersect. -/
def extentsMeet (a b : Nat × Nat) : Bool := decide (a.1 < b.2) && decide (b.1 < a.2)

/-- Why a side's list could not be read (R282 detail 0x06). -/
def MoverSide.unreadable (m : MoverSide) : Option (Byte × Byte) :=
  match m.sgl, m.list with
  | true, .unreadable _ => some (stBusError, 6)
  | _, _ => none

/-- COPY (R275): the channel reads the descriptor that DESC names and checks it before any data moves. -/
def execCopy (ch : BitVec 6) (desc : BusResult) (srcList dstList : SglFetch) (s : State) :
    Host.Outcome State Fault Refusal :=
  let n := ch.toNat
  let c := s.chan n
  if c.state ≠ .running ∨ s.chanLine n ≠ 0 ∨ !c.queue.isEmpty ∨ c.held.isSome ∨
      (s.hpu (s.regBit (Reg.dmvChCfg n) 10)).d3hot ∨ s.haltClosed then .next s
  else if (s.hpu (s.regBit (Reg.dmvChCfg n) 10)).contained then .next (s.endMover n stContained 1 0 0 0)
  else match desc with
  | .ok d =>
    let fl := (byteAt d 1).toNat
    let bytes := leAt d 0x28 4
    let src : MoverSide := { space := (byteAt d 2).toNat, win := (byteAt d 4).toNat, addr := leAt d 0x10 8,
                             entries := leAt d 0x20 4, sgl := bitOf fl 0, list := srcList, align := 1 }
    let dst : MoverSide := { space := (byteAt d 3).toNat, win := (byteAt d 5).toNat, addr := leAt d 0x18 8,
                             entries := leAt d 0x24 4, sgl := bitOf fl 1, list := dstList, align := 2 }
    let tag := BitVec.ofNat 64 (leAt d 8 8)
    let srcs := s.sideRanges src bytes
    let dsts := s.sideRanges dst bytes
    let zeroBad := decide (8 ≤ fl) || decide (leAt d 6 2 ≠ 0) || decide (leAt d 0x2C 4 ≠ 0) || decide (leAt d 0x38 8 ≠ 0) ||
      src.zeroBad || dst.zeroBad || decide (bytes = 0) || decide (2 ^ 28 < bytes)
    let bad := (reported ([
      failIf (decide (byteAt d 0 ≠ 1)) stBadOpcode 1,
      failIf zeroBad stBadField 1,
      failIf (src.listBad bytes || dst.listBad bytes) stBadField 3] ++
      s.sideWindow src bytes ++ s.sideWindow dst bytes ++
      [s.sideAlign n src bytes, s.sideAlign n dst bytes,
      failIf (decide (src.space = dst.space) && extentsMeet (extentOf srcs) (extentOf dsts)) stOverlap 1])).orElse
        (fun _ => src.unreadable.orElse (fun _ => dst.unreadable))
    match bad with
    | some (st, det) => .next (s.endMover n st det 0 tag 0)
    | none =>
      .next (s.modChan n (fun c => { c with bytes := 0, queue := [{ Transfer.blank with
        port := s.regBit (Reg.dmvChCfg n) 10, bytes := bytes, srcs := srcs, srcPool := decide (src.space = 1), dsts := dsts,
        dstPool := decide (dst.space = 1), tag := tag, next := BitVec.ofNat 64 (leAt d 0x30 8), flush := bitOf fl 2,
        held := (if src.space = 1 then [s.winRange src.win] else []) ++ (if dst.space = 1 then [s.winRange dst.win] else []) }] }))
  | _ => .next (s.endMover n stBusError 6 0 0 0)

/-! ## Channel and queue registers -/

/-- The transfers of a line that wait for an enabled channel assigned (R266). -/
def State.assignWaiting (s : State) (line : Nat) : State :=
  let mine := s.dmv.unassigned.filter (fun t => t.1 = line)
  let s := s.withDmv { s.dmv with unassigned := s.dmv.unassigned.filter (fun t => t.1 ≠ line) }
  mine.foldl (fun s t => s.queueTransfer line t.2) s

/-- CHANNEL_ENABLE (R279): 1 written to CTL.ENABLE. -/
def execChannelEnable (ch : BitVec 6) (s : State) : Host.Outcome State Fault Refusal :=
  if s.haltClosed then .next s
  else
    let s := s.leaveDock
    let n := ch.toNat
    if (s.chan n).state ≠ .disabled then .next s
    else .next ((s.modChan n (fun c => { c with state := .idle, enable := true })).assignWaiting (s.chanLine n))

/-- The tags of a channel's outstanding reads quarantined (R286). -/
def State.quarantineReads (s : State) (n : Nat) : State :=
  let mine := s.dmv.reads.filter (fun r => r.user = .chan n)
  let s := s.withDmv { s.dmv with reads := s.dmv.reads.filter (fun r => r.user ≠ .chan n),
                                  retries := s.dmv.retries.filter (fun r => r.user ≠ .chan n) }
  mine.foldl (fun s r => s.quarantineTag r.port r.tag false) s

/-- A transfer back at its first byte (R281); data that came from the array stays. -/
def Transfer.restart (t : Transfer) : Transfer :=
  { t with asked := 0, moved := 0, got := if t.srcs.isEmpty then t.got else [] }

/-- CTL.ENABLE written 0 to a channel that is not the last of its line (R281): line 0 drops its descriptor, and BYTES and DESC
become undefined; lines 1 to 4 hand their transfers to the other channels of the line. -/
def State.disableChannel (s : State) (n : Nat) : State :=
  let c := s.chan n
  let line := s.chanLine n
  let s := s.quarantineReads n
  if line = 0 then
    let k := s.freeCount
    let s := s.withFreeCount (k + 2)
    let s := s.withDmv { s.dmv with mqs := Tab.mapV s.dmv.mqs Mq.at0 (fun _ m =>
      { m with waiting := m.waiting.filter (fun w => w.1 ≠ n) }) }
    s.modChan n (fun c => { c with state := .disabled, enable := false, swReq := false, queue := [], held := none,
                                   flushWait := false, bytes := Config.freeWord k,
                                   desc := Config.freeWord (k + 1) &&& ~~~63#64 })
  else
    let s := s.modChan n (fun c => { c with state := .disabled, enable := false, queue := [], flushWait := false })
    c.queue.foldl (fun s t => s.queueTransfer line t.restart) s

/-- CHANNEL_DISABLE (R279, R281). -/
def execChannelDisable (ch : BitVec 6) (s : State) : Host.Outcome State Fault Refusal :=
  if s.haltClosed then .next s
  else
    let s := s.leaveDock
    let n := ch.toNat
    let line := s.chanLine n
    if (s.chan n).state = .disabled then .next s
    else if 1 ≤ line ∧ line ≤ 4 ∧ !(chanNumbers.any (fun m => decide (m ≠ n) && (s.chan m).enable && decide (s.chanLine m = line)))
    then .next (s.raise 0x35 .note (BitVec.ofNat 8 n))
    else .next (s.disableChannel n)

/-- SW_REQ (R279, R280): a line 0 channel in IDLE or HALTED with DESC not 0 runs its chain. -/
def execSwReq (ch : BitVec 6) (s : State) : Host.Outcome State Fault Refusal :=
  if s.haltClosed then .next s
  else
    let s := s.leaveDock
    let n := ch.toNat
    let c := s.chan n
    if s.chanLine n = 0 ∧ (c.state = .idle ∨ c.state = .halted) ∧ c.desc ≠ 0 then
      .next (s.modChan n (fun c => { c with state := .running, swReq := true }))
    else .next s

/-- CHANNEL_DESC (R280): DESC is written in IDLE and HALTED. -/
def execChannelDesc (ch : BitVec 6) (value : Word64) (s : State) : Host.Outcome State Fault Refusal :=
  if s.haltClosed then .next s
  else
    let s := s.leaveDock
    let n := ch.toNat
    let c := s.chan n
    if c.state = .idle ∨ c.state = .halted then .next (s.modChan n (fun c => { c with desc := value &&& ~~~63#64 }))
    else .next s

/-- MQ_ENABLE (R287): enabling needs a BASE and a SIZE_LOG2 of 4 to 16 and sets both positions to (0, 0); records that waited
for the queue are written. -/
def execMqEnable (q : BitVec 3) (enable : Bool) (s : State) : Host.Outcome State Fault Refusal :=
  if s.haltClosed then .next s
  else
    let s := s.leaveDock
    let k := q.toNat
    let n := s.regField (Reg.dmvMqCfg k) 0 5
    if !enable then .next (s.modMq k (fun m => { m with enabled := false }))
    else if (s.mq k).enabled ∨ s.regN (Reg.dmvMqBase k) = 0 ∨ n < 4 ∨ 16 < n then .next s
    else .next ((s.modMq k (fun m => { m with enabled := true, prod := 0, cons := 0, unsignalled := 0 })).drainMq k 64)

/-- The first condition of R206 that a consumer doorbell fails: enabled, reserved bits, index, not past the producer. -/
def consCheck (on : Bool) (n cons prod value : Nat) : Option Byte :=
  let pos := value % 2 ^ 16 + n * bitsOf value 16 1
  if !on then some 0x04
  else if 2 ^ 17 ≤ value then some 0x03
  else if n ≤ value % 2 ^ 16 then some 0x06
  else if posCount n cons prod < posCount n cons pos then some 0x07
  else none

/-- MQ_CONS (R287, R206): space returned; held records are written. -/
def execMqCons (q : BitVec 3) (value : Word32) (s : State) : Host.Outcome State Fault Refusal :=
  if s.haltClosed then .next s
  else
    let s := s.leaveDock
    let k := q.toNat
    match consCheck (s.mq k).enabled (s.mqN k) (s.mq k).cons (s.mq k).prod value.toNat with
    | some det => .next (s.raise 0x22 .note det)
    | none =>
      .next ((s.modMq k (fun m => { m with cons := value.toNat % 2 ^ 16 + s.mqN k * bitsOf value.toNat 16 1 })).drainMq k 64)

/-- PWIN_PAGES (R263, R292): ignored while a window has a committed region, and above 4096. -/
def execPwinPages (value : BitVec 13) (s : State) : Host.Outcome State Fault Refusal :=
  if s.haltClosed then .next s
  else
    let s := s.leaveDock
    if value.toNat ≤ 4096 ∧ !(s.pwin.active.any (fun w => w.2.valid)) then .next (s.setRegN Reg.dmvTb value.toNat)
    else .next s

end Sys2Proof.Machine
end

