-- ==== Sys2Proof/Machine/Rings.lean ====
section
/-! DEFINITION. Rings: doorbells, enabling and disabling, fetching and the check of entries, the halt close, MSI-X messages
(spec/07_host_rings.md R202 to R223, R230, R239; spec/15_host_port.md R438). -/

namespace Sys2Proof.Machine

/-! ## Doorbells (R204 to R206) -/

/-- The position that a doorbell value names, for a ring of n entries. -/
def doorbellPos (n value : Nat) : Nat := value % 2 ^ 16 + n * bitsOf value 16 1

/-- The first condition of R205 that a producer doorbell fails, as the detail of source 0x22. -/
def tailCheck (active : Bool) (n head tail value : Nat) : Option Byte :=
  let pos := doorbellPos n value
  if !active then some 0x04
  else if 2 ^ 17 ≤ value then some 0x03
  else if n ≤ value % 2 ^ 16 then some 0x06
  else if n < posCount n head pos then some 0x01
  else if posCount n head pos < posCount n head tail then some 0x02
  else none

/-- A doorbell ignored: counted, and source 0x22 raised. -/
def State.ignoreDoorbell (s : State) (r : RingId) (det : Byte) : State :=
  (s.modRing r (fun g => { g with ignored := (g.ignored + 1) % 2 ^ 32 })).raise 0x22 .note det

/-- A producer doorbell (R205). -/
def State.ringTail (s : State) (r : RingId) (value : Word32) : State :=
  let g := s.ring r
  match tailCheck (decide (g.state = .active)) (s.ringN r) g.head g.tail value.toNat with
  | some det => s.ignoreDoorbell r det
  | none => s.setRing r { g with tail := doorbellPos (s.ringN r) value.toNat }

/-- DATA_RING_DOORBELL (R205). -/
def execDataRingDoorbell (n : BitVec 10) (value : Word32) (s : State) : Host.Outcome State Fault Refusal :=
  if s.haltClosed then .next s else .next (s.leaveDock.ringTail (.data n) value)

/-- COMMAND_RING_DOORBELL (R205). -/
def execCommandRingDoorbell (c : BitVec 4) (value : Word32) (s : State) : Host.Outcome State Fault Refusal :=
  if s.haltClosed then .next s else .next (s.leaveDock.ringTail (.cmd c) value)

/-- The data rings of port p whose head waits for event space go on (R236). -/
def State.unstall (s : State) (p : Bool) : State :=
  (s.liveDataRings.filter (fun n => s.ringPort (.data n) = p && (s.ring (.data n)).evtWait)).foldl
    (fun s n => raised (s.advanceHead (.data n))) s

/-- Space on event ring p used: EVENT_FULL, the hold, the stalled heads. -/
def State.useSpace (s : State) (p : Bool) : State := (raised (s.spaceFreed p)).unstall p

/-- EVENT_RING_DOORBELL (R206, R236, R237). -/
def execEventRingDoorbell (p : Bool) (value : Word32) (s : State) : Host.Outcome State Fault Refusal :=
  if s.haltClosed then .next s
  else
    let s := s.leaveDock
    let r : RingId := .event p
    let g := s.ring r
    match consCheck (decide (g.state = .active)) (s.ringN r) g.head g.tail value.toNat with
    | some det => .next (s.ignoreDoorbell r det)
    | none =>
      let pos := doorbellPos (s.ringN r) value.toNat
      let s := s.setRing r { g with head := pos, isFull := g.isFull && decide (pos = g.head) }
      .next (s.useSpace p)

/-! ## Survey records (R461, R462) -/

/-- The SURVEY record of one entry. -/
def surveyItem (e : SurveyEntry) : EventRecord :=
  { EventRecord.blank 0x0B with
      detail := e.item, index := e.inst.setWidth 16, count := BitVec.ofNat 32 (signedNat 32 e.value),
      aux := BitVec.ofNat 32 (e.limit.toNat % 2 ^ 16 + 2 ^ 16 * e.verdict.toNat) }

/-- Entries of the survey with a verdict. -/
def State.surveyWith (s : State) (v : BitVec 2) : Nat := (s.gcs.survey.filter (fun e => e.verdict = v)).length

/-- The worst verdict: fail, marginal or pass. -/
def State.surveyWorst (s : State) : Nat := if 0 < s.surveyWith 2 then 2 else if 0 < s.surveyWith 1 then 1 else 0

/-- The SURVEY records: the summary, then one per marginal or failed entry, up to 63. -/
def State.surveyRecords (s : State) : List EventRecord :=
  { EventRecord.blank 0x0B with
      count := BitVec.ofNat 32 s.gcs.survey.length,
      aux := BitVec.ofNat 32 (satTo 8 (s.surveyWith 1) + 2 ^ 8 * satTo 8 (s.surveyWith 2) + 2 ^ 16 * s.surveyWorst) } ::
    ((s.gcs.survey.filter (fun e => e.verdict = 1 || e.verdict = 2)).take 63).map surveyItem

/-- The kept SURVEY records posted to event ring p, once. -/
def State.postSurvey (s : State) (p : Bool) : State :=
  if !s.gcs.surveyKept || s.gcs.surveyPosted.getD (ofBool p) false || (s.ring (.event p)).state ≠ .active then s
  else
    let s := s.withGcs { s.gcs with surveyPosted := s.gcs.surveyPosted.set (ofBool p) true }
    s.surveyRecords.foldl (fun s r => let x := s.postTo p r; x.1.raiseAll x.2.1) s

/-! ## Enabling and disabling (R211 to R216) -/

/-- The SIZE_LOG2 range of a ring kind (R208, R209). -/
def sizeOk (r : RingId) (n : Nat) : Bool :=
  match r with
  | .data _ => decide (1 ≤ n) && decide (n ≤ 16)
  | .cmd _ => decide (1 ≤ n) && decide (n ≤ 12)
  | .event _ => decide (4 ≤ n) && decide (n ≤ 16)

/-- The conditions of R212 on an enable. -/
def State.enableOk (s : State) (r : RingId) : Bool :=
  decide (s.ringBase r ≠ 0) && sizeOk r (bitsOf (s.ringCfg r) 0 5) && (match r with
    | .event _ => true
    | _ => decide (s.ringShadow r ≠ 0) && decide ((s.ring (.event (s.ringPort r))).state = .active))

/-- RING_ENABLE (R211, R212): a DISABLED ring becomes ACTIVE with head and tail at (0, 0); refused with source 0x22 detail
0x05. -/
def execRingEnable (r : RingId) (s : State) : Host.Outcome State Fault Refusal :=
  if s.haltClosed then .next s
  else
    let s := s.leaveDock
    if (s.ring r).state ≠ .disabled then .next s
    else if !s.enableOk r then .next (s.raise 0x22 .note 0x05)
    else
      let s := s.setRing r { Ring.at0 with state := .active }
      match r with
      | .event p => .next (s.postSurvey p)
      | _ => .next s

/-- The RING_STATE record of a ring (R234). -/
def ringStateRecord (r : RingId) (code : Nat) : EventRecord :=
  { EventRecord.blank 9 with
      kindCmd := (match r with
        | .cmd _ => true
        | _ => false),
      ring := (match r with
        | .data n => n.setWidth 16
        | .cmd c => c.setWidth 16
        | .event _ => 0xFFFF),
      aux := BitVec.ofNat 32 code }

/-- A RING_STATE record posted to the event ring of the ring's port (R235). -/
def State.postRingState (s : State) (r : RingId) (code : Nat) : State :=
  let x := s.postTo (s.ringPort r) (ringStateRecord r code)
  x.1.raiseAll x.2.1

/-- The entries of a data ring end as R213 states: committed writes with OK, every other one ABORTED; its stride detector is
freed (R308). -/
def State.endRing (s : State) (n : BitVec 10) : State :=
  let s := s.withScc { s.scc with detectors := s.scc.detectors.filter (fun d => d.ring ≠ n) }
  let s := raised (s.abortRing n (s.ring (.data n)).tail (fun io => io.committed))
  raised (s.endIos (fun _ => (0, 0)) (s.ios.filter (fun io => io.ring = n && !io.fwd && io.committed)))

/-- RING_DISABLE (R211, R213): ENABLE of a data ring written 0. -/
def execRingDisable (n : BitVec 10) (s : State) : Host.Outcome State Fault Refusal :=
  if s.haltClosed then .next s
  else
    let s := s.leaveDock
    let g := s.ring (.data n)
    if g.state = .active ∨ g.state = .faulted then
      .next ((s.setRing (.data n) { g with state := .disabling }).endRing n)
    else .next s

/-- The packets of a command ring that have not started are discarded (R216). -/
def State.discardPackets (s : State) (c : BitVec 4) : State :=
  let src : CmdSrc := .ring c
  s.setSrcQueue src ((s.srcQueue src).take (if src ∈ s.interp.busy then 1 else 0))

/-- COMMAND_RING_DISABLE (R211, R216). -/
def execCommandRingDisable (c : BitVec 4) (s : State) : Host.Outcome State Fault Refusal :=
  if s.haltClosed then .next s
  else
    let s := s.leaveDock
    let g := s.ring (.cmd c)
    if g.state = .active ∨ g.state = .faulted then
      .next ((s.setRing (.cmd c) { g with state := .disabling, inRead := 0 }).discardPackets c)
    else .next s

/-- Whether any data or command ring of port p is not DISABLED. -/
def State.portBusy (s : State) (p : Bool) : Bool :=
  (Tab.keysWith s.rings (fun k g => decide (k < 1040) && decide (g.state ≠ .disabled))).any (fun k =>
    s.ringPort (if k < 1024 then .data (BitVec.ofNat 10 k) else .cmd (BitVec.ofNat 4 (k - 1024))) = p)

/-- EVENT_RING_DISABLE (R211, R212): ignored while a ring of its port is not DISABLED; held records are
discarded, and an operation that waits for space goes on without its record. -/
def execEventRingDisable (p : Bool) (s : State) : Host.Outcome State Fault Refusal :=
  if s.haltClosed then .next s
  else
    let s := s.leaveDock
    let g := s.ring (.event p)
    if g.state ≠ .active ∨ s.portBusy p then .next s
    else .next (s.setRing (.event p) { g with state := .disabled, hold := [], waitB := [] })

/-- RING_DISABLE_COMPLETE (R211): a DISABLING ring whose entries have all ended becomes DISABLED and posts RING_STATE. -/
def execRingDisableComplete (r : RingId) (s : State) : Host.Outcome State Fault Refusal :=
  let g := s.ring r
  let over? : Bool := match r with
    | .data _ => decide (g.head = g.tail)
    | .cmd c => decide (CmdSrc.ring c ∉ s.interp.busy) && !(s.interp.heldReplies.any (fun h => h.1 = .ring c))
    | .event _ => false
  if g.state = .disabling ∧ over? then .next ((s.setRing r { g with state := .disabled }).postRingState r 0)
  else .next s

/-- PRIV_LOCK (R239). -/
def execPrivLock (s : State) : Host.Outcome State Fault Refusal :=
  if s.haltClosed then .next s else .next (s.leaveDock.withPrivLock true)

/-! ## Fetching (R207, R214, R220, R223) -/

/-- The size of an entry of a ring (R200). -/
def entrySize (r : RingId) : Nat :=
  match r with
  | .data _ => 64
  | .cmd _ => 128
  | .event _ => 32

/-- The entries of ring r that a burst read may take: up to 8, before the accepted tail, not past the end of the ring. -/
def State.fetchCount (s : State) (r : RingId) : Nat :=
  let g := s.ring r
  let n := s.ringN r
  min (min 8 (posCount n g.fetched g.tail)) (n - posIndex n g.fetched)

/-- A ring-entry read issued or reissued for `k` entries (R285). -/
def State.readEntries (s : State) (r : RingId) (k : Nat) : State :=
  let sz := entrySize r
  s.issueRead { port := s.ringPort r, tag := 0, user := .ring r, off := 0, len := k * sz, left := 0, dead := false }
    (s.ringBase r + posIndex (s.ringN r) (s.ring r).fetched * sz) (k * sz)

/-- Ring-entry reads of port p outstanding. -/
def State.ringReads (s : State) (p : Bool) : Nat :=
  (s.dmv.reads.filter (fun r => r.port = p && (match r.user with
    | .ring _ => true
    | _ => false))).length

/-- DESCRIPTOR_FETCH (R223, R207): a burst read of up to 8 entries; at most 128 outstanding per port, one per ring. -/
def execDescriptorFetch (r : RingId) (s : State) : Host.Outcome State Fault Refusal :=
  let g := s.ring r
  let k := s.fetchCount r
  let p := s.ringPort r
  match r with
  | .event _ => .next s
  | _ =>
    if g.state ≠ .active ∨ s.gcs.halted ∨ s.portSilent p ∨ g.inRead ≠ 0 ∨ k = 0 ∨ 128 ≤ s.ringReads p ∨
        (s.freeTags p).isEmpty then .next s
    else .next ((s.setRing r { g with inRead := k, retried := false }).readEntries r k)

/-- The descriptor in 64 bytes (R217). -/
def descOf (pos : Nat) (b : Bytes) : Desc :=
  { pos := pos, opcode := byteAt b 0, flags := byteAt b 1, set := byteAt b 2, mode := byteAt b 3, blocks := leAt b 4 2,
    tag := BitVec.ofNat 64 (leAt b 8 8), lba := leAt b 0x10 6, addr0 := BitVec.ofNat 64 (leAt b 0x18 8),
    addr1 := BitVec.ofNat 64 (leAt b 0x20 8), len0 := leAt b 0x28 4, len1 := leAt b 0x2C 4 }

/-- Whether the PHASE bit of an entry fits its lap (R203). -/
def phaseOk (n pos : Nat) (phase : Bool) : Bool := decide (phase ≠ posLap n pos)

/-- The reason for which a data descriptor at position pos of a ring of n entries is malformed, none when it is well formed
(R220): PHASE, the fields marked zero with MODE 3, OPCODE, the rules of the opcode, the lengths. -/
def malformed (n : Nat) (b : Bytes) (d : Desc) : Option Byte :=
  let op := d.opcode.toNat
  let rw := decide (op = 1) || decide (op = 2)
  let plain := decide (op = 3) || decide (op = 4) || decide (op = 5)
  let mode := d.mode.toNat
  if !phaseOk n d.pos (d.flags.getLsbD 0) then some 1
  else if 16 ≤ d.flags.toNat ∨ 64 ≤ d.set.toNat ∨ 3 ≤ mode ∨ leAt b 6 2 ≠ 0 ∨ leAt b 0x16 2 ≠ 0 ∨ !allZero (sliceAt b 0x30 16) ∨
      (mode = 1 ∧ (d.addr1 ≠ 0 ∨ d.len1 ≠ 0)) ∨ (mode = 2 ∧ (d.addr1 ≠ 0 ∨ 64 ≤ d.len0 ∨ d.len1 ≠ 0)) then some 2
  else if !rw && !plain then some 3
  else if plain && (decide (mode ≠ 0) || decide (d.addr0 ≠ 0) || decide (d.addr1 ≠ 0) || decide (d.len0 ≠ 0) ||
      decide (d.len1 ≠ 0)) then some 2
  else if op = 5 ∧ (d.set ≠ 0 ∨ d.lba ≠ 0) then some 2
  else if rw && decide (mode = 0) && decide (d.len1 = 0) && decide (d.addr1 ≠ 0) then some 2
  else if (if op = 5 then d.blocks ≠ 0 else d.blocks = 0 ∨ 256 < d.blocks) then some 4
  else if rw && decide (mode = 0) && (decide (d.len0 = 0) || decide (d.len0 + d.len1 ≠ d.blocks * 4096)) then some 4
  else if rw && decide (mode = 1) && (decide (d.len0 = 0) || decide (4096 < d.len0)) then some 4
  else none

/-- The halt of a malformed entry (R221). -/
def State.haltAt (s : State) (r : RingId) (pos : Nat) (src reason : Byte) : State :=
  (s.raise src .stop reason).halt { reason := reason, entry := some (r, pos), silent := false }

/-- The entries of a read taken in order, the first malformed one halting the controller. -/
def State.takeEntries (s : State) (r : RingId) (data : Bytes) : Nat → Nat → State
  | 0, _ => s
  | k + 1, i =>
    let pos := (s.ring r).fetched
    let n := s.ringN r
    let b := sliceAt data (i * entrySize r) (entrySize r)
    match r with
    | .data _ =>
      let d := descOf pos b
      (match malformed n b d with
        | some reason => s.haltAt r pos 0x20 reason
        | none => (s.modRing r (fun g => { g with queue := g.queue ++ [d], fetched := posAdd n pos 1 })).takeEntries r data k (i + 1))
    | .cmd c =>
      if phaseOk n pos ((byteAt b 2).getLsbD 0) then
        ((s.setSrcQueue (.ring c) (s.srcQueue (.ring c) ++ [b])).modRing r (fun g =>
          { g with fetched := posAdd n pos 1 })).takeEntries r data k (i + 1)
      else s.haltAt r pos 0x21 1
    | .event _ => s

/-- A ring whose entries cannot be read (R214). -/
def State.ringFaulted (s : State) (r : RingId) : State :=
  let s := (s.modRing r (fun g => { g with state := .faulted, inRead := 0 })).count32 Reg.rngReadFaults 1
  let s := s.raise 0x23 .warn (match r with
    | .cmd _ => 2
    | _ => 1)
  s.postRingState r 3

/-- The read of a ring's entries that is in flight. -/
def State.entryRead (s : State) (r : RingId) : Option HostRead :=
  (s.dmv.reads.find? (fun h => h.user = .ring r && !h.dead)).orElse (fun _ => s.dmv.reads.find? (fun h => h.user = .ring r))

/-- A ring-entry read failed: retried once, then the ring is FAULTED (R214). -/
def State.entriesFailed (s : State) (r : RingId) : State :=
  let g := s.ring r
  if g.inRead = 0 ∨ g.state ≠ .active then s
  else if g.retried then s.ringFaulted r
  else (s.setRing r { g with retried := true }).readEntries r g.inRead

/-- DESCRIPTOR_READ_COMPLETE (R214, R220): entries arrive and are checked; the data of a ring that no longer waits for them
is discarded. -/
def execDescriptorReadComplete (r : RingId) (result : BusResult) (s : State) : Host.Outcome State Fault Refusal :=
  match s.entryRead r with
  | none => .next s
  | some h =>
    let s := s.dropRead { port := h.port, tag := h.tag }
    let g := s.ring r
    if h.dead ∨ g.inRead = 0 ∨ g.state ≠ .active then .next s
    else match result with
      | .ok data => .next ((s.setRing r { g with inRead := 0 }).takeEntries r data g.inRead 0)
      | _ => .next (s.entriesFailed r)

/-- RING_READ_TIMEOUT (R214, R286): no completion within the timeout; its tag is quarantined. -/
def execRingReadTimeout (r : RingId) (s : State) : Host.Outcome State Fault Refusal :=
  match s.entryRead r with
  | none => .next s
  | some h =>
    let s := (s.dropRead { port := h.port, tag := h.tag }).quarantineTag h.port h.tag true
    .next (if h.dead then s else s.entriesFailed r)

/-! ## The end of the halt close (R221) -/

/-- HALT_CLOSE_END (R221): ACTIVE event rings enter HALTED, held records are discarded, and nothing more is written. -/
def execHaltCloseEnd (s : State) : Host.Outcome State Fault Refusal :=
  if !s.gcs.haltClosing then .next s
  else
    let s := s.withGcs { s.gcs with haltClosing := false }
    .next (s.withRings (Tab.mapV s.rings Ring.at0 (fun k g =>
      if 1040 ≤ k ∧ g.state = .active then { g with state := .halted, hold := [], waitB := [] } else g)))

/-! ## Messages (R230, R287, R438) -/

/-- MSIX_HOLDOFF_EXPIRY (R230, R287): the message of the completions not yet signalled. -/
def execMsixHoldoffExpiry (r : IrqSource) (s : State) : Host.Outcome State Fault Refusal :=
  match r with
  | .ring r =>
    if (s.ring r).unsignalled = 0 ∨ !bitOf (s.ringCfg r) 31 then .next s
    else .next ((s.modRing r (fun g => { g with unsignalled := 0 })).sendMsix (s.ringPort r) (bitsOf (s.ringCfg r) 16 11))
  | .mq q =>
    let k := q.toNat
    if (s.mq k).unsignalled = 0 ∨ !s.regBit (Reg.dmvMqCfg k) 31 then .next s
    else .next ((s.modMq k (fun m => { m with unsignalled := 0 })).sendMsix (s.mqPort k) (s.regField (Reg.dmvMqCfg k) 16 11))

/-- The pending vectors of a port that nothing masks any more send their messages (R438, R446). -/
def State.sendPending (s : State) (p : Bool) : State :=
  let h := s.hpu p
  if !h.cfg.msixEnable ∨ h.cfg.functionMask ∨ s.portSilent p then s
  else
    (h.pendingBits.filter (fun v => !(s.msixEntry p v).masked)).foldl (fun s v =>
      (s.modHpu p (fun h => { h with pendingBits := without h.pendingBits v })).sendMsix p v) s

/-- MSIX_UNMASK (R438): a vector unmasked; its pending message is sent. -/
def execMsixUnmask (p : Bool) (vector : BitVec 11) (s : State) : Host.Outcome State Fault Refusal :=
  if s.haltClosed then .next s
  else
    let s := s.leaveDock
    let v := vector.toNat
    let s := s.modHpu p (fun h => { h with msix := Tab.set h.msix MsixEntry.at0 v { Tab.get h.msix MsixEntry.at0 v with masked := false } })
    .next (s.sendPending p)

end Sys2Proof.Machine
end

