-- ==== Sys2Proof/Machine/Coding.lean ====
section
/-! DEFINITION. Coding clusters: dispatch, the column-sum check, the spare engine, the decode solver
(spec/02_codes_and_seals.md R54 to R61). -/

namespace Sys2Proof.Machine

/-- Whether a cluster is present on this part (R1). -/
def State.clusterPresent (s : State) (c : Bool) : Bool := decide (ofBool c < Config.clusters s.part)

/-- The passes queued on an engine. -/
def Cluster.engineQueue (c : Cluster) (e : Nat) : List Pass := Tab.get c.queues [] e

/-- The healthy engine with the shortest queue, the lowest-numbered on a tie (R61). -/
def Cluster.shortestEngine (c : Cluster) : Option Nat :=
  c.healthy.foldl (fun m e => match m with
    | none => some e
    | some k => if (c.engineQueue e).length < (c.engineQueue k).length then some e else some k) none

/-- The cluster that a pass goes to (R61): that of its decode-matrix lookup for a reconstruction, as long as it has a healthy
engine, the one with the shorter queue otherwise. -/
def State.passCluster (s : State) (p : Pass) : Option Bool :=
  match p.rowOp.bind s.findRowOp with
  | some o => if (s.cluster o.cluster).healthy.isEmpty then s.shorterCluster else some o.cluster
  | none => s.shorterCluster

/-- CODING_PASS_DISPATCH (R61): the oldest waiting pass goes to an engine. -/
def execCodingPassDispatch (s : State) : Host.Outcome State Fault Refusal :=
  match s.passes with
  | [] => .next s
  | p :: rest =>
    match s.passCluster p with
    | none => .next s
    | some c =>
      match (s.cluster c).shortestEngine with
      | none => .next s
      | some e =>
        .next ((s.withPasses rest).modCluster c (fun v =>
          { v with queues := Tab.set v.queues [] e (v.engineQueue e ++ [p]) }))

/-- Whether an engine is healthy in some present cluster. -/
def State.anyEngine (s : State) : Bool :=
  [false, true].any (fun c => s.clusterPresent c && !(s.cluster c).healthy.isEmpty)

/-- A cluster with an engine fenced (R59): an active engine is replaced by CE-S, whose self-test begins, when CE-S is free; a
CE-S that was in service leaves it. -/
def Cluster.fence (v : Cluster) (e : Nat) : Cluster :=
  let q := Tab.remove v.queues e
  if e = 8 then { v with queues := q, spareOk := false }
  else if v.spareOk && v.spareFor.isNone then
    { v with queues := q, fenced := v.fenced ++ [e], spareFor := some e, spareTesting := true }
  else { v with queues := q, fenced := v.fenced ++ [e] }

/-- The source ID of an engine, 0x40 + e of CC0 and 0x50 + e of CC1 (R60). -/
def engineSource (c : Bool) (e : Nat) : Byte := BitVec.ofNat 8 (0x40 + 0x10 * ofBool c + e)

/-- An engine's check failed (R59, R60): it is fenced, and every pass queued on it, the voided one first, is dispatched
again. -/
def State.engineFailed (s : State) (c : Bool) (e : Nat) : State :=
  let v := s.cluster c
  let takeover := decide (e ≠ 8) && v.spareOk && v.spareFor.isNone
  let s := (s.withPasses (v.engineQueue e ++ s.passes)).modCluster c (fun v => v.fence e)
  let lvl : Level := if takeover then .warn else if s.anyEngine then .contain else .stop
  s.raise (engineSource c e) lvl 1

/-- The outputs of a released pass delivered (R57): a reconstruction's fragment, prediction and repairs, or the parity sectors
of a stripe commit. -/
def State.release (s : State) (p : Pass) (outputs : List Bytes) : State :=
  match p.rowOp, p.commit with
  | some id, _ =>
    (match s.findRowOp id with
      | none => s
      | some o =>
        if o.voided then s
        else
          let data := outputs.getD 0 []
          let n := if o.verifier.isSome then 1 else 0
          let prediction := if o.verifier.isSome then some (outputs.getD 1 []) else none
          s.acceptRow o data prediction ((o.targets.drop (1 + n)).zip (outputs.drop (1 + n))))
  | none, some id =>
    (match s.commits.find? (fun c => c.id = id) with
      | none => s
      | some c =>
        let prof := s.setProfile (s.set c.set.toNat)
        let s := s.commitCoded c ((prof.parities.zip outputs).flatMap (fun x =>
          (List.range c.rowCount).map (fun i => (x.1, c.rowFirst + i, sliceAt x.2 (4096 * i) 4096))))
        match c.intent with
        | some seq => s.settleIntent seq
        | none => s)
  | none, none => s

/-- CODING_PASS_COMPLETE (R57, R59): the first pass of an engine (bit 4 the cluster, bits 3 to 0 the engine, CE-S as 8) ends
with these output streams; the column-sum check releases or withholds them. -/
def execCodingPassComplete (engine : BitVec 5) (outputs : List Bytes) (s : State) : Host.Outcome State Fault Refusal :=
  let c := engine.getLsbD 4
  let e := engine.toNat % 16
  match (s.cluster c).engineQueue e with
  | [] => .next s
  | p :: rest =>
    if outputs.length = p.coeffs.length && columnSumOk p.coeffs p.inputs outputs p.bytes then
      .next ((s.modCluster c (fun v => { v with queues := Tab.set v.queues [] e rest })).release p outputs).evalLog
    else .next (s.engineFailed c e)

/-- CES_SELF_TEST_COMPLETE (R59): CE-S enters service in the place of the fenced engine, or is fenced itself. -/
def execCesSelfTestComplete (cluster pass : Bool) (s : State) : Host.Outcome State Fault Refusal :=
  if !(s.cluster cluster).spareTesting then .next s
  else
    let s := s.modCluster cluster (fun v => { v with spareTesting := false, spareOk := pass })
    if pass then .next s else .next (s.raise (engineSource cluster 8) .warn 2)

/-- The idle self-test of one cluster's CE-S. -/
def State.idleTest (s : State) (c pass : Bool) : State :=
  let v := s.cluster c
  if !s.clusterPresent c ∨ !v.spareOk ∨ v.spareFor.isSome ∨ pass then s
  else (s.modCluster c (fun v => { v with spareOk := false })).raise (engineSource c 8) .warn 2

/-- CES_IDLE_SELF_TEST (R59): each second of fix time an idle CE-S tests itself; deferred in Idle-dock (R469). -/
def execCesIdleSelfTest (pass0 pass1 : Bool) (s : State) : Host.Outcome State Fault Refusal :=
  if s.gcs.phase = .dock then .next (s.withGcs { s.gcs with deferredCalendar := withElem s.gcs.deferredCalendar 2 })
  else .next ((s.idleTest false pass0).idleTest true pass1)

/-! ## The decode solver (R54, R55) -/

/-- The key of a row operation's decode matrix. -/
def State.matrixKey (s : State) (o : RowOp) : BitVec 6 × Word64 := ((s.set o.set.toNat).profile, o.mask)

/-- The row operations that waited for a key in a cluster's cache go on. -/
def State.matrixReady (s : State) (c : Bool) (key : BitVec 6 × Word64) : State :=
  (s.rowOps.filter (fun o => o.solveWait && o.cluster = c && decide (s.matrixKey o = key))).foldl (fun s o =>
    match s.findRowOp o.id with
    | none => s
    | some o => (s.setRowOp { o with solveWait := false }).rowStep o.id) s

/-- The lookups that a full queue held back start again. -/
def State.matrixRetry (s : State) : State :=
  (s.rowOps.filter (fun o => o.solveWait && decide (s.matrixKey o ∉ (s.cluster o.cluster).solves))).foldl (fun s o =>
    let (s, o) := s.matrixLookup o
    (s.setRowOp o).rowStep o.id) s

/-- A key installed in a cluster's cache of 256 entries, least recently used first. -/
def Cluster.install (v : Cluster) (key : BitVec 6 × Word64) : Cluster :=
  let l := without v.cache key ++ [key]
  { v with cache := l.drop (l.length - 256), solves := v.solves.drop 1 }

/-- DECODE_SOLVE_COMPLETE (R54, R55, R60): the first solve of a cluster's queue ends on its own solver, or on the other
cluster's once that is fenced. A verified one is installed; a failed one is retried once, and a second failure fences the
solver. -/
def execDecodeSolveComplete (cluster verified : Bool) (s : State) : Host.Outcome State Fault Refusal :=
  match (s.cluster cluster).solves with
  | [] => .next s
  | key :: _ =>
    let sv := if (s.cluster cluster).solverFenced then !cluster else cluster
    if !s.clusterPresent sv ∨ (s.cluster sv).solverFenced then .next s
    else if verified then
      let s := (s.modCluster sv (fun v => { v with solveRetried := false })).modCluster cluster (fun v => v.install key)
      .next ((s.matrixReady cluster key).matrixRetry)
    else if !(s.cluster sv).solveRetried then .next (s.modCluster sv (fun v => { v with solveRetried := true }))
    else
      let s := s.modCluster sv (fun v => { v with solverFenced := true, solveRetried := false })
      let left := [false, true].any (fun c => s.clusterPresent c && !(s.cluster c).solverFenced)
      .next (s.raise (engineSource sv 9) (if left then .contain else .stop) 3)

end Sys2Proof.Machine
end

