-- ==== Sys2Proof/Machine/Rebuild.lean ====
section
/-! DEFINITION. Rebuild, scrub, row arbitration and resync (spec/06_degraded_and_rebuild.md R177 to R193;
spec/04_the_log.md R142, R143). -/

namespace Sys2Proof.Machine

/-! ## Rebuild (R181 to R189) -/

/-- Whether this side runs a set's work: its owner in pair mode (R399). -/
def State.owns (s : State) (a : ArraySet) : Bool :=
  match s.pair.state with
  | .paired => decide (a.side = s.pair.side)
  | _ => true

/-- Whether background work of a set may run: RUNNING, no Hold, no halt, RUNNING phase (R33, R189, R387). -/
def State.background (s : State) (a : ArraySet) : Bool :=
  decide (a.state = .running) && !a.replaying && !s.inHold && !s.gcs.halted && s.owns a && decide (s.gcs.phase ≠ .dock)

/-- The first stripe at or above x that lies in a written extent, the stripe count when there is none (R182). -/
def ArraySet.nextWritten (a : ArraySet) (x : Nat) : Nat :=
  if x / 1024 ∈ a.extents then min x a.stripeCount.toNat
  else
    let later := a.extents.filter (fun e => decide (x / 1024 < e))
    match later with
    | [] => a.stripeCount.toNat
    | e :: rest => min (1024 * rest.foldl min e) a.stripeCount.toNat

/-- The candidate cursor: the lowest written stripe from x on that is not done (R183). -/
def ArraySet.candidateFrom (a : ArraySet) : Nat → Nat → Nat
  | 0, x => x
  | n + 1, x =>
    let y := a.nextWritten x
    if a.inFlight.any (fun r => r.stripe = y && r.done) then a.candidateFrom n (y + 1) else y

/-- The candidate cursor brought up to date; done stripes below it leave the list. -/
def ArraySet.advance (a : ArraySet) : ArraySet :=
  let c := a.candidateFrom (a.inFlight.length + 1) a.candidate.toNat
  { a with candidate := BitVec.ofNat 48 c, inFlight := a.inFlight.filter (fun r => decide (c ≤ r.stripe)) }

/-- The fragments whose bearings differ between the current and the pending revision (R87). -/
def State.movedFrags (s : State) (set : BitVec 6) (a : ArraySet) (next : Revision) (stripe : Nat) : List Nat :=
  ((s.setProfile a).frags).filter (fun f => decide (s.bearing set a.current stripe f ≠ s.bearing set next stripe f))

/-- The reads of one row's moved fragments (R181): a copy of an available fragment, a decode of any other; the unavailable
fragments of an unresolved row are left (R143). -/
def State.rebuildRow (s : State) (set : BitVec 6) (stripe row : Nat) (frags : List Nat) : State :=
  frags.foldl (fun s f =>
    let a := s.set set.toNat
    if !s.fragOut set a.current stripe f then (s.requestRead .rebuild set a.current stripe f row .rebuild).1
    else if (stripe, row) ∈ a.unresolved then s
    else s.startRow set a.current stripe row f s.nextId .decode .rebuild []) s

/-- A stripe taken by rebuild (R183). -/
def State.takeStripe (s : State) (set : BitVec 6) (next : Revision) (stripe : Nat) : State :=
  let a := s.set set.toNat
  let old := a.inFlight.find? (fun r => r.stripe = stripe)
  let r : RebuildStripe := { stripe := stripe, takes := (old.elim 0 (fun r => r.takes)) + 1, done := false, touched := false }
  let s := s.setSet set.toNat { a with inFlight := a.inFlight.filter (fun r => r.stripe ≠ stripe) ++ [r] }
  let frags := s.movedFrags set a next stripe
  (List.range a.s).foldl (fun s row => s.rebuildRow set stripe row frags) s

/-- Whether rebuild still has reads, reconstructions or writes of a stripe outstanding. -/
def State.rebuildBusy (s : State) (set : BitVec 6) (stripe : Nat) : Bool :=
  s.cht.waiting.any (fun r => r.purpose = .rebuild && r.set = set && decide (r.stripe = stripe)) ||
    s.ctxs.any (fun c => match c.2.use with
      | .lookup r => r.purpose = .rebuild && r.set = set && decide (r.stripe = stripe)
      | _ => false) ||
    s.dcmds.any (fun d => (d.purpose = .rebuild || d.purpose = .rebuildWrite) && d.set = set && decide (d.stripe = stripe) &&
      !d.quarantined) ||
    s.rowOps.any (fun o => o.purpose = .rebuild && o.set = set && decide (o.stripe = stripe))

/-- The nominal rate of a port in bytes per 1 ms (R185). -/
def Port.bytesPerMs (v : Port) : Nat :=
  (match v.gen.toNat with
    | 3 => 3900000
    | 2 => 1950000
    | _ => 980000) * v.width.toNat

/-- What the moves of a stripe read, as (port, bytes): one fragment for a copy, the chosen survivors for a decode. -/
def State.stripeReads (s : State) (set : BitVec 6) (a : ArraySet) (next : Revision) (stripe : Nat) : List (Byte × Nat) :=
  let p := s.setProfile a
  let mask := s.eraseMask set a.current stripe
  (s.movedFrags set a next stripe).flatMap (fun f =>
    let from? := if !mask.getLsbD f then [f] else ((p.choose mask stripe 0).map (fun c => c.reads)).getD []
    from?.map (fun g => (s.fragPort set a.current stripe g, a.s * 4096)))

/-- The use of a window so far: bytes per port, and in all. -/
abbrev WindowUse := Tab Nat × Nat

/-- Stripes of a set started in one window: retaken ones first, then new ones in ascending order, while fewer than
GCS.RBS_WINDOW.STRIPES are in flight and no port's share and not the total limit is used up (R183, R185). -/
def State.startStripes (s : State) (set : BitVec 6) (next : Revision) : Nat → WindowUse → State
  | 0, _ => s
  | n + 1, use =>
    let a := s.set set.toNat
    let again := a.inFlight.find? (fun r => r.touched && !r.done && !s.rebuildBusy set r.stripe)
    let last := a.inFlight.foldl (fun m r => max m (r.stripe + 1)) a.candidate.toNat
    let fresh := a.nextWritten last
    let room := (a.inFlight.filter (fun r => !r.done)).length < s.regField Reg.gcsRbsWindow 0 8
    let pick : Option Nat := match again with
      | some r => some r.stripe
      | none => if room && decide (fresh < a.stripeCount.toNat) then some fresh else none
    match pick with
    | none => s
    | some st =>
      if s.log.recs.any (fun r => r.typ = .data && r.set = set && r.stripe = st && !r.retired &&
          decide (r.status ≠ .abandoned)) then s.stripeCommit set st 0 a.s
      else
        let reads := s.stripeReads set a next st
        let limit (p : Byte) : Nat := (s.port p).bytesPerMs * s.regField Reg.gcsRbsShare 0 8 / 100
        if reads.any (fun r => decide (limit r.1 ≤ Tab.get use.1 0 r.1.toNat)) || decide (Config.rebuildBytesPerMs s.part ≤ use.2)
        then s
        else
          let use := (reads.foldl (fun t r => Tab.modify t 0 r.1.toNat (· + r.2)) use.1,
            use.2 + (reads.map (fun r => r.2)).foldl (· + ·) 0)
          (s.takeStripe set next st).startStripes set next n use

/-! ## Catch-up (R342 steps 5 and 6, R503) -/

/-- The stripe that catch-up of a port takes next, in the first marked extent; none once all of that extent has been taken. -/
def Port.catchupStripe (v : Port) : Option Nat :=
  match v.catchupMap with
  | [] => none
  | x :: rest =>
    let e := rest.foldl min x
    if v.catchupNext = 1024 * (e + 1) then none else some (if v.catchupNext / 1024 = e then v.catchupNext else 1024 * e)

/-- The rows of the fragment that a stripe has on a port: each of its sectors is read, and then its row. -/
def State.catchupFrag (s : State) (set : BitVec 6) (p : Byte) (stripe : Nat) : State :=
  let a := s.set set.toNat
  ((s.setProfile a).frags).foldl (fun s f =>
    match s.bearing set (a.revFor stripe) stripe f with
    | .failed _ _ _ => s
    | .at q dba =>
      if q = p then (List.range a.s).foldl (fun s row => s.catchupRead set stripe f row q (dba + row)) s else s) s

/-- What the catch-up of a stripe on a port reads, as (port, bytes): the port's fragment and the survivors. -/
def State.catchupReads (s : State) (set : BitVec 6) (p : Byte) (stripe : Nat) : List (Byte × Nat) :=
  let a := s.set set.toNat
  let prof := s.setProfile a
  let rev := a.revFor stripe
  let frags := (((prof.choose (s.eraseMask set rev stripe) stripe 0).map (fun c => c.reads)).getD [])
  (p :: frags.map (fun g => s.fragPort set rev stripe g)).map (fun q => (q, a.s * 4096))

/-- Stripes of a woken port taken in one window, at rebuild pacing (R342 step 5, R185). -/
def State.catchupStripes (s : State) (set : BitVec 6) (p : Byte) : Nat → WindowUse → State × WindowUse
  | 0, use => (s, use)
  | n + 1, use =>
    let v := s.port p
    match v.catchupStripe with
    | none => (s, use)
    | some st =>
      let limit (p : Byte) : Nat := (s.port p).bytesPerMs * s.regField Reg.gcsRbsShare 0 8 / 100
      let reads := s.catchupReads set p st
      if !v.catchup || decide (v.state ≠ .ready) || decide ((s.set set.toNat).stripeCount.toNat ≤ st) ||
          reads.any (fun r => decide (limit r.1 ≤ Tab.get use.1 0 r.1.toNat)) ||
          decide (Config.rebuildBytesPerMs s.part ≤ use.2) then (s, use)
      else
        let use := (reads.foldl (fun t r => Tab.modify t 0 r.1.toNat (· + r.2)) use.1,
          use.2 + (reads.map (fun r => r.2)).foldl (· + ·) 0)
        ((s.modPort p (fun v => { v with catchupNext := st + 1 })).catchupFrag set p st).catchupStripes set p n use

/-- The catch-up of every woken member port of a set in one window. -/
def State.catchupSet (s : State) (set : BitVec 6) : State × WindowUse :=
  ((s.set set.toNat).members.filter (fun p => (s.port p).catchup)).foldl (fun acc p => acc.1.catchupStripes set p 255 acc.2)
    (s, ([], 0))

/-- Whether catch-up of an extent of a port still has reads, reconstructions or writes outstanding. -/
def State.catchupBusy (s : State) (p : Byte) (set : BitVec 6) (extent : Nat) : Bool :=
  s.dcmds.any (fun d => d.port = p && decide (d.stripe / 1024 = extent) && d.set = set && !d.quarantined &&
      (decide (d.purpose = .catchup) || decide (d.purpose = .repair))) ||
    s.rowOps.any (fun o => decide (o.purpose = .catchup) && o.set = set && decide (o.stripe / 1024 = extent) &&
      decide (s.fragPort o.set o.rev o.stripe o.frag = p))

/-- Whether every stripe of an extent of a port has been caught up. -/
def State.extentCaught (s : State) (p : Byte) (extent : Nat) : Bool :=
  let v := s.port p
  match s.memberOf p with
  | none => true
  | some id =>
    decide (min (1024 * (extent + 1)) (s.set id).stripeCount.toNat ≤ v.catchupNext) &&
      decide (1024 * extent ≤ v.catchupNext) && !s.catchupBusy p (BitVec.ofNat 6 id) extent

/-- CATCHUP_EXTENT_DONE (R342 step 6): every fragment of the extent on the port carries its row's version. -/
def execCatchupExtentDone (port : Byte) (extent : Nat) (s : State) : Host.Outcome State Fault Refusal :=
  if !(s.port port).catchup ∨ !s.extentCaught port extent then .next s
  else .next (s.modPort port (fun v =>
    let m := without v.catchupMap extent
    { v with catchupMap := m, catchup := !m.isEmpty }))

/-! ## The rebuild window (R185) -/

/-- The next set in turn that rebuilds, or whose woken ports are caught up (R185, R342 step 5). -/
def State.rebuildTurn (s : State) : Option Nat :=
  let ids := (s.sets.filter (fun e => (e.2.pending.isSome || e.2.members.any (fun p => (s.port p).catchup)) &&
    s.background e.2)).map (fun e => e.1)
  (ids.find? (fun i => decide (s.sched.turn < i))).orElse (fun _ => ids.head?)

/-- REBUILD_PACING_WINDOW (R185): one set's stripes start, after the catch-up of its woken ports. -/
def execRebuildPacingWindow (s : State) : Host.Outcome State Fault Refusal :=
  match s.rebuildTurn with
  | none => .next s
  | some i =>
    let set := BitVec.ofNat 6 i
    let (s, use) := (s.withSched { s.sched with turn := i }).catchupSet set
    match (s.set i).pending with
    | none => .next s
    | some next => .next ((s.modSet i ArraySet.advance).startStripes set next 255 use)

/-- REBUILD_STRIPE_DONE (R183): every moved fragment is written or lost and no other drive write touched the stripe; the
candidate cursor follows. A stripe that was touched is taken again in a later window, and one waits while a class B record does
(R236). -/
def execRebuildStripeDone (set : BitVec 6) (stripe : BitVec 48) (s : State) : Host.Outcome State Fault Refusal :=
  let a := s.set set.toNat
  let st := stripe.toNat
  if a.inFlight.any (fun r => r.stripe = st && !r.done && !r.touched) && !s.rebuildBusy set st && !s.classBWaits then
    let fl : List RebuildStripe := a.inFlight.map (fun r => { r with done := r.done || decide (r.stripe = st) })
    let a : ArraySet := { a with inFlight := fl, heldStripes := without a.heldStripes st }
    .next (s.setSet set.toNat a.advance)
  else .next s

/-- REBUILD_RETAKE_LIMIT (R183): a stripe taken four times without being done holds new writes to it. -/
def execRebuildRetakeLimit (set : BitVec 6) (stripe : BitVec 48) (s : State) : Host.Outcome State Fault Refusal :=
  let a := s.set set.toNat
  if a.inFlight.any (fun r => r.stripe = stripe.toNat && !r.done && decide (4 ≤ r.takes)) then
    .next (s.setSet set.toNat { a with heldStripes := withElem a.heldStripes stripe.toNat })
  else .next s

/-- The end of a rebuild (R188): the pending revision becomes current and a queued one pending, with its cursor at 0. -/
def ArraySet.rebuilt (a : ArraySet) (next : Revision) : ArraySet :=
  { a with current := next, pending := a.queued, queued := none, cursor := 0, candidate := 0, inFlight := [], lostRows := 0,
           heldStripes := [] }

/-- The REBUILD_DONE record (R234). -/
def rebuildDoneRecord (set : Nat) (rev : Half) (lost : Nat) : EventRecord :=
  { EventRecord.blank 6 with setId := BitVec.ofNat 8 set, aux := rev.setWidth 32, count := BitVec.ofNat 32 (satTo 32 lost) }

/-- REBUILD_CURSOR_DURABLE (R183, R188, R503): the candidate cursor takes effect; at the stripe count the rebuild is over, and
a port that it restored has nothing left to catch up. -/
def execRebuildCursorDurable (set : BitVec 6) (s : State) : Host.Outcome State Fault Refusal :=
  let a := s.set set.toNat
  match a.pending with
  | none => .next s
  | some next =>
    let s := s.setSet set.toNat { a with cursor := a.candidate }
    if a.stripeCount.toNat ≤ a.candidate.toNat then
      let back := (a.members.filter (fun p => (a.current.ordinal p).isSome && (next.ordinal p).isNone))
      let s := back.foldl (fun s p => s.modPort p (fun v => { v with catchupMap := [], catchup := false })) s
      .next ((s.setSet set.toNat (a.rebuilt next)).post (rebuildDoneRecord set.toNat next.rev a.lostRows))
    else .next s

/-! ## Rows read whole -/

/-- What the reads of a row found: CURRENT sectors, and the others with their class. -/
structure RowRead where
  good : List (Nat × Sector)
  bad : List (Nat × SectorClass)
deriving DecidableEq, Repr

/-- The sectors of a row's available fragments classified by tests 1 to 6 (R66). -/
def State.classifyRow (s : State) (set : BitVec 6) (rev : Revision) (stripe row : Nat) (xs : List (Nat × Sector)) : RowRead :=
  let p := s.setProfile (s.set set.toNat)
  let mine := xs.filter (fun x => decide (x.1 < p.width) && !s.fragOut set rev stripe x.1)
  let cls := mine.map (fun x => (x.1, x.2, classify (s.placeOf set stripe x.1 row) x.2))
  { good := (cls.filter (fun x => x.2.2 = .current)).map (fun x => (x.1, x.2.1)),
    bad := (cls.filter (fun x => x.2.2 ≠ .current)).map (fun x => (x.1, x.2.2)) }

/-- The BLANK and FOREIGN sectors of a row. -/
def RowRead.blanks (r : RowRead) : List Nat := (r.bad.filter (fun b => b.2 = .blank || b.2 = .foreign)).map (fun b => b.1)

/-- Whether the row is unwritten (R69). -/
def RowRead.unwritten (r : RowRead) (p : Profile) : Bool := r.good.isEmpty && decide (p.width - r.blanks.length ≤ p.tol)

/-- The faults of a written row's failed sectors (R68). -/
def State.rowFaults (s : State) (set : BitVec 6) (rev : Revision) (stripe : Nat) (r : RowRead) (stale : List Nat) : State :=
  let s := r.bad.foldl (fun s b => s.sectorFault (s.fragPort set rev stripe b.1) b.2.detail) s
  stale.foldl (fun s f => s.sectorFault (s.fragPort set rev stripe f) 3) s

/-- A fragment's data from sectors whose generator rows determine it (R46). -/
def rowData (p : Profile) (g : List (Nat × Bytes)) (f : Nat) : Option Bytes :=
  match g.find? (fun x => x.1 = f) with
  | some x => some x.2
  | none => (gfSolve (g.map (fun x => p.genRow x.1)) (p.genRow f)).map (fun c => gfCombine 4096 c (g.map (fun x => x.2)))

/-- The rank of a list of sectors. -/
def rowRank (p : Profile) (g : List (Nat × Bytes)) : Nat := gfRank (g.map (fun x => p.genRow x.1))

/-! ## Row arbitration (R177, R178) -/

/-- What arbitration decides: the standing sectors with the version and mask of repairs, or the suspect data fragments. -/
inductive Verdict where
  | stands (g : List (Nat × Sector)) (vp : Version) (mask : Word64)
  | unresolved (suspects : List Nat)
deriving DecidableEq, Repr

/-- The subsets of size 1, then of size 2, of the sectors that could be bad (step 5). -/
def badSets (g : List Nat) (n : Nat) : List (List Nat) :=
  match n with
  | 1 => g.map (fun f => [f])
  | 2 => g.flatMap (fun f => (g.filter (fun h => decide (f < h))).map (fun h => [f, h]))
  | _ => []

/-- The subsets S of a size for which the rest stands (step 5). -/
def badFits (p : Profile) (g : List (Nat × Bytes)) (n : Nat) : List (List Nat) :=
  (badSets (g.map (fun x => x.1)) n).filter (fun l =>
    let rest := g.filter (fun x => x.1 ∉ l)
    decide (n + (p.width - g.length) ≤ p.tol) && decide (rowRank p rest = p.k) && decide (p.k < rest.length) &&
      equationsHold p rest)

/-- Row arbitration over the CURRENT sectors of a row (R177 steps 2 to 5). -/
def arbitrateRow (p : Profile) (good : List (Nat × Sector)) : Verdict :=
  let chk := rowCheck p (good.map (fun x => (x.1, x.2.sl)))
  let g := good.filter (fun x => x.1 ∉ chk.stale)
  let gd := g.map (fun x => (x.1, x.2.data))
  let data := g.filter (fun x => !p.isParity x.1)
  let allData := decide (data.length = p.k)
  let noParity := decide (p.typ ≠ .replica) && !g.any (fun x => p.isParity x.1)
  let vp := chk.vp.getD (topVersion g)
  let mask := chk.mask.getD (maskAt p g vp)
  if noParity then
    if allData then .stands data (topVersion data) (maskAt p data (topVersion data)) else .unresolved (List.range p.k)
  else if rowRank p gd = p.k ∧ equationsHold p gd then .stands g vp mask
  else
    let fits := if (badFits p gd 1).isEmpty then badFits p gd 2 else badFits p gd 1
    match fits with
    | [l] => .stands (g.filter (fun x => x.1 ∉ l)) vp mask
    | [] => .unresolved (List.range p.k)
    | ls => .unresolved ((ls.flatten.filter (fun f => decide (f < p.k))).eraseDups)

/-- Every available sector outside the standing ones repaired (R179, R180). -/
def State.repairRow (s : State) (set : BitVec 6) (rev : Revision) (stripe row : Nat) (g : List (Nat × Sector)) (vp : Version)
    (mask : Word64) : State :=
  let p := s.setProfile (s.set set.toNat)
  let gd := g.map (fun x => (x.1, x.2.data))
  (p.frags.filter (fun f => !g.any (fun x => x.1 = f) && !s.fragOut set rev stripe f)).foldl (fun s f =>
    match rowData p gd f with
    | none => s
    | some d => s.restoreWrite set rev stripe f row d vp mask (sealFlags p g vp) false) s

/-- What arbitration gives for a fragment (R173, R178): its data with the version, mask and flags of the row, none when it is
suspect or cannot be had. An unwritten row reads as zeros (R69). -/
def RowRead.outcome (r : RowRead) (p : Profile) (v : Verdict) (f : Nat) : Option (Bytes × Version × Word64 × Bool × Bool) :=
  if r.unwritten p then some (fill 4096 0, (0, 0), 0, false, false)
  else match v with
    | .stands g vp mask => (rowData p (g.map (fun x => (x.1, x.2.data))) f).map (fun d => (d, vp, mask, sealFlags p g vp))
    | .unresolved sus =>
      if f ∈ sus then none
      else (r.good.find? (fun x => x.1 = f)).map (fun x =>
        (x.2.data, rowVersion p r.good |>.1, rowVersion p r.good |>.2, sealFlags p [x] (sealVersion x.2.sl)))

/-- A voided operation takes the outcome of its row's arbitration (R173): a VERIFY is OK when the row stands (R218), a rebuild
or catch-up stores the data, a read is answered, with MEDIA_LOST for a suspect fragment of an unresolved row. -/
def State.voidedRead (s : State) (o : RowOp) (v : Verdict) (r : RowRead) : State :=
  let p := s.setProfile (s.set o.set.toNat)
  match o.mode, v with
  | .verify, .stands _ _ _ => (s.dropRowOp o.id).answer o.orig (some { data := [], sl := Seal.zero })
  | .verify, .unresolved _ =>
    (s.dropRowOp o.id).answer o.orig (if r.unwritten p then some { data := [], sl := Seal.zero } else none)
  | _, _ =>
    match r.outcome p v o.frag with
    | none => (s.dropRowOp o.id).lostRow o
    | some (d, vp, mask, fl) =>
      match o.purpose with
      | .rebuild =>
        if r.unwritten p then s.dropRowOp o.id else (s.rebuildStore { o with vp := some vp, vmask := mask } d).dropRowOp o.id
      | .catchup =>
        if r.unwritten p then s.dropRowOp o.id else (s.catchupStore { o with vp := some vp, vmask := mask } d).dropRowOp o.id
      | _ =>
        let x := s.restoredSector o.set o.rev o.stripe o.frag o.row d vp mask fl false false
        let s := (s.endFill o.orig (some x)).answer o.orig (some x)
        if s.origOpen o then s.setRowOp { o with used := some d, voided := false, vp := some vp, vmask := mask }
        else s.dropRowOp o.id

/-- The lowest-indexed port of a row's fragments (R178). -/
def State.lowestPort (s : State) (set : BitVec 6) (rev : Revision) (stripe : Nat) : Byte :=
  let ps := ((s.setProfile (s.set set.toNat)).frags).map (fun f => s.fragPort set rev stripe f)
  ps.foldl (fun m q => if q.toNat < m.toNat then q else m) (ps.headD 0)

/-- The verdict of an arbitration carried out: repairs, or the row left unresolved with a CONTAIN fault (R177, R178); its
voided reads end, and the hold on the stripe with it. -/
def State.arbitrated (s : State) (set : BitVec 6) (stripe row : Nat) (r : RowRead) : State :=
  let a := s.set set.toNat
  let p := s.setProfile a
  let rev := a.revFor stripe
  let s := s.withArbitrating (without s.arbitrating (set, stripe, row))
  let chk := rowCheck p (r.good.map (fun x => (x.1, x.2.sl)))
  let v := arbitrateRow p r.good
  let s := if r.unwritten p then s else s.rowFaults set rev stripe r chk.stale
  let s := match v with
    | .stands g vp mask => s.repairRow set rev stripe row g vp mask
    | .unresolved sus =>
      if r.unwritten p then s
      else
        let s := s.modSet set.toNat (fun a => { a with
          suspects := sus.foldl (fun l f => withElem l (stripe, row, f)) a.suspects })
        s.mediaFault (s.lowestPort set rev stripe) .contain 6
  (s.rowOps.filter (fun o => o.voided && o.set = set && decide (o.stripe = stripe) && decide (o.row = row))).foldl
    (fun s o => s.voidedRead o v r) s

/-- ROW_ARBITRATION_DONE (R177): every available fragment of the row has been read; it waits while a class B record does (R236). -/
def execRowArbitrationDone (set : BitVec 6) (stripe : BitVec 48) (row : Byte) (sectors : List (Nat × Sector)) (s : State) :
    Host.Outcome State Fault Refusal :=
  if (set, stripe.toNat, row.toNat) ∉ s.arbitrating ∨ s.classBWaits then .next s
  else
    let rev := (s.set set.toNat).revFor stripe.toNat
    .next (s.arbitrated set stripe.toNat row.toNat (s.classifyRow set rev stripe.toNat row.toNat sectors))

/-! ## Scrub (R190 to R193) -/

/-- The set that scrub works on: the lowest RUNNING one with stripes left in the pass (R190). -/
def State.scrubSet (s : State) : Option Nat :=
  (s.sets.find? (fun e => s.background e.2 && decide (e.2.nextWritten e.2.scrubLive.toNat < e.2.stripeCount.toNat))).map (fun e => e.1)

/-- Stripes that the pass has left to cover. -/
def State.scrubLeft (s : State) : Nat :=
  (s.sets.map (fun e => if s.background e.2 then (e.2.extents.filter (fun x =>
    decide (e.2.scrubLive.toNat < 1024 * (x + 1)))).length * 1024 else 0)).foldl (· + ·) 0

/-- A pass that has nothing left ends (R193). -/
def State.scrubEnd (s : State) : State :=
  if s.sched.scrubbing ∧ s.scrubSet.isNone then
    (s.withSched { s.sched with scrubbing := false, behind := false }).count32 Reg.gcsRbsScrubPasses 1
  else s

/-- SCRUB_PASS_START (R190, R191): every set's cursor returns to stripe 0; a start that finds a pass unfinished is skipped. -/
def execScrubPassStart (s : State) : Host.Outcome State Fault Refusal :=
  if !s.regBit Reg.gcsRbsCtl 1 then .next s
  else if s.sched.scrubbing then .next (s.mediaFault 0 .note 0x30)
  else
    let s := s.withSets (Tab.mapV s.sets ArraySet.at0 (fun _ a =>
      { a with scrubCursor := 0, scrubLive := 0, scrubGrant := 0, scrubRow := 0 }))
    .next (s.withSched { s.sched with scrubbing := true, behind := false })

/-- The 1 ms windows until the next due start (R190, R191). -/
def State.scrubWindows (s : State) : Nat :=
  let period := s.regN Reg.gcsRbsScrub * 10 ^ 9
  if period = 0 then 1 else max 1 ((period - s.wch.fixNs.toNat % period) / 10 ^ 6)

/-- The stripes that one window may scrub under the per-port share and the total read limit (R185, R191): one at least. -/
def State.scrubLimit (s : State) (a : ArraySet) : Nat :=
  let ports := a.members.map (fun p => (s.port p).bytesPerMs * s.regField Reg.gcsRbsShare 8 8 / 100)
  let least := ports.foldl min (ports.headD 0)
  max 1 (min (least / (a.s * 4096)) (Config.rebuildBytesPerMs s.part / (a.s * 4096 * max 1 (s.setProfile a).width)))

/-- SCRUB_PACING_WINDOW (R191): scrub is granted the fraction of the pass that remains, up to its limit. -/
def execScrubPacingWindow (s : State) : Host.Outcome State Fault Refusal :=
  if !s.sched.scrubbing ∨ !s.regBit Reg.gcsRbsCtl 1 then .next s
  else match s.scrubSet with
    | none => .next s.scrubEnd
    | some i =>
      let a := s.set i
      let want := (s.scrubLeft + s.scrubWindows - 1) / s.scrubWindows
      let lim := s.scrubLimit a
      let live := a.nextWritten a.scrubLive.toNat
      let grant := min a.stripeCount.toNat (max a.scrubGrant.toNat (live + min want lim))
      let s := s.withSched { s.sched with behind := s.sched.behind || decide (lim < want) }
      .next (s.setSet i { a with scrubLive := BitVec.ofNat 48 live, scrubGrant := BitVec.ofNat 48 grant })

/-- A scrubbed row's checks (R192): tests 1 to 7 and every code equation; a row that fails goes to arbitration. -/
def State.scrubCheck (s : State) (set : BitVec 6) (stripe row : Nat) (xs : List (Nat × Sector)) : State :=
  let a := s.set set.toNat
  let p := s.setProfile a
  let r := s.classifyRow set (a.revFor stripe) stripe row xs
  if s.rowLogged set stripe row ∨ r.unwritten p then s
  else
    let chk := rowCheck p (r.good.map (fun x => (x.1, x.2.sl)))
    if !r.bad.isEmpty || !chk.stale.isEmpty || chk.inconsistent || !equationsHold p (r.good.map (fun x => (x.1, x.2.data))) then
      s.arbitrate set stripe row
    else s

/-- The scrub cursor moved past a row; past its last row, to the next written stripe. -/
def ArraySet.scrubPast (a : ArraySet) : ArraySet :=
  if a.scrubRow + 1 < a.s then { a with scrubRow := a.scrubRow + 1 }
  else { a with scrubRow := 0, scrubLive := BitVec.ofNat 48 (a.nextWritten (a.scrubLive.toNat + 1)) }

/-- SCRUB_ROW_READ_COMPLETE (R192): the next row of the granted stripes has been read. -/
def execScrubRowReadComplete (set : BitVec 6) (stripe : BitVec 48) (row : Byte) (sectors : List (Nat × Sector)) (s : State) :
    Host.Outcome State Fault Refusal :=
  let a := s.set set.toNat
  if !s.sched.scrubbing ∨ s.scrubSet ≠ some set.toNat ∨ stripe ≠ a.scrubLive ∨ row.toNat ≠ a.scrubRow ∨
      a.scrubGrant.toNat ≤ stripe.toNat then .next s
  else
    let s := s.scrubCheck set stripe.toNat row.toNat sectors
    .next ((s.modSet set.toNat ArraySet.scrubPast).scrubEnd)

/-- SCRUB_CURSOR_SAVE (R193): every set's scrub cursor is made durable. -/
def execScrubCursorSave (s : State) : Host.Outcome State Fault Refusal :=
  .next (s.withSets (Tab.mapV s.sets ArraySet.at0 (fun _ a => { a with scrubCursor := a.scrubLive })))

/-! ## Resync (R142, R143) -/

/-- What resync finds for a row: nothing to write, the sectors that give the row, or UNRESOLVED. -/
inductive ResyncRow where
  | complete
  | rewrite (g : List (Nat × Bytes))
  | unresolved
deriving DecidableEq, Repr

/-- The first outcome of R142 that applies, of a row's CURRENT sectors; `avail` counts its available fragments. -/
def resyncOutcome (p : Profile) (v : Version) (avail : Nat) (good : List (Nat × Sector)) : ResyncRow :=
  let gd (l : List (Nat × Sector)) : List (Nat × Bytes) := l.map (fun x => (x.1, x.2.data))
  let atV := good.filter (fun x => decide (sealVersion x.2.sl = v))
  let below := good.filter (fun x => verLt (sealVersion x.2.sl) v)
  let top := topVersion below
  let atTop := below.filter (fun x => decide (sealVersion x.2.sl = top))
  let data := good.filter (fun x => decide (x.1 < p.k))
  if atV.length = avail then .complete
  else if data.length = p.k then .rewrite (gd data)
  else if rowRank p (gd atV) = p.k then .rewrite (gd atV)
  else if rowRank p (gd atTop) = p.k then .rewrite (gd atTop)
  else .unresolved

/-- Every available fragment of a row written with a fresh version and REPAIRED (R142). -/
def State.resyncWrite (s : State) (set : BitVec 6) (stripe row : Nat) (g : List (Nat × Bytes)) : State :=
  let a := s.set set.toNat
  let p := s.setProfile a
  let rev := a.revFor stripe
  let (s, gen) := s.nextGeneration set
  let v : Version := (s.watch.toNat, gen.toNat)
  let mask : Word64 := BitVec.ofNat 64 (maskOf (List.range p.k))
  let fl : SealFlags := { zero := false, holdover := s.holdoverFlag, replay := false, rebuilt := false, repaired := true }
  (p.frags.filter (fun f => !s.fragOut set rev stripe f)).foldl (fun s f =>
    match rowData p g f, s.bearing set rev stripe f with
    | some d, .at port dba =>
      (s.driveWrite port (dba + row) set stripe f row (sealFor (s.placeOf set stripe f row) rev.rev fl v mask d) .resync).1
    | _, _ => s) s

/-- RESYNC_ROW_DONE (R142, R143): the available fragments of a row on the resync list have been read. -/
def execResyncRowDone (set : BitVec 6) (stripe : BitVec 48) (row : Byte) (sectors : List (Nat × Sector)) (s : State) :
    Host.Outcome State Fault Refusal :=
  let a := s.set set.toNat
  let p := s.setProfile a
  let st := stripe.toNat
  let rw := row.toNat
  match a.resync.find? (fun r => decide (r.stripe ≤ st) && decide (st < r.stripe + r.count) && decide ((st, rw) ∉ r.rowsDone)) with
  | none => .next s
  | some r =>
    if !(s.background a || (s.recovering set.toNat && !s.inHold)) ∨ a.s ≤ rw then .next s
    else
      let rev := a.revFor st
      let avail := p.frags.filter (fun f => !s.fragOut set rev st f)
      let rr := s.classifyRow set rev st rw sectors
      let out := if rr.unwritten p then .complete
        else resyncOutcome p (r.watch.toNat, r.generation.toNat) avail.length rr.good
      let s := s.setSet set.toNat { a with
        resync := a.resync.map (fun q => if q.seq = r.seq then { q with rowsDone := q.rowsDone ++ [(st, rw)] } else q) }
      let s := match out with
        | .complete => s
        | .rewrite g => s.resyncWrite set st rw g
        | .unresolved =>
          (s.modSet set.toNat (fun a => { a with unresolved := withElem a.unresolved (st, rw) })).raise 0x74 .warn
            (set.setWidth 8)
      .next (s.resyncSettle set)

end Sys2Proof.Machine
end

