-- ==== Sys2Proof/Machine/CacheEv.lean ====
section
/-! DEFINITION. Events of the Stripe Cache, the victim tier and the Map Store channels (spec/10_stripe_cache.md R296, R302 to R306,
R311 to R316; spec/06 R197; spec/12 R349; spec/17 R496). -/

namespace Sys2Proof.Machine

/-- A pinned line whose pin ends: a line that left lookups meanwhile is freed (R314). -/
def Line.unpin (l : Line) : Line := if l.stale then Line.at0 else { l with pin := false }

/-- TIER_MOVE_COMPLETE (R305, R306, R314): the move of a tier slot ends. A line moving back is visible in the Stripe Cache from now
on and its slot is free, unless the move was cancelled; a line moving into the tier loses its pin. -/
def execTierMoveComplete (key : Nat) (s : State) : Host.Outcome State Fault Refusal :=
  match s.scc.moving.find? (fun m => m.1 = key) with
  | some (t, i) =>
    let s := s.withScc { s.scc with moving := s.scc.moving.filter (fun m => m ≠ (t, i)) }
    let l := s.line i
    let same := (s.slot t).pin && decide ((s.slot t).key = l.key) && decide ((s.slot t).state ≠ .invalid)
    .next (if same then (s.setLine i { l with pin := false, stale := false }).setSlot t Line.at0 else s.setLine i Line.at0)
  | none => .next (if (s.slot key).pin then s.setSlot key (s.slot key).unpin else s)

/-- The victim-tier lines of a channel dropped, DIRTY ones restored; a line on its way back is dropped with its move (R197). -/
def State.dropChannel (s : State) (ch : Nat) : State :=
  let mine := s.scc.tier.filter (fun e => tierChannel e.1 = ch)
  let back := (s.scc.moving.filter (fun m => tierChannel m.1 = ch)).map (fun m => m.2)
  let s := s.withScc { s.scc with tier := s.scc.tier.filter (fun e => tierChannel e.1 ≠ ch),
                                  moving := s.scc.moving.filter (fun m => tierChannel m.1 ≠ ch) }
  let s := back.foldl (fun s i => s.setLine i Line.at0) s
  (mine.filter (fun e => e.2.state = .dirty && e.2.visible)).foldl (fun s e => s.restoreDirty e.2) s

/-- The other channel of a mirrored pair (R197, R494). -/
def mirrorChannel (ch : Nat) : Nat := if ch % 2 = 0 then ch + 1 else ch - 1

/-- The source ID of a Map Store channel (R349). -/
def mapSource (ch : Nat) : Byte := BitVec.ofNat 8 (0x80 + ch)

/-- A Map Store channel fenced with a detail (R197, R349, R316): STOP with detail 0x05 while its mirror is fenced already. -/
def State.fenceChannel (s : State) (ch : Nat) (detail : Byte) : State :=
  if ch ∈ s.map.fenced then s
  else
    let lost := decide (mirrorChannel ch ∈ s.map.fenced)
    let s := s.withMap { s.map with fenced := s.map.fenced ++ [ch] }
    let s := s.dropChannel ch
    let s := if lost then s.raise (mapSource ch) .stop 5 else s.raise (mapSource ch) .warn detail
    s.raise 0x92 .note (BitVec.ofNat 8 ch)

/-- MAP_CHANNEL_FAILURE (R349, R197, R496): 0x01 a corrected word, 0x02 an uncorrectable word, 0x03 an address-stamp mismatch, 0x04
lost training; a fenced channel serves nothing and reports nothing more. -/
def execMapChannelFailure (ch : BitVec 3) (detail : Byte) (s : State) : Host.Outcome State Fault Refusal :=
  let c := ch.toNat
  if c ∈ s.map.fenced then .next s
  else if detail = 1 then .next ((s.count32 (Reg.mapChCorrected c) 1).raise (mapSource c) .note 1)
  else
    let s := if detail = 2 then s.count32 (Reg.mapChUncorrectable c) 1
      else if detail = 3 then s.count32 (Reg.mapChStampErrors c) 1 else s
    if detail = 2 ∨ detail = 3 ∨ detail = 4 then .next (s.fenceChannel c detail).evalLog else .next s

/-- CACHE_INVALIDATION_DONE (R296): the reset walk has cleared every set. -/
def execCacheInvalidationDone (s : State) : Host.Outcome State Fault Refusal :=
  if s.scc.ready then .next s
  else .next (s.withScc { s.scc with lines := [], moving := [], ready := true })

/-- VICTIM_TIER_EMPTIED (R296): after Map Store training the tier's tags are clear. -/
def execVictimTierEmptied (s : State) : Host.Outcome State Fault Refusal :=
  if s.scc.vtReady ∨ !s.gcs.mapTrained then .next s
  else .next (s.withScc { s.scc with tier := [], vtReady := true })

/-- RANGE_WALK_END (R311, R312): one of a range command's two walks ends. -/
def execRangeWalkEnd (src : CmdSrc) (s : State) : Host.Outcome State Fault Refusal :=
  match s.interp.deferred.find? (fun d => d.src = src) with
  | none => .next s
  | some d =>
    if d.walks = 0 ∨ ¬ (opcodeOf d.packet = 0x0702 ∨ opcodeOf d.packet = 0x0703) then .next s
    else
      let d := { d with walks := d.walks - 1 }
      .next ((s.setDeferred d).rangeReply d)

end Sys2Proof.Machine
end

