-- ==== Sys2Proof/Machine/HostPort.lean ====
section
/-! DEFINITION. Host port events (spec/15_host_port.md R423 to R447; spec/16_startup_and_resets.md R463 to R466, R471; spec/07
R215): link, errors, power states, containment and release, PERST_N, Hot Reset and FLR. -/

namespace Sys2Proof.Machine

/-- Source base + 8p of host port p (R455). -/
def hpuSource (base : Nat) (p : Bool) : Byte := BitVec.ofNat 8 (base + 8 * ofBool p)

/-- The strapped width of a host port: x16, or x8 when HOST_BIFUR is set (R423). -/
def State.strapped (s : State) : Nat := if s.gcs.bifur then 8 else 16

/-- The width that L0P_MIN names: x8, x4 or x2 (R456). -/
def State.narrowWidth (s : State) (p : Bool) : Nat := 8 / 2 ^ s.regField (Reg.hpuPm (ofBool p)) 9 2

/-- A completion that the port sends for a received request (R4, R443). -/
def State.complete (s : State) (p : Bool) (o : Out) : State := s.hostOut p o

/-! ## Work of a port (R215, R292, R443, R444) -/

/-- The rings of port p among those with a context. -/
def State.portRings (s : State) (p : Bool) : List RingId :=
  (Tab.keysWith s.rings (fun k _ => decide (k < 1040))).filterMap (fun k =>
    let r : RingId := if k < 1024 then .data (BitVec.ofNat 10 k) else .cmd (BitVec.ofNat 4 (k - 1024))
    if s.ringPort r = p then some r else none)

/-- The reads of port p lose their effect: what arrives for them is discarded (R443). -/
def State.killPort (s : State) (p : Bool) : State :=
  let s := s.withDmv { s.dmv with reads := s.dmv.reads.map (fun r => if r.port = p then { r with dead := true } else r),
                                  retries := s.dmv.retries.filter (fun r => r.port ≠ p) }
  (s.portRings p).foldl (fun s r => s.modRing r (fun g => { g with inRead := 0 })) s

/-- Whether an I/O of port p cannot finish while the port is frozen (R444): a READ, or a WRITE whose data has not arrived
from the host. -/
def State.frozenIo (s : State) (p : Bool) (io : Io) : Bool :=
  !io.fwd && decide (s.ringPort (.data io.ring) = p) &&
    (decide (io.kind = .read) || (decide (io.kind = .write) && !io.dataIn && decide (io.desc.mode ≠ 2)))

/-- The buffer reads of commands whose port is frozen end with CONTAINED (R443). -/
def State.endBuffers (s : State) (p : Bool) : State :=
  (s.interp.bufs.filter (fun b => match b.src with
    | .ring c => decide (s.ringPort (.cmd c) = p)
    | .chain => false)).foldl (fun s b =>
      (s.withInterp { s.interp with bufs := s.interp.bufs.filter (fun x => x.src ≠ b.src) }).endCommand b.src b.packet
        stContained 1 []) s

/-- Port p contained with a cause (R442, R443, R444, R447): a second event is counted and reported, CAUSE unchanged. -/
def State.contain (s : State) (p : Bool) (cause : Byte) : State :=
  let s := s.count32 (Reg.hpuContains (ofBool p)) 1
  if (s.hpu p).contained then s.raise (hpuSource 0x11 p) .contain cause
  else
    let s := (s.modHpu p (fun h => { h with contained := true, cause := cause })).killPort p
    let s := raised (s.endIos (fun _ => (stContained, 1)) (s.ios.filter (s.frozenIo p)))
    let s := s.endBuffers p
    let s := chanNumbers.foldl (fun s n => match (s.chan n).queue with
      | [] => s
      | t :: _ => if (s.transferPort t).1 ∧ t.port = p then s.endTransfer n stContained 1 else s) s
    s.raise (hpuSource 0x11 p) .contain cause

/-- The held command replies of port p written (R446). -/
def State.writeReplies (s : State) (p : Bool) : State :=
  let mine (x : CmdSrc × Bytes) : Bool := match x.1 with
    | .ring c => decide (s.ringPort (.cmd c) = p)
    | .chain => false
  let l := s.interp.heldReplies.filter mine
  let s := s.withInterp { s.interp with heldReplies := s.interp.heldReplies.filter (fun x => !mine x) }
  l.foldl (fun s x => match x.1 with
    | .ring c => s.writeReply c x.2
    | .chain => s) s

/-- A port that may send again (R446, R471): records, replies, head words, messages, mover records, in that order. -/
def State.resumePort (s : State) (p : Bool) : State :=
  let s := (s.useSpace p).writeReplies p
  let s := (s.portRings p).foldl (fun s r => match r with
    | .data _ => raised (s.advanceHead r)
    | _ => s) s
  (s.sendPending p).drainMqs

/-! ## Containment (R442 to R447) -/

/-- PORT_CONTAINMENT (R442): one of the seven error events of the link; Surprise Down takes the link down. -/
def execPortContainment (p : Bool) (cause : Byte) (s : State) : Host.Outcome State Fault Refusal :=
  if cause = 0 ∨ 7 < cause.toNat then .next s
  else
    let s := if cause = 1 then s.modHpu p (fun h => { h with dlUp := false, speed := 0, width := 0, inL1 := false,
                                                             narrow := false }) else s
    .next (s.contain p cause)

/-- CONTAIN_NOW (R442): HPUn.CTL.CONTAIN_NOW written 1. -/
def execContainNow (p : Bool) (s : State) : Host.Outcome State Fault Refusal :=
  if s.haltClosed then .next s else .next (s.leaveDock.contain p 8)

/-- RELEASE (R445, R446): refused while the link is down, without effect on a port that is not contained. -/
def State.releasePort (s : State) (p : Bool) : State :=
  if !(s.hpu p).contained then s
  else if !(s.hpu p).dlUp then s.raise (hpuSource 0x16 p) .note 1
  else (s.modHpu p (fun h => { h with contained := false })).resumePort p

/-- HPU_RELEASE (R445): through the other port's BAR0, where a frozen port drops the write (R443), or through the VSEC of the
port's own configuration space, which is served always. -/
def execHpuRelease (p : Bool) (viaVsec : Bool) (s : State) : Host.Outcome State Fault Refusal :=
  if viaVsec then .next (s.releasePort p)
  else if (s.hpu !p).contained then .next (s.count32 (Reg.hpuPostedDrops (ofBool !p)) 1)
  else if s.haltClosed then .next s
  else .next (s.leaveDock.releasePort p)

/-- HOST_TLP_ERROR (R442): a poisoned TLP is dropped, an unsupported request answered with UR; the port is not contained. -/
def execHostTlpError (p : Bool) (poisoned : Bool) (s : State) : Host.Outcome State Fault Refusal :=
  let s := if poisoned then s else s.complete p (.unsupported p)
  .next (s.raise (hpuSource 0x13 p) .note (if poisoned then 1 else 2))

/-- HOST_CORRECTABLE_WINDOW (R455, R456): the correctable errors of one second. -/
def execHostCorrectableWindow (p : Bool) (errors : Nat) (s : State) : Host.Outcome State Fault Refusal :=
  let s := s.count32 (Reg.hpuCorrErrors (ofBool p)) errors
  if s.regField (Reg.hpuCorrLimit (ofBool p)) 0 16 < errors then .next (s.raise (hpuSource 0x10 p) .note 1) else .next s

/-! ## Link power (R439, R440) -/

/-- HOST_L1_ENTRY (R439). -/
def execHostL1Entry (p : Bool) (s : State) : Host.Outcome State Fault Refusal :=
  let h := s.hpu p
  if !h.cfg.aspmL1 ∨ !h.dlUp ∨ h.inL1 then .next s
  else .next ((s.setHpu p { h with inL1 := true }).count32 (Reg.hpuL1Entries (ofBool p)) 1)

/-- L0P_NARROW (R440): at 64 GT/s, with L0p enabled on both partners and by L0P_EN. -/
def execL0pNarrow (p : Bool) (s : State) : Host.Outcome State Fault Refusal :=
  let h := s.hpu p
  if h.speed ≠ 6 ∨ !h.cfg.l0pBoth ∨ !s.regBit (Reg.hpuPm (ofBool p)) 8 ∨ h.narrow ∨ !h.dlUp then .next s
  else .next ((s.setHpu p { h with narrow := true, width := BitVec.ofNat 6 (s.narrowWidth p) }).count32
    (Reg.hpuL0pChanges (ofBool p)) 1)

/-- L0P_WIDEN (R440): back to the strapped width. -/
def execL0pWiden (p : Bool) (s : State) : Host.Outcome State Fault Refusal :=
  let h := s.hpu p
  if !h.narrow then .next s
  else .next ((s.setHpu p { h with narrow := false, width := BitVec.ofNat 6 s.strapped }).count32
    (Reg.hpuL0pChanges (ofBool p)) 1)

/-- HOST_LINK_UP (R423, R424): the link serves requests at a speed and width, with what the host has programmed; source 0x12
below 16 GT/s or below the strapped width. A link that comes back up does not end containment (R445). -/
def execHostLinkUp (p : Bool) (speed : BitVec 4) (width : BitVec 6) (cfg : HostCfg) (s : State) :
    Host.Outcome State Fault Refusal :=
  if (s.hpu p).perstLow ∨ s.pair.state = .fenced then .next s
  else
    let s := s.modHpu p (fun h => { h with dlUp := true, speed := speed, width := width, cfg := cfg, narrow := false,
                                           inL1 := false })
    let s := if speed.toNat < 4 then s.raise (hpuSource 0x12 p) .note 1 else s
    let s := if width.toNat < s.strapped then s.raise (hpuSource 0x12 p) .note 2 else s
    .next (s.sendPending p)

/-! ## Requests that no register serves (R7, R430) -/

/-- BAR_SIZE_WRITE (R430): 1 to 64 GiB as the code 10 to 16 of the Resizable BAR capability (its base-2 logarithm in MiB, log
entry 9); ignored while Memory Space Enable is 1. -/
def execBarSizeWrite (p : Bool) (code : BitVec 6) (s : State) : Host.Outcome State Fault Refusal :=
  if (s.hpu p).cfg.memEnable ∨ code.toNat < 10 ∨ 16 < code.toNat then .next s
  else .next (s.modHpu p (fun h => { h with barSize := code.toNat }))

/-- BAR0_BAD_ACCESS (R7): an access that is not a naturally aligned 4 or 8 bytes is completed with Unsupported Request, and
raises no device fault. -/
def execBar0BadAccess (p : Bool) (_offset : BitVec 26) (_width : Nat) (s : State) : Host.Outcome State Fault Refusal :=
  .next (s.complete p (.unsupported p))

/-! ## D3hot (R471) -/

/-- D3HOT_ENTRY (R471): the port serves configuration requests only. -/
def execD3hotEntry (p : Bool) (s : State) : Host.Outcome State Fault Refusal :=
  .next (s.modHpu p (fun h => { h with d3hot := true }))

/-- D0_RETURN (R471): internal state is kept and what waited is written. -/
def execD0Return (p : Bool) (s : State) : Host.Outcome State Fault Refusal :=
  if !(s.hpu p).d3hot then .next s else .next ((s.modHpu p (fun h => { h with d3hot := false })).resumePort p)

/-! ## FLR, PERST_N, Hot Reset (R215, R292, R463, R465, R466) -/

/-- A ring of a port that FLR resets: its context returns to its reset values, and its work ends without a word to the host
(R211, R215). -/
def State.dropRing (s : State) (r : RingId) : State :=
  let s : State := match r with
    | .data n =>
      let mine := s.ios.filter (fun io => io.ring = n && !io.fwd)
      let s := s.withIos (s.ios.filter (fun io => !(io.ring = n && !io.fwd)))
      let s := (mine.filter (fun io => !io.committed)).foldl (fun s io => (s.abandonIo io.id).discardReads io.id) s
      s.withScc { s.scc with detectors := s.scc.detectors.filter (fun d => d.ring ≠ n) }
    | .cmd c =>
      let src : CmdSrc := .ring c
      let s := s.forgetSource src
      s.withInterp { s.interp with
        srcs := Tab.set s.interp.srcs [] (srcKey src) [], busy := without s.interp.busy src,
        bufs := s.interp.bufs.filter (fun b => b.src ≠ src),
        heldReplies := s.interp.heldReplies.filter (fun h => h.1 ≠ src) }
    | .event _ => s
  (s.setRing r Ring.at0).dropRegs (inBlock (ringCtx r) 64)

/-- Every ring of port p dropped, its event ring and rings without a live context included. -/
def State.dropRings (s : State) (p : Bool) : State :=
  let idle := hostRings.filter (fun r => decide (s.ringPort r = p) && s.regs.any (fun e => inBlock (ringCtx r) 64 e.1))
  ((s.portRings p ++ idle).foldl State.dropRing s).dropRing (.event p)

/-- The effects of an FLR of port p on the units behind it (R215, R292, R466). -/
def State.flrEffects (s : State) (p : Bool) : State :=
  let s := (s.dropRings p).killPort p
  let s := chanNumbers.foldl (fun s n =>
    if s.chanLine n = 0 ∧ s.regBit (Reg.dmvChCfg n) 10 = p ∧ (s.chan n).state ≠ .disabled then s.disableChannel n else s) s
  let s := (List.range 8).foldl (fun s q => if s.mqPort q = p then s.modMq q (fun m => { m with enabled := false }) else s) s
  (s.modHpu p (fun h => { h with contained := false, d3hot := false, inL1 := false, cfg := HostCfg.at0, barSize := 10, msix := [],
                                 pendingBits := [] })).dropRegs (inBlock (Reg.hpuCap (ofBool p)) 0x8000)

/-- FLR (R215, R463, R466): source 0x17 + 8p; ignored while a heavier reset is in progress. -/
def execFlr (p : Bool) (s : State) : Host.Outcome State Fault Refusal :=
  if s.gcs.resetNow.isSome then .next s else .next ((s.flrEffects p).raise (hpuSource 0x17 p) .note 1)

/-- The link of port p down without containment (R442). -/
def State.linkReset (s : State) (p : Bool) : State :=
  s.modHpu p (fun h => { h with dlUp := false, speed := 0, width := 0, narrow := false, inL1 := false })

/-- PERST_N (R463, R466): the link, configuration space and registers of port p are reset, with every effect of an FLR. While a
heavier reset is in progress the pin takes the link down and the reset itself is ignored (log entry 26). -/
def execPerstN (p : Bool) (s : State) : Host.Outcome State Fault Refusal :=
  let pin (s : State) : State := (s.linkReset p).modHpu p (fun h => { h with perstLow := true })
  if s.gcs.resetNow.isSome then .next (pin s)
  else .next ((pin (s.flrEffects p)).modHpu p (fun h => { h with cause := 0 }))

/-- PERST_N_RELEASE (R458): the port may train. -/
def execPerstNRelease (p : Bool) (s : State) : Host.Outcome State Fault Refusal :=
  .next (s.modHpu p (fun h => { h with perstLow := false }))

/-- HOT_RESET (R442): a reset of the link from the host, no containment; the port's units see what an FLR does to them. Containment
in force does not end (R445). -/
def execHotReset (p : Bool) (s : State) : Host.Outcome State Fault Refusal :=
  let was := s.hpu p
  if s.gcs.resetNow.isSome then .next (s.linkReset p)
  else .next (((s.flrEffects p).linkReset p).modHpu p (fun h => { h with contained := was.contained, cause := was.cause }))

end Sys2Proof.Machine
end

