-- ==== Sys2Proof/Machine/Pwin.lean ====
section
/-! DEFINITION. Peer windows and BAR2 (spec/15_host_port.md R430, R448 to R454, R457). -/

namespace Sys2Proof.Machine

/-- The pages of a window's region. -/
def Window.region (w : Window) : List Nat := (List.range w.pages).map (w.tbPage + ·)

/-- Whether a window is reachable through port p. -/
def Window.on (w : Window) (p : Bool) : Bool := if p then w.port1 else w.port0

/-- Bytes of port p's BAR2 (R430). -/
def State.barBytes (s : State) (p : Bool) : Nat := 2 ^ ((s.hpu p).barSize + 20)

/-- Whether window w serves port p: committed, named, and wholly within the port's BAR2 (R430). -/
def State.winServes (s : State) (p : Bool) (w : Window) : Bool :=
  w.valid && w.on p && decide (w.offset + w.pages * 4096 ≤ s.barBytes p)

/-- The active window of port p that covers an address (R448). -/
def State.winAt (s : State) (p : Bool) (a : Nat) : Option Window :=
  ((s.pwin.active.map (fun e => e.2)).find? (fun w => s.winServes p w && decide (w.offset ≤ a) &&
    decide (a < w.offset + w.pages * 4096)))

/-- The reason of R452 for which a BAR2 request of `len` bytes misses, or the pool address that it reaches (R448, R452). -/
def State.winCheck (s : State) (p read : Bool) (a len : Nat) : Except Byte Nat :=
  match s.winAt p a with
  | none => .error 1
  | some w =>
    if w.offset + w.pages * 4096 < a + len then .error 2
    else if (if read then !w.read else !w.write) then .error 3
    else .ok (w.tbPage * 4096 + (a - w.offset))

/-- A BAR2 miss recorded (R452). -/
def State.missed (s : State) (p read : Bool) (a : Nat) (reason : Byte) : State :=
  let s := s.withPwin { s.pwin with lastMiss := BitVec.ofNat 64 a, lastMissPort := p, lastMissRead := read,
                                    lastMissReason := reason }
  if read then (s.count32 Reg.pwinUrs 1).raise (hpuSource 0x15 p) .note reason
  else (s.count32 Reg.pwinDrops 1).raise (hpuSource 0x14 p) .note reason

/-- Whether port p takes memory requests: its link is up, in D0, with Memory Space Enable set. -/
def State.portServes2 (s : State) (p : Bool) : Bool :=
  (s.hpu p).dlUp && !(s.hpu p).d3hot && (s.hpu p).cfg.memEnable

/-- BAR2_WRITE (R443, R450, R452): a posted write lands in the window's pages, or is dropped. -/
def execBar2Write (p : Bool) (addr : Word64) (data : Bytes) (s : State) : Host.Outcome State Fault Refusal :=
  if (s.hpu p).contained then .next (s.count32 (Reg.hpuPostedDrops (ofBool p)) 1)
  else if !s.portServes2 p then .next s
  else match s.winCheck p false addr.toNat data.length with
    | .error r => .next (s.missed p false addr.toNat r)
    | .ok a => .next (s.withPwin { s.pwin with pool := Memory.writeBytes s.pwin.pool a data })

/-- BAR2_READ (R443, R450, R452, R289): pool data, Unsupported Request, or Completer Abort for an uncorrectable word;
`words` is what the words read showed. -/
def execBar2Read (p : Bool) (addr : Word64) (len : Nat) (words : WordCheck) (s : State) : Host.Outcome State Fault Refusal :=
  if !(s.hpu p).dlUp then .next s
  else if (s.hpu p).contained ∨ !s.portServes2 p then .next (s.complete p (.unsupported p))
  else match s.winCheck p true addr.toNat len with
    | .error r => .next ((s.missed p true addr.toNat r).complete p (.unsupported p))
    | .ok a =>
      match words with
      | .bad => .next (((s.missed p true addr.toNat 4).raise 0x32 .warn 2).complete p (.completerAbort p))
      | .corrected => .next ((s.raise 0x32 .note 1).complete p (.readData p (Memory.readBytes s.pwin.pool a len)))
      | .good => .next (s.complete p (.readData p (Memory.readBytes s.pwin.pool a len)))

/-! ## Commits (R449, R451) -/

/-- Whether two windows overlap in BAR2 through a port that both name. -/
def Window.overlaps (a b : Window) : Bool :=
  ((a.port0 && b.port0) || (a.port1 && b.port1)) && decide (a.offset < b.offset + b.pages * 4096) &&
    decide (b.offset < a.offset + a.pages * 4096)

/-- Whether two windows share a pool page. -/
def Window.shares (a b : Window) : Bool :=
  decide (a.tbPage < b.tbPage + b.pages) && decide (b.tbPage < a.tbPage + a.pages)

/-- Every page of the regions of a generation. -/
def regionPages (t : Tab Window) : List Nat := (t.filter (fun e => e.2.valid)).flatMap (fun e => e.2.region)

/-- The first check of R449 that valid shadow window n fails. -/
def State.winReason (s : State) (n : Nat) (w : Window) : Option Byte :=
  let others := s.pwin.shadow.filter (fun e => e.2.valid && decide (e.1 ≠ n))
  if w.pages = 0 ∨ 4096 < w.pages ∨ !(w.read || w.write) ∨ !(w.port0 || w.port1) then some 1
  else if others.any (fun e => w.overlaps e.2) then some 2
  else if s.regField Reg.dmvTb 0 13 < w.tbPage + w.pages then some 3
  else if others.any (fun e => w.shares e.2) then some 4
  else if w.region.any (fun g => decide (g ∈ s.pwin.draining)) then some 5
  else if Config.windows s.part ≤ n then some 6
  else none

/-- The first window at fault with its reason. -/
def State.commitFault (s : State) : Option (Nat × Byte) :=
  (s.pwin.shadow.filter (fun e => e.2.valid)).findSome? (fun e => (s.winReason e.1 e.2).map (fun r => (e.1, r)))

/-- GO (R449): the shadow windows are validated; a refused commit leaves the active windows, a passing one goes on under
R451. -/
def execPwinGo (s : State) : Host.Outcome State Fault Refusal :=
  if s.haltClosed then .next s
  else
    let s := s.leaveDock
    if s.pwin.next.isSome then .next s
    else match s.commitFault with
      | some (n, r) => .next (s.withPwin { s.pwin with error := true, errWindow := BitVec.ofNat 6 n, errReason := r })
      | none => .next (s.withPwin { s.pwin with next := some s.pwin.shadow })

/-- The pool with every page that joins a region zeroed (R451). -/
def zeroPages (pool : Memory) (pages : List Nat) : Memory :=
  pool.filter (fun e => decide (e.1 / 4096 ∉ pages))

/-- PWIN_COMMIT_IN_FORCE (R451): pages that join a region are zero, the new generation is in force, and pages that leave
every region drain. -/
def execPwinCommitInForce (s : State) : Host.Outcome State Fault Refusal :=
  match s.pwin.next with
  | none => .next s
  | some t =>
    let old := regionPages s.pwin.active
    let new := regionPages t
    .next (s.withPwin { s.pwin with
      active := t, next := none, gen := s.pwin.gen + 1, error := false,
      pool := zeroPages s.pwin.pool (new.filter (fun g => g ∉ old)),
      draining := s.pwin.draining ++ old.filter (fun g => g ∉ new) })

/-- Whether ranges of the pool hold a page. -/
def rangesHold (l : List (Nat × Nat)) (g : Nat) : Bool :=
  l.any (fun r => decide (r.1 < (g + 1) * 4096) && decide (g * 4096 < r.1 + r.2))

/-- Whether a mover descriptor or a TBUF-mode I/O descriptor holds a pool page (R277, R454). -/
def State.pageHeld (s : State) (g : Nat) : Bool :=
  s.dmv.chans.any (fun e => e.2.queue.any (fun t => rangesHold t.held g ||
    (t.srcPool && rangesHold t.srcs g) || (t.dstPool && rangesHold t.dsts g))) ||
    s.ios.any (fun io => rangesHold io.held g)

/-- POOL_PAGE_RELEASE (R451): a draining page that nothing holds returns to the free pool. -/
def execPoolPageRelease (page : BitVec 13) (s : State) : Host.Outcome State Fault Refusal :=
  let g := page.toNat
  if s.pageHeld g then .next s else .next (s.withPwin { s.pwin with draining := without s.pwin.draining g })

end Sys2Proof.Machine
end

