-- ==== Sys2Proof/Machine/Survey.lean ====
section
/-! DEFINITION. Secure boot and the start-up survey (spec/16_startup_and_resets.md R458 to R462, R472 to R479; spec/17 R486, R495,
R499; spec/15 R431), and Idle-dock (R468 to R470). -/

namespace Sys2Proof.Machine

/-! ## Images (R473 to R475) -/

/-- n bytes of an image at an offset. -/
def FwSlot.bytes (f : FwSlot) (off n : Nat) : Bytes := Memory.readBytes f.image off n

/-- A little-endian field of an image header. -/
def FwSlot.field (f : FwSlot) (off n : Nat) : Nat := leNat (f.bytes off n)

/-- VERSION of an image (R473). -/
def FwSlot.version (f : FwSlot) : Word32 := BitVec.ofNat 32 (f.field 4 4)

/-- ROLLBACK_INDEX of an image. -/
def FwSlot.rollbackIndex (f : FwSlot) : Nat := f.field 8 1

/-- Whether every byte of a header range is zero. -/
def FwSlot.zeros (f : FwSlot) (off n : Nat) : Bool := f.image.all (fun e => decide (e.1 < off) || decide (off + n ≤ e.1))

/-- The place of a part in PART_MASK (R473). -/
def partBit : Part → Nat
  | .np9256 => 0
  | .np9192 => 1
  | .np9128 => 2

/-- Check 1 of R474: MAGIC, lengths, reserved bytes, PART_MASK. -/
def headerOk (p : Part) (f : FwSlot) : Bool :=
  decide (f.field 0 4 = 0x4E504657) && decide (f.field 0xA 2 = 0x200) && decide (0x200 + f.field 0xC 4 ≤ 2 ^ 24) &&
    decide (f.field 9 1 < 4) && decide (f.field 0x10 4 < 8) && bitOf (f.field 0x10 4) (partBit p) && f.zeros 0x14 44 &&
    f.zeros 0xA1 95 && f.zeros 0x160 160

/-- The digest that the signature covers: header bytes 0x000 to 0x0FF and the body (R473). -/
def FwSlot.digest (f : FwSlot) : Bytes := Config.sha384 (f.bytes 0 0x100 ++ f.bytes 0x200 (f.field 0xC 4))

/-- Checks 2 and 3 of R474: the key slot. -/
def keyOk (c : Sec) (f : FwSlot) : Bool :=
  let k := f.field 9 1
  c.provisioned.getLsbD k && !c.revoked.getLsbD k &&
    decide (Config.sha384 (f.bytes 0x40 97) = Tab.get c.keyDigests [] k) && (decide (c.lock.toNat < 2) || decide (k ≠ 0))

/-- The first check of R474 that an image fails, as the detail of source 0xE0; none when it is accepted. -/
def imageFault (p : Part) (c : Sec) (f : FwSlot) : Option Byte :=
  if !headerOk p f then some 3
  else if !keyOk c f then some 4
  else if !Config.ecdsaVerify (f.bytes 0x40 97) f.digest (f.bytes 0x100 96) then some 1
  else if f.rollbackIndex < c.rollback then some 2
  else none

/-- An image slot: A is false, B is true. -/
def Sec.slot (c : Sec) (b : Bool) : FwSlot := if b then c.slotB else c.slotA

/-- The management processor started on a slot's image (R475, R481). -/
def Sec.started (c : Sec) (b fallback : Bool) : Sec :=
  { c with running := some b, pending := none, lastRan := b, fallback := fallback, rom := false,
           fwRunning := (c.slot b).version, boots := (c.boots + 1) % 2 ^ 32 }

/-- BOOT_COMPLETE (R458, R474, R475): the pending slot, else the slot that ran last, then the other one; with neither
bootable, ROM recovery. `otp` and `store` are what the checks of the OTP words and of the firmware store found (R479). -/
def execBootComplete (otp store : WordCheck) (s : State) : Host.Outcome State Fault Refusal :=
  if !s.gcs.pwrgd ∨ s.gcs.phase ≠ .boot ∨ s.gcs.coldWait then .next s
  else
    let s := match otp with
      | .good => s
      | .corrected => s.raise 0xE3 .note 1
      | .bad => s.raise 0xE3 .stop 2
    let s := if store = .bad then s.raise 0xE5 .warn 1 else s
    let first := s.sec.pending.getD s.sec.lastRan
    let enter (s : State) (v : Sec) : State := (s.withSec v).withGcs { s.gcs with phase := .survey }
    match imageFault s.part s.sec (s.sec.slot first) with
    | none => .next (enter s (s.sec.started first false))
    | some d =>
      let s := s.raise 0xE0 .warn d
      match imageFault s.part s.sec (s.sec.slot !first) with
      | none => .next (enter s (s.sec.started (!first) true))
      | some _ =>
        let s := s.withSec { s.sec with running := none, pending := none, fallback := true, rom := true, fwRunning := 0 }
        .next ((s.withGcs { s.gcs with phase := .romRecovery, resetNow := none }).raise 0xE1 .stop 1)

/-- COLD_START_PROCEED (R499): every junction sensor reads at least 0 °C. -/
def execColdStartProceed (s : State) : Host.Outcome State Fault Refusal :=
  .next (s.withGcs { s.gcs with coldWait := false })

/-- JTAG_DEBUG_ATTEMPT (R477): source 0xE4 at lock level 1 and above. -/
def execJtagDebugAttempt (s : State) : Host.Outcome State Fault Refusal :=
  if s.sec.lock = 0 then .next s else .next (s.raise 0xE4 .warn 1)

/-- DECAY_FLOOR_CROSSED (R486): a fall of VLOG or VLOG_IO below its decay floor disables the write drivers of the Log. -/
def execDecayFloorCrossed (rail : BitVec 3) (s : State) : Host.Outcome State Fault Refusal :=
  if rail = 2 ∨ rail = 3 then .next (s.withGcs { s.gcs with writeDrivers := false }) else .next s

/-! ## The Map Store and the Almanac -/

/-- MAP_STORE_TRAINING_DONE (R460, R495): eye width, trained, latency 2.5 tCK of each channel; a channel that failed training,
or whose eye is below 150 ps, is fenced. -/
def execMapStoreTrainingDone (eyes : List (Nat × Bool × Bool)) (s : State) : Host.Outcome State Fault Refusal :=
  if s.gcs.phase ≠ .survey ∨ s.gcs.mapTrained then .next s
  else
    let eye (c : Nat) : Nat × Bool × Bool := eyes.getD c (0, false, false)
    let chans := List.range 8
    let s := s.withMap { s.map with
      trained := chans.filter (fun c => (eye c).2.1), late := chans.filter (fun c => (eye c).2.2),
      eyes := chans.foldl (fun t c => Tab.set t 0 c ((eye c).1 % 1024)) s.map.eyes }
    let s := (chans.filter (fun c => !(eye c).2.1 || decide ((eye c).1 < 150))).foldl (fun s c => s.fenceChannel c 4) s
    .next (s.withGcs { s.gcs with mapTrained := true }).beginRecovery

/-- ALMANAC_COMPLETE (R431, R458). -/
def execAlmanacComplete (s : State) : Host.Outcome State Fault Refusal :=
  if s.gcs.phase ≠ .survey ∨ s.gcs.almanac then .next s
  else .next (s.withGcs { s.gcs with almanac := true }).beginRecovery

/-! ## The survey (R460, R461) -/

/-- Every item and instance that the survey of this start-up records, in order (R460); a soft reset runs six items (R464). -/
def State.surveyPlan (s : State) : List (Nat × Nat) :=
  let each (item n : Nat) : List (Nat × Nat) := (List.range n).map (fun i => (item, i))
  let all := each 1 7 ++ each 2 8 ++ each 3 (Config.banks s.part) ++ each 4 8 ++ each 5 2 ++ each 6 (Config.groups s.part) ++
    each 7 1 ++ each 8 (Config.banks s.part) ++ each 9 (9 * Config.clusters s.part) ++ each 10 1
  if s.gcs.resetNow = some .soft then all.filter (fun e => decide (e.1 ≤ 4) || decide (e.1 = 8) || decide (e.1 = 9)) else all

/-- Verdict and limit of a value that must be at least `pass`, failing below `low`. -/
def judgeLow (v low pass : Int) : BitVec 2 × Int := (if v < low then 2 else if v < pass then 1 else 0, pass)

/-- Verdict and limit of a value that must be at most `pass`, failing above `high`. -/
def judgeHigh (v pass high : Int) : BitVec 2 × Int := (if high < v then 2 else if pass < v then 1 else 0, pass)

/-- Verdict and limit of a value that passes strictly between two limits, is marginal up to `margin` below the thresholds that
bound it, and fails outside the thresholds: the limit missed, or the nearer one. -/
def judgeBand (v low high margin : Int) : BitVec 2 × Int :=
  let lo := low + margin
  let hi := high - margin
  let nearer := if v - lo ≤ hi - v then lo else hi
  (if v < low ∨ high < v then 2 else if v ≤ lo ∨ hi ≤ v then 1 else 0, nearer)

/-- The verdict of R460 on a measured value of an item, with the limit recorded. -/
def State.judge (s : State) (item inst : Nat) (v : Int) : BitVec 2 × Int :=
  match item with
  | 1 => judgeBand v (s.railLow inst : Nat) (s.railHigh inst : Nat) 12
  | 2 => judgeHigh v (s.regField Reg.monTj 8 8 : Nat) 115
  | 3 => judgeHigh v 95 105
  | 4 => judgeLow v 150 200
  | 5 => judgeLow v 50 100
  | 6 => judgeLow v 100 200
  | 7 => judgeLow v 50 100
  | 8 => judgeLow v 12 20
  | 9 => (if v = 0 then 0 else 2, 0)
  | _ => (if v < 117000 ∨ 123000 < v then 2 else 0, if v - 117000 ≤ 123000 - v then 117000 else 123000)

/-- Whether an instance is measured: a host port eye only at 32 GT/s and above, the pair link only when present and the
recorded state is not SINGLE (R460). -/
def State.measurable (s : State) (item inst : Nat) : Bool :=
  match item with
  | 5 => decide (5 ≤ (s.hpu (inst = 1)).speed.toNat)
  | 7 => Config.hasPair s.part && decide (s.pair.state ≠ .single)
  | _ => true

/-- One survey entry: verdict 3, value and limit 0 when it was not measured (log entry 24). -/
def State.surveyEntry (s : State) (ms : List SurveyMeasure) (item inst : Nat) : SurveyEntry :=
  let m := ms.find? (fun m => decide (m.item.toNat = item) && decide (m.inst.toNat = inst))
  match m.bind (fun m => m.value), s.measurable item inst with
  | some v, true =>
    let j := s.judge item inst v
    { item := BitVec.ofNat 8 item, inst := BitVec.ofNat 8 inst, verdict := j.1, value := v,
      limit := BitVec.ofNat 16 (signedNat 16 j.2) }
  | _, _ => { item := BitVec.ofNat 8 item, inst := BitVec.ofNat 8 inst, verdict := 3, value := 0, limit := 0 }

/-- A coding engine that failed its start-up self-test (R59, R460): fenced; CE-S reports it (R60) and otherwise takes its place
if it is free. -/
def State.engineSurvey (s : State) (inst : Nat) : State :=
  let c := decide (9 ≤ inst)
  let e := inst % 9
  if e = 8 then
    let s := s.modCluster c (fun v => { v with spareOk := false })
    s.raise (engineSource c 8) .warn 2
  else s.modCluster c (fun v => { v with fenced := withElem v.fenced e,
                                         spareFor := if v.spareFor.isNone ∧ v.spareOk then some e else v.spareFor })

/-- The consequence of a failed entry (R460). -/
def State.surveyFail (s : State) (e : SurveyEntry) : State :=
  let n := e.inst.toNat
  match e.item.toNat with
  | 1 => if n ∈ s.mon.railLow ∨ (s.mon.hold = .normal ∧ e.value < (s.railLow n : Nat)) then s.enterHold (.rail (BitVec.ofNat 3 n))
         else if n ∈ s.mon.railHigh then s else s.raise 0xC6 .warn e.inst
  | 2 =>
    if s.mon.thermtrip then s
    else ((s.withMon { s.mon with thermtrip := true }).enterHold (.trip n)).raise 0xC9 .stop e.inst
  | 3 => s.raise 0xC8 .warn (BitVec.ofNat 8 (0x10 + n))
  | 4 => s.fenceChannel n 4
  | 5 => let (s, d) := s.freeByte; s.raise (hpuSource 0x12 (decide (n = 1))) .note d
  | 6 => s.linkFault (BitVec.ofNat 8 (16 * n)) .note 2
  | 9 => s.engineSurvey n
  | _ => s

/-- SURVEY_COMPLETE (R461, R462, R476): the entries, their consequences, the SURVEY records as chain frames and to the event
rings, and the rollback counter. -/
def execSurveyComplete (ms : List SurveyMeasure) (s : State) : Host.Outcome State Fault Refusal :=
  if s.gcs.surveyDone ∨ ¬ (s.gcs.phase = .survey ∨ s.gcs.phase = .recovery ∨ s.gcs.phase = .running) then .next s
  else
    let es := s.surveyPlan.map (fun e => s.surveyEntry ms e.1 e.2)
    let s := (es.filter (fun e => e.verdict = 2)).foldl State.surveyFail s
    let s := s.withGcs { s.gcs with survey := es, surveyDone := true, surveyKept := true, surveyPosted := [false, false] }
    let s := s.surveyRecords.foldl (fun s r => s.originate 0x09 r.bytes) s
    let s := (s.postSurvey false).postSurvey true
    match s.sec.running with
    | none => .next s
    | some b =>
      let ri := (s.sec.slot b).rollbackIndex
      if s.sec.rollback < ri then
        .next ((s.withSec { s.sec with rollback := ri }).raise 0xE2 .note (BitVec.ofNat 8 ri))
      else .next s

/-! ## Idle-dock (R468 to R470) -/

/-- The first condition of R468 that fails. -/
def State.dockRefusal (s : State) : Option Nat :=
  if s.sets.any (fun e => e.2.state = .running || e.2.state = .draining) then some 1
  else if !s.interp.deferred.isEmpty then some 2
  else if s.mon.run.isSome ∨ s.log.pairs.any (fun r => r.resilvering) then some 3
  else if ¬ (s.pair.state = .single ∨ s.pair.state = .alone) then some 4
  else if s.gcs.halted ∨ s.inHold then some 5
  else none

/-- DOCK_ENTER (R468, R470): Idle-dock, or the reason of the refusal in GCS.DOCK.REFUSED; written in Idle-dock it leaves it, then
takes effect. -/
def execDockEnter (s : State) : Host.Outcome State Fault Refusal :=
  if s.haltClosed then .next s
  else
    let s := s.leaveDock
    match s.dockRefusal with
    | some r => .next (s.setRegN Reg.gcsDock (r * 2 ^ 8))
    | none =>
      if s.gcs.phase ≠ .running then .next s
      else .next ((s.withGcs { s.gcs with phase := .dock }).count32 Reg.gcsDockCount 1)

/-- DOCK_EXIT (R470). -/
def execDockExit (s : State) : Host.Outcome State Fault Refusal :=
  if s.haltClosed then .next s
  else .next s.leaveDock

end Sys2Proof.Machine
end

