-- ==== Sys2Proof/Machine/Resets.lean ====
section
/-! DEFINITION. Power loss, power-on, soft and chain reset (spec/16_startup_and_resets.md R458, R463 to R467; spec/04 R112, R148;
spec/02 R39; spec/14 R395). -/

namespace Sys2Proof.Machine

/-! ## What survives (R466) -/

/-- A set as recovery finds it: its attributes and durable cursors kept, its replay still to come (R39, R184, R193). -/
def ArraySet.kept (a : ArraySet) : ArraySet :=
  { a with
      candidate := a.cursor, inFlight := [], scrubLive := a.scrubCursor, scrubGrant := a.scrubCursor, scrubRow := 0, resync := [],
      unresolved := [], heldStripes := [], lostPosted := [], replayed := false,
      replaying := decide (a.state ≠ .empty) && decide (a.state ≠ .preserved) }

/-- A record as a walk after power loss finds it: one not durable in full has no effect (R112). -/
def Rec.afterLoss (r : Rec) : Rec :=
  { r with status := if r.status = .writing then .abandoned else r.status, io := none, openWrites := [], localDone := false,
           reserve := if r.status = .writing ∨ r.typ = .intent then 0 else r.reserve }

/-- The highest watch that a committed seal record covers. -/
def State.sealedFound (s : State) : BitVec 48 :=
  if s.log.recs.any (fun r => r.typ = .sealRec && r.status = .writing) then
    s.log.recs.foldl (fun m r => if r.typ = .sealRec ∧ r.status = .committed ∧ m.toNat < r.watch.toNat then r.watch else m) 0
  else s.wch.sealedWatch

/-- The Log after a power loss: contents kept, running counters restored from the newest life record (R120, R148). -/
def Log.afterLoss (l : Log) : Log :=
  { l with
      recs := l.recs.map Rec.afterLoss, replaying := false, paced := false, full := false, credit := 0, creditAt := 0, freed := [],
      pacedAdds := [], lives := [], bankWrites := l.life.writes, tmax := l.life.tmax,
      powerOnS := l.life.powerOnS, hotS := l.life.hotS, walked := false }

/-- A port as the metadata area records it: form, GEN_MAX, FAILED, capacity, catch-up map; a port of a dark group is DARK. -/
def Port.afterLoss (v : Port) (dark : Bool) : Port :=
  { Port.at0 with
      state := if v.state = .merged then .merged else if dark then .dark else .empty, failed := v.failed, genMax := v.genMax,
      width := v.width, catchupMap := v.catchupMap, recordedCapacity := v.recordedCapacity, nguid := v.nguid }

/-- A group as the metadata area records it: DRAINING returns DARK, WAKING returns POWERED (R339). -/
def Group.kept (g : Group) : Group :=
  let dark := decide (g.state = .dark) || decide (g.state = .draining)
  { Group.at0 with state := if dark then .dark else .powered, pwren := !dark, clkreqLow := g.clkreqLow, lastPort := g.lastPort,
                   lastDetail := g.lastDetail, lastLink := g.lastLink }

/-- The pair state after a reset (R395): SINGLE stays, any other recorded state enters JOINING, or FENCED while
PAIR_FENCE_IN_N is low. The mirror half is part of the Log and stays (R402, R466). -/
def Pair.restarted (p : Pair) : Pair :=
  if p.state = .single then
    { Pair.at0 with side := p.side, epoch := p.epoch, fenceInLow := p.fenceInLow, takeovers := p.takeovers }
  else
    { Pair.at0 with
        state := if p.fenceInLow then .fenced else .joining,
        former := if p.state = .joining then p.former else p.state, side := p.side, epoch := p.epoch, fenceInLow := p.fenceInLow,
        takeovers := p.takeovers, mirror := p.mirror, mirrorUnits := p.mirrorUnits, afterReset := true }

/-- Entry to FENCED (R395): the controller halts and writes nothing to host memory, every drive and host link is held down, the alert
and source 0xD3 are raised. -/
def State.enterFenced (s : State) : State :=
  let s := (s.withPair { s.pair with state := .fenced, link := false, lanesUp := 0, probing := false, fenceWait := false }).setAlert
  let s := s.halt { reason := 0, entry := none, silent := true }
  let s := s.withGcs { s.gcs with haltClosing := false }
  let s := (s.withHpus (Tab.mapV s.hpus Hpu.at0 (fun _ h => { h with dlUp := false, inL1 := false, speed := 0, width := 0 }))).withDcmds []
  let s := s.withPorts (Tab.mapV s.ports Port.at0 (fun _ v =>
    if v.state = .ready ∨ v.state = .training ∨ v.state = .recovery ∨ v.state = .resetting then v.leave .empty else v))
  s.raise 0xD3 .stop 1

/-- A reset that restores FENCED enters it (R395). -/
def State.fenceAtReset (s : State) : State := if s.pair.state = .fenced then s.enterFenced else s

/-- The persistent state: what a power loss leaves (R466, first column). The volatile parts take their reset values. -/
def State.lostPower (s : State) : State :=
  let r := State.reset
  { r with
      gcs := { r.gcs with part := s.gcs.part, bifur := s.gcs.bifur, pwrgd := false },
      flt := { r.flt with loaded := s.flt.loaded },
      sets := Tab.mapV s.sets ArraySet.at0 (fun _ a => a.kept),
      incarnations := s.incarnations, profiles := s.profiles,
      cht := { r.cht with progs := s.cht.progs, tables := s.cht.tables },
      log := s.log.afterLoss,
      wch := { r.wch with length := s.wch.length, nextLength := s.wch.nextLength, sealedWatch := s.sealedFound },
      ports := Tab.mapV s.ports Port.at0 (fun p v => v.afterLoss (decide ((s.group (p / 16)).kept.state = .dark))),
      portGroups := Tab.mapV s.portGroups Group.at0 (fun _ g => { g.kept with lastPort := 0, lastDetail := 0, lastLink := false }),
      sec := { s.sec with running := none, fallback := false, rom := false, fwRunning := 0, boots := 0 },
      mon := { r.mon with banks := Tab.mapV s.mon.banks BankCal.at0 (fun _ b => { BankCal.at0 with sel := b.otp, otp := b.otp }) },
      pair := s.pair.restarted, nextId := s.nextId, freeCount := s.freeCount, dmv := { r.dmv with tagCount := s.dmv.tagCount },
      sched := { r.sched with scrubbing := s.sched.scrubbing }, out := s.out, pending := s.pending }

/-- POWER_LOSS (R458): everything that is not persistent is lost; a scrub pass resumes at its saved cursors (R193). -/
def execPowerLoss (s : State) : Host.Outcome State Fault Refusal :=
  if !s.gcs.pwrgd then .next s else .next s.lostPower

/-- POWER_ON (R458, R423, R499): a rise of PWRGD, HOST_BIFUR sampled, `cold` when a junction reads below 0 °C. What happened while
PWRGD was low is lost too. -/
def execPowerOn (bifur cold : Bool) (s : State) : Host.Outcome State Fault Refusal :=
  if s.gcs.pwrgd then .next s
  else
    let s := s.lostPower
    .next (s.withGcs { s.gcs with pwrgd := true, bifur := bifur, coldWait := cold }).fenceAtReset

/-! ## Soft and chain reset (R463 to R467) -/

/-- A commit in flight finishes within 1 µs (R464): a record being written becomes durable; in PAIRED one without its partner
copy does not commit (R403). -/
def Log.settled (l : Log) (paired : Bool) : Log :=
  let done (r : Rec) : Bool := r.status = .writing && (!paired || r.partner)
  let gone := (l.recs.filter (fun r => r.typ = .retire && (done r || r.status = .committed))).flatMap (fun r => r.names)
  let lives := (l.recs.filter (fun r => r.typ = .life && done r)).map (fun r => r.seq)
  let l := { l with recs := l.recs.map (fun r =>
    let r := { r with retired := r.retired || decide (r.seq ∈ gone) }
    if done r then { r with status := .committed } else r) }
  let l := lives.foldl Log.lifeCommitted l
  { l with recs := l.recs.map Rec.afterLoss, paced := false, full := false, freed := [], pacedAdds := [], lives := [],
           walked := false }

/-- A port when every drive link is hot-reset: CONTAINED, DARK, MERGED and EMPTY ports stay, any other starts a reset (R464,
R335). -/
def Port.hotReset (v : Port) (dark : Bool) : Port :=
  if v.state = .merged ∨ v.state = .contained then { v with resetSrc := none, adminSrc := none }
  else if dark then { v.leave .dark with resetSrc := none, adminSrc := none }
  else if v.state = .dark ∨ v.state = .empty then { v with state := .empty, resetSrc := none, adminSrc := none }
  else { v with state := .resetting, resetSrc := none, adminSrc := none, shutdownSent := true, shutdownDone := true, catchup := false,
                inL1 := false }

/-- A channel after a chain reset: no work, line 0 DISABLED (R466). -/
def Channel.idled (c : Channel) (line0 : Bool) : Channel :=
  { c with state := if line0 ∨ c.state = .disabled then .disabled else .idle, enable := c.enable && !line0, swReq := false,
           queue := [], held := none, flushWait := false }

/-- Whether a cause of Hold is present (R386), with the state of R467. -/
def Mon.atReset (m : Mon) : Mon :=
  let pin := m.pwrwarnLow
  let rail := !m.railLow.isEmpty
  { m with
      hold := if pin || rail || m.thermtrip then .hold else .normal, byPin := pin, byRail := rail, byTrip := m.thermtrip,
      holdRail := BitVec.ofNat 3 (m.railLow.headD 0), resumeSet := false, run := none, queue := [] }

/-- Registers that both resets return to their reset values: the ring contexts and the Stripe Cache block (R466). -/
def chainDrops (off : Nat) : Bool := inBlock 0x100000 0x10480 off || inBlock 0x60000 0x10000 off

/-- Registers that a soft reset returns to their reset values besides: GCS, FLT, WCH, the settings of MON and CAL, DMV, CHT, LOG,
the counters of PAIR, PWIN, HPU, CC, MAP, SEC, the Ring Engine and the drive ports. -/
def softDrops (off : Nat) : Bool :=
  chainDrops off || inBlock 0x10000 0x20000 off || inBlock 0x30000 0x10000 off ||
  (inBlock 0x40000 0x10000 off && decide (off ≠ Reg.calGen) && decide (off ≠ Reg.calRuns) && decide (off ≠ Reg.calFails)) ||
  inBlock 0x50000 0x10000 off || inBlock 0x70000 0x20000 off || (inBlock 0x90000 0x10000 off && decide (off ≠ Reg.pairCtl)) ||
  inBlock 0xB0000 0x50000 off || inBlock 0x110480 0xEFB80 off || inBlock 0x1000000 0x1000000 off

/-- What soft and chain reset have in common: every data-plane operation ends without a word to the host, links to the drives
are reset, a halt ends (R464). -/
def State.dropWork (s : State) : State :=
  let s := s.withGcs { s.gcs with halted := false, haltClosing := false, deferredCalendar := [], latch := [], splitLow := [] }
  let s := s.withLog (s.log.settled (decide (s.pair.state = .paired)))
  let s := match s.mon.run with
    | none => s
    | some c => s.withLog { s.log with spare := some c.released }
  let s := s.withMon s.mon.atReset
  let s := (((s.withIos []).withDcmds []).withRowOps []).withCommits []
  let s := ((s.withPasses []).withArbitrating []).withCtxs []
  let s := (s.withRings []).withPrivLock false
  let s := s.withSets (Tab.mapV s.sets ArraySet.at0 (fun _ a => a.kept))
  let s := s.withCht { s.cht with waiting := [], cached := [], bgCredit := 0 }
  let s := s.withScc Scc.at0
  let s := s.withClusters (Tab.mapV s.clusters Cluster.at0 (fun _ v =>
    { v with queues := [], solves := [], cache := [], solveRetried := false, spareTesting := false }))
  let s := s.withInterp { s.interp with srcs := [], busy := [], deferred := [], bufs := [], chainBusySeq := none, fwRestart := none,
                                        heldReplies := [] }
  let s := s.withWch { s.wch with todSrc := none, partnerReady := [], ownReady := 0 }
  let s := s.withDmv { s.dmv with reads := s.dmv.reads.map (fun r => { r with dead := true }), retries := [], unassigned := [] }
  let s := s.withPorts ((List.range (Config.ports s.part)).foldl (fun t p =>
    Tab.modify t Port.at0 p (fun v => v.hotReset (decide ((s.group (p / 16)).kept.state = .dark)))) s.ports)
  let s := s.withPortGroups (Tab.mapV s.portGroups Group.at0 (fun _ g => g.kept))
  let s := s.withPair s.pair.restarted
  let s := s.withSched { scrubbing := s.sched.scrubbing, behind := false, turn := 0 }
  let s := s.withFlt { s.flt with queue := [] }
  (s.clearAllSources).dropRegs chainDrops

/-- The rank of a reset kind, heaviest first (R463). -/
def ResetKind.rank : ResetKind → Nat
  | .powerOn => 0
  | .soft => 1
  | .chain => 2

/-- Whether a reset of a kind is ignored: an equal or heavier one is in progress (R463). -/
def State.resetIgnored (s : State) (k : ResetKind) : Bool :=
  match s.gcs.resetNow with
  | none => false
  | some r => decide (r.rank ≤ k.rank)

/-- A soft reset (R464, R466): all three planes; host links and configuration spaces are kept. -/
def State.softReset (s : State) : State :=
  let s := (s.dropWork).dropRegs softDrops
  let s := s.withGcs { s.gcs with phase := .boot, mapTrained := false, surveyDone := false, survey := [], surveyKept := false,
                                  surveyPosted := [false, false], resetNow := some .soft, haltReason := 0, haltCmd := false,
                                  haltRing := 0, haltIndex := 0, haltLap := false }
  let s := s.withFlt { s.flt with rev := [] }
  let s := s.withDmv { s.dmv with chans := [], mqs := [], quarReported := [false, false] }
  let s := (s.withPwin Pwin.at0).withMap MapStore.at0
  let s := s.withClusters []
  let s := s.withCht { s.cht with firstFault := 0 }
  let s := s.withHpus (Tab.mapV s.hpus Hpu.at0 (fun _ h => { h with contained := false, cause := 0 }))
  (s.withSec { s.sec with running := none }).fenceAtReset

/-- SOFT_RESET (R463): a write of 0x0CB0 to GCS.RESET.KEY, honoured during a halt; other values are ignored. The write leaves
Idle-dock, as every reset does. -/
def execSoftReset (key : Half) (s : State) : Host.Outcome State Fault Refusal :=
  if key ≠ 0x0CB0 ∨ !s.gcs.pwrgd ∨ s.gcs.phase = .romRecovery ∨ s.resetIgnored .soft then .next s
  else .next s.leaveDock.softReset

/-- A chain reset (R464, R466): the data and control planes; the management processor, host ports, peer windows and the chain
interface are kept. Both resets run RECOVERY. -/
def State.chainResetNow (s : State) : State :=
  let s := s.dropWork
  let s := s.withGcs { s.gcs with phase := .recovery, resetNow := some .chain }
  let s := s.withLog { s.log with replaying := true }
  let s := chanNumbers.foldl (fun s n => s.modChan n (fun c => c.idled (decide (s.chanLine n = 0)))) s
  (s.withDmv { s.dmv with mqs := Tab.mapV s.dmv.mqs Mq.at0 (fun _ m => { m with enabled := false, waiting := [] }) }).fenceAtReset

/-- CHAIN_RESET (R415, R463): a RESET frame with bytes 0xB0 0x0C. -/
def execChainReset (b0 b1 : Byte) (s : State) : Host.Outcome State Fault Refusal :=
  if !s.gcs.pwrgd then .next s
  else
    let s := s.count32 Reg.chnFramesRx 1
    if b0 ≠ 0xB0 ∨ b1 ≠ 0x0C ∨ s.gcs.phase = .romRecovery ∨ s.resetIgnored .chain then .next s
    else .next s.leaveDock.chainResetNow

end Sys2Proof.Machine
end

