-- ==== Sys2Proof/Machine/Replay.lean ====
section
/-! DEFINITION. Recovery: the journal walk, the start of the Watch Timer, and the replay of sets (spec/04_the_log.md R139 to R141;
spec/05 R163; spec/02 R39). -/

namespace Sys2Proof.Machine

/-- Whether a record takes part in the replay of a set: committed, of its incarnation, named by no committed retire record
(R141). -/
def ArraySet.liveRec (a : ArraySet) (id : Nat) (r : Rec) : Bool :=
  decide (r.set.toNat = id) && decide (r.incarnation = a.incarnation) && decide (r.status = .committed) && !r.retired

/-- The live records of a set of one type. -/
def State.liveRecs (s : State) (id : Nat) (t : RecType) : List Rec :=
  s.log.recs.filter (fun r => (s.set id).liveRec id r && decide (r.typ = t))

/-- Whether a DATA record holds a sector of a fragment and row. -/
def Rec.holds (r : Rec) (stripe f row : Nat) : Bool :=
  decide (r.stripe = stripe) && r.fragMask.getLsbD f && decide (r.rowFirst ≤ row) && decide (row < r.rowFirst + r.rowCount)

/-- The newest DATA record of a sector with a version of at most v (R141). -/
def newestUpTo (l : List Rec) (stripe f row : Nat) (v : Version) : Option Rec :=
  (l.filter (fun r => r.holds stripe f row && !verLt v r.ver)).foldl (fun m r => match m with
    | none => some r
    | some q => if verLt q.ver r.ver then some r else some q) none

/-- Records in ascending version. -/
def insertRec (r : Rec) : List Rec → List Rec
  | [] => [r]
  | q :: rest => if verLt r.ver q.ver then r :: q :: rest else q :: insertRec r rest

/-- A list of records sorted by version, records of one version in their order of commit. -/
def byVersion (l : List Rec) : List Rec := l.foldl (fun acc r => insertRec r acc) []

/-- A replay write (R141): FUA, REPLAY set; queued until its drive is READY (R458), skipped on a failed or dark port (R132,
R341). -/
def State.replayWrite (s : State) (set : BitVec 6) (stripe f row : Nat) (v : Version) (lwm : Word64) (zero holdover : Bool)
    (data : Bytes) : State :=
  let rev := (s.set set.toNat).revFor stripe
  match s.bearing set rev stripe f with
  | .failed _ _ _ => s
  | .at port dba =>
    let fl : SealFlags := { zero := zero, holdover := holdover, replay := true, rebuilt := false, repaired := false }
    let x := sealFor (s.placeOf set stripe f row) rev.rev fl v lwm data
    let st := (s.port port).state
    if (s.port port).failed then s
    else if (st = .dark ∨ st = .contained ∨ st = .error ∨ (st = .ready ∧ !(s.port port).formatOk)) then
      s.modPort port (fun v => { v with catchupMap := withElem v.catchupMap (stripe / 1024) })
    else (s.withNextId (s.nextId + 1)).submit (driveCmd s.nextId port .write .replay set stripe f row (dba + row) (some x))

/-- One row of a COMMIT record replayed: its newest data sectors, then its parity (R141). -/
def State.replayRow (s : State) (id : Nat) (data : List Rec) (c : Rec) (row : Nat) : State :=
  let p := s.setProfile (s.set id)
  let found := (List.range p.k).filterMap (fun f => (newestUpTo data c.stripe f row c.ver).map (fun r => (f, r)))
  let s := found.foldl (fun s x =>
    s.replayWrite c.set c.stripe x.1 row x.2.ver 0 x.2.zero x.2.holdover (x.2.sectorAt x.1 row)) s
  let par : List (Nat × Bytes) :=
    if c.encode then p.parities.zip (p.encode 4096 (found.map (fun x => x.2.sectorAt x.1 row)))
    else p.parities.map (fun f => (f, c.sectorAt f row))
  par.foldl (fun s x => s.replayWrite c.set c.stripe x.1 row c.ver c.lwm c.zero c.holdover x.2) s

/-- The data redo of a set that R127 drops: SEALED writes of a watch above the highest sealed one; they were never
acknowledged and have no effect (R141). -/
def State.dropUnsealed (s : State) (id : Nat) : State :=
  let a := s.set id
  s.withLog { s.log with recs := s.log.recs.map (fun r =>
    if a.liveRec id r ∧ r.typ = .data ∧ r.sealedAck ∧ s.wch.sealedWatch.toNat < r.watch.toNat then
      { r with status := .abandoned, reserve := 0 } else r) }

/-- The drive writes that the replay of a set makes (R141). -/
def State.startReplay (s : State) (id : Nat) : State :=
  if !(s.set id).replaying then s
  else
    let s := s.dropUnsealed id
    let data := s.liveRecs id .data
    (byVersion (s.liveRecs id .commit)).foldl (fun s c =>
      ((List.range c.rowCount).map (c.rowFirst + ·)).foldl (fun s row => s.replayRow id data c row) s) s

/-- The fix time at which the Watch Timer starts (R163). -/
def State.timerStart (s : State) : Nat :=
  let l := s.wch.length
  let seals := (s.log.recs.filter (fun r => r.typ = .sealRec && r.status = .committed)).foldl (fun m r => max m r.fixNs.toNat) 0
  let anchor := match s.log.newestAnchor with
    | none => 0
    | some a => max a.fixNs.toNat ((a.watchHw.toNat + 1) * l)
  let top := s.log.recs.foldl (fun m r => if r.status = .committed then max m ((r.watch.toNat + 1) * l) else m) 0
  10 ^ 9 + max (max seals s.log.life.fixNs.toNat) (max anchor top)

/-- The Watch Timer started in UNSET after a power-on (R163); soft and chain reset keep it running (R466). -/
def State.startTimer (s : State) : State :=
  if s.gcs.resetNow ≠ some .powerOn then s
  else
    let t := s.timerStart
    s.withWch { s.wch with fixNs := BitVec.ofNat 64 t, fracPs := 0, timer := .unset,
                           closed := BitVec.ofNat 48 (t / s.wch.length - 1) }

/-- JOURNAL_WALK_END (R140, R163): the head and the committed records are known, the Watch Timer starts, and the replay writes of
every set are queued. -/
def execJournalWalkEnd (s : State) : Host.Outcome State Fault Refusal :=
  if s.gcs.phase ≠ .recovery ∨ s.log.walked then .next s
  else
    let s := s.withLog { s.log with walked := true }
    let s := s.startTimer
    let s := (List.range 64).foldl (fun s i => s.startReplay i) s
    .next s.evalLog.returnSets

/-- Whether a row of a set has more unavailable fragments than the code tolerates (R141). -/
def State.rowShort (s : State) (set : BitVec 6) (stripe : Nat) : Bool :=
  let p := s.setProfile (s.set set.toNat)
  decide (p.tol < (p.frags.filter (fun f => s.fragOut set ((s.set set.toNat).revFor stripe) stripe f)).length)

/-- Whether a port will not take a replay write that waits for it: nothing trains there. -/
def State.replaySkips (s : State) (p : Byte) : Bool :=
  match (s.port p).state with
  | .training | .resetting | .ready | .recovery => false
  | _ => true

/-- The replay writes of a set that wait for a drive that is not there count as done, their extents marked (R132, R341, R503). -/
def State.skipReplay (s : State) (set : BitVec 6) : State :=
  let l := s.dcmds.filter (fun d => d.purpose = .replay && d.set = set && !d.issued && s.replaySkips d.port)
  let s := s.withDcmds (s.dcmds.filter (fun d => !(d.purpose = .replay && d.set = set && !d.issued && s.replaySkips d.port)))
  l.foldl (fun s d => s.modPort d.port (fun v => { v with catchupMap := withElem v.catchupMap (d.stripe / 1024) })) s

/-- Whether a COMMIT record covers a sector of a DATA record: a live one of its row with at least its version. -/
def coveredBy (cs : List Rec) (r : Rec) (row : Nat) : Bool :=
  cs.any (fun c => decide (c.stripe = r.stripe) && decide (c.rowFirst ≤ row) && decide (row < c.rowFirst + c.rowCount) &&
    !verLt c.ver r.ver)

/-- One uncovered sector restored as a DIRTY line (R141): in the Stripe Cache, else in the victim tier, else without a line. -/
def State.restoreSector (s : State) (r : Rec) (f row : Nat) : State :=
  let k := s.keyOf r.set r.stripe f row
  let fl : SealFlags := SealFlags.plain r.zero r.holdover
  let x := sealFor (s.placeOf r.set r.stripe f row) ((s.set r.set.toNat).revFor r.stripe).rev fl r.ver 0 (r.sectorAt f row)
  match (s.dropKey k).allocate k (s.classMask .hostWrite) with
  | (s, some i) => s.putLine i k .dirty x.data x.sl 0 false none
  | (s, none) =>
    match s.offerTier { Line.at0 with state := .dirty, key := k, data := x.data, sl := x.sl } with
    | (s, true) => s
    | (s, false) => s.withScc { s.scc with noLine := withElem s.scc.noLine k }

/-- The uncovered sectors of a DATA record restored, in ascending version over the set so that the newest line stands. -/
def State.restoreRec (s : State) (cs : List Rec) (r : Rec) : State :=
  let rows := ((List.range r.rowCount).map (r.rowFirst + ·)).filter (fun row => !coveredBy cs r row)
  let s := s.modRec r.seq (fun q => { q with names := rows })
  rows.foldl (fun s row => (bitList 64 r.fragMask.toNat).foldl (fun s f => s.restoreSector r f row) s) s

/-- The end of a successful replay (R141): lines restored, intents on the resync list, what was written retired. -/
def State.replayDone (s : State) (id : Nat) : State :=
  let cs := s.liveRecs id .commit
  let ds := s.liveRecs id .data
  let is := s.liveRecs id .intent
  let written := ds.filter (fun r => ((List.range r.rowCount).map (r.rowFirst + ·)).all (coveredBy cs r))
  let s := (byVersion (ds.filter (fun r => !(written.any (fun q => q.seq = r.seq))))).foldl (fun s r => s.restoreRec cs r) s
  let s := s.modSet id (fun a => { a with
    replayed := true,
    resync := is.map (fun r => { seq := r.seq, stripe := r.stripe, count := max 1 r.stripeCount, rowsDone := [], watch := r.watch,
                                 generation := r.generation }) })
  let gone := (cs ++ written).map (fun r => r.seq)
  s.appendRetires gone.length gone

/-- The rows of sectors without a line are stripe-committed as soon as the set may read drives (R141, R302). -/
def State.commitNoLine (s : State) (id : Nat) : State :=
  (s.scc.noLine.filter (fun k => k.set.toNat = id)).foldl (fun s k => s.stripeCommit k.set k.stripe k.row 1) s

end Sys2Proof.Machine
end

