-- ==== Sys2Proof/Machine/Interp.lean ====
section
/-! DEFINITION. The Command Interpreter (spec/08_command_packets.md R240 to R250): the table of commands, which packet a source
serves, the checks every command shares, buffers, and deferred commands. -/

namespace Sys2Proof.Machine

/-! ## The table of commands (R249, R253 to R260) -/

/-- What the tables say of a command: its opcode, P, D, whether it changes persistent state (R250), and the PARAMS bytes it
defines, every other one being zero (R240). -/
structure CmdInfo where
  op : Nat
  priv : Bool
  deferred : Bool
  persistent : Bool
  params : List (Nat × Nat)
deriving DecidableEq, Repr

/-- A row of the command table. -/
def cmdRow (op : Nat) (priv deferred persistent : Bool) (params : List (Nat × Nat)) : CmdInfo :=
  { op := op, priv := priv, deferred := deferred, persistent := persistent, params := params }

/-- The SET and PROFILE commands (R253, R254). -/
def cmdTableA : List CmdInfo :=
  [cmdRow 0x0101 true false true [(0x10, 1), (0x14, 8), (0x20, 6), (0x30, 32)],
   cmdRow 0x0102 true false true [(0x10, 4), (0x14, 8), (0x20, 6), (0x30, 80)],
   cmdRow 0x0103 true false true [(0x10, 1)],
   cmdRow 0x0104 true false true [(0x10, 1)],
   cmdRow 0x0105 true false true [(0x10, 2)],
   cmdRow 0x0106 true true true [(0x10, 1)],
   cmdRow 0x0107 false false false [(0x10, 2)],
   cmdRow 0x0108 true true false [(0x10, 1), (0x14, 2), (0x18, 6), (0x20, 16)],
   cmdRow 0x0201 true false true [(0x10, 5)],
   cmdRow 0x0202 true false true [(0x10, 1)],
   cmdRow 0x0203 false false false [(0x10, 1)]]

/-- The CHART and PORT commands (R254, R255). -/
def cmdTableB : List CmdInfo :=
  [cmdRow 0x0301 true false true [(0x10, 1), (0x12, 2), (0x20, 16)],
   cmdRow 0x0302 true false true [(0x10, 3), (0x14, 8), (0x20, 16)],
   cmdRow 0x0303 true false true [(0x10, 2)],
   cmdRow 0x0304 true false true [(0x10, 3)],
   cmdRow 0x0305 false false false [(0x10, 3), (0x18, 6)],
   cmdRow 0x0401 false false false [(0x10, 1)],
   cmdRow 0x0402 true false true [(0x10, 3)],
   cmdRow 0x0403 true false true [(0x10, 1)],
   cmdRow 0x0404 true false false [(0x10, 1)],
   cmdRow 0x0405 true true false [(0x10, 1)],
   cmdRow 0x0406 true true false [(0x10, 1), (0x20, 16), (0x40, 64)],
   cmdRow 0x0407 true true true [(0x10, 3), (0x14, 4)]]

/-- The LOG, WATCH and CACHE commands (R257). -/
def cmdTableC : List CmdInfo :=
  [cmdRow 0x0501 false false false [(0x10, 1)],
   cmdRow 0x0601 true true false [(0x18, 8)],
   cmdRow 0x0602 true false true [(0x14, 4)],
   cmdRow 0x0603 false false false [],
   cmdRow 0x0701 false true false [(0x10, 1), (0x18, 6), (0x20, 6)],
   cmdRow 0x0702 false true false [(0x10, 1), (0x18, 6), (0x20, 6)],
   cmdRow 0x0703 true true true [(0x10, 1), (0x18, 6), (0x20, 6)],
   cmdRow 0x0704 true false false [(0x10, 13)],
   cmdRow 0x0705 true false true [(0x10, 3), (0x17, 7), (0x20, 6)],
   cmdRow 0x0706 false false false [(0x10, 2)]]

/-- The FAULT, CAL, LIFE, PAIR, FW and DIAG commands (R259, R260). -/
def cmdTableD : List CmdInfo :=
  [cmdRow 0x0801 false false false [(0x10, 1)],
   cmdRow 0x0802 true false false [(0x18, 8)],
   cmdRow 0x0803 true false false [(0x10, 2)],
   cmdRow 0x0804 true false true [(0x10, 5), (0x18, 16), (0x30, 16)],
   cmdRow 0x0901 true true true [(0x10, 1)],
   cmdRow 0x0902 false false false [(0x10, 1)],
   cmdRow 0x0A01 false false false [(0x20, 16)],
   cmdRow 0x0A02 true false true [],
   cmdRow 0x0B01 true true true [(0x10, 1)],
   cmdRow 0x0B02 true true true [],
   cmdRow 0x0B03 false false false [],
   cmdRow 0x0C01 true false true [(0x14, 8), (0x20, 16)],
   cmdRow 0x0C02 true true true [(0x10, 1)],
   cmdRow 0x0C03 false false false [],
   cmdRow 0x0D01 true false false [(0x10, 3)],
   cmdRow 0x0D02 false false false [(0x10, 112)]]

/-- The command of an opcode, none where the opcode is undefined. -/
def cmdInfo (op : Nat) : Option CmdInfo := (cmdTableA ++ cmdTableB ++ cmdTableC ++ cmdTableD).find? (fun c => c.op = op)

/-- Whether an offset lies in one of the listed fields. -/
def inFields (fs : List (Nat × Nat)) (i : Nat) : Bool := fs.any (fun f => decide (f.1 ≤ i) && decide (i < f.1 + f.2))

/-- The offset of the first byte at fault among the fields marked zero (R240, R242). -/
def zeroFault (fs : List (Nat × Nat)) (pkt : Bytes) : Option Nat :=
  if 2 ≤ (byteAt pkt 2).toNat then some 2
  else ((List.range 5).map (3 + ·) ++ ((List.range 112).map (0x10 + ·)).filter (fun i => !inFields fs i)).find?
    (fun i => byteAt pkt i ≠ 0)

/-! ## Sources (R246, R247, R248) -/

/-- Whether a command may be served in the phase in force: none in BOOT, only chain frames in ROM recovery (R458, R475). -/
def State.serving (s : State) (src : CmdSrc) : Bool :=
  s.gcs.pwrgd && decide (s.gcs.phase ≠ .boot) && (decide (s.gcs.phase ≠ .romRecovery) || decide (src = .chain))

/-- The packet that a source would start next: none while it is occupied, while the management processor restarts, while an
immediate command waits for its buffer, or, on a ring, while the controller is halted (R246, R247, R261). -/
def State.frontPacket (s : State) (src : CmdSrc) : Option Bytes :=
  if !s.serving src ∨ src ∈ s.interp.busy ∨ s.interp.fwRestart.isSome ∨ (s.gcs.halted ∧ src ≠ .chain) ∨
      s.interp.bufs.any (fun b => (cmdInfo (opcodeOf b.packet)).any (fun c => !c.deferred)) then none
  else (s.srcQueue src).head?

/-- Key kinds of R248: set 0, port 1, group 2, bank 3, slot 4. -/
def portKeys (p : Nat) : List (Nat × Nat) := [(1, p), (2, p / 16)]

/-- The keys that a packet names (R248). -/
def State.keysOf (s : State) (pkt : Bytes) : List (Nat × Nat) :=
  let v := (byteAt pkt 0x10).toNat
  let op := opcodeOf pkt
  if op / 256 = 1 ∨ op = 0x0305 ∨ op = 0x0501 ∨ op = 0x0701 ∨ op = 0x0702 ∨ op = 0x0703 ∨ op = 0x0705 ∨ op = 0x0706 then [(0, v)]
  else if op = 0x0304 then (0, v) :: portKeys (byteAt pkt 0x12).toNat
  else if op / 256 = 3 then [(4, v)]
  else if op = 0x0407 then [(2, v)]
  else if op / 256 = 4 then portKeys v
  else if op / 256 = 9 then (if v = 0xFF then s.presentBanks.map (fun b => (3, b.toNat)) else [(3, v)])
  else []

/-- The keys that running deferred commands hold, and the bank of a calibration run that no command started (R248, R259). -/
def State.heldKeys (s : State) : List (Nat × Nat) :=
  (s.interp.deferred.flatMap (fun d => d.keys)) ++ (match s.mon.run with
    | some c => if c.src.isNone then [(3, c.bank.toNat)] else []
    | none => [])

/-- The pair-wide commands (R397). -/
def pairWide (op : Nat) : Bool :=
  decide (op ∈ [0x0101, 0x0102, 0x0103, 0x0104, 0x0105, 0x0106, 0x0201, 0x0202, 0x0301, 0x0302, 0x0303, 0x0304, 0x0403, 0x0407,
    0x0602, 0x0705])

/-- Whether a command waits unchecked: a key it names is held, it is deferred and 8 run already (R248), or it is pair-wide and this
side of a pair does not hold the pair token (R397). -/
def State.mustWait (s : State) (c : CmdInfo) (pkt : Bytes) : Bool :=
  (s.keysOf pkt).any (fun k => k ∈ s.heldKeys) || (c.deferred && decide (8 ≤ s.interp.deferred.length)) ||
    (pairWide c.op && decide (s.pair.state = .paired) && !s.pair.token)

/-- A pair-wide change of the command from `old` on written to the partner's metadata area too (R397): a chart load or table write
changes something only once its buffer has been read and accepted. -/
def State.share (s old : State) (op : Nat) : State :=
  if pairWide op ∧ old.pair.state = .paired ∧ (s.cht ≠ old.cht ∨ op ≠ 0x0301 ∧ op ≠ 0x0302) then s.sendFlit 9 op [] else s

/-! ## Checks (R12, R242, R245, R246, R250, R475) -/

/-- The lowest offset among the fields at fault, the fields marked zero included (R243). -/
def firstField (zero : Option Nat) (bad : List (Bool × Nat)) : Option Nat :=
  (zero.toList ++ (bad.filter (fun b => b.1)).map (fun b => b.2)).foldl (fun m o => match m with
    | none => some o
    | some n => some (min n o)) none

/-- What ROM recovery serves: FW_DOWNLOAD, FW_COMMIT, FW_QUERY, DIAG_ECHO (R475). -/
def romServes (op : Nat) : Bool := decide (op / 256 = 0x0C) || decide (op = 0x0D02)

/-- The denials that every command shares: ROM recovery, the halt, privilege. -/
def State.denials (s : State) (src : CmdSrc) (c : CmdInfo) : List (Option (Byte × Byte)) :=
  [failIf (decide (s.gcs.phase = .romRecovery) && !romServes c.op) stDenied 3,
   failIf (s.gcs.halted && c.priv) stDenied 5,
   failIf (match src with
     | .ring r => c.priv && !s.ringPriv r
     | .chain => false) stDenied 1]

/-- The failure of a packet (R12): the first field at fault, then the command's own checks among the shared ones. -/
def State.verdict (s : State) (src : CmdSrc) (c : CmdInfo) (pkt : Bytes) (bad : List (Bool × Nat))
    (checks : List (Option (Byte × Byte))) : Option (Byte × Byte) :=
  reported ([(firstField (zeroFault c.params pkt) bad).map (fun o => (stBadField, BitVec.ofNat 8 o))] ++ s.denials src c ++
    checks ++ [failIf (c.persistent && s.inHold) stHeld 2])

/-- The reply of a failed check. R243 states no detail for ALIGNMENT (log entry 25). -/
def State.fail (s : State) (src : CmdSrc) (pkt : Bytes) (f : Byte × Byte) : State :=
  if f.1 = stAlignment then
    let (s, b) := s.freeByte
    s.reply src pkt f.1 b []
  else s.reply src pkt f.1 f.2 []

/-- A command row: the packet in front of its source is answered BAD_OPCODE when its opcode is undefined, waits when R248 says
so, and otherwise is checked and run; a packet of another command is left. -/
def State.serve (s : State) (src : CmdSrc) (op : Nat) (bad : Bytes → List (Bool × Nat))
    (checks : Bytes → List (Option (Byte × Byte))) (run : Bytes → State) : State :=
  match s.frontPacket src with
  | none => s
  | some pkt =>
    match cmdInfo (opcodeOf pkt) with
    | none => s.reply src pkt stBadOpcode 1 []
    | some c =>
      if c.op ≠ op ∨ s.mustWait c pkt then s
      else match s.verdict src c pkt (bad pkt) (checks pkt) with
        | some f => s.fail src pkt f
        | none => (run pkt).share s op

/-- A command of a family served (R247). -/
def serveCmd (s : State) (src : CmdSrc) (op : Nat) (bad : Bytes → List (Bool × Nat))
    (checks : Bytes → List (Option (Byte × Byte))) (run : Bytes → State) : Host.Outcome State Fault Refusal :=
  .next (s.serve src op bad checks run)

/-- A deferred command started: its source stays occupied and its keys are held until it replies (R248). -/
def State.startDeferred (s : State) (src : CmdSrc) (pkt : Bytes) : State × Deferred :=
  let d : Deferred := { src := src, packet := pkt, keys := s.keysOf pkt, waitWrites := [], count := 0, count2 := 0, walks := 0,
                        waits := [], blocks := [], lost := [] }
  (s.withInterp { s.interp with busy := withElem s.interp.busy src, deferred := s.interp.deferred ++ [d] }, d)

/-! ## Buffers (R244) -/

/-- The fields of a buffer descriptor at an offset that are at fault, `limit` being the command's own limit on LEN. -/
def bufFields (src : CmdSrc) (pkt : Bytes) (off limit : Nat) : List (Bool × Nat) :=
  let addr := leAt pkt off 8
  let len := leAt pkt (off + 8) 4
  let sp := (byteAt pkt (off + 0xC)).toNat
  [(decide (limit < len) || (decide (sp = 0) && decide (2 ^ 20 < len)) || (decide (sp = 1) && decide (65536 < addr + len)), off + 8),
   (decide (2 ≤ sp) || (decide (sp = 0) && decide (src = .chain)), off + 0xC),
   (decide (byteAt pkt (off + 0xD) ≠ 0), off + 0xD), (decide (byteAt pkt (off + 0xE) ≠ 0), off + 0xE),
   (decide (byteAt pkt (off + 0xF) ≠ 0), off + 0xF)]

/-- ALIGNMENT of a buffer's ADDR. -/
def bufAlign (pkt : Bytes) (off : Nat) : Option (Byte × Byte) := failIf (decide (leAt pkt off 8 % 64 ≠ 0)) stAlignment off

/-- LEN of a buffer descriptor. -/
def bufLen (pkt : Bytes) (off : Nat) : Nat := leAt pkt (off + 8) 4

/-- The offset of the buffer descriptor of a command. -/
def bufOff (op : Nat) : Nat := if op = 0x0804 then 0x30 else 0x20

/-- The read of a SPACE 0 buffer issued (R244, R285). -/
def State.issueBuffer (s : State) (src : CmdSrc) (pkt : Bytes) : State :=
  let off := bufOff (opcodeOf pkt)
  match src with
  | .chain => s
  | .ring c =>
    s.issueRead { port := s.ringPort (.cmd c), tag := 0, user := .buffer src, off := 0, len := bufLen pkt off, left := 0, dead := false }
      (leAt pkt off 8) (bufLen pkt off)

/-- Stage 2 of R244: the scratch buffer and an empty buffer are read at once; a host buffer is read through the ring's port, which
fails the command with CONTAINED when the port is frozen (R443). -/
def State.withBuffer (s : State) (src : CmdSrc) (pkt : Bytes) (run : State → Bytes → State) : State :=
  let off := bufOff (opcodeOf pkt)
  if (byteAt pkt (off + 0xC)).toNat = 1 then run s (Memory.readBytes s.interp.scratch (leAt pkt off 8) (bufLen pkt off))
  else if bufLen pkt off = 0 then run s []
  else match src with
    | .chain => s
    | .ring c =>
      if s.portSilent (s.ringPort (.cmd c)) then s.endCommand src pkt stContained 1 []
      else
        (s.withInterp { s.interp with busy := withElem s.interp.busy src,
                                      bufs := s.interp.bufs ++ [{ src := src, packet := pkt, retried := false }] }).issueBuffer src pkt

/-! ## Checks that several commands share -/

/-- SET_ID of a packet. -/
def setOf (pkt : Bytes) : Nat := (byteAt pkt 0x10).toNat

/-- SET_ID out of range (R251). -/
def setField (pkt : Bytes) : Bool × Nat := (decide (64 ≤ setOf pkt), 0x10)

/-- Whether a set is EMPTY: the checks that depend on its configuration are skipped (R35). -/
def State.isEmpty (s : State) (id : Nat) : Bool := decide ((s.set id).state = .empty)

/-- SET_STATE outside the listed states, its detail the state code (R35, R243). -/
def State.legalIn (s : State) (id : Nat) (l : List SetState) : Option (Byte × Byte) :=
  failIf (decide ((s.set id).state ∉ l)) stSetState (s.set id).state.code

/-- HELD while the set's replay has not completed (R39). -/
def State.replayHeld (s : State) (id : Nat) : Option (Byte × Byte) := failIf (s.set id).replaying stHeld 3

/-- The block space of a set (R30). -/
def State.setBlocks (s : State) (id : Nat) : Nat :=
  let a := s.set id
  a.stripeCount.toNat * (s.setProfile a).k * a.s

/-- The state code of the lowest-numbered non-EMPTY set that satisfies p, as SET_STATE. -/
def State.setsFree (s : State) (p : ArraySet → Bool) : Option (Byte × Byte) :=
  match (List.range 64).find? (fun i => decide ((s.set i).state ≠ .empty) && p (s.set i)) with
  | none => none
  | some i => some (stSetState, BitVec.ofNat 8 (s.set i).state.code)

end Sys2Proof.Machine
end

