-- ==== Sys2Proof/Machine/SetCmds.lean ====
section
/-! DEFINITION. The set commands and the profile commands (spec/02_codes_and_seals.md R29 to R44; spec/08_command_packets.md R251 to
R254; spec/04 R144; spec/03 R86). -/

namespace Sys2Proof.Machine

/-! ## The set attribute block (R251) -/

/-- The member ports that a MEMBERS bitmap names. -/
def membersOf (pkt : Bytes) : List Byte := (bitList 256 (leAt pkt 0x30 32)).map (BitVec.ofNat 8)

/-- The write policy of a POLICY field (R251). -/
def policyOf (v : Nat) : WritePolicy :=
  match v % 4 with
  | 0 => .journalAll
  | 1 => .journalPartial
  | 2 => .writeThrough
  | _ => .readOnly

/-- The code of a write policy. -/
def WritePolicy.code : WritePolicy → Nat
  | .journalAll => 0
  | .journalPartial => 1
  | .writeThrough => 2
  | .readOnly => 3

/-- Whether MEMBERS names a port that another non-EMPTY set holds, that is MERGED, or that holds a READY drive of another format
(R31, R32, R319). -/
def State.membersBad (s : State) (id : Nat) (ms : List Byte) : Bool :=
  ms.any (fun p => s.portPresent p && (decide ((s.port p).state = .merged) ||
    (match s.memberOf p with
      | some o => decide (o ≠ id)
      | none => false) || (decide ((s.port p).state = .ready) && !(s.port p).formatOk)))

/-- Whether MEMBERS names a port that the part lacks (R4). -/
def State.membersAbsent (s : State) (ms : List Byte) : Bool := ms.any (fun p => !s.portPresent p)

/-- The attributes at fault among those that the CHANGE bits select, each at its offset; a zero FRAG_LOG2 or DR_THRESH_US takes
its default in SET_CREATE. The checks on the set's configuration are skipped for an EMPTY set (R35). -/
def State.attrFaults (s : State) (pkt : Bytes) (change : Nat) (create skip : Bool) : List (Bool × Nat) :=
  let fl := (byteAt pkt 0x15).toNat
  let dr := leAt pkt 0x18 4
  [(bitOf change 1 && (decide (64 ≤ (byteAt pkt 0x14).toNat) ||
      (!skip && (s.profile (BitVec.ofNat 6 (byteAt pkt 0x14).toNat)).isNone)), 0x14),
   (bitOf change 2 && !((create && decide (fl = 0)) || (decide (12 ≤ fl) && decide (fl ≤ 20))), 0x15),
   (bitOf change 3 && decide (128 ≤ (byteAt pkt 0x16).toNat), 0x16),
   ((bitOf change 5 || bitOf change 6 || bitOf change 7) && decide (16 ≤ (byteAt pkt 0x17).toNat), 0x17),
   (bitOf change 8 && !((create && decide (dr = 0)) || (decide (5 ≤ dr) && decide (dr ≤ 10000))), 0x18),
   (bitOf change 4 && decide (leAt pkt 0x20 6 = 0), 0x20),
   (bitOf change 0 && !skip && s.membersBad (setOf pkt) (membersOf pkt), 0x30)]

/-- A set with the attributes that the CHANGE bits select taken from a block. -/
def ArraySet.withAttrs (a : ArraySet) (pkt : Bytes) (change : Nat) : ArraySet :=
  let fl := (byteAt pkt 0x15).toNat
  let dr := leAt pkt 0x18 4
  let pol := (byteAt pkt 0x17).toNat
  let a := if bitOf change 0 then { a with members := membersOf pkt } else a
  let a := if bitOf change 1 then { a with profile := BitVec.ofNat 6 (byteAt pkt 0x14).toNat } else a
  let a := if bitOf change 2 then { a with fragLog2 := (if fl = 0 then 16 else fl) - 12 } else a
  let a := if bitOf change 4 then { a with stripeCount := BitVec.ofNat 48 (leAt pkt 0x20 6) } else a
  let a := if bitOf change 5 then { a with writePolicy := policyOf pol } else a
  let a := if bitOf change 6 then { a with sealedAck := bitOf pol 2 } else a
  let a := if bitOf change 7 then { a with paritySeal := bitOf pol 3 } else a
  if bitOf change 8 then { a with drThreshUs := BitVec.ofNat 32 (if dr = 0 then 40 else dr) } else a

/-- The RESULT that repeats the request with INCARNATION and REV in place (R253). -/
def setEcho (pkt : Bytes) (a : ArraySet) : Bytes :=
  let r := sliceAt pkt 0x10 112
  r.take 0xC ++ leBytes 4 a.incarnation.toNat ++ sliceAt r 0x10 6 ++ leBytes 2 a.current.rev.toNat ++ r.drop 0x18

/-- SET_ID, INCARNATION and REV. -/
def setBrief (id : Nat) (a : ArraySet) : Bytes := resultOf [(0x10, 1, id), (0x1C, 4, a.incarnation.toNat), (0x26, 2, a.current.rev.toNat)]

/-- A new incarnation for a set ID: one more than the last one it held (R42). -/
def State.nextIncarnation (s : State) (id : Nat) : State × Word32 :=
  let n := (Tab.get s.incarnations 0 id + 1) % 2 ^ 32
  (s.withIncarnations (Tab.set s.incarnations 0 id n), BitVec.ofNat 32 n)

/-! ## SET_CREATE, SET_MODIFY -/

/-- A created set (R34, R42, R252). -/
def State.createSet (s : State) (src : CmdSrc) (pkt : Bytes) : State :=
  let id := setOf pkt
  let (s, inc) := s.nextIncarnation id
  let a := ({ ArraySet.at0 with
    state := .stopped, incarnation := inc, side := s.pair.side,
    current := { Revision.at0 with slot := BitVec.ofNat 7 (byteAt pkt 0x16).toNat } }).withAttrs pkt 0x1FF
  (s.setSet id a).reply src pkt stOk 0 (setEcho pkt a)

/-- SET_CREATE (R29, R31, R32, R34, R42, R251 to R253). -/
def execSetCreate (src : CmdSrc) (s : State) : Host.Outcome State Fault Refusal :=
  serveCmd s src 0x0101 (fun pkt => setField pkt :: s.attrFaults pkt 0x1FF true false)
    (fun pkt => [failIf (s.membersAbsent (membersOf pkt)) stNotPresent 0x30, s.legalIn (setOf pkt) [.empty]])
    (fun pkt => s.createSet src pkt)

/-- Every line of a set dropped from both tiers, its detectors freed (R315). -/
def State.dropLines (s : State) (id : Nat) : State :=
  (s.withScc (s.scc.invalidate (fun l => l.key.set.toNat = id))).freeDetectors id

/-- The base revision replaced (R86): REV + 1, the retire list kept. -/
def ArraySet.rebase (a : ArraySet) (f : Revision → Revision) : ArraySet :=
  let r := f a.current
  if r = a.current then a else { a with current := { r with rev := a.current.rev + 1 } }

/-- SET_MODIFY applied (R41, R42, R86, R182, R307). -/
def State.modifySet (s : State) (src : CmdSrc) (pkt : Bytes) : State :=
  let id := setOf pkt
  let m := leAt pkt 0x12 2
  let a := s.set id
  if (byteAt pkt 0x11).toNat = 1 then
    let a := a.rebase (fun r => { r with params := (bitList 8 m).foldl (fun t i =>
      Tab.set t 0 i (BitVec.ofNat 64 (leAt pkt (0x40 + 8 * i) 8))) r.params })
    (s.setSet id a).reply src pkt stOk 0 (setEcho pkt a)
  else
    let b := a.withAttrs pkt m
    let b := if bitOf m 3 then b.rebase (fun r => { r with slot := BitVec.ofNat 7 (byteAt pkt 0x16).toNat }) else b
    if b.profile ≠ a.profile ∨ b.fragLog2 ≠ a.fragLog2 then
      let (s, inc) := s.nextIncarnation id
      let b := { b with incarnation := inc, extents := [], regions := [], liveRegions := [], suspects := [], lostPosted := [] }
      ((s.setSet id b).dropLines id).reply src pkt stOk 0 (setEcho pkt b)
    else (s.setSet id b).reply src pkt stOk 0 (setEcho pkt b)

/-- The fields of SET_MODIFY at fault: FORM, CHANGE or PARAM_MASK, the selected attributes, the fields that its form leaves zero
(R251, R252). -/
def State.modifyFaults (s : State) (pkt : Bytes) : List (Bool × Nat) :=
  let form := (byteAt pkt 0x11).toNat
  let m := leAt pkt 0x12 2
  let zeros (lo n : Nat) : List (Bool × Nat) := match firstNonZero pkt lo n with
    | some o => [(true, o)]
    | none => []
  [setField pkt, (decide (2 ≤ form), 0x11)] ++
    (if form = 0 then (decide (m = 0) || decide (2 ^ 9 ≤ m), 0x12) :: (zeros 0x1C 4 ++ zeros 0x50 0x30 ++
        s.attrFaults pkt m false (s.isEmpty (setOf pkt)))
     else if form = 1 then (decide (m = 0) || decide (2 ^ 8 ≤ m), 0x12) :: zeros 0x14 0x2C
     else [])

/-- SET_MODIFY (R34, R41, R42, R86, R251, R252). -/
def execSetModify (src : CmdSrc) (s : State) : Host.Outcome State Fault Refusal :=
  serveCmd s src 0x0102 s.modifyFaults
    (fun pkt =>
      let a := s.set (setOf pkt)
      [failIf (decide ((byteAt pkt 0x11).toNat = 0) && bitOf (leAt pkt 0x12 2) 0 && decide (a.state ≠ .empty) &&
          s.membersAbsent (membersOf pkt)) stNotPresent 0x30,
       s.legalIn (setOf pkt) [.stopped],
       failIf (a.pending.isSome || a.queued.isSome) stSetState 1, s.replayHeld (setOf pkt)])
    (fun pkt => s.modifySet src pkt)

/-! ## SET_START, SET_STOP, SET_DELETE -/

/-- The configuration of a set that SET_START finds at fault, as offsets of the attribute block (R30, R32, R34, R253). -/
def State.startFaults (s : State) (id : Nat) : List (Bool × Nat) :=
  let a := s.set id
  if a.state ≠ .stopped ∧ a.state ≠ .draining then []
  else
    [((s.profile a.profile).isNone, 0x14),
     ((Tab.get s.cht.progs none a.current.slot.toNat).isNone, 0x16),
     (decide (2 ^ 48 ≤ s.setBlocks id), 0x20),
     (decide (a.members.length < (s.setProfile a).width) ||
       a.members.any (fun p => decide ((s.port p).state = .ready) && !(s.port p).formatOk), 0x30)]

/-- The set RUNNING: admission opens, the data plane sees the changes made while it was STOPPED (R14, R34), and in a pair this side
owns it from the next watch boundary on (R399, R400). -/
def State.startSet (s : State) (src : CmdSrc) (pkt : Bytes) : State :=
  let id := setOf pkt
  let a := s.set id
  let a := { a with
    state := .running, liveRegions := if a.state = .stopped then a.regions else a.liveRegions, side := s.pair.side,
    ownedFrom := if s.pair.state = .paired ∧ a.side ≠ s.pair.side then s.watch + 1 else a.ownedFrom }
  (s.setSet id a).reply src pkt stOk 0 (setBrief id a)

/-- SET_START (R34, R253, R400). -/
def execSetStart (src : CmdSrc) (s : State) : Host.Outcome State Fault Refusal :=
  serveCmd s src 0x0103 (fun pkt => setField pkt :: s.startFaults (setOf pkt))
    (fun pkt =>
      let a := s.set (setOf pkt)
      [s.legalIn (setOf pkt) [.stopped, .draining],
       failIf (decide (s.pair.state = .paired) && decide (a.side ≠ s.pair.side) && decide (a.state = .draining)) stSetState 3,
       s.replayHeld (setOf pkt)])
    (fun pkt => s.startSet src pkt)

/-- Stripe commits started for every row of a set that an unretired DATA record covers (R34, R131). -/
def State.commitSet (s : State) (id : Nat) : State :=
  (s.log.recs.filter (fun r => r.typ = .data && decide (r.set.toNat = id) && r.status = .committed && !r.retired)).foldl
    (fun s r => s.stripeCommit r.set r.stripe r.rowFirst r.rowCount) s

/-- A RUNNING set enters DRAINING (R34, R308, R315): its detectors are freed and its journaled data starts to drain. -/
def State.stopSet (s : State) (id : Nat) : State :=
  ((s.modSet id (fun a => { a with state := .draining })).freeDetectors id).commitSet id

/-- SET_STOP (R34, R253): the reply follows entry to DRAINING. -/
def execSetStop (src : CmdSrc) (s : State) : Host.Outcome State Fault Refusal :=
  serveCmd s src 0x0104 (fun pkt => [setField pkt]) (fun pkt => [s.legalIn (setOf pkt) [.running], s.replayHeld (setOf pkt)])
    (fun pkt => ((s.stopSet (setOf pkt)).reply src pkt stOk 0 (resultOf [(0x10, 1, setOf pkt)])).evalLog)

/-- A set becomes EMPTY: its lines are dropped, its regions go, its retained records are retired (R34, R144, R307, R315). -/
def State.deleteSet (s : State) (id : Nat) : State :=
  let gone := (s.log.recs.filter (fun r => decide (r.set.toNat = id) && !r.retired && r.status = .committed &&
    (r.typ = .data || r.typ = .commit || r.typ = .intent))).map (fun r => r.seq)
  (((s.setSet id ArraySet.at0).dropLines id).appendRetires gone.length gone).evalLog

/-- SET_DELETE (R34, R253): a PRESERVED set only with FORCE. -/
def execSetDelete (src : CmdSrc) (s : State) : Host.Outcome State Fault Refusal :=
  serveCmd s src 0x0105 (fun pkt => [setField pkt, (decide (2 ≤ (byteAt pkt 0x11).toNat), 0x11)])
    (fun pkt => [s.legalIn (setOf pkt) (if (byteAt pkt 0x11).toNat = 1 then [.stopped, .preserved] else [.stopped]),
                 s.replayHeld (setOf pkt)])
    (fun pkt => (s.deleteSet (setOf pkt)).reply src pkt stOk 0 (resultOf [(0x10, 1, setOf pkt)]))

/-- Whether a DRAINING set has drained (R34): no admitted descriptor, every record retired, no DIRTY line. -/
def State.drained (s : State) (id : Nat) : Bool :=
  decide ((s.set id).state = .draining) && !(s.set id).replaying && !s.ios.any (fun io => decide (io.set.toNat = id)) &&
    !s.log.recs.any (fun r => decide (r.set.toNat = id) && !r.retired && decide (r.status ≠ .abandoned) &&
      (r.typ = .data || r.typ = .commit || r.typ = .intent)) &&
    !s.scc.lines.any (fun e => decide (e.2.state = .dirty) && decide (e.2.key.set.toNat = id)) &&
    !s.scc.tier.any (fun e => decide (e.2.state = .dirty) && decide (e.2.key.set.toNat = id))

/-- SET_DRAIN_COMPLETE (R34, R110): the set is STOPPED, a SET_STATE record is posted, and an anchor is written when no set is left
RUNNING. -/
def execSetDrainComplete (set : BitVec 6) (s : State) : Host.Outcome State Fault Refusal :=
  let id := set.toNat
  if !s.drained id then .next s
  else
    let s := (s.modSet id (fun a => { a with state := .stopped })).post (setStateRecord id 1)
    .next (if s.sets.any (fun e => e.2.state = .running) then s else s.writeAnchor)

/-! ## SET_RECOVER (R144) -/

/-- SET_RECOVER started: the retained COMMIT records are replayed, the uncovered DATA rows stripe-committed, the intents put on the
resync list (R141, R142, R144). `count` and `count2` keep the records and the intents. -/
def State.startRecover (s : State) (src : CmdSrc) (pkt : Bytes) : State :=
  let id := setOf pkt
  let (s, d) := s.startDeferred src pkt
  let s := s.dropUnsealed id
  let data := s.liveRecs id .data
  let cs := s.liveRecs id .commit
  let is := s.liveRecs id .intent
  let s := s.setDeferred { d with count := data.length + cs.length, count2 := is.length }
  let s := (byVersion cs).foldl (fun s c =>
    ((List.range c.rowCount).map (c.rowFirst + ·)).foldl (fun s row => s.replayRow id data c row) s) s
  let s := s.modSet id (fun a => { a with
    resync := is.map (fun r => { seq := r.seq, stripe := r.stripe, count := max 1 r.stripeCount, rowsDone := [], watch := r.watch,
                                 generation := r.generation }), unresolved := [] })
  data.foldl (fun s r => ((List.range r.rowCount).map (r.rowFirst + ·)).foldl (fun s row =>
    if coveredBy cs r row then s else s.stripeCommit r.set r.stripe row 1) s) s

/-- SET_RECOVER (R34, R144, R253). -/
def execSetRecover (src : CmdSrc) (s : State) : Host.Outcome State Fault Refusal :=
  serveCmd s src 0x0106 (fun pkt => [setField pkt]) (fun pkt => [s.legalIn (setOf pkt) [.preserved], s.replayHeld (setOf pkt)])
    (fun pkt => s.startRecover src pkt)

/-- The replay, the stripe commits and the resync of SET_RECOVER have ended (R144): every record is retired, the set is STOPPED, and
the reply carries the records replayed and the intents resynced; with a row short of its tolerance, or a DATA row that could not be
committed, the set stays PRESERVED. -/
def State.finishRecover (s : State) (set : BitVec 6) (d : Deferred) : State :=
  let id := set.toNat
  let cs := s.liveRecs id .commit
  let ds := s.liveRecs id .data
  let open? (r : Rec) : Bool := ((List.range r.rowCount).map (r.rowFirst + ·)).any (fun row => !coveredBy cs r row)
  let busy := s.dcmds.any (fun c => decide (c.set = set) && !c.quarantined && (match c.purpose with
    | .replay | .stripeCommit _ | .resync => true
    | _ => false)) || s.commits.any (fun c => decide (c.set = set)) ||
      (s.set id).resync.any (fun r => decide (r.rowsDone.length < r.count * (s.set id).s))
  if busy then s
  else if ds.any open? ∨ cs.any (fun c => s.rowShort set c.stripe) then s.endRecovery id stMediaLost
  else
    let gone := (cs ++ ds).map (fun r => r.seq)
    let s := (s.appendRetires gone.length gone).dropLines id
    let s := s.modSet id (fun a => { a with state := .stopped })
    s.endDeferred d stOk 0 (resultOf [(0x10, 1, id), (0x18, 4, d.count), (0x1C, 4, d.count2)])

/-- SET_REPLAY_END (R39, R141, R144, R459): every replay write of a set in start-up recovery, or of SET_RECOVER, is done, or the
replay failed. Start-up replay waits for the Stripe Cache and the victim tier to be emptied and for outstanding replay writes. -/
def execSetReplayEnd (set : BitVec 6) (ok : Bool) (s : State) : Host.Outcome State Fault Refusal :=
  let id := set.toNat
  let a := s.set id
  match s.interp.deferred.find? (fun d => opcodeOf d.packet = 0x0106 ∧ (byteAt d.packet 0x10).toNat = id) with
  | some d => .next (if ok then (s.finishRecover set d).evalLog else s.endRecovery id stMediaLost)
  | none =>
    if s.gcs.phase ≠ .recovery ∨ !s.log.walked ∨ !a.replaying ∨ a.replayed ∨ s.inHold then .next s
    else if !ok then .next (s.replayFailed set).evalLog
    else
      let s := s.skipReplay set
      if s.dcmds.any (fun d => d.purpose = .replay && d.set = set && !d.quarantined) ∨ !s.scc.ready ∨ !s.scc.vtReady then .next s
      else if (s.liveRecs id .commit).any (fun c => s.rowShort set c.stripe) then .next (s.replayFailed set).evalLog
      else
        let s := (s.replayDone id).returnSets
        .next (if (s.set id).replaying then s else s.commitNoLine id).evalLog

/-! ## SET_QUERY, SET_READ_PRESERVED -/

/-- The attribute block of SET_QUERY with FORM 0 (R251). -/
def State.setAttrs (s : State) (id : Nat) : Bytes :=
  let a := s.set id
  if a.state = .empty then resultOf [(0x10, 1, id)]
  else
    let kept := decide (a.state = .preserved) && s.log.recs.any (fun r => decide (r.set.toNat = id) && !r.retired && r.status = .committed &&
      (r.typ = .data || r.typ = .commit || r.typ = .intent))
    resultOf [(0x10, 1, id), (0x12, 1, a.state.code),
      (0x13, 1, ofBool a.pending.isSome + 2 * ofBool a.queued.isSome + 4 * ofBool (!a.resync.isEmpty) + 8 * ofBool kept +
        16 * ofBool a.replaying),
      (0x14, 1, a.profile.toNat), (0x15, 1, a.fragLog2 + 12), (0x16, 1, a.current.slot.toNat),
      (0x17, 1, a.writePolicy.code + 4 * ofBool a.sealedAck + 8 * ofBool a.paritySeal), (0x18, 4, a.drThreshUs.toNat),
      (0x1C, 4, a.incarnation.toNat), (0x20, 6, a.stripeCount.toNat), (0x26, 2, a.current.rev.toNat),
      (0x28, 2, (a.pending.map (fun r => r.rev.toNat)).getD 0), (0x2A, 6, a.cursor.toNat),
      (0x30, 32, maskOf (a.members.map (fun p => p.toNat))),
      (0x50, 32, maskOf (a.current.retire.filterMap (fun e => e.2.map (fun p => p.toNat))))]

/-- The parameters of SET_QUERY with FORM 1 (R252). -/
def State.setParams (s : State) (id : Nat) : Bytes :=
  let a := s.set id
  if a.state = .empty then resultOf [(0x10, 1, id), (0x11, 1, 1)]
  else resultOf ([(0x10, 1, id), (0x11, 1, 1), (0x26, 2, a.current.rev.toNat),
      (0x28, 2, (a.pending.map (fun r => r.rev.toNat)).getD 0)] ++
    (List.range 8).map (fun i => (0x40 + 8 * i, 8, (Tab.get a.current.params 0 i).toNat)))

/-- SET_QUERY (R35, R251, R252). -/
def execSetQuery (src : CmdSrc) (s : State) : Host.Outcome State Fault Refusal :=
  serveCmd s src 0x0107 (fun pkt => [setField pkt, (decide (2 ≤ (byteAt pkt 0x11).toNat), 0x11)]) (fun _ => [])
    (fun pkt => s.reply src pkt stOk 0 (if (byteAt pkt 0x11).toNat = 0 then s.setAttrs (setOf pkt) else s.setParams (setOf pkt)))

/-- A block of SET_READ_PRESERVED: its newest retained record, otherwise its drive (R253). -/
def State.readPreserved (s : State) (src : CmdSrc) (set : BitVec 6) (b : Nat) : State :=
  match s.interp.deferred.find? (fun d => d.src = src) with
  | none => s
  | some d =>
    let id := set.toNat
    let a := s.set id
    let (st, f, row) := locate (s.setProfile a).k a.s b
    let newest := ((s.liveRecs id .data).filter (fun r => r.holds st f row)).foldl (fun (m : Option Rec) r => match m with
      | none => some r
      | some q => if verLt q.ver r.ver then some r else some q) none
    match newest with
    | some r => s.setDeferred { d with blocks := d.blocks ++ [(b, r.sectorAt f row)] }
    | none =>
      let (s, i) := s.requestRead .hostIo set (a.revFor st) st f row .preserved
      s.setDeferred { d with waits := d.waits ++ [(i, b)] }

/-- SET_READ_PRESERVED started. -/
def State.startReadPreserved (s : State) (src : CmdSrc) (pkt : Bytes) : State :=
  let s := (s.startDeferred src pkt).1
  let s := ((List.range (leAt pkt 0x14 2)).map (leAt pkt 0x18 6 + ·)).foldl (fun s b =>
    s.readPreserved src (BitVec.ofNat 6 (setOf pkt)) b) s
  match s.interp.deferred.find? (fun d => d.src = src) with
  | none => s
  | some d => if d.waits.isEmpty then s.deliverPreserved d else s

/-- SET_READ_PRESERVED (R35, R231, R253). -/
def execSetReadPreserved (src : CmdSrc) (s : State) : Host.Outcome State Fault Refusal :=
  serveCmd s src 0x0108
    (fun pkt => [setField pkt, (decide (leAt pkt 0x14 2 = 0) || decide (256 < leAt pkt 0x14 2), 0x14),
        (!s.isEmpty (setOf pkt) && decide (s.setBlocks (setOf pkt) < leAt pkt 0x18 6 + leAt pkt 0x14 2), 0x18),
        (decide (bufLen pkt 0x20 ≠ leAt pkt 0x14 2 * 4096), 0x28)] ++ bufFields src pkt 0x20 (2 ^ 20))
    (fun pkt => [bufAlign pkt 0x20, s.legalIn (setOf pkt) [.preserved], s.replayHeld (setOf pkt)])
    (fun pkt => s.startReadPreserved src pkt)

/-! ## Profiles (R43, R44, R254) -/

/-- The code type of a TYPE field. -/
def typeOf (v : Nat) : Option CodeType :=
  match v with
  | 0 => some .replica
  | 1 => some .xor
  | 2 => some .rs
  | 3 => some .lrc
  | _ => none

/-- The profile that a PROFILE_DEFINE packet describes. -/
def profileOf (pkt : Bytes) (t : CodeType) : Profile :=
  { typ := t, k := (byteAt pkt 0x12).toNat, par := (byteAt pkt 0x13).toNat, loc := (byteAt pkt 0x14).toNat }

/-- The fields of a profile that lie outside their own ranges (R44, R254). -/
def Profile.fieldFaults (p : Profile) : List (Bool × Nat) :=
  let out (v lo hi : Nat) : Bool := decide (v < lo) || decide (hi < v)
  match p.typ with
  | .replica => [(out p.k 1 1, 0x12), (out p.par 2 4, 0x13), (decide (p.loc ≠ 0), 0x14)]
  | .xor => [(out p.k 2 63, 0x12), (out p.par 1 1, 0x13), (decide (p.loc ≠ 0), 0x14)]
  | .rs => [(out p.k 2 48, 0x12), (out p.par 1 16, 0x13), (decide (p.loc ≠ 0), 0x14)]
  | .lrc => [(out p.k 4 48, 0x12), (out p.par 1 8, 0x13), (out p.loc 2 8, 0x14)]

/-- The combination rules of R44 in the order of R254: divisibility, then the width. -/
def Profile.comboFaults (p : Profile) : List (Option (Byte × Byte)) :=
  [failIf (decide (p.typ = .lrc) && (decide (p.k % p.loc ≠ 0) || decide (p.k / p.loc < 2))) stBadField 0x14,
   failIf (decide (64 < p.width)) stBadField 0x13]

/-- A profile ID defined, or its profile deleted: every entry of that ID leaves the decode-matrix caches of both clusters
(R55). -/
def State.putProfile (s : State) (id : Nat) (p : Option Profile) : State :=
  (s.withProfiles (Tab.set s.profiles none id p)).withClusters (Tab.mapV s.clusters Cluster.at0 (fun _ v =>
    { v with cache := v.cache.filter (fun e => decide (e.1.toNat ≠ id)) }))

/-- PROFILE_DEFINE (R43, R44, R254). -/
def execProfileDefine (src : CmdSrc) (s : State) : Host.Outcome State Fault Refusal :=
  serveCmd s src 0x0201
    (fun pkt => (decide (64 ≤ setOf pkt), 0x10) :: (match typeOf (byteAt pkt 0x11).toNat with
      | none => [(true, 0x11)]
      | some t => (profileOf pkt t).fieldFaults))
    (fun pkt => (match typeOf (byteAt pkt 0x11).toNat with
        | none => []
        | some t => (profileOf pkt t).comboFaults) ++ [s.setsFree (fun a => decide (a.profile.toNat = setOf pkt))])
    (fun pkt =>
      let p := (typeOf (byteAt pkt 0x11).toNat).map (profileOf pkt)
      (s.putProfile (setOf pkt) p).reply src pkt stOk 0 (resultOf [(0x10, 1, setOf pkt)]))

/-- PROFILE_DELETE (R43, R254). -/
def execProfileDelete (src : CmdSrc) (s : State) : Host.Outcome State Fault Refusal :=
  serveCmd s src 0x0202 (fun pkt => [(decide (64 ≤ setOf pkt), 0x10)])
    (fun pkt => [s.setsFree (fun a => decide (a.profile.toNat = setOf pkt))])
    (fun pkt => (s.putProfile (setOf pkt) none).reply src pkt stOk 0 (resultOf [(0x10, 1, setOf pkt)]))

/-- The sets that name a profile, as the USERS mask. -/
def State.profileUsers (s : State) (id : Nat) : Nat :=
  maskOf ((List.range 64).filter (fun i => decide ((s.set i).state ≠ .empty) && decide ((s.set i).profile.toNat = id)))

/-- PROFILE_QUERY (R254). -/
def execProfileQuery (src : CmdSrc) (s : State) : Host.Outcome State Fault Refusal :=
  serveCmd s src 0x0203 (fun pkt => [(decide (64 ≤ setOf pkt), 0x10)]) (fun _ => [])
    (fun pkt => s.reply src pkt stOk 0 (match s.profile (BitVec.ofNat 6 (setOf pkt)) with
      | none => resultOf [(0x10, 1, setOf pkt), (0x18, 8, s.profileUsers (setOf pkt))]
      | some p => resultOf [(0x10, 1, setOf pkt), (0x11, 1, p.typ.code), (0x12, 1, p.k), (0x13, 1, p.par), (0x14, 1, p.loc),
          (0x15, 1, p.width), (0x16, 1, p.tol), (0x17, 1, 1), (0x18, 8, s.profileUsers (setOf pkt))]))

end Sys2Proof.Machine
end

