-- ==== Sys2Proof/Machine/ChartCmds.lean ====
section
/-! DEFINITION. The chart commands (spec/03_charts_and_siette.md R76 to R86, R95 to R97; spec/08_command_packets.md R254). -/

namespace Sys2Proof.Machine

/-! ## The chart store (R76 to R78) -/

/-- The bytes that programs and tables take in the chart store: 1 KiB a program (R77). -/
def State.storeBytes (s : State) : Nat :=
  (s.cht.progs.filter (fun e => e.2.isSome)).length * 1024 +
    (s.cht.tables.map (fun e => match e.2 with
      | some t => t.size
      | none => 0)).foldl (· + ·) 0

/-- CHT.STORE_USED: the store in use in KiB, rounded up (log entry 30). -/
def State.storeUsed (s : State) : Nat := (s.storeBytes + 1023) / 1024

/-- Whether n further bytes would overflow the chart store (R77). -/
def State.storeOver (s : State) (n : Nat) : Bool := decide (Config.chartStoreKib s.part * 1024 < s.storeBytes + n)

/-- SLOT of a chart packet. -/
def slotOf (pkt : Bytes) : Nat := (byteAt pkt 0x10).toNat

/-- SLOT out of range (R76). -/
def slotField (pkt : Bytes) : Bool × Nat := (decide (128 ≤ slotOf pkt), 0x10)

/-- SET_STATE while a non-EMPTY set has a live or queued revision that names the slot (R78). -/
def State.slotFree (s : State) (pkt : Bytes) : Option (Byte × Byte) :=
  s.setsFree (fun a => a.revisions.any (fun r => decide (r.slot.toNat = slotOf pkt)))

/-! ## CHART_LOAD (R77 to R79) -/

/-- COUNT of CHART_LOAD. -/
def loadCount (pkt : Bytes) : Nat := leAt pkt 0x12 2

/-- The instructions of a buffer. -/
def codeOf (n : Nat) (data : Bytes) : List Word32 := (List.range n).map (fun i => BitVec.ofNat 32 (leAt data (4 * i) 4))

/-- The program in the buffer verified and stored (R79). -/
def State.loadChart (s : State) (src : CmdSrc) (pkt data : Bytes) : State :=
  let code := codeOf (loadCount pkt) data
  match verifyProgram chartInsOk code with
  | some i => s.reply src pkt stBadField (BitVec.ofNat 8 i) []
  | none =>
    let s := s.withCht { s.cht with progs := Tab.set s.cht.progs none (slotOf pkt) (some code) }
    s.reply src pkt stOk 0 (resultOf [(0x10, 1, slotOf pkt), (0x14, 4, s.storeUsed)])

/-- CHART_LOAD (R76 to R79, R254). -/
def execChartLoad (src : CmdSrc) (s : State) : Host.Outcome State Fault Refusal :=
  serveCmd s src 0x0301
    (fun pkt => [slotField pkt, (decide (loadCount pkt = 0) || decide (256 < loadCount pkt), 0x12),
        (decide (bufLen pkt 0x20 < 4 * loadCount pkt), 0x28)] ++ bufFields src pkt 0x20 (2 ^ 20))
    (fun pkt => [bufAlign pkt 0x20, s.slotFree pkt,
        failIf ((Tab.get s.cht.progs none (slotOf pkt)).isNone && s.storeOver 1024) stNoResource 0x12])
    (fun pkt => s.withBuffer src pkt (fun s data => s.loadChart src pkt data))

/-! ## CHART_TABLE_WRITE (R76, R77, R80, R93) -/

/-- The key of the table that a packet names. -/
def tableKey (pkt : Bytes) : Nat := 4 * slotOf pkt + (byteAt pkt 0x11).toNat

/-- The table that a packet names. -/
def State.tableOf (s : State) (pkt : Bytes) : Option STable := Tab.get s.cht.tables none (tableKey pkt)

/-- The fields of CHART_TABLE_WRITE at fault (R76, R254). -/
def State.tableFaults (s : State) (src : CmdSrc) (pkt : Bytes) : List (Bool × Nat) :=
  let size := leAt pkt 0x14 4
  let off := leAt pkt 0x18 4
  let len := bufLen pkt 0x20
  [slotField pkt, (decide (4 ≤ (byteAt pkt 0x11).toNat), 0x11),
   (decide (4 ≤ (byteAt pkt 0x12).toNat) || (match s.tableOf pkt with
      | some t => decide (t.width.toNat ≠ (byteAt pkt 0x12).toNat)
      | none => false), 0x12),
   (decide (size % 64 ≠ 0) || decide (size < 64) || decide (2 ^ 22 < size) || (match s.tableOf pkt with
      | some t => decide (t.size ≠ size)
      | none => false), 0x14),
   (decide (off % 64 ≠ 0) || decide (size < off + len), 0x18), (decide (len % 64 ≠ 0), 0x20)] ++ bufFields src pkt 0x20 (2 ^ 20)

/-- The bytes written, a new table created zero-filled; its cached lines are invalidated (R80). -/
def State.writeTable (s : State) (src : CmdSrc) (pkt data : Bytes) : State :=
  let k := tableKey pkt
  let t := (s.tableOf pkt).getD { width := BitVec.ofNat 2 (byteAt pkt 0x12).toNat, size := leAt pkt 0x14 4, bytes := [] }
  let t := { t with bytes := Memory.writeBytes t.bytes (leAt pkt 0x18 4) (data.take (bufLen pkt 0x20)) }
  let s := s.withCht { s.cht with tables := Tab.set s.cht.tables none k (some t),
                                  cached := s.cht.cached.filter (fun l => l.1 ≠ k) }
  s.reply src pkt stOk 0 (resultOf [(0x10, 1, slotOf pkt), (0x14, 4, s.storeUsed)])

/-- CHART_TABLE_WRITE (R76 to R78, R80, R254). -/
def execChartTableWrite (src : CmdSrc) (s : State) : Host.Outcome State Fault Refusal :=
  serveCmd s src 0x0302 (s.tableFaults src)
    (fun pkt => [bufAlign pkt 0x20, s.slotFree pkt,
        failIf ((s.tableOf pkt).isNone && s.storeOver (leAt pkt 0x14 4)) stNoResource 0x14])
    (fun pkt => s.withBuffer src pkt (fun s data => s.writeTable src pkt data))

/-! ## CHART_DELETE -/

/-- The selected program and tables removed. -/
def State.deleteChart (s : State) (src : CmdSrc) (pkt : Bytes) : State :=
  let m := (byteAt pkt 0x11).toNat
  let slot := slotOf pkt
  let gone := (List.range 4).filter (fun t => bitOf m (t + 1))
  let progs := if bitOf m 0 then Tab.set s.cht.progs none slot none else s.cht.progs
  let s := s.withCht { s.cht with
    progs := progs, tables := gone.foldl (fun ts t => Tab.set ts none (4 * slot + t) none) s.cht.tables,
    cached := s.cht.cached.filter (fun l => !gone.any (fun t => decide (l.1 = 4 * slot + t))) }
  s.reply src pkt stOk 0 (resultOf [(0x10, 1, slot)])

/-- CHART_DELETE (R78, R254). -/
def execChartDelete (src : CmdSrc) (s : State) : Host.Outcome State Fault Refusal :=
  serveCmd s src 0x0303
    (fun pkt => [slotField pkt, (decide ((byteAt pkt 0x11).toNat = 0) || decide (32 ≤ (byteAt pkt 0x11).toNat), 0x11)])
    (fun pkt => [s.slotFree pkt]) (fun pkt => s.deleteChart src pkt)

/-! ## CHART_REVISE (R84, R85, R336) -/

/-- The outcome of CHART_REVISE on a set: the amended set, or the failure of R84 and R336. -/
def State.tryRevise (s : State) (pkt : Bytes) : Except (Byte × Byte) ArraySet :=
  let p := byteAt pkt 0x12
  let restore := decide ((byteAt pkt 0x11).toNat = 1)
  if restore && !(decide ((s.port p).state = .ready) && (s.port p).formatOk) then .error (stBadField, 0x12)
  else match (s.set (setOf pkt)).revise p restore with
    | .ok a => .ok a
    | .error .badPort => .error (stBadField, 0x12)
    | .error .noEntry => .error (stNoResource, 0x12)

/-- The failures of CHART_REVISE that are BAD_FIELD. -/
def State.reviseFields (s : State) (pkt : Bytes) : List (Bool × Nat) :=
  [setField pkt, (decide (2 ≤ (byteAt pkt 0x11).toNat), 0x11),
   (!s.isEmpty (setOf pkt) && decide (s.tryRevise pkt = .error (stBadField, 0x12)), 0x12)]

/-- The revision that CHART_REVISE amended, after it: the queued one, otherwise the pending one. -/
def ArraySet.amended (a : ArraySet) : Revision := a.queued.getD (a.pending.getD a.current)

/-- The amended set stored; a restored port's FAILED flag clears in the same step (R336). -/
def State.reviseSet (s : State) (src : CmdSrc) (pkt : Bytes) : State :=
  let id := setOf pkt
  let p := byteAt pkt 0x12
  match s.tryRevise pkt with
  | .error _ => s
  | .ok a =>
    let was := (s.set id).amendBase.ordinal p
    let which := if (s.set id).pending.isNone then 1 else 2
    let ord := (a.amended.ordinal p).getD (was.getD 0)
    let s := s.setSet id a
    let s := if (byteAt pkt 0x11).toNat = 1 then s.modPort p (fun v => { v with failed := false }) else s
    s.reply src pkt stOk 0 (resultOf [(0x14, 2, a.amended.rev.toNat), (0x16, 1, which), (0x17, 1, ord)])

/-- CHART_REVISE (R84, R85, R254, R336). -/
def execChartRevise (src : CmdSrc) (s : State) : Host.Outcome State Fault Refusal :=
  serveCmd s src 0x0304 s.reviseFields
    (fun pkt => [failIf (!s.portPresent (byteAt pkt 0x12)) stNotPresent 0x12,
        s.legalIn (setOf pkt) [.stopped, .running, .draining], s.replayHeld (setOf pkt),
        failIf (decide (s.tryRevise pkt = .error (stNoResource, 0x12))) stNoResource 0x12])
    (fun pkt => s.reviseSet src pkt)

/-! ## CHART_LOOKUP (R97) -/

/-- The revision that a diagnostic lookup uses: current, pending, or as the durable cursor selects (R83, R254). -/
def diagRev (a : ArraySet) (which stripe : Nat) : Revision :=
  match which with
  | 0 => a.current
  | 1 => a.pending.getD a.current
  | _ => a.revFor stripe

/-- The diagnostic lookup run, with its misses, and its outcome replied (R95, R97). -/
def State.diagLookup (s : State) (src : CmdSrc) (pkt : Bytes) : State :=
  let id := BitVec.ofNat 6 (setOf pkt)
  let a := s.set id.toNat
  let stripe := leAt pkt 0x18 6
  let rev := diagRev a (byteAt pkt 0x11).toNat stripe
  let req := lookupReq id rev stripe (byteAt pkt 0x12).toNat .hostIo
  let s := s.count64 Reg.chtLookups 1
  match s.slotProg rev.slot.toNat with
  | none => (s.chartFault req 9 0 0 true).reply src pkt stBadField 9 (resultOf [(0x28, 2, rev.rev.toNat)])
  | some prog =>
    let pt := s.chartPtest a rev
    let (cache, misses) := runLines pt rev.slot.toNat 256 (s.lookupCtx req prog) s.cht.cached 0
    let c := (s.lookupCtx req prog).run pt 256
    let s := (s.withCht { s.cht with cached := cache }).count64 Reg.chtMisses misses
    match s.ctxBearing req c with
    | .failed d code pc =>
      (s.chartFault req d code pc true).reply src pkt stBadField d (resultOf [(0x16, 2, c.steps), (0x28, 2, rev.rev.toNat)])
    | .at p dba =>
      s.reply src pkt stOk 0 (resultOf [(0x14, 1, p.toNat), (0x16, 2, c.steps), (0x20, 8, dba), (0x28, 2, rev.rev.toNat)])

/-- CHART_LOOKUP (R35, R97, R254). -/
def execChartLookup (src : CmdSrc) (s : State) : Host.Outcome State Fault Refusal :=
  serveCmd s src 0x0305
    (fun pkt =>
      let a := s.set (setOf pkt)
      let which := (byteAt pkt 0x11).toNat
      let live := !s.isEmpty (setOf pkt)
      [setField pkt, (decide (3 ≤ which) || (live && decide (which = 1) && a.pending.isNone), 0x11),
       (live && decide ((s.setProfile a).width ≤ (byteAt pkt 0x12).toNat), 0x12),
       (live && decide (a.stripeCount.toNat ≤ leAt pkt 0x18 6), 0x18)])
    (fun pkt => [s.legalIn (setOf pkt) [.stopped, .running, .draining, .preserved]])
    (fun pkt => s.diagLookup src pkt)

end Sys2Proof.Machine
end

