-- ==== Sys2Proof/Machine/PortCmds.lean ====
section
/-! DEFINITION. The port and group commands (spec/08_command_packets.md R255, R256; spec/11_drive_ports.md R318 to R320, R335 to
R342). -/

namespace Sys2Proof.Machine

/-- PORT of a packet. -/
def portOf (pkt : Bytes) : Byte := byteAt pkt 0x10

/-- NOT_PRESENT for a port that the part lacks (R255). -/
def State.portAbsent (s : State) (pkt : Bytes) : Option (Byte × Byte) := failIf (!s.portPresent (portOf pkt)) stNotPresent 0x10

/-- A MERGED port named by a command that needs a drive (R319). -/
def State.mergedField (s : State) (pkt : Bytes) : Bool × Nat := (decide ((s.port (portOf pkt)).state = .merged), 0x10)

/-- The state code of the set of a port that satisfies p, as SET_STATE. -/
def State.portSet (s : State) (port : Byte) (p : SetState → Bool) : Option (Byte × Byte) :=
  match s.memberOf port with
  | none => none
  | some id => failIf (p (s.set id).state) stSetState (s.set id).state.code

/-! ## PORT_QUERY, PORT_FAIL, PORT_RELEASE -/

/-- The RESULT of PORT_QUERY (R255, R344). -/
def State.portResult (s : State) (p : Byte) : Bytes :=
  let v := s.port p
  let retired := match s.memberOf p with
    | none => false
    | some id => ((s.set id).current.ordinal p).isSome
  resultOf [(0x10, 1, p.toNat), (0x11, 1, (s.memberOf p).getD 0xFF),
    (0x12, 1, ofBool v.failed + 2 * ofBool retired + 4 * ofBool v.formatOk + 8 * ofBool v.dual),
    (0x18, 8, (s.liveWord p).toNat), (0x20, 8, v.nsze)]

/-- PORT_QUERY (R255). -/
def execPortQuery (src : CmdSrc) (s : State) : Host.Outcome State Fault Refusal :=
  serveCmd s src 0x0401 (fun _ => []) (fun pkt => [s.portAbsent pkt]) (fun pkt => s.reply src pkt stOk 0 (s.portResult (portOf pkt)))

/-- PORT_FAIL (R167, R255, R337): detail 0x16. -/
def execPortFail (src : CmdSrc) (s : State) : Host.Outcome State Fault Refusal :=
  serveCmd s src 0x0403 (fun pkt => [s.mergedField pkt]) (fun pkt => [s.portAbsent pkt])
    (fun pkt =>
      let p := portOf pkt
      ((s.failPort p 0x16 false).reply src pkt stOk 0
        (resultOf [(0x10, 1, p.toNat), (0x11, 1, ofBool (!(s.port p).failed))])).evalLog)

/-- PORT_RELEASE (R335): a CONTAINED or ERROR port is EMPTY. -/
def execPortRelease (src : CmdSrc) (s : State) : Host.Outcome State Fault Refusal :=
  serveCmd s src 0x0404 (fun _ => []) (fun pkt => [s.portAbsent pkt])
    (fun pkt =>
      let p := portOf pkt
      let st := (s.port p).state
      (if st = .contained ∨ st = .error then s.modPort p (fun v => v.leave .empty) else s).reply src pkt stOk 0
        (resultOf [(0x10, 1, p.toNat)]))

/-! ## PORT_CONFIG (R318 to R320) -/

/-- The four ports of a port's quad. -/
def quadPorts (p : Byte) : List Byte := (List.range 4).map (fun i => BitVec.ofNat 8 (p.toNat / 4 * 4 + i))

/-- Whether a port's lanes belong to a wider port when its quad has the form of a width (R318). -/
def mergedIn (p : Byte) (width : Nat) : Bool := decide (p.toNat % width ≠ 0)

/-- A port of a quad that takes a form: merged, split to EMPTY, or retrained when a drive stands there (R320, R323). -/
def State.reformPort (s : State) (p : Byte) (width : Nat) : State :=
  if mergedIn p width then
    if (s.port p).state = .merged then s
    else
      let s := (s.endCommands false (s.outstanding p)).freeQuarantine p
      s.modPort p (fun v => { v.leave .merged with width := 0, formatOk := false, resetSrc := none })
  else
    let was := (s.port p).state
    let s := s.modPort p (fun v => { v with width := BitVec.ofNat 3 width })
    match was with
    | .merged => s.modPort p (fun v => { v with state := .empty })
    | .ready | .error => s.startReset p none
    | _ => s

/-- The quad re-formed, the named port's GEN_MAX stored (R320). -/
def State.configPort (s : State) (src : CmdSrc) (pkt : Bytes) : State :=
  let p := portOf pkt
  let w := (byteAt pkt 0x11).toNat
  let g := (byteAt pkt 0x12).toNat
  let s := s.modPort p (fun v => { v with genMax := BitVec.ofNat 2 g })
  let s := s.reply src pkt stOk 0 (resultOf [(0x10, 1, p.toNat), (0x11, 1, w), (0x12, 1, g)])
  ((quadPorts p).foldl (fun s q => s.reformPort q w) s).evalLog

/-- PORT_CONFIG (R255, R318, R320). -/
def execPortConfig (src : CmdSrc) (s : State) : Host.Outcome State Fault Refusal :=
  serveCmd s src 0x0402
    (fun pkt =>
      let w := (byteAt pkt 0x11).toNat
      [(decide (w ∉ [1, 2, 4]) || decide ((portOf pkt).toNat % w ≠ 0), 0x11),
       (decide ((byteAt pkt 0x12).toNat ∉ [1, 2, 3]), 0x12)])
    (fun pkt => s.portAbsent pkt :: (quadPorts (portOf pkt)).map (fun q =>
      s.portSet q (fun st => decide (st ≠ .empty) && decide (st ≠ .stopped))))
    (fun pkt => s.configPort src pkt)

/-! ## PORT_RESET, PORT_ADMIN (R255, R256, R337, R338) -/

/-- R338: why a port cannot act for PORT_ADMIN or PORT_RESET, at the CONTAINED place of R12. -/
def portCannot (st : PortState) (reset : Bool) : Option (Byte × Byte) :=
  match st with
  | .contained => some (stContained, 0x10)
  | .training | .recovery | .resetting | .dark | .merged => some (stBadField, 0x10)
  | .empty | .error => if reset then none else some (stBadField, 0x10)
  | .ready => none

/-- PORT_RESET (R255, R337, R338). -/
def execPortReset (src : CmdSrc) (s : State) : Host.Outcome State Fault Refusal :=
  serveCmd s src 0x0405 (fun pkt => [s.mergedField pkt])
    (fun pkt => [s.portAbsent pkt, if (s.port (portOf pkt)).failed then none
      else s.portSet (portOf pkt) (fun st => decide (st = .running) || decide (st = .draining))])
    (fun pkt => match portCannot (s.port (portOf pkt)).state true with
      | some f => s.reply src pkt f.1 f.2 []
      | none => ((s.startDeferred src pkt).1.startReset (portOf pkt) (some src)).evalLog)

/-- The NVMe opcode of a PORT_ADMIN entry. -/
def adminOp (pkt : Bytes) : Nat := (byteAt pkt 0x40).toNat

/-- The admin commands of R256 that are legal only for a port in no non-EMPTY set. -/
def adminChanges (op : Nat) : Bool := decide (op ∈ [0x09, 0x80, 0x11, 0x10])

/-- Whether the entry names no command of R256, or Set Features of Number of Queues. -/
def adminBad (pkt : Bytes) : Bool :=
  !(adminChanges (adminOp pkt) || decide (adminOp pkt ∈ [0x02, 0x06, 0x0A])) ||
    (decide (adminOp pkt = 0x09) && decide (byteAt pkt 0x68 = 7))

/-- The entry as the drive receives it (R256): PSDT cleared; the command identifier and the data pointer, which the Interpreter
substitutes, read zero here (log entry 31). -/
def adminEntry (pkt : Bytes) : Bytes :=
  let e := sliceAt pkt 0x40 64
  [byteAt e 0, BitVec.ofNat 8 ((byteAt e 1).toNat % 64), 0, 0] ++ sliceAt e 4 20 ++ fill 16 0 ++ sliceAt e 40 24

/-- The admin command sent to the drive with the data that it takes. -/
def State.sendAdmin (s : State) (src : CmdSrc) (pkt data : Bytes) : State :=
  let p := portOf pkt
  let id := s.nextId
  let c := { driveCmd id p (.admin (byteAt pkt 0x40)) .management 0 0 0 0 0 none with issued := true }
  let s := (s.withNextId (id + 1)).withDcmds (s.dcmds ++ [c])
  (s.modPort p (fun v => { v with adminSrc := some src })).emit (.adminCmd p (adminEntry pkt) data)

/-- PORT_ADMIN started: the data of a command that writes to the drive is read first (R244). -/
def State.startAdmin (s : State) (src : CmdSrc) (pkt : Bytes) : State :=
  let s := (s.startDeferred src pkt).1
  if adminOp pkt % 4 = 1 then s.withBuffer src pkt (fun s data => s.sendAdmin src pkt data) else s.sendAdmin src pkt []

/-- PORT_ADMIN (R256, R319, R338). -/
def execPortAdmin (src : CmdSrc) (s : State) : Host.Outcome State Fault Refusal :=
  serveCmd s src 0x0406 (fun pkt => [s.mergedField pkt, (adminBad pkt, 0x40)] ++ bufFields src pkt 0x20 65536)
    (fun pkt => [s.portAbsent pkt, bufAlign pkt 0x20,
      if adminChanges (adminOp pkt) then s.portSet (portOf pkt) (fun _ => true) else none])
    (fun pkt => match portCannot (s.port (portOf pkt)).state false with
      | some f => s.reply src pkt f.1 f.2 []
      | none => s.startAdmin src pkt)

/-- The admin command of a port ends (R332). -/
def State.dropAdmin (s : State) (port : Byte) : State :=
  (s.withDcmds (s.dcmds.filter (fun c => !(decide (c.port = port) && (match c.op with
    | .admin _ => true
    | _ => false))))).modPort port (fun v => { v with adminSrc := none })

/-- The reply of a PORT_ADMIN that its drive completed (R256): the bytes moved and the completion entry. Data that the drive returned
is written to the buffer first; a frozen port fails the command with CONTAINED (R443). -/
def State.finishAdmin (s : State) (port : Byte) (d : Deferred) (cqe data : Bytes) : State :=
  let pkt := d.packet
  let len := bufLen pkt 0x20
  let moved := if adminOp pkt % 4 = 2 then min data.length len else if adminOp pkt % 4 = 1 then len else 0
  let (s, ok) := if adminOp pkt % 4 = 2 ∧ len ≠ 0 then s.writeBuffer d.src pkt 0x20 (data.take len) else (s, true)
  if ok then s.endDeferred d stOk 0 (resultOf ([(0x10, 1, port.toNat), (0x14, 4, moved)] ++
    (List.range 16).map (fun i => (0x20 + i, 1, (byteAt cqe i).toNat))))
  else s.endDeferred d stContained 1 []

/-- DRIVE_ADMIN_COMPLETE (R256, R324): a drive completes an admin command: a PORT_ADMIN, whatever the drive's own status, or a
bring-up step, which ends the sequence in ERROR when its status is an error. -/
def execDriveAdminComplete (port : Byte) (ok : Bool) (cqe : Bytes) (data : Bytes) (s : State) : Host.Outcome State Fault Refusal :=
  if s.dcmds.any (fun c => decide (c.port = port) && (match c.op with
      | .admin _ => true
      | _ => false)) then
    match (s.port port).adminSrc.bind (fun c => s.interp.deferred.find? (fun d => d.src = c)) with
    | some d => .next ((s.dropAdmin port).finishAdmin port d cqe data)
    | none => .next (s.dropAdmin port)
  else .next (if ok then s else s.bringupFailed port)

/-! ## GROUP_POWER (R339 to R342) -/

/-- GROUP of a packet. -/
def groupNo (pkt : Bytes) : Nat := (byteAt pkt 0x10).toNat

/-- A group that goes dark, or wakes; one already there replies at once (R340, R342). -/
def State.powerGroup (s : State) (src : CmdSrc) (pkt : Bytes) : State :=
  let g := groupNo pkt
  let dark := decide ((byteAt pkt 0x11).toNat = 0)
  match (s.group g).state, dark with
  | .powered, true =>
    (s.startDeferred src pkt).1.modGroup g (fun v => { v with
      state := .draining, force := bitOf (byteAt pkt 0x12).toNat 0, leftovers := 0, src := some src })
  | .dark, false =>
    (s.startDeferred src pkt).1.modGroup g (fun v => { v with state := .waking, pwren := true, leftovers := 0, src := some src })
  | _, _ => s.reply src pkt stOk 0 (resultOf [(0x10, 1, g)])

/-- GROUP_POWER (R255, R339 to R342). -/
def execGroupPower (src : CmdSrc) (s : State) : Host.Outcome State Fault Refusal :=
  serveCmd s src 0x0407
    (fun pkt => [(decide (2 ≤ (byteAt pkt 0x11).toNat), 0x11), (decide (2 ≤ (byteAt pkt 0x12).toNat), 0x12),
      (decide (60000 < leAt pkt 0x14 4), 0x14)])
    (fun pkt => [failIf (decide (Config.groups s.part ≤ groupNo pkt)) stNotPresent 0x10]) (fun pkt => s.powerGroup src pkt)

end Sys2Proof.Machine
end

