-- ==== Sys2Proof/Machine/LogCmds.lean ====
section
/-! DEFINITION. The Log, watch and cache commands (spec/08_command_packets.md R257, R258; spec/05 R151, R155; spec/10 R298, R307,
R311, R312), and the end of the Hold state, which starts the stripe commits that range commands wait for (spec/13 R387, R389). -/

namespace Sys2Proof.Machine

/-! ## LOG_QUERY -/

/-- LOG.USED: the journal's occupancy in KiB, rounded down (R148, log entry 30). -/
def State.logUsed (s : State) : Nat := s.occupancy / 16

/-- LOG.TAIL_SEQ: SEQ of the oldest unretired record, the next SEQ when there is none (R148). -/
def State.logTailSeq (s : State) : Nat :=
  match s.log.recs.find? (fun r => !s.log.passable r) with
  | some r => r.seq
  | none => s.log.nextSeq

/-- The unretired records of the sets that p selects. -/
def State.unretired (s : State) (p : Nat → Bool) : Nat :=
  (s.log.recs.filter (fun r => !r.retired && r.status = .committed && p r.set.toNat &&
    (r.typ = .data || r.typ = .commit || r.typ = .intent))).length

/-- A count over the non-EMPTY sets that p selects. -/
def State.sumSets (s : State) (p : Nat → Bool) (f : ArraySet → Nat) : Nat :=
  ((s.sets.filter (fun e => p e.1 && decide (e.2.state ≠ .empty))).map (fun e => f e.2)).foldl (· + ·) 0

/-- LOG_QUERY (R257). -/
def execLogQuery (src : CmdSrc) (s : State) : Host.Outcome State Fault Refusal :=
  serveCmd s src 0x0501 (fun pkt => [(decide (64 ≤ setOf pkt) && decide (setOf pkt ≠ 0xFF), 0x10)]) (fun _ => [])
    (fun pkt =>
      let id := setOf pkt
      let p (i : Nat) : Bool := decide (id = 0xFF) || (decide (i = id) && !s.isEmpty id)
      s.reply src pkt stOk 0 (resultOf [(0x10, 1, id), (0x14, 4, s.logUsed), (0x18, 8, s.log.nextSeq), (0x20, 8, s.logTailSeq),
        (0x28, 4, s.unretired p), (0x2C, 4, s.sumSets p (fun a => a.resync.length)),
        (0x30, 4, s.sumSets p (fun a => a.unresolved.length))]))

/-! ## Watch commands (R151, R155, R258) -/

/-- TOD_NS not a whole second (R258). -/
def todField (pkt : Bytes) : Bool × Nat := (decide (leAt pkt 0x18 8 % 1000000000 ≠ 0), 0x18)

/-- Whether the packet in front of a source is a WATCH_SET_TOD that is checked now and fails as R151 item 1 says. -/
def State.todRefused (s : State) (src : CmdSrc) : Bool :=
  match s.frontPacket src with
  | none => false
  | some pkt =>
    match cmdInfo (opcodeOf pkt) with
    | none => false
    | some c => decide (c.op = 0x0601) && !s.mustWait c pkt && (todField pkt).1

/-- WATCH_SET_TOD (R151, R258): the command replies when its value applies, is refused, lapses or is replaced. -/
def execWatchSetTod (src : CmdSrc) (s : State) : Host.Outcome State Fault Refusal :=
  let t := s.serve src 0x0601 (fun pkt => [todField pkt]) (fun _ => [])
    (fun pkt => (s.startDeferred src pkt).1.submitTod (BitVec.ofNat 64 (leAt pkt 0x18 8)) (some src))
  .next (if s.todRefused src then t.raise 0xDB .note 0x02 else t)

/-- A watch length that breaks a rule of R155. -/
def State.lengthBad (s : State) (l : Nat) : Bool :=
  decide (l < 10000) || decide (100000000 < l) || decide (1000000000 % l ≠ 0) ||
    decide (2 ^ 48 ≤ (s.wch.fixNs.toNat + 631152000 * 10 ^ 9) / l)

/-- The next whole second of fix time (R155). -/
def State.nextSecond (s : State) : Nat := (s.wch.fixNs.toNat / 10 ^ 9 + 1) * 10 ^ 9

/-- WATCH_SET_LENGTH (R155, R257, R258). -/
def execWatchSetLength (src : CmdSrc) (s : State) : Host.Outcome State Fault Refusal :=
  serveCmd s src 0x0602 (fun pkt => [(s.lengthBad (leAt pkt 0x14 4), 0x14)])
    (fun pkt =>
      let l := leAt pkt 0x14 4
      [if s.wch.length < l then s.setsFree (fun _ => true)
       else if l < s.wch.length then s.setsFree (fun a => decide (a.state ≠ .stopped)) else none])
    (fun pkt =>
      let at' := s.nextSecond
      (s.withWch { s.wch with nextLength := some (leAt pkt 0x14 4, BitVec.ofNat 64 at') }).reply src pkt stOk 0
        (resultOf [(0x18, 8, at')]))

/-- WATCH_QUERY (R257). -/
def execWatchQuery (src : CmdSrc) (s : State) : Host.Outcome State Fault Refusal :=
  serveCmd s src 0x0603 (fun _ => []) (fun _ => [])
    (fun pkt =>
      let w := s.wch
      s.reply src pkt stOk 0 (resultOf [(0x10, 1, w.timer.code),
        (0x11, 1, ofBool s.holdoverFlag + 2 * ofBool w.beyond + 4 * ofBool w.tod.isSome + 8 * ofBool w.sealedHoldover),
        (0x14, 4, w.length), (0x18, 8, w.fixNs.toNat), (0x20, 6, s.watch.toNat), (0x28, 6, w.sealedWatch.toNat),
        (0x30, 4, satTo 32 w.holdBound)]))

/-! ## Range commands (R311, R312) -/

/-- The fields of a range command at fault (R257). -/
def State.rangeFields (s : State) (pkt : Bytes) : List (Bool × Nat) :=
  let id := setOf pkt
  [setField pkt, (decide (leAt pkt 0x20 6 = 0) ||
    (!s.isEmpty id && decide (s.setBlocks id < leAt pkt 0x18 6 + leAt pkt 0x20 6)), 0x20)]

/-- The stripe commits that a running range command still needs (R312, R387). -/
def State.commitRange (s : State) (d : Deferred) : State :=
  s.rangeCommits (s.rangeRows d) (fun s set st row => s.stripeCommit set st row 1)

/-- CLEAN_RANGE or INVAL_RANGE started on the DATA records that exist now. -/
def State.startClean (s : State) (src : CmdSrc) (pkt : Bytes) : State :=
  let (s, d) := s.startDeferred src pkt
  let (set, lba, blocks) := rangeOf pkt
  let d := { d with waitWrites := ((s.rangeRecs set lba blocks).filter (fun r =>
    r.names.any (fun row => s.rowInRange set lba blocks r.stripe row))).map (fun r => r.seq) }
  let s := s.setDeferred d
  (s.commitRange d).rangeStep

/-- CLEAN_RANGE (R250, R257, R311, R312). -/
def execCleanRange (src : CmdSrc) (s : State) : Host.Outcome State Fault Refusal :=
  serveCmd s src 0x0701 s.rangeFields
    (fun pkt => [s.legalIn (setOf pkt) [.running, .draining, .stopped], s.replayHeld (setOf pkt)]) (fun pkt => s.startClean src pkt)

/-- INVAL_RANGE (R250, R257, R311, R312). -/
def execInvalRange (src : CmdSrc) (s : State) : Host.Outcome State Fault Refusal :=
  serveCmd s src 0x0702 s.rangeFields
    (fun pkt => [s.legalIn (setOf pkt) [.running, .draining, .stopped], s.replayHeld (setOf pkt)]) (fun pkt => s.startClean src pkt)

/-- DISCARD_RANGE started: every line of the range is invalidated and the set's detectors are freed (R312). -/
def State.startDiscard (s : State) (src : CmdSrc) (pkt : Bytes) : State :=
  let (s, d) := s.startDeferred src pkt
  let (s, d) := s.rangeInvalidate d false
  (s.setDeferred { d with count2 := 1 }).freeDetectors (setOf pkt)

/-- DISCARD_RANGE (R257, R311, R312). -/
def execDiscardRange (src : CmdSrc) (s : State) : Host.Outcome State Fault Refusal :=
  serveCmd s src 0x0703 s.rangeFields (fun pkt => [s.legalIn (setOf pkt) [.stopped], s.replayHeld (setOf pkt)])
    (fun pkt => s.startDiscard src pkt)

/-! ## Way masks and regions (R298, R307) -/

/-- The masks replaced, or only read (R298). -/
def State.putMasks (s : State) (pkt : Bytes) : State :=
  if (byteAt pkt 0x1C).toNat = 0 then s
  else ((s.setRegN Reg.sccMask0 (leAt pkt 0x10 4)).setRegN Reg.sccMask1 (leAt pkt 0x14 4)).setRegN Reg.sccMask2 (leAt pkt 0x18 4)

/-- WAY_MASKS (R257, R298). -/
def execWayMasks (src : CmdSrc) (s : State) : Host.Outcome State Fault Refusal :=
  serveCmd s src 0x0704
    (fun pkt => [(decide ((byteAt pkt 0x1C).toNat = 1) && decide ((bitList 16 (leAt pkt 0x10 2)).length < 4), 0x10),
      (decide (2 ≤ (byteAt pkt 0x1C).toNat), 0x1C)]) (fun _ => [])
    (fun pkt =>
      let t := s.putMasks pkt
      t.reply src pkt stOk 0 (resultOf [(0x10, 4, t.regN Reg.sccMask0), (0x14, 4, t.regN Reg.sccMask1), (0x18, 4, t.regN Reg.sccMask2)]))

/-- REGION of a packet. -/
def regionNo (pkt : Bytes) : Nat := (byteAt pkt 0x11).toNat

/-- The region that REGION_SET describes. -/
def regionOf (pkt : Bytes) : Region :=
  let pol := (byteAt pkt 0x17).toNat
  { policy := policyOf pol, sealedAck := bitOf pol 2, first := leAt pkt 0x18 6, blocks := leAt pkt 0x20 6 }

/-- A valid region off a stripe boundary, or over another valid region of the set (R257). -/
def State.regionBad (s : State) (pkt : Bytes) : Bool :=
  let a := s.set (setOf pkt)
  let st := (s.setProfile a).k * a.s
  let r := regionOf pkt
  decide ((byteAt pkt 0x12).toNat = 1) && !s.isEmpty (setOf pkt) &&
    (decide (r.first % st ≠ 0) || decide (r.blocks % st ≠ 0) ||
      a.regions.any (fun e => decide (e.1 ≠ regionNo pkt) && (match e.2 with
        | none => false
        | some q => decide (r.first < q.first + q.blocks) && decide (q.first < r.first + r.blocks))))

/-- REGION_SET (R257, R307). -/
def execRegionSet (src : CmdSrc) (s : State) : Host.Outcome State Fault Refusal :=
  serveCmd s src 0x0705
    (fun pkt => [setField pkt, (decide (16 ≤ regionNo pkt), 0x11), (decide (2 ≤ (byteAt pkt 0x12).toNat), 0x12),
      (decide (8 ≤ (byteAt pkt 0x17).toNat), 0x17), (s.regionBad pkt, 0x18)])
    (fun pkt => [s.legalIn (setOf pkt) [.stopped], s.replayHeld (setOf pkt)])
    (fun pkt =>
      let r := if (byteAt pkt 0x12).toNat = 1 then some (regionOf pkt) else none
      (s.modSet (setOf pkt) (fun a => { a with regions := Tab.set a.regions none (regionNo pkt) r })).reply src pkt stOk 0
        (sliceAt pkt 0x10 112))

/-- REGION_QUERY (R257). -/
def execRegionQuery (src : CmdSrc) (s : State) : Host.Outcome State Fault Refusal :=
  serveCmd s src 0x0706 (fun pkt => [setField pkt, (decide (16 ≤ regionNo pkt), 0x11)])
    (fun pkt => [s.legalIn (setOf pkt) [.stopped, .running, .draining, .preserved]])
    (fun pkt =>
      let key := [(0x10, 1, setOf pkt), (0x11, 1, regionNo pkt)]
      s.reply src pkt stOk 0 (resultOf (match Tab.get (s.set (setOf pkt)).regions none (regionNo pkt) with
        | none => key
        | some r => key ++ [(0x12, 1, 1), (0x17, 1, r.policy.code + 4 * ofBool r.sealedAck), (0x18, 6, r.first),
            (0x20, 6, r.blocks)])))

/-! ## The end of the Hold state (R389) -/

/-- The Hold state ended: the stripe commits that range commands wait for start (R250, R387). -/
def State.leaveHold (s : State) (detail : Byte) : State :=
  let s := s.endHold detail
  s.interp.deferred.foldl (fun s d => s.commitRange d) s

/-- HOLD_QUALIFICATION_EXPIRY (R389): QUAL_MS of qualified supply have elapsed. -/
def execHoldQualificationExpiry (s : State) : Host.Outcome State Fault Refusal :=
  if s.mon.hold ≠ .qualify then .next s
  else if !s.regBit Reg.gcsHold 0 then .next (s.leaveHold 0x01)
  else if s.mon.resumeSet then .next (s.leaveHold 0x02)
  else .next (s.withMon { s.mon with hold := .wait })

/-- RESUME (R389, R392): kept until the next NORMAL; it ends WAIT at once. -/
def execHoldResume (s : State) : Host.Outcome State Fault Refusal :=
  if s.haltClosed then .next s
  else
    let s := s.leaveDock
    match s.mon.hold with
    | .normal => .next s
    | .wait => .next (s.leaveHold 0x02)
    | _ => .next (s.withMon { s.mon with resumeSet := true })

end Sys2Proof.Machine
end

