-- ==== Sys2Proof/Machine/FaultCmds.lean ====
section
/-! DEFINITION. The fault, calibration and life commands (spec/08_command_packets.md R259; spec/12 R353, R354, R365, R366; spec/13
R372, R373; spec/04 R120). -/

namespace Sys2Proof.Machine

/-! ## The first-fault record and open sources (R353, R354) -/

/-- The RESULT of FAULT_READ and FAULT_ACK (R259). -/
def State.faultResult (s : State) (tail : List (Nat × Nat × Nat)) : Bytes :=
  let f := s.flt.first
  resultOf ([(0x10, 1, f.source.toNat), (0x11, 1, f.level.code), (0x12, 1, f.detail.toNat),
    (0x13, 1, ofBool f.valid + 2 * ofBool f.injected + 4 * ofBool f.overflow + 8 * ofBool f.acked), (0x18, 8, f.fixNs.toNat)] ++ tail)

/-- FAULT_READ (R259). -/
def execFaultRead (src : CmdSrc) (s : State) : Host.Outcome State Fault Refusal :=
  serveCmd s src 0x0801 (fun _ => []) (fun _ => [])
    (fun pkt =>
      let q := byteAt pkt 0x10
      s.reply src pkt stOk 0 (s.faultResult [(0x24, 1, q.toNat), (0x28, 4, (s.src q).count)]))

/-- Whether FIX_NS of a FAULT_ACK names no record that can be acknowledged (R259, R353). -/
def State.ackBad (s : State) (pkt : Bytes) : Bool :=
  let f := s.flt.first
  !f.valid || f.acked || decide (f.fixNs.toNat ≠ leAt pkt 0x18 8)

/-- FAULT_ACK (R259, R353): the record is acknowledged and capture is armed again. -/
def execFaultAck (src : CmdSrc) (s : State) : Host.Outcome State Fault Refusal :=
  serveCmd s src 0x0802 (fun pkt => [(s.ackBad pkt, 0x18)]) (fun _ => [])
    (fun pkt =>
      let s := s.withFlt { s.flt with first := { s.flt.first with acked := true } }
      s.reply src pkt stOk 0 (s.faultResult []))

/-- FAULT_CLEAR (R259, R354). -/
def execFaultClear (src : CmdSrc) (s : State) : Host.Outcome State Fault Refusal :=
  serveCmd s src 0x0803
    (fun pkt => [(decide ((byteAt pkt 0x11).toNat = 0) && !sourceAssigned (byteAt pkt 0x10), 0x10),
      (decide (2 ≤ (byteAt pkt 0x11).toNat), 0x11)]) (fun _ => [])
    (fun pkt => (if (byteAt pkt 0x11).toNat = 1 then s.clearAllSources else s.clearSource (byteAt pkt 0x10)).reply src pkt stOk 0 [])

/-! ## FAULT_LOAD_REACTION (R365, R366) -/

/-- The slot that a packet names: 4 × group + level. -/
def reactionSlot (pkt : Bytes) : Nat := 4 * (byteAt pkt 0x10).toNat + (byteAt pkt 0x11).toNat

/-- TABLE_BYTES of table t. -/
def tableBytes (pkt : Bytes) (t : Nat) : Nat := leAt pkt (0x18 + 4 * t) 4

/-- The bytes of a program of n instructions in the buffer, rounded up to 64. -/
def programBytes (n : Nat) : Nat := (4 * n + 63) / 64 * 64

/-- The bytes of the tables that a packet declares. -/
def tablesTotal (pkt : Bytes) : Nat := ((List.range 4).map (tableBytes pkt)).foldl (· + ·) 0

/-- The bytes of the tables of a loaded program. -/
def SProg.tableSize (p : SProg) : Nat :=
  (p.tables.map (fun e => match e.2 with
    | some t => t.size
    | none => 0)).foldl (· + ·) 0

/-- The table bytes of every loaded program but the one in a slot. -/
def State.reactionTables (s : State) (slot : Nat) : Nat :=
  (s.flt.loaded.map (fun e => match e.2 with
    | some p => if e.1 = slot then 0 else p.tableSize
    | none => 0)).foldl (· + ·) 0

/-- The width code of table t. -/
def tableWidth (pkt : Bytes) (t : Nat) : BitVec 2 := BitVec.ofNat 2 ((byteAt pkt 0x14).toNat / 4 ^ t)

/-- The program and the tables of the buffer: the program first, then each present table on a 64-byte boundary (R259). -/
def reactionOf (pkt data : Bytes) : SProg :=
  let n := leAt pkt 0x12 2
  { code := codeOf n data,
    tables := ((List.range 4).foldl (fun (acc : Tab (Option STable) × Nat) t =>
      let size := tableBytes pkt t
      if size = 0 then acc
      else
        let tb : STable :=
          { width := tableWidth pkt t, size := size, bytes := Memory.writeBytes [] 0 (sliceAt data acc.2 size) }
        (Tab.set acc.1 none t (some tb), acc.2 + size)) ([], programBytes n)).1 }

/-- The program of the buffer verified and put in force (R365, R366). -/
def State.loadReaction (s : State) (src : CmdSrc) (pkt data : Bytes) : State :=
  let prog := reactionOf pkt data
  let declared (t : Nat) : Option (BitVec 2) := (Tab.get prog.tables none t).map (fun x => x.width)
  match verifyProgram (reactionInsOk declared) prog.code with
  | some i => s.reply src pkt stBadField (BitVec.ofNat 8 i) []
  | none =>
    (s.withFlt { s.flt with loaded := Tab.set s.flt.loaded none (reactionSlot pkt) (some prog) }).reply src pkt stOk 0
      (resultOf [(0x10, 1, (byteAt pkt 0x10).toNat), (0x11, 1, (byteAt pkt 0x11).toNat)])

/-- The ROM program of a slot restored: COUNT 0 (R366). -/
def State.unloadReaction (s : State) (src : CmdSrc) (pkt : Bytes) : State :=
  (s.withFlt { s.flt with loaded := Tab.set s.flt.loaded none (reactionSlot pkt) none }).reply src pkt stOk 0
    (resultOf [(0x10, 1, (byteAt pkt 0x10).toNat), (0x11, 1, (byteAt pkt 0x11).toNat)])

/-- FAULT_LOAD_REACTION (R259, R365, R366). -/
def execFaultLoadReaction (src : CmdSrc) (s : State) : Host.Outcome State Fault Refusal :=
  serveCmd s src 0x0804
    (fun pkt => [(decide (11 ≤ (byteAt pkt 0x10).toNat), 0x10), (decide (4 ≤ (byteAt pkt 0x11).toNat), 0x11),
        (decide (256 < leAt pkt 0x12 2), 0x12)] ++
      (List.range 4).map (fun t => (decide (tableBytes pkt t % 64 ≠ 0) || decide (65536 < tableBytes pkt t), 0x18 + 4 * t)) ++
      (decide (bufLen pkt 0x30 < programBytes (leAt pkt 0x12 2) + tablesTotal pkt), 0x30) :: bufFields src pkt 0x30 (2 ^ 20))
    (fun pkt => [bufAlign pkt 0x30,
      failIf (decide (leAt pkt 0x12 2 ≠ 0) && decide (2 ^ 18 < s.reactionTables (reactionSlot pkt) + tablesTotal pkt)) stNoResource 0x18])
    (fun pkt => if leAt pkt 0x12 2 = 0 then s.unloadReaction src pkt
      else s.withBuffer src pkt (fun s data => s.loadReaction src pkt data))

/-! ## CAL_RUN, CAL_QUERY (R259, R372, R373) -/

/-- The banks that a CAL_RUN names (R259): 0xFF is every present bank that is not fenced. -/
def State.calBanks (s : State) (pkt : Bytes) : List (BitVec 5) :=
  if byteAt pkt 0x10 = 0xFF then s.presentBanks.filter s.bankLive else [BitVec.ofNat 5 (byteAt pkt 0x10).toNat]

/-- A bank number out of range, 0xFF allowed where `all` holds. -/
def bankField (pkt : Bytes) (all : Bool) : Bool × Nat :=
  let v := (byteAt pkt 0x10).toNat
  (decide (17 ≤ v) && !(all && decide (v = 0xFF)), 0x10)

/-- NOT_PRESENT for a bank that the part lacks, and for CAL_RUN a fenced one (log entry 32). -/
def State.bankAbsent (s : State) (pkt : Bytes) (live : Bool) : Option (Byte × Byte) :=
  let v := (byteAt pkt 0x10).toNat
  failIf (decide (v ≠ 0xFF) && (decide (Config.banks s.part ≤ v) || (live && !s.bankLive (BitVec.ofNat 5 v)))) stNotPresent 0x10

/-- CAL_RUN (R259, R372, R373): the banks named join the queue of runs. -/
def execCalRun (src : CmdSrc) (s : State) : Host.Outcome State Fault Refusal :=
  serveCmd s src 0x0901 (fun pkt => [bankField pkt true])
    (fun pkt => [s.bankAbsent pkt true, failIf s.log.spare.isNone stNoResource 0x10])
    (fun pkt =>
      let s := (s.startDeferred src pkt).1
      s.withMon { s.mon with queue := s.mon.queue ++ (s.calBanks pkt).map (fun b => (b, src)) })

/-- CAL_QUERY (R259). -/
def execCalQuery (src : CmdSrc) (s : State) : Host.Outcome State Fault Refusal :=
  serveCmd s src 0x0902 (fun pkt => [bankField pkt false]) (fun pkt => [s.bankAbsent pkt false])
    (fun pkt =>
      let n := BitVec.ofNat 5 (byteAt pkt 0x10).toNat
      let b := s.bank n
      let (s, now) := s.bankTemp n
      s.reply src pkt stOk 0 (resultOf [(0x14, 4, selShown b.sel.toNat), (0x18, 8, b.timeNs.toNat), (0x20, 1, signedNat 8 b.tempC),
        (0x21, 1, now.toNat), (0x22, 1, b.origin.toNat)]))

/-! ## Life records (R120, R259) -/

/-- The payload of the newest committed life record (R120). -/
def Life.payload (l : Life) : Bytes :=
  leBytes 8 l.fixNs.toNat ++ (List.range 17).flatMap (fun n => leBytes 8 (Tab.get l.writes 0 n)) ++
    (List.range 17).map (fun n => BitVec.ofNat 8 (signedNat 8 (Tab.get l.tmax 0 n))) ++ fill 7 0 ++
    leBytes 8 l.powerOnS ++ leBytes 8 l.hotS ++ fill 72 0

/-- LIFE_READ (R259): the payload is written to the buffer before the reply; a frozen port fails it with CONTAINED (R443). -/
def execLifeRead (src : CmdSrc) (s : State) : Host.Outcome State Fault Refusal :=
  serveCmd s src 0x0A01 (fun pkt => (decide (bufLen pkt 0x20 < 256), 0x28) :: bufFields src pkt 0x20 (2 ^ 20))
    (fun pkt => [bufAlign pkt 0x20])
    (fun pkt =>
      let (s, ok) := s.writeBuffer src pkt 0x20 s.log.life.payload
      if ok then s.reply src pkt stOk 0 (resultOf [(0x18, 8, s.log.life.fixNs.toNat), (0x20, 8, s.log.life.seq)])
      else s.reply src pkt stContained 1 [])

/-- LIFE_RECORD (R120, R259). -/
def execLifeRecord (src : CmdSrc) (s : State) : Host.Outcome State Fault Refusal :=
  serveCmd s src 0x0A02 (fun _ => []) (fun _ => [])
    (fun pkt => s.appendLife.reply src pkt stOk 0 (resultOf [(0x20, 8, s.log.nextSeq)]))

end Sys2Proof.Machine
end

