-- ==== Sys2Proof/Machine/FwCmds.lean ====
section
/-! DEFINITION. The firmware, diagnostic and pair commands (spec/08_command_packets.md R260 to R262; spec/16 R472 to R477; spec/14
R394 to R396), and the restart of the management processor (spec/12 R349; spec/08 R261). -/

namespace Sys2Proof.Machine

/-! ## Staging (R261, R472) -/

/-- A byte range joined to a list of disjoint rising ranges. -/
def addRange (a b : Nat) : List (Nat × Nat) → List (Nat × Nat)
  | [] => if a < b then [(a, b)] else []
  | (c, d) :: rest =>
    if b ≤ a then (c, d) :: rest
    else if b < c then (a, b) :: (c, d) :: rest
    else if d < a then (c, d) :: addRange a b rest
    else addRange (min a c) (max b d) rest

/-- The bytes staged. -/
def FwSlot.stagedBytes (f : FwSlot) : Nat := (f.staged.map (fun r => r.2 - r.1)).foldl (· + ·) 0

/-- Whether the staged bytes cover TOTAL (R261). -/
def FwSlot.covered (f : FwSlot) : Bool := decide (f.total ≤ f.stagedBytes)

/-- The slot that FW_DOWNLOAD stages into: the one that is not running; in ROM recovery, the one that did not run last. -/
def Sec.stage (c : Sec) : Bool := !(c.running.getD c.lastRan)

/-- A slot replaced. -/
def Sec.putSlot (c : Sec) (b : Bool) (f : FwSlot) : Sec := if b then { c with slotB := f } else { c with slotA := f }

/-- The staging slot. -/
def State.stageSlot (s : State) : FwSlot := s.sec.slot s.sec.stage

/-- The staging field of FW_QUERY: 0 empty, 1 partial, 2 verified; whole bytes that fail a check of R474 read 1 (log entry 33). -/
def State.stageState (s : State) : Nat :=
  let f := s.stageSlot
  if f.staged.isEmpty then 0
  else if f.covered && (imageFault s.part s.sec f).isNone then 2 else 1

/-- Bytes staged at OFFSET; at OFFSET 0 the staging area is emptied and TOTAL recorded first. Bytes beyond TOTAL are not staged. -/
def State.stageBytes (s : State) (src : CmdSrc) (pkt data : Bytes) : State :=
  let off := leAt pkt 0x14 4
  let total := leAt pkt 0x18 4
  let f : FwSlot := if off = 0 then { FwSlot.at0 with total := total } else s.stageSlot
  let bytes := (data.take (bufLen pkt 0x20)).take (total - off)
  let f := { f with image := Memory.writeBytes f.image off bytes, staged := addRange off (off + bytes.length) f.staged }
  (s.withSec (s.sec.putSlot s.sec.stage f)).reply src pkt stOk 0 (resultOf [(0x14, 4, f.stagedBytes)])

/-- FW_DOWNLOAD (R260, R261, R472). -/
def execFwDownload (src : CmdSrc) (s : State) : Host.Outcome State Fault Refusal :=
  serveCmd s src 0x0C01
    (fun pkt => [(decide (leAt pkt 0x14 4 % 64 ≠ 0), 0x14),
      (decide (2 ^ 24 < leAt pkt 0x18 4) || (decide (leAt pkt 0x14 4 ≠ 0) && decide (leAt pkt 0x18 4 ≠ s.stageSlot.total)), 0x18)] ++
      bufFields src pkt 0x20 (2 ^ 20))
    (fun pkt => [bufAlign pkt 0x20]) (fun pkt => s.withBuffer src pkt (fun s data => s.stageBytes src pkt data))

/-! ## FW_COMMIT, FW_QUERY, the restart (R261, R474, R475) -/

/-- A power-on sequence from BOOT, started by FW_COMMIT in ROM recovery (R475): what a loss of power loses is lost. -/
def State.romRestart (s : State) : State :=
  let bifur := s.gcs.bifur
  let s := s.lostPower
  s.withGcs { s.gcs with pwrgd := true, bifur := bifur }

/-- RESULT of FW_COMMIT. -/
def State.commitResult (s : State) (committed : Word32) : Bytes :=
  resultOf [(0x10, 4, s.sec.fwRunning.toNat), (0x14, 4, committed.toNat)]

/-- The staged slot made pending; with ACTIVATE 1 the management processor restarts on it, and the new firmware replies. -/
def State.commitImage (s : State) (src : CmdSrc) (pkt : Bytes) : State :=
  let v := s.stageSlot.version
  let s := s.withSec { s.sec with pending := some s.sec.stage }
  if s.gcs.phase = .romRecovery then (s.reply src pkt stOk 0 (s.commitResult v)).romRestart
  else if (byteAt pkt 0x10).toNat = 0 then s.reply src pkt stOk 0 (s.commitResult v)
  else
    let s := (s.startDeferred src pkt).1
    s.withInterp { s.interp with fwRestart := some (some src) }

/-- FW_COMMIT (R260, R261, R474, R475). -/
def execFwCommit (src : CmdSrc) (s : State) : Host.Outcome State Fault Refusal :=
  serveCmd s src 0x0C02 (fun pkt => [(decide (2 ≤ (byteAt pkt 0x10).toNat) || !s.stageSlot.covered, 0x10)])
    (fun _ => [match imageFault s.part s.sec s.stageSlot with
      | none => none
      | some d => some (stDenied, if d = 2 then 4 else 3)])
    (fun pkt => s.commitImage src pkt)

/-- FW_QUERY (R260). -/
def execFwQuery (src : CmdSrc) (s : State) : Host.Outcome State Fault Refusal :=
  serveCmd s src 0x0C03 (fun _ => []) (fun _ => [])
    (fun pkt => s.reply src pkt stOk 0 (resultOf [(0x10, 4, s.sec.fwRunning.toNat),
      (0x14, 4, if s.stageSlot.staged.isEmpty then 0 else s.stageSlot.version.toNat), (0x18, 4, s.sec.rollback),
      (0x1C, 1, s.stageState)]))

/-- The management processor started by the choice of R475: the pending slot first, otherwise the one that ran last, then the other
one; none where no slot boots, with the detail of the first refusal. -/
def State.restartImage (s : State) : State :=
  let first := s.sec.pending.getD s.sec.lastRan
  match imageFault s.part s.sec (s.sec.slot first) with
  | none => s.withSec (s.sec.started first false)
  | some d =>
    let s := s.raise 0xE0 .warn d
    match imageFault s.part s.sec (s.sec.slot !first) with
    | none => s.withSec (s.sec.started (!first) true)
    | some _ =>
      let s := s.withSec { s.sec with running := none, pending := none, fallback := true, rom := true, fwRunning := 0 }
      (s.withGcs { s.gcs with phase := .romRecovery, resetNow := none }).raise 0xE1 .stop 1

/-- FW_RESTART_DONE (R261, R349): the management processor has restarted; the firmware of an FW_COMMIT with ACTIVATE 1 writes its
reply. After a watchdog the running image restarts. -/
def execFwRestartDone (s : State) : Host.Outcome State Fault Refusal :=
  match s.interp.fwRestart with
  | none => .next s
  | some none =>
    let s := s.withInterp { s.interp with fwRestart := none }
    .next (s.withSec { s.sec with boots := (s.sec.boots + 1) % 2 ^ 32 })
  | some (some src) =>
    let v := (s.sec.slot (s.sec.pending.getD s.sec.lastRan)).version
    let s := (s.withInterp { s.interp with fwRestart := none }).restartImage
    match s.interp.deferred.find? (fun d => d.src = src) with
    | none => .next s
    | some d => .next (s.endDeferred d stOk 0 (s.commitResult v))

/-- A source whose command ends without a reply (R349): its packet is passed, and on a ring its entry is, with nothing written. -/
def State.dropFront (s : State) (src : CmdSrc) : State :=
  let s := s.setSrcQueue src ((s.srcQueue src).drop 1)
  match src with
  | .ring c => s.modRing (.cmd c) (fun g => { g with head := posAdd (s.ringN (.cmd c)) g.head 1 })
  | .chain => s.withInterp { s.interp with chainBusySeq := none }

/-- MGMT_WATCHDOG (R349): source 0x03 at CONTAIN; every command in progress ends without a reply and the processor restarts. -/
def execMgmtWatchdog (s : State) : Host.Outcome State Fault Refusal :=
  if !s.gcs.pwrgd ∨ s.gcs.phase = .boot ∨ s.interp.fwRestart.isSome then .next s
  else
    let busy := s.interp.busy
    let s := busy.foldl (fun s c => s.dropFront c) s
    let s := s.withInterp { s.interp with busy := [], bufs := [], fwRestart := some none }
    .next (s.forgetDeferred.raise 0x03 .contain 1)

/-! ## Diagnostics (R262, R477) -/

/-- Whether a source belongs to a unit or instance that this part lacks (R1, R262). -/
def State.sourceAbsent (s : State) (n : Byte) : Bool :=
  let v := n.toNat
  (decide (Config.clusters s.part < 2) && decide (0x50 ≤ v) && decide (v ≤ 0x5A)) ||
    (decide (0x60 ≤ v) && decide (v ≤ 0x70) && decide (Config.banks s.part ≤ v - 0x60)) ||
    (decide (0xA0 ≤ v) && decide (v ≤ 0xBF) && decide (Config.groups s.part ≤ v % 16)) ||
    (!Config.hasPair s.part && decide (0xD0 ≤ v) && decide (v ≤ 0xD4))

/-- The injected fault of a DIAG_INJECT (R262, R360): for a drive port group, the port that its LAST register shows. -/
def State.injection (s : State) (pkt : Bytes) : FaultReq :=
  let n := byteAt pkt 0x10
  { source := n, level := Level.ofCode (byteAt pkt 0x11).toNat, detail := byteAt pkt 0x12,
    port := if 0xA0 ≤ n.toNat ∧ n.toNat ≤ 0xBF then (s.group (n.toNat % 16)).lastPort.toNat else 256, injected := true }

/-- DIAG_INJECT (R260, R262, R477). -/
def execDiagInject (src : CmdSrc) (s : State) : Host.Outcome State Fault Refusal :=
  serveCmd s src 0x0D01
    (fun pkt => [(!sourceAssigned (byteAt pkt 0x10), 0x10), (decide (4 ≤ (byteAt pkt 0x11).toNat), 0x11)])
    (fun pkt => [failIf (s.sourceAbsent (byteAt pkt 0x10)) stNotPresent 0x10,
      failIf (decide (s.sec.lock = 2) && decide (2 ≤ (byteAt pkt 0x11).toNat)) stDenied 2])
    (fun pkt => (s.raiseAll [s.injection pkt]).reply src pkt stOk 0 (resultOf [(0x18, 8, s.wch.fixNs.toNat)]))

/-- DIAG_ECHO (R260). -/
def execDiagEcho (src : CmdSrc) (s : State) : Host.Outcome State Fault Refusal :=
  serveCmd s src 0x0D02 (fun _ => []) (fun _ => []) (fun pkt => s.reply src pkt stOk 0 (sliceAt pkt 0x10 112))

/-! ## Pair commands (R260, R394, R395) -/

/-- The code of a pair state (R394). -/
def PairState.code : PairState → Nat
  | .single => 0
  | .joining => 1
  | .paired => 2
  | .takeover => 3
  | .alone => 4
  | .fenced => 5

/-- The RESULT of the pair commands (R260). -/
def State.pairResult (s : State) : Bytes :=
  resultOf [(0x10, 1, s.pair.state.code), (0x11, 1, ofBool s.pair.side), (0x12, 1, s.pair.lanesUp)]

/-- NOT_PRESENT on a part without the pair link (R250). -/
def State.noPair (s : State) : Option (Byte × Byte) := failIf (!Config.hasPair s.part) stNotPresent 0

/-- PAIR_QUERY (R250, R260). -/
def execPairQuery (src : CmdSrc) (s : State) : Host.Outcome State Fault Refusal :=
  serveCmd s src 0x0B03 (fun _ => []) (fun _ => [s.noPair]) (fun pkt => s.reply src pkt stOk 0 s.pairResult)

/-- PAIR_JOIN in SINGLE or ALONE enters JOINING, the fence released; in JOINING after a reset it replies with that join; in any
other state nothing changes (log entry 34). -/
def State.joinPair (s : State) (src : CmdSrc) (pkt : Bytes) : State :=
  let side := decide ((byteAt pkt 0x10).toNat = 1)
  let p := s.pair
  match p.state with
  | .single | .alone =>
    let s := (s.startDeferred src pkt).1
    let s := s.withSets (Tab.mapV s.sets ArraySet.at0 (fun _ a => if a.state ≠ .empty ∧ a.side = p.side then { a with side := side } else a))
    (s.withPair { p with state := .joining, former := p.state, side := side, fenceOut := false, joinSrc := some src, afterReset := false,
                         mirror := [], mirrorUnits := [] }).sendFlit 0x0B 0 []
  | .joining =>
    if p.joinSrc.isSome then s.reply src pkt stOk 0 s.pairResult
    else
      let s := (s.startDeferred src pkt).1
      s.withPair { s.pair with joinSrc := some src }
  | _ => s.reply src pkt stOk 0 s.pairResult

/-- PAIR_JOIN (R250, R260, R395). -/
def execPairJoin (src : CmdSrc) (s : State) : Host.Outcome State Fault Refusal :=
  serveCmd s src 0x0B01 (fun pkt => [(decide (2 ≤ (byteAt pkt 0x10).toNat), 0x10)])
    (fun _ => [s.noPair, s.setsFree (fun a => decide (a.state ≠ .stopped))]) (fun pkt => s.joinPair src pkt)

/-- The pair dissolved on this side: SINGLE, fences released, the mirror half returned to the journal (R395, R402). -/
def State.leavePair (s : State) : State :=
  s.withPair { s.pair with state := .single, former := .single, fenceOut := false, token := false, mirror := [], mirrorUnits := [],
                           forwarded := [], probing := false, fenceWait := false, afterReset := false }

/-- PAIR_LEAVE (R250, R260, R395): from PAIRED the partner is told; in any other state but ALONE nothing changes. -/
def execPairLeave (src : CmdSrc) (s : State) : Host.Outcome State Fault Refusal :=
  serveCmd s src 0x0B02 (fun _ => []) (fun _ => [s.noPair, s.setsFree (fun a => decide (a.state ≠ .stopped))])
    (fun pkt =>
      let s := match s.pair.state with
        | .paired => (s.sendFlit 0x0B 1 []).leavePair
        | .alone => s.leavePair
        | _ => s
      s.reply src pkt stOk 0 s.pairResult)

end Sys2Proof.Machine
end

