-- ==== Sys2Proof/Machine/Buffers.lean ====
section
/-! DEFINITION. The buffers of commands as they arrive, and deferred commands that have waited (spec/08_command_packets.md R244, R248,
R261; spec/07_host_rings.md R214; spec/09_data_movers.md R285, R286). -/

namespace Sys2Proof.Machine

/-! ## BUFFER_READ_COMPLETE, BUFFER_READ_TIMEOUT (R214, R244) -/

/-- The read of a source's buffer in flight. -/
def State.bufferRead (s : State) (src : CmdSrc) : Option HostRead := s.dmv.reads.find? (fun h => h.user = .buffer src)

/-- The command of a source that waits for its buffer. -/
def State.bufWait (s : State) (src : CmdSrc) : Option BufWait := s.interp.bufs.find? (fun b => b.src = src)

/-- A source's wait for its buffer ended. -/
def State.dropWait (s : State) (src : CmdSrc) : State :=
  s.withInterp { s.interp with bufs := s.interp.bufs.filter (fun b => b.src ≠ src) }

/-- Stage 2 of R244 on the contents of a buffer: what the command does with them. -/
def State.useBuffer (s : State) (src : CmdSrc) (pkt data : Bytes) : State :=
  let op := opcodeOf pkt
  let s := if op = 0x0406 then s else s.withInterp { s.interp with busy := without s.interp.busy src }
  let t :=
    if op = 0x0301 then s.loadChart src pkt data
    else if op = 0x0302 then s.writeTable src pkt data
    else if op = 0x0804 then s.loadReaction src pkt data
    else if op = 0x0C01 then s.stageBytes src pkt data
    else s.sendAdmin src pkt data
  t.share s op

/-- A buffer read that failed: once more, and then the command ends with BUS_ERROR, detail 0x01 (R214, R244). -/
def State.bufferFailed (s : State) (w : BufWait) : State :=
  if w.retried then (s.dropWait w.src).endCommand w.src w.packet stBusError 1 []
  else
    (s.withInterp { s.interp with bufs := s.interp.bufs.map (fun b => if b.src = w.src then { b with retried := true } else b) }).issueBuffer
      w.src w.packet

/-- BUFFER_READ_COMPLETE (R244, R285): the data of a command that no longer waits for it is discarded. -/
def execBufferReadComplete (src : CmdSrc) (result : BusResult) (s : State) : Host.Outcome State Fault Refusal :=
  match s.bufferRead src with
  | none => .next s
  | some h =>
    let s := s.dropRead { port := h.port, tag := h.tag }
    match s.bufWait src with
    | none => .next s
    | some w =>
      match result with
      | .ok data =>
        if h.dead then .next s
        else .next ((s.dropWait src).useBuffer src w.packet (sliceAt data 0 (bufLen w.packet (bufOff (opcodeOf w.packet)))))
      | _ => if h.dead then .next s else .next (s.bufferFailed w)

/-- BUFFER_READ_TIMEOUT (R214, R244, R286): the tag is quarantined and the read tried once more, or the command ended. -/
def execBufferReadTimeout (src : CmdSrc) (s : State) : Host.Outcome State Fault Refusal :=
  match s.bufferRead src with
  | none => .next s
  | some h =>
    let s := (s.dropRead { port := h.port, tag := h.tag }).quarantineTag h.port h.tag true
    match s.bufWait src with
    | none => .next s
    | some w => if h.dead then .next s else .next (s.bufferFailed w)

/-! ## DEFERRED_COMMAND_START (R248) -/

/-- DEFERRED_COMMAND_START (R248): the deferred command in front of a source, which waited for a key or a free place, is checked and
started; it waits on while R248 still holds it back. -/
def execDeferredCommandStart (src : CmdSrc) (s : State) : Host.Outcome State Fault Refusal :=
  match (s.frontPacket src).map opcodeOf with
  | none => .next s
  | some op =>
    if op = 0x0106 then execSetRecover src s
    else if op = 0x0108 then execSetReadPreserved src s
    else if op = 0x0405 then execPortReset src s
    else if op = 0x0406 then execPortAdmin src s
    else if op = 0x0407 then execGroupPower src s
    else if op = 0x0601 then execWatchSetTod src s
    else if op = 0x0701 then execCleanRange src s
    else if op = 0x0702 then execInvalRange src s
    else if op = 0x0703 then execDiscardRange src s
    else if op = 0x0901 then execCalRun src s
    else if op = 0x0B01 then execPairJoin src s
    else if op = 0x0B02 then execPairLeave src s
    else if op = 0x0C02 then execFwCommit src s
    else .next s

end Sys2Proof.Machine
end

