-- ==== Sys2Proof/Machine/Programs.lean ====
section
/-! DEFINITION. Siette programs instruction by instruction (spec/03_charts_and_siette.md R88 to R95) and the Reaction Sequencer
(spec/12_faults_and_reaction.md R359 to R364): the control registers, the actions, the event log and program faults. -/

namespace Sys2Proof.Machine

/-! ## One instruction of a context -/

/-- Whether a context runs a program whose next instruction is i. -/
def State.atIns (s : State) (ctx : BitVec 7) (i : SIns) : Bool :=
  let c := s.ctx ctx.toNat
  decide (c.use ≠ .idle) && c.ended.isNone && decide (c.next = some i)

/-- What PTEST answers in a context (R94): the port as the lookup's revision sees it, or its live state word in a reaction. -/
def State.ctxPtest (s : State) (c : SCtx) : Byte → Word64 :=
  match c.use with
  | .lookup req => s.chartPtest (s.set req.set.toNat) req.rev
  | _ => s.liveWord

/-- A reaction ended by a program fault (R364): source 0x01 with its cause, and FLT.RX_LAST. -/
def State.reactionFault (s : State) (c : SCtx) (r : Reaction) (detail code : Byte) : State :=
  ((s.setCtx 64 SCtx.at0).setRegN Reg.fltRxLast (r.source.toNat + 2 ^ 8 * r.level.code + 2 ^ 16 * (c.pc % 256) +
    2 ^ 24 * detail.toNat + 2 ^ 32 * code.toNat)).raise 0x01 .warn detail

/-- A context after one instruction: a reaction that has ended leaves it idle, a lookup waits for its bearing to be checked. -/
def State.putCtx (s : State) (ctx : BitVec 7) (c : SCtx) : State :=
  match c.use, c.ended with
  | .reaction r, some (.fault d code) => s.reactionFault c r d code
  | .reaction _, some _ => s.setCtx 64 SCtx.at0
  | _, _ => s.setCtx ctx.toNat c

/-- The chart cache after an LDT of a lookup (R80, R101). -/
def State.cacheLdt (s : State) (c : SCtx) : State :=
  match c.use with
  | .lookup req =>
    let x := runLines (s.ctxPtest c) req.rev.slot.toNat 1 c s.cht.cached 0
    (s.withCht { s.cht with cached := x.1 }).count64 Reg.chtMisses x.2
  | _ => s

/-- An instruction that acts on its machine alone, executed in a context where it is the next one; elsewhere nothing happens. -/
def State.stepIns (s : State) (ctx : BitVec 7) (i : SIns) : State :=
  if s.atIns ctx i then
    let c := s.ctx ctx.toNat
    (s.cacheLdt c).putCtx ctx (c.exec (s.ctxPtest c) i)
  else s

/-- ADD (R91). -/
def execSAdd (ctx : BitVec 7) (rd ra rb : GReg) (s : State) : Host.Outcome State Fault Refusal :=
  .next (s.stepIns ctx (.add rd ra rb))

/-- SUB (R91). -/
def execSSub (ctx : BitVec 7) (rd ra rb : GReg) (s : State) : Host.Outcome State Fault Refusal :=
  .next (s.stepIns ctx (.sub rd ra rb))

/-- AND (R91). -/
def execSAnd (ctx : BitVec 7) (rd ra rb : GReg) (s : State) : Host.Outcome State Fault Refusal :=
  .next (s.stepIns ctx (.and rd ra rb))

/-- OR (R91). -/
def execSOr (ctx : BitVec 7) (rd ra rb : GReg) (s : State) : Host.Outcome State Fault Refusal :=
  .next (s.stepIns ctx (.or rd ra rb))

/-- XOR (R91). -/
def execSXor (ctx : BitVec 7) (rd ra rb : GReg) (s : State) : Host.Outcome State Fault Refusal :=
  .next (s.stepIns ctx (.xor rd ra rb))

/-- SHL (R91). -/
def execSShl (ctx : BitVec 7) (rd ra rb : GReg) (s : State) : Host.Outcome State Fault Refusal :=
  .next (s.stepIns ctx (.shl rd ra rb))

/-- SHR (R91). -/
def execSShr (ctx : BitVec 7) (rd ra rb : GReg) (s : State) : Host.Outcome State Fault Refusal :=
  .next (s.stepIns ctx (.shr rd ra rb))

/-- ADDI (R91). -/
def execSAddi (ctx : BitVec 7) (rd ra : GReg) (imm : BitVec 18) (s : State) : Host.Outcome State Fault Refusal :=
  .next (s.stepIns ctx (.addi rd ra imm))

/-- ANDI (R91). -/
def execSAndi (ctx : BitVec 7) (rd ra : GReg) (imm : BitVec 18) (s : State) : Host.Outcome State Fault Refusal :=
  .next (s.stepIns ctx (.andi rd ra imm))

/-- ORI (R91). -/
def execSOri (ctx : BitVec 7) (rd ra : GReg) (imm : BitVec 18) (s : State) : Host.Outcome State Fault Refusal :=
  .next (s.stepIns ctx (.ori rd ra imm))

/-- XORI (R91). -/
def execSXori (ctx : BitVec 7) (rd ra : GReg) (imm : BitVec 18) (s : State) : Host.Outcome State Fault Refusal :=
  .next (s.stepIns ctx (.xori rd ra imm))

/-- SHLI (R91). -/
def execSShli (ctx : BitVec 7) (rd ra : GReg) (imm : BitVec 18) (s : State) : Host.Outcome State Fault Refusal :=
  .next (s.stepIns ctx (.shli rd ra imm))

/-- SHRI (R91). -/
def execSShri (ctx : BitVec 7) (rd ra : GReg) (imm : BitVec 18) (s : State) : Host.Outcome State Fault Refusal :=
  .next (s.stepIns ctx (.shri rd ra imm))

/-- MOVI (R91). -/
def execSMovi (ctx : BitVec 7) (rd : GReg) (lane : BitVec 2) (imm : BitVec 16) (s : State) : Host.Outcome State Fault Refusal :=
  .next (s.stepIns ctx (.movi rd lane imm))

/-- MOVK (R91). -/
def execSMovk (ctx : BitVec 7) (rd : GReg) (lane : BitVec 2) (imm : BitVec 16) (s : State) : Host.Outcome State Fault Refusal :=
  .next (s.stepIns ctx (.movk rd lane imm))

/-- MUL (R91). -/
def execSMul (ctx : BitVec 7) (rd ra rb : GReg) (s : State) : Host.Outcome State Fault Refusal :=
  .next (s.stepIns ctx (.mul rd ra rb))

/-- MULHI (R91). -/
def execSMulhi (ctx : BitVec 7) (rd ra rb : GReg) (s : State) : Host.Outcome State Fault Refusal :=
  .next (s.stepIns ctx (.mulhi rd ra rb))

/-- DIVM (R91, R95, R364). -/
def execSDivm (ctx : BitVec 7) (rd ra rb : GReg) (s : State) : Host.Outcome State Fault Refusal :=
  .next (s.stepIns ctx (.divm rd ra rb))

/-- MODR (R91, R95, R364). -/
def execSModr (ctx : BitVec 7) (rd ra rb : GReg) (s : State) : Host.Outcome State Fault Refusal :=
  .next (s.stepIns ctx (.modr rd ra rb))

/-- MIX (R91, R92). -/
def execSMix (ctx : BitVec 7) (rd ra rb : GReg) (s : State) : Host.Outcome State Fault Refusal :=
  .next (s.stepIns ctx (.mix rd ra rb))

/-- SLTU (R91). -/
def execSSltu (ctx : BitVec 7) (rd ra rb : GReg) (s : State) : Host.Outcome State Fault Refusal :=
  .next (s.stepIns ctx (.sltu rd ra rb))

/-- SEQ (R91). -/
def execSSeq (ctx : BitVec 7) (rd ra rb : GReg) (s : State) : Host.Outcome State Fault Refusal :=
  .next (s.stepIns ctx (.seq rd ra rb))

/-- SEL (R91). -/
def execSSel (ctx : BitVec 7) (rd rc ra rb : GReg) (s : State) : Host.Outcome State Fault Refusal :=
  .next (s.stepIns ctx (.sel rd rc ra rb))

/-- BZ (R91). -/
def execSBz (ctx : BitVec 7) (ra : GReg) (off : BitVec 8) (s : State) : Host.Outcome State Fault Refusal :=
  .next (s.stepIns ctx (.bz ra off))

/-- BNZ (R91). -/
def execSBnz (ctx : BitVec 7) (ra : GReg) (off : BitVec 8) (s : State) : Host.Outcome State Fault Refusal :=
  .next (s.stepIns ctx (.bnz ra off))

/-- BR (R91). -/
def execSBr (ctx : BitVec 7) (off : BitVec 8) (s : State) : Host.Outcome State Fault Refusal :=
  .next (s.stepIns ctx (.br off))

/-- SKEQ (R91). -/
def execSSkeq (ctx : BitVec 7) (ra rb : GReg) (s : State) : Host.Outcome State Fault Refusal :=
  .next (s.stepIns ctx (.skeq ra rb))

/-- SKNE (R91). -/
def execSSkne (ctx : BitVec 7) (ra rb : GReg) (s : State) : Host.Outcome State Fault Refusal :=
  .next (s.stepIns ctx (.skne ra rb))

/-- SKLT (R91). -/
def execSSklt (ctx : BitVec 7) (ra rb : GReg) (s : State) : Host.Outcome State Fault Refusal :=
  .next (s.stepIns ctx (.sklt ra rb))

/-- A table word that failed its check in all three places (R81): every set that names the slot is PRESERVED, and the lookup ends. -/
def State.tableLost (s : State) (ctx : BitVec 7) (slot : BitVec 7) : State :=
  let (s, b) := s.freeByte
  let named := (s.sets.filter (fun e => decide (e.2.state ≠ .empty) && e.2.revisions.any (fun r => decide (r.slot = slot)))).map
    (fun e => e.1)
  named.foldl (fun s i => s.preserve i) ((s.setCtx ctx.toNat SCtx.at0).raise 0x4D .contain b)

/-- LDT (R80, R81, R91, R93): `words` is what the check of the word read found, in a chart program's table. -/
def execSLdt (ctx : BitVec 7) (rd ra : GReg) (table width : BitVec 2) (words : TableWords) (s : State) :
    Host.Outcome State Fault Refusal :=
  let i : SIns := .ldt rd ra table width
  let c := s.ctx ctx.toNat
  match c.use, s.atIns ctx i && (c.exec (s.ctxPtest c) i).ended.isNone, words with
  | .lookup req, true, .allBad => .next (s.tableLost ctx req.rev.slot)
  | .lookup _, true, .mapBad =>
    let (s, b) := s.freeByte
    .next ((s.stepIns ctx i).raise 0x4C .warn b)
  | .lookup _, true, .cacheBad =>
    let (s, b) := s.freeByte
    .next ((s.stepIns ctx i).raise 0x4C .note b)
  | _, _, _ => .next (s.stepIns ctx i)

/-- PTEST (R91, R94). -/
def execSPtest (ctx : BitVec 7) (rd ra : GReg) (s : State) : Host.Outcome State Fault Refusal :=
  .next (s.stepIns ctx (.ptest rd ra))

/-- EMIT (R72, R91). -/
def execSEmit (ctx : BitVec 7) (ra rb : GReg) (s : State) : Host.Outcome State Fault Refusal :=
  .next (s.stepIns ctx (.emit ra rb))

/-- FAULT (R91, R95, R364). -/
def execSFault (ctx : BitVec 7) (code : BitVec 14) (s : State) : Host.Outcome State Fault Refusal :=
  .next (s.stepIns ctx (.fault code))

/-- DONE (R91). -/
def execSDone (ctx : BitVec 7) (s : State) : Host.Outcome State Fault Refusal :=
  .next (s.stepIns ctx (.done))

/-! ## Control registers and the event log (R361, R363) -/

/-- The control register that a CRR names (R361). -/
def State.controlReg (s : State) (c : SCtx) (i : Nat) : Word64 :=
  if i < 0x10 then s.reg (Reg.fltScratch i)
  else if i = 0x10 then s.wch.fixNs
  else if i = 0x11 then s.watch.setWidth 64
  else if i = 0x12 then BitVec.ofNat 64 s.wchStat
  else if i = 0x20 then BitVec.ofNat 64 s.fltFirstWord
  else if i = 0x21 then BitVec.ofNat 64 (s.regField Reg.fltPinLevel 0 2)
  else if i = 0x22 then c.setSel
  else if i = 0x23 then BitVec.ofNat 64 (s.setWord (c.setSel.toNat % 64))
  else if i = 0x24 then c.srcSel
  else if i = 0x25 then BitVec.ofNat 64 (s.fltSrcWord (BitVec.ofNat 8 c.srcSel.toNat))
  else if i = 0x30 then BitVec.ofNat 64 s.logStatWord
  else if i = 0x31 then BitVec.ofNat 64 s.rbsStatWord
  else 0

/-- CRR (R361): in a reaction alone. -/
def execSCrr (ctx : BitVec 7) (rd : GReg) (index : BitVec 14) (s : State) : Host.Outcome State Fault Refusal :=
  let c := s.ctx ctx.toNat
  if s.atIns ctx (.crr rd index) then .next (s.setCtx ctx.toNat (c.putNext rd (s.controlReg c index.toNat))) else .next s

/-- The control register that a CRW writes (R361): a selector lasts for the reaction. -/
def State.putControl (s : State) (ctx : BitVec 7) (c : SCtx) (i : Nat) (v : Word64) : State :=
  if i < 0x10 then (s.setCtx ctx.toNat c).setReg (Reg.fltScratch i) v
  else if i = 0x21 then ((s.setCtx ctx.toNat c).setRegN Reg.fltPinLevel (v.toNat % 4)).evalPin
  else if i = 0x22 then s.setCtx ctx.toNat { c with setSel := v }
  else if i = 0x24 then s.setCtx ctx.toNat { c with srcSel := v }
  else s.setCtx ctx.toNat c

/-- CRW (R361). -/
def execSCrw (ctx : BitVec 7) (ra : GReg) (index : BitVec 14) (s : State) : Host.Outcome State Fault Refusal :=
  let c := s.ctx ctx.toNat
  if s.atIns ctx (.crw ra index) then .next (s.putControl ctx (c.jump 1) index.toNat (c.get ra)) else .next s

/-- An entry of the reaction event log (R363): a code with bit 13 set asserts the alert. -/
def State.logEvent (s : State) (r : Reaction) (code : BitVec 14) (payload : Word64) : State :=
  let seq := s.flt.revSeq + 1
  let e : RevEntry := { code := code, source := r.source, level := r.level, seq := seq, payload := payload }
  let s := s.withFlt { s.flt with rev := Tab.set s.flt.rev none (seq.toNat % 16) (some e), revSeq := seq }
  if code.getLsbD 13 then s.setAlert else s

/-- RAISE (R363). -/
def execSRaise (ctx : BitVec 7) (ra : GReg) (event : BitVec 14) (s : State) : Host.Outcome State Fault Refusal :=
  let c := s.ctx ctx.toNat
  match s.atIns ctx (.raise ra event), c.use with
  | true, .reaction r => .next ((s.setCtx ctx.toNat (c.jump 1)).logEvent r event (c.get ra))
  | _, _ => .next s

/-! ## Actions (R362) -/

/-- An ACT of the reaction that runs: the action with its argument, or a program fault, cause 0x04, when the argument is invalid. -/
def State.act (s : State) (ctx : BitVec 7) (ra : GReg) (action : BitVec 14) (ok : Nat → Bool) (run : State → Nat → State) : State :=
  let c := s.ctx ctx.toNat
  match s.atIns ctx (.act ra action), c.use with
  | true, .reaction r =>
    if ok (c.get ra).toNat then run (s.setCtx ctx.toNat (c.jump 1)) (c.get ra).toNat
    else s.reactionFault c r 4 0
  | _, _ => s

/-- HALT (R362): REASON, KIND, RING, INDEX and LAP are zero. -/
def execActHalt (ctx : BitVec 7) (ra : GReg) (s : State) : Host.Outcome State Fault Refusal :=
  .next (s.act ctx ra 1 (fun _ => true) (fun s _ => s.halt { reason := 0, entry := none, silent := false }))

/-- PRESERVE (R36, R38, R362). -/
def execActPreserve (ctx : BitVec 7) (ra : GReg) (s : State) : Host.Outcome State Fault Refusal :=
  .next (s.act ctx ra 2 (fun v => decide (v < 64)) (fun s v => (s.preserve v).evalLog))

/-- STOP_SET (R34, R362): a RUNNING set enters DRAINING. -/
def execActStopSet (ctx : BitVec 7) (ra : GReg) (s : State) : Host.Outcome State Fault Refusal :=
  .next (s.act ctx ra 3 (fun v => decide (v < 64)) (fun s v =>
    if (s.set v).state = .running then (s.stopSet v).evalLog else s))

/-- FAIL_PORT (R167, R168, R362): detail 0x16; an absent or MERGED port is no argument. -/
def execActFailPort (ctx : BitVec 7) (ra : GReg) (s : State) : Host.Outcome State Fault Refusal :=
  .next (s.act ctx ra 4
    (fun v => decide (v < 256) && s.portPresent (BitVec.ofNat 8 v) && decide ((s.port (BitVec.ofNat 8 v)).state ≠ .merged))
    (fun s v => (s.failPort (BitVec.ofNat 8 v) 0x16 false).evalLog))

/-- CONTAIN_HOST (R362, R442): cause 0x09. -/
def execActContainHost (ctx : BitVec 7) (ra : GReg) (s : State) : Host.Outcome State Fault Refusal :=
  .next (s.act ctx ra 5 (fun v => decide (v < 2)) (fun s v => s.contain (decide (v = 1)) 9))

/-- CLEAR (R354, R362): with bit 8 every source, the source number ignored. -/
def execActClear (ctx : BitVec 7) (ra : GReg) (s : State) : Host.Outcome State Fault Refusal :=
  .next (s.act ctx ra 6 (fun v => decide (v < 512) && (decide (256 ≤ v) || sourceAssigned (BitVec.ofNat 8 v)))
    (fun s v => if 256 ≤ v then s.clearAllSources else s.clearSource (BitVec.ofNat 8 v)))

/-- LIFE (R120, R362): as LIFE_RECORD. -/
def execActLife (ctx : BitVec 7) (ra : GReg) (s : State) : Host.Outcome State Fault Refusal :=
  .next (s.act ctx ra 7 (fun _ => true) (fun s _ => s.appendLife))

/-! ## The start of a reaction (R358 to R360, R366, R367) -/

/-- The ROM program of a level (R367). -/
def romProgram (l : Level) : SProg :=
  { code := if l = .stop then [0xE0000001, 0xF0000000] else [0xF0000000], tables := [] }

/-- The program of a group and level (R359, R366): the loaded one once the metadata area has been restored. -/
def State.reactionProgram (s : State) (r : Reaction) : SProg :=
  let restored := decide (s.gcs.phase ≠ .boot) && decide (s.gcs.phase ≠ .survey) && decide (s.gcs.phase ≠ .romRecovery)
  match Tab.get s.flt.loaded none (4 * sourceGroup r.source + r.level.code) with
  | some p => if restored then p else romProgram r.level
  | none => romProgram r.level

/-- The registers at the start of a reaction (R360). -/
def Reaction.preloads (r : Reaction) : Tab Word64 :=
  [(1, r.source.setWidth 64), (2, BitVec.ofNat 64 r.level.code), (3, r.detail.setWidth 64),
   (4, BitVec.ofNat 64 (ofBool r.injected + 2 * ofBool r.escalated + 4 * ofBool r.latched + 8 * ofBool r.overflow)), (5, r.fixNs),
   (6, BitVec.ofNat 64 r.count), (7, BitVec.ofNat 64 r.nominal.code), (8, BitVec.ofNat 64 r.port)].foldl
    (fun t e => Tab.set t 0 e.1 e.2) []

/-- REACTION_START (R358, R359, R360): one reaction runs at a time, and none starts from a halt on. -/
def execReactionStart (s : State) : Host.Outcome State Fault Refusal :=
  match s.flt.queue with
  | [] => .next s
  | r :: rest =>
    if s.gcs.halted ∨ (s.ctx 64).use ≠ .idle then .next s
    else
      let s := (s.withFlt { s.flt with queue := rest }).count64 Reg.fltRxRun 1
      .next (s.setCtx 64 { SCtx.at0 with use := .reaction r, prog := s.reactionProgram r, g := r.preloads })

end Sys2Proof.Machine
end

