-- ==== Sys2Proof/Machine/PairLink.lean ====
section
/-! DEFINITION. The pair link and the pair states (spec/14_pair_and_chain.md R394 to R412, R420): flits in and out, the mirror half,
forwarded descriptors, joining, partner failure, takeover and fencing. -/

namespace Sys2Proof.Machine

/-! ## The link (R410 to R412) -/

/-- The link goes down (R406, R412): source 0xD1 with the cause; in PAIRED the partner is probed over the chain. -/
def State.linkLost (s : State) (detail : Byte) : State :=
  if !s.pair.link then s
  else
    let s := s.withPair { s.pair with link := false, lanesUp := 0, lanesHigh := false, failures := 0, nakRun := 0 }
    let s := s.raise 0xD1 .warn detail
    if s.pair.state ≠ .paired then s
    else
      let s := s.withPair { s.pair with probing := true }
      if s.pair.partnerValid then s.originate 0x08 [BitVec.ofNat 8 (ofBool s.pair.side)] else s

/-- PAIR_LINK_DOWN (R412): 20 µs of silence, replay exhausted, or fewer than 4 lanes. -/
def execPairLinkDown (detail : Byte) (s : State) : Host.Outcome State Fault Refusal := .next (s.linkLost detail)

/-- Whether a lane is in use: all 8, or after a retrain one half of them (R410). -/
def Pair.usesLane (p : Pair) (lane : Nat) : Bool := decide (p.lanesUp = 8) || decide (decide (4 ≤ lane) = p.lanesHigh)

/-- PAIR_LANE_RETRAIN (R410, R420): the link goes on with the 4 lanes of the other half; without 4 lanes it is down. -/
def execPairLaneRetrain (lane : BitVec 3) (s : State) : Host.Outcome State Fault Refusal :=
  if !s.pair.link ∨ !s.pair.usesLane lane.toNat then .next s
  else if s.pair.lanesUp = 8 then
    .next ((s.withPair { s.pair with lanesUp := 4, lanesHigh := decide (lane.toNat < 4) }).raise 0xD0 .note 4)
  else .next (s.linkLost 3)

/-- The sent flits that an ACK leaves unacknowledged (R411, R412). -/
def ackTrim (ack : BitVec 12) (buf : List (BitVec 12 × Nat × Nat × Bytes)) : List (BitVec 12 × Nat × Nat × Bytes) :=
  if buf.any (fun f => f.1 = ack) then (buf.dropWhile (fun f => f.1 ≠ ack)).drop 1 else buf

/-- A flit that failed its CRC or came out of order: answered with NAK; the fourth failure of one flit takes the link down (R412). -/
def State.badFlit (s : State) (again : Bool) : State :=
  let n := if again then s.pair.failures + 1 else 1
  let s := (s.withPair { s.pair with failures := n }).sendFlit 1 0 []
  if 4 ≤ n then s.linkLost 2 else s

/-- FLIT_ERROR (R412). -/
def execFlitError (again : Bool) (s : State) : Host.Outcome State Fault Refusal :=
  if s.pair.link then .next (s.badFlit again) else .next s

/-! ## Commits of the partner copy (R403, R404) -/

/-- The partner copy of the listed records is durable: those durable on this side commit, in order. -/
def State.partnerDurable (s : State) (seqs : List Nat) : State :=
  let s := s.withLog { s.log with recs := s.log.recs.map (fun r => if r.seq ∈ seqs ∧ r.status = .writing then { r with partner := true } else r) }
  ((s.log.recs.filter (fun r => decide (r.seq ∈ seqs) && decide (r.status = .writing) && r.localDone)).foldl
    (fun s r => s.commitRecord r) s).evalLog

/-! ## The mirror half (R402, R403) -/

/-- Units of one half of the journal (R402). -/
def State.halfUnits (s : State) : Nat := Config.journalUnits s.part / 2

/-- A record whose header unit stands at a position, none when the unit is no valid header (R113 to R119). -/
def recHeader (u : Bytes) (pos : Nat) : Option Rec :=
  if leAt u 0x38 8 ≠ (crc64 (sliceAt u 0 0x38)).toNat then none
  else
    let flags := byteAt u 1
    let typ? : Option RecType := match (byteAt u 0).toNat with
      | 1 => some .intent
      | 2 => some (if flags.getLsbD 0 then .commit else .data)
      | 3 => some .sealRec
      | 4 => some .retire
      | 5 => some .life
      | _ => none
    typ?.map (fun t =>
      let n := leAt u 2 2
      let r := { Rec.blank t n with seq := leAt u 4 8, pos := pos }
      match t with
      | .sealRec => { r with watch := BitVec.ofNat 48 (leAt u 0x18 6), fixNs := BitVec.ofNat 64 (leAt u 0x20 8), holdover := flags.getLsbD 0 }
      | .retire => { r with names := (List.range (min 5 (byteAt u 0x0C).toNat)).map (fun i => leAt u (0x10 + 8 * i) 8) }
      | .life => r
      | _ =>
        let first := (byteAt u 0x0E).toNat
        let count := if t = .intent then 0 else (byteAt u 0x0F).toNat + 1
        { r with set := BitVec.ofNat 6 (byteAt u 0x0C).toNat, profile := BitVec.ofNat 6 (byteAt u 0x0D).toNat, rowFirst := first,
                 rowCount := count, incarnation := BitVec.ofNat 32 (leAt u 0x10 4), generation := BitVec.ofNat 32 (leAt u 0x14 4),
                 watch := BitVec.ofNat 48 (leAt u 0x18 6), stripe := leAt u 0x20 6, stripeCount := leAt u 0x26 2,
                 fragMask := BitVec.ofNat 64 (leAt u 0x28 8), lwm := BitVec.ofNat 64 (leAt u 0x30 8),
                 encode := t = .commit && flags.getLsbD 1, zero := t = .data && flags.getLsbD 2, relocated := flags.getLsbD 3,
                 holdover := flags.getLsbD 4, names := if t = .data then (List.range count).map (first + ·) else [] })

/-- The payload of a record of the mirror half. -/
def State.mirrorPayload (s : State) (r : Rec) : Bytes :=
  (List.range (r.units - 2)).flatMap (fun i => sliceAt (Tab.get s.pair.mirrorUnits [] ((r.pos + 1 + i) % s.halfUnits)) 0 64)

/-- The sectors of a redo payload (R117): fragments ascending, rows ascending. -/
def redoSectors (r : Rec) (payload : Bytes) : List (Nat × Nat × Bytes) :=
  if r.units ≤ 2 then []
  else
    let fs := bitList 64 r.fragMask.toNat
    (List.range fs.length).flatMap (fun i => (List.range r.rowCount).map (fun j =>
      (fs.getD i 0, r.rowFirst + j, sliceAt payload ((i * r.rowCount + j) * 4096) 4096)))

/-- Whether the trailer of a record closes it (R114). -/
def trailerOk (r : Rec) (payload trailer : Bytes) : Bool :=
  decide (leAt trailer 0 8 = r.seq) && decide (leAt trailer 8 8 = (crc64 (payload ++ sliceAt trailer 0 8)).toNat)

/-- A record of the mirror half durable: what it retires is retired, the tail moves, and it is acknowledged (R119, R403). -/
def State.mirrorDone (s : State) (r : Rec) : State :=
  let put (q : Rec) : Rec :=
    let q := if q.seq = r.seq then { r with status := .committed } else q
    if r.typ = .retire ∧ q.seq ∈ r.names then { q with retired := true } else q
  let l := s.pair.mirror.map put
  let last := l.drop (l.length - 1)
  let kept := ({ s.log with recs := l }.trimmed l).1
  (s.withPair { s.pair with mirror := if kept.isEmpty then last else kept }).sendFlit 3 r.seq (leBytes 8 r.seq)

/-- One unit written into the mirror half. Only the unit that follows the last record may be a header: payload is never read as one
(R140). -/
def State.mirrorUnit (s : State) (pos : Nat) (u : Bytes) : State :=
  let h := s.halfUnits
  let pos := pos % h
  let s := s.withPair { s.pair with mirrorUnits := Tab.set s.pair.mirrorUnits [] pos u }
  let next := s.pair.mirror.getLast?.map (fun r => (r.pos + r.units) % h)
  if next.isNone ∨ next = some pos then
    match recHeader u pos with
    | none => s
    | some r =>
      let s := s.withPair { s.pair with mirror := s.pair.mirror ++ [r] }
      if r.units = 1 then s.mirrorDone r else s
  else match s.pair.mirror.find? (fun r => decide (r.status = .writing) && decide ((r.pos + r.units - 1) % h = pos)) with
    | none => s
    | some r =>
      let payload := s.mirrorPayload r
      if trailerOk r payload u then s.mirrorDone { r with sectors := redoSectors r payload } else s

/-- The units of a MIRROR flit written at its position and the ones that follow it. -/
def State.mirrorRun (s : State) : Nat → List Bytes → State
  | _, [] => s
  | pos, u :: rest => (s.mirrorUnit pos u).mirrorRun (pos + 1) rest

/-! ## Forwarded descriptors: the owner (R401) -/

/-- A forwarded descriptor as the owner sees it: its data ranges belong to the reading side. -/
def fwdDesc (f : FwdDesc) : Desc :=
  let d := descOf (f.index.toNat + 2 ^ 16 * ofBool f.lap) f.bytes
  { d with mode := 0, addr0 := 0, addr1 := 0, len0 := 0, len1 := 0 }

/-- The reference of a forwarded descriptor, as Io.ref. -/
def fwdRef (f : FwdDesc) : Nat := f.ring.toNat % 1024 + 2 ^ 16 * (f.index.toNat + 2 ^ 16 * ofBool f.lap)

/-- A forwarded descriptor admitted: an I/O of this side, marked as forwarded. -/
def State.admitFwd (s : State) (f : FwdDesc) (kind : IoKind) : State :=
  let d := fwdDesc f
  let ring : BitVec 10 := BitVec.ofNat 10 f.ring.toNat
  let set : BitVec 6 := BitVec.ofNat 6 d.set.toNat
  let s := s.count64 Reg.rngAdmitted 1
  match kind with
  | .read =>
    let io := { newIo s.nextId ring .read d s.watch 0 false with fwd := true }
    let s := ((s.withNextId (s.nextId + 1)).withIos (s.ios ++ [io])).grant (fwdRef f) stOk 0 s.watch 0
    let (s, io) := s.readBlocks io d.lbas
    let s := s.setIo io
    if io.waits.isEmpty then s.ioGathered io else s.sealReads io
  | .verify =>
    let io := { newIo s.nextId ring .verify d s.watch 0 false with fwd := true }
    let s := ((s.withNextId (s.nextId + 1)).withIos (s.ios ++ [io])).grant (fwdRef f) stOk 0 s.watch 0
    let (s, io) := s.verifyRows io (s.verifyBlocks set d)
    let s := s.setIo io
    let a := s.set set.toNat
    if io.waits.isEmpty then s.ioGathered io
    else io.waits.foldl (fun s w =>
      let (stripe, frag, row) := s.placeOfBlock a w.2
      s.startRow set (a.revFor stripe) stripe row frag w.1 .verify (.verify io.id) []) s
  | _ => s.bindWrite ring d .notNeeded true

/-- One forwarded descriptor tried: admitted, refused with its status, or kept waiting (R37, R399, R401). -/
def State.tryFwd (s : State) (f : FwdDesc) : State × Bool :=
  let d := fwdDesc f
  let a := s.set (d.set.toNat % 64)
  let kind? : Option IoKind := match d.opcode.toNat with
    | 1 => some .read
    | 2 => some .write
    | 3 => some .writeZeroes
    | 4 => some .verify
    | _ => none
  match kind? with
  | none => (s, true)
  | some kind =>
    if s.gcs.halted ∨ !s.scc.ready ∨ ¬ (s.gcs.phase = .running ∨ s.gcs.phase = .dock) ∨ a.replaying ∨
        s.watch.toNat < a.ownedFrom.toNat then (s, false)
    else match s.admitCheck d .notNeeded with
      | some (st, det) => (s.grant (fwdRef f) st det 0 0, true)
      | none =>
        if d.writes then
          let parts := s.partsOf a d.lbas
          if parts.any (fun p => s.partLost (BitVec.ofNat 6 d.set.toNat) a p) then (s.grant (fwdRef f) stMediaLost 0 0 0, true)
          else if s.writeMustWait d then (s, false) else (s.leaveDock.admitFwd f kind, true)
        else if (s.stripesOf d).any (fun t => a.resyncing t) then (s, false)
        else (s.leaveDock.admitFwd f kind, true)

/-- The waiting forwarded descriptors tried in order; those of a ring whose earlier one waits wait too (R224, R401). -/
def State.drainFwd (s : State) (held : List Half) : List FwdDesc → State
  | [] => s
  | f :: rest =>
    if f.ring ∈ held then s.drainFwd held rest
    else match s.tryFwd f with
      | (s, true) => (s.withPair { s.pair with forwarded := s.pair.forwarded.filter (fun g => g ≠ f) }).drainFwd held rest
      | (s, false) => s.drainFwd (f.ring :: held) rest

/-! ## Forwarded descriptors: the reading side (R401) -/

/-- The entry that this side forwarded under a reference. -/
def State.awayIo (s : State) (ref : Nat) : Option Io := s.ios.find? (fun io => io.away && decide (s.awayRef io.ring io.desc = ref))

/-- The I/O of the partner that this side serves under a reference. -/
def State.fwdIo (s : State) (ref : Nat) : Option Io := s.ios.find? (fun io => io.fwd && decide (io.ref = ref))

/-- The outcome of admission at the owner: a refused entry completes here; the data of a WRITE is fetched (R401). -/
def State.fwdGranted (s : State) (ref : Nat) (status detail : Byte) (watch : BitVec 48) (gen : Word32) : State :=
  match s.awayIo ref with
  | none => s
  | some io =>
    if status ≠ stOk then s.finishIo io status detail io.desc.lba io.desc.blocks
    else
      let io := { io with watch := watch, generation := gen }
      let s := s.setIo io
      if io.kind ≠ .write then s
      else s.queueTransfer (if io.desc.mode = 2 then 3 else 1) { Transfer.blank with
        io := some io.id, port := s.ringPort (.data io.ring), bytes := io.desc.blocks * 4096, srcs := io.ranges,
        srcPool := decide (io.desc.mode = 2) }

/-- A piece of data under a reference: of a WRITE that this side owns, journaled once it is whole, or of a READ that it forwarded,
written to host memory once it is whole (R401). -/
def State.fwdBytes (s : State) (ref : Nat) (data : Bytes) : State :=
  match s.fwdIo ref with
  | some io =>
    if io.kind ≠ .write ∨ io.dataIn then s
    else
      let io := { io with inbound := io.inbound ++ data }
      if io.inbound.length < io.desc.blocks * 4096 then s.setIo io
      else (s.setIo { io with inbound := [] }).writeArrived { io with inbound := [] } io.inbound
  | none =>
    match s.awayIo ref with
    | none => s
    | some io =>
      if io.kind ≠ .read ∨ !io.blocks.isEmpty then s
      else
        let io := { io with inbound := io.inbound ++ data }
        if io.inbound.length < io.desc.blocks * 4096 then s.setIo io
        else
          let io := { io with inbound := [], blocks := (List.range io.desc.blocks).map (fun i => (io.desc.lba + i, sliceAt io.inbound (4096 * i) 4096)) }
          (s.setIo io).ioGathered io

/-- A forwarded entry ended at the owner: it completes here, a READ with OK once its data is in host memory (R401). -/
def State.fwdEnded (s : State) (ref : Nat) (status detail : Byte) : State :=
  match s.awayIo ref with
  | none => s
  | some io => if status = stOk ∧ io.kind = .read then s else s.finishIo io status detail io.desc.lba io.desc.blocks

/-! ## Good flits -/

/-- A flit of a live link (R411, R412): taken when it is next in order, the first one after training whatever its SEQ (log entry
35); it acknowledges sent flits, acts, and lets waiting descriptors of the partner be tried. -/
def State.goodFlit (s : State) (h : FlitHdr) (run : State → State) : State :=
  if !s.gcs.pwrgd ∨ !Config.hasPair s.part ∨ ¬ (s.pair.state = .joining ∨ s.pair.state = .paired) then s
  else if s.pair.link ∧ h.seq ≠ s.pair.seqRx + 1 then s.badFlit false
  else
    let p := s.pair
    let s := (s.withPair { p with
      link := true, lanesUp := if p.link then p.lanesUp else 8, seqRx := h.seq, failures := 0,
      replayBuf := ackTrim h.ack p.replayBuf }).count64 Reg.pairFlitsRx 1
    let s := run s
    s.drainFwd [] s.pair.forwarded

/-- IDLE (R411). -/
def execFlitIdle (h : FlitHdr) (s : State) : Host.Outcome State Fault Refusal := .next (s.goodFlit h (fun s => s))

/-- The flits after an ACK sent again; the fourth failure of one flit takes the link down (R412). -/
def State.replayFlits (s : State) (ack : BitVec 12) : State :=
  let n := if s.pair.nakRun ≠ 0 ∧ s.pair.nakSeq = ack then s.pair.nakRun + 1 else 1
  let s := s.withPair { s.pair with nakSeq := ack, nakRun := n }
  if 4 ≤ n then s.linkLost 2
  else s.pair.replayBuf.foldl (fun s f =>
    (s.count32 Reg.pairReplays 1).emit (.flit f.1 s.pair.seqRx f.2.1 f.2.2.1 f.2.2.2)) s

/-- NAK (R412). -/
def execFlitNak (h : FlitHdr) (s : State) : Host.Outcome State Fault Refusal := .next (s.goodFlit h (fun s => s.replayFlits h.ack))

/-- MIRROR (R402, R403): written in the Hold state too. -/
def execFlitMirror (h : FlitHdr) (position : Word64) (units : List Bytes) (s : State) : Host.Outcome State Fault Refusal :=
  .next (s.goodFlit h (fun s => if s.pair.state = .paired then s.mirrorRun position.toNat (units.take 3) else s))

/-- MIRROR_ACK (R403). -/
def execFlitMirrorAck (h : FlitHdr) (seqs : List Word64) (s : State) : Host.Outcome State Fault Refusal :=
  .next (s.goodFlit h (fun s => s.partnerDurable (seqs.map (fun q => q.toNat))))

/-- FWD_DESC (R401): the descriptors join those that wait for admission. -/
def execFlitFwdDesc (h : FlitHdr) (descs : List FwdDesc) (s : State) : Host.Outcome State Fault Refusal :=
  .next (s.goodFlit h (fun s =>
    if s.pair.state = .paired then s.withPair { s.pair with forwarded := s.pair.forwarded ++ descs.take 3 } else s))

/-- FWD_GRANT (R401). -/
def execFlitFwdGrant (h : FlitHdr) (ref : Word64) (status detail : Byte) (watch : BitVec 48) (gen : Word32) (s : State) :
    Host.Outcome State Fault Refusal := .next (s.goodFlit h (fun s => s.fwdGranted ref.toNat status detail watch gen))

/-- FWD_DATA (R401). -/
def execFlitFwdData (h : FlitHdr) (ref : Word64) (data : Bytes) (s : State) : Host.Outcome State Fault Refusal :=
  .next (s.goodFlit h (fun s => s.fwdBytes ref.toNat (data.take 192)))

/-- FWD_DONE (R401). -/
def execFlitFwdDone (h : FlitHdr) (ref : Word64) (status detail : Byte) (s : State) : Host.Outcome State Fault Refusal :=
  .next (s.goodFlit h (fun s => s.fwdEnded ref.toNat status detail))

/-- SEAL_READY (R405). -/
def execFlitSealReady (h : FlitHdr) (watch : BitVec 48) (holdover : Bool) (s : State) : Host.Outcome State Fault Refusal :=
  .next (s.goodFlit h (fun s =>
    if s.pair.state = .paired then
      (s.withWch { s.wch with partnerReady := s.wch.partnerReady ++ [(watch, holdover)] }).trySeal
    else s))

/-- META (R397): a page of the metadata area, whose format is internal (R109, log entry 36), or the pair token: this side takes it, or
gives it up when it holds it. -/
def execFlitMeta (h : FlitHdr) (token : Bool) (page : Bytes) (s : State) : Host.Outcome State Fault Refusal :=
  .next (s.goodFlit h (fun s =>
    if !token ∨ !page.isEmpty then s
    else if s.pair.token then (s.withPair { s.pair with token := false }).sendFlit 9 0 []
    else s.withPair { s.pair with token := true }))

/-! ## Partner failure (R404, R406, R407) -/

/-- The entries that this side forwarded return to the front of their rings: the survivor's own admission takes them (R401). -/
def State.recallAway (s : State) : State :=
  let l := s.ios.filter (fun io => io.away)
  let s := s.withIos (s.ios.filter (fun io => !io.away))
  l.foldr (fun io s => s.modRing (.data io.ring) (fun g => { g with queue := io.desc :: g.queue })) s

/-- The partner's work on this side ends with its rings (R408): what waits is dropped, and what is not committed ends. -/
def State.dropPartner (s : State) : State :=
  let gone := s.ios.filter (fun io => io.fwd && !io.dataIn)
  let s := s.withPair { s.pair with forwarded := [] }
  raised (s.endIos (fun _ => (stAborted, 0)) gone)

/-- The partner declared failed (R404, R406, R407, R419): TAKEOVER, the alert, source 0xD2; side 0 asserts its fence at once, side 1
after a further wait; commits that wait for the partner are released. -/
def State.declareFailed (s : State) (detail : Byte) : State :=
  let side := s.pair.side
  let s := (s.withPair { s.pair with
    state := .takeover, probing := false, token := false, fenceOut := s.pair.fenceOut || !side, fenceWait := side }).setAlert
  let s := s.raise 0xD2 .warn detail
  let s := s.partnerDurable (s.log.recs.map (fun r => r.seq))
  s.dropPartner.recallAway

/-- HALT_NOTICE (R406). -/
def execFlitHaltNotice (h : FlitHdr) (s : State) : Host.Outcome State Fault Refusal :=
  .next (s.goodFlit h (fun s => if s.pair.state = .paired then s.declareFailed 1 else s))

/-- PROBE_TIMEOUT (R406): no reply within 100 µs. -/
def execProbeTimeout (s : State) : Host.Outcome State Fault Refusal :=
  if s.pair.state = .paired ∧ s.pair.probing then .next (s.declareFailed 2) else .next s

/-- PROBE_REPLY (R406): a partner alive with its link down is fenced by side 0, and side 1 waits to be fenced. A reply from a partner
in no pair state but FENCED or SINGLE reports it alive. -/
def execProbeReply (pairState : BitVec 3) (linkDown : Bool) (s : State) : Host.Outcome State Fault Refusal :=
  let alive := decide (1 ≤ pairState.toNat) && decide (pairState.toNat ≤ 4)
  let s := if s.gcs.pwrgd && s.chn.address.isSome then s.count32 Reg.chnFramesRx 1 else s
  if s.pair.state ≠ .paired ∨ !s.pair.probing ∨ !alive then .next s
  else if linkDown ∧ !s.pair.side then .next (s.declareFailed 3)
  else .next (s.withPair { s.pair with probing := false })

/-- FENCE_WAIT_EXPIRY (R406): side 1 asserts its fence output. -/
def execFenceWaitExpiry (s : State) : Host.Outcome State Fault Refusal :=
  if s.pair.state = .takeover ∧ s.pair.fenceWait then
    .next (s.withPair { s.pair with fenceWait := false, fenceOut := true })
  else .next s

/-- PAIR_WAIT_EXPIRY (R395): JOINING after a reset, WAIT_S without the link. -/
def execPairWaitExpiry (s : State) : Host.Outcome State Fault Refusal :=
  if s.pair.state = .joining ∧ s.pair.afterReset ∧ !s.pair.link then
    let s := s.withPair { s.pair with afterReset := false }
    .next (s.declareFailed 4)
  else .next s

/-! ## Takeover (R407, R408) -/

/-- SEQ of an adopted record on this side: apart from this side's own. -/
def adoptedSeq (n : Nat) : Nat := 2 ^ 64 + n

/-- The records of the mirror half that are adopted (R404, R407): committed and not retired, each keeping its place there. -/
def State.adoptedRecs (s : State) : List Rec :=
  (s.pair.mirror.filter (fun r => r.status = .committed && !r.retired && (r.typ = .data || r.typ = .commit || r.typ = .intent))).map
    (fun r => { r with seq := adoptedSeq r.seq, mirror := true, sealedAck := (s.set r.set.toNat).sealedAck && decide (r.typ = .data) })

/-- The highest GENERATION count of any header of a set and watch in the mirror half (R408). -/
def State.mirrorCount (s : State) (id : Nat) : Nat :=
  (s.pair.mirror.filter (fun r => decide (r.set.toNat = id) && decide (r.watch = s.watch) &&
    (r.typ = .data || r.typ = .commit || r.typ = .intent))).foldl (fun m r => max m (r.generation.toNat % 2 ^ 31 + 1)) 0

/-- One adopted COMMIT record: its drive writes are issued again from the record, as a stripe commit whose record it is (R131, R407). -/
def State.adoptCommit (s : State) (id : Nat) (data : List Rec) (c : Rec) : State :=
  let a := s.set id
  let p := s.setProfile a
  let rows := (List.range c.rowCount).map (c.rowFirst + ·)
  let found := rows.flatMap (fun row => (List.range p.k).filterMap (fun f => (newestUpTo data c.stripe f row c.ver).map (fun r => (f, row, r))))
  let op : CommitOp :=
    { id := s.nextId, set := c.set, stripe := c.stripe, rowFirst := c.rowFirst, rowCount := c.rowCount, vp := c.ver, lwm := c.lwm,
      zero := c.zero, holdover := c.holdover, rev := a.revFor c.stripe, rmw := false, encode := c.encode, got := [], waits := [],
      data := found.map (fun x => { frag := x.1, row := x.2.1, data := x.2.2.sectorAt x.1 x.2.1, ver := x.2.2.ver, zero := x.2.2.zero,
                                    holdover := x.2.2.holdover }),
      parity := if c.encode then rows.flatMap (fun row =>
          (p.parities.zip (p.encode 4096 ((found.filter (fun x => x.2.1 = row)).map (fun x => x.2.2.sectorAt x.1 row)))).map
            (fun y => (y.1, row, y.2)))
        else c.sectors,
      dataRecs := ((found.map (fun x => x.2.2.seq))).eraseDups, record := some c.seq, intent := none, tried := false }
  let s := (s.withNextId (s.nextId + 1)).withCommits (s.commits ++ [op])
  (s.commitStore op c.seq).settle c.seq

/-- One set of the partner adopted (R399, R407, R408): owned by this side, its records stripe-committed or resynced here. -/
def State.adoptSet (s : State) (id : Nat) : State :=
  let n := s.mirrorCount id
  let s := s.modSet id (fun a => { a with side := s.pair.side, adopted := some s.watch, genWatch := s.watch, generation := n, ownedFrom := 0 })
  let cs := s.liveRecs id .commit
  let ds := s.liveRecs id .data
  let is := s.liveRecs id .intent
  let s := s.modSet id (fun a => { a with
    resync := a.resync ++ is.map (fun r => { seq := r.seq, stripe := r.stripe, count := max 1 r.stripeCount, rowsDone := [],
                                             watch := r.watch, generation := r.generation }) })
  let s := (byVersion cs).foldl (fun s c => s.adoptCommit id ds c) s
  let s := (byVersion ds).foldl (fun s r =>
    let rows := ((List.range r.rowCount).map (r.rowFirst + ·)).filter (fun row => !coveredBy cs r row)
    let s := if rows.isEmpty then s.modRec r.seq (fun q => { q with covered := true }) else s
    rows.foldl (fun s row => (bitList 64 r.fragMask.toNat).foldl (fun s f => s.restoreSector r f row) s) s) s
  ds.foldl (fun s r => s.stripeCommit r.set r.stripe r.rowFirst r.rowCount) s

/-- TAKEOVER_COMPLETE (R395, R396, R407): the mirror half and the partner's sets are adopted; ALONE, the epoch one more. -/
def execTakeoverComplete (s : State) : Host.Outcome State Fault Refusal :=
  if s.pair.state ≠ .takeover ∨ s.pair.fenceWait then .next s
  else
    let theirs := (List.range 64).filter (fun i => decide ((s.set i).state ≠ .empty) && decide ((s.set i).side ≠ s.pair.side))
    let s := s.withLog { s.log with recs := s.log.recs ++ s.adoptedRecs }
    let s := theirs.foldl (fun s i => s.adoptSet i) s
    let s := s.withPair { s.pair with
      state := .alone, epoch := s.pair.epoch + 1, takeovers := (s.pair.takeovers + 1) % 2 ^ 32, mirror := [], mirrorUnits := [] }
    .next s.evalLog.returnSets.trySeal

/-! ## Joining (R395, R396) -/

/-- The Device ID of the part (R1, R425). -/
def deviceId : Part → Nat
  | .np9256 => 0x9256
  | .np9192 => 0x9192
  | .np9128 => 0x9128

/-- The lowest-numbered non-EMPTY set of this side. -/
def State.firstSet (s : State) : Option Nat := (List.range 64).find? (fun i => decide ((s.set i).state ≠ .empty))

/-- The ports of check 4: the members of this side's non-EMPTY sets, or the ports that the partner reports when it holds the sets. -/
def State.joinPorts (s : State) (ps : PartnerState) : List Nat :=
  match s.firstSet with
  | some _ => (List.range 256).filter (fun p => s.sets.any (fun e => decide (e.2.state ≠ .empty) && decide (BitVec.ofNat 8 p ∈ e.2.members)))
  | none => if ps.lowestState.isSome then ps.nguids.map (fun e => e.1) else []

/-- The first port of check 4 that fails: no dual-ported drive of one NGUID on both sides. -/
def State.badPort (s : State) (ps : PartnerState) : Option Nat :=
  (s.joinPorts ps).find? (fun p =>
    let v := s.port (BitVec.ofNat 8 p)
    !(decide (v.state = .ready) && v.dual && ps.nguids.any (fun e => decide (e.1 = p) && decide (e.2 = v.nguid))))

/-- The first check of R396 that fails: the status and detail of the reply, the reason, and the port. -/
def State.joinFault (s : State) (ps : PartnerState) : Option (Byte × Byte × Nat × Nat) :=
  let p := s.pair
  let lowSide := if p.epoch = ps.epoch then true else if p.epoch.toNat < ps.epoch.toNat then p.side else ps.side
  let lowState? : Option Nat := if lowSide = p.side then s.firstSet.map (fun i => (s.set i).state.code) else ps.lowestState.map (fun v => v.toNat)
  if ps.side = p.side then some (stBadField, 0x10, 1, 0)
  else if ps.device.toNat ≠ deviceId s.part then some (stBadField, 0x10, 2, 0)
  else match lowState? with
    | some c => if ps.sameState then (s.badPort ps).map (fun q => (stBadField, 0x10, 4, q)) else some (stSetState, BitVec.ofNat 8 c, 3, 0)
    | none => (s.badPort ps).map (fun q => (stBadField, 0x10, 4, q))

/-- The reply of the PAIR_JOIN in progress. -/
def State.answerJoin (s : State) (status detail : Byte) (result : Bytes) : State :=
  match s.pair.joinSrc.bind (fun src => s.interp.deferred.find? (fun d => d.src = src)) with
  | none => s.withPair { s.pair with joinSrc := none }
  | some d => (s.withPair { s.pair with joinSrc := none }).endDeferred d status detail result

/-- The join ended: the former state after a PAIR_JOIN, whose fence output ALONE asserts again; after a reset JOINING goes on (log
entry 35). -/
def State.leaveJoin (s : State) : State :=
  if s.pair.afterReset then s
  else s.withPair { s.pair with state := s.pair.former, link := false, lanesUp := 0, fenceOut := decide (s.pair.former = .alone) }

/-- A failed check of R396 (R420, R421). -/
def State.joinFailed (s : State) (f : Byte × Byte × Nat × Nat) : State :=
  let s := s.setRegN Reg.pairJoinFail (f.2.2.1 + 2 ^ 8 * f.2.2.2)
  (s.leaveJoin.answerJoin f.1 f.2.1 []).raise 0xD4 .note (BitVec.ofNat 8 f.2.2.1)

/-- PAIRED (R395, R396, R397): the epoch advances, side 0 holds the pair token first (log entry 35), sets that waited return. -/
def State.joined (s : State) : State :=
  let s := s.sendFlit 0x0B 0 []
  let s := s.withPair { s.pair with state := .paired, epoch := s.pair.epoch + 1, token := !s.pair.side, afterReset := false, forwarded := [] }
  let s := s.withLog { s.log with head := s.log.head % s.journalUnits }
  (s.answerJoin stOk 0 s.pairResult).returnSets

/-- STATE (R396, R412): the partner's chain address; in JOINING the checks of R396; from a partner that leaves, the end of the pair. -/
def execFlitState (h : FlitHdr) (ps : PartnerState) (s : State) : Host.Outcome State Fault Refusal :=
  .next (s.goodFlit h (fun s =>
    let s := s.withPair { s.pair with partnerAddr := if ps.chainValid then ps.chainAddr else s.pair.partnerAddr, partnerValid := ps.chainValid }
    if ps.leaving ∧ s.pair.state = .paired then s.leavePair
    else if s.pair.state = .joining ∧ ps.joining then
      (match s.joinFault ps with
        | some f => s.joinFailed f
        | none => s.joined)
    else s))

/-- JOIN_TIMEOUT (R395): no partner in JOINING within 10 s of PAIR_JOIN. -/
def execJoinTimeout (s : State) : Host.Outcome State Fault Refusal :=
  if s.pair.state = .joining ∧ s.pair.joinSrc.isSome then .next (s.leaveJoin.answerJoin stTimeout 1 []) else .next s

/-! ## Fencing (R395, R406) -/

/-- FENCE_IN_FALL (R395, R420). -/
def execFenceInFall (s : State) : Host.Outcome State Fault Refusal :=
  let s := s.withPair { s.pair with fenceInLow := true }
  if !s.gcs.pwrgd ∨ s.pair.state = .single ∨ s.pair.state = .fenced then .next s else .next s.enterFenced

/-- FENCE_IN_RISE (R395): FENCED lasts until the reset that follows. -/
def execFenceInRise (s : State) : Host.Outcome State Fault Refusal := .next (s.withPair { s.pair with fenceInLow := false })

end Sys2Proof.Machine
end

