-- ==== Sys2Proof/Machine/Chain.lean ====
section
/-! DEFINITION. The Tilel chain (spec/14_pair_and_chain.md R413 to R419, R422) and the group clocks (spec/17_electrical.md R490).
A frame row reports a frame whose CRC holds and that reaches this unit; source, START and CRC bytes of a frame are not kept. -/

namespace Sys2Proof.Machine

/-! ## Frames addressed to this unit -/

/-- A frame accepted (R422). -/
def State.frameIn (s : State) : State := s.count32 Reg.chnFramesRx 1

/-- Whether an addressed frame can reach this unit: power is good and it holds a chain address (R417). -/
def State.onChain (s : State) : Bool := s.gcs.pwrgd && s.chn.address.isSome

/-- A frame passed on to the next unit (R414). -/
def State.forwardFrame (s : State) (frame : Bytes) : State := s.emit (.chainForward frame)

/-- CHAIN_CMD (R416): one command at a time. While one is executing its SEQ again is ignored and any other SEQ dropped; the SEQ of the
last command that replied gets its stored reply. A CMD frame ends Idle-dock (R470). -/
def execChainCmd (seq : Byte) (packet : Bytes) (s : State) : Host.Outcome State Fault Refusal :=
  if !s.onChain ∨ packet.length ≠ 128 then .next s
  else match s.interp.chainBusySeq with
    | some q =>
      if q = seq then .next s
      else .next ((s.count32 Reg.chnBusyDrops 1).raise 0xD6 .note seq)
    | none =>
      let s := s.frameIn.leaveDock
      if s.interp.chainLastSeq = some seq then .next (s.sendFrame 0x81 seq s.interp.chainReply)
      else .next ((s.withInterp { s.interp with chainBusySeq := some seq }).setSrcQueue .chain (s.srcQueue .chain ++ [packet]))

/-- Whether a SCRATCH frame's range obeys R415: offset and length multiples of 4, 1 to 256 bytes, within 64 KiB. -/
def scratchOk (offset len : Nat) : Bool :=
  decide (offset % 4 = 0) && decide (len % 4 = 0) && decide (1 ≤ len) && decide (len ≤ 256) && decide (offset + len ≤ 65536)

/-- SCRATCH_WRITE (R415). -/
def execScratchWrite (seq : Byte) (offset : Half) (data : Bytes) (s : State) : Host.Outcome State Fault Refusal :=
  if !s.onChain then .next s
  else
    let s := s.frameIn
    if scratchOk offset.toNat data.length then
      .next ((s.withInterp { s.interp with scratch := Memory.writeBytes s.interp.scratch offset.toNat data }).sendFrame 0x82 seq [0])
    else .next (s.sendFrame 0x82 seq [stBadField])

/-- SCRATCH_READ (R415): the bytes, or a one-byte status when the range breaks the rules. -/
def execScratchRead (seq : Byte) (offset count : Half) (s : State) : Host.Outcome State Fault Refusal :=
  if !s.onChain then .next s
  else
    let s := s.frameIn
    if scratchOk offset.toNat count.toNat then
      .next (s.sendFrame 0x83 seq (Memory.readBytes s.interp.scratch offset.toNat count.toNat))
    else .next (s.sendFrame 0x83 seq [stBadField])

/-- CHAIN_PROBE (R406, R415): the pair state, and 1 if the link is down. -/
def execChainProbe (seq _src : Byte) (_side : Bool) (s : State) : Host.Outcome State Fault Refusal :=
  if !s.onChain then .next s
  else .next (s.frameIn.sendFrame 0x88 seq [BitVec.ofNat 8 s.pair.state.code, BitVec.ofNat 8 (ofBool (!s.pair.link))])

/-- The alert cleared (R419). -/
def State.clearAlert (s : State) : State := s.withChn { s.chn with alert := false }

/-- ALERT_ACK (R415, R419). -/
def execAlertAck (s : State) : Host.Outcome State Fault Refusal := if s.onChain then .next s.frameIn.clearAlert else .next s

/-- ALERT_CLR (R419): 1 written to CHN.ALERT.CLR. -/
def execAlertClr (s : State) : Host.Outcome State Fault Refusal :=
  if s.haltClosed then .next s else .next s.leaveDock.clearAlert

/-! ## Broadcasts, breaks, enumeration -/

/-- CHAIN_TOD (R151, R418): acted on under R151, with or without an address, then forwarded. -/
def execChainTod (value : Word64) (s : State) : Host.Outcome State Fault Refusal :=
  if !s.gcs.pwrgd then .next s
  else .next ((s.frameIn.submitTod value none).forwardFrame (4 :: leBytes 8 value.toNat))

/-- FLT.REVk as 16 bytes: INFO, then PAYLOAD (R363, R368). -/
def RevEntry.bytes (e : RevEntry) : Bytes :=
  leBytes 2 e.code.toNat ++ [e.source, BitVec.ofNat 8 e.level.code] ++ leBytes 4 e.seq.toNat ++ leBytes 8 e.payload.toNat

/-- The newest entry of the reaction event log, zeros while it is empty (R363). -/
def State.newestRev (s : State) : Bytes :=
  match Tab.get s.flt.rev none (s.flt.revSeq.toNat % 16) with
  | some e => e.bytes
  | none => fill 16 0

/-- ALERT_QUERY (R415): answered while an alert is pending by a unit that acts on broadcasts, then forwarded. -/
def execAlertQuery (seq : Byte) (s : State) : Host.Outcome State Fault Refusal :=
  if !s.gcs.pwrgd then .next s
  else
    let s := s.frameIn.forwardFrame [7]
    if s.chn.alert then .next (s.sendFrame 0x87 seq s.newestRev) else .next s

/-- A new chain address, reported to the partner when it changes (R412, R417). -/
def State.takeAddress (s : State) (a : Option (BitVec 5)) : State :=
  if s.chn.address = a then s
  else
    let s := s.withChn { s.chn with address := a }
    if s.pair.link then s.sendFlit 0x0B 2 [BitVec.ofNat 8 ((a.getD 0).toNat + 32 * ofBool a.isSome)] else s

/-- CHAIN_BREAK (R417): the address is cleared and the break forwarded. -/
def execChainBreak (s : State) : Host.Outcome State Fault Refusal :=
  if s.gcs.pwrgd then .next ((s.takeAddress none).forwardFrame []) else .next s

/-- CHAIN_ENUM (R417): a count below 32 becomes the address of a unit without one; the count plus one goes on. -/
def execChainEnum (hop : Byte) (s : State) : Host.Outcome State Fault Refusal :=
  if !s.gcs.pwrgd then .next s
  else
    let s := s.forwardFrame [5, hop + 1]
    if 32 ≤ hop.toNat then .next (s.raise 0xD7 .note hop)
    else if s.chn.address.isSome then .next s
    else .next (s.takeAddress (some (hop.setWidth 5)))

/-- CHAIN_FRAME_FORWARD (R413, R414): a frame for another unit or for the manager passes unchanged. -/
def execChainFrameForward (dest : Byte) (frame : Bytes) (s : State) : Host.Outcome State Fault Refusal :=
  let mine := !dest.getLsbD 5 && !dest.getLsbD 6 && decide (s.chn.address = some (dest.setWidth 5))
  if !s.gcs.pwrgd ∨ mine then .next s else .next (s.forwardFrame frame)

/-- CHAIN_FRAME_CRC_ERROR (R414): its addressee drops the frame. -/
def execChainFrameCrcError (toThisUnit : Bool) (s : State) : Host.Outcome State Fault Refusal :=
  if !s.gcs.pwrgd ∨ !toThisUnit then .next s
  else
    let s := s.count32 Reg.chnCrcErrors 1
    .next (s.raise 0xD5 .note (BitVec.ofNat 8 (s.regN Reg.chnCrcErrors)))

/-! ## Group clocks (R490) -/

/-- Whether DP_REFCLK_OUT of a group runs: its CLKREQ_N is low, or L1.1 and L1.2 are disabled in DP.PM. -/
def State.refclkRuns (s : State) (g : Nat) : Bool :=
  (s.group g).clkreqLow || decide (s.regField Reg.dpPm 1 2 = 0)

/-- The groups whose clock is not as it was before are reported. -/
def State.reportClocks (s old : State) : State :=
  ((List.range (Config.groups s.part)).filter (fun g => s.refclkRuns g != old.refclkRuns g)).foldl
    (fun t g => t.emit (.refclk (BitVec.ofNat 4 g) (s.refclkRuns g))) s

/-- DPG_CLKREQ_N (R490). -/
def execDpgClkreqN (group : BitVec 4) (low : Bool) (s : State) : Host.Outcome State Fault Refusal :=
  if Config.groups s.part ≤ group.toNat then .next s
  else .next ((s.modGroup group.toNat (fun g => { g with clkreqLow := low })).reportClocks s)

end Sys2Proof.Machine
end

