-- ==== Sys2Proof/Machine/Views.lean ====
section
/-! DEFINITION. What a read of each register returns (spec/00_scope.md R3, R5, R6, R8 and the owning chapters' tables; spec/15 R427,
R429, R431 to R438): the stored word, or the view of the richer field of State that holds it. -/

namespace Sys2Proof.Machine

/-- The instance of a register run that an offset names. -/
def instAt (base stride count o : Nat) : Option Nat :=
  if base ≤ o ∧ o < base + stride * count ∧ (o - base) % stride = 0 then some ((o - base) / stride) else none

/-- A position as INDEX and LAP (R208). -/
def posWord (n a : Nat) : Nat := posIndex n a + 2 ^ 16 * ofBool (posLap n a)

/-! ## Absent units (R3) -/

/-- Whether an offset lies in a block or register that this part lacks. -/
def State.absentReg (s : State) (o : Nat) : Bool :=
  let p := s.part
  (inBlock 0x90000 0x10000 o && !Config.hasPair p) ||
  (inBlock 0xD8000 0x8000 o && decide (Config.clusters p < 2)) ||
  (inBlock 0x1000000 0x400000 o && decide (Config.ports p ≤ (o - 0x1000000) / 0x4000)) ||
  (inBlock 0x80080 0x20 o && decide (Config.pairs p ≤ (o - 0x80080) / 4)) ||
  (inBlock 0x80100 0x110 o && decide (Config.banks p ≤ (o - 0x80100) / 16)) ||
  (inBlock 0x40080 0x44 o && decide (Config.banks p ≤ (o - 0x40080) / 4)) ||
  (inBlock 0x40440 0x44 o && decide (Config.banks p ≤ (o - 0x40440) / 4)) ||
  (inBlock 0x404A0 0x44 o && decide (Config.banks p ≤ (o - 0x404A0) / 4)) ||
  (inBlock 0x40500 0x88 o && decide (Config.banks p ≤ (o - 0x40500) / 8)) ||
  (inBlock 0xB0100 0x800 o && decide (Config.windows p ≤ (o - 0xB0100) / 32)) ||
  (inBlock 0xB0900 0x800 o && decide (Config.windows p ≤ (o - 0xB0900) / 32)) ||
  (inBlock 0x21000 0x800 o && s.sourceAbsent (BitVec.ofNat 8 ((o - 0x21000) / 8)))

/-! ## The Almanac (R431 to R435) -/

/-- One 32-byte entry of the Almanac (R433). -/
def almEntry (typ inst off stride cap0 cap1 : Nat) : Bytes :=
  leBytes 2 typ ++ [0x10, 0] ++ leBytes 2 inst ++ [0, 0] ++ leBytes 4 off ++ leBytes 4 stride ++ leBytes 8 cap0 ++ leBytes 8 cap1

/-- LOG.CAP (R148). -/
def logCapWord (p : Part) : Nat :=
  Config.banks p + 2 ^ 8 * Config.pairs p + 2 ^ 16 * (if p = .np9128 then 0x1C0 else 0x380)

/-- HPUn.CAP (R456). -/
def State.hpuCapWord (s : State) : Nat := 6 + 2 ^ 4 * s.strapped + 2 ^ 10 * ofBool s.gcs.bifur

/-- The entries of the Almanac (R434, R435). -/
def State.almEntries (s : State) : List Bytes :=
  let p := s.part
  [almEntry 1 1 0 0 0 0, almEntry 2 1 0x10000 0 0 0, almEntry 3 1 0x20000 0 0 0, almEntry 4 1 0x30000 0 0 0,
   almEntry 5 1 0x40000 0 0 0, almEntry 6 1 0x50000 0 (64 + 2 ^ 8 * 8 + 2 ^ 16 * 6144) 0, almEntry 7 1 0x60000 0 0 0,
   almEntry 8 1 0x70000 0 0 0, almEntry 9 1 0x80000 0 (logCapWord p) 0] ++
  (if Config.hasPair p then [almEntry 0xA 1 0x90000 0 0 0] else []) ++
  [almEntry 0xB 1 0xA0000 0 0 0, almEntry 0xC (Config.windows p) 0xB0000 0 4096 0, almEntry 0xD 2 0xC0000 0x8000 s.hpuCapWord 0,
   almEntry 0xE (Config.clusters p) 0xD0000 0x8000 (8 + 2 ^ 4 + 2 ^ 8 * 256 + 2 ^ 24 * 48) 0,
   almEntry 0xF 8 0xE0000 0 128 256, almEntry 0x10 1 0xF0000 0 0 0, almEntry 0x11 1024 0x100000 0 (16 + 2 ^ 16 * 2) 0,
   almEntry 0x12 (Config.ports p) 0x1000000 0x4000 (3 + 2 ^ 4 * 4) 0, almEntry 0x13 (Config.groups p) 0x1003000 0x40000 16 0]

/-- The Almanac (R432): header with its CRC, then the entries; nothing before it is complete. -/
def State.almBytes (s : State) : Bytes :=
  if !s.gcs.almanac then []
  else
    let es := s.almEntries
    let body := es.foldr (· ++ ·) []
    let head := leBytes 4 0x4C4D594E ++ leBytes 2 1 ++ leBytes 2 es.length ++ leBytes 4 (16 + 32 * es.length)
    head ++ leBytes 4 (crc32 (head ++ [0, 0, 0, 0] ++ body)).toNat ++ body

/-! ## GCS (R199, R392, R480) -/

/-- The code of a start-up phase (R458, R480). -/
def Phase.code : Phase → Nat
  | .boot => 0
  | .survey => 1
  | .recovery => 2
  | .running => 3
  | .dock => 4
  | .romRecovery => 5

/-- The code of a reset kind (R480). -/
def ResetKind.code : ResetKind → Nat
  | .powerOn => 0
  | .soft => 1
  | .chain => 2

/-- The code of a Hold sub-state (R388). -/
def HoldState.code : HoldState → Nat
  | .normal => 0
  | .hold => 1
  | .qualify => 2
  | .wait => 3

/-- GCS.SURVEYn (R480). -/
def surveyWord (e : SurveyEntry) : Nat :=
  e.item.toNat + 2 ^ 8 * e.inst.toNat + 2 ^ 16 * e.verdict.toNat + 2 ^ 32 * signedNat 16 e.value + 2 ^ 48 * e.limit.toNat

/-- GCS registers that State holds elsewhere than in a stored word. -/
def State.gcsView (s : State) (o : Nat) : Option Nat :=
  if o = Reg.gcsId then some (Config.device s.part).toNat
  else if o = Reg.gcsReset then some 0
  else if o = Reg.gcsStat then some (s.gcs.phase.code + 8 * ofBool s.gcs.halted + 16 * ofBool s.gcs.surveyDone)
  else if o = Reg.gcsLastReset then some s.gcs.lastReset.code
  else if o = Reg.gcsSurvey then
    some (satTo 8 s.gcs.survey.length + 2 ^ 8 * satTo 8 (s.surveyWith 1) + 2 ^ 16 * satTo 8 (s.surveyWith 2) + 2 ^ 24 * s.surveyWorst)
  else if o = Reg.gcsHold then some (s.regN Reg.gcsHold + 2 * ofBool s.mon.resumeSet)
  else if o = Reg.gcsHoldStat then
    some (s.mon.hold.code + 4 * ofBool s.mon.byPin + 8 * ofBool s.mon.byRail + 16 * ofBool s.mon.byTrip + 32 * s.mon.holdRail.toNat)
  else if o = Reg.gcsHoldUs then some (if s.inHold then satTo 32 (s.usSince s.mon.holdSince) else s.mon.holdUs)
  else if o = Reg.gcsRbsStat then some s.rbsStatWord
  else match instAt 0x11000 8 128 o with
    | some n => some ((s.gcs.survey[n]?).elim 0 surveyWord)
    | none => match instAt 0x10900 8 64 o with
      | some n => some (match (s.set n).pending with
        | some r => (s.set n).cursor.toNat + 2 ^ 48 * r.rev.toNat
        | none => 0)
      | none => (instAt 0x10B00 8 64 o).map (fun n => (s.set n).scrubCursor.toNat)

/-! ## FLT, WCH (R166, R368) -/

/-- FLT registers held elsewhere. -/
def State.fltView (s : State) (o : Nat) : Option Nat :=
  if o = Reg.fltStat then some (ofBool s.flt.pinLow + 2 * ofBool (decide ((s.ctx 64).use ≠ .idle)) + 2 ^ 8 * s.flt.queue.length)
  else if o = Reg.fltFirst then some s.fltFirstWord
  else if o = Reg.fltFirstTime then some s.flt.first.fixNs.toNat
  else if o = Reg.fltSlots then some (maskOf (Tab.keysWith s.flt.loaded (fun k v => decide (k < 44) && v.isSome)))
  else match instAt 0x20060 4 8 o with
    | some i => some (maskOf ((List.range 32).filter (fun n => (s.src (BitVec.ofNat 8 (32 * i + n))).isOpen)))
    | none => match instAt 0x20080 16 16 o with
      | some k => some (leNat (((Tab.get s.flt.rev none k).elim [] RevEntry.bytes).take 8))
      | none => match instAt 0x20088 16 16 o with
        | some k => some ((Tab.get s.flt.rev none k).elim 0 (fun e => e.payload.toNat))
        | none => (instAt 0x21000 8 256 o).map (fun n => s.fltSrcWord (BitVec.ofNat 8 n))

/-- WCH registers held elsewhere. -/
def State.wchView (s : State) (o : Nat) : Option Nat :=
  let w := s.wch
  if o = Reg.wchStat then some s.wchStat
  else if o = Reg.wchLength then some w.length
  else if o = Reg.wchNow then some w.fixNs.toNat
  else if o = Reg.wchWatch then some s.watch.toNat
  else if o = Reg.wchSealed then some (w.sealedWatch.toNat + 2 ^ 48 * ofBool w.sealedHoldover)
  else if o = Reg.wchOffset then some (signedNat 32 w.offsetNs)
  else if o = Reg.wchHoldBound then some (satTo 32 w.holdBound)
  else if o = Reg.wchHoldTime then some (if w.timer = .holdover then satTo 32 w.holdS else 0)
  else if o = Reg.wchHoldRate then some (satTo 32 w.holdRate)
  else if o = Reg.wchPpsCount then some w.ppsCount
  else if o = Reg.wchPpsReject then some w.ppsReject
  else none

/-! ## MON, CAL (R391) -/

/-- The 8 bits of a temperature sample; a sensor that has failed reads as a free value (log entry 25), one not yet sampled as 0. -/
def State.tempBits (s : State) (sensor : Nat) (v : Option Int) : Nat :=
  match v with
  | some c => signedNat 8 c
  | none => if sensor ∈ s.mon.failedSensors then (Config.freeWord (s.freeCount + sensor)).toNat % 256 else 0

/-- Four junction sensors from the one numbered k. -/
def State.tjWord (s : State) (k : Nat) : Nat :=
  leNat ((List.range 4).map (fun i => BitVec.ofNat 8 (s.tempBits (k + i) (s.mon.tj.getD (k + i) none))))

/-- MON and CAL registers held elsewhere. -/
def State.monView (s : State) (o : Nat) : Option Nat :=
  let m := s.mon
  if o = Reg.monCap then some (7 + 2 ^ 4 * 8 + 2 ^ 8 * Config.banks s.part)
  else if o = Reg.monTj then some (signedNat 8 ((maxSample m.tj).getD 0) + s.regN Reg.monTj)
  else if o = Reg.monTjs0 then some (s.tjWord 0)
  else if o = Reg.monTjs1 then some (s.tjWord 4)
  else if o = Reg.monPins then some (ofBool m.pwrwarnLow + 2 * ofBool m.calrefOk + 4 * ofBool m.thermtrip)
  else if o = Reg.monCalref then some m.calref
  else if o = Reg.calStat then
    some (ofBool m.run.isSome + 2 * ofBool (m.run.any (fun c => decide (c.phase = .copy))) + 4 * m.lastBank.toNat +
      2 ^ 8 * m.lastReason.toNat)
  else if o = Reg.calDue then some (maskOf ((s.presentBanks.filter (fun n => (s.bank n).due)).map (fun n => n.toNat)))
  else match instAt 0x40010 8 7 o with
    | some r => some (Tab.get m.railMv 0 r + 2 ^ 16 * ofBool (decide (r ∈ m.railLow)) + 2 ^ 17 * ofBool (decide (r ∈ m.railHigh)))
    | none => match instAt 0x40080 4 17 o with
      | some n => some (s.tempBits (16 + n) (s.bank (BitVec.ofNat 5 n)).nowC)
      | none => match instAt 0x40440 4 17 o with
        | some n => some (selWord (s.bank (BitVec.ofNat 5 n)).sel)
        | none => match instAt 0x404A0 4 17 o with
          | some n =>
            let b := s.bank (BitVec.ofNat 5 n)
            some (signedNat 8 b.tempC + 2 ^ 8 * b.origin.toNat)
          | none => (instAt 0x40500 8 17 o).map (fun n => (s.bank (BitVec.ofNat 5 n)).timeNs.toNat)

/-! ## DMV (R292) -/

/-- The code of a channel state (R278). -/
def ChanState.code : ChanState → Nat
  | .disabled => 0
  | .idle => 1
  | .running => 2
  | .holding => 3
  | .halted => 4

/-- The tags of port p in quarantine. -/
def State.quarTags (s : State) (p : Bool) : Nat := (s.dmv.quarantine.filter (fun q => q.1 = p)).length

/-- The registers of completion queue q at an offset of its context. -/
def State.mqView (s : State) (q o : Nat) : Option Nat :=
  let m := s.mq q
  let n := s.mqN q
  if o = 0xC then some (ofBool m.enabled)
  else if o = 0x10 then some (posWord n m.prod)
  else if o = 0x14 then some (posWord n m.cons)
  else if o = 0x1C then
    some (ofBool (m.enabled && decide (n ≤ posCount n m.cons m.prod)) + 2 ^ 8 * (m.waiting.map (fun w => w.1)).eraseDups.length)
  else none

/-- The registers of channel n at an offset of its context. -/
def State.chanView (s : State) (n o : Nat) : Option Nat :=
  let c := s.chan n
  if o = 4 then some (ofBool c.enable + 2 * ofBool c.swReq)
  else if o = 8 then some (c.state.code + 2 ^ 8 * c.status.toNat + 2 ^ 16 * c.detail.toNat)
  else if o = 0x10 then some c.desc.toNat
  else if o = 0x18 then some c.bytes.toNat
  else if o = 0x20 then some c.errors
  else none

/-- DMV registers held elsewhere. -/
def State.dmvView (s : State) (o : Nat) : Option Nat :=
  if o = Reg.dmvTbFree then some s.tbFree
  else if o = Reg.dmvQuar then some (satTo 10 (s.quarTags false) + 2 ^ 16 * satTo 10 (s.quarTags true))
  else if inBlock 0x50100 0x100 o then s.mqView ((o - 0x50100) / 32) ((o - 0x50100) % 32)
  else if inBlock 0x50400 0x1000 o then s.chanView ((o - 0x50400) / 64) ((o - 0x50400) % 64)
  else none

/-! ## SCC, CHT, LOG (R101, R148, R317) -/

/-- The DIRTY lines of a tier. -/
def dirtyCount (t : Tab Line) : Nat := (t.filter (fun e => e.2.state = .dirty)).length

/-- SCC registers held elsewhere. -/
def State.sccView (s : State) (o : Nat) : Option Nat :=
  if o = Reg.sccStat then some (ofBool s.scc.ready + 2 * ofBool s.scc.vtReady)
  else if o = Reg.sccDirty then some (dirtyCount s.scc.lines + 2 ^ 16 * dirtyCount s.scc.tier)
  else if o = Reg.sccPfBusy then some s.scc.detectors.length
  else none

/-- CHT.SLOT_VALIDi (R101). -/
def State.slotValid (s : State) (i : Nat) : Nat :=
  maskOf ((List.range 32).filter (fun n => (Tab.get s.cht.progs none (32 * i + n)).isSome))

/-- CHT registers held elsewhere. -/
def State.chtView (s : State) (o : Nat) : Option Nat :=
  if o = Reg.chtStat then some (s.ctxs.filter (fun e => decide (e.1 < 64) && decide (e.2.use ≠ .idle))).length
  else if o = Reg.chtLastFault then some s.cht.firstFault.toNat
  else if o = Reg.chtSlotValid0 then some (s.slotValid 0)
  else if o = Reg.chtSlotValid1 then some (s.slotValid 1)
  else if o = Reg.chtSlotValid2 then some (s.slotValid 2)
  else if o = Reg.chtSlotValid3 then some (s.slotValid 3)
  else if o = Reg.chtStoreUsed then some s.storeUsed
  else if o = Reg.chtStoreSize then some (Config.chartStoreKib s.part)
  else none

/-- LOG.BANKn.WEAR (R138). -/
def wearPpm (writes : Nat) : Nat := satTo 32 (writes * 1000000 / (2097152 * 1000000000000))

/-- LOG.PAIRp (R148). -/
def pairWord (r : PairRole) : Nat := r.copyA.toNat + 2 ^ 8 * r.copyB.toNat + 2 ^ 16 * ofBool r.single

/-- LOG registers held elsewhere. SEQ and occupancy read their reset value until the journal walk has ended. -/
def State.logView (s : State) (o : Nat) : Option Nat :=
  let l := s.log
  let walked (v : Nat) : Nat := if l.walked then v else 0
  if o = Reg.logCap then some (logCapWord s.part)
  else if o = Reg.logStat then some s.logStatWord
  else if o = Reg.logHeadSeq then some (walked l.nextSeq)
  else if o = Reg.logTailSeq then some (walked s.logTailSeq)
  else if o = Reg.logUsed then some (walked s.logUsed)
  else if o = Reg.logResync then
    some (satTo 16 (s.sumSets (fun _ => true) (fun a => a.resync.length)) +
      2 ^ 16 * satTo 16 (s.sumSets (fun _ => true) (fun a => a.unresolved.length)))
  else if o = Reg.logSpare then some (l.spare.elim 0x1F (fun b => b.toNat))
  else match instAt 0x80080 4 8 o with
    | some p => some ((l.pairs[p]?).elim 0 pairWord)
    | none => match instAt 0x80100 16 17 o with
      | some n => some (Tab.get l.bankWrites 0 n)
      | none => (instAt 0x80108 16 17 o).map (fun n => wearPpm (Tab.get l.bankWrites 0 n))

/-! ## PAIR, CHN (R421, R422) -/

/-- PAIR registers held elsewhere. -/
def State.pairView (s : State) (o : Nat) : Option Nat :=
  let p := s.pair
  if o = Reg.pairStat then
    some (p.state.code + 8 * ofBool p.side + 2 ^ 4 * p.lanesUp + 2 ^ 8 * ofBool p.fenceOut + 2 ^ 9 * ofBool p.fenceInLow +
      2 ^ 10 * ofBool p.link)
  else if o = Reg.pairEpoch then some p.epoch.toNat
  else if o = Reg.pairOwner then some (maskOf ((List.range 64).filter (fun i => decide ((s.set i).state ≠ .empty) && (s.set i).side)))
  else if o = Reg.pairPartner then some (p.partnerAddr.toNat + 2 ^ 5 * ofBool p.partnerValid)
  else if o = Reg.pairMirrorUsed then some (p.mirrorUnits.length / 16)
  else if o = Reg.pairTakeovers then some (p.takeovers % 2 ^ 32)
  else none

/-- CHN registers held elsewhere. -/
def State.chnView (s : State) (o : Nat) : Option Nat :=
  if o = Reg.chnStat then
    some ((s.chn.address.getD 0).toNat + 2 ^ 5 * ofBool s.chn.address.isSome + 2 ^ 6 * ofBool s.chn.alert)
  else none

/-! ## PWIN, HPU (R456, R457) -/

/-- PWIN.Wn.MAP of a window. -/
def Window.mapWord (w : Window) : Nat :=
  w.pages % 2 ^ 13 + 2 ^ 16 * (w.tbPage % 2 ^ 13) + 2 ^ 32 * ofBool w.valid + 2 ^ 33 * ofBool w.read + 2 ^ 34 * ofBool w.write +
    2 ^ 35 * ofBool w.port0 + 2 ^ 36 * ofBool w.port1

/-- The window registers of a generation at an offset from the first. -/
def winView (t : Tab Window) (o : Nat) : Option Nat :=
  let w := Tab.get t Window.at0 (o / 32)
  if o % 32 = 0 then some w.offset else if o % 32 = 8 then some w.mapWord else none

/-- PWIN registers held elsewhere. -/
def State.pwinView (s : State) (o : Nat) : Option Nat :=
  let p := s.pwin
  if o = Reg.pwinCap then some (Config.windows s.part)
  else if o = Reg.pwinCommit then some (ofBool p.next.isSome)
  else if o = Reg.pwinGen then some p.gen.toNat
  else if o = Reg.pwinStat then some (ofBool p.error + 2 ^ 8 * p.errWindow.toNat + 2 ^ 16 * p.errReason.toNat)
  else if o = Reg.pwinLastMiss then some p.lastMiss.toNat
  else if o = Reg.pwinLastMissInfo then some (ofBool p.lastMissPort + 2 * ofBool p.lastMissRead + 2 ^ 4 * (p.lastMissReason.toNat % 16))
  else if inBlock 0xB0100 0x800 o then winView p.shadow (o - 0xB0100)
  else if inBlock 0xB0900 0x800 o then winView p.active (o - 0xB0900)
  else none

/-- HPUn registers held elsewhere, at an offset of port n's block. -/
def State.hpuView (s : State) (n : Bool) (o : Nat) : Option Nat :=
  let h := s.hpu n
  if o = 0 then some s.hpuCapWord
  else if o = 8 then
    some (h.speed.toNat + 2 ^ 4 * h.width.toNat + 2 ^ 10 * ofBool h.dlUp + 2 ^ 11 * ofBool h.contained + 2 ^ 12 * ofBool h.inL1 +
      2 ^ 16 * h.cause.toNat)
  else none

/-! ## SEC, MAP (R481, R496) -/

/-- SEC registers held elsewhere. -/
def State.secView (s : State) (o : Nat) : Option Nat :=
  let c := s.sec
  if o = Reg.secStat then
    some (c.lock.toNat + 4 * ofBool (decide (c.running = some true)) + 8 * ofBool c.fallback + 16 * ofBool c.rom)
  else if o = Reg.secKeys then some (c.provisioned.toNat + 2 ^ 4 * c.revoked.toNat)
  else if o = Reg.secFwRunning then some c.fwRunning.toNat
  else if o = Reg.secFwStaged then some (if s.stageSlot.staged.isEmpty then 0 else s.stageSlot.version.toNat)
  else if o = Reg.secRollback then some (c.rollback % 2 ^ 8)
  else if o = Reg.secBoots then some (c.boots % 2 ^ 32)
  else none

/-- MAP registers held elsewhere. -/
def State.mapView (s : State) (o : Nat) : Option Nat :=
  let m := s.map
  if o = Reg.mapStat then some (maskOf m.trained + 2 ^ 8 * maskOf m.fenced)
  else (instAt 0xE0100 64 8 o).map (fun c =>
    Tab.get m.eyes 0 c % 2 ^ 10 + 2 ^ 10 * ofBool (decide (c ∈ m.late)) + 2 ^ 11 * ofBool (decide (c ∈ m.trained)) +
      2 ^ 12 * ofBool (decide (c ∈ m.fenced)))

/-! ## Rings and doorbells (R204, R208, R209, R239) -/

/-- The code of a ring state (R210). -/
def RingState.code : RingState → Nat
  | .disabled => 0
  | .active => 1
  | .disabling => 2
  | .faulted => 3
  | .halted => 4

/-- The ring whose context holds an offset. -/
def ringOf (o : Nat) : Option RingId :=
  if inBlock 0x100000 0x10000 o then some (.data (BitVec.ofNat 10 ((o - 0x100000) / 64)))
  else if inBlock 0x110000 0x400 o then some (.cmd (BitVec.ofNat 4 ((o - 0x110000) / 64)))
  else if inBlock 0x110400 0x80 o then some (.event (decide (0x110440 ≤ o)))
  else none

/-- STALL, or FULL_US and DROPPED of an event ring, the time of a stall in progress included. -/
def State.stallWord (s : State) (r : RingId) : Nat :=
  let g := s.ring r
  match r with
  | .data _ => if g.evtWait then satTo 32 (g.stallUs + s.usSince g.stallSince) else g.stallUs
  | .cmd _ => 0
  | .event _ => (if g.isFull then satTo 32 (g.fullUs + s.usSince g.fullSince) else g.fullUs) + 2 ^ 32 * satTo 32 g.dropped

/-- The registers of a ring context held elsewhere, at an offset of the context. -/
def State.ringView (s : State) (r : RingId) (o : Nat) : Option Nat :=
  let g := s.ring r
  let n := s.ringN r
  if o = 0x14 then some (ofBool (decide (g.state = .active) || decide (g.state = .faulted) || decide (g.state = .halted)))
  else if o = 0x1C then some (g.state.code + (match r with
    | .data _ => 8 * ofBool g.evtWait + 16 * ofBool g.admitWait
    | .cmd _ => 0
    | .event _ => 8 * ofBool g.isFull))
  else if o = 0x20 then some (posWord n g.head + (match r with
    | .data _ => 2 ^ 32 * g.exc.toNat
    | _ => 0))
  else if o = 0x28 then some (posWord n g.tail)
  else if o = 0x2C then some g.ignored
  else if o = 0x30 then some g.doneCount
  else if o = 0x38 then some (s.stallWord r)
  else none

/-- RNG.HALT (R220, R239). -/
def State.haltWord (s : State) : Nat :=
  let c := s.gcs
  ofBool c.halted + 2 ^ 8 * (c.haltReason.toNat % 16) + 2 ^ 12 * ofBool c.haltCmd + 2 ^ 16 * c.haltRing + 2 ^ 32 * c.haltIndex +
    2 ^ 48 * ofBool c.haltLap

/-- The doorbell slot at an offset, if it is one (R204). -/
def doorbellOf (o : Nat) : Option RingId :=
  match instAt 0x200000 8 1024 o with
  | some n => some (.data (BitVec.ofNat 10 n))
  | none => match instAt 0x202000 8 16 o with
    | some c => some (.cmd (BitVec.ofNat 4 c))
    | none => (instAt 0x202080 8 2 o).map (fun p => .event (decide (p = 1)))

/-- A doorbell read: the last value accepted (R204). -/
def State.doorbellView (s : State) (r : RingId) : Nat :=
  posWord (s.ringN r) (match r with
    | .event _ => (s.ring r).head
    | _ => (s.ring r).tail)

/-! ## Drive ports (R346) -/

/-- The registers of drive port p at an offset of its block. -/
def State.dpView (s : State) (p : Byte) (o : Nat) : Option Nat :=
  let v := s.port p
  let q := (s.quarantined p).length
  if o = 0 then some ((if v.state = .merged then 0 else v.width.toNat) + 2 ^ 4 * v.genMax.toNat)
  else if o = 8 then some ((s.liveWord p).toNat % 2 ^ 16 + 2 ^ 16 * ofBool v.mdSep)
  else if o = 0x10 then some (s.liveWord p).toNat
  else if o = 0x18 then some (if v.state = .ready then v.nsze else 0)
  else if o = 0x20 then some (v.pairsGranted + 2 ^ 8 * v.depthLog2)
  else if o = 0x24 then some (satTo 16 q + 2 ^ 16 * satTo 16 q)
  else if o = 0x28 then some (v.critWarn.toNat + 2 ^ 8 * v.pctUsed.toNat)
  else if o = 0x3000 ∧ p.toNat % 16 = 0 then some (s.group (groupOf p)).state.code
  else if o = 0x3004 ∧ p.toNat % 16 = 0 then
    let g := s.group (groupOf p)
    some (g.lastPort.toNat + 2 ^ 8 * g.lastDetail.toNat + 2 ^ 16 * ofBool g.lastLink)
  else if p ≠ 0 then none
  else if o = 0x3800 then some (Config.ports s.part + 2 ^ 16 * Config.groups s.part)
  else if o = 0x3808 then some (131072 - s.slotsUsed)
  else none

/-! ## MSI-X (R437, R438) -/

/-- A 32-bit word of port p's MSI-X table: address, data, vector control. -/
def State.msixWord (s : State) (p : Bool) (o : Nat) : Nat :=
  let e := s.msixEntry p (o / 16)
  if o % 16 = 0 then e.addr.toNat % 2 ^ 32
  else if o % 16 = 4 then e.addr.toNat / 2 ^ 32
  else if o % 16 = 8 then e.data.toNat
  else ofBool e.masked

/-- A 32-bit word of port p's pending-bit array. -/
def State.pbaWord (s : State) (p : Bool) (o : Nat) : Nat :=
  maskOf ((List.range 32).filter (fun i => decide (8 * o + i ∈ (s.hpu p).pendingBits)))

/-! ## The whole space -/

/-- The view of the register at an offset that a richer field of State holds. -/
def State.heldReg (s : State) (o : Nat) : Option Nat :=
  if o < 0x20000 then s.gcsView o
  else if o < 0x30000 then s.fltView o
  else if o < 0x40000 then s.wchView o
  else if o < 0x50000 then s.monView o
  else if o < 0x60000 then s.dmvView o
  else if o < 0x70000 then s.sccView o
  else if o < 0x80000 then s.chtView o
  else if o < 0x90000 then s.logView o
  else if o < 0xA0000 then s.pairView o
  else if o < 0xB0000 then s.chnView o
  else if o < 0xC0000 then s.pwinView o
  else if o < 0xD0000 then s.hpuView (decide (0xC8000 ≤ o)) (o % 0x8000)
  else if o < 0xE0000 then none
  else if o < 0xF0000 then s.mapView o
  else if o < 0x100000 then s.secView o
  else if inBlock 0x1000000 0x400000 o then s.dpView (BitVec.ofNat 8 ((o - 0x1000000) / 0x4000)) (o % 0x4000)
  else match ringOf o with
    | some r => s.ringView r ((o - 0x100000) % 64)
    | none =>
      if o = Reg.rngCtl then some (ofBool s.privLock)
      else if o = Reg.rngHalt then some s.haltWord
      else none

/-- The value of the register at its own offset: zero where the part lacks it or no register stands (R3, R8, R429). -/
def State.readReg (s : State) (o : Nat) : Nat :=
  if s.absentReg o then 0
  else match Reg.find o with
    | none => 0
    | some _ => (s.heldReg o).getD (s.regN o)

/-- Whether a 64-bit register stands at an offset. -/
def wideAt (o : Nat) : Bool := (Reg.find o).any (fun r => r.wide)

/-- A naturally aligned 32-bit read through port p (R6, R427): the lower half of a 64-bit register is its present value, the upper half
the latched one when a lower half was read before. -/
def State.read32 (s : State) (p : Bool) (o : Nat) : Nat :=
  if o < 0x10000 then leAt s.almBytes o 4
  else if inBlock 0x2000000 0x8000 o then s.msixWord p (o - 0x2000000)
  else if inBlock 0x2008000 0x100 o then s.pbaWord p (o - 0x2008000)
  else match doorbellOf o with
    | some r => s.doorbellView r
    | none =>
      if o % 8 = 4 && wideAt (o - 4) then
        (match Tab.get s.gcs.latch none (o - 4) with
          | some v => v.toNat
          | none => s.readReg (o - 4) / 2 ^ 32)
      else s.readReg o % 2 ^ 32

end Sys2Proof.Machine
end

