-- ==== Sys2Proof/Machine/RegWrites.lean ====
section
/-! DEFINITION. Register accesses (spec/00_scope.md R3, R6 to R10): what a write to each register does and the 32-bit halves of 64-bit
registers. A write to a register that has a row of its own does what that row does. -/

namespace Sys2Proof.Machine

/-! ## Field rules -/

/-- The fields of a register whose values outside a range are ignored: first bit, length, least and greatest value (the owning
chapters' tables). -/
def fieldRules (p : Part) (o : Nat) : List (Nat × Nat × Nat × Nat) :=
  if o = Reg.logRate then [(0, 8, if p = .np9128 then 2 else 4, if p = .np9128 then 15 else 30)]
  else if o = Reg.wchSeal then [(0, 14, 10, 10000)]
  else if o = Reg.gcsRbsShare then [(0, 8, 1, 100), (8, 8, 1, 50)]
  else if o = Reg.gcsRbsScrub then [(0, 32, 3600, 31622400)]
  else if o = Reg.gcsRbsWindow then [(0, 8, 1, 255)]
  else if o = Reg.gcsRbsDr then [(0, 8, 50, 250)]
  else if o = Reg.dmvRdTimeout then [(0, 20, 1000, 1000000)]
  else if o = Reg.sccPf then [(4, 4, 1, 15), (8, 2, 1, 3), (16, 16, 64, 65535)]
  else if o = Reg.sccVt then [(8, 8, 1, 255)]
  else if o = Reg.dpTimeout then [(0, 16, 100, 60000)]
  else if o = Reg.dpPm then [(8, 8, 1, 255)]
  else if o = Reg.monTj then [(8, 8, 60, 110)]
  else if o = Reg.calTrig then [(0, 8, 1, 40), (8, 16, 1, 8760)]
  else if o = Reg.gcsHold then [(8, 8, 1, 100)]
  else if o = Reg.pairCtl then [(0, 8, 1, 255)]
  else if o = Reg.hpuPm 0 ∨ o = Reg.hpuPm 1 then [(0, 8, 1, 255), (9, 2, 0, 2), (16, 8, 5, 50)]
  else if (instAt 0x50400 64 64 o).isSome then [(16, 4, 6, 12), (20, 10, 1, 1023)]
  else if (instAt 0x1000004 0x4000 256 o).isSome then [(0, 5, 1, 16), (8, 4, 5, 10)]
  else if (instAt 0x40014 8 7 o).isSome then [(24, 8, 1, 100)]
  else if (instAt 0xE0104 64 8 o).isSome then [(0, 2, 0, 2)]
  else []

/-- The word with the fields of `rules` that are out of range replaced by those of the old word. -/
def keepFields (old v : Nat) (rules : List (Nat × Nat × Nat × Nat)) : Nat :=
  rules.foldl (fun w r =>
    let f := bitsOf w r.1 r.2.1
    if r.2.2.1 ≤ f ∧ f ≤ r.2.2.2 then w else putBits w r.1 r.2.1 (bitsOf old r.1 r.2.1)) v

/-- The word a register holds after a write of v: RW bits of v, other bits 0, fields out of range kept (R8). -/
def storedWord (p : Part) (r : RegRow) (o old v : Nat) : Nat := keepFields old (v &&& r.rw) (fieldRules p o)

/-- The recommended minimum of LOW_MV per rail (R383, R482). -/
def lowestMv (r : Nat) : Nat := [720, 768, 816, 1728, 864, 1152, 1152].getD r 0

/-- Whether a write is ignored as a whole: LOG.THRESH (R148), MON.RAILr.WARN (R383), a ring context that is not DISABLED (R212), a
completion queue that is enabled (R292), a channel that is not DISABLED or a reserved line (R265, R279). -/
def State.writeVetoed (s : State) (o v : Nat) : Bool :=
  if o = Reg.logThresh then decide (bitsOf v 8 8 ≤ bitsOf v 0 8) || decide (95 < bitsOf v 8 8)
  else match instAt 0x40014 8 7 o with
    | some r => decide (bitsOf v 0 12 < lowestMv r) || decide (bitsOf v 12 12 < bitsOf v 0 12)
    | none => match ringOf o with
      | some r => decide ((o - 0x100000) % 64 ≠ 0x18) && decide ((s.ring r).state ≠ .disabled)
      | none =>
        if inBlock 0x50100 0x100 o then decide ((o - 0x50100) % 32 ≠ 0x18) && (s.mq ((o - 0x50100) / 32)).enabled
        else match instAt 0x50400 64 64 o with
          | some n => decide ((s.chan n).state ≠ .disabled) || decide (5 ≤ bitsOf v 0 3)
          | none => false

/-- CFG of a command ring keeps PRIV while PRIV_LOCK is 1 (R209). -/
def State.lockPriv (s : State) (o old w : Nat) : Nat :=
  if s.privLock ∧ (instAt 0x110010 64 16 o).isSome then putBits w 9 1 (bitsOf old 9 1) else w

/-- A register whose word State stores takes a write (R8). -/
def State.storeReg (s : State) (r : RegRow) (o v : Nat) : State :=
  if s.writeVetoed o v then s
  else s.setRegN o (s.lockPriv o (s.regN o) (storedWord s.part r o (s.regN o) v))

/-! ## Windows and messages -/

/-- A shadow window register written (R448, R457). -/
def State.writeShadow (s : State) (o v : Nat) : State :=
  let n := o / 32
  let w := Tab.get s.pwin.shadow Window.at0 n
  let w : Window :=
    if o % 32 = 0 then { w with offset := bitsOf v 12 24 * 4096 }
    else { w with pages := bitsOf v 0 13, tbPage := bitsOf v 16 13, valid := bitOf v 32, read := bitOf v 33, write := bitOf v 34,
                  port0 := bitOf v 35, port1 := bitOf v 36 }
  s.withPwin { s.pwin with shadow := Tab.set s.pwin.shadow Window.at0 n w }

/-- A 32-bit word of port p's MSI-X table written (R437, R438): a vector unmasked sends its pending message. -/
def State.writeMsix (s : State) (p : Bool) (o v : Nat) : State :=
  let n := o / 16
  let e := s.msixEntry p n
  let e : MsixEntry :=
    if o % 16 = 0 then { e with addr := BitVec.ofNat 64 (putBits e.addr.toNat 0 32 (v / 4 * 4)) }
    else if o % 16 = 4 then { e with addr := BitVec.ofNat 64 (putBits e.addr.toNat 32 32 v) }
    else if o % 16 = 8 then { e with data := BitVec.ofNat 32 v }
    else { e with masked := bitOf v 0 }
  (s.modHpu p (fun h => { h with msix := Tab.set h.msix MsixEntry.at0 n e })).sendPending p

/-! ## Registers with rows of their own -/

/-- The state after a row's meaning. -/
def State.after (s : State) (m : State → Host.Outcome State Fault Refusal) : State :=
  match m s with
  | .next t => t
  | _ => s

/-- The state after a row's meaning, when a bit of the word written asks for it. -/
def State.afterIf (s : State) (b : Bool) (m : State → Host.Outcome State Fault Refusal) : State := if b then s.after m else s

/-- ENABLE of a ring written (R212). -/
def State.writeEnable (s : State) (r : RingId) (on : Bool) : State :=
  if on then s.after (execRingEnable r)
  else match r with
    | .data n => s.after (execRingDisable n)
    | .cmd c => s.after (execCommandRingDisable c)
    | .event p => s.after (execEventRingDisable p)

/-- CHn.CTL written (R279, R280). -/
def State.writeChanCtl (s : State) (n v : Nat) : State :=
  let ch := BitVec.ofNat 6 n
  (s.after (if bitOf v 0 then execChannelEnable ch else execChannelDisable ch)).afterIf (bitOf v 1) (execSwReq ch)

/-- HPUn.CTL written through port p: a containing event in the same cycle wins over RELEASE, and RELEASE acts through the other
port's BAR0 (R445, R447). -/
def State.writeHpuCtl (s : State) (p n : Bool) (v : Nat) : State :=
  if bitOf v 1 then s.after (execContainNow n)
  else s.afterIf (bitOf v 0 && (p != n)) (execHpuRelease n false)

/-- A write of v through port p to a register that has rows of its own, none where the register has none. -/
def State.rowWrite (s : State) (p : Bool) (o v : Nat) : Option State :=
  if o = Reg.gcsReset then some (s.after (execSoftReset (BitVec.ofNat 16 v)))
  else if o = Reg.gcsDock then some ((s.afterIf (bitOf v 1 || !bitOf v 0) execDockExit).afterIf (bitOf v 0) execDockEnter)
  else if o = Reg.logCtl then some (s.afterIf (bitOf v 0) execAnchor)
  else if o = Reg.chtCtl then some (s.afterIf (bitOf v 0) execChartFlush)
  else if o = Reg.rngCtl then some (s.afterIf (bitOf v 0) execPrivLock)
  else if o = Reg.chnAlert then some (s.afterIf (bitOf v 0) execAlertClr)
  else if o = Reg.pwinCommit then some (s.afterIf (bitOf v 0) execPwinGo)
  else if o = Reg.dmvTb then some (s.after (execPwinPages (BitVec.ofNat 13 v)))
  else if o = Reg.hpuCtl 0 then some (s.writeHpuCtl p false v)
  else if o = Reg.hpuCtl 1 then some (s.writeHpuCtl p true v)
  else match instAt 0x40440 4 17 o with
    | some n => some (s.after (execCalBankSel (BitVec.ofNat 5 n) (BitVec.ofNat 32 v)))
    | none => match instAt 0x5010C 32 8 o with
      | some q => some (s.after (execMqEnable (BitVec.ofNat 3 q) (bitOf v 0)))
      | none => match instAt 0x50114 32 8 o with
        | some q => some (s.after (execMqCons (BitVec.ofNat 3 q) (BitVec.ofNat 32 v)))
        | none => match instAt 0x50404 64 64 o with
          | some n => some (s.writeChanCtl n v)
          | none => match instAt 0x50410 64 64 o with
            | some n => some (s.after (execChannelDesc (BitVec.ofNat 6 n) (BitVec.ofNat 64 v)))
            | none => match ringOf o with
              | some r => if (o - 0x100000) % 64 = 0x14 then some (s.writeEnable r (bitOf v 0)) else none
              | none => none

/-! ## What else a stored register does -/

/-- What a write to a stored register changes at once: FAULT_N (R355), the Log's pacing (R135), the holdover rate (R161), the group clocks
(R490), RESUME in the word of GCS.HOLD (R389). -/
def State.wrote (s old : State) (o v : Nat) : State :=
  if o = Reg.fltPinLevel then s.evalPin
  else if o = Reg.logThresh then s.evalLog
  else if o = Reg.dpPm then s.reportClocks old
  else if o = Reg.gcsHold then s.afterIf (bitOf v 1) execHoldResume
  else if o = Reg.wchHold then
    (if s.wch.timer = .holdover then
      s.withWch { s.wch with holdRate := max (s.regField Reg.wchHold 0 16) s.wch.maxDrift } else s)
  else s

/-- A whole register written through port p: its row, a shadow window, or the stored word; nothing where the part lacks it, no register
stands, or none of its fields is writable (R3, R8). -/
def State.writeReg (s : State) (p : Bool) (o v : Nat) : State :=
  if s.absentReg o then s
  else match Reg.find o with
    | none => s
    | some r => match s.rowWrite p o v with
      | some t => t
      | none =>
        if inBlock 0xB0100 0x800 o then s.writeShadow (o - 0xB0100) v
        else if r.rw = 0 then s
        else (s.storeReg r o v).wrote s o v

/-- A doorbell written (R204). -/
def State.writeDoorbell (s : State) (r : RingId) (v : Nat) : State :=
  let w := BitVec.ofNat 32 v
  match r with
  | .data n => s.after (execDataRingDoorbell n w)
  | .cmd c => s.after (execCommandRingDoorbell c w)
  | .event p => s.after (execEventRingDoorbell p w)

/-- A naturally aligned 32-bit write through port p (R6): the lower half of a 64-bit register waits for the upper half, which takes the
lower half last written, or the present one when none was. -/
def State.write32 (s : State) (p : Bool) (o v : Nat) : State :=
  if inBlock 0x2000000 0x8000 o then s.writeMsix p (o - 0x2000000) v
  else match doorbellOf o with
    | some r => s.writeDoorbell r v
    | none =>
      if wideAt o then
        s.withGcs { s.gcs with splitLow := Tab.set s.gcs.splitLow none o (some (BitVec.ofNat 32 v)) }
      else if o % 8 = 4 && wideAt (o - 4) then
        let low := match Tab.get s.gcs.splitLow none (o - 4) with
          | some w => w.toNat
          | none => s.readReg (o - 4) % 2 ^ 32
        (s.withGcs { s.gcs with splitLow := Tab.set s.gcs.splitLow none (o - 4) none }).writeReg p (o - 4) (low + 2 ^ 32 * v)
      else s.writeReg p o v

/-- A naturally aligned 64-bit write through port p (R6, R7, R204): to a 64-bit register, a doorbell, or the MSI-X table. -/
def State.write64 (s : State) (p : Bool) (o v : Nat) : State :=
  if inBlock 0x2000000 0x8000 o then (s.writeMsix p (o - 0x2000000) (v % 2 ^ 32)).writeMsix p (o + 4 - 0x2000000) (v / 2 ^ 32)
  else match doorbellOf o with
    | some r => s.writeDoorbell r (v % 2 ^ 32)
    | none => if wideAt o then s.writeReg p o v else s

/-- Whether an access is naturally aligned. -/
def alignedAt (o : Nat) (wide : Bool) : Bool := if wide then decide (o % 8 = 0) else decide (o % 4 = 0)

/-- Whether a BAR0 write to an offset ends Idle-dock before it takes effect (R470): every one but those to GCS.DOCK, which its own
rows govern. -/
def State.leaveFor (s : State) (o : Nat) : State := if o = Reg.gcsDock then s else s.leaveDock

/-- REGISTER_WRITE (R6 to R10, R221, R443): a frozen port drops it, a halted controller takes the GCS soft reset alone, a port that
does not serve memory requests takes none. -/
def execRegisterWrite (p : Bool) (offset : BitVec 26) (wide : Bool) (value : Word64) (s : State) :
    Host.Outcome State Fault Refusal :=
  let o := offset.toNat
  let v := if wide then value.toNat else value.toNat % 2 ^ 32
  if (s.hpu p).contained then .next (s.count32 (Reg.hpuPostedDrops (ofBool p)) 1)
  else if !s.portServes2 p ∨ !alignedAt o wide then .next s
  else if s.haltClosed ∧ o ≠ Reg.gcsReset then .next s
  else if wide then .next ((s.leaveFor o).write64 p o v)
  else .next ((s.leaveFor o).write32 p o v)

/-- The upper half of the 64-bit register at an offset latched (R6). -/
def State.latchUpper (s : State) (o : Nat) : State :=
  if wideAt o then
    s.withGcs { s.gcs with latch := Tab.set s.gcs.latch none o (some (BitVec.ofNat 32 (s.readReg o / 2 ^ 32))) }
  else s

/-- LOWER_HALF_READ (R6, R7, R443): an aligned 32-bit read through port p returns its word; that of a lower half latches the upper half,
and that of an upper half uses the latch up. -/
def execLowerHalfRead (p : Bool) (offset : BitVec 26) (s : State) : Host.Outcome State Fault Refusal :=
  let o := offset.toNat
  if !(s.hpu p).dlUp then .next s
  else if (s.hpu p).contained ∨ !s.portServes2 p ∨ !alignedAt o false then .next (s.complete p (.unsupported p))
  else
    let v := s.read32 p o
    let s := s.latchUpper o
    let s := if o % 8 = 4 then s.withGcs { s.gcs with latch := Tab.set s.gcs.latch none (o - 4) none } else s
    .next (s.complete p (.readData p (leBytes 4 v)))

end Sys2Proof.Machine
end

