-- ==== Sys2Proof/Machine/Dispatch.lean ====
section
/-! DEFINITION. One arm per command: the command's meaning, called by its full name. -/

namespace Sys2Proof.Machine

/-- The effect of a command on everything but the queue of waiting commands. -/
def exec (i : Instr) (s : State) : Host.Outcome State Fault Refusal :=
  match i with
  | .powerOn bifur cold => Sys2Proof.Machine.execPowerOn bifur cold s
  | .powerLoss => Sys2Proof.Machine.execPowerLoss s
  | .coldStartProceed => Sys2Proof.Machine.execColdStartProceed s
  | .bootComplete otp store => Sys2Proof.Machine.execBootComplete otp store s
  | .startupCalibrationDone calref0 calref1 sweeps => Sys2Proof.Machine.execStartupCalibrationDone calref0 calref1 sweeps s
  | .mapStoreTrainingDone eyes => Sys2Proof.Machine.execMapStoreTrainingDone eyes s
  | .almanacComplete => Sys2Proof.Machine.execAlmanacComplete s
  | .surveyComplete ms => Sys2Proof.Machine.execSurveyComplete ms s
  | .journalWalkEnd => Sys2Proof.Machine.execJournalWalkEnd s
  | .setReplayEnd set ok => Sys2Proof.Machine.execSetReplayEnd set ok s
  | .softReset key => Sys2Proof.Machine.execSoftReset key s
  | .chainReset b0 b1 => Sys2Proof.Machine.execChainReset b0 b1 s
  | .perstN p => Sys2Proof.Machine.execPerstN p s
  | .perstNRelease p => Sys2Proof.Machine.execPerstNRelease p s
  | .flr p => Sys2Proof.Machine.execFlr p s
  | .d3hotEntry p => Sys2Proof.Machine.execD3hotEntry p s
  | .d0Return p => Sys2Proof.Machine.execD0Return p s
  | .dockEnter => Sys2Proof.Machine.execDockEnter s
  | .dockExit => Sys2Proof.Machine.execDockExit s
  | .pwrwarnNAssert => Sys2Proof.Machine.execPwrwarnNAssert s
  | .railSample mv pwrwarnHigh => Sys2Proof.Machine.execRailSample mv pwrwarnHigh s
  | .holdQualificationExpiry => Sys2Proof.Machine.execHoldQualificationExpiry s
  | .holdResume => Sys2Proof.Machine.execHoldResume s
  | .junctionSample tj banks => Sys2Proof.Machine.execJunctionSample tj banks s
  | .fixPpsEdge rising intervalNs leadNs jitterPpb => Sys2Proof.Machine.execFixPpsEdge rising intervalNs leadNs jitterPpb s
  | .fixPpsLost => Sys2Proof.Machine.execFixPpsLost s
  | .todLapse => Sys2Proof.Machine.execTodLapse s
  | .watchBoundary => Sys2Proof.Machine.execWatchBoundary s
  | .watchSeal => Sys2Proof.Machine.execWatchSeal s
  | .sealGraceExpiry seq => Sys2Proof.Machine.execSealGraceExpiry seq s
  | .holdoverTick => Sys2Proof.Machine.execHoldoverTick s
  | .watchLengthChange => Sys2Proof.Machine.execWatchLengthChange s
  | .generationLimit set => Sys2Proof.Machine.execGenerationLimit set s
  | .recordCommit seq => Sys2Proof.Machine.execRecordCommit seq s
  | .anchor => Sys2Proof.Machine.execAnchor s
  | .relocation => Sys2Proof.Machine.execRelocation s
  | .stripeCommit set stripe rowFirst rowCount => Sys2Proof.Machine.execStripeCommit set stripe rowFirst rowCount s
  | .bankFailure bank => Sys2Proof.Machine.execBankFailure bank s
  | .bankErrorWindow words => Sys2Proof.Machine.execBankErrorWindow words s
  | .resilverComplete pair => Sys2Proof.Machine.execResilverComplete pair s
  | .lifeRecordDue => Sys2Proof.Machine.execLifeRecordDue s
  | .calTemperatureCheck calref temps => Sys2Proof.Machine.execCalTemperatureCheck calref temps s
  | .calIntervalDue bank => Sys2Proof.Machine.execCalIntervalDue bank s
  | .calFailHoldoffExpiry bank => Sys2Proof.Machine.execCalFailHoldoffExpiry bank s
  | .calRunStart => Sys2Proof.Machine.execCalRunStart s
  | .calCopyComplete => Sys2Proof.Machine.execCalCopyComplete s
  | .calSweepComplete calref0 calref1 sweep => Sys2Proof.Machine.execCalSweepComplete calref0 calref1 sweep s
  | .calBankSel bank value => Sys2Proof.Machine.execCalBankSel bank value s
  | .dataRingDoorbell n value => Sys2Proof.Machine.execDataRingDoorbell n value s
  | .commandRingDoorbell c value => Sys2Proof.Machine.execCommandRingDoorbell c value s
  | .eventRingDoorbell p value => Sys2Proof.Machine.execEventRingDoorbell p value s
  | .ringEnable r => Sys2Proof.Machine.execRingEnable r s
  | .ringDisable n => Sys2Proof.Machine.execRingDisable n s
  | .commandRingDisable c => Sys2Proof.Machine.execCommandRingDisable c s
  | .eventRingDisable p => Sys2Proof.Machine.execEventRingDisable p s
  | .ringDisableComplete r => Sys2Proof.Machine.execRingDisableComplete r s
  | .privLock => Sys2Proof.Machine.execPrivLock s
  | .descriptorFetch r => Sys2Proof.Machine.execDescriptorFetch r s
  | .descriptorReadComplete r result => Sys2Proof.Machine.execDescriptorReadComplete r result s
  | .haltCloseEnd => Sys2Proof.Machine.execHaltCloseEnd s
  | .ringReadTimeout r => Sys2Proof.Machine.execRingReadTimeout r s
  | .ioRead n sgl errs => Sys2Proof.Machine.execIoRead n sgl errs s
  | .ioWrite n sgl errs => Sys2Proof.Machine.execIoWrite n sgl errs s
  | .allocationRetry n => Sys2Proof.Machine.execAllocationRetry n s
  | .ioWriteZeroes n => Sys2Proof.Machine.execIoWriteZeroes n s
  | .ioVerify n => Sys2Proof.Machine.execIoVerify n s
  | .ioNop n => Sys2Proof.Machine.execIoNop n s
  | .msixHoldoffExpiry r => Sys2Proof.Machine.execMsixHoldoffExpiry r s
  | .msixUnmask p vector => Sys2Proof.Machine.execMsixUnmask p vector s
  | .deferredCommandStart src => Sys2Proof.Machine.execDeferredCommandStart src s
  | .bufferReadComplete src result => Sys2Proof.Machine.execBufferReadComplete src result s
  | .bufferReadTimeout src => Sys2Proof.Machine.execBufferReadTimeout src s
  | .mgmtWatchdog => Sys2Proof.Machine.execMgmtWatchdog s
  | .fwRestartDone => Sys2Proof.Machine.execFwRestartDone s
  | .setCreate src => Sys2Proof.Machine.execSetCreate src s
  | .setModify src => Sys2Proof.Machine.execSetModify src s
  | .setStart src => Sys2Proof.Machine.execSetStart src s
  | .setStop src => Sys2Proof.Machine.execSetStop src s
  | .setDelete src => Sys2Proof.Machine.execSetDelete src s
  | .setRecover src => Sys2Proof.Machine.execSetRecover src s
  | .setQuery src => Sys2Proof.Machine.execSetQuery src s
  | .setReadPreserved src => Sys2Proof.Machine.execSetReadPreserved src s
  | .setDrainComplete set => Sys2Proof.Machine.execSetDrainComplete set s
  | .profileDefine src => Sys2Proof.Machine.execProfileDefine src s
  | .profileDelete src => Sys2Proof.Machine.execProfileDelete src s
  | .profileQuery src => Sys2Proof.Machine.execProfileQuery src s
  | .chartLoad src => Sys2Proof.Machine.execChartLoad src s
  | .chartTableWrite src => Sys2Proof.Machine.execChartTableWrite src s
  | .chartDelete src => Sys2Proof.Machine.execChartDelete src s
  | .chartRevise src => Sys2Proof.Machine.execChartRevise src s
  | .chartLookup src => Sys2Proof.Machine.execChartLookup src s
  | .lookupAccept cls => Sys2Proof.Machine.execLookupAccept cls s
  | .lookupComplete ctx => Sys2Proof.Machine.execLookupComplete ctx s
  | .chartFlush => Sys2Proof.Machine.execChartFlush s
  | .portQuery src => Sys2Proof.Machine.execPortQuery src s
  | .portConfig src => Sys2Proof.Machine.execPortConfig src s
  | .portFail src => Sys2Proof.Machine.execPortFail src s
  | .portRelease src => Sys2Proof.Machine.execPortRelease src s
  | .portReset src => Sys2Proof.Machine.execPortReset src s
  | .portAdmin src => Sys2Proof.Machine.execPortAdmin src s
  | .groupPower src => Sys2Proof.Machine.execGroupPower src s
  | .logQuery src => Sys2Proof.Machine.execLogQuery src s
  | .watchSetTod src => Sys2Proof.Machine.execWatchSetTod src s
  | .watchSetLength src => Sys2Proof.Machine.execWatchSetLength src s
  | .watchQuery src => Sys2Proof.Machine.execWatchQuery src s
  | .cleanRange src => Sys2Proof.Machine.execCleanRange src s
  | .invalRange src => Sys2Proof.Machine.execInvalRange src s
  | .discardRange src => Sys2Proof.Machine.execDiscardRange src s
  | .wayMasks src => Sys2Proof.Machine.execWayMasks src s
  | .regionSet src => Sys2Proof.Machine.execRegionSet src s
  | .regionQuery src => Sys2Proof.Machine.execRegionQuery src s
  | .faultRead src => Sys2Proof.Machine.execFaultRead src s
  | .faultAck src => Sys2Proof.Machine.execFaultAck src s
  | .faultClear src => Sys2Proof.Machine.execFaultClear src s
  | .faultLoadReaction src => Sys2Proof.Machine.execFaultLoadReaction src s
  | .calRun src => Sys2Proof.Machine.execCalRun src s
  | .calQuery src => Sys2Proof.Machine.execCalQuery src s
  | .lifeRead src => Sys2Proof.Machine.execLifeRead src s
  | .lifeRecord src => Sys2Proof.Machine.execLifeRecord src s
  | .pairJoin src => Sys2Proof.Machine.execPairJoin src s
  | .pairLeave src => Sys2Proof.Machine.execPairLeave src s
  | .pairQuery src => Sys2Proof.Machine.execPairQuery src s
  | .fwDownload src => Sys2Proof.Machine.execFwDownload src s
  | .fwCommit src => Sys2Proof.Machine.execFwCommit src s
  | .fwQuery src => Sys2Proof.Machine.execFwQuery src s
  | .diagInject src => Sys2Proof.Machine.execDiagInject src s
  | .diagEcho src => Sys2Proof.Machine.execDiagEcho src s
  | .sAdd ctx rd ra rb => Sys2Proof.Machine.execSAdd ctx rd ra rb s
  | .sSub ctx rd ra rb => Sys2Proof.Machine.execSSub ctx rd ra rb s
  | .sAnd ctx rd ra rb => Sys2Proof.Machine.execSAnd ctx rd ra rb s
  | .sOr ctx rd ra rb => Sys2Proof.Machine.execSOr ctx rd ra rb s
  | .sXor ctx rd ra rb => Sys2Proof.Machine.execSXor ctx rd ra rb s
  | .sShl ctx rd ra rb => Sys2Proof.Machine.execSShl ctx rd ra rb s
  | .sShr ctx rd ra rb => Sys2Proof.Machine.execSShr ctx rd ra rb s
  | .sAddi ctx rd ra imm => Sys2Proof.Machine.execSAddi ctx rd ra imm s
  | .sAndi ctx rd ra imm => Sys2Proof.Machine.execSAndi ctx rd ra imm s
  | .sOri ctx rd ra imm => Sys2Proof.Machine.execSOri ctx rd ra imm s
  | .sXori ctx rd ra imm => Sys2Proof.Machine.execSXori ctx rd ra imm s
  | .sShli ctx rd ra imm => Sys2Proof.Machine.execSShli ctx rd ra imm s
  | .sShri ctx rd ra imm => Sys2Proof.Machine.execSShri ctx rd ra imm s
  | .sMovi ctx rd lane imm => Sys2Proof.Machine.execSMovi ctx rd lane imm s
  | .sMovk ctx rd lane imm => Sys2Proof.Machine.execSMovk ctx rd lane imm s
  | .sMul ctx rd ra rb => Sys2Proof.Machine.execSMul ctx rd ra rb s
  | .sMulhi ctx rd ra rb => Sys2Proof.Machine.execSMulhi ctx rd ra rb s
  | .sDivm ctx rd ra rb => Sys2Proof.Machine.execSDivm ctx rd ra rb s
  | .sModr ctx rd ra rb => Sys2Proof.Machine.execSModr ctx rd ra rb s
  | .sMix ctx rd ra rb => Sys2Proof.Machine.execSMix ctx rd ra rb s
  | .sSltu ctx rd ra rb => Sys2Proof.Machine.execSSltu ctx rd ra rb s
  | .sSeq ctx rd ra rb => Sys2Proof.Machine.execSSeq ctx rd ra rb s
  | .sSel ctx rd rc ra rb => Sys2Proof.Machine.execSSel ctx rd rc ra rb s
  | .sBz ctx ra off => Sys2Proof.Machine.execSBz ctx ra off s
  | .sBnz ctx ra off => Sys2Proof.Machine.execSBnz ctx ra off s
  | .sBr ctx off => Sys2Proof.Machine.execSBr ctx off s
  | .sSkeq ctx ra rb => Sys2Proof.Machine.execSSkeq ctx ra rb s
  | .sSkne ctx ra rb => Sys2Proof.Machine.execSSkne ctx ra rb s
  | .sSklt ctx ra rb => Sys2Proof.Machine.execSSklt ctx ra rb s
  | .sLdt ctx rd ra table width words => Sys2Proof.Machine.execSLdt ctx rd ra table width words s
  | .sPtest ctx rd ra => Sys2Proof.Machine.execSPtest ctx rd ra s
  | .sEmit ctx ra rb => Sys2Proof.Machine.execSEmit ctx ra rb s
  | .sFault ctx code => Sys2Proof.Machine.execSFault ctx code s
  | .sCrr ctx rd index => Sys2Proof.Machine.execSCrr ctx rd index s
  | .sCrw ctx ra index => Sys2Proof.Machine.execSCrw ctx ra index s
  | .sRaise ctx ra event => Sys2Proof.Machine.execSRaise ctx ra event s
  | .sDone ctx => Sys2Proof.Machine.execSDone ctx s
  | .actHalt ctx ra => Sys2Proof.Machine.execActHalt ctx ra s
  | .actPreserve ctx ra => Sys2Proof.Machine.execActPreserve ctx ra s
  | .actStopSet ctx ra => Sys2Proof.Machine.execActStopSet ctx ra s
  | .actFailPort ctx ra => Sys2Proof.Machine.execActFailPort ctx ra s
  | .actContainHost ctx ra => Sys2Proof.Machine.execActContainHost ctx ra s
  | .actClear ctx ra => Sys2Proof.Machine.execActClear ctx ra s
  | .actLife ctx ra => Sys2Proof.Machine.execActLife ctx ra s
  | .reactionStart => Sys2Proof.Machine.execReactionStart s
  | .codingPassDispatch => Sys2Proof.Machine.execCodingPassDispatch s
  | .codingPassComplete engine outputs => Sys2Proof.Machine.execCodingPassComplete engine outputs s
  | .cesSelfTestComplete cluster pass => Sys2Proof.Machine.execCesSelfTestComplete cluster pass s
  | .cesIdleSelfTest pass0 pass1 => Sys2Proof.Machine.execCesIdleSelfTest pass0 pass1 s
  | .decodeSolveComplete cluster verified => Sys2Proof.Machine.execDecodeSolveComplete cluster verified s
  | .driveReadComplete id result errs => Sys2Proof.Machine.execDriveReadComplete id result errs s
  | .driveWriteComplete id ok => Sys2Proof.Machine.execDriveWriteComplete id ok s
  | .driveFlushComplete port ok => Sys2Proof.Machine.execDriveFlushComplete port ok s
  | .driveAdminComplete port ok cqe data => Sys2Proof.Machine.execDriveAdminComplete port ok cqe data s
  | .driveShutdownComplete port => Sys2Proof.Machine.execDriveShutdownComplete port s
  | .deadReckoningThreshold id errs => Sys2Proof.Machine.execDeadReckoningThreshold id errs s
  | .hardTimeout id => Sys2Proof.Machine.execHardTimeout id s
  | .portSealLimit port => Sys2Proof.Machine.execPortSealLimit port s
  | .writeLagLimit id => Sys2Proof.Machine.execWriteLagLimit id s
  | .receiverDetection port found => Sys2Proof.Machine.execReceiverDetection port found s
  | .driveBringupComplete port result => Sys2Proof.Machine.execDriveBringupComplete port result s
  | .cstsRdyTimeout port => Sys2Proof.Machine.execCstsRdyTimeout port s
  | .linkDown port receiver => Sys2Proof.Machine.execLinkDown port receiver s
  | .recoveryTimeout port => Sys2Proof.Machine.execRecoveryTimeout port s
  | .portResetEnd port receiver => Sys2Proof.Machine.execPortResetEnd port receiver s
  | .quarantineReset port => Sys2Proof.Machine.execQuarantineReset port s
  | .driveAsyncEvent port critWarn => Sys2Proof.Machine.execDriveAsyncEvent port critWarn s
  | .healthPoll logs => Sys2Proof.Machine.execHealthPoll logs s
  | .driveDmaReject port => Sys2Proof.Machine.execDriveDmaReject port s
  | .driveLinkErrorWindow port errors => Sys2Proof.Machine.execDriveLinkErrorWindow port errors s
  | .driveL1Entry port => Sys2Proof.Machine.execDriveL1Entry port s
  | .groupDrainEnd group => Sys2Proof.Machine.execGroupDrainEnd group s
  | .drainTimeout group => Sys2Proof.Machine.execDrainTimeout group s
  | .groupWakeDelay group receivers => Sys2Proof.Machine.execGroupWakeDelay group receivers s
  | .catchupExtentDone port extent => Sys2Proof.Machine.execCatchupExtentDone port extent s
  | .rebuildPacingWindow => Sys2Proof.Machine.execRebuildPacingWindow s
  | .rebuildStripeDone set stripe => Sys2Proof.Machine.execRebuildStripeDone set stripe s
  | .rebuildRetakeLimit set stripe => Sys2Proof.Machine.execRebuildRetakeLimit set stripe s
  | .rebuildCursorDurable set => Sys2Proof.Machine.execRebuildCursorDurable set s
  | .scrubPassStart => Sys2Proof.Machine.execScrubPassStart s
  | .scrubPacingWindow => Sys2Proof.Machine.execScrubPacingWindow s
  | .scrubRowReadComplete set stripe row sectors => Sys2Proof.Machine.execScrubRowReadComplete set stripe row sectors s
  | .rowArbitrationDone set stripe row sectors => Sys2Proof.Machine.execRowArbitrationDone set stripe row sectors s
  | .scrubCursorSave => Sys2Proof.Machine.execScrubCursorSave s
  | .resyncRowDone set stripe row sectors => Sys2Proof.Machine.execResyncRowDone set stripe row sectors s
  | .tierMoveComplete key => Sys2Proof.Machine.execTierMoveComplete key s
  | .mapChannelFailure ch detail => Sys2Proof.Machine.execMapChannelFailure ch detail s
  | .cacheInvalidationDone => Sys2Proof.Machine.execCacheInvalidationDone s
  | .burstGrant writeEngine words => Sys2Proof.Machine.execBurstGrant writeEngine words s
  | .moverReadCompletion t result => Sys2Proof.Machine.execMoverReadCompletion t result s
  | .moverReadTimeout t => Sys2Proof.Machine.execMoverReadTimeout t s
  | .tagQuarantineExpiry t => Sys2Proof.Machine.execTagQuarantineExpiry t s
  | .transferComplete ch => Sys2Proof.Machine.execTransferComplete ch s
  | .flushReadComplete ch result => Sys2Proof.Machine.execFlushReadComplete ch result s
  | .copy ch desc srcList dstList => Sys2Proof.Machine.execCopy ch desc srcList dstList s
  | .channelEnable ch => Sys2Proof.Machine.execChannelEnable ch s
  | .channelDisable ch => Sys2Proof.Machine.execChannelDisable ch s
  | .swReq ch => Sys2Proof.Machine.execSwReq ch s
  | .channelDesc ch value => Sys2Proof.Machine.execChannelDesc ch value s
  | .mqEnable q enable => Sys2Proof.Machine.execMqEnable q enable s
  | .mqCons q value => Sys2Proof.Machine.execMqCons q value s
  | .pwinPages value => Sys2Proof.Machine.execPwinPages value s
  | .pairLinkDown detail => Sys2Proof.Machine.execPairLinkDown detail s
  | .pairLaneRetrain lane => Sys2Proof.Machine.execPairLaneRetrain lane s
  | .flitIdle h => Sys2Proof.Machine.execFlitIdle h s
  | .flitNak h => Sys2Proof.Machine.execFlitNak h s
  | .flitMirror h position units => Sys2Proof.Machine.execFlitMirror h position units s
  | .flitMirrorAck h seqs => Sys2Proof.Machine.execFlitMirrorAck h seqs s
  | .flitFwdDesc h descs => Sys2Proof.Machine.execFlitFwdDesc h descs s
  | .flitFwdGrant h ref status detail watch gen => Sys2Proof.Machine.execFlitFwdGrant h ref status detail watch gen s
  | .flitFwdData h ref data => Sys2Proof.Machine.execFlitFwdData h ref data s
  | .flitFwdDone h ref status detail => Sys2Proof.Machine.execFlitFwdDone h ref status detail s
  | .flitSealReady h watch holdover => Sys2Proof.Machine.execFlitSealReady h watch holdover s
  | .flitMeta h token page => Sys2Proof.Machine.execFlitMeta h token page s
  | .flitHaltNotice h => Sys2Proof.Machine.execFlitHaltNotice h s
  | .flitState h ps => Sys2Proof.Machine.execFlitState h ps s
  | .joinTimeout => Sys2Proof.Machine.execJoinTimeout s
  | .pairWaitExpiry => Sys2Proof.Machine.execPairWaitExpiry s
  | .probeTimeout => Sys2Proof.Machine.execProbeTimeout s
  | .fenceWaitExpiry => Sys2Proof.Machine.execFenceWaitExpiry s
  | .takeoverComplete => Sys2Proof.Machine.execTakeoverComplete s
  | .fenceInFall => Sys2Proof.Machine.execFenceInFall s
  | .fenceInRise => Sys2Proof.Machine.execFenceInRise s
  | .chainCmd seq packet => Sys2Proof.Machine.execChainCmd seq packet s
  | .scratchWrite seq offset data => Sys2Proof.Machine.execScratchWrite seq offset data s
  | .scratchRead seq offset count => Sys2Proof.Machine.execScratchRead seq offset count s
  | .chainTod value => Sys2Proof.Machine.execChainTod value s
  | .chainEnum hop => Sys2Proof.Machine.execChainEnum hop s
  | .alertQuery seq => Sys2Proof.Machine.execAlertQuery seq s
  | .chainProbe seq src side => Sys2Proof.Machine.execChainProbe seq src side s
  | .probeReply pairState linkDown => Sys2Proof.Machine.execProbeReply pairState linkDown s
  | .alertAck => Sys2Proof.Machine.execAlertAck s
  | .chainBreak => Sys2Proof.Machine.execChainBreak s
  | .chainFrameForward dest frame => Sys2Proof.Machine.execChainFrameForward dest frame s
  | .alertClr => Sys2Proof.Machine.execAlertClr s
  | .portContainment p cause => Sys2Proof.Machine.execPortContainment p cause s
  | .containNow p => Sys2Proof.Machine.execContainNow p s
  | .hpuRelease p viaVsec => Sys2Proof.Machine.execHpuRelease p viaVsec s
  | .hostTlpError p poisoned => Sys2Proof.Machine.execHostTlpError p poisoned s
  | .hostCorrectableWindow p errors => Sys2Proof.Machine.execHostCorrectableWindow p errors s
  | .hostL1Entry p => Sys2Proof.Machine.execHostL1Entry p s
  | .l0pNarrow p => Sys2Proof.Machine.execL0pNarrow p s
  | .l0pWiden p => Sys2Proof.Machine.execL0pWiden p s
  | .bar2Write p addr data => Sys2Proof.Machine.execBar2Write p addr data s
  | .bar2Read p addr len words => Sys2Proof.Machine.execBar2Read p addr len words s
  | .barSizeWrite p code => Sys2Proof.Machine.execBarSizeWrite p code s
  | .bar0BadAccess p offset width => Sys2Proof.Machine.execBar0BadAccess p offset width s
  | .pwinGo => Sys2Proof.Machine.execPwinGo s
  | .pwinCommitInForce => Sys2Proof.Machine.execPwinCommitInForce s
  | .poolPageRelease page => Sys2Proof.Machine.execPoolPageRelease page s
  | .registerWrite p offset wide value => Sys2Proof.Machine.execRegisterWrite p offset wide value s
  | .shutdownTimeout port => Sys2Proof.Machine.execShutdownTimeout port s
  | .rangeWalkEnd src => Sys2Proof.Machine.execRangeWalkEnd src s
  | .victimTierEmptied => Sys2Proof.Machine.execVictimTierEmptied s
  | .jtagDebugAttempt => Sys2Proof.Machine.execJtagDebugAttempt s
  | .decayFloorCrossed rail => Sys2Proof.Machine.execDecayFloorCrossed rail s
  | .controllerFatalStatus port => Sys2Proof.Machine.execControllerFatalStatus port s
  | .uncorrectableLinkError port receiver => Sys2Proof.Machine.execUncorrectableLinkError port receiver s
  | .flitError again => Sys2Proof.Machine.execFlitError again s
  | .chainFrameCrcError toThisUnit => Sys2Proof.Machine.execChainFrameCrcError toThisUnit s
  | .hotReset p => Sys2Proof.Machine.execHotReset p s
  | .hostLinkUp p speed width cfg => Sys2Proof.Machine.execHostLinkUp p speed width cfg s
  | .gapClosed => Sys2Proof.Machine.execGapClosed s
  | .lowerHalfRead p offset => Sys2Proof.Machine.execLowerHalfRead p offset s
  | .dpgClkreqN group low => Sys2Proof.Machine.execDpgClkreqN group low s

end Sys2Proof.Machine
end

