-- ==== Sys2Proof/Machine/Tick.lean ====
section
/-! DEFINITION. What one core cycle of 0.8 ns does when no command waits: the Watch Timer advances (spec/05_watches_and_fix.md
R149, R153). -/

namespace Sys2Proof.Machine

/-- Tenths of a picosecond by which fix time advances in one core cycle: 8000, and 7992 when the timer runs at 0.999 of its
rate (R151, R153). -/
def cycleTenths (w : Wch) : Nat := if w.timer = .slewing ∨ w.closing then 7992 else 8000

/-- Fix time advanced by one core cycle. -/
def Wch.advance (w : Wch) : Wch :=
  let f := w.fracPs + cycleTenths w
  { w with fixNs := w.fixNs + BitVec.ofNat 64 (f / 10000), fracPs := f % 10000,
           gapTenths := if w.closing then w.gapTenths - 8 else w.gapTenths,
           closing := w.closing && decide (8 < w.gapTenths) }

/-- One core cycle of an idle block: fix time advances once the Watch Timer has started (R163), nothing else changes. -/
def tick (s : State) : State := if s.wch.fixNs = 0 then s else s.withWch s.wch.advance

end Sys2Proof.Machine
end

