-- ==== Sys2Proof/Safety.lean ====
section
/-! DEFINITION. The terms in which claims about the block are made: which parts of the state an operation may change, and what a
safe run keeps: the queue of commands in order, the memories in canonical form, g0 of every Siette machine zero (spec/03 R88),
and the one-time programmable contents of the part (spec/17 R472, R473). -/

namespace Sys2Proof.Machine

/-- A part of the state: its fields, and components of a field that operations may keep while they change the rest of it. Of gcs:
`part` (the part number), `startup` (all but the phase, the deferred calendar and the halt), `phase` (kept, or left for RUNNING
when it is Idle-dock), `halt` (a halted controller stays halted). Of flt: `sources` (the fault sources), `first` (the first-fault record), `reactions`
(loaded programs and the event log). Of log:
`banks` (mirror pairs, spare, fenced banks). Of wch: `timer` (all but which command waits for the next edge). Of interp: `scratch`.
Of sec: `otp` and `rollback`. Of mon: `monitor` (all but the calibration run and its queue). Of pair: `role` (all but the command
that waits, the transmit sequence and the replay buffer). Of chn: `address`. Of hpus: `links` (all of each port but its pending
bits and whether its link is in L1). Of pwin: `pool`. -/
inductive Field where
  | gcs | part | startup | phase | halt | regs | flt | sources | first | reactions | ctxs | sets | incarnations | profiles | cht | log | banks | wch
  | timer | rings | privLock | ios | nextId | dcmds | ports | portGroups | rowOps | commits | passes | arbitrating | clusters | scc
  | dmv | interp | scratch | sec | otp | rollback | mon | monitor | pair | role | chn | address | hpus | links | pwin | pool | map
  | sched | freeCount | out | pending
deriving DecidableEq, Repr

/-- Whether two states agree on the one-time programmable contents: locks, key slots provisioned and revoked, key digests, and
the serial number. -/
def Sec.sameOtp (a b : Sec) : Prop :=
  b.lock = a.lock ∧ b.provisioned = a.provisioned ∧ b.revoked = a.revoked ∧ b.keyDigests = a.keyDigests ∧ b.serial = a.serial

/-- The `startup` component of gcs. -/
def Gcs.startup (g : Gcs) : Gcs :=
  { g with phase := .boot, deferredCalendar := [], halted := false, haltClosing := false, haltReason := 0, haltCmd := false,
           haltRing := 0, haltIndex := 0, haltLap := false }

/-- The `reactions` component of flt. -/
def Flt.reactions (f : Flt) : Flt := { f with first := FirstFault.at0, srcs := [], queue := [], pinLow := false }

/-- The `banks` component of log. -/
def Log.banks (l : Log) : List PairRole × Option (BitVec 5) × List (BitVec 5) := (l.pairs, l.spare, l.fenced)

/-- The `timer` component of wch. -/
def Wch.timer' (w : Wch) : Wch := { w with todSrc := none }

/-- The `monitor` component of mon. -/
def Mon.monitor (m : Mon) : Mon := { m with run := none, queue := [] }

/-- The `role` component of pair. -/
def Pair.role (p : Pair) : Pair := { p with joinSrc := none, seqTx := 0, replayBuf := [] }

/-- What `links` compares of a host port. -/
def Hpu.fixed (h : Hpu) : Hpu := { h with pendingBits := [], inL1 := false }

/-- Two states agree on a part of the state. -/
def Agree (s t : State) : Field → Prop
  | .gcs => t.gcs = s.gcs
  | .part => t.gcs.part = s.gcs.part
  | .startup => t.gcs.startup = s.gcs.startup
  | .phase => s.gcs.phase ≠ .dock → t.gcs.phase = s.gcs.phase
  | .halt => s.gcs.halted = true → t.gcs.halted = true
  | .regs => t.regs = s.regs
  | .flt => t.flt = s.flt
  | .sources => t.flt.srcs = s.flt.srcs
  | .first => t.flt.first = s.flt.first
  | .reactions => t.flt.reactions = s.flt.reactions
  | .ctxs => t.ctxs = s.ctxs
  | .sets => t.sets = s.sets
  | .incarnations => t.incarnations = s.incarnations
  | .profiles => t.profiles = s.profiles
  | .cht => t.cht = s.cht
  | .log => t.log = s.log
  | .banks => t.log.banks = s.log.banks
  | .wch => t.wch = s.wch
  | .timer => t.wch.timer' = s.wch.timer'
  | .rings => t.rings = s.rings
  | .privLock => t.privLock = s.privLock
  | .ios => t.ios = s.ios
  | .nextId => t.nextId = s.nextId
  | .dcmds => t.dcmds = s.dcmds
  | .ports => t.ports = s.ports
  | .portGroups => t.portGroups = s.portGroups
  | .rowOps => t.rowOps = s.rowOps
  | .commits => t.commits = s.commits
  | .passes => t.passes = s.passes
  | .arbitrating => t.arbitrating = s.arbitrating
  | .clusters => t.clusters = s.clusters
  | .scc => t.scc = s.scc
  | .dmv => t.dmv = s.dmv
  | .interp => t.interp = s.interp
  | .scratch => t.interp.scratch = s.interp.scratch
  | .sec => t.sec = s.sec
  | .otp => s.sec.sameOtp t.sec
  | .rollback => t.sec.rollback = s.sec.rollback
  | .mon => t.mon = s.mon
  | .monitor => t.mon.monitor = s.mon.monitor
  | .pair => t.pair = s.pair
  | .role => t.pair.role = s.pair.role
  | .chn => t.chn = s.chn
  | .address => t.chn.address = s.chn.address
  | .hpus => t.hpus = s.hpus
  | .links => ∀ p, (t.hpu p).fixed = (s.hpu p).fixed
  | .pwin => t.pwin = s.pwin
  | .pool => t.pwin.pool = s.pwin.pool
  | .map => t.map = s.map
  | .sched => t.sched = s.sched
  | .freeCount => t.freeCount = s.freeCount
  | .out => t.out = s.out
  | .pending => t.pending = s.pending

/-- The frame: t differs from s in the listed parts of the state at most. -/
def Only (m : List Field) (s t : State) : Prop := ∀ f, f ∉ m → Agree s t f

/-- The frame of a command: whatever next state it answers differs from s in the listed parts at most. -/
def OnlyNext (m : List Field) (s : State) (o : Host.Outcome State Fault Refusal) : Prop := ∀ t, o = .next t → Only m s t

/-- A command answers a next state that has a property: the machine goes on. -/
def Answers (c : Instr) (s : State) (P : State → Prop) : Prop := ∃ t, exec c s = .next t ∧ P t

/-- What raising a fault may change: the fault records, the event rings and all that a halt ends (R350, R221). -/
def raiseParts : List Field :=
  [.gcs, .regs, .flt, .sources, .first, .sets, .cht, .log, .wch, .rings, .ios, .dcmds, .ports, .portGroups, .rowOps, .commits,
    .clusters, .scc, .interp, .mon, .pair, .chn, .hpus, .out]

/-- What the reply of a command packet may change (R241). -/
def replyParts : List Field :=
  [.regs, .rings, .interp, .hpus, .out]

/-- What leaving Idle-dock may change (R469, R470). -/
def dockParts : List Field :=
  [.gcs, .regs, .log, .clusters, .pair, .out]

/-- What the loss of a drive port may change: every operation that used the drive (R329, R345). -/
def portParts : List Field :=
  [.gcs, .regs, .flt, .sources, .first, .sets, .cht, .log, .wch, .rings, .ios, .nextId, .dcmds, .ports, .portGroups, .rowOps,
    .commits, .passes, .arbitrating, .clusters, .scc, .dmv, .interp, .scratch, .mon, .pair, .chn, .hpus, .freeCount, .out]

/-- The frame of each command: the parts of the state that it may change, in whatever form it takes and whatever state it meets.
Every other part keeps its value. -/
def footprint : Instr → List Field
  | .powerOn _ _ =>
    raiseParts ++ [.startup, .phase, .halt, .reactions, .ctxs, .banks, .timer, .privLock, .passes, .arbitrating, .dmv,
      .scratch, .sec, .monitor, .role, .address, .links, .pwin, .pool, .map, .sched]
  | .powerLoss =>
    [.gcs, .startup, .phase, .halt, .regs, .flt, .sources, .first, .reactions, .ctxs, .sets, .cht, .log, .banks, .wch, .timer,
      .rings, .privLock, .ios, .dcmds, .ports, .portGroups, .rowOps, .commits, .passes, .arbitrating, .clusters, .scc, .dmv,
      .interp, .scratch, .sec, .mon, .monitor, .pair, .role, .chn, .address, .hpus, .links, .pwin, .pool, .map, .sched]
  | .coldStartProceed | .decayFloorCrossed _ =>
    [.gcs, .startup]
  | .bootComplete _ _ | .fwRestartDone =>
    raiseParts ++ [.startup, .phase, .sec]
  | .startupCalibrationDone _ _ _ =>
    raiseParts ++ [.startup, .phase, .monitor]
  | .mapStoreTrainingDone _ =>
    raiseParts ++ [.startup, .phase, .map]
  | .almanacComplete =>
    [.gcs, .startup, .phase, .log]
  | .surveyComplete _ =>
    raiseParts ++ [.startup, .banks, .sec, .rollback, .monitor, .map, .freeCount]
  | .journalWalkEnd =>
    raiseParts ++ [.startup, .phase, .timer, .nextId, .passes]
  | .setReplayEnd _ _ =>
    raiseParts ++ [.startup, .phase, .nextId, .passes, .freeCount]
  | .softReset _ =>
    raiseParts ++ [.startup, .phase, .halt, .reactions, .ctxs, .banks, .timer, .privLock, .passes, .arbitrating, .dmv, .sec,
      .monitor, .role, .links, .pwin, .pool, .map, .sched]
  | .chainReset _ _ =>
    raiseParts ++ [.startup, .phase, .halt, .ctxs, .banks, .timer, .privLock, .passes, .arbitrating, .dmv, .monitor, .role,
      .links, .sched]
  | .perstN _ | .flr _ | .hotReset _ =>
    raiseParts ++ [.dmv, .links, .freeCount]
  | .perstNRelease _ | .d3hotEntry _ | .barSizeWrite _ _ =>
    [.hpus, .links]
  | .d0Return _ | .hpuRelease _ _ =>
    raiseParts ++ [.dmv, .links]
  | .dockEnter =>
    dockParts ++ [.phase]
  | .dockExit | .anchor | .pwinPages _ =>
    dockParts
  | .pwrwarnNAssert | .railSample _ _ | .junctionSample _ _ | .bankFailure _ | .bankErrorWindow _ =>
    raiseParts ++ [.banks, .monitor]
  | .holdQualificationExpiry | .holdResume =>
    raiseParts ++ [.startup, .phase, .nextId, .passes, .monitor]
  | .fixPpsEdge _ _ _ _ | .fixPpsLost | .todLapse | .holdoverTick | .chainTod _ =>
    raiseParts ++ [.timer]
  | .watchBoundary | .watchLengthChange | .gapClosed =>
    [.wch, .timer]
  | .watchSeal =>
    [.regs, .log, .wch, .timer, .pair, .out]
  | .sealGraceExpiry _ | .dataRingDoorbell _ _ | .commandRingDoorbell _ _ | .eventRingDoorbell _ _ | .ringDisable _
  | .ringDisableComplete _ | .ioNop _ | .setDrainComplete _ | .cesSelfTestComplete _ _ | .cesIdleSelfTest _ _
  | .receiverDetection _ _ | .driveBringupComplete _ _ | .cstsRdyTimeout _ | .driveAsyncEvent _ _ | .healthPoll _
  | .driveDmaReject _ | .driveLinkErrorWindow _ _ | .rebuildCursorDurable _ | .chainCmd _ _ | .hostTlpError _ _
  | .hostCorrectableWindow _ _ | .shutdownTimeout _ | .jtagDebugAttempt | .chainFrameCrcError _ =>
    raiseParts
  | .generationLimit _ =>
    [.rings]
  | .recordCommit _ =>
    raiseParts ++ [.banks, .nextId, .passes]
  | .relocation | .stripeCommit _ _ _ _ | .lifeRecordDue | .writeLagLimit _ =>
    raiseParts ++ [.nextId, .passes]
  | .resilverComplete _ =>
    [.log, .banks]
  | .calTemperatureCheck _ _ | .calSweepComplete _ _ _ =>
    raiseParts ++ [.banks, .monitor, .freeCount]
  | .calIntervalDue _ | .calFailHoldoffExpiry _ =>
    [.mon, .monitor]
  | .calRunStart =>
    replyParts ++ [.log, .banks, .mon, .monitor, .freeCount]
  | .calCopyComplete =>
    [.log, .banks, .mon]
  | .calBankSel _ _ =>
    raiseParts ++ [.monitor]
  | .ringEnable _ =>
    raiseParts ++ [.startup]
  | .commandRingDisable _ =>
    dockParts ++ [.rings, .interp]
  | .eventRingDisable _ =>
    dockParts ++ [.rings]
  | .privLock =>
    dockParts ++ [.privLock]
  | .descriptorFetch _ | .msixHoldoffExpiry _ =>
    [.rings, .dmv, .hpus, .out]
  | .descriptorReadComplete _ _ | .ringReadTimeout _ | .bufferReadTimeout _ | .copy _ _ _ _ | .mqCons _ _ =>
    raiseParts ++ [.dmv]
  | .haltCloseEnd =>
    [.gcs, .rings]
  | .ioRead _ _ _ | .ioVerify _ | .portConfig _ | .portFail _ | .portReset _ | .codingPassComplete _ _
  | .decodeSolveComplete _ _ | .driveReadComplete _ _ _ | .driveFlushComplete _ _ | .deadReckoningThreshold _ _
  | .hardTimeout _ | .portSealLimit _ | .linkDown _ _ | .recoveryTimeout _ | .quarantineReset _ | .drainTimeout _
  | .groupWakeDelay _ _ | .rowArbitrationDone _ _ _ _ | .controllerFatalStatus _ | .uncorrectableLinkError _ _ =>
    portParts
  | .ioWrite _ _ _ | .allocationRetry _ | .ioWriteZeroes _ | .moverReadCompletion _ _ | .moverReadTimeout _
  | .transferComplete _ | .flushReadComplete _ _ =>
    raiseParts ++ [.nextId, .passes, .dmv]
  | .msixUnmask _ _ =>
    dockParts ++ [.hpus, .links]
  | .deferredCommandStart _ =>
    portParts ++ [.startup, .phase, .halt, .reactions, .ctxs, .banks, .timer, .privLock, .sec, .monitor, .role, .address,
      .links, .pwin, .pool, .map, .sched]
  | .bufferReadComplete _ _ =>
    replyParts ++ [.flt, .reactions, .cht, .nextId, .dcmds, .ports, .dmv, .sec, .pair]
  | .mgmtWatchdog | .portContainment _ _ | .containNow _ =>
    raiseParts ++ [.nextId, .passes, .dmv, .links]
  | .setCreate _ =>
    replyParts ++ [.sets, .incarnations, .pair, .freeCount]
  | .setModify _ =>
    replyParts ++ [.sets, .incarnations, .scc, .pair, .freeCount]
  | .setStart _ | .regionSet _ =>
    replyParts ++ [.sets, .pair, .freeCount]
  | .setStop _ | .setDelete _ | .setRecover _ | .cleanRange _ | .invalRange _ =>
    raiseParts ++ [.nextId, .passes, .freeCount]
  | .setQuery _ | .profileQuery _ | .portQuery _ | .logQuery _ | .watchQuery _ | .wayMasks _ | .regionQuery _ | .faultRead _
  | .calQuery _ | .pairQuery _ | .fwQuery _ | .diagEcho _ =>
    replyParts ++ [.pair, .freeCount]
  | .setReadPreserved _ =>
    replyParts ++ [.cht, .nextId, .scratch, .pair, .freeCount]
  | .profileDefine _ | .profileDelete _ =>
    replyParts ++ [.profiles, .clusters, .pair, .freeCount]
  | .chartLoad _ | .chartTableWrite _ =>
    replyParts ++ [.cht, .dmv, .pair, .freeCount]
  | .chartDelete _ =>
    replyParts ++ [.cht, .pair, .freeCount]
  | .chartRevise _ =>
    replyParts ++ [.sets, .ports, .pair, .freeCount]
  | .chartLookup _ | .diagInject _ =>
    raiseParts ++ [.freeCount]
  | .lookupAccept _ =>
    [.ctxs, .cht]
  | .lookupComplete _ | .actFailPort _ _ =>
    portParts ++ [.ctxs]
  | .chartFlush =>
    dockParts ++ [.cht]
  | .portRelease _ =>
    replyParts ++ [.ports, .pair, .freeCount]
  | .portAdmin _ =>
    replyParts ++ [.nextId, .dcmds, .ports, .dmv, .pair, .freeCount]
  | .groupPower _ =>
    replyParts ++ [.portGroups, .pair, .freeCount]
  | .watchSetTod _ =>
    raiseParts ++ [.timer, .freeCount]
  | .watchSetLength _ =>
    replyParts ++ [.wch, .timer, .pair, .freeCount]
  | .discardRange _ =>
    replyParts ++ [.scc, .pair, .freeCount]
  | .faultAck _ =>
    replyParts ++ [.flt, .first, .pair, .freeCount]
  | .faultClear _ =>
    replyParts ++ [.flt, .sources, .pair, .freeCount]
  | .faultLoadReaction _ =>
    replyParts ++ [.flt, .reactions, .dmv, .pair, .freeCount]
  | .calRun _ =>
    replyParts ++ [.mon, .pair, .freeCount]
  | .lifeRead _ =>
    replyParts ++ [.scratch, .pair, .freeCount]
  | .lifeRecord _ =>
    replyParts ++ [.log, .pair, .freeCount]
  | .pairJoin _ =>
    replyParts ++ [.sets, .pair, .role, .freeCount]
  | .pairLeave _ =>
    replyParts ++ [.pair, .role, .freeCount]
  | .fwDownload _ =>
    replyParts ++ [.dmv, .sec, .pair, .freeCount]
  | .fwCommit _ =>
    raiseParts ++ [.startup, .phase, .halt, .reactions, .ctxs, .banks, .timer, .privLock, .passes, .arbitrating, .dmv,
      .scratch, .sec, .monitor, .role, .address, .links, .pwin, .pool, .map, .sched, .freeCount]
  | .sAdd _ _ _ _ | .sSub _ _ _ _ | .sAnd _ _ _ _ | .sOr _ _ _ _ | .sXor _ _ _ _ | .sShl _ _ _ _ | .sShr _ _ _ _
  | .sAddi _ _ _ _ | .sAndi _ _ _ _ | .sOri _ _ _ _ | .sXori _ _ _ _ | .sShli _ _ _ _ | .sShri _ _ _ _ | .sMovi _ _ _ _
  | .sMovk _ _ _ _ | .sMul _ _ _ _ | .sMulhi _ _ _ _ | .sDivm _ _ _ _ | .sModr _ _ _ _ | .sMix _ _ _ _ | .sSltu _ _ _ _
  | .sSeq _ _ _ _ | .sSel _ _ _ _ _ | .sBz _ _ _ | .sBnz _ _ _ | .sBr _ _ | .sSkeq _ _ _ | .sSkne _ _ _ | .sSklt _ _ _
  | .sPtest _ _ _ | .sEmit _ _ _ | .sFault _ _ | .sDone _ | .actHalt _ _ | .actClear _ _ | .actLife _ _ =>
    raiseParts ++ [.ctxs]
  | .sLdt _ _ _ _ _ _ =>
    raiseParts ++ [.ctxs, .nextId, .passes, .dmv, .links, .freeCount]
  | .sCrr _ _ _ =>
    [.ctxs]
  | .sCrw _ _ _ | .reactionStart =>
    [.regs, .flt, .ctxs]
  | .sRaise _ _ _ =>
    raiseParts ++ [.reactions, .ctxs]
  | .actPreserve _ _ | .actStopSet _ _ =>
    raiseParts ++ [.ctxs, .nextId, .passes]
  | .actContainHost _ _ =>
    raiseParts ++ [.ctxs, .nextId, .passes, .dmv, .links]
  | .codingPassDispatch =>
    [.passes, .clusters]
  | .driveWriteComplete _ _ =>
    portParts ++ [.startup, .phase]
  | .driveAdminComplete _ _ _ _ =>
    raiseParts ++ [.scratch]
  | .driveShutdownComplete _ | .groupDrainEnd _ =>
    replyParts ++ [.dcmds, .ports, .portGroups]
  | .portResetEnd _ _ =>
    replyParts ++ [.dcmds, .ports]
  | .driveL1Entry _ | .catchupExtentDone _ _ =>
    [.ports]
  | .rebuildPacingWindow =>
    portParts ++ [.sched]
  | .rebuildStripeDone _ _ | .rebuildRetakeLimit _ _ | .scrubCursorSave =>
    [.sets]
  | .scrubPassStart =>
    raiseParts ++ [.sched]
  | .scrubPacingWindow =>
    [.regs, .sets, .sched]
  | .scrubRowReadComplete _ _ _ _ =>
    [.regs, .sets, .arbitrating, .sched]
  | .resyncRowDone _ _ _ _ =>
    raiseParts ++ [.nextId]
  | .tierMoveComplete _ | .cacheInvalidationDone | .victimTierEmptied =>
    [.scc]
  | .mapChannelFailure _ _ =>
    raiseParts ++ [.nextId, .passes, .map]
  | .burstGrant _ _ =>
    raiseParts ++ [.nextId, .passes, .dmv, .pwin, .pool]
  | .tagQuarantineExpiry _ =>
    [.dcmds, .dmv]
  | .channelEnable _ | .swReq _ | .channelDesc _ _ =>
    dockParts ++ [.dmv]
  | .channelDisable _ =>
    raiseParts ++ [.dmv, .freeCount]
  | .mqEnable _ _ =>
    dockParts ++ [.dmv, .hpus]
  | .pairLinkDown _ | .pairLaneRetrain _ | .flitError _ =>
    raiseParts ++ [.role]
  | .flitIdle _ | .flitNak _ | .flitMirror _ _ _ | .flitFwdDesc _ _ | .flitFwdGrant _ _ _ _ _ _ | .flitFwdData _ _ _
  | .flitFwdDone _ _ _ _ | .flitMeta _ _ _ =>
    portParts ++ [.role]
  | .flitMirrorAck _ _ | .flitHaltNotice _ =>
    portParts ++ [.banks, .role]
  | .flitSealReady _ _ _ =>
    portParts ++ [.timer, .role]
  | .flitState _ _ =>
    portParts ++ [.startup, .phase, .role]
  | .joinTimeout =>
    replyParts ++ [.pair, .role]
  | .pairWaitExpiry | .probeTimeout | .probeReply _ _ =>
    raiseParts ++ [.banks, .nextId, .passes, .role]
  | .fenceWaitExpiry | .fenceInRise =>
    [.pair, .role]
  | .takeoverComplete =>
    raiseParts ++ [.startup, .phase, .timer, .nextId, .passes, .role]
  | .fenceInFall =>
    raiseParts ++ [.role, .links]
  | .scratchWrite _ _ _ =>
    [.regs, .interp, .scratch, .out]
  | .scratchRead _ _ _ | .alertQuery _ | .chainProbe _ _ _ =>
    [.regs, .out]
  | .chainEnum _ =>
    raiseParts ++ [.address]
  | .alertAck =>
    [.regs, .chn]
  | .chainBreak =>
    [.regs, .pair, .chn, .address, .out]
  | .chainFrameForward _ _ =>
    [.out]
  | .alertClr =>
    dockParts ++ [.chn]
  | .hostL1Entry _ =>
    [.regs, .hpus]
  | .l0pNarrow _ | .l0pWiden _ =>
    [.regs, .hpus, .links]
  | .bar2Write _ _ _ =>
    raiseParts ++ [.pwin, .pool]
  | .bar2Read _ _ _ _ =>
    raiseParts ++ [.pwin]
  | .bar0BadAccess _ _ _ =>
    [.hpus, .out]
  | .pwinGo =>
    dockParts ++ [.pwin]
  | .pwinCommitInForce =>
    [.pwin, .pool]
  | .poolPageRelease _ =>
    [.pwin]
  | .registerWrite _ _ _ _ =>
    raiseParts ++ [.startup, .phase, .halt, .reactions, .ctxs, .banks, .timer, .privLock, .nextId, .passes, .arbitrating,
      .dmv, .sec, .monitor, .role, .links, .pwin, .pool, .map, .sched, .freeCount]
  | .rangeWalkEnd _ =>
    replyParts
  | .hostLinkUp _ _ _ _ =>
    raiseParts ++ [.links]
  | .lowerHalfRead _ _ =>
    [.gcs, .startup, .hpus, .out]
  | .dpgClkreqN _ _ =>
    [.portGroups, .out]

/-- A command packet is in front of its source, served now, and none of the checks that every command shares fails: its opcode, its
fields marked zero, ROM recovery, the halt, privilege, and HELD (R12, R240, R242, R245 to R248, R250). -/
def Ready (s : State) (src : CmdSrc) (op : Nat) (pkt : Bytes) : Prop :=
  s.frontPacket src = some pkt ∧ opcodeOf pkt = op ∧ ∃ c, cmdInfo op = some c ∧ s.mustWait c pkt = false ∧
    zeroFault c.params pkt = none ∧ (∀ d ∈ s.denials src c, d = none) ∧ (c.persistent && s.inHold) = false

/-- The reply to a packet has left (R241, R246, R416): the packet no longer waits, its source is free, and the reply with the listed
STATUS, detail and RESULT was written to its ring, where the ring publishes and its port is not silent, or is the chain's last
reply. -/
def Replied (s t : State) (src : CmdSrc) (pkt : Bytes) (status detail : Byte) (result : Bytes) : Prop :=
  t.srcQueue src = (s.srcQueue src).drop 1 ∧ src ∉ t.interp.busy ∧
    match src with
    | .chain => t.interp.chainReply = replyBytes pkt status detail result
    | .ring c =>
      ringPublishes s (.cmd c) = true → s.gcs.halted = false → s.portSilent (s.ringPort (.cmd c)) = false →
        Out.reply (.ring c) (BitVec.ofNat 16 (leAt (replyBytes pkt status detail result) 0 2))
          (BitVec.ofNat 64 (leAt (replyBytes pkt status detail result) 8 8)) (byteAt (replyBytes pkt status detail result) 4)
          (byteAt (replyBytes pkt status detail result) 5) ((replyBytes pkt status detail result).drop 16) ∈ t.out

/-- A fault was raised once between s and t (R350): its source counts one more, saturating, is open, and keeps the detail. -/
def State.Faulted (s t : State) (n detail : Byte) : Prop :=
  (t.src n).count = satTo 32 ((s.src n).count + 1) ∧ (t.src n).isOpen = true ∧ (t.src n).lastDetail = detail

/-- The register writes of a host that have a row of their own and act only on the controller (R3, R8): each of them leaves Idle-dock
before anything else (R470). -/
def barWrite : Instr → Bool
  | .dataRingDoorbell _ _ | .commandRingDoorbell _ _ | .eventRingDoorbell _ _ | .ringEnable _ | .ringDisable _
  | .commandRingDisable _ | .eventRingDisable _ | .privLock | .msixUnmask _ _ | .chartFlush | .anchor | .calBankSel _ _
  | .containNow _ | .channelEnable _ | .channelDisable _ | .swReq _ | .channelDesc _ _ | .mqEnable _ _ | .mqCons _ _
  | .pwinPages _ | .pwinGo | .alertClr | .holdResume => true
  | _ => false

/-- A Siette machine wrote rd and went on to the next instruction (R88, R91): rd reads v, g0 zero whatever was written to it, and
nothing else of the machine changed. -/
def SCtx.Wrote (c d : SCtx) (rd : GReg) (v : Word64) : Prop :=
  d.get rd = (if rd = 0 then 0 else v) ∧ (∀ r, r ≠ rd → d.get r = c.get r) ∧ d = { c with g := d.g, pc := c.pc + 1, steps := c.steps + 1 }

/-- A Siette machine went n instructions on and changed nothing else (R91). -/
def SCtx.Went (c d : SCtx) (n : Nat) : Prop := d = { c with pc := c.pc + n, steps := c.steps + 1 }

/-- A flit that the link takes (R411, R412): power is good, the part has the link, the pair is JOINING or PAIRED, the flit is next in
order or the first after training; and no descriptor of the partner waits, so that the flit acts alone. -/
def State.accepts (s : State) (h : FlitHdr) : Prop :=
  s.gcs.pwrgd = true ∧ Config.hasPair s.part = true ∧ (s.pair.state = .joining ∨ s.pair.state = .paired) ∧
    (s.pair.link = true → h.seq = s.pair.seqRx + 1) ∧ s.pair.forwarded = []

/-- The link once it took a flit (R410 to R412): up, at 8 lanes after training, its SEQ taken, and the flits it acknowledges dropped. -/
def Pair.took (p : Pair) (h : FlitHdr) : Pair :=
  { p with link := true, lanesUp := if p.link then p.lanesUp else 8, seqRx := h.seq, failures := 0, replayBuf := ackTrim h.ack p.replayBuf }

/-- g0 of every Siette machine reads zero (R88), as stored, whatever runs on it. -/
def State.G0Zero (s : State) : Prop := ∀ k, Tab.get (Tab.get s.ctxs SCtx.at0 k).g 0 0 = 0

/-- The scratch buffer and the peer-window pool are in canonical form. -/
def State.Canonical (s : State) : Prop := Memory.wf s.interp.scratch = true ∧ Memory.wf s.pwin.pool = true

/-- What no command undoes: the part, its fuses and keys, and an anti-rollback index that never falls (R472 to R474). -/
def State.OneWay (s t : State) : Prop :=
  t.gcs.part = s.gcs.part ∧ s.sec.sameOtp t.sec ∧ s.sec.rollback ≤ t.sec.rollback

end Sys2Proof.Machine
end

