-- ==== Sys2Proof/Certificates/Slice0/Obligations.lean ====
section
/-! DEFINITION. The statements about the block: what a step is, what each command of the table does when it has its own effect, and
what no command ever does. Every statement is about the model's exec; each docstring names the rules of spec/ it rests on. -/

open Sys2Proof Sys2Proof.Machine

/-! ## The machine as a whole -/

/-- A step takes the command at the front of the queue and runs it with the queue's rest. -/
def Obligations.StepRunsTheFrontCommand : Prop :=
  ∀ (c : Instr) (s : State), step (s.withPending (c :: s.pending)) = exec c s

/-- An idle step is one core cycle of 0.8 ns (R149, R153; that a cycle passes when no command waits is the model's choice, log entry
2): fix time, counted with the tenths of a picosecond below 1 ns, advances by 0.8 ns, or by 0.7992 ns while the timer runs at 0.999 of
its rate, and nothing else changes; before the Watch Timer has started nothing changes at all. -/
def Obligations.IdleStepAdvancesFixTimeOnly : Prop :=
  ∀ s : State, s.pending = [] →
    ∃ t, step s = .next t ∧ Only [.wch, .timer] s t ∧ (s.wch.fixNs = 0 → t = s) ∧
      (s.wch.fixNs ≠ 0 → s.wch.fixNs.toNat + 2 < 2 ^ 64 → s.wch.fracPs < 10000 →
        t.wch.fixNs.toNat * 10000 + t.wch.fracPs =
          s.wch.fixNs.toNat * 10000 + s.wch.fracPs +
            (if s.wch.timer = .slewing ∨ s.wch.closing = true then 7992 else 8000))

/-- What reset leaves, of the values that the spec gives: phase BOOT and last reset power-on (R458, R480), no fault record and no open
source (R353, R354), the Watch Timer UNSET with watches of 1 ms (R152, R155), every set EMPTY and every profile undefined (R33, R43),
every ring DISABLED with PRIV_LOCK 0 (R211), an empty Log whose first record has SEQ 1, channels 0 to 47 enabled and the others not
(R265), pair state SINGLE (R395), no chain address (R417), no peer window in force (R457), no command waiting. -/
def Obligations.ResetLeavesTheStatedValues : Prop :=
  State.reset.gcs.phase = .boot ∧ State.reset.gcs.lastReset = .powerOn ∧ State.reset.gcs.halted = false ∧
  State.reset.flt.first.valid = false ∧ (∀ n, (State.reset.src n).isOpen = false ∧ (State.reset.src n).count = 0) ∧
  State.reset.wch.timer = .unset ∧ State.reset.wch.length = 1000000 ∧
  (∀ i, (State.reset.set i).state = .empty) ∧ (∀ i, State.reset.profile i = none) ∧
  (∀ r, (State.reset.ring r).state = .disabled) ∧ State.reset.privLock = false ∧
  State.reset.log.recs = [] ∧ State.reset.log.nextSeq = 1 ∧
  (∀ n, n < 64 → (State.reset.chan n).enable = decide (n < 48)) ∧
  State.reset.pair.state = .single ∧ State.reset.chn.address = none ∧
  (∀ k, (Tab.get State.reset.pwin.active Window.at0 k).valid = false) ∧ State.reset.pending = []

/-- At reset g0 of every Siette machine is zero and the memories are in canonical form. -/
def Obligations.ResetKeepsTheInvariants : Prop := State.reset.G0Zero ∧ State.reset.Canonical

/-- Every command has a meaning: none faults and none is refused, whatever the state. -/
def Obligations.EveryCommandCompletes : Prop := ∀ (c : Instr) (s : State), ∃ t, exec c s = .next t

/-- The frame of every command: it changes no part of the state that its footprint does not list. Besides the fields, the footprint
speaks of components such as the part number, the fuses, the start-up flags, the Siette registers of R88 and the host links. -/
def Obligations.CommandsKeepTheirFrames : Prop :=
  ∀ (c : Instr) (s t : State), exec c s = .next t → Only (footprint c) s t

/-- First in, first out: no command touches the queue of those that wait, so a step removes exactly the one it ran. -/
def Obligations.QueueIsFirstInFirstOut : Prop :=
  ∀ (s t : State), step s = .next t → t.pending = s.pending.tail

/-- What no step undoes (R472 to R474): the part number, the locks, the key slots and their digests never change, and the anti-rollback
index never falls. -/
def Obligations.OneWayStateNeverReturns : Prop := ∀ (s t : State), step s = .next t → s.OneWay t

/-- g0 ignores writes and reads zero (R88): no step ever stores a value in it, on any of the 65 machines. -/
def Obligations.StepsKeepG0Zero : Prop := ∀ (s t : State), s.G0Zero → step s = .next t → t.G0Zero

/-- Every step keeps the scratch buffer and the peer-window pool in canonical form. -/
def Obligations.StepsKeepMemoriesCanonical : Prop := ∀ (s t : State), s.Canonical → step s = .next t → t.Canonical

/-- A halt ends only with a power cycle, a soft reset or a chain reset (R222); the soft reset may come as a write of GCS.RESET (R463).
PRIV_LOCK, once set, is cleared by no command but a power cycle, a soft or a chain reset (R466), a soft reset being asked for by its row, by
a write of GCS.RESET, or by an FW_COMMIT that activates its image. -/
def Obligations.HaltAndLockEndOnlyWithAReset : Prop :=
  (∀ (c : Instr) (s t : State), s.gcs.halted = true → exec c s = .next t → t.gcs.halted = false →
    c = .powerLoss ∨ (∃ b k, c = .powerOn b k) ∨ (∃ k, c = .softReset k) ∨ (∃ a b, c = .chainReset a b) ∨
      ∃ p o w v, c = .registerWrite p o w v ∧ o.toNat = Reg.gcsReset) ∧
  (∀ (c : Instr) (s t : State), s.privLock = true → exec c s = .next t → t.privLock = false →
    c = .powerLoss ∨ (∃ b k, c = .powerOn b k) ∨ (∃ k, c = .softReset k) ∨ (∃ a b, c = .chainReset a b) ∨
      (∃ p o w v, c = .registerWrite p o w v ∧ o.toNat = Reg.gcsReset) ∨ (∃ src, c = .fwCommit src) ∨
      ∃ src, c = .deferredCommandStart src)

/-! ## Start-up, resets, Idle-dock -/

/-- A fall of PWRGD loses everything that is not persistent (R458, R466): rings, admitted work, drive commands, Siette machines, the Command
Interpreter and the peer windows are gone; profiles, incarnations, programs, the Log's pairs and the pair's mirror half stay. A rise of
PWRGD samples HOST_BIFUR and enters phase BOOT, held there while a junction reads below 0 °C (R458, R423, R499). -/
def Obligations.PowerLossAndPowerOn : Prop :=
  (∀ s : State, s.gcs.pwrgd = true →
    Answers .powerLoss s (fun t =>
      t.gcs.pwrgd = false ∧ t.rings = [] ∧ t.ios = [] ∧ t.dcmds = [] ∧ t.ctxs = [] ∧ t.privLock = false ∧ t.interp = Interp.at0 ∧
      t.pwin = Pwin.at0 ∧ t.scc = Scc.at0 ∧ t.flt.first.valid = false ∧ t.flt.srcs = [] ∧ t.flt.loaded = s.flt.loaded ∧
      t.profiles = s.profiles ∧ t.incarnations = s.incarnations ∧ t.cht.progs = s.cht.progs ∧ t.cht.tables = s.cht.tables ∧
      t.log.pairs = s.log.pairs ∧ t.log.life = s.log.life ∧ t.wch.length = s.wch.length ∧ s.OneWay t)) ∧
  (∀ (bifur cold : Bool) (s : State), s.gcs.pwrgd = false →
    Answers (.powerOn bifur cold) s (fun t =>
      t.gcs.pwrgd = true ∧ t.gcs.bifur = bifur ∧ t.gcs.coldWait = cold ∧ t.gcs.phase = .boot ∧ t.gcs.resetNow = some .powerOn ∧
      t.privLock = false ∧ t.ctxs = [] ∧ s.OneWay t))

/-- A soft reset (R463, R464, R466), asked for with the key 0x0CB0 while no equal or heavier reset is in progress: back to phase BOOT, PRIV_LOCK
clear, no Siette program or coding pass left, peer windows and Map Store at their reset values, the management processor restarting;
profiles, the chain address, the scratch buffer and the fuses are kept. Another key is ignored. A chain reset (R463, R464, R466), asked for
with bytes 0xB0 0x0C while no reset but PERST_N or FLR is in progress: RECOVERY begins, PRIV_LOCK is clear, no Siette program is left; the
running firmware, the peer windows, the reaction programs and the chain address are kept. A frame with other bytes changes nothing but the
count of frames received. -/
def Obligations.ResetsReturnToStartUp : Prop :=
  (∀ s : State, s.gcs.pwrgd = true → s.gcs.phase ≠ .romRecovery →
    (∀ k, s.gcs.resetNow = some k → k = .chain) →
    Answers (.softReset 0x0CB0) s (fun t =>
      t.gcs.phase = .boot ∧ t.gcs.resetNow = some .soft ∧ t.privLock = false ∧ t.ctxs = [] ∧ t.passes = [] ∧ t.arbitrating = [] ∧
      t.pwin = Pwin.at0 ∧ t.map = MapStore.at0 ∧ t.sec.running = none ∧ t.profiles = s.profiles ∧
      t.chn.address = s.chn.address ∧ t.interp.scratch = s.interp.scratch ∧ s.OneWay t)) ∧
  (∀ (key : Half) (s : State), key ≠ 0x0CB0 → exec (.softReset key) s = .next s) ∧
  (∀ s : State, s.gcs.pwrgd = true → s.gcs.phase ≠ .romRecovery → s.gcs.resetNow = none →
    Answers (.chainReset 0xB0 0x0C) s (fun t =>
      t.gcs.phase = .recovery ∧ t.gcs.resetNow = some .chain ∧ t.privLock = false ∧ t.ctxs = [] ∧ t.passes = [] ∧
      t.pwin = s.pwin ∧ t.map = s.map ∧ t.sec = s.sec ∧ t.flt.loaded = s.flt.loaded ∧ t.chn.address = s.chn.address)) ∧
  (∀ (b0 b1 : Byte) (s : State), s.gcs.pwrgd = true → ¬(b0 = 0xB0 ∧ b1 = 0x0C) →
    Answers (.chainReset b0 b1) s (fun t => Only [.regs] s t))

/-- The steps of start-up (R431, R458, R475, R499): the cold wait ends; the image of the slot to run, when it passes every check of R474, is
started and the survey phase begins, word errors of the OTP array and of the firmware store being reported (R479); the Almanac and the
calibration and the Map Store are recorded as done, and RECOVERY begins with the last of the three. With no image that passes the checks of
R474 in either slot, the controller enters ROM recovery and raises 0xE1 (R475). -/
def Obligations.StartUpAdvances : Prop :=
  (∀ s : State, Answers .coldStartProceed s (fun t => t.gcs.coldWait = false ∧ Only [.gcs, .startup] s t)) ∧
  (∀ s : State, s.gcs.pwrgd = true → s.gcs.phase = .boot → s.gcs.coldWait = false →
    imageFault s.gcs.part s.sec (s.sec.slot (s.sec.pending.getD s.sec.lastRan)) = none →
    Answers (.bootComplete .good .good) s (fun t =>
      t.gcs.phase = .survey ∧ t.sec.running = some (s.sec.pending.getD s.sec.lastRan) ∧ t.sec.pending = none ∧ t.sec.rom = false ∧
      t.sec.fwRunning = (s.sec.slot (s.sec.pending.getD s.sec.lastRan)).version ∧ Only [.gcs, .phase, .sec] s t)) ∧
  (∀ s : State, s.gcs.phase = .survey → s.gcs.almanac = false →
    Answers .almanacComplete s (fun t =>
      t.gcs.almanac = true ∧ (t.gcs.phase = .recovery ↔ s.gcs.mapTrained = true ∧ s.gcs.calDone = true))) ∧
  (∀ (eyes : List (Nat × Bool × Bool)) (s : State), s.gcs.phase = .survey → s.gcs.mapTrained = false →
    Answers (.mapStoreTrainingDone eyes) s (fun t =>
      t.gcs.mapTrained = true ∧ (t.gcs.phase = .recovery ↔ s.gcs.almanac = true ∧ s.gcs.calDone = true))) ∧
  (∀ (c0 c1 : Nat) (sweeps : List Sweep) (s : State), s.gcs.phase = .survey → s.gcs.calDone = false →
    Answers (.startupCalibrationDone c0 c1 sweeps) s (fun t =>
      t.gcs.calDone = true ∧ (t.gcs.phase = .recovery ↔ s.gcs.almanac = true ∧ s.gcs.mapTrained = true))) ∧
  (∀ (otp store : WordCheck) (s : State), s.gcs.pwrgd = true → s.gcs.phase = .boot → s.gcs.coldWait = false →
    imageFault s.gcs.part s.sec (s.sec.slot (s.sec.pending.getD s.sec.lastRan)) = none →
    Answers (.bootComplete otp store) s (fun t =>
      t.gcs.phase = .survey ∧ t.sec.running = some (s.sec.pending.getD s.sec.lastRan) ∧
      (otp = .corrected → s.Faulted t 0xE3 1) ∧ (otp = .bad → s.Faulted t 0xE3 2) ∧ (store = .bad → s.Faulted t 0xE5 1))) ∧
  (∀ s : State, s.gcs.pwrgd = true → s.gcs.phase = .boot → s.gcs.coldWait = false →
    (∀ b, imageFault s.gcs.part s.sec (s.sec.slot b) ≠ none) → ∀ otp store : WordCheck,
    Answers (.bootComplete otp store) s (fun t =>
      t.gcs.phase = .romRecovery ∧ t.sec.rom = true ∧ t.sec.running = none ∧ t.gcs.resetNow = none ∧ (t.src 0xE1).isOpen = true))

/-- The survey is recorded (R460, R461): one entry for every instance that the plan lists, SURVEY_DONE set; the anti-rollback index rises to
that of the running image and never falls (R476). Recovery ends (R140, R163, R39, R458): the journal walk starts the Watch Timer UNSET after
a power-on, at a fix time later than that of every committed record; with no set left in replay the controller is RUNNING. A set whose
replay writes are all done returns, and with it the controller when it was the last. -/
def Obligations.SurveyAndRecovery : Prop :=
  (∀ (ms : List SurveyMeasure) (s : State), s.gcs.surveyDone = false →
    (s.gcs.phase = .survey ∨ s.gcs.phase = .recovery ∨ s.gcs.phase = .running) →
    Answers (.surveyComplete ms) s (fun t =>
      t.gcs.surveyDone = true ∧ t.gcs.survey = s.surveyPlan.map (fun e => s.surveyEntry ms e.1 e.2) ∧
      (∀ b, s.sec.running = some b → (s.sec.slot b).rollbackIndex ≤ t.sec.rollback) ∧ s.sec.rollback ≤ t.sec.rollback)) ∧
  (∀ s : State, s.gcs.phase = .recovery → s.log.walked = false → s.sets = [] → s.gcs.resetNow = some .powerOn →
    s.timerStart < 2 ^ 64 →
    Answers .journalWalkEnd s (fun t =>
      t.gcs.phase = .running ∧ t.gcs.lastReset = .powerOn ∧ t.gcs.resetNow = none ∧ t.log.walked = true ∧
      t.wch.timer = .unset ∧ t.wch.fixNs.toNat = s.timerStart)) ∧
  (∀ (set : BitVec 6) (s : State), s.gcs.phase = .recovery → s.log.walked = true → (s.set set.toNat).replaying = true →
    (s.set set.toNat).replayed = false → s.inHold = false → s.interp.deferred = [] → s.dcmds = [] → s.log.recs = [] →
    s.scc.ready = true → s.scc.vtReady = true → s.mayReturn = true →
    Answers (.setReplayEnd set true) s (fun t => (t.set set.toNat).replaying = false))

/-- Idle-dock (R468 to R470): it is entered from RUNNING when no condition of R468 fails, otherwise the reason of the first that fails
is kept in GCS.DOCK; DOCK_EXIT returns to RUNNING. -/
def Obligations.DockIsEnteredAndLeft : Prop :=
  (∀ s : State, s.haltClosed = false → s.gcs.phase = .running → s.dockRefusal = none →
    Answers .dockEnter s (fun t => t.gcs.phase = .dock ∧ Only [.gcs, .phase, .regs] s t)) ∧
  (∀ (s : State) (r : Nat), s.haltClosed = false → s.gcs.phase ≠ .dock → s.dockRefusal = some r →
    Answers .dockEnter s (fun t => t.regN Reg.gcsDock = r * 256 ∧ Only [.regs] s t)) ∧
  (∀ s : State, s.haltClosed = false → s.gcs.phase = .dock →
    Answers .dockExit s (fun t => t.gcs.phase = .running ∧ t.gcs.deferredCalendar = [] ∧ Only dockParts s t))

/-! ## Host ports -/

/-- A register write of a host leaves Idle-dock before it does anything else (R470): in Idle-dock it does what it does from RUNNING. -/
def Obligations.RegisterWritesLeaveIdleDock : Prop :=
  ∀ (c : Instr) (s : State), barWrite c = true → s.haltClosed = false → s.gcs.phase = .dock →
    s.leaveDock.gcs.phase = .running ∧ exec c s = exec c s.leaveDock

/-- What a reset of one host port leaves (R215, R458, R463, R466, R471), while no heavier reset is in progress: PERST_N holds the port
in reset with its link down and its configuration space at its reset values; its release lets the port train; an FLR clears containment
and D3hot and raises 0x17 + 8p; a Hot Reset takes the link down and keeps containment; D3hot is entered and left. While a heavier reset
is in progress an FLR does nothing. -/
def Obligations.PortResetsAndPowerStates : Prop :=
  (∀ (p : Bool) (s : State), s.gcs.resetNow = none →
    Answers (.perstN p) s (fun t =>
      (t.hpu p).perstLow = true ∧ (t.hpu p).dlUp = false ∧ (t.hpu p).contained = false ∧ (t.hpu p).cause = 0 ∧
      (t.hpu p).d3hot = false ∧ (t.hpu p).cfg = HostCfg.at0 ∧ (t.hpu p).msix = [] ∧ (t.hpu p).barSize = 10)) ∧
  (∀ (p : Bool) (s : State), Answers (.perstNRelease p) s (fun t =>
      (t.hpu p) = { s.hpu p with perstLow := false } ∧ t.hpu (!p) = s.hpu (!p) ∧ Only [.hpus, .links] s t)) ∧
  (∀ (p : Bool) (s : State), s.gcs.resetNow = none →
    Answers (.flr p) s (fun t =>
      (t.hpu p).contained = false ∧ (t.hpu p).d3hot = false ∧ (t.hpu p).cfg = HostCfg.at0 ∧
      (t.hpu p).msix = [] ∧ (t.src (hpuSource 0x17 p)).isOpen = true)) ∧
  (∀ (p : Bool) (s : State) (k : ResetKind), s.gcs.resetNow = some k → exec (.flr p) s = .next s) ∧
  (∀ (p : Bool) (s : State), s.gcs.resetNow = none →
    Answers (.hotReset p) s (fun t =>
      (t.hpu p).dlUp = false ∧ (t.hpu p).contained = (s.hpu p).contained ∧ (t.hpu p).cause = (s.hpu p).cause ∧
      (t.hpu p).cfg = HostCfg.at0)) ∧
  (∀ (p : Bool) (s : State), Answers (.d3hotEntry p) s (fun t =>
      (t.hpu p) = { s.hpu p with d3hot := true } ∧ t.hpu (!p) = s.hpu (!p) ∧ Only [.hpus, .links] s t)) ∧
  (∀ (p : Bool) (s : State), (s.hpu p).d3hot = true → Answers (.d0Return p) s (fun t =>
      (t.hpu p).fixed = { (s.hpu p).fixed with d3hot := false }))

/-- Containment of a host port (R442, R443, R447, R455): each of the seven link events and CONTAIN_NOW freezes the port with its cause, counts
it and raises 0x11 + 8p with the cause; a second event is reported and leaves the first cause. A port with its link up is released, through
the other port's registers or its own VSEC, and a port whose link is down stays contained and raises 0x16 + 8p. Errors and power states of a
host link that contain nothing (R423, R439, R440, R442, R455): a poisoned or unsupported TLP raises 0x13 + 8p and an unsupported request is
answered; more correctable errors in a second than the limit raise 0x10 + 8p; the link enters L1 where the host enabled it; at 64 GT/s with
L0p enabled it narrows to the width of L0P_MIN and widens to the strapped width; a link that comes up takes its speed, width and
configuration, below 16 GT/s or the strapped width with 0x12 + 8p raised. -/
def Obligations.ContainmentAndHostLinks : Prop :=
  (∀ (p : Bool) (cause : Byte) (s : State), cause ≠ 0 → cause.toNat ≤ 7 → (s.hpu p).contained = false →
    Answers (.portContainment p cause) s (fun t =>
      (t.hpu p).contained = true ∧ (t.hpu p).cause = cause ∧ (t.src (hpuSource 0x11 p)).isOpen = true ∧
      (t.src (hpuSource 0x11 p)).lastDetail = cause)) ∧
  (∀ (p : Bool) (s : State), s.haltClosed = false → s.gcs.phase ≠ .dock → (s.hpu p).contained = false →
    Answers (.containNow p) s (fun t =>
      (t.hpu p).contained = true ∧ (t.hpu p).cause = 8 ∧ (t.src (hpuSource 0x11 p)).isOpen = true)) ∧
  (∀ (p : Bool) (cause : Byte) (s : State), cause ≠ 0 → cause.toNat ≤ 7 → (s.hpu p).contained = true →
    Answers (.portContainment p cause) s (fun t =>
      (t.hpu p).contained = true ∧ (t.hpu p).cause = (s.hpu p).cause ∧ s.Faulted t (hpuSource 0x11 p) cause)) ∧
  (∀ (p viaVsec : Bool) (s : State), (viaVsec = false → (s.hpu !p).contained = false ∧ s.haltClosed = false ∧ s.gcs.phase ≠ .dock) →
    (s.hpu p).contained = true → (s.hpu p).dlUp = true →
    Answers (.hpuRelease p viaVsec) s (fun t => (t.hpu p).fixed = { (s.hpu p).fixed with contained := false })) ∧
  (∀ (p : Bool) (s : State), (s.hpu p).contained = true → (s.hpu p).dlUp = false →
    Answers (.hpuRelease p true) s (fun t => (t.hpu p).contained = true ∧ s.Faulted t (hpuSource 0x16 p) 1)) ∧
  (∀ (p poisoned : Bool) (s : State),
    Answers (.hostTlpError p poisoned) s (fun t =>
      s.Faulted t (hpuSource 0x13 p) (if poisoned then 1 else 2) ∧ (t.hpu p).contained = (s.hpu p).contained)) ∧
  (∀ (p : Bool) (errors : Nat) (s : State), s.regField (Reg.hpuCorrLimit (ofBool p)) 0 16 < errors →
    Answers (.hostCorrectableWindow p errors) s (fun t => s.Faulted t (hpuSource 0x10 p) 1)) ∧
  (∀ (p : Bool) (s : State), (s.hpu p).cfg.aspmL1 = true → (s.hpu p).dlUp = true → (s.hpu p).inL1 = false →
    Answers (.hostL1Entry p) s (fun t =>
      t.hpu p = { s.hpu p with inL1 := true } ∧ t.regN (Reg.hpuL1Entries (ofBool p)) =
        (s.regN (Reg.hpuL1Entries (ofBool p)) + 1) % 2 ^ 32 ∧ Only [.regs, .hpus] s t)) ∧
  (∀ (p : Bool) (s : State), (s.hpu p).speed = 6 → (s.hpu p).cfg.l0pBoth = true → s.regBit (Reg.hpuPm (ofBool p)) 8 = true →
    (s.hpu p).narrow = false → (s.hpu p).dlUp = true →
    Answers (.l0pNarrow p) s (fun t =>
      t.hpu p = { s.hpu p with narrow := true, width := BitVec.ofNat 6 (8 / 2 ^ s.regField (Reg.hpuPm (ofBool p)) 9 2) } ∧
      Only [.regs, .hpus, .links] s t)) ∧
  (∀ (p : Bool) (s : State), (s.hpu p).narrow = true →
    Answers (.l0pWiden p) s (fun t =>
      t.hpu p = { s.hpu p with narrow := false, width := if s.gcs.bifur then 8 else 16 } ∧ Only [.regs, .hpus, .links] s t)) ∧
  (∀ (p : Bool) (speed : BitVec 4) (width : BitVec 6) (cfg : HostCfg) (s : State), (s.hpu p).perstLow = false → s.pair.state ≠ .fenced →
    Answers (.hostLinkUp p speed width cfg) s (fun t =>
      (t.hpu p).dlUp = true ∧ (t.hpu p).speed = speed ∧ (t.hpu p).width = width ∧ (t.hpu p).cfg = cfg ∧
      (t.hpu p).contained = (s.hpu p).contained ∧
      (speed.toNat < 4 → (t.src (hpuSource 0x12 p)).isOpen = true) ∧
      (width.toNat < s.strapped → (t.src (hpuSource 0x12 p)).isOpen = true)))

/-- Requests to BAR0 (R3, R6 to R8, R430). The size of BAR2 is one of the seven codes of 1 to 64 GiB while Memory Space Enable is 0. An
access of a wrong width or alignment is answered with Unsupported Request. A write to a 32-bit register that State stores changes that
register alone, and only in its writable bits, a field out of its range keeping its value. A read of a lower half returns its word and
latches the upper half. -/
def Obligations.RegisterAccesses : Prop :=
  (∀ (p : Bool) (code : BitVec 6) (s : State), (s.hpu p).cfg.memEnable = false → 10 ≤ code.toNat → code.toNat ≤ 16 →
    Answers (.barSizeWrite p code) s (fun t =>
      t.hpu p = { s.hpu p with barSize := code.toNat } ∧ t.hpu (!p) = s.hpu (!p) ∧ Only [.hpus, .links] s t)) ∧
  (∀ (p : Bool) (offset : BitVec 26) (width : Nat) (s : State),
    Answers (.bar0BadAccess p offset width) s (fun t => Out.unsupported p ∈ t.out ∧ Only [.hpus, .out] s t)) ∧
  (∀ (p : Bool) (offset : BitVec 26) (value : Word64) (r : RegRow) (s : State),
    (s.hpu p).contained = false → (s.hpu p).dlUp = true → (s.hpu p).d3hot = false → (s.hpu p).cfg.memEnable = true →
    s.haltClosed = false → s.gcs.phase ≠ .dock → offset.toNat % 4 = 0 → s.absentReg offset.toNat = false →
    Reg.find offset.toNat = some r → r.rw ≠ 0 → wideAt offset.toNat = false → (offset.toNat % 8 = 4 → wideAt (offset.toNat - 4) = false) →
    inBlock 0x2000000 0x8000 offset.toNat = false → doorbellOf offset.toNat = none → inBlock 0xB0100 0x800 offset.toNat = false →
    (∀ v, s.rowWrite p offset.toNat v = none) → s.writeVetoed offset.toNat (value.toNat % 2 ^ 32) = false →
    instAt 0x110010 64 16 offset.toNat = none →
    offset.toNat ∉ [Reg.fltPinLevel, Reg.logThresh, Reg.dpPm, Reg.gcsHold, Reg.wchHold] →
    Answers (.registerWrite p offset false value) s (fun t =>
      t.reg offset.toNat = BitVec.ofNat 64 (storedWord s.part r offset.toNat (s.regN offset.toNat) (value.toNat % 2 ^ 32)) ∧
      (∀ q, q ≠ offset.toNat → t.reg q = s.reg q) ∧ Only [.regs] s t)) ∧
  (∀ (p : Bool) (offset : BitVec 26) (s : State), (s.hpu p).contained = false → (s.hpu p).dlUp = true → (s.hpu p).d3hot = false →
    (s.hpu p).cfg.memEnable = true → offset.toNat % 8 = 0 → wideAt offset.toNat = true →
    Answers (.lowerHalfRead p offset) s (fun t =>
      Out.readData p (leBytes 4 (s.read32 p offset.toNat)) ∈ t.out ∧
      Tab.get t.gcs.latch none offset.toNat = some (BitVec.ofNat 32 (s.readReg offset.toNat / 2 ^ 32)) ∧
      Only [.gcs, .startup, .hpus, .out] s t))

/-- BAR2 (R443, R448, R450, R452). A write inside an active window that its port names and that allows writes lands at its pool address,
byte for byte, and nowhere else; a read there returns the pool's bytes; a request that no window covers misses: it changes no byte of the
pool and raises 0x14 + 8p or 0x15 + 8p with reason 1, a read being answered with Unsupported Request. A frozen port drops writes,
counting them, and answers reads with Unsupported Request. A word of the
pool that had to be corrected is read with 0x32 detail 1 raised; one that cannot be is answered with Completer Abort, 0x32 detail 2 and
0x15 + 8p reason 4 being raised (R289). -/
def Obligations.PeerWindowsReachThePool : Prop :=
  (∀ (p : Bool) (addr : Word64) (data : Bytes) (w : Window) (s : State), (s.hpu p).contained = false → (s.hpu p).dlUp = true →
    (s.hpu p).d3hot = false → (s.hpu p).cfg.memEnable = true → s.winAt p addr.toNat = some w →
    addr.toNat + data.length ≤ w.offset + w.pages * 4096 → w.write = true →
    Answers (.bar2Write p addr data) s (fun t =>
      (∀ i, i < data.length → Memory.read t.pwin.pool (w.tbPage * 4096 + (addr.toNat - w.offset) + i) = data.getD i 0) ∧
      (∀ a, (a < w.tbPage * 4096 + (addr.toNat - w.offset) ∨ w.tbPage * 4096 + (addr.toNat - w.offset) + data.length ≤ a) →
        Memory.read t.pwin.pool a = Memory.read s.pwin.pool a) ∧ Only [.pwin, .pool] s t)) ∧
  (∀ (p : Bool) (addr : Word64) (len : Nat) (w : Window) (s : State), (s.hpu p).contained = false → (s.hpu p).dlUp = true →
    (s.hpu p).d3hot = false → (s.hpu p).cfg.memEnable = true → s.winAt p addr.toNat = some w →
    addr.toNat + len ≤ w.offset + w.pages * 4096 → w.read = true →
    Answers (.bar2Read p addr len .good) s (fun t =>
      Out.readData p ((List.range len).map (fun i => Memory.read s.pwin.pool (w.tbPage * 4096 + (addr.toNat - w.offset) + i))) ∈ t.out ∧
      Only [.hpus, .out] s t)) ∧
  (∀ (p : Bool) (addr : Word64) (data : Bytes) (s : State), (s.hpu p).contained = false → (s.hpu p).dlUp = true →
    (s.hpu p).d3hot = false → (s.hpu p).cfg.memEnable = true → s.winAt p addr.toNat = none →
    Answers (.bar2Write p addr data) s (fun t => t.pwin.pool = s.pwin.pool ∧ s.Faulted t (hpuSource 0x14 p) 1)) ∧
  (∀ (p : Bool) (addr : Word64) (len : Nat) (words : WordCheck) (s : State), (s.hpu p).contained = false → (s.hpu p).dlUp = true →
    (s.hpu p).d3hot = false → (s.hpu p).cfg.memEnable = true → s.winAt p addr.toNat = none →
    Answers (.bar2Read p addr len words) s (fun t => Out.unsupported p ∈ t.out ∧ s.Faulted t (hpuSource 0x15 p) 1)) ∧
  (∀ (p : Bool) (addr : Word64) (data : Bytes) (s : State), (s.hpu p).contained = true →
    Answers (.bar2Write p addr data) s (fun t => Only [.regs] s t ∧
      t.regN (Reg.hpuPostedDrops (ofBool p)) = (s.regN (Reg.hpuPostedDrops (ofBool p)) + 1) % 2 ^ 32)) ∧
  (∀ (p : Bool) (addr : Word64) (len : Nat) (words : WordCheck) (s : State), (s.hpu p).contained = true → (s.hpu p).dlUp = true →
    Answers (.bar2Read p addr len words) s (fun t => Out.unsupported p ∈ t.out ∧ Only [.hpus, .out] s t)) ∧
  (∀ (p : Bool) (addr : Word64) (len : Nat) (w : Window) (s : State), (s.hpu p).contained = false → (s.hpu p).dlUp = true →
    (s.hpu p).d3hot = false → (s.hpu p).cfg.memEnable = true → s.winAt p addr.toNat = some w →
    addr.toNat + len ≤ w.offset + w.pages * 4096 → w.read = true →
    Answers (.bar2Read p addr len .corrected) s (fun t =>
      Out.readData p ((List.range len).map (fun i => Memory.read s.pwin.pool (w.tbPage * 4096 + (addr.toNat - w.offset) + i))) ∈ t.out ∧
      s.Faulted t 0x32 1) ∧
    Answers (.bar2Read p addr len .bad) s (fun t =>
      Out.completerAbort p ∈ t.out ∧ s.Faulted t 0x32 2 ∧ s.Faulted t (hpuSource 0x15 p) 4))

/-- The commit of peer windows (R263, R292, R449, R451). GO of a set of shadow windows that passes every check leaves the active windows
until the commit is in force, and one that fails latches the window and the reason; a commit in force makes the shadow set active under
the next generation with every page that joins a region zero, and pages that leave drain until nothing holds them. The size of the
Transfer Buffer pool is writable while no window is committed. -/
def Obligations.PeerWindowCommits : Prop :=
  (∀ s : State, s.haltClosed = false → s.gcs.phase ≠ .dock → s.pwin.next = none → s.commitFault = none →
    Answers .pwinGo s (fun t => t.pwin = { s.pwin with next := some s.pwin.shadow } ∧ Only [.pwin] s t)) ∧
  (∀ (s : State) (n : Nat) (r : Byte), s.haltClosed = false → s.gcs.phase ≠ .dock → s.pwin.next = none → s.commitFault = some (n, r) →
    Answers .pwinGo s (fun t => t.pwin.error = true ∧ t.pwin.errWindow = BitVec.ofNat 6 n ∧ t.pwin.errReason = r ∧
      t.pwin.active = s.pwin.active ∧ t.pwin.next = none ∧ Only [.pwin] s t)) ∧
  (∀ (s : State) (ws : Tab Window), s.pwin.next = some ws →
    Answers .pwinCommitInForce s (fun t =>
      t.pwin.active = ws ∧ t.pwin.next = none ∧ t.pwin.gen = s.pwin.gen + 1 ∧ t.pwin.error = false ∧
      (∀ a, a / 4096 ∈ regionPages ws → a / 4096 ∉ regionPages s.pwin.active → Memory.read t.pwin.pool a = 0) ∧
      (∀ a, (a / 4096 ∉ regionPages ws ∨ a / 4096 ∈ regionPages s.pwin.active) →
        Memory.read t.pwin.pool a = Memory.read s.pwin.pool a) ∧ Only [.pwin, .pool] s t)) ∧
  (∀ (page : BitVec 13) (s : State), s.pageHeld page.toNat = false →
    Answers (.poolPageRelease page) s (fun t => page.toNat ∉ t.pwin.draining ∧ Only [.pwin] s t)) ∧
  (∀ (value : BitVec 13) (s : State), s.haltClosed = false → s.gcs.phase ≠ .dock → value.toNat ≤ 4096 →
    (∀ w ∈ s.pwin.active, w.2.valid = false) →
    Answers (.pwinPages value) s (fun t => t.regN Reg.dmvTb = value.toNat ∧ Only [.regs] s t))

/-! ## Rings -/

/-- An accepted doorbell moves its ring's tail, an event doorbell the consumer position, and nothing of any other ring (R202, R204 to R206):
the ring ACTIVE, the reserved bits zero, the index inside the ring, the position neither behind the present one nor more than N entries
ahead of the head. One that fails a condition raises 0x22 with the condition's detail. -/
def Obligations.DoorbellsMoveRings : Prop :=
  (∀ (n : BitVec 10) (v : Word32) (s : State), s.haltClosed = false → s.gcs.phase ≠ .dock → (s.ring (.data n)).state = .active →
    v.toNat < 2 ^ 17 → v.toNat % 2 ^ 16 < s.ringN (.data n) →
    posCount (s.ringN (.data n)) (s.ring (.data n)).head (doorbellPos (s.ringN (.data n)) v.toNat) ≤ s.ringN (.data n) →
    posCount (s.ringN (.data n)) (s.ring (.data n)).head (s.ring (.data n)).tail ≤
      posCount (s.ringN (.data n)) (s.ring (.data n)).head (doorbellPos (s.ringN (.data n)) v.toNat) →
    Answers (.dataRingDoorbell n v) s (fun t =>
      t.ring (.data n) = { s.ring (.data n) with tail := doorbellPos (s.ringN (.data n)) v.toNat } ∧
      (∀ r, r ≠ .data n → t.ring r = s.ring r) ∧ Only [.rings] s t)) ∧
  (∀ (c : BitVec 4) (v : Word32) (s : State), s.haltClosed = false → s.gcs.phase ≠ .dock → (s.ring (.cmd c)).state = .active →
    v.toNat < 2 ^ 17 → v.toNat % 2 ^ 16 < s.ringN (.cmd c) →
    posCount (s.ringN (.cmd c)) (s.ring (.cmd c)).head (doorbellPos (s.ringN (.cmd c)) v.toNat) ≤ s.ringN (.cmd c) →
    posCount (s.ringN (.cmd c)) (s.ring (.cmd c)).head (s.ring (.cmd c)).tail ≤
      posCount (s.ringN (.cmd c)) (s.ring (.cmd c)).head (doorbellPos (s.ringN (.cmd c)) v.toNat) →
    Answers (.commandRingDoorbell c v) s (fun t =>
      t.ring (.cmd c) = { s.ring (.cmd c) with tail := doorbellPos (s.ringN (.cmd c)) v.toNat } ∧
      (∀ r, r ≠ .cmd c → t.ring r = s.ring r) ∧ Only [.rings] s t)) ∧
  (∀ (p : Bool) (v : Word32) (s : State), s.haltClosed = false → s.gcs.phase ≠ .dock → (s.ring (.event p)).state = .active →
    v.toNat < 2 ^ 17 → v.toNat % 2 ^ 16 < s.ringN (.event p) →
    posCount (s.ringN (.event p)) (s.ring (.event p)).head (doorbellPos (s.ringN (.event p)) v.toNat) ≤
      posCount (s.ringN (.event p)) (s.ring (.event p)).head (s.ring (.event p)).tail →
    (s.ring (.event p)).hold = [] → (s.ring (.event p)).fullOwed = false → s.rings.all (fun e => !e.2.evtWait) = true →
    Answers (.eventRingDoorbell p v) s (fun t =>
      (t.ring (.event p)).head = doorbellPos (s.ringN (.event p)) v.toNat ∧ (t.ring (.event p)).tail = (s.ring (.event p)).tail)) ∧
  (∀ (n : BitVec 10) (v : Word32) (s : State), s.haltClosed = false → s.gcs.phase ≠ .dock → (s.ring (.data n)).state ≠ .active →
    Answers (.dataRingDoorbell n v) s (fun t => s.Faulted t 0x22 4)) ∧
  (∀ (n : BitVec 10) (v : Word32) (s : State), s.haltClosed = false → s.gcs.phase ≠ .dock → (s.ring (.data n)).state = .active →
    2 ^ 17 ≤ v.toNat → Answers (.dataRingDoorbell n v) s (fun t => s.Faulted t 0x22 3))

/-- The states of a ring (R210 to R213, R216, R221, R239). A DISABLED ring with a base, a size in range and, for a data or command ring, a
shadow and an ACTIVE event ring becomes ACTIVE at (0, 0); one that lacks any of them raises 0x22 detail 5. An ACTIVE or FAULTED ring that
is disabled is DISABLING, an event ring DISABLED once no ring of its port is enabled; a DISABLING ring with nothing left is DISABLED.
PRIV_LOCK is set. The halt close ends with every event ring HALTED. -/
def Obligations.RingStates : Prop :=
  (∀ (r : RingId) (s : State), s.haltClosed = false → s.gcs.phase ≠ .dock → (s.ring r).state = .disabled → s.enableOk r = true →
    s.gcs.surveyKept = false →
    Answers (.ringEnable r) s (fun t =>
      t.ring r = { Ring.at0 with state := .active } ∧ (∀ q, q ≠ r → t.ring q = s.ring q) ∧ Only [.rings] s t)) ∧
  (∀ (r : RingId) (s : State), s.haltClosed = false → s.gcs.phase ≠ .dock → (s.ring r).state = .disabled → s.enableOk r = false →
    Answers (.ringEnable r) s (fun t => s.Faulted t 0x22 5)) ∧
  (∀ (n : BitVec 10) (s : State), s.haltClosed = false → s.gcs.phase ≠ .dock →
    ((s.ring (.data n)).state = .active ∨ (s.ring (.data n)).state = .faulted) →
    Answers (.ringDisable n) s (fun t =>
      (t.ring (.data n)).state = .disabling ∧ ∀ io ∈ t.ios, io.ring = n → io.fwd = true)) ∧
  (∀ (c : BitVec 4) (s : State), s.haltClosed = false → s.gcs.phase ≠ .dock →
    ((s.ring (.cmd c)).state = .active ∨ (s.ring (.cmd c)).state = .faulted) →
    Answers (.commandRingDisable c) s (fun t =>
      (t.ring (.cmd c)).state = .disabling ∧ (t.srcQueue (.ring c)).length ≤ 1 ∧
      (CmdSrc.ring c ∉ s.interp.busy → t.srcQueue (.ring c) = []) ∧ Only [.rings, .interp] s t)) ∧
  (∀ (p : Bool) (s : State), s.haltClosed = false → s.gcs.phase ≠ .dock → (s.ring (.event p)).state = .active → s.portBusy p = false →
    Answers (.eventRingDisable p) s (fun t =>
      t.ring (.event p) = { s.ring (.event p) with state := .disabled, hold := [], waitB := [] } ∧ Only [.rings] s t)) ∧
  (∀ (n : BitVec 10) (s : State), (s.ring (.data n)).state = .disabling → (s.ring (.data n)).head = (s.ring (.data n)).tail →
    Answers (.ringDisableComplete (.data n)) s (fun t => (t.ring (.data n)).state = .disabled)) ∧
  (∀ s : State, s.haltClosed = false → s.gcs.phase ≠ .dock →
    Answers .privLock s (fun t => t.privLock = true ∧ Only [.privLock] s t)) ∧
  (∀ s : State, s.gcs.halted = true → s.gcs.haltClosing = true →
    Answers .haltCloseEnd s (fun t => t.haltClosed = true ∧
      (∀ p, (s.ring (.event p)).state = .active → (t.ring (.event p)).state = .halted ∧ (t.ring (.event p)).hold = []) ∧
      Only [.gcs, .rings] s t))

/-- Fetching (R205, R207, R214, R220, R223, R286). A fetch reads up to 8 entries before the accepted tail and not past the end of the ring.
Eight well-formed entries are taken in order; a malformed one halts the controller with 0x20 raised. A failed read is retried once, and
the ring is FAULTED, with 0x23 raised, when it fails again; a read without completion has its tag quarantined. -/
def Obligations.EntriesAreFetchedAndChecked : Prop :=
  (∀ (n : BitVec 10) (s : State), (s.ring (.data n)).state = .active → s.gcs.halted = false →
    s.portSilent (s.ringPort (.data n)) = false → (s.ring (.data n)).inRead = 0 →
    (s.ring (.data n)).fetched % (2 * s.ringN (.data n)) ≠ (s.ring (.data n)).tail % (2 * s.ringN (.data n)) →
    s.ringReads (s.ringPort (.data n)) < 128 → s.freeTags (s.ringPort (.data n)) ≠ [] →
    Answers (.descriptorFetch (.data n)) s (fun t =>
      (t.ring (.data n)).inRead =
        min (min 8 (posCount (s.ringN (.data n)) (s.ring (.data n)).fetched (s.ring (.data n)).tail))
          (s.ringN (.data n) - posIndex (s.ringN (.data n)) (s.ring (.data n)).fetched) ∧
      (∃ tag, Out.memRead (s.ringPort (.data n)) tag
        (s.ringBase (.data n) + posIndex (s.ringN (.data n)) (s.ring (.data n)).fetched * 64)
        ((t.ring (.data n)).inRead * 64) ∈ t.out) ∧ Only [.rings, .dmv, .hpus, .out] s t)) ∧
  (∀ (n : BitVec 10) (b : Bytes) (h : HostRead) (s : State), s.entryRead (.data n) = some h → h.dead = false →
    (s.ring (.data n)).inRead = 1 → (s.ring (.data n)).state = .active → b.length = 64 →
    malformed (s.ringN (.data n)) b (descOf (s.ring (.data n)).fetched b) = none →
    Answers (.descriptorReadComplete (.data n) (.ok b)) s (fun t =>
      (t.ring (.data n)).queue = (s.ring (.data n)).queue ++ [descOf (s.ring (.data n)).fetched b] ∧
      (t.ring (.data n)).inRead = 0 ∧ (t.ring (.data n)).fetched = posAdd (s.ringN (.data n)) (s.ring (.data n)).fetched 1 ∧
      Only [.rings, .dmv] s t)) ∧
  (∀ (n : BitVec 10) (b : Bytes) (h : HostRead) (reason : Byte) (s : State), s.entryRead (.data n) = some h → h.dead = false →
    (s.ring (.data n)).inRead = 1 → (s.ring (.data n)).state = .active → b.length = 64 →
    malformed (s.ringN (.data n)) b (descOf (s.ring (.data n)).fetched b) = some reason →
    Answers (.descriptorReadComplete (.data n) (.ok b)) s (fun t => t.gcs.halted = true ∧ s.Faulted t 0x20 reason)) ∧
  (∀ (r : RingId) (h : HostRead) (s : State), s.entryRead r = some h → h.dead = false → (s.ring r).inRead ≠ 0 →
    (s.ring r).state = .active → (s.ring r).retried = true →
    Answers (.descriptorReadComplete r .aborted) s (fun t => (t.src 0x23).isOpen = true)) ∧
  (∀ (r : RingId) (h : HostRead) (s : State), s.entryRead r = some h → h.dead = true →
    Answers (.ringReadTimeout r) s (fun t => (h.port, h.tag, true) ∈ t.dmv.quarantine)) ∧
  (∀ (r : RingId) (h : HostRead) (s : State), s.entryRead r = some h → h.dead = false → (s.ring r).inRead ≠ 0 →
    (s.ring r).state = .active → (s.ring r).retried = true →
    Answers (.ringReadTimeout r) s (fun t => (h.port, h.tag, true) ∈ t.dmv.quarantine ∧ (t.src 0x23).isOpen = true))

/-- MSI-X (R230, R438). When the holdoff of a ring expires, the message of its unsignalled completions leaves, if the port has MSI-X
enabled and nothing masks the vector; unmasking a pending vector sends its message and clears the pending bit. -/
def Obligations.MessagesLeaveWhenUnmasked : Prop :=
  (∀ (r : RingId) (s : State), (s.ring r).unsignalled ≠ 0 → bitOf (s.ringCfg r) 31 = true → (s.hpu (s.ringPort r)).cfg.msixEnable = true →
    (s.hpu (s.ringPort r)).cfg.functionMask = false → s.portSilent (s.ringPort r) = false →
    (s.msixEntry (s.ringPort r) (bitsOf (s.ringCfg r) 16 11)).masked = false →
    Answers (.msixHoldoffExpiry (.ring r)) s (fun t =>
      Out.msix (s.ringPort r) (bitsOf (s.ringCfg r) 16 11) ∈ t.out ∧ (t.ring r).unsignalled = 0 ∧ Only [.rings, .hpus, .out] s t)) ∧
  (∀ (p : Bool) (v : BitVec 11) (s : State), s.haltClosed = false → s.gcs.phase ≠ .dock → (s.hpu p).cfg.msixEnable = true →
    (s.hpu p).cfg.functionMask = false → (s.hpu p).contained = false → (s.hpu p).d3hot = false → (s.hpu p).pendingBits = [v.toNat] →
    Answers (.msixUnmask p v) s (fun t =>
      Out.msix p v.toNat ∈ t.out ∧ (t.hpu p).pendingBits = [] ∧ (t.msixEntry p v.toNat).masked = false ∧ Only [.hpus, .links, .out] s t))

/-! ## I/O -/

/-- Admission (R218, R224, R226, R65, R157). A descriptor at the front of its ring that fails no check leaves the ring's queue and becomes an
outstanding operation of the watch in force: a READ whose every block was found in the cache, waits for a read, or is lost; a WRITE with the
next GENERATION of its set and watch, its data not there yet; a WRITE_ZEROES. A descriptor that fails a check or whose scatter-gather list
could not be read admits nothing. A word error met in a way of the Stripe Cache is handled first (R316): corrected with 0x90 detail 1
raised, and a CLEAN line that cannot be is dropped with 0x90 detail 2. The oldest write of a ring that waits for lines of the Stripe Cache
goes on once all of them are allocated (R300, R301): the data of a WRITE is fetched next, and a WRITE_ZEROES, which journals no data, has
its data and its records filled at once. While a line is wanting the write goes on waiting. -/
def Obligations.DescriptorsAreAdmitted : Prop :=
  (∀ (n : BitVec 10) (sgl : SglFetch) (d : Desc) (s : State), s.frontDesc n = some d → s.gcs.phase = .running → d.opcode = 1 →
    s.turn n = true → s.partnerOwns d = false → s.admitCheck d sgl = none → sglUnreadable sgl = none →
    (s.stripesOf d).all (fun t => !(s.set d.set.toNat).resyncing t) = true → (s.set (d.set.toNat % 64)).paritySeal = false →
    Answers (.ioRead n sgl []) s (fun t =>
      (t.ring (.data n)).queue = (s.ring (.data n)).queue.drop 1 ∧
      ∃ io ∈ t.ios, io.id = s.nextId ∧ io.kind = .read ∧ io.desc = d ∧ io.ring = n ∧ io.watch = s.watch ∧
        io.blocks.length + io.waits.length + io.lost.length = d.blocks)) ∧
  (∀ (n : BitVec 10) (sgl : SglFetch) (d : Desc) (s : State), s.frontDesc n = some d → s.gcs.phase = .running → d.opcode = 2 →
    s.turn n = true → s.partnerOwns d = false → s.admitCheck d sgl = none → sglUnreadable sgl = none → s.writeMustWait d = false →
    (s.partsOf (s.set (d.set.toNat % 64)) d.lbas).all (fun p => !s.partLost (BitVec.ofNat 6 d.set.toNat) (s.set (d.set.toNat % 64)) p) = true →
    Answers (.ioWrite n sgl []) s (fun t =>
      (t.ring (.data n)).queue = (s.ring (.data n)).queue.drop 1 ∧
      ∃ io ∈ t.ios, io.id = s.nextId ∧ io.kind = .write ∧ io.desc = d ∧ io.ring = n ∧ io.watch = s.watch ∧ io.dataIn = false ∧
        (s.pair.state = .single → io.generation = BitVec.ofNat 32
          (if (s.set (d.set.toNat % 64)).genWatch = s.watch then (s.set (d.set.toNat % 64)).generation else 0)) ∧
        (t.set (d.set.toNat % 64)).genWatch = s.watch ∧
        (t.set (d.set.toNat % 64)).generation =
          (if (s.set (d.set.toNat % 64)).genWatch = s.watch then (s.set (d.set.toNat % 64)).generation else 0) + 1)) ∧
  (∀ (n : BitVec 10) (d : Desc) (s : State), s.frontDesc n = some d → s.gcs.phase = .running → d.opcode = 3 →
    s.turn n = true → (∀ r ∈ s.log.recs, r.io ≠ some s.nextId) → s.partnerOwns d = false → s.admitCheck d .notNeeded = none → s.writeMustWait d = false →
    (s.partsOf (s.set (d.set.toNat % 64)) d.lbas).all (fun p => !s.partLost (BitVec.ofNat 6 d.set.toNat) (s.set (d.set.toNat % 64)) p) = true →
    Answers (.ioWriteZeroes n) s (fun t =>
      ∃ io ∈ t.ios, io.id = s.nextId ∧ io.kind = .writeZeroes ∧ io.desc = d ∧ io.ring = n ∧ io.watch = s.watch)) ∧
  (∀ (n : BitVec 10) (det : Byte) (d : Desc) (s : State), s.frontDesc n = some d → d.opcode = 1 → s.turn n = true → s.partnerOwns d = false →
    s.admitCheck d (.unreadable det) = none →
    Answers (.ioRead n (.unreadable det) []) s (fun t => t.ios = s.ios ∧ t.nextId = s.nextId)) ∧
  (∀ (n : BitVec 10) (sgl : SglFetch) (i : Nat) (s : State), (s.ring (.data n)).state ≠ .active → (s.ring (.data n)).state ≠ .faulted →
    Answers (.ioRead n sgl [.line i true]) s (fun t => s.Faulted t 0x90 1 ∧ t.line i = s.line i)) ∧
  (∀ (n : BitVec 10) (sgl : SglFetch) (i : Nat) (s : State), (s.ring (.data n)).state ≠ .active → (s.ring (.data n)).state ≠ .faulted →
    (s.line i).state = .clean →
    Answers (.ioRead n sgl [.line i false]) s (fun t => s.Faulted t 0x90 2 ∧ t.line i = Line.at0)) ∧
  (∀ (n : BitVec 10) (io : Io) (s : State),
    s.ios.find? (fun j => j.ring = n && !j.lined && !j.away && (j.kind = .writeZeroes || j.kind = .write)) = some io →
    (s.lineWrite io).2 = true → (∀ r ∈ s.log.recs, r.io = some io.id → r.typ ≠ .intent) →
    Answers (.allocationRetry n) s (fun t =>
      (∃ j ∈ t.ios, j.id = io.id ∧ j.lined = true ∧ j.kind = io.kind ∧ (io.kind = .writeZeroes → j.dataIn = true)) ∧
      (io.kind = .writeZeroes → ∀ r ∈ t.log.recs, r.io = some io.id → r.typ = .data → r.status = .writing → r.filled = true))) ∧
  (∀ (n : BitVec 10) (io : Io) (s : State),
    s.ios.find? (fun j => j.ring = n && !j.lined && !j.away && (j.kind = .writeZeroes || j.kind = .write)) = some io →
    (s.lineWrite io).2 = false → Answers (.allocationRetry n) s (fun t => t.ios = s.ios))

/-- What ends at once (R218, R228, R229, R234): a NOP, and a VERIFY whose every row has an unretired Log record, complete with OK; the head
of the ring passes the entry and its head word is published. With EVT clear no record is written; with EVT set an IO_STATUS record
with STATUS OK is written to the port's event ring, if that has room. -/
def Obligations.EntriesEndInOrder : Prop :=
  (∀ (n : BitVec 10) (d : Desc) (s : State), s.frontDesc n = some d → s.gcs.phase = .running → d.opcode = 5 → s.turn n = true → d.flags.getLsbD 2 = false →
    (s.ring (.data n)).head = d.pos → (s.ring (.data n)).ended = [] →
    Answers (.ioNop n) s (fun t =>
      (t.ring (.data n)).head = posAdd (s.ringN (.data n)) d.pos 1 ∧ (t.ring (.data n)).exc = (s.ring (.data n)).exc ∧
      (t.ring (.data n)).doneCount = ((s.ring (.data n)).doneCount + 1) % 2 ^ 64 ∧
      Out.headWord (.data n) (headWordOf (s.ringN (.data n)) (posAdd (s.ringN (.data n)) d.pos 1) (s.ring (.data n)).exc) ∈ t.out ∧
      t.ios = s.ios)) ∧
  (∀ (n : BitVec 10) (d : Desc) (s : State), s.frontDesc n = some d → s.gcs.phase = .running → d.opcode = 5 → s.turn n = true → d.flags.getLsbD 2 = true →
    (s.ring (.data n)).head = d.pos → (s.ring (.data n)).ended = [] →
    (s.ring (.event (s.ringPort (.data n)))).state = .active → s.canWrite (s.ringPort (.data n)) = true →
    Answers (.ioNop n) s (fun t =>
      ∃ r : EventRecord, r.typ = 1 ∧ r.status = 0 ∧ r.tag = d.tag ∧ r.ring = n.setWidth 16 ∧
        Out.record (s.ringPort (.data n)) (s.ring (.event (s.ringPort (.data n)))).tail r ∈ t.out)) ∧
  (∀ (n : BitVec 10) (d : Desc) (s : State), s.frontDesc n = some d → s.gcs.phase = .running → d.opcode = 4 → s.turn n = true → s.partnerOwns d = false →
    s.admitCheck d .notNeeded = none → (s.stripesOf d).all (fun t => !(s.set d.set.toNat).resyncing t) = true →
    s.verifyBlocks (BitVec.ofNat 6 d.set.toNat) d = [] → d.flags.getLsbD 2 = false →
    (s.ring (.data n)).head = d.pos → (s.ring (.data n)).ended = [] → (∀ j ∈ s.ios, j.id ≠ s.nextId) →
    Answers (.ioVerify n) s (fun t =>
      (t.ring (.data n)).head = posAdd (s.ringN (.data n)) d.pos 1 ∧ t.ios = s.ios ∧
      t.regN Reg.rngAdmitted = (s.regN Reg.rngAdmitted + 1) % 2 ^ 64))

/-! ## The Hold state and the monitors -/

/-- Entry to the Hold state (R386, R388, R389, R390): a fall of PWRWARN_N, or a rail below its LOW_MV, puts a controller in NORMAL into HOLD and
raises 0xC5 or 0xC4. A junction above 115 °C does so too, drives THERMTRIP_N low and raises 0xC9 (R384). The other transitions of R389
(R387, R388, R391): a sample with PWRWARN_N high and every rail qualified takes HOLD to QUALIFY when no thermal trip occurred; a rail that
is no longer qualified takes QUALIFY and WAIT back to HOLD; qualification ends in NORMAL with 0xC7 raised, or in WAIT when MANUAL is 1 and
RESUME is not set; RESUME ends WAIT, and is kept in the other sub-states of Hold. -/
def Obligations.HoldIsEnteredAndLeft : Prop :=
  (∀ s : State, s.mon.hold = .normal →
    Answers .pwrwarnNAssert s (fun t => t.mon.hold = .hold ∧ t.mon.byPin = true ∧ t.mon.pwrwarnLow = true ∧
      (t.src 0xC5).isOpen = true ∧ (t.src 0xC5).lastDetail = 1)) ∧
  (∀ (mv : List Nat) (high : Bool) (r : Nat) (s : State), s.mon.hold = .normal → r < 7 → mv.getD r 0 < s.railLow r →
    (∀ q, q < r → s.railLow q ≤ mv.getD q 0) →
    Answers (.railSample mv high) s (fun t => t.mon.hold = .hold ∧ t.mon.byRail = true ∧ t.mon.pwrwarnLow = !high ∧
      r ∈ t.mon.railLow ∧ (t.src 0xC4).isOpen = true ∧ (t.src 0xC4).lastDetail = BitVec.ofNat 8 r)) ∧
  (∀ (tj banks : List (Option Int)) (i : Nat) (c : Int) (s : State), s.mon.thermtrip = false → i < 8 → tj[i]? = some (some c) →
    115 < c → c ≤ 150 →
    Answers (.junctionSample tj banks) s (fun t => t.mon.hold = .hold ∧ t.mon.thermtrip = true ∧ t.mon.byTrip = true ∧
      t.mon.tj = tj.take 8 ∧ (t.src 0xC9).isOpen = true)) ∧
  (∀ (mv : List Nat) (s : State), s.mon.hold = .hold → s.mon.thermtrip = false →
    (∀ r, r < 7 → s.railLow r + s.railHyst r ≤ mv.getD r 0 ∧ mv.getD r 0 ≤ s.railHigh r) →
    Answers (.railSample mv true) s (fun t => t.mon.hold = .qualify ∧ t.mon.railLow = [] ∧ t.mon.railHigh = [] ∧
      Only [.mon, .monitor] s t)) ∧
  (∀ (mv : List Nat) (s : State), (s.mon.hold = .qualify ∨ s.mon.hold = .wait) →
    (∀ r, r < 7 → s.railLow r ≤ mv.getD r 0 ∧ mv.getD r 0 ≤ s.railHigh r) →
    Answers (.railSample mv false) s (fun t => t.mon.hold = .hold ∧ Only [.mon, .monitor] s t)) ∧
  (∀ s : State, s.mon.hold = .qualify → s.regBit Reg.gcsHold 0 = false → s.interp.deferred = [] →
    Answers .holdQualificationExpiry s (fun t => t.mon.hold = .normal ∧ t.mon.resumeSet = false ∧ s.Faulted t 0xC7 1)) ∧
  (∀ s : State, s.mon.hold = .qualify → s.regBit Reg.gcsHold 0 = true → s.mon.resumeSet = false →
    Answers .holdQualificationExpiry s (fun t => t.mon.hold = .wait ∧ Only [.mon, .monitor] s t)) ∧
  (∀ s : State, s.haltClosed = false → s.gcs.phase ≠ .dock → s.mon.hold = .wait → s.interp.deferred = [] →
    Answers .holdResume s (fun t => t.mon.hold = .normal ∧ s.Faulted t 0xC7 2)) ∧
  (∀ s : State, s.haltClosed = false → s.gcs.phase ≠ .dock → (s.mon.hold = .hold ∨ s.mon.hold = .qualify) →
    Answers .holdResume s (fun t => t.mon = { s.mon with resumeSet := true } ∧ Only [.mon, .monitor] s t))

/-- Sensor samples (R384) and the decay floor (R486): eight valid junction samples no higher than WARN_C change the monitors alone; the first
sample above WARN_C raises 0xC8 with its sensor. A fall of VLOG or VLOG_IO below its decay floor disables the write drivers of the Log,
which only power-on enables again. -/
def Obligations.SensorsAndDecayFloor : Prop :=
  (∀ (tj : List Int) (s : State), tj.length = 8 → (∀ c ∈ tj, -40 ≤ c ∧ c ≤ (s.regField Reg.monTj 8 8 : Int) ∧ c ≤ 115) →
    Answers (.junctionSample (tj.map some) []) s (fun t =>
      t.mon.tj = tj.map some ∧ t.mon.tjOver = false ∧ t.mon.failedSensors = [] ∧ t.mon.hold = s.mon.hold ∧ Only [.mon, .monitor] s t)) ∧
  (∀ (c : Int) (s : State), (s.regField Reg.monTj 8 8 : Int) < c → -40 ≤ c → c ≤ 115 → s.mon.tjOver = false →
    Answers (.junctionSample [some c] []) s (fun t => t.mon.tjOver = true ∧ s.Faulted t 0xC8 0)) ∧
  (∀ (rail : BitVec 3) (s : State), rail = 2 ∨ rail = 3 →
    Answers (.decayFloorCrossed rail) s (fun t => t.gcs.writeDrivers = false ∧ Only [.gcs, .startup] s t))

/-! ## The fix and the watches -/

/-- Edges of FIX_PPS (R150, R153). An edge of the chosen polarity outside the window of the timer state is counted, rejected, and raises 0xDA,
the third in a row losing the fix. One inside it is counted with its offset: from ACQUIRING or HOLDOVER the fourth in a row leads to LOCKED
when the timer leads by at most 100 ns, a timer that is behind stepping forward to the edge, and to SLEWING otherwise; from SLEWING an
offset within ±100 ns leads to LOCKED. The loss of FIX_PPS leads to HOLDOVER with 0xD8 raised. A time of day (R151, R153). One that an
accepted edge names steps the timer forward to it, from UNSET into ACQUIRING, or leads to SLEWING without a step when the timer is up to 1 s
ahead; one more than 1 s behind the timer is refused with 0xDB. One whose edge does not come lapses with 0xDB detail 3, and the closing of a
gap ends. -/
def Obligations.FixEdgesAndTimeOfDay : Prop :=
  (∀ (interval : Nat) (lead : Int) (jit : Nat) (s : State), s.regBit Reg.wchCtl 0 = true →
    (s.wch.timer = .locked ∨ s.wch.timer = .slewing) → (interval + 1000 < 1000000000 ∨ 1000001000 < interval) →
    s.wch.rejectedRun < 2 →
    Answers (.fixPpsEdge (!s.regBit Reg.wchCtl 1) interval lead jit) s (fun t =>
      t.wch.ppsReject = (s.wch.ppsReject + 1) % 2 ^ 32 ∧ t.wch.timer = s.wch.timer ∧ t.wch.fixNs = s.wch.fixNs ∧
      s.Faulted t 0xDA (BitVec.ofNat 8 ((s.wch.ppsReject + 1) % 2 ^ 32)))) ∧
  (∀ (interval : Nat) (lead : Int) (jit : Nat) (s : State), s.regBit Reg.wchCtl 0 = true → s.wch.tod = none →
    (s.wch.timer = .acquiring ∨ s.wch.timer = .holdover) → s.wch.edgeAnchored = true → 3 ≤ s.wch.consecutive →
    999900000 ≤ interval → interval ≤ 1000100000 → s.wch.rejectedRun < 3 → lead ≤ 100 →
    s.wch.fixNs.toNat + (-lead).toNat < 2 ^ 64 →
    Answers (.fixPpsEdge (!s.regBit Reg.wchCtl 1) interval lead jit) s (fun t =>
      t.wch.timer = .locked ∧ t.wch.beyond = false ∧ t.wch.ppsCount = (s.wch.ppsCount + 1) % 2 ^ 32 ∧ t.wch.offsetNs = lead ∧
      t.wch.fixNs.toNat = s.wch.fixNs.toNat + (-lead).toNat ∧ Only [.wch, .timer] s t)) ∧
  (∀ (interval : Nat) (lead : Int) (jit : Nat) (s : State), s.regBit Reg.wchCtl 0 = true → s.wch.tod = none →
    (s.wch.timer = .acquiring ∨ s.wch.timer = .holdover) → s.wch.edgeAnchored = true → 3 ≤ s.wch.consecutive →
    999900000 ≤ interval → interval ≤ 1000100000 → s.wch.rejectedRun < 3 → 100 < lead →
    Answers (.fixPpsEdge (!s.regBit Reg.wchCtl 1) interval lead jit) s (fun t =>
      t.wch.timer = .slewing ∧ t.wch.fixNs = s.wch.fixNs ∧ Only [.wch, .timer] s t)) ∧
  (∀ (interval : Nat) (lead : Int) (jit : Nat) (s : State), s.regBit Reg.wchCtl 0 = true → s.wch.tod = none →
    s.wch.timer = .slewing → 999999000 ≤ interval → interval ≤ 1000001000 → -100 ≤ lead → lead ≤ 100 →
    Answers (.fixPpsEdge (!s.regBit Reg.wchCtl 1) interval lead jit) s (fun t =>
      t.wch.timer = .locked ∧ t.wch.fixNs = s.wch.fixNs ∧ Only [.wch, .timer] s t)) ∧
  (∀ s : State, s.wch.timer = .locked ∨ s.wch.timer = .acquiring ∨ s.wch.timer = .slewing →
    Answers .fixPpsLost s (fun t => t.wch.timer = .holdover ∧ t.wch.fixNs = s.wch.fixNs ∧ t.wch.holdS = 0 ∧
      t.wch.holdRate = max (s.regField Reg.wchHold 0 16) s.wch.maxDrift ∧ s.Faulted t 0xD8 1)) ∧
  (∀ (interval : Nat) (lead : Int) (jit : Nat) (s : State), s.regBit Reg.wchCtl 0 = true →
    (s.wch.timer = .locked ∨ s.wch.timer = .slewing) → (interval + 1000 < 1000000000 ∨ 1000001000 < interval) →
    s.wch.rejectedRun = 2 →
    Answers (.fixPpsEdge (!s.regBit Reg.wchCtl 1) interval lead jit) s (fun t =>
      t.wch.ppsReject = (s.wch.ppsReject + 1) % 2 ^ 32 ∧ t.wch.timer = .holdover ∧ t.wch.fixNs = s.wch.fixNs ∧
      s.Faulted t 0xDA (BitVec.ofNat 8 ((s.wch.ppsReject + 1) % 2 ^ 32)) ∧ s.Faulted t 0xD8 1)) ∧
  (∀ (v : Word64) (interval : Nat) (lead : Int) (jit : Nat) (s : State), s.regBit Reg.wchCtl 0 = true → s.wch.tod = some v →
    s.wch.todSrc = none → s.wch.timer = .unset → s.wch.edgeAnchored = false →
    s.wch.todArrival.toNat + 10000 ≤ s.wch.fixNs.toNat → s.wch.fixNs.toNat ≤ v.toNat →
    Answers (.fixPpsEdge (!s.regBit Reg.wchCtl 1) interval lead jit) s (fun t =>
      t.wch.timer = .acquiring ∧ t.wch.fixNs = v ∧ t.wch.tod = none ∧ Only [.wch, .timer] s t)) ∧
  (∀ (v : Word64) (lead : Int) (jit : Nat) (s : State), s.regBit Reg.wchCtl 0 = true → s.wch.tod = some v →
    s.wch.todSrc = none → s.wch.timer = .locked → s.wch.todArrival.toNat + 10000 ≤ s.wch.fixNs.toNat →
    v.toNat < s.wch.fixNs.toNat → s.wch.fixNs.toNat ≤ v.toNat + 1000000000 →
    Answers (.fixPpsEdge (!s.regBit Reg.wchCtl 1) 1000000000 lead jit) s (fun t =>
      t.wch.timer = .slewing ∧ t.wch.fixNs = s.wch.fixNs ∧ t.wch.tod = none ∧ Only [.wch, .timer] s t)) ∧
  (∀ (v : Word64) (lead : Int) (jit : Nat) (s : State), s.regBit Reg.wchCtl 0 = true → s.wch.tod = some v →
    s.wch.todSrc = none → s.wch.timer = .locked → s.wch.todArrival.toNat + 10000 ≤ s.wch.fixNs.toNat →
    v.toNat + 1000000000 < s.wch.fixNs.toNat →
    Answers (.fixPpsEdge (!s.regBit Reg.wchCtl 1) 1000000000 lead jit) s (fun t =>
      t.wch.timer = .locked ∧ t.wch.fixNs = s.wch.fixNs ∧ t.wch.tod = none ∧ s.Faulted t 0xDB 1)) ∧
  (∀ s : State, s.wch.tod ≠ none → s.wch.todSrc = none →
    Answers .todLapse s (fun t => t.wch.tod = none ∧ t.wch.fixNs = s.wch.fixNs ∧ s.Faulted t 0xDB 3)) ∧
  (∀ s : State, Answers .gapClosed s (fun t =>
    t.wch.closing = false ∧ t.wch.gapTenths = 0 ∧ t.wch.fixNs = s.wch.fixNs ∧ Only [.wch, .timer] s t))

/-- HOLDOVER (R161, R162): each second adds HOLD_RATE to the bound; when the bound reaches the watch length, BEYOND sets and 0xD9 is raised,
once. Watches (R154, R155, R157 to R159). A boundary closes every watch below the one in force, with the HOLDOVER flag set if the timer was
in any other state than LOCKED in them. Without a pair, a closed watch with no open SEALED DATA record is sealed: WCH.SEALED advances to it.
An uncommitted record of a SEALED write whose grace has expired is abandoned, its write completes with TIMEOUT, and 0xDC is raised. A new
length takes effect at its second of fix time, not before. At its generation limit a set's writes wait. -/
def Obligations.HoldoverAndWatches : Prop :=
  (∀ s : State, s.wch.timer = .holdover →
    s.wch.holdBase + (s.wch.holdS + 1) * s.wch.holdRate + (s.wch.gapTenths + 9999) / 10000 < s.wch.length →
    Answers .holdoverTick s (fun t => t.wch.holdBound = s.wch.holdBound + s.wch.holdRate ∧ t.wch.beyond = s.wch.beyond ∧
      Only [.wch, .timer] s t)) ∧
  (∀ s : State, s.wch.timer = .holdover → s.wch.beyond = false →
    s.wch.length ≤ s.wch.holdBase + (s.wch.holdS + 1) * s.wch.holdRate + (s.wch.gapTenths + 9999) / 10000 →
    Answers .holdoverTick s (fun t => t.wch.beyond = true ∧ s.Faulted t 0xD9 1)) ∧
  (∀ s : State, 0 < s.watch.toNat → s.wch.closed.toNat < s.watch.toNat - 1 →
    Answers .watchBoundary s (fun t =>
      t.wch.closed.toNat = s.watch.toNat - 1 ∧ t.wch.holdoverSeen = decide (s.wch.timer ≠ .locked) ∧
      (s.watch.toNat - 1, s.wch.holdoverSeen || decide (s.wch.timer ≠ .locked)) ∈ t.wch.closedFlags ∧ Only [.wch, .timer] s t)) ∧
  (∀ s : State, s.pair.state = .single → s.wch.sealedWatch.toNat < s.wch.closed.toNat →
    s.log.recs.all (fun r => !sealedDataOf s.wch.closed.toNat r) = true →
    Answers .watchSeal s (fun t =>
      t.wch.sealedWatch = s.wch.closed ∧ t.wch.sealedHoldover = s.wch.flagOf s.wch.closed.toNat ∧ Only [.wch, .timer] s t)) ∧
  (∀ (seq : Word64) (r : Rec) (io : Io) (s : State), s.findRec seq.toNat = some r → r.status = .writing →
    sealedDataOf s.wch.closed.toNat r = true → s.ios.find? (fun j => r.io = some j.id) = some io → io.fwd = false →
    Answers (.sealGraceExpiry seq) s (fun t => (∀ j ∈ t.ios, j.id ≠ io.id) ∧ s.Faulted t 0xDC (r.set.setWidth 8))) ∧
  (∀ (s : State) (len : Nat) (f : Word64), s.wch.nextLength = some (len, f) → f.toNat ≤ s.wch.fixNs.toNat →
    Answers .watchLengthChange s (fun t => t.wch.length = len ∧ t.wch.nextLength = none ∧ t.wch.fixNs = s.wch.fixNs ∧
      Only [.wch, .timer] s t)) ∧
  (∀ (set : BitVec 6) (n : BitVec 10) (d : Desc) (rest : List Desc) (s : State), (s.set set.toNat).genWatch = s.watch →
    s.maxGeneration < (s.set set.toNat).generation → (s.ring (.data n)).queue = d :: rest → d.set.toNat = set.toNat →
    d.opcode = 2 ∨ d.opcode = 3 →
    Answers (.generationLimit set) s (fun t => t.ring (.data n) = { s.ring (.data n) with admitWait := true } ∧ Only [.rings] s t)) ∧
  (∀ (s : State) (len : Nat) (f : Word64), s.wch.nextLength = some (len, f) → s.wch.fixNs.toNat < f.toNat →
    exec .watchLengthChange s = .next s)

/-! ## The Log -/

/-- Records of the Log (R110, R112, R120, R123, R403). A record whose units, payload included, are durable, none of whose rows has an earlier record in
writing, commits; in PAIRED it waits for its partner copy. A committed life record that is the newest becomes the life record. An anchor
names the tail, and the EPOCH counts. A life record is due at once, or once Idle-dock ends. -/
def Obligations.RecordsCommit : Prop :=
  (∀ (seq : Word64) (r : Rec) (s : State), s.findRec seq.toNat = some r → r.status = .writing → s.rowOrderHeld r = false →
    r.filled = true → s.scc.asks = [] → s.gcs.writeDrivers = true → s.pair.state ≠ .paired → r.typ = .data → (∀ io ∈ s.ios, r.seq ∉ io.waitWrites) →
    Answers (.recordCommit seq) s (fun t =>
      ∃ q ∈ t.log.recs, q.seq = r.seq ∧ q.status = .committed ∧ q.typ = .data ∧ q.sectors = r.sectors)) ∧
  (∀ (seq : Word64) (r : Rec) (v : Life) (s : State), s.findRec seq.toNat = some r → r.status = .writing →
    r.filled = true → s.gcs.writeDrivers = true → s.pair.state ≠ .paired → r.typ = .life → s.log.lives.find? (fun w => w.seq = r.seq) = some v →
    s.log.life.seq < r.seq →
    Answers (.recordCommit seq) s (fun t => t.log.life = v)) ∧
  (∀ (seq : Word64) (r : Rec) (s : State), s.findRec seq.toNat = some r → r.status = .writing → s.rowOrderHeld r = false →
    r.filled = true → s.gcs.writeDrivers = true → s.pair.state = .paired → r.partner = false →
    Answers (.recordCommit seq) s (fun t =>
      t.findRec seq.toNat = some { r with localDone := true } ∧ t.log.recs.length = s.log.recs.length ∧ Only [.log] s t)) ∧
  (∀ s : State, s.haltClosed = false → s.gcs.phase ≠ .dock →
    Answers .anchor s (fun t =>
      Tab.get t.log.anchors none s.log.anchorSlot = some { pos := s.log.tailPos, seq := s.log.tailSeq, epoch := s.log.epoch + 1,
                                                           watchHw := s.log.watchHw, fixNs := s.wch.fixNs } ∧
      t.log.epoch = s.log.epoch + 1 ∧ t.log.recs = s.log.recs ∧ Only [.log] s t)) ∧
  (∀ s : State, s.gcs.phase ≠ .dock → s.scc.asks = [] →
    Answers .lifeRecordDue s (fun t => ∃ r ∈ t.log.recs, r.typ = .life ∧ r.seq = s.log.nextSeq ∧ r.status = .writing)) ∧
  (∀ s : State, s.gcs.phase = .dock →
    Answers .lifeRecordDue s (fun t => 1 ∈ t.gcs.deferredCalendar ∧ t.log = s.log ∧ t.regs = s.regs))

/-- Relocation and stripe commits (R131, R134). While the Log is paced or full, the unretired records before the first retired one are
copied to the head, each copy the same but for RELOCATED and a new SEQ. A row with committed DATA records that no seal holds back starts
a stripe commit at its newest version. -/
def Obligations.RecordsMoveOn : Prop :=
  (∀ (rs : List Rec) (r : Rec) (s : State), (s.log.paced = true ∨ s.log.full = true) → s.scc.asks = [] → s.log.relocatable = some rs → r ∈ rs →
    Answers .relocation s (fun t =>
      ∃ q ∈ t.log.recs, q.relocated = true ∧ s.log.nextSeq ≤ q.seq ∧ q.typ = r.typ ∧ q.set = r.set ∧ q.stripe = r.stripe ∧
        q.rowFirst = r.rowFirst ∧ q.rowCount = r.rowCount ∧ q.watch = r.watch ∧ q.generation = r.generation ∧ q.sectors = r.sectors)) ∧
  (∀ (set : BitVec 6) (stripe : BitVec 48) (row : Nat) (q : RowPlan) (s : State), s.inHold = false → s.scc.asks = [] →
    (s.set set.toNat).state = .running → row < (s.set set.toNat).s → s.rowPlan set stripe.toNat row = some q →
    (∀ r ∈ s.log.recs, r.sealedAck = false) →
    Answers (.stripeCommit set stripe row 1) s (fun t =>
      ∃ c ∈ t.commits, c.id = s.nextId ∧ c.set = set ∧ c.stripe = stripe.toNat ∧ c.rowFirst = row ∧ c.rowCount = 1 ∧ c.vp = q.vp ∧
        c.data = q.data))

/-- A bank of the Log fails (R106, R107, R390): it is fenced; the spare takes its place and resilvering begins, or without a spare the pair
is left on one copy, or the pair had only this copy, and STOP is raised; its source 0x60 + n reports it. A resilver that completes gives
the pair two copies again. Each second the word errors of a bank are reported, a corrected one with detail 1 and an uncorrectable one with
detail 2, and more than 16 uncorrectable words fail the bank, of a pair with no spare to take its place one copy being left; a unit
unreadable in both copies raises 0x71 (R105, R147). -/
def Obligations.BanksFailAndResilver : Prop :=
  (∀ (bank b : BitVec 5) (p : Nat) (s : State), s.bankLive bank = true → s.log.spare = some b → b ≠ bank →
    s.pairOfBank bank = some p → p < s.log.pairs.length → (s.pairRole p).single = false → s.mon.run = none →
    Answers (.bankFailure bank) s (fun t =>
      bank ∈ t.log.fenced ∧ t.log.spare = none ∧
      t.pairRole p = { (s.pairRole p).swap bank b with single := false, resilvering := true, target := b } ∧
      s.Faulted t (BitVec.ofNat 8 (0x60 + bank.toNat)) 3)) ∧
  (∀ (bank : BitVec 5) (p : Nat) (s : State), s.bankLive bank = true → s.log.spare = none →
    s.pairOfBank bank = some p → p < s.log.pairs.length → (s.pairRole p).single = false → s.mon.run = none →
    Answers (.bankFailure bank) s (fun t =>
      bank ∈ t.log.fenced ∧ (t.pairRole p).single = true ∧ s.Faulted t (BitVec.ofNat 8 (0x60 + bank.toNat)) 3)) ∧
  (∀ (bank : BitVec 5) (p : Nat) (s : State), s.bankLive bank = true → s.log.spare ≠ some bank →
    s.pairOfBank bank = some p → (s.pairRole p).single = true →
    Answers (.bankFailure bank) s (fun t => bank ∈ t.log.fenced ∧ s.Faulted t (BitVec.ofNat 8 (0x60 + bank.toNat)) 4)) ∧
  (∀ (pair : BitVec 3) (s : State), (s.pairRole pair.toNat).resilvering = true → pair.toNat < s.log.pairs.length →
    Answers (.resilverComplete pair) s (fun t =>
      t.pairRole pair.toNat = { s.pairRole pair.toNat with resilvering := false } ∧ Only [.log, .banks] s t)) ∧
  (∀ s : State, exec (.bankErrorWindow []) s = .next s) ∧
  (∀ (b : BitVec 5) (s : State), s.bankLive b = true →
    Answers (.bankErrorWindow [.corrected b]) s (fun t => s.Faulted t (BitVec.ofNat 8 (0x60 + b.toNat)) 1 ∧
      t.log.fenced = s.log.fenced)) ∧
  (∀ (b : BitVec 5) (s : State), s.bankLive b = true →
    Answers (.bankErrorWindow [.uncorrectable b]) s (fun t => s.Faulted t (BitVec.ofNat 8 (0x60 + b.toNat)) 2 ∧
      t.log.fenced = s.log.fenced)) ∧
  (∀ (b : BitVec 5) (p n : Nat) (s : State), s.bankLive b = true → s.log.spare = none → s.pairOfBank b = some p →
    p < s.log.pairs.length → (s.pairRole p).single = false → s.mon.run = none → 16 < n →
    Answers (.bankErrorWindow (List.replicate n (.uncorrectable b))) s (fun t =>
      b ∈ t.log.fenced ∧ (t.pairRole p).single = true)) ∧
  (∀ (p : BitVec 3) (seq : Word64) (s : State),
    Answers (.bankErrorWindow [.unreadable p seq]) s (fun t => s.Faulted t 0x71 (p.setWidth 8)))

/-- Calibration of the Log (R369 to R380). A bank whose temperature moved by more than DELTA_C since its last run is due at the check, one
whose interval has passed is due, a failed bank's holdoff ends. A run of a due bank joins the spare; the copy's end gives the pair the
spare in the bank's place; a sweep that passes every check takes its selection with origin 0 and makes the bank the spare, and one that
fails keeps the old selection and raises 0xC1 with the reason. A host write of a selection with the right CHECK, within 10 columns of the
factory value, takes effect with origin 1, another is ignored with 0xC3. -/
def Obligations.CalibrationRuns : Prop :=
  (∀ (calref : Nat) (temps : List (Option Int)) (n : BitVec 5) (c : Int) (s : State), calrefGood calref = true → s.mon.calrefOk = true →
    s.regBit Reg.calCtl 0 = true → s.bankLive n = true → (s.bank n).barred = false → (s.bank n).ran = true →
    temps[n.toNat]? = some (some c) → -40 ≤ c → c ≤ 150 → (s.regField Reg.calTrig 0 8 : Int) < c - (s.bank n).tempC →
    Answers (.calTemperatureCheck calref temps) s (fun t =>
      (t.bank n).due = true ∧ t.log.powerOnS = s.log.powerOnS + 1 ∧ t.flt = s.flt)) ∧
  (∀ (calref : Nat) (s : State), calref < 117000 → s.mon.calrefOk = true → s.mon.run = none →
    Answers (.calTemperatureCheck calref []) s (fun t => t.mon.calrefOk = false ∧ s.Faulted t 0xC0 1)) ∧
  (∀ (bank : BitVec 5) (s : State), s.regBit Reg.calCtl 0 = true → s.bankLive bank = true → (s.bank bank).barred = false →
    Answers (.calIntervalDue bank) s (fun t => t.bank bank = { s.bank bank with due := true } ∧ Only [.mon, .monitor] s t)) ∧
  (∀ (bank : BitVec 5) (s : State),
    Answers (.calFailHoldoffExpiry bank) s (fun t => t.bank bank = { s.bank bank with barred := false } ∧ Only [.mon, .monitor] s t)) ∧
  (∀ (b n : BitVec 5) (s : State), s.mon.run = none → s.inHold = false → s.gcs.phase ≠ .dock → s.log.spare = some b →
    s.nextCalBank = some (n, none) → s.bankLive n = true → n ≠ b →
    Answers .calRunStart s (fun t =>
      t.mon.run = some { bank := n, phase := .copy, spare := some b, src := none } ∧ t.log.spare = none ∧
      t.mon.lastBank = n)) ∧
  (∀ (c : CalRun) (b : BitVec 5) (p : Nat) (s : State), s.mon.run = some c → c.phase = .copy → c.spare = some b →
    s.pairOfBank c.bank = some p → p < s.log.pairs.length →
    Answers .calCopyComplete s (fun t =>
      t.pairRole p = (s.pairRole p).swap c.bank b ∧ t.mon.run = some { c with phase := .sweep, spare := none })) ∧
  (∀ (r0 r1 : Nat) (w : Sweep) (c : CalRun) (s : State), s.mon.run = some c → c.phase = .sweep → c.src = none → s.mon.calrefOk = true →
    calrefGood r0 = true → calrefGood r1 = true → sweepReason w r0 r1 (s.bank c.bank).sel 6 = none →
    (∀ p, p < Config.pairs s.part → (s.pairRole p).single = false) →
    Answers (.calSweepComplete r0 r1 w) s (fun t =>
      (t.bank c.bank).sel = sweepSel w ∧ (t.bank c.bank).origin = 0 ∧ (t.bank c.bank).due = false ∧ t.mon.run = none ∧
      t.log.spare = some c.bank ∧ t.flt = s.flt)) ∧
  (∀ (r0 r1 : Nat) (w : Sweep) (c : CalRun) (r : Byte) (s : State), s.mon.run = some c → c.phase = .sweep → c.src = none →
    s.mon.calrefOk = true → calrefGood r0 = true → calrefGood r1 = true → sweepReason w r0 r1 (s.bank c.bank).sel 6 = some r →
    (∀ p, p < Config.pairs s.part → (s.pairRole p).single = false) →
    Answers (.calSweepComplete r0 r1 w) s (fun t =>
      (t.bank c.bank).sel = (s.bank c.bank).sel ∧ t.mon.run = none ∧ t.mon.lastReason = r ∧ t.log.spare = some c.bank ∧
      s.Faulted t 0xC1 r)) ∧
  (∀ (bank : BitVec 5) (value : Word32) (s : State), s.haltClosed = false → s.gcs.phase ≠ .dock → s.bankLive bank = true →
    (s.mon.run.map (fun c => c.bank)) ≠ some bank → value.toNat / 2 ^ 20 % 32 = selCheck (BitVec.ofNat 20 value.toNat) →
    selWithin (BitVec.ofNat 20 value.toNat) (s.bank bank).otp 10 = true →
    Answers (.calBankSel bank value) s (fun t =>
      t.bank bank = { s.bank bank with sel := BitVec.ofNat 20 value.toNat, origin := 1 } ∧ t.flt = s.flt)) ∧
  (∀ (bank : BitVec 5) (value : Word32) (s : State), s.haltClosed = false → s.gcs.phase ≠ .dock → s.bankLive bank = true →
    value.toNat / 2 ^ 20 % 32 ≠ selCheck (BitVec.ofNat 20 value.toNat) →
    Answers (.calBankSel bank value) s (fun t => (t.bank bank).sel = (s.bank bank).sel ∧ s.Faulted t 0xC3 1))

/-! ## Command packets: queries and the interpreter -/

/-- A packet in front of its source that fails one check is answered and goes no further (R12, R240, R242, R243, R245, R246, R250): an undefined
opcode with BAD_OPCODE, a command without privilege with DENIED 1, a privileged command of a halted controller with DENIED 5, a command that
changes persistent state in the Hold state with HELD 2, and a field marked zero that is not with BAD_FIELD at its offset. The queries reply
OK with the RESULT that R251 to R260 lay out, and change nothing but what a reply changes and, where CAL_QUERY or LIFE_READ needs them, free
values and the buffer; WAY_MASKS with SET 1 stores its masks first (R298). -/
def Obligations.PacketsAreServedOrRefused : Prop :=
  (∀ (src : CmdSrc) (s : State) (pkt : Bytes), s.frontPacket src = some pkt → cmdInfo (opcodeOf pkt) = none →
    Answers (.diagEcho src) s (fun t => Replied s t src pkt stBadOpcode 1 [])) ∧
  (∀ (c : BitVec 4) (s : State) (pkt : Bytes), s.frontPacket (.ring c) = some pkt → opcodeOf pkt = 0x0103 →
    s.mustWait (cmdRow 0x0103 true false true [(0x10, 1)]) pkt = false → zeroFault [(0x10, 1)] pkt = none → (byteAt pkt 0x10).toNat < 64 →
    s.isEmpty (setOf pkt) = true → s.gcs.phase ≠ .romRecovery → s.gcs.halted = false → s.ringPriv c = false →
    Answers (.setStart (.ring c)) s (fun t => Replied s t (.ring c) pkt stDenied 1 [])) ∧
  (∀ (s : State) (pkt : Bytes), s.frontPacket .chain = some pkt → opcodeOf pkt = 0x0704 →
    s.mustWait (cmdRow 0x0704 true false false [(0x10, 13)]) pkt = false → zeroFault [(0x10, 13)] pkt = none →
    (byteAt pkt 0x1C).toNat = 0 → s.gcs.phase ≠ .romRecovery → s.gcs.halted = true →
    Answers (.wayMasks .chain) s (fun t => Replied s t .chain pkt stDenied 5 [])) ∧
  (∀ (src : CmdSrc) (s : State) (pkt : Bytes), s.frontPacket src = some pkt → opcodeOf pkt = 0x0202 →
    s.mustWait (cmdRow 0x0202 true false true [(0x10, 1)]) pkt = false → zeroFault [(0x10, 1)] pkt = none →
    (∀ d ∈ s.denials src (cmdRow 0x0202 true false true [(0x10, 1)]), d = none) → (byteAt pkt 0x10).toNat < 64 →
    s.setsFree (fun a => decide (a.profile.toNat = setOf pkt)) = none → s.inHold = true →
    Answers (.profileDelete src) s (fun t => Replied s t src pkt stHeld 2 [])) ∧
  (∀ (src : CmdSrc) (s : State) (pkt : Bytes) (o : Nat), s.frontPacket src = some pkt → opcodeOf pkt = 0x0603 →
    s.mustWait (cmdRow 0x0603 false false false []) pkt = false → zeroFault [] pkt = some o →
    Answers (.watchQuery src) s (fun t => Replied s t src pkt stBadField (BitVec.ofNat 8 o) [])) ∧
  (∀ (src : CmdSrc) (s : State) (pkt : Bytes), Ready s src 0x0107 pkt → (byteAt pkt 0x10).toNat < 64 → (byteAt pkt 0x11).toNat < 2 →
    Answers (.setQuery src) s (fun t =>
      Replied s t src pkt stOk 0 (if (byteAt pkt 0x11).toNat = 0 then s.setAttrs (setOf pkt) else s.setParams (setOf pkt)))) ∧
  (∀ (src : CmdSrc) (s : State) (pkt : Bytes), Ready s src 0x0203 pkt → (byteAt pkt 0x10).toNat < 64 →
    s.profile (BitVec.ofNat 6 (setOf pkt)) = none →
    Answers (.profileQuery src) s (fun t =>
      Replied s t src pkt stOk 0 (resultOf [(0x10, 1, setOf pkt), (0x18, 8, s.profileUsers (setOf pkt))]))) ∧
  (∀ (src : CmdSrc) (s : State) (pkt : Bytes) (p : Profile), Ready s src 0x0203 pkt → (byteAt pkt 0x10).toNat < 64 →
    s.profile (BitVec.ofNat 6 (setOf pkt)) = some p →
    Answers (.profileQuery src) s (fun t =>
      Replied s t src pkt stOk 0 (resultOf [(0x10, 1, setOf pkt), (0x11, 1, p.typ.code), (0x12, 1, p.k), (0x13, 1, p.par),
        (0x14, 1, p.loc), (0x15, 1, p.width), (0x16, 1, p.tol), (0x17, 1, 1), (0x18, 8, s.profileUsers (setOf pkt))]))) ∧
  (∀ (src : CmdSrc) (s : State) (pkt : Bytes), Ready s src 0x0401 pkt → s.portPresent (portOf pkt) = true →
    Answers (.portQuery src) s (fun t => Replied s t src pkt stOk 0 (s.portResult (portOf pkt)))) ∧
  (∀ (src : CmdSrc) (s : State) (pkt : Bytes), Ready s src 0x0501 pkt → setOf pkt = 0xFF →
    Answers (.logQuery src) s (fun t => Replied s t src pkt stOk 0
      (resultOf [(0x10, 1, 0xFF), (0x14, 4, s.logUsed), (0x18, 8, s.log.nextSeq), (0x20, 8, s.logTailSeq),
        (0x28, 4, s.unretired (fun _ => true)), (0x2C, 4, s.sumSets (fun _ => true) (fun a => a.resync.length)),
        (0x30, 4, s.sumSets (fun _ => true) (fun a => a.unresolved.length))]))) ∧
  (∀ (src : CmdSrc) (s : State) (pkt : Bytes), Ready s src 0x0501 pkt → setOf pkt < 64 → s.isEmpty (setOf pkt) = false →
    Answers (.logQuery src) s (fun t => Replied s t src pkt stOk 0
      (resultOf [(0x10, 1, setOf pkt), (0x14, 4, s.logUsed), (0x18, 8, s.log.nextSeq), (0x20, 8, s.logTailSeq),
        (0x28, 4, s.unretired (fun i => decide (i = setOf pkt))),
        (0x2C, 4, s.sumSets (fun i => decide (i = setOf pkt)) (fun a => a.resync.length)),
        (0x30, 4, s.sumSets (fun i => decide (i = setOf pkt)) (fun a => a.unresolved.length))]))) ∧
  (∀ (src : CmdSrc) (s : State) (pkt : Bytes), Ready s src 0x0603 pkt →
    Answers (.watchQuery src) s (fun t => Replied s t src pkt stOk 0 (resultOf [(0x10, 1, s.wch.timer.code),
      (0x11, 1, ofBool s.holdoverFlag + 2 * ofBool s.wch.beyond + 4 * ofBool s.wch.tod.isSome + 8 * ofBool s.wch.sealedHoldover),
      (0x14, 4, s.wch.length), (0x18, 8, s.wch.fixNs.toNat), (0x20, 6, s.watch.toNat), (0x28, 6, s.wch.sealedWatch.toNat),
      (0x30, 4, satTo 32 s.wch.holdBound)]))) ∧
  (∀ (src : CmdSrc) (s : State) (pkt : Bytes), Ready s src 0x0704 pkt → (byteAt pkt 0x1C).toNat = 0 →
    Answers (.wayMasks src) s (fun t => Replied s t src pkt stOk 0
      (resultOf [(0x10, 4, s.regN Reg.sccMask0), (0x14, 4, s.regN Reg.sccMask1), (0x18, 4, s.regN Reg.sccMask2)]))) ∧
  (∀ (src : CmdSrc) (s : State) (pkt : Bytes), Ready s src 0x0704 pkt → (byteAt pkt 0x1C).toNat = 1 →
    4 ≤ (bitList 16 (leAt pkt 0x10 2)).length →
    Answers (.wayMasks src) s (fun t => Replied s t src pkt stOk 0
      (resultOf [(0x10, 4, leAt pkt 0x10 4), (0x14, 4, leAt pkt 0x14 4), (0x18, 4, leAt pkt 0x18 4)]))) ∧
  (∀ (src : CmdSrc) (s : State) (pkt : Bytes) (r : Region), Ready s src 0x0706 pkt → setOf pkt < 64 → regionNo pkt < 16 →
    s.isEmpty (setOf pkt) = false → Tab.get (s.set (setOf pkt)).regions none (regionNo pkt) = some r →
    Answers (.regionQuery src) s (fun t => Replied s t src pkt stOk 0 (resultOf [(0x10, 1, setOf pkt), (0x11, 1, regionNo pkt),
      (0x12, 1, 1), (0x17, 1, r.policy.code + 4 * ofBool r.sealedAck), (0x18, 6, r.first), (0x20, 6, r.blocks)]))) ∧
  (∀ (src : CmdSrc) (s : State) (pkt : Bytes), Ready s src 0x0801 pkt →
    Answers (.faultRead src) s (fun t => Replied s t src pkt stOk 0 (resultOf [(0x10, 1, s.flt.first.source.toNat),
      (0x11, 1, s.flt.first.level.code), (0x12, 1, s.flt.first.detail.toNat),
      (0x13, 1, ofBool s.flt.first.valid + 2 * ofBool s.flt.first.injected + 4 * ofBool s.flt.first.overflow + 8 * ofBool s.flt.first.acked),
      (0x18, 8, s.flt.first.fixNs.toNat), (0x24, 1, (byteAt pkt 0x10).toNat), (0x28, 4, (s.src (byteAt pkt 0x10)).count)]))) ∧
  (∀ (src : CmdSrc) (s : State) (pkt : Bytes), Ready s src 0x0902 pkt → (byteAt pkt 0x10).toNat < Config.banks s.part →
    (byteAt pkt 0x10).toNat < 17 →
    Answers (.calQuery src) s (fun t => ∃ now : Byte, Replied s t src pkt stOk 0 (resultOf
      [(0x14, 4, selShown (s.bank (BitVec.ofNat 5 (byteAt pkt 0x10).toNat)).sel.toNat),
       (0x18, 8, (s.bank (BitVec.ofNat 5 (byteAt pkt 0x10).toNat)).timeNs.toNat),
       (0x20, 1, signedNat 8 (s.bank (BitVec.ofNat 5 (byteAt pkt 0x10).toNat)).tempC), (0x21, 1, now.toNat),
       (0x22, 1, (s.bank (BitVec.ofNat 5 (byteAt pkt 0x10).toNat)).origin.toNat)]))) ∧
  (∀ (src : CmdSrc) (s : State) (pkt : Bytes), Ready s src 0x0A01 pkt → byteAt pkt 0x2C = 1 → leAt pkt 0x20 8 % 64 = 0 →
    256 ≤ bufLen pkt 0x20 → leAt pkt 0x20 8 + bufLen pkt 0x20 ≤ 65536 → bufLen pkt 0x20 ≤ 2 ^ 20 →
    (byteAt pkt 0x2D = 0 ∧ byteAt pkt 0x2E = 0 ∧ byteAt pkt 0x2F = 0) →
    Answers (.lifeRead src) s (fun t =>
      t.interp.scratch = Memory.writeBytes s.interp.scratch (leAt pkt 0x20 8) s.log.life.payload ∧
      Replied s t src pkt stOk 0 (resultOf [(0x18, 8, s.log.life.fixNs.toNat), (0x20, 8, s.log.life.seq)]))) ∧
  (∀ (src : CmdSrc) (s : State) (pkt : Bytes), Ready s src 0x0B03 pkt → Config.hasPair s.part = true →
    Answers (.pairQuery src) s (fun t => Replied s t src pkt stOk 0
      (resultOf [(0x10, 1, s.pair.state.code), (0x11, 1, ofBool s.pair.side), (0x12, 1, s.pair.lanesUp)]))) ∧
  (∀ (src : CmdSrc) (s : State) (pkt : Bytes), Ready s src 0x0C03 pkt →
    Answers (.fwQuery src) s (fun t => Replied s t src pkt stOk 0 (resultOf [(0x10, 4, s.sec.fwRunning.toNat),
      (0x14, 4, if s.stageSlot.staged.isEmpty then 0 else s.stageSlot.version.toNat), (0x18, 4, s.sec.rollback),
      (0x1C, 1, s.stageState)]))) ∧
  (∀ (src : CmdSrc) (s : State) (pkt : Bytes), Ready s src 0x0D02 pkt →
    Answers (.diagEcho src) s (fun t => Replied s t src pkt stOk 0 (sliceAt pkt 0x10 112)))

/-! ## Command packets: sets, profiles, charts -/

/-- The set commands on the states that R35 allows them in (R34, R41, R42, R86, R251 to R253): SET_CREATE makes an EMPTY set STOPPED with
the attributes named and an incarnation one above the last; SET_MODIFY changes the attributes selected, a new profile giving a new
incarnation and no regions, and raises REV for a parameter that changes; SET_START opens admission; SET_STOP closes it, the set DRAINING,
here with no record of it in the journal; a drained set is STOPPED; SET_DELETE leaves it EMPTY; SET_RECOVER and SET_READ_PRESERVED
start as deferred commands. Other sets stay as they are. -/
def Obligations.SetCommands : Prop :=
  (∀ (src : CmdSrc) (s : State) (pkt : Bytes), Ready s src 0x0101 pkt → setOf pkt < 64 →
    (∀ f ∈ s.attrFaults pkt 0x1FF true false, f.1 = false) → s.membersAbsent (membersOf pkt) = false →
    (s.set (setOf pkt)).state = .empty →
    Answers (.setCreate src) s (fun t =>
      (t.set (setOf pkt)).state = .stopped ∧ (t.set (setOf pkt)).members = membersOf pkt ∧
      (t.set (setOf pkt)).profile = BitVec.ofNat 6 (byteAt pkt 0x14).toNat ∧
      (t.set (setOf pkt)).stripeCount = BitVec.ofNat 48 (leAt pkt 0x20 6) ∧
      (t.set (setOf pkt)).current.slot = BitVec.ofNat 7 (byteAt pkt 0x16).toNat ∧ (t.set (setOf pkt)).current.rev = 0 ∧
      (t.set (setOf pkt)).fragLog2 + 12 = (if (byteAt pkt 0x15).toNat = 0 then 16 else (byteAt pkt 0x15).toNat) ∧
      (t.set (setOf pkt)).writePolicy = policyOf (byteAt pkt 0x17).toNat ∧
      (t.set (setOf pkt)).sealedAck = bitOf (byteAt pkt 0x17).toNat 2 ∧ (t.set (setOf pkt)).paritySeal = bitOf (byteAt pkt 0x17).toNat 3 ∧
      (t.set (setOf pkt)).drThreshUs = BitVec.ofNat 32 (if leAt pkt 0x18 4 = 0 then 40 else leAt pkt 0x18 4) ∧
      (t.set (setOf pkt)).incarnation = BitVec.ofNat 32 ((Tab.get s.incarnations 0 (setOf pkt) + 1) % 2 ^ 32) ∧
      (∀ j, j ≠ setOf pkt → t.set j = s.set j) ∧ Replied s t src pkt stOk 0 (setEcho pkt (t.set (setOf pkt))))) ∧
  (∀ (src : CmdSrc) (s : State) (pkt : Bytes), Ready s src 0x0102 pkt → (∀ f ∈ s.modifyFaults pkt, f.1 = false) →
    (byteAt pkt 0x11).toNat = 0 → leAt pkt 0x12 2 = 2 → (s.set (setOf pkt)).state = .stopped → (s.set (setOf pkt)).replaying = false →
    (s.set (setOf pkt)).pending = none → (s.set (setOf pkt)).queued = none →
    BitVec.ofNat 6 (byteAt pkt 0x14).toNat ≠ (s.set (setOf pkt)).profile →
    Answers (.setModify src) s (fun t =>
      (t.set (setOf pkt)).profile = BitVec.ofNat 6 (byteAt pkt 0x14).toNat ∧
      (t.set (setOf pkt)).incarnation = BitVec.ofNat 32 ((Tab.get s.incarnations 0 (setOf pkt) + 1) % 2 ^ 32) ∧
      (t.set (setOf pkt)).regions = [] ∧ (t.set (setOf pkt)).extents = [] ∧
      (t.set (setOf pkt)).members = (s.set (setOf pkt)).members ∧ (t.set (setOf pkt)).stripeCount = (s.set (setOf pkt)).stripeCount ∧
      (t.set (setOf pkt)).current = (s.set (setOf pkt)).current ∧
      (∀ j, j ≠ setOf pkt → t.set j = s.set j) ∧ Replied s t src pkt stOk 0 (setEcho pkt (t.set (setOf pkt))))) ∧
  (∀ (src : CmdSrc) (s : State) (pkt : Bytes), Ready s src 0x0102 pkt → (∀ f ∈ s.modifyFaults pkt, f.1 = false) →
    (byteAt pkt 0x11).toNat = 0 → leAt pkt 0x12 2 = 1 → (s.set (setOf pkt)).state = .stopped → (s.set (setOf pkt)).replaying = false →
    (s.set (setOf pkt)).pending = none → (s.set (setOf pkt)).queued = none → s.membersAbsent (membersOf pkt) = false →
    Answers (.setModify src) s (fun t =>
      t.set (setOf pkt) = { s.set (setOf pkt) with members := membersOf pkt } ∧
      (∀ j, j ≠ setOf pkt → t.set j = s.set j) ∧ Replied s t src pkt stOk 0 (setEcho pkt (t.set (setOf pkt))))) ∧
  (∀ (src : CmdSrc) (s : State) (pkt : Bytes) (i : Nat), Ready s src 0x0102 pkt → (∀ f ∈ s.modifyFaults pkt, f.1 = false) →
    (byteAt pkt 0x11).toNat = 1 → i < 8 → leAt pkt 0x12 2 = 2 ^ i → (s.set (setOf pkt)).state = .stopped →
    (s.set (setOf pkt)).replaying = false → (s.set (setOf pkt)).pending = none → (s.set (setOf pkt)).queued = none →
    Tab.get (s.set (setOf pkt)).current.params 0 i ≠ BitVec.ofNat 64 (leAt pkt (0x40 + 8 * i) 8) →
    Answers (.setModify src) s (fun t =>
      Tab.get (t.set (setOf pkt)).current.params 0 i = BitVec.ofNat 64 (leAt pkt (0x40 + 8 * i) 8) ∧
      (∀ j, j ≠ i → Tab.get (t.set (setOf pkt)).current.params 0 j = Tab.get (s.set (setOf pkt)).current.params 0 j) ∧
      (t.set (setOf pkt)).current.rev = (s.set (setOf pkt)).current.rev + 1 ∧
      (t.set (setOf pkt)).current.retire = (s.set (setOf pkt)).current.retire ∧
      (∀ j, j ≠ setOf pkt → t.set j = s.set j))) ∧
  (∀ (src : CmdSrc) (s : State) (pkt : Bytes), Ready s src 0x0103 pkt → setOf pkt < 64 →
    (∀ f ∈ s.startFaults (setOf pkt), f.1 = false) → (s.set (setOf pkt)).replaying = false →
    ((s.set (setOf pkt)).state = .stopped ∨
      (s.set (setOf pkt)).state = .draining ∧ (s.pair.state ≠ .paired ∨ (s.set (setOf pkt)).side = s.pair.side)) →
    Answers (.setStart src) s (fun t =>
      (t.set (setOf pkt)).state = .running ∧ (t.set (setOf pkt)).side = s.pair.side ∧
      (t.set (setOf pkt)).incarnation = (s.set (setOf pkt)).incarnation ∧ (t.set (setOf pkt)).current = (s.set (setOf pkt)).current ∧
      (∀ j, j ≠ setOf pkt → t.set j = s.set j) ∧ Replied s t src pkt stOk 0 (setBrief (setOf pkt) (s.set (setOf pkt))))) ∧
  (∀ (src : CmdSrc) (s : State) (pkt : Bytes), Ready s src 0x0104 pkt → setOf pkt < 64 → (s.set (setOf pkt)).state = .running →
    (s.set (setOf pkt)).replaying = false → (∀ r ∈ s.log.recs, r.set.toNat ≠ setOf pkt) →
    Answers (.setStop src) s (fun t =>
      t.set (setOf pkt) = { s.set (setOf pkt) with state := .draining } ∧ (∀ j, j ≠ setOf pkt → t.set j = s.set j) ∧
      (∀ d ∈ t.scc.detectors, d.set.toNat ≠ setOf pkt) ∧ t.srcQueue src = (s.srcQueue src).drop 1)) ∧
  (∀ (set : BitVec 6) (s : State), s.drained set.toNat = true →
    Answers (.setDrainComplete set) s (fun t => t.set set.toNat = { s.set set.toNat with state := .stopped } ∧
      (∀ j, j ≠ set.toNat → t.set j = s.set j))) ∧
  (∀ (src : CmdSrc) (s : State) (pkt : Bytes), Ready s src 0x0105 pkt → setOf pkt < 64 → (byteAt pkt 0x11).toNat < 2 →
    (s.set (setOf pkt)).replaying = false →
    ((s.set (setOf pkt)).state = .stopped ∨ (byteAt pkt 0x11).toNat = 1 ∧ (s.set (setOf pkt)).state = .preserved) →
    Answers (.setDelete src) s (fun t => (t.set (setOf pkt)).state = .empty ∧ (∀ j, j ≠ setOf pkt → t.set j = s.set j) ∧
      Tab.get t.incarnations 0 (setOf pkt) = Tab.get s.incarnations 0 (setOf pkt) ∧ t.srcQueue src = (s.srcQueue src).drop 1)) ∧
  (∀ (src : CmdSrc) (s : State) (pkt : Bytes), Ready s src 0x0106 pkt → setOf pkt < 64 → (s.set (setOf pkt)).state = .preserved →
    (s.set (setOf pkt)).replaying = false → (∀ r ∈ s.log.recs, r.set.toNat ≠ setOf pkt) →
    Answers (.setRecover src) s (fun t => src ∈ t.interp.busy ∧ t.recovering (setOf pkt) = true ∧
      (t.set (setOf pkt)).state = .preserved ∧ (t.set (setOf pkt)).resync = [] ∧ (∀ j, j ≠ setOf pkt → t.set j = s.set j))) ∧
  (∀ (src : CmdSrc) (s : State) (pkt : Bytes), Ready s src 0x0108 pkt → setOf pkt < 64 → (s.set (setOf pkt)).state = .preserved →
    (s.set (setOf pkt)).replaying = false → leAt pkt 0x14 2 = 1 → leAt pkt 0x18 6 < s.setBlocks (setOf pkt) →
    bufLen pkt 0x20 = 4096 → leAt pkt 0x20 8 % 64 = 0 → leAt pkt 0x20 8 + 4096 ≤ 65536 → byteAt pkt 0x2C = 1 →
    (byteAt pkt 0x2D = 0 ∧ byteAt pkt 0x2E = 0 ∧ byteAt pkt 0x2F = 0) → (∀ r ∈ s.log.recs, r.set.toNat ≠ setOf pkt) →
    (∀ d ∈ s.interp.deferred, d.src ≠ src) →
    Answers (.setReadPreserved src) s (fun t => src ∈ t.interp.busy ∧ (∃ d ∈ t.interp.deferred, d.src = src ∧ d.packet = pkt) ∧
      t.sets = s.sets))

/-- The profile and chart commands (R43, R44, R76 to R79, R84, R85, R97, R254): PROFILE_DEFINE and PROFILE_DELETE store and remove a
profile that no set names, whose entries leave the decode-matrix caches (R55); CHART_LOAD verifies the program in its buffer and stores it; CHART_TABLE_WRITE writes a table, created zero
filled, and drops its cached lines; CHART_DELETE removes what its mask selects; CHART_REVISE retires a member port of a set or
restores it; CHART_LOOKUP replies with the bearing that a lookup gives; CHART_FLUSH empties the table cache. -/
def Obligations.ProfileAndChartCommands : Prop :=
  (∀ (src : CmdSrc) (s : State) (pkt : Bytes) (c : CodeType), Ready s src 0x0201 pkt → setOf pkt < 64 →
    typeOf (byteAt pkt 0x11).toNat = some c → (∀ f ∈ (profileOf pkt c).fieldFaults, f.1 = false) →
    (∀ f ∈ (profileOf pkt c).comboFaults, f = none) → s.setsFree (fun a => decide (a.profile.toNat = setOf pkt)) = none →
    Answers (.profileDefine src) s (fun t =>
      t.profiles = Tab.set s.profiles none (setOf pkt) (some
        { typ := c, k := (byteAt pkt 0x12).toNat, par := (byteAt pkt 0x13).toNat, loc := (byteAt pkt 0x14).toNat }) ∧
      (∀ c, ∀ e ∈ (t.cluster c).cache, e.1.toNat ≠ setOf pkt) ∧ Replied s t src pkt stOk 0 (resultOf [(0x10, 1, setOf pkt)]))) ∧
  (∀ (src : CmdSrc) (s : State) (pkt : Bytes), Ready s src 0x0202 pkt → setOf pkt < 64 →
    s.setsFree (fun a => decide (a.profile.toNat = setOf pkt)) = none →
    Answers (.profileDelete src) s (fun t => t.profiles = Tab.set s.profiles none (setOf pkt) none ∧
      (∀ c, ∀ e ∈ (t.cluster c).cache, e.1.toNat ≠ setOf pkt) ∧
      Replied s t src pkt stOk 0 (resultOf [(0x10, 1, setOf pkt)]))) ∧
  (∀ (src : CmdSrc) (s : State) (pkt : Bytes), Ready s src 0x0301 pkt → slotOf pkt < 128 → loadCount pkt ≠ 0 → loadCount pkt ≤ 256 →
    4 * loadCount pkt ≤ bufLen pkt 0x20 → byteAt pkt 0x2C = 1 → leAt pkt 0x20 8 % 64 = 0 →
    leAt pkt 0x20 8 + bufLen pkt 0x20 ≤ 65536 → (byteAt pkt 0x2D = 0 ∧ byteAt pkt 0x2E = 0 ∧ byteAt pkt 0x2F = 0) →
    s.slotFree pkt = none → (Tab.get s.cht.progs none (slotOf pkt)).isSome = true →
    verifyProgram chartInsOk (codeOf (loadCount pkt) (Memory.readBytes s.interp.scratch (leAt pkt 0x20 8) (bufLen pkt 0x20))) = none →
    Answers (.chartLoad src) s (fun t =>
      Tab.get t.cht.progs none (slotOf pkt) =
        some (codeOf (loadCount pkt) (Memory.readBytes s.interp.scratch (leAt pkt 0x20 8) (bufLen pkt 0x20))) ∧
      (∀ j, j ≠ slotOf pkt → Tab.get t.cht.progs none j = Tab.get s.cht.progs none j) ∧ t.cht.tables = s.cht.tables)) ∧
  (∀ (src : CmdSrc) (s : State) (pkt : Bytes) (i : Nat), Ready s src 0x0301 pkt → slotOf pkt < 128 → loadCount pkt ≠ 0 →
    loadCount pkt ≤ 256 → 4 * loadCount pkt ≤ bufLen pkt 0x20 → byteAt pkt 0x2C = 1 → leAt pkt 0x20 8 % 64 = 0 →
    leAt pkt 0x20 8 + bufLen pkt 0x20 ≤ 65536 → (byteAt pkt 0x2D = 0 ∧ byteAt pkt 0x2E = 0 ∧ byteAt pkt 0x2F = 0) →
    s.slotFree pkt = none → (Tab.get s.cht.progs none (slotOf pkt)).isSome = true →
    verifyProgram chartInsOk (codeOf (loadCount pkt) (Memory.readBytes s.interp.scratch (leAt pkt 0x20 8) (bufLen pkt 0x20))) = some i →
    Answers (.chartLoad src) s (fun t => t.cht = s.cht ∧ Replied s t src pkt stBadField (BitVec.ofNat 8 i) [])) ∧
  (∀ (src : CmdSrc) (s : State) (pkt : Bytes), Ready s src 0x0302 pkt → (∀ f ∈ s.tableFaults src pkt, f.1 = false) →
    leAt pkt 0x20 8 % 64 = 0 → byteAt pkt 0x2C = 1 → s.slotFree pkt = none → s.tableOf pkt = none →
    s.storeOver (leAt pkt 0x14 4) = false →
    Answers (.chartTableWrite src) s (fun t =>
      t.tableOf pkt = some
        { width := BitVec.ofNat 2 (byteAt pkt 0x12).toNat, size := leAt pkt 0x14 4,
          bytes := Memory.writeBytes [] (leAt pkt 0x18 4) (Memory.readBytes s.interp.scratch (leAt pkt 0x20 8) (bufLen pkt 0x20)) } ∧
      (∀ l ∈ t.cht.cached, l.1 ≠ tableKey pkt) ∧ t.cht.progs = s.cht.progs)) ∧
  (∀ (src : CmdSrc) (s : State) (pkt : Bytes) (u : STable), Ready s src 0x0302 pkt → (∀ f ∈ s.tableFaults src pkt, f.1 = false) →
    leAt pkt 0x20 8 % 64 = 0 → byteAt pkt 0x2C = 1 → s.slotFree pkt = none → s.tableOf pkt = some u →
    Answers (.chartTableWrite src) s (fun t =>
      t.tableOf pkt = some
        { u with
          bytes := Memory.writeBytes u.bytes (leAt pkt 0x18 4) (Memory.readBytes s.interp.scratch (leAt pkt 0x20 8) (bufLen pkt 0x20)) } ∧
      (∀ l ∈ t.cht.cached, l.1 ≠ tableKey pkt))) ∧
  (∀ (src : CmdSrc) (s : State) (pkt : Bytes), Ready s src 0x0303 pkt → slotOf pkt < 128 → (byteAt pkt 0x11).toNat ≠ 0 →
    (byteAt pkt 0x11).toNat < 32 → s.slotFree pkt = none →
    Answers (.chartDelete src) s (fun t =>
      Tab.get t.cht.progs none (slotOf pkt) = (if bitOf (byteAt pkt 0x11).toNat 0 then none else Tab.get s.cht.progs none (slotOf pkt)) ∧
      (∀ n, n < 4 → Tab.get t.cht.tables none (4 * slotOf pkt + n) =
        (if bitOf (byteAt pkt 0x11).toNat (n + 1) then none else Tab.get s.cht.tables none (4 * slotOf pkt + n))) ∧
      (∀ k, k / 4 ≠ slotOf pkt → Tab.get t.cht.tables none k = Tab.get s.cht.tables none k) ∧
      Replied s t src pkt stOk 0 (resultOf [(0x10, 1, slotOf pkt)]))) ∧
  (∀ (src : CmdSrc) (s : State) (pkt : Bytes) (a : ArraySet), Ready s src 0x0304 pkt → setOf pkt < 64 → (byteAt pkt 0x11).toNat < 2 →
    s.portPresent (byteAt pkt 0x12) = true → (s.set (setOf pkt)).state ∈ [SetState.stopped, .running, .draining] →
    (s.set (setOf pkt)).replaying = false → s.tryRevise pkt = .ok a →
    Answers (.chartRevise src) s (fun t => t.set (setOf pkt) = a ∧ (∀ j, j ≠ setOf pkt → t.set j = s.set j) ∧
      ((byteAt pkt 0x11).toNat = 1 → (t.port (byteAt pkt 0x12)).failed = false) ∧
      ((byteAt pkt 0x11).toNat = 0 → t.ports = s.ports))) ∧
  (∀ (src : CmdSrc) (s : State) (pkt : Bytes) (prog : SProg) (p : Byte) (dba : Nat) (req : LookupReq) (c : SCtx),
    Ready s src 0x0305 pkt → setOf pkt < 64 → (byteAt pkt 0x11).toNat = 0 → s.isEmpty (setOf pkt) = false →
    (byteAt pkt 0x12).toNat < (s.setProfile (s.set (setOf pkt))).width → leAt pkt 0x18 6 < (s.set (setOf pkt)).stripeCount.toNat →
    s.slotProg (s.set (setOf pkt)).current.slot.toNat = some prog →
    req = lookupReq (BitVec.ofNat 6 (setOf pkt)) (s.set (setOf pkt)).current (leAt pkt 0x18 6) (byteAt pkt 0x12).toNat .hostIo →
    c = (s.lookupCtx req prog).run (s.chartPtest (s.set (setOf pkt)) (s.set (setOf pkt)).current) 256 →
    s.ctxBearing req c = .at p dba →
    Answers (.chartLookup src) s (fun t => Replied s t src pkt stOk 0 (resultOf [(0x14, 1, p.toNat), (0x16, 2, c.steps),
      (0x20, 8, dba), (0x28, 2, (s.set (setOf pkt)).current.rev.toNat)]))) ∧
  (∀ (s : State), s.haltClosed = false → s.gcs.phase ≠ .dock →
    Answers .chartFlush s (fun t => t = s.withCht { s.cht with cached := [] }))

/-! ## Command packets: ports, watches, ranges and services -/

/-- The port and group commands (R255, R256, R318 to R320, R335, R337 to R342), on ports with no command outstanding: PORT_CONFIG stores
GEN_MAX and the width and merges the ports that lend their lanes; PORT_FAIL fails a port with detail 0x16, once; PORT_RELEASE empties a
CONTAINED or ERROR port and leaves any other; PORT_RESET resets a port and a CONTAINED port refuses it; PORT_ADMIN hands its entry to
the drive of a READY port; GROUP_POWER drains a powered group or wakes a dark one, and answers at once for a group already there. -/
def Obligations.PortCommands : Prop :=
  (∀ (src : CmdSrc) (s : State) (pkt : Bytes), Ready s src 0x0402 pkt → s.portPresent (portOf pkt) = true →
    (byteAt pkt 0x11).toNat ∈ [1, 2, 4] → (portOf pkt).toNat % (byteAt pkt 0x11).toNat = 0 → (byteAt pkt 0x12).toNat ∈ [1, 2, 3] →
    (∀ q ∈ quadPorts (portOf pkt), s.memberOf q = none ∧ (s.port q).state = .empty ∧ s.outstanding q = []) →
    Answers (.portConfig src) s (fun t =>
      (t.port (portOf pkt)).genMax = BitVec.ofNat 2 (byteAt pkt 0x12).toNat ∧
      (t.port (portOf pkt)).width = BitVec.ofNat 3 (byteAt pkt 0x11).toNat ∧
      (∀ q ∈ quadPorts (portOf pkt),
        (t.port q).state = (if q.toNat % (byteAt pkt 0x11).toNat = 0 then .empty else .merged)) ∧
      (∀ q : Byte, q.toNat / 4 ≠ (portOf pkt).toNat / 4 → t.port q = s.port q))) ∧
  (∀ (src : CmdSrc) (s : State) (pkt : Bytes), Ready s src 0x0403 pkt → s.portPresent (portOf pkt) = true →
    (s.port (portOf pkt)).state ≠ .merged → (s.port (portOf pkt)).failed = false → s.outstanding (portOf pkt) = [] →
    Answers (.portFail src) s (fun t => t.port (portOf pkt) = { s.port (portOf pkt) with failed := true, catchup := false } ∧
      (∀ q, q ≠ portOf pkt → t.port q = s.port q) ∧ t.srcQueue src = (s.srcQueue src).drop 1)) ∧
  (∀ (src : CmdSrc) (s : State) (pkt : Bytes), Ready s src 0x0404 pkt → s.portPresent (portOf pkt) = true →
    Answers (.portRelease src) s (fun t =>
      t.port (portOf pkt) = (if (s.port (portOf pkt)).state = .contained ∨ (s.port (portOf pkt)).state = .error then
        (s.port (portOf pkt)).leave .empty else s.port (portOf pkt)) ∧
      (∀ q, q ≠ portOf pkt → t.port q = s.port q) ∧ Replied s t src pkt stOk 0 (resultOf [(0x10, 1, (portOf pkt).toNat)]))) ∧
  (∀ (src : CmdSrc) (s : State) (pkt : Bytes), Ready s src 0x0405 pkt → s.portPresent (portOf pkt) = true →
    (s.port (portOf pkt)).state ∈ [PortState.ready, .empty, .error] → (s.port (portOf pkt)).failed = true →
    s.outstanding (portOf pkt) = [] →
    Answers (.portReset src) s (fun t => (t.port (portOf pkt)).state = .resetting ∧ (t.port (portOf pkt)).resetSrc = some src ∧
      (t.port (portOf pkt)).shutdownSent = decide ((s.port (portOf pkt)).state ≠ .ready) ∧ src ∈ t.interp.busy ∧
      (∀ q, q ≠ portOf pkt → t.port q = s.port q))) ∧
  (∀ (src : CmdSrc) (s : State) (pkt : Bytes), Ready s src 0x0405 pkt → s.portPresent (portOf pkt) = true →
    (s.port (portOf pkt)).state = .contained → s.memberOf (portOf pkt) = none →
    Answers (.portReset src) s (fun t => t.ports = s.ports ∧ Replied s t src pkt stContained 0x10 [])) ∧
  (∀ (src : CmdSrc) (s : State) (pkt : Bytes), Ready s src 0x0406 pkt → s.portPresent (portOf pkt) = true →
    (s.port (portOf pkt)).state = .ready → adminOp pkt ∈ [0x02, 0x06, 0x0A] → leAt pkt 0x20 8 % 64 = 0 →
    bufLen pkt 0x20 ≤ 4096 → leAt pkt 0x20 8 + bufLen pkt 0x20 ≤ 65536 → byteAt pkt 0x2C = 1 →
    (byteAt pkt 0x2D = 0 ∧ byteAt pkt 0x2E = 0 ∧ byteAt pkt 0x2F = 0) →
    Answers (.portAdmin src) s (fun t => (t.port (portOf pkt)).adminSrc = some src ∧ src ∈ t.interp.busy ∧
      t.out = .adminCmd (portOf pkt) (adminEntry pkt) [] :: s.out ∧ t.nextId = s.nextId + 1)) ∧
  (∀ (src : CmdSrc) (s : State) (pkt : Bytes), Ready s src 0x0407 pkt → groupNo pkt < Config.groups s.part →
    (byteAt pkt 0x11).toNat = 0 → (byteAt pkt 0x12).toNat < 2 → leAt pkt 0x14 4 ≤ 60000 → (s.group (groupNo pkt)).state = .powered →
    Answers (.groupPower src) s (fun t => t.group (groupNo pkt) =
        { s.group (groupNo pkt) with
          state := .draining, force := bitOf (byteAt pkt 0x12).toNat 0, leftovers := 0, src := some src } ∧ src ∈ t.interp.busy)) ∧
  (∀ (src : CmdSrc) (s : State) (pkt : Bytes), Ready s src 0x0407 pkt → groupNo pkt < Config.groups s.part →
    (byteAt pkt 0x11).toNat = 1 → (byteAt pkt 0x12).toNat < 2 → leAt pkt 0x14 4 ≤ 60000 → (s.group (groupNo pkt)).state = .dark →
    Answers (.groupPower src) s (fun t => t.group (groupNo pkt) =
        { s.group (groupNo pkt) with state := .waking, pwren := true, leftovers := 0, src := some src } ∧ src ∈ t.interp.busy)) ∧
  (∀ (src : CmdSrc) (s : State) (pkt : Bytes), Ready s src 0x0407 pkt → groupNo pkt < Config.groups s.part →
    (byteAt pkt 0x11).toNat = 1 → (byteAt pkt 0x12).toNat < 2 → leAt pkt 0x14 4 ≤ 60000 → (s.group (groupNo pkt)).state = .powered →
    Answers (.groupPower src) s (fun t => t.portGroups = s.portGroups ∧
      Replied s t src pkt stOk 0 (resultOf [(0x10, 1, groupNo pkt)])))

/-- The watch, range and region commands (R151, R155, R257, R258, R298, R307, R311, R312): WATCH_SET_TOD keeps its value for the next
edge where FIX discipline is on, and refuses a value that is no whole second with 0xDB, detail 0x02; WATCH_SET_LENGTH takes its length
from the next whole second on; CLEAN_RANGE with no record in its range replies and INVAL_RANGE walks; DISCARD_RANGE drops every line
of its range; a range command replies when its two walks have ended; REGION_SET stores or removes a region of a STOPPED set. -/
def Obligations.WatchRangeAndRegionCommands : Prop :=
  (∀ (src : CmdSrc) (s : State) (pkt : Bytes), Ready s src 0x0601 pkt → leAt pkt 0x18 8 % 1000000000 = 0 → s.wch.todSrc = none →
    s.regBit Reg.wchCtl 0 = true →
    Answers (.watchSetTod src) s (fun t =>
      t.wch = { s.wch with tod := some (BitVec.ofNat 64 (leAt pkt 0x18 8)), todArrival := s.wch.fixNs, todSrc := some src } ∧
      src ∈ t.interp.busy)) ∧
  (∀ (src : CmdSrc) (s : State) (pkt : Bytes), Ready s src 0x0601 pkt → leAt pkt 0x18 8 % 1000000000 ≠ 0 →
    Answers (.watchSetTod src) s (fun t => t.wch = s.wch ∧ s.Faulted t 0xDB 0x02 ∧ t.srcQueue src = (s.srcQueue src).drop 1)) ∧
  (∀ (src : CmdSrc) (s : State) (pkt : Bytes), Ready s src 0x0602 pkt → s.lengthBad (leAt pkt 0x14 4) = false →
    (∀ j, j < 64 → (s.set j).state = .empty) →
    Answers (.watchSetLength src) s (fun t =>
      t.wch = { s.wch with nextLength := some (leAt pkt 0x14 4, BitVec.ofNat 64 s.nextSecond) } ∧
      Replied s t src pkt stOk 0 (resultOf [(0x18, 8, s.nextSecond)]))) ∧
  (∀ (src : CmdSrc) (s : State) (pkt : Bytes), Ready s src 0x0701 pkt → (∀ f ∈ s.rangeFields pkt, f.1 = false) →
    (s.set (setOf pkt)).state ∈ [SetState.running, .draining, .stopped] → (s.set (setOf pkt)).replaying = false →
    s.log.recs = [] → s.interp.deferred = [] →
    Answers (.cleanRange src) s (fun t => t.scc = s.scc ∧ t.interp.deferred = [] ∧
      Replied s t src pkt stOk 0 (resultOf [(0x28, 8, 0)]))) ∧
  (∀ (src : CmdSrc) (s : State) (pkt : Bytes), Ready s src 0x0702 pkt → (∀ f ∈ s.rangeFields pkt, f.1 = false) →
    (s.set (setOf pkt)).state ∈ [SetState.running, .draining, .stopped] → (s.set (setOf pkt)).replaying = false →
    s.log.recs = [] → s.interp.deferred = [] →
    Answers (.invalRange src) s (fun t => src ∈ t.interp.busy ∧ ∃ d, t.interp.deferred = [d] ∧ d.src = src ∧ d.walks = 2 ∧
      t.scc = s.scc.invalidate (fun l => s.inRange (rangeOf pkt).1 (rangeOf pkt).2.1 (rangeOf pkt).2.2 l.key && l.visible &&
        decide (l.state ≠ .dirty)))) ∧
  (∀ (src : CmdSrc) (s : State) (pkt : Bytes), Ready s src 0x0703 pkt → (∀ f ∈ s.rangeFields pkt, f.1 = false) →
    (s.set (setOf pkt)).state = .stopped → (s.set (setOf pkt)).replaying = false → s.interp.deferred = [] →
    Answers (.discardRange src) s (fun t => src ∈ t.interp.busy ∧ (∃ d, t.interp.deferred = [d] ∧ d.src = src ∧ d.walks = 2) ∧
      t.scc.lines = (s.scc.invalidate (fun l => s.inRange (rangeOf pkt).1 (rangeOf pkt).2.1 (rangeOf pkt).2.2 l.key && l.visible)).lines ∧
      (∀ x ∈ t.scc.detectors, x.set.toNat ≠ setOf pkt))) ∧
  (∀ (src : CmdSrc) (s : State) (d : Deferred), s.interp.deferred = [d] → d.src = src → opcodeOf d.packet = 0x0702 → d.walks = 1 →
    d.count2 = 1 → d.waitWrites = [] → s.scc.lines = [] →
    Answers (.rangeWalkEnd src) s (fun t => t.interp.deferred = [] ∧ t.srcQueue src = (s.srcQueue src).drop 1)) ∧
  (∀ (src : CmdSrc) (s : State) (pkt : Bytes), Ready s src 0x0705 pkt → setOf pkt < 64 → regionNo pkt < 16 →
    (byteAt pkt 0x12).toNat = 1 → (byteAt pkt 0x17).toNat < 8 → s.regionBad pkt = false → (s.set (setOf pkt)).state = .stopped →
    (s.set (setOf pkt)).replaying = false →
    Answers (.regionSet src) s (fun t =>
      Tab.get (t.set (setOf pkt)).regions none (regionNo pkt) = some
        { policy := policyOf (byteAt pkt 0x17).toNat, sealedAck := bitOf (byteAt pkt 0x17).toNat 2, first := leAt pkt 0x18 6,
          blocks := leAt pkt 0x20 6 } ∧
      (∀ k, k ≠ regionNo pkt → Tab.get (t.set (setOf pkt)).regions none k = Tab.get (s.set (setOf pkt)).regions none k) ∧
      (t.set (setOf pkt)).liveRegions = (s.set (setOf pkt)).liveRegions ∧ (∀ j, j ≠ setOf pkt → t.set j = s.set j) ∧
      Replied s t src pkt stOk 0 (sliceAt pkt 0x10 112)))

/-- The fault, calibration, life, pair, firmware and diagnostic commands (R120, R259 to R262, R353, R354, R365, R366, R372, R373, R395,
R472, R477): FAULT_ACK arms the first-fault record again; FAULT_CLEAR closes a source or all; FAULT_LOAD_REACTION with COUNT 0 restores a
ROM program and otherwise loads a program that verifies; CAL_RUN queues its bank; LIFE_RECORD appends a life record; PAIR_JOIN enters
JOINING and PAIR_LEAVE from PAIRED ends SINGLE with its mirror dropped; FW_DOWNLOAD stages the bytes of its buffer; FW_COMMIT makes
the staged slot pending, and with ACTIVATE 1 restarts the management processor; DIAG_INJECT raises a fault marked injected. -/
def Obligations.ServiceCommands : Prop :=
  (∀ (src : CmdSrc) (s : State) (pkt : Bytes), Ready s src 0x0802 pkt → s.flt.first.valid = true → s.flt.first.acked = false →
    s.flt.first.fixNs.toNat = leAt pkt 0x18 8 →
    Answers (.faultAck src) s (fun t => t.flt = { s.flt with first := { s.flt.first with acked := true } } ∧
      (t.srcQueue src = (s.srcQueue src).drop 1))) ∧
  (∀ (src : CmdSrc) (s : State) (pkt : Bytes), Ready s src 0x0803 pkt → (byteAt pkt 0x11).toNat = 0 →
    sourceAssigned (byteAt pkt 0x10) = true →
    Answers (.faultClear src) s (fun t =>
      (t.src (byteAt pkt 0x10)).isOpen = false ∧ (t.src (byteAt pkt 0x10)).lastDetail = 0 ∧
      (t.src (byteAt pkt 0x10)).count = (s.src (byteAt pkt 0x10)).count ∧ (∀ n, n ≠ byteAt pkt 0x10 → t.src n = s.src n) ∧
      t.flt.first = s.flt.first)) ∧
  (∀ (src : CmdSrc) (s : State) (pkt : Bytes), Ready s src 0x0803 pkt → (byteAt pkt 0x11).toNat = 1 →
    Answers (.faultClear src) s (fun t => ∀ n, (t.src n).isOpen = false ∧ (t.src n).count = (s.src n).count)) ∧
  (∀ (src : CmdSrc) (s : State) (pkt : Bytes), Ready s src 0x0804 pkt → (byteAt pkt 0x10).toNat < 11 → (byteAt pkt 0x11).toNat < 4 →
    leAt pkt 0x12 2 = 0 → (∀ t, t < 4 → tableBytes pkt t = 0) → leAt pkt 0x30 8 % 64 = 0 →
    (∀ f ∈ bufFields src pkt 0x30 (2 ^ 20), f.1 = false) →
    Answers (.faultLoadReaction src) s (fun t => t.flt = { s.flt with loaded := Tab.set s.flt.loaded none (reactionSlot pkt) none } ∧
      Replied s t src pkt stOk 0 (resultOf [(0x10, 1, (byteAt pkt 0x10).toNat), (0x11, 1, (byteAt pkt 0x11).toNat)]))) ∧
  (∀ (src : CmdSrc) (s : State) (pkt : Bytes) (code : List Word32), Ready s src 0x0804 pkt → (byteAt pkt 0x10).toNat < 11 →
    (byteAt pkt 0x11).toNat < 4 → 0 < leAt pkt 0x12 2 → leAt pkt 0x12 2 ≤ 256 → (∀ t, t < 4 → tableBytes pkt t = 0) →
    leAt pkt 0x30 8 % 64 = 0 → programBytes (leAt pkt 0x12 2) ≤ bufLen pkt 0x30 → byteAt pkt 0x3C = 1 →
    (∀ f ∈ bufFields src pkt 0x30 (2 ^ 20), f.1 = false) → s.reactionTables (reactionSlot pkt) ≤ 2 ^ 18 →
    code = codeOf (leAt pkt 0x12 2) (Memory.readBytes s.interp.scratch (leAt pkt 0x30 8) (bufLen pkt 0x30)) →
    verifyProgram (reactionInsOk (fun _ => none)) code = none →
    Answers (.faultLoadReaction src) s (fun t =>
      t.flt = { s.flt with loaded := Tab.set s.flt.loaded none (reactionSlot pkt) (some { code := code, tables := [] }) })) ∧
  (∀ (src : CmdSrc) (s : State) (pkt : Bytes), Ready s src 0x0901 pkt → (byteAt pkt 0x10).toNat < 17 →
    (byteAt pkt 0x10).toNat < Config.banks s.part → s.bankLive (BitVec.ofNat 5 (byteAt pkt 0x10).toNat) = true →
    s.log.spare.isSome = true →
    Answers (.calRun src) s (fun t =>
      t.mon = { s.mon with queue := s.mon.queue ++ [(BitVec.ofNat 5 (byteAt pkt 0x10).toNat, src)] } ∧ src ∈ t.interp.busy)) ∧
  (∀ (src : CmdSrc) (s : State) (pkt : Bytes), Ready s src 0x0A02 pkt →
    Answers (.lifeRecord src) s (fun t =>
      t.log = s.appendLife.log ∧ (t.srcQueue src = (s.srcQueue src).drop 1))) ∧
  (∀ (src : CmdSrc) (s : State) (pkt : Bytes), Ready s src 0x0B01 pkt → (byteAt pkt 0x10).toNat < 2 → Config.hasPair s.part = true →
    s.setsFree (fun a => decide (a.state ≠ .stopped)) = none → s.pair.state = .single →
    Answers (.pairJoin src) s (fun t => t.pair.state = .joining ∧ t.pair.former = .single ∧
      t.pair.side = decide ((byteAt pkt 0x10).toNat = 1) ∧ t.pair.fenceOut = false ∧ t.pair.joinSrc = some src ∧ t.pair.mirror = [] ∧
      src ∈ t.interp.busy)) ∧
  (∀ (src : CmdSrc) (s : State) (pkt : Bytes), Ready s src 0x0B02 pkt → Config.hasPair s.part = true →
    s.setsFree (fun a => decide (a.state ≠ .stopped)) = none → s.pair.state = .paired →
    Answers (.pairLeave src) s (fun t => t.pair.state = .single ∧ t.pair.fenceOut = false ∧ t.pair.mirror = [] ∧ t.pair.token = false ∧
      t.srcQueue src = (s.srcQueue src).drop 1)) ∧
  (∀ (src : CmdSrc) (s : State) (pkt : Bytes), Ready s src 0x0C01 pkt → leAt pkt 0x14 4 = 0 → leAt pkt 0x18 4 ≤ 2 ^ 24 →
    leAt pkt 0x20 8 % 64 = 0 → bufLen pkt 0x20 ≤ leAt pkt 0x18 4 → leAt pkt 0x20 8 + bufLen pkt 0x20 ≤ 65536 →
    byteAt pkt 0x2C = 1 → (byteAt pkt 0x2D = 0 ∧ byteAt pkt 0x2E = 0 ∧ byteAt pkt 0x2F = 0) →
    Answers (.fwDownload src) s (fun t =>
      t.stageSlot.total = leAt pkt 0x18 4 ∧
      t.stageSlot.image = Memory.writeBytes [] 0 (Memory.readBytes s.interp.scratch (leAt pkt 0x20 8) (bufLen pkt 0x20)) ∧
      t.sec.slot (!s.sec.stage) = s.sec.slot (!s.sec.stage) ∧
      Replied s t src pkt stOk 0 (resultOf [(0x14, 4, bufLen pkt 0x20)]))) ∧
  (∀ (src : CmdSrc) (s : State) (pkt : Bytes), Ready s src 0x0C02 pkt → (byteAt pkt 0x10).toNat = 0 → s.stageSlot.covered = true →
    imageFault s.part s.sec s.stageSlot = none → s.gcs.phase ≠ .romRecovery →
    Answers (.fwCommit src) s (fun t => t.sec = { s.sec with pending := some s.sec.stage } ∧ Replied s t src pkt stOk 0
      (resultOf [(0x10, 4, s.sec.fwRunning.toNat), (0x14, 4, s.stageSlot.version.toNat)]))) ∧
  (∀ (src : CmdSrc) (s : State) (pkt : Bytes), Ready s src 0x0C02 pkt → (byteAt pkt 0x10).toNat = 1 → s.stageSlot.covered = true →
    imageFault s.part s.sec s.stageSlot = none → s.gcs.phase ≠ .romRecovery →
    Answers (.fwCommit src) s (fun t => t.sec = { s.sec with pending := some s.sec.stage } ∧ t.interp.fwRestart = some (some src) ∧
      src ∈ t.interp.busy)) ∧
  (∀ (src : CmdSrc) (s : State) (pkt : Bytes) (d : Byte), Ready s src 0x0C02 pkt → (byteAt pkt 0x10).toNat < 2 →
    s.stageSlot.covered = true → imageFault s.part s.sec s.stageSlot = some d →
    Answers (.fwCommit src) s (fun t => t.sec = s.sec ∧ Replied s t src pkt stDenied (if d = 2 then 4 else 3) [])) ∧
  (∀ (src : CmdSrc) (s : State) (pkt : Bytes), Ready s src 0x0D01 pkt → sourceAssigned (byteAt pkt 0x10) = true →
    (byteAt pkt 0x10 ≠ 0x02 ∧ byteAt pkt 0x10 ≠ 0x24 ∧ byteAt pkt 0x10 ≠ 0x25) → (byteAt pkt 0x11).toNat < 2 →
    s.sourceAbsent (byteAt pkt 0x10) = false →
    Answers (.diagInject src) s (fun t => s.Faulted t (byteAt pkt 0x10) (byteAt pkt 0x12) ∧ (t.src (byteAt pkt 0x10)).injected = true))

/-! ## The Siette machines -/

/-- The arithmetic, logic, compare and branch instructions of the Siette language (R88, R91, R92, R95), in whatever context each is the
next instruction: rd takes the value of R91 modulo 2^64, g0 stays zero and the program goes on; DIVM and MODR by zero end a lookup
with detail 0x01; a branch and a skip move the program counter and nothing else. -/
def Obligations.SietteInstructions : Prop :=
  (∀ (k : BitVec 7) (rd ra rb : GReg) (s : State), s.atIns k (.add rd ra rb) = true →
    Answers (.sAdd k rd ra rb) s (fun t => (s.ctx k.toNat).Wrote (t.ctx k.toNat) rd
      ((s.ctx k.toNat).get ra + (s.ctx k.toNat).get rb))) ∧
  (∀ (k : BitVec 7) (rd ra rb : GReg) (s : State), s.atIns k (.sub rd ra rb) = true →
    Answers (.sSub k rd ra rb) s (fun t => (s.ctx k.toNat).Wrote (t.ctx k.toNat) rd
      ((s.ctx k.toNat).get ra - (s.ctx k.toNat).get rb))) ∧
  (∀ (k : BitVec 7) (rd ra rb : GReg) (s : State), s.atIns k (.and rd ra rb) = true →
    Answers (.sAnd k rd ra rb) s (fun t => (s.ctx k.toNat).Wrote (t.ctx k.toNat) rd
      ((s.ctx k.toNat).get ra &&& (s.ctx k.toNat).get rb))) ∧
  (∀ (k : BitVec 7) (rd ra rb : GReg) (s : State), s.atIns k (.or rd ra rb) = true →
    Answers (.sOr k rd ra rb) s (fun t => (s.ctx k.toNat).Wrote (t.ctx k.toNat) rd
      ((s.ctx k.toNat).get ra ||| (s.ctx k.toNat).get rb))) ∧
  (∀ (k : BitVec 7) (rd ra rb : GReg) (s : State), s.atIns k (.xor rd ra rb) = true →
    Answers (.sXor k rd ra rb) s (fun t => (s.ctx k.toNat).Wrote (t.ctx k.toNat) rd
      ((s.ctx k.toNat).get ra ^^^ (s.ctx k.toNat).get rb))) ∧
  (∀ (k : BitVec 7) (rd ra rb : GReg) (s : State), s.atIns k (.shl rd ra rb) = true →
    Answers (.sShl k rd ra rb) s (fun t => (s.ctx k.toNat).Wrote (t.ctx k.toNat) rd
      ((s.ctx k.toNat).get ra <<< (((s.ctx k.toNat).get rb).toNat % 64)))) ∧
  (∀ (k : BitVec 7) (rd ra rb : GReg) (s : State), s.atIns k (.shr rd ra rb) = true →
    Answers (.sShr k rd ra rb) s (fun t => (s.ctx k.toNat).Wrote (t.ctx k.toNat) rd
      ((s.ctx k.toNat).get ra >>> (((s.ctx k.toNat).get rb).toNat % 64)))) ∧
  (∀ (k : BitVec 7) (rd ra rb : GReg) (s : State), s.atIns k (.mul rd ra rb) = true →
    Answers (.sMul k rd ra rb) s (fun t => (s.ctx k.toNat).Wrote (t.ctx k.toNat) rd
      ((s.ctx k.toNat).get ra * (s.ctx k.toNat).get rb))) ∧
  (∀ (k : BitVec 7) (rd ra rb : GReg) (s : State), s.atIns k (.mulhi rd ra rb) = true →
    Answers (.sMulhi k rd ra rb) s (fun t => (s.ctx k.toNat).Wrote (t.ctx k.toNat) rd
      (BitVec.ofNat 64 (((s.ctx k.toNat).get ra).toNat * ((s.ctx k.toNat).get rb).toNat / 2 ^ 64)))) ∧
  (∀ (k : BitVec 7) (rd ra rb : GReg) (s : State), s.atIns k (.mix rd ra rb) = true →
    Answers (.sMix k rd ra rb) s (fun t => (s.ctx k.toNat).Wrote (t.ctx k.toNat) rd
      (let x := (s.ctx k.toNat).get ra ^^^ ((s.ctx k.toNat).get rb * 0x9E3779B97F4A7C15)
       let y := (x ^^^ (x >>> 30)) * 0xBF58476D1CE4E5B9
       let z := (y ^^^ (y >>> 27)) * 0x94D049BB133111EB
       z ^^^ (z >>> 31)))) ∧
  (∀ (k : BitVec 7) (rd ra rb : GReg) (s : State), s.atIns k (.sltu rd ra rb) = true →
    Answers (.sSltu k rd ra rb) s (fun t => (s.ctx k.toNat).Wrote (t.ctx k.toNat) rd
      (if ((s.ctx k.toNat).get ra).toNat < ((s.ctx k.toNat).get rb).toNat then 1 else 0))) ∧
  (∀ (k : BitVec 7) (rd ra rb : GReg) (s : State), s.atIns k (.seq rd ra rb) = true →
    Answers (.sSeq k rd ra rb) s (fun t => (s.ctx k.toNat).Wrote (t.ctx k.toNat) rd
      (if (s.ctx k.toNat).get ra = (s.ctx k.toNat).get rb then 1 else 0))) ∧
  (∀ (k : BitVec 7) (rd ra : GReg) (imm : BitVec 18) (s : State), s.atIns k (.addi rd ra imm) = true →
    Answers (.sAddi k rd ra imm) s (fun t => (s.ctx k.toNat).Wrote (t.ctx k.toNat) rd
      ((s.ctx k.toNat).get ra + imm.signExtend 64))) ∧
  (∀ (k : BitVec 7) (rd ra : GReg) (imm : BitVec 18) (s : State), s.atIns k (.andi rd ra imm) = true →
    Answers (.sAndi k rd ra imm) s (fun t => (s.ctx k.toNat).Wrote (t.ctx k.toNat) rd
      ((s.ctx k.toNat).get ra &&& imm.setWidth 64))) ∧
  (∀ (k : BitVec 7) (rd ra : GReg) (imm : BitVec 18) (s : State), s.atIns k (.ori rd ra imm) = true →
    Answers (.sOri k rd ra imm) s (fun t => (s.ctx k.toNat).Wrote (t.ctx k.toNat) rd
      ((s.ctx k.toNat).get ra ||| imm.setWidth 64))) ∧
  (∀ (k : BitVec 7) (rd ra : GReg) (imm : BitVec 18) (s : State), s.atIns k (.xori rd ra imm) = true →
    Answers (.sXori k rd ra imm) s (fun t => (s.ctx k.toNat).Wrote (t.ctx k.toNat) rd
      ((s.ctx k.toNat).get ra ^^^ imm.setWidth 64))) ∧
  (∀ (k : BitVec 7) (rd ra : GReg) (imm : BitVec 18) (s : State), s.atIns k (.shli rd ra imm) = true →
    Answers (.sShli k rd ra imm) s (fun t => (s.ctx k.toNat).Wrote (t.ctx k.toNat) rd
      ((s.ctx k.toNat).get ra <<< imm.toNat))) ∧
  (∀ (k : BitVec 7) (rd ra : GReg) (imm : BitVec 18) (s : State), s.atIns k (.shri rd ra imm) = true →
    Answers (.sShri k rd ra imm) s (fun t => (s.ctx k.toNat).Wrote (t.ctx k.toNat) rd
      ((s.ctx k.toNat).get ra >>> imm.toNat))) ∧
  (∀ (k : BitVec 7) (rd : GReg) (lane : BitVec 2) (imm : BitVec 16) (s : State), s.atIns k (.movi rd lane imm) = true →
    Answers (.sMovi k rd lane imm) s (fun t => (s.ctx k.toNat).Wrote (t.ctx k.toNat) rd
      (imm.setWidth 64 <<< (16 * lane.toNat)))) ∧
  (∀ (k : BitVec 7) (rd : GReg) (lane : BitVec 2) (imm : BitVec 16) (s : State), s.atIns k (.movk rd lane imm) = true →
    Answers (.sMovk k rd lane imm) s (fun t => (s.ctx k.toNat).Wrote (t.ctx k.toNat) rd
      (((s.ctx k.toNat).get rd &&& ~~~(0xFFFF#64 <<< (16 * lane.toNat))) ||| (imm.setWidth 64 <<< (16 * lane.toNat))))) ∧
  (∀ (k : BitVec 7) (rd rc ra rb : GReg) (s : State), s.atIns k (.sel rd rc ra rb) = true →
    Answers (.sSel k rd rc ra rb) s (fun t => (s.ctx k.toNat).Wrote (t.ctx k.toNat) rd
      (if (s.ctx k.toNat).get rc = 0 then (s.ctx k.toNat).get rb else (s.ctx k.toNat).get ra))) ∧
  (∀ (k : BitVec 7) (rd ra rb : GReg) (s : State), s.atIns k (.divm rd ra rb) = true → (s.ctx k.toNat).get rb ≠ 0 →
    Answers (.sDivm k rd ra rb) s (fun t => (s.ctx k.toNat).Wrote (t.ctx k.toNat) rd
      (BitVec.ofNat 64 (((s.ctx k.toNat).get ra).toNat / ((s.ctx k.toNat).get rb).toNat)))) ∧
  (∀ (k : BitVec 7) (rd ra rb : GReg) (s : State) (q : LookupReq), s.atIns k (.divm rd ra rb) = true → (s.ctx k.toNat).get rb = 0 →
    (s.ctx k.toNat).use = .lookup q →
    Answers (.sDivm k rd ra rb) s (fun t => (t.ctx k.toNat).ended = some (.fault 1 0) ∧ (t.ctx k.toNat).g = (s.ctx k.toNat).g)) ∧
  (∀ (k : BitVec 7) (rd ra rb : GReg) (s : State), s.atIns k (.modr rd ra rb) = true → (s.ctx k.toNat).get rb ≠ 0 →
    Answers (.sModr k rd ra rb) s (fun t => (s.ctx k.toNat).Wrote (t.ctx k.toNat) rd
      (BitVec.ofNat 64 (((s.ctx k.toNat).get ra).toNat % ((s.ctx k.toNat).get rb).toNat)))) ∧
  (∀ (k : BitVec 7) (rd ra rb : GReg) (s : State) (q : LookupReq), s.atIns k (.modr rd ra rb) = true → (s.ctx k.toNat).get rb = 0 →
    (s.ctx k.toNat).use = .lookup q →
    Answers (.sModr k rd ra rb) s (fun t => (t.ctx k.toNat).ended = some (.fault 1 0) ∧ (t.ctx k.toNat).g = (s.ctx k.toNat).g)) ∧
  (∀ (k : BitVec 7) (ra : GReg) (off : BitVec 8) (s : State), s.atIns k (.bz ra off) = true →
    Answers (.sBz k ra off) s (fun t => (s.ctx k.toNat).Went (t.ctx k.toNat) (if (s.ctx k.toNat).get ra = 0 then off.toNat else 1))) ∧
  (∀ (k : BitVec 7) (ra : GReg) (off : BitVec 8) (s : State), s.atIns k (.bnz ra off) = true →
    Answers (.sBnz k ra off) s (fun t => (s.ctx k.toNat).Went (t.ctx k.toNat) (if (s.ctx k.toNat).get ra ≠ 0 then off.toNat else 1))) ∧
  (∀ (k : BitVec 7) (off : BitVec 8) (s : State), s.atIns k (.br off) = true →
    Answers (.sBr k off) s (fun t => (s.ctx k.toNat).Went (t.ctx k.toNat) off.toNat)) ∧
  (∀ (k : BitVec 7) (ra rb : GReg) (s : State), s.atIns k (.skeq ra rb) = true →
    Answers (.sSkeq k ra rb) s (fun t => (s.ctx k.toNat).Went (t.ctx k.toNat)
      (if (s.ctx k.toNat).get ra = (s.ctx k.toNat).get rb then 2 else 1))) ∧
  (∀ (k : BitVec 7) (ra rb : GReg) (s : State), s.atIns k (.skne ra rb) = true →
    Answers (.sSkne k ra rb) s (fun t => (s.ctx k.toNat).Went (t.ctx k.toNat)
      (if (s.ctx k.toNat).get ra ≠ (s.ctx k.toNat).get rb then 2 else 1))) ∧
  (∀ (k : BitVec 7) (ra rb : GReg) (s : State), s.atIns k (.sklt ra rb) = true →
    Answers (.sSklt k ra rb) s (fun t => (s.ctx k.toNat).Went (t.ctx k.toNat)
      (if ((s.ctx k.toNat).get ra).toNat < ((s.ctx k.toNat).get rb).toNat then 2 else 1)))

/-- What leaves the registers of a machine alone or reaches outside it (R72, R80, R91, R93 to R95, R120, R358 to R364): LDT reads an
entry of a table or ends with its detail, a word that failed its check being reported with 0x4C, and with 0x4D, the lookup ending, when
no copy of it is good (R81); PTEST reads what its context answers for a port; EMIT ends a lookup with its bearing, FAULT
with detail 0x08, and in a reaction raises 0x01; DONE leaves the Reaction Sequencer idle; CRR and CRW read and write the control
registers, RAISE logs an event; each action acts as R362 says on a valid argument, and an invalid one is a program fault, cause
0x04; REACTION_START starts the oldest queued reaction with its registers loaded. -/
def Obligations.SietteTablesAndActions : Prop :=
  (∀ (k : BitVec 7) (rd ra : GReg) (n w : BitVec 2) (words : TableWords) (s : State) (tb : STable), s.atIns k (.ldt rd ra n w) = true →
    Tab.get (s.ctx k.toNat).prog.tables none n.toNat = some tb → tb.width = w →
    ((s.ctx k.toNat).get ra).toNat < tb.size / 2 ^ w.toNat →
    words ≠ .allBad → Answers (.sLdt k rd ra n w words) s (fun t => (s.ctx k.toNat).Wrote (t.ctx k.toNat) rd
      (BitVec.ofNat 64 (leNat (Memory.readBytes tb.bytes (((s.ctx k.toNat).get ra).toNat * 2 ^ w.toNat) (2 ^ w.toNat)))))) ∧
  (∀ (k : BitVec 7) (rd ra : GReg) (n w : BitVec 2) (words : TableWords) (s : State) (tb : STable) (q : LookupReq), s.atIns k (.ldt rd ra n w) = true →
    (s.ctx k.toNat).use = .lookup q → Tab.get (s.ctx k.toNat).prog.tables none n.toNat = some tb → tb.width = w →
    tb.size / 2 ^ w.toNat ≤ ((s.ctx k.toNat).get ra).toNat →
    Answers (.sLdt k rd ra n w words) s (fun t => (t.ctx k.toNat).ended = some (.fault 2 0))) ∧
  (∀ (k : BitVec 7) (rd ra : GReg) (s : State), s.atIns k (.ptest rd ra) = true →
    Answers (.sPtest k rd ra) s (fun t => (s.ctx k.toNat).Wrote (t.ctx k.toNat) rd
      (s.ctxPtest (s.ctx k.toNat) (BitVec.ofNat 8 ((s.ctx k.toNat).get ra).toNat)))) ∧
  (∀ (k : BitVec 7) (ra rb : GReg) (s : State) (q : LookupReq), s.atIns k (.emit ra rb) = true → (s.ctx k.toNat).use = .lookup q →
    Answers (.sEmit k ra rb) s (fun t => (t.ctx k.toNat).ended =
      some (.emit (BitVec.ofNat 8 ((s.ctx k.toNat).get ra).toNat) ((s.ctx k.toNat).get rb)) ∧ (t.ctx k.toNat).g = (s.ctx k.toNat).g)) ∧
  (∀ (k : BitVec 7) (code : BitVec 14) (s : State) (q : LookupReq), s.atIns k (.fault code) = true → (s.ctx k.toNat).use = .lookup q →
    Answers (.sFault k code) s (fun t => (t.ctx k.toNat).ended = some (.fault 8 (BitVec.ofNat 8 code.toNat)))) ∧
  (∀ (code : BitVec 14) (s : State) (r : Reaction), s.atIns 64 (.fault code) = true → (s.ctx 64).use = .reaction r →
    Answers (.sFault 64 code) s (fun t => t.ctx 64 = SCtx.at0 ∧ s.Faulted t 0x01 8)) ∧
  (∀ (s : State) (r : Reaction), s.atIns 64 .done = true → (s.ctx 64).use = .reaction r →
    Answers (.sDone 64) s (fun t => t.ctx 64 = SCtx.at0 ∧ Only [.ctxs] s t)) ∧
  (∀ (k : BitVec 7) (rd : GReg) (i : BitVec 14) (s : State), s.atIns k (.crr rd i) = true →
    Answers (.sCrr k rd i) s (fun t => (s.ctx k.toNat).Wrote (t.ctx k.toNat) rd (s.controlReg (s.ctx k.toNat) i.toNat) ∧
      Only [.ctxs] s t)) ∧
  (∀ (k : BitVec 7) (ra : GReg) (i : BitVec 14) (s : State), s.atIns k (.crw ra i) = true → i.toNat < 16 →
    Answers (.sCrw k ra i) s (fun t => (s.ctx k.toNat).Went (t.ctx k.toNat) 1 ∧
      t.reg (Reg.fltScratch i.toNat) = (s.ctx k.toNat).get ra ∧ Only [.ctxs, .regs] s t)) ∧
  (∀ (k : BitVec 7) (ra : GReg) (s : State), s.atIns k (.crw ra 0x22) = true →
    Answers (.sCrw k ra 0x22) s (fun t => (t.ctx k.toNat).setSel = (s.ctx k.toNat).get ra ∧
      (t.ctx k.toNat).pc = (s.ctx k.toNat).pc + 1 ∧ Only [.ctxs] s t)) ∧
  (∀ (k : BitVec 7) (ra : GReg) (s : State), s.atIns k (.crw ra 0x24) = true →
    Answers (.sCrw k ra 0x24) s (fun t => (t.ctx k.toNat).srcSel = (s.ctx k.toNat).get ra ∧
      (t.ctx k.toNat).pc = (s.ctx k.toNat).pc + 1 ∧ Only [.ctxs] s t)) ∧
  (∀ (k : BitVec 7) (ra : GReg) (event : BitVec 14) (s : State) (r : Reaction), s.atIns k (.raise ra event) = true →
    (s.ctx k.toNat).use = .reaction r →
    Answers (.sRaise k ra event) s (fun t => (s.ctx k.toNat).Went (t.ctx k.toNat) 1 ∧ t.flt.revSeq = s.flt.revSeq + 1 ∧
      Tab.get t.flt.rev none ((s.flt.revSeq + 1).toNat % 16) = some
        { code := event, source := r.source, level := r.level, seq := s.flt.revSeq + 1, payload := (s.ctx k.toNat).get ra } ∧
      (event.getLsbD 13 = true → t.chn.alert = true))) ∧
  (∀ (k : BitVec 7) (ra : GReg) (s : State) (r : Reaction), s.atIns k (.act ra 1) = true → (s.ctx k.toNat).use = .reaction r →
    Answers (.actHalt k ra) s (fun t => t.gcs.halted = true)) ∧
  (∀ (k : BitVec 7) (ra : GReg) (s : State) (r : Reaction) (v : Nat), s.atIns k (.act ra 2) = true →
    (s.ctx k.toNat).use = .reaction r → ((s.ctx k.toNat).get ra).toNat = v → v < 64 → (s.set v).state ≠ .empty →
    Answers (.actPreserve k ra) s (fun t => (t.set v).state = .preserved ∧ (∀ j, j ≠ v → t.set j = s.set j))) ∧
  (∀ (k : BitVec 7) (ra : GReg) (s : State) (r : Reaction) (v : Nat), s.atIns k (.act ra 3) = true →
    (s.ctx k.toNat).use = .reaction r → ((s.ctx k.toNat).get ra).toNat = v → v < 64 → (s.set v).state = .running →
    (∀ x ∈ s.log.recs, x.set.toNat ≠ v) →
    Answers (.actStopSet k ra) s (fun t => t.set v = { s.set v with state := .draining } ∧ (∀ j, j ≠ v → t.set j = s.set j))) ∧
  (∀ (k : BitVec 7) (ra : GReg) (s : State) (r : Reaction) (p : Byte), s.atIns k (.act ra 4) = true →
    (s.ctx k.toNat).use = .reaction r → ((s.ctx k.toNat).get ra).toNat = p.toNat → s.portPresent p = true →
    (s.port p).state ≠ .merged → s.outstanding p = [] →
    Answers (.actFailPort k ra) s (fun t => (t.port p).failed = true ∧ (∀ q, q ≠ p → t.port q = s.port q))) ∧
  (∀ (k : BitVec 7) (ra : GReg) (s : State) (r : Reaction) (p : Bool), s.atIns k (.act ra 5) = true →
    (s.ctx k.toNat).use = .reaction r → ((s.ctx k.toNat).get ra).toNat = ofBool p → (s.hpu p).contained = false →
    Answers (.actContainHost k ra) s (fun t => (t.hpu p).contained = true ∧ (t.hpu p).cause = 9)) ∧
  (∀ (k : BitVec 7) (ra : GReg) (s : State) (r : Reaction) (n : Byte), s.atIns k (.act ra 6) = true →
    (s.ctx k.toNat).use = .reaction r → ((s.ctx k.toNat).get ra).toNat = n.toNat → sourceAssigned n = true →
    Answers (.actClear k ra) s (fun t => (t.src n).isOpen = false ∧ (t.src n).count = (s.src n).count ∧
      (∀ m, m ≠ n → t.src m = s.src m))) ∧
  (∀ (k : BitVec 7) (ra : GReg) (s : State) (r : Reaction), s.atIns k (.act ra 7) = true → (s.ctx k.toNat).use = .reaction r →
    Answers (.actLife k ra) s (fun t => t.log = s.appendLife.log)) ∧
  (∀ (ra : GReg) (s : State) (r : Reaction), s.atIns 64 (.act ra 2) = true → (s.ctx 64).use = .reaction r →
    64 ≤ ((s.ctx 64).get ra).toNat →
    Answers (.actPreserve 64 ra) s (fun t => t.ctx 64 = SCtx.at0 ∧ t.sets = s.sets ∧ s.Faulted t 0x01 4)) ∧
  (∀ (s : State) (r : Reaction) (rest : List Reaction), s.flt.queue = r :: rest → s.gcs.halted = false → (s.ctx 64).use = .idle →
    Answers .reactionStart s (fun t => t.flt.queue = rest ∧ (t.ctx 64).use = .reaction r ∧ (t.ctx 64).pc = 0 ∧
      (t.ctx 64).prog = s.reactionProgram r ∧ (t.ctx 64).get 1 = r.source.setWidth 64 ∧
      (t.ctx 64).get 2 = BitVec.ofNat 64 r.level.code ∧ (t.ctx 64).get 3 = r.detail.setWidth 64 ∧ (t.ctx 64).get 5 = r.fixNs ∧
      (t.ctx 64).get 6 = BitVec.ofNat 64 r.count ∧ (t.ctx 64).get 7 = BitVec.ofNat 64 r.nominal.code ∧
      (t.ctx 64).get 8 = BitVec.ofNat 64 r.port)) ∧
  (∀ (k : BitVec 7) (rd ra : GReg) (n w : BitVec 2) (words : TableWords) (s : State) (tb : STable) (q : LookupReq),
    s.atIns k (.ldt rd ra n w) = true → (s.ctx k.toNat).use = .lookup q → Tab.get (s.ctx k.toNat).prog.tables none n.toNat = some tb →
    tb.width = w → ((s.ctx k.toNat).get ra).toNat < tb.size / 2 ^ w.toNat →
    Answers (.sLdt k rd ra n w words) s (fun t =>
      (words = .cacheBad ∨ words = .mapBad → (t.src 0x4C).isOpen = true ∧ (t.src 0x4C).count = satTo 32 ((s.src 0x4C).count + 1)) ∧
      (words = .allBad → t.ctx k.toNat = SCtx.at0 ∧ (t.src 0x4D).isOpen = true)))

/-- A few words of the Siette language written out from the formats and opcodes of R90 and R91, and what each decodes to; words with
a reserved opcode or a zero field that is not zero decode to nothing. -/
def Obligations.SietteWordsOfTheSpec : Prop :=
  decodeSiette 0x25980FFF = some (.andi 6 6 0xFFF) ∧ decodeSiette 0x49C68000 = some (.divm 7 1 10) ∧
  decodeSiette 0xA0440000 = some (.ldt 1 1 0 0) ∧ decodeSiette 0x800C008F = some (.bz 3 143) ∧
  decodeSiette 0x20CFFFFF = some (.addi 3 3 0x3FFFF) ∧ decodeSiette 0xC0048000 = some (.emit 1 2) ∧
  decodeSiette 0xE8340022 = some (.crw 13 0x22) ∧ decodeSiette 0xE7800023 = some (.crr 14 0x23) ∧
  decodeSiette 0xE0200004 = some (.act 8 4) ∧ decodeSiette 0xEC202001 = some (.raise 8 0x2001) ∧
  decodeSiette 0xF0000000 = some .done ∧ decodeSiette 0x36440004 = some (.shri 9 1 4) ∧
  decodeSiette 0x84240015 = some (.bnz 9 21) ∧ decodeSiette 0x00000000 = none ∧ decodeSiette 0xF0000001 = none ∧
  decodeSiette 0x04000001 = none

/-- Every Siette instruction decodes from its own word (R90, R91): no bit of an operand is dropped; and a word that decodes is the
word of the instruction it decodes to, so that no two words mean one instruction. -/
def Obligations.SietteWordsRoundTrip : Prop :=
  (∀ i : SIns, decodeSiette (encodeSiette i) = some i) ∧
  (∀ (w : Word32) (i : SIns), decodeSiette w = some i → encodeSiette i = w)

/-! ## Deferred commands, buffers, lookups, coding, the caches -/

/-- The machinery behind commands (R98, R99, R214, R244, R248, R261, R285, R286, R349): a deferred command that waited is served as its own
row; a buffer that arrives is used, one that fails or times out is read once more and then ends its command with BUS_ERROR; the watchdog
ends every command and restarts the management processor; a lookup takes a free context, and its bearing sends its read to the drive. -/
def Obligations.CommandMachinery : Prop :=
  (∀ (src : CmdSrc) (s : State) (op : Nat) (pkt : Bytes) (c : Instr), s.frontPacket src = some pkt → opcodeOf pkt = op →
    (op, c) ∈ [(0x0106, .setRecover src), (0x0108, .setReadPreserved src), (0x0405, .portReset src), (0x0406, .portAdmin src),
      (0x0407, .groupPower src), (0x0601, .watchSetTod src), (0x0701, .cleanRange src), (0x0702, .invalRange src),
      (0x0703, .discardRange src), (0x0901, .calRun src), (0x0B01, .pairJoin src), (0x0B02, .pairLeave src), (0x0C02, .fwCommit src)] →
    exec (.deferredCommandStart src) s = exec c s) ∧
  (∀ (src : CmdSrc) (s : State) (pkt : Bytes), Ready s src 0x0407 pkt → groupNo pkt < Config.groups s.part →
    (byteAt pkt 0x11).toNat = 1 → (byteAt pkt 0x12).toNat < 2 → leAt pkt 0x14 4 ≤ 60000 → (s.group (groupNo pkt)).state = .dark →
    Answers (.deferredCommandStart src) s (fun t => (t.group (groupNo pkt)).state = .waking ∧ (t.group (groupNo pkt)).pwren = true ∧
      src ∈ t.interp.busy)) ∧
  (∀ (src : CmdSrc) (s : State) (h : HostRead) (w : BufWait) (data : Bytes) (code : List Word32), s.bufferRead src = some h →
    h.dead = false → s.bufWait src = some w → w.src = src → opcodeOf w.packet = 0x0301 →
    code = codeOf (loadCount w.packet) (sliceAt data 0 (bufLen w.packet 0x20)) → verifyProgram chartInsOk code = none →
    Answers (.bufferReadComplete src (.ok data)) s (fun t => Tab.get t.cht.progs none (slotOf w.packet) = some code ∧
      (∀ b ∈ t.interp.bufs, b.src ≠ src) ∧ src ∉ t.interp.busy ∧ t.srcQueue src = (s.srcQueue src).drop 1)) ∧
  (∀ (src : CmdSrc) (s : State) (h : HostRead) (w : BufWait), s.bufferRead src = some h → h.dead = false → s.bufWait src = some w →
    w.retried = true → s.interp.deferred = [] →
    Answers (.bufferReadComplete src .poisoned) s (fun t => t.cht = s.cht ∧ (∀ b ∈ t.interp.bufs, b.src ≠ src) ∧
      t.srcQueue src = (s.srcQueue src).drop 1)) ∧
  (∀ (src : CmdSrc) (s : State) (h : HostRead) (w : BufWait), s.bufferRead src = some h → h.dead = false → s.bufWait src = some w →
    w.retried = false →
    Answers (.bufferReadTimeout src) s (fun t => (h.port, h.tag, true) ∈ t.dmv.quarantine ∧
      (∃ b ∈ t.interp.bufs, b.src = src ∧ b.packet = w.packet ∧ b.retried = true) ∧ t.srcQueue src = s.srcQueue src)) ∧
  (∀ (s : State), s.gcs.pwrgd = true → s.gcs.phase ≠ .boot → s.interp.fwRestart = none →
    s.escalates (fault 0x03 .contain 1) = false →
    Answers .mgmtWatchdog s (fun t => s.Faulted t 0x03 1 ∧ t.interp.fwRestart = some none ∧ t.interp.busy = [] ∧ t.interp.bufs = [] ∧
      t.interp.deferred = [])) ∧
  (∀ (s : State), s.interp.fwRestart = some none →
    Answers .fwRestartDone s (fun t => t.interp = { s.interp with fwRestart := none } ∧
      t.sec = { s.sec with boots := (s.sec.boots + 1) % 2 ^ 32 } ∧ Only [.interp, .sec] s t)) ∧
  (∀ (s : State) (src : CmdSrc) (b : Bool), s.interp.fwRestart = some (some src) → s.sec.pending = some b →
    imageFault s.part s.sec (s.sec.slot b) = none →
    Answers .fwRestartDone s (fun t => t.sec = s.sec.started b false ∧ t.interp.fwRestart = none)) ∧
  (∀ (cls : LookupClass) (s : State) (c : Nat) (req : LookupReq) (prog : SProg), s.freeCtx = some c →
    s.cht.waiting.find? (fun r => r.cls = cls) = some req → s.mayAccept cls = true → s.slotProg req.rev.slot.toNat = some prog →
    Answers (.lookupAccept cls) s (fun t => t.ctx c = s.lookupCtx req prog ∧ (∀ k, k ≠ c → t.ctx k = s.ctx k) ∧
      t.cht.waiting = s.cht.waiting.filter (fun r => r.id ≠ req.id) ∧ Only [.ctxs, .cht] s t)) ∧
  (∀ (k : BitVec 7) (s : State) (req : LookupReq) (p : Byte) (dba : Nat), (s.ctx k.toNat).use = .lookup req →
    s.ctxBearing req ((s.ctx k.toNat).run (s.chartPtest (s.set req.set.toNat) req.rev) 256) = .at p dba →
    s.portServes p req.stripe = true →
    Answers (.lookupComplete k) s (fun t => (t.ctx k.toNat).use = .idle ∧ (∃ d ∈ t.dcmds, d.id = req.id ∧ d.port = p ∧ d.op = .read ∧
      d.purpose = req.purpose ∧ d.dba = dba + req.row ∧ d.issued = true) ∧ t.flt = s.flt)) ∧
  (∀ (k : BitVec 7) (s : State) (req : LookupReq) (d code : Byte) (pc : Nat), (s.ctx k.toNat).use = .lookup req →
    s.ctxBearing req ((s.ctx k.toNat).run (s.chartPtest (s.set req.set.toNat) req.rev) 256) = .failed d code pc →
    Answers (.lookupComplete k) s (fun t => (t.ctx k.toNat).use = .idle ∧ t.dmv = s.dmv))

/-- The coding clusters (R54, R55, R57, R59 to R61): a waiting pass goes to the engine with the shortest queue of its cluster; a pass whose
column sums hold is released, and one whose check fails fences its engine with its passes dispatched again; the self-tests of CE-S; and
a decode matrix that verifies enters the cache, while one that fails is solved once more and then fences its solver. -/
def Obligations.CodingClusters : Prop :=
  (∀ (s : State) (p : Pass) (rest : List Pass) (c : Bool) (e : Nat), s.passes = p :: rest → s.passCluster p = some c →
    (s.cluster c).shortestEngine = some e →
    Answers .codingPassDispatch s (fun t => t.passes = rest ∧
      (t.cluster c).engineQueue e = (s.cluster c).engineQueue e ++ [p] ∧ (∀ i, i ≠ e → (t.cluster c).engineQueue i = (s.cluster c).engineQueue i) ∧
      Only [.passes, .clusters] s t)) ∧
  (∀ (n : BitVec 5) (outputs : List Bytes) (s : State) (p : Pass) (rest : List Pass),
    (s.cluster (n.getLsbD 4)).engineQueue (n.toNat % 16) = p :: rest →
    outputs.length = p.coeffs.length → columnSumOk p.coeffs p.inputs outputs p.bytes = true → p.rowOp = none → p.commit = none →
    s.scc.asks = [] →
    Answers (.codingPassComplete n outputs) s (fun t =>
      (t.cluster (n.getLsbD 4)).engineQueue (n.toNat % 16) = rest ∧
      Only [.gcs, .regs, .flt, .sources, .first, .log, .rings, .clusters, .scc, .pair, .chn, .hpus, .out] s t)) ∧
  (∀ (n : BitVec 5) (outputs : List Bytes) (s : State) (p : Pass) (rest : List Pass) (id : Nat) (c : CommitOp),
    (s.cluster (n.getLsbD 4)).engineQueue (n.toNat % 16) = p :: rest →
    outputs.length = p.coeffs.length → columnSumOk p.coeffs p.inputs outputs p.bytes = true → p.rowOp = none → p.commit = some id →
    s.commits.find? (fun c => c.id = id) = some c → c.intent = none → s.scc.asks = [] → s.gcs.phase ≠ .dock →
    Answers (.codingPassComplete n outputs) s (fun t => t.log.nextSeq = s.log.nextSeq + 1 ∧
      ∃ d ∈ t.commits, d.id = c.id ∧ d.record = some s.log.nextSeq)) ∧
  (∀ (n : BitVec 5) (outputs : List Bytes) (s : State) (p : Pass) (rest : List Pass),
    (s.cluster (n.getLsbD 4)).engineQueue (n.toNat % 16) = p :: rest → n.toNat % 16 < 8 →
    (outputs.length ≠ p.coeffs.length ∨ columnSumOk p.coeffs p.inputs outputs p.bytes = false) →
    (s.cluster (n.getLsbD 4)).spareOk = true → (s.cluster (n.getLsbD 4)).spareFor = none →
    Answers (.codingPassComplete n outputs) s (fun t => t.passes = p :: rest ++ s.passes ∧
      s.Faulted t (engineSource (n.getLsbD 4) (n.toNat % 16)) 1)) ∧
  (∀ (c : Bool) (s : State), (s.cluster c).spareTesting = true →
    Answers (.cesSelfTestComplete c true) s (fun t => t.cluster c = { s.cluster c with spareTesting := false, spareOk := true } ∧
      Only [.clusters] s t)) ∧
  (∀ (c : Bool) (s : State), (s.cluster c).spareTesting = true →
    Answers (.cesSelfTestComplete c false) s (fun t => s.Faulted t (engineSource c 8) 2)) ∧
  (∀ (s : State), s.gcs.phase ≠ .dock → Answers (.cesIdleSelfTest true true) s (fun t => t = s)) ∧
  (∀ (s : State), s.gcs.phase ≠ .dock → s.clusterPresent false = true → (s.cluster false).spareOk = true →
    (s.cluster false).spareFor = none →
    Answers (.cesIdleSelfTest false true) s (fun t => s.Faulted t (engineSource false 8) 2)) ∧
  (∀ (p q : Bool) (s : State), s.gcs.phase = .dock →
    Answers (.cesIdleSelfTest p q) s (fun t => 2 ∈ t.gcs.deferredCalendar ∧ t.clusters = s.clusters)) ∧
  (∀ (c : Bool) (s : State) (key : BitVec 6 × Word64) (rest : List (BitVec 6 × Word64)), (s.cluster c).solves = key :: rest →
    (s.cluster c).solverFenced = false → s.clusterPresent c = true → s.rowOps = [] →
    Answers (.decodeSolveComplete c true) s (fun t => key ∈ (t.cluster c).cache ∧ (t.cluster c).solves = rest ∧
      (t.cluster c).solveRetried = false ∧ Only [.clusters] s t)) ∧
  (∀ (c : Bool) (s : State) (key : BitVec 6 × Word64) (rest : List (BitVec 6 × Word64)), (s.cluster c).solves = key :: rest →
    (s.cluster c).solverFenced = false → s.clusterPresent c = true → (s.cluster c).solveRetried = false →
    Answers (.decodeSolveComplete c false) s (fun t => t.cluster c = { s.cluster c with solveRetried := true } ∧ Only [.clusters] s t)) ∧
  (∀ (c : Bool) (s : State) (key : BitVec 6 × Word64) (rest : List (BitVec 6 × Word64)), (s.cluster c).solves = key :: rest →
    (s.cluster c).solverFenced = false → s.clusterPresent c = true → (s.cluster c).solveRetried = true →
    Answers (.decodeSolveComplete c false) s (fun t => s.Faulted t (engineSource c 9) 3))

/-- The Stripe Cache, the victim tier and the Map Store (R197, R296, R305, R314, R316, R349): a move that ends frees or unpins its line; the
walk after reset leaves the cache empty and ready, and the tier with it once the Map Store is trained; a corrected word is counted and
noted, and an uncorrectable one fences its channel with detail 0x02 and raises 0x92. -/
def Obligations.CachesAndMapStore : Prop :=
  (∀ (key : Nat) (s : State), s.scc.moving = [] → (s.slot key).pin = true → (s.slot key).stale = false →
    Answers (.tierMoveComplete key) s (fun t => t.slot key = { s.slot key with pin := false } ∧ t.scc.lines = s.scc.lines ∧ Only [.scc] s t)) ∧
  (∀ (key i : Nat) (s : State), s.scc.moving = [(key, i)] → (s.slot key).pin = true → (s.slot key).key = (s.line i).key →
    (s.slot key).state ≠ .invalid →
    Answers (.tierMoveComplete key) s (fun t => t.scc.moving = [] ∧ t.line i = { s.line i with pin := false, stale := false } ∧
      t.slot key = Line.at0 ∧ Only [.scc] s t)) ∧
  (∀ (s : State), s.scc.ready = false →
    Answers .cacheInvalidationDone s (fun t => t.scc = { s.scc with lines := [], moving := [], ready := true } ∧ Only [.scc] s t)) ∧
  (∀ (s : State), s.scc.vtReady = false → s.gcs.mapTrained = true →
    Answers .victimTierEmptied s (fun t => t.scc = { s.scc with tier := [], vtReady := true } ∧ Only [.scc] s t)) ∧
  (∀ (ch : BitVec 3) (s : State), ch.toNat ∉ s.map.fenced →
    Answers (.mapChannelFailure ch 1) s (fun t => s.Faulted t (mapSource ch.toNat) 1 ∧ t.map = s.map)) ∧
  (∀ (ch : BitVec 3) (s : State), ch.toNat ∉ s.map.fenced → mirrorChannel ch.toNat ∉ s.map.fenced → s.scc.tier = [] → s.scc.moving = [] →
    Answers (.mapChannelFailure ch 2) s (fun t => t.map.fenced = s.map.fenced ++ [ch.toNat] ∧
      s.Faulted t (mapSource ch.toNat) 2 ∧ s.Faulted t 0x92 (BitVec.ofNat 8 ch.toNat)))

/-! ## Drive ports -/

/-- Completions of drive commands (R66, R121, R128, R132, R171, R172, R174, R175, R256, R324, R328, R331, R332, R337, R340, R345): a read's
CURRENT sector answers what waits for it, and one that fails counts and raises 0xA0 + group with detail 0x07; a late completion is
discarded; a write leaves, and one that fails declares its port failed; the shutdown follows the flush; the thresholds of a read and of
a write; and a PORT_ADMIN ends with its completion entry, or at its own limit with TIMEOUT 0x02. A word error met in the
Stripe Cache is handled first (R316). -/
def Obligations.DriveCommandsComplete : Prop :=
  (∀ (id : Nat) (s : State) (d : DriveCmd) (x : Sector) (xs : List Sector), s.findCmd id = some d → d.op = .read → d.quarantined = false →
    d.purpose = .prefetch → (∀ o ∈ s.rowOps, o.orig ≠ d.id) → classify (s.placeOf d.set d.stripe d.frag d.row) x = .current →
    Answers (.driveReadComplete id (.ok (x :: xs)) []) s (fun t =>
      t = ((((s.dropCmd id).count64 (Reg.dpReads d.port.toNat) 1).endFill d.id (some x)).answer d.id (some x)).rangeStep.evalLog)) ∧
  (∀ (id : Nat) (s : State) (d : DriveCmd), s.findCmd id = some d → d.op = .read → d.quarantined = false →
    d.purpose = .prefetch → (∀ o ∈ s.rowOps, o.orig ≠ d.id) → s.scc.lines = [] → s.interp.deferred = [] →
    Answers (.driveReadComplete id .error []) s (fun t => (∀ e ∈ t.dcmds, e.id ≠ id) ∧
      s.Faulted t (BitVec.ofNat 8 (0xA0 + groupOf d.port)) 7 ∧ (t.port d.port).sealFails = (s.port d.port).sealFails + 1)) ∧
  (∀ (id : Nat) (s : State) (d : DriveCmd) (r : DriveReadResult), s.findCmd id = some d → d.op = .read → d.quarantined = true →
    Answers (.driveReadComplete id r []) s (fun t => t.dcmds = s.dcmds.filter (fun e => e.id ≠ id) ∧ Only [.dcmds] s t)) ∧
  (∀ (id : Nat) (s : State) (d : DriveCmd), s.findCmd id = some d → d.op = .write → d.issued = true → d.quarantined = false →
    d.purpose = .repair →
    Answers (.driveWriteComplete id true) s (fun t => (∀ e ∈ t.dcmds, e.id ≠ id) ∧ t.ports = s.ports ∧ t.sets = s.sets)) ∧
  (∀ (id : Nat) (s : State) (d : DriveCmd), s.findCmd id = some d → d.op = .write → d.issued = true → d.quarantined = false →
    d.purpose = .repair → (s.port d.port).failed = false → (∀ e ∈ s.dcmds, e.port = d.port → e.id = id) →
    Answers (.driveWriteComplete id false) s (fun t => (∀ e ∈ t.dcmds, e.id ≠ id) ∧ (t.port d.port).failed = true ∧
      (∀ q, q ≠ d.port → t.port q = s.port q))) ∧
  (∀ (p : Byte) (s : State), (s.port p).state = .resetting →
    Answers (.driveFlushComplete p true) s (fun t => t.port p = { s.port p with shutdownSent := true } ∧
      t.out = .driveCmd (driveCmd s.nextId p .shutdown .management 0 0 0 0 0 none) :: s.out)) ∧
  (∀ (p : Byte) (s : State), (s.port p).failed = false → (s.port p).state = .ready → (s.group (groupOf p)).state = .powered →
    s.outstanding p = [] → Answers (.driveFlushComplete p false) s (fun t => (t.port p).failed = true)) ∧
  (∀ (p : Byte) (s : State), (s.group (groupOf p)).state = .powered →
    Answers (.driveShutdownComplete p) s (fun t => t.port p = { s.port p with shutdownDone := true } ∧ Only [.ports] s t)) ∧
  (∀ (p : Byte) (s : State), (s.port p).shutdownDone = false → (s.port p).shutdownSent = true → (s.group (groupOf p)).state = .powered →
    Answers (.shutdownTimeout p) s (fun t => s.Faulted t (BitVec.ofNat 8 (0xB0 + groupOf p)) 0x0C ∧ (t.port p).shutdownDone = true)) ∧
  (∀ (id : Nat) (s : State) (d : DriveCmd) (n : Nat), s.findCmd id = some d → d.op = .read → d.quarantined = false → d.slow = false →
    d.purpose = .hostRead n → (∀ o ∈ s.rowOps, o.orig ≠ d.id) →
    (s.setProfile (s.set d.set.toNat)).decodable
      (s.eraseMask d.set ((s.set d.set.toNat).revFor d.stripe) d.stripe ||| maskBit d.frag) = true →
    Answers (.deadReckoningThreshold id []) s (fun t =>
      t = (s.withDcmds (s.dcmds.map (fun e => if e.id = id then { e with slow := true } else e))).startRow d.set
        ((s.set d.set.toNat).revFor d.stripe) d.stripe d.row d.frag d.id .decode (.hostRead n) [])) ∧
  (∀ (id : Nat) (s : State) (d : DriveCmd) (n : Nat), s.findCmd id = some d → d.op = .read → d.quarantined = false → d.slow = false →
    d.purpose = .hostRead n → (∀ o ∈ s.rowOps, o.orig ≠ d.id) →
    (s.setProfile (s.set d.set.toNat)).decodable
      (s.eraseMask d.set ((s.set d.set.toNat).revFor d.stripe) d.stripe ||| maskBit d.frag) = false →
    Answers (.deadReckoningThreshold id []) s (fun t =>
      t.dcmds = s.dcmds.map (fun e => if e.id = id then { e with slow := true } else e) ∧ Only [.dcmds] s t)) ∧
  (∀ (id : Nat) (s : State) (d : DriveCmd), s.findCmd id = some d → d.quarantined = false → d.issued = true → d.op = .write →
    (s.port d.port).failed = false → d.purpose = .repair → s.outstanding d.port = [d] →
    Answers (.hardTimeout id) s (fun t => (t.port d.port).failed = true ∧
      (∃ e ∈ t.dcmds, e.id = id ∧ e.quarantined = true))) ∧
  (∀ (id : Nat) (s : State) (d : DriveCmd) (op : Byte), s.findCmd id = some d → d.quarantined = false → d.issued = true →
    d.op = .admin op →
    Answers (.hardTimeout id) s (fun t => (∀ e ∈ t.dcmds, e.id ≠ id) ∧ (t.port d.port).adminSrc = none ∧
      (t.port d.port).failed = (s.port d.port).failed)) ∧
  (∀ (id : Nat) (s : State) (d : DriveCmd), s.findCmd id = some d → d.op = .write → d.quarantined = false → d.lagged = false →
    d.purpose = .repair →
    Answers (.writeLagLimit id) s (fun t =>
      t.dcmds = s.dcmds.map (fun e => if e.id = id then { e with lagged := true } else e) ∧ Only [.dcmds] s t)) ∧
  (∀ (p : Byte) (s : State) (cqe data : Bytes) (op : Byte) (src : CmdSrc) (d : Deferred) (c : DriveCmd), c ∈ s.dcmds → c.port = p →
    c.op = .admin op → (s.port p).adminSrc = some src → s.interp.deferred = [d] → d.src = src → adminOp d.packet % 4 = 0 →
    Answers (.driveAdminComplete p true cqe data) s (fun t => (t.port p).adminSrc = none ∧ t.interp.deferred = [] ∧
      t.srcQueue src = (s.srcQueue src).drop 1 ∧ (∀ e ∈ t.dcmds, e.port = p → ∀ o, e.op ≠ .admin o))) ∧
  (∀ (p : Byte) (s : State) (cqe data : Bytes), (∀ c ∈ s.dcmds, ∀ o, c.op ≠ .admin o) → (s.port p).state = .training →
    (s.port p).resetSrc = none → (s.group (groupOf p)).state = .powered →
    Answers (.driveAdminComplete p false cqe data) s (fun t => (t.port p).state = .error ∧
      s.Faulted t (BitVec.ofNat 8 (0xB0 + groupOf p)) 3)) ∧
  (∀ (id i : Nat) (r : DriveReadResult) (s : State), s.findCmd id = none →
    Answers (.driveReadComplete id r [.line i true]) s (fun t => s.Faulted t 0x90 1 ∧ t.dcmds = s.dcmds) ∧
    Answers (.deadReckoningThreshold id [.line i true]) s (fun t => s.Faulted t 0x90 1 ∧ t.dcmds = s.dcmds))

/-- The life of a drive port (R167, R320 to R327, R330, R333 to R335, R337, R340 to R345): detection, bring-up into READY or ERROR, the
limits that declare a port failed, the link lost with and without its receiver, resets, warnings and errors with their sources and
details, L1, and the ports of a group that drains, goes dark and wakes. -/
def Obligations.DrivePortsLive : Prop :=
  (∀ (p : Byte) (s : State), s.regField Reg.gcsRbsFail 0 16 ≠ 0 → s.regField Reg.gcsRbsFail 0 16 < (s.port p).sealFails → (s.port p).failed = false → s.outstanding p = [] →
    Answers (.portSealLimit p) s (fun t => (t.port p).failed = true ∧ (t.port p).sealFails = 0)) ∧
  (∀ (p : Byte) (s : State), s.portPresent p = true → (s.port p).state = .empty → (s.group (groupOf p)).state = .powered →
    s.gcs.phase = .running →
    Answers (.receiverDetection p true) s (fun t => t.port p = { s.port p with state := .training } ∧
      s.Faulted t (BitVec.ofNat 8 (0xB0 + groupOf p)) 0x0B)) ∧
  (∀ (p : Byte) (s : State), s.portPresent p = true → (s.port p).state = .empty → (s.group (groupOf p)).state = .powered →
    s.gcs.phase = .recovery →
    Answers (.receiverDetection p true) s (fun t => t.port p = { s.port p with state := .training } ∧ Only [.ports] s t)) ∧
  (∀ (p : Byte) (i : DriveInfo) (s : State) (n g : Nat), (s.port p).state = .training → (s.port p).resetSrc = none →
    (s.group (groupOf p)).state = .powered →
    queueGrant (131072 - (s.slotsUsed - (s.port p).pairsGranted * 2 ^ (s.port p).depthLog2))
      (max 1 (min (s.regField (Reg.dpQcfg p.toNat) 0 5) i.pairs))
      (min (s.regField (Reg.dpQcfg p.toNat) 8 4) (Nat.log2 (i.mqes + 1))) 32 = some (n, g, false) →
    Answers (.driveBringupComplete p (.ok i)) s (fun t => (t.port p).state = .ready ∧ (t.port p).pairsGranted = n ∧
      (t.port p).depthLog2 = g ∧ (t.port p).nsze = i.sectors ∧ (t.port p).recordedCapacity = some i.sectors ∧
      (t.port p).formatOk = i.formatOk ∧ (t.port p).gen = i.gen ∧ (t.port p).critWarn = i.critWarn ∧ (t.port p).failed = (s.port p).failed)) ∧
  (∀ (p : Byte) (s : State), (s.port p).state = .training → (s.port p).resetSrc = none → (s.group (groupOf p)).state = .powered →
    Answers (.driveBringupComplete p .failed) s (fun t => (t.port p).state = .error ∧
      s.Faulted t (BitVec.ofNat 8 (0xB0 + groupOf p)) 3)) ∧
  (∀ (p : Byte) (s : State), (s.port p).state = .training → (s.port p).resetSrc = none → (s.group (groupOf p)).state = .powered →
    Answers (.cstsRdyTimeout p) s (fun t => (t.port p).state = .error ∧ s.Faulted t (BitVec.ofNat 8 (0xB0 + groupOf p)) 3)) ∧
  (∀ (p : Byte) (s : State), (s.port p).state = .ready → s.outstanding p = [] →
    Answers (.linkDown p true) s (fun t => t.port p = { s.port p with state := .recovery, gen := 0, inL1 := false })) ∧
  (∀ (p : Byte) (s : State), (s.port p).state = .ready → (s.port p).failed = false → s.outstanding p = [] →
    Answers (.linkDown p false) s (fun t => (t.port p).state = .contained ∧ (t.port p).failed = true)) ∧
  (∀ (p : Byte) (s : State), (s.port p).state = .ready → s.outstanding p = [] →
    Answers (.uncorrectableLinkError p true) s (fun t => (t.port p).state = .recovery ∧
      s.Faulted t (BitVec.ofNat 8 (0xB0 + groupOf p)) 8)) ∧
  (∀ (p : Byte) (s : State), (s.port p).state = .recovery → (s.port p).failed = false → s.outstanding p = [] →
    Answers (.recoveryTimeout p) s (fun t => (t.port p).state = .contained ∧ (t.port p).failed = true)) ∧
  (∀ (p : Byte) (s : State), (s.port p).state = .resetting →
    Answers (.portResetEnd p true) s (fun t => t.port p = (s.port p).leave .training ∧
      (∀ d ∈ t.dcmds, ¬ (d.port = p ∧ d.quarantined = true)) ∧ Only [.ports, .dcmds] s t)) ∧
  (∀ (p : Byte) (s : State), (s.port p).state = .resetting → (s.port p).resetSrc = none →
    Answers (.portResetEnd p false) s (fun t => (t.port p).state = .empty ∧ Only [.ports, .dcmds] s t)) ∧
  (∀ (p : Byte) (s : State), s.quarantined p ≠ [] → s.regField Reg.dpQuarReset 0 16 ≠ 0 → s.memberOf p = none →
    (s.port p).state = .ready → s.outstanding p = [] →
    Answers (.quarantineReset p) s (fun t => (t.port p).state = .resetting ∧ s.Faulted t (BitVec.ofNat 8 (0xB0 + groupOf p)) 0x0A)) ∧
  (∀ (p cw : Byte) (s : State), (s.port p).state = .ready → cw ≠ 0 → cw ≠ (s.port p).critWarn →
    Answers (.driveAsyncEvent p cw) s (fun t => t.port p = { s.port p with critWarn := cw, warning := true } ∧
      s.Faulted t (BitVec.ofNat 8 (0xB0 + groupOf p)) 6)) ∧
  (∀ (p cw used : Byte) (s : State), s.regField Reg.dpHealthPoll 0 16 ≠ 0 → (s.port p).state = .ready → cw = (s.port p).critWarn →
    Answers (.healthPoll [(p, cw, used)]) s (fun t => (t.port p).pctUsed = used ∧ (t.port p).critWarn = cw ∧ Only [.ports] s t)) ∧
  (∀ (p : Byte) (s : State), Answers (.driveDmaReject p) s (fun t => s.Faulted t (BitVec.ofNat 8 (0xB0 + groupOf p)) 5)) ∧
  (∀ (p : Byte) (errors : Nat) (s : State), (s.count32 (Reg.dpLinkErrors p.toNat) errors).regField Reg.dpLinkerr 0 16 < errors →
    Answers (.driveLinkErrorWindow p errors) s (fun t => s.Faulted t (BitVec.ofNat 8 (0xB0 + groupOf p)) 7)) ∧
  (∀ (p : Byte) (s : State), (s.port p).state = .ready → s.regBit Reg.dpPm 0 = true →
    Answers (.driveL1Entry p) s (fun t => t.port p = { s.port p with inL1 := true } ∧ Only [.ports] s t)) ∧
  (∀ (p : Byte) (s : State), (s.port p).failed = false → s.outstanding p = [] →
    Answers (.controllerFatalStatus p) s (fun t => (t.port p).failed = true ∧ (∀ q, q ≠ p → t.port q = s.port q))) ∧
  (∀ (g : BitVec 4) (s : State), (s.group g.toNat).state = .draining → s.groupCmds g.toNat = [] → (s.group g.toNat).src = none →
    (∀ q ∈ groupPorts g.toNat, (s.port q).state = .empty) →
    Answers (.groupDrainEnd g) s (fun t => (t.group g.toNat).state = .dark ∧ (t.group g.toNat).pwren = false ∧
      (∀ q ∈ groupPorts g.toNat, (t.port q).state = .dark))) ∧
  (∀ (g : BitVec 4) (s : State), (s.group g.toNat).state = .draining → s.groupCmds g.toNat ≠ [] → (s.group g.toNat).force = false →
    (s.group g.toNat).src = none →
    Answers (.drainTimeout g) s (fun t => (t.group g.toNat).state = .powered ∧
      (∀ q : Byte, t.port q = (if q ∈ groupPorts g.toNat ∧ (s.port q).state = .ready ∧ (s.port q).formatOk = true ∧
          (s.port q).failed = false ∧ (s.port q).catchupMap ≠ [] then
        { s.port q with catchup := true, catchupNext := 0 } else s.port q)) ∧
      s.Faulted t (BitVec.ofNat 8 (0xB0 + g.toNat)) 9)) ∧
  (∀ (g : BitVec 4) (rs : List Byte) (s : State), (s.group g.toNat).state = .waking →
    (∀ q ∈ groupPorts g.toNat, (s.port q).state = .dark ∧ s.memberOf q = none) →
    Answers (.groupWakeDelay g rs) s (fun t => ∀ q ∈ groupPorts g.toNat,
      (t.port q).state = (if q ∈ rs then .training else .empty))) ∧
  (∀ (p : Byte) (e : Nat) (s : State), (s.port p).catchup = true → s.extentCaught p e = true →
    Answers (.catchupExtentDone p e) s (fun t => (t.port p).catchupMap = without (s.port p).catchupMap e ∧
      (t.port p).catchup = !(without (s.port p).catchupMap e).isEmpty ∧ Only [.ports] s t)) ∧
  (∀ (g : BitVec 4) (s : State), g.toNat < Config.groups s.part → (s.group g.toNat).clkreqLow = false → s.regField Reg.dpPm 1 2 ≠ 0 →
    Answers (.dpgClkreqN g true) s (fun t => t.group g.toNat = { s.group g.toNat with clkreqLow := true } ∧
      t.out = .refclk g true :: s.out ∧ Only [.portGroups, .out] s t))

/-! ## Rebuild, scrub, arbitration, resync -/

/-- Rebuild (R181, R183, R185, R188). A pacing window gives the next set in turn its window: with one stripe in flight allowed, none in flight,
no record that waits for a stripe commit, no woken port to catch up and every moved fragment readable, the stripe at the candidate cursor is
taken and each moved fragment of each of its rows is read. A stripe that is done leaves the list and the candidate cursor goes to the next
written stripe; one taken four times holds new writes; the durable cursor follows the candidate, and at the stripe count the pending
revision becomes current and the queued one pending with its cursor at stripe 0. Resync of a stripe that an intent-only write left open
(R142, R143). A row whose available fragments all carry the intent's version needs nothing; a row with no outcome is UNRESOLVED: it joins
the set's list and raises 0x74 with the set. Each leaves the row counted as read; when the last one is read the stripe leaves the list and
its intent is retired. -/
def Obligations.RebuildAndResync : Prop :=
  (∀ (i : Nat) (next : Revision) (s : State), i < 64 → s.rebuildTurn = some i → (s.set i).pending = some next → (s.set i).inFlight = [] →
    (∀ p ∈ (s.set i).members, (s.port p).catchup = false) → s.log.recs = [] → s.regField Reg.gcsRbsWindow 0 8 = 1 → (s.set i).candidate.toNat < (s.set i).stripeCount.toNat →
    (s.set i).nextWritten (s.set i).candidate.toNat = (s.set i).candidate.toNat →
    (∀ r ∈ s.stripeReads (BitVec.ofNat 6 i) (s.set i) next (s.set i).candidate.toNat,
      0 < (s.port r.1).bytesPerMs * s.regField Reg.gcsRbsShare 0 8 / 100) →
    (∀ f ∈ s.movedFrags (BitVec.ofNat 6 i) (s.set i) next (s.set i).candidate.toNat,
      s.fragOut (BitVec.ofNat 6 i) (s.set i).current (s.set i).candidate.toNat f = false) →
    Answers .rebuildPacingWindow s (fun t => t.sched.turn = i ∧
      (t.set i).inFlight = [{ stripe := (s.set i).candidate.toNat, takes := 1, done := false, touched := false }] ∧
      (∀ row f, row < (s.set i).s → f ∈ s.movedFrags (BitVec.ofNat 6 i) (s.set i) next (s.set i).candidate.toNat →
        ∃ r ∈ t.cht.waiting, r.set = BitVec.ofNat 6 i ∧ r.stripe = (s.set i).candidate.toNat ∧ r.frag = f ∧ r.row = row ∧
          r.rev = (s.set i).current ∧ r.purpose = .rebuild))) ∧
  (∀ (set : BitVec 6) (stripe : BitVec 48) (r : RebuildStripe) (s : State), (s.set set.toNat).inFlight = [r] → r.stripe = stripe.toNat →
    r.done = false → r.touched = false → s.rebuildBusy set stripe.toNat = false → s.classBWaits = false →
    (s.set set.toNat).nextWritten (s.set set.toNat).candidate.toNat = stripe.toNat → stripe.toNat < (s.set set.toNat).stripeCount.toNat →
    Answers (.rebuildStripeDone set stripe) s (fun t => (t.set set.toNat).inFlight = [] ∧
      (t.set set.toNat).candidate = BitVec.ofNat 48 ((s.set set.toNat).nextWritten (stripe.toNat + 1)) ∧
      (t.set set.toNat).cursor = (s.set set.toNat).cursor ∧ (∀ i, i ≠ set.toNat → t.set i = s.set i) ∧ Only [.sets] s t)) ∧
  (∀ (set : BitVec 6) (stripe : BitVec 48) (r : RebuildStripe) (s : State), r ∈ (s.set set.toNat).inFlight → r.stripe = stripe.toNat →
    r.done = false → 4 ≤ r.takes →
    Answers (.rebuildRetakeLimit set stripe) s (fun t => stripe.toNat ∈ (t.set set.toNat).heldStripes ∧
      (t.set set.toNat).inFlight = (s.set set.toNat).inFlight ∧ Only [.sets] s t)) ∧
  (∀ (set : BitVec 6) (next : Revision) (s : State), (s.set set.toNat).pending = some next →
    (s.set set.toNat).candidate.toNat < (s.set set.toNat).stripeCount.toNat →
    Answers (.rebuildCursorDurable set) s (fun t =>
      t.set set.toNat = { s.set set.toNat with cursor := (s.set set.toNat).candidate } ∧ Only [.sets] s t)) ∧
  (∀ (set : BitVec 6) (next : Revision) (s : State), (s.set set.toNat).pending = some next →
    (s.set set.toNat).stripeCount.toNat ≤ (s.set set.toNat).candidate.toNat → (s.ring (.event false)).state = .active →
    s.haltClosed = false → s.canWrite false = true →
    Answers (.rebuildCursorDurable set) s (fun t => (t.set set.toNat).current = next ∧
      (t.set set.toNat).pending = (s.set set.toNat).queued ∧ (t.set set.toNat).queued = none ∧ (t.set set.toNat).cursor = 0 ∧
      (∃ pos r, Out.record false pos r ∈ t.out ∧ r.typ = 6 ∧ r.setId = set.setWidth 8 ∧ r.aux = next.rev.setWidth 32 ∧
        r.count = BitVec.ofNat 32 (satTo 32 (s.set set.toNat).lostRows)))) ∧
  (∀ (set : BitVec 6) (stripe : BitVec 48) (row : Byte) (xs : List (Nat × Sector)) (r : Resync) (s : State),
    (s.set set.toNat).resync = [r] → r.stripe ≤ stripe.toNat → stripe.toNat < r.stripe + r.count → r.rowsDone = [] →
    s.background (s.set set.toNat) = true → row.toNat < (s.set set.toNat).s → 1 < r.count * (s.set set.toNat).s →
    (s.classifyRow set ((s.set set.toNat).revFor stripe.toNat) stripe.toNat row.toNat xs).unwritten
      (s.setProfile (s.set set.toNat)) = true →
    Answers (.resyncRowDone set stripe row xs) s (fun t =>
      (t.set set.toNat).resync = [{ r with rowsDone := [(stripe.toNat, row.toNat)] }] ∧ Only [.sets] s t)) ∧
  (∀ (set : BitVec 6) (stripe : BitVec 48) (row : Byte) (xs : List (Nat × Sector)) (r : Resync) (rr : RowRead) (s : State),
    (s.set set.toNat).resync = [r] → r.stripe ≤ stripe.toNat → stripe.toNat < r.stripe + r.count → r.rowsDone = [] →
    s.background (s.set set.toNat) = true → row.toNat < (s.set set.toNat).s → 1 < r.count * (s.set set.toNat).s →
    rr = s.classifyRow set ((s.set set.toNat).revFor stripe.toNat) stripe.toNat row.toNat xs →
    rr.unwritten (s.setProfile (s.set set.toNat)) = false →
    resyncOutcome (s.setProfile (s.set set.toNat)) (r.watch.toNat, r.generation.toNat)
      (((s.setProfile (s.set set.toNat)).frags.filter (fun f =>
        !s.fragOut set ((s.set set.toNat).revFor stripe.toNat) stripe.toNat f)).length) rr.good = .unresolved →
    Answers (.resyncRowDone set stripe row xs) s (fun t =>
      (stripe.toNat, row.toNat) ∈ (t.set set.toNat).unresolved ∧
      (t.set set.toNat).resync = [{ r with rowsDone := [(stripe.toNat, row.toNat)] }] ∧ s.Faulted t 0x74 (set.setWidth 8))) ∧
  (∀ (set : BitVec 6) (stripe : BitVec 48) (row : Byte) (xs : List (Nat × Sector)) (r : Resync) (s : State),
    (s.set set.toNat).resync = [r] → r.stripe = stripe.toNat → r.count = 1 → r.rowsDone.length + 1 = (s.set set.toNat).s →
    (stripe.toNat, row.toNat) ∉ r.rowsDone → s.background (s.set set.toNat) = true → row.toNat < (s.set set.toNat).s →
    (s.set set.toNat).unresolved = [] →
    (s.classifyRow set ((s.set set.toNat).revFor stripe.toNat) stripe.toNat row.toNat xs).unwritten
      (s.setProfile (s.set set.toNat)) = true →
    Answers (.resyncRowDone set stripe row xs) s (fun t => (t.set set.toNat).resync = [] ∧ t.log.nextSeq = s.log.nextSeq + 1))

/-- Scrub and row arbitration (R177, R178, R190 to R193). A pass starts with every set's cursor at stripe 0; a due start that finds one
unfinished raises 0xA0 detail 0x30 and is skipped; a pass with nothing left ends and is counted; a window grants at least one stripe. The
row read at the scrub cursor moves the cursor on, and goes to arbitration when it fails a check. Arbitration that finds the standing
sectors leaves nothing of the row waiting; one that does not marks the suspect fragments and raises 0xA0 + group with detail 6. With scrub
switched off a window grants nothing, and while a class B record waits for space no arbitration ends and no stripe is done (R236). -/
def Obligations.ScrubAndArbitration : Prop :=
  (∀ s : State, s.regBit Reg.gcsRbsCtl 1 = true → s.sched.scrubbing = false →
    Answers .scrubPassStart s (fun t => t.sched = { s.sched with scrubbing := true, behind := false } ∧
      (∀ i, (t.set i).scrubLive = 0 ∧ (t.set i).scrubCursor = 0) ∧ Only [.sets, .sched] s t)) ∧
  (∀ s : State, s.regBit Reg.gcsRbsCtl 1 = true → s.sched.scrubbing = true →
    Answers .scrubPassStart s (fun t => t.sched = s.sched ∧ t.sets = s.sets ∧ s.Faulted t 0xA0 0x30)) ∧
  (∀ s : State, s.regBit Reg.gcsRbsCtl 1 = false → Answers .scrubPassStart s (fun t => t = s)) ∧
  (∀ s : State, s.sched.scrubbing = true → s.regBit Reg.gcsRbsCtl 1 = true → s.scrubSet = none →
    Answers .scrubPacingWindow s (fun t => t.sched = { s.sched with scrubbing := false, behind := false } ∧
      t.regN Reg.gcsRbsScrubPasses = (s.regN Reg.gcsRbsScrubPasses + 1) % 2 ^ 32 ∧ t.sets = s.sets)) ∧
  (∀ (i : Nat) (s : State), s.sched.scrubbing = true → s.regBit Reg.gcsRbsCtl 1 = true →
    s.scrubSet = some i → s.background (s.set i) = true →
    (s.set i).nextWritten (s.set i).scrubLive.toNat < (s.set i).stripeCount.toNat →
    Answers .scrubPacingWindow s (fun t =>
      (t.set i).scrubLive.toNat = (s.set i).nextWritten (s.set i).scrubLive.toNat ∧
      (t.set i).scrubLive.toNat < (t.set i).scrubGrant.toNat ∧ (t.set i).scrubGrant.toNat ≤ (s.set i).stripeCount.toNat ∧
      (∀ j, j ≠ i → t.set j = s.set j) ∧ Only [.sets, .sched] s t)) ∧
  (∀ (set : BitVec 6) (stripe : BitVec 48) (row : Byte) (xs : List (Nat × Sector)) (s : State), s.sched.scrubbing = true →
    s.scrubSet = some set.toNat → stripe = (s.set set.toNat).scrubLive → row.toNat = (s.set set.toNat).scrubRow →
    stripe.toNat < (s.set set.toNat).scrubGrant.toNat →
    Answers (.scrubRowReadComplete set stripe row xs) s (fun t => t.set set.toNat = (s.set set.toNat).scrubPast ∧
      (∀ j, j ≠ set.toNat → t.set j = s.set j))) ∧
  (∀ (set : BitVec 6) (stripe : BitVec 48) (row : Byte) (xs : List (Nat × Sector)) (r : RowRead) (s : State), s.sched.scrubbing = true →
    s.scrubSet = some set.toNat → stripe = (s.set set.toNat).scrubLive → row.toNat = (s.set set.toNat).scrubRow →
    stripe.toNat < (s.set set.toNat).scrubGrant.toNat → s.rowLogged set stripe.toNat row.toNat = false →
    r = s.classifyRow set ((s.set set.toNat).revFor stripe.toNat) stripe.toNat row.toNat xs →
    r.unwritten (s.setProfile (s.set set.toNat)) = false → r.bad ≠ [] →
    Answers (.scrubRowReadComplete set stripe row xs) s (fun t => (set, stripe.toNat, row.toNat) ∈ t.arbitrating ∧ t.out = s.out)) ∧
  (∀ s : State, Answers .scrubCursorSave s (fun t =>
    (∀ i, t.set i = { s.set i with scrubCursor := (s.set i).scrubLive }) ∧ Only [.sets] s t)) ∧
  (∀ (set : BitVec 6) (stripe : BitVec 48) (row : Byte) (xs : List (Nat × Sector)) (r : RowRead) (g : List (Nat × Sector)) (vp : Version)
    (mask : Word64) (s : State), (set, stripe.toNat, row.toNat) ∈ s.arbitrating → s.classBWaits = false →
    r = s.classifyRow set ((s.set set.toNat).revFor stripe.toNat) stripe.toNat row.toNat xs → r.bad = [] → s.rowOps = [] →
    (rowCheck (s.setProfile (s.set set.toNat)) (r.good.map (fun x => (x.1, x.2.sl)))).stale = [] →
    arbitrateRow (s.setProfile (s.set set.toNat)) r.good = .stands g vp mask →
    (∀ f ∈ (s.setProfile (s.set set.toNat)).frags, (∀ x ∈ g, x.1 ≠ f) →
      s.fragOut set ((s.set set.toNat).revFor stripe.toNat) stripe.toNat f = true) →
    Answers (.rowArbitrationDone set stripe row xs) s (fun t =>
      t.arbitrating = without s.arbitrating (set, stripe.toNat, row.toNat) ∧ Only [.arbitrating] s t)) ∧
  (∀ (set : BitVec 6) (stripe : BitVec 48) (row : Byte) (xs : List (Nat × Sector)) (r : RowRead) (sus : List Nat) (p : Byte) (s : State),
    (set, stripe.toNat, row.toNat) ∈ s.arbitrating → s.classBWaits = false →
    r = s.classifyRow set ((s.set set.toNat).revFor stripe.toNat) stripe.toNat row.toNat xs → r.bad = [] → s.rowOps = [] →
    (rowCheck (s.setProfile (s.set set.toNat)) (r.good.map (fun x => (x.1, x.2.sl)))).stale = [] →
    r.unwritten (s.setProfile (s.set set.toNat)) = false →
    arbitrateRow (s.setProfile (s.set set.toNat)) r.good = .unresolved sus →
    p = s.lowestPort set ((s.set set.toNat).revFor stripe.toNat) stripe.toNat →
    s.escalates { source := BitVec.ofNat 8 (0xA0 + groupOf p), level := .contain, detail := 6, port := p.toNat, injected := false } = false →
    Answers (.rowArbitrationDone set stripe row xs) s (fun t => (∀ f ∈ sus, (stripe.toNat, row.toNat, f) ∈ (t.set set.toNat).suspects) ∧
      s.Faulted t (BitVec.ofNat 8 (0xA0 + groupOf p)) 6 ∧ t.arbitrating = without s.arbitrating (set, stripe.toNat, row.toNat))) ∧
  (∀ s : State, s.regBit Reg.gcsRbsCtl 1 = false → exec .scrubPacingWindow s = .next s) ∧
  (∀ (set : BitVec 6) (stripe : BitVec 48) (row : Byte) (xs : List (Nat × Sector)) (s : State), s.classBWaits = true →
    exec (.rowArbitrationDone set stripe row xs) s = .next s ∧ exec (.rebuildStripeDone set stripe) s = .next s)

/-! ## Data Movers -/

/-- Bursts and reads of a transfer (R267, R271, R282, R284, R286). A granted read burst asks the host for its bytes under a free tag, and a
granted write burst writes to the host or the pool what has arrived, byte for byte; the data of a read is kept at its offset; a read that
fails is issued again and counted with 0x30 while it has reissues left, and then ends its descriptor with BUS_ERROR, the same detail and
0x31; a timeout quarantines the tag until it expires, and data that comes after it is counted and reported by 0x33. A word of
the Transfer Buffer that had to be corrected raises 0x32 detail 1, and one that cannot be ends its transfer with BUS_ERROR detail 4 and
0x32 detail 2 (R289). -/
def Obligations.MoversMoveData : Prop :=
  (∀ (n off a len : Nat) (words : WordCheck) (t : Transfer) (rest : List Transfer) (s : State), s.dmv.retries = [] → s.granted false = some n →
    (s.chan n).queue = t :: rest → s.orphan t = false → (s.transferPort t).1 = false → t.srcPool = false →
    t.nextRead (s.chanBurst n) = some (off, a, len) → 0 < len → len ≤ (s.hpu t.port).cfg.mrrs - a % (s.hpu t.port).cfg.mrrs →
    Answers (.burstGrant false words) s (fun u => u.dmv.lastRead = n ∧ (u.chan n).queue = { t with asked := t.asked + len } :: rest ∧
      ∃ r ∈ u.dmv.reads, r.port = t.port ∧ r.tag.toNat ∈ s.freeTags t.port ∧ r.user = .chan n ∧ r.off = off ∧ r.len = len ∧
        r.left = s.regField (Reg.dmvChCfg n) 4 3 ∧ r.dead = false ∧
        Out.memRead t.port r.tag (widened (s.chanStrict n) a len).1 (widened (s.chanStrict n) a len).2 ∈ u.out)) ∧
  (∀ (n a : Nat) (data : Bytes) (t : Transfer) (rest : List Transfer) (s : State), s.granted true = some n →
    (s.chan n).queue = t :: rest → s.orphan t = false → (s.transferPort t).1 = false → t.dstPool = false →
    t.nextWrite (s.chanBurst n) = .write a data → 0 < data.length →
    data.length ≤ (s.hpu t.port).cfg.mps - a % (s.hpu t.port).cfg.mps →
    Answers (.burstGrant true .good) s (fun u => u.dmv.lastWrite = n ∧
      (u.chan n).queue = { t with moved := t.moved + data.length } :: rest ∧
      Out.hostWrite t.port (BitVec.ofNat 64 a) (sliceAt data 0 data.length) ∈ u.out ∧ u.pwin = s.pwin)) ∧
  (∀ (n a : Nat) (data : Bytes) (t : Transfer) (rest : List Transfer) (s : State), s.granted true = some n →
    (s.chan n).queue = t :: rest → s.orphan t = false → (s.transferPort t).1 = false → t.dstPool = true →
    t.nextWrite (s.chanBurst n) = .write a data →
    Answers (.burstGrant true .good) s (fun u => (u.chan n).queue = { t with moved := t.moved + data.length } :: rest ∧
      (∀ i, i < data.length → Memory.read u.pwin.pool (a + i) = data.getD i 0) ∧
      (∀ b, (b < a ∨ a + data.length ≤ b) → Memory.read u.pwin.pool b = Memory.read s.pwin.pool b) ∧ u.out = s.out)) ∧
  (∀ (w : Bool) (words : WordCheck) (n : Nat) (t : Transfer) (rest : List Transfer) (s : State), (w = true ∨ s.dmv.retries = []) → s.granted w = some n →
    (s.chan n).queue = t :: rest → s.orphan t = false → (s.transferPort t).1 = true → s.chanLine n = 0 →
    Answers (.burstGrant w words) s (fun u => (u.chan n).status = stContained ∧ (u.chan n).detail = 1 ∧ (u.chan n).queue = [])) ∧
  (∀ (g : TagRef) (n : Nat) (bytes : Bytes) (r : HostRead) (t : Transfer) (rest : List Transfer) (a room : Nat) (s : State),
    s.readOf g = some r → r.user = .chan n → r.dead = false → (s.chan n).flushWait = false → (s.chan n).queue = t :: rest →
    t.dsts ≠ [] → rangeAt t.srcs r.off = some (a, room) →
    Answers (.moverReadCompletion g (.ok bytes)) s (fun u => (u.chan n).queue = { t with got := t.got ++
        [(r.off, sliceAt bytes (a - (widened (s.chanStrict n) a r.len).1) r.len)] } :: rest ∧
      u.readOf g = none ∧ Only [.dmv] s u)) ∧
  (∀ (g : TagRef) (n : Nat) (e : BusResult) (r : HostRead) (t : Transfer) (rest : List Transfer) (s : State), (∀ b, e ≠ .ok b) →
    s.readOf g = some r → r.user = .chan n → r.dead = false → (s.chan n).flushWait = false → (s.chan n).queue = t :: rest → 0 < r.left →
    Answers (.moverReadCompletion g e) s (fun u => s.Faulted u 0x30 (busDetail e) ∧ (u.chan n).queue = t :: rest ∧
      ∃ q ∈ u.dmv.reads ++ u.dmv.retries, q.user = .chan n ∧ q.off = r.off ∧ q.len = r.len ∧ q.left = r.left - 1)) ∧
  (∀ (g : TagRef) (n : Nat) (e : BusResult) (r : HostRead) (t : Transfer) (rest : List Transfer) (s : State), (∀ b, e ≠ .ok b) →
    s.readOf g = some r → r.user = .chan n → r.dead = false → (s.chan n).flushWait = false → (s.chan n).queue = t :: rest → r.left = 0 →
    s.chanLine n = 0 →
    Answers (.moverReadCompletion g e) s (fun u => (u.chan n).status = stBusError ∧ (u.chan n).detail = busDetail e ∧
      (u.chan n).queue = [] ∧ (u.chan n).errors = ((s.chan n).errors + 1) % 2 ^ 32 ∧ s.Faulted u 0x31 (BitVec.ofNat 8 n))) ∧
  (∀ (g : TagRef) (n : Nat) (r : HostRead) (t : Transfer) (rest : List Transfer) (s : State), s.readOf g = some r → r.user = .chan n →
    r.dead = false → (s.chan n).queue = t :: rest → r.left = 0 → s.chanLine n = 0 →
    Answers (.moverReadTimeout g) s (fun u => (g.port, g.tag, true) ∈ u.dmv.quarantine ∧ (u.chan n).status = stBusError ∧
      (u.chan n).detail = 5 ∧ s.Faulted u 0x31 (BitVec.ofNat 8 n))) ∧
  (∀ (g : TagRef) (result : BusResult) (s : State), s.readOf g = none → (g.port, g.tag, true) ∈ s.dmv.quarantine →
    Answers (.moverReadCompletion g result) s (fun u => s.Faulted u 0x33 (BitVec.ofNat 8 (ofBool g.port)) ∧
      u.regN Reg.dmvLateCpl = (s.regN Reg.dmvLateCpl + 1) % 2 ^ 32 ∧ u.dmv = s.dmv)) ∧
  (∀ (g : TagRef) (b : Bool) (s : State), (g.port, g.tag, b) ∈ s.dmv.quarantine →
    Answers (.tagQuarantineExpiry g) s (fun u => (∀ c, (g.port, g.tag, c) ∉ u.dmv.quarantine) ∧
      (∀ p x c, (p, x) ≠ (g.port, g.tag) → ((p, x, c) ∈ u.dmv.quarantine ↔ (p, x, c) ∈ s.dmv.quarantine)) ∧ Only [.dmv] s u)) ∧
  (∀ (n a : Nat) (data : Bytes) (t : Transfer) (rest : List Transfer) (s : State), s.granted true = some n →
    (s.chan n).queue = t :: rest → s.orphan t = false → (s.transferPort t).1 = false →
    t.nextWrite (s.chanBurst n) = .write a data →
    Answers (.burstGrant true .corrected) s (fun u => (u.chan n).queue = { t with moved := t.moved + data.length } :: rest ∧
      s.Faulted u 0x32 1)) ∧
  (∀ (n a : Nat) (data : Bytes) (t : Transfer) (rest : List Transfer) (s : State), s.granted true = some n →
    (s.chan n).queue = t :: rest → s.orphan t = false → (s.transferPort t).1 = false → s.chanLine n = 0 →
    t.nextWrite (s.chanBurst n) = .write a data →
    Answers (.burstGrant true .bad) s (fun u => (u.chan n).status = stBusError ∧ (u.chan n).detail = 4 ∧ (u.chan n).queue = [] ∧
      s.Faulted u 0x32 2))

/-- Descriptors of a mover channel (R274, R275, R279, R282, R287 to R290). A descriptor that passes every check becomes the transfer of its
channel; one with another opcode, with operands that overlap, or that cannot be read ends with BAD_OPCODE, OVERLAP or BUS_ERROR and moves
nothing. A transfer whose last write has left posts its record, the channel then idle at the end of the chain; with FLUSH a zero-length
read of its destination goes first. -/
def Obligations.MoverDescriptorsRun : Prop :=
  (∀ (ch : BitVec 6) (d : Bytes) (s : State), (s.chan ch.toNat).state = .running → s.chanLine ch.toNat = 0 → (s.chan ch.toNat).queue = [] →
    (s.chan ch.toNat).held = none → s.haltClosed = false → (s.hpu (s.regBit (Reg.dmvChCfg ch.toNat) 10)).d3hot = false →
    (s.hpu (s.regBit (Reg.dmvChCfg ch.toNat) 10)).contained = false → s.chanStrict ch.toNat = false →
    byteAt d 0 = 1 → byteAt d 1 = 0 → leAt d 2 4 = 0 → leAt d 6 2 = 0 → leAt d 0x20 8 = 0 → leAt d 0x2C 4 = 0 → leAt d 0x38 8 = 0 →
    0 < leAt d 0x28 4 → leAt d 0x28 4 ≤ 2 ^ 28 → leAt d 0x10 8 + leAt d 0x28 4 ≤ leAt d 0x18 8 →
    Answers (.copy ch (.ok d) .notNeeded .notNeeded) s (fun t =>
      (t.chan ch.toNat).queue = [{ Transfer.blank with
        port := s.regBit (Reg.dmvChCfg ch.toNat) 10, bytes := leAt d 0x28 4, srcs := [(leAt d 0x10 8, leAt d 0x28 4)],
        dsts := [(leAt d 0x18 8, leAt d 0x28 4)], tag := BitVec.ofNat 64 (leAt d 8 8), next := BitVec.ofNat 64 (leAt d 0x30 8) }] ∧
      (t.chan ch.toNat).state = .running ∧ Only [.dmv] s t)) ∧
  (∀ (ch : BitVec 6) (d : Bytes) (a b : SglFetch) (s : State), (s.chan ch.toNat).state = .running → s.chanLine ch.toNat = 0 →
    (s.chan ch.toNat).queue = [] → (s.chan ch.toNat).held = none → s.haltClosed = false →
    (s.hpu (s.regBit (Reg.dmvChCfg ch.toNat) 10)).d3hot = false → (s.hpu (s.regBit (Reg.dmvChCfg ch.toNat) 10)).contained = false →
    byteAt d 0 ≠ 1 →
    Answers (.copy ch (.ok d) a b) s (fun t => (t.chan ch.toNat).status = stBadOpcode ∧ (t.chan ch.toNat).detail = 1 ∧
      (t.chan ch.toNat).queue = [] ∧ (t.chan ch.toNat).bytes = 0)) ∧
  (∀ (ch : BitVec 6) (d : Bytes) (s : State), (s.chan ch.toNat).state = .running → s.chanLine ch.toNat = 0 → (s.chan ch.toNat).queue = [] →
    (s.chan ch.toNat).held = none → s.haltClosed = false → (s.hpu (s.regBit (Reg.dmvChCfg ch.toNat) 10)).d3hot = false →
    (s.hpu (s.regBit (Reg.dmvChCfg ch.toNat) 10)).contained = false → s.chanStrict ch.toNat = false →
    byteAt d 0 = 1 → byteAt d 1 = 0 → leAt d 2 4 = 0 → leAt d 6 2 = 0 → leAt d 0x20 8 = 0 → leAt d 0x2C 4 = 0 → leAt d 0x38 8 = 0 →
    0 < leAt d 0x28 4 → leAt d 0x28 4 ≤ 2 ^ 28 → leAt d 0x10 8 < leAt d 0x18 8 + leAt d 0x28 4 →
    leAt d 0x18 8 < leAt d 0x10 8 + leAt d 0x28 4 →
    Answers (.copy ch (.ok d) .notNeeded .notNeeded) s (fun t => (t.chan ch.toNat).status = stOverlap ∧ (t.chan ch.toNat).detail = 1 ∧
      (t.chan ch.toNat).queue = [])) ∧
  (∀ (ch : BitVec 6) (e : BusResult) (a b : SglFetch) (s : State), (∀ d, e ≠ .ok d) → (s.chan ch.toNat).state = .running →
    s.chanLine ch.toNat = 0 → (s.chan ch.toNat).queue = [] → (s.chan ch.toNat).held = none → s.haltClosed = false →
    (s.hpu (s.regBit (Reg.dmvChCfg ch.toNat) 10)).d3hot = false → (s.hpu (s.regBit (Reg.dmvChCfg ch.toNat) 10)).contained = false →
    Answers (.copy ch e a b) s (fun t => (t.chan ch.toNat).status = stBusError ∧ (t.chan ch.toNat).detail = 6 ∧
      s.Faulted t 0x31 (ch.setWidth 8))) ∧
  (∀ (ch : BitVec 6) (x : Transfer) (rest : List Transfer) (s : State), (s.chan ch.toNat).queue = x :: rest →
    (s.chan ch.toNat).state = .running → s.chanLine ch.toNat = 0 → x.dsts ≠ [] → x.bytes ≤ x.moved → x.flush = false → x.next = 0 →
    (s.chan ch.toNat).flushWait = false → s.mqRoom (s.regField (Reg.dmvChCfg ch.toNat) 12 3) = true →
    (s.mq (s.regField (Reg.dmvChCfg ch.toNat) 12 3)).waiting = [] →
    Answers (.transferComplete ch) s (fun t => (t.chan ch.toNat).state = .idle ∧ (t.chan ch.toNat).queue = [] ∧
      (t.chan ch.toNat).status = stOk ∧
      Out.mqRecord (s.regField (Reg.dmvChCfg ch.toNat) 12 3) (s.mq (s.regField (Reg.dmvChCfg ch.toNat) 12 3)).prod
        { channel := ch.setWidth 8, status := stOk, detail := 0, bytes := BitVec.ofNat 32 x.moved, tag := x.tag } ∈ t.out ∧
      (t.mq (s.regField (Reg.dmvChCfg ch.toNat) 12 3)).prod = posAdd (s.mqN (s.regField (Reg.dmvChCfg ch.toNat) 12 3))
        (s.mq (s.regField (Reg.dmvChCfg ch.toNat) 12 3)).prod 1)) ∧
  (∀ (ch : BitVec 6) (x : Transfer) (rest : List Transfer) (s : State), (s.chan ch.toNat).queue = x :: rest →
    (s.chan ch.toNat).state = .running → x.dsts ≠ [] → x.bytes ≤ x.moved → x.flush = true → x.dstPool = false →
    (s.chan ch.toNat).flushWait = false → rangeAt x.srcs x.bytes = none → s.freeTags x.port ≠ [] →
    Answers (.transferComplete ch) s (fun t => (t.chan ch.toNat).flushWait = true ∧ (t.chan ch.toNat).queue = x :: rest ∧
      ∃ r ∈ t.dmv.reads, r.user = .chan ch.toNat ∧ r.len = 0 ∧ r.dead = false ∧
        Out.memRead x.port r.tag (((rangeAt x.dsts (x.bytes - 1)).map (fun y => y.1)).getD 0) 0 ∈ t.out)) ∧
  (∀ (ch : BitVec 6) (bytes : Bytes) (r : HostRead) (x : Transfer) (rest : List Transfer) (s : State), (s.chan ch.toNat).flushWait = true →
    s.dmv.reads = [r] → r.user = .chan ch.toNat → r.dead = false → r.len = 0 → (s.chan ch.toNat).queue = x :: rest →
    s.chanLine ch.toNat = 0 → s.mqRoom (s.regField (Reg.dmvChCfg ch.toNat) 12 3) = true →
    (s.mq (s.regField (Reg.dmvChCfg ch.toNat) 12 3)).waiting = [] →
    Answers (.flushReadComplete ch (.ok bytes)) s (fun t => (t.chan ch.toNat).flushWait = false ∧ (t.chan ch.toNat).status = stOk ∧
      t.dmv.reads = [] ∧
      Out.mqRecord (s.regField (Reg.dmvChCfg ch.toNat) 12 3) (s.mq (s.regField (Reg.dmvChCfg ch.toNat) 12 3)).prod
        { channel := ch.setWidth 8, status := stOk, detail := 0, bytes := BitVec.ofNat 32 x.moved, tag := x.tag } ∈ t.out)) ∧
  (∀ (ch : BitVec 6) (x : Transfer) (io : Io) (s : State), (s.chan ch.toNat).queue = [x] → (s.chan ch.toNat).state = .running →
    s.chanLine ch.toNat ≠ 0 → x.dsts ≠ [] → x.bytes ≤ x.moved → x.flush = false → (s.chan ch.toNat).flushWait = false →
    s.ios = [io] → x.io = some io.id → io.kind = .read → io.lost = [] →
    Answers (.transferComplete ch) s (fun t => t.ios = [] ∧ (t.chan ch.toNat).state = .idle ∧ (t.chan ch.toNat).queue = [] ∧
      (t.chan ch.toNat).status = stOk))

/-- The registers of channels and completion queues (R206, R279 to R281, R287). ENABLE takes a DISABLED channel to IDLE; SW_REQ runs the
chain of a line 0 channel whose DESC is not 0; DESC is written in IDLE and HALTED; disabling drops the descriptor and quarantines the tags
of a line 0 channel, is refused with 0x35 for the last channel of lines 1 to 4, and hands the transfers of another one to the rest of its
line. Enabling a queue with a BASE and a size sets both its positions to 0; a consumer doorbell that fails a check raises 0x22 with its
detail, and one that passes moves the consumer. -/
def Obligations.ChannelAndQueueRegisters : Prop :=
  (∀ (ch : BitVec 6) (s : State), s.haltClosed = false → s.gcs.phase ≠ .dock → (s.chan ch.toNat).state = .disabled → s.dmv.unassigned = [] →
    Answers (.channelEnable ch) s (fun t => t.chan ch.toNat = { s.chan ch.toNat with state := .idle, enable := true } ∧
      (∀ k, k ≠ ch.toNat → t.chan k = s.chan k) ∧ Only [.dmv] s t)) ∧
  (∀ (ch : BitVec 6) (s : State), s.haltClosed = false → s.gcs.phase ≠ .dock → s.chanLine ch.toNat = 0 →
    ((s.chan ch.toNat).state = .idle ∨ (s.chan ch.toNat).state = .halted) → (s.chan ch.toNat).desc ≠ 0 →
    Answers (.swReq ch) s (fun t => t.chan ch.toNat = { s.chan ch.toNat with state := .running, swReq := true } ∧
      (∀ k, k ≠ ch.toNat → t.chan k = s.chan k) ∧ Only [.dmv] s t)) ∧
  (∀ (ch : BitVec 6) (value : Word64) (s : State), s.haltClosed = false → s.gcs.phase ≠ .dock →
    ((s.chan ch.toNat).state = .idle ∨ (s.chan ch.toNat).state = .halted) →
    Answers (.channelDesc ch value) s (fun t => t.chan ch.toNat = { s.chan ch.toNat with desc := value &&& ~~~63#64 } ∧ Only [.dmv] s t)) ∧
  (∀ (ch : BitVec 6) (value : Word64) (s : State), s.haltClosed = false → s.gcs.phase ≠ .dock →
    (s.chan ch.toNat).state ≠ .idle → (s.chan ch.toNat).state ≠ .halted →
    Answers (.channelDesc ch value) s (fun t => t = s)) ∧
  (∀ (ch : BitVec 6) (s : State), s.haltClosed = false → s.gcs.phase ≠ .dock → (s.chan ch.toNat).state ≠ .disabled →
    s.chanLine ch.toNat = 0 →
    Answers (.channelDisable ch) s (fun t => (t.chan ch.toNat).state = .disabled ∧ (t.chan ch.toNat).enable = false ∧
      (t.chan ch.toNat).queue = [] ∧ (∀ r ∈ t.dmv.reads, r.user ≠ .chan ch.toNat) ∧
      (∀ r ∈ s.dmv.reads, r.user = .chan ch.toNat → (r.port, r.tag, false) ∈ t.dmv.quarantine))) ∧
  (∀ (ch : BitVec 6) (s : State), s.haltClosed = false → s.gcs.phase ≠ .dock → (s.chan ch.toNat).state ≠ .disabled →
    1 ≤ s.chanLine ch.toNat → s.chanLine ch.toNat ≤ 4 →
    (∀ m, m < 64 → m ≠ ch.toNat → ¬ ((s.chan m).enable = true ∧ s.chanLine m = s.chanLine ch.toNat)) →
    Answers (.channelDisable ch) s (fun t => t.dmv = s.dmv ∧ s.Faulted t 0x35 (ch.setWidth 8))) ∧
  (∀ (ch : BitVec 6) (m : Nat) (x : Transfer) (s : State), s.haltClosed = false → s.gcs.phase ≠ .dock →
    (s.chan ch.toNat).state ≠ .disabled → 1 ≤ s.chanLine ch.toNat → s.chanLine ch.toNat ≤ 4 → m < 64 → m ≠ ch.toNat →
    (∀ k, k < 64 → k ≠ ch.toNat → ((s.chan k).enable = true ∧ s.chanLine k = s.chanLine ch.toNat ↔ k = m)) →
    (s.chan ch.toNat).queue = [x] → s.dmv.reads = [] →
    Answers (.channelDisable ch) s (fun t => (t.chan ch.toNat).state = .disabled ∧ (t.chan ch.toNat).queue = [] ∧
      (t.chan m).queue = (s.chan m).queue ++ [x.restart])) ∧
  (∀ (q : BitVec 3) (s : State), s.haltClosed = false → s.gcs.phase ≠ .dock → (s.mq q.toNat).enabled = false →
    s.regN (Reg.dmvMqBase q.toNat) ≠ 0 → 4 ≤ s.regField (Reg.dmvMqCfg q.toNat) 0 5 → s.regField (Reg.dmvMqCfg q.toNat) 0 5 ≤ 16 →
    (s.mq q.toNat).waiting = [] →
    Answers (.mqEnable q true) s (fun t =>
      t.mq q.toNat = { s.mq q.toNat with enabled := true, prod := 0, cons := 0, unsignalled := 0 } ∧ Only [.dmv] s t)) ∧
  (∀ (q : BitVec 3) (s : State), s.haltClosed = false → s.gcs.phase ≠ .dock →
    Answers (.mqEnable q false) s (fun t => t.mq q.toNat = { s.mq q.toNat with enabled := false } ∧ Only [.dmv] s t)) ∧
  (∀ (q : BitVec 3) (value : Word32) (s : State), s.haltClosed = false → s.gcs.phase ≠ .dock → (s.mq q.toNat).enabled = true →
    value.toNat < 2 ^ 17 → value.toNat % 2 ^ 16 < s.mqN q.toNat →
    posCount (s.mqN q.toNat) (s.mq q.toNat).cons (value.toNat % 2 ^ 16 + s.mqN q.toNat * bitsOf value.toNat 16 1) ≤
      posCount (s.mqN q.toNat) (s.mq q.toNat).cons (s.mq q.toNat).prod → (s.mq q.toNat).waiting = [] →
    Answers (.mqCons q value) s (fun t => t.mq q.toNat =
      { s.mq q.toNat with cons := value.toNat % 2 ^ 16 + s.mqN q.toNat * bitsOf value.toNat 16 1 } ∧ Only [.dmv] s t)) ∧
  (∀ (q : BitVec 3) (value : Word32) (det : Byte) (s : State), s.haltClosed = false → s.gcs.phase ≠ .dock →
    consCheck (s.mq q.toNat).enabled (s.mqN q.toNat) (s.mq q.toNat).cons (s.mq q.toNat).prod value.toNat = some det →
    Answers (.mqCons q value) s (fun t => t.dmv = s.dmv ∧ s.Faulted t 0x22 det))

/-! ## The pair link -/

/-- The link (R406, R410 to R412). A flit in order brings the link up, takes its SEQ, and drops the sent flits it acknowledges; one out of
order is answered with NAK and changes nothing else; NAK sends every flit after its ACK again; the fourth failure of one flit, a lane lost
on 4 lanes, and a link that goes down raise 0xD1 with the cause, and in PAIRED the partner is probed over the chain; the first lane lost
leaves 4 lanes and raises 0xD0. A unit that is neither JOINING nor PAIRED takes no flit. -/
def Obligations.FlitsAreTakenInOrder : Prop :=
  (∀ (h : FlitHdr) (s : State), s.accepts h →
    Answers (.flitIdle h) s (fun t => t.pair = s.pair.took h ∧ t.regN Reg.pairFlitsRx = (s.regN Reg.pairFlitsRx + 1) % 2 ^ 64 ∧
      Only [.regs, .pair, .role] s t)) ∧
  (∀ (h : FlitHdr) (s : State), s.pair.state ≠ .joining → s.pair.state ≠ .paired → Answers (.flitIdle h) s (fun t => t = s)) ∧
  (∀ (h : FlitHdr) (s : State), s.gcs.pwrgd = true → Config.hasPair s.part = true → (s.pair.state = .joining ∨ s.pair.state = .paired) →
    s.pair.link = true → h.seq ≠ s.pair.seqRx + 1 →
    Answers (.flitIdle h) s (fun t => t.pair.seqRx = s.pair.seqRx ∧ t.pair.failures = 1 ∧ t.pair.link = true ∧
      Out.flit (s.pair.seqTx + 1) s.pair.seqRx 1 0 [] ∈ t.out ∧ Only [.regs, .pair, .role, .out] s t)) ∧
  (∀ (h : FlitHdr) (s : State), s.accepts h → ¬ (s.pair.nakRun ≠ 0 ∧ s.pair.nakSeq = h.ack) →
    Answers (.flitNak h) s (fun t => t.pair = { s.pair.took h with nakSeq := h.ack, nakRun := 1 } ∧
      (∀ f ∈ ackTrim h.ack s.pair.replayBuf, Out.flit f.1 h.seq f.2.1 f.2.2.1 f.2.2.2 ∈ t.out) ∧
      Only [.regs, .pair, .role, .out] s t)) ∧
  (∀ (h : FlitHdr) (s : State), s.accepts h → s.pair.nakRun = 3 → s.pair.nakSeq = h.ack →
    Answers (.flitNak h) s (fun t => t.pair.link = false ∧ s.Faulted t 0xD1 2)) ∧
  (∀ s : State, s.pair.link = true → s.pair.failures < 3 →
    Answers (.flitError true) s (fun t => t.pair.failures = s.pair.failures + 1 ∧ t.pair.link = true ∧
      Out.flit (s.pair.seqTx + 1) s.pair.seqRx 1 0 [] ∈ t.out ∧ Only [.regs, .pair, .role, .out] s t)) ∧
  (∀ s : State, s.pair.link = true → s.pair.failures = 3 →
    Answers (.flitError true) s (fun t => t.pair.link = false ∧ t.pair.failures = 0 ∧ s.Faulted t 0xD1 2)) ∧
  (∀ (detail : Byte) (s : State), s.pair.link = true → s.pair.state = .paired → s.pair.partnerValid = true →
    Answers (.pairLinkDown detail) s (fun t => t.pair.link = false ∧ t.pair.lanesUp = 0 ∧ t.pair.probing = true ∧
      (∃ seq, Out.chainFrame 8 seq [BitVec.ofNat 8 (ofBool s.pair.side)] ∈ t.out) ∧ s.Faulted t 0xD1 detail)) ∧
  (∀ (detail : Byte) (s : State), s.pair.link = true → s.pair.state ≠ .paired →
    Answers (.pairLinkDown detail) s (fun t => t.pair.link = false ∧ t.pair.state = s.pair.state ∧ t.pair.probing = s.pair.probing ∧
      s.Faulted t 0xD1 detail)) ∧
  (∀ (lane : BitVec 3) (s : State), s.pair.link = true → s.pair.lanesUp = 8 →
    Answers (.pairLaneRetrain lane) s (fun t => t.pair.lanesUp = 4 ∧ t.pair.lanesHigh = decide (lane.toNat < 4) ∧ t.pair.link = true ∧
      s.Faulted t 0xD0 4)) ∧
  (∀ (lane : BitVec 3) (s : State), s.pair.link = true → s.pair.lanesUp = 4 → decide (4 ≤ lane.toNat) = s.pair.lanesHigh →
    Answers (.pairLaneRetrain lane) s (fun t => t.pair.link = false ∧ s.Faulted t 0xD1 3))

/-- What the flits of a pair carry (R397, R401 to R405). A unit of the mirror is kept at its position, and a record of one unit is
acknowledged; an acknowledged record is durable at the partner and commits once it is durable here; forwarded descriptors wait for
admission; a grant with a status other than OK ends the forwarded entry, one with OK gives it its version; data of a forwarded READ is
kept until it is whole; a forwarded entry that failed ends; a partner ready to seal is kept; and the token changes hands. -/
def Obligations.FlitsCarryThePair : Prop :=
  (∀ (h : FlitHdr) (position : Word64) (u : Bytes) (s : State), s.accepts h → s.pair.state = .paired → s.pair.mirror = [] →
    recHeader u (position.toNat % s.halfUnits) = none → u ≠ [] →
    Answers (.flitMirror h position [u]) s (fun t => Tab.get t.pair.mirrorUnits [] (position.toNat % s.halfUnits) = u ∧
      t.pair.mirror = [] ∧ Only [.regs, .pair, .role] s t)) ∧
  (∀ (h : FlitHdr) (position : Word64) (u : Bytes) (r : Rec) (s : State), s.accepts h → s.pair.state = .paired → s.pair.mirror = [] →
    recHeader u (position.toNat % s.halfUnits) = some r → r.units = 1 →
    Answers (.flitMirror h position [u]) s (fun t => (∃ ack, Out.flit (s.pair.seqTx + 1) ack 3 r.seq (leBytes 8 r.seq) ∈ t.out) ∧
      Tab.get t.pair.mirrorUnits [] (position.toNat % s.halfUnits) = u)) ∧
  (∀ (h : FlitHdr) (seqs : List Word64) (s : State), s.accepts h →
    (∀ r ∈ s.log.recs, BitVec.ofNat 64 r.seq ∈ seqs → r.localDone = false) → (∀ r ∈ s.log.recs, r.seq < 2 ^ 64) → s.scc.asks = [] →
    Answers (.flitMirrorAck h seqs) s (fun t => ∀ r ∈ s.log.recs, BitVec.ofNat 64 r.seq ∈ seqs → r.status = .writing →
      { r with partner := true } ∈ t.log.recs)) ∧
  (∀ (h : FlitHdr) (r : Rec) (s : State), s.accepts h → s.log.recs = [r] → r.seq < 2 ^ 64 → r.typ = .sealRec → r.status = .writing →
    r.localDone = true → s.ios = [] →
    Answers (.flitMirrorAck h [BitVec.ofNat 64 r.seq]) s (fun t => { r with partner := true, status := .committed } ∈ t.log.recs ∧
      t.regN Reg.logCommits = (s.regN Reg.logCommits + 1) % 2 ^ 64)) ∧
  (∀ (h : FlitHdr) (f : FwdDesc) (s : State), s.accepts h → s.pair.state = .paired → s.gcs.phase = .recovery →
    1 ≤ (fwdDesc f).opcode.toNat → (fwdDesc f).opcode.toNat ≤ 4 →
    Answers (.flitFwdDesc h [f]) s (fun t => t.pair = { s.pair.took h with forwarded := [f] } ∧ Only [.regs, .pair, .role] s t)) ∧
  (∀ (h : FlitHdr) (ref : Word64) (status detail : Byte) (watch : BitVec 48) (gen : Word32) (io : Io) (s : State), s.accepts h →
    s.awayIo ref.toNat = some io → status ≠ stOk →
    Answers (.flitFwdGrant h ref status detail watch gen) s (fun t => ∀ j ∈ t.ios, j.id ≠ io.id)) ∧
  (∀ (h : FlitHdr) (ref : Word64) (detail : Byte) (watch : BitVec 48) (gen : Word32) (io : Io) (s : State), s.accepts h →
    s.awayIo ref.toNat = some io → io.kind ≠ .write →
    Answers (.flitFwdGrant h ref stOk detail watch gen) s (fun t => { io with watch := watch, generation := gen } ∈ t.ios ∧
      Only [.regs, .pair, .role, .ios] s t)) ∧
  (∀ (h : FlitHdr) (ref : Word64) (data : Bytes) (io : Io) (s : State), s.accepts h → s.fwdIo ref.toNat = none →
    s.awayIo ref.toNat = some io → io.kind = .read → io.blocks = [] → data.length ≤ 192 →
    (io.inbound ++ data).length < io.desc.blocks * 4096 →
    Answers (.flitFwdData h ref data) s (fun t => { io with inbound := io.inbound ++ data } ∈ t.ios ∧
      Only [.regs, .pair, .role, .ios] s t)) ∧
  (∀ (h : FlitHdr) (ref : Word64) (status detail : Byte) (io : Io) (s : State), s.accepts h → s.awayIo ref.toNat = some io →
    (status ≠ stOk ∨ io.kind ≠ .read) →
    Answers (.flitFwdDone h ref status detail) s (fun t => ∀ j ∈ t.ios, j.id ≠ io.id)) ∧
  (∀ (h : FlitHdr) (ref : Word64) (detail : Byte) (io : Io) (s : State), s.accepts h → s.awayIo ref.toNat = some io → io.kind = .read →
    Answers (.flitFwdDone h ref stOk detail) s (fun t => t.ios = s.ios ∧ Only [.regs, .pair, .role] s t)) ∧
  (∀ (h : FlitHdr) (watch : BitVec 48) (holdover : Bool) (s : State), s.accepts h → s.pair.state = .paired →
    s.sealTarget ≤ s.wch.sealedWatch.toNat →
    Answers (.flitSealReady h watch holdover) s (fun t => t.wch.partnerReady = s.wch.partnerReady ++ [(watch, holdover)] ∧
      t.log = s.log)) ∧
  (∀ (h : FlitHdr) (s : State), s.accepts h → s.pair.token = false →
    Answers (.flitMeta h true []) s (fun t => t.pair = { s.pair.took h with token := true } ∧ Only [.regs, .pair, .role] s t)) ∧
  (∀ (h : FlitHdr) (s : State), s.accepts h → s.pair.token = true →
    Answers (.flitMeta h true []) s (fun t => t.pair.token = false ∧ Out.flit (s.pair.seqTx + 1) h.seq 9 0 [] ∈ t.out)) ∧
  (∀ (h : FlitHdr) (page : Bytes) (s : State), s.accepts h →
    Answers (.flitMeta h false page) s (fun t => t.pair = s.pair.took h ∧ Only [.regs, .pair, .role] s t))

/-- The states of a pair (R395, R396, R404, R406, R407). A partner that halts, does not answer a probe in time, is alive behind a link that
is down, or never appears after a reset is declared failed: TAKEOVER, 0xD2 with the cause, side 0 fencing it at once and side 1 after a
wait; with the partner fenced, TAKEOVER ends in ALONE with the next epoch. A unit whose fence input falls is FENCED and halts. In JOINING a
partner's state that passes the checks leads to PAIRED with the next epoch, one that fails sets the reason and raises 0xD4; a join without
a partner ends in the former state; a partner that leaves ends the pair. -/
def Obligations.PairStatesChange : Prop :=
  (∀ (h : FlitHdr) (s : State), s.accepts h → s.pair.state = .paired →
    Answers (.flitHaltNotice h) s (fun t => t.pair.state = .takeover ∧ t.pair.token = false ∧
      t.pair.fenceOut = (s.pair.fenceOut || !s.pair.side) ∧ t.pair.fenceWait = s.pair.side ∧ t.chn.alert = true)) ∧
  (∀ s : State, s.pair.state = .paired → s.pair.probing = true → s.log.recs = [] → s.ios = [] →
    Answers .probeTimeout s (fun t => t.pair.state = .takeover ∧ t.pair.probing = false ∧
      t.pair.fenceOut = (s.pair.fenceOut || !s.pair.side) ∧ t.pair.fenceWait = s.pair.side ∧ s.Faulted t 0xD2 2)) ∧
  (∀ (state : BitVec 3) (s : State), s.pair.state = .paired → s.pair.probing = true → s.log.recs = [] → s.ios = [] →
    s.pair.side = false → 1 ≤ state.toNat → state.toNat ≤ 4 →
    Answers (.probeReply state true) s (fun t => t.pair.state = .takeover ∧ t.pair.fenceOut = true ∧ t.pair.fenceWait = false ∧
      s.Faulted t 0xD2 3)) ∧
  (∀ (state : BitVec 3) (down : Bool) (s : State), s.pair.state = .paired → s.pair.probing = true → 1 ≤ state.toNat → state.toNat ≤ 4 →
    (down = false ∨ s.pair.side = true) →
    Answers (.probeReply state down) s (fun t => t.pair = { s.pair with probing := false } ∧ Only [.regs, .pair, .role] s t)) ∧
  (∀ s : State, s.pair.state = .joining → s.pair.afterReset = true → s.pair.link = false → s.log.recs = [] → s.ios = [] →
    Answers .pairWaitExpiry s (fun t => t.pair.state = .takeover ∧ t.pair.afterReset = false ∧ s.Faulted t 0xD2 4)) ∧
  (∀ s : State, s.pair.state = .takeover → s.pair.fenceWait = true →
    Answers .fenceWaitExpiry s (fun t => t.pair = { s.pair with fenceWait := false, fenceOut := true } ∧ Only [.pair, .role] s t)) ∧
  (∀ s : State, s.pair.state = .takeover → s.pair.fenceWait = false →
    (∀ i, i < 64 → (s.set i).state ≠ .empty → (s.set i).side = s.pair.side) →
    Answers .takeoverComplete s (fun t => t.pair.state = .alone ∧ t.pair.epoch = s.pair.epoch + 1 ∧ t.pair.mirror = [] ∧
      t.pair.takeovers = (s.pair.takeovers + 1) % 2 ^ 32)) ∧
  (∀ s : State, s.gcs.pwrgd = true → s.pair.state ≠ .single → s.pair.state ≠ .fenced →
    Answers .fenceInFall s (fun t => t.pair.state = .fenced ∧ t.pair.fenceInLow = true ∧ t.pair.link = false ∧ t.gcs.halted = true ∧
      t.dcmds = [] ∧ t.chn.alert = true ∧ (t.src 0xD3).isOpen = true ∧ (t.src 0xD3).lastDetail = 1)) ∧
  (∀ s : State, (s.pair.state = .single ∨ s.pair.state = .fenced) →
    Answers .fenceInFall s (fun t => t.pair = { s.pair with fenceInLow := true } ∧ Only [.pair, .role] s t)) ∧
  (∀ s : State, Answers .fenceInRise s (fun t => t.pair = { s.pair with fenceInLow := false } ∧ Only [.pair, .role] s t)) ∧
  (∀ (h : FlitHdr) (ps : PartnerState) (s : State), s.accepts h → s.pair.state = .joining → ps.leaving = false → ps.joining = true →
    s.joinFault ps = none → s.pair.joinSrc = none →
    Answers (.flitState h ps) s (fun t => t.pair.state = .paired ∧ t.pair.epoch = s.pair.epoch + 1 ∧ t.pair.token = !s.pair.side ∧
      t.pair.link = true ∧ t.pair.partnerValid = ps.chainValid)) ∧
  (∀ (h : FlitHdr) (ps : PartnerState) (st det : Byte) (reason port : Nat) (src : CmdSrc) (d : Deferred) (s : State), s.accepts h →
    s.pair.state = .joining → ps.leaving = false → ps.joining = true → s.joinFault ps = some (st, det, reason, port) →
    reason < 8 → s.pair.afterReset = false → s.pair.joinSrc = some src → s.interp.deferred = [d] → d.src = src →
    Answers (.flitState h ps) s (fun t => t.pair.state = s.pair.former ∧ t.pair.joinSrc = none ∧ t.interp.deferred = [] ∧
      t.srcQueue src = (s.srcQueue src).drop 1 ∧ t.regN Reg.pairJoinFail = reason + 2 ^ 8 * port ∧ s.Faulted t 0xD4 (BitVec.ofNat 8 reason))) ∧
  (∀ (h : FlitHdr) (ps : PartnerState) (s : State), s.accepts h → s.pair.state = .paired → ps.leaving = true →
    Answers (.flitState h ps) s (fun t => t.pair.state = .single ∧ t.pair.mirror = [] ∧ t.pair.token = false ∧ t.pair.fenceOut = false ∧
      Only [.regs, .pair, .role] s t)) ∧
  (∀ (src : CmdSrc) (d : Deferred) (s : State), s.pair.state = .joining → s.pair.joinSrc = some src → s.pair.afterReset = false →
    s.interp.deferred = [d] → d.src = src →
    Answers .joinTimeout s (fun t => t.pair.state = s.pair.former ∧ t.pair.link = false ∧ t.pair.joinSrc = none ∧
      t.pair.fenceOut = decide (s.pair.former = .alone) ∧ t.interp.deferred = [] ∧ t.srcQueue src = (s.srcQueue src).drop 1))

/-! ## The Tilel chain -/

/-- The chain (R151, R406, R414 to R419, R422, R474). A CMD frame queues its packet; while one is executing its own SEQ again is ignored and
another SEQ is dropped, counted, and reported by 0xD6; the SEQ of the last command that replied gets its stored reply. Scratch frames whose
range obeys the rules write and read the scratch buffer, others answer BAD_FIELD. TOD, ENUM, ALERT_QUERY, breaks and frames for others are
passed on; ENUM gives a unit without an address its hop count and raises 0xD7 from 32 on; the alert is answered and cleared; a frame
whose CRC fails is counted and raises 0xD5. A debug attempt on a locked unit raises 0xE4. -/
def Obligations.ChainFrames : Prop :=
  (∀ (seq : Byte) (packet : Bytes) (s : State), s.onChain = true → packet.length = 128 → s.interp.chainBusySeq = none →
    s.interp.chainLastSeq ≠ some seq → s.gcs.phase ≠ .dock →
    Answers (.chainCmd seq packet) s (fun t => t.srcQueue .chain = s.srcQueue .chain ++ [packet] ∧ t.interp.chainBusySeq = some seq ∧
      t.regN Reg.chnFramesRx = (s.regN Reg.chnFramesRx + 1) % 2 ^ 32 ∧ Only [.regs, .interp] s t)) ∧
  (∀ (seq : Byte) (packet : Bytes) (s : State), s.onChain = true → packet.length = 128 → s.interp.chainBusySeq = some seq →
    Answers (.chainCmd seq packet) s (fun t => t = s)) ∧
  (∀ (seq q : Byte) (packet : Bytes) (s : State), s.onChain = true → packet.length = 128 → s.interp.chainBusySeq = some q → q ≠ seq →
    Answers (.chainCmd seq packet) s (fun t => t.interp = s.interp ∧ s.Faulted t 0xD6 seq ∧
      t.regN Reg.chnBusyDrops = (s.regN Reg.chnBusyDrops + 1) % 2 ^ 32)) ∧
  (∀ (seq : Byte) (packet : Bytes) (s : State), s.onChain = true → packet.length = 128 → s.interp.chainBusySeq = none →
    s.interp.chainLastSeq = some seq → s.gcs.phase ≠ .dock →
    Answers (.chainCmd seq packet) s (fun t => t.interp = s.interp ∧ t.out = .chainFrame 0x81 seq s.interp.chainReply :: s.out ∧
      Only [.regs, .out] s t)) ∧
  (∀ (seq : Byte) (offset : Half) (data : Bytes) (s : State), s.onChain = true → offset.toNat % 4 = 0 → data.length % 4 = 0 →
    1 ≤ data.length → data.length ≤ 256 → offset.toNat + data.length ≤ 65536 →
    Answers (.scratchWrite seq offset data) s (fun t => t.out = .chainFrame 0x82 seq [0] :: s.out ∧
      (∀ i, i < data.length → Memory.read t.interp.scratch (offset.toNat + i) = data.getD i 0) ∧
      (∀ a, (a < offset.toNat ∨ offset.toNat + data.length ≤ a) → Memory.read t.interp.scratch a = Memory.read s.interp.scratch a) ∧
      Only [.regs, .interp, .scratch, .out] s t)) ∧
  (∀ (seq : Byte) (offset : Half) (data : Bytes) (s : State), s.onChain = true → scratchOk offset.toNat data.length = false →
    Answers (.scratchWrite seq offset data) s (fun t => t.out = .chainFrame 0x82 seq [stBadField] :: s.out ∧ Only [.regs, .out] s t)) ∧
  (∀ (seq : Byte) (offset count : Half) (s : State), s.onChain = true → offset.toNat % 4 = 0 → count.toNat % 4 = 0 → 1 ≤ count.toNat →
    count.toNat ≤ 256 → offset.toNat + count.toNat ≤ 65536 →
    Answers (.scratchRead seq offset count) s (fun t => t.out = .chainFrame 0x83 seq
      ((List.range count.toNat).map (fun i => Memory.read s.interp.scratch (offset.toNat + i))) :: s.out ∧ Only [.regs, .out] s t)) ∧
  (∀ (seq : Byte) (offset count : Half) (s : State), s.onChain = true → scratchOk offset.toNat count.toNat = false →
    Answers (.scratchRead seq offset count) s (fun t => t.out = .chainFrame 0x83 seq [stBadField] :: s.out ∧ Only [.regs, .out] s t)) ∧
  (∀ (value : Word64) (s : State), s.gcs.pwrgd = true → value.toNat % 1000000000 = 0 → s.regBit Reg.wchCtl 0 = true →
    s.wch.todSrc = none →
    Answers (.chainTod value) s (fun t => t.wch.tod = some value ∧ t.wch.todSrc = none ∧ t.wch.todArrival = s.wch.fixNs ∧
      t.out = .chainForward (4 :: leBytes 8 value.toNat) :: s.out)) ∧
  (∀ (value : Word64) (s : State), s.gcs.pwrgd = true → value.toNat % 1000000000 ≠ 0 →
    Answers (.chainTod value) s (fun t => t.wch = s.wch ∧ s.Faulted t 0xDB 2 ∧ Out.chainForward (4 :: leBytes 8 value.toNat) ∈ t.out)) ∧
  (∀ (hop : Byte) (s : State), s.gcs.pwrgd = true → hop.toNat < 32 → s.chn.address = none → s.pair.link = false →
    Answers (.chainEnum hop) s (fun t => t.chn = { s.chn with address := some (hop.setWidth 5) } ∧
      t.out = .chainForward [5, hop + 1] :: s.out ∧ Only [.chn, .address, .out] s t)) ∧
  (∀ (hop : Byte) (s : State), s.gcs.pwrgd = true → 32 ≤ hop.toNat →
    Answers (.chainEnum hop) s (fun t => t.chn.address = s.chn.address ∧ s.Faulted t 0xD7 hop ∧
      Out.chainForward [5, hop + 1] ∈ t.out)) ∧
  (∀ (seq : Byte) (s : State), s.gcs.pwrgd = true → s.chn.alert = true →
    Answers (.alertQuery seq) s (fun t => t.out = .chainFrame 0x87 seq s.newestRev :: .chainForward [7] :: s.out ∧ Only [.regs, .out] s t)) ∧
  (∀ (seq : Byte) (s : State), s.gcs.pwrgd = true → s.chn.alert = false →
    Answers (.alertQuery seq) s (fun t => t.out = .chainForward [7] :: s.out ∧ Only [.regs, .out] s t)) ∧
  (∀ (seq src : Byte) (side : Bool) (s : State), s.onChain = true →
    Answers (.chainProbe seq src side) s (fun t => t.out = .chainFrame 0x88 seq
      [BitVec.ofNat 8 s.pair.state.code, if s.pair.link then 0 else 1] :: s.out ∧ Only [.regs, .out] s t)) ∧
  (∀ s : State, s.onChain = true → Answers .alertAck s (fun t => t.chn = { s.chn with alert := false } ∧ Only [.regs, .chn] s t)) ∧
  (∀ s : State, s.haltClosed = false → s.gcs.phase ≠ .dock →
    Answers .alertClr s (fun t => t.chn = { s.chn with alert := false } ∧ Only [.chn] s t)) ∧
  (∀ s : State, s.gcs.pwrgd = true →
    Answers .chainBreak s (fun t => t.chn = { s.chn with address := none } ∧ Out.chainForward [] ∈ t.out ∧
      (∀ o ∈ s.out, o ∈ t.out))) ∧
  (∀ (dest : Byte) (frame : Bytes) (s : State), s.gcs.pwrgd = true →
    (dest.getLsbD 5 = true ∨ dest.getLsbD 6 = true ∨ s.chn.address ≠ some (dest.setWidth 5)) →
    Answers (.chainFrameForward dest frame) s (fun t => t.out = .chainForward frame :: s.out ∧ Only [.out] s t)) ∧
  (∀ s : State, s.gcs.pwrgd = true →
    Answers (.chainFrameCrcError true) s (fun t => t.regN Reg.chnCrcErrors = (s.regN Reg.chnCrcErrors + 1) % 2 ^ 32 ∧
      s.Faulted t 0xD5 (BitVec.ofNat 8 ((s.regN Reg.chnCrcErrors + 1) % 2 ^ 32)))) ∧
  (∀ s : State, s.gcs.pwrgd = false → Answers (.chainFrameCrcError true) s (fun t => t = s)) ∧
  (∀ s : State, s.sec.lock ≠ 0 → Answers .jtagDebugAttempt s (fun t => s.Faulted t 0xE4 1 ∧ t.sec = s.sec)) ∧
  (∀ s : State, s.sec.lock = 0 → Answers .jtagDebugAttempt s (fun t => t = s))
end

