-- ==== Sys2Proof/Laws/Only.lean ====
section
/-! SUPPORT. The frame relation of Sys2Proof/Safety.lean: how it is built up along a meaning, one named update at a time. -/

namespace Sys2Proof.Machine

/-- Every part listed in a is listed in b. -/
def sub (a b : List Field) : Bool := a.all (fun f => decide (f ∈ b))

theorem sub_mem {a b : List Field} (h : sub a b = true) {f : Field} (hf : f ∈ a) : f ∈ b := by
  simp only [sub, List.all_eq_true, decide_eq_true_eq] at h
  exact h f hf

theorem sub_mono {a b c : List Field} (hb : sub b c = true) (ha : sub a b = true) : sub a c = true := by
  simp only [sub, List.all_eq_true, decide_eq_true_eq] at *
  exact fun f hf => hb f (ha f hf)

theorem Agree.refl (s : State) (f : Field) : Agree s s f := by
  cases f <;> first
    | rfl
    | exact ⟨rfl, rfl, rfl, rfl, rfl⟩
    | exact fun _ => rfl
    | exact fun h => h

theorem Agree.trans {s t u : State} {f : Field} (h : Agree s t f) (k : Agree t u f) : Agree s u f := by
  cases f <;> first
    | exact Eq.trans k h
    | exact ⟨k.1.trans h.1, k.2.1.trans h.2.1, k.2.2.1.trans h.2.2.1, k.2.2.2.1.trans h.2.2.2.1, k.2.2.2.2.trans h.2.2.2.2⟩
    | exact fun p => (k p).trans (h p)
    | exact fun p => k (h p)
    | exact fun p => (k (by rw [h p]; exact p)).trans (h p)

theorem Only.refl (m : List Field) (s : State) : Only m s s := fun f _ => Agree.refl s f

theorem Only.trans {m : List Field} {s t u : State} (h : Only m s t) (k : Only m t u) : Only m s u :=
  fun f hf => (h f hf).trans (k f hf)

theorem Only.mono {a b : List Field} {s t : State} (h : Only a s t) (hs : sub a b = true) : Only b s t :=
  fun f hf => h f (fun hm => hf (sub_mem hs hm))

theorem Only.next {m : List Field} {s t : State} (h : Only m s t) : OnlyNext m s (.next t) := by
  intro u hu
  cases hu
  exact h

theorem only_ite {m : List Field} {s0 a b : State} {c : Prop} [Decidable c] (ha : c → Only m s0 a) (hb : ¬c → Only m s0 b) :
    Only m s0 (if c then a else b) := by
  split
  · exact ha ‹_›
  · exact hb ‹_›

theorem only_iteNext {m : List Field} {s0 : State} {a b : Host.Outcome State Fault Refusal} {c : Prop} [Decidable c]
    (ha : c → OnlyNext m s0 a) (hb : ¬c → OnlyNext m s0 b) : OnlyNext m s0 (if c then a else b) := by
  split
  · exact ha ‹_›
  · exact hb ‹_›

theorem only_iteFst {m : List Field} {s0 : State} {α : Type} {a b : State × α} {c : Prop} [Decidable c] (ha : c → Only m s0 a.1)
    (hb : ¬c → Only m s0 b.1) : Only m s0 (if c then a else b).1 := by
  split
  · exact ha ‹_›
  · exact hb ‹_›

theorem only_pair {m : List Field} {s0 a : State} {α : Type} {b : α} {x : State × α} (e : x = (a, b)) (h : Only m s0 x.1) :
    Only m s0 a := by
  rw [e] at h
  exact h

/-- The frame of an operation that may give no state. -/
def OnlyOpt (m : List Field) (s0 : State) (o : Option State) : Prop := ∀ t, o = some t → Only m s0 t

/-- The frame of an operation that may give no state, with what it gives beside the state. -/
def OnlyOptFst {α : Type} (m : List Field) (s0 : State) (o : Option (State × α)) : Prop := ∀ t, o = some t → Only m s0 t.1

theorem only_opt {m : List Field} {s0 t : State} {o : Option State} (e : o = some t) (h : OnlyOpt m s0 o) :
    Only m s0 t := h t e

theorem only_optPair {m : List Field} {s0 t : State} {α : Type} {b : α} {o : Option (State × α)} (e : o = some (t, b))
    (h : OnlyOptFst m s0 o) : Only m s0 t := h (t, b) e

theorem only_getD {m : List Field} {s0 s : State} {o : Option State} (h : Only m s0 s) (ho : OnlyOpt m s0 o) :
    Only m s0 (o.getD s) := by
  cases o with
  | none => exact h
  | some t => exact ho t rfl

theorem only_mapOpt {α : Type} {m : List Field} {s0 : State} {o : Option (State × α)} {f : State × α → State}
    (ho : OnlyOptFst m s0 o) (hf : ∀ p, Only m s0 p.1 → Only m s0 (f p)) : OnlyOpt m s0 (o.map f) := by
  intro t ht
  cases o with
  | none => cases ht
  | some p =>
    cases ht
    exact hf p (ho p rfl)

theorem only_mapState {α : Type} {m : List Field} {s0 : State} {o : Option State} {f : State → State × α}
    (ho : OnlyOpt m s0 o) (hf : ∀ p, Only m s0 p → Only m s0 (f p).1) : OnlyOptFst m s0 (o.map f) := by
  intro t ht
  cases o with
  | none => cases ht
  | some p =>
    cases ht
    exact hf p (ho p rfl)

theorem only_mapFst {α β : Type} {m : List Field} {s0 : State} {o : Option (State × α)} {f : State × α → State × β}
    (ho : OnlyOptFst m s0 o) (hf : ∀ p, Only m s0 p.1 → Only m s0 (f p).1) : OnlyOptFst m s0 (o.map f) := by
  intro t ht
  cases o with
  | none => cases ht
  | some p =>
    cases ht
    exact hf p (ho p rfl)

theorem only_bindFst {α β : Type} {m : List Field} {s0 : State} {o : Option (State × α)} {f : State × α → Option (State × β)}
    (ho : OnlyOptFst m s0 o) (hf : ∀ p, Only m s0 p.1 → OnlyOptFst m s0 (f p)) : OnlyOptFst m s0 (o.bind f) := by
  intro t ht
  cases o with
  | none => cases ht
  | some p => exact hf p (ho p rfl) t ht

theorem only_foldlOpt {m : List Field} {s0 : State} {α β : Type} {f : Option (State × β) → α → Option (State × β)} {l : List α}
    {p : Option (State × β)} (h : OnlyOptFst m s0 p) (hf : ∀ p x, OnlyOptFst m s0 p → OnlyOptFst m s0 (f p x)) :
    OnlyOptFst m s0 (l.foldl f p) := by
  induction l generalizing p with
  | nil => exact h
  | cons x l ih => exact ih (hf p x h)

theorem only_someFst {m : List Field} {s0 : State} {α : Type} {p : State × α} (h : Only m s0 p.1) : OnlyOptFst m s0 (some p) := by
  intro t ht
  cases ht
  exact h

theorem only_some {m : List Field} {s0 s : State} (h : Only m s0 s) : OnlyOpt m s0 (some s) := by
  intro t ht
  cases ht
  exact h

theorem only_none {m : List Field} {s0 : State} : OnlyOpt m s0 none := fun _ ht => nomatch ht

theorem only_iteOpt {m : List Field} {s0 : State} {c : Prop} [Decidable c] {a b : Option State} (ha : c → OnlyOpt m s0 a)
    (hb : ¬c → OnlyOpt m s0 b) : OnlyOpt m s0 (if c then a else b) := by
  split
  · exact ha ‹_›
  · exact hb ‹_›

theorem only_iteOptFst {m : List Field} {s0 : State} {α : Type} {c : Prop} [Decidable c] {a b : Option (State × α)}
    (ha : c → OnlyOptFst m s0 a) (hb : ¬c → OnlyOptFst m s0 b) : OnlyOptFst m s0 (if c then a else b) := by
  split
  · exact ha ‹_›
  · exact hb ‹_›

theorem only_foldl {m : List Field} {s0 s : State} {α : Type} {f : State → α → State} {l : List α} (h : Only m s0 s)
    (hf : ∀ s x, Only m s0 s → Only m s0 (f s x)) : Only m s0 (l.foldl f s) := by
  induction l generalizing s with
  | nil => exact h
  | cons x l ih => exact ih (hf s x h)

theorem only_outcome {m : List Field} {s0 t : State} {o : Host.Outcome State Fault Refusal} (e : o = .next t)
    (h : OnlyNext m s0 o) : Only m s0 t := h t e

theorem only_foldr {m : List Field} {s0 s : State} {α : Type} {f : α → State → State} {l : List α} (h : Only m s0 s)
    (hf : ∀ x s, Only m s0 s → Only m s0 (f x s)) : Only m s0 (l.foldr f s) := by
  induction l with
  | nil => exact h
  | cons x l ih => exact hf x _ ih

theorem only_foldlFst {m : List Field} {s0 : State} {α β : Type} {f : State × β → α → State × β} {l : List α} {p : State × β}
    (h : Only m s0 p.1) (hf : ∀ p x, Only m s0 p.1 → Only m s0 (f p x).1) : Only m s0 (l.foldl f p).1 := by
  induction l generalizing p with
  | nil => exact h
  | cons x l ih => exact ih (hf p x h)

theorem Tab.get_insert {α : Type} (t : Tab α) (d v : α) (k j : Nat) :
    Tab.get (Tab.insert t k v) d j = if j = k then v else Tab.get t d j := by
  induction t with
  | nil => simp only [Tab.insert, Tab.get, eq_comm]
  | cons e r ih =>
    obtain ⟨i, w⟩ := e
    simp only [Tab.insert]
    split
    · simp only [Tab.get, eq_comm]
    · split
      · subst_vars
        simp only [Tab.get, eq_comm]
        split <;> rfl
      · simp only [Tab.get, ih]
        split <;> split <;> simp_all

theorem Tab.get_remove {α : Type} (t : Tab α) (d : α) (k j : Nat) :
    Tab.get (Tab.remove t k) d j = if j = k then d else Tab.get t d j := by
  induction t with
  | nil => simp [Tab.remove, Tab.get]
  | cons e r ih =>
    obtain ⟨i, w⟩ := e
    simp only [Tab.remove]
    split
    · subst_vars
      rw [ih]
      simp only [Tab.get, eq_comm]
      split <;> simp_all
    · simp only [Tab.get, ih]
      split <;> split <;> simp_all

/-- A key reads what was last set, every other key what it read before. -/
theorem Tab.get_set {α : Type} [DecidableEq α] (t : Tab α) (d v : α) (k j : Nat) :
    Tab.get (Tab.set t d k v) d j = if j = k then v else Tab.get t d j := by
  unfold Tab.set
  split
  · subst_vars
    rw [Tab.get_remove]
  · rw [Tab.get_insert]

theorem only_withGcs {m : List Field} {s0 s : State} (h : Only m s0 s) (hm : sub [.gcs] m = true) {v : Gcs} (h0 : sub [.part] m = true ∨ v.part = s.gcs.part) (h1 : sub [.startup] m = true ∨ v.startup = s.gcs.startup) (h2 : sub [.phase] m = true ∨ v.phase = s.gcs.phase) (h3 : sub [.halt] m = true ∨ (s.gcs.halted = true → v.halted = true)) :
    Only m s0 (s.withGcs v) := by
  intro f hf
  refine (h f hf).trans ?_
  cases f <;> first
    | rfl
    | exact ⟨rfl, rfl, rfl, rfl, rfl⟩
    | exact fun _ => rfl
    | exact fun k => k
    | exact h0.resolve_left (fun k => absurd (sub_mem k (List.mem_singleton.2 rfl)) hf)
    | exact h1.resolve_left (fun k => absurd (sub_mem k (List.mem_singleton.2 rfl)) hf)
    | exact fun _ => h2.resolve_left (fun k => absurd (sub_mem k (List.mem_singleton.2 rfl)) hf)
    | exact h3.resolve_left (fun k => absurd (sub_mem k (List.mem_singleton.2 rfl)) hf)
    | exact absurd (sub_mem hm (List.mem_singleton.2 rfl)) hf

theorem only_withRegs {m : List Field} {s0 s : State} (h : Only m s0 s) (hm : sub [.regs] m = true) {v : Tab Word64} :
    Only m s0 (s.withRegs v) := by
  intro f hf
  refine (h f hf).trans ?_
  cases f <;> first
    | rfl
    | exact ⟨rfl, rfl, rfl, rfl, rfl⟩
    | exact fun _ => rfl
    | exact fun k => k
    | exact absurd (sub_mem hm (List.mem_singleton.2 rfl)) hf

theorem only_withFlt {m : List Field} {s0 s : State} (h : Only m s0 s) (hm : sub [.flt] m = true) {v : Flt}
    (h0 : sub [.sources] m = true ∨ v.srcs = s.flt.srcs) (h1 : sub [.first] m = true ∨ v.first = s.flt.first)
    (h2 : sub [.reactions] m = true ∨ v.reactions = s.flt.reactions) : Only m s0 (s.withFlt v) := by
  intro f hf
  refine (h f hf).trans ?_
  cases f <;> first
    | rfl
    | exact ⟨rfl, rfl, rfl, rfl, rfl⟩
    | exact fun _ => rfl
    | exact fun k => k
    | exact h0.resolve_left (fun k => absurd (sub_mem k (List.mem_singleton.2 rfl)) hf)
    | exact h1.resolve_left (fun k => absurd (sub_mem k (List.mem_singleton.2 rfl)) hf)
    | exact h2.resolve_left (fun k => absurd (sub_mem k (List.mem_singleton.2 rfl)) hf)
    | exact absurd (sub_mem hm (List.mem_singleton.2 rfl)) hf

theorem only_withCtxs {m : List Field} {s0 s : State} (h : Only m s0 s) (hm : sub [.ctxs] m = true) {v : Tab SCtx} :
    Only m s0 (s.withCtxs v) := by
  intro f hf
  refine (h f hf).trans ?_
  cases f <;> first
    | rfl
    | exact ⟨rfl, rfl, rfl, rfl, rfl⟩
    | exact fun _ => rfl
    | exact fun k => k
    | exact absurd (sub_mem hm (List.mem_singleton.2 rfl)) hf

theorem only_withSets {m : List Field} {s0 s : State} (h : Only m s0 s) (hm : sub [.sets] m = true) {v : Tab ArraySet} :
    Only m s0 (s.withSets v) := by
  intro f hf
  refine (h f hf).trans ?_
  cases f <;> first
    | rfl
    | exact ⟨rfl, rfl, rfl, rfl, rfl⟩
    | exact fun _ => rfl
    | exact fun k => k
    | exact absurd (sub_mem hm (List.mem_singleton.2 rfl)) hf

theorem only_withIncarnations {m : List Field} {s0 s : State} (h : Only m s0 s) (hm : sub [.incarnations] m = true) {v : Tab Nat} :
    Only m s0 (s.withIncarnations v) := by
  intro f hf
  refine (h f hf).trans ?_
  cases f <;> first
    | rfl
    | exact ⟨rfl, rfl, rfl, rfl, rfl⟩
    | exact fun _ => rfl
    | exact fun k => k
    | exact absurd (sub_mem hm (List.mem_singleton.2 rfl)) hf

theorem only_withProfiles {m : List Field} {s0 s : State} (h : Only m s0 s) (hm : sub [.profiles] m = true) {v : Tab (Option Profile)} :
    Only m s0 (s.withProfiles v) := by
  intro f hf
  refine (h f hf).trans ?_
  cases f <;> first
    | rfl
    | exact ⟨rfl, rfl, rfl, rfl, rfl⟩
    | exact fun _ => rfl
    | exact fun k => k
    | exact absurd (sub_mem hm (List.mem_singleton.2 rfl)) hf

theorem only_withCht {m : List Field} {s0 s : State} (h : Only m s0 s) (hm : sub [.cht] m = true) {v : Cht} :
    Only m s0 (s.withCht v) := by
  intro f hf
  refine (h f hf).trans ?_
  cases f <;> first
    | rfl
    | exact ⟨rfl, rfl, rfl, rfl, rfl⟩
    | exact fun _ => rfl
    | exact fun k => k
    | exact absurd (sub_mem hm (List.mem_singleton.2 rfl)) hf

theorem only_withLog {m : List Field} {s0 s : State} (h : Only m s0 s) (hm : sub [.log] m = true) {v : Log} (h0 : sub [.banks] m = true ∨ v.banks = s.log.banks) :
    Only m s0 (s.withLog v) := by
  intro f hf
  refine (h f hf).trans ?_
  cases f <;> first
    | rfl
    | exact ⟨rfl, rfl, rfl, rfl, rfl⟩
    | exact fun _ => rfl
    | exact fun k => k
    | exact h0.resolve_left (fun k => absurd (sub_mem k (List.mem_singleton.2 rfl)) hf)
    | exact absurd (sub_mem hm (List.mem_singleton.2 rfl)) hf

theorem only_withWch {m : List Field} {s0 s : State} (h : Only m s0 s) (hm : sub [.wch] m = true) {v : Wch} (h0 : sub [.timer] m = true ∨ v.timer' = s.wch.timer') :
    Only m s0 (s.withWch v) := by
  intro f hf
  refine (h f hf).trans ?_
  cases f <;> first
    | rfl
    | exact ⟨rfl, rfl, rfl, rfl, rfl⟩
    | exact fun _ => rfl
    | exact fun k => k
    | exact h0.resolve_left (fun k => absurd (sub_mem k (List.mem_singleton.2 rfl)) hf)
    | exact absurd (sub_mem hm (List.mem_singleton.2 rfl)) hf

theorem only_withRings {m : List Field} {s0 s : State} (h : Only m s0 s) (hm : sub [.rings] m = true) {v : Tab Ring} :
    Only m s0 (s.withRings v) := by
  intro f hf
  refine (h f hf).trans ?_
  cases f <;> first
    | rfl
    | exact ⟨rfl, rfl, rfl, rfl, rfl⟩
    | exact fun _ => rfl
    | exact fun k => k
    | exact absurd (sub_mem hm (List.mem_singleton.2 rfl)) hf

theorem only_withPrivLock {m : List Field} {s0 s : State} (h : Only m s0 s) (hm : sub [.privLock] m = true) {v : Bool} :
    Only m s0 (s.withPrivLock v) := by
  intro f hf
  refine (h f hf).trans ?_
  cases f <;> first
    | rfl
    | exact ⟨rfl, rfl, rfl, rfl, rfl⟩
    | exact fun _ => rfl
    | exact fun k => k
    | exact absurd (sub_mem hm (List.mem_singleton.2 rfl)) hf

theorem only_withIos {m : List Field} {s0 s : State} (h : Only m s0 s) (hm : sub [.ios] m = true) {v : List Io} :
    Only m s0 (s.withIos v) := by
  intro f hf
  refine (h f hf).trans ?_
  cases f <;> first
    | rfl
    | exact ⟨rfl, rfl, rfl, rfl, rfl⟩
    | exact fun _ => rfl
    | exact fun k => k
    | exact absurd (sub_mem hm (List.mem_singleton.2 rfl)) hf

theorem only_withNextId {m : List Field} {s0 s : State} (h : Only m s0 s) (hm : sub [.nextId] m = true) {v : Nat} :
    Only m s0 (s.withNextId v) := by
  intro f hf
  refine (h f hf).trans ?_
  cases f <;> first
    | rfl
    | exact ⟨rfl, rfl, rfl, rfl, rfl⟩
    | exact fun _ => rfl
    | exact fun k => k
    | exact absurd (sub_mem hm (List.mem_singleton.2 rfl)) hf

theorem only_withDcmds {m : List Field} {s0 s : State} (h : Only m s0 s) (hm : sub [.dcmds] m = true) {v : List DriveCmd} :
    Only m s0 (s.withDcmds v) := by
  intro f hf
  refine (h f hf).trans ?_
  cases f <;> first
    | rfl
    | exact ⟨rfl, rfl, rfl, rfl, rfl⟩
    | exact fun _ => rfl
    | exact fun k => k
    | exact absurd (sub_mem hm (List.mem_singleton.2 rfl)) hf

theorem only_withPorts {m : List Field} {s0 s : State} (h : Only m s0 s) (hm : sub [.ports] m = true) {v : Tab Port} :
    Only m s0 (s.withPorts v) := by
  intro f hf
  refine (h f hf).trans ?_
  cases f <;> first
    | rfl
    | exact ⟨rfl, rfl, rfl, rfl, rfl⟩
    | exact fun _ => rfl
    | exact fun k => k
    | exact absurd (sub_mem hm (List.mem_singleton.2 rfl)) hf

theorem only_withPortGroups {m : List Field} {s0 s : State} (h : Only m s0 s) (hm : sub [.portGroups] m = true) {v : Tab Group} :
    Only m s0 (s.withPortGroups v) := by
  intro f hf
  refine (h f hf).trans ?_
  cases f <;> first
    | rfl
    | exact ⟨rfl, rfl, rfl, rfl, rfl⟩
    | exact fun _ => rfl
    | exact fun k => k
    | exact absurd (sub_mem hm (List.mem_singleton.2 rfl)) hf

theorem only_withRowOps {m : List Field} {s0 s : State} (h : Only m s0 s) (hm : sub [.rowOps] m = true) {v : List RowOp} :
    Only m s0 (s.withRowOps v) := by
  intro f hf
  refine (h f hf).trans ?_
  cases f <;> first
    | rfl
    | exact ⟨rfl, rfl, rfl, rfl, rfl⟩
    | exact fun _ => rfl
    | exact fun k => k
    | exact absurd (sub_mem hm (List.mem_singleton.2 rfl)) hf

theorem only_withCommits {m : List Field} {s0 s : State} (h : Only m s0 s) (hm : sub [.commits] m = true) {v : List CommitOp} :
    Only m s0 (s.withCommits v) := by
  intro f hf
  refine (h f hf).trans ?_
  cases f <;> first
    | rfl
    | exact ⟨rfl, rfl, rfl, rfl, rfl⟩
    | exact fun _ => rfl
    | exact fun k => k
    | exact absurd (sub_mem hm (List.mem_singleton.2 rfl)) hf

theorem only_withPasses {m : List Field} {s0 s : State} (h : Only m s0 s) (hm : sub [.passes] m = true) {v : List Pass} :
    Only m s0 (s.withPasses v) := by
  intro f hf
  refine (h f hf).trans ?_
  cases f <;> first
    | rfl
    | exact ⟨rfl, rfl, rfl, rfl, rfl⟩
    | exact fun _ => rfl
    | exact fun k => k
    | exact absurd (sub_mem hm (List.mem_singleton.2 rfl)) hf

theorem only_withArbitrating {m : List Field} {s0 s : State} (h : Only m s0 s) (hm : sub [.arbitrating] m = true) {v : List (BitVec 6 × Nat × Nat)} :
    Only m s0 (s.withArbitrating v) := by
  intro f hf
  refine (h f hf).trans ?_
  cases f <;> first
    | rfl
    | exact ⟨rfl, rfl, rfl, rfl, rfl⟩
    | exact fun _ => rfl
    | exact fun k => k
    | exact absurd (sub_mem hm (List.mem_singleton.2 rfl)) hf

theorem only_withClusters {m : List Field} {s0 s : State} (h : Only m s0 s) (hm : sub [.clusters] m = true) {v : Tab Cluster} :
    Only m s0 (s.withClusters v) := by
  intro f hf
  refine (h f hf).trans ?_
  cases f <;> first
    | rfl
    | exact ⟨rfl, rfl, rfl, rfl, rfl⟩
    | exact fun _ => rfl
    | exact fun k => k
    | exact absurd (sub_mem hm (List.mem_singleton.2 rfl)) hf

theorem only_withScc {m : List Field} {s0 s : State} (h : Only m s0 s) (hm : sub [.scc] m = true) {v : Scc} :
    Only m s0 (s.withScc v) := by
  intro f hf
  refine (h f hf).trans ?_
  cases f <;> first
    | rfl
    | exact ⟨rfl, rfl, rfl, rfl, rfl⟩
    | exact fun _ => rfl
    | exact fun k => k
    | exact absurd (sub_mem hm (List.mem_singleton.2 rfl)) hf

theorem only_withDmv {m : List Field} {s0 s : State} (h : Only m s0 s) (hm : sub [.dmv] m = true) {v : Dmv} :
    Only m s0 (s.withDmv v) := by
  intro f hf
  refine (h f hf).trans ?_
  cases f <;> first
    | rfl
    | exact ⟨rfl, rfl, rfl, rfl, rfl⟩
    | exact fun _ => rfl
    | exact fun k => k
    | exact absurd (sub_mem hm (List.mem_singleton.2 rfl)) hf

theorem only_withInterp {m : List Field} {s0 s : State} (h : Only m s0 s) (hm : sub [.interp] m = true) {v : Interp} (h0 : sub [.scratch] m = true ∨ v.scratch = s.interp.scratch) :
    Only m s0 (s.withInterp v) := by
  intro f hf
  refine (h f hf).trans ?_
  cases f <;> first
    | rfl
    | exact ⟨rfl, rfl, rfl, rfl, rfl⟩
    | exact fun _ => rfl
    | exact fun k => k
    | exact h0.resolve_left (fun k => absurd (sub_mem k (List.mem_singleton.2 rfl)) hf)
    | exact absurd (sub_mem hm (List.mem_singleton.2 rfl)) hf

theorem only_withSec {m : List Field} {s0 s : State} (h : Only m s0 s) (hm : sub [.sec] m = true) {v : Sec} (h0 : sub [.otp] m = true ∨ s.sec.sameOtp v) (h1 : sub [.rollback] m = true ∨ v.rollback = s.sec.rollback) :
    Only m s0 (s.withSec v) := by
  intro f hf
  refine (h f hf).trans ?_
  cases f <;> first
    | rfl
    | exact ⟨rfl, rfl, rfl, rfl, rfl⟩
    | exact fun _ => rfl
    | exact fun k => k
    | exact h0.resolve_left (fun k => absurd (sub_mem k (List.mem_singleton.2 rfl)) hf)
    | exact h1.resolve_left (fun k => absurd (sub_mem k (List.mem_singleton.2 rfl)) hf)
    | exact absurd (sub_mem hm (List.mem_singleton.2 rfl)) hf

theorem only_withMon {m : List Field} {s0 s : State} (h : Only m s0 s) (hm : sub [.mon] m = true) {v : Mon} (h0 : sub [.monitor] m = true ∨ v.monitor = s.mon.monitor) :
    Only m s0 (s.withMon v) := by
  intro f hf
  refine (h f hf).trans ?_
  cases f <;> first
    | rfl
    | exact ⟨rfl, rfl, rfl, rfl, rfl⟩
    | exact fun _ => rfl
    | exact fun k => k
    | exact h0.resolve_left (fun k => absurd (sub_mem k (List.mem_singleton.2 rfl)) hf)
    | exact absurd (sub_mem hm (List.mem_singleton.2 rfl)) hf

theorem only_withPair {m : List Field} {s0 s : State} (h : Only m s0 s) (hm : sub [.pair] m = true) {v : Pair} (h0 : sub [.role] m = true ∨ v.role = s.pair.role) :
    Only m s0 (s.withPair v) := by
  intro f hf
  refine (h f hf).trans ?_
  cases f <;> first
    | rfl
    | exact ⟨rfl, rfl, rfl, rfl, rfl⟩
    | exact fun _ => rfl
    | exact fun k => k
    | exact h0.resolve_left (fun k => absurd (sub_mem k (List.mem_singleton.2 rfl)) hf)
    | exact absurd (sub_mem hm (List.mem_singleton.2 rfl)) hf

theorem only_withChn {m : List Field} {s0 s : State} (h : Only m s0 s) (hm : sub [.chn] m = true) {v : Chn} (h0 : sub [.address] m = true ∨ v.address = s.chn.address) :
    Only m s0 (s.withChn v) := by
  intro f hf
  refine (h f hf).trans ?_
  cases f <;> first
    | rfl
    | exact ⟨rfl, rfl, rfl, rfl, rfl⟩
    | exact fun _ => rfl
    | exact fun k => k
    | exact h0.resolve_left (fun k => absurd (sub_mem k (List.mem_singleton.2 rfl)) hf)
    | exact absurd (sub_mem hm (List.mem_singleton.2 rfl)) hf

theorem only_withHpus {m : List Field} {s0 s : State} (h : Only m s0 s) (hm : sub [.hpus] m = true) {v : Tab Hpu} (h0 : sub [.links] m = true ∨ (∀ p, (Tab.get v Hpu.at0 (ofBool p)).fixed = (s.hpu p).fixed)) :
    Only m s0 (s.withHpus v) := by
  intro f hf
  refine (h f hf).trans ?_
  cases f <;> first
    | rfl
    | exact ⟨rfl, rfl, rfl, rfl, rfl⟩
    | exact fun _ => rfl
    | exact fun k => k
    | exact h0.resolve_left (fun k => absurd (sub_mem k (List.mem_singleton.2 rfl)) hf)
    | exact absurd (sub_mem hm (List.mem_singleton.2 rfl)) hf

theorem only_withPwin {m : List Field} {s0 s : State} (h : Only m s0 s) (hm : sub [.pwin] m = true) {v : Pwin} (h0 : sub [.pool] m = true ∨ v.pool = s.pwin.pool) :
    Only m s0 (s.withPwin v) := by
  intro f hf
  refine (h f hf).trans ?_
  cases f <;> first
    | rfl
    | exact ⟨rfl, rfl, rfl, rfl, rfl⟩
    | exact fun _ => rfl
    | exact fun k => k
    | exact h0.resolve_left (fun k => absurd (sub_mem k (List.mem_singleton.2 rfl)) hf)
    | exact absurd (sub_mem hm (List.mem_singleton.2 rfl)) hf

theorem only_withMap {m : List Field} {s0 s : State} (h : Only m s0 s) (hm : sub [.map] m = true) {v : MapStore} :
    Only m s0 (s.withMap v) := by
  intro f hf
  refine (h f hf).trans ?_
  cases f <;> first
    | rfl
    | exact ⟨rfl, rfl, rfl, rfl, rfl⟩
    | exact fun _ => rfl
    | exact fun k => k
    | exact absurd (sub_mem hm (List.mem_singleton.2 rfl)) hf

theorem only_withSched {m : List Field} {s0 s : State} (h : Only m s0 s) (hm : sub [.sched] m = true) {v : Sched} :
    Only m s0 (s.withSched v) := by
  intro f hf
  refine (h f hf).trans ?_
  cases f <;> first
    | rfl
    | exact ⟨rfl, rfl, rfl, rfl, rfl⟩
    | exact fun _ => rfl
    | exact fun k => k
    | exact absurd (sub_mem hm (List.mem_singleton.2 rfl)) hf

theorem only_withFreeCount {m : List Field} {s0 s : State} (h : Only m s0 s) (hm : sub [.freeCount] m = true) {v : Nat} :
    Only m s0 (s.withFreeCount v) := by
  intro f hf
  refine (h f hf).trans ?_
  cases f <;> first
    | rfl
    | exact ⟨rfl, rfl, rfl, rfl, rfl⟩
    | exact fun _ => rfl
    | exact fun k => k
    | exact absurd (sub_mem hm (List.mem_singleton.2 rfl)) hf

theorem only_withOut {m : List Field} {s0 s : State} (h : Only m s0 s) (hm : sub [.out] m = true) {v : List Out} :
    Only m s0 (s.withOut v) := by
  intro f hf
  refine (h f hf).trans ?_
  cases f <;> first
    | rfl
    | exact ⟨rfl, rfl, rfl, rfl, rfl⟩
    | exact fun _ => rfl
    | exact fun k => k
    | exact absurd (sub_mem hm (List.mem_singleton.2 rfl)) hf

theorem only_withPending {m : List Field} {s0 s : State} (h : Only m s0 s) (hm : sub [.pending] m = true) {v : List Instr} :
    Only m s0 (s.withPending v) := by
  intro f hf
  refine (h f hf).trans ?_
  cases f <;> first
    | rfl
    | exact ⟨rfl, rfl, rfl, rfl, rfl⟩
    | exact fun _ => rfl
    | exact fun k => k
    | exact absurd (sub_mem hm (List.mem_singleton.2 rfl)) hf

theorem State.setHpu_only {m : List Field} {s0 s : State} (h : Only m s0 s) (hm : sub [.hpus] m = true) (p : Bool) (v : Hpu)
    (hl : sub [.links] m = true ∨ v.fixed = (s.hpu p).fixed) : Only m s0 (s.setHpu p v) := by
  refine only_withHpus h hm (hl.imp id fun hl q => ?_)
  rw [Tab.get_set]
  split
  · rename_i e
    have : q = p := by cases p <;> cases q <;> simp_all [ofBool]
    rw [hl, this]
  · rfl

theorem State.modHpu_only {m : List Field} {s0 s : State} (h : Only m s0 s) (hm : sub [.hpus] m = true) (p : Bool)
    (f : Hpu → Hpu) (hl : sub [.links] m = true ∨ (f (s.hpu p)).fixed = (s.hpu p).fixed) : Only m s0 (s.modHpu p f) :=
  State.setHpu_only h hm p _ hl

theorem State.leaveDock_phase (s : State) (h : s.gcs.phase ≠ .dock) : s.leaveDock = s := by
  unfold State.leaveDock
  rw [if_neg h]

theorem Sec.putSlot_otp (v : Sec) (b : Bool) (f : FwSlot) : v.sameOtp (v.putSlot b f) := by
  cases b <;> exact ⟨rfl, rfl, rfl, rfl, rfl⟩

theorem Sec.putSlot_rollback (v : Sec) (b : Bool) (f : FwSlot) : (v.putSlot b f).rollback = v.rollback := by
  cases b <;> rfl

theorem Sec.started_otp (v : Sec) (a b : Bool) : v.sameOtp (v.started a b) := ⟨rfl, rfl, rfl, rfl, rfl⟩

end Sys2Proof.Machine
end

