-- ==== Sys2Proof/Laws/OnlyRegs.lean ====
section
/-! SUPPORT. The frame of every operation of Sys2Proof/Machine/Regs.lean: which parts of the state it may change. -/

set_option linter.unusedTactic false
set_option linter.unreachableTactic false
set_option linter.unusedVariables false

namespace Sys2Proof.Machine

theorem State.setReg_only {M : List Field} {s0 s : State} (hS : Only M s0 s)
    (hM : sub [.regs] M = true) (off : Nat) (v : Word64) : Only M s0 (State.setReg s off v) := by
  unfold State.setReg
  repeat' (first
    | with_reducible exact hS
    | with_reducible assumption
    | exact sub_mono hM rfl
    | exact Or.inl (sub_mono hM rfl)
    | exact Or.inr rfl
    | exact Or.inr ⟨rfl, rfl, rfl, rfl, rfl⟩
    | exact Or.inr (fun k => k)
    | exact Or.inr (fun _ => rfl)
    | with_reducible refine only_ite (fun _ => ?_) (fun _ => ?_)
    | with_reducible apply only_withRegs
    | refine only_pair (by with_reducible assumption) ?_
    | refine only_optPair (by with_reducible assumption) ?_
    | refine only_opt (by with_reducible assumption) ?_
    | refine only_outcome (by with_reducible assumption) ?_
    | dsimp only
    | with_reducible intro _
    | split)

theorem State.setRegN_only {M : List Field} {s0 s : State} (hS : Only M s0 s)
    (hM : sub [.regs] M = true) (off : Nat) (v : Nat) : Only M s0 (State.setRegN s off v) := by
  unfold State.setRegN
  repeat' (first
    | with_reducible exact hS
    | with_reducible assumption
    | exact sub_mono hM rfl
    | exact Or.inl (sub_mono hM rfl)
    | exact Or.inr rfl
    | exact Or.inr ⟨rfl, rfl, rfl, rfl, rfl⟩
    | exact Or.inr (fun k => k)
    | exact Or.inr (fun _ => rfl)
    | with_reducible refine only_ite (fun _ => ?_) (fun _ => ?_)
    | with_reducible apply State.setReg_only
    | refine only_pair (by with_reducible assumption) ?_
    | refine only_optPair (by with_reducible assumption) ?_
    | refine only_opt (by with_reducible assumption) ?_
    | refine only_outcome (by with_reducible assumption) ?_
    | dsimp only
    | with_reducible intro _
    | split)

theorem State.count64_only {M : List Field} {s0 s : State} (hS : Only M s0 s)
    (hM : sub [.regs] M = true) (off : Nat) (n : Nat) : Only M s0 (State.count64 s off n) := by
  unfold State.count64
  repeat' (first
    | with_reducible exact hS
    | with_reducible assumption
    | exact sub_mono hM rfl
    | exact Or.inl (sub_mono hM rfl)
    | exact Or.inr rfl
    | exact Or.inr ⟨rfl, rfl, rfl, rfl, rfl⟩
    | exact Or.inr (fun k => k)
    | exact Or.inr (fun _ => rfl)
    | with_reducible refine only_ite (fun _ => ?_) (fun _ => ?_)
    | with_reducible apply State.setRegN_only
    | refine only_pair (by with_reducible assumption) ?_
    | refine only_optPair (by with_reducible assumption) ?_
    | refine only_opt (by with_reducible assumption) ?_
    | refine only_outcome (by with_reducible assumption) ?_
    | dsimp only
    | with_reducible intro _
    | split)

theorem State.count32_only {M : List Field} {s0 s : State} (hS : Only M s0 s)
    (hM : sub [.regs] M = true) (off : Nat) (n : Nat) : Only M s0 (State.count32 s off n) := by
  unfold State.count32
  repeat' (first
    | with_reducible exact hS
    | with_reducible assumption
    | exact sub_mono hM rfl
    | exact Or.inl (sub_mono hM rfl)
    | exact Or.inr rfl
    | exact Or.inr ⟨rfl, rfl, rfl, rfl, rfl⟩
    | exact Or.inr (fun k => k)
    | exact Or.inr (fun _ => rfl)
    | with_reducible refine only_ite (fun _ => ?_) (fun _ => ?_)
    | with_reducible apply State.setRegN_only
    | refine only_pair (by with_reducible assumption) ?_
    | refine only_optPair (by with_reducible assumption) ?_
    | refine only_opt (by with_reducible assumption) ?_
    | refine only_outcome (by with_reducible assumption) ?_
    | dsimp only
    | with_reducible intro _
    | split)

theorem State.sat32_only {M : List Field} {s0 s : State} (hS : Only M s0 s)
    (hM : sub [.regs] M = true) (off : Nat) (n : Nat) : Only M s0 (State.sat32 s off n) := by
  unfold State.sat32
  repeat' (first
    | with_reducible exact hS
    | with_reducible assumption
    | exact sub_mono hM rfl
    | exact Or.inl (sub_mono hM rfl)
    | exact Or.inr rfl
    | exact Or.inr ⟨rfl, rfl, rfl, rfl, rfl⟩
    | exact Or.inr (fun k => k)
    | exact Or.inr (fun _ => rfl)
    | with_reducible refine only_ite (fun _ => ?_) (fun _ => ?_)
    | with_reducible apply State.setRegN_only
    | refine only_pair (by with_reducible assumption) ?_
    | refine only_optPair (by with_reducible assumption) ?_
    | refine only_opt (by with_reducible assumption) ?_
    | refine only_outcome (by with_reducible assumption) ?_
    | dsimp only
    | with_reducible intro _
    | split)

theorem State.dropRegs_only {M : List Field} {s0 s : State} (hS : Only M s0 s)
    (hM : sub [.regs] M = true) (f : Nat → Bool) : Only M s0 (State.dropRegs s f) := by
  unfold State.dropRegs
  repeat' (first
    | with_reducible exact hS
    | with_reducible assumption
    | exact sub_mono hM rfl
    | exact Or.inl (sub_mono hM rfl)
    | exact Or.inr rfl
    | exact Or.inr ⟨rfl, rfl, rfl, rfl, rfl⟩
    | exact Or.inr (fun k => k)
    | exact Or.inr (fun _ => rfl)
    | with_reducible refine only_ite (fun _ => ?_) (fun _ => ?_)
    | with_reducible apply only_withRegs
    | refine only_pair (by with_reducible assumption) ?_
    | refine only_optPair (by with_reducible assumption) ?_
    | refine only_opt (by with_reducible assumption) ?_
    | refine only_outcome (by with_reducible assumption) ?_
    | dsimp only
    | with_reducible intro _
    | split)

theorem State.sendFlit_only {M : List Field} {s0 s : State} (hS : Only M s0 s)
    (hM : sub [.regs, .pair, .out] M = true) (typ : Nat) (arg : Nat) (data : Bytes) : Only M s0 (State.sendFlit s typ arg data) := by
  unfold State.sendFlit
  repeat' (first
    | with_reducible exact hS
    | with_reducible assumption
    | exact sub_mono hM rfl
    | exact Or.inl (sub_mono hM rfl)
    | exact Or.inr rfl
    | exact Or.inr ⟨rfl, rfl, rfl, rfl, rfl⟩
    | exact Or.inr (fun k => k)
    | exact Or.inr (fun _ => rfl)
    | with_reducible refine only_ite (fun _ => ?_) (fun _ => ?_)
    | with_reducible apply State.count64_only
    | with_reducible apply only_withOut
    | with_reducible apply only_withPair
    | refine only_pair (by with_reducible assumption) ?_
    | refine only_optPair (by with_reducible assumption) ?_
    | refine only_opt (by with_reducible assumption) ?_
    | refine only_outcome (by with_reducible assumption) ?_
    | dsimp only
    | with_reducible intro _
    | split)

end Sys2Proof.Machine
end

