-- ==== Sys2Proof/Laws/OnlyLogCore.lean ====
section
/-! SUPPORT. The frame of every operation of Sys2Proof/Machine/LogCore.lean: which parts of the state it may change. -/

set_option linter.unusedTactic false
set_option linter.unreachableTactic false
set_option linter.unusedVariables false

namespace Sys2Proof.Machine

theorem State.countUnits_only {M : List Field} {s0 s : State} (hS : Only M s0 s)
    (hM : sub [.log] M = true) (pos : Nat) (k : Nat) : Only M s0 (State.countUnits s pos k) := by
  unfold State.countUnits
  repeat' (first
    | with_reducible exact hS
    | with_reducible assumption
    | exact sub_mono hM rfl
    | exact Or.inl (sub_mono hM rfl)
    | exact Or.inr rfl
    | exact Or.inr ⟨rfl, rfl, rfl, rfl, rfl⟩
    | exact Or.inr (fun k => k)
    | exact Or.inr (fun _ => rfl)
    | with_reducible refine only_ite (fun _ => ?_) (fun _ => ?_)
    | with_reducible apply only_withLog
    | with_reducible refine only_foldl ?_ (fun _ _ _ => ?_)
    | with_reducible refine only_foldlFst ?_ (fun _ _ _ => ?_)
    | refine only_pair (by with_reducible assumption) ?_
    | refine only_optPair (by with_reducible assumption) ?_
    | refine only_opt (by with_reducible assumption) ?_
    | refine only_outcome (by with_reducible assumption) ?_
    | dsimp only
    | with_reducible intro _
    | split)

theorem State.writeAnchor_only {M : List Field} {s0 s : State} (hS : Only M s0 s)
    (hM : sub [.log] M = true)  : Only M s0 (State.writeAnchor s) := by
  unfold State.writeAnchor
  repeat' (first
    | with_reducible exact hS
    | with_reducible assumption
    | exact sub_mono hM rfl
    | exact Or.inl (sub_mono hM rfl)
    | exact Or.inr rfl
    | exact Or.inr ⟨rfl, rfl, rfl, rfl, rfl⟩
    | exact Or.inr (fun k => k)
    | exact Or.inr (fun _ => rfl)
    | with_reducible refine only_ite (fun _ => ?_) (fun _ => ?_)
    | with_reducible apply only_withLog
    | refine only_pair (by with_reducible assumption) ?_
    | refine only_optPair (by with_reducible assumption) ?_
    | refine only_opt (by with_reducible assumption) ?_
    | refine only_outcome (by with_reducible assumption) ?_
    | dsimp only
    | with_reducible intro _
    | split)

theorem State.anchorAhead_only {M : List Field} {s0 s : State} (hS : Only M s0 s)
    (hM : sub [.log] M = true) (units : Nat) : Only M s0 (State.anchorAhead s units) := by
  unfold State.anchorAhead
  repeat' (first
    | with_reducible exact hS
    | with_reducible assumption
    | exact sub_mono hM rfl
    | exact Or.inl (sub_mono hM rfl)
    | exact Or.inr rfl
    | exact Or.inr ⟨rfl, rfl, rfl, rfl, rfl⟩
    | exact Or.inr (fun k => k)
    | exact Or.inr (fun _ => rfl)
    | with_reducible refine only_ite (fun _ => ?_) (fun _ => ?_)
    | with_reducible apply State.writeAnchor_only
    | refine only_pair (by with_reducible assumption) ?_
    | refine only_optPair (by with_reducible assumption) ?_
    | refine only_opt (by with_reducible assumption) ?_
    | refine only_outcome (by with_reducible assumption) ?_
    | dsimp only
    | with_reducible intro _
    | split)

theorem State.appendRec_only {M : List Field} {s0 s : State} (hS : Only M s0 s)
    (hM : sub [.regs, .log, .pair, .out] M = true) (r : Rec) : Only M s0 (State.appendRec s r) := by
  unfold State.appendRec
  repeat' (first
    | with_reducible exact hS
    | with_reducible assumption
    | exact sub_mono hM rfl
    | exact Or.inl (sub_mono hM rfl)
    | exact Or.inr rfl
    | exact Or.inr ⟨rfl, rfl, rfl, rfl, rfl⟩
    | exact Or.inr (fun k => k)
    | exact Or.inr (fun _ => rfl)
    | with_reducible refine only_ite (fun _ => ?_) (fun _ => ?_)
    | with_reducible apply State.anchorAhead_only
    | with_reducible apply State.countUnits_only
    | with_reducible apply State.sendFlit_only
    | with_reducible apply only_withLog
    | refine only_pair (by with_reducible assumption) ?_
    | refine only_optPair (by with_reducible assumption) ?_
    | refine only_opt (by with_reducible assumption) ?_
    | refine only_outcome (by with_reducible assumption) ?_
    | dsimp only
    | with_reducible intro _
    | split)

theorem State.appendLife_only {M : List Field} {s0 s : State} (hS : Only M s0 s)
    (hM : sub [.regs, .log, .pair, .out] M = true)  : Only M s0 (State.appendLife s) := by
  unfold State.appendLife
  repeat' (first
    | with_reducible exact hS
    | with_reducible assumption
    | exact sub_mono hM rfl
    | exact Or.inl (sub_mono hM rfl)
    | exact Or.inr rfl
    | exact Or.inr ⟨rfl, rfl, rfl, rfl, rfl⟩
    | exact Or.inr (fun k => k)
    | exact Or.inr (fun _ => rfl)
    | with_reducible refine only_ite (fun _ => ?_) (fun _ => ?_)
    | with_reducible apply State.appendRec_only
    | with_reducible apply only_withLog
    | refine only_pair (by with_reducible assumption) ?_
    | refine only_optPair (by with_reducible assumption) ?_
    | refine only_opt (by with_reducible assumption) ?_
    | refine only_outcome (by with_reducible assumption) ?_
    | dsimp only
    | with_reducible intro _
    | split)

theorem State.trimLog_only {M : List Field} {s0 s : State} (hS : Only M s0 s)
    (hM : sub [.regs, .log, .pair, .out] M = true)  : Only M s0 (State.trimLog s) := by
  unfold State.trimLog
  repeat' (first
    | with_reducible exact hS
    | with_reducible assumption
    | exact sub_mono hM rfl
    | exact Or.inl (sub_mono hM rfl)
    | exact Or.inr rfl
    | exact Or.inr ⟨rfl, rfl, rfl, rfl, rfl⟩
    | exact Or.inr (fun k => k)
    | exact Or.inr (fun _ => rfl)
    | with_reducible refine only_ite (fun _ => ?_) (fun _ => ?_)
    | with_reducible apply State.appendLife_only
    | with_reducible apply State.writeAnchor_only
    | with_reducible apply only_withLog
    | refine only_pair (by with_reducible assumption) ?_
    | refine only_optPair (by with_reducible assumption) ?_
    | refine only_opt (by with_reducible assumption) ?_
    | refine only_outcome (by with_reducible assumption) ?_
    | dsimp only
    | with_reducible intro _
    | split)

theorem State.modRec_only {M : List Field} {s0 s : State} (hS : Only M s0 s)
    (hM : sub [.log] M = true) (seq : Nat) (f : Rec → Rec) : Only M s0 (State.modRec s seq f) := by
  unfold State.modRec
  repeat' (first
    | with_reducible exact hS
    | with_reducible assumption
    | exact sub_mono hM rfl
    | exact Or.inl (sub_mono hM rfl)
    | exact Or.inr rfl
    | exact Or.inr ⟨rfl, rfl, rfl, rfl, rfl⟩
    | exact Or.inr (fun k => k)
    | exact Or.inr (fun _ => rfl)
    | with_reducible refine only_ite (fun _ => ?_) (fun _ => ?_)
    | with_reducible apply only_withLog
    | refine only_pair (by with_reducible assumption) ?_
    | refine only_optPair (by with_reducible assumption) ?_
    | refine only_opt (by with_reducible assumption) ?_
    | refine only_outcome (by with_reducible assumption) ?_
    | dsimp only
    | with_reducible intro _
    | split)

theorem State.appendRetires_only {M : List Field} {s0 s : State} (hS : Only M s0 s)
    (hM : sub [.regs, .log, .pair, .out] M = true) (a0 : Nat) (a1 : List Nat) : Only M s0 (State.appendRetires s a0 a1) := by
  induction a0 generalizing s a1  with
  | zero =>
    unfold State.appendRetires
    repeat' (first
      | with_reducible exact hS
      | with_reducible assumption
      | exact sub_mono hM rfl
      | exact Or.inl (sub_mono hM rfl)
      | exact Or.inr rfl
      | exact Or.inr ⟨rfl, rfl, rfl, rfl, rfl⟩
      | exact Or.inr (fun k => k)
      | exact Or.inr (fun _ => rfl)
      | with_reducible refine only_ite (fun _ => ?_) (fun _ => ?_)
      | with_reducible apply State.appendRec_only
      | refine only_pair (by with_reducible assumption) ?_
      | refine only_optPair (by with_reducible assumption) ?_
      | refine only_opt (by with_reducible assumption) ?_
      | refine only_outcome (by with_reducible assumption) ?_
      | dsimp only
      | with_reducible intro _
      | cases ‹_ + 1 = Nat.succ _›
      | split)
  | succ n ih =>
    unfold State.appendRetires
    repeat' (first
      | with_reducible exact hS
      | with_reducible assumption
      | with_reducible apply ih
      | exact sub_mono hM rfl
      | exact Or.inl (sub_mono hM rfl)
      | exact Or.inr rfl
      | exact Or.inr ⟨rfl, rfl, rfl, rfl, rfl⟩
      | exact Or.inr (fun k => k)
      | exact Or.inr (fun _ => rfl)
      | with_reducible refine only_ite (fun _ => ?_) (fun _ => ?_)
      | with_reducible apply State.appendRec_only
      | refine only_pair (by with_reducible assumption) ?_
      | refine only_optPair (by with_reducible assumption) ?_
      | refine only_opt (by with_reducible assumption) ?_
      | refine only_outcome (by with_reducible assumption) ?_
      | dsimp only
      | with_reducible intro _
      | cases ‹_ + 1 = Nat.succ _›
      | split)

theorem State.deductCredit_only {M : List Field} {s0 s : State} (hS : Only M s0 s)
    (hM : sub [.log] M = true) (bytes : Nat) : Only M s0 (State.deductCredit s bytes) := by
  unfold State.deductCredit
  repeat' (first
    | with_reducible exact hS
    | with_reducible assumption
    | exact sub_mono hM rfl
    | exact Or.inl (sub_mono hM rfl)
    | exact Or.inr rfl
    | exact Or.inr ⟨rfl, rfl, rfl, rfl, rfl⟩
    | exact Or.inr (fun k => k)
    | exact Or.inr (fun _ => rfl)
    | with_reducible refine only_ite (fun _ => ?_) (fun _ => ?_)
    | with_reducible apply only_withLog
    | refine only_pair (by with_reducible assumption) ?_
    | refine only_optPair (by with_reducible assumption) ?_
    | refine only_opt (by with_reducible assumption) ?_
    | refine only_outcome (by with_reducible assumption) ?_
    | dsimp only
    | with_reducible intro _
    | split)

end Sys2Proof.Machine
end

