-- ==== Sys2Proof/Laws/OnlyEvents.lean ====
section
/-! SUPPORT. The frame of every operation of Sys2Proof/Machine/Events.lean: which parts of the state it may change. -/

set_option linter.unusedTactic false
set_option linter.unreachableTactic false
set_option linter.unusedVariables false

namespace Sys2Proof.Machine

theorem State.setRing_only {M : List Field} {s0 s : State} (hS : Only M s0 s)
    (hM : sub [.rings] M = true) (r : RingId) (v : Ring) : Only M s0 (State.setRing s r v) := by
  unfold State.setRing
  repeat' (first
    | with_reducible exact hS
    | with_reducible assumption
    | exact sub_mono hM rfl
    | exact Or.inl (sub_mono hM rfl)
    | exact Or.inr rfl
    | exact Or.inr ⟨rfl, rfl, rfl, rfl, rfl⟩
    | exact Or.inr (fun k => k)
    | exact Or.inr (fun _ => rfl)
    | with_reducible refine only_ite (fun _ => ?_) (fun _ => ?_)
    | with_reducible apply only_withRings
    | refine only_pair (by with_reducible assumption) ?_
    | refine only_optPair (by with_reducible assumption) ?_
    | refine only_opt (by with_reducible assumption) ?_
    | refine only_outcome (by with_reducible assumption) ?_
    | dsimp only
    | with_reducible intro _
    | split)

theorem State.modRing_only {M : List Field} {s0 s : State} (hS : Only M s0 s)
    (hM : sub [.rings] M = true) (r : RingId) (f : Ring → Ring) : Only M s0 (State.modRing s r f) := by
  unfold State.modRing
  repeat' (first
    | with_reducible exact hS
    | with_reducible assumption
    | exact sub_mono hM rfl
    | exact Or.inl (sub_mono hM rfl)
    | exact Or.inr rfl
    | exact Or.inr ⟨rfl, rfl, rfl, rfl, rfl⟩
    | exact Or.inr (fun k => k)
    | exact Or.inr (fun _ => rfl)
    | with_reducible refine only_ite (fun _ => ?_) (fun _ => ?_)
    | with_reducible apply State.setRing_only
    | refine only_pair (by with_reducible assumption) ?_
    | refine only_optPair (by with_reducible assumption) ?_
    | refine only_opt (by with_reducible assumption) ?_
    | refine only_outcome (by with_reducible assumption) ?_
    | dsimp only
    | with_reducible intro _
    | split)

theorem State.emit_only {M : List Field} {s0 s : State} (hS : Only M s0 s)
    (hM : sub [.out] M = true) (o : Out) : Only M s0 (State.emit s o) := by
  unfold State.emit
  repeat' (first
    | with_reducible exact hS
    | with_reducible assumption
    | exact sub_mono hM rfl
    | exact Or.inl (sub_mono hM rfl)
    | exact Or.inr rfl
    | exact Or.inr ⟨rfl, rfl, rfl, rfl, rfl⟩
    | exact Or.inr (fun k => k)
    | exact Or.inr (fun _ => rfl)
    | with_reducible refine only_ite (fun _ => ?_) (fun _ => ?_)
    | with_reducible apply only_withOut
    | refine only_pair (by with_reducible assumption) ?_
    | refine only_optPair (by with_reducible assumption) ?_
    | refine only_opt (by with_reducible assumption) ?_
    | refine only_outcome (by with_reducible assumption) ?_
    | dsimp only
    | with_reducible intro _
    | split)

theorem State.hostOut_only {M : List Field} {s0 s : State} (hS : Only M s0 s)
    (hM : sub [.hpus, .out] M = true) (p : Bool) (o : Out) : Only M s0 (State.hostOut s p o) := by
  unfold State.hostOut
  repeat' (first
    | with_reducible exact hS
    | with_reducible assumption
    | exact sub_mono hM rfl
    | exact Or.inl (sub_mono hM rfl)
    | exact Or.inr rfl
    | exact Or.inr ⟨rfl, rfl, rfl, rfl, rfl⟩
    | exact Or.inr (fun k => k)
    | exact Or.inr (fun _ => rfl)
    | with_reducible refine only_ite (fun _ => ?_) (fun _ => ?_)
    | with_reducible apply State.emit_only
    | with_reducible apply State.modHpu_only
    | refine only_pair (by with_reducible assumption) ?_
    | refine only_optPair (by with_reducible assumption) ?_
    | refine only_opt (by with_reducible assumption) ?_
    | refine only_outcome (by with_reducible assumption) ?_
    | dsimp only
    | with_reducible intro _
    | split)

theorem State.sendMsix_only {M : List Field} {s0 s : State} (hS : Only M s0 s)
    (hM : sub [.hpus, .out] M = true) (p : Bool) (v : Nat) : Only M s0 (State.sendMsix s p v) := by
  unfold State.sendMsix
  repeat' (first
    | with_reducible exact hS
    | with_reducible assumption
    | exact sub_mono hM rfl
    | exact Or.inl (sub_mono hM rfl)
    | exact Or.inr rfl
    | exact Or.inr ⟨rfl, rfl, rfl, rfl, rfl⟩
    | exact Or.inr (fun k => k)
    | exact Or.inr (fun _ => rfl)
    | with_reducible refine only_ite (fun _ => ?_) (fun _ => ?_)
    | with_reducible apply State.hostOut_only
    | with_reducible apply State.modHpu_only
    | refine only_pair (by with_reducible assumption) ?_
    | refine only_optPair (by with_reducible assumption) ?_
    | refine only_opt (by with_reducible assumption) ?_
    | refine only_outcome (by with_reducible assumption) ?_
    | dsimp only
    | with_reducible intro _
    | split)

theorem State.notify_only {M : List Field} {s0 s : State} (hS : Only M s0 s)
    (hM : sub [.rings, .hpus, .out] M = true) (r : RingId) (k : Nat) : Only M s0 (State.notify s r k) := by
  unfold State.notify
  repeat' (first
    | with_reducible exact hS
    | with_reducible assumption
    | exact sub_mono hM rfl
    | exact Or.inl (sub_mono hM rfl)
    | exact Or.inr rfl
    | exact Or.inr ⟨rfl, rfl, rfl, rfl, rfl⟩
    | exact Or.inr (fun k => k)
    | exact Or.inr (fun _ => rfl)
    | with_reducible refine only_ite (fun _ => ?_) (fun _ => ?_)
    | with_reducible apply State.modRing_only
    | with_reducible apply State.sendMsix_only
    | refine only_pair (by with_reducible assumption) ?_
    | refine only_optPair (by with_reducible assumption) ?_
    | refine only_opt (by with_reducible assumption) ?_
    | refine only_outcome (by with_reducible assumption) ?_
    | dsimp only
    | with_reducible intro _
    | split)

theorem State.writeRecord_only {M : List Field} {s0 s : State} (hS : Only M s0 s)
    (hM : sub [.rings, .hpus, .out] M = true) (p : Bool) (r : EventRecord) : Only M s0 (State.writeRecord s p r).1 := by
  unfold State.writeRecord
  repeat' (first
    | with_reducible exact hS
    | with_reducible assumption
    | exact sub_mono hM rfl
    | exact Or.inl (sub_mono hM rfl)
    | exact Or.inr rfl
    | exact Or.inr ⟨rfl, rfl, rfl, rfl, rfl⟩
    | exact Or.inr (fun k => k)
    | exact Or.inr (fun _ => rfl)
    | with_reducible refine only_ite (fun _ => ?_) (fun _ => ?_)
    | with_reducible refine only_iteFst (fun _ => ?_) (fun _ => ?_)
    | with_reducible apply State.hostOut_only
    | with_reducible apply State.notify_only
    | with_reducible apply State.setRing_only
    | refine only_pair (by with_reducible assumption) ?_
    | refine only_optPair (by with_reducible assumption) ?_
    | refine only_opt (by with_reducible assumption) ?_
    | refine only_outcome (by with_reducible assumption) ?_
    | dsimp only
    | with_reducible intro _
    | split)

theorem State.postTo_only {M : List Field} {s0 s : State} (hS : Only M s0 s)
    (hM : sub [.rings, .hpus, .out] M = true) (p : Bool) (r : EventRecord) : Only M s0 (State.postTo s p r).1 := by
  unfold State.postTo
  repeat' (first
    | with_reducible exact hS
    | with_reducible assumption
    | exact sub_mono hM rfl
    | exact Or.inl (sub_mono hM rfl)
    | exact Or.inr rfl
    | exact Or.inr ⟨rfl, rfl, rfl, rfl, rfl⟩
    | exact Or.inr (fun k => k)
    | exact Or.inr (fun _ => rfl)
    | with_reducible refine only_ite (fun _ => ?_) (fun _ => ?_)
    | with_reducible refine only_iteFst (fun _ => ?_) (fun _ => ?_)
    | with_reducible apply State.setRing_only
    | with_reducible apply State.writeRecord_only
    | refine only_pair (by with_reducible assumption) ?_
    | refine only_optPair (by with_reducible assumption) ?_
    | refine only_opt (by with_reducible assumption) ?_
    | refine only_outcome (by with_reducible assumption) ?_
    | dsimp only
    | with_reducible intro _
    | split)

theorem State.postBoth_only {M : List Field} {s0 s : State} (hS : Only M s0 s)
    (hM : sub [.rings, .hpus, .out] M = true) (r : EventRecord) : Only M s0 (State.postBoth s r).1 := by
  unfold State.postBoth
  repeat' (first
    | with_reducible exact hS
    | with_reducible assumption
    | exact sub_mono hM rfl
    | exact Or.inl (sub_mono hM rfl)
    | exact Or.inr rfl
    | exact Or.inr ⟨rfl, rfl, rfl, rfl, rfl⟩
    | exact Or.inr (fun k => k)
    | exact Or.inr (fun _ => rfl)
    | with_reducible refine only_ite (fun _ => ?_) (fun _ => ?_)
    | with_reducible refine only_iteFst (fun _ => ?_) (fun _ => ?_)
    | with_reducible apply State.postTo_only
    | refine only_pair (by with_reducible assumption) ?_
    | refine only_optPair (by with_reducible assumption) ?_
    | refine only_opt (by with_reducible assumption) ?_
    | refine only_outcome (by with_reducible assumption) ?_
    | dsimp only
    | with_reducible intro _
    | split)

theorem State.refillHold_only {M : List Field} {s0 s : State} (hS : Only M s0 s)
    (hM : sub [.rings] M = true) (p : Bool) : Only M s0 (State.refillHold s p) := by
  unfold State.refillHold
  repeat' (first
    | with_reducible exact hS
    | with_reducible assumption
    | exact sub_mono hM rfl
    | exact Or.inl (sub_mono hM rfl)
    | exact Or.inr rfl
    | exact Or.inr ⟨rfl, rfl, rfl, rfl, rfl⟩
    | exact Or.inr (fun k => k)
    | exact Or.inr (fun _ => rfl)
    | with_reducible refine only_ite (fun _ => ?_) (fun _ => ?_)
    | with_reducible apply State.modRing_only
    | refine only_pair (by with_reducible assumption) ?_
    | refine only_optPair (by with_reducible assumption) ?_
    | refine only_opt (by with_reducible assumption) ?_
    | refine only_outcome (by with_reducible assumption) ?_
    | dsimp only
    | with_reducible intro _
    | split)

theorem State.drainHold_only {M : List Field} {s0 s : State} (hS : Only M s0 s)
    (hM : sub [.rings, .hpus, .out] M = true) (p : Bool) (a0 : Nat) : Only M s0 (State.drainHold s p a0).1 := by
  induction a0 generalizing s   with
  | zero =>
    unfold State.drainHold
    repeat' (first
      | with_reducible exact hS
      | with_reducible assumption
      | exact sub_mono hM rfl
      | exact Or.inl (sub_mono hM rfl)
      | exact Or.inr rfl
      | exact Or.inr ⟨rfl, rfl, rfl, rfl, rfl⟩
      | exact Or.inr (fun k => k)
      | exact Or.inr (fun _ => rfl)
      | with_reducible refine only_ite (fun _ => ?_) (fun _ => ?_)
      | with_reducible refine only_iteFst (fun _ => ?_) (fun _ => ?_)
      | with_reducible apply State.refillHold_only
      | with_reducible apply State.setRing_only
      | with_reducible apply State.writeRecord_only
      | refine only_pair (by with_reducible assumption) ?_
      | refine only_optPair (by with_reducible assumption) ?_
      | refine only_opt (by with_reducible assumption) ?_
      | refine only_outcome (by with_reducible assumption) ?_
      | dsimp only
      | with_reducible intro _
      | cases ‹_ + 1 = Nat.succ _›
      | split)
  | succ n ih =>
    unfold State.drainHold
    repeat' (first
      | with_reducible exact hS
      | with_reducible assumption
      | with_reducible apply ih
      | exact sub_mono hM rfl
      | exact Or.inl (sub_mono hM rfl)
      | exact Or.inr rfl
      | exact Or.inr ⟨rfl, rfl, rfl, rfl, rfl⟩
      | exact Or.inr (fun k => k)
      | exact Or.inr (fun _ => rfl)
      | with_reducible refine only_ite (fun _ => ?_) (fun _ => ?_)
      | with_reducible refine only_iteFst (fun _ => ?_) (fun _ => ?_)
      | with_reducible apply State.refillHold_only
      | with_reducible apply State.setRing_only
      | with_reducible apply State.writeRecord_only
      | refine only_pair (by with_reducible assumption) ?_
      | refine only_optPair (by with_reducible assumption) ?_
      | refine only_opt (by with_reducible assumption) ?_
      | refine only_outcome (by with_reducible assumption) ?_
      | dsimp only
      | with_reducible intro _
      | cases ‹_ + 1 = Nat.succ _›
      | split)

theorem State.spaceFreed_only {M : List Field} {s0 s : State} (hS : Only M s0 s)
    (hM : sub [.rings, .hpus, .out] M = true) (p : Bool) : Only M s0 (State.spaceFreed s p).1 := by
  unfold State.spaceFreed
  repeat' (first
    | with_reducible exact hS
    | with_reducible assumption
    | exact sub_mono hM rfl
    | exact Or.inl (sub_mono hM rfl)
    | exact Or.inr rfl
    | exact Or.inr ⟨rfl, rfl, rfl, rfl, rfl⟩
    | exact Or.inr (fun k => k)
    | exact Or.inr (fun _ => rfl)
    | with_reducible refine only_ite (fun _ => ?_) (fun _ => ?_)
    | with_reducible refine only_iteFst (fun _ => ?_) (fun _ => ?_)
    | with_reducible apply State.drainHold_only
    | with_reducible apply State.setRing_only
    | with_reducible apply State.writeRecord_only
    | refine only_pair (by with_reducible assumption) ?_
    | refine only_optPair (by with_reducible assumption) ?_
    | refine only_opt (by with_reducible assumption) ?_
    | refine only_outcome (by with_reducible assumption) ?_
    | dsimp only
    | with_reducible intro _
    | split)

theorem State.publish_only {M : List Field} {s0 s : State} (hS : Only M s0 s)
    (hM : sub [.rings, .hpus, .out] M = true) (r : RingId) (k : Nat) : Only M s0 (State.publish s r k) := by
  unfold State.publish
  repeat' (first
    | with_reducible exact hS
    | with_reducible assumption
    | exact sub_mono hM rfl
    | exact Or.inl (sub_mono hM rfl)
    | exact Or.inr rfl
    | exact Or.inr ⟨rfl, rfl, rfl, rfl, rfl⟩
    | exact Or.inr (fun k => k)
    | exact Or.inr (fun _ => rfl)
    | with_reducible refine only_ite (fun _ => ?_) (fun _ => ?_)
    | with_reducible apply State.hostOut_only
    | with_reducible apply State.notify_only
    | refine only_pair (by with_reducible assumption) ?_
    | refine only_optPair (by with_reducible assumption) ?_
    | refine only_opt (by with_reducible assumption) ?_
    | refine only_outcome (by with_reducible assumption) ?_
    | dsimp only
    | with_reducible intro _
    | split)

theorem State.passEnded_only {M : List Field} {s0 s : State} (hS : Only M s0 s)
    (hM : sub [.rings, .hpus, .out] M = true) (r : RingId) (a0 : Nat) : Only M s0 (State.passEnded s r a0).1 := by
  induction a0 generalizing s   with
  | zero =>
    unfold State.passEnded
    repeat' (first
      | with_reducible exact hS
      | with_reducible assumption
      | exact sub_mono hM rfl
      | exact Or.inl (sub_mono hM rfl)
      | exact Or.inr rfl
      | exact Or.inr ⟨rfl, rfl, rfl, rfl, rfl⟩
      | exact Or.inr (fun k => k)
      | exact Or.inr (fun _ => rfl)
      | with_reducible refine only_ite (fun _ => ?_) (fun _ => ?_)
      | with_reducible refine only_iteFst (fun _ => ?_) (fun _ => ?_)
      | with_reducible apply State.modRing_only
      | with_reducible apply State.postTo_only
      | refine only_pair (by with_reducible assumption) ?_
      | refine only_optPair (by with_reducible assumption) ?_
      | refine only_opt (by with_reducible assumption) ?_
      | refine only_outcome (by with_reducible assumption) ?_
      | dsimp only
      | with_reducible intro _
      | cases ‹_ + 1 = Nat.succ _›
      | split)
  | succ n ih =>
    unfold State.passEnded
    repeat' (first
      | with_reducible exact hS
      | with_reducible assumption
      | with_reducible apply ih
      | exact sub_mono hM rfl
      | exact Or.inl (sub_mono hM rfl)
      | exact Or.inr rfl
      | exact Or.inr ⟨rfl, rfl, rfl, rfl, rfl⟩
      | exact Or.inr (fun k => k)
      | exact Or.inr (fun _ => rfl)
      | with_reducible refine only_ite (fun _ => ?_) (fun _ => ?_)
      | with_reducible refine only_iteFst (fun _ => ?_) (fun _ => ?_)
      | with_reducible apply State.modRing_only
      | with_reducible apply State.postTo_only
      | refine only_pair (by with_reducible assumption) ?_
      | refine only_optPair (by with_reducible assumption) ?_
      | refine only_opt (by with_reducible assumption) ?_
      | refine only_outcome (by with_reducible assumption) ?_
      | dsimp only
      | with_reducible intro _
      | cases ‹_ + 1 = Nat.succ _›
      | split)

theorem State.advanceHead_only {M : List Field} {s0 s : State} (hS : Only M s0 s)
    (hM : sub [.rings, .hpus, .out] M = true) (r : RingId) : Only M s0 (State.advanceHead s r).1 := by
  unfold State.advanceHead
  repeat' (first
    | with_reducible exact hS
    | with_reducible assumption
    | exact sub_mono hM rfl
    | exact Or.inl (sub_mono hM rfl)
    | exact Or.inr rfl
    | exact Or.inr ⟨rfl, rfl, rfl, rfl, rfl⟩
    | exact Or.inr (fun k => k)
    | exact Or.inr (fun _ => rfl)
    | with_reducible refine only_ite (fun _ => ?_) (fun _ => ?_)
    | with_reducible refine only_iteFst (fun _ => ?_) (fun _ => ?_)
    | with_reducible apply State.passEnded_only
    | with_reducible apply State.publish_only
    | refine only_pair (by with_reducible assumption) ?_
    | refine only_optPair (by with_reducible assumption) ?_
    | refine only_opt (by with_reducible assumption) ?_
    | refine only_outcome (by with_reducible assumption) ?_
    | dsimp only
    | with_reducible intro _
    | split)

theorem State.endEntry_only {M : List Field} {s0 s : State} (hS : Only M s0 s)
    (hM : sub [.rings, .hpus, .out] M = true) (r : RingId) (pos : Nat) (status : Byte) (rec : Option EventRecord) : Only M s0 (State.endEntry s r pos status rec).1 := by
  unfold State.endEntry
  repeat' (first
    | with_reducible exact hS
    | with_reducible assumption
    | exact sub_mono hM rfl
    | exact Or.inl (sub_mono hM rfl)
    | exact Or.inr rfl
    | exact Or.inr ⟨rfl, rfl, rfl, rfl, rfl⟩
    | exact Or.inr (fun k => k)
    | exact Or.inr (fun _ => rfl)
    | with_reducible refine only_ite (fun _ => ?_) (fun _ => ?_)
    | with_reducible refine only_iteFst (fun _ => ?_) (fun _ => ?_)
    | with_reducible apply State.advanceHead_only
    | with_reducible apply State.modRing_only
    | refine only_pair (by with_reducible assumption) ?_
    | refine only_optPair (by with_reducible assumption) ?_
    | refine only_opt (by with_reducible assumption) ?_
    | refine only_outcome (by with_reducible assumption) ?_
    | dsimp only
    | with_reducible intro _
    | split)

end Sys2Proof.Machine
end

