-- ==== Sys2Proof/Laws/OnlyEndings.lean ====
section
/-! SUPPORT. The frame of every operation of Sys2Proof/Machine/Endings.lean: which parts of the state it may change. -/

set_option linter.unusedTactic false
set_option linter.unreachableTactic false
set_option linter.unusedVariables false

namespace Sys2Proof.Machine

theorem State.sendFrame_only {M : List Field} {s0 s : State} (hS : Only M s0 s)
    (hM : sub [.regs, .out] M = true) (typ : Byte) (seq : Byte) (payload : Bytes) : Only M s0 (State.sendFrame s typ seq payload) := by
  unfold State.sendFrame
  repeat' (first
    | with_reducible exact hS
    | with_reducible assumption
    | exact sub_mono hM rfl
    | exact Or.inl (sub_mono hM rfl)
    | exact Or.inr rfl
    | exact Or.inr ⟨rfl, rfl, rfl, rfl, rfl⟩
    | exact Or.inr (fun k => k)
    | exact Or.inr (fun _ => rfl)
    | with_reducible refine only_ite (fun _ => ?_) (fun _ => ?_)
    | with_reducible apply State.count32_only
    | with_reducible apply State.emit_only
    | refine only_pair (by with_reducible assumption) ?_
    | refine only_optPair (by with_reducible assumption) ?_
    | refine only_opt (by with_reducible assumption) ?_
    | refine only_outcome (by with_reducible assumption) ?_
    | dsimp only
    | with_reducible intro _
    | split)

theorem State.originate_only {M : List Field} {s0 s : State} (hS : Only M s0 s)
    (hM : sub [.regs, .chn, .out] M = true) (typ : Byte) (payload : Bytes) : Only M s0 (State.originate s typ payload) := by
  unfold State.originate
  repeat' (first
    | with_reducible exact hS
    | with_reducible assumption
    | exact sub_mono hM rfl
    | exact Or.inl (sub_mono hM rfl)
    | exact Or.inr rfl
    | exact Or.inr ⟨rfl, rfl, rfl, rfl, rfl⟩
    | exact Or.inr (fun k => k)
    | exact Or.inr (fun _ => rfl)
    | with_reducible refine only_ite (fun _ => ?_) (fun _ => ?_)
    | with_reducible apply State.sendFrame_only
    | with_reducible apply only_withChn
    | refine only_pair (by with_reducible assumption) ?_
    | refine only_optPair (by with_reducible assumption) ?_
    | refine only_opt (by with_reducible assumption) ?_
    | refine only_outcome (by with_reducible assumption) ?_
    | dsimp only
    | with_reducible intro _
    | split)

theorem State.setAlert_only {M : List Field} {s0 s : State} (hS : Only M s0 s)
    (hM : sub [.chn] M = true)  : Only M s0 (State.setAlert s) := by
  unfold State.setAlert
  repeat' (first
    | with_reducible exact hS
    | with_reducible assumption
    | exact sub_mono hM rfl
    | exact Or.inl (sub_mono hM rfl)
    | exact Or.inr rfl
    | exact Or.inr ⟨rfl, rfl, rfl, rfl, rfl⟩
    | exact Or.inr (fun k => k)
    | exact Or.inr (fun _ => rfl)
    | with_reducible refine only_ite (fun _ => ?_) (fun _ => ?_)
    | with_reducible apply only_withChn
    | refine only_pair (by with_reducible assumption) ?_
    | refine only_optPair (by with_reducible assumption) ?_
    | refine only_opt (by with_reducible assumption) ?_
    | refine only_outcome (by with_reducible assumption) ?_
    | dsimp only
    | with_reducible intro _
    | split)

theorem State.setSrcQueue_only {M : List Field} {s0 s : State} (hS : Only M s0 s)
    (hM : sub [.interp] M = true) (src : CmdSrc) (q : List Bytes) : Only M s0 (State.setSrcQueue s src q) := by
  unfold State.setSrcQueue
  repeat' (first
    | with_reducible exact hS
    | with_reducible assumption
    | exact sub_mono hM rfl
    | exact Or.inl (sub_mono hM rfl)
    | exact Or.inr rfl
    | exact Or.inr ⟨rfl, rfl, rfl, rfl, rfl⟩
    | exact Or.inr (fun k => k)
    | exact Or.inr (fun _ => rfl)
    | with_reducible refine only_ite (fun _ => ?_) (fun _ => ?_)
    | with_reducible apply only_withInterp
    | refine only_pair (by with_reducible assumption) ?_
    | refine only_optPair (by with_reducible assumption) ?_
    | refine only_opt (by with_reducible assumption) ?_
    | refine only_outcome (by with_reducible assumption) ?_
    | dsimp only
    | with_reducible intro _
    | split)

theorem State.writeReply_only {M : List Field} {s0 s : State} (hS : Only M s0 s)
    (hM : sub [.rings, .hpus, .out] M = true) (c : BitVec 4) (bytes : Bytes) : Only M s0 (State.writeReply s c bytes) := by
  unfold State.writeReply
  repeat' (first
    | with_reducible exact hS
    | with_reducible assumption
    | exact sub_mono hM rfl
    | exact Or.inl (sub_mono hM rfl)
    | exact Or.inr rfl
    | exact Or.inr ⟨rfl, rfl, rfl, rfl, rfl⟩
    | exact Or.inr (fun k => k)
    | exact Or.inr (fun _ => rfl)
    | with_reducible refine only_ite (fun _ => ?_) (fun _ => ?_)
    | with_reducible apply State.hostOut_only
    | with_reducible apply State.modRing_only
    | with_reducible apply State.publish_only
    | refine only_pair (by with_reducible assumption) ?_
    | refine only_optPair (by with_reducible assumption) ?_
    | refine only_opt (by with_reducible assumption) ?_
    | refine only_outcome (by with_reducible assumption) ?_
    | dsimp only
    | with_reducible intro _
    | split)

theorem State.reply_only {M : List Field} {s0 s : State} (hS : Only M s0 s)
    (hM : sub [.regs, .rings, .interp, .hpus, .out] M = true) (src : CmdSrc) (pkt : Bytes) (status : Byte) (detail : Byte) (result : Bytes) : Only M s0 (State.reply s src pkt status detail result) := by
  unfold State.reply
  repeat' (first
    | with_reducible exact hS
    | with_reducible assumption
    | exact sub_mono hM rfl
    | exact Or.inl (sub_mono hM rfl)
    | exact Or.inr rfl
    | exact Or.inr ⟨rfl, rfl, rfl, rfl, rfl⟩
    | exact Or.inr (fun k => k)
    | exact Or.inr (fun _ => rfl)
    | with_reducible refine only_ite (fun _ => ?_) (fun _ => ?_)
    | with_reducible exact only_none
    | with_reducible refine only_iteOpt (fun _ => ?_) (fun _ => ?_)
    | with_reducible refine only_iteOptFst (fun _ => ?_) (fun _ => ?_)
    | with_reducible refine only_getD ?_ ?_
    | with_reducible refine only_mapOpt ?_ (fun _ _ => ?_)
    | with_reducible refine only_mapState ?_ (fun _ _ => ?_)
    | with_reducible refine only_mapFst ?_ (fun _ _ => ?_)
    | with_reducible refine only_bindFst ?_ (fun _ _ => ?_)
    | with_reducible refine only_foldlOpt ?_ (fun _ _ _ => ?_)
    | with_reducible refine only_someFst ?_
    | with_reducible refine only_some ?_
    | with_reducible apply State.sendFrame_only
    | with_reducible apply State.setRegN_only
    | with_reducible apply State.setSrcQueue_only
    | with_reducible apply State.writeReply_only
    | with_reducible apply only_withInterp
    | refine only_pair (by with_reducible assumption) ?_
    | refine only_optPair (by with_reducible assumption) ?_
    | refine only_opt (by with_reducible assumption) ?_
    | refine only_outcome (by with_reducible assumption) ?_
    | dsimp only
    | with_reducible intro _
    | split)

theorem State.writeBuffer_only {M : List Field} {s0 s : State} (hS : Only M s0 s)
    (hM : sub [.interp, .scratch, .hpus, .out] M = true) (src : CmdSrc) (pkt : Bytes) (off : Nat) (data : Bytes) : Only M s0 (State.writeBuffer s src pkt off data).1 := by
  unfold State.writeBuffer
  repeat' (first
    | with_reducible exact hS
    | with_reducible assumption
    | exact sub_mono hM rfl
    | exact Or.inl (sub_mono hM rfl)
    | exact Or.inr rfl
    | exact Or.inr ⟨rfl, rfl, rfl, rfl, rfl⟩
    | exact Or.inr (fun k => k)
    | exact Or.inr (fun _ => rfl)
    | with_reducible refine only_ite (fun _ => ?_) (fun _ => ?_)
    | with_reducible refine only_iteFst (fun _ => ?_) (fun _ => ?_)
    | with_reducible apply State.hostOut_only
    | with_reducible apply only_withInterp
    | refine only_pair (by with_reducible assumption) ?_
    | refine only_optPair (by with_reducible assumption) ?_
    | refine only_opt (by with_reducible assumption) ?_
    | refine only_outcome (by with_reducible assumption) ?_
    | dsimp only
    | with_reducible intro _
    | split)

theorem State.endDeferred_only {M : List Field} {s0 s : State} (hS : Only M s0 s)
    (hM : sub [.regs, .rings, .interp, .hpus, .out] M = true) (d : Deferred) (status : Byte) (detail : Byte) (result : Bytes) : Only M s0 (State.endDeferred s d status detail result) := by
  unfold State.endDeferred
  repeat' (first
    | with_reducible exact hS
    | with_reducible assumption
    | exact sub_mono hM rfl
    | exact Or.inl (sub_mono hM rfl)
    | exact Or.inr rfl
    | exact Or.inr ⟨rfl, rfl, rfl, rfl, rfl⟩
    | exact Or.inr (fun k => k)
    | exact Or.inr (fun _ => rfl)
    | with_reducible refine only_ite (fun _ => ?_) (fun _ => ?_)
    | with_reducible apply State.reply_only
    | with_reducible apply only_withInterp
    | refine only_pair (by with_reducible assumption) ?_
    | refine only_optPair (by with_reducible assumption) ?_
    | refine only_opt (by with_reducible assumption) ?_
    | refine only_outcome (by with_reducible assumption) ?_
    | dsimp only
    | with_reducible intro _
    | split)

theorem State.endCommand_only {M : List Field} {s0 s : State} (hS : Only M s0 s)
    (hM : sub [.regs, .rings, .interp, .hpus, .out] M = true) (src : CmdSrc) (pkt : Bytes) (status : Byte) (detail : Byte) (result : Bytes) : Only M s0 (State.endCommand s src pkt status detail result) := by
  unfold State.endCommand
  repeat' (first
    | with_reducible exact hS
    | with_reducible assumption
    | exact sub_mono hM rfl
    | exact Or.inl (sub_mono hM rfl)
    | exact Or.inr rfl
    | exact Or.inr ⟨rfl, rfl, rfl, rfl, rfl⟩
    | exact Or.inr (fun k => k)
    | exact Or.inr (fun _ => rfl)
    | with_reducible refine only_ite (fun _ => ?_) (fun _ => ?_)
    | with_reducible apply State.endDeferred_only
    | with_reducible apply State.reply_only
    | refine only_pair (by with_reducible assumption) ?_
    | refine only_optPair (by with_reducible assumption) ?_
    | refine only_opt (by with_reducible assumption) ?_
    | refine only_outcome (by with_reducible assumption) ?_
    | dsimp only
    | with_reducible intro _
    | split)

theorem State.forgetDeferred_only {M : List Field} {s0 s : State} (hS : Only M s0 s)
    (hM : sub [.wch, .ports, .portGroups, .interp, .mon, .pair] M = true)  : Only M s0 (State.forgetDeferred s) := by
  unfold State.forgetDeferred
  repeat' (first
    | with_reducible exact hS
    | with_reducible assumption
    | exact sub_mono hM rfl
    | exact Or.inl (sub_mono hM rfl)
    | exact Or.inr rfl
    | exact Or.inr ⟨rfl, rfl, rfl, rfl, rfl⟩
    | exact Or.inr (fun k => k)
    | exact Or.inr (fun _ => rfl)
    | with_reducible refine only_ite (fun _ => ?_) (fun _ => ?_)
    | with_reducible apply only_withInterp
    | with_reducible apply only_withMon
    | with_reducible apply only_withPair
    | with_reducible apply only_withPortGroups
    | with_reducible apply only_withPorts
    | with_reducible apply only_withWch
    | refine only_pair (by with_reducible assumption) ?_
    | refine only_optPair (by with_reducible assumption) ?_
    | refine only_opt (by with_reducible assumption) ?_
    | refine only_outcome (by with_reducible assumption) ?_
    | dsimp only
    | with_reducible intro _
    | split)

theorem State.forgetSource_only {M : List Field} {s0 s : State} (hS : Only M s0 s)
    (hM : sub [.wch, .ports, .portGroups, .interp, .mon, .pair] M = true) (src : CmdSrc) : Only M s0 (State.forgetSource s src) := by
  unfold State.forgetSource
  repeat' (first
    | with_reducible exact hS
    | with_reducible assumption
    | exact sub_mono hM rfl
    | exact Or.inl (sub_mono hM rfl)
    | exact Or.inr rfl
    | exact Or.inr ⟨rfl, rfl, rfl, rfl, rfl⟩
    | exact Or.inr (fun k => k)
    | exact Or.inr (fun _ => rfl)
    | with_reducible refine only_ite (fun _ => ?_) (fun _ => ?_)
    | with_reducible apply only_withInterp
    | with_reducible apply only_withMon
    | with_reducible apply only_withPair
    | with_reducible apply only_withPortGroups
    | with_reducible apply only_withPorts
    | with_reducible apply only_withWch
    | refine only_pair (by with_reducible assumption) ?_
    | refine only_optPair (by with_reducible assumption) ?_
    | refine only_opt (by with_reducible assumption) ?_
    | refine only_outcome (by with_reducible assumption) ?_
    | dsimp only
    | with_reducible intro _
    | split)

theorem State.endDesc_only {M : List Field} {s0 s : State} (hS : Only M s0 s)
    (hM : sub [.rings, .hpus, .out] M = true) (ring : BitVec 10) (d : Desc) (status : Byte) (detail : Byte) (lba : Nat) (count : Nat) : Only M s0 (State.endDesc s ring d status detail lba count).1 := by
  unfold State.endDesc
  repeat' (first
    | with_reducible exact hS
    | with_reducible assumption
    | exact sub_mono hM rfl
    | exact Or.inl (sub_mono hM rfl)
    | exact Or.inr rfl
    | exact Or.inr ⟨rfl, rfl, rfl, rfl, rfl⟩
    | exact Or.inr (fun k => k)
    | exact Or.inr (fun _ => rfl)
    | with_reducible refine only_ite (fun _ => ?_) (fun _ => ?_)
    | with_reducible refine only_iteFst (fun _ => ?_) (fun _ => ?_)
    | with_reducible apply State.endEntry_only
    | refine only_pair (by with_reducible assumption) ?_
    | refine only_optPair (by with_reducible assumption) ?_
    | refine only_opt (by with_reducible assumption) ?_
    | refine only_outcome (by with_reducible assumption) ?_
    | dsimp only
    | with_reducible intro _
    | split)

theorem State.abandonIo_only {M : List Field} {s0 s : State} (hS : Only M s0 s)
    (hM : sub [.log, .scc] M = true) (id : Nat) : Only M s0 (State.abandonIo s id) := by
  unfold State.abandonIo
  repeat' (first
    | with_reducible exact hS
    | with_reducible assumption
    | exact sub_mono hM rfl
    | exact Or.inl (sub_mono hM rfl)
    | exact Or.inr rfl
    | exact Or.inr ⟨rfl, rfl, rfl, rfl, rfl⟩
    | exact Or.inr (fun k => k)
    | exact Or.inr (fun _ => rfl)
    | with_reducible refine only_ite (fun _ => ?_) (fun _ => ?_)
    | with_reducible apply only_withLog
    | with_reducible apply only_withScc
    | refine only_pair (by with_reducible assumption) ?_
    | refine only_optPair (by with_reducible assumption) ?_
    | refine only_opt (by with_reducible assumption) ?_
    | refine only_outcome (by with_reducible assumption) ?_
    | dsimp only
    | with_reducible intro _
    | split)

theorem State.discardReads_only {M : List Field} {s0 s : State} (hS : Only M s0 s)
    (hM : sub [.dcmds] M = true) (id : Nat) : Only M s0 (State.discardReads s id) := by
  unfold State.discardReads
  repeat' (first
    | with_reducible exact hS
    | with_reducible assumption
    | exact sub_mono hM rfl
    | exact Or.inl (sub_mono hM rfl)
    | exact Or.inr rfl
    | exact Or.inr ⟨rfl, rfl, rfl, rfl, rfl⟩
    | exact Or.inr (fun k => k)
    | exact Or.inr (fun _ => rfl)
    | with_reducible refine only_ite (fun _ => ?_) (fun _ => ?_)
    | with_reducible apply only_withDcmds
    | refine only_pair (by with_reducible assumption) ?_
    | refine only_optPair (by with_reducible assumption) ?_
    | refine only_opt (by with_reducible assumption) ?_
    | refine only_outcome (by with_reducible assumption) ?_
    | dsimp only
    | with_reducible intro _
    | split)

theorem State.endIo_only {M : List Field} {s0 s : State} (hS : Only M s0 s)
    (hM : sub [.regs, .log, .rings, .ios, .dcmds, .scc, .pair, .hpus, .out] M = true) (io : Io) (status : Byte) (detail : Byte) (lba : Nat) (count : Nat) : Only M s0 (State.endIo s io status detail lba count).1 := by
  unfold State.endIo
  repeat' (first
    | with_reducible exact hS
    | with_reducible assumption
    | exact sub_mono hM rfl
    | exact Or.inl (sub_mono hM rfl)
    | exact Or.inr rfl
    | exact Or.inr ⟨rfl, rfl, rfl, rfl, rfl⟩
    | exact Or.inr (fun k => k)
    | exact Or.inr (fun _ => rfl)
    | with_reducible refine only_ite (fun _ => ?_) (fun _ => ?_)
    | with_reducible refine only_iteFst (fun _ => ?_) (fun _ => ?_)
    | with_reducible apply State.abandonIo_only
    | with_reducible apply State.discardReads_only
    | with_reducible apply State.endDesc_only
    | with_reducible apply State.sendFlit_only
    | with_reducible apply only_withIos
    | refine only_pair (by with_reducible assumption) ?_
    | refine only_optPair (by with_reducible assumption) ?_
    | refine only_opt (by with_reducible assumption) ?_
    | refine only_outcome (by with_reducible assumption) ?_
    | dsimp only
    | with_reducible intro _
    | split)

theorem State.endIos_only {M : List Field} {s0 s : State} (hS : Only M s0 s)
    (hM : sub [.regs, .log, .rings, .ios, .dcmds, .scc, .pair, .hpus, .out] M = true) (f : Io → Byte × Byte) (a0 : List Io) : Only M s0 (State.endIos s f a0).1 := by
  induction a0 generalizing s   with
  | nil =>
    unfold State.endIos
    repeat' (first
      | with_reducible exact hS
      | with_reducible assumption
      | exact sub_mono hM rfl
      | exact Or.inl (sub_mono hM rfl)
      | exact Or.inr rfl
      | exact Or.inr ⟨rfl, rfl, rfl, rfl, rfl⟩
      | exact Or.inr (fun k => k)
      | exact Or.inr (fun _ => rfl)
      | with_reducible refine only_ite (fun _ => ?_) (fun _ => ?_)
      | with_reducible refine only_iteFst (fun _ => ?_) (fun _ => ?_)
      | with_reducible apply State.endIo_only
      | refine only_pair (by with_reducible assumption) ?_
      | refine only_optPair (by with_reducible assumption) ?_
      | refine only_opt (by with_reducible assumption) ?_
      | refine only_outcome (by with_reducible assumption) ?_
      | dsimp only
      | with_reducible intro _
      | cases ‹_ :: _ = _ :: _›
      | split)
  | cons x l ih =>
    unfold State.endIos
    repeat' (first
      | with_reducible exact hS
      | with_reducible assumption
      | with_reducible apply ih
      | exact sub_mono hM rfl
      | exact Or.inl (sub_mono hM rfl)
      | exact Or.inr rfl
      | exact Or.inr ⟨rfl, rfl, rfl, rfl, rfl⟩
      | exact Or.inr (fun k => k)
      | exact Or.inr (fun _ => rfl)
      | with_reducible refine only_ite (fun _ => ?_) (fun _ => ?_)
      | with_reducible refine only_iteFst (fun _ => ?_) (fun _ => ?_)
      | with_reducible apply State.endIo_only
      | refine only_pair (by with_reducible assumption) ?_
      | refine only_optPair (by with_reducible assumption) ?_
      | refine only_opt (by with_reducible assumption) ?_
      | refine only_outcome (by with_reducible assumption) ?_
      | dsimp only
      | with_reducible intro _
      | cases ‹_ :: _ = _ :: _›
      | split)

theorem State.abortRing_only {M : List Field} {s0 s : State} (hS : Only M s0 s)
    (hM : sub [.log, .rings, .ios, .dcmds, .scc, .hpus, .out] M = true) (n : BitVec 10) (stop : Nat) (keep : Io → Bool) : Only M s0 (State.abortRing s n stop keep).1 := by
  unfold State.abortRing
  repeat' (first
    | with_reducible exact hS
    | with_reducible assumption
    | exact sub_mono hM rfl
    | exact Or.inl (sub_mono hM rfl)
    | exact Or.inr rfl
    | exact Or.inr ⟨rfl, rfl, rfl, rfl, rfl⟩
    | exact Or.inr (fun k => k)
    | exact Or.inr (fun _ => rfl)
    | with_reducible refine only_ite (fun _ => ?_) (fun _ => ?_)
    | with_reducible refine only_iteFst (fun _ => ?_) (fun _ => ?_)
    | with_reducible apply State.abandonIo_only
    | with_reducible apply State.advanceHead_only
    | with_reducible apply State.discardReads_only
    | with_reducible apply State.modRing_only
    | with_reducible apply only_withIos
    | with_reducible refine only_foldl ?_ (fun _ _ _ => ?_)
    | with_reducible refine only_foldlFst ?_ (fun _ _ _ => ?_)
    | refine only_pair (by with_reducible assumption) ?_
    | refine only_optPair (by with_reducible assumption) ?_
    | refine only_opt (by with_reducible assumption) ?_
    | refine only_outcome (by with_reducible assumption) ?_
    | dsimp only
    | with_reducible intro _
    | split)

theorem State.setSet_only {M : List Field} {s0 s : State} (hS : Only M s0 s)
    (hM : sub [.sets] M = true) (id : Nat) (v : ArraySet) : Only M s0 (State.setSet s id v) := by
  unfold State.setSet
  repeat' (first
    | with_reducible exact hS
    | with_reducible assumption
    | exact sub_mono hM rfl
    | exact Or.inl (sub_mono hM rfl)
    | exact Or.inr rfl
    | exact Or.inr ⟨rfl, rfl, rfl, rfl, rfl⟩
    | exact Or.inr (fun k => k)
    | exact Or.inr (fun _ => rfl)
    | with_reducible refine only_ite (fun _ => ?_) (fun _ => ?_)
    | with_reducible apply only_withSets
    | refine only_pair (by with_reducible assumption) ?_
    | refine only_optPair (by with_reducible assumption) ?_
    | refine only_opt (by with_reducible assumption) ?_
    | refine only_outcome (by with_reducible assumption) ?_
    | dsimp only
    | with_reducible intro _
    | split)

theorem State.modSet_only {M : List Field} {s0 s : State} (hS : Only M s0 s)
    (hM : sub [.sets] M = true) (id : Nat) (f : ArraySet → ArraySet) : Only M s0 (State.modSet s id f) := by
  unfold State.modSet
  repeat' (first
    | with_reducible exact hS
    | with_reducible assumption
    | exact sub_mono hM rfl
    | exact Or.inl (sub_mono hM rfl)
    | exact Or.inr rfl
    | exact Or.inr ⟨rfl, rfl, rfl, rfl, rfl⟩
    | exact Or.inr (fun k => k)
    | exact Or.inr (fun _ => rfl)
    | with_reducible refine only_ite (fun _ => ?_) (fun _ => ?_)
    | with_reducible apply State.setSet_only
    | refine only_pair (by with_reducible assumption) ?_
    | refine only_optPair (by with_reducible assumption) ?_
    | refine only_opt (by with_reducible assumption) ?_
    | refine only_outcome (by with_reducible assumption) ?_
    | dsimp only
    | with_reducible intro _
    | split)

theorem State.endRangeCommands_only {M : List Field} {s0 s : State} (hS : Only M s0 s)
    (hM : sub [.regs, .rings, .interp, .hpus, .out] M = true) (id : Nat) : Only M s0 (State.endRangeCommands s id) := by
  unfold State.endRangeCommands
  repeat' (first
    | with_reducible exact hS
    | with_reducible assumption
    | exact sub_mono hM rfl
    | exact Or.inl (sub_mono hM rfl)
    | exact Or.inr rfl
    | exact Or.inr ⟨rfl, rfl, rfl, rfl, rfl⟩
    | exact Or.inr (fun k => k)
    | exact Or.inr (fun _ => rfl)
    | with_reducible refine only_ite (fun _ => ?_) (fun _ => ?_)
    | with_reducible apply State.endDeferred_only
    | with_reducible refine only_foldl ?_ (fun _ _ _ => ?_)
    | with_reducible refine only_foldlFst ?_ (fun _ _ _ => ?_)
    | refine only_pair (by with_reducible assumption) ?_
    | refine only_optPair (by with_reducible assumption) ?_
    | refine only_opt (by with_reducible assumption) ?_
    | refine only_outcome (by with_reducible assumption) ?_
    | dsimp only
    | with_reducible intro _
    | split)

theorem State.freeDetectors_only {M : List Field} {s0 s : State} (hS : Only M s0 s)
    (hM : sub [.scc] M = true) (id : Nat) : Only M s0 (State.freeDetectors s id) := by
  unfold State.freeDetectors
  repeat' (first
    | with_reducible exact hS
    | with_reducible assumption
    | exact sub_mono hM rfl
    | exact Or.inl (sub_mono hM rfl)
    | exact Or.inr rfl
    | exact Or.inr ⟨rfl, rfl, rfl, rfl, rfl⟩
    | exact Or.inr (fun k => k)
    | exact Or.inr (fun _ => rfl)
    | with_reducible refine only_ite (fun _ => ?_) (fun _ => ?_)
    | with_reducible apply only_withScc
    | refine only_pair (by with_reducible assumption) ?_
    | refine only_optPair (by with_reducible assumption) ?_
    | refine only_opt (by with_reducible assumption) ?_
    | refine only_outcome (by with_reducible assumption) ?_
    | dsimp only
    | with_reducible intro _
    | split)

theorem State.preservePairs_only {M : List Field} {s0 s : State} (hS : Only M s0 s)
    (hM : sub [.regs, .sets, .cht, .log, .rings, .ios, .dcmds, .rowOps, .commits, .scc, .interp, .pair, .hpus, .out] M = true) (id : Nat) : Only M s0 (State.preservePairs s id).1 := by
  unfold State.preservePairs
  repeat' (first
    | with_reducible exact hS
    | with_reducible assumption
    | exact sub_mono hM rfl
    | exact Or.inl (sub_mono hM rfl)
    | exact Or.inr rfl
    | exact Or.inr ⟨rfl, rfl, rfl, rfl, rfl⟩
    | exact Or.inr (fun k => k)
    | exact Or.inr (fun _ => rfl)
    | with_reducible refine only_ite (fun _ => ?_) (fun _ => ?_)
    | with_reducible refine only_iteFst (fun _ => ?_) (fun _ => ?_)
    | with_reducible apply State.endIos_only
    | with_reducible apply State.endRangeCommands_only
    | with_reducible apply State.freeDetectors_only
    | with_reducible apply State.postBoth_only
    | with_reducible apply State.setSet_only
    | with_reducible apply only_withCht
    | with_reducible apply only_withCommits
    | with_reducible apply only_withRowOps
    | with_reducible apply only_withScc
    | refine only_pair (by with_reducible assumption) ?_
    | refine only_optPair (by with_reducible assumption) ?_
    | refine only_opt (by with_reducible assumption) ?_
    | refine only_outcome (by with_reducible assumption) ?_
    | dsimp only
    | with_reducible intro _
    | split)

theorem State.preserveAll_only {M : List Field} {s0 s : State} (hS : Only M s0 s)
    (hM : sub [.regs, .sets, .cht, .log, .rings, .ios, .dcmds, .rowOps, .commits, .scc, .interp, .pair, .hpus, .out] M = true) (a0 : List Nat) : Only M s0 (State.preserveAll s a0).1 := by
  induction a0 generalizing s   with
  | nil =>
    unfold State.preserveAll
    repeat' (first
      | with_reducible exact hS
      | with_reducible assumption
      | exact sub_mono hM rfl
      | exact Or.inl (sub_mono hM rfl)
      | exact Or.inr rfl
      | exact Or.inr ⟨rfl, rfl, rfl, rfl, rfl⟩
      | exact Or.inr (fun k => k)
      | exact Or.inr (fun _ => rfl)
      | with_reducible refine only_ite (fun _ => ?_) (fun _ => ?_)
      | with_reducible refine only_iteFst (fun _ => ?_) (fun _ => ?_)
      | with_reducible apply State.preservePairs_only
      | refine only_pair (by with_reducible assumption) ?_
      | refine only_optPair (by with_reducible assumption) ?_
      | refine only_opt (by with_reducible assumption) ?_
      | refine only_outcome (by with_reducible assumption) ?_
      | dsimp only
      | with_reducible intro _
      | cases ‹_ :: _ = _ :: _›
      | split)
  | cons x l ih =>
    unfold State.preserveAll
    repeat' (first
      | with_reducible exact hS
      | with_reducible assumption
      | with_reducible apply ih
      | exact sub_mono hM rfl
      | exact Or.inl (sub_mono hM rfl)
      | exact Or.inr rfl
      | exact Or.inr ⟨rfl, rfl, rfl, rfl, rfl⟩
      | exact Or.inr (fun k => k)
      | exact Or.inr (fun _ => rfl)
      | with_reducible refine only_ite (fun _ => ?_) (fun _ => ?_)
      | with_reducible refine only_iteFst (fun _ => ?_) (fun _ => ?_)
      | with_reducible apply State.preservePairs_only
      | refine only_pair (by with_reducible assumption) ?_
      | refine only_optPair (by with_reducible assumption) ?_
      | refine only_opt (by with_reducible assumption) ?_
      | refine only_outcome (by with_reducible assumption) ?_
      | dsimp only
      | with_reducible intro _
      | cases ‹_ :: _ = _ :: _›
      | split)

theorem State.abortAllRings_only {M : List Field} {s0 s : State} (hS : Only M s0 s)
    (hM : sub [.log, .rings, .ios, .dcmds, .scc, .hpus, .out] M = true) (h : HaltInfo) (a0 : List (BitVec 10)) : Only M s0 (State.abortAllRings s h a0).1 := by
  induction a0 generalizing s   with
  | nil =>
    unfold State.abortAllRings
    repeat' (first
      | with_reducible exact hS
      | with_reducible assumption
      | exact sub_mono hM rfl
      | exact Or.inl (sub_mono hM rfl)
      | exact Or.inr rfl
      | exact Or.inr ⟨rfl, rfl, rfl, rfl, rfl⟩
      | exact Or.inr (fun k => k)
      | exact Or.inr (fun _ => rfl)
      | with_reducible refine only_ite (fun _ => ?_) (fun _ => ?_)
      | with_reducible refine only_iteFst (fun _ => ?_) (fun _ => ?_)
      | with_reducible apply State.abortRing_only
      | refine only_pair (by with_reducible assumption) ?_
      | refine only_optPair (by with_reducible assumption) ?_
      | refine only_opt (by with_reducible assumption) ?_
      | refine only_outcome (by with_reducible assumption) ?_
      | dsimp only
      | with_reducible intro _
      | cases ‹_ :: _ = _ :: _›
      | split)
  | cons x l ih =>
    unfold State.abortAllRings
    repeat' (first
      | with_reducible exact hS
      | with_reducible assumption
      | with_reducible apply ih
      | exact sub_mono hM rfl
      | exact Or.inl (sub_mono hM rfl)
      | exact Or.inr rfl
      | exact Or.inr ⟨rfl, rfl, rfl, rfl, rfl⟩
      | exact Or.inr (fun k => k)
      | exact Or.inr (fun _ => rfl)
      | with_reducible refine only_ite (fun _ => ?_) (fun _ => ?_)
      | with_reducible refine only_iteFst (fun _ => ?_) (fun _ => ?_)
      | with_reducible apply State.abortRing_only
      | refine only_pair (by with_reducible assumption) ?_
      | refine only_optPair (by with_reducible assumption) ?_
      | refine only_opt (by with_reducible assumption) ?_
      | refine only_outcome (by with_reducible assumption) ?_
      | dsimp only
      | with_reducible intro _
      | cases ‹_ :: _ = _ :: _›
      | split)

theorem State.haltPairs_only {M : List Field} {s0 s : State} (hS : Only M s0 s)
    (hM : sub [.gcs, .regs, .flt, .sets, .cht, .log, .wch, .rings, .ios, .dcmds, .ports, .portGroups, .rowOps, .commits, .scc, .interp, .mon, .pair, .chn, .hpus, .out] M = true) (h : HaltInfo) : Only M s0 (State.haltPairs s h).1 := by
  unfold State.haltPairs
  repeat' (first
    | with_reducible exact hS
    | with_reducible assumption
    | exact sub_mono hM rfl
    | exact Or.inl (sub_mono hM rfl)
    | exact Or.inr rfl
    | exact Or.inr ⟨rfl, rfl, rfl, rfl, rfl⟩
    | exact Or.inr (fun k => k)
    | exact Or.inr (fun _ => rfl)
    | with_reducible refine only_ite (fun _ => ?_) (fun _ => ?_)
    | with_reducible refine only_iteFst (fun _ => ?_) (fun _ => ?_)
    | with_reducible exact only_none
    | with_reducible refine only_iteOpt (fun _ => ?_) (fun _ => ?_)
    | with_reducible refine only_iteOptFst (fun _ => ?_) (fun _ => ?_)
    | with_reducible refine only_getD ?_ ?_
    | with_reducible refine only_mapOpt ?_ (fun _ _ => ?_)
    | with_reducible refine only_mapState ?_ (fun _ _ => ?_)
    | with_reducible refine only_mapFst ?_ (fun _ _ => ?_)
    | with_reducible refine only_bindFst ?_ (fun _ _ => ?_)
    | with_reducible refine only_foldlOpt ?_ (fun _ _ _ => ?_)
    | with_reducible refine only_someFst ?_
    | with_reducible refine only_some ?_
    | with_reducible apply State.abortAllRings_only
    | with_reducible apply State.forgetDeferred_only
    | with_reducible apply State.originate_only
    | with_reducible apply State.postBoth_only
    | with_reducible apply State.preserveAll_only
    | with_reducible apply State.sendFlit_only
    | with_reducible apply State.setAlert_only
    | with_reducible apply only_withFlt
    | with_reducible apply only_withGcs
    | with_reducible apply only_withInterp
    | with_reducible apply only_withRings
    | refine only_pair (by with_reducible assumption) ?_
    | refine only_optPair (by with_reducible assumption) ?_
    | refine only_opt (by with_reducible assumption) ?_
    | refine only_outcome (by with_reducible assumption) ?_
    | dsimp only
    | with_reducible intro _
    | split)

end Sys2Proof.Machine
end

