-- ==== Sys2Proof/Laws/OnlyFlags.lean ====
section
/-! SUPPORT. The frame of every operation of Sys2Proof/Machine/Flags.lean: which parts of the state it may change. -/

set_option linter.unusedTactic false
set_option linter.unreachableTactic false
set_option linter.unusedVariables false

namespace Sys2Proof.Machine

theorem State.freeByte_only {M : List Field} {s0 s : State} (hS : Only M s0 s)
    (hM : sub [.freeCount] M = true)  : Only M s0 (State.freeByte s).1 := by
  unfold State.freeByte
  repeat' (first
    | with_reducible exact hS
    | with_reducible assumption
    | exact sub_mono hM rfl
    | exact Or.inl (sub_mono hM rfl)
    | exact Or.inr rfl
    | exact Or.inr ⟨rfl, rfl, rfl, rfl, rfl⟩
    | exact Or.inr (fun k => k)
    | exact Or.inr (fun _ => rfl)
    | with_reducible refine only_ite (fun _ => ?_) (fun _ => ?_)
    | with_reducible refine only_iteFst (fun _ => ?_) (fun _ => ?_)
    | with_reducible apply only_withFreeCount
    | refine only_pair (by with_reducible assumption) ?_
    | refine only_optPair (by with_reducible assumption) ?_
    | refine only_opt (by with_reducible assumption) ?_
    | refine only_outcome (by with_reducible assumption) ?_
    | dsimp only
    | with_reducible intro _
    | split)

theorem State.setSrc_only {M : List Field} {s0 s : State} (hS : Only M s0 s)
    (hM : sub [.flt, .sources] M = true) (n : Byte) (v : SrcState) : Only M s0 (State.setSrc s n v) := by
  unfold State.setSrc
  repeat' (first
    | with_reducible exact hS
    | with_reducible assumption
    | exact sub_mono hM rfl
    | exact Or.inl (sub_mono hM rfl)
    | exact Or.inr rfl
    | exact Or.inr ⟨rfl, rfl, rfl, rfl, rfl⟩
    | exact Or.inr (fun k => k)
    | exact Or.inr (fun _ => rfl)
    | with_reducible refine only_ite (fun _ => ?_) (fun _ => ?_)
    | with_reducible apply only_withFlt
    | refine only_pair (by with_reducible assumption) ?_
    | refine only_optPair (by with_reducible assumption) ?_
    | refine only_opt (by with_reducible assumption) ?_
    | refine only_outcome (by with_reducible assumption) ?_
    | dsimp only
    | with_reducible intro _
    | split)

theorem State.evalPin_only {M : List Field} {s0 s : State} (hS : Only M s0 s)
    (hM : sub [.flt] M = true)  : Only M s0 (State.evalPin s) := by
  unfold State.evalPin
  repeat' (first
    | with_reducible exact hS
    | with_reducible assumption
    | exact sub_mono hM rfl
    | exact Or.inl (sub_mono hM rfl)
    | exact Or.inr rfl
    | exact Or.inr ⟨rfl, rfl, rfl, rfl, rfl⟩
    | exact Or.inr (fun k => k)
    | exact Or.inr (fun _ => rfl)
    | with_reducible refine only_ite (fun _ => ?_) (fun _ => ?_)
    | with_reducible apply only_withFlt
    | refine only_pair (by with_reducible assumption) ?_
    | refine only_optPair (by with_reducible assumption) ?_
    | refine only_opt (by with_reducible assumption) ?_
    | refine only_outcome (by with_reducible assumption) ?_
    | dsimp only
    | with_reducible intro _
    | split)

end Sys2Proof.Machine
end

