-- ==== Sys2Proof/Laws/OnlyFaults.lean ====
section
/-! SUPPORT. The frame of every operation of Sys2Proof/Machine/Faults.lean: which parts of the state it may change. -/

set_option linter.unusedTactic false
set_option linter.unreachableTactic false
set_option linter.unusedVariables false

namespace Sys2Proof.Machine

theorem State.latchFirst_only {M : List Field} {s0 s : State} (hS : Only M s0 s)
    (hM : sub [.flt, .first] M = true) (f : FaultReq) (lvl : Level) (esc : Bool) : Only M s0 (State.latchFirst s f lvl esc) := by
  unfold State.latchFirst
  repeat' (first
    | with_reducible exact hS
    | with_reducible assumption
    | exact sub_mono hM rfl
    | exact Or.inl (sub_mono hM rfl)
    | exact Or.inr rfl
    | exact Or.inr ⟨rfl, rfl, rfl, rfl, rfl⟩
    | exact Or.inr (fun k => k)
    | exact Or.inr (fun _ => rfl)
    | with_reducible refine only_ite (fun _ => ?_) (fun _ => ?_)
    | with_reducible apply only_withFlt
    | refine only_pair (by with_reducible assumption) ?_
    | refine only_optPair (by with_reducible assumption) ?_
    | refine only_opt (by with_reducible assumption) ?_
    | refine only_outcome (by with_reducible assumption) ?_
    | dsimp only
    | with_reducible intro _
    | split)

theorem State.capture_only {M : List Field} {s0 s : State} (hS : Only M s0 s)
    (hM : sub [.flt, .sources, .first] M = true) (f : FaultReq) : Only M s0 (State.capture s f) := by
  unfold State.capture
  repeat' (first
    | with_reducible exact hS
    | with_reducible assumption
    | exact sub_mono hM rfl
    | exact Or.inl (sub_mono hM rfl)
    | exact Or.inr rfl
    | exact Or.inr ⟨rfl, rfl, rfl, rfl, rfl⟩
    | exact Or.inr (fun k => k)
    | exact Or.inr (fun _ => rfl)
    | with_reducible refine only_ite (fun _ => ?_) (fun _ => ?_)
    | with_reducible apply State.evalPin_only
    | with_reducible apply State.latchFirst_only
    | with_reducible apply State.setSrc_only
    | refine only_pair (by with_reducible assumption) ?_
    | refine only_optPair (by with_reducible assumption) ?_
    | refine only_opt (by with_reducible assumption) ?_
    | refine only_outcome (by with_reducible assumption) ?_
    | dsimp only
    | with_reducible intro _
    | split)

theorem State.faultEvent_only {M : List Field} {s0 s : State} (hS : Only M s0 s)
    (hM : sub [.regs, .rings, .chn, .hpus, .out] M = true) (f : FaultReq) (lvl : Level) : Only M s0 (State.faultEvent s f lvl).1 := by
  unfold State.faultEvent
  repeat' (first
    | with_reducible exact hS
    | with_reducible assumption
    | exact sub_mono hM rfl
    | exact Or.inl (sub_mono hM rfl)
    | exact Or.inr rfl
    | exact Or.inr ⟨rfl, rfl, rfl, rfl, rfl⟩
    | exact Or.inr (fun k => k)
    | exact Or.inr (fun _ => rfl)
    | with_reducible refine only_ite (fun _ => ?_) (fun _ => ?_)
    | with_reducible refine only_iteFst (fun _ => ?_) (fun _ => ?_)
    | with_reducible apply State.originate_only
    | with_reducible apply State.postBoth_only
    | refine only_pair (by with_reducible assumption) ?_
    | refine only_optPair (by with_reducible assumption) ?_
    | refine only_opt (by with_reducible assumption) ?_
    | refine only_outcome (by with_reducible assumption) ?_
    | dsimp only
    | with_reducible intro _
    | split)

theorem State.queueReaction_only {M : List Field} {s0 s : State} (hS : Only M s0 s)
    (hM : sub [.gcs, .regs, .flt, .sets, .cht, .log, .wch, .rings, .ios, .dcmds, .ports, .portGroups, .rowOps, .commits, .scc, .interp, .mon, .pair, .chn, .hpus, .out] M = true) (f : FaultReq) (lvl : Level) (esc : Bool) (latched : Bool) : Only M s0 (State.queueReaction s f lvl esc latched).1 := by
  unfold State.queueReaction
  repeat' (first
    | with_reducible exact hS
    | with_reducible assumption
    | exact sub_mono hM rfl
    | exact Or.inl (sub_mono hM rfl)
    | exact Or.inr rfl
    | exact Or.inr ⟨rfl, rfl, rfl, rfl, rfl⟩
    | exact Or.inr (fun k => k)
    | exact Or.inr (fun _ => rfl)
    | with_reducible refine only_ite (fun _ => ?_) (fun _ => ?_)
    | with_reducible refine only_iteFst (fun _ => ?_) (fun _ => ?_)
    | with_reducible apply State.count32_only
    | with_reducible apply State.haltPairs_only
    | with_reducible apply only_withFlt
    | refine only_pair (by with_reducible assumption) ?_
    | refine only_optPair (by with_reducible assumption) ?_
    | refine only_opt (by with_reducible assumption) ?_
    | refine only_outcome (by with_reducible assumption) ?_
    | dsimp only
    | with_reducible intro _
    | split)

theorem State.testSpares_only {M : List Field} {s0 s : State} (hS : Only M s0 s)
    (hM : sub [.clusters] M = true)  : Only M s0 (State.testSpares s) := by
  unfold State.testSpares
  repeat' (first
    | with_reducible exact hS
    | with_reducible assumption
    | exact sub_mono hM rfl
    | exact Or.inl (sub_mono hM rfl)
    | exact Or.inr rfl
    | exact Or.inr ⟨rfl, rfl, rfl, rfl, rfl⟩
    | exact Or.inr (fun k => k)
    | exact Or.inr (fun _ => rfl)
    | with_reducible refine only_ite (fun _ => ?_) (fun _ => ?_)
    | with_reducible apply only_withClusters
    | with_reducible refine only_foldl ?_ (fun _ _ _ => ?_)
    | with_reducible refine only_foldlFst ?_ (fun _ _ _ => ?_)
    | refine only_pair (by with_reducible assumption) ?_
    | refine only_optPair (by with_reducible assumption) ?_
    | refine only_opt (by with_reducible assumption) ?_
    | refine only_outcome (by with_reducible assumption) ?_
    | dsimp only
    | with_reducible intro _
    | split)

theorem State.leaveDock_only {M : List Field} {s0 s : State} (hS : Only M s0 s)
    (hM : sub [.gcs, .regs, .log, .clusters, .pair, .out] M = true) : Only M s0 s.leaveDock := by
  unfold State.leaveDock
  split
  · have e : Only M s (s.withGcs { s.gcs with phase := .running, deferredCalendar := [] }) := by
      intro f hf
      cases f <;> first
        | rfl
        | exact ⟨rfl, rfl, rfl, rfl, rfl⟩
        | exact fun _ => rfl
        | exact fun k => k
        | exact fun k => absurd ‹_› k
        | exact absurd (sub_mem hM (by decide)) hf
    have hS := hS.trans e
    repeat' (first
      | with_reducible exact hS
      | exact sub_mono hM rfl
      | with_reducible refine only_ite (fun _ => ?_) (fun _ => ?_)
      | with_reducible apply State.appendLife_only
      | with_reducible apply State.testSpares_only)
  · exact hS

theorem State.raiseOne_only {M : List Field} {s0 s : State} (hS : Only M s0 s)
    (hM : sub [.gcs, .regs, .flt, .sources, .first, .sets, .cht, .log, .wch, .rings, .ios, .dcmds, .ports, .portGroups, .rowOps, .commits, .clusters, .scc, .interp, .mon, .pair, .chn, .hpus, .out] M = true) (f : FaultReq) : Only M s0 (State.raiseOne s f).1 := by
  unfold State.raiseOne
  repeat' (first
    | with_reducible exact hS
    | with_reducible assumption
    | exact sub_mono hM rfl
    | exact Or.inl (sub_mono hM rfl)
    | exact Or.inr rfl
    | exact Or.inr ⟨rfl, rfl, rfl, rfl, rfl⟩
    | exact Or.inr (fun k => k)
    | exact Or.inr (fun _ => rfl)
    | with_reducible refine only_ite (fun _ => ?_) (fun _ => ?_)
    | with_reducible refine only_iteFst (fun _ => ?_) (fun _ => ?_)
    | with_reducible apply State.capture_only
    | with_reducible apply State.faultEvent_only
    | with_reducible apply State.leaveDock_only
    | with_reducible apply State.queueReaction_only
    | refine only_pair (by with_reducible assumption) ?_
    | refine only_optPair (by with_reducible assumption) ?_
    | refine only_opt (by with_reducible assumption) ?_
    | refine only_outcome (by with_reducible assumption) ?_
    | dsimp only
    | with_reducible intro _
    | split)

theorem State.raiseFuel_only {M : List Field} {s0 s : State} (hS : Only M s0 s)
    (hM : sub [.gcs, .regs, .flt, .sources, .first, .sets, .cht, .log, .wch, .rings, .ios, .dcmds, .ports, .portGroups, .rowOps, .commits, .clusters, .scc, .interp, .mon, .pair, .chn, .hpus, .out] M = true) (a0 : Nat) (a1 : List FaultReq) : Only M s0 (State.raiseFuel s a0 a1) := by
  induction a0 generalizing s a1  with
  | zero =>
    unfold State.raiseFuel
    repeat' (first
      | with_reducible exact hS
      | with_reducible assumption
      | exact sub_mono hM rfl
      | exact Or.inl (sub_mono hM rfl)
      | exact Or.inr rfl
      | exact Or.inr ⟨rfl, rfl, rfl, rfl, rfl⟩
      | exact Or.inr (fun k => k)
      | exact Or.inr (fun _ => rfl)
      | with_reducible refine only_ite (fun _ => ?_) (fun _ => ?_)
      | with_reducible apply State.raiseOne_only
      | refine only_pair (by with_reducible assumption) ?_
      | refine only_optPair (by with_reducible assumption) ?_
      | refine only_opt (by with_reducible assumption) ?_
      | refine only_outcome (by with_reducible assumption) ?_
      | dsimp only
      | with_reducible intro _
      | cases ‹_ + 1 = Nat.succ _›
      | split)
  | succ n ih =>
    unfold State.raiseFuel
    repeat' (first
      | with_reducible exact hS
      | with_reducible assumption
      | with_reducible apply ih
      | exact sub_mono hM rfl
      | exact Or.inl (sub_mono hM rfl)
      | exact Or.inr rfl
      | exact Or.inr ⟨rfl, rfl, rfl, rfl, rfl⟩
      | exact Or.inr (fun k => k)
      | exact Or.inr (fun _ => rfl)
      | with_reducible refine only_ite (fun _ => ?_) (fun _ => ?_)
      | with_reducible apply State.raiseOne_only
      | refine only_pair (by with_reducible assumption) ?_
      | refine only_optPair (by with_reducible assumption) ?_
      | refine only_opt (by with_reducible assumption) ?_
      | refine only_outcome (by with_reducible assumption) ?_
      | dsimp only
      | with_reducible intro _
      | cases ‹_ + 1 = Nat.succ _›
      | split)

theorem State.raiseAll_only {M : List Field} {s0 s : State} (hS : Only M s0 s)
    (hM : sub [.gcs, .regs, .flt, .sources, .first, .sets, .cht, .log, .wch, .rings, .ios, .dcmds, .ports, .portGroups, .rowOps, .commits, .clusters, .scc, .interp, .mon, .pair, .chn, .hpus, .out] M = true) (fs : List FaultReq) : Only M s0 (State.raiseAll s fs) := by
  unfold State.raiseAll
  repeat' (first
    | with_reducible exact hS
    | with_reducible assumption
    | exact sub_mono hM rfl
    | exact Or.inl (sub_mono hM rfl)
    | exact Or.inr rfl
    | exact Or.inr ⟨rfl, rfl, rfl, rfl, rfl⟩
    | exact Or.inr (fun k => k)
    | exact Or.inr (fun _ => rfl)
    | with_reducible refine only_ite (fun _ => ?_) (fun _ => ?_)
    | with_reducible apply State.raiseFuel_only
    | refine only_pair (by with_reducible assumption) ?_
    | refine only_optPair (by with_reducible assumption) ?_
    | refine only_opt (by with_reducible assumption) ?_
    | refine only_outcome (by with_reducible assumption) ?_
    | dsimp only
    | with_reducible intro _
    | split)

theorem State.raise_only {M : List Field} {s0 s : State} (hS : Only M s0 s)
    (hM : sub [.gcs, .regs, .flt, .sources, .first, .sets, .cht, .log, .wch, .rings, .ios, .dcmds, .ports, .portGroups, .rowOps, .commits, .clusters, .scc, .interp, .mon, .pair, .chn, .hpus, .out] M = true) (source : Byte) (level : Level) (detail : Byte) : Only M s0 (State.raise s source level detail) := by
  unfold State.raise
  repeat' (first
    | with_reducible exact hS
    | with_reducible assumption
    | exact sub_mono hM rfl
    | exact Or.inl (sub_mono hM rfl)
    | exact Or.inr rfl
    | exact Or.inr ⟨rfl, rfl, rfl, rfl, rfl⟩
    | exact Or.inr (fun k => k)
    | exact Or.inr (fun _ => rfl)
    | with_reducible refine only_ite (fun _ => ?_) (fun _ => ?_)
    | with_reducible apply State.raiseAll_only
    | refine only_pair (by with_reducible assumption) ?_
    | refine only_optPair (by with_reducible assumption) ?_
    | refine only_opt (by with_reducible assumption) ?_
    | refine only_outcome (by with_reducible assumption) ?_
    | dsimp only
    | with_reducible intro _
    | split)

theorem State.raisePort_only {M : List Field} {s0 s : State} (hS : Only M s0 s)
    (hM : sub [.gcs, .regs, .flt, .sources, .first, .sets, .cht, .log, .wch, .rings, .ios, .dcmds, .ports, .portGroups, .rowOps, .commits, .clusters, .scc, .interp, .mon, .pair, .chn, .hpus, .out] M = true) (base : Nat) (port : Byte) (level : Level) (detail : Byte) (link : Bool) : Only M s0 (State.raisePort s base port level detail link) := by
  unfold State.raisePort
  repeat' (first
    | with_reducible exact hS
    | with_reducible assumption
    | exact sub_mono hM rfl
    | exact Or.inl (sub_mono hM rfl)
    | exact Or.inr rfl
    | exact Or.inr ⟨rfl, rfl, rfl, rfl, rfl⟩
    | exact Or.inr (fun k => k)
    | exact Or.inr (fun _ => rfl)
    | with_reducible refine only_ite (fun _ => ?_) (fun _ => ?_)
    | with_reducible apply State.raiseAll_only
    | with_reducible apply only_withPortGroups
    | refine only_pair (by with_reducible assumption) ?_
    | refine only_optPair (by with_reducible assumption) ?_
    | refine only_opt (by with_reducible assumption) ?_
    | refine only_outcome (by with_reducible assumption) ?_
    | dsimp only
    | with_reducible intro _
    | split)

theorem raised_only {M : List Field} {s0 : State} {x : State × List FaultReq} (hS : Only M s0 x.1)
    (hM : sub [.gcs, .regs, .flt, .sources, .first, .sets, .cht, .log, .wch, .rings, .ios, .dcmds, .ports, .portGroups, .rowOps, .commits, .clusters, .scc, .interp, .mon, .pair, .chn, .hpus, .out] M = true) : Only M s0 (raised x) := State.raiseAll_only hS hM x.2

theorem State.finishDesc_only {M : List Field} {s0 s : State} (hS : Only M s0 s)
    (hM : sub [.gcs, .regs, .flt, .sources, .first, .sets, .cht, .log, .wch, .rings, .ios, .dcmds, .ports, .portGroups, .rowOps, .commits, .clusters, .scc, .interp, .mon, .pair, .chn, .hpus, .out] M = true) (ring : BitVec 10) (d : Desc) (status : Byte) (detail : Byte) (lba : Nat) (count : Nat) : Only M s0 (State.finishDesc s ring d status detail lba count) := by
  unfold State.finishDesc
  repeat' (first
    | with_reducible exact hS
    | with_reducible assumption
    | exact sub_mono hM rfl
    | exact Or.inl (sub_mono hM rfl)
    | exact Or.inr rfl
    | exact Or.inr ⟨rfl, rfl, rfl, rfl, rfl⟩
    | exact Or.inr (fun k => k)
    | exact Or.inr (fun _ => rfl)
    | with_reducible refine only_ite (fun _ => ?_) (fun _ => ?_)
    | with_reducible apply State.endDesc_only
    | with_reducible apply raised_only
    | refine only_pair (by with_reducible assumption) ?_
    | refine only_optPair (by with_reducible assumption) ?_
    | refine only_opt (by with_reducible assumption) ?_
    | refine only_outcome (by with_reducible assumption) ?_
    | dsimp only
    | with_reducible intro _
    | split)

theorem State.finishIo_only {M : List Field} {s0 s : State} (hS : Only M s0 s)
    (hM : sub [.gcs, .regs, .flt, .sources, .first, .sets, .cht, .log, .wch, .rings, .ios, .dcmds, .ports, .portGroups, .rowOps, .commits, .clusters, .scc, .interp, .mon, .pair, .chn, .hpus, .out] M = true) (io : Io) (status : Byte) (detail : Byte) (lba : Nat) (count : Nat) : Only M s0 (State.finishIo s io status detail lba count) := by
  unfold State.finishIo
  repeat' (first
    | with_reducible exact hS
    | with_reducible assumption
    | exact sub_mono hM rfl
    | exact Or.inl (sub_mono hM rfl)
    | exact Or.inr rfl
    | exact Or.inr ⟨rfl, rfl, rfl, rfl, rfl⟩
    | exact Or.inr (fun k => k)
    | exact Or.inr (fun _ => rfl)
    | with_reducible refine only_ite (fun _ => ?_) (fun _ => ?_)
    | with_reducible apply State.endIo_only
    | with_reducible apply raised_only
    | refine only_pair (by with_reducible assumption) ?_
    | refine only_optPair (by with_reducible assumption) ?_
    | refine only_opt (by with_reducible assumption) ?_
    | refine only_outcome (by with_reducible assumption) ?_
    | dsimp only
    | with_reducible intro _
    | split)

theorem State.post_only {M : List Field} {s0 s : State} (hS : Only M s0 s)
    (hM : sub [.gcs, .regs, .flt, .sources, .first, .sets, .cht, .log, .wch, .rings, .ios, .dcmds, .ports, .portGroups, .rowOps, .commits, .clusters, .scc, .interp, .mon, .pair, .chn, .hpus, .out] M = true) (r : EventRecord) : Only M s0 (State.post s r) := by
  unfold State.post
  repeat' (first
    | with_reducible exact hS
    | with_reducible assumption
    | exact sub_mono hM rfl
    | exact Or.inl (sub_mono hM rfl)
    | exact Or.inr rfl
    | exact Or.inr ⟨rfl, rfl, rfl, rfl, rfl⟩
    | exact Or.inr (fun k => k)
    | exact Or.inr (fun _ => rfl)
    | with_reducible refine only_ite (fun _ => ?_) (fun _ => ?_)
    | with_reducible apply State.postBoth_only
    | with_reducible apply raised_only
    | refine only_pair (by with_reducible assumption) ?_
    | refine only_optPair (by with_reducible assumption) ?_
    | refine only_opt (by with_reducible assumption) ?_
    | refine only_outcome (by with_reducible assumption) ?_
    | dsimp only
    | with_reducible intro _
    | split)

theorem State.preserve_only {M : List Field} {s0 s : State} (hS : Only M s0 s)
    (hM : sub [.gcs, .regs, .flt, .sources, .first, .sets, .cht, .log, .wch, .rings, .ios, .dcmds, .ports, .portGroups, .rowOps, .commits, .clusters, .scc, .interp, .mon, .pair, .chn, .hpus, .out] M = true) (id : Nat) : Only M s0 (State.preserve s id) := by
  unfold State.preserve
  repeat' (first
    | with_reducible exact hS
    | with_reducible assumption
    | exact sub_mono hM rfl
    | exact Or.inl (sub_mono hM rfl)
    | exact Or.inr rfl
    | exact Or.inr ⟨rfl, rfl, rfl, rfl, rfl⟩
    | exact Or.inr (fun k => k)
    | exact Or.inr (fun _ => rfl)
    | with_reducible refine only_ite (fun _ => ?_) (fun _ => ?_)
    | with_reducible apply State.preservePairs_only
    | with_reducible apply raised_only
    | refine only_pair (by with_reducible assumption) ?_
    | refine only_optPair (by with_reducible assumption) ?_
    | refine only_opt (by with_reducible assumption) ?_
    | refine only_outcome (by with_reducible assumption) ?_
    | dsimp only
    | with_reducible intro _
    | split)

theorem State.halt_only {M : List Field} {s0 s : State} (hS : Only M s0 s)
    (hM : sub [.gcs, .regs, .flt, .sources, .first, .sets, .cht, .log, .wch, .rings, .ios, .dcmds, .ports, .portGroups, .rowOps, .commits, .clusters, .scc, .interp, .mon, .pair, .chn, .hpus, .out] M = true) (h : HaltInfo) : Only M s0 (State.halt s h) := by
  unfold State.halt
  repeat' (first
    | with_reducible exact hS
    | with_reducible assumption
    | exact sub_mono hM rfl
    | exact Or.inl (sub_mono hM rfl)
    | exact Or.inr rfl
    | exact Or.inr ⟨rfl, rfl, rfl, rfl, rfl⟩
    | exact Or.inr (fun k => k)
    | exact Or.inr (fun _ => rfl)
    | with_reducible refine only_ite (fun _ => ?_) (fun _ => ?_)
    | with_reducible apply State.haltPairs_only
    | with_reducible apply raised_only
    | refine only_pair (by with_reducible assumption) ?_
    | refine only_optPair (by with_reducible assumption) ?_
    | refine only_opt (by with_reducible assumption) ?_
    | refine only_outcome (by with_reducible assumption) ?_
    | dsimp only
    | with_reducible intro _
    | split)

theorem State.clearSource_only {M : List Field} {s0 s : State} (hS : Only M s0 s)
    (hM : sub [.flt, .sources] M = true) (n : Byte) : Only M s0 (State.clearSource s n) := by
  unfold State.clearSource
  repeat' (first
    | with_reducible exact hS
    | with_reducible assumption
    | exact sub_mono hM rfl
    | exact Or.inl (sub_mono hM rfl)
    | exact Or.inr rfl
    | exact Or.inr ⟨rfl, rfl, rfl, rfl, rfl⟩
    | exact Or.inr (fun k => k)
    | exact Or.inr (fun _ => rfl)
    | with_reducible refine only_ite (fun _ => ?_) (fun _ => ?_)
    | with_reducible apply State.evalPin_only
    | with_reducible apply State.setSrc_only
    | refine only_pair (by with_reducible assumption) ?_
    | refine only_optPair (by with_reducible assumption) ?_
    | refine only_opt (by with_reducible assumption) ?_
    | refine only_outcome (by with_reducible assumption) ?_
    | dsimp only
    | with_reducible intro _
    | split)

theorem State.clearAllSources_only {M : List Field} {s0 s : State} (hS : Only M s0 s)
    (hM : sub [.flt, .sources] M = true)  : Only M s0 (State.clearAllSources s) := by
  unfold State.clearAllSources
  repeat' (first
    | with_reducible exact hS
    | with_reducible assumption
    | exact sub_mono hM rfl
    | exact Or.inl (sub_mono hM rfl)
    | exact Or.inr rfl
    | exact Or.inr ⟨rfl, rfl, rfl, rfl, rfl⟩
    | exact Or.inr (fun k => k)
    | exact Or.inr (fun _ => rfl)
    | with_reducible refine only_ite (fun _ => ?_) (fun _ => ?_)
    | with_reducible apply State.evalPin_only
    | with_reducible apply only_withFlt
    | refine only_pair (by with_reducible assumption) ?_
    | refine only_optPair (by with_reducible assumption) ?_
    | refine only_opt (by with_reducible assumption) ?_
    | refine only_outcome (by with_reducible assumption) ?_
    | dsimp only
    | with_reducible intro _
    | split)

end Sys2Proof.Machine
end

