-- ==== Sys2Proof/Laws/OnlyWatch.lean ====
section
/-! SUPPORT. The frame of every operation of Sys2Proof/Machine/Watch.lean: which parts of the state it may change. -/

set_option linter.unusedTactic false
set_option linter.unreachableTactic false
set_option linter.unusedVariables false

namespace Sys2Proof.Machine

theorem State.enterTimer_only {M : List Field} {s0 s : State} (hS : Only M s0 s)
    (hM : sub [.wch, .timer] M = true) (t : TimerState) : Only M s0 (State.enterTimer s t) := by
  unfold State.enterTimer
  repeat' (first
    | with_reducible exact hS
    | with_reducible assumption
    | exact sub_mono hM rfl
    | exact Or.inl (sub_mono hM rfl)
    | exact Or.inr rfl
    | exact Or.inr ⟨rfl, rfl, rfl, rfl, rfl⟩
    | exact Or.inr (fun k => k)
    | exact Or.inr (fun _ => rfl)
    | with_reducible refine only_ite (fun _ => ?_) (fun _ => ?_)
    | with_reducible apply only_withWch
    | refine only_pair (by with_reducible assumption) ?_
    | refine only_optPair (by with_reducible assumption) ?_
    | refine only_opt (by with_reducible assumption) ?_
    | refine only_outcome (by with_reducible assumption) ?_
    | dsimp only
    | with_reducible intro _
    | split)

theorem State.enterHoldover_only {M : List Field} {s0 s : State} (hS : Only M s0 s)
    (hM : sub [.wch, .timer] M = true) (base : Nat) : Only M s0 (State.enterHoldover s base) := by
  unfold State.enterHoldover
  repeat' (first
    | with_reducible exact hS
    | with_reducible assumption
    | exact sub_mono hM rfl
    | exact Or.inl (sub_mono hM rfl)
    | exact Or.inr rfl
    | exact Or.inr ⟨rfl, rfl, rfl, rfl, rfl⟩
    | exact Or.inr (fun k => k)
    | exact Or.inr (fun _ => rfl)
    | with_reducible refine only_ite (fun _ => ?_) (fun _ => ?_)
    | with_reducible apply State.enterTimer_only
    | with_reducible apply only_withWch
    | refine only_pair (by with_reducible assumption) ?_
    | refine only_optPair (by with_reducible assumption) ?_
    | refine only_opt (by with_reducible assumption) ?_
    | refine only_outcome (by with_reducible assumption) ?_
    | dsimp only
    | with_reducible intro _
    | split)

theorem State.stepFix_only {M : List Field} {s0 s : State} (hS : Only M s0 s)
    (hM : sub [.wch, .timer] M = true) (ns : Nat) : Only M s0 (State.stepFix s ns) := by
  unfold State.stepFix
  repeat' (first
    | with_reducible exact hS
    | with_reducible assumption
    | exact sub_mono hM rfl
    | exact Or.inl (sub_mono hM rfl)
    | exact Or.inr rfl
    | exact Or.inr ⟨rfl, rfl, rfl, rfl, rfl⟩
    | exact Or.inr (fun k => k)
    | exact Or.inr (fun _ => rfl)
    | with_reducible refine only_ite (fun _ => ?_) (fun _ => ?_)
    | with_reducible apply only_withWch
    | refine only_pair (by with_reducible assumption) ?_
    | refine only_optPair (by with_reducible assumption) ?_
    | refine only_opt (by with_reducible assumption) ?_
    | refine only_outcome (by with_reducible assumption) ?_
    | dsimp only
    | with_reducible intro _
    | split)

theorem State.replyTod_only {M : List Field} {s0 s : State} (hS : Only M s0 s)
    (hM : sub [.regs, .rings, .interp, .hpus, .out] M = true) (src : Option CmdSrc) (status : Byte) (detail : Byte) (result : Bytes) : Only M s0 (State.replyTod s src status detail result) := by
  unfold State.replyTod
  repeat' (first
    | with_reducible exact hS
    | with_reducible assumption
    | exact sub_mono hM rfl
    | exact Or.inl (sub_mono hM rfl)
    | exact Or.inr rfl
    | exact Or.inr ⟨rfl, rfl, rfl, rfl, rfl⟩
    | exact Or.inr (fun k => k)
    | exact Or.inr (fun _ => rfl)
    | with_reducible refine only_ite (fun _ => ?_) (fun _ => ?_)
    | with_reducible apply State.endDeferred_only
    | refine only_pair (by with_reducible assumption) ?_
    | refine only_optPair (by with_reducible assumption) ?_
    | refine only_opt (by with_reducible assumption) ?_
    | refine only_outcome (by with_reducible assumption) ?_
    | dsimp only
    | with_reducible intro _
    | split)

theorem State.applyTod_only {M : List Field} {s0 s : State} (hS : Only M s0 s)
    (hM : sub [.gcs, .regs, .flt, .sources, .first, .sets, .cht, .log, .wch, .timer, .rings, .ios, .dcmds, .ports, .portGroups, .rowOps, .commits, .clusters, .scc, .interp, .mon, .pair, .chn, .hpus, .out] M = true) (value : Nat) (src : Option CmdSrc) (atEdge : Bool) : Only M s0 (State.applyTod s value src atEdge) := by
  unfold State.applyTod
  repeat' (first
    | with_reducible exact hS
    | with_reducible assumption
    | exact sub_mono hM rfl
    | exact Or.inl (sub_mono hM rfl)
    | exact Or.inr rfl
    | exact Or.inr ⟨rfl, rfl, rfl, rfl, rfl⟩
    | exact Or.inr (fun k => k)
    | exact Or.inr (fun _ => rfl)
    | with_reducible refine only_ite (fun _ => ?_) (fun _ => ?_)
    | with_reducible apply State.enterHoldover_only
    | with_reducible apply State.enterTimer_only
    | with_reducible apply State.raise_only
    | with_reducible apply State.replyTod_only
    | with_reducible apply State.stepFix_only
    | with_reducible apply only_withWch
    | refine only_pair (by with_reducible assumption) ?_
    | refine only_optPair (by with_reducible assumption) ?_
    | refine only_opt (by with_reducible assumption) ?_
    | refine only_outcome (by with_reducible assumption) ?_
    | dsimp only
    | with_reducible intro _
    | split)

theorem State.submitTod_only {M : List Field} {s0 s : State} (hS : Only M s0 s)
    (hM : sub [.gcs, .regs, .flt, .sources, .first, .sets, .cht, .log, .wch, .timer, .rings, .ios, .dcmds, .ports, .portGroups, .rowOps, .commits, .clusters, .scc, .interp, .mon, .pair, .chn, .hpus, .out] M = true) (value : Word64) (src : Option CmdSrc) : Only M s0 (State.submitTod s value src) := by
  unfold State.submitTod
  repeat' (first
    | with_reducible exact hS
    | with_reducible assumption
    | exact sub_mono hM rfl
    | exact Or.inl (sub_mono hM rfl)
    | exact Or.inr rfl
    | exact Or.inr ⟨rfl, rfl, rfl, rfl, rfl⟩
    | exact Or.inr (fun k => k)
    | exact Or.inr (fun _ => rfl)
    | with_reducible refine only_ite (fun _ => ?_) (fun _ => ?_)
    | with_reducible apply State.applyTod_only
    | with_reducible apply State.raise_only
    | with_reducible apply State.replyTod_only
    | with_reducible apply only_withWch
    | refine only_pair (by with_reducible assumption) ?_
    | refine only_optPair (by with_reducible assumption) ?_
    | refine only_opt (by with_reducible assumption) ?_
    | refine only_outcome (by with_reducible assumption) ?_
    | dsimp only
    | with_reducible intro _
    | split)

theorem State.edgeTransition_only {M : List Field} {s0 s : State} (hS : Only M s0 s)
    (hM : sub [.wch, .timer] M = true) (lead : Int) : Only M s0 (State.edgeTransition s lead) := by
  unfold State.edgeTransition
  repeat' (first
    | with_reducible exact hS
    | with_reducible assumption
    | exact sub_mono hM rfl
    | exact Or.inl (sub_mono hM rfl)
    | exact Or.inr rfl
    | exact Or.inr ⟨rfl, rfl, rfl, rfl, rfl⟩
    | exact Or.inr (fun k => k)
    | exact Or.inr (fun _ => rfl)
    | with_reducible refine only_ite (fun _ => ?_) (fun _ => ?_)
    | with_reducible apply State.enterTimer_only
    | with_reducible apply State.stepFix_only
    | refine only_pair (by with_reducible assumption) ?_
    | refine only_optPair (by with_reducible assumption) ?_
    | refine only_opt (by with_reducible assumption) ?_
    | refine only_outcome (by with_reducible assumption) ?_
    | dsimp only
    | with_reducible intro _
    | split)

theorem State.fixLost_only {M : List Field} {s0 s : State} (hS : Only M s0 s)
    (hM : sub [.gcs, .regs, .flt, .sources, .first, .sets, .cht, .log, .wch, .timer, .rings, .ios, .dcmds, .ports, .portGroups, .rowOps, .commits, .clusters, .scc, .interp, .mon, .pair, .chn, .hpus, .out] M = true)  : Only M s0 (State.fixLost s) := by
  unfold State.fixLost
  repeat' (first
    | with_reducible exact hS
    | with_reducible assumption
    | exact sub_mono hM rfl
    | exact Or.inl (sub_mono hM rfl)
    | exact Or.inr rfl
    | exact Or.inr ⟨rfl, rfl, rfl, rfl, rfl⟩
    | exact Or.inr (fun k => k)
    | exact Or.inr (fun _ => rfl)
    | with_reducible refine only_ite (fun _ => ?_) (fun _ => ?_)
    | with_reducible apply State.enterHoldover_only
    | with_reducible apply State.raise_only
    | refine only_pair (by with_reducible assumption) ?_
    | refine only_optPair (by with_reducible assumption) ?_
    | refine only_opt (by with_reducible assumption) ?_
    | refine only_outcome (by with_reducible assumption) ?_
    | dsimp only
    | with_reducible intro _
    | split)

theorem execFixPpsEdge_only {M : List Field} {s0 s : State} (hS : Only M s0 s)
    (hM : sub [.gcs, .regs, .flt, .sources, .first, .sets, .cht, .log, .wch, .timer, .rings, .ios, .dcmds, .ports, .portGroups, .rowOps, .commits, .clusters, .scc, .interp, .mon, .pair, .chn, .hpus, .out] M = true) (rising : Bool) (intervalNs : Nat) (leadNs : Int) (jitterPpb : Nat) : OnlyNext M s0 (execFixPpsEdge rising intervalNs leadNs jitterPpb s) := by
  unfold execFixPpsEdge
  repeat' (first
    | with_reducible exact hS
    | with_reducible assumption
    | exact sub_mono hM rfl
    | exact Or.inl (sub_mono hM rfl)
    | exact Or.inr rfl
    | exact Or.inr ⟨rfl, rfl, rfl, rfl, rfl⟩
    | exact Or.inr (fun k => k)
    | exact Or.inr (fun _ => rfl)
    | with_reducible refine only_ite (fun _ => ?_) (fun _ => ?_)
    | with_reducible refine only_iteNext (fun _ => ?_) (fun _ => ?_)
    | with_reducible refine Only.next ?_
    | with_reducible apply State.applyTod_only
    | with_reducible apply State.edgeTransition_only
    | with_reducible apply State.fixLost_only
    | with_reducible apply State.raise_only
    | with_reducible apply only_withWch
    | refine only_pair (by with_reducible assumption) ?_
    | refine only_optPair (by with_reducible assumption) ?_
    | refine only_opt (by with_reducible assumption) ?_
    | refine only_outcome (by with_reducible assumption) ?_
    | dsimp only
    | with_reducible intro _
    | split)

theorem execFixPpsLost_only {M : List Field} {s0 s : State} (hS : Only M s0 s)
    (hM : sub [.gcs, .regs, .flt, .sources, .first, .sets, .cht, .log, .wch, .timer, .rings, .ios, .dcmds, .ports, .portGroups, .rowOps, .commits, .clusters, .scc, .interp, .mon, .pair, .chn, .hpus, .out] M = true)  : OnlyNext M s0 (execFixPpsLost s) := by
  unfold execFixPpsLost
  repeat' (first
    | with_reducible exact hS
    | with_reducible assumption
    | exact sub_mono hM rfl
    | exact Or.inl (sub_mono hM rfl)
    | exact Or.inr rfl
    | exact Or.inr ⟨rfl, rfl, rfl, rfl, rfl⟩
    | exact Or.inr (fun k => k)
    | exact Or.inr (fun _ => rfl)
    | with_reducible refine only_ite (fun _ => ?_) (fun _ => ?_)
    | with_reducible refine only_iteNext (fun _ => ?_) (fun _ => ?_)
    | with_reducible refine Only.next ?_
    | with_reducible apply State.fixLost_only
    | refine only_pair (by with_reducible assumption) ?_
    | refine only_optPair (by with_reducible assumption) ?_
    | refine only_opt (by with_reducible assumption) ?_
    | refine only_outcome (by with_reducible assumption) ?_
    | dsimp only
    | with_reducible intro _
    | split)

theorem execTodLapse_only {M : List Field} {s0 s : State} (hS : Only M s0 s)
    (hM : sub [.gcs, .regs, .flt, .sources, .first, .sets, .cht, .log, .wch, .timer, .rings, .ios, .dcmds, .ports, .portGroups, .rowOps, .commits, .clusters, .scc, .interp, .mon, .pair, .chn, .hpus, .out] M = true)  : OnlyNext M s0 (execTodLapse s) := by
  unfold execTodLapse
  repeat' (first
    | with_reducible exact hS
    | with_reducible assumption
    | exact sub_mono hM rfl
    | exact Or.inl (sub_mono hM rfl)
    | exact Or.inr rfl
    | exact Or.inr ⟨rfl, rfl, rfl, rfl, rfl⟩
    | exact Or.inr (fun k => k)
    | exact Or.inr (fun _ => rfl)
    | with_reducible refine only_ite (fun _ => ?_) (fun _ => ?_)
    | with_reducible refine only_iteNext (fun _ => ?_) (fun _ => ?_)
    | with_reducible refine Only.next ?_
    | with_reducible apply State.raise_only
    | with_reducible apply State.replyTod_only
    | with_reducible apply only_withWch
    | refine only_pair (by with_reducible assumption) ?_
    | refine only_optPair (by with_reducible assumption) ?_
    | refine only_opt (by with_reducible assumption) ?_
    | refine only_outcome (by with_reducible assumption) ?_
    | dsimp only
    | with_reducible intro _
    | split)

theorem execGapClosed_only {M : List Field} {s0 s : State} (hS : Only M s0 s)
    (hM : sub [.wch, .timer] M = true)  : OnlyNext M s0 (execGapClosed s) := by
  unfold execGapClosed
  repeat' (first
    | with_reducible exact hS
    | with_reducible assumption
    | exact sub_mono hM rfl
    | exact Or.inl (sub_mono hM rfl)
    | exact Or.inr rfl
    | exact Or.inr ⟨rfl, rfl, rfl, rfl, rfl⟩
    | exact Or.inr (fun k => k)
    | exact Or.inr (fun _ => rfl)
    | with_reducible refine only_ite (fun _ => ?_) (fun _ => ?_)
    | with_reducible refine only_iteNext (fun _ => ?_) (fun _ => ?_)
    | with_reducible refine Only.next ?_
    | with_reducible apply only_withWch
    | refine only_pair (by with_reducible assumption) ?_
    | refine only_optPair (by with_reducible assumption) ?_
    | refine only_opt (by with_reducible assumption) ?_
    | refine only_outcome (by with_reducible assumption) ?_
    | dsimp only
    | with_reducible intro _
    | split)

theorem execWatchBoundary_only {M : List Field} {s0 s : State} (hS : Only M s0 s)
    (hM : sub [.wch, .timer] M = true)  : OnlyNext M s0 (execWatchBoundary s) := by
  unfold execWatchBoundary
  repeat' (first
    | with_reducible exact hS
    | with_reducible assumption
    | exact sub_mono hM rfl
    | exact Or.inl (sub_mono hM rfl)
    | exact Or.inr rfl
    | exact Or.inr ⟨rfl, rfl, rfl, rfl, rfl⟩
    | exact Or.inr (fun k => k)
    | exact Or.inr (fun _ => rfl)
    | with_reducible refine only_ite (fun _ => ?_) (fun _ => ?_)
    | with_reducible refine only_iteNext (fun _ => ?_) (fun _ => ?_)
    | with_reducible refine Only.next ?_
    | with_reducible apply only_withWch
    | refine only_pair (by with_reducible assumption) ?_
    | refine only_optPair (by with_reducible assumption) ?_
    | refine only_opt (by with_reducible assumption) ?_
    | refine only_outcome (by with_reducible assumption) ?_
    | dsimp only
    | with_reducible intro _
    | split)

theorem State.sealTo_only {M : List Field} {s0 s : State} (hS : Only M s0 s)
    (hM : sub [.regs, .log, .wch, .timer, .pair, .out] M = true) (n : Nat) (flag : Bool) : Only M s0 (State.sealTo s n flag) := by
  unfold State.sealTo
  repeat' (first
    | with_reducible exact hS
    | with_reducible assumption
    | exact sub_mono hM rfl
    | exact Or.inl (sub_mono hM rfl)
    | exact Or.inr rfl
    | exact Or.inr ⟨rfl, rfl, rfl, rfl, rfl⟩
    | exact Or.inr (fun k => k)
    | exact Or.inr (fun _ => rfl)
    | with_reducible refine only_ite (fun _ => ?_) (fun _ => ?_)
    | with_reducible apply State.appendRec_only
    | with_reducible apply only_withWch
    | refine only_pair (by with_reducible assumption) ?_
    | refine only_optPair (by with_reducible assumption) ?_
    | refine only_opt (by with_reducible assumption) ?_
    | refine only_outcome (by with_reducible assumption) ?_
    | dsimp only
    | with_reducible intro _
    | split)

theorem State.trySeal_only {M : List Field} {s0 s : State} (hS : Only M s0 s)
    (hM : sub [.regs, .log, .wch, .timer, .pair, .out] M = true)  : Only M s0 (State.trySeal s) := by
  unfold State.trySeal
  repeat' (first
    | with_reducible exact hS
    | with_reducible assumption
    | exact sub_mono hM rfl
    | exact Or.inl (sub_mono hM rfl)
    | exact Or.inr rfl
    | exact Or.inr ⟨rfl, rfl, rfl, rfl, rfl⟩
    | exact Or.inr (fun k => k)
    | exact Or.inr (fun _ => rfl)
    | with_reducible refine only_ite (fun _ => ?_) (fun _ => ?_)
    | with_reducible apply State.sealTo_only
    | with_reducible apply State.sendFlit_only
    | with_reducible apply only_withWch
    | refine only_pair (by with_reducible assumption) ?_
    | refine only_optPair (by with_reducible assumption) ?_
    | refine only_opt (by with_reducible assumption) ?_
    | refine only_outcome (by with_reducible assumption) ?_
    | dsimp only
    | with_reducible intro _
    | split)

theorem execWatchSeal_only {M : List Field} {s0 s : State} (hS : Only M s0 s)
    (hM : sub [.regs, .log, .wch, .timer, .pair, .out] M = true)  : OnlyNext M s0 (execWatchSeal s) := by
  unfold execWatchSeal
  repeat' (first
    | with_reducible exact hS
    | with_reducible assumption
    | exact sub_mono hM rfl
    | exact Or.inl (sub_mono hM rfl)
    | exact Or.inr rfl
    | exact Or.inr ⟨rfl, rfl, rfl, rfl, rfl⟩
    | exact Or.inr (fun k => k)
    | exact Or.inr (fun _ => rfl)
    | with_reducible refine only_ite (fun _ => ?_) (fun _ => ?_)
    | with_reducible refine only_iteNext (fun _ => ?_) (fun _ => ?_)
    | with_reducible refine Only.next ?_
    | with_reducible apply State.trySeal_only
    | refine only_pair (by with_reducible assumption) ?_
    | refine only_optPair (by with_reducible assumption) ?_
    | refine only_opt (by with_reducible assumption) ?_
    | refine only_outcome (by with_reducible assumption) ?_
    | dsimp only
    | with_reducible intro _
    | split)

theorem execSealGraceExpiry_only {M : List Field} {s0 s : State} (hS : Only M s0 s)
    (hM : sub [.gcs, .regs, .flt, .sources, .first, .sets, .cht, .log, .wch, .rings, .ios, .dcmds, .ports, .portGroups, .rowOps, .commits, .clusters, .scc, .interp, .mon, .pair, .chn, .hpus, .out] M = true) (seq : Word64) : OnlyNext M s0 (execSealGraceExpiry seq s) := by
  unfold execSealGraceExpiry
  repeat' (first
    | with_reducible exact hS
    | with_reducible assumption
    | exact sub_mono hM rfl
    | exact Or.inl (sub_mono hM rfl)
    | exact Or.inr rfl
    | exact Or.inr ⟨rfl, rfl, rfl, rfl, rfl⟩
    | exact Or.inr (fun k => k)
    | exact Or.inr (fun _ => rfl)
    | with_reducible refine only_ite (fun _ => ?_) (fun _ => ?_)
    | with_reducible refine only_iteNext (fun _ => ?_) (fun _ => ?_)
    | with_reducible refine Only.next ?_
    | with_reducible apply State.finishIo_only
    | with_reducible apply State.modRec_only
    | with_reducible apply State.raise_only
    | with_reducible apply State.trimLog_only
    | refine only_pair (by with_reducible assumption) ?_
    | refine only_optPair (by with_reducible assumption) ?_
    | refine only_opt (by with_reducible assumption) ?_
    | refine only_outcome (by with_reducible assumption) ?_
    | dsimp only
    | with_reducible intro _
    | split)

theorem execHoldoverTick_only {M : List Field} {s0 s : State} (hS : Only M s0 s)
    (hM : sub [.gcs, .regs, .flt, .sources, .first, .sets, .cht, .log, .wch, .timer, .rings, .ios, .dcmds, .ports, .portGroups, .rowOps, .commits, .clusters, .scc, .interp, .mon, .pair, .chn, .hpus, .out] M = true)  : OnlyNext M s0 (execHoldoverTick s) := by
  unfold execHoldoverTick
  repeat' (first
    | with_reducible exact hS
    | with_reducible assumption
    | exact sub_mono hM rfl
    | exact Or.inl (sub_mono hM rfl)
    | exact Or.inr rfl
    | exact Or.inr ⟨rfl, rfl, rfl, rfl, rfl⟩
    | exact Or.inr (fun k => k)
    | exact Or.inr (fun _ => rfl)
    | with_reducible refine only_ite (fun _ => ?_) (fun _ => ?_)
    | with_reducible refine only_iteNext (fun _ => ?_) (fun _ => ?_)
    | with_reducible refine Only.next ?_
    | with_reducible apply State.raise_only
    | with_reducible apply only_withWch
    | refine only_pair (by with_reducible assumption) ?_
    | refine only_optPair (by with_reducible assumption) ?_
    | refine only_opt (by with_reducible assumption) ?_
    | refine only_outcome (by with_reducible assumption) ?_
    | dsimp only
    | with_reducible intro _
    | split)

theorem execWatchLengthChange_only {M : List Field} {s0 s : State} (hS : Only M s0 s)
    (hM : sub [.wch, .timer] M = true)  : OnlyNext M s0 (execWatchLengthChange s) := by
  unfold execWatchLengthChange
  repeat' (first
    | with_reducible exact hS
    | with_reducible assumption
    | exact sub_mono hM rfl
    | exact Or.inl (sub_mono hM rfl)
    | exact Or.inr rfl
    | exact Or.inr ⟨rfl, rfl, rfl, rfl, rfl⟩
    | exact Or.inr (fun k => k)
    | exact Or.inr (fun _ => rfl)
    | with_reducible refine only_ite (fun _ => ?_) (fun _ => ?_)
    | with_reducible refine only_iteNext (fun _ => ?_) (fun _ => ?_)
    | with_reducible refine Only.next ?_
    | with_reducible apply only_withWch
    | refine only_pair (by with_reducible assumption) ?_
    | refine only_optPair (by with_reducible assumption) ?_
    | refine only_opt (by with_reducible assumption) ?_
    | refine only_outcome (by with_reducible assumption) ?_
    | dsimp only
    | with_reducible intro _
    | split)

theorem execGenerationLimit_only {M : List Field} {s0 s : State} (hS : Only M s0 s)
    (hM : sub [.rings] M = true) (set : BitVec 6) : OnlyNext M s0 (execGenerationLimit set s) := by
  unfold execGenerationLimit
  repeat' (first
    | with_reducible exact hS
    | with_reducible assumption
    | exact sub_mono hM rfl
    | exact Or.inl (sub_mono hM rfl)
    | exact Or.inr rfl
    | exact Or.inr ⟨rfl, rfl, rfl, rfl, rfl⟩
    | exact Or.inr (fun k => k)
    | exact Or.inr (fun _ => rfl)
    | with_reducible refine only_ite (fun _ => ?_) (fun _ => ?_)
    | with_reducible refine only_iteNext (fun _ => ?_) (fun _ => ?_)
    | with_reducible refine Only.next ?_
    | with_reducible apply only_withRings
    | refine only_pair (by with_reducible assumption) ?_
    | refine only_optPair (by with_reducible assumption) ?_
    | refine only_opt (by with_reducible assumption) ?_
    | refine only_outcome (by with_reducible assumption) ?_
    | dsimp only
    | with_reducible intro _
    | split)

end Sys2Proof.Machine
end

