-- ==== Sys2Proof/Laws/OnlyCalOps.lean ====
section
/-! SUPPORT. The frame of every operation of Sys2Proof/Machine/CalOps.lean: which parts of the state it may change. -/

set_option linter.unusedTactic false
set_option linter.unreachableTactic false
set_option linter.unusedVariables false

namespace Sys2Proof.Machine

theorem State.modBank_only {M : List Field} {s0 s : State} (hS : Only M s0 s)
    (hM : sub [.mon, .monitor] M = true) (n : BitVec 5) (f : BankCal → BankCal) : Only M s0 (State.modBank s n f) := by
  unfold State.modBank
  repeat' (first
    | with_reducible exact hS
    | with_reducible assumption
    | exact sub_mono hM rfl
    | exact Or.inl (sub_mono hM rfl)
    | exact Or.inr rfl
    | exact Or.inr ⟨rfl, rfl, rfl, rfl, rfl⟩
    | exact Or.inr (fun k => k)
    | exact Or.inr (fun _ => rfl)
    | with_reducible refine only_ite (fun _ => ?_) (fun _ => ?_)
    | with_reducible apply only_withMon
    | refine only_pair (by with_reducible assumption) ?_
    | refine only_optPair (by with_reducible assumption) ?_
    | refine only_opt (by with_reducible assumption) ?_
    | refine only_outcome (by with_reducible assumption) ?_
    | dsimp only
    | with_reducible intro _
    | split)

theorem State.setRole_only {M : List Field} {s0 s : State} (hS : Only M s0 s)
    (hM : sub [.log, .banks] M = true) (p : Nat) (r : PairRole) : Only M s0 (State.setRole s p r) := by
  unfold State.setRole
  repeat' (first
    | with_reducible exact hS
    | with_reducible assumption
    | exact sub_mono hM rfl
    | exact Or.inl (sub_mono hM rfl)
    | exact Or.inr rfl
    | exact Or.inr ⟨rfl, rfl, rfl, rfl, rfl⟩
    | exact Or.inr (fun k => k)
    | exact Or.inr (fun _ => rfl)
    | with_reducible refine only_ite (fun _ => ?_) (fun _ => ?_)
    | with_reducible apply only_withLog
    | refine only_pair (by with_reducible assumption) ?_
    | refine only_optPair (by with_reducible assumption) ?_
    | refine only_opt (by with_reducible assumption) ?_
    | refine only_outcome (by with_reducible assumption) ?_
    | dsimp only
    | with_reducible intro _
    | split)

theorem State.replaceCopy_only {M : List Field} {s0 s : State} (hS : Only M s0 s)
    (hM : sub [.log, .banks] M = true) (p : Nat) (old : BitVec 5) (new : BitVec 5) : Only M s0 (State.replaceCopy s p old new) := by
  unfold State.replaceCopy
  repeat' (first
    | with_reducible exact hS
    | with_reducible assumption
    | exact sub_mono hM rfl
    | exact Or.inl (sub_mono hM rfl)
    | exact Or.inr rfl
    | exact Or.inr ⟨rfl, rfl, rfl, rfl, rfl⟩
    | exact Or.inr (fun k => k)
    | exact Or.inr (fun _ => rfl)
    | with_reducible refine only_ite (fun _ => ?_) (fun _ => ?_)
    | with_reducible apply State.setRole_only
    | refine only_pair (by with_reducible assumption) ?_
    | refine only_optPair (by with_reducible assumption) ?_
    | refine only_opt (by with_reducible assumption) ?_
    | refine only_outcome (by with_reducible assumption) ?_
    | dsimp only
    | with_reducible intro _
    | split)

theorem State.useFreeSpare_only {M : List Field} {s0 s : State} (hS : Only M s0 s)
    (hM : sub [.log, .banks] M = true)  : Only M s0 (State.useFreeSpare s) := by
  unfold State.useFreeSpare
  repeat' (first
    | with_reducible exact hS
    | with_reducible assumption
    | exact sub_mono hM rfl
    | exact Or.inl (sub_mono hM rfl)
    | exact Or.inr rfl
    | exact Or.inr ⟨rfl, rfl, rfl, rfl, rfl⟩
    | exact Or.inr (fun k => k)
    | exact Or.inr (fun _ => rfl)
    | with_reducible refine only_ite (fun _ => ?_) (fun _ => ?_)
    | with_reducible apply State.replaceCopy_only
    | with_reducible apply only_withLog
    | refine only_pair (by with_reducible assumption) ?_
    | refine only_optPair (by with_reducible assumption) ?_
    | refine only_opt (by with_reducible assumption) ?_
    | refine only_outcome (by with_reducible assumption) ?_
    | dsimp only
    | with_reducible intro _
    | split)

theorem State.failRun_only {M : List Field} {s0 s : State} (hS : Only M s0 s)
    (hM : sub [.gcs, .regs, .flt, .sources, .first, .sets, .cht, .log, .wch, .rings, .ios, .dcmds, .ports, .portGroups, .rowOps, .commits, .clusters, .scc, .interp, .mon, .monitor, .pair, .chn, .hpus, .out] M = true) (reason : Byte) : Only M s0 (State.failRun s reason) := by
  unfold State.failRun
  repeat' (first
    | with_reducible exact hS
    | with_reducible assumption
    | exact sub_mono hM rfl
    | exact Or.inl (sub_mono hM rfl)
    | exact Or.inr rfl
    | exact Or.inr ⟨rfl, rfl, rfl, rfl, rfl⟩
    | exact Or.inr (fun k => k)
    | exact Or.inr (fun _ => rfl)
    | with_reducible refine only_ite (fun _ => ?_) (fun _ => ?_)
    | with_reducible apply State.count32_only
    | with_reducible apply State.raise_only
    | with_reducible apply only_withMon
    | refine only_pair (by with_reducible assumption) ?_
    | refine only_optPair (by with_reducible assumption) ?_
    | refine only_opt (by with_reducible assumption) ?_
    | refine only_outcome (by with_reducible assumption) ?_
    | dsimp only
    | with_reducible intro _
    | split)

theorem State.endCalRun_only {M : List Field} {s0 s : State} (hS : Only M s0 s)
    (hM : sub [.gcs, .regs, .flt, .sources, .first, .sets, .cht, .log, .banks, .wch, .rings, .ios, .dcmds, .ports, .portGroups, .rowOps, .commits, .clusters, .scc, .interp, .mon, .monitor, .pair, .chn, .hpus, .out] M = true) (reason : Byte) : Only M s0 (State.endCalRun s reason) := by
  unfold State.endCalRun
  repeat' (first
    | with_reducible exact hS
    | with_reducible assumption
    | exact sub_mono hM rfl
    | exact Or.inl (sub_mono hM rfl)
    | exact Or.inr rfl
    | exact Or.inr ⟨rfl, rfl, rfl, rfl, rfl⟩
    | exact Or.inr (fun k => k)
    | exact Or.inr (fun _ => rfl)
    | with_reducible refine only_ite (fun _ => ?_) (fun _ => ?_)
    | with_reducible apply State.failRun_only
    | with_reducible apply State.modBank_only
    | with_reducible apply State.useFreeSpare_only
    | with_reducible apply only_withLog
    | with_reducible apply only_withMon
    | refine only_pair (by with_reducible assumption) ?_
    | refine only_optPair (by with_reducible assumption) ?_
    | refine only_opt (by with_reducible assumption) ?_
    | refine only_outcome (by with_reducible assumption) ?_
    | dsimp only
    | with_reducible intro _
    | split)

theorem State.bankTemp_only {M : List Field} {s0 s : State} (hS : Only M s0 s)
    (hM : sub [.freeCount] M = true) (n : BitVec 5) : Only M s0 (State.bankTemp s n).1 := by
  unfold State.bankTemp
  repeat' (first
    | with_reducible exact hS
    | with_reducible assumption
    | exact sub_mono hM rfl
    | exact Or.inl (sub_mono hM rfl)
    | exact Or.inr rfl
    | exact Or.inr ⟨rfl, rfl, rfl, rfl, rfl⟩
    | exact Or.inr (fun k => k)
    | exact Or.inr (fun _ => rfl)
    | with_reducible refine only_ite (fun _ => ?_) (fun _ => ?_)
    | with_reducible refine only_iteFst (fun _ => ?_) (fun _ => ?_)
    | with_reducible apply State.freeByte_only
    | refine only_pair (by with_reducible assumption) ?_
    | refine only_optPair (by with_reducible assumption) ?_
    | refine only_opt (by with_reducible assumption) ?_
    | refine only_outcome (by with_reducible assumption) ?_
    | dsimp only
    | with_reducible intro _
    | split)

theorem State.calResult_only {M : List Field} {s0 s : State} (hS : Only M s0 s)
    (hM : sub [.freeCount] M = true) (n : BitVec 5) (done : Nat) : Only M s0 (State.calResult s n done).1 := by
  unfold State.calResult
  repeat' (first
    | with_reducible exact hS
    | with_reducible assumption
    | exact sub_mono hM rfl
    | exact Or.inl (sub_mono hM rfl)
    | exact Or.inr rfl
    | exact Or.inr ⟨rfl, rfl, rfl, rfl, rfl⟩
    | exact Or.inr (fun k => k)
    | exact Or.inr (fun _ => rfl)
    | with_reducible refine only_ite (fun _ => ?_) (fun _ => ?_)
    | with_reducible refine only_iteFst (fun _ => ?_) (fun _ => ?_)
    | with_reducible apply State.bankTemp_only
    | refine only_pair (by with_reducible assumption) ?_
    | refine only_optPair (by with_reducible assumption) ?_
    | refine only_opt (by with_reducible assumption) ?_
    | refine only_outcome (by with_reducible assumption) ?_
    | dsimp only
    | with_reducible intro _
    | split)

theorem State.endCalCommand_only {M : List Field} {s0 s : State} (hS : Only M s0 s)
    (hM : sub [.regs, .rings, .interp, .mon, .hpus, .freeCount, .out] M = true) (src : CmdSrc) (n : BitVec 5) (status : Byte) : Only M s0 (State.endCalCommand s src n status) := by
  unfold State.endCalCommand
  repeat' (first
    | with_reducible exact hS
    | with_reducible assumption
    | exact sub_mono hM rfl
    | exact Or.inl (sub_mono hM rfl)
    | exact Or.inr rfl
    | exact Or.inr ⟨rfl, rfl, rfl, rfl, rfl⟩
    | exact Or.inr (fun k => k)
    | exact Or.inr (fun _ => rfl)
    | with_reducible refine only_ite (fun _ => ?_) (fun _ => ?_)
    | with_reducible apply State.calResult_only
    | with_reducible apply State.endDeferred_only
    | with_reducible apply only_withMon
    | refine only_pair (by with_reducible assumption) ?_
    | refine only_optPair (by with_reducible assumption) ?_
    | refine only_opt (by with_reducible assumption) ?_
    | refine only_outcome (by with_reducible assumption) ?_
    | dsimp only
    | with_reducible intro _
    | split)

theorem State.sampleCalref_only {M : List Field} {s0 s : State} (hS : Only M s0 s)
    (hM : sub [.gcs, .regs, .flt, .sources, .first, .sets, .cht, .log, .wch, .rings, .ios, .dcmds, .ports, .portGroups, .rowOps, .commits, .clusters, .scc, .interp, .mon, .monitor, .pair, .chn, .hpus, .out] M = true) (v : Nat) : Only M s0 (State.sampleCalref s v) := by
  unfold State.sampleCalref
  repeat' (first
    | with_reducible exact hS
    | with_reducible assumption
    | exact sub_mono hM rfl
    | exact Or.inl (sub_mono hM rfl)
    | exact Or.inr rfl
    | exact Or.inr ⟨rfl, rfl, rfl, rfl, rfl⟩
    | exact Or.inr (fun k => k)
    | exact Or.inr (fun _ => rfl)
    | with_reducible refine only_ite (fun _ => ?_) (fun _ => ?_)
    | with_reducible apply State.raise_only
    | with_reducible apply only_withMon
    | refine only_pair (by with_reducible assumption) ?_
    | refine only_optPair (by with_reducible assumption) ?_
    | refine only_opt (by with_reducible assumption) ?_
    | refine only_outcome (by with_reducible assumption) ?_
    | dsimp only
    | with_reducible intro _
    | split)

theorem State.refuseWaiting_only {M : List Field} {s0 s : State} (hS : Only M s0 s)
    (hM : sub [.gcs, .regs, .flt, .sources, .first, .sets, .cht, .log, .wch, .rings, .ios, .dcmds, .ports, .portGroups, .rowOps, .commits, .clusters, .scc, .interp, .mon, .pair, .chn, .hpus, .out] M = true) (a0 : List (BitVec 10)) : Only M s0 (State.refuseWaiting s a0) := by
  induction a0 generalizing s   with
  | nil =>
    unfold State.refuseWaiting
    repeat' (first
      | with_reducible exact hS
      | with_reducible assumption
      | exact sub_mono hM rfl
      | exact Or.inl (sub_mono hM rfl)
      | exact Or.inr rfl
      | exact Or.inr ⟨rfl, rfl, rfl, rfl, rfl⟩
      | exact Or.inr (fun k => k)
      | exact Or.inr (fun _ => rfl)
      | with_reducible refine only_ite (fun _ => ?_) (fun _ => ?_)
      | with_reducible apply State.finishDesc_only
      | with_reducible apply State.setRing_only
      | refine only_pair (by with_reducible assumption) ?_
      | refine only_optPair (by with_reducible assumption) ?_
      | refine only_opt (by with_reducible assumption) ?_
      | refine only_outcome (by with_reducible assumption) ?_
      | dsimp only
      | with_reducible intro _
      | cases ‹_ :: _ = _ :: _›
      | split)
  | cons x l ih =>
    unfold State.refuseWaiting
    repeat' (first
      | with_reducible exact hS
      | with_reducible assumption
      | with_reducible apply ih
      | exact sub_mono hM rfl
      | exact Or.inl (sub_mono hM rfl)
      | exact Or.inr rfl
      | exact Or.inr ⟨rfl, rfl, rfl, rfl, rfl⟩
      | exact Or.inr (fun k => k)
      | exact Or.inr (fun _ => rfl)
      | with_reducible refine only_ite (fun _ => ?_) (fun _ => ?_)
      | with_reducible apply State.finishDesc_only
      | with_reducible apply State.setRing_only
      | refine only_pair (by with_reducible assumption) ?_
      | refine only_optPair (by with_reducible assumption) ?_
      | refine only_opt (by with_reducible assumption) ?_
      | refine only_outcome (by with_reducible assumption) ?_
      | dsimp only
      | with_reducible intro _
      | cases ‹_ :: _ = _ :: _›
      | split)

theorem State.enterHold_only {M : List Field} {s0 s : State} (hS : Only M s0 s)
    (hM : sub [.gcs, .regs, .flt, .sources, .first, .sets, .cht, .log, .banks, .wch, .rings, .ios, .dcmds, .ports, .portGroups, .rowOps, .commits, .clusters, .scc, .interp, .mon, .monitor, .pair, .chn, .hpus, .out] M = true) (c : HoldCause) : Only M s0 (State.enterHold s c) := by
  unfold State.enterHold
  repeat' (first
    | with_reducible exact hS
    | with_reducible assumption
    | exact sub_mono hM rfl
    | exact Or.inl (sub_mono hM rfl)
    | exact Or.inr rfl
    | exact Or.inr ⟨rfl, rfl, rfl, rfl, rfl⟩
    | exact Or.inr (fun k => k)
    | exact Or.inr (fun _ => rfl)
    | with_reducible refine only_ite (fun _ => ?_) (fun _ => ?_)
    | with_reducible apply State.count32_only
    | with_reducible apply State.endCalRun_only
    | with_reducible apply State.leaveDock_only
    | with_reducible apply State.raise_only
    | with_reducible apply State.refuseWaiting_only
    | with_reducible apply only_withMon
    | refine only_pair (by with_reducible assumption) ?_
    | refine only_optPair (by with_reducible assumption) ?_
    | refine only_opt (by with_reducible assumption) ?_
    | refine only_outcome (by with_reducible assumption) ?_
    | dsimp only
    | with_reducible intro _
    | split)

theorem State.beginRecovery_only {M : List Field} {s0 s : State} (hS : Only M s0 s)
    (hM : sub [.gcs, .phase, .log] M = true)  : Only M s0 (State.beginRecovery s) := by
  unfold State.beginRecovery
  repeat' (first
    | with_reducible exact hS
    | with_reducible assumption
    | exact sub_mono hM rfl
    | exact Or.inl (sub_mono hM rfl)
    | exact Or.inr rfl
    | exact Or.inr ⟨rfl, rfl, rfl, rfl, rfl⟩
    | exact Or.inr (fun k => k)
    | exact Or.inr (fun _ => rfl)
    | with_reducible refine only_ite (fun _ => ?_) (fun _ => ?_)
    | with_reducible apply only_withGcs
    | with_reducible apply only_withLog
    | refine only_pair (by with_reducible assumption) ?_
    | refine only_optPair (by with_reducible assumption) ?_
    | refine only_opt (by with_reducible assumption) ?_
    | refine only_outcome (by with_reducible assumption) ?_
    | dsimp only
    | with_reducible intro _
    | split)

theorem State.returnSets_only {M : List Field} {s0 s : State} (hS : Only M s0 s)
    (hM : sub [.gcs, .startup, .phase, .sets, .log] M = true)  : Only M s0 (State.returnSets s) := by
  unfold State.returnSets
  repeat' (first
    | with_reducible exact hS
    | with_reducible assumption
    | exact sub_mono hM rfl
    | exact Or.inl (sub_mono hM rfl)
    | exact Or.inr rfl
    | exact Or.inr ⟨rfl, rfl, rfl, rfl, rfl⟩
    | exact Or.inr (fun k => k)
    | exact Or.inr (fun _ => rfl)
    | with_reducible refine only_ite (fun _ => ?_) (fun _ => ?_)
    | with_reducible exact only_none
    | with_reducible refine only_iteOpt (fun _ => ?_) (fun _ => ?_)
    | with_reducible refine only_iteOptFst (fun _ => ?_) (fun _ => ?_)
    | with_reducible refine only_getD ?_ ?_
    | with_reducible refine only_mapOpt ?_ (fun _ _ => ?_)
    | with_reducible refine only_mapState ?_ (fun _ _ => ?_)
    | with_reducible refine only_mapFst ?_ (fun _ _ => ?_)
    | with_reducible refine only_bindFst ?_ (fun _ _ => ?_)
    | with_reducible refine only_foldlOpt ?_ (fun _ _ _ => ?_)
    | with_reducible refine only_someFst ?_
    | with_reducible refine only_some ?_
    | with_reducible apply only_withGcs
    | with_reducible apply only_withLog
    | with_reducible apply only_withSets
    | refine only_pair (by with_reducible assumption) ?_
    | refine only_optPair (by with_reducible assumption) ?_
    | refine only_opt (by with_reducible assumption) ?_
    | refine only_outcome (by with_reducible assumption) ?_
    | dsimp only
    | with_reducible intro _
    | split)

theorem State.endHold_only {M : List Field} {s0 s : State} (hS : Only M s0 s)
    (hM : sub [.gcs, .startup, .phase, .regs, .flt, .sources, .first, .sets, .cht, .log, .wch, .rings, .ios, .dcmds, .ports, .portGroups, .rowOps, .commits, .clusters, .scc, .interp, .mon, .monitor, .pair, .chn, .hpus, .out] M = true) (detail : Byte) : Only M s0 (State.endHold s detail) := by
  unfold State.endHold
  repeat' (first
    | with_reducible exact hS
    | with_reducible assumption
    | exact sub_mono hM rfl
    | exact Or.inl (sub_mono hM rfl)
    | exact Or.inr rfl
    | exact Or.inr ⟨rfl, rfl, rfl, rfl, rfl⟩
    | exact Or.inr (fun k => k)
    | exact Or.inr (fun _ => rfl)
    | with_reducible refine only_ite (fun _ => ?_) (fun _ => ?_)
    | with_reducible apply State.raise_only
    | with_reducible apply State.returnSets_only
    | with_reducible apply only_withMon
    | refine only_pair (by with_reducible assumption) ?_
    | refine only_optPair (by with_reducible assumption) ?_
    | refine only_opt (by with_reducible assumption) ?_
    | refine only_outcome (by with_reducible assumption) ?_
    | dsimp only
    | with_reducible intro _
    | split)

theorem State.stepHold_only {M : List Field} {s0 s : State} (hS : Only M s0 s)
    (hM : sub [.mon, .monitor] M = true)  : Only M s0 (State.stepHold s) := by
  unfold State.stepHold
  repeat' (first
    | with_reducible exact hS
    | with_reducible assumption
    | exact sub_mono hM rfl
    | exact Or.inl (sub_mono hM rfl)
    | exact Or.inr rfl
    | exact Or.inr ⟨rfl, rfl, rfl, rfl, rfl⟩
    | exact Or.inr (fun k => k)
    | exact Or.inr (fun _ => rfl)
    | with_reducible refine only_ite (fun _ => ?_) (fun _ => ?_)
    | with_reducible apply only_withMon
    | refine only_pair (by with_reducible assumption) ?_
    | refine only_optPair (by with_reducible assumption) ?_
    | refine only_opt (by with_reducible assumption) ?_
    | refine only_outcome (by with_reducible assumption) ?_
    | dsimp only
    | with_reducible intro _
    | split)

end Sys2Proof.Machine
end

