-- ==== Sys2Proof/Laws/OnlyOps.lean ====
section
/-! SUPPORT. The frame of every operation of Sys2Proof/Machine/Ops.lean: which parts of the state it may change. -/

set_option linter.unusedTactic false
set_option linter.unreachableTactic false
set_option linter.unusedVariables false

namespace Sys2Proof.Machine

theorem State.chartFault_only {M : List Field} {s0 s : State} (hS : Only M s0 s)
    (hM : sub [.gcs, .regs, .flt, .sources, .first, .sets, .cht, .log, .wch, .rings, .ios, .dcmds, .ports, .portGroups, .rowOps, .commits, .clusters, .scc, .interp, .mon, .pair, .chn, .hpus, .out] M = true) (req : LookupReq) (detail : Byte) (code : Byte) (pc : Nat) (diag : Bool) : Only M s0 (State.chartFault s req detail code pc diag) := by
  unfold State.chartFault
  repeat' (first
    | with_reducible exact hS
    | with_reducible assumption
    | exact sub_mono hM rfl
    | exact Or.inl (sub_mono hM rfl)
    | exact Or.inr rfl
    | exact Or.inr ⟨rfl, rfl, rfl, rfl, rfl⟩
    | exact Or.inr (fun k => k)
    | exact Or.inr (fun _ => rfl)
    | with_reducible refine only_ite (fun _ => ?_) (fun _ => ?_)
    | with_reducible apply State.count32_only
    | with_reducible apply State.preserve_only
    | with_reducible apply State.raise_only
    | with_reducible apply only_withCht
    | refine only_pair (by with_reducible assumption) ?_
    | refine only_optPair (by with_reducible assumption) ?_
    | refine only_opt (by with_reducible assumption) ?_
    | refine only_outcome (by with_reducible assumption) ?_
    | dsimp only
    | with_reducible intro _
    | split)

theorem State.stripeBearings_only {M : List Field} {s0 s : State} (hS : Only M s0 s)
    (hM : sub [.gcs, .regs, .flt, .sources, .first, .sets, .cht, .log, .wch, .rings, .ios, .dcmds, .ports, .portGroups, .rowOps, .commits, .clusters, .scc, .interp, .mon, .pair, .chn, .hpus, .out] M = true) (set : BitVec 6) (rev : Revision) (stripe : Nat) (cls : LookupClass) : Only M s0 (State.stripeBearings s set rev stripe cls).1 := by
  unfold State.stripeBearings
  repeat' (first
    | with_reducible exact hS
    | with_reducible assumption
    | exact sub_mono hM rfl
    | exact Or.inl (sub_mono hM rfl)
    | exact Or.inr rfl
    | exact Or.inr ⟨rfl, rfl, rfl, rfl, rfl⟩
    | exact Or.inr (fun k => k)
    | exact Or.inr (fun _ => rfl)
    | with_reducible refine only_ite (fun _ => ?_) (fun _ => ?_)
    | with_reducible refine only_iteFst (fun _ => ?_) (fun _ => ?_)
    | with_reducible exact only_none
    | with_reducible refine only_iteOpt (fun _ => ?_) (fun _ => ?_)
    | with_reducible refine only_iteOptFst (fun _ => ?_) (fun _ => ?_)
    | with_reducible refine only_getD ?_ ?_
    | with_reducible refine only_mapOpt ?_ (fun _ _ => ?_)
    | with_reducible refine only_mapState ?_ (fun _ _ => ?_)
    | with_reducible refine only_mapFst ?_ (fun _ _ => ?_)
    | with_reducible refine only_bindFst ?_ (fun _ _ => ?_)
    | with_reducible refine only_foldlOpt ?_ (fun _ _ _ => ?_)
    | with_reducible refine only_someFst ?_
    | with_reducible refine only_some ?_
    | with_reducible apply State.chartFault_only
    | with_reducible apply State.count64_only
    | refine only_pair (by with_reducible assumption) ?_
    | refine only_optPair (by with_reducible assumption) ?_
    | refine only_opt (by with_reducible assumption) ?_
    | refine only_outcome (by with_reducible assumption) ?_
    | dsimp only
    | with_reducible intro _
    | split)

theorem State.submit_only {M : List Field} {s0 s : State} (hS : Only M s0 s)
    (hM : sub [.dcmds, .ports, .out] M = true) (c : DriveCmd) : Only M s0 (State.submit s c) := by
  unfold State.submit
  repeat' (first
    | with_reducible exact hS
    | with_reducible assumption
    | exact sub_mono hM rfl
    | exact Or.inl (sub_mono hM rfl)
    | exact Or.inr rfl
    | exact Or.inr ⟨rfl, rfl, rfl, rfl, rfl⟩
    | exact Or.inr (fun k => k)
    | exact Or.inr (fun _ => rfl)
    | with_reducible refine only_ite (fun _ => ?_) (fun _ => ?_)
    | with_reducible apply State.emit_only
    | with_reducible apply State.modPort_only
    | with_reducible apply only_withDcmds
    | refine only_pair (by with_reducible assumption) ?_
    | refine only_optPair (by with_reducible assumption) ?_
    | refine only_opt (by with_reducible assumption) ?_
    | refine only_outcome (by with_reducible assumption) ?_
    | dsimp only
    | with_reducible intro _
    | split)

theorem State.issueWaiting_only {M : List Field} {s0 s : State} (hS : Only M s0 s)
    (hM : sub [.dcmds, .out] M = true) (p : Byte) : Only M s0 (State.issueWaiting s p) := by
  unfold State.issueWaiting
  repeat' (first
    | with_reducible exact hS
    | with_reducible assumption
    | exact sub_mono hM rfl
    | exact Or.inl (sub_mono hM rfl)
    | exact Or.inr rfl
    | exact Or.inr ⟨rfl, rfl, rfl, rfl, rfl⟩
    | exact Or.inr (fun k => k)
    | exact Or.inr (fun _ => rfl)
    | with_reducible refine only_ite (fun _ => ?_) (fun _ => ?_)
    | with_reducible apply State.emit_only
    | with_reducible apply only_withDcmds
    | with_reducible refine only_foldl ?_ (fun _ _ _ => ?_)
    | with_reducible refine only_foldlFst ?_ (fun _ _ _ => ?_)
    | refine only_pair (by with_reducible assumption) ?_
    | refine only_optPair (by with_reducible assumption) ?_
    | refine only_opt (by with_reducible assumption) ?_
    | refine only_outcome (by with_reducible assumption) ?_
    | dsimp only
    | with_reducible intro _
    | split)

theorem State.touchRow_only {M : List Field} {s0 s : State} (hS : Only M s0 s)
    (hM : sub [.sets, .dcmds, .rowOps] M = true) (set : BitVec 6) (stripe : Nat) (row : Nat) (byRebuild : Bool) : Only M s0 (State.touchRow s set stripe row byRebuild) := by
  unfold State.touchRow
  repeat' (first
    | with_reducible exact hS
    | with_reducible assumption
    | exact sub_mono hM rfl
    | exact Or.inl (sub_mono hM rfl)
    | exact Or.inr rfl
    | exact Or.inr ⟨rfl, rfl, rfl, rfl, rfl⟩
    | exact Or.inr (fun k => k)
    | exact Or.inr (fun _ => rfl)
    | with_reducible refine only_ite (fun _ => ?_) (fun _ => ?_)
    | with_reducible apply State.modSet_only
    | with_reducible apply only_withDcmds
    | with_reducible apply only_withRowOps
    | refine only_pair (by with_reducible assumption) ?_
    | refine only_optPair (by with_reducible assumption) ?_
    | refine only_opt (by with_reducible assumption) ?_
    | refine only_outcome (by with_reducible assumption) ?_
    | dsimp only
    | with_reducible intro _
    | split)

theorem State.driveWrite_only {M : List Field} {s0 s : State} (hS : Only M s0 s)
    (hM : sub [.sets, .nextId, .dcmds, .ports, .rowOps, .out] M = true) (port : Byte) (dba : Nat) (set : BitVec 6) (stripe : Nat) (frag : Nat) (row : Nat) (x : Sector) (purpose : Purpose) : Only M s0 (State.driveWrite s port dba set stripe frag row x purpose).1 := by
  unfold State.driveWrite
  repeat' (first
    | with_reducible exact hS
    | with_reducible assumption
    | exact sub_mono hM rfl
    | exact Or.inl (sub_mono hM rfl)
    | exact Or.inr rfl
    | exact Or.inr ⟨rfl, rfl, rfl, rfl, rfl⟩
    | exact Or.inr (fun k => k)
    | exact Or.inr (fun _ => rfl)
    | with_reducible refine only_ite (fun _ => ?_) (fun _ => ?_)
    | with_reducible refine only_iteFst (fun _ => ?_) (fun _ => ?_)
    | with_reducible exact only_none
    | with_reducible refine only_iteOpt (fun _ => ?_) (fun _ => ?_)
    | with_reducible refine only_iteOptFst (fun _ => ?_) (fun _ => ?_)
    | with_reducible refine only_getD ?_ ?_
    | with_reducible refine only_mapOpt ?_ (fun _ _ => ?_)
    | with_reducible refine only_mapState ?_ (fun _ _ => ?_)
    | with_reducible refine only_mapFst ?_ (fun _ _ => ?_)
    | with_reducible refine only_bindFst ?_ (fun _ _ => ?_)
    | with_reducible refine only_foldlOpt ?_ (fun _ _ _ => ?_)
    | with_reducible refine only_someFst ?_
    | with_reducible refine only_some ?_
    | with_reducible apply State.modPort_only
    | with_reducible apply State.submit_only
    | with_reducible apply State.touchRow_only
    | with_reducible apply only_withNextId
    | refine only_pair (by with_reducible assumption) ?_
    | refine only_optPair (by with_reducible assumption) ?_
    | refine only_opt (by with_reducible assumption) ?_
    | refine only_outcome (by with_reducible assumption) ?_
    | dsimp only
    | with_reducible intro _
    | split)

theorem State.requestRead_only {M : List Field} {s0 s : State} (hS : Only M s0 s)
    (hM : sub [.cht, .nextId] M = true) (cls : LookupClass) (set : BitVec 6) (rev : Revision) (stripe : Nat) (frag : Nat) (row : Nat) (purpose : Purpose) : Only M s0 (State.requestRead s cls set rev stripe frag row purpose).1 := by
  unfold State.requestRead
  repeat' (first
    | with_reducible exact hS
    | with_reducible assumption
    | exact sub_mono hM rfl
    | exact Or.inl (sub_mono hM rfl)
    | exact Or.inr rfl
    | exact Or.inr ⟨rfl, rfl, rfl, rfl, rfl⟩
    | exact Or.inr (fun k => k)
    | exact Or.inr (fun _ => rfl)
    | with_reducible refine only_ite (fun _ => ?_) (fun _ => ?_)
    | with_reducible refine only_iteFst (fun _ => ?_) (fun _ => ?_)
    | with_reducible apply only_withCht
    | with_reducible apply only_withNextId
    | refine only_pair (by with_reducible assumption) ?_
    | refine only_optPair (by with_reducible assumption) ?_
    | refine only_opt (by with_reducible assumption) ?_
    | refine only_outcome (by with_reducible assumption) ?_
    | dsimp only
    | with_reducible intro _
    | split)

theorem State.setLine_only {M : List Field} {s0 s : State} (hS : Only M s0 s)
    (hM : sub [.scc] M = true) (k : Nat) (l : Line) : Only M s0 (State.setLine s k l) := by
  unfold State.setLine
  repeat' (first
    | with_reducible exact hS
    | with_reducible assumption
    | exact sub_mono hM rfl
    | exact Or.inl (sub_mono hM rfl)
    | exact Or.inr rfl
    | exact Or.inr ⟨rfl, rfl, rfl, rfl, rfl⟩
    | exact Or.inr (fun k => k)
    | exact Or.inr (fun _ => rfl)
    | with_reducible refine only_ite (fun _ => ?_) (fun _ => ?_)
    | with_reducible apply only_withScc
    | refine only_pair (by with_reducible assumption) ?_
    | refine only_optPair (by with_reducible assumption) ?_
    | refine only_opt (by with_reducible assumption) ?_
    | refine only_outcome (by with_reducible assumption) ?_
    | dsimp only
    | with_reducible intro _
    | split)

theorem State.setSlot_only {M : List Field} {s0 s : State} (hS : Only M s0 s)
    (hM : sub [.scc] M = true) (t : Nat) (l : Line) : Only M s0 (State.setSlot s t l) := by
  unfold State.setSlot
  repeat' (first
    | with_reducible exact hS
    | with_reducible assumption
    | exact sub_mono hM rfl
    | exact Or.inl (sub_mono hM rfl)
    | exact Or.inr rfl
    | exact Or.inr ⟨rfl, rfl, rfl, rfl, rfl⟩
    | exact Or.inr (fun k => k)
    | exact Or.inr (fun _ => rfl)
    | with_reducible refine only_ite (fun _ => ?_) (fun _ => ?_)
    | with_reducible apply only_withScc
    | refine only_pair (by with_reducible assumption) ?_
    | refine only_optPair (by with_reducible assumption) ?_
    | refine only_opt (by with_reducible assumption) ?_
    | refine only_outcome (by with_reducible assumption) ?_
    | dsimp only
    | with_reducible intro _
    | split)

theorem State.offerTier_only {M : List Field} {s0 s : State} (hS : Only M s0 s)
    (hM : sub [.regs, .scc] M = true) (l : Line) : Only M s0 (State.offerTier s l).1 := by
  unfold State.offerTier
  repeat' (first
    | with_reducible exact hS
    | with_reducible assumption
    | exact sub_mono hM rfl
    | exact Or.inl (sub_mono hM rfl)
    | exact Or.inr rfl
    | exact Or.inr ⟨rfl, rfl, rfl, rfl, rfl⟩
    | exact Or.inr (fun k => k)
    | exact Or.inr (fun _ => rfl)
    | with_reducible refine only_ite (fun _ => ?_) (fun _ => ?_)
    | with_reducible refine only_iteFst (fun _ => ?_) (fun _ => ?_)
    | with_reducible apply State.count32_only
    | with_reducible apply State.setSlot_only
    | with_reducible apply only_withScc
    | with_reducible refine only_foldl ?_ (fun _ _ _ => ?_)
    | with_reducible refine only_foldlFst ?_ (fun _ _ _ => ?_)
    | refine only_pair (by with_reducible assumption) ?_
    | refine only_optPair (by with_reducible assumption) ?_
    | refine only_opt (by with_reducible assumption) ?_
    | refine only_outcome (by with_reducible assumption) ?_
    | dsimp only
    | with_reducible intro _
    | split)

theorem State.offerDirty_only {M : List Field} {s0 s : State} (hS : Only M s0 s)
    (hM : sub [.regs, .scc] M = true) (a0 : List Nat) : Only M s0 (State.offerDirty s a0).1 := by
  induction a0 generalizing s   with
  | nil =>
    unfold State.offerDirty
    repeat' (first
      | with_reducible exact hS
      | with_reducible assumption
      | exact sub_mono hM rfl
      | exact Or.inl (sub_mono hM rfl)
      | exact Or.inr rfl
      | exact Or.inr ⟨rfl, rfl, rfl, rfl, rfl⟩
      | exact Or.inr (fun k => k)
      | exact Or.inr (fun _ => rfl)
      | with_reducible refine only_ite (fun _ => ?_) (fun _ => ?_)
      | with_reducible refine only_iteFst (fun _ => ?_) (fun _ => ?_)
      | with_reducible exact only_none
      | with_reducible refine only_iteOpt (fun _ => ?_) (fun _ => ?_)
      | with_reducible refine only_iteOptFst (fun _ => ?_) (fun _ => ?_)
      | with_reducible refine only_getD ?_ ?_
      | with_reducible refine only_mapOpt ?_ (fun _ _ => ?_)
      | with_reducible refine only_mapState ?_ (fun _ _ => ?_)
      | with_reducible refine only_mapFst ?_ (fun _ _ => ?_)
      | with_reducible refine only_bindFst ?_ (fun _ _ => ?_)
      | with_reducible refine only_foldlOpt ?_ (fun _ _ _ => ?_)
      | with_reducible refine only_someFst ?_
      | with_reducible refine only_some ?_
      | with_reducible apply State.count64_only
      | with_reducible apply State.offerTier_only
      | with_reducible apply only_withScc
      | refine only_pair (by with_reducible assumption) ?_
      | refine only_optPair (by with_reducible assumption) ?_
      | refine only_opt (by with_reducible assumption) ?_
      | refine only_outcome (by with_reducible assumption) ?_
      | dsimp only
      | with_reducible intro _
      | cases ‹_ :: _ = _ :: _›
      | split)
  | cons x l ih =>
    unfold State.offerDirty
    repeat' (first
      | with_reducible exact hS
      | with_reducible assumption
      | with_reducible apply ih
      | exact sub_mono hM rfl
      | exact Or.inl (sub_mono hM rfl)
      | exact Or.inr rfl
      | exact Or.inr ⟨rfl, rfl, rfl, rfl, rfl⟩
      | exact Or.inr (fun k => k)
      | exact Or.inr (fun _ => rfl)
      | with_reducible refine only_ite (fun _ => ?_) (fun _ => ?_)
      | with_reducible refine only_iteFst (fun _ => ?_) (fun _ => ?_)
      | with_reducible exact only_none
      | with_reducible refine only_iteOpt (fun _ => ?_) (fun _ => ?_)
      | with_reducible refine only_iteOptFst (fun _ => ?_) (fun _ => ?_)
      | with_reducible refine only_getD ?_ ?_
      | with_reducible refine only_mapOpt ?_ (fun _ _ => ?_)
      | with_reducible refine only_mapState ?_ (fun _ _ => ?_)
      | with_reducible refine only_mapFst ?_ (fun _ _ => ?_)
      | with_reducible refine only_bindFst ?_ (fun _ _ => ?_)
      | with_reducible refine only_foldlOpt ?_ (fun _ _ _ => ?_)
      | with_reducible refine only_someFst ?_
      | with_reducible refine only_some ?_
      | with_reducible apply State.count64_only
      | with_reducible apply State.offerTier_only
      | with_reducible apply only_withScc
      | refine only_pair (by with_reducible assumption) ?_
      | refine only_optPair (by with_reducible assumption) ?_
      | refine only_opt (by with_reducible assumption) ?_
      | refine only_outcome (by with_reducible assumption) ?_
      | dsimp only
      | with_reducible intro _
      | cases ‹_ :: _ = _ :: _›
      | split)

theorem State.allocRounds_only {M : List Field} {s0 s : State} (hS : Only M s0 s)
    (hM : sub [.regs, .scc] M = true) (a0 : Nat) (a1 : List Nat) : Only M s0 (State.allocRounds s a0 a1).1 := by
  induction a0 generalizing s a1  with
  | zero =>
    unfold State.allocRounds
    repeat' (first
      | with_reducible exact hS
      | with_reducible assumption
      | exact sub_mono hM rfl
      | exact Or.inl (sub_mono hM rfl)
      | exact Or.inr rfl
      | exact Or.inr ⟨rfl, rfl, rfl, rfl, rfl⟩
      | exact Or.inr (fun k => k)
      | exact Or.inr (fun _ => rfl)
      | with_reducible refine only_ite (fun _ => ?_) (fun _ => ?_)
      | with_reducible refine only_iteFst (fun _ => ?_) (fun _ => ?_)
      | with_reducible exact only_none
      | with_reducible refine only_iteOpt (fun _ => ?_) (fun _ => ?_)
      | with_reducible refine only_iteOptFst (fun _ => ?_) (fun _ => ?_)
      | with_reducible refine only_getD ?_ ?_
      | with_reducible refine only_mapOpt ?_ (fun _ _ => ?_)
      | with_reducible refine only_mapState ?_ (fun _ _ => ?_)
      | with_reducible refine only_mapFst ?_ (fun _ _ => ?_)
      | with_reducible refine only_bindFst ?_ (fun _ _ => ?_)
      | with_reducible refine only_foldlOpt ?_ (fun _ _ _ => ?_)
      | with_reducible refine only_someFst ?_
      | with_reducible refine only_some ?_
      | with_reducible apply State.offerDirty_only
      | with_reducible apply State.offerTier_only
      | with_reducible apply State.setLine_only
      | with_reducible refine only_foldl ?_ (fun _ _ _ => ?_)
      | with_reducible refine only_foldlFst ?_ (fun _ _ _ => ?_)
      | refine only_pair (by with_reducible assumption) ?_
      | refine only_optPair (by with_reducible assumption) ?_
      | refine only_opt (by with_reducible assumption) ?_
      | refine only_outcome (by with_reducible assumption) ?_
      | dsimp only
      | with_reducible intro _
      | cases ‹_ + 1 = Nat.succ _›
      | split)
  | succ n ih =>
    unfold State.allocRounds
    repeat' (first
      | with_reducible exact hS
      | with_reducible assumption
      | with_reducible apply ih
      | exact sub_mono hM rfl
      | exact Or.inl (sub_mono hM rfl)
      | exact Or.inr rfl
      | exact Or.inr ⟨rfl, rfl, rfl, rfl, rfl⟩
      | exact Or.inr (fun k => k)
      | exact Or.inr (fun _ => rfl)
      | with_reducible refine only_ite (fun _ => ?_) (fun _ => ?_)
      | with_reducible refine only_iteFst (fun _ => ?_) (fun _ => ?_)
      | with_reducible exact only_none
      | with_reducible refine only_iteOpt (fun _ => ?_) (fun _ => ?_)
      | with_reducible refine only_iteOptFst (fun _ => ?_) (fun _ => ?_)
      | with_reducible refine only_getD ?_ ?_
      | with_reducible refine only_mapOpt ?_ (fun _ _ => ?_)
      | with_reducible refine only_mapState ?_ (fun _ _ => ?_)
      | with_reducible refine only_mapFst ?_ (fun _ _ => ?_)
      | with_reducible refine only_bindFst ?_ (fun _ _ => ?_)
      | with_reducible refine only_foldlOpt ?_ (fun _ _ _ => ?_)
      | with_reducible refine only_someFst ?_
      | with_reducible refine only_some ?_
      | with_reducible apply State.offerDirty_only
      | with_reducible apply State.offerTier_only
      | with_reducible apply State.setLine_only
      | with_reducible refine only_foldl ?_ (fun _ _ _ => ?_)
      | with_reducible refine only_foldlFst ?_ (fun _ _ _ => ?_)
      | refine only_pair (by with_reducible assumption) ?_
      | refine only_optPair (by with_reducible assumption) ?_
      | refine only_opt (by with_reducible assumption) ?_
      | refine only_outcome (by with_reducible assumption) ?_
      | dsimp only
      | with_reducible intro _
      | cases ‹_ + 1 = Nat.succ _›
      | split)

theorem State.allocate_only {M : List Field} {s0 s : State} (hS : Only M s0 s)
    (hM : sub [.regs, .scc] M = true) (k : LineKey) (mask : Nat) : Only M s0 (State.allocate s k mask).1 := by
  unfold State.allocate
  repeat' (first
    | with_reducible exact hS
    | with_reducible assumption
    | exact sub_mono hM rfl
    | exact Or.inl (sub_mono hM rfl)
    | exact Or.inr rfl
    | exact Or.inr ⟨rfl, rfl, rfl, rfl, rfl⟩
    | exact Or.inr (fun k => k)
    | exact Or.inr (fun _ => rfl)
    | with_reducible refine only_ite (fun _ => ?_) (fun _ => ?_)
    | with_reducible refine only_iteFst (fun _ => ?_) (fun _ => ?_)
    | with_reducible exact only_none
    | with_reducible refine only_iteOpt (fun _ => ?_) (fun _ => ?_)
    | with_reducible refine only_iteOptFst (fun _ => ?_) (fun _ => ?_)
    | with_reducible refine only_getD ?_ ?_
    | with_reducible refine only_mapOpt ?_ (fun _ _ => ?_)
    | with_reducible refine only_mapState ?_ (fun _ _ => ?_)
    | with_reducible refine only_mapFst ?_ (fun _ _ => ?_)
    | with_reducible refine only_bindFst ?_ (fun _ _ => ?_)
    | with_reducible refine only_foldlOpt ?_ (fun _ _ _ => ?_)
    | with_reducible refine only_someFst ?_
    | with_reducible refine only_some ?_
    | with_reducible apply State.allocRounds_only
    | with_reducible apply State.setLine_only
    | refine only_pair (by with_reducible assumption) ?_
    | refine only_optPair (by with_reducible assumption) ?_
    | refine only_opt (by with_reducible assumption) ?_
    | refine only_outcome (by with_reducible assumption) ?_
    | dsimp only
    | with_reducible intro _
    | split)

theorem State.putLine_only {M : List Field} {s0 s : State} (hS : Only M s0 s)
    (hM : sub [.scc] M = true) (i : Nat) (k : LineKey) (st : LineState) (data : Bytes) (q : Seal) (age : Nat) (pre : Bool) (io : Option Nat) : Only M s0 (State.putLine s i k st data q age pre io) := by
  unfold State.putLine
  repeat' (first
    | with_reducible exact hS
    | with_reducible assumption
    | exact sub_mono hM rfl
    | exact Or.inl (sub_mono hM rfl)
    | exact Or.inr rfl
    | exact Or.inr ⟨rfl, rfl, rfl, rfl, rfl⟩
    | exact Or.inr (fun k => k)
    | exact Or.inr (fun _ => rfl)
    | with_reducible refine only_ite (fun _ => ?_) (fun _ => ?_)
    | with_reducible apply State.setLine_only
    | refine only_pair (by with_reducible assumption) ?_
    | refine only_optPair (by with_reducible assumption) ?_
    | refine only_opt (by with_reducible assumption) ?_
    | refine only_outcome (by with_reducible assumption) ?_
    | dsimp only
    | with_reducible intro _
    | split)

theorem State.dropKey_only {M : List Field} {s0 s : State} (hS : Only M s0 s)
    (hM : sub [.scc] M = true) (k : LineKey) : Only M s0 (State.dropKey s k) := by
  unfold State.dropKey
  repeat' (first
    | with_reducible exact hS
    | with_reducible assumption
    | exact sub_mono hM rfl
    | exact Or.inl (sub_mono hM rfl)
    | exact Or.inr rfl
    | exact Or.inr ⟨rfl, rfl, rfl, rfl, rfl⟩
    | exact Or.inr (fun k => k)
    | exact Or.inr (fun _ => rfl)
    | with_reducible refine only_ite (fun _ => ?_) (fun _ => ?_)
    | with_reducible apply only_withScc
    | refine only_pair (by with_reducible assumption) ?_
    | refine only_optPair (by with_reducible assumption) ?_
    | refine only_opt (by with_reducible assumption) ?_
    | refine only_outcome (by with_reducible assumption) ?_
    | dsimp only
    | with_reducible intro _
    | split)

theorem State.insertClean_only {M : List Field} {s0 s : State} (hS : Only M s0 s)
    (hM : sub [.regs, .scc] M = true) (k : LineKey) (c : CacheClass) (data : Bytes) (q : Seal) (age : Nat) : Only M s0 (State.insertClean s k c data q age) := by
  unfold State.insertClean
  repeat' (first
    | with_reducible exact hS
    | with_reducible assumption
    | exact sub_mono hM rfl
    | exact Or.inl (sub_mono hM rfl)
    | exact Or.inr rfl
    | exact Or.inr ⟨rfl, rfl, rfl, rfl, rfl⟩
    | exact Or.inr (fun k => k)
    | exact Or.inr (fun _ => rfl)
    | with_reducible refine only_ite (fun _ => ?_) (fun _ => ?_)
    | with_reducible apply State.allocate_only
    | with_reducible apply State.count32_only
    | with_reducible apply State.dropKey_only
    | with_reducible apply State.putLine_only
    | refine only_pair (by with_reducible assumption) ?_
    | refine only_optPair (by with_reducible assumption) ?_
    | refine only_opt (by with_reducible assumption) ?_
    | refine only_outcome (by with_reducible assumption) ?_
    | dsimp only
    | with_reducible intro _
    | split)

theorem State.startFill_only {M : List Field} {s0 s : State} (hS : Only M s0 s)
    (hM : sub [.regs, .scc] M = true) (k : LineKey) (c : CacheClass) (age : Nat) (pre : Bool) (id : Nat) : Only M s0 (State.startFill s k c age pre id) := by
  unfold State.startFill
  repeat' (first
    | with_reducible exact hS
    | with_reducible assumption
    | exact sub_mono hM rfl
    | exact Or.inl (sub_mono hM rfl)
    | exact Or.inr rfl
    | exact Or.inr ⟨rfl, rfl, rfl, rfl, rfl⟩
    | exact Or.inr (fun k => k)
    | exact Or.inr (fun _ => rfl)
    | with_reducible refine only_ite (fun _ => ?_) (fun _ => ?_)
    | with_reducible apply State.allocate_only
    | with_reducible apply State.count32_only
    | with_reducible apply State.putLine_only
    | refine only_pair (by with_reducible assumption) ?_
    | refine only_optPair (by with_reducible assumption) ?_
    | refine only_opt (by with_reducible assumption) ?_
    | refine only_outcome (by with_reducible assumption) ?_
    | dsimp only
    | with_reducible intro _
    | split)

theorem State.endFill_only {M : List Field} {s0 s : State} (hS : Only M s0 s)
    (hM : sub [.regs, .scc] M = true) (id : Nat) (x : Option Sector) : Only M s0 (State.endFill s id x) := by
  unfold State.endFill
  repeat' (first
    | with_reducible exact hS
    | with_reducible assumption
    | exact sub_mono hM rfl
    | exact Or.inl (sub_mono hM rfl)
    | exact Or.inr rfl
    | exact Or.inr ⟨rfl, rfl, rfl, rfl, rfl⟩
    | exact Or.inr (fun k => k)
    | exact Or.inr (fun _ => rfl)
    | with_reducible refine only_ite (fun _ => ?_) (fun _ => ?_)
    | with_reducible apply State.count32_only
    | with_reducible apply State.setLine_only
    | refine only_pair (by with_reducible assumption) ?_
    | refine only_optPair (by with_reducible assumption) ?_
    | refine only_opt (by with_reducible assumption) ?_
    | refine only_outcome (by with_reducible assumption) ?_
    | dsimp only
    | with_reducible intro _
    | split)

theorem State.recall_only {M : List Field} {s0 s : State} (hS : Only M s0 s)
    (hM : sub [.regs, .scc] M = true) (k : LineKey) (t : Nat) (mask : Nat) : Only M s0 (State.recall s k t mask) := by
  unfold State.recall
  repeat' (first
    | with_reducible exact hS
    | with_reducible assumption
    | exact sub_mono hM rfl
    | exact Or.inl (sub_mono hM rfl)
    | exact Or.inr rfl
    | exact Or.inr ⟨rfl, rfl, rfl, rfl, rfl⟩
    | exact Or.inr (fun k => k)
    | exact Or.inr (fun _ => rfl)
    | with_reducible refine only_ite (fun _ => ?_) (fun _ => ?_)
    | with_reducible apply State.allocate_only
    | with_reducible apply State.count32_only
    | with_reducible apply State.setLine_only
    | with_reducible apply State.setSlot_only
    | with_reducible apply only_withScc
    | refine only_pair (by with_reducible assumption) ?_
    | refine only_optPair (by with_reducible assumption) ?_
    | refine only_opt (by with_reducible assumption) ?_
    | refine only_outcome (by with_reducible assumption) ?_
    | dsimp only
    | with_reducible intro _
    | split)

theorem State.cacheLookup_only {M : List Field} {s0 s : State} (hS : Only M s0 s)
    (hM : sub [.regs, .scc] M = true) (k : LineKey) (c : CacheClass) (keepAge : Bool) : Only M s0 (State.cacheLookup s k c keepAge).1 := by
  unfold State.cacheLookup
  repeat' (first
    | with_reducible exact hS
    | with_reducible assumption
    | exact sub_mono hM rfl
    | exact Or.inl (sub_mono hM rfl)
    | exact Or.inr rfl
    | exact Or.inr ⟨rfl, rfl, rfl, rfl, rfl⟩
    | exact Or.inr (fun k => k)
    | exact Or.inr (fun _ => rfl)
    | with_reducible refine only_ite (fun _ => ?_) (fun _ => ?_)
    | with_reducible refine only_iteFst (fun _ => ?_) (fun _ => ?_)
    | with_reducible apply State.count64_only
    | with_reducible apply State.recall_only
    | with_reducible apply State.setLine_only
    | refine only_pair (by with_reducible assumption) ?_
    | refine only_optPair (by with_reducible assumption) ?_
    | refine only_opt (by with_reducible assumption) ?_
    | refine only_outcome (by with_reducible assumption) ?_
    | dsimp only
    | with_reducible intro _
    | split)

theorem State.cleanKey_only {M : List Field} {s0 s : State} (hS : Only M s0 s)
    (hM : sub [.scc] M = true) (k : LineKey) (v : Version) (q : Seal) : Only M s0 (State.cleanKey s k v q) := by
  unfold State.cleanKey
  repeat' (first
    | with_reducible exact hS
    | with_reducible assumption
    | exact sub_mono hM rfl
    | exact Or.inl (sub_mono hM rfl)
    | exact Or.inr rfl
    | exact Or.inr ⟨rfl, rfl, rfl, rfl, rfl⟩
    | exact Or.inr (fun k => k)
    | exact Or.inr (fun _ => rfl)
    | with_reducible refine only_ite (fun _ => ?_) (fun _ => ?_)
    | with_reducible apply only_withScc
    | refine only_pair (by with_reducible assumption) ?_
    | refine only_optPair (by with_reducible assumption) ?_
    | refine only_opt (by with_reducible assumption) ?_
    | refine only_outcome (by with_reducible assumption) ?_
    | dsimp only
    | with_reducible intro _
    | split)

end Sys2Proof.Machine
end

