-- ==== Sys2Proof/Laws/OnlyRows.lean ====
section
/-! SUPPORT. The frame of every operation of Sys2Proof/Machine/Rows.lean: which parts of the state it may change. -/

set_option linter.unusedTactic false
set_option linter.unreachableTactic false
set_option linter.unusedVariables false

namespace Sys2Proof.Machine

theorem State.setChan_only {M : List Field} {s0 s : State} (hS : Only M s0 s)
    (hM : sub [.dmv] M = true) (n : Nat) (c : Channel) : Only M s0 (State.setChan s n c) := by
  unfold State.setChan
  repeat' (first
    | with_reducible exact hS
    | with_reducible assumption
    | exact sub_mono hM rfl
    | exact Or.inl (sub_mono hM rfl)
    | exact Or.inr rfl
    | exact Or.inr ⟨rfl, rfl, rfl, rfl, rfl⟩
    | exact Or.inr (fun k => k)
    | exact Or.inr (fun _ => rfl)
    | with_reducible refine only_ite (fun _ => ?_) (fun _ => ?_)
    | with_reducible apply only_withDmv
    | refine only_pair (by with_reducible assumption) ?_
    | refine only_optPair (by with_reducible assumption) ?_
    | refine only_opt (by with_reducible assumption) ?_
    | refine only_outcome (by with_reducible assumption) ?_
    | dsimp only
    | with_reducible intro _
    | split)

theorem State.queueTransfer_only {M : List Field} {s0 s : State} (hS : Only M s0 s)
    (hM : sub [.dmv] M = true) (line : Nat) (t : Transfer) : Only M s0 (State.queueTransfer s line t) := by
  unfold State.queueTransfer
  repeat' (first
    | with_reducible exact hS
    | with_reducible assumption
    | exact sub_mono hM rfl
    | exact Or.inl (sub_mono hM rfl)
    | exact Or.inr rfl
    | exact Or.inr ⟨rfl, rfl, rfl, rfl, rfl⟩
    | exact Or.inr (fun k => k)
    | exact Or.inr (fun _ => rfl)
    | with_reducible refine only_ite (fun _ => ?_) (fun _ => ?_)
    | with_reducible apply State.setChan_only
    | with_reducible apply only_withDmv
    | refine only_pair (by with_reducible assumption) ?_
    | refine only_optPair (by with_reducible assumption) ?_
    | refine only_opt (by with_reducible assumption) ?_
    | refine only_outcome (by with_reducible assumption) ?_
    | dsimp only
    | with_reducible intro _
    | split)

theorem State.sendFwdData_only {M : List Field} {s0 s : State} (hS : Only M s0 s)
    (hM : sub [.regs, .pair, .out] M = true) (ref : Nat) (data : Bytes) : Only M s0 (State.sendFwdData s ref data) := by
  unfold State.sendFwdData
  repeat' (first
    | with_reducible exact hS
    | with_reducible assumption
    | exact sub_mono hM rfl
    | exact Or.inl (sub_mono hM rfl)
    | exact Or.inr rfl
    | exact Or.inr ⟨rfl, rfl, rfl, rfl, rfl⟩
    | exact Or.inr (fun k => k)
    | exact Or.inr (fun _ => rfl)
    | with_reducible refine only_ite (fun _ => ?_) (fun _ => ?_)
    | with_reducible apply State.sendFlit_only
    | with_reducible refine only_foldl ?_ (fun _ _ _ => ?_)
    | with_reducible refine only_foldlFst ?_ (fun _ _ _ => ?_)
    | refine only_pair (by with_reducible assumption) ?_
    | refine only_optPair (by with_reducible assumption) ?_
    | refine only_opt (by with_reducible assumption) ?_
    | refine only_outcome (by with_reducible assumption) ?_
    | dsimp only
    | with_reducible intro _
    | split)

theorem State.fwdGathered_only {M : List Field} {s0 s : State} (hS : Only M s0 s)
    (hM : sub [.gcs, .regs, .flt, .sources, .first, .sets, .cht, .log, .wch, .rings, .ios, .dcmds, .ports, .portGroups, .rowOps, .commits, .clusters, .scc, .interp, .mon, .pair, .chn, .hpus, .out] M = true) (io : Io) : Only M s0 (State.fwdGathered s io) := by
  unfold State.fwdGathered
  repeat' (first
    | with_reducible exact hS
    | with_reducible assumption
    | exact sub_mono hM rfl
    | exact Or.inl (sub_mono hM rfl)
    | exact Or.inr rfl
    | exact Or.inr ⟨rfl, rfl, rfl, rfl, rfl⟩
    | exact Or.inr (fun k => k)
    | exact Or.inr (fun _ => rfl)
    | with_reducible refine only_ite (fun _ => ?_) (fun _ => ?_)
    | with_reducible apply State.finishIo_only
    | with_reducible apply State.sendFwdData_only
    | refine only_pair (by with_reducible assumption) ?_
    | refine only_optPair (by with_reducible assumption) ?_
    | refine only_opt (by with_reducible assumption) ?_
    | refine only_outcome (by with_reducible assumption) ?_
    | dsimp only
    | with_reducible intro _
    | split)

theorem State.ioGathered_only {M : List Field} {s0 s : State} (hS : Only M s0 s)
    (hM : sub [.gcs, .regs, .flt, .sources, .first, .sets, .cht, .log, .wch, .rings, .ios, .dcmds, .ports, .portGroups, .rowOps, .commits, .clusters, .scc, .dmv, .interp, .mon, .pair, .chn, .hpus, .out] M = true) (io : Io) : Only M s0 (State.ioGathered s io) := by
  unfold State.ioGathered
  repeat' (first
    | with_reducible exact hS
    | with_reducible assumption
    | exact sub_mono hM rfl
    | exact Or.inl (sub_mono hM rfl)
    | exact Or.inr rfl
    | exact Or.inr ⟨rfl, rfl, rfl, rfl, rfl⟩
    | exact Or.inr (fun k => k)
    | exact Or.inr (fun _ => rfl)
    | with_reducible refine only_ite (fun _ => ?_) (fun _ => ?_)
    | with_reducible apply State.finishIo_only
    | with_reducible apply State.fwdGathered_only
    | with_reducible apply State.queueTransfer_only
    | refine only_pair (by with_reducible assumption) ?_
    | refine only_optPair (by with_reducible assumption) ?_
    | refine only_opt (by with_reducible assumption) ?_
    | refine only_outcome (by with_reducible assumption) ?_
    | dsimp only
    | with_reducible intro _
    | split)

theorem State.setIo_only {M : List Field} {s0 s : State} (hS : Only M s0 s)
    (hM : sub [.ios] M = true) (io : Io) : Only M s0 (State.setIo s io) := by
  unfold State.setIo
  repeat' (first
    | with_reducible exact hS
    | with_reducible assumption
    | exact sub_mono hM rfl
    | exact Or.inl (sub_mono hM rfl)
    | exact Or.inr rfl
    | exact Or.inr ⟨rfl, rfl, rfl, rfl, rfl⟩
    | exact Or.inr (fun k => k)
    | exact Or.inr (fun _ => rfl)
    | with_reducible refine only_ite (fun _ => ?_) (fun _ => ?_)
    | with_reducible apply only_withIos
    | refine only_pair (by with_reducible assumption) ?_
    | refine only_optPair (by with_reducible assumption) ?_
    | refine only_opt (by with_reducible assumption) ?_
    | refine only_outcome (by with_reducible assumption) ?_
    | dsimp only
    | with_reducible intro _
    | split)

theorem State.answerIos_only {M : List Field} {s0 s : State} (hS : Only M s0 s)
    (hM : sub [.gcs, .regs, .flt, .sources, .first, .sets, .cht, .log, .wch, .rings, .ios, .dcmds, .ports, .portGroups, .rowOps, .commits, .clusters, .scc, .dmv, .interp, .mon, .pair, .chn, .hpus, .out] M = true) (id : Nat) (res : Option Bytes) : Only M s0 (State.answerIos s id res) := by
  unfold State.answerIos
  repeat' (first
    | with_reducible exact hS
    | with_reducible assumption
    | exact sub_mono hM rfl
    | exact Or.inl (sub_mono hM rfl)
    | exact Or.inr rfl
    | exact Or.inr ⟨rfl, rfl, rfl, rfl, rfl⟩
    | exact Or.inr (fun k => k)
    | exact Or.inr (fun _ => rfl)
    | with_reducible refine only_ite (fun _ => ?_) (fun _ => ?_)
    | with_reducible apply State.ioGathered_only
    | with_reducible apply State.setIo_only
    | with_reducible refine only_foldl ?_ (fun _ _ _ => ?_)
    | with_reducible refine only_foldlFst ?_ (fun _ _ _ => ?_)
    | refine only_pair (by with_reducible assumption) ?_
    | refine only_optPair (by with_reducible assumption) ?_
    | refine only_opt (by with_reducible assumption) ?_
    | refine only_outcome (by with_reducible assumption) ?_
    | dsimp only
    | with_reducible intro _
    | split)

theorem State.mediaFault_only {M : List Field} {s0 s : State} (hS : Only M s0 s)
    (hM : sub [.gcs, .regs, .flt, .sources, .first, .sets, .cht, .log, .wch, .rings, .ios, .dcmds, .ports, .portGroups, .rowOps, .commits, .clusters, .scc, .interp, .mon, .pair, .chn, .hpus, .out] M = true) (p : Byte) (lvl : Level) (detail : Byte) : Only M s0 (State.mediaFault s p lvl detail) := by
  unfold State.mediaFault
  repeat' (first
    | with_reducible exact hS
    | with_reducible assumption
    | exact sub_mono hM rfl
    | exact Or.inl (sub_mono hM rfl)
    | exact Or.inr rfl
    | exact Or.inr ⟨rfl, rfl, rfl, rfl, rfl⟩
    | exact Or.inr (fun k => k)
    | exact Or.inr (fun _ => rfl)
    | with_reducible refine only_ite (fun _ => ?_) (fun _ => ?_)
    | with_reducible apply State.raisePort_only
    | refine only_pair (by with_reducible assumption) ?_
    | refine only_optPair (by with_reducible assumption) ?_
    | refine only_opt (by with_reducible assumption) ?_
    | refine only_outcome (by with_reducible assumption) ?_
    | dsimp only
    | with_reducible intro _
    | split)

theorem State.linkFault_only {M : List Field} {s0 s : State} (hS : Only M s0 s)
    (hM : sub [.gcs, .regs, .flt, .sources, .first, .sets, .cht, .log, .wch, .rings, .ios, .dcmds, .ports, .portGroups, .rowOps, .commits, .clusters, .scc, .interp, .mon, .pair, .chn, .hpus, .out] M = true) (p : Byte) (lvl : Level) (detail : Byte) : Only M s0 (State.linkFault s p lvl detail) := by
  unfold State.linkFault
  repeat' (first
    | with_reducible exact hS
    | with_reducible assumption
    | exact sub_mono hM rfl
    | exact Or.inl (sub_mono hM rfl)
    | exact Or.inr rfl
    | exact Or.inr ⟨rfl, rfl, rfl, rfl, rfl⟩
    | exact Or.inr (fun k => k)
    | exact Or.inr (fun _ => rfl)
    | with_reducible refine only_ite (fun _ => ?_) (fun _ => ?_)
    | with_reducible apply State.raisePort_only
    | refine only_pair (by with_reducible assumption) ?_
    | refine only_optPair (by with_reducible assumption) ?_
    | refine only_opt (by with_reducible assumption) ?_
    | refine only_outcome (by with_reducible assumption) ?_
    | dsimp only
    | with_reducible intro _
    | split)

theorem State.sectorFault_only {M : List Field} {s0 s : State} (hS : Only M s0 s)
    (hM : sub [.gcs, .regs, .flt, .sources, .first, .sets, .cht, .log, .wch, .rings, .ios, .dcmds, .ports, .portGroups, .rowOps, .commits, .clusters, .scc, .interp, .mon, .pair, .chn, .hpus, .out] M = true) (p : Byte) (detail : Byte) : Only M s0 (State.sectorFault s p detail) := by
  unfold State.sectorFault
  repeat' (first
    | with_reducible exact hS
    | with_reducible assumption
    | exact sub_mono hM rfl
    | exact Or.inl (sub_mono hM rfl)
    | exact Or.inr rfl
    | exact Or.inr ⟨rfl, rfl, rfl, rfl, rfl⟩
    | exact Or.inr (fun k => k)
    | exact Or.inr (fun _ => rfl)
    | with_reducible refine only_ite (fun _ => ?_) (fun _ => ?_)
    | with_reducible apply State.mediaFault_only
    | with_reducible apply State.modPort_only
    | refine only_pair (by with_reducible assumption) ?_
    | refine only_optPair (by with_reducible assumption) ?_
    | refine only_opt (by with_reducible assumption) ?_
    | refine only_outcome (by with_reducible assumption) ?_
    | dsimp only
    | with_reducible intro _
    | split)

theorem State.restoreWrite_only {M : List Field} {s0 s : State} (hS : Only M s0 s)
    (hM : sub [.regs, .sets, .nextId, .dcmds, .ports, .rowOps, .out] M = true) (set : BitVec 6) (rev : Revision) (stripe : Nat) (frag : Nat) (row : Nat) (data : Bytes) (vp : Version) (mask : Word64) (fl : Bool × Bool) (rebuilt : Bool) : Only M s0 (State.restoreWrite s set rev stripe frag row data vp mask fl rebuilt) := by
  unfold State.restoreWrite
  repeat' (first
    | with_reducible exact hS
    | with_reducible assumption
    | exact sub_mono hM rfl
    | exact Or.inl (sub_mono hM rfl)
    | exact Or.inr rfl
    | exact Or.inr ⟨rfl, rfl, rfl, rfl, rfl⟩
    | exact Or.inr (fun k => k)
    | exact Or.inr (fun _ => rfl)
    | with_reducible refine only_ite (fun _ => ?_) (fun _ => ?_)
    | with_reducible apply State.count64_only
    | with_reducible apply State.driveWrite_only
    | refine only_pair (by with_reducible assumption) ?_
    | refine only_optPair (by with_reducible assumption) ?_
    | refine only_opt (by with_reducible assumption) ?_
    | refine only_outcome (by with_reducible assumption) ?_
    | dsimp only
    | with_reducible intro _
    | split)

theorem State.reportLost_only {M : List Field} {s0 s : State} (hS : Only M s0 s)
    (hM : sub [.gcs, .regs, .flt, .sources, .first, .sets, .cht, .log, .wch, .rings, .ios, .dcmds, .ports, .portGroups, .rowOps, .commits, .clusters, .scc, .interp, .mon, .pair, .chn, .hpus, .out] M = true) (set : BitVec 6) (stripe : Nat) (row : Nat) (mask : Word64) : Only M s0 (State.reportLost s set stripe row mask) := by
  unfold State.reportLost
  repeat' (first
    | with_reducible exact hS
    | with_reducible assumption
    | exact sub_mono hM rfl
    | exact Or.inl (sub_mono hM rfl)
    | exact Or.inr rfl
    | exact Or.inr ⟨rfl, rfl, rfl, rfl, rfl⟩
    | exact Or.inr (fun k => k)
    | exact Or.inr (fun _ => rfl)
    | with_reducible refine only_ite (fun _ => ?_) (fun _ => ?_)
    | with_reducible apply State.post_only
    | with_reducible apply State.setSet_only
    | with_reducible refine only_foldl ?_ (fun _ _ _ => ?_)
    | with_reducible refine only_foldlFst ?_ (fun _ _ _ => ?_)
    | refine only_pair (by with_reducible assumption) ?_
    | refine only_optPair (by with_reducible assumption) ?_
    | refine only_opt (by with_reducible assumption) ?_
    | refine only_outcome (by with_reducible assumption) ?_
    | dsimp only
    | with_reducible intro _
    | split)

theorem State.setCommit_only {M : List Field} {s0 s : State} (hS : Only M s0 s)
    (hM : sub [.commits] M = true) (c : CommitOp) : Only M s0 (State.setCommit s c) := by
  unfold State.setCommit
  repeat' (first
    | with_reducible exact hS
    | with_reducible assumption
    | exact sub_mono hM rfl
    | exact Or.inl (sub_mono hM rfl)
    | exact Or.inr rfl
    | exact Or.inr ⟨rfl, rfl, rfl, rfl, rfl⟩
    | exact Or.inr (fun k => k)
    | exact Or.inr (fun _ => rfl)
    | with_reducible refine only_ite (fun _ => ?_) (fun _ => ?_)
    | with_reducible apply only_withCommits
    | refine only_pair (by with_reducible assumption) ?_
    | refine only_optPair (by with_reducible assumption) ?_
    | refine only_opt (by with_reducible assumption) ?_
    | refine only_outcome (by with_reducible assumption) ?_
    | dsimp only
    | with_reducible intro _
    | split)

theorem State.commitStuck_only {M : List Field} {s0 s : State} (hS : Only M s0 s)
    (hM : sub [.gcs, .regs, .flt, .sources, .first, .sets, .cht, .log, .wch, .rings, .ios, .dcmds, .ports, .portGroups, .rowOps, .commits, .clusters, .scc, .interp, .mon, .pair, .chn, .hpus, .out] M = true) (c : CommitOp) : Only M s0 (State.commitStuck s c) := by
  unfold State.commitStuck
  repeat' (first
    | with_reducible exact hS
    | with_reducible assumption
    | exact sub_mono hM rfl
    | exact Or.inl (sub_mono hM rfl)
    | exact Or.inr rfl
    | exact Or.inr ⟨rfl, rfl, rfl, rfl, rfl⟩
    | exact Or.inr (fun k => k)
    | exact Or.inr (fun _ => rfl)
    | with_reducible refine only_ite (fun _ => ?_) (fun _ => ?_)
    | with_reducible apply State.preserve_only
    | refine only_pair (by with_reducible assumption) ?_
    | refine only_optPair (by with_reducible assumption) ?_
    | refine only_opt (by with_reducible assumption) ?_
    | refine only_outcome (by with_reducible assumption) ?_
    | dsimp only
    | with_reducible intro _
    | split)

theorem State.queuePass_only {M : List Field} {s0 s : State} (hS : Only M s0 s)
    (hM : sub [.nextId, .passes] M = true) (coeffs : List Bytes) (inputs : List Bytes) (rowOp : Option Nat) (commit : Option Nat) (n : Nat) : Only M s0 (State.queuePass s coeffs inputs rowOp commit n) := by
  unfold State.queuePass
  repeat' (first
    | with_reducible exact hS
    | with_reducible assumption
    | exact sub_mono hM rfl
    | exact Or.inl (sub_mono hM rfl)
    | exact Or.inr rfl
    | exact Or.inr ⟨rfl, rfl, rfl, rfl, rfl⟩
    | exact Or.inr (fun k => k)
    | exact Or.inr (fun _ => rfl)
    | with_reducible refine only_ite (fun _ => ?_) (fun _ => ?_)
    | with_reducible apply only_withNextId
    | with_reducible apply only_withPasses
    | refine only_pair (by with_reducible assumption) ?_
    | refine only_optPair (by with_reducible assumption) ?_
    | refine only_opt (by with_reducible assumption) ?_
    | refine only_outcome (by with_reducible assumption) ?_
    | dsimp only
    | with_reducible intro _
    | split)

theorem State.setRowOp_only {M : List Field} {s0 s : State} (hS : Only M s0 s)
    (hM : sub [.rowOps] M = true) (o : RowOp) : Only M s0 (State.setRowOp s o) := by
  unfold State.setRowOp
  repeat' (first
    | with_reducible exact hS
    | with_reducible assumption
    | exact sub_mono hM rfl
    | exact Or.inl (sub_mono hM rfl)
    | exact Or.inr rfl
    | exact Or.inr ⟨rfl, rfl, rfl, rfl, rfl⟩
    | exact Or.inr (fun k => k)
    | exact Or.inr (fun _ => rfl)
    | with_reducible refine only_ite (fun _ => ?_) (fun _ => ?_)
    | with_reducible apply only_withRowOps
    | refine only_pair (by with_reducible assumption) ?_
    | refine only_optPair (by with_reducible assumption) ?_
    | refine only_opt (by with_reducible assumption) ?_
    | refine only_outcome (by with_reducible assumption) ?_
    | dsimp only
    | with_reducible intro _
    | split)

theorem State.dropRowOp_only {M : List Field} {s0 s : State} (hS : Only M s0 s)
    (hM : sub [.rowOps] M = true) (id : Nat) : Only M s0 (State.dropRowOp s id) := by
  unfold State.dropRowOp
  repeat' (first
    | with_reducible exact hS
    | with_reducible assumption
    | exact sub_mono hM rfl
    | exact Or.inl (sub_mono hM rfl)
    | exact Or.inr rfl
    | exact Or.inr ⟨rfl, rfl, rfl, rfl, rfl⟩
    | exact Or.inr (fun k => k)
    | exact Or.inr (fun _ => rfl)
    | with_reducible refine only_ite (fun _ => ?_) (fun _ => ?_)
    | with_reducible apply only_withRowOps
    | refine only_pair (by with_reducible assumption) ?_
    | refine only_optPair (by with_reducible assumption) ?_
    | refine only_opt (by with_reducible assumption) ?_
    | refine only_outcome (by with_reducible assumption) ?_
    | dsimp only
    | with_reducible intro _
    | split)

theorem State.arbitrate_only {M : List Field} {s0 s : State} (hS : Only M s0 s)
    (hM : sub [.arbitrating] M = true) (set : BitVec 6) (stripe : Nat) (row : Nat) : Only M s0 (State.arbitrate s set stripe row) := by
  unfold State.arbitrate
  repeat' (first
    | with_reducible exact hS
    | with_reducible assumption
    | exact sub_mono hM rfl
    | exact Or.inl (sub_mono hM rfl)
    | exact Or.inr rfl
    | exact Or.inr ⟨rfl, rfl, rfl, rfl, rfl⟩
    | exact Or.inr (fun k => k)
    | exact Or.inr (fun _ => rfl)
    | with_reducible refine only_ite (fun _ => ?_) (fun _ => ?_)
    | with_reducible apply only_withArbitrating
    | refine only_pair (by with_reducible assumption) ?_
    | refine only_optPair (by with_reducible assumption) ?_
    | refine only_opt (by with_reducible assumption) ?_
    | refine only_outcome (by with_reducible assumption) ?_
    | dsimp only
    | with_reducible intro _
    | split)

theorem State.rowRead_only {M : List Field} {s0 s : State} (hS : Only M s0 s)
    (hM : sub [.cht, .nextId] M = true) (o : RowOp) (f : Nat) : Only M s0 (State.rowRead s o f).1 := by
  unfold State.rowRead
  repeat' (first
    | with_reducible exact hS
    | with_reducible assumption
    | exact sub_mono hM rfl
    | exact Or.inl (sub_mono hM rfl)
    | exact Or.inr rfl
    | exact Or.inr ⟨rfl, rfl, rfl, rfl, rfl⟩
    | exact Or.inr (fun k => k)
    | exact Or.inr (fun _ => rfl)
    | with_reducible refine only_ite (fun _ => ?_) (fun _ => ?_)
    | with_reducible refine only_iteFst (fun _ => ?_) (fun _ => ?_)
    | with_reducible apply State.requestRead_only
    | refine only_pair (by with_reducible assumption) ?_
    | refine only_optPair (by with_reducible assumption) ?_
    | refine only_opt (by with_reducible assumption) ?_
    | refine only_outcome (by with_reducible assumption) ?_
    | dsimp only
    | with_reducible intro _
    | split)

theorem State.rowReads_only {M : List Field} {s0 s : State} (hS : Only M s0 s)
    (hM : sub [.cht, .nextId] M = true) (o : RowOp) (a0 : List Nat) : Only M s0 (State.rowReads s o a0).1 := by
  induction a0 generalizing s  o with
  | nil =>
    unfold State.rowReads
    repeat' (first
      | with_reducible exact hS
      | with_reducible assumption
      | exact sub_mono hM rfl
      | exact Or.inl (sub_mono hM rfl)
      | exact Or.inr rfl
      | exact Or.inr ⟨rfl, rfl, rfl, rfl, rfl⟩
      | exact Or.inr (fun k => k)
      | exact Or.inr (fun _ => rfl)
      | with_reducible refine only_ite (fun _ => ?_) (fun _ => ?_)
      | with_reducible refine only_iteFst (fun _ => ?_) (fun _ => ?_)
      | with_reducible apply State.rowRead_only
      | refine only_pair (by with_reducible assumption) ?_
      | refine only_optPair (by with_reducible assumption) ?_
      | refine only_opt (by with_reducible assumption) ?_
      | refine only_outcome (by with_reducible assumption) ?_
      | dsimp only
      | with_reducible intro _
      | cases ‹_ :: _ = _ :: _›
      | split)
  | cons x l ih =>
    unfold State.rowReads
    repeat' (first
      | with_reducible exact hS
      | with_reducible assumption
      | with_reducible apply ih
      | exact sub_mono hM rfl
      | exact Or.inl (sub_mono hM rfl)
      | exact Or.inr rfl
      | exact Or.inr ⟨rfl, rfl, rfl, rfl, rfl⟩
      | exact Or.inr (fun k => k)
      | exact Or.inr (fun _ => rfl)
      | with_reducible refine only_ite (fun _ => ?_) (fun _ => ?_)
      | with_reducible refine only_iteFst (fun _ => ?_) (fun _ => ?_)
      | with_reducible apply State.rowRead_only
      | refine only_pair (by with_reducible assumption) ?_
      | refine only_optPair (by with_reducible assumption) ?_
      | refine only_opt (by with_reducible assumption) ?_
      | refine only_outcome (by with_reducible assumption) ?_
      | dsimp only
      | with_reducible intro _
      | cases ‹_ :: _ = _ :: _›
      | split)

theorem State.modCluster_only {M : List Field} {s0 s : State} (hS : Only M s0 s)
    (hM : sub [.clusters] M = true) (c : Bool) (f : Cluster → Cluster) : Only M s0 (State.modCluster s c f) := by
  unfold State.modCluster
  repeat' (first
    | with_reducible exact hS
    | with_reducible assumption
    | exact sub_mono hM rfl
    | exact Or.inl (sub_mono hM rfl)
    | exact Or.inr rfl
    | exact Or.inr ⟨rfl, rfl, rfl, rfl, rfl⟩
    | exact Or.inr (fun k => k)
    | exact Or.inr (fun _ => rfl)
    | with_reducible refine only_ite (fun _ => ?_) (fun _ => ?_)
    | with_reducible apply only_withClusters
    | refine only_pair (by with_reducible assumption) ?_
    | refine only_optPair (by with_reducible assumption) ?_
    | refine only_opt (by with_reducible assumption) ?_
    | refine only_outcome (by with_reducible assumption) ?_
    | dsimp only
    | with_reducible intro _
    | split)

theorem State.matrixLookup_only {M : List Field} {s0 s : State} (hS : Only M s0 s)
    (hM : sub [.clusters] M = true) (o : RowOp) : Only M s0 (State.matrixLookup s o).1 := by
  unfold State.matrixLookup
  repeat' (first
    | with_reducible exact hS
    | with_reducible assumption
    | exact sub_mono hM rfl
    | exact Or.inl (sub_mono hM rfl)
    | exact Or.inr rfl
    | exact Or.inr ⟨rfl, rfl, rfl, rfl, rfl⟩
    | exact Or.inr (fun k => k)
    | exact Or.inr (fun _ => rfl)
    | with_reducible refine only_ite (fun _ => ?_) (fun _ => ?_)
    | with_reducible refine only_iteFst (fun _ => ?_) (fun _ => ?_)
    | with_reducible exact only_none
    | with_reducible refine only_iteOpt (fun _ => ?_) (fun _ => ?_)
    | with_reducible refine only_iteOptFst (fun _ => ?_) (fun _ => ?_)
    | with_reducible refine only_getD ?_ ?_
    | with_reducible refine only_mapOpt ?_ (fun _ _ => ?_)
    | with_reducible refine only_mapState ?_ (fun _ _ => ?_)
    | with_reducible refine only_mapFst ?_ (fun _ _ => ?_)
    | with_reducible refine only_bindFst ?_ (fun _ _ => ?_)
    | with_reducible refine only_foldlOpt ?_ (fun _ _ _ => ?_)
    | with_reducible refine only_someFst ?_
    | with_reducible refine only_some ?_
    | with_reducible apply State.modCluster_only
    | refine only_pair (by with_reducible assumption) ?_
    | refine only_optPair (by with_reducible assumption) ?_
    | refine only_opt (by with_reducible assumption) ?_
    | refine only_outcome (by with_reducible assumption) ?_
    | dsimp only
    | with_reducible intro _
    | split)

theorem State.rebuildStore_only {M : List Field} {s0 s : State} (hS : Only M s0 s)
    (hM : sub [.regs, .sets, .nextId, .dcmds, .ports, .rowOps, .out] M = true) (o : RowOp) (data : Bytes) : Only M s0 (State.rebuildStore s o data) := by
  unfold State.rebuildStore
  repeat' (first
    | with_reducible exact hS
    | with_reducible assumption
    | exact sub_mono hM rfl
    | exact Or.inl (sub_mono hM rfl)
    | exact Or.inr rfl
    | exact Or.inr ⟨rfl, rfl, rfl, rfl, rfl⟩
    | exact Or.inr (fun k => k)
    | exact Or.inr (fun _ => rfl)
    | with_reducible refine only_ite (fun _ => ?_) (fun _ => ?_)
    | with_reducible exact only_none
    | with_reducible refine only_iteOpt (fun _ => ?_) (fun _ => ?_)
    | with_reducible refine only_iteOptFst (fun _ => ?_) (fun _ => ?_)
    | with_reducible refine only_getD ?_ ?_
    | with_reducible refine only_mapOpt ?_ (fun _ _ => ?_)
    | with_reducible refine only_mapState ?_ (fun _ _ => ?_)
    | with_reducible refine only_mapFst ?_ (fun _ _ => ?_)
    | with_reducible refine only_bindFst ?_ (fun _ _ => ?_)
    | with_reducible refine only_foldlOpt ?_ (fun _ _ _ => ?_)
    | with_reducible refine only_someFst ?_
    | with_reducible refine only_some ?_
    | with_reducible apply State.restoreWrite_only
    | refine only_pair (by with_reducible assumption) ?_
    | refine only_optPair (by with_reducible assumption) ?_
    | refine only_opt (by with_reducible assumption) ?_
    | refine only_outcome (by with_reducible assumption) ?_
    | dsimp only
    | with_reducible intro _
    | split)

theorem State.answerCommits_only {M : List Field} {s0 s : State} (hS : Only M s0 s)
    (hM : sub [.gcs, .regs, .flt, .sources, .first, .sets, .cht, .log, .wch, .rings, .ios, .dcmds, .ports, .portGroups, .rowOps, .commits, .clusters, .scc, .interp, .mon, .pair, .chn, .hpus, .out] M = true) (ready : State → CommitOp → State) (id : Nat) (res : Option Sector) (hready : ∀ x0 x1, Only M s0 x0 → Only M s0 (ready x0 x1)) : Only M s0 (State.answerCommits s ready id res) := by
  unfold State.answerCommits
  repeat' (first
    | with_reducible exact hS
    | with_reducible assumption
    | exact sub_mono hM rfl
    | exact Or.inl (sub_mono hM rfl)
    | exact Or.inr rfl
    | exact Or.inr ⟨rfl, rfl, rfl, rfl, rfl⟩
    | exact Or.inr (fun k => k)
    | exact Or.inr (fun _ => rfl)
    | with_reducible refine only_ite (fun _ => ?_) (fun _ => ?_)
    | with_reducible apply State.commitStuck_only
    | with_reducible apply State.setCommit_only
    | with_reducible apply hready
    | with_reducible refine only_foldl ?_ (fun _ _ _ => ?_)
    | with_reducible refine only_foldlFst ?_ (fun _ _ _ => ?_)
    | refine only_pair (by with_reducible assumption) ?_
    | refine only_optPair (by with_reducible assumption) ?_
    | refine only_opt (by with_reducible assumption) ?_
    | refine only_outcome (by with_reducible assumption) ?_
    | dsimp only
    | with_reducible intro _
    | split)

theorem State.commitPass_only {M : List Field} {s0 s : State} (hS : Only M s0 s)
    (hM : sub [.nextId, .passes] M = true) (c : CommitOp) : Only M s0 (State.commitPass s c) := by
  unfold State.commitPass
  repeat' (first
    | with_reducible exact hS
    | with_reducible assumption
    | exact sub_mono hM rfl
    | exact Or.inl (sub_mono hM rfl)
    | exact Or.inr rfl
    | exact Or.inr ⟨rfl, rfl, rfl, rfl, rfl⟩
    | exact Or.inr (fun k => k)
    | exact Or.inr (fun _ => rfl)
    | with_reducible refine only_ite (fun _ => ?_) (fun _ => ?_)
    | with_reducible exact only_none
    | with_reducible refine only_iteOpt (fun _ => ?_) (fun _ => ?_)
    | with_reducible refine only_iteOptFst (fun _ => ?_) (fun _ => ?_)
    | with_reducible refine only_getD ?_ ?_
    | with_reducible refine only_mapOpt ?_ (fun _ _ => ?_)
    | with_reducible refine only_mapState ?_ (fun _ _ => ?_)
    | with_reducible refine only_mapFst ?_ (fun _ _ => ?_)
    | with_reducible refine only_bindFst ?_ (fun _ _ => ?_)
    | with_reducible refine only_foldlOpt ?_ (fun _ _ _ => ?_)
    | with_reducible refine only_someFst ?_
    | with_reducible refine only_some ?_
    | with_reducible apply State.queuePass_only
    | refine only_pair (by with_reducible assumption) ?_
    | refine only_optPair (by with_reducible assumption) ?_
    | refine only_opt (by with_reducible assumption) ?_
    | refine only_outcome (by with_reducible assumption) ?_
    | dsimp only
    | with_reducible intro _
    | split)

theorem State.restoreDirty_only {M : List Field} {s0 s : State} (hS : Only M s0 s)
    (hM : sub [.regs, .scc] M = true) (l : Line) : Only M s0 (State.restoreDirty s l) := by
  unfold State.restoreDirty
  repeat' (first
    | with_reducible exact hS
    | with_reducible assumption
    | exact sub_mono hM rfl
    | exact Or.inl (sub_mono hM rfl)
    | exact Or.inr rfl
    | exact Or.inr ⟨rfl, rfl, rfl, rfl, rfl⟩
    | exact Or.inr (fun k => k)
    | exact Or.inr (fun _ => rfl)
    | with_reducible refine only_ite (fun _ => ?_) (fun _ => ?_)
    | with_reducible apply State.allocate_only
    | with_reducible apply State.putLine_only
    | with_reducible apply only_withScc
    | refine only_pair (by with_reducible assumption) ?_
    | refine only_optPair (by with_reducible assumption) ?_
    | refine only_opt (by with_reducible assumption) ?_
    | refine only_outcome (by with_reducible assumption) ?_
    | dsimp only
    | with_reducible intro _
    | split)

theorem State.lineError_only {M : List Field} {s0 s : State} (hS : Only M s0 s)
    (hM : sub [.gcs, .regs, .flt, .sources, .first, .sets, .cht, .log, .wch, .rings, .ios, .dcmds, .ports, .portGroups, .rowOps, .commits, .clusters, .scc, .interp, .mon, .pair, .chn, .hpus, .out] M = true) (i : Nat) (corrected : Bool) : Only M s0 (State.lineError s i corrected) := by
  unfold State.lineError
  repeat' (first
    | with_reducible exact hS
    | with_reducible assumption
    | exact sub_mono hM rfl
    | exact Or.inl (sub_mono hM rfl)
    | exact Or.inr rfl
    | exact Or.inr ⟨rfl, rfl, rfl, rfl, rfl⟩
    | exact Or.inr (fun k => k)
    | exact Or.inr (fun _ => rfl)
    | with_reducible refine only_ite (fun _ => ?_) (fun _ => ?_)
    | with_reducible apply State.allocate_only
    | with_reducible apply State.raise_only
    | with_reducible apply State.restoreDirty_only
    | with_reducible apply State.setLine_only
    | with_reducible apply only_withScc
    | refine only_pair (by with_reducible assumption) ?_
    | refine only_optPair (by with_reducible assumption) ?_
    | refine only_opt (by with_reducible assumption) ?_
    | refine only_outcome (by with_reducible assumption) ?_
    | dsimp only
    | with_reducible intro _
    | split)

theorem State.slotError_only {M : List Field} {s0 s : State} (hS : Only M s0 s)
    (hM : sub [.gcs, .regs, .flt, .sources, .first, .sets, .cht, .log, .wch, .rings, .ios, .dcmds, .ports, .portGroups, .rowOps, .commits, .clusters, .scc, .interp, .mon, .pair, .chn, .hpus, .out] M = true) (t : Nat) (stamp : Bool) : Only M s0 (State.slotError s t stamp) := by
  unfold State.slotError
  repeat' (first
    | with_reducible exact hS
    | with_reducible assumption
    | exact sub_mono hM rfl
    | exact Or.inl (sub_mono hM rfl)
    | exact Or.inr rfl
    | exact Or.inr ⟨rfl, rfl, rfl, rfl, rfl⟩
    | exact Or.inr (fun k => k)
    | exact Or.inr (fun _ => rfl)
    | with_reducible refine only_ite (fun _ => ?_) (fun _ => ?_)
    | with_reducible apply State.raise_only
    | with_reducible apply State.restoreDirty_only
    | with_reducible apply State.setSlot_only
    | refine only_pair (by with_reducible assumption) ?_
    | refine only_optPair (by with_reducible assumption) ?_
    | refine only_opt (by with_reducible assumption) ?_
    | refine only_outcome (by with_reducible assumption) ?_
    | dsimp only
    | with_reducible intro _
    | split)

theorem State.matrixError_only {M : List Field} {s0 s : State} (hS : Only M s0 s)
    (hM : sub [.gcs, .regs, .flt, .sources, .first, .sets, .cht, .log, .wch, .rings, .ios, .dcmds, .ports, .portGroups, .rowOps, .commits, .clusters, .scc, .interp, .mon, .pair, .chn, .hpus, .out] M = true) (c : Bool) (key : BitVec 6 × Word64) : Only M s0 (State.matrixError s c key) := by
  unfold State.matrixError
  repeat' (first
    | with_reducible exact hS
    | with_reducible assumption
    | exact sub_mono hM rfl
    | exact Or.inl (sub_mono hM rfl)
    | exact Or.inr rfl
    | exact Or.inr ⟨rfl, rfl, rfl, rfl, rfl⟩
    | exact Or.inr (fun k => k)
    | exact Or.inr (fun _ => rfl)
    | with_reducible refine only_ite (fun _ => ?_) (fun _ => ?_)
    | with_reducible apply State.modCluster_only
    | with_reducible apply State.raise_only
    | refine only_pair (by with_reducible assumption) ?_
    | refine only_optPair (by with_reducible assumption) ?_
    | refine only_opt (by with_reducible assumption) ?_
    | refine only_outcome (by with_reducible assumption) ?_
    | dsimp only
    | with_reducible intro _
    | split)

theorem State.wordErrors_only {M : List Field} {s0 s : State} (hS : Only M s0 s)
    (hM : sub [.gcs, .regs, .flt, .sources, .first, .sets, .cht, .log, .wch, .rings, .ios, .dcmds, .ports, .portGroups, .rowOps, .commits, .clusters, .scc, .interp, .mon, .pair, .chn, .hpus, .out] M = true) (errs : List WordError) : Only M s0 (State.wordErrors s errs) := by
  unfold State.wordErrors
  repeat' (first
    | with_reducible exact hS
    | with_reducible assumption
    | exact sub_mono hM rfl
    | exact Or.inl (sub_mono hM rfl)
    | exact Or.inr rfl
    | exact Or.inr ⟨rfl, rfl, rfl, rfl, rfl⟩
    | exact Or.inr (fun k => k)
    | exact Or.inr (fun _ => rfl)
    | with_reducible refine only_ite (fun _ => ?_) (fun _ => ?_)
    | with_reducible apply State.lineError_only
    | with_reducible apply State.matrixError_only
    | with_reducible apply State.slotError_only
    | with_reducible refine only_foldl ?_ (fun _ _ _ => ?_)
    | with_reducible refine only_foldlFst ?_ (fun _ _ _ => ?_)
    | refine only_pair (by with_reducible assumption) ?_
    | refine only_optPair (by with_reducible assumption) ?_
    | refine only_opt (by with_reducible assumption) ?_
    | refine only_outcome (by with_reducible assumption) ?_
    | dsimp only
    | with_reducible intro _
    | split)

end Sys2Proof.Machine
end

