-- ==== Sys2Proof/Laws/OnlyRowOps.lean ====
section
/-! SUPPORT. The frame of every operation of Sys2Proof/Machine/RowOps.lean: which parts of the state it may change. -/

set_option linter.unusedTactic false
set_option linter.unreachableTactic false
set_option linter.unusedVariables false

namespace Sys2Proof.Machine

theorem State.commitReads_only {M : List Field} {s0 s : State} (hS : Only M s0 s)
    (hM : sub [.cht, .nextId] M = true) (c : CommitOp) (a0 : List (Nat × Nat)) : Only M s0 (State.commitReads s c a0).1 := by
  induction a0 generalizing s  c with
  | nil =>
    unfold State.commitReads
    repeat' (first
      | with_reducible exact hS
      | with_reducible assumption
      | exact sub_mono hM rfl
      | exact Or.inl (sub_mono hM rfl)
      | exact Or.inr rfl
      | exact Or.inr ⟨rfl, rfl, rfl, rfl, rfl⟩
      | exact Or.inr (fun k => k)
      | exact Or.inr (fun _ => rfl)
      | with_reducible refine only_ite (fun _ => ?_) (fun _ => ?_)
      | with_reducible refine only_iteFst (fun _ => ?_) (fun _ => ?_)
      | with_reducible apply State.requestRead_only
      | refine only_pair (by with_reducible assumption) ?_
      | refine only_optPair (by with_reducible assumption) ?_
      | refine only_opt (by with_reducible assumption) ?_
      | refine only_outcome (by with_reducible assumption) ?_
      | dsimp only
      | with_reducible intro _
      | cases ‹_ :: _ = _ :: _›
      | split)
  | cons x l ih =>
    unfold State.commitReads
    repeat' (first
      | with_reducible exact hS
      | with_reducible assumption
      | with_reducible apply ih
      | exact sub_mono hM rfl
      | exact Or.inl (sub_mono hM rfl)
      | exact Or.inr rfl
      | exact Or.inr ⟨rfl, rfl, rfl, rfl, rfl⟩
      | exact Or.inr (fun k => k)
      | exact Or.inr (fun _ => rfl)
      | with_reducible refine only_ite (fun _ => ?_) (fun _ => ?_)
      | with_reducible refine only_iteFst (fun _ => ?_) (fun _ => ?_)
      | with_reducible apply State.requestRead_only
      | refine only_pair (by with_reducible assumption) ?_
      | refine only_optPair (by with_reducible assumption) ?_
      | refine only_opt (by with_reducible assumption) ?_
      | refine only_outcome (by with_reducible assumption) ?_
      | dsimp only
      | with_reducible intro _
      | cases ‹_ :: _ = _ :: _›
      | split)

theorem State.commitStore_only {M : List Field} {s0 s : State} (hS : Only M s0 s)
    (hM : sub [.gcs, .regs, .flt, .sources, .first, .sets, .cht, .log, .wch, .rings, .ios, .nextId, .dcmds, .ports, .portGroups, .rowOps, .commits, .clusters, .scc, .interp, .mon, .pair, .chn, .hpus, .out] M = true) (c : CommitOp) (seq : Nat) : Only M s0 (State.commitStore s c seq) := by
  unfold State.commitStore
  repeat' (first
    | with_reducible exact hS
    | with_reducible assumption
    | exact sub_mono hM rfl
    | exact Or.inl (sub_mono hM rfl)
    | exact Or.inr rfl
    | exact Or.inr ⟨rfl, rfl, rfl, rfl, rfl⟩
    | exact Or.inr (fun k => k)
    | exact Or.inr (fun _ => rfl)
    | with_reducible refine only_ite (fun _ => ?_) (fun _ => ?_)
    | with_reducible exact only_none
    | with_reducible refine only_iteOpt (fun _ => ?_) (fun _ => ?_)
    | with_reducible refine only_iteOptFst (fun _ => ?_) (fun _ => ?_)
    | with_reducible refine only_getD ?_ ?_
    | with_reducible refine only_mapOpt ?_ (fun _ _ => ?_)
    | with_reducible refine only_mapState ?_ (fun _ _ => ?_)
    | with_reducible refine only_mapFst ?_ (fun _ _ => ?_)
    | with_reducible refine only_bindFst ?_ (fun _ _ => ?_)
    | with_reducible refine only_foldlOpt ?_ (fun _ _ _ => ?_)
    | with_reducible refine only_someFst ?_
    | with_reducible refine only_some ?_
    | with_reducible apply State.commitStuck_only
    | with_reducible apply State.driveWrite_only
    | with_reducible apply State.modRec_only
    | with_reducible apply State.stripeBearings_only
    | with_reducible refine only_foldl ?_ (fun _ _ _ => ?_)
    | with_reducible refine only_foldlFst ?_ (fun _ _ _ => ?_)
    | refine only_pair (by with_reducible assumption) ?_
    | refine only_optPair (by with_reducible assumption) ?_
    | refine only_opt (by with_reducible assumption) ?_
    | refine only_outcome (by with_reducible assumption) ?_
    | dsimp only
    | with_reducible intro _
    | split)

theorem State.commitCoded_only {M : List Field} {s0 s : State} (hS : Only M s0 s)
    (hM : sub [.gcs, .regs, .flt, .sources, .first, .sets, .cht, .log, .wch, .rings, .ios, .nextId, .dcmds, .ports, .portGroups, .rowOps, .commits, .clusters, .scc, .interp, .mon, .pair, .chn, .hpus, .out] M = true) (c : CommitOp) (parity : List (Nat × Nat × Bytes)) : Only M s0 (State.commitCoded s c parity) := by
  unfold State.commitCoded
  repeat' (first
    | with_reducible exact hS
    | with_reducible assumption
    | exact sub_mono hM rfl
    | exact Or.inl (sub_mono hM rfl)
    | exact Or.inr rfl
    | exact Or.inr ⟨rfl, rfl, rfl, rfl, rfl⟩
    | exact Or.inr (fun k => k)
    | exact Or.inr (fun _ => rfl)
    | with_reducible refine only_ite (fun _ => ?_) (fun _ => ?_)
    | with_reducible apply State.appendRec_only
    | with_reducible apply State.commitStore_only
    | with_reducible apply State.setCommit_only
    | with_reducible apply only_withLog
    | refine only_pair (by with_reducible assumption) ?_
    | refine only_optPair (by with_reducible assumption) ?_
    | refine only_opt (by with_reducible assumption) ?_
    | refine only_outcome (by with_reducible assumption) ?_
    | dsimp only
    | with_reducible intro _
    | split)

theorem State.commitToRw_only {M : List Field} {s0 s : State} (hS : Only M s0 s)
    (hM : sub [.cht, .nextId, .commits, .passes] M = true) (c : CommitOp) : Only M s0 (State.commitToRw s c) := by
  unfold State.commitToRw
  repeat' (first
    | with_reducible exact hS
    | with_reducible assumption
    | exact sub_mono hM rfl
    | exact Or.inl (sub_mono hM rfl)
    | exact Or.inr rfl
    | exact Or.inr ⟨rfl, rfl, rfl, rfl, rfl⟩
    | exact Or.inr (fun k => k)
    | exact Or.inr (fun _ => rfl)
    | with_reducible refine only_ite (fun _ => ?_) (fun _ => ?_)
    | with_reducible apply State.commitPass_only
    | with_reducible apply State.commitReads_only
    | with_reducible apply State.setCommit_only
    | refine only_pair (by with_reducible assumption) ?_
    | refine only_optPair (by with_reducible assumption) ?_
    | refine only_opt (by with_reducible assumption) ?_
    | refine only_outcome (by with_reducible assumption) ?_
    | dsimp only
    | with_reducible intro _
    | split)

theorem State.commitReady_only {M : List Field} {s0 s : State} (hS : Only M s0 s)
    (hM : sub [.gcs, .regs, .flt, .sources, .first, .sets, .cht, .log, .wch, .rings, .ios, .nextId, .dcmds, .ports, .portGroups, .rowOps, .commits, .passes, .clusters, .scc, .interp, .mon, .pair, .chn, .hpus, .out] M = true) (c : CommitOp) : Only M s0 (State.commitReady s c) := by
  unfold State.commitReady
  repeat' (first
    | with_reducible exact hS
    | with_reducible assumption
    | exact sub_mono hM rfl
    | exact Or.inl (sub_mono hM rfl)
    | exact Or.inr rfl
    | exact Or.inr ⟨rfl, rfl, rfl, rfl, rfl⟩
    | exact Or.inr (fun k => k)
    | exact Or.inr (fun _ => rfl)
    | with_reducible refine only_ite (fun _ => ?_) (fun _ => ?_)
    | with_reducible apply State.commitCoded_only
    | with_reducible apply State.commitPass_only
    | with_reducible apply State.commitToRw_only
    | refine only_pair (by with_reducible assumption) ?_
    | refine only_optPair (by with_reducible assumption) ?_
    | refine only_opt (by with_reducible assumption) ?_
    | refine only_outcome (by with_reducible assumption) ?_
    | dsimp only
    | with_reducible intro _
    | split)

theorem State.commitSwitch_only {M : List Field} {s0 s : State} (hS : Only M s0 s)
    (hM : sub [.gcs, .regs, .flt, .sources, .first, .sets, .cht, .log, .wch, .rings, .ios, .nextId, .dcmds, .ports, .portGroups, .rowOps, .commits, .passes, .clusters, .scc, .interp, .mon, .pair, .chn, .hpus, .out] M = true) (c : CommitOp) : Only M s0 (State.commitSwitch s c) := by
  unfold State.commitSwitch
  repeat' (first
    | with_reducible exact hS
    | with_reducible assumption
    | exact sub_mono hM rfl
    | exact Or.inl (sub_mono hM rfl)
    | exact Or.inr rfl
    | exact Or.inr ⟨rfl, rfl, rfl, rfl, rfl⟩
    | exact Or.inr (fun k => k)
    | exact Or.inr (fun _ => rfl)
    | with_reducible refine only_ite (fun _ => ?_) (fun _ => ?_)
    | with_reducible apply State.commitReads_only
    | with_reducible apply State.commitReady_only
    | with_reducible apply State.commitToRw_only
    | with_reducible apply State.setCommit_only
    | refine only_pair (by with_reducible assumption) ?_
    | refine only_optPair (by with_reducible assumption) ?_
    | refine only_opt (by with_reducible assumption) ?_
    | refine only_outcome (by with_reducible assumption) ?_
    | dsimp only
    | with_reducible intro _
    | split)

theorem State.deliverPreserved_only {M : List Field} {s0 s : State} (hS : Only M s0 s)
    (hM : sub [.regs, .rings, .interp, .scratch, .hpus, .freeCount, .out] M = true) (d : Deferred) : Only M s0 (State.deliverPreserved s d) := by
  unfold State.deliverPreserved
  repeat' (first
    | with_reducible exact hS
    | with_reducible assumption
    | exact sub_mono hM rfl
    | exact Or.inl (sub_mono hM rfl)
    | exact Or.inr rfl
    | exact Or.inr ⟨rfl, rfl, rfl, rfl, rfl⟩
    | exact Or.inr (fun k => k)
    | exact Or.inr (fun _ => rfl)
    | with_reducible refine only_ite (fun _ => ?_) (fun _ => ?_)
    | with_reducible apply State.endDeferred_only
    | with_reducible apply State.freeByte_only
    | with_reducible apply State.writeBuffer_only
    | with_reducible refine only_foldl ?_ (fun _ _ _ => ?_)
    | with_reducible refine only_foldlFst ?_ (fun _ _ _ => ?_)
    | refine only_pair (by with_reducible assumption) ?_
    | refine only_optPair (by with_reducible assumption) ?_
    | refine only_opt (by with_reducible assumption) ?_
    | refine only_outcome (by with_reducible assumption) ?_
    | dsimp only
    | with_reducible intro _
    | split)

theorem State.answerPreserved_only {M : List Field} {s0 s : State} (hS : Only M s0 s)
    (hM : sub [.regs, .rings, .interp, .scratch, .hpus, .freeCount, .out] M = true) (id : Nat) (res : Option Bytes) : Only M s0 (State.answerPreserved s id res) := by
  unfold State.answerPreserved
  repeat' (first
    | with_reducible exact hS
    | with_reducible assumption
    | exact sub_mono hM rfl
    | exact Or.inl (sub_mono hM rfl)
    | exact Or.inr rfl
    | exact Or.inr ⟨rfl, rfl, rfl, rfl, rfl⟩
    | exact Or.inr (fun k => k)
    | exact Or.inr (fun _ => rfl)
    | with_reducible refine only_ite (fun _ => ?_) (fun _ => ?_)
    | with_reducible apply State.deliverPreserved_only
    | with_reducible apply only_withInterp
    | refine only_pair (by with_reducible assumption) ?_
    | refine only_optPair (by with_reducible assumption) ?_
    | refine only_opt (by with_reducible assumption) ?_
    | refine only_outcome (by with_reducible assumption) ?_
    | dsimp only
    | with_reducible intro _
    | split)

theorem State.answer_only {M : List Field} {s0 s : State} (hS : Only M s0 s)
    (hM : sub [.gcs, .regs, .flt, .sources, .first, .sets, .cht, .log, .wch, .rings, .ios, .nextId, .dcmds, .ports, .portGroups, .rowOps, .commits, .passes, .clusters, .scc, .dmv, .interp, .scratch, .mon, .pair, .chn, .hpus, .freeCount, .out] M = true) (id : Nat) (res : Option Sector) : Only M s0 (State.answer s id res) := by
  unfold State.answer
  repeat' (first
    | with_reducible exact hS
    | with_reducible assumption
    | exact sub_mono hM rfl
    | exact Or.inl (sub_mono hM rfl)
    | exact Or.inr rfl
    | exact Or.inr ⟨rfl, rfl, rfl, rfl, rfl⟩
    | exact Or.inr (fun k => k)
    | exact Or.inr (fun _ => rfl)
    | with_reducible refine only_ite (fun _ => ?_) (fun _ => ?_)
    | with_reducible apply State.answerCommits_only
    | with_reducible apply State.answerIos_only
    | with_reducible apply State.answerPreserved_only
    | with_reducible apply State.commitReady_only
    | refine only_pair (by with_reducible assumption) ?_
    | refine only_optPair (by with_reducible assumption) ?_
    | refine only_opt (by with_reducible assumption) ?_
    | refine only_outcome (by with_reducible assumption) ?_
    | dsimp only
    | with_reducible intro _
    | split)

theorem State.rebuildLost_only {M : List Field} {s0 s : State} (hS : Only M s0 s)
    (hM : sub [.gcs, .regs, .flt, .sources, .first, .sets, .cht, .log, .wch, .rings, .ios, .dcmds, .ports, .portGroups, .rowOps, .commits, .clusters, .scc, .interp, .mon, .pair, .chn, .hpus, .out] M = true) (o : RowOp) : Only M s0 (State.rebuildLost s o) := by
  unfold State.rebuildLost
  repeat' (first
    | with_reducible exact hS
    | with_reducible assumption
    | exact sub_mono hM rfl
    | exact Or.inl (sub_mono hM rfl)
    | exact Or.inr rfl
    | exact Or.inr ⟨rfl, rfl, rfl, rfl, rfl⟩
    | exact Or.inr (fun k => k)
    | exact Or.inr (fun _ => rfl)
    | with_reducible refine only_ite (fun _ => ?_) (fun _ => ?_)
    | with_reducible exact only_none
    | with_reducible refine only_iteOpt (fun _ => ?_) (fun _ => ?_)
    | with_reducible refine only_iteOptFst (fun _ => ?_) (fun _ => ?_)
    | with_reducible refine only_getD ?_ ?_
    | with_reducible refine only_mapOpt ?_ (fun _ _ => ?_)
    | with_reducible refine only_mapState ?_ (fun _ _ => ?_)
    | with_reducible refine only_mapFst ?_ (fun _ _ => ?_)
    | with_reducible refine only_bindFst ?_ (fun _ _ => ?_)
    | with_reducible refine only_foldlOpt ?_ (fun _ _ _ => ?_)
    | with_reducible refine only_someFst ?_
    | with_reducible refine only_some ?_
    | with_reducible apply State.count64_only
    | with_reducible apply State.mediaFault_only
    | with_reducible apply State.modSet_only
    | with_reducible apply State.post_only
    | with_reducible refine only_foldl ?_ (fun _ _ _ => ?_)
    | with_reducible refine only_foldlFst ?_ (fun _ _ _ => ?_)
    | refine only_pair (by with_reducible assumption) ?_
    | refine only_optPair (by with_reducible assumption) ?_
    | refine only_opt (by with_reducible assumption) ?_
    | refine only_outcome (by with_reducible assumption) ?_
    | dsimp only
    | with_reducible intro _
    | split)

theorem State.lostRow_only {M : List Field} {s0 s : State} (hS : Only M s0 s)
    (hM : sub [.gcs, .regs, .flt, .sources, .first, .sets, .cht, .log, .wch, .rings, .ios, .nextId, .dcmds, .ports, .portGroups, .rowOps, .commits, .passes, .clusters, .scc, .dmv, .interp, .scratch, .mon, .pair, .chn, .hpus, .freeCount, .out] M = true) (o : RowOp) : Only M s0 (State.lostRow s o) := by
  unfold State.lostRow
  repeat' (first
    | with_reducible exact hS
    | with_reducible assumption
    | exact sub_mono hM rfl
    | exact Or.inl (sub_mono hM rfl)
    | exact Or.inr rfl
    | exact Or.inr ⟨rfl, rfl, rfl, rfl, rfl⟩
    | exact Or.inr (fun k => k)
    | exact Or.inr (fun _ => rfl)
    | with_reducible refine only_ite (fun _ => ?_) (fun _ => ?_)
    | with_reducible apply State.answer_only
    | with_reducible apply State.endFill_only
    | with_reducible apply State.modPort_only
    | with_reducible apply State.rebuildLost_only
    | with_reducible apply State.reportLost_only
    | refine only_pair (by with_reducible assumption) ?_
    | refine only_optPair (by with_reducible assumption) ?_
    | refine only_opt (by with_reducible assumption) ?_
    | refine only_outcome (by with_reducible assumption) ?_
    | dsimp only
    | with_reducible intro _
    | split)

theorem State.loseRow_only {M : List Field} {s0 s : State} (hS : Only M s0 s)
    (hM : sub [.gcs, .regs, .flt, .sources, .first, .sets, .cht, .log, .wch, .rings, .ios, .nextId, .dcmds, .ports, .portGroups, .rowOps, .commits, .passes, .clusters, .scc, .dmv, .interp, .scratch, .mon, .pair, .chn, .hpus, .freeCount, .out] M = true) (o : RowOp) : Only M s0 (State.loseRow s o) := by
  unfold State.loseRow
  repeat' (first
    | with_reducible exact hS
    | with_reducible assumption
    | exact sub_mono hM rfl
    | exact Or.inl (sub_mono hM rfl)
    | exact Or.inr rfl
    | exact Or.inr ⟨rfl, rfl, rfl, rfl, rfl⟩
    | exact Or.inr (fun k => k)
    | exact Or.inr (fun _ => rfl)
    | with_reducible refine only_ite (fun _ => ?_) (fun _ => ?_)
    | with_reducible apply State.dropRowOp_only
    | with_reducible apply State.lostRow_only
    | refine only_pair (by with_reducible assumption) ?_
    | refine only_optPair (by with_reducible assumption) ?_
    | refine only_opt (by with_reducible assumption) ?_
    | refine only_outcome (by with_reducible assumption) ?_
    | dsimp only
    | with_reducible intro _
    | split)

theorem State.rowChoose_only {M : List Field} {s0 s : State} (hS : Only M s0 s)
    (hM : sub [.gcs, .regs, .flt, .sources, .first, .sets, .cht, .log, .wch, .rings, .ios, .nextId, .dcmds, .ports, .portGroups, .rowOps, .commits, .passes, .clusters, .scc, .dmv, .interp, .scratch, .mon, .pair, .chn, .hpus, .freeCount, .out] M = true) (o : RowOp) : Only M s0 (State.rowChoose s o) := by
  unfold State.rowChoose
  repeat' (first
    | with_reducible exact hS
    | with_reducible assumption
    | exact sub_mono hM rfl
    | exact Or.inl (sub_mono hM rfl)
    | exact Or.inr rfl
    | exact Or.inr ⟨rfl, rfl, rfl, rfl, rfl⟩
    | exact Or.inr (fun k => k)
    | exact Or.inr (fun _ => rfl)
    | with_reducible refine only_ite (fun _ => ?_) (fun _ => ?_)
    | with_reducible exact only_none
    | with_reducible refine only_iteOpt (fun _ => ?_) (fun _ => ?_)
    | with_reducible refine only_iteOptFst (fun _ => ?_) (fun _ => ?_)
    | with_reducible refine only_getD ?_ ?_
    | with_reducible refine only_mapOpt ?_ (fun _ _ => ?_)
    | with_reducible refine only_mapState ?_ (fun _ _ => ?_)
    | with_reducible refine only_mapFst ?_ (fun _ _ => ?_)
    | with_reducible refine only_bindFst ?_ (fun _ _ => ?_)
    | with_reducible refine only_foldlOpt ?_ (fun _ _ _ => ?_)
    | with_reducible refine only_someFst ?_
    | with_reducible refine only_some ?_
    | with_reducible apply State.loseRow_only
    | with_reducible apply State.matrixLookup_only
    | with_reducible apply State.rowReads_only
    | with_reducible apply State.setRowOp_only
    | refine only_pair (by with_reducible assumption) ?_
    | refine only_optPair (by with_reducible assumption) ?_
    | refine only_opt (by with_reducible assumption) ?_
    | refine only_outcome (by with_reducible assumption) ?_
    | dsimp only
    | with_reducible intro _
    | split)

theorem State.insertSurvivors_only {M : List Field} {s0 s : State} (hS : Only M s0 s)
    (hM : sub [.regs, .scc] M = true) (o : RowOp) : Only M s0 (State.insertSurvivors s o) := by
  unfold State.insertSurvivors
  repeat' (first
    | with_reducible exact hS
    | with_reducible assumption
    | exact sub_mono hM rfl
    | exact Or.inl (sub_mono hM rfl)
    | exact Or.inr rfl
    | exact Or.inr ⟨rfl, rfl, rfl, rfl, rfl⟩
    | exact Or.inr (fun k => k)
    | exact Or.inr (fun _ => rfl)
    | with_reducible refine only_ite (fun _ => ?_) (fun _ => ?_)
    | with_reducible apply State.insertClean_only
    | with_reducible refine only_foldl ?_ (fun _ _ _ => ?_)
    | with_reducible refine only_foldlFst ?_ (fun _ _ _ => ?_)
    | refine only_pair (by with_reducible assumption) ?_
    | refine only_optPair (by with_reducible assumption) ?_
    | refine only_opt (by with_reducible assumption) ?_
    | refine only_outcome (by with_reducible assumption) ?_
    | dsimp only
    | with_reducible intro _
    | split)

theorem State.catchupRead_only {M : List Field} {s0 s : State} (hS : Only M s0 s)
    (hM : sub [.nextId, .dcmds, .ports, .out] M = true) (set : BitVec 6) (stripe : Nat) (frag : Nat) (row : Nat) (port : Byte) (dba : Nat) : Only M s0 (State.catchupRead s set stripe frag row port dba) := by
  unfold State.catchupRead
  repeat' (first
    | with_reducible exact hS
    | with_reducible assumption
    | exact sub_mono hM rfl
    | exact Or.inl (sub_mono hM rfl)
    | exact Or.inr rfl
    | exact Or.inr ⟨rfl, rfl, rfl, rfl, rfl⟩
    | exact Or.inr (fun k => k)
    | exact Or.inr (fun _ => rfl)
    | with_reducible refine only_ite (fun _ => ?_) (fun _ => ?_)
    | with_reducible apply State.submit_only
    | with_reducible apply only_withNextId
    | refine only_pair (by with_reducible assumption) ?_
    | refine only_optPair (by with_reducible assumption) ?_
    | refine only_opt (by with_reducible assumption) ?_
    | refine only_outcome (by with_reducible assumption) ?_
    | dsimp only
    | with_reducible intro _
    | split)

theorem State.catchupStore_only {M : List Field} {s0 s : State} (hS : Only M s0 s)
    (hM : sub [.regs, .sets, .nextId, .dcmds, .ports, .rowOps, .out] M = true) (o : RowOp) (data : Bytes) : Only M s0 (State.catchupStore s o data) := by
  unfold State.catchupStore
  repeat' (first
    | with_reducible exact hS
    | with_reducible assumption
    | exact sub_mono hM rfl
    | exact Or.inl (sub_mono hM rfl)
    | exact Or.inr rfl
    | exact Or.inr ⟨rfl, rfl, rfl, rfl, rfl⟩
    | exact Or.inr (fun k => k)
    | exact Or.inr (fun _ => rfl)
    | with_reducible refine only_ite (fun _ => ?_) (fun _ => ?_)
    | with_reducible exact only_none
    | with_reducible refine only_iteOpt (fun _ => ?_) (fun _ => ?_)
    | with_reducible refine only_iteOptFst (fun _ => ?_) (fun _ => ?_)
    | with_reducible refine only_getD ?_ ?_
    | with_reducible refine only_mapOpt ?_ (fun _ _ => ?_)
    | with_reducible refine only_mapState ?_ (fun _ _ => ?_)
    | with_reducible refine only_mapFst ?_ (fun _ _ => ?_)
    | with_reducible refine only_bindFst ?_ (fun _ _ => ?_)
    | with_reducible refine only_foldlOpt ?_ (fun _ _ _ => ?_)
    | with_reducible refine only_someFst ?_
    | with_reducible refine only_some ?_
    | with_reducible apply State.catchupRead_only
    | with_reducible apply State.restoreWrite_only
    | refine only_pair (by with_reducible assumption) ?_
    | refine only_optPair (by with_reducible assumption) ?_
    | refine only_opt (by with_reducible assumption) ?_
    | refine only_outcome (by with_reducible assumption) ?_
    | dsimp only
    | with_reducible intro _
    | split)

theorem State.acceptRow_only {M : List Field} {s0 s : State} (hS : Only M s0 s)
    (hM : sub [.gcs, .regs, .flt, .sources, .first, .sets, .cht, .log, .wch, .rings, .ios, .nextId, .dcmds, .ports, .portGroups, .rowOps, .commits, .passes, .arbitrating, .clusters, .scc, .dmv, .interp, .scratch, .mon, .pair, .chn, .hpus, .freeCount, .out] M = true) (o : RowOp) (data : Bytes) (prediction : Option Bytes) (repairs : List (Nat × Bytes)) : Only M s0 (State.acceptRow s o data prediction repairs) := by
  unfold State.acceptRow
  repeat' (first
    | with_reducible exact hS
    | with_reducible assumption
    | exact sub_mono hM rfl
    | exact Or.inl (sub_mono hM rfl)
    | exact Or.inr rfl
    | exact Or.inr ⟨rfl, rfl, rfl, rfl, rfl⟩
    | exact Or.inr (fun k => k)
    | exact Or.inr (fun _ => rfl)
    | with_reducible refine only_ite (fun _ => ?_) (fun _ => ?_)
    | with_reducible exact only_none
    | with_reducible refine only_iteOpt (fun _ => ?_) (fun _ => ?_)
    | with_reducible refine only_iteOptFst (fun _ => ?_) (fun _ => ?_)
    | with_reducible refine only_getD ?_ ?_
    | with_reducible refine only_mapOpt ?_ (fun _ _ => ?_)
    | with_reducible refine only_mapState ?_ (fun _ _ => ?_)
    | with_reducible refine only_mapFst ?_ (fun _ _ => ?_)
    | with_reducible refine only_bindFst ?_ (fun _ _ => ?_)
    | with_reducible refine only_foldlOpt ?_ (fun _ _ _ => ?_)
    | with_reducible refine only_someFst ?_
    | with_reducible refine only_some ?_
    | with_reducible apply State.answer_only
    | with_reducible apply State.arbitrate_only
    | with_reducible apply State.catchupStore_only
    | with_reducible apply State.count64_only
    | with_reducible apply State.dropRowOp_only
    | with_reducible apply State.endFill_only
    | with_reducible apply State.insertClean_only
    | with_reducible apply State.insertSurvivors_only
    | with_reducible apply State.rebuildStore_only
    | with_reducible apply State.restoreWrite_only
    | with_reducible apply State.setRowOp_only
    | with_reducible refine only_foldl ?_ (fun _ _ _ => ?_)
    | with_reducible refine only_foldlFst ?_ (fun _ _ _ => ?_)
    | refine only_pair (by with_reducible assumption) ?_
    | refine only_optPair (by with_reducible assumption) ?_
    | refine only_opt (by with_reducible assumption) ?_
    | refine only_outcome (by with_reducible assumption) ?_
    | dsimp only
    | with_reducible intro _
    | split)

theorem State.rowPass_only {M : List Field} {s0 s : State} (hS : Only M s0 s)
    (hM : sub [.gcs, .regs, .flt, .sources, .first, .sets, .cht, .log, .wch, .rings, .ios, .nextId, .dcmds, .ports, .portGroups, .rowOps, .commits, .passes, .clusters, .scc, .dmv, .interp, .scratch, .mon, .pair, .chn, .hpus, .freeCount, .out] M = true) (o : RowOp) (p : Profile) : Only M s0 (State.rowPass s o p) := by
  unfold State.rowPass
  repeat' (first
    | with_reducible exact hS
    | with_reducible assumption
    | exact sub_mono hM rfl
    | exact Or.inl (sub_mono hM rfl)
    | exact Or.inr rfl
    | exact Or.inr ⟨rfl, rfl, rfl, rfl, rfl⟩
    | exact Or.inr (fun k => k)
    | exact Or.inr (fun _ => rfl)
    | with_reducible refine only_ite (fun _ => ?_) (fun _ => ?_)
    | with_reducible exact only_none
    | with_reducible refine only_iteOpt (fun _ => ?_) (fun _ => ?_)
    | with_reducible refine only_iteOptFst (fun _ => ?_) (fun _ => ?_)
    | with_reducible refine only_getD ?_ ?_
    | with_reducible refine only_mapOpt ?_ (fun _ _ => ?_)
    | with_reducible refine only_mapState ?_ (fun _ _ => ?_)
    | with_reducible refine only_mapFst ?_ (fun _ _ => ?_)
    | with_reducible refine only_bindFst ?_ (fun _ _ => ?_)
    | with_reducible refine only_foldlOpt ?_ (fun _ _ _ => ?_)
    | with_reducible refine only_someFst ?_
    | with_reducible refine only_some ?_
    | with_reducible apply State.loseRow_only
    | with_reducible apply State.queuePass_only
    | with_reducible apply State.setRowOp_only
    | refine only_pair (by with_reducible assumption) ?_
    | refine only_optPair (by with_reducible assumption) ?_
    | refine only_opt (by with_reducible assumption) ?_
    | refine only_outcome (by with_reducible assumption) ?_
    | dsimp only
    | with_reducible intro _
    | split)

theorem State.rowDecode_only {M : List Field} {s0 s : State} (hS : Only M s0 s)
    (hM : sub [.gcs, .regs, .flt, .sources, .first, .sets, .cht, .log, .wch, .rings, .ios, .nextId, .dcmds, .ports, .portGroups, .rowOps, .commits, .passes, .arbitrating, .clusters, .scc, .dmv, .interp, .scratch, .mon, .pair, .chn, .hpus, .freeCount, .out] M = true) (o : RowOp) (a0 : Nat) : Only M s0 (State.rowDecode s o a0) := by
  induction a0 generalizing s  o with
  | zero =>
    unfold State.rowDecode
    repeat' (first
      | with_reducible exact hS
      | with_reducible assumption
      | exact sub_mono hM rfl
      | exact Or.inl (sub_mono hM rfl)
      | exact Or.inr rfl
      | exact Or.inr ⟨rfl, rfl, rfl, rfl, rfl⟩
      | exact Or.inr (fun k => k)
      | exact Or.inr (fun _ => rfl)
      | with_reducible refine only_ite (fun _ => ?_) (fun _ => ?_)
      | with_reducible exact only_none
      | with_reducible refine only_iteOpt (fun _ => ?_) (fun _ => ?_)
      | with_reducible refine only_iteOptFst (fun _ => ?_) (fun _ => ?_)
      | with_reducible refine only_getD ?_ ?_
      | with_reducible refine only_mapOpt ?_ (fun _ _ => ?_)
      | with_reducible refine only_mapState ?_ (fun _ _ => ?_)
      | with_reducible refine only_mapFst ?_ (fun _ _ => ?_)
      | with_reducible refine only_bindFst ?_ (fun _ _ => ?_)
      | with_reducible refine only_foldlOpt ?_ (fun _ _ _ => ?_)
      | with_reducible refine only_someFst ?_
      | with_reducible refine only_some ?_
      | with_reducible apply State.acceptRow_only
      | with_reducible apply State.arbitrate_only
      | with_reducible apply State.rowChoose_only
      | with_reducible apply State.rowPass_only
      | with_reducible apply State.sectorFault_only
      | with_reducible apply State.setRowOp_only
      | with_reducible refine only_foldl ?_ (fun _ _ _ => ?_)
      | with_reducible refine only_foldlFst ?_ (fun _ _ _ => ?_)
      | refine only_pair (by with_reducible assumption) ?_
      | refine only_optPair (by with_reducible assumption) ?_
      | refine only_opt (by with_reducible assumption) ?_
      | refine only_outcome (by with_reducible assumption) ?_
      | dsimp only
      | with_reducible intro _
      | cases ‹_ + 1 = Nat.succ _›
      | split)
  | succ n ih =>
    unfold State.rowDecode
    repeat' (first
      | with_reducible exact hS
      | with_reducible assumption
      | with_reducible apply ih
      | exact sub_mono hM rfl
      | exact Or.inl (sub_mono hM rfl)
      | exact Or.inr rfl
      | exact Or.inr ⟨rfl, rfl, rfl, rfl, rfl⟩
      | exact Or.inr (fun k => k)
      | exact Or.inr (fun _ => rfl)
      | with_reducible refine only_ite (fun _ => ?_) (fun _ => ?_)
      | with_reducible exact only_none
      | with_reducible refine only_iteOpt (fun _ => ?_) (fun _ => ?_)
      | with_reducible refine only_iteOptFst (fun _ => ?_) (fun _ => ?_)
      | with_reducible refine only_getD ?_ ?_
      | with_reducible refine only_mapOpt ?_ (fun _ _ => ?_)
      | with_reducible refine only_mapState ?_ (fun _ _ => ?_)
      | with_reducible refine only_mapFst ?_ (fun _ _ => ?_)
      | with_reducible refine only_bindFst ?_ (fun _ _ => ?_)
      | with_reducible refine only_foldlOpt ?_ (fun _ _ _ => ?_)
      | with_reducible refine only_someFst ?_
      | with_reducible refine only_some ?_
      | with_reducible apply State.acceptRow_only
      | with_reducible apply State.arbitrate_only
      | with_reducible apply State.rowChoose_only
      | with_reducible apply State.rowPass_only
      | with_reducible apply State.sectorFault_only
      | with_reducible apply State.setRowOp_only
      | with_reducible refine only_foldl ?_ (fun _ _ _ => ?_)
      | with_reducible refine only_foldlFst ?_ (fun _ _ _ => ?_)
      | refine only_pair (by with_reducible assumption) ?_
      | refine only_optPair (by with_reducible assumption) ?_
      | refine only_opt (by with_reducible assumption) ?_
      | refine only_outcome (by with_reducible assumption) ?_
      | dsimp only
      | with_reducible intro _
      | cases ‹_ + 1 = Nat.succ _›
      | split)

theorem State.rowBlank_only {M : List Field} {s0 s : State} (hS : Only M s0 s)
    (hM : sub [.gcs, .regs, .flt, .sources, .first, .sets, .cht, .log, .wch, .rings, .ios, .nextId, .dcmds, .ports, .portGroups, .rowOps, .commits, .passes, .arbitrating, .clusters, .scc, .dmv, .interp, .scratch, .mon, .pair, .chn, .hpus, .freeCount, .out] M = true) (o : RowOp) : Only M s0 (State.rowBlank s o) := by
  unfold State.rowBlank
  repeat' (first
    | with_reducible exact hS
    | with_reducible assumption
    | exact sub_mono hM rfl
    | exact Or.inl (sub_mono hM rfl)
    | exact Or.inr rfl
    | exact Or.inr ⟨rfl, rfl, rfl, rfl, rfl⟩
    | exact Or.inr (fun k => k)
    | exact Or.inr (fun _ => rfl)
    | with_reducible refine only_ite (fun _ => ?_) (fun _ => ?_)
    | with_reducible apply State.answer_only
    | with_reducible apply State.dropRowOp_only
    | with_reducible apply State.endFill_only
    | with_reducible apply State.loseRow_only
    | with_reducible apply State.rowChoose_only
    | with_reducible apply State.rowDecode_only
    | with_reducible apply State.sectorFault_only
    | with_reducible refine only_foldl ?_ (fun _ _ _ => ?_)
    | with_reducible refine only_foldlFst ?_ (fun _ _ _ => ?_)
    | refine only_pair (by with_reducible assumption) ?_
    | refine only_optPair (by with_reducible assumption) ?_
    | refine only_opt (by with_reducible assumption) ?_
    | refine only_outcome (by with_reducible assumption) ?_
    | dsimp only
    | with_reducible intro _
    | split)

theorem State.rowVerify_only {M : List Field} {s0 s : State} (hS : Only M s0 s)
    (hM : sub [.gcs, .regs, .flt, .sources, .first, .sets, .cht, .log, .wch, .rings, .ios, .nextId, .dcmds, .ports, .portGroups, .rowOps, .commits, .passes, .arbitrating, .clusters, .scc, .dmv, .interp, .scratch, .mon, .pair, .chn, .hpus, .freeCount, .out] M = true) (o : RowOp) : Only M s0 (State.rowVerify s o) := by
  unfold State.rowVerify
  repeat' (first
    | with_reducible exact hS
    | with_reducible assumption
    | exact sub_mono hM rfl
    | exact Or.inl (sub_mono hM rfl)
    | exact Or.inr rfl
    | exact Or.inr ⟨rfl, rfl, rfl, rfl, rfl⟩
    | exact Or.inr (fun k => k)
    | exact Or.inr (fun _ => rfl)
    | with_reducible refine only_ite (fun _ => ?_) (fun _ => ?_)
    | with_reducible apply State.answer_only
    | with_reducible apply State.arbitrate_only
    | with_reducible apply State.dropRowOp_only
    | with_reducible apply State.setRowOp_only
    | refine only_pair (by with_reducible assumption) ?_
    | refine only_optPair (by with_reducible assumption) ?_
    | refine only_opt (by with_reducible assumption) ?_
    | refine only_outcome (by with_reducible assumption) ?_
    | dsimp only
    | with_reducible intro _
    | split)

theorem State.rowSealCheck_only {M : List Field} {s0 s : State} (hS : Only M s0 s)
    (hM : sub [.gcs, .regs, .flt, .sources, .first, .sets, .cht, .log, .wch, .rings, .ios, .nextId, .dcmds, .ports, .portGroups, .rowOps, .commits, .passes, .arbitrating, .clusters, .scc, .dmv, .interp, .scratch, .mon, .pair, .chn, .hpus, .freeCount, .out] M = true) (o : RowOp) : Only M s0 (State.rowSealCheck s o) := by
  unfold State.rowSealCheck
  repeat' (first
    | with_reducible exact hS
    | with_reducible assumption
    | exact sub_mono hM rfl
    | exact Or.inl (sub_mono hM rfl)
    | exact Or.inr rfl
    | exact Or.inr ⟨rfl, rfl, rfl, rfl, rfl⟩
    | exact Or.inr (fun k => k)
    | exact Or.inr (fun _ => rfl)
    | with_reducible refine only_ite (fun _ => ?_) (fun _ => ?_)
    | with_reducible apply State.answer_only
    | with_reducible apply State.arbitrate_only
    | with_reducible apply State.dropRowOp_only
    | with_reducible apply State.endFill_only
    | with_reducible apply State.rowBlank_only
    | with_reducible apply State.rowChoose_only
    | with_reducible apply State.rowDecode_only
    | with_reducible apply State.rowRead_only
    | with_reducible apply State.rowReads_only
    | with_reducible apply State.sectorFault_only
    | with_reducible apply State.setRowOp_only
    | with_reducible refine only_foldl ?_ (fun _ _ _ => ?_)
    | with_reducible refine only_foldlFst ?_ (fun _ _ _ => ?_)
    | refine only_pair (by with_reducible assumption) ?_
    | refine only_optPair (by with_reducible assumption) ?_
    | refine only_opt (by with_reducible assumption) ?_
    | refine only_outcome (by with_reducible assumption) ?_
    | dsimp only
    | with_reducible intro _
    | split)

theorem State.rowStep_only {M : List Field} {s0 s : State} (hS : Only M s0 s)
    (hM : sub [.gcs, .regs, .flt, .sources, .first, .sets, .cht, .log, .wch, .rings, .ios, .nextId, .dcmds, .ports, .portGroups, .rowOps, .commits, .passes, .arbitrating, .clusters, .scc, .dmv, .interp, .scratch, .mon, .pair, .chn, .hpus, .freeCount, .out] M = true) (id : Nat) : Only M s0 (State.rowStep s id) := by
  unfold State.rowStep
  repeat' (first
    | with_reducible exact hS
    | with_reducible assumption
    | exact sub_mono hM rfl
    | exact Or.inl (sub_mono hM rfl)
    | exact Or.inr rfl
    | exact Or.inr ⟨rfl, rfl, rfl, rfl, rfl⟩
    | exact Or.inr (fun k => k)
    | exact Or.inr (fun _ => rfl)
    | with_reducible refine only_ite (fun _ => ?_) (fun _ => ?_)
    | with_reducible apply State.rowBlank_only
    | with_reducible apply State.rowDecode_only
    | with_reducible apply State.rowSealCheck_only
    | with_reducible apply State.rowVerify_only
    | refine only_pair (by with_reducible assumption) ?_
    | refine only_optPair (by with_reducible assumption) ?_
    | refine only_opt (by with_reducible assumption) ?_
    | refine only_outcome (by with_reducible assumption) ?_
    | dsimp only
    | with_reducible intro _
    | split)

theorem State.startRowWith_only {M : List Field} {s0 s : State} (hS : Only M s0 s)
    (hM : sub [.gcs, .regs, .flt, .sources, .first, .sets, .cht, .log, .wch, .rings, .ios, .nextId, .dcmds, .ports, .portGroups, .rowOps, .commits, .passes, .arbitrating, .clusters, .scc, .dmv, .interp, .scratch, .mon, .pair, .chn, .hpus, .freeCount, .out] M = true) (set : BitVec 6) (rev : Revision) (stripe : Nat) (row : Nat) (frag : Nat) (orig : Nat) (mode : RowMode) (purpose : Purpose) (bad : List Nat) (got : List (Nat × Sector)) : Only M s0 (State.startRowWith s set rev stripe row frag orig mode purpose bad got) := by
  unfold State.startRowWith
  repeat' (first
    | with_reducible exact hS
    | with_reducible assumption
    | exact sub_mono hM rfl
    | exact Or.inl (sub_mono hM rfl)
    | exact Or.inr rfl
    | exact Or.inr ⟨rfl, rfl, rfl, rfl, rfl⟩
    | exact Or.inr (fun k => k)
    | exact Or.inr (fun _ => rfl)
    | with_reducible refine only_ite (fun _ => ?_) (fun _ => ?_)
    | with_reducible apply State.rowChoose_only
    | with_reducible apply State.rowReads_only
    | with_reducible apply State.rowStep_only
    | with_reducible apply State.setRowOp_only
    | with_reducible apply only_withNextId
    | with_reducible apply only_withRowOps
    | with_reducible refine only_foldl ?_ (fun _ _ _ => ?_)
    | with_reducible refine only_foldlFst ?_ (fun _ _ _ => ?_)
    | refine only_pair (by with_reducible assumption) ?_
    | refine only_optPair (by with_reducible assumption) ?_
    | refine only_opt (by with_reducible assumption) ?_
    | refine only_outcome (by with_reducible assumption) ?_
    | dsimp only
    | with_reducible intro _
    | split)

theorem State.startRow_only {M : List Field} {s0 s : State} (hS : Only M s0 s)
    (hM : sub [.gcs, .regs, .flt, .sources, .first, .sets, .cht, .log, .wch, .rings, .ios, .nextId, .dcmds, .ports, .portGroups, .rowOps, .commits, .passes, .arbitrating, .clusters, .scc, .dmv, .interp, .scratch, .mon, .pair, .chn, .hpus, .freeCount, .out] M = true) (set : BitVec 6) (rev : Revision) (stripe : Nat) (row : Nat) (frag : Nat) (orig : Nat) (mode : RowMode) (purpose : Purpose) (bad : List Nat) : Only M s0 (State.startRow s set rev stripe row frag orig mode purpose bad) := by
  unfold State.startRow
  repeat' (first
    | with_reducible exact hS
    | with_reducible assumption
    | exact sub_mono hM rfl
    | exact Or.inl (sub_mono hM rfl)
    | exact Or.inr rfl
    | exact Or.inr ⟨rfl, rfl, rfl, rfl, rfl⟩
    | exact Or.inr (fun k => k)
    | exact Or.inr (fun _ => rfl)
    | with_reducible refine only_ite (fun _ => ?_) (fun _ => ?_)
    | with_reducible apply State.startRowWith_only
    | refine only_pair (by with_reducible assumption) ?_
    | refine only_optPair (by with_reducible assumption) ?_
    | refine only_opt (by with_reducible assumption) ?_
    | refine only_outcome (by with_reducible assumption) ?_
    | dsimp only
    | with_reducible intro _
    | split)

theorem State.rowSector_only {M : List Field} {s0 s : State} (hS : Only M s0 s)
    (hM : sub [.gcs, .regs, .flt, .sources, .first, .sets, .cht, .log, .wch, .rings, .ios, .nextId, .dcmds, .ports, .portGroups, .rowOps, .commits, .passes, .arbitrating, .clusters, .scc, .dmv, .interp, .scratch, .mon, .pair, .chn, .hpus, .freeCount, .out] M = true) (id : Nat) (f : Nat) (cls : SectorClass) (x : Option Sector) : Only M s0 (State.rowSector s id f cls x) := by
  unfold State.rowSector
  repeat' (first
    | with_reducible exact hS
    | with_reducible assumption
    | exact sub_mono hM rfl
    | exact Or.inl (sub_mono hM rfl)
    | exact Or.inr rfl
    | exact Or.inr ⟨rfl, rfl, rfl, rfl, rfl⟩
    | exact Or.inr (fun k => k)
    | exact Or.inr (fun _ => rfl)
    | with_reducible refine only_ite (fun _ => ?_) (fun _ => ?_)
    | with_reducible apply State.rowChoose_only
    | with_reducible apply State.rowReads_only
    | with_reducible apply State.rowStep_only
    | with_reducible apply State.sectorFault_only
    | with_reducible apply State.setRowOp_only
    | refine only_pair (by with_reducible assumption) ?_
    | refine only_optPair (by with_reducible assumption) ?_
    | refine only_opt (by with_reducible assumption) ?_
    | refine only_outcome (by with_reducible assumption) ?_
    | dsimp only
    | with_reducible intro _
    | split)

end Sys2Proof.Machine
end

