-- ==== Sys2Proof/Laws/OnlyLookups.lean ====
section
/-! SUPPORT. The frame of every operation of Sys2Proof/Machine/Lookups.lean: which parts of the state it may change. -/

set_option linter.unusedTactic false
set_option linter.unreachableTactic false
set_option linter.unusedVariables false

namespace Sys2Proof.Machine

theorem State.setCtx_only {M : List Field} {s0 s : State} (hS : Only M s0 s)
    (hM : sub [.ctxs] M = true) (c : Nat) (v : SCtx) : Only M s0 (State.setCtx s c v) := by
  unfold State.setCtx
  repeat' (first
    | with_reducible exact hS
    | with_reducible assumption
    | exact sub_mono hM rfl
    | exact Or.inl (sub_mono hM rfl)
    | exact Or.inr rfl
    | exact Or.inr ⟨rfl, rfl, rfl, rfl, rfl⟩
    | exact Or.inr (fun k => k)
    | exact Or.inr (fun _ => rfl)
    | with_reducible refine only_ite (fun _ => ?_) (fun _ => ?_)
    | with_reducible apply only_withCtxs
    | refine only_pair (by with_reducible assumption) ?_
    | refine only_optPair (by with_reducible assumption) ?_
    | refine only_opt (by with_reducible assumption) ?_
    | refine only_outcome (by with_reducible assumption) ?_
    | dsimp only
    | with_reducible intro _
    | split)

theorem State.readElsewhere_only {M : List Field} {s0 s : State} (hS : Only M s0 s)
    (hM : sub [.gcs, .regs, .flt, .sources, .first, .sets, .cht, .log, .wch, .rings, .ios, .nextId, .dcmds, .ports, .portGroups, .rowOps, .commits, .passes, .arbitrating, .clusters, .scc, .dmv, .interp, .scratch, .mon, .pair, .chn, .hpus, .freeCount, .out] M = true) (r : LookupReq) : Only M s0 (State.readElsewhere s r) := by
  unfold State.readElsewhere
  repeat' (first
    | with_reducible exact hS
    | with_reducible assumption
    | exact sub_mono hM rfl
    | exact Or.inl (sub_mono hM rfl)
    | exact Or.inr rfl
    | exact Or.inr ⟨rfl, rfl, rfl, rfl, rfl⟩
    | exact Or.inr (fun k => k)
    | exact Or.inr (fun _ => rfl)
    | with_reducible refine only_ite (fun _ => ?_) (fun _ => ?_)
    | with_reducible apply State.commitSwitch_only
    | with_reducible apply State.endFill_only
    | with_reducible apply State.rowSector_only
    | with_reducible apply State.startRow_only
    | refine only_pair (by with_reducible assumption) ?_
    | refine only_optPair (by with_reducible assumption) ?_
    | refine only_opt (by with_reducible assumption) ?_
    | refine only_outcome (by with_reducible assumption) ?_
    | dsimp only
    | with_reducible intro _
    | split)

theorem execLookupAccept_only {M : List Field} {s0 s : State} (hS : Only M s0 s)
    (hM : sub [.ctxs, .cht] M = true) (cls : LookupClass) : OnlyNext M s0 (execLookupAccept cls s) := by
  unfold execLookupAccept
  repeat' (first
    | with_reducible exact hS
    | with_reducible assumption
    | exact sub_mono hM rfl
    | exact Or.inl (sub_mono hM rfl)
    | exact Or.inr rfl
    | exact Or.inr ⟨rfl, rfl, rfl, rfl, rfl⟩
    | exact Or.inr (fun k => k)
    | exact Or.inr (fun _ => rfl)
    | with_reducible refine only_ite (fun _ => ?_) (fun _ => ?_)
    | with_reducible refine only_iteNext (fun _ => ?_) (fun _ => ?_)
    | with_reducible refine Only.next ?_
    | with_reducible exact only_none
    | with_reducible refine only_iteOpt (fun _ => ?_) (fun _ => ?_)
    | with_reducible refine only_iteOptFst (fun _ => ?_) (fun _ => ?_)
    | with_reducible refine only_getD ?_ ?_
    | with_reducible refine only_mapOpt ?_ (fun _ _ => ?_)
    | with_reducible refine only_mapState ?_ (fun _ _ => ?_)
    | with_reducible refine only_mapFst ?_ (fun _ _ => ?_)
    | with_reducible refine only_bindFst ?_ (fun _ _ => ?_)
    | with_reducible refine only_foldlOpt ?_ (fun _ _ _ => ?_)
    | with_reducible refine only_someFst ?_
    | with_reducible refine only_some ?_
    | with_reducible apply State.setCtx_only
    | with_reducible apply only_withCht
    | refine only_pair (by with_reducible assumption) ?_
    | refine only_optPair (by with_reducible assumption) ?_
    | refine only_opt (by with_reducible assumption) ?_
    | refine only_outcome (by with_reducible assumption) ?_
    | dsimp only
    | with_reducible intro _
    | split)

theorem execLookupComplete_only {M : List Field} {s0 s : State} (hS : Only M s0 s)
    (hM : sub [.gcs, .regs, .flt, .sources, .first, .ctxs, .sets, .cht, .log, .wch, .rings, .ios, .nextId, .dcmds, .ports, .portGroups, .rowOps, .commits, .passes, .arbitrating, .clusters, .scc, .dmv, .interp, .scratch, .mon, .pair, .chn, .hpus, .freeCount, .out] M = true) (ctx : BitVec 7) : OnlyNext M s0 (execLookupComplete ctx s) := by
  unfold execLookupComplete
  repeat' (first
    | with_reducible exact hS
    | with_reducible assumption
    | exact sub_mono hM rfl
    | exact Or.inl (sub_mono hM rfl)
    | exact Or.inr rfl
    | exact Or.inr ⟨rfl, rfl, rfl, rfl, rfl⟩
    | exact Or.inr (fun k => k)
    | exact Or.inr (fun _ => rfl)
    | with_reducible refine only_ite (fun _ => ?_) (fun _ => ?_)
    | with_reducible refine only_iteNext (fun _ => ?_) (fun _ => ?_)
    | with_reducible refine Only.next ?_
    | with_reducible apply State.chartFault_only
    | with_reducible apply State.count64_only
    | with_reducible apply State.readElsewhere_only
    | with_reducible apply State.setCtx_only
    | with_reducible apply State.submit_only
    | with_reducible apply only_withCht
    | refine only_pair (by with_reducible assumption) ?_
    | refine only_optPair (by with_reducible assumption) ?_
    | refine only_opt (by with_reducible assumption) ?_
    | refine only_outcome (by with_reducible assumption) ?_
    | dsimp only
    | with_reducible intro _
    | split)

theorem execChartFlush_only {M : List Field} {s0 s : State} (hS : Only M s0 s)
    (hM : sub [.gcs, .regs, .cht, .log, .clusters, .pair, .out] M = true)  : OnlyNext M s0 (execChartFlush s) := by
  unfold execChartFlush
  repeat' (first
    | with_reducible exact hS
    | with_reducible assumption
    | exact sub_mono hM rfl
    | exact Or.inl (sub_mono hM rfl)
    | exact Or.inr rfl
    | exact Or.inr ⟨rfl, rfl, rfl, rfl, rfl⟩
    | exact Or.inr (fun k => k)
    | exact Or.inr (fun _ => rfl)
    | with_reducible refine only_ite (fun _ => ?_) (fun _ => ?_)
    | with_reducible refine only_iteNext (fun _ => ?_) (fun _ => ?_)
    | with_reducible refine Only.next ?_
    | with_reducible apply State.leaveDock_only
    | with_reducible apply only_withCht
    | refine only_pair (by with_reducible assumption) ?_
    | refine only_optPair (by with_reducible assumption) ?_
    | refine only_opt (by with_reducible assumption) ?_
    | refine only_outcome (by with_reducible assumption) ?_
    | dsimp only
    | with_reducible intro _
    | split)

end Sys2Proof.Machine
end

