-- ==== Sys2Proof/Laws/OnlyResets.lean ====
section
/-! SUPPORT. The frame of every operation of Sys2Proof/Machine/Resets.lean: which parts of the state it may change. -/

set_option linter.unusedTactic false
set_option linter.unreachableTactic false
set_option linter.unusedVariables false

namespace Sys2Proof.Machine

theorem State.enterFenced_only {M : List Field} {s0 s : State} (hS : Only M s0 s)
    (hM : sub [.gcs, .regs, .flt, .sources, .first, .sets, .cht, .log, .wch, .rings, .ios, .dcmds, .ports, .portGroups, .rowOps, .commits, .clusters, .scc, .interp, .mon, .pair, .role, .chn, .hpus, .links, .out] M = true)  : Only M s0 (State.enterFenced s) := by
  unfold State.enterFenced
  repeat' (first
    | with_reducible exact hS
    | with_reducible assumption
    | exact sub_mono hM rfl
    | exact Or.inl (sub_mono hM rfl)
    | exact Or.inr rfl
    | exact Or.inr ⟨rfl, rfl, rfl, rfl, rfl⟩
    | exact Or.inr (fun k => k)
    | exact Or.inr (fun _ => rfl)
    | with_reducible refine only_ite (fun _ => ?_) (fun _ => ?_)
    | with_reducible apply State.halt_only
    | with_reducible apply State.raise_only
    | with_reducible apply State.setAlert_only
    | with_reducible apply only_withDcmds
    | with_reducible apply only_withGcs
    | with_reducible apply only_withHpus
    | with_reducible apply only_withPair
    | with_reducible apply only_withPorts
    | refine only_pair (by with_reducible assumption) ?_
    | refine only_optPair (by with_reducible assumption) ?_
    | refine only_opt (by with_reducible assumption) ?_
    | refine only_outcome (by with_reducible assumption) ?_
    | dsimp only
    | with_reducible intro _
    | split)

theorem State.fenceAtReset_only {M : List Field} {s0 s : State} (hS : Only M s0 s)
    (hM : sub [.gcs, .regs, .flt, .sources, .first, .sets, .cht, .log, .wch, .rings, .ios, .dcmds, .ports, .portGroups, .rowOps, .commits, .clusters, .scc, .interp, .mon, .pair, .role, .chn, .hpus, .links, .out] M = true)  : Only M s0 (State.fenceAtReset s) := by
  unfold State.fenceAtReset
  repeat' (first
    | with_reducible exact hS
    | with_reducible assumption
    | exact sub_mono hM rfl
    | exact Or.inl (sub_mono hM rfl)
    | exact Or.inr rfl
    | exact Or.inr ⟨rfl, rfl, rfl, rfl, rfl⟩
    | exact Or.inr (fun k => k)
    | exact Or.inr (fun _ => rfl)
    | with_reducible refine only_ite (fun _ => ?_) (fun _ => ?_)
    | with_reducible apply State.enterFenced_only
    | refine only_pair (by with_reducible assumption) ?_
    | refine only_optPair (by with_reducible assumption) ?_
    | refine only_opt (by with_reducible assumption) ?_
    | refine only_outcome (by with_reducible assumption) ?_
    | dsimp only
    | with_reducible intro _
    | split)

theorem State.lostPower_only {M : List Field} {s0 s : State} (hS : Only M s0 s)
    (hM : sub [.gcs, .startup, .phase, .halt, .regs, .flt, .sources, .first, .reactions, .ctxs, .sets, .cht, .log, .banks, .wch, .timer, .rings, .privLock, .ios, .dcmds, .ports, .portGroups, .rowOps, .commits, .passes, .arbitrating, .clusters, .scc, .dmv, .interp, .scratch, .sec, .mon, .monitor, .pair, .role, .chn, .address, .hpus, .links, .pwin, .pool, .map, .sched] M = true) : Only M s0 s.lostPower := by
  refine hS.trans ?_
  intro f hf
  cases f <;> first
    | rfl
    | exact ⟨rfl, rfl, rfl, rfl, rfl⟩
    | exact absurd (sub_mem hM (by decide)) hf

theorem execPowerLoss_only {M : List Field} {s0 s : State} (hS : Only M s0 s)
    (hM : sub [.gcs, .startup, .phase, .halt, .regs, .flt, .sources, .first, .reactions, .ctxs, .sets, .cht, .log, .banks, .wch, .timer, .rings, .privLock, .ios, .dcmds, .ports, .portGroups, .rowOps, .commits, .passes, .arbitrating, .clusters, .scc, .dmv, .interp, .scratch, .sec, .mon, .monitor, .pair, .role, .chn, .address, .hpus, .links, .pwin, .pool, .map, .sched] M = true)  : OnlyNext M s0 (execPowerLoss s) := by
  unfold execPowerLoss
  repeat' (first
    | with_reducible exact hS
    | with_reducible assumption
    | exact sub_mono hM rfl
    | exact Or.inl (sub_mono hM rfl)
    | exact Or.inr rfl
    | exact Or.inr ⟨rfl, rfl, rfl, rfl, rfl⟩
    | exact Or.inr (fun k => k)
    | exact Or.inr (fun _ => rfl)
    | with_reducible refine only_ite (fun _ => ?_) (fun _ => ?_)
    | with_reducible refine only_iteNext (fun _ => ?_) (fun _ => ?_)
    | with_reducible refine Only.next ?_
    | with_reducible apply State.lostPower_only
    | refine only_pair (by with_reducible assumption) ?_
    | refine only_optPair (by with_reducible assumption) ?_
    | refine only_opt (by with_reducible assumption) ?_
    | refine only_outcome (by with_reducible assumption) ?_
    | dsimp only
    | with_reducible intro _
    | split)

theorem execPowerOn_only {M : List Field} {s0 s : State} (hS : Only M s0 s)
    (hM : sub [.gcs, .startup, .phase, .halt, .regs, .flt, .sources, .first, .reactions, .ctxs, .sets, .cht, .log, .banks, .wch, .timer, .rings, .privLock, .ios, .dcmds, .ports, .portGroups, .rowOps, .commits, .passes, .arbitrating, .clusters, .scc, .dmv, .interp, .scratch, .sec, .mon, .monitor, .pair, .role, .chn, .address, .hpus, .links, .pwin, .pool, .map, .sched, .out] M = true) (bifur : Bool) (cold : Bool) : OnlyNext M s0 (execPowerOn bifur cold s) := by
  unfold execPowerOn
  repeat' (first
    | with_reducible exact hS
    | with_reducible assumption
    | exact sub_mono hM rfl
    | exact Or.inl (sub_mono hM rfl)
    | exact Or.inr rfl
    | exact Or.inr ⟨rfl, rfl, rfl, rfl, rfl⟩
    | exact Or.inr (fun k => k)
    | exact Or.inr (fun _ => rfl)
    | with_reducible refine only_ite (fun _ => ?_) (fun _ => ?_)
    | with_reducible refine only_iteNext (fun _ => ?_) (fun _ => ?_)
    | with_reducible refine Only.next ?_
    | with_reducible apply State.fenceAtReset_only
    | with_reducible apply State.lostPower_only
    | with_reducible apply only_withGcs
    | refine only_pair (by with_reducible assumption) ?_
    | refine only_optPair (by with_reducible assumption) ?_
    | refine only_opt (by with_reducible assumption) ?_
    | refine only_outcome (by with_reducible assumption) ?_
    | dsimp only
    | with_reducible intro _
    | split)

theorem State.dropWork_only {M : List Field} {s0 s : State} (hS : Only M s0 s)
    (hM : sub [.gcs, .startup, .halt, .regs, .flt, .sources, .ctxs, .sets, .cht, .log, .banks, .wch, .timer, .rings, .privLock, .ios, .dcmds, .ports, .portGroups, .rowOps, .commits, .passes, .arbitrating, .clusters, .scc, .dmv, .interp, .mon, .monitor, .pair, .role, .sched] M = true)  : Only M s0 (State.dropWork s) := by
  unfold State.dropWork
  repeat' (first
    | with_reducible exact hS
    | with_reducible assumption
    | exact sub_mono hM rfl
    | exact Or.inl (sub_mono hM rfl)
    | exact Or.inr rfl
    | exact Or.inr ⟨rfl, rfl, rfl, rfl, rfl⟩
    | exact Or.inr (fun k => k)
    | exact Or.inr (fun _ => rfl)
    | with_reducible refine only_ite (fun _ => ?_) (fun _ => ?_)
    | with_reducible apply State.clearAllSources_only
    | with_reducible apply State.dropRegs_only
    | with_reducible apply only_withArbitrating
    | with_reducible apply only_withCht
    | with_reducible apply only_withClusters
    | with_reducible apply only_withCommits
    | with_reducible apply only_withCtxs
    | with_reducible apply only_withDcmds
    | with_reducible apply only_withDmv
    | with_reducible apply only_withFlt
    | with_reducible apply only_withGcs
    | with_reducible apply only_withInterp
    | with_reducible apply only_withIos
    | with_reducible apply only_withLog
    | with_reducible apply only_withMon
    | with_reducible apply only_withPair
    | with_reducible apply only_withPasses
    | with_reducible apply only_withPortGroups
    | with_reducible apply only_withPorts
    | with_reducible apply only_withPrivLock
    | with_reducible apply only_withRings
    | with_reducible apply only_withRowOps
    | with_reducible apply only_withScc
    | with_reducible apply only_withSched
    | with_reducible apply only_withSets
    | with_reducible apply only_withWch
    | with_reducible refine only_foldl ?_ (fun _ _ _ => ?_)
    | with_reducible refine only_foldlFst ?_ (fun _ _ _ => ?_)
    | refine only_pair (by with_reducible assumption) ?_
    | refine only_optPair (by with_reducible assumption) ?_
    | refine only_opt (by with_reducible assumption) ?_
    | refine only_outcome (by with_reducible assumption) ?_
    | dsimp only
    | with_reducible intro _
    | split)

theorem State.softReset_only {M : List Field} {s0 s : State} (hS : Only M s0 s)
    (hM : sub [.gcs, .startup, .phase, .halt, .regs, .flt, .sources, .first, .reactions, .ctxs, .sets, .cht, .log, .banks, .wch, .timer, .rings, .privLock, .ios, .dcmds, .ports, .portGroups, .rowOps, .commits, .passes, .arbitrating, .clusters, .scc, .dmv, .interp, .sec, .mon, .monitor, .pair, .role, .chn, .hpus, .links, .pwin, .pool, .map, .sched, .out] M = true)  : Only M s0 (State.softReset s) := by
  unfold State.softReset
  repeat' (first
    | with_reducible exact hS
    | with_reducible assumption
    | exact sub_mono hM rfl
    | exact Or.inl (sub_mono hM rfl)
    | exact Or.inr rfl
    | exact Or.inr ⟨rfl, rfl, rfl, rfl, rfl⟩
    | exact Or.inr (fun k => k)
    | exact Or.inr (fun _ => rfl)
    | with_reducible refine only_ite (fun _ => ?_) (fun _ => ?_)
    | with_reducible apply State.dropRegs_only
    | with_reducible apply State.dropWork_only
    | with_reducible apply State.fenceAtReset_only
    | with_reducible apply only_withCht
    | with_reducible apply only_withClusters
    | with_reducible apply only_withDmv
    | with_reducible apply only_withFlt
    | with_reducible apply only_withGcs
    | with_reducible apply only_withHpus
    | with_reducible apply only_withMap
    | with_reducible apply only_withPwin
    | with_reducible apply only_withSec
    | exact Or.inr (Sec.putSlot_otp _ _ _)
    | exact Or.inr (Sec.putSlot_rollback _ _ _)
    | refine only_pair (by with_reducible assumption) ?_
    | refine only_optPair (by with_reducible assumption) ?_
    | refine only_opt (by with_reducible assumption) ?_
    | refine only_outcome (by with_reducible assumption) ?_
    | dsimp only
    | with_reducible intro _
    | split)

theorem execSoftReset_only {M : List Field} {s0 s : State} (hS : Only M s0 s)
    (hM : sub [.gcs, .startup, .phase, .halt, .regs, .flt, .sources, .first, .reactions, .ctxs, .sets, .cht, .log, .banks, .wch, .timer, .rings, .privLock, .ios, .dcmds, .ports, .portGroups, .rowOps, .commits, .passes, .arbitrating, .clusters, .scc, .dmv, .interp, .sec, .mon, .monitor, .pair, .role, .chn, .hpus, .links, .pwin, .pool, .map, .sched, .out] M = true) (key : Half) : OnlyNext M s0 (execSoftReset key s) := by
  unfold execSoftReset
  repeat' (first
    | with_reducible exact hS
    | with_reducible assumption
    | exact sub_mono hM rfl
    | exact Or.inl (sub_mono hM rfl)
    | exact Or.inr rfl
    | exact Or.inr ⟨rfl, rfl, rfl, rfl, rfl⟩
    | exact Or.inr (fun k => k)
    | exact Or.inr (fun _ => rfl)
    | with_reducible refine only_ite (fun _ => ?_) (fun _ => ?_)
    | with_reducible refine only_iteNext (fun _ => ?_) (fun _ => ?_)
    | with_reducible refine Only.next ?_
    | with_reducible apply State.leaveDock_only
    | with_reducible apply State.softReset_only
    | refine only_pair (by with_reducible assumption) ?_
    | refine only_optPair (by with_reducible assumption) ?_
    | refine only_opt (by with_reducible assumption) ?_
    | refine only_outcome (by with_reducible assumption) ?_
    | dsimp only
    | with_reducible intro _
    | split)

theorem State.chainResetNow_only {M : List Field} {s0 s : State} (hS : Only M s0 s)
    (hM : sub [.gcs, .startup, .phase, .halt, .regs, .flt, .sources, .first, .ctxs, .sets, .cht, .log, .banks, .wch, .timer, .rings, .privLock, .ios, .dcmds, .ports, .portGroups, .rowOps, .commits, .passes, .arbitrating, .clusters, .scc, .dmv, .interp, .mon, .monitor, .pair, .role, .chn, .hpus, .links, .sched, .out] M = true)  : Only M s0 (State.chainResetNow s) := by
  unfold State.chainResetNow
  repeat' (first
    | with_reducible exact hS
    | with_reducible assumption
    | exact sub_mono hM rfl
    | exact Or.inl (sub_mono hM rfl)
    | exact Or.inr rfl
    | exact Or.inr ⟨rfl, rfl, rfl, rfl, rfl⟩
    | exact Or.inr (fun k => k)
    | exact Or.inr (fun _ => rfl)
    | with_reducible refine only_ite (fun _ => ?_) (fun _ => ?_)
    | with_reducible apply State.dropWork_only
    | with_reducible apply State.fenceAtReset_only
    | with_reducible apply State.modChan_only
    | with_reducible apply only_withDmv
    | with_reducible apply only_withGcs
    | with_reducible apply only_withLog
    | with_reducible refine only_foldl ?_ (fun _ _ _ => ?_)
    | with_reducible refine only_foldlFst ?_ (fun _ _ _ => ?_)
    | refine only_pair (by with_reducible assumption) ?_
    | refine only_optPair (by with_reducible assumption) ?_
    | refine only_opt (by with_reducible assumption) ?_
    | refine only_outcome (by with_reducible assumption) ?_
    | dsimp only
    | with_reducible intro _
    | split)

theorem execChainReset_only {M : List Field} {s0 s : State} (hS : Only M s0 s)
    (hM : sub [.gcs, .startup, .phase, .halt, .regs, .flt, .sources, .first, .ctxs, .sets, .cht, .log, .banks, .wch, .timer, .rings, .privLock, .ios, .dcmds, .ports, .portGroups, .rowOps, .commits, .passes, .arbitrating, .clusters, .scc, .dmv, .interp, .mon, .monitor, .pair, .role, .chn, .hpus, .links, .sched, .out] M = true) (b0 : Byte) (b1 : Byte) : OnlyNext M s0 (execChainReset b0 b1 s) := by
  unfold execChainReset
  repeat' (first
    | with_reducible exact hS
    | with_reducible assumption
    | exact sub_mono hM rfl
    | exact Or.inl (sub_mono hM rfl)
    | exact Or.inr rfl
    | exact Or.inr ⟨rfl, rfl, rfl, rfl, rfl⟩
    | exact Or.inr (fun k => k)
    | exact Or.inr (fun _ => rfl)
    | with_reducible refine only_ite (fun _ => ?_) (fun _ => ?_)
    | with_reducible refine only_iteNext (fun _ => ?_) (fun _ => ?_)
    | with_reducible refine Only.next ?_
    | with_reducible apply State.chainResetNow_only
    | with_reducible apply State.count32_only
    | with_reducible apply State.leaveDock_only
    | refine only_pair (by with_reducible assumption) ?_
    | refine only_optPair (by with_reducible assumption) ?_
    | refine only_opt (by with_reducible assumption) ?_
    | refine only_outcome (by with_reducible assumption) ?_
    | dsimp only
    | with_reducible intro _
    | split)

end Sys2Proof.Machine
end

