-- ==== Sys2Proof/Laws/Interp.lean ====
section
/-! SUPPORT. What serving a packet does when its checks pass, and what a reply leaves behind (Sys2Proof/Machine/Interp.lean,
Endings.lean; R241, R246, R247). -/

namespace Sys2Proof.Machine

theorem reported_none {l : List (Option (Byte × Byte))} (h : ∀ c ∈ l, c = none) : reported l = none := by
  have e : l.filterMap id = [] := by
    rw [List.filterMap_eq_nil_iff]
    exact fun c hc => h c hc
  unfold reported
  rw [e]
  rfl

theorem firstField_none {bad : List (Bool × Nat)} (h : ∀ b ∈ bad, b.1 = false) : firstField none bad = none := by
  have e : bad.filter (fun b => b.1) = [] := by
    rw [List.filter_eq_nil_iff]
    exact fun b hb => by simp [h b hb]
  unfold firstField
  rw [e]
  rfl

/-- A packet whose checks all pass is run. -/
theorem State.serve_ready {s : State} {src : CmdSrc} {op : Nat} {pkt : Bytes} {bad : Bytes → List (Bool × Nat)}
    {checks : Bytes → List (Option (Byte × Byte))} {run : Bytes → State} (h : Ready s src op pkt)
    (hb : ∀ b ∈ bad pkt, b.1 = false) (hc : ∀ c ∈ checks pkt, c = none) :
    s.serve src op bad checks run = (run pkt).share s op := by
  obtain ⟨hf, ho, c, hi, hw, hz, hd, hp⟩ := h
  have hop : c.op = op := by
    have := List.find?_some hi
    simpa using this
  unfold State.serve
  rw [hf]
  dsimp only
  rw [ho, hi]
  dsimp only
  rw [if_neg (by simp [hop, hw])]
  have v : s.verdict src c pkt (bad pkt) (checks pkt) = none := by
    unfold State.verdict
    refine reported_none fun k hk => ?_
    rw [hz, firstField_none hb] at hk
    simp only [List.mem_append, List.mem_singleton] at hk
    rcases hk with ((k1 | k1) | k1) | k1
    · exact k1
    · exact hd k k1
    · exact hc k k1
    · rw [k1, hp]
      rfl
  rw [v]

theorem State.notify_out (s : State) (r : RingId) (k : Nat) : ∃ l, (s.notify r k).out = l ++ s.out := by
  unfold State.notify State.sendMsix State.hostOut
  dsimp only
  repeat' split
  all_goals first
    | exact ⟨[], rfl⟩
    | exact ⟨[_], rfl⟩

theorem State.publish_out (s : State) (r : RingId) (k : Nat) : ∃ l, (s.publish r k).out = l ++ s.out := by
  unfold State.publish
  obtain ⟨l, h⟩ := State.notify_out (s.hostOut (s.ringPort r) (.headWord r (headWordOf (s.ringN r) (s.ring r).head (s.ring r).exc))) r k
  refine ⟨l ++ [.headWord r (headWordOf (s.ringN r) (s.ring r).head (s.ring r).exc)], ?_⟩
  rw [h]
  unfold State.hostOut
  split <;> simp [State.emit, State.withOut, State.modHpu, State.setHpu, State.withHpus]

theorem State.share_out (s old : State) (op : Nat) : ∃ l, (s.share old op).out = l ++ s.out := by
  unfold State.share
  split
  · exact ⟨[_], rfl⟩
  · exact ⟨[], rfl⟩

theorem State.share_interp (s old : State) (op : Nat) : (s.share old op).interp = s.interp :=
  State.share_only (M := [.regs, .pair, .out]) (Only.refl _ s) rfl old op .interp (by decide)

theorem mem_without {α : Type} [DecidableEq α] (l : List α) (x : α) : x ∉ without l x := by
  simp [without]

theorem State.srcQueue_of_interp {s t : State} (h : t.interp.srcs = s.interp.srcs) (src : CmdSrc) : t.srcQueue src = s.srcQueue src := by
  unfold State.srcQueue
  rw [h]

theorem State.setSrcQueue_srcs (s : State) (src : CmdSrc) (q : List Bytes) :
    (s.setSrcQueue src q).interp.srcs = Tab.set s.interp.srcs [] (srcKey src) q := rfl

theorem State.writeReply_interp (s : State) (c : BitVec 4) (b : Bytes) : (s.writeReply c b).interp = s.interp :=
  State.writeReply_only (M := [.rings, .hpus, .out]) (Only.refl _ s) rfl c b .interp (by decide)

/-- The bookkeeping of a reply before it is written. -/
def State.unqueue (s : State) (src : CmdSrc) : State :=
  let s := s.setSrcQueue src ((s.srcQueue src).drop 1)
  s.withInterp { s.interp with busy := without s.interp.busy src }

theorem State.unqueue_srcQueue (s : State) (src : CmdSrc) : (s.unqueue src).srcQueue src = (s.srcQueue src).drop 1 := by
  show Tab.get (Tab.set s.interp.srcs [] (srcKey src) ((s.srcQueue src).drop 1)) [] (srcKey src) = _
  rw [Tab.get_set, if_pos rfl]

theorem State.unqueue_busy (s : State) (src : CmdSrc) : src ∉ (s.unqueue src).interp.busy := mem_without _ _

/-- What a reply leaves behind. -/
theorem State.reply_replied (s : State) (src : CmdSrc) (pkt : Bytes) (status detail : Byte) (result : Bytes) :
    Replied s (s.reply src pkt status detail result) src pkt status detail result := by
  have hr : s.reply src pkt status detail result = (match src with
    | .ring c =>
      if (s.unqueue src).gcs.halted then s.unqueue src
      else if (s.unqueue src).portSilent ((s.unqueue src).ringPort (.cmd c)) then
        (s.unqueue src).withInterp { (s.unqueue src).interp with
          heldReplies := (s.unqueue src).interp.heldReplies ++ [(src, replyBytes pkt status detail result)] }
      else (s.unqueue src).writeReply c (replyBytes pkt status detail result)
    | .chain =>
      (((s.unqueue src).withInterp { (s.unqueue src).interp with
          chainReply := replyBytes pkt status detail result,
          chainLastSeq := some ((s.unqueue src).interp.chainBusySeq.getD 0), chainBusySeq := none }).setRegN Reg.chnLastSeq
        ((s.unqueue src).interp.chainBusySeq.getD 0).toNat).sendFrame 0x81 ((s.unqueue src).interp.chainBusySeq.getD 0)
          (replyBytes pkt status detail result)) := rfl
  have hq := State.unqueue_srcQueue s src
  have hb := State.unqueue_busy s src
  cases src with
  | chain =>
    rw [hr]
    exact ⟨hq, hb, rfl⟩
  | ring c =>
    rw [hr]
    dsimp only
    refine ⟨?_, ?_, ?_⟩
    · repeat' split
      all_goals first
        | exact hq
        | exact (State.srcQueue_of_interp (by rw [State.writeReply_interp]) _).trans hq
    · repeat' split
      all_goals first
        | exact hb
        | exact (State.writeReply_interp _ _ _).symm ▸ hb
    · intro hp hh hs
      have hp : ringPublishes (s.unqueue (.ring c)) (.cmd c) = true := hp
      have hh : (s.unqueue (.ring c)).gcs.halted = false := hh
      have hs : (s.unqueue (.ring c)).portSilent ((s.unqueue (.ring c)).ringPort (.cmd c)) = false := hs
      rw [if_neg (by simp [hh]), if_neg (by simp [hs])]
      unfold State.writeReply
      dsimp only
      rw [if_neg (by simp [hp])]
      obtain ⟨l, e⟩ := State.publish_out ((s.unqueue (.ring c)).hostOut ((s.unqueue (.ring c)).ringPort (.cmd c))
        (.reply (.ring c) (BitVec.ofNat 16 (leAt (replyBytes pkt status detail result) 0 2))
          (BitVec.ofNat 64 (leAt (replyBytes pkt status detail result) 8 8)) (byteAt (replyBytes pkt status detail result) 4)
          (byteAt (replyBytes pkt status detail result) 5) ((replyBytes pkt status detail result).drop 16)) |>.modRing (.cmd c)
            (fun g => { g with head := posAdd (((s.unqueue (.ring c)).hostOut ((s.unqueue (.ring c)).ringPort (.cmd c))
        (.reply (.ring c) (BitVec.ofNat 16 (leAt (replyBytes pkt status detail result) 0 2))
          (BitVec.ofNat 64 (leAt (replyBytes pkt status detail result) 8 8)) (byteAt (replyBytes pkt status detail result) 4)
          (byteAt (replyBytes pkt status detail result) 5) ((replyBytes pkt status detail result).drop 16))).ringN (.cmd c)) g.head 1,
                               doneCount := (g.doneCount + 1) % 2 ^ 64 })) (.cmd c) 1
      rw [e]
      refine List.mem_append.2 (.inr ?_)
      unfold State.hostOut
      split <;> exact .head _

/-- A later change that keeps the interpreter and only adds to what leaves keeps a reply. -/
theorem Replied.later {s t u : State} {src : CmdSrc} {pkt : Bytes} {status detail : Byte} {result : Bytes}
    (h : Replied s t src pkt status detail result) (hi : u.interp = t.interp) (ho : ∃ l, u.out = l ++ t.out) :
    Replied s u src pkt status detail result := by
  obtain ⟨l, ho⟩ := ho
  refine ⟨(State.srcQueue_of_interp (by rw [hi]) src).trans h.1, hi ▸ h.2.1, ?_⟩
  have h3 := h.2.2
  cases src with
  | chain =>
    dsimp only at h3 ⊢
    rw [hi]
    exact h3
  | ring c =>
    dsimp only at h3 ⊢
    intro a b d
    rw [ho]
    exact List.mem_append.2 (.inr (h3 a b d))

theorem Replied.share {s t : State} {src : CmdSrc} {pkt : Bytes} {status detail : Byte} {result : Bytes}
    (h : Replied s t src pkt status detail result) (old : State) (op : Nat) :
    Replied s (t.share old op) src pkt status detail result :=
  h.later (State.share_interp t old op) (State.share_out t old op)

/-- A reply sent from a state that differs from s only where a reply does not look. -/
theorem Replied.before {s s' t : State} {src : CmdSrc} {pkt : Bytes} {status detail : Byte} {result : Bytes}
    (h : Replied s' t src pkt status detail result)
    (ho : Only [.flt, .sources, .first, .reactions, .ctxs, .sets, .incarnations, .profiles, .cht, .log, .banks, .wch, .timer, .ios,
      .nextId, .dcmds, .ports, .portGroups, .rowOps, .commits, .passes, .arbitrating, .clusters, .scc, .dmv, .sec, .otp, .rollback,
      .mon, .monitor, .pair, .role, .chn, .address, .pwin, .pool, .map, .sched, .freeCount, .out] s s') :
    Replied s t src pkt status detail result := by
  have hi : s'.interp = s.interp := ho .interp (by decide)
  have hr : s'.rings = s.rings := ho .rings (by decide)
  have hg : s'.gcs = s.gcs := ho .gcs (by decide)
  have hh : s'.hpus = s.hpus := ho .hpus (by decide)
  have hm : s'.regs = s.regs := ho .regs (by decide)
  refine ⟨h.1.trans (by rw [State.srcQueue_of_interp (s := s) (t := s') (by rw [hi]) src]), h.2.1, ?_⟩
  have h3 := h.2.2
  cases src with
  | chain => exact h3
  | ring c =>
    dsimp only at h3 ⊢
    intro a b d
    refine h3 ?_ ?_ ?_
    · unfold ringPublishes State.ring at a ⊢
      rw [hr, hg]
      exact a
    · rw [hg]
      exact b
    · unfold State.portSilent State.ringPort State.hpu State.haltClosed State.ringCfg State.regN State.reg at d ⊢
      rw [hg, hh, hm]
      exact d

end Sys2Proof.Machine
end

