-- ==== Sys2Proof/Laws/OnlyBuffers.lean ====
section
/-! SUPPORT. The frame of every operation of Sys2Proof/Machine/Buffers.lean: which parts of the state it may change. -/

set_option linter.unusedTactic false
set_option linter.unreachableTactic false
set_option linter.unusedVariables false

namespace Sys2Proof.Machine

theorem State.dropWait_only {M : List Field} {s0 s : State} (hS : Only M s0 s)
    (hM : sub [.interp] M = true) (src : CmdSrc) : Only M s0 (State.dropWait s src) := by
  unfold State.dropWait
  repeat' (first
    | with_reducible exact hS
    | with_reducible assumption
    | exact sub_mono hM rfl
    | exact Or.inl (sub_mono hM rfl)
    | exact Or.inr rfl
    | exact Or.inr ⟨rfl, rfl, rfl, rfl, rfl⟩
    | exact Or.inr (fun k => k)
    | exact Or.inr (fun _ => rfl)
    | with_reducible refine only_ite (fun _ => ?_) (fun _ => ?_)
    | with_reducible apply only_withInterp
    | refine only_pair (by with_reducible assumption) ?_
    | refine only_optPair (by with_reducible assumption) ?_
    | refine only_opt (by with_reducible assumption) ?_
    | refine only_outcome (by with_reducible assumption) ?_
    | dsimp only
    | with_reducible intro _
    | split)

theorem State.useBuffer_only {M : List Field} {s0 s : State} (hS : Only M s0 s)
    (hM : sub [.regs, .flt, .reactions, .cht, .rings, .nextId, .dcmds, .ports, .interp, .sec, .pair, .hpus, .out] M = true) (src : CmdSrc) (pkt : Bytes) (data : Bytes) : Only M s0 (State.useBuffer s src pkt data) := by
  unfold State.useBuffer
  repeat' (first
    | with_reducible exact hS
    | with_reducible assumption
    | exact sub_mono hM rfl
    | exact Or.inl (sub_mono hM rfl)
    | exact Or.inr rfl
    | exact Or.inr ⟨rfl, rfl, rfl, rfl, rfl⟩
    | exact Or.inr (fun k => k)
    | exact Or.inr (fun _ => rfl)
    | with_reducible refine only_ite (fun _ => ?_) (fun _ => ?_)
    | with_reducible apply State.loadChart_only
    | with_reducible apply State.loadReaction_only
    | with_reducible apply State.sendAdmin_only
    | with_reducible apply State.share_only
    | with_reducible apply State.stageBytes_only
    | with_reducible apply State.writeTable_only
    | with_reducible apply only_withInterp
    | refine only_pair (by with_reducible assumption) ?_
    | refine only_optPair (by with_reducible assumption) ?_
    | refine only_opt (by with_reducible assumption) ?_
    | refine only_outcome (by with_reducible assumption) ?_
    | dsimp only
    | with_reducible intro _
    | split)

theorem State.bufferFailed_only {M : List Field} {s0 s : State} (hS : Only M s0 s)
    (hM : sub [.regs, .rings, .dmv, .interp, .hpus, .out] M = true) (w : BufWait) : Only M s0 (State.bufferFailed s w) := by
  unfold State.bufferFailed
  repeat' (first
    | with_reducible exact hS
    | with_reducible assumption
    | exact sub_mono hM rfl
    | exact Or.inl (sub_mono hM rfl)
    | exact Or.inr rfl
    | exact Or.inr ⟨rfl, rfl, rfl, rfl, rfl⟩
    | exact Or.inr (fun k => k)
    | exact Or.inr (fun _ => rfl)
    | with_reducible refine only_ite (fun _ => ?_) (fun _ => ?_)
    | with_reducible apply State.dropWait_only
    | with_reducible apply State.endCommand_only
    | with_reducible apply State.issueBuffer_only
    | with_reducible apply only_withInterp
    | refine only_pair (by with_reducible assumption) ?_
    | refine only_optPair (by with_reducible assumption) ?_
    | refine only_opt (by with_reducible assumption) ?_
    | refine only_outcome (by with_reducible assumption) ?_
    | dsimp only
    | with_reducible intro _
    | split)

theorem execBufferReadComplete_only {M : List Field} {s0 s : State} (hS : Only M s0 s)
    (hM : sub [.regs, .flt, .reactions, .cht, .rings, .nextId, .dcmds, .ports, .dmv, .interp, .sec, .pair, .hpus, .out] M = true) (src : CmdSrc) (result : BusResult) : OnlyNext M s0 (execBufferReadComplete src result s) := by
  unfold execBufferReadComplete
  repeat' (first
    | with_reducible exact hS
    | with_reducible assumption
    | exact sub_mono hM rfl
    | exact Or.inl (sub_mono hM rfl)
    | exact Or.inr rfl
    | exact Or.inr ⟨rfl, rfl, rfl, rfl, rfl⟩
    | exact Or.inr (fun k => k)
    | exact Or.inr (fun _ => rfl)
    | with_reducible refine only_ite (fun _ => ?_) (fun _ => ?_)
    | with_reducible refine only_iteNext (fun _ => ?_) (fun _ => ?_)
    | with_reducible refine Only.next ?_
    | with_reducible apply State.bufferFailed_only
    | with_reducible apply State.dropRead_only
    | with_reducible apply State.dropWait_only
    | with_reducible apply State.useBuffer_only
    | refine only_pair (by with_reducible assumption) ?_
    | refine only_optPair (by with_reducible assumption) ?_
    | refine only_opt (by with_reducible assumption) ?_
    | refine only_outcome (by with_reducible assumption) ?_
    | dsimp only
    | with_reducible intro _
    | split)

theorem execBufferReadTimeout_only {M : List Field} {s0 s : State} (hS : Only M s0 s)
    (hM : sub [.gcs, .regs, .flt, .sources, .first, .sets, .cht, .log, .wch, .rings, .ios, .dcmds, .ports, .portGroups, .rowOps, .commits, .clusters, .scc, .dmv, .interp, .mon, .pair, .chn, .hpus, .out] M = true) (src : CmdSrc) : OnlyNext M s0 (execBufferReadTimeout src s) := by
  unfold execBufferReadTimeout
  repeat' (first
    | with_reducible exact hS
    | with_reducible assumption
    | exact sub_mono hM rfl
    | exact Or.inl (sub_mono hM rfl)
    | exact Or.inr rfl
    | exact Or.inr ⟨rfl, rfl, rfl, rfl, rfl⟩
    | exact Or.inr (fun k => k)
    | exact Or.inr (fun _ => rfl)
    | with_reducible refine only_ite (fun _ => ?_) (fun _ => ?_)
    | with_reducible refine only_iteNext (fun _ => ?_) (fun _ => ?_)
    | with_reducible refine Only.next ?_
    | with_reducible apply State.bufferFailed_only
    | with_reducible apply State.dropRead_only
    | with_reducible apply State.quarantineTag_only
    | refine only_pair (by with_reducible assumption) ?_
    | refine only_optPair (by with_reducible assumption) ?_
    | refine only_opt (by with_reducible assumption) ?_
    | refine only_outcome (by with_reducible assumption) ?_
    | dsimp only
    | with_reducible intro _
    | split)

theorem execDeferredCommandStart_only {M : List Field} {s0 s : State} (hS : Only M s0 s)
    (hM : sub [.gcs, .startup, .phase, .halt, .regs, .flt, .sources, .first, .reactions, .ctxs, .sets, .cht, .log, .banks, .wch, .timer, .rings, .privLock, .ios, .nextId, .dcmds, .ports, .portGroups, .rowOps, .commits, .passes, .arbitrating, .clusters, .scc, .dmv, .interp, .scratch, .sec, .mon, .monitor, .pair, .role, .chn, .address, .hpus, .links, .pwin, .pool, .map, .sched, .freeCount, .out] M = true) (src : CmdSrc) : OnlyNext M s0 (execDeferredCommandStart src s) := by
  unfold execDeferredCommandStart
  repeat' (first
    | with_reducible exact hS
    | with_reducible assumption
    | exact sub_mono hM rfl
    | exact Or.inl (sub_mono hM rfl)
    | exact Or.inr rfl
    | exact Or.inr ⟨rfl, rfl, rfl, rfl, rfl⟩
    | exact Or.inr (fun k => k)
    | exact Or.inr (fun _ => rfl)
    | with_reducible refine only_ite (fun _ => ?_) (fun _ => ?_)
    | with_reducible refine only_iteNext (fun _ => ?_) (fun _ => ?_)
    | with_reducible refine Only.next ?_
    | with_reducible apply execCalRun_only
    | with_reducible apply execCleanRange_only
    | with_reducible apply execDiscardRange_only
    | with_reducible apply execFwCommit_only
    | with_reducible apply execGroupPower_only
    | with_reducible apply execInvalRange_only
    | with_reducible apply execPairJoin_only
    | with_reducible apply execPairLeave_only
    | with_reducible apply execPortAdmin_only
    | with_reducible apply execPortReset_only
    | with_reducible apply execSetReadPreserved_only
    | with_reducible apply execSetRecover_only
    | with_reducible apply execWatchSetTod_only
    | refine only_pair (by with_reducible assumption) ?_
    | refine only_optPair (by with_reducible assumption) ?_
    | refine only_opt (by with_reducible assumption) ?_
    | refine only_outcome (by with_reducible assumption) ?_
    | dsimp only
    | with_reducible intro _
    | split)

end Sys2Proof.Machine
end

