-- ==== Sys2Proof/Laws/PerInstr.lean ====
section
/-! SUPPORT. Statements about every command as syntax, one lemma per constructor. Family F: no command's footprint lists the queue of
commands that wait, so that no command can touch it. -/

namespace Sys2Proof.Laws.F

open Sys2Proof.Machine

/-- The footprint of a command leaves out the queue. -/
def Statement (i : Instr) : Prop := Field.pending ∉ footprint i

/-- A list that a computation finds free of the queue. -/
theorem free {m : List Field} (h : decide (Field.pending ∈ m) = false) : Field.pending ∉ m := of_decide_eq_false h

/-- powerOn. -/
theorem powerOn : ∀ a b, Statement (.powerOn a b) := fun _ _ => free rfl

/-- powerLoss. -/
theorem powerLoss : Statement .powerLoss := free rfl

/-- coldStartProceed. -/
theorem coldStartProceed : Statement .coldStartProceed := free rfl

/-- bootComplete. -/
theorem bootComplete : ∀ a b, Statement (.bootComplete a b) := fun _ _ => free rfl

/-- startupCalibrationDone. -/
theorem startupCalibrationDone : ∀ a b c, Statement (.startupCalibrationDone a b c) := fun _ _ _ => free rfl

/-- mapStoreTrainingDone. -/
theorem mapStoreTrainingDone : ∀ a, Statement (.mapStoreTrainingDone a) := fun _ => free rfl

/-- almanacComplete. -/
theorem almanacComplete : Statement .almanacComplete := free rfl

/-- surveyComplete. -/
theorem surveyComplete : ∀ a, Statement (.surveyComplete a) := fun _ => free rfl

/-- journalWalkEnd. -/
theorem journalWalkEnd : Statement .journalWalkEnd := free rfl

/-- setReplayEnd. -/
theorem setReplayEnd : ∀ a b, Statement (.setReplayEnd a b) := fun _ _ => free rfl

/-- softReset. -/
theorem softReset : ∀ a, Statement (.softReset a) := fun _ => free rfl

/-- chainReset. -/
theorem chainReset : ∀ a b, Statement (.chainReset a b) := fun _ _ => free rfl

/-- perstN. -/
theorem perstN : ∀ a, Statement (.perstN a) := fun _ => free rfl

/-- perstNRelease. -/
theorem perstNRelease : ∀ a, Statement (.perstNRelease a) := fun _ => free rfl

/-- flr. -/
theorem flr : ∀ a, Statement (.flr a) := fun _ => free rfl

/-- d3hotEntry. -/
theorem d3hotEntry : ∀ a, Statement (.d3hotEntry a) := fun _ => free rfl

/-- d0Return. -/
theorem d0Return : ∀ a, Statement (.d0Return a) := fun _ => free rfl

/-- dockEnter. -/
theorem dockEnter : Statement .dockEnter := free rfl

/-- dockExit. -/
theorem dockExit : Statement .dockExit := free rfl

/-- pwrwarnNAssert. -/
theorem pwrwarnNAssert : Statement .pwrwarnNAssert := free rfl

/-- railSample. -/
theorem railSample : ∀ a b, Statement (.railSample a b) := fun _ _ => free rfl

/-- holdQualificationExpiry. -/
theorem holdQualificationExpiry : Statement .holdQualificationExpiry := free rfl

/-- holdResume. -/
theorem holdResume : Statement .holdResume := free rfl

/-- junctionSample. -/
theorem junctionSample : ∀ a b, Statement (.junctionSample a b) := fun _ _ => free rfl

/-- fixPpsEdge. -/
theorem fixPpsEdge : ∀ a b c d, Statement (.fixPpsEdge a b c d) := fun _ _ _ _ => free rfl

/-- fixPpsLost. -/
theorem fixPpsLost : Statement .fixPpsLost := free rfl

/-- todLapse. -/
theorem todLapse : Statement .todLapse := free rfl

/-- watchBoundary. -/
theorem watchBoundary : Statement .watchBoundary := free rfl

/-- watchSeal. -/
theorem watchSeal : Statement .watchSeal := free rfl

/-- sealGraceExpiry. -/
theorem sealGraceExpiry : ∀ a, Statement (.sealGraceExpiry a) := fun _ => free rfl

/-- holdoverTick. -/
theorem holdoverTick : Statement .holdoverTick := free rfl

/-- watchLengthChange. -/
theorem watchLengthChange : Statement .watchLengthChange := free rfl

/-- generationLimit. -/
theorem generationLimit : ∀ a, Statement (.generationLimit a) := fun _ => free rfl

/-- recordCommit. -/
theorem recordCommit : ∀ a, Statement (.recordCommit a) := fun _ => free rfl

/-- anchor. -/
theorem anchor : Statement .anchor := free rfl

/-- relocation. -/
theorem relocation : Statement .relocation := free rfl

/-- stripeCommit. -/
theorem stripeCommit : ∀ a b c d, Statement (.stripeCommit a b c d) := fun _ _ _ _ => free rfl

/-- bankFailure. -/
theorem bankFailure : ∀ a, Statement (.bankFailure a) := fun _ => free rfl

/-- bankErrorWindow. -/
theorem bankErrorWindow : ∀ a, Statement (.bankErrorWindow a) := fun _ => free rfl

/-- resilverComplete. -/
theorem resilverComplete : ∀ a, Statement (.resilverComplete a) := fun _ => free rfl

/-- lifeRecordDue. -/
theorem lifeRecordDue : Statement .lifeRecordDue := free rfl

/-- calTemperatureCheck. -/
theorem calTemperatureCheck : ∀ a b, Statement (.calTemperatureCheck a b) := fun _ _ => free rfl

/-- calIntervalDue. -/
theorem calIntervalDue : ∀ a, Statement (.calIntervalDue a) := fun _ => free rfl

/-- calFailHoldoffExpiry. -/
theorem calFailHoldoffExpiry : ∀ a, Statement (.calFailHoldoffExpiry a) := fun _ => free rfl

/-- calRunStart. -/
theorem calRunStart : Statement .calRunStart := free rfl

/-- calCopyComplete. -/
theorem calCopyComplete : Statement .calCopyComplete := free rfl

/-- calSweepComplete. -/
theorem calSweepComplete : ∀ a b c, Statement (.calSweepComplete a b c) := fun _ _ _ => free rfl

/-- calBankSel. -/
theorem calBankSel : ∀ a b, Statement (.calBankSel a b) := fun _ _ => free rfl

/-- dataRingDoorbell. -/
theorem dataRingDoorbell : ∀ a b, Statement (.dataRingDoorbell a b) := fun _ _ => free rfl

/-- commandRingDoorbell. -/
theorem commandRingDoorbell : ∀ a b, Statement (.commandRingDoorbell a b) := fun _ _ => free rfl

/-- eventRingDoorbell. -/
theorem eventRingDoorbell : ∀ a b, Statement (.eventRingDoorbell a b) := fun _ _ => free rfl

/-- ringEnable. -/
theorem ringEnable : ∀ a, Statement (.ringEnable a) := fun _ => free rfl

/-- ringDisable. -/
theorem ringDisable : ∀ a, Statement (.ringDisable a) := fun _ => free rfl

/-- commandRingDisable. -/
theorem commandRingDisable : ∀ a, Statement (.commandRingDisable a) := fun _ => free rfl

/-- eventRingDisable. -/
theorem eventRingDisable : ∀ a, Statement (.eventRingDisable a) := fun _ => free rfl

/-- ringDisableComplete. -/
theorem ringDisableComplete : ∀ a, Statement (.ringDisableComplete a) := fun _ => free rfl

/-- privLock. -/
theorem privLock : Statement .privLock := free rfl

/-- descriptorFetch. -/
theorem descriptorFetch : ∀ a, Statement (.descriptorFetch a) := fun _ => free rfl

/-- descriptorReadComplete. -/
theorem descriptorReadComplete : ∀ a b, Statement (.descriptorReadComplete a b) := fun _ _ => free rfl

/-- haltCloseEnd. -/
theorem haltCloseEnd : Statement .haltCloseEnd := free rfl

/-- ringReadTimeout. -/
theorem ringReadTimeout : ∀ a, Statement (.ringReadTimeout a) := fun _ => free rfl

/-- ioRead. -/
theorem ioRead : ∀ a b c, Statement (.ioRead a b c) := fun _ _ _ => free rfl

/-- ioWrite. -/
theorem ioWrite : ∀ a b c, Statement (.ioWrite a b c) := fun _ _ _ => free rfl

/-- allocationRetry. -/
theorem allocationRetry : ∀ a, Statement (.allocationRetry a) := fun _ => free rfl

/-- ioWriteZeroes. -/
theorem ioWriteZeroes : ∀ a, Statement (.ioWriteZeroes a) := fun _ => free rfl

/-- ioVerify. -/
theorem ioVerify : ∀ a, Statement (.ioVerify a) := fun _ => free rfl

/-- ioNop. -/
theorem ioNop : ∀ a, Statement (.ioNop a) := fun _ => free rfl

/-- msixHoldoffExpiry. -/
theorem msixHoldoffExpiry : ∀ a, Statement (.msixHoldoffExpiry a) := fun _ => free rfl

/-- msixUnmask. -/
theorem msixUnmask : ∀ a b, Statement (.msixUnmask a b) := fun _ _ => free rfl

/-- deferredCommandStart. -/
theorem deferredCommandStart : ∀ a, Statement (.deferredCommandStart a) := fun _ => free rfl

/-- bufferReadComplete. -/
theorem bufferReadComplete : ∀ a b, Statement (.bufferReadComplete a b) := fun _ _ => free rfl

/-- bufferReadTimeout. -/
theorem bufferReadTimeout : ∀ a, Statement (.bufferReadTimeout a) := fun _ => free rfl

/-- mgmtWatchdog. -/
theorem mgmtWatchdog : Statement .mgmtWatchdog := free rfl

/-- fwRestartDone. -/
theorem fwRestartDone : Statement .fwRestartDone := free rfl

/-- setCreate. -/
theorem setCreate : ∀ a, Statement (.setCreate a) := fun _ => free rfl

/-- setModify. -/
theorem setModify : ∀ a, Statement (.setModify a) := fun _ => free rfl

/-- setStart. -/
theorem setStart : ∀ a, Statement (.setStart a) := fun _ => free rfl

/-- setStop. -/
theorem setStop : ∀ a, Statement (.setStop a) := fun _ => free rfl

/-- setDelete. -/
theorem setDelete : ∀ a, Statement (.setDelete a) := fun _ => free rfl

/-- setRecover. -/
theorem setRecover : ∀ a, Statement (.setRecover a) := fun _ => free rfl

/-- setQuery. -/
theorem setQuery : ∀ a, Statement (.setQuery a) := fun _ => free rfl

/-- setReadPreserved. -/
theorem setReadPreserved : ∀ a, Statement (.setReadPreserved a) := fun _ => free rfl

/-- setDrainComplete. -/
theorem setDrainComplete : ∀ a, Statement (.setDrainComplete a) := fun _ => free rfl

/-- profileDefine. -/
theorem profileDefine : ∀ a, Statement (.profileDefine a) := fun _ => free rfl

/-- profileDelete. -/
theorem profileDelete : ∀ a, Statement (.profileDelete a) := fun _ => free rfl

/-- profileQuery. -/
theorem profileQuery : ∀ a, Statement (.profileQuery a) := fun _ => free rfl

/-- chartLoad. -/
theorem chartLoad : ∀ a, Statement (.chartLoad a) := fun _ => free rfl

/-- chartTableWrite. -/
theorem chartTableWrite : ∀ a, Statement (.chartTableWrite a) := fun _ => free rfl

/-- chartDelete. -/
theorem chartDelete : ∀ a, Statement (.chartDelete a) := fun _ => free rfl

/-- chartRevise. -/
theorem chartRevise : ∀ a, Statement (.chartRevise a) := fun _ => free rfl

/-- chartLookup. -/
theorem chartLookup : ∀ a, Statement (.chartLookup a) := fun _ => free rfl

/-- lookupAccept. -/
theorem lookupAccept : ∀ a, Statement (.lookupAccept a) := fun _ => free rfl

/-- lookupComplete. -/
theorem lookupComplete : ∀ a, Statement (.lookupComplete a) := fun _ => free rfl

/-- chartFlush. -/
theorem chartFlush : Statement .chartFlush := free rfl

/-- portQuery. -/
theorem portQuery : ∀ a, Statement (.portQuery a) := fun _ => free rfl

/-- portConfig. -/
theorem portConfig : ∀ a, Statement (.portConfig a) := fun _ => free rfl

/-- portFail. -/
theorem portFail : ∀ a, Statement (.portFail a) := fun _ => free rfl

/-- portRelease. -/
theorem portRelease : ∀ a, Statement (.portRelease a) := fun _ => free rfl

/-- portReset. -/
theorem portReset : ∀ a, Statement (.portReset a) := fun _ => free rfl

/-- portAdmin. -/
theorem portAdmin : ∀ a, Statement (.portAdmin a) := fun _ => free rfl

/-- groupPower. -/
theorem groupPower : ∀ a, Statement (.groupPower a) := fun _ => free rfl

/-- logQuery. -/
theorem logQuery : ∀ a, Statement (.logQuery a) := fun _ => free rfl

/-- watchSetTod. -/
theorem watchSetTod : ∀ a, Statement (.watchSetTod a) := fun _ => free rfl

/-- watchSetLength. -/
theorem watchSetLength : ∀ a, Statement (.watchSetLength a) := fun _ => free rfl

/-- watchQuery. -/
theorem watchQuery : ∀ a, Statement (.watchQuery a) := fun _ => free rfl

/-- cleanRange. -/
theorem cleanRange : ∀ a, Statement (.cleanRange a) := fun _ => free rfl

/-- invalRange. -/
theorem invalRange : ∀ a, Statement (.invalRange a) := fun _ => free rfl

/-- discardRange. -/
theorem discardRange : ∀ a, Statement (.discardRange a) := fun _ => free rfl

/-- wayMasks. -/
theorem wayMasks : ∀ a, Statement (.wayMasks a) := fun _ => free rfl

/-- regionSet. -/
theorem regionSet : ∀ a, Statement (.regionSet a) := fun _ => free rfl

/-- regionQuery. -/
theorem regionQuery : ∀ a, Statement (.regionQuery a) := fun _ => free rfl

/-- faultRead. -/
theorem faultRead : ∀ a, Statement (.faultRead a) := fun _ => free rfl

/-- faultAck. -/
theorem faultAck : ∀ a, Statement (.faultAck a) := fun _ => free rfl

/-- faultClear. -/
theorem faultClear : ∀ a, Statement (.faultClear a) := fun _ => free rfl

/-- faultLoadReaction. -/
theorem faultLoadReaction : ∀ a, Statement (.faultLoadReaction a) := fun _ => free rfl

/-- calRun. -/
theorem calRun : ∀ a, Statement (.calRun a) := fun _ => free rfl

/-- calQuery. -/
theorem calQuery : ∀ a, Statement (.calQuery a) := fun _ => free rfl

/-- lifeRead. -/
theorem lifeRead : ∀ a, Statement (.lifeRead a) := fun _ => free rfl

/-- lifeRecord. -/
theorem lifeRecord : ∀ a, Statement (.lifeRecord a) := fun _ => free rfl

/-- pairJoin. -/
theorem pairJoin : ∀ a, Statement (.pairJoin a) := fun _ => free rfl

/-- pairLeave. -/
theorem pairLeave : ∀ a, Statement (.pairLeave a) := fun _ => free rfl

/-- pairQuery. -/
theorem pairQuery : ∀ a, Statement (.pairQuery a) := fun _ => free rfl

/-- fwDownload. -/
theorem fwDownload : ∀ a, Statement (.fwDownload a) := fun _ => free rfl

/-- fwCommit. -/
theorem fwCommit : ∀ a, Statement (.fwCommit a) := fun _ => free rfl

/-- fwQuery. -/
theorem fwQuery : ∀ a, Statement (.fwQuery a) := fun _ => free rfl

/-- diagInject. -/
theorem diagInject : ∀ a, Statement (.diagInject a) := fun _ => free rfl

/-- diagEcho. -/
theorem diagEcho : ∀ a, Statement (.diagEcho a) := fun _ => free rfl

/-- sAdd. -/
theorem sAdd : ∀ a b c d, Statement (.sAdd a b c d) := fun _ _ _ _ => free rfl

/-- sSub. -/
theorem sSub : ∀ a b c d, Statement (.sSub a b c d) := fun _ _ _ _ => free rfl

/-- sAnd. -/
theorem sAnd : ∀ a b c d, Statement (.sAnd a b c d) := fun _ _ _ _ => free rfl

/-- sOr. -/
theorem sOr : ∀ a b c d, Statement (.sOr a b c d) := fun _ _ _ _ => free rfl

/-- sXor. -/
theorem sXor : ∀ a b c d, Statement (.sXor a b c d) := fun _ _ _ _ => free rfl

/-- sShl. -/
theorem sShl : ∀ a b c d, Statement (.sShl a b c d) := fun _ _ _ _ => free rfl

/-- sShr. -/
theorem sShr : ∀ a b c d, Statement (.sShr a b c d) := fun _ _ _ _ => free rfl

/-- sAddi. -/
theorem sAddi : ∀ a b c d, Statement (.sAddi a b c d) := fun _ _ _ _ => free rfl

/-- sAndi. -/
theorem sAndi : ∀ a b c d, Statement (.sAndi a b c d) := fun _ _ _ _ => free rfl

/-- sOri. -/
theorem sOri : ∀ a b c d, Statement (.sOri a b c d) := fun _ _ _ _ => free rfl

/-- sXori. -/
theorem sXori : ∀ a b c d, Statement (.sXori a b c d) := fun _ _ _ _ => free rfl

/-- sShli. -/
theorem sShli : ∀ a b c d, Statement (.sShli a b c d) := fun _ _ _ _ => free rfl

/-- sShri. -/
theorem sShri : ∀ a b c d, Statement (.sShri a b c d) := fun _ _ _ _ => free rfl

/-- sMovi. -/
theorem sMovi : ∀ a b c d, Statement (.sMovi a b c d) := fun _ _ _ _ => free rfl

/-- sMovk. -/
theorem sMovk : ∀ a b c d, Statement (.sMovk a b c d) := fun _ _ _ _ => free rfl

/-- sMul. -/
theorem sMul : ∀ a b c d, Statement (.sMul a b c d) := fun _ _ _ _ => free rfl

/-- sMulhi. -/
theorem sMulhi : ∀ a b c d, Statement (.sMulhi a b c d) := fun _ _ _ _ => free rfl

/-- sDivm. -/
theorem sDivm : ∀ a b c d, Statement (.sDivm a b c d) := fun _ _ _ _ => free rfl

/-- sModr. -/
theorem sModr : ∀ a b c d, Statement (.sModr a b c d) := fun _ _ _ _ => free rfl

/-- sMix. -/
theorem sMix : ∀ a b c d, Statement (.sMix a b c d) := fun _ _ _ _ => free rfl

/-- sSltu. -/
theorem sSltu : ∀ a b c d, Statement (.sSltu a b c d) := fun _ _ _ _ => free rfl

/-- sSeq. -/
theorem sSeq : ∀ a b c d, Statement (.sSeq a b c d) := fun _ _ _ _ => free rfl

/-- sSel. -/
theorem sSel : ∀ a b c d e, Statement (.sSel a b c d e) := fun _ _ _ _ _ => free rfl

/-- sBz. -/
theorem sBz : ∀ a b c, Statement (.sBz a b c) := fun _ _ _ => free rfl

/-- sBnz. -/
theorem sBnz : ∀ a b c, Statement (.sBnz a b c) := fun _ _ _ => free rfl

/-- sBr. -/
theorem sBr : ∀ a b, Statement (.sBr a b) := fun _ _ => free rfl

/-- sSkeq. -/
theorem sSkeq : ∀ a b c, Statement (.sSkeq a b c) := fun _ _ _ => free rfl

/-- sSkne. -/
theorem sSkne : ∀ a b c, Statement (.sSkne a b c) := fun _ _ _ => free rfl

/-- sSklt. -/
theorem sSklt : ∀ a b c, Statement (.sSklt a b c) := fun _ _ _ => free rfl

/-- sLdt. -/
theorem sLdt : ∀ a b c d e f, Statement (.sLdt a b c d e f) := fun _ _ _ _ _ _ => free rfl

/-- sPtest. -/
theorem sPtest : ∀ a b c, Statement (.sPtest a b c) := fun _ _ _ => free rfl

/-- sEmit. -/
theorem sEmit : ∀ a b c, Statement (.sEmit a b c) := fun _ _ _ => free rfl

/-- sFault. -/
theorem sFault : ∀ a b, Statement (.sFault a b) := fun _ _ => free rfl

/-- sCrr. -/
theorem sCrr : ∀ a b c, Statement (.sCrr a b c) := fun _ _ _ => free rfl

/-- sCrw. -/
theorem sCrw : ∀ a b c, Statement (.sCrw a b c) := fun _ _ _ => free rfl

/-- sRaise. -/
theorem sRaise : ∀ a b c, Statement (.sRaise a b c) := fun _ _ _ => free rfl

/-- sDone. -/
theorem sDone : ∀ a, Statement (.sDone a) := fun _ => free rfl

/-- actHalt. -/
theorem actHalt : ∀ a b, Statement (.actHalt a b) := fun _ _ => free rfl

/-- actPreserve. -/
theorem actPreserve : ∀ a b, Statement (.actPreserve a b) := fun _ _ => free rfl

/-- actStopSet. -/
theorem actStopSet : ∀ a b, Statement (.actStopSet a b) := fun _ _ => free rfl

/-- actFailPort. -/
theorem actFailPort : ∀ a b, Statement (.actFailPort a b) := fun _ _ => free rfl

/-- actContainHost. -/
theorem actContainHost : ∀ a b, Statement (.actContainHost a b) := fun _ _ => free rfl

/-- actClear. -/
theorem actClear : ∀ a b, Statement (.actClear a b) := fun _ _ => free rfl

/-- actLife. -/
theorem actLife : ∀ a b, Statement (.actLife a b) := fun _ _ => free rfl

/-- reactionStart. -/
theorem reactionStart : Statement .reactionStart := free rfl

/-- codingPassDispatch. -/
theorem codingPassDispatch : Statement .codingPassDispatch := free rfl

/-- codingPassComplete. -/
theorem codingPassComplete : ∀ a b, Statement (.codingPassComplete a b) := fun _ _ => free rfl

/-- cesSelfTestComplete. -/
theorem cesSelfTestComplete : ∀ a b, Statement (.cesSelfTestComplete a b) := fun _ _ => free rfl

/-- cesIdleSelfTest. -/
theorem cesIdleSelfTest : ∀ a b, Statement (.cesIdleSelfTest a b) := fun _ _ => free rfl

/-- decodeSolveComplete. -/
theorem decodeSolveComplete : ∀ a b, Statement (.decodeSolveComplete a b) := fun _ _ => free rfl

/-- driveReadComplete. -/
theorem driveReadComplete : ∀ a b c, Statement (.driveReadComplete a b c) := fun _ _ _ => free rfl

/-- driveWriteComplete. -/
theorem driveWriteComplete : ∀ a b, Statement (.driveWriteComplete a b) := fun _ _ => free rfl

/-- driveFlushComplete. -/
theorem driveFlushComplete : ∀ a b, Statement (.driveFlushComplete a b) := fun _ _ => free rfl

/-- driveAdminComplete. -/
theorem driveAdminComplete : ∀ a b c d, Statement (.driveAdminComplete a b c d) := fun _ _ _ _ => free rfl

/-- driveShutdownComplete. -/
theorem driveShutdownComplete : ∀ a, Statement (.driveShutdownComplete a) := fun _ => free rfl

/-- deadReckoningThreshold. -/
theorem deadReckoningThreshold : ∀ a b, Statement (.deadReckoningThreshold a b) := fun _ _ => free rfl

/-- hardTimeout. -/
theorem hardTimeout : ∀ a, Statement (.hardTimeout a) := fun _ => free rfl

/-- portSealLimit. -/
theorem portSealLimit : ∀ a, Statement (.portSealLimit a) := fun _ => free rfl

/-- writeLagLimit. -/
theorem writeLagLimit : ∀ a, Statement (.writeLagLimit a) := fun _ => free rfl

/-- receiverDetection. -/
theorem receiverDetection : ∀ a b, Statement (.receiverDetection a b) := fun _ _ => free rfl

/-- driveBringupComplete. -/
theorem driveBringupComplete : ∀ a b, Statement (.driveBringupComplete a b) := fun _ _ => free rfl

/-- cstsRdyTimeout. -/
theorem cstsRdyTimeout : ∀ a, Statement (.cstsRdyTimeout a) := fun _ => free rfl

/-- linkDown. -/
theorem linkDown : ∀ a b, Statement (.linkDown a b) := fun _ _ => free rfl

/-- recoveryTimeout. -/
theorem recoveryTimeout : ∀ a, Statement (.recoveryTimeout a) := fun _ => free rfl

/-- portResetEnd. -/
theorem portResetEnd : ∀ a b, Statement (.portResetEnd a b) := fun _ _ => free rfl

/-- quarantineReset. -/
theorem quarantineReset : ∀ a, Statement (.quarantineReset a) := fun _ => free rfl

/-- driveAsyncEvent. -/
theorem driveAsyncEvent : ∀ a b, Statement (.driveAsyncEvent a b) := fun _ _ => free rfl

/-- healthPoll. -/
theorem healthPoll : ∀ a, Statement (.healthPoll a) := fun _ => free rfl

/-- driveDmaReject. -/
theorem driveDmaReject : ∀ a, Statement (.driveDmaReject a) := fun _ => free rfl

/-- driveLinkErrorWindow. -/
theorem driveLinkErrorWindow : ∀ a b, Statement (.driveLinkErrorWindow a b) := fun _ _ => free rfl

/-- driveL1Entry. -/
theorem driveL1Entry : ∀ a, Statement (.driveL1Entry a) := fun _ => free rfl

/-- groupDrainEnd. -/
theorem groupDrainEnd : ∀ a, Statement (.groupDrainEnd a) := fun _ => free rfl

/-- drainTimeout. -/
theorem drainTimeout : ∀ a, Statement (.drainTimeout a) := fun _ => free rfl

/-- groupWakeDelay. -/
theorem groupWakeDelay : ∀ a b, Statement (.groupWakeDelay a b) := fun _ _ => free rfl

/-- catchupExtentDone. -/
theorem catchupExtentDone : ∀ a b, Statement (.catchupExtentDone a b) := fun _ _ => free rfl

/-- rebuildPacingWindow. -/
theorem rebuildPacingWindow : Statement .rebuildPacingWindow := free rfl

/-- rebuildStripeDone. -/
theorem rebuildStripeDone : ∀ a b, Statement (.rebuildStripeDone a b) := fun _ _ => free rfl

/-- rebuildRetakeLimit. -/
theorem rebuildRetakeLimit : ∀ a b, Statement (.rebuildRetakeLimit a b) := fun _ _ => free rfl

/-- rebuildCursorDurable. -/
theorem rebuildCursorDurable : ∀ a, Statement (.rebuildCursorDurable a) := fun _ => free rfl

/-- scrubPassStart. -/
theorem scrubPassStart : Statement .scrubPassStart := free rfl

/-- scrubPacingWindow. -/
theorem scrubPacingWindow : Statement .scrubPacingWindow := free rfl

/-- scrubRowReadComplete. -/
theorem scrubRowReadComplete : ∀ a b c d, Statement (.scrubRowReadComplete a b c d) := fun _ _ _ _ => free rfl

/-- rowArbitrationDone. -/
theorem rowArbitrationDone : ∀ a b c d, Statement (.rowArbitrationDone a b c d) := fun _ _ _ _ => free rfl

/-- scrubCursorSave. -/
theorem scrubCursorSave : Statement .scrubCursorSave := free rfl

/-- resyncRowDone. -/
theorem resyncRowDone : ∀ a b c d, Statement (.resyncRowDone a b c d) := fun _ _ _ _ => free rfl

/-- tierMoveComplete. -/
theorem tierMoveComplete : ∀ a, Statement (.tierMoveComplete a) := fun _ => free rfl

/-- mapChannelFailure. -/
theorem mapChannelFailure : ∀ a b, Statement (.mapChannelFailure a b) := fun _ _ => free rfl

/-- cacheInvalidationDone. -/
theorem cacheInvalidationDone : Statement .cacheInvalidationDone := free rfl

/-- burstGrant. -/
theorem burstGrant : ∀ a b, Statement (.burstGrant a b) := fun _ _ => free rfl

/-- moverReadCompletion. -/
theorem moverReadCompletion : ∀ a b, Statement (.moverReadCompletion a b) := fun _ _ => free rfl

/-- moverReadTimeout. -/
theorem moverReadTimeout : ∀ a, Statement (.moverReadTimeout a) := fun _ => free rfl

/-- tagQuarantineExpiry. -/
theorem tagQuarantineExpiry : ∀ a, Statement (.tagQuarantineExpiry a) := fun _ => free rfl

/-- transferComplete. -/
theorem transferComplete : ∀ a, Statement (.transferComplete a) := fun _ => free rfl

/-- flushReadComplete. -/
theorem flushReadComplete : ∀ a b, Statement (.flushReadComplete a b) := fun _ _ => free rfl

/-- copy. -/
theorem copy : ∀ a b c d, Statement (.copy a b c d) := fun _ _ _ _ => free rfl

/-- channelEnable. -/
theorem channelEnable : ∀ a, Statement (.channelEnable a) := fun _ => free rfl

/-- channelDisable. -/
theorem channelDisable : ∀ a, Statement (.channelDisable a) := fun _ => free rfl

/-- swReq. -/
theorem swReq : ∀ a, Statement (.swReq a) := fun _ => free rfl

/-- channelDesc. -/
theorem channelDesc : ∀ a b, Statement (.channelDesc a b) := fun _ _ => free rfl

/-- mqEnable. -/
theorem mqEnable : ∀ a b, Statement (.mqEnable a b) := fun _ _ => free rfl

/-- mqCons. -/
theorem mqCons : ∀ a b, Statement (.mqCons a b) := fun _ _ => free rfl

/-- pwinPages. -/
theorem pwinPages : ∀ a, Statement (.pwinPages a) := fun _ => free rfl

/-- pairLinkDown. -/
theorem pairLinkDown : ∀ a, Statement (.pairLinkDown a) := fun _ => free rfl

/-- pairLaneRetrain. -/
theorem pairLaneRetrain : ∀ a, Statement (.pairLaneRetrain a) := fun _ => free rfl

/-- flitIdle. -/
theorem flitIdle : ∀ a, Statement (.flitIdle a) := fun _ => free rfl

/-- flitNak. -/
theorem flitNak : ∀ a, Statement (.flitNak a) := fun _ => free rfl

/-- flitMirror. -/
theorem flitMirror : ∀ a b c, Statement (.flitMirror a b c) := fun _ _ _ => free rfl

/-- flitMirrorAck. -/
theorem flitMirrorAck : ∀ a b, Statement (.flitMirrorAck a b) := fun _ _ => free rfl

/-- flitFwdDesc. -/
theorem flitFwdDesc : ∀ a b, Statement (.flitFwdDesc a b) := fun _ _ => free rfl

/-- flitFwdGrant. -/
theorem flitFwdGrant : ∀ a b c d e f, Statement (.flitFwdGrant a b c d e f) := fun _ _ _ _ _ _ => free rfl

/-- flitFwdData. -/
theorem flitFwdData : ∀ a b c, Statement (.flitFwdData a b c) := fun _ _ _ => free rfl

/-- flitFwdDone. -/
theorem flitFwdDone : ∀ a b c d, Statement (.flitFwdDone a b c d) := fun _ _ _ _ => free rfl

/-- flitSealReady. -/
theorem flitSealReady : ∀ a b c, Statement (.flitSealReady a b c) := fun _ _ _ => free rfl

/-- flitMeta. -/
theorem flitMeta : ∀ a b c, Statement (.flitMeta a b c) := fun _ _ _ => free rfl

/-- flitHaltNotice. -/
theorem flitHaltNotice : ∀ a, Statement (.flitHaltNotice a) := fun _ => free rfl

/-- flitState. -/
theorem flitState : ∀ a b, Statement (.flitState a b) := fun _ _ => free rfl

/-- joinTimeout. -/
theorem joinTimeout : Statement .joinTimeout := free rfl

/-- pairWaitExpiry. -/
theorem pairWaitExpiry : Statement .pairWaitExpiry := free rfl

/-- probeTimeout. -/
theorem probeTimeout : Statement .probeTimeout := free rfl

/-- fenceWaitExpiry. -/
theorem fenceWaitExpiry : Statement .fenceWaitExpiry := free rfl

/-- takeoverComplete. -/
theorem takeoverComplete : Statement .takeoverComplete := free rfl

/-- fenceInFall. -/
theorem fenceInFall : Statement .fenceInFall := free rfl

/-- fenceInRise. -/
theorem fenceInRise : Statement .fenceInRise := free rfl

/-- chainCmd. -/
theorem chainCmd : ∀ a b, Statement (.chainCmd a b) := fun _ _ => free rfl

/-- scratchWrite. -/
theorem scratchWrite : ∀ a b c, Statement (.scratchWrite a b c) := fun _ _ _ => free rfl

/-- scratchRead. -/
theorem scratchRead : ∀ a b c, Statement (.scratchRead a b c) := fun _ _ _ => free rfl

/-- chainTod. -/
theorem chainTod : ∀ a, Statement (.chainTod a) := fun _ => free rfl

/-- chainEnum. -/
theorem chainEnum : ∀ a, Statement (.chainEnum a) := fun _ => free rfl

/-- alertQuery. -/
theorem alertQuery : ∀ a, Statement (.alertQuery a) := fun _ => free rfl

/-- chainProbe. -/
theorem chainProbe : ∀ a b c, Statement (.chainProbe a b c) := fun _ _ _ => free rfl

/-- probeReply. -/
theorem probeReply : ∀ a b, Statement (.probeReply a b) := fun _ _ => free rfl

/-- alertAck. -/
theorem alertAck : Statement .alertAck := free rfl

/-- chainBreak. -/
theorem chainBreak : Statement .chainBreak := free rfl

/-- chainFrameForward. -/
theorem chainFrameForward : ∀ a b, Statement (.chainFrameForward a b) := fun _ _ => free rfl

/-- alertClr. -/
theorem alertClr : Statement .alertClr := free rfl

/-- portContainment. -/
theorem portContainment : ∀ a b, Statement (.portContainment a b) := fun _ _ => free rfl

/-- containNow. -/
theorem containNow : ∀ a, Statement (.containNow a) := fun _ => free rfl

/-- hpuRelease. -/
theorem hpuRelease : ∀ a b, Statement (.hpuRelease a b) := fun _ _ => free rfl

/-- hostTlpError. -/
theorem hostTlpError : ∀ a b, Statement (.hostTlpError a b) := fun _ _ => free rfl

/-- hostCorrectableWindow. -/
theorem hostCorrectableWindow : ∀ a b, Statement (.hostCorrectableWindow a b) := fun _ _ => free rfl

/-- hostL1Entry. -/
theorem hostL1Entry : ∀ a, Statement (.hostL1Entry a) := fun _ => free rfl

/-- l0pNarrow. -/
theorem l0pNarrow : ∀ a, Statement (.l0pNarrow a) := fun _ => free rfl

/-- l0pWiden. -/
theorem l0pWiden : ∀ a, Statement (.l0pWiden a) := fun _ => free rfl

/-- bar2Write. -/
theorem bar2Write : ∀ a b c, Statement (.bar2Write a b c) := fun _ _ _ => free rfl

/-- bar2Read. -/
theorem bar2Read : ∀ a b c d, Statement (.bar2Read a b c d) := fun _ _ _ _ => free rfl

/-- barSizeWrite. -/
theorem barSizeWrite : ∀ a b, Statement (.barSizeWrite a b) := fun _ _ => free rfl

/-- bar0BadAccess. -/
theorem bar0BadAccess : ∀ a b c, Statement (.bar0BadAccess a b c) := fun _ _ _ => free rfl

/-- pwinGo. -/
theorem pwinGo : Statement .pwinGo := free rfl

/-- pwinCommitInForce. -/
theorem pwinCommitInForce : Statement .pwinCommitInForce := free rfl

/-- poolPageRelease. -/
theorem poolPageRelease : ∀ a, Statement (.poolPageRelease a) := fun _ => free rfl

/-- registerWrite. -/
theorem registerWrite : ∀ a b c d, Statement (.registerWrite a b c d) := fun _ _ _ _ => free rfl

/-- shutdownTimeout. -/
theorem shutdownTimeout : ∀ a, Statement (.shutdownTimeout a) := fun _ => free rfl

/-- rangeWalkEnd. -/
theorem rangeWalkEnd : ∀ a, Statement (.rangeWalkEnd a) := fun _ => free rfl

/-- victimTierEmptied. -/
theorem victimTierEmptied : Statement .victimTierEmptied := free rfl

/-- jtagDebugAttempt. -/
theorem jtagDebugAttempt : Statement .jtagDebugAttempt := free rfl

/-- decayFloorCrossed. -/
theorem decayFloorCrossed : ∀ a, Statement (.decayFloorCrossed a) := fun _ => free rfl

/-- controllerFatalStatus. -/
theorem controllerFatalStatus : ∀ a, Statement (.controllerFatalStatus a) := fun _ => free rfl

/-- uncorrectableLinkError. -/
theorem uncorrectableLinkError : ∀ a b, Statement (.uncorrectableLinkError a b) := fun _ _ => free rfl

/-- flitError. -/
theorem flitError : ∀ a, Statement (.flitError a) := fun _ => free rfl

/-- chainFrameCrcError. -/
theorem chainFrameCrcError : ∀ a, Statement (.chainFrameCrcError a) := fun _ => free rfl

/-- hotReset. -/
theorem hotReset : ∀ a, Statement (.hotReset a) := fun _ => free rfl

/-- hostLinkUp. -/
theorem hostLinkUp : ∀ a b c d, Statement (.hostLinkUp a b c d) := fun _ _ _ _ => free rfl

/-- gapClosed. -/
theorem gapClosed : Statement .gapClosed := free rfl

/-- lowerHalfRead. -/
theorem lowerHalfRead : ∀ a b, Statement (.lowerHalfRead a b) := fun _ _ => free rfl

/-- dpgClkreqN. -/
theorem dpgClkreqN : ∀ a b, Statement (.dpgClkreqN a b) := fun _ _ => free rfl

end Sys2Proof.Laws.F
end

