-- ==== Sys2Proof/Laws/Raise.lean ====
section
/-! SUPPORT. What raising a fault does (Sys2Proof/Machine/Faults.lean, R350): which faults follow from one, what a fault at NOTE or
WARN leaves alone, and what its source holds afterwards. -/

namespace Sys2Proof.Machine

/-- A fault that posting records causes: 0x24 and 0x25, both NOTE (R237, R238). -/
def FaultReq.ofEvents (g : FaultReq) : Prop := g.level = .note ∧ (g.source = 0x24 ∨ g.source = 0x25)

/-- A fault at NOTE or WARN. -/
def FaultReq.low (g : FaultReq) : Prop := g.level = .note ∨ g.level = .warn

theorem FaultReq.ofEvents.low {g : FaultReq} (h : g.ofEvents) : g.low := .inl h.1

theorem State.writeRecord_faults (s : State) (p : Bool) (r : EventRecord) : ∀ g ∈ (s.writeRecord p r).2, g.ofEvents := by
  unfold State.writeRecord
  intro g hg
  dsimp only at hg
  split at hg
  · simp only [List.mem_singleton] at hg
    subst hg
    exact ⟨rfl, .inl rfl⟩
  · cases hg

theorem State.postTo_faults (s : State) (p : Bool) (r : EventRecord) : ∀ g ∈ (s.postTo p r).2.1, g.ofEvents := by
  unfold State.postTo
  intro g hg
  dsimp only at hg
  repeat' split at hg
  all_goals first
    | exact State.writeRecord_faults s p r g hg
    | (cases hg; done)
    | (simp only [List.mem_singleton] at hg
       subst hg
       exact ⟨rfl, .inr rfl⟩)

theorem State.postBoth_faults (s : State) (r : EventRecord) : ∀ g ∈ (s.postBoth r).2, g.ofEvents := by
  unfold State.postBoth
  intro g hg
  rcases List.mem_append.1 hg with h | h
  · exact State.postTo_faults _ _ _ g h
  · exact State.postTo_faults _ _ _ g h

theorem State.faultEvent_faults (s : State) (f : FaultReq) (lvl : Level) : ∀ g ∈ (s.faultEvent f lvl).2, g.ofEvents := by
  unfold State.faultEvent
  intro g hg
  split at hg
  · cases hg
  · exact State.postBoth_faults _ _ g hg

/-- What a fault at NOTE or WARN may change: the halt is out of its reach. -/
def lowParts : List Field := [.gcs, .regs, .flt, .sources, .first, .log, .rings, .clusters, .pair, .chn, .hpus, .out]

theorem State.queueReaction_low (s : State) (f : FaultReq) (lvl : Level) (esc latched : Bool) (h : lvl ≠ .stop) :
    Only lowParts s (s.queueReaction f lvl esc latched).1 ∧
      ∀ g ∈ (s.queueReaction f lvl esc latched).2, g.level = .warn ∧ g.source = 0x02 := by
  unfold State.queueReaction
  dsimp only
  repeat' split
  all_goals first
    | exact absurd ‹_› h
    | exact ⟨Only.refl _ _, fun _ hg => nomatch hg⟩
    | (refine ⟨?_, fun g hg => ?_⟩
       · repeat' (first
           | with_reducible exact Only.refl _ _
           | rfl
           | exact Or.inr rfl
           | with_reducible apply only_withFlt
           | with_reducible apply State.count32_only)
       · first
         | (cases hg; done)
         | (simp only [List.mem_singleton] at hg
            subst hg
            exact ⟨rfl, rfl⟩))

theorem Level.up_warn : Level.up .warn = .contain := rfl

theorem Level.up_note : Level.up .note = .warn := rfl

theorem State.faultLevel_low (s : State) (f : FaultReq) (h : f.low) : s.faultLevel f ≠ .stop := by
  unfold State.faultLevel
  rcases h with h | h <;> rw [h] <;> split <;> decide

theorem State.raiseOne_low (s : State) (f : FaultReq) (h : f.low) :
    Only lowParts s (s.raiseOne f).1 ∧ ∀ g ∈ (s.raiseOne f).2, g.low := by
  unfold State.raiseOne
  have hl := State.faultLevel_low s f h
  generalize s.faultLevel f = lvl at hl ⊢
  dsimp only
  refine ⟨Only.trans ?_ (State.queueReaction_low _ f lvl _ _ hl).1, fun g hg => ?_⟩
  · refine State.faultEvent_only (M := lowParts) ?_ rfl f lvl
    refine State.capture_only (M := lowParts) ?_ rfl f
    refine only_ite (fun _ => Only.refl _ _) (fun _ => State.leaveDock_only (M := lowParts) (Only.refl _ _) rfl)
  · rcases List.mem_append.1 hg with k | k
    · exact (State.faultEvent_faults _ _ _ g k).low
    · exact .inr ((State.queueReaction_low _ f lvl _ _ hl).2 g k).1

theorem State.raiseFuel_low (s : State) (n : Nat) (fs : List FaultReq) (h : ∀ f ∈ fs, f.low) :
    Only lowParts s (s.raiseFuel n fs) := by
  induction n generalizing s fs with
  | zero => exact Only.refl _ _
  | succ n ih =>
    cases fs with
    | nil => exact Only.refl _ _
    | cons f rest =>
      have k := State.raiseOne_low s f (h f (.head _))
      refine k.1.trans (ih _ _ fun g hg => ?_)
      rcases List.mem_append.1 hg with j | j
      · exact h g (.tail _ j)
      · exact k.2 g j

theorem mem_insertFault {f g : FaultReq} {l : List FaultReq} (h : g ∈ insertFault f l) : g = f ∨ g ∈ l := by
  induction l with
  | nil => simpa [insertFault] using h
  | cons x l ih =>
    unfold insertFault at h
    split at h
    · rcases List.mem_cons.1 h with k | k
      · exact .inr (k ▸ .head _)
      · exact (ih k).imp id (.tail _)
    · rcases List.mem_cons.1 h with k | k
      · exact .inl k
      · exact .inr k

theorem mem_orderFaults {g : FaultReq} {l : List FaultReq} (h : g ∈ orderFaults l) : g ∈ l := by
  unfold orderFaults at h
  have key : ∀ (l acc : List FaultReq), g ∈ l.foldl (fun acc f => insertFault f acc) acc → g ∈ l ∨ g ∈ acc := by
    intro l
    induction l with
    | nil => exact fun acc h => .inr h
    | cons x l ih =>
      intro acc h
      rcases ih _ h with k | k
      · exact .inl (.tail _ k)
      · exact (mem_insertFault k).imp (fun e => by rw [e]; exact .head _) id
  exact (key l [] h).resolve_right (fun k => nomatch k)

/-- Faults at NOTE and WARN never halt: they change the fault records, the event rings, and Idle-dock. -/
theorem State.raiseAll_low (s : State) (fs : List FaultReq) (h : ∀ f ∈ fs, f.low) : Only lowParts s (s.raiseAll fs) :=
  State.raiseFuel_low s _ _ fun f hf => h f (mem_orderFaults hf)

theorem State.raise_low (s : State) (source : Byte) (level : Level) (detail : Byte) (h : level = .note ∨ level = .warn) :
    Only lowParts s (s.raise source level detail) := by
  refine State.raiseAll_low s _ fun f hf => ?_
  simp only [List.mem_singleton] at hf
  subst hf
  exact h

theorem State.post_low (s : State) (r : EventRecord) : Only lowParts s (s.post r) :=
  ((State.postBoth_only (M := lowParts) (Only.refl _ s) rfl r)).trans
    (State.raiseAll_low _ _ fun _ hf => (State.postBoth_faults s r _ hf).low)

theorem State.raisePort_low (s : State) (base : Nat) (port : Byte) (level : Level) (detail : Byte) (link : Bool)
    (h : level = .note ∨ level = .warn) : Only (.portGroups :: lowParts) s (s.raisePort base port level detail link) := by
  refine Only.trans (only_withPortGroups (Only.refl _ s) rfl) ((State.raiseAll_low _ _ fun f hf => ?_).mono rfl)
  simp only [List.mem_singleton] at hf
  subst hf
  exact h

/-! ## What a source holds after its fault (R350, R352, R368) -/

/-- A fault that another fault causes: event ring overflow and dropped records, and a dropped reaction. -/
def FaultReq.consequent (g : FaultReq) : Prop := g.source = 0x02 ∨ g.source = 0x24 ∨ g.source = 0x25

theorem State.src_setSrc (s : State) (n m : Byte) (v : SrcState) : (s.setSrc n v).src m = if m = n then v else s.src m := by
  unfold State.src State.setSrc
  have e : (s.withFlt { s.flt with srcs := Tab.set s.flt.srcs SrcState.at0 n.toNat v }).flt.srcs
      = Tab.set s.flt.srcs SrcState.at0 n.toNat v := rfl
  rw [e, Tab.get_set]
  by_cases h : m = n
  · simp [h]
  · rw [if_neg h, if_neg (fun k => h (BitVec.eq_of_toNat_eq k))]

theorem State.src_of_sources {s t : State} (h : t.flt.srcs = s.flt.srcs) (n : Byte) : t.src n = s.src n := by
  unfold State.src
  rw [h]

theorem State.latchFirst_sources (s : State) (f : FaultReq) (lvl : Level) (esc : Bool) :
    (s.latchFirst f lvl esc).flt.srcs = s.flt.srcs :=
  State.latchFirst_only (M := [.flt, .first]) (Only.refl _ s) rfl f lvl esc .sources (by decide)

theorem State.evalPin_sources (s : State) : s.evalPin.flt.srcs = s.flt.srcs := rfl

theorem State.leaveDock_flt (s : State) : s.leaveDock.flt = s.flt :=
  State.leaveDock_only (M := [.gcs, .regs, .log, .clusters, .pair, .out]) (Only.refl _ s) rfl .flt (by decide)

/-- Steps 1 and 5 of R350 on the source of the fault. -/
theorem State.capture_src (s : State) (f : FaultReq) :
    (s.capture f).src f.source =
      { (s.src f.source) with
          count := satTo 32 ((s.src f.source).count + 1), isOpen := true,
          openLevel := if (s.src f.source).isOpen then (s.src f.source).openLevel.sup (s.faultLevel f) else s.faultLevel f,
          lastDetail := f.detail, injected := f.injected } := by
  unfold State.capture
  dsimp only
  rw [State.src_of_sources (State.evalPin_sources _), State.src_setSrc, if_pos rfl,
    State.src_of_sources (State.latchFirst_sources _ _ _ _), State.src_setSrc, if_pos rfl]

/-- The rest of one fault's pass leaves the sources as capturing left them. -/
theorem State.raiseOne_sources (s : State) (f : FaultReq) :
    (s.raiseOne f).1.flt.srcs = ((if s.faultLevel f = .note then s else s.leaveDock).capture f).flt.srcs := by
  unfold State.raiseOne
  dsimp only
  exact ((State.faultEvent_only (M := [.regs, .rings, .chn, .hpus, .out]) (Only.refl _ _) rfl f _ .sources (by decide)).symm.trans
    (State.queueReaction_only (M := [.gcs, .regs, .flt, .sets, .cht, .log, .wch, .rings, .ios, .dcmds, .ports, .portGroups, .rowOps,
      .commits, .scc, .interp, .mon, .pair, .chn, .hpus, .out]) (Only.refl _ _) rfl f _ _ _ .sources (by decide)).symm).symm

theorem State.capture_other (s : State) (f : FaultReq) (n : Byte) (h : n ≠ f.source) : (s.capture f).src n = s.src n := by
  unfold State.capture
  dsimp only
  rw [State.src_of_sources (State.evalPin_sources _), State.src_setSrc, if_neg h,
    State.src_of_sources (State.latchFirst_sources _ _ _ _), State.src_setSrc, if_neg h]

theorem State.src_calm (s : State) (f : FaultReq) (n : Byte) :
    (if s.faultLevel f = .note then s else s.leaveDock).src n = s.src n := by
  split
  · rfl
  · exact State.src_of_sources (by rw [State.leaveDock_flt]) n

theorem State.raiseOne_other (s : State) (f : FaultReq) (n : Byte) (h : n ≠ f.source) : (s.raiseOne f).1.src n = s.src n := by
  rw [State.src_of_sources (State.raiseOne_sources s f), State.capture_other _ _ _ h, State.src_calm]

/-! ## The faults that ending work causes -/

theorem State.passEnded_faults (s : State) (r : RingId) (n : Nat) : ∀ g ∈ (s.passEnded r n).2.1, g.ofEvents := by
  induction n generalizing s with
  | zero => exact fun g hg => nomatch hg
  | succ n ih =>
    intro g hg
    unfold State.passEnded at hg
    dsimp only at hg
    split at hg
    · cases hg
    · split at hg
      · exact ih _ g hg
      · split at hg
        · rename_i e
          exact State.postTo_faults _ _ _ g (by rw [e]; exact hg)
        · rename_i e
          rcases List.mem_append.1 hg with k | k
          · exact State.postTo_faults _ _ _ g (by rw [e]; exact k)
          · exact ih _ g k

theorem State.advanceHead_faults (s : State) (r : RingId) : ∀ g ∈ (s.advanceHead r).2, g.ofEvents := by
  unfold State.advanceHead
  intro g hg
  split at hg
  · cases hg
  · exact State.passEnded_faults _ _ _ g hg

theorem State.endEntry_faults (s : State) (r : RingId) (pos : Nat) (status : Byte) (rec : Option EventRecord) :
    ∀ g ∈ (s.endEntry r pos status rec).2, g.ofEvents := State.advanceHead_faults _ _

theorem State.endIo_faults (s : State) (io : Io) (status detail : Byte) (lba count : Nat) :
    ∀ g ∈ (s.endIo io status detail lba count).2, g.ofEvents := by
  unfold State.endIo
  intro g hg
  dsimp only at hg
  repeat' split at hg
  all_goals first
    | exact State.endEntry_faults _ _ _ _ _ g hg
    | (cases hg; done)

theorem State.endIos_faults (s : State) (f : Io → Byte × Byte) (l : List Io) : ∀ g ∈ (s.endIos f l).2, g.ofEvents := by
  induction l generalizing s with
  | nil => exact fun g hg => nomatch hg
  | cons io l ih =>
    intro g hg
    unfold State.endIos at hg
    rcases List.mem_append.1 hg with k | k
    · exact State.endIo_faults _ _ _ _ _ _ g k
    · exact ih _ g k

theorem State.preservePairs_faults (s : State) (id : Nat) : ∀ g ∈ (s.preservePairs id).2, g.ofEvents := by
  unfold State.preservePairs
  intro g hg
  dsimp only at hg
  split at hg
  · cases hg
  · rcases List.mem_append.1 hg with k | k
    · exact State.endIos_faults _ _ _ g k
    · exact State.postBoth_faults _ _ g k

theorem State.preserveAll_faults (s : State) (l : List Nat) : ∀ g ∈ (s.preserveAll l).2, g.ofEvents := by
  induction l generalizing s with
  | nil => exact fun g hg => nomatch hg
  | cons i l ih =>
    intro g hg
    unfold State.preserveAll at hg
    rcases List.mem_append.1 hg with k | k
    · exact State.preservePairs_faults _ _ g k
    · exact ih _ g k

theorem State.abortRing_faults (s : State) (n : BitVec 10) (stop : Nat) (keep : Io → Bool) :
    ∀ g ∈ (s.abortRing n stop keep).2, g.ofEvents := State.advanceHead_faults _ _

theorem State.abortAllRings_faults (s : State) (h : HaltInfo) (l : List (BitVec 10)) :
    ∀ g ∈ (s.abortAllRings h l).2, g.ofEvents := by
  induction l generalizing s with
  | nil => exact fun g hg => nomatch hg
  | cons i l ih =>
    intro g hg
    unfold State.abortAllRings at hg
    rcases List.mem_append.1 hg with k | k
    · exact State.abortRing_faults _ _ _ _ g k
    · exact ih _ g k

theorem State.haltPairs_faults (s : State) (h : HaltInfo) : ∀ g ∈ (s.haltPairs h).2, g.ofEvents := by
  unfold State.haltPairs
  intro g hg
  dsimp only at hg
  split at hg
  · cases hg
  · rcases List.mem_append.1 hg with k | k
    · rcases List.mem_append.1 k with j | j
      · exact State.preserveAll_faults _ _ g j
      · exact State.abortAllRings_faults _ _ _ g j
    · exact State.postBoth_faults _ _ g k

theorem FaultReq.ofEvents.consequent {g : FaultReq} (h : g.ofEvents) : g.consequent := .inr h.2

theorem State.raiseOne_consequent (s : State) (f : FaultReq) : ∀ g ∈ (s.raiseOne f).2, g.consequent := by
  unfold State.raiseOne
  intro g hg
  dsimp only at hg
  rcases List.mem_append.1 hg with k | k
  · exact (State.faultEvent_faults _ _ _ g k).consequent
  · unfold State.queueReaction at k
    dsimp only at k
    repeat' split at k
    all_goals first
      | (cases k; done)
      | exact (State.haltPairs_faults _ _ g k).consequent
      | (simp only [List.mem_singleton] at k
         subst k
         exact .inl rfl)

theorem State.raiseFuel_other (s : State) (m : Nat) (fs : List FaultReq) (n : Byte) (h : ∀ f ∈ fs, f.source ≠ n)
    (h2 : n ≠ 0x02) (h3 : n ≠ 0x24) (h4 : n ≠ 0x25) : (s.raiseFuel m fs).src n = s.src n := by
  induction m generalizing s fs with
  | zero => rfl
  | succ m ih =>
    cases fs with
    | nil => rfl
    | cons f rest =>
      unfold State.raiseFuel
      rw [ih]
      · exact State.raiseOne_other s f n (h f (.head _)).symm
      · intro g hg
        rcases List.mem_append.1 hg with k | k
        · exact h g (.tail _ k)
        · rcases State.raiseOne_consequent s f g k with e | e | e <;> rw [e]
          · exact h2.symm
          · exact h3.symm
          · exact h4.symm

/-- The source of a fault after it was raised, with the faults that it causes: counted, open, its detail kept (R350). -/
theorem State.raise_src (s : State) (n : Byte) (level : Level) (detail : Byte) (h2 : n ≠ 0x02) (h3 : n ≠ 0x24) (h4 : n ≠ 0x25) :
    ((s.raise n level detail).src n).count = satTo 32 ((s.src n).count + 1) ∧
    ((s.raise n level detail).src n).isOpen = true ∧ ((s.raise n level detail).src n).lastDetail = detail ∧
    ((s.raise n level detail).src n).injected = false := by
  have e : (s.raise n level detail).src n = ((s.raiseOne (fault n level detail)).1).src n := by
    show (s.raiseFuel 68 [fault n level detail]).src n = _
    unfold State.raiseFuel
    refine State.raiseFuel_other _ _ _ _ ?_ h2 h3 h4
    intro g hg
    rcases State.raiseOne_consequent s _ g hg with e | e | e <;> rw [e]
    · exact h2.symm
    · exact h3.symm
    · exact h4.symm
  have k := State.capture_src (if s.faultLevel (fault n level detail) = .note then s else s.leaveDock) (fault n level detail)
  rw [State.src_calm] at k
  have e2 := (e.trans (State.src_of_sources (State.raiseOne_sources s _) n)).trans k
  rw [e2]
  exact ⟨rfl, rfl, rfl, rfl⟩

/-- Every other source that no consequent fault names is left alone. -/
theorem State.raise_other (s : State) (n m : Byte) (level : Level) (detail : Byte) (h : m ≠ n) (h2 : m ≠ 0x02) (h3 : m ≠ 0x24)
    (h4 : m ≠ 0x25) : (s.raise n level detail).src m = s.src m :=
  State.raiseFuel_other _ _ _ _ (fun f hf => by
    have := mem_orderFaults hf
    simp only [List.mem_singleton] at this
    rw [this]
    exact h.symm) h2 h3 h4

end Sys2Proof.Machine
end

