-- ==== Sys2Proof/Laws/State.lean ====
section
/-! SUPPORT. What each named update of the state (Sys2Proof/Machine/State.lean) leaves in each field, true by rfl, so that no proof
unfolds a record update; and the indexed parts of the state after one of them was replaced. -/

set_option linter.style.longLine false

namespace Sys2Proof.Machine

/-! ## One lemma per field per update -/


@[simp] theorem State.withGcs_gcs (s : State) (v : Gcs) : (s.withGcs v).gcs = v := rfl
@[simp] theorem State.withGcs_regs (s : State) (v : Gcs) : (s.withGcs v).regs = s.regs := rfl
@[simp] theorem State.withGcs_flt (s : State) (v : Gcs) : (s.withGcs v).flt = s.flt := rfl
@[simp] theorem State.withGcs_ctxs (s : State) (v : Gcs) : (s.withGcs v).ctxs = s.ctxs := rfl
@[simp] theorem State.withGcs_sets (s : State) (v : Gcs) : (s.withGcs v).sets = s.sets := rfl
@[simp] theorem State.withGcs_incarnations (s : State) (v : Gcs) : (s.withGcs v).incarnations = s.incarnations := rfl
@[simp] theorem State.withGcs_profiles (s : State) (v : Gcs) : (s.withGcs v).profiles = s.profiles := rfl
@[simp] theorem State.withGcs_cht (s : State) (v : Gcs) : (s.withGcs v).cht = s.cht := rfl
@[simp] theorem State.withGcs_log (s : State) (v : Gcs) : (s.withGcs v).log = s.log := rfl
@[simp] theorem State.withGcs_wch (s : State) (v : Gcs) : (s.withGcs v).wch = s.wch := rfl
@[simp] theorem State.withGcs_rings (s : State) (v : Gcs) : (s.withGcs v).rings = s.rings := rfl
@[simp] theorem State.withGcs_privLock (s : State) (v : Gcs) : (s.withGcs v).privLock = s.privLock := rfl
@[simp] theorem State.withGcs_ios (s : State) (v : Gcs) : (s.withGcs v).ios = s.ios := rfl
@[simp] theorem State.withGcs_nextId (s : State) (v : Gcs) : (s.withGcs v).nextId = s.nextId := rfl
@[simp] theorem State.withGcs_dcmds (s : State) (v : Gcs) : (s.withGcs v).dcmds = s.dcmds := rfl
@[simp] theorem State.withGcs_ports (s : State) (v : Gcs) : (s.withGcs v).ports = s.ports := rfl
@[simp] theorem State.withGcs_portGroups (s : State) (v : Gcs) : (s.withGcs v).portGroups = s.portGroups := rfl
@[simp] theorem State.withGcs_rowOps (s : State) (v : Gcs) : (s.withGcs v).rowOps = s.rowOps := rfl
@[simp] theorem State.withGcs_commits (s : State) (v : Gcs) : (s.withGcs v).commits = s.commits := rfl
@[simp] theorem State.withGcs_passes (s : State) (v : Gcs) : (s.withGcs v).passes = s.passes := rfl
@[simp] theorem State.withGcs_arbitrating (s : State) (v : Gcs) : (s.withGcs v).arbitrating = s.arbitrating := rfl
@[simp] theorem State.withGcs_clusters (s : State) (v : Gcs) : (s.withGcs v).clusters = s.clusters := rfl
@[simp] theorem State.withGcs_scc (s : State) (v : Gcs) : (s.withGcs v).scc = s.scc := rfl
@[simp] theorem State.withGcs_dmv (s : State) (v : Gcs) : (s.withGcs v).dmv = s.dmv := rfl
@[simp] theorem State.withGcs_interp (s : State) (v : Gcs) : (s.withGcs v).interp = s.interp := rfl
@[simp] theorem State.withGcs_sec (s : State) (v : Gcs) : (s.withGcs v).sec = s.sec := rfl
@[simp] theorem State.withGcs_mon (s : State) (v : Gcs) : (s.withGcs v).mon = s.mon := rfl
@[simp] theorem State.withGcs_pair (s : State) (v : Gcs) : (s.withGcs v).pair = s.pair := rfl
@[simp] theorem State.withGcs_chn (s : State) (v : Gcs) : (s.withGcs v).chn = s.chn := rfl
@[simp] theorem State.withGcs_hpus (s : State) (v : Gcs) : (s.withGcs v).hpus = s.hpus := rfl
@[simp] theorem State.withGcs_pwin (s : State) (v : Gcs) : (s.withGcs v).pwin = s.pwin := rfl
@[simp] theorem State.withGcs_map (s : State) (v : Gcs) : (s.withGcs v).map = s.map := rfl
@[simp] theorem State.withGcs_sched (s : State) (v : Gcs) : (s.withGcs v).sched = s.sched := rfl
@[simp] theorem State.withGcs_freeCount (s : State) (v : Gcs) : (s.withGcs v).freeCount = s.freeCount := rfl
@[simp] theorem State.withGcs_out (s : State) (v : Gcs) : (s.withGcs v).out = s.out := rfl
@[simp] theorem State.withGcs_pending (s : State) (v : Gcs) : (s.withGcs v).pending = s.pending := rfl

@[simp] theorem State.withRegs_gcs (s : State) (v : Tab Word64) : (s.withRegs v).gcs = s.gcs := rfl
@[simp] theorem State.withRegs_regs (s : State) (v : Tab Word64) : (s.withRegs v).regs = v := rfl
@[simp] theorem State.withRegs_flt (s : State) (v : Tab Word64) : (s.withRegs v).flt = s.flt := rfl
@[simp] theorem State.withRegs_ctxs (s : State) (v : Tab Word64) : (s.withRegs v).ctxs = s.ctxs := rfl
@[simp] theorem State.withRegs_sets (s : State) (v : Tab Word64) : (s.withRegs v).sets = s.sets := rfl
@[simp] theorem State.withRegs_incarnations (s : State) (v : Tab Word64) : (s.withRegs v).incarnations = s.incarnations := rfl
@[simp] theorem State.withRegs_profiles (s : State) (v : Tab Word64) : (s.withRegs v).profiles = s.profiles := rfl
@[simp] theorem State.withRegs_cht (s : State) (v : Tab Word64) : (s.withRegs v).cht = s.cht := rfl
@[simp] theorem State.withRegs_log (s : State) (v : Tab Word64) : (s.withRegs v).log = s.log := rfl
@[simp] theorem State.withRegs_wch (s : State) (v : Tab Word64) : (s.withRegs v).wch = s.wch := rfl
@[simp] theorem State.withRegs_rings (s : State) (v : Tab Word64) : (s.withRegs v).rings = s.rings := rfl
@[simp] theorem State.withRegs_privLock (s : State) (v : Tab Word64) : (s.withRegs v).privLock = s.privLock := rfl
@[simp] theorem State.withRegs_ios (s : State) (v : Tab Word64) : (s.withRegs v).ios = s.ios := rfl
@[simp] theorem State.withRegs_nextId (s : State) (v : Tab Word64) : (s.withRegs v).nextId = s.nextId := rfl
@[simp] theorem State.withRegs_dcmds (s : State) (v : Tab Word64) : (s.withRegs v).dcmds = s.dcmds := rfl
@[simp] theorem State.withRegs_ports (s : State) (v : Tab Word64) : (s.withRegs v).ports = s.ports := rfl
@[simp] theorem State.withRegs_portGroups (s : State) (v : Tab Word64) : (s.withRegs v).portGroups = s.portGroups := rfl
@[simp] theorem State.withRegs_rowOps (s : State) (v : Tab Word64) : (s.withRegs v).rowOps = s.rowOps := rfl
@[simp] theorem State.withRegs_commits (s : State) (v : Tab Word64) : (s.withRegs v).commits = s.commits := rfl
@[simp] theorem State.withRegs_passes (s : State) (v : Tab Word64) : (s.withRegs v).passes = s.passes := rfl
@[simp] theorem State.withRegs_arbitrating (s : State) (v : Tab Word64) : (s.withRegs v).arbitrating = s.arbitrating := rfl
@[simp] theorem State.withRegs_clusters (s : State) (v : Tab Word64) : (s.withRegs v).clusters = s.clusters := rfl
@[simp] theorem State.withRegs_scc (s : State) (v : Tab Word64) : (s.withRegs v).scc = s.scc := rfl
@[simp] theorem State.withRegs_dmv (s : State) (v : Tab Word64) : (s.withRegs v).dmv = s.dmv := rfl
@[simp] theorem State.withRegs_interp (s : State) (v : Tab Word64) : (s.withRegs v).interp = s.interp := rfl
@[simp] theorem State.withRegs_sec (s : State) (v : Tab Word64) : (s.withRegs v).sec = s.sec := rfl
@[simp] theorem State.withRegs_mon (s : State) (v : Tab Word64) : (s.withRegs v).mon = s.mon := rfl
@[simp] theorem State.withRegs_pair (s : State) (v : Tab Word64) : (s.withRegs v).pair = s.pair := rfl
@[simp] theorem State.withRegs_chn (s : State) (v : Tab Word64) : (s.withRegs v).chn = s.chn := rfl
@[simp] theorem State.withRegs_hpus (s : State) (v : Tab Word64) : (s.withRegs v).hpus = s.hpus := rfl
@[simp] theorem State.withRegs_pwin (s : State) (v : Tab Word64) : (s.withRegs v).pwin = s.pwin := rfl
@[simp] theorem State.withRegs_map (s : State) (v : Tab Word64) : (s.withRegs v).map = s.map := rfl
@[simp] theorem State.withRegs_sched (s : State) (v : Tab Word64) : (s.withRegs v).sched = s.sched := rfl
@[simp] theorem State.withRegs_freeCount (s : State) (v : Tab Word64) : (s.withRegs v).freeCount = s.freeCount := rfl
@[simp] theorem State.withRegs_out (s : State) (v : Tab Word64) : (s.withRegs v).out = s.out := rfl
@[simp] theorem State.withRegs_pending (s : State) (v : Tab Word64) : (s.withRegs v).pending = s.pending := rfl

@[simp] theorem State.withFlt_gcs (s : State) (v : Flt) : (s.withFlt v).gcs = s.gcs := rfl
@[simp] theorem State.withFlt_regs (s : State) (v : Flt) : (s.withFlt v).regs = s.regs := rfl
@[simp] theorem State.withFlt_flt (s : State) (v : Flt) : (s.withFlt v).flt = v := rfl
@[simp] theorem State.withFlt_ctxs (s : State) (v : Flt) : (s.withFlt v).ctxs = s.ctxs := rfl
@[simp] theorem State.withFlt_sets (s : State) (v : Flt) : (s.withFlt v).sets = s.sets := rfl
@[simp] theorem State.withFlt_incarnations (s : State) (v : Flt) : (s.withFlt v).incarnations = s.incarnations := rfl
@[simp] theorem State.withFlt_profiles (s : State) (v : Flt) : (s.withFlt v).profiles = s.profiles := rfl
@[simp] theorem State.withFlt_cht (s : State) (v : Flt) : (s.withFlt v).cht = s.cht := rfl
@[simp] theorem State.withFlt_log (s : State) (v : Flt) : (s.withFlt v).log = s.log := rfl
@[simp] theorem State.withFlt_wch (s : State) (v : Flt) : (s.withFlt v).wch = s.wch := rfl
@[simp] theorem State.withFlt_rings (s : State) (v : Flt) : (s.withFlt v).rings = s.rings := rfl
@[simp] theorem State.withFlt_privLock (s : State) (v : Flt) : (s.withFlt v).privLock = s.privLock := rfl
@[simp] theorem State.withFlt_ios (s : State) (v : Flt) : (s.withFlt v).ios = s.ios := rfl
@[simp] theorem State.withFlt_nextId (s : State) (v : Flt) : (s.withFlt v).nextId = s.nextId := rfl
@[simp] theorem State.withFlt_dcmds (s : State) (v : Flt) : (s.withFlt v).dcmds = s.dcmds := rfl
@[simp] theorem State.withFlt_ports (s : State) (v : Flt) : (s.withFlt v).ports = s.ports := rfl
@[simp] theorem State.withFlt_portGroups (s : State) (v : Flt) : (s.withFlt v).portGroups = s.portGroups := rfl
@[simp] theorem State.withFlt_rowOps (s : State) (v : Flt) : (s.withFlt v).rowOps = s.rowOps := rfl
@[simp] theorem State.withFlt_commits (s : State) (v : Flt) : (s.withFlt v).commits = s.commits := rfl
@[simp] theorem State.withFlt_passes (s : State) (v : Flt) : (s.withFlt v).passes = s.passes := rfl
@[simp] theorem State.withFlt_arbitrating (s : State) (v : Flt) : (s.withFlt v).arbitrating = s.arbitrating := rfl
@[simp] theorem State.withFlt_clusters (s : State) (v : Flt) : (s.withFlt v).clusters = s.clusters := rfl
@[simp] theorem State.withFlt_scc (s : State) (v : Flt) : (s.withFlt v).scc = s.scc := rfl
@[simp] theorem State.withFlt_dmv (s : State) (v : Flt) : (s.withFlt v).dmv = s.dmv := rfl
@[simp] theorem State.withFlt_interp (s : State) (v : Flt) : (s.withFlt v).interp = s.interp := rfl
@[simp] theorem State.withFlt_sec (s : State) (v : Flt) : (s.withFlt v).sec = s.sec := rfl
@[simp] theorem State.withFlt_mon (s : State) (v : Flt) : (s.withFlt v).mon = s.mon := rfl
@[simp] theorem State.withFlt_pair (s : State) (v : Flt) : (s.withFlt v).pair = s.pair := rfl
@[simp] theorem State.withFlt_chn (s : State) (v : Flt) : (s.withFlt v).chn = s.chn := rfl
@[simp] theorem State.withFlt_hpus (s : State) (v : Flt) : (s.withFlt v).hpus = s.hpus := rfl
@[simp] theorem State.withFlt_pwin (s : State) (v : Flt) : (s.withFlt v).pwin = s.pwin := rfl
@[simp] theorem State.withFlt_map (s : State) (v : Flt) : (s.withFlt v).map = s.map := rfl
@[simp] theorem State.withFlt_sched (s : State) (v : Flt) : (s.withFlt v).sched = s.sched := rfl
@[simp] theorem State.withFlt_freeCount (s : State) (v : Flt) : (s.withFlt v).freeCount = s.freeCount := rfl
@[simp] theorem State.withFlt_out (s : State) (v : Flt) : (s.withFlt v).out = s.out := rfl
@[simp] theorem State.withFlt_pending (s : State) (v : Flt) : (s.withFlt v).pending = s.pending := rfl

@[simp] theorem State.withCtxs_gcs (s : State) (v : Tab SCtx) : (s.withCtxs v).gcs = s.gcs := rfl
@[simp] theorem State.withCtxs_regs (s : State) (v : Tab SCtx) : (s.withCtxs v).regs = s.regs := rfl
@[simp] theorem State.withCtxs_flt (s : State) (v : Tab SCtx) : (s.withCtxs v).flt = s.flt := rfl
@[simp] theorem State.withCtxs_ctxs (s : State) (v : Tab SCtx) : (s.withCtxs v).ctxs = v := rfl
@[simp] theorem State.withCtxs_sets (s : State) (v : Tab SCtx) : (s.withCtxs v).sets = s.sets := rfl
@[simp] theorem State.withCtxs_incarnations (s : State) (v : Tab SCtx) : (s.withCtxs v).incarnations = s.incarnations := rfl
@[simp] theorem State.withCtxs_profiles (s : State) (v : Tab SCtx) : (s.withCtxs v).profiles = s.profiles := rfl
@[simp] theorem State.withCtxs_cht (s : State) (v : Tab SCtx) : (s.withCtxs v).cht = s.cht := rfl
@[simp] theorem State.withCtxs_log (s : State) (v : Tab SCtx) : (s.withCtxs v).log = s.log := rfl
@[simp] theorem State.withCtxs_wch (s : State) (v : Tab SCtx) : (s.withCtxs v).wch = s.wch := rfl
@[simp] theorem State.withCtxs_rings (s : State) (v : Tab SCtx) : (s.withCtxs v).rings = s.rings := rfl
@[simp] theorem State.withCtxs_privLock (s : State) (v : Tab SCtx) : (s.withCtxs v).privLock = s.privLock := rfl
@[simp] theorem State.withCtxs_ios (s : State) (v : Tab SCtx) : (s.withCtxs v).ios = s.ios := rfl
@[simp] theorem State.withCtxs_nextId (s : State) (v : Tab SCtx) : (s.withCtxs v).nextId = s.nextId := rfl
@[simp] theorem State.withCtxs_dcmds (s : State) (v : Tab SCtx) : (s.withCtxs v).dcmds = s.dcmds := rfl
@[simp] theorem State.withCtxs_ports (s : State) (v : Tab SCtx) : (s.withCtxs v).ports = s.ports := rfl
@[simp] theorem State.withCtxs_portGroups (s : State) (v : Tab SCtx) : (s.withCtxs v).portGroups = s.portGroups := rfl
@[simp] theorem State.withCtxs_rowOps (s : State) (v : Tab SCtx) : (s.withCtxs v).rowOps = s.rowOps := rfl
@[simp] theorem State.withCtxs_commits (s : State) (v : Tab SCtx) : (s.withCtxs v).commits = s.commits := rfl
@[simp] theorem State.withCtxs_passes (s : State) (v : Tab SCtx) : (s.withCtxs v).passes = s.passes := rfl
@[simp] theorem State.withCtxs_arbitrating (s : State) (v : Tab SCtx) : (s.withCtxs v).arbitrating = s.arbitrating := rfl
@[simp] theorem State.withCtxs_clusters (s : State) (v : Tab SCtx) : (s.withCtxs v).clusters = s.clusters := rfl
@[simp] theorem State.withCtxs_scc (s : State) (v : Tab SCtx) : (s.withCtxs v).scc = s.scc := rfl
@[simp] theorem State.withCtxs_dmv (s : State) (v : Tab SCtx) : (s.withCtxs v).dmv = s.dmv := rfl
@[simp] theorem State.withCtxs_interp (s : State) (v : Tab SCtx) : (s.withCtxs v).interp = s.interp := rfl
@[simp] theorem State.withCtxs_sec (s : State) (v : Tab SCtx) : (s.withCtxs v).sec = s.sec := rfl
@[simp] theorem State.withCtxs_mon (s : State) (v : Tab SCtx) : (s.withCtxs v).mon = s.mon := rfl
@[simp] theorem State.withCtxs_pair (s : State) (v : Tab SCtx) : (s.withCtxs v).pair = s.pair := rfl
@[simp] theorem State.withCtxs_chn (s : State) (v : Tab SCtx) : (s.withCtxs v).chn = s.chn := rfl
@[simp] theorem State.withCtxs_hpus (s : State) (v : Tab SCtx) : (s.withCtxs v).hpus = s.hpus := rfl
@[simp] theorem State.withCtxs_pwin (s : State) (v : Tab SCtx) : (s.withCtxs v).pwin = s.pwin := rfl
@[simp] theorem State.withCtxs_map (s : State) (v : Tab SCtx) : (s.withCtxs v).map = s.map := rfl
@[simp] theorem State.withCtxs_sched (s : State) (v : Tab SCtx) : (s.withCtxs v).sched = s.sched := rfl
@[simp] theorem State.withCtxs_freeCount (s : State) (v : Tab SCtx) : (s.withCtxs v).freeCount = s.freeCount := rfl
@[simp] theorem State.withCtxs_out (s : State) (v : Tab SCtx) : (s.withCtxs v).out = s.out := rfl
@[simp] theorem State.withCtxs_pending (s : State) (v : Tab SCtx) : (s.withCtxs v).pending = s.pending := rfl

@[simp] theorem State.withSets_gcs (s : State) (v : Tab ArraySet) : (s.withSets v).gcs = s.gcs := rfl
@[simp] theorem State.withSets_regs (s : State) (v : Tab ArraySet) : (s.withSets v).regs = s.regs := rfl
@[simp] theorem State.withSets_flt (s : State) (v : Tab ArraySet) : (s.withSets v).flt = s.flt := rfl
@[simp] theorem State.withSets_ctxs (s : State) (v : Tab ArraySet) : (s.withSets v).ctxs = s.ctxs := rfl
@[simp] theorem State.withSets_sets (s : State) (v : Tab ArraySet) : (s.withSets v).sets = v := rfl
@[simp] theorem State.withSets_incarnations (s : State) (v : Tab ArraySet) : (s.withSets v).incarnations = s.incarnations := rfl
@[simp] theorem State.withSets_profiles (s : State) (v : Tab ArraySet) : (s.withSets v).profiles = s.profiles := rfl
@[simp] theorem State.withSets_cht (s : State) (v : Tab ArraySet) : (s.withSets v).cht = s.cht := rfl
@[simp] theorem State.withSets_log (s : State) (v : Tab ArraySet) : (s.withSets v).log = s.log := rfl
@[simp] theorem State.withSets_wch (s : State) (v : Tab ArraySet) : (s.withSets v).wch = s.wch := rfl
@[simp] theorem State.withSets_rings (s : State) (v : Tab ArraySet) : (s.withSets v).rings = s.rings := rfl
@[simp] theorem State.withSets_privLock (s : State) (v : Tab ArraySet) : (s.withSets v).privLock = s.privLock := rfl
@[simp] theorem State.withSets_ios (s : State) (v : Tab ArraySet) : (s.withSets v).ios = s.ios := rfl
@[simp] theorem State.withSets_nextId (s : State) (v : Tab ArraySet) : (s.withSets v).nextId = s.nextId := rfl
@[simp] theorem State.withSets_dcmds (s : State) (v : Tab ArraySet) : (s.withSets v).dcmds = s.dcmds := rfl
@[simp] theorem State.withSets_ports (s : State) (v : Tab ArraySet) : (s.withSets v).ports = s.ports := rfl
@[simp] theorem State.withSets_portGroups (s : State) (v : Tab ArraySet) : (s.withSets v).portGroups = s.portGroups := rfl
@[simp] theorem State.withSets_rowOps (s : State) (v : Tab ArraySet) : (s.withSets v).rowOps = s.rowOps := rfl
@[simp] theorem State.withSets_commits (s : State) (v : Tab ArraySet) : (s.withSets v).commits = s.commits := rfl
@[simp] theorem State.withSets_passes (s : State) (v : Tab ArraySet) : (s.withSets v).passes = s.passes := rfl
@[simp] theorem State.withSets_arbitrating (s : State) (v : Tab ArraySet) : (s.withSets v).arbitrating = s.arbitrating := rfl
@[simp] theorem State.withSets_clusters (s : State) (v : Tab ArraySet) : (s.withSets v).clusters = s.clusters := rfl
@[simp] theorem State.withSets_scc (s : State) (v : Tab ArraySet) : (s.withSets v).scc = s.scc := rfl
@[simp] theorem State.withSets_dmv (s : State) (v : Tab ArraySet) : (s.withSets v).dmv = s.dmv := rfl
@[simp] theorem State.withSets_interp (s : State) (v : Tab ArraySet) : (s.withSets v).interp = s.interp := rfl
@[simp] theorem State.withSets_sec (s : State) (v : Tab ArraySet) : (s.withSets v).sec = s.sec := rfl
@[simp] theorem State.withSets_mon (s : State) (v : Tab ArraySet) : (s.withSets v).mon = s.mon := rfl
@[simp] theorem State.withSets_pair (s : State) (v : Tab ArraySet) : (s.withSets v).pair = s.pair := rfl
@[simp] theorem State.withSets_chn (s : State) (v : Tab ArraySet) : (s.withSets v).chn = s.chn := rfl
@[simp] theorem State.withSets_hpus (s : State) (v : Tab ArraySet) : (s.withSets v).hpus = s.hpus := rfl
@[simp] theorem State.withSets_pwin (s : State) (v : Tab ArraySet) : (s.withSets v).pwin = s.pwin := rfl
@[simp] theorem State.withSets_map (s : State) (v : Tab ArraySet) : (s.withSets v).map = s.map := rfl
@[simp] theorem State.withSets_sched (s : State) (v : Tab ArraySet) : (s.withSets v).sched = s.sched := rfl
@[simp] theorem State.withSets_freeCount (s : State) (v : Tab ArraySet) : (s.withSets v).freeCount = s.freeCount := rfl
@[simp] theorem State.withSets_out (s : State) (v : Tab ArraySet) : (s.withSets v).out = s.out := rfl
@[simp] theorem State.withSets_pending (s : State) (v : Tab ArraySet) : (s.withSets v).pending = s.pending := rfl

@[simp] theorem State.withIncarnations_gcs (s : State) (v : Tab Nat) : (s.withIncarnations v).gcs = s.gcs := rfl
@[simp] theorem State.withIncarnations_regs (s : State) (v : Tab Nat) : (s.withIncarnations v).regs = s.regs := rfl
@[simp] theorem State.withIncarnations_flt (s : State) (v : Tab Nat) : (s.withIncarnations v).flt = s.flt := rfl
@[simp] theorem State.withIncarnations_ctxs (s : State) (v : Tab Nat) : (s.withIncarnations v).ctxs = s.ctxs := rfl
@[simp] theorem State.withIncarnations_sets (s : State) (v : Tab Nat) : (s.withIncarnations v).sets = s.sets := rfl
@[simp] theorem State.withIncarnations_incarnations (s : State) (v : Tab Nat) : (s.withIncarnations v).incarnations = v := rfl
@[simp] theorem State.withIncarnations_profiles (s : State) (v : Tab Nat) : (s.withIncarnations v).profiles = s.profiles := rfl
@[simp] theorem State.withIncarnations_cht (s : State) (v : Tab Nat) : (s.withIncarnations v).cht = s.cht := rfl
@[simp] theorem State.withIncarnations_log (s : State) (v : Tab Nat) : (s.withIncarnations v).log = s.log := rfl
@[simp] theorem State.withIncarnations_wch (s : State) (v : Tab Nat) : (s.withIncarnations v).wch = s.wch := rfl
@[simp] theorem State.withIncarnations_rings (s : State) (v : Tab Nat) : (s.withIncarnations v).rings = s.rings := rfl
@[simp] theorem State.withIncarnations_privLock (s : State) (v : Tab Nat) : (s.withIncarnations v).privLock = s.privLock := rfl
@[simp] theorem State.withIncarnations_ios (s : State) (v : Tab Nat) : (s.withIncarnations v).ios = s.ios := rfl
@[simp] theorem State.withIncarnations_nextId (s : State) (v : Tab Nat) : (s.withIncarnations v).nextId = s.nextId := rfl
@[simp] theorem State.withIncarnations_dcmds (s : State) (v : Tab Nat) : (s.withIncarnations v).dcmds = s.dcmds := rfl
@[simp] theorem State.withIncarnations_ports (s : State) (v : Tab Nat) : (s.withIncarnations v).ports = s.ports := rfl
@[simp] theorem State.withIncarnations_portGroups (s : State) (v : Tab Nat) : (s.withIncarnations v).portGroups = s.portGroups := rfl
@[simp] theorem State.withIncarnations_rowOps (s : State) (v : Tab Nat) : (s.withIncarnations v).rowOps = s.rowOps := rfl
@[simp] theorem State.withIncarnations_commits (s : State) (v : Tab Nat) : (s.withIncarnations v).commits = s.commits := rfl
@[simp] theorem State.withIncarnations_passes (s : State) (v : Tab Nat) : (s.withIncarnations v).passes = s.passes := rfl
@[simp] theorem State.withIncarnations_arbitrating (s : State) (v : Tab Nat) : (s.withIncarnations v).arbitrating = s.arbitrating := rfl
@[simp] theorem State.withIncarnations_clusters (s : State) (v : Tab Nat) : (s.withIncarnations v).clusters = s.clusters := rfl
@[simp] theorem State.withIncarnations_scc (s : State) (v : Tab Nat) : (s.withIncarnations v).scc = s.scc := rfl
@[simp] theorem State.withIncarnations_dmv (s : State) (v : Tab Nat) : (s.withIncarnations v).dmv = s.dmv := rfl
@[simp] theorem State.withIncarnations_interp (s : State) (v : Tab Nat) : (s.withIncarnations v).interp = s.interp := rfl
@[simp] theorem State.withIncarnations_sec (s : State) (v : Tab Nat) : (s.withIncarnations v).sec = s.sec := rfl
@[simp] theorem State.withIncarnations_mon (s : State) (v : Tab Nat) : (s.withIncarnations v).mon = s.mon := rfl
@[simp] theorem State.withIncarnations_pair (s : State) (v : Tab Nat) : (s.withIncarnations v).pair = s.pair := rfl
@[simp] theorem State.withIncarnations_chn (s : State) (v : Tab Nat) : (s.withIncarnations v).chn = s.chn := rfl
@[simp] theorem State.withIncarnations_hpus (s : State) (v : Tab Nat) : (s.withIncarnations v).hpus = s.hpus := rfl
@[simp] theorem State.withIncarnations_pwin (s : State) (v : Tab Nat) : (s.withIncarnations v).pwin = s.pwin := rfl
@[simp] theorem State.withIncarnations_map (s : State) (v : Tab Nat) : (s.withIncarnations v).map = s.map := rfl
@[simp] theorem State.withIncarnations_sched (s : State) (v : Tab Nat) : (s.withIncarnations v).sched = s.sched := rfl
@[simp] theorem State.withIncarnations_freeCount (s : State) (v : Tab Nat) : (s.withIncarnations v).freeCount = s.freeCount := rfl
@[simp] theorem State.withIncarnations_out (s : State) (v : Tab Nat) : (s.withIncarnations v).out = s.out := rfl
@[simp] theorem State.withIncarnations_pending (s : State) (v : Tab Nat) : (s.withIncarnations v).pending = s.pending := rfl

@[simp] theorem State.withProfiles_gcs (s : State) (v : Tab (Option Profile)) : (s.withProfiles v).gcs = s.gcs := rfl
@[simp] theorem State.withProfiles_regs (s : State) (v : Tab (Option Profile)) : (s.withProfiles v).regs = s.regs := rfl
@[simp] theorem State.withProfiles_flt (s : State) (v : Tab (Option Profile)) : (s.withProfiles v).flt = s.flt := rfl
@[simp] theorem State.withProfiles_ctxs (s : State) (v : Tab (Option Profile)) : (s.withProfiles v).ctxs = s.ctxs := rfl
@[simp] theorem State.withProfiles_sets (s : State) (v : Tab (Option Profile)) : (s.withProfiles v).sets = s.sets := rfl
@[simp] theorem State.withProfiles_incarnations (s : State) (v : Tab (Option Profile)) : (s.withProfiles v).incarnations = s.incarnations := rfl
@[simp] theorem State.withProfiles_profiles (s : State) (v : Tab (Option Profile)) : (s.withProfiles v).profiles = v := rfl
@[simp] theorem State.withProfiles_cht (s : State) (v : Tab (Option Profile)) : (s.withProfiles v).cht = s.cht := rfl
@[simp] theorem State.withProfiles_log (s : State) (v : Tab (Option Profile)) : (s.withProfiles v).log = s.log := rfl
@[simp] theorem State.withProfiles_wch (s : State) (v : Tab (Option Profile)) : (s.withProfiles v).wch = s.wch := rfl
@[simp] theorem State.withProfiles_rings (s : State) (v : Tab (Option Profile)) : (s.withProfiles v).rings = s.rings := rfl
@[simp] theorem State.withProfiles_privLock (s : State) (v : Tab (Option Profile)) : (s.withProfiles v).privLock = s.privLock := rfl
@[simp] theorem State.withProfiles_ios (s : State) (v : Tab (Option Profile)) : (s.withProfiles v).ios = s.ios := rfl
@[simp] theorem State.withProfiles_nextId (s : State) (v : Tab (Option Profile)) : (s.withProfiles v).nextId = s.nextId := rfl
@[simp] theorem State.withProfiles_dcmds (s : State) (v : Tab (Option Profile)) : (s.withProfiles v).dcmds = s.dcmds := rfl
@[simp] theorem State.withProfiles_ports (s : State) (v : Tab (Option Profile)) : (s.withProfiles v).ports = s.ports := rfl
@[simp] theorem State.withProfiles_portGroups (s : State) (v : Tab (Option Profile)) : (s.withProfiles v).portGroups = s.portGroups := rfl
@[simp] theorem State.withProfiles_rowOps (s : State) (v : Tab (Option Profile)) : (s.withProfiles v).rowOps = s.rowOps := rfl
@[simp] theorem State.withProfiles_commits (s : State) (v : Tab (Option Profile)) : (s.withProfiles v).commits = s.commits := rfl
@[simp] theorem State.withProfiles_passes (s : State) (v : Tab (Option Profile)) : (s.withProfiles v).passes = s.passes := rfl
@[simp] theorem State.withProfiles_arbitrating (s : State) (v : Tab (Option Profile)) : (s.withProfiles v).arbitrating = s.arbitrating := rfl
@[simp] theorem State.withProfiles_clusters (s : State) (v : Tab (Option Profile)) : (s.withProfiles v).clusters = s.clusters := rfl
@[simp] theorem State.withProfiles_scc (s : State) (v : Tab (Option Profile)) : (s.withProfiles v).scc = s.scc := rfl
@[simp] theorem State.withProfiles_dmv (s : State) (v : Tab (Option Profile)) : (s.withProfiles v).dmv = s.dmv := rfl
@[simp] theorem State.withProfiles_interp (s : State) (v : Tab (Option Profile)) : (s.withProfiles v).interp = s.interp := rfl
@[simp] theorem State.withProfiles_sec (s : State) (v : Tab (Option Profile)) : (s.withProfiles v).sec = s.sec := rfl
@[simp] theorem State.withProfiles_mon (s : State) (v : Tab (Option Profile)) : (s.withProfiles v).mon = s.mon := rfl
@[simp] theorem State.withProfiles_pair (s : State) (v : Tab (Option Profile)) : (s.withProfiles v).pair = s.pair := rfl
@[simp] theorem State.withProfiles_chn (s : State) (v : Tab (Option Profile)) : (s.withProfiles v).chn = s.chn := rfl
@[simp] theorem State.withProfiles_hpus (s : State) (v : Tab (Option Profile)) : (s.withProfiles v).hpus = s.hpus := rfl
@[simp] theorem State.withProfiles_pwin (s : State) (v : Tab (Option Profile)) : (s.withProfiles v).pwin = s.pwin := rfl
@[simp] theorem State.withProfiles_map (s : State) (v : Tab (Option Profile)) : (s.withProfiles v).map = s.map := rfl
@[simp] theorem State.withProfiles_sched (s : State) (v : Tab (Option Profile)) : (s.withProfiles v).sched = s.sched := rfl
@[simp] theorem State.withProfiles_freeCount (s : State) (v : Tab (Option Profile)) : (s.withProfiles v).freeCount = s.freeCount := rfl
@[simp] theorem State.withProfiles_out (s : State) (v : Tab (Option Profile)) : (s.withProfiles v).out = s.out := rfl
@[simp] theorem State.withProfiles_pending (s : State) (v : Tab (Option Profile)) : (s.withProfiles v).pending = s.pending := rfl

@[simp] theorem State.withCht_gcs (s : State) (v : Cht) : (s.withCht v).gcs = s.gcs := rfl
@[simp] theorem State.withCht_regs (s : State) (v : Cht) : (s.withCht v).regs = s.regs := rfl
@[simp] theorem State.withCht_flt (s : State) (v : Cht) : (s.withCht v).flt = s.flt := rfl
@[simp] theorem State.withCht_ctxs (s : State) (v : Cht) : (s.withCht v).ctxs = s.ctxs := rfl
@[simp] theorem State.withCht_sets (s : State) (v : Cht) : (s.withCht v).sets = s.sets := rfl
@[simp] theorem State.withCht_incarnations (s : State) (v : Cht) : (s.withCht v).incarnations = s.incarnations := rfl
@[simp] theorem State.withCht_profiles (s : State) (v : Cht) : (s.withCht v).profiles = s.profiles := rfl
@[simp] theorem State.withCht_cht (s : State) (v : Cht) : (s.withCht v).cht = v := rfl
@[simp] theorem State.withCht_log (s : State) (v : Cht) : (s.withCht v).log = s.log := rfl
@[simp] theorem State.withCht_wch (s : State) (v : Cht) : (s.withCht v).wch = s.wch := rfl
@[simp] theorem State.withCht_rings (s : State) (v : Cht) : (s.withCht v).rings = s.rings := rfl
@[simp] theorem State.withCht_privLock (s : State) (v : Cht) : (s.withCht v).privLock = s.privLock := rfl
@[simp] theorem State.withCht_ios (s : State) (v : Cht) : (s.withCht v).ios = s.ios := rfl
@[simp] theorem State.withCht_nextId (s : State) (v : Cht) : (s.withCht v).nextId = s.nextId := rfl
@[simp] theorem State.withCht_dcmds (s : State) (v : Cht) : (s.withCht v).dcmds = s.dcmds := rfl
@[simp] theorem State.withCht_ports (s : State) (v : Cht) : (s.withCht v).ports = s.ports := rfl
@[simp] theorem State.withCht_portGroups (s : State) (v : Cht) : (s.withCht v).portGroups = s.portGroups := rfl
@[simp] theorem State.withCht_rowOps (s : State) (v : Cht) : (s.withCht v).rowOps = s.rowOps := rfl
@[simp] theorem State.withCht_commits (s : State) (v : Cht) : (s.withCht v).commits = s.commits := rfl
@[simp] theorem State.withCht_passes (s : State) (v : Cht) : (s.withCht v).passes = s.passes := rfl
@[simp] theorem State.withCht_arbitrating (s : State) (v : Cht) : (s.withCht v).arbitrating = s.arbitrating := rfl
@[simp] theorem State.withCht_clusters (s : State) (v : Cht) : (s.withCht v).clusters = s.clusters := rfl
@[simp] theorem State.withCht_scc (s : State) (v : Cht) : (s.withCht v).scc = s.scc := rfl
@[simp] theorem State.withCht_dmv (s : State) (v : Cht) : (s.withCht v).dmv = s.dmv := rfl
@[simp] theorem State.withCht_interp (s : State) (v : Cht) : (s.withCht v).interp = s.interp := rfl
@[simp] theorem State.withCht_sec (s : State) (v : Cht) : (s.withCht v).sec = s.sec := rfl
@[simp] theorem State.withCht_mon (s : State) (v : Cht) : (s.withCht v).mon = s.mon := rfl
@[simp] theorem State.withCht_pair (s : State) (v : Cht) : (s.withCht v).pair = s.pair := rfl
@[simp] theorem State.withCht_chn (s : State) (v : Cht) : (s.withCht v).chn = s.chn := rfl
@[simp] theorem State.withCht_hpus (s : State) (v : Cht) : (s.withCht v).hpus = s.hpus := rfl
@[simp] theorem State.withCht_pwin (s : State) (v : Cht) : (s.withCht v).pwin = s.pwin := rfl
@[simp] theorem State.withCht_map (s : State) (v : Cht) : (s.withCht v).map = s.map := rfl
@[simp] theorem State.withCht_sched (s : State) (v : Cht) : (s.withCht v).sched = s.sched := rfl
@[simp] theorem State.withCht_freeCount (s : State) (v : Cht) : (s.withCht v).freeCount = s.freeCount := rfl
@[simp] theorem State.withCht_out (s : State) (v : Cht) : (s.withCht v).out = s.out := rfl
@[simp] theorem State.withCht_pending (s : State) (v : Cht) : (s.withCht v).pending = s.pending := rfl

@[simp] theorem State.withLog_gcs (s : State) (v : Log) : (s.withLog v).gcs = s.gcs := rfl
@[simp] theorem State.withLog_regs (s : State) (v : Log) : (s.withLog v).regs = s.regs := rfl
@[simp] theorem State.withLog_flt (s : State) (v : Log) : (s.withLog v).flt = s.flt := rfl
@[simp] theorem State.withLog_ctxs (s : State) (v : Log) : (s.withLog v).ctxs = s.ctxs := rfl
@[simp] theorem State.withLog_sets (s : State) (v : Log) : (s.withLog v).sets = s.sets := rfl
@[simp] theorem State.withLog_incarnations (s : State) (v : Log) : (s.withLog v).incarnations = s.incarnations := rfl
@[simp] theorem State.withLog_profiles (s : State) (v : Log) : (s.withLog v).profiles = s.profiles := rfl
@[simp] theorem State.withLog_cht (s : State) (v : Log) : (s.withLog v).cht = s.cht := rfl
@[simp] theorem State.withLog_log (s : State) (v : Log) : (s.withLog v).log = v := rfl
@[simp] theorem State.withLog_wch (s : State) (v : Log) : (s.withLog v).wch = s.wch := rfl
@[simp] theorem State.withLog_rings (s : State) (v : Log) : (s.withLog v).rings = s.rings := rfl
@[simp] theorem State.withLog_privLock (s : State) (v : Log) : (s.withLog v).privLock = s.privLock := rfl
@[simp] theorem State.withLog_ios (s : State) (v : Log) : (s.withLog v).ios = s.ios := rfl
@[simp] theorem State.withLog_nextId (s : State) (v : Log) : (s.withLog v).nextId = s.nextId := rfl
@[simp] theorem State.withLog_dcmds (s : State) (v : Log) : (s.withLog v).dcmds = s.dcmds := rfl
@[simp] theorem State.withLog_ports (s : State) (v : Log) : (s.withLog v).ports = s.ports := rfl
@[simp] theorem State.withLog_portGroups (s : State) (v : Log) : (s.withLog v).portGroups = s.portGroups := rfl
@[simp] theorem State.withLog_rowOps (s : State) (v : Log) : (s.withLog v).rowOps = s.rowOps := rfl
@[simp] theorem State.withLog_commits (s : State) (v : Log) : (s.withLog v).commits = s.commits := rfl
@[simp] theorem State.withLog_passes (s : State) (v : Log) : (s.withLog v).passes = s.passes := rfl
@[simp] theorem State.withLog_arbitrating (s : State) (v : Log) : (s.withLog v).arbitrating = s.arbitrating := rfl
@[simp] theorem State.withLog_clusters (s : State) (v : Log) : (s.withLog v).clusters = s.clusters := rfl
@[simp] theorem State.withLog_scc (s : State) (v : Log) : (s.withLog v).scc = s.scc := rfl
@[simp] theorem State.withLog_dmv (s : State) (v : Log) : (s.withLog v).dmv = s.dmv := rfl
@[simp] theorem State.withLog_interp (s : State) (v : Log) : (s.withLog v).interp = s.interp := rfl
@[simp] theorem State.withLog_sec (s : State) (v : Log) : (s.withLog v).sec = s.sec := rfl
@[simp] theorem State.withLog_mon (s : State) (v : Log) : (s.withLog v).mon = s.mon := rfl
@[simp] theorem State.withLog_pair (s : State) (v : Log) : (s.withLog v).pair = s.pair := rfl
@[simp] theorem State.withLog_chn (s : State) (v : Log) : (s.withLog v).chn = s.chn := rfl
@[simp] theorem State.withLog_hpus (s : State) (v : Log) : (s.withLog v).hpus = s.hpus := rfl
@[simp] theorem State.withLog_pwin (s : State) (v : Log) : (s.withLog v).pwin = s.pwin := rfl
@[simp] theorem State.withLog_map (s : State) (v : Log) : (s.withLog v).map = s.map := rfl
@[simp] theorem State.withLog_sched (s : State) (v : Log) : (s.withLog v).sched = s.sched := rfl
@[simp] theorem State.withLog_freeCount (s : State) (v : Log) : (s.withLog v).freeCount = s.freeCount := rfl
@[simp] theorem State.withLog_out (s : State) (v : Log) : (s.withLog v).out = s.out := rfl
@[simp] theorem State.withLog_pending (s : State) (v : Log) : (s.withLog v).pending = s.pending := rfl

@[simp] theorem State.withWch_gcs (s : State) (v : Wch) : (s.withWch v).gcs = s.gcs := rfl
@[simp] theorem State.withWch_regs (s : State) (v : Wch) : (s.withWch v).regs = s.regs := rfl
@[simp] theorem State.withWch_flt (s : State) (v : Wch) : (s.withWch v).flt = s.flt := rfl
@[simp] theorem State.withWch_ctxs (s : State) (v : Wch) : (s.withWch v).ctxs = s.ctxs := rfl
@[simp] theorem State.withWch_sets (s : State) (v : Wch) : (s.withWch v).sets = s.sets := rfl
@[simp] theorem State.withWch_incarnations (s : State) (v : Wch) : (s.withWch v).incarnations = s.incarnations := rfl
@[simp] theorem State.withWch_profiles (s : State) (v : Wch) : (s.withWch v).profiles = s.profiles := rfl
@[simp] theorem State.withWch_cht (s : State) (v : Wch) : (s.withWch v).cht = s.cht := rfl
@[simp] theorem State.withWch_log (s : State) (v : Wch) : (s.withWch v).log = s.log := rfl
@[simp] theorem State.withWch_wch (s : State) (v : Wch) : (s.withWch v).wch = v := rfl
@[simp] theorem State.withWch_rings (s : State) (v : Wch) : (s.withWch v).rings = s.rings := rfl
@[simp] theorem State.withWch_privLock (s : State) (v : Wch) : (s.withWch v).privLock = s.privLock := rfl
@[simp] theorem State.withWch_ios (s : State) (v : Wch) : (s.withWch v).ios = s.ios := rfl
@[simp] theorem State.withWch_nextId (s : State) (v : Wch) : (s.withWch v).nextId = s.nextId := rfl
@[simp] theorem State.withWch_dcmds (s : State) (v : Wch) : (s.withWch v).dcmds = s.dcmds := rfl
@[simp] theorem State.withWch_ports (s : State) (v : Wch) : (s.withWch v).ports = s.ports := rfl
@[simp] theorem State.withWch_portGroups (s : State) (v : Wch) : (s.withWch v).portGroups = s.portGroups := rfl
@[simp] theorem State.withWch_rowOps (s : State) (v : Wch) : (s.withWch v).rowOps = s.rowOps := rfl
@[simp] theorem State.withWch_commits (s : State) (v : Wch) : (s.withWch v).commits = s.commits := rfl
@[simp] theorem State.withWch_passes (s : State) (v : Wch) : (s.withWch v).passes = s.passes := rfl
@[simp] theorem State.withWch_arbitrating (s : State) (v : Wch) : (s.withWch v).arbitrating = s.arbitrating := rfl
@[simp] theorem State.withWch_clusters (s : State) (v : Wch) : (s.withWch v).clusters = s.clusters := rfl
@[simp] theorem State.withWch_scc (s : State) (v : Wch) : (s.withWch v).scc = s.scc := rfl
@[simp] theorem State.withWch_dmv (s : State) (v : Wch) : (s.withWch v).dmv = s.dmv := rfl
@[simp] theorem State.withWch_interp (s : State) (v : Wch) : (s.withWch v).interp = s.interp := rfl
@[simp] theorem State.withWch_sec (s : State) (v : Wch) : (s.withWch v).sec = s.sec := rfl
@[simp] theorem State.withWch_mon (s : State) (v : Wch) : (s.withWch v).mon = s.mon := rfl
@[simp] theorem State.withWch_pair (s : State) (v : Wch) : (s.withWch v).pair = s.pair := rfl
@[simp] theorem State.withWch_chn (s : State) (v : Wch) : (s.withWch v).chn = s.chn := rfl
@[simp] theorem State.withWch_hpus (s : State) (v : Wch) : (s.withWch v).hpus = s.hpus := rfl
@[simp] theorem State.withWch_pwin (s : State) (v : Wch) : (s.withWch v).pwin = s.pwin := rfl
@[simp] theorem State.withWch_map (s : State) (v : Wch) : (s.withWch v).map = s.map := rfl
@[simp] theorem State.withWch_sched (s : State) (v : Wch) : (s.withWch v).sched = s.sched := rfl
@[simp] theorem State.withWch_freeCount (s : State) (v : Wch) : (s.withWch v).freeCount = s.freeCount := rfl
@[simp] theorem State.withWch_out (s : State) (v : Wch) : (s.withWch v).out = s.out := rfl
@[simp] theorem State.withWch_pending (s : State) (v : Wch) : (s.withWch v).pending = s.pending := rfl

@[simp] theorem State.withRings_gcs (s : State) (v : Tab Ring) : (s.withRings v).gcs = s.gcs := rfl
@[simp] theorem State.withRings_regs (s : State) (v : Tab Ring) : (s.withRings v).regs = s.regs := rfl
@[simp] theorem State.withRings_flt (s : State) (v : Tab Ring) : (s.withRings v).flt = s.flt := rfl
@[simp] theorem State.withRings_ctxs (s : State) (v : Tab Ring) : (s.withRings v).ctxs = s.ctxs := rfl
@[simp] theorem State.withRings_sets (s : State) (v : Tab Ring) : (s.withRings v).sets = s.sets := rfl
@[simp] theorem State.withRings_incarnations (s : State) (v : Tab Ring) : (s.withRings v).incarnations = s.incarnations := rfl
@[simp] theorem State.withRings_profiles (s : State) (v : Tab Ring) : (s.withRings v).profiles = s.profiles := rfl
@[simp] theorem State.withRings_cht (s : State) (v : Tab Ring) : (s.withRings v).cht = s.cht := rfl
@[simp] theorem State.withRings_log (s : State) (v : Tab Ring) : (s.withRings v).log = s.log := rfl
@[simp] theorem State.withRings_wch (s : State) (v : Tab Ring) : (s.withRings v).wch = s.wch := rfl
@[simp] theorem State.withRings_rings (s : State) (v : Tab Ring) : (s.withRings v).rings = v := rfl
@[simp] theorem State.withRings_privLock (s : State) (v : Tab Ring) : (s.withRings v).privLock = s.privLock := rfl
@[simp] theorem State.withRings_ios (s : State) (v : Tab Ring) : (s.withRings v).ios = s.ios := rfl
@[simp] theorem State.withRings_nextId (s : State) (v : Tab Ring) : (s.withRings v).nextId = s.nextId := rfl
@[simp] theorem State.withRings_dcmds (s : State) (v : Tab Ring) : (s.withRings v).dcmds = s.dcmds := rfl
@[simp] theorem State.withRings_ports (s : State) (v : Tab Ring) : (s.withRings v).ports = s.ports := rfl
@[simp] theorem State.withRings_portGroups (s : State) (v : Tab Ring) : (s.withRings v).portGroups = s.portGroups := rfl
@[simp] theorem State.withRings_rowOps (s : State) (v : Tab Ring) : (s.withRings v).rowOps = s.rowOps := rfl
@[simp] theorem State.withRings_commits (s : State) (v : Tab Ring) : (s.withRings v).commits = s.commits := rfl
@[simp] theorem State.withRings_passes (s : State) (v : Tab Ring) : (s.withRings v).passes = s.passes := rfl
@[simp] theorem State.withRings_arbitrating (s : State) (v : Tab Ring) : (s.withRings v).arbitrating = s.arbitrating := rfl
@[simp] theorem State.withRings_clusters (s : State) (v : Tab Ring) : (s.withRings v).clusters = s.clusters := rfl
@[simp] theorem State.withRings_scc (s : State) (v : Tab Ring) : (s.withRings v).scc = s.scc := rfl
@[simp] theorem State.withRings_dmv (s : State) (v : Tab Ring) : (s.withRings v).dmv = s.dmv := rfl
@[simp] theorem State.withRings_interp (s : State) (v : Tab Ring) : (s.withRings v).interp = s.interp := rfl
@[simp] theorem State.withRings_sec (s : State) (v : Tab Ring) : (s.withRings v).sec = s.sec := rfl
@[simp] theorem State.withRings_mon (s : State) (v : Tab Ring) : (s.withRings v).mon = s.mon := rfl
@[simp] theorem State.withRings_pair (s : State) (v : Tab Ring) : (s.withRings v).pair = s.pair := rfl
@[simp] theorem State.withRings_chn (s : State) (v : Tab Ring) : (s.withRings v).chn = s.chn := rfl
@[simp] theorem State.withRings_hpus (s : State) (v : Tab Ring) : (s.withRings v).hpus = s.hpus := rfl
@[simp] theorem State.withRings_pwin (s : State) (v : Tab Ring) : (s.withRings v).pwin = s.pwin := rfl
@[simp] theorem State.withRings_map (s : State) (v : Tab Ring) : (s.withRings v).map = s.map := rfl
@[simp] theorem State.withRings_sched (s : State) (v : Tab Ring) : (s.withRings v).sched = s.sched := rfl
@[simp] theorem State.withRings_freeCount (s : State) (v : Tab Ring) : (s.withRings v).freeCount = s.freeCount := rfl
@[simp] theorem State.withRings_out (s : State) (v : Tab Ring) : (s.withRings v).out = s.out := rfl
@[simp] theorem State.withRings_pending (s : State) (v : Tab Ring) : (s.withRings v).pending = s.pending := rfl

@[simp] theorem State.withPrivLock_gcs (s : State) (v : Bool) : (s.withPrivLock v).gcs = s.gcs := rfl
@[simp] theorem State.withPrivLock_regs (s : State) (v : Bool) : (s.withPrivLock v).regs = s.regs := rfl
@[simp] theorem State.withPrivLock_flt (s : State) (v : Bool) : (s.withPrivLock v).flt = s.flt := rfl
@[simp] theorem State.withPrivLock_ctxs (s : State) (v : Bool) : (s.withPrivLock v).ctxs = s.ctxs := rfl
@[simp] theorem State.withPrivLock_sets (s : State) (v : Bool) : (s.withPrivLock v).sets = s.sets := rfl
@[simp] theorem State.withPrivLock_incarnations (s : State) (v : Bool) : (s.withPrivLock v).incarnations = s.incarnations := rfl
@[simp] theorem State.withPrivLock_profiles (s : State) (v : Bool) : (s.withPrivLock v).profiles = s.profiles := rfl
@[simp] theorem State.withPrivLock_cht (s : State) (v : Bool) : (s.withPrivLock v).cht = s.cht := rfl
@[simp] theorem State.withPrivLock_log (s : State) (v : Bool) : (s.withPrivLock v).log = s.log := rfl
@[simp] theorem State.withPrivLock_wch (s : State) (v : Bool) : (s.withPrivLock v).wch = s.wch := rfl
@[simp] theorem State.withPrivLock_rings (s : State) (v : Bool) : (s.withPrivLock v).rings = s.rings := rfl
@[simp] theorem State.withPrivLock_privLock (s : State) (v : Bool) : (s.withPrivLock v).privLock = v := rfl
@[simp] theorem State.withPrivLock_ios (s : State) (v : Bool) : (s.withPrivLock v).ios = s.ios := rfl
@[simp] theorem State.withPrivLock_nextId (s : State) (v : Bool) : (s.withPrivLock v).nextId = s.nextId := rfl
@[simp] theorem State.withPrivLock_dcmds (s : State) (v : Bool) : (s.withPrivLock v).dcmds = s.dcmds := rfl
@[simp] theorem State.withPrivLock_ports (s : State) (v : Bool) : (s.withPrivLock v).ports = s.ports := rfl
@[simp] theorem State.withPrivLock_portGroups (s : State) (v : Bool) : (s.withPrivLock v).portGroups = s.portGroups := rfl
@[simp] theorem State.withPrivLock_rowOps (s : State) (v : Bool) : (s.withPrivLock v).rowOps = s.rowOps := rfl
@[simp] theorem State.withPrivLock_commits (s : State) (v : Bool) : (s.withPrivLock v).commits = s.commits := rfl
@[simp] theorem State.withPrivLock_passes (s : State) (v : Bool) : (s.withPrivLock v).passes = s.passes := rfl
@[simp] theorem State.withPrivLock_arbitrating (s : State) (v : Bool) : (s.withPrivLock v).arbitrating = s.arbitrating := rfl
@[simp] theorem State.withPrivLock_clusters (s : State) (v : Bool) : (s.withPrivLock v).clusters = s.clusters := rfl
@[simp] theorem State.withPrivLock_scc (s : State) (v : Bool) : (s.withPrivLock v).scc = s.scc := rfl
@[simp] theorem State.withPrivLock_dmv (s : State) (v : Bool) : (s.withPrivLock v).dmv = s.dmv := rfl
@[simp] theorem State.withPrivLock_interp (s : State) (v : Bool) : (s.withPrivLock v).interp = s.interp := rfl
@[simp] theorem State.withPrivLock_sec (s : State) (v : Bool) : (s.withPrivLock v).sec = s.sec := rfl
@[simp] theorem State.withPrivLock_mon (s : State) (v : Bool) : (s.withPrivLock v).mon = s.mon := rfl
@[simp] theorem State.withPrivLock_pair (s : State) (v : Bool) : (s.withPrivLock v).pair = s.pair := rfl
@[simp] theorem State.withPrivLock_chn (s : State) (v : Bool) : (s.withPrivLock v).chn = s.chn := rfl
@[simp] theorem State.withPrivLock_hpus (s : State) (v : Bool) : (s.withPrivLock v).hpus = s.hpus := rfl
@[simp] theorem State.withPrivLock_pwin (s : State) (v : Bool) : (s.withPrivLock v).pwin = s.pwin := rfl
@[simp] theorem State.withPrivLock_map (s : State) (v : Bool) : (s.withPrivLock v).map = s.map := rfl
@[simp] theorem State.withPrivLock_sched (s : State) (v : Bool) : (s.withPrivLock v).sched = s.sched := rfl
@[simp] theorem State.withPrivLock_freeCount (s : State) (v : Bool) : (s.withPrivLock v).freeCount = s.freeCount := rfl
@[simp] theorem State.withPrivLock_out (s : State) (v : Bool) : (s.withPrivLock v).out = s.out := rfl
@[simp] theorem State.withPrivLock_pending (s : State) (v : Bool) : (s.withPrivLock v).pending = s.pending := rfl

@[simp] theorem State.withIos_gcs (s : State) (v : List Io) : (s.withIos v).gcs = s.gcs := rfl
@[simp] theorem State.withIos_regs (s : State) (v : List Io) : (s.withIos v).regs = s.regs := rfl
@[simp] theorem State.withIos_flt (s : State) (v : List Io) : (s.withIos v).flt = s.flt := rfl
@[simp] theorem State.withIos_ctxs (s : State) (v : List Io) : (s.withIos v).ctxs = s.ctxs := rfl
@[simp] theorem State.withIos_sets (s : State) (v : List Io) : (s.withIos v).sets = s.sets := rfl
@[simp] theorem State.withIos_incarnations (s : State) (v : List Io) : (s.withIos v).incarnations = s.incarnations := rfl
@[simp] theorem State.withIos_profiles (s : State) (v : List Io) : (s.withIos v).profiles = s.profiles := rfl
@[simp] theorem State.withIos_cht (s : State) (v : List Io) : (s.withIos v).cht = s.cht := rfl
@[simp] theorem State.withIos_log (s : State) (v : List Io) : (s.withIos v).log = s.log := rfl
@[simp] theorem State.withIos_wch (s : State) (v : List Io) : (s.withIos v).wch = s.wch := rfl
@[simp] theorem State.withIos_rings (s : State) (v : List Io) : (s.withIos v).rings = s.rings := rfl
@[simp] theorem State.withIos_privLock (s : State) (v : List Io) : (s.withIos v).privLock = s.privLock := rfl
@[simp] theorem State.withIos_ios (s : State) (v : List Io) : (s.withIos v).ios = v := rfl
@[simp] theorem State.withIos_nextId (s : State) (v : List Io) : (s.withIos v).nextId = s.nextId := rfl
@[simp] theorem State.withIos_dcmds (s : State) (v : List Io) : (s.withIos v).dcmds = s.dcmds := rfl
@[simp] theorem State.withIos_ports (s : State) (v : List Io) : (s.withIos v).ports = s.ports := rfl
@[simp] theorem State.withIos_portGroups (s : State) (v : List Io) : (s.withIos v).portGroups = s.portGroups := rfl
@[simp] theorem State.withIos_rowOps (s : State) (v : List Io) : (s.withIos v).rowOps = s.rowOps := rfl
@[simp] theorem State.withIos_commits (s : State) (v : List Io) : (s.withIos v).commits = s.commits := rfl
@[simp] theorem State.withIos_passes (s : State) (v : List Io) : (s.withIos v).passes = s.passes := rfl
@[simp] theorem State.withIos_arbitrating (s : State) (v : List Io) : (s.withIos v).arbitrating = s.arbitrating := rfl
@[simp] theorem State.withIos_clusters (s : State) (v : List Io) : (s.withIos v).clusters = s.clusters := rfl
@[simp] theorem State.withIos_scc (s : State) (v : List Io) : (s.withIos v).scc = s.scc := rfl
@[simp] theorem State.withIos_dmv (s : State) (v : List Io) : (s.withIos v).dmv = s.dmv := rfl
@[simp] theorem State.withIos_interp (s : State) (v : List Io) : (s.withIos v).interp = s.interp := rfl
@[simp] theorem State.withIos_sec (s : State) (v : List Io) : (s.withIos v).sec = s.sec := rfl
@[simp] theorem State.withIos_mon (s : State) (v : List Io) : (s.withIos v).mon = s.mon := rfl
@[simp] theorem State.withIos_pair (s : State) (v : List Io) : (s.withIos v).pair = s.pair := rfl
@[simp] theorem State.withIos_chn (s : State) (v : List Io) : (s.withIos v).chn = s.chn := rfl
@[simp] theorem State.withIos_hpus (s : State) (v : List Io) : (s.withIos v).hpus = s.hpus := rfl
@[simp] theorem State.withIos_pwin (s : State) (v : List Io) : (s.withIos v).pwin = s.pwin := rfl
@[simp] theorem State.withIos_map (s : State) (v : List Io) : (s.withIos v).map = s.map := rfl
@[simp] theorem State.withIos_sched (s : State) (v : List Io) : (s.withIos v).sched = s.sched := rfl
@[simp] theorem State.withIos_freeCount (s : State) (v : List Io) : (s.withIos v).freeCount = s.freeCount := rfl
@[simp] theorem State.withIos_out (s : State) (v : List Io) : (s.withIos v).out = s.out := rfl
@[simp] theorem State.withIos_pending (s : State) (v : List Io) : (s.withIos v).pending = s.pending := rfl

@[simp] theorem State.withNextId_gcs (s : State) (v : Nat) : (s.withNextId v).gcs = s.gcs := rfl
@[simp] theorem State.withNextId_regs (s : State) (v : Nat) : (s.withNextId v).regs = s.regs := rfl
@[simp] theorem State.withNextId_flt (s : State) (v : Nat) : (s.withNextId v).flt = s.flt := rfl
@[simp] theorem State.withNextId_ctxs (s : State) (v : Nat) : (s.withNextId v).ctxs = s.ctxs := rfl
@[simp] theorem State.withNextId_sets (s : State) (v : Nat) : (s.withNextId v).sets = s.sets := rfl
@[simp] theorem State.withNextId_incarnations (s : State) (v : Nat) : (s.withNextId v).incarnations = s.incarnations := rfl
@[simp] theorem State.withNextId_profiles (s : State) (v : Nat) : (s.withNextId v).profiles = s.profiles := rfl
@[simp] theorem State.withNextId_cht (s : State) (v : Nat) : (s.withNextId v).cht = s.cht := rfl
@[simp] theorem State.withNextId_log (s : State) (v : Nat) : (s.withNextId v).log = s.log := rfl
@[simp] theorem State.withNextId_wch (s : State) (v : Nat) : (s.withNextId v).wch = s.wch := rfl
@[simp] theorem State.withNextId_rings (s : State) (v : Nat) : (s.withNextId v).rings = s.rings := rfl
@[simp] theorem State.withNextId_privLock (s : State) (v : Nat) : (s.withNextId v).privLock = s.privLock := rfl
@[simp] theorem State.withNextId_ios (s : State) (v : Nat) : (s.withNextId v).ios = s.ios := rfl
@[simp] theorem State.withNextId_nextId (s : State) (v : Nat) : (s.withNextId v).nextId = v := rfl
@[simp] theorem State.withNextId_dcmds (s : State) (v : Nat) : (s.withNextId v).dcmds = s.dcmds := rfl
@[simp] theorem State.withNextId_ports (s : State) (v : Nat) : (s.withNextId v).ports = s.ports := rfl
@[simp] theorem State.withNextId_portGroups (s : State) (v : Nat) : (s.withNextId v).portGroups = s.portGroups := rfl
@[simp] theorem State.withNextId_rowOps (s : State) (v : Nat) : (s.withNextId v).rowOps = s.rowOps := rfl
@[simp] theorem State.withNextId_commits (s : State) (v : Nat) : (s.withNextId v).commits = s.commits := rfl
@[simp] theorem State.withNextId_passes (s : State) (v : Nat) : (s.withNextId v).passes = s.passes := rfl
@[simp] theorem State.withNextId_arbitrating (s : State) (v : Nat) : (s.withNextId v).arbitrating = s.arbitrating := rfl
@[simp] theorem State.withNextId_clusters (s : State) (v : Nat) : (s.withNextId v).clusters = s.clusters := rfl
@[simp] theorem State.withNextId_scc (s : State) (v : Nat) : (s.withNextId v).scc = s.scc := rfl
@[simp] theorem State.withNextId_dmv (s : State) (v : Nat) : (s.withNextId v).dmv = s.dmv := rfl
@[simp] theorem State.withNextId_interp (s : State) (v : Nat) : (s.withNextId v).interp = s.interp := rfl
@[simp] theorem State.withNextId_sec (s : State) (v : Nat) : (s.withNextId v).sec = s.sec := rfl
@[simp] theorem State.withNextId_mon (s : State) (v : Nat) : (s.withNextId v).mon = s.mon := rfl
@[simp] theorem State.withNextId_pair (s : State) (v : Nat) : (s.withNextId v).pair = s.pair := rfl
@[simp] theorem State.withNextId_chn (s : State) (v : Nat) : (s.withNextId v).chn = s.chn := rfl
@[simp] theorem State.withNextId_hpus (s : State) (v : Nat) : (s.withNextId v).hpus = s.hpus := rfl
@[simp] theorem State.withNextId_pwin (s : State) (v : Nat) : (s.withNextId v).pwin = s.pwin := rfl
@[simp] theorem State.withNextId_map (s : State) (v : Nat) : (s.withNextId v).map = s.map := rfl
@[simp] theorem State.withNextId_sched (s : State) (v : Nat) : (s.withNextId v).sched = s.sched := rfl
@[simp] theorem State.withNextId_freeCount (s : State) (v : Nat) : (s.withNextId v).freeCount = s.freeCount := rfl
@[simp] theorem State.withNextId_out (s : State) (v : Nat) : (s.withNextId v).out = s.out := rfl
@[simp] theorem State.withNextId_pending (s : State) (v : Nat) : (s.withNextId v).pending = s.pending := rfl

@[simp] theorem State.withDcmds_gcs (s : State) (v : List DriveCmd) : (s.withDcmds v).gcs = s.gcs := rfl
@[simp] theorem State.withDcmds_regs (s : State) (v : List DriveCmd) : (s.withDcmds v).regs = s.regs := rfl
@[simp] theorem State.withDcmds_flt (s : State) (v : List DriveCmd) : (s.withDcmds v).flt = s.flt := rfl
@[simp] theorem State.withDcmds_ctxs (s : State) (v : List DriveCmd) : (s.withDcmds v).ctxs = s.ctxs := rfl
@[simp] theorem State.withDcmds_sets (s : State) (v : List DriveCmd) : (s.withDcmds v).sets = s.sets := rfl
@[simp] theorem State.withDcmds_incarnations (s : State) (v : List DriveCmd) : (s.withDcmds v).incarnations = s.incarnations := rfl
@[simp] theorem State.withDcmds_profiles (s : State) (v : List DriveCmd) : (s.withDcmds v).profiles = s.profiles := rfl
@[simp] theorem State.withDcmds_cht (s : State) (v : List DriveCmd) : (s.withDcmds v).cht = s.cht := rfl
@[simp] theorem State.withDcmds_log (s : State) (v : List DriveCmd) : (s.withDcmds v).log = s.log := rfl
@[simp] theorem State.withDcmds_wch (s : State) (v : List DriveCmd) : (s.withDcmds v).wch = s.wch := rfl
@[simp] theorem State.withDcmds_rings (s : State) (v : List DriveCmd) : (s.withDcmds v).rings = s.rings := rfl
@[simp] theorem State.withDcmds_privLock (s : State) (v : List DriveCmd) : (s.withDcmds v).privLock = s.privLock := rfl
@[simp] theorem State.withDcmds_ios (s : State) (v : List DriveCmd) : (s.withDcmds v).ios = s.ios := rfl
@[simp] theorem State.withDcmds_nextId (s : State) (v : List DriveCmd) : (s.withDcmds v).nextId = s.nextId := rfl
@[simp] theorem State.withDcmds_dcmds (s : State) (v : List DriveCmd) : (s.withDcmds v).dcmds = v := rfl
@[simp] theorem State.withDcmds_ports (s : State) (v : List DriveCmd) : (s.withDcmds v).ports = s.ports := rfl
@[simp] theorem State.withDcmds_portGroups (s : State) (v : List DriveCmd) : (s.withDcmds v).portGroups = s.portGroups := rfl
@[simp] theorem State.withDcmds_rowOps (s : State) (v : List DriveCmd) : (s.withDcmds v).rowOps = s.rowOps := rfl
@[simp] theorem State.withDcmds_commits (s : State) (v : List DriveCmd) : (s.withDcmds v).commits = s.commits := rfl
@[simp] theorem State.withDcmds_passes (s : State) (v : List DriveCmd) : (s.withDcmds v).passes = s.passes := rfl
@[simp] theorem State.withDcmds_arbitrating (s : State) (v : List DriveCmd) : (s.withDcmds v).arbitrating = s.arbitrating := rfl
@[simp] theorem State.withDcmds_clusters (s : State) (v : List DriveCmd) : (s.withDcmds v).clusters = s.clusters := rfl
@[simp] theorem State.withDcmds_scc (s : State) (v : List DriveCmd) : (s.withDcmds v).scc = s.scc := rfl
@[simp] theorem State.withDcmds_dmv (s : State) (v : List DriveCmd) : (s.withDcmds v).dmv = s.dmv := rfl
@[simp] theorem State.withDcmds_interp (s : State) (v : List DriveCmd) : (s.withDcmds v).interp = s.interp := rfl
@[simp] theorem State.withDcmds_sec (s : State) (v : List DriveCmd) : (s.withDcmds v).sec = s.sec := rfl
@[simp] theorem State.withDcmds_mon (s : State) (v : List DriveCmd) : (s.withDcmds v).mon = s.mon := rfl
@[simp] theorem State.withDcmds_pair (s : State) (v : List DriveCmd) : (s.withDcmds v).pair = s.pair := rfl
@[simp] theorem State.withDcmds_chn (s : State) (v : List DriveCmd) : (s.withDcmds v).chn = s.chn := rfl
@[simp] theorem State.withDcmds_hpus (s : State) (v : List DriveCmd) : (s.withDcmds v).hpus = s.hpus := rfl
@[simp] theorem State.withDcmds_pwin (s : State) (v : List DriveCmd) : (s.withDcmds v).pwin = s.pwin := rfl
@[simp] theorem State.withDcmds_map (s : State) (v : List DriveCmd) : (s.withDcmds v).map = s.map := rfl
@[simp] theorem State.withDcmds_sched (s : State) (v : List DriveCmd) : (s.withDcmds v).sched = s.sched := rfl
@[simp] theorem State.withDcmds_freeCount (s : State) (v : List DriveCmd) : (s.withDcmds v).freeCount = s.freeCount := rfl
@[simp] theorem State.withDcmds_out (s : State) (v : List DriveCmd) : (s.withDcmds v).out = s.out := rfl
@[simp] theorem State.withDcmds_pending (s : State) (v : List DriveCmd) : (s.withDcmds v).pending = s.pending := rfl

@[simp] theorem State.withPorts_gcs (s : State) (v : Tab Port) : (s.withPorts v).gcs = s.gcs := rfl
@[simp] theorem State.withPorts_regs (s : State) (v : Tab Port) : (s.withPorts v).regs = s.regs := rfl
@[simp] theorem State.withPorts_flt (s : State) (v : Tab Port) : (s.withPorts v).flt = s.flt := rfl
@[simp] theorem State.withPorts_ctxs (s : State) (v : Tab Port) : (s.withPorts v).ctxs = s.ctxs := rfl
@[simp] theorem State.withPorts_sets (s : State) (v : Tab Port) : (s.withPorts v).sets = s.sets := rfl
@[simp] theorem State.withPorts_incarnations (s : State) (v : Tab Port) : (s.withPorts v).incarnations = s.incarnations := rfl
@[simp] theorem State.withPorts_profiles (s : State) (v : Tab Port) : (s.withPorts v).profiles = s.profiles := rfl
@[simp] theorem State.withPorts_cht (s : State) (v : Tab Port) : (s.withPorts v).cht = s.cht := rfl
@[simp] theorem State.withPorts_log (s : State) (v : Tab Port) : (s.withPorts v).log = s.log := rfl
@[simp] theorem State.withPorts_wch (s : State) (v : Tab Port) : (s.withPorts v).wch = s.wch := rfl
@[simp] theorem State.withPorts_rings (s : State) (v : Tab Port) : (s.withPorts v).rings = s.rings := rfl
@[simp] theorem State.withPorts_privLock (s : State) (v : Tab Port) : (s.withPorts v).privLock = s.privLock := rfl
@[simp] theorem State.withPorts_ios (s : State) (v : Tab Port) : (s.withPorts v).ios = s.ios := rfl
@[simp] theorem State.withPorts_nextId (s : State) (v : Tab Port) : (s.withPorts v).nextId = s.nextId := rfl
@[simp] theorem State.withPorts_dcmds (s : State) (v : Tab Port) : (s.withPorts v).dcmds = s.dcmds := rfl
@[simp] theorem State.withPorts_ports (s : State) (v : Tab Port) : (s.withPorts v).ports = v := rfl
@[simp] theorem State.withPorts_portGroups (s : State) (v : Tab Port) : (s.withPorts v).portGroups = s.portGroups := rfl
@[simp] theorem State.withPorts_rowOps (s : State) (v : Tab Port) : (s.withPorts v).rowOps = s.rowOps := rfl
@[simp] theorem State.withPorts_commits (s : State) (v : Tab Port) : (s.withPorts v).commits = s.commits := rfl
@[simp] theorem State.withPorts_passes (s : State) (v : Tab Port) : (s.withPorts v).passes = s.passes := rfl
@[simp] theorem State.withPorts_arbitrating (s : State) (v : Tab Port) : (s.withPorts v).arbitrating = s.arbitrating := rfl
@[simp] theorem State.withPorts_clusters (s : State) (v : Tab Port) : (s.withPorts v).clusters = s.clusters := rfl
@[simp] theorem State.withPorts_scc (s : State) (v : Tab Port) : (s.withPorts v).scc = s.scc := rfl
@[simp] theorem State.withPorts_dmv (s : State) (v : Tab Port) : (s.withPorts v).dmv = s.dmv := rfl
@[simp] theorem State.withPorts_interp (s : State) (v : Tab Port) : (s.withPorts v).interp = s.interp := rfl
@[simp] theorem State.withPorts_sec (s : State) (v : Tab Port) : (s.withPorts v).sec = s.sec := rfl
@[simp] theorem State.withPorts_mon (s : State) (v : Tab Port) : (s.withPorts v).mon = s.mon := rfl
@[simp] theorem State.withPorts_pair (s : State) (v : Tab Port) : (s.withPorts v).pair = s.pair := rfl
@[simp] theorem State.withPorts_chn (s : State) (v : Tab Port) : (s.withPorts v).chn = s.chn := rfl
@[simp] theorem State.withPorts_hpus (s : State) (v : Tab Port) : (s.withPorts v).hpus = s.hpus := rfl
@[simp] theorem State.withPorts_pwin (s : State) (v : Tab Port) : (s.withPorts v).pwin = s.pwin := rfl
@[simp] theorem State.withPorts_map (s : State) (v : Tab Port) : (s.withPorts v).map = s.map := rfl
@[simp] theorem State.withPorts_sched (s : State) (v : Tab Port) : (s.withPorts v).sched = s.sched := rfl
@[simp] theorem State.withPorts_freeCount (s : State) (v : Tab Port) : (s.withPorts v).freeCount = s.freeCount := rfl
@[simp] theorem State.withPorts_out (s : State) (v : Tab Port) : (s.withPorts v).out = s.out := rfl
@[simp] theorem State.withPorts_pending (s : State) (v : Tab Port) : (s.withPorts v).pending = s.pending := rfl

@[simp] theorem State.withPortGroups_gcs (s : State) (v : Tab Group) : (s.withPortGroups v).gcs = s.gcs := rfl
@[simp] theorem State.withPortGroups_regs (s : State) (v : Tab Group) : (s.withPortGroups v).regs = s.regs := rfl
@[simp] theorem State.withPortGroups_flt (s : State) (v : Tab Group) : (s.withPortGroups v).flt = s.flt := rfl
@[simp] theorem State.withPortGroups_ctxs (s : State) (v : Tab Group) : (s.withPortGroups v).ctxs = s.ctxs := rfl
@[simp] theorem State.withPortGroups_sets (s : State) (v : Tab Group) : (s.withPortGroups v).sets = s.sets := rfl
@[simp] theorem State.withPortGroups_incarnations (s : State) (v : Tab Group) : (s.withPortGroups v).incarnations = s.incarnations := rfl
@[simp] theorem State.withPortGroups_profiles (s : State) (v : Tab Group) : (s.withPortGroups v).profiles = s.profiles := rfl
@[simp] theorem State.withPortGroups_cht (s : State) (v : Tab Group) : (s.withPortGroups v).cht = s.cht := rfl
@[simp] theorem State.withPortGroups_log (s : State) (v : Tab Group) : (s.withPortGroups v).log = s.log := rfl
@[simp] theorem State.withPortGroups_wch (s : State) (v : Tab Group) : (s.withPortGroups v).wch = s.wch := rfl
@[simp] theorem State.withPortGroups_rings (s : State) (v : Tab Group) : (s.withPortGroups v).rings = s.rings := rfl
@[simp] theorem State.withPortGroups_privLock (s : State) (v : Tab Group) : (s.withPortGroups v).privLock = s.privLock := rfl
@[simp] theorem State.withPortGroups_ios (s : State) (v : Tab Group) : (s.withPortGroups v).ios = s.ios := rfl
@[simp] theorem State.withPortGroups_nextId (s : State) (v : Tab Group) : (s.withPortGroups v).nextId = s.nextId := rfl
@[simp] theorem State.withPortGroups_dcmds (s : State) (v : Tab Group) : (s.withPortGroups v).dcmds = s.dcmds := rfl
@[simp] theorem State.withPortGroups_ports (s : State) (v : Tab Group) : (s.withPortGroups v).ports = s.ports := rfl
@[simp] theorem State.withPortGroups_portGroups (s : State) (v : Tab Group) : (s.withPortGroups v).portGroups = v := rfl
@[simp] theorem State.withPortGroups_rowOps (s : State) (v : Tab Group) : (s.withPortGroups v).rowOps = s.rowOps := rfl
@[simp] theorem State.withPortGroups_commits (s : State) (v : Tab Group) : (s.withPortGroups v).commits = s.commits := rfl
@[simp] theorem State.withPortGroups_passes (s : State) (v : Tab Group) : (s.withPortGroups v).passes = s.passes := rfl
@[simp] theorem State.withPortGroups_arbitrating (s : State) (v : Tab Group) : (s.withPortGroups v).arbitrating = s.arbitrating := rfl
@[simp] theorem State.withPortGroups_clusters (s : State) (v : Tab Group) : (s.withPortGroups v).clusters = s.clusters := rfl
@[simp] theorem State.withPortGroups_scc (s : State) (v : Tab Group) : (s.withPortGroups v).scc = s.scc := rfl
@[simp] theorem State.withPortGroups_dmv (s : State) (v : Tab Group) : (s.withPortGroups v).dmv = s.dmv := rfl
@[simp] theorem State.withPortGroups_interp (s : State) (v : Tab Group) : (s.withPortGroups v).interp = s.interp := rfl
@[simp] theorem State.withPortGroups_sec (s : State) (v : Tab Group) : (s.withPortGroups v).sec = s.sec := rfl
@[simp] theorem State.withPortGroups_mon (s : State) (v : Tab Group) : (s.withPortGroups v).mon = s.mon := rfl
@[simp] theorem State.withPortGroups_pair (s : State) (v : Tab Group) : (s.withPortGroups v).pair = s.pair := rfl
@[simp] theorem State.withPortGroups_chn (s : State) (v : Tab Group) : (s.withPortGroups v).chn = s.chn := rfl
@[simp] theorem State.withPortGroups_hpus (s : State) (v : Tab Group) : (s.withPortGroups v).hpus = s.hpus := rfl
@[simp] theorem State.withPortGroups_pwin (s : State) (v : Tab Group) : (s.withPortGroups v).pwin = s.pwin := rfl
@[simp] theorem State.withPortGroups_map (s : State) (v : Tab Group) : (s.withPortGroups v).map = s.map := rfl
@[simp] theorem State.withPortGroups_sched (s : State) (v : Tab Group) : (s.withPortGroups v).sched = s.sched := rfl
@[simp] theorem State.withPortGroups_freeCount (s : State) (v : Tab Group) : (s.withPortGroups v).freeCount = s.freeCount := rfl
@[simp] theorem State.withPortGroups_out (s : State) (v : Tab Group) : (s.withPortGroups v).out = s.out := rfl
@[simp] theorem State.withPortGroups_pending (s : State) (v : Tab Group) : (s.withPortGroups v).pending = s.pending := rfl

@[simp] theorem State.withRowOps_gcs (s : State) (v : List RowOp) : (s.withRowOps v).gcs = s.gcs := rfl
@[simp] theorem State.withRowOps_regs (s : State) (v : List RowOp) : (s.withRowOps v).regs = s.regs := rfl
@[simp] theorem State.withRowOps_flt (s : State) (v : List RowOp) : (s.withRowOps v).flt = s.flt := rfl
@[simp] theorem State.withRowOps_ctxs (s : State) (v : List RowOp) : (s.withRowOps v).ctxs = s.ctxs := rfl
@[simp] theorem State.withRowOps_sets (s : State) (v : List RowOp) : (s.withRowOps v).sets = s.sets := rfl
@[simp] theorem State.withRowOps_incarnations (s : State) (v : List RowOp) : (s.withRowOps v).incarnations = s.incarnations := rfl
@[simp] theorem State.withRowOps_profiles (s : State) (v : List RowOp) : (s.withRowOps v).profiles = s.profiles := rfl
@[simp] theorem State.withRowOps_cht (s : State) (v : List RowOp) : (s.withRowOps v).cht = s.cht := rfl
@[simp] theorem State.withRowOps_log (s : State) (v : List RowOp) : (s.withRowOps v).log = s.log := rfl
@[simp] theorem State.withRowOps_wch (s : State) (v : List RowOp) : (s.withRowOps v).wch = s.wch := rfl
@[simp] theorem State.withRowOps_rings (s : State) (v : List RowOp) : (s.withRowOps v).rings = s.rings := rfl
@[simp] theorem State.withRowOps_privLock (s : State) (v : List RowOp) : (s.withRowOps v).privLock = s.privLock := rfl
@[simp] theorem State.withRowOps_ios (s : State) (v : List RowOp) : (s.withRowOps v).ios = s.ios := rfl
@[simp] theorem State.withRowOps_nextId (s : State) (v : List RowOp) : (s.withRowOps v).nextId = s.nextId := rfl
@[simp] theorem State.withRowOps_dcmds (s : State) (v : List RowOp) : (s.withRowOps v).dcmds = s.dcmds := rfl
@[simp] theorem State.withRowOps_ports (s : State) (v : List RowOp) : (s.withRowOps v).ports = s.ports := rfl
@[simp] theorem State.withRowOps_portGroups (s : State) (v : List RowOp) : (s.withRowOps v).portGroups = s.portGroups := rfl
@[simp] theorem State.withRowOps_rowOps (s : State) (v : List RowOp) : (s.withRowOps v).rowOps = v := rfl
@[simp] theorem State.withRowOps_commits (s : State) (v : List RowOp) : (s.withRowOps v).commits = s.commits := rfl
@[simp] theorem State.withRowOps_passes (s : State) (v : List RowOp) : (s.withRowOps v).passes = s.passes := rfl
@[simp] theorem State.withRowOps_arbitrating (s : State) (v : List RowOp) : (s.withRowOps v).arbitrating = s.arbitrating := rfl
@[simp] theorem State.withRowOps_clusters (s : State) (v : List RowOp) : (s.withRowOps v).clusters = s.clusters := rfl
@[simp] theorem State.withRowOps_scc (s : State) (v : List RowOp) : (s.withRowOps v).scc = s.scc := rfl
@[simp] theorem State.withRowOps_dmv (s : State) (v : List RowOp) : (s.withRowOps v).dmv = s.dmv := rfl
@[simp] theorem State.withRowOps_interp (s : State) (v : List RowOp) : (s.withRowOps v).interp = s.interp := rfl
@[simp] theorem State.withRowOps_sec (s : State) (v : List RowOp) : (s.withRowOps v).sec = s.sec := rfl
@[simp] theorem State.withRowOps_mon (s : State) (v : List RowOp) : (s.withRowOps v).mon = s.mon := rfl
@[simp] theorem State.withRowOps_pair (s : State) (v : List RowOp) : (s.withRowOps v).pair = s.pair := rfl
@[simp] theorem State.withRowOps_chn (s : State) (v : List RowOp) : (s.withRowOps v).chn = s.chn := rfl
@[simp] theorem State.withRowOps_hpus (s : State) (v : List RowOp) : (s.withRowOps v).hpus = s.hpus := rfl
@[simp] theorem State.withRowOps_pwin (s : State) (v : List RowOp) : (s.withRowOps v).pwin = s.pwin := rfl
@[simp] theorem State.withRowOps_map (s : State) (v : List RowOp) : (s.withRowOps v).map = s.map := rfl
@[simp] theorem State.withRowOps_sched (s : State) (v : List RowOp) : (s.withRowOps v).sched = s.sched := rfl
@[simp] theorem State.withRowOps_freeCount (s : State) (v : List RowOp) : (s.withRowOps v).freeCount = s.freeCount := rfl
@[simp] theorem State.withRowOps_out (s : State) (v : List RowOp) : (s.withRowOps v).out = s.out := rfl
@[simp] theorem State.withRowOps_pending (s : State) (v : List RowOp) : (s.withRowOps v).pending = s.pending := rfl

@[simp] theorem State.withCommits_gcs (s : State) (v : List CommitOp) : (s.withCommits v).gcs = s.gcs := rfl
@[simp] theorem State.withCommits_regs (s : State) (v : List CommitOp) : (s.withCommits v).regs = s.regs := rfl
@[simp] theorem State.withCommits_flt (s : State) (v : List CommitOp) : (s.withCommits v).flt = s.flt := rfl
@[simp] theorem State.withCommits_ctxs (s : State) (v : List CommitOp) : (s.withCommits v).ctxs = s.ctxs := rfl
@[simp] theorem State.withCommits_sets (s : State) (v : List CommitOp) : (s.withCommits v).sets = s.sets := rfl
@[simp] theorem State.withCommits_incarnations (s : State) (v : List CommitOp) : (s.withCommits v).incarnations = s.incarnations := rfl
@[simp] theorem State.withCommits_profiles (s : State) (v : List CommitOp) : (s.withCommits v).profiles = s.profiles := rfl
@[simp] theorem State.withCommits_cht (s : State) (v : List CommitOp) : (s.withCommits v).cht = s.cht := rfl
@[simp] theorem State.withCommits_log (s : State) (v : List CommitOp) : (s.withCommits v).log = s.log := rfl
@[simp] theorem State.withCommits_wch (s : State) (v : List CommitOp) : (s.withCommits v).wch = s.wch := rfl
@[simp] theorem State.withCommits_rings (s : State) (v : List CommitOp) : (s.withCommits v).rings = s.rings := rfl
@[simp] theorem State.withCommits_privLock (s : State) (v : List CommitOp) : (s.withCommits v).privLock = s.privLock := rfl
@[simp] theorem State.withCommits_ios (s : State) (v : List CommitOp) : (s.withCommits v).ios = s.ios := rfl
@[simp] theorem State.withCommits_nextId (s : State) (v : List CommitOp) : (s.withCommits v).nextId = s.nextId := rfl
@[simp] theorem State.withCommits_dcmds (s : State) (v : List CommitOp) : (s.withCommits v).dcmds = s.dcmds := rfl
@[simp] theorem State.withCommits_ports (s : State) (v : List CommitOp) : (s.withCommits v).ports = s.ports := rfl
@[simp] theorem State.withCommits_portGroups (s : State) (v : List CommitOp) : (s.withCommits v).portGroups = s.portGroups := rfl
@[simp] theorem State.withCommits_rowOps (s : State) (v : List CommitOp) : (s.withCommits v).rowOps = s.rowOps := rfl
@[simp] theorem State.withCommits_commits (s : State) (v : List CommitOp) : (s.withCommits v).commits = v := rfl
@[simp] theorem State.withCommits_passes (s : State) (v : List CommitOp) : (s.withCommits v).passes = s.passes := rfl
@[simp] theorem State.withCommits_arbitrating (s : State) (v : List CommitOp) : (s.withCommits v).arbitrating = s.arbitrating := rfl
@[simp] theorem State.withCommits_clusters (s : State) (v : List CommitOp) : (s.withCommits v).clusters = s.clusters := rfl
@[simp] theorem State.withCommits_scc (s : State) (v : List CommitOp) : (s.withCommits v).scc = s.scc := rfl
@[simp] theorem State.withCommits_dmv (s : State) (v : List CommitOp) : (s.withCommits v).dmv = s.dmv := rfl
@[simp] theorem State.withCommits_interp (s : State) (v : List CommitOp) : (s.withCommits v).interp = s.interp := rfl
@[simp] theorem State.withCommits_sec (s : State) (v : List CommitOp) : (s.withCommits v).sec = s.sec := rfl
@[simp] theorem State.withCommits_mon (s : State) (v : List CommitOp) : (s.withCommits v).mon = s.mon := rfl
@[simp] theorem State.withCommits_pair (s : State) (v : List CommitOp) : (s.withCommits v).pair = s.pair := rfl
@[simp] theorem State.withCommits_chn (s : State) (v : List CommitOp) : (s.withCommits v).chn = s.chn := rfl
@[simp] theorem State.withCommits_hpus (s : State) (v : List CommitOp) : (s.withCommits v).hpus = s.hpus := rfl
@[simp] theorem State.withCommits_pwin (s : State) (v : List CommitOp) : (s.withCommits v).pwin = s.pwin := rfl
@[simp] theorem State.withCommits_map (s : State) (v : List CommitOp) : (s.withCommits v).map = s.map := rfl
@[simp] theorem State.withCommits_sched (s : State) (v : List CommitOp) : (s.withCommits v).sched = s.sched := rfl
@[simp] theorem State.withCommits_freeCount (s : State) (v : List CommitOp) : (s.withCommits v).freeCount = s.freeCount := rfl
@[simp] theorem State.withCommits_out (s : State) (v : List CommitOp) : (s.withCommits v).out = s.out := rfl
@[simp] theorem State.withCommits_pending (s : State) (v : List CommitOp) : (s.withCommits v).pending = s.pending := rfl

@[simp] theorem State.withPasses_gcs (s : State) (v : List Pass) : (s.withPasses v).gcs = s.gcs := rfl
@[simp] theorem State.withPasses_regs (s : State) (v : List Pass) : (s.withPasses v).regs = s.regs := rfl
@[simp] theorem State.withPasses_flt (s : State) (v : List Pass) : (s.withPasses v).flt = s.flt := rfl
@[simp] theorem State.withPasses_ctxs (s : State) (v : List Pass) : (s.withPasses v).ctxs = s.ctxs := rfl
@[simp] theorem State.withPasses_sets (s : State) (v : List Pass) : (s.withPasses v).sets = s.sets := rfl
@[simp] theorem State.withPasses_incarnations (s : State) (v : List Pass) : (s.withPasses v).incarnations = s.incarnations := rfl
@[simp] theorem State.withPasses_profiles (s : State) (v : List Pass) : (s.withPasses v).profiles = s.profiles := rfl
@[simp] theorem State.withPasses_cht (s : State) (v : List Pass) : (s.withPasses v).cht = s.cht := rfl
@[simp] theorem State.withPasses_log (s : State) (v : List Pass) : (s.withPasses v).log = s.log := rfl
@[simp] theorem State.withPasses_wch (s : State) (v : List Pass) : (s.withPasses v).wch = s.wch := rfl
@[simp] theorem State.withPasses_rings (s : State) (v : List Pass) : (s.withPasses v).rings = s.rings := rfl
@[simp] theorem State.withPasses_privLock (s : State) (v : List Pass) : (s.withPasses v).privLock = s.privLock := rfl
@[simp] theorem State.withPasses_ios (s : State) (v : List Pass) : (s.withPasses v).ios = s.ios := rfl
@[simp] theorem State.withPasses_nextId (s : State) (v : List Pass) : (s.withPasses v).nextId = s.nextId := rfl
@[simp] theorem State.withPasses_dcmds (s : State) (v : List Pass) : (s.withPasses v).dcmds = s.dcmds := rfl
@[simp] theorem State.withPasses_ports (s : State) (v : List Pass) : (s.withPasses v).ports = s.ports := rfl
@[simp] theorem State.withPasses_portGroups (s : State) (v : List Pass) : (s.withPasses v).portGroups = s.portGroups := rfl
@[simp] theorem State.withPasses_rowOps (s : State) (v : List Pass) : (s.withPasses v).rowOps = s.rowOps := rfl
@[simp] theorem State.withPasses_commits (s : State) (v : List Pass) : (s.withPasses v).commits = s.commits := rfl
@[simp] theorem State.withPasses_passes (s : State) (v : List Pass) : (s.withPasses v).passes = v := rfl
@[simp] theorem State.withPasses_arbitrating (s : State) (v : List Pass) : (s.withPasses v).arbitrating = s.arbitrating := rfl
@[simp] theorem State.withPasses_clusters (s : State) (v : List Pass) : (s.withPasses v).clusters = s.clusters := rfl
@[simp] theorem State.withPasses_scc (s : State) (v : List Pass) : (s.withPasses v).scc = s.scc := rfl
@[simp] theorem State.withPasses_dmv (s : State) (v : List Pass) : (s.withPasses v).dmv = s.dmv := rfl
@[simp] theorem State.withPasses_interp (s : State) (v : List Pass) : (s.withPasses v).interp = s.interp := rfl
@[simp] theorem State.withPasses_sec (s : State) (v : List Pass) : (s.withPasses v).sec = s.sec := rfl
@[simp] theorem State.withPasses_mon (s : State) (v : List Pass) : (s.withPasses v).mon = s.mon := rfl
@[simp] theorem State.withPasses_pair (s : State) (v : List Pass) : (s.withPasses v).pair = s.pair := rfl
@[simp] theorem State.withPasses_chn (s : State) (v : List Pass) : (s.withPasses v).chn = s.chn := rfl
@[simp] theorem State.withPasses_hpus (s : State) (v : List Pass) : (s.withPasses v).hpus = s.hpus := rfl
@[simp] theorem State.withPasses_pwin (s : State) (v : List Pass) : (s.withPasses v).pwin = s.pwin := rfl
@[simp] theorem State.withPasses_map (s : State) (v : List Pass) : (s.withPasses v).map = s.map := rfl
@[simp] theorem State.withPasses_sched (s : State) (v : List Pass) : (s.withPasses v).sched = s.sched := rfl
@[simp] theorem State.withPasses_freeCount (s : State) (v : List Pass) : (s.withPasses v).freeCount = s.freeCount := rfl
@[simp] theorem State.withPasses_out (s : State) (v : List Pass) : (s.withPasses v).out = s.out := rfl
@[simp] theorem State.withPasses_pending (s : State) (v : List Pass) : (s.withPasses v).pending = s.pending := rfl

@[simp] theorem State.withArbitrating_gcs (s : State) (v : List (BitVec 6 × Nat × Nat)) : (s.withArbitrating v).gcs = s.gcs := rfl
@[simp] theorem State.withArbitrating_regs (s : State) (v : List (BitVec 6 × Nat × Nat)) : (s.withArbitrating v).regs = s.regs := rfl
@[simp] theorem State.withArbitrating_flt (s : State) (v : List (BitVec 6 × Nat × Nat)) : (s.withArbitrating v).flt = s.flt := rfl
@[simp] theorem State.withArbitrating_ctxs (s : State) (v : List (BitVec 6 × Nat × Nat)) : (s.withArbitrating v).ctxs = s.ctxs := rfl
@[simp] theorem State.withArbitrating_sets (s : State) (v : List (BitVec 6 × Nat × Nat)) : (s.withArbitrating v).sets = s.sets := rfl
@[simp] theorem State.withArbitrating_incarnations (s : State) (v : List (BitVec 6 × Nat × Nat)) : (s.withArbitrating v).incarnations = s.incarnations := rfl
@[simp] theorem State.withArbitrating_profiles (s : State) (v : List (BitVec 6 × Nat × Nat)) : (s.withArbitrating v).profiles = s.profiles := rfl
@[simp] theorem State.withArbitrating_cht (s : State) (v : List (BitVec 6 × Nat × Nat)) : (s.withArbitrating v).cht = s.cht := rfl
@[simp] theorem State.withArbitrating_log (s : State) (v : List (BitVec 6 × Nat × Nat)) : (s.withArbitrating v).log = s.log := rfl
@[simp] theorem State.withArbitrating_wch (s : State) (v : List (BitVec 6 × Nat × Nat)) : (s.withArbitrating v).wch = s.wch := rfl
@[simp] theorem State.withArbitrating_rings (s : State) (v : List (BitVec 6 × Nat × Nat)) : (s.withArbitrating v).rings = s.rings := rfl
@[simp] theorem State.withArbitrating_privLock (s : State) (v : List (BitVec 6 × Nat × Nat)) : (s.withArbitrating v).privLock = s.privLock := rfl
@[simp] theorem State.withArbitrating_ios (s : State) (v : List (BitVec 6 × Nat × Nat)) : (s.withArbitrating v).ios = s.ios := rfl
@[simp] theorem State.withArbitrating_nextId (s : State) (v : List (BitVec 6 × Nat × Nat)) : (s.withArbitrating v).nextId = s.nextId := rfl
@[simp] theorem State.withArbitrating_dcmds (s : State) (v : List (BitVec 6 × Nat × Nat)) : (s.withArbitrating v).dcmds = s.dcmds := rfl
@[simp] theorem State.withArbitrating_ports (s : State) (v : List (BitVec 6 × Nat × Nat)) : (s.withArbitrating v).ports = s.ports := rfl
@[simp] theorem State.withArbitrating_portGroups (s : State) (v : List (BitVec 6 × Nat × Nat)) : (s.withArbitrating v).portGroups = s.portGroups := rfl
@[simp] theorem State.withArbitrating_rowOps (s : State) (v : List (BitVec 6 × Nat × Nat)) : (s.withArbitrating v).rowOps = s.rowOps := rfl
@[simp] theorem State.withArbitrating_commits (s : State) (v : List (BitVec 6 × Nat × Nat)) : (s.withArbitrating v).commits = s.commits := rfl
@[simp] theorem State.withArbitrating_passes (s : State) (v : List (BitVec 6 × Nat × Nat)) : (s.withArbitrating v).passes = s.passes := rfl
@[simp] theorem State.withArbitrating_arbitrating (s : State) (v : List (BitVec 6 × Nat × Nat)) : (s.withArbitrating v).arbitrating = v := rfl
@[simp] theorem State.withArbitrating_clusters (s : State) (v : List (BitVec 6 × Nat × Nat)) : (s.withArbitrating v).clusters = s.clusters := rfl
@[simp] theorem State.withArbitrating_scc (s : State) (v : List (BitVec 6 × Nat × Nat)) : (s.withArbitrating v).scc = s.scc := rfl
@[simp] theorem State.withArbitrating_dmv (s : State) (v : List (BitVec 6 × Nat × Nat)) : (s.withArbitrating v).dmv = s.dmv := rfl
@[simp] theorem State.withArbitrating_interp (s : State) (v : List (BitVec 6 × Nat × Nat)) : (s.withArbitrating v).interp = s.interp := rfl
@[simp] theorem State.withArbitrating_sec (s : State) (v : List (BitVec 6 × Nat × Nat)) : (s.withArbitrating v).sec = s.sec := rfl
@[simp] theorem State.withArbitrating_mon (s : State) (v : List (BitVec 6 × Nat × Nat)) : (s.withArbitrating v).mon = s.mon := rfl
@[simp] theorem State.withArbitrating_pair (s : State) (v : List (BitVec 6 × Nat × Nat)) : (s.withArbitrating v).pair = s.pair := rfl
@[simp] theorem State.withArbitrating_chn (s : State) (v : List (BitVec 6 × Nat × Nat)) : (s.withArbitrating v).chn = s.chn := rfl
@[simp] theorem State.withArbitrating_hpus (s : State) (v : List (BitVec 6 × Nat × Nat)) : (s.withArbitrating v).hpus = s.hpus := rfl
@[simp] theorem State.withArbitrating_pwin (s : State) (v : List (BitVec 6 × Nat × Nat)) : (s.withArbitrating v).pwin = s.pwin := rfl
@[simp] theorem State.withArbitrating_map (s : State) (v : List (BitVec 6 × Nat × Nat)) : (s.withArbitrating v).map = s.map := rfl
@[simp] theorem State.withArbitrating_sched (s : State) (v : List (BitVec 6 × Nat × Nat)) : (s.withArbitrating v).sched = s.sched := rfl
@[simp] theorem State.withArbitrating_freeCount (s : State) (v : List (BitVec 6 × Nat × Nat)) : (s.withArbitrating v).freeCount = s.freeCount := rfl
@[simp] theorem State.withArbitrating_out (s : State) (v : List (BitVec 6 × Nat × Nat)) : (s.withArbitrating v).out = s.out := rfl
@[simp] theorem State.withArbitrating_pending (s : State) (v : List (BitVec 6 × Nat × Nat)) : (s.withArbitrating v).pending = s.pending := rfl

@[simp] theorem State.withClusters_gcs (s : State) (v : Tab Cluster) : (s.withClusters v).gcs = s.gcs := rfl
@[simp] theorem State.withClusters_regs (s : State) (v : Tab Cluster) : (s.withClusters v).regs = s.regs := rfl
@[simp] theorem State.withClusters_flt (s : State) (v : Tab Cluster) : (s.withClusters v).flt = s.flt := rfl
@[simp] theorem State.withClusters_ctxs (s : State) (v : Tab Cluster) : (s.withClusters v).ctxs = s.ctxs := rfl
@[simp] theorem State.withClusters_sets (s : State) (v : Tab Cluster) : (s.withClusters v).sets = s.sets := rfl
@[simp] theorem State.withClusters_incarnations (s : State) (v : Tab Cluster) : (s.withClusters v).incarnations = s.incarnations := rfl
@[simp] theorem State.withClusters_profiles (s : State) (v : Tab Cluster) : (s.withClusters v).profiles = s.profiles := rfl
@[simp] theorem State.withClusters_cht (s : State) (v : Tab Cluster) : (s.withClusters v).cht = s.cht := rfl
@[simp] theorem State.withClusters_log (s : State) (v : Tab Cluster) : (s.withClusters v).log = s.log := rfl
@[simp] theorem State.withClusters_wch (s : State) (v : Tab Cluster) : (s.withClusters v).wch = s.wch := rfl
@[simp] theorem State.withClusters_rings (s : State) (v : Tab Cluster) : (s.withClusters v).rings = s.rings := rfl
@[simp] theorem State.withClusters_privLock (s : State) (v : Tab Cluster) : (s.withClusters v).privLock = s.privLock := rfl
@[simp] theorem State.withClusters_ios (s : State) (v : Tab Cluster) : (s.withClusters v).ios = s.ios := rfl
@[simp] theorem State.withClusters_nextId (s : State) (v : Tab Cluster) : (s.withClusters v).nextId = s.nextId := rfl
@[simp] theorem State.withClusters_dcmds (s : State) (v : Tab Cluster) : (s.withClusters v).dcmds = s.dcmds := rfl
@[simp] theorem State.withClusters_ports (s : State) (v : Tab Cluster) : (s.withClusters v).ports = s.ports := rfl
@[simp] theorem State.withClusters_portGroups (s : State) (v : Tab Cluster) : (s.withClusters v).portGroups = s.portGroups := rfl
@[simp] theorem State.withClusters_rowOps (s : State) (v : Tab Cluster) : (s.withClusters v).rowOps = s.rowOps := rfl
@[simp] theorem State.withClusters_commits (s : State) (v : Tab Cluster) : (s.withClusters v).commits = s.commits := rfl
@[simp] theorem State.withClusters_passes (s : State) (v : Tab Cluster) : (s.withClusters v).passes = s.passes := rfl
@[simp] theorem State.withClusters_arbitrating (s : State) (v : Tab Cluster) : (s.withClusters v).arbitrating = s.arbitrating := rfl
@[simp] theorem State.withClusters_clusters (s : State) (v : Tab Cluster) : (s.withClusters v).clusters = v := rfl
@[simp] theorem State.withClusters_scc (s : State) (v : Tab Cluster) : (s.withClusters v).scc = s.scc := rfl
@[simp] theorem State.withClusters_dmv (s : State) (v : Tab Cluster) : (s.withClusters v).dmv = s.dmv := rfl
@[simp] theorem State.withClusters_interp (s : State) (v : Tab Cluster) : (s.withClusters v).interp = s.interp := rfl
@[simp] theorem State.withClusters_sec (s : State) (v : Tab Cluster) : (s.withClusters v).sec = s.sec := rfl
@[simp] theorem State.withClusters_mon (s : State) (v : Tab Cluster) : (s.withClusters v).mon = s.mon := rfl
@[simp] theorem State.withClusters_pair (s : State) (v : Tab Cluster) : (s.withClusters v).pair = s.pair := rfl
@[simp] theorem State.withClusters_chn (s : State) (v : Tab Cluster) : (s.withClusters v).chn = s.chn := rfl
@[simp] theorem State.withClusters_hpus (s : State) (v : Tab Cluster) : (s.withClusters v).hpus = s.hpus := rfl
@[simp] theorem State.withClusters_pwin (s : State) (v : Tab Cluster) : (s.withClusters v).pwin = s.pwin := rfl
@[simp] theorem State.withClusters_map (s : State) (v : Tab Cluster) : (s.withClusters v).map = s.map := rfl
@[simp] theorem State.withClusters_sched (s : State) (v : Tab Cluster) : (s.withClusters v).sched = s.sched := rfl
@[simp] theorem State.withClusters_freeCount (s : State) (v : Tab Cluster) : (s.withClusters v).freeCount = s.freeCount := rfl
@[simp] theorem State.withClusters_out (s : State) (v : Tab Cluster) : (s.withClusters v).out = s.out := rfl
@[simp] theorem State.withClusters_pending (s : State) (v : Tab Cluster) : (s.withClusters v).pending = s.pending := rfl

@[simp] theorem State.withScc_gcs (s : State) (v : Scc) : (s.withScc v).gcs = s.gcs := rfl
@[simp] theorem State.withScc_regs (s : State) (v : Scc) : (s.withScc v).regs = s.regs := rfl
@[simp] theorem State.withScc_flt (s : State) (v : Scc) : (s.withScc v).flt = s.flt := rfl
@[simp] theorem State.withScc_ctxs (s : State) (v : Scc) : (s.withScc v).ctxs = s.ctxs := rfl
@[simp] theorem State.withScc_sets (s : State) (v : Scc) : (s.withScc v).sets = s.sets := rfl
@[simp] theorem State.withScc_incarnations (s : State) (v : Scc) : (s.withScc v).incarnations = s.incarnations := rfl
@[simp] theorem State.withScc_profiles (s : State) (v : Scc) : (s.withScc v).profiles = s.profiles := rfl
@[simp] theorem State.withScc_cht (s : State) (v : Scc) : (s.withScc v).cht = s.cht := rfl
@[simp] theorem State.withScc_log (s : State) (v : Scc) : (s.withScc v).log = s.log := rfl
@[simp] theorem State.withScc_wch (s : State) (v : Scc) : (s.withScc v).wch = s.wch := rfl
@[simp] theorem State.withScc_rings (s : State) (v : Scc) : (s.withScc v).rings = s.rings := rfl
@[simp] theorem State.withScc_privLock (s : State) (v : Scc) : (s.withScc v).privLock = s.privLock := rfl
@[simp] theorem State.withScc_ios (s : State) (v : Scc) : (s.withScc v).ios = s.ios := rfl
@[simp] theorem State.withScc_nextId (s : State) (v : Scc) : (s.withScc v).nextId = s.nextId := rfl
@[simp] theorem State.withScc_dcmds (s : State) (v : Scc) : (s.withScc v).dcmds = s.dcmds := rfl
@[simp] theorem State.withScc_ports (s : State) (v : Scc) : (s.withScc v).ports = s.ports := rfl
@[simp] theorem State.withScc_portGroups (s : State) (v : Scc) : (s.withScc v).portGroups = s.portGroups := rfl
@[simp] theorem State.withScc_rowOps (s : State) (v : Scc) : (s.withScc v).rowOps = s.rowOps := rfl
@[simp] theorem State.withScc_commits (s : State) (v : Scc) : (s.withScc v).commits = s.commits := rfl
@[simp] theorem State.withScc_passes (s : State) (v : Scc) : (s.withScc v).passes = s.passes := rfl
@[simp] theorem State.withScc_arbitrating (s : State) (v : Scc) : (s.withScc v).arbitrating = s.arbitrating := rfl
@[simp] theorem State.withScc_clusters (s : State) (v : Scc) : (s.withScc v).clusters = s.clusters := rfl
@[simp] theorem State.withScc_scc (s : State) (v : Scc) : (s.withScc v).scc = v := rfl
@[simp] theorem State.withScc_dmv (s : State) (v : Scc) : (s.withScc v).dmv = s.dmv := rfl
@[simp] theorem State.withScc_interp (s : State) (v : Scc) : (s.withScc v).interp = s.interp := rfl
@[simp] theorem State.withScc_sec (s : State) (v : Scc) : (s.withScc v).sec = s.sec := rfl
@[simp] theorem State.withScc_mon (s : State) (v : Scc) : (s.withScc v).mon = s.mon := rfl
@[simp] theorem State.withScc_pair (s : State) (v : Scc) : (s.withScc v).pair = s.pair := rfl
@[simp] theorem State.withScc_chn (s : State) (v : Scc) : (s.withScc v).chn = s.chn := rfl
@[simp] theorem State.withScc_hpus (s : State) (v : Scc) : (s.withScc v).hpus = s.hpus := rfl
@[simp] theorem State.withScc_pwin (s : State) (v : Scc) : (s.withScc v).pwin = s.pwin := rfl
@[simp] theorem State.withScc_map (s : State) (v : Scc) : (s.withScc v).map = s.map := rfl
@[simp] theorem State.withScc_sched (s : State) (v : Scc) : (s.withScc v).sched = s.sched := rfl
@[simp] theorem State.withScc_freeCount (s : State) (v : Scc) : (s.withScc v).freeCount = s.freeCount := rfl
@[simp] theorem State.withScc_out (s : State) (v : Scc) : (s.withScc v).out = s.out := rfl
@[simp] theorem State.withScc_pending (s : State) (v : Scc) : (s.withScc v).pending = s.pending := rfl

@[simp] theorem State.withDmv_gcs (s : State) (v : Dmv) : (s.withDmv v).gcs = s.gcs := rfl
@[simp] theorem State.withDmv_regs (s : State) (v : Dmv) : (s.withDmv v).regs = s.regs := rfl
@[simp] theorem State.withDmv_flt (s : State) (v : Dmv) : (s.withDmv v).flt = s.flt := rfl
@[simp] theorem State.withDmv_ctxs (s : State) (v : Dmv) : (s.withDmv v).ctxs = s.ctxs := rfl
@[simp] theorem State.withDmv_sets (s : State) (v : Dmv) : (s.withDmv v).sets = s.sets := rfl
@[simp] theorem State.withDmv_incarnations (s : State) (v : Dmv) : (s.withDmv v).incarnations = s.incarnations := rfl
@[simp] theorem State.withDmv_profiles (s : State) (v : Dmv) : (s.withDmv v).profiles = s.profiles := rfl
@[simp] theorem State.withDmv_cht (s : State) (v : Dmv) : (s.withDmv v).cht = s.cht := rfl
@[simp] theorem State.withDmv_log (s : State) (v : Dmv) : (s.withDmv v).log = s.log := rfl
@[simp] theorem State.withDmv_wch (s : State) (v : Dmv) : (s.withDmv v).wch = s.wch := rfl
@[simp] theorem State.withDmv_rings (s : State) (v : Dmv) : (s.withDmv v).rings = s.rings := rfl
@[simp] theorem State.withDmv_privLock (s : State) (v : Dmv) : (s.withDmv v).privLock = s.privLock := rfl
@[simp] theorem State.withDmv_ios (s : State) (v : Dmv) : (s.withDmv v).ios = s.ios := rfl
@[simp] theorem State.withDmv_nextId (s : State) (v : Dmv) : (s.withDmv v).nextId = s.nextId := rfl
@[simp] theorem State.withDmv_dcmds (s : State) (v : Dmv) : (s.withDmv v).dcmds = s.dcmds := rfl
@[simp] theorem State.withDmv_ports (s : State) (v : Dmv) : (s.withDmv v).ports = s.ports := rfl
@[simp] theorem State.withDmv_portGroups (s : State) (v : Dmv) : (s.withDmv v).portGroups = s.portGroups := rfl
@[simp] theorem State.withDmv_rowOps (s : State) (v : Dmv) : (s.withDmv v).rowOps = s.rowOps := rfl
@[simp] theorem State.withDmv_commits (s : State) (v : Dmv) : (s.withDmv v).commits = s.commits := rfl
@[simp] theorem State.withDmv_passes (s : State) (v : Dmv) : (s.withDmv v).passes = s.passes := rfl
@[simp] theorem State.withDmv_arbitrating (s : State) (v : Dmv) : (s.withDmv v).arbitrating = s.arbitrating := rfl
@[simp] theorem State.withDmv_clusters (s : State) (v : Dmv) : (s.withDmv v).clusters = s.clusters := rfl
@[simp] theorem State.withDmv_scc (s : State) (v : Dmv) : (s.withDmv v).scc = s.scc := rfl
@[simp] theorem State.withDmv_dmv (s : State) (v : Dmv) : (s.withDmv v).dmv = v := rfl
@[simp] theorem State.withDmv_interp (s : State) (v : Dmv) : (s.withDmv v).interp = s.interp := rfl
@[simp] theorem State.withDmv_sec (s : State) (v : Dmv) : (s.withDmv v).sec = s.sec := rfl
@[simp] theorem State.withDmv_mon (s : State) (v : Dmv) : (s.withDmv v).mon = s.mon := rfl
@[simp] theorem State.withDmv_pair (s : State) (v : Dmv) : (s.withDmv v).pair = s.pair := rfl
@[simp] theorem State.withDmv_chn (s : State) (v : Dmv) : (s.withDmv v).chn = s.chn := rfl
@[simp] theorem State.withDmv_hpus (s : State) (v : Dmv) : (s.withDmv v).hpus = s.hpus := rfl
@[simp] theorem State.withDmv_pwin (s : State) (v : Dmv) : (s.withDmv v).pwin = s.pwin := rfl
@[simp] theorem State.withDmv_map (s : State) (v : Dmv) : (s.withDmv v).map = s.map := rfl
@[simp] theorem State.withDmv_sched (s : State) (v : Dmv) : (s.withDmv v).sched = s.sched := rfl
@[simp] theorem State.withDmv_freeCount (s : State) (v : Dmv) : (s.withDmv v).freeCount = s.freeCount := rfl
@[simp] theorem State.withDmv_out (s : State) (v : Dmv) : (s.withDmv v).out = s.out := rfl
@[simp] theorem State.withDmv_pending (s : State) (v : Dmv) : (s.withDmv v).pending = s.pending := rfl

@[simp] theorem State.withInterp_gcs (s : State) (v : Interp) : (s.withInterp v).gcs = s.gcs := rfl
@[simp] theorem State.withInterp_regs (s : State) (v : Interp) : (s.withInterp v).regs = s.regs := rfl
@[simp] theorem State.withInterp_flt (s : State) (v : Interp) : (s.withInterp v).flt = s.flt := rfl
@[simp] theorem State.withInterp_ctxs (s : State) (v : Interp) : (s.withInterp v).ctxs = s.ctxs := rfl
@[simp] theorem State.withInterp_sets (s : State) (v : Interp) : (s.withInterp v).sets = s.sets := rfl
@[simp] theorem State.withInterp_incarnations (s : State) (v : Interp) : (s.withInterp v).incarnations = s.incarnations := rfl
@[simp] theorem State.withInterp_profiles (s : State) (v : Interp) : (s.withInterp v).profiles = s.profiles := rfl
@[simp] theorem State.withInterp_cht (s : State) (v : Interp) : (s.withInterp v).cht = s.cht := rfl
@[simp] theorem State.withInterp_log (s : State) (v : Interp) : (s.withInterp v).log = s.log := rfl
@[simp] theorem State.withInterp_wch (s : State) (v : Interp) : (s.withInterp v).wch = s.wch := rfl
@[simp] theorem State.withInterp_rings (s : State) (v : Interp) : (s.withInterp v).rings = s.rings := rfl
@[simp] theorem State.withInterp_privLock (s : State) (v : Interp) : (s.withInterp v).privLock = s.privLock := rfl
@[simp] theorem State.withInterp_ios (s : State) (v : Interp) : (s.withInterp v).ios = s.ios := rfl
@[simp] theorem State.withInterp_nextId (s : State) (v : Interp) : (s.withInterp v).nextId = s.nextId := rfl
@[simp] theorem State.withInterp_dcmds (s : State) (v : Interp) : (s.withInterp v).dcmds = s.dcmds := rfl
@[simp] theorem State.withInterp_ports (s : State) (v : Interp) : (s.withInterp v).ports = s.ports := rfl
@[simp] theorem State.withInterp_portGroups (s : State) (v : Interp) : (s.withInterp v).portGroups = s.portGroups := rfl
@[simp] theorem State.withInterp_rowOps (s : State) (v : Interp) : (s.withInterp v).rowOps = s.rowOps := rfl
@[simp] theorem State.withInterp_commits (s : State) (v : Interp) : (s.withInterp v).commits = s.commits := rfl
@[simp] theorem State.withInterp_passes (s : State) (v : Interp) : (s.withInterp v).passes = s.passes := rfl
@[simp] theorem State.withInterp_arbitrating (s : State) (v : Interp) : (s.withInterp v).arbitrating = s.arbitrating := rfl
@[simp] theorem State.withInterp_clusters (s : State) (v : Interp) : (s.withInterp v).clusters = s.clusters := rfl
@[simp] theorem State.withInterp_scc (s : State) (v : Interp) : (s.withInterp v).scc = s.scc := rfl
@[simp] theorem State.withInterp_dmv (s : State) (v : Interp) : (s.withInterp v).dmv = s.dmv := rfl
@[simp] theorem State.withInterp_interp (s : State) (v : Interp) : (s.withInterp v).interp = v := rfl
@[simp] theorem State.withInterp_sec (s : State) (v : Interp) : (s.withInterp v).sec = s.sec := rfl
@[simp] theorem State.withInterp_mon (s : State) (v : Interp) : (s.withInterp v).mon = s.mon := rfl
@[simp] theorem State.withInterp_pair (s : State) (v : Interp) : (s.withInterp v).pair = s.pair := rfl
@[simp] theorem State.withInterp_chn (s : State) (v : Interp) : (s.withInterp v).chn = s.chn := rfl
@[simp] theorem State.withInterp_hpus (s : State) (v : Interp) : (s.withInterp v).hpus = s.hpus := rfl
@[simp] theorem State.withInterp_pwin (s : State) (v : Interp) : (s.withInterp v).pwin = s.pwin := rfl
@[simp] theorem State.withInterp_map (s : State) (v : Interp) : (s.withInterp v).map = s.map := rfl
@[simp] theorem State.withInterp_sched (s : State) (v : Interp) : (s.withInterp v).sched = s.sched := rfl
@[simp] theorem State.withInterp_freeCount (s : State) (v : Interp) : (s.withInterp v).freeCount = s.freeCount := rfl
@[simp] theorem State.withInterp_out (s : State) (v : Interp) : (s.withInterp v).out = s.out := rfl
@[simp] theorem State.withInterp_pending (s : State) (v : Interp) : (s.withInterp v).pending = s.pending := rfl

@[simp] theorem State.withSec_gcs (s : State) (v : Sec) : (s.withSec v).gcs = s.gcs := rfl
@[simp] theorem State.withSec_regs (s : State) (v : Sec) : (s.withSec v).regs = s.regs := rfl
@[simp] theorem State.withSec_flt (s : State) (v : Sec) : (s.withSec v).flt = s.flt := rfl
@[simp] theorem State.withSec_ctxs (s : State) (v : Sec) : (s.withSec v).ctxs = s.ctxs := rfl
@[simp] theorem State.withSec_sets (s : State) (v : Sec) : (s.withSec v).sets = s.sets := rfl
@[simp] theorem State.withSec_incarnations (s : State) (v : Sec) : (s.withSec v).incarnations = s.incarnations := rfl
@[simp] theorem State.withSec_profiles (s : State) (v : Sec) : (s.withSec v).profiles = s.profiles := rfl
@[simp] theorem State.withSec_cht (s : State) (v : Sec) : (s.withSec v).cht = s.cht := rfl
@[simp] theorem State.withSec_log (s : State) (v : Sec) : (s.withSec v).log = s.log := rfl
@[simp] theorem State.withSec_wch (s : State) (v : Sec) : (s.withSec v).wch = s.wch := rfl
@[simp] theorem State.withSec_rings (s : State) (v : Sec) : (s.withSec v).rings = s.rings := rfl
@[simp] theorem State.withSec_privLock (s : State) (v : Sec) : (s.withSec v).privLock = s.privLock := rfl
@[simp] theorem State.withSec_ios (s : State) (v : Sec) : (s.withSec v).ios = s.ios := rfl
@[simp] theorem State.withSec_nextId (s : State) (v : Sec) : (s.withSec v).nextId = s.nextId := rfl
@[simp] theorem State.withSec_dcmds (s : State) (v : Sec) : (s.withSec v).dcmds = s.dcmds := rfl
@[simp] theorem State.withSec_ports (s : State) (v : Sec) : (s.withSec v).ports = s.ports := rfl
@[simp] theorem State.withSec_portGroups (s : State) (v : Sec) : (s.withSec v).portGroups = s.portGroups := rfl
@[simp] theorem State.withSec_rowOps (s : State) (v : Sec) : (s.withSec v).rowOps = s.rowOps := rfl
@[simp] theorem State.withSec_commits (s : State) (v : Sec) : (s.withSec v).commits = s.commits := rfl
@[simp] theorem State.withSec_passes (s : State) (v : Sec) : (s.withSec v).passes = s.passes := rfl
@[simp] theorem State.withSec_arbitrating (s : State) (v : Sec) : (s.withSec v).arbitrating = s.arbitrating := rfl
@[simp] theorem State.withSec_clusters (s : State) (v : Sec) : (s.withSec v).clusters = s.clusters := rfl
@[simp] theorem State.withSec_scc (s : State) (v : Sec) : (s.withSec v).scc = s.scc := rfl
@[simp] theorem State.withSec_dmv (s : State) (v : Sec) : (s.withSec v).dmv = s.dmv := rfl
@[simp] theorem State.withSec_interp (s : State) (v : Sec) : (s.withSec v).interp = s.interp := rfl
@[simp] theorem State.withSec_sec (s : State) (v : Sec) : (s.withSec v).sec = v := rfl
@[simp] theorem State.withSec_mon (s : State) (v : Sec) : (s.withSec v).mon = s.mon := rfl
@[simp] theorem State.withSec_pair (s : State) (v : Sec) : (s.withSec v).pair = s.pair := rfl
@[simp] theorem State.withSec_chn (s : State) (v : Sec) : (s.withSec v).chn = s.chn := rfl
@[simp] theorem State.withSec_hpus (s : State) (v : Sec) : (s.withSec v).hpus = s.hpus := rfl
@[simp] theorem State.withSec_pwin (s : State) (v : Sec) : (s.withSec v).pwin = s.pwin := rfl
@[simp] theorem State.withSec_map (s : State) (v : Sec) : (s.withSec v).map = s.map := rfl
@[simp] theorem State.withSec_sched (s : State) (v : Sec) : (s.withSec v).sched = s.sched := rfl
@[simp] theorem State.withSec_freeCount (s : State) (v : Sec) : (s.withSec v).freeCount = s.freeCount := rfl
@[simp] theorem State.withSec_out (s : State) (v : Sec) : (s.withSec v).out = s.out := rfl
@[simp] theorem State.withSec_pending (s : State) (v : Sec) : (s.withSec v).pending = s.pending := rfl

@[simp] theorem State.withMon_gcs (s : State) (v : Mon) : (s.withMon v).gcs = s.gcs := rfl
@[simp] theorem State.withMon_regs (s : State) (v : Mon) : (s.withMon v).regs = s.regs := rfl
@[simp] theorem State.withMon_flt (s : State) (v : Mon) : (s.withMon v).flt = s.flt := rfl
@[simp] theorem State.withMon_ctxs (s : State) (v : Mon) : (s.withMon v).ctxs = s.ctxs := rfl
@[simp] theorem State.withMon_sets (s : State) (v : Mon) : (s.withMon v).sets = s.sets := rfl
@[simp] theorem State.withMon_incarnations (s : State) (v : Mon) : (s.withMon v).incarnations = s.incarnations := rfl
@[simp] theorem State.withMon_profiles (s : State) (v : Mon) : (s.withMon v).profiles = s.profiles := rfl
@[simp] theorem State.withMon_cht (s : State) (v : Mon) : (s.withMon v).cht = s.cht := rfl
@[simp] theorem State.withMon_log (s : State) (v : Mon) : (s.withMon v).log = s.log := rfl
@[simp] theorem State.withMon_wch (s : State) (v : Mon) : (s.withMon v).wch = s.wch := rfl
@[simp] theorem State.withMon_rings (s : State) (v : Mon) : (s.withMon v).rings = s.rings := rfl
@[simp] theorem State.withMon_privLock (s : State) (v : Mon) : (s.withMon v).privLock = s.privLock := rfl
@[simp] theorem State.withMon_ios (s : State) (v : Mon) : (s.withMon v).ios = s.ios := rfl
@[simp] theorem State.withMon_nextId (s : State) (v : Mon) : (s.withMon v).nextId = s.nextId := rfl
@[simp] theorem State.withMon_dcmds (s : State) (v : Mon) : (s.withMon v).dcmds = s.dcmds := rfl
@[simp] theorem State.withMon_ports (s : State) (v : Mon) : (s.withMon v).ports = s.ports := rfl
@[simp] theorem State.withMon_portGroups (s : State) (v : Mon) : (s.withMon v).portGroups = s.portGroups := rfl
@[simp] theorem State.withMon_rowOps (s : State) (v : Mon) : (s.withMon v).rowOps = s.rowOps := rfl
@[simp] theorem State.withMon_commits (s : State) (v : Mon) : (s.withMon v).commits = s.commits := rfl
@[simp] theorem State.withMon_passes (s : State) (v : Mon) : (s.withMon v).passes = s.passes := rfl
@[simp] theorem State.withMon_arbitrating (s : State) (v : Mon) : (s.withMon v).arbitrating = s.arbitrating := rfl
@[simp] theorem State.withMon_clusters (s : State) (v : Mon) : (s.withMon v).clusters = s.clusters := rfl
@[simp] theorem State.withMon_scc (s : State) (v : Mon) : (s.withMon v).scc = s.scc := rfl
@[simp] theorem State.withMon_dmv (s : State) (v : Mon) : (s.withMon v).dmv = s.dmv := rfl
@[simp] theorem State.withMon_interp (s : State) (v : Mon) : (s.withMon v).interp = s.interp := rfl
@[simp] theorem State.withMon_sec (s : State) (v : Mon) : (s.withMon v).sec = s.sec := rfl
@[simp] theorem State.withMon_mon (s : State) (v : Mon) : (s.withMon v).mon = v := rfl
@[simp] theorem State.withMon_pair (s : State) (v : Mon) : (s.withMon v).pair = s.pair := rfl
@[simp] theorem State.withMon_chn (s : State) (v : Mon) : (s.withMon v).chn = s.chn := rfl
@[simp] theorem State.withMon_hpus (s : State) (v : Mon) : (s.withMon v).hpus = s.hpus := rfl
@[simp] theorem State.withMon_pwin (s : State) (v : Mon) : (s.withMon v).pwin = s.pwin := rfl
@[simp] theorem State.withMon_map (s : State) (v : Mon) : (s.withMon v).map = s.map := rfl
@[simp] theorem State.withMon_sched (s : State) (v : Mon) : (s.withMon v).sched = s.sched := rfl
@[simp] theorem State.withMon_freeCount (s : State) (v : Mon) : (s.withMon v).freeCount = s.freeCount := rfl
@[simp] theorem State.withMon_out (s : State) (v : Mon) : (s.withMon v).out = s.out := rfl
@[simp] theorem State.withMon_pending (s : State) (v : Mon) : (s.withMon v).pending = s.pending := rfl

@[simp] theorem State.withPair_gcs (s : State) (v : Pair) : (s.withPair v).gcs = s.gcs := rfl
@[simp] theorem State.withPair_regs (s : State) (v : Pair) : (s.withPair v).regs = s.regs := rfl
@[simp] theorem State.withPair_flt (s : State) (v : Pair) : (s.withPair v).flt = s.flt := rfl
@[simp] theorem State.withPair_ctxs (s : State) (v : Pair) : (s.withPair v).ctxs = s.ctxs := rfl
@[simp] theorem State.withPair_sets (s : State) (v : Pair) : (s.withPair v).sets = s.sets := rfl
@[simp] theorem State.withPair_incarnations (s : State) (v : Pair) : (s.withPair v).incarnations = s.incarnations := rfl
@[simp] theorem State.withPair_profiles (s : State) (v : Pair) : (s.withPair v).profiles = s.profiles := rfl
@[simp] theorem State.withPair_cht (s : State) (v : Pair) : (s.withPair v).cht = s.cht := rfl
@[simp] theorem State.withPair_log (s : State) (v : Pair) : (s.withPair v).log = s.log := rfl
@[simp] theorem State.withPair_wch (s : State) (v : Pair) : (s.withPair v).wch = s.wch := rfl
@[simp] theorem State.withPair_rings (s : State) (v : Pair) : (s.withPair v).rings = s.rings := rfl
@[simp] theorem State.withPair_privLock (s : State) (v : Pair) : (s.withPair v).privLock = s.privLock := rfl
@[simp] theorem State.withPair_ios (s : State) (v : Pair) : (s.withPair v).ios = s.ios := rfl
@[simp] theorem State.withPair_nextId (s : State) (v : Pair) : (s.withPair v).nextId = s.nextId := rfl
@[simp] theorem State.withPair_dcmds (s : State) (v : Pair) : (s.withPair v).dcmds = s.dcmds := rfl
@[simp] theorem State.withPair_ports (s : State) (v : Pair) : (s.withPair v).ports = s.ports := rfl
@[simp] theorem State.withPair_portGroups (s : State) (v : Pair) : (s.withPair v).portGroups = s.portGroups := rfl
@[simp] theorem State.withPair_rowOps (s : State) (v : Pair) : (s.withPair v).rowOps = s.rowOps := rfl
@[simp] theorem State.withPair_commits (s : State) (v : Pair) : (s.withPair v).commits = s.commits := rfl
@[simp] theorem State.withPair_passes (s : State) (v : Pair) : (s.withPair v).passes = s.passes := rfl
@[simp] theorem State.withPair_arbitrating (s : State) (v : Pair) : (s.withPair v).arbitrating = s.arbitrating := rfl
@[simp] theorem State.withPair_clusters (s : State) (v : Pair) : (s.withPair v).clusters = s.clusters := rfl
@[simp] theorem State.withPair_scc (s : State) (v : Pair) : (s.withPair v).scc = s.scc := rfl
@[simp] theorem State.withPair_dmv (s : State) (v : Pair) : (s.withPair v).dmv = s.dmv := rfl
@[simp] theorem State.withPair_interp (s : State) (v : Pair) : (s.withPair v).interp = s.interp := rfl
@[simp] theorem State.withPair_sec (s : State) (v : Pair) : (s.withPair v).sec = s.sec := rfl
@[simp] theorem State.withPair_mon (s : State) (v : Pair) : (s.withPair v).mon = s.mon := rfl
@[simp] theorem State.withPair_pair (s : State) (v : Pair) : (s.withPair v).pair = v := rfl
@[simp] theorem State.withPair_chn (s : State) (v : Pair) : (s.withPair v).chn = s.chn := rfl
@[simp] theorem State.withPair_hpus (s : State) (v : Pair) : (s.withPair v).hpus = s.hpus := rfl
@[simp] theorem State.withPair_pwin (s : State) (v : Pair) : (s.withPair v).pwin = s.pwin := rfl
@[simp] theorem State.withPair_map (s : State) (v : Pair) : (s.withPair v).map = s.map := rfl
@[simp] theorem State.withPair_sched (s : State) (v : Pair) : (s.withPair v).sched = s.sched := rfl
@[simp] theorem State.withPair_freeCount (s : State) (v : Pair) : (s.withPair v).freeCount = s.freeCount := rfl
@[simp] theorem State.withPair_out (s : State) (v : Pair) : (s.withPair v).out = s.out := rfl
@[simp] theorem State.withPair_pending (s : State) (v : Pair) : (s.withPair v).pending = s.pending := rfl

@[simp] theorem State.withChn_gcs (s : State) (v : Chn) : (s.withChn v).gcs = s.gcs := rfl
@[simp] theorem State.withChn_regs (s : State) (v : Chn) : (s.withChn v).regs = s.regs := rfl
@[simp] theorem State.withChn_flt (s : State) (v : Chn) : (s.withChn v).flt = s.flt := rfl
@[simp] theorem State.withChn_ctxs (s : State) (v : Chn) : (s.withChn v).ctxs = s.ctxs := rfl
@[simp] theorem State.withChn_sets (s : State) (v : Chn) : (s.withChn v).sets = s.sets := rfl
@[simp] theorem State.withChn_incarnations (s : State) (v : Chn) : (s.withChn v).incarnations = s.incarnations := rfl
@[simp] theorem State.withChn_profiles (s : State) (v : Chn) : (s.withChn v).profiles = s.profiles := rfl
@[simp] theorem State.withChn_cht (s : State) (v : Chn) : (s.withChn v).cht = s.cht := rfl
@[simp] theorem State.withChn_log (s : State) (v : Chn) : (s.withChn v).log = s.log := rfl
@[simp] theorem State.withChn_wch (s : State) (v : Chn) : (s.withChn v).wch = s.wch := rfl
@[simp] theorem State.withChn_rings (s : State) (v : Chn) : (s.withChn v).rings = s.rings := rfl
@[simp] theorem State.withChn_privLock (s : State) (v : Chn) : (s.withChn v).privLock = s.privLock := rfl
@[simp] theorem State.withChn_ios (s : State) (v : Chn) : (s.withChn v).ios = s.ios := rfl
@[simp] theorem State.withChn_nextId (s : State) (v : Chn) : (s.withChn v).nextId = s.nextId := rfl
@[simp] theorem State.withChn_dcmds (s : State) (v : Chn) : (s.withChn v).dcmds = s.dcmds := rfl
@[simp] theorem State.withChn_ports (s : State) (v : Chn) : (s.withChn v).ports = s.ports := rfl
@[simp] theorem State.withChn_portGroups (s : State) (v : Chn) : (s.withChn v).portGroups = s.portGroups := rfl
@[simp] theorem State.withChn_rowOps (s : State) (v : Chn) : (s.withChn v).rowOps = s.rowOps := rfl
@[simp] theorem State.withChn_commits (s : State) (v : Chn) : (s.withChn v).commits = s.commits := rfl
@[simp] theorem State.withChn_passes (s : State) (v : Chn) : (s.withChn v).passes = s.passes := rfl
@[simp] theorem State.withChn_arbitrating (s : State) (v : Chn) : (s.withChn v).arbitrating = s.arbitrating := rfl
@[simp] theorem State.withChn_clusters (s : State) (v : Chn) : (s.withChn v).clusters = s.clusters := rfl
@[simp] theorem State.withChn_scc (s : State) (v : Chn) : (s.withChn v).scc = s.scc := rfl
@[simp] theorem State.withChn_dmv (s : State) (v : Chn) : (s.withChn v).dmv = s.dmv := rfl
@[simp] theorem State.withChn_interp (s : State) (v : Chn) : (s.withChn v).interp = s.interp := rfl
@[simp] theorem State.withChn_sec (s : State) (v : Chn) : (s.withChn v).sec = s.sec := rfl
@[simp] theorem State.withChn_mon (s : State) (v : Chn) : (s.withChn v).mon = s.mon := rfl
@[simp] theorem State.withChn_pair (s : State) (v : Chn) : (s.withChn v).pair = s.pair := rfl
@[simp] theorem State.withChn_chn (s : State) (v : Chn) : (s.withChn v).chn = v := rfl
@[simp] theorem State.withChn_hpus (s : State) (v : Chn) : (s.withChn v).hpus = s.hpus := rfl
@[simp] theorem State.withChn_pwin (s : State) (v : Chn) : (s.withChn v).pwin = s.pwin := rfl
@[simp] theorem State.withChn_map (s : State) (v : Chn) : (s.withChn v).map = s.map := rfl
@[simp] theorem State.withChn_sched (s : State) (v : Chn) : (s.withChn v).sched = s.sched := rfl
@[simp] theorem State.withChn_freeCount (s : State) (v : Chn) : (s.withChn v).freeCount = s.freeCount := rfl
@[simp] theorem State.withChn_out (s : State) (v : Chn) : (s.withChn v).out = s.out := rfl
@[simp] theorem State.withChn_pending (s : State) (v : Chn) : (s.withChn v).pending = s.pending := rfl

@[simp] theorem State.withHpus_gcs (s : State) (v : Tab Hpu) : (s.withHpus v).gcs = s.gcs := rfl
@[simp] theorem State.withHpus_regs (s : State) (v : Tab Hpu) : (s.withHpus v).regs = s.regs := rfl
@[simp] theorem State.withHpus_flt (s : State) (v : Tab Hpu) : (s.withHpus v).flt = s.flt := rfl
@[simp] theorem State.withHpus_ctxs (s : State) (v : Tab Hpu) : (s.withHpus v).ctxs = s.ctxs := rfl
@[simp] theorem State.withHpus_sets (s : State) (v : Tab Hpu) : (s.withHpus v).sets = s.sets := rfl
@[simp] theorem State.withHpus_incarnations (s : State) (v : Tab Hpu) : (s.withHpus v).incarnations = s.incarnations := rfl
@[simp] theorem State.withHpus_profiles (s : State) (v : Tab Hpu) : (s.withHpus v).profiles = s.profiles := rfl
@[simp] theorem State.withHpus_cht (s : State) (v : Tab Hpu) : (s.withHpus v).cht = s.cht := rfl
@[simp] theorem State.withHpus_log (s : State) (v : Tab Hpu) : (s.withHpus v).log = s.log := rfl
@[simp] theorem State.withHpus_wch (s : State) (v : Tab Hpu) : (s.withHpus v).wch = s.wch := rfl
@[simp] theorem State.withHpus_rings (s : State) (v : Tab Hpu) : (s.withHpus v).rings = s.rings := rfl
@[simp] theorem State.withHpus_privLock (s : State) (v : Tab Hpu) : (s.withHpus v).privLock = s.privLock := rfl
@[simp] theorem State.withHpus_ios (s : State) (v : Tab Hpu) : (s.withHpus v).ios = s.ios := rfl
@[simp] theorem State.withHpus_nextId (s : State) (v : Tab Hpu) : (s.withHpus v).nextId = s.nextId := rfl
@[simp] theorem State.withHpus_dcmds (s : State) (v : Tab Hpu) : (s.withHpus v).dcmds = s.dcmds := rfl
@[simp] theorem State.withHpus_ports (s : State) (v : Tab Hpu) : (s.withHpus v).ports = s.ports := rfl
@[simp] theorem State.withHpus_portGroups (s : State) (v : Tab Hpu) : (s.withHpus v).portGroups = s.portGroups := rfl
@[simp] theorem State.withHpus_rowOps (s : State) (v : Tab Hpu) : (s.withHpus v).rowOps = s.rowOps := rfl
@[simp] theorem State.withHpus_commits (s : State) (v : Tab Hpu) : (s.withHpus v).commits = s.commits := rfl
@[simp] theorem State.withHpus_passes (s : State) (v : Tab Hpu) : (s.withHpus v).passes = s.passes := rfl
@[simp] theorem State.withHpus_arbitrating (s : State) (v : Tab Hpu) : (s.withHpus v).arbitrating = s.arbitrating := rfl
@[simp] theorem State.withHpus_clusters (s : State) (v : Tab Hpu) : (s.withHpus v).clusters = s.clusters := rfl
@[simp] theorem State.withHpus_scc (s : State) (v : Tab Hpu) : (s.withHpus v).scc = s.scc := rfl
@[simp] theorem State.withHpus_dmv (s : State) (v : Tab Hpu) : (s.withHpus v).dmv = s.dmv := rfl
@[simp] theorem State.withHpus_interp (s : State) (v : Tab Hpu) : (s.withHpus v).interp = s.interp := rfl
@[simp] theorem State.withHpus_sec (s : State) (v : Tab Hpu) : (s.withHpus v).sec = s.sec := rfl
@[simp] theorem State.withHpus_mon (s : State) (v : Tab Hpu) : (s.withHpus v).mon = s.mon := rfl
@[simp] theorem State.withHpus_pair (s : State) (v : Tab Hpu) : (s.withHpus v).pair = s.pair := rfl
@[simp] theorem State.withHpus_chn (s : State) (v : Tab Hpu) : (s.withHpus v).chn = s.chn := rfl
@[simp] theorem State.withHpus_hpus (s : State) (v : Tab Hpu) : (s.withHpus v).hpus = v := rfl
@[simp] theorem State.withHpus_pwin (s : State) (v : Tab Hpu) : (s.withHpus v).pwin = s.pwin := rfl
@[simp] theorem State.withHpus_map (s : State) (v : Tab Hpu) : (s.withHpus v).map = s.map := rfl
@[simp] theorem State.withHpus_sched (s : State) (v : Tab Hpu) : (s.withHpus v).sched = s.sched := rfl
@[simp] theorem State.withHpus_freeCount (s : State) (v : Tab Hpu) : (s.withHpus v).freeCount = s.freeCount := rfl
@[simp] theorem State.withHpus_out (s : State) (v : Tab Hpu) : (s.withHpus v).out = s.out := rfl
@[simp] theorem State.withHpus_pending (s : State) (v : Tab Hpu) : (s.withHpus v).pending = s.pending := rfl

@[simp] theorem State.withPwin_gcs (s : State) (v : Pwin) : (s.withPwin v).gcs = s.gcs := rfl
@[simp] theorem State.withPwin_regs (s : State) (v : Pwin) : (s.withPwin v).regs = s.regs := rfl
@[simp] theorem State.withPwin_flt (s : State) (v : Pwin) : (s.withPwin v).flt = s.flt := rfl
@[simp] theorem State.withPwin_ctxs (s : State) (v : Pwin) : (s.withPwin v).ctxs = s.ctxs := rfl
@[simp] theorem State.withPwin_sets (s : State) (v : Pwin) : (s.withPwin v).sets = s.sets := rfl
@[simp] theorem State.withPwin_incarnations (s : State) (v : Pwin) : (s.withPwin v).incarnations = s.incarnations := rfl
@[simp] theorem State.withPwin_profiles (s : State) (v : Pwin) : (s.withPwin v).profiles = s.profiles := rfl
@[simp] theorem State.withPwin_cht (s : State) (v : Pwin) : (s.withPwin v).cht = s.cht := rfl
@[simp] theorem State.withPwin_log (s : State) (v : Pwin) : (s.withPwin v).log = s.log := rfl
@[simp] theorem State.withPwin_wch (s : State) (v : Pwin) : (s.withPwin v).wch = s.wch := rfl
@[simp] theorem State.withPwin_rings (s : State) (v : Pwin) : (s.withPwin v).rings = s.rings := rfl
@[simp] theorem State.withPwin_privLock (s : State) (v : Pwin) : (s.withPwin v).privLock = s.privLock := rfl
@[simp] theorem State.withPwin_ios (s : State) (v : Pwin) : (s.withPwin v).ios = s.ios := rfl
@[simp] theorem State.withPwin_nextId (s : State) (v : Pwin) : (s.withPwin v).nextId = s.nextId := rfl
@[simp] theorem State.withPwin_dcmds (s : State) (v : Pwin) : (s.withPwin v).dcmds = s.dcmds := rfl
@[simp] theorem State.withPwin_ports (s : State) (v : Pwin) : (s.withPwin v).ports = s.ports := rfl
@[simp] theorem State.withPwin_portGroups (s : State) (v : Pwin) : (s.withPwin v).portGroups = s.portGroups := rfl
@[simp] theorem State.withPwin_rowOps (s : State) (v : Pwin) : (s.withPwin v).rowOps = s.rowOps := rfl
@[simp] theorem State.withPwin_commits (s : State) (v : Pwin) : (s.withPwin v).commits = s.commits := rfl
@[simp] theorem State.withPwin_passes (s : State) (v : Pwin) : (s.withPwin v).passes = s.passes := rfl
@[simp] theorem State.withPwin_arbitrating (s : State) (v : Pwin) : (s.withPwin v).arbitrating = s.arbitrating := rfl
@[simp] theorem State.withPwin_clusters (s : State) (v : Pwin) : (s.withPwin v).clusters = s.clusters := rfl
@[simp] theorem State.withPwin_scc (s : State) (v : Pwin) : (s.withPwin v).scc = s.scc := rfl
@[simp] theorem State.withPwin_dmv (s : State) (v : Pwin) : (s.withPwin v).dmv = s.dmv := rfl
@[simp] theorem State.withPwin_interp (s : State) (v : Pwin) : (s.withPwin v).interp = s.interp := rfl
@[simp] theorem State.withPwin_sec (s : State) (v : Pwin) : (s.withPwin v).sec = s.sec := rfl
@[simp] theorem State.withPwin_mon (s : State) (v : Pwin) : (s.withPwin v).mon = s.mon := rfl
@[simp] theorem State.withPwin_pair (s : State) (v : Pwin) : (s.withPwin v).pair = s.pair := rfl
@[simp] theorem State.withPwin_chn (s : State) (v : Pwin) : (s.withPwin v).chn = s.chn := rfl
@[simp] theorem State.withPwin_hpus (s : State) (v : Pwin) : (s.withPwin v).hpus = s.hpus := rfl
@[simp] theorem State.withPwin_pwin (s : State) (v : Pwin) : (s.withPwin v).pwin = v := rfl
@[simp] theorem State.withPwin_map (s : State) (v : Pwin) : (s.withPwin v).map = s.map := rfl
@[simp] theorem State.withPwin_sched (s : State) (v : Pwin) : (s.withPwin v).sched = s.sched := rfl
@[simp] theorem State.withPwin_freeCount (s : State) (v : Pwin) : (s.withPwin v).freeCount = s.freeCount := rfl
@[simp] theorem State.withPwin_out (s : State) (v : Pwin) : (s.withPwin v).out = s.out := rfl
@[simp] theorem State.withPwin_pending (s : State) (v : Pwin) : (s.withPwin v).pending = s.pending := rfl

@[simp] theorem State.withMap_gcs (s : State) (v : MapStore) : (s.withMap v).gcs = s.gcs := rfl
@[simp] theorem State.withMap_regs (s : State) (v : MapStore) : (s.withMap v).regs = s.regs := rfl
@[simp] theorem State.withMap_flt (s : State) (v : MapStore) : (s.withMap v).flt = s.flt := rfl
@[simp] theorem State.withMap_ctxs (s : State) (v : MapStore) : (s.withMap v).ctxs = s.ctxs := rfl
@[simp] theorem State.withMap_sets (s : State) (v : MapStore) : (s.withMap v).sets = s.sets := rfl
@[simp] theorem State.withMap_incarnations (s : State) (v : MapStore) : (s.withMap v).incarnations = s.incarnations := rfl
@[simp] theorem State.withMap_profiles (s : State) (v : MapStore) : (s.withMap v).profiles = s.profiles := rfl
@[simp] theorem State.withMap_cht (s : State) (v : MapStore) : (s.withMap v).cht = s.cht := rfl
@[simp] theorem State.withMap_log (s : State) (v : MapStore) : (s.withMap v).log = s.log := rfl
@[simp] theorem State.withMap_wch (s : State) (v : MapStore) : (s.withMap v).wch = s.wch := rfl
@[simp] theorem State.withMap_rings (s : State) (v : MapStore) : (s.withMap v).rings = s.rings := rfl
@[simp] theorem State.withMap_privLock (s : State) (v : MapStore) : (s.withMap v).privLock = s.privLock := rfl
@[simp] theorem State.withMap_ios (s : State) (v : MapStore) : (s.withMap v).ios = s.ios := rfl
@[simp] theorem State.withMap_nextId (s : State) (v : MapStore) : (s.withMap v).nextId = s.nextId := rfl
@[simp] theorem State.withMap_dcmds (s : State) (v : MapStore) : (s.withMap v).dcmds = s.dcmds := rfl
@[simp] theorem State.withMap_ports (s : State) (v : MapStore) : (s.withMap v).ports = s.ports := rfl
@[simp] theorem State.withMap_portGroups (s : State) (v : MapStore) : (s.withMap v).portGroups = s.portGroups := rfl
@[simp] theorem State.withMap_rowOps (s : State) (v : MapStore) : (s.withMap v).rowOps = s.rowOps := rfl
@[simp] theorem State.withMap_commits (s : State) (v : MapStore) : (s.withMap v).commits = s.commits := rfl
@[simp] theorem State.withMap_passes (s : State) (v : MapStore) : (s.withMap v).passes = s.passes := rfl
@[simp] theorem State.withMap_arbitrating (s : State) (v : MapStore) : (s.withMap v).arbitrating = s.arbitrating := rfl
@[simp] theorem State.withMap_clusters (s : State) (v : MapStore) : (s.withMap v).clusters = s.clusters := rfl
@[simp] theorem State.withMap_scc (s : State) (v : MapStore) : (s.withMap v).scc = s.scc := rfl
@[simp] theorem State.withMap_dmv (s : State) (v : MapStore) : (s.withMap v).dmv = s.dmv := rfl
@[simp] theorem State.withMap_interp (s : State) (v : MapStore) : (s.withMap v).interp = s.interp := rfl
@[simp] theorem State.withMap_sec (s : State) (v : MapStore) : (s.withMap v).sec = s.sec := rfl
@[simp] theorem State.withMap_mon (s : State) (v : MapStore) : (s.withMap v).mon = s.mon := rfl
@[simp] theorem State.withMap_pair (s : State) (v : MapStore) : (s.withMap v).pair = s.pair := rfl
@[simp] theorem State.withMap_chn (s : State) (v : MapStore) : (s.withMap v).chn = s.chn := rfl
@[simp] theorem State.withMap_hpus (s : State) (v : MapStore) : (s.withMap v).hpus = s.hpus := rfl
@[simp] theorem State.withMap_pwin (s : State) (v : MapStore) : (s.withMap v).pwin = s.pwin := rfl
@[simp] theorem State.withMap_map (s : State) (v : MapStore) : (s.withMap v).map = v := rfl
@[simp] theorem State.withMap_sched (s : State) (v : MapStore) : (s.withMap v).sched = s.sched := rfl
@[simp] theorem State.withMap_freeCount (s : State) (v : MapStore) : (s.withMap v).freeCount = s.freeCount := rfl
@[simp] theorem State.withMap_out (s : State) (v : MapStore) : (s.withMap v).out = s.out := rfl
@[simp] theorem State.withMap_pending (s : State) (v : MapStore) : (s.withMap v).pending = s.pending := rfl

@[simp] theorem State.withSched_gcs (s : State) (v : Sched) : (s.withSched v).gcs = s.gcs := rfl
@[simp] theorem State.withSched_regs (s : State) (v : Sched) : (s.withSched v).regs = s.regs := rfl
@[simp] theorem State.withSched_flt (s : State) (v : Sched) : (s.withSched v).flt = s.flt := rfl
@[simp] theorem State.withSched_ctxs (s : State) (v : Sched) : (s.withSched v).ctxs = s.ctxs := rfl
@[simp] theorem State.withSched_sets (s : State) (v : Sched) : (s.withSched v).sets = s.sets := rfl
@[simp] theorem State.withSched_incarnations (s : State) (v : Sched) : (s.withSched v).incarnations = s.incarnations := rfl
@[simp] theorem State.withSched_profiles (s : State) (v : Sched) : (s.withSched v).profiles = s.profiles := rfl
@[simp] theorem State.withSched_cht (s : State) (v : Sched) : (s.withSched v).cht = s.cht := rfl
@[simp] theorem State.withSched_log (s : State) (v : Sched) : (s.withSched v).log = s.log := rfl
@[simp] theorem State.withSched_wch (s : State) (v : Sched) : (s.withSched v).wch = s.wch := rfl
@[simp] theorem State.withSched_rings (s : State) (v : Sched) : (s.withSched v).rings = s.rings := rfl
@[simp] theorem State.withSched_privLock (s : State) (v : Sched) : (s.withSched v).privLock = s.privLock := rfl
@[simp] theorem State.withSched_ios (s : State) (v : Sched) : (s.withSched v).ios = s.ios := rfl
@[simp] theorem State.withSched_nextId (s : State) (v : Sched) : (s.withSched v).nextId = s.nextId := rfl
@[simp] theorem State.withSched_dcmds (s : State) (v : Sched) : (s.withSched v).dcmds = s.dcmds := rfl
@[simp] theorem State.withSched_ports (s : State) (v : Sched) : (s.withSched v).ports = s.ports := rfl
@[simp] theorem State.withSched_portGroups (s : State) (v : Sched) : (s.withSched v).portGroups = s.portGroups := rfl
@[simp] theorem State.withSched_rowOps (s : State) (v : Sched) : (s.withSched v).rowOps = s.rowOps := rfl
@[simp] theorem State.withSched_commits (s : State) (v : Sched) : (s.withSched v).commits = s.commits := rfl
@[simp] theorem State.withSched_passes (s : State) (v : Sched) : (s.withSched v).passes = s.passes := rfl
@[simp] theorem State.withSched_arbitrating (s : State) (v : Sched) : (s.withSched v).arbitrating = s.arbitrating := rfl
@[simp] theorem State.withSched_clusters (s : State) (v : Sched) : (s.withSched v).clusters = s.clusters := rfl
@[simp] theorem State.withSched_scc (s : State) (v : Sched) : (s.withSched v).scc = s.scc := rfl
@[simp] theorem State.withSched_dmv (s : State) (v : Sched) : (s.withSched v).dmv = s.dmv := rfl
@[simp] theorem State.withSched_interp (s : State) (v : Sched) : (s.withSched v).interp = s.interp := rfl
@[simp] theorem State.withSched_sec (s : State) (v : Sched) : (s.withSched v).sec = s.sec := rfl
@[simp] theorem State.withSched_mon (s : State) (v : Sched) : (s.withSched v).mon = s.mon := rfl
@[simp] theorem State.withSched_pair (s : State) (v : Sched) : (s.withSched v).pair = s.pair := rfl
@[simp] theorem State.withSched_chn (s : State) (v : Sched) : (s.withSched v).chn = s.chn := rfl
@[simp] theorem State.withSched_hpus (s : State) (v : Sched) : (s.withSched v).hpus = s.hpus := rfl
@[simp] theorem State.withSched_pwin (s : State) (v : Sched) : (s.withSched v).pwin = s.pwin := rfl
@[simp] theorem State.withSched_map (s : State) (v : Sched) : (s.withSched v).map = s.map := rfl
@[simp] theorem State.withSched_sched (s : State) (v : Sched) : (s.withSched v).sched = v := rfl
@[simp] theorem State.withSched_freeCount (s : State) (v : Sched) : (s.withSched v).freeCount = s.freeCount := rfl
@[simp] theorem State.withSched_out (s : State) (v : Sched) : (s.withSched v).out = s.out := rfl
@[simp] theorem State.withSched_pending (s : State) (v : Sched) : (s.withSched v).pending = s.pending := rfl

@[simp] theorem State.withFreeCount_gcs (s : State) (v : Nat) : (s.withFreeCount v).gcs = s.gcs := rfl
@[simp] theorem State.withFreeCount_regs (s : State) (v : Nat) : (s.withFreeCount v).regs = s.regs := rfl
@[simp] theorem State.withFreeCount_flt (s : State) (v : Nat) : (s.withFreeCount v).flt = s.flt := rfl
@[simp] theorem State.withFreeCount_ctxs (s : State) (v : Nat) : (s.withFreeCount v).ctxs = s.ctxs := rfl
@[simp] theorem State.withFreeCount_sets (s : State) (v : Nat) : (s.withFreeCount v).sets = s.sets := rfl
@[simp] theorem State.withFreeCount_incarnations (s : State) (v : Nat) : (s.withFreeCount v).incarnations = s.incarnations := rfl
@[simp] theorem State.withFreeCount_profiles (s : State) (v : Nat) : (s.withFreeCount v).profiles = s.profiles := rfl
@[simp] theorem State.withFreeCount_cht (s : State) (v : Nat) : (s.withFreeCount v).cht = s.cht := rfl
@[simp] theorem State.withFreeCount_log (s : State) (v : Nat) : (s.withFreeCount v).log = s.log := rfl
@[simp] theorem State.withFreeCount_wch (s : State) (v : Nat) : (s.withFreeCount v).wch = s.wch := rfl
@[simp] theorem State.withFreeCount_rings (s : State) (v : Nat) : (s.withFreeCount v).rings = s.rings := rfl
@[simp] theorem State.withFreeCount_privLock (s : State) (v : Nat) : (s.withFreeCount v).privLock = s.privLock := rfl
@[simp] theorem State.withFreeCount_ios (s : State) (v : Nat) : (s.withFreeCount v).ios = s.ios := rfl
@[simp] theorem State.withFreeCount_nextId (s : State) (v : Nat) : (s.withFreeCount v).nextId = s.nextId := rfl
@[simp] theorem State.withFreeCount_dcmds (s : State) (v : Nat) : (s.withFreeCount v).dcmds = s.dcmds := rfl
@[simp] theorem State.withFreeCount_ports (s : State) (v : Nat) : (s.withFreeCount v).ports = s.ports := rfl
@[simp] theorem State.withFreeCount_portGroups (s : State) (v : Nat) : (s.withFreeCount v).portGroups = s.portGroups := rfl
@[simp] theorem State.withFreeCount_rowOps (s : State) (v : Nat) : (s.withFreeCount v).rowOps = s.rowOps := rfl
@[simp] theorem State.withFreeCount_commits (s : State) (v : Nat) : (s.withFreeCount v).commits = s.commits := rfl
@[simp] theorem State.withFreeCount_passes (s : State) (v : Nat) : (s.withFreeCount v).passes = s.passes := rfl
@[simp] theorem State.withFreeCount_arbitrating (s : State) (v : Nat) : (s.withFreeCount v).arbitrating = s.arbitrating := rfl
@[simp] theorem State.withFreeCount_clusters (s : State) (v : Nat) : (s.withFreeCount v).clusters = s.clusters := rfl
@[simp] theorem State.withFreeCount_scc (s : State) (v : Nat) : (s.withFreeCount v).scc = s.scc := rfl
@[simp] theorem State.withFreeCount_dmv (s : State) (v : Nat) : (s.withFreeCount v).dmv = s.dmv := rfl
@[simp] theorem State.withFreeCount_interp (s : State) (v : Nat) : (s.withFreeCount v).interp = s.interp := rfl
@[simp] theorem State.withFreeCount_sec (s : State) (v : Nat) : (s.withFreeCount v).sec = s.sec := rfl
@[simp] theorem State.withFreeCount_mon (s : State) (v : Nat) : (s.withFreeCount v).mon = s.mon := rfl
@[simp] theorem State.withFreeCount_pair (s : State) (v : Nat) : (s.withFreeCount v).pair = s.pair := rfl
@[simp] theorem State.withFreeCount_chn (s : State) (v : Nat) : (s.withFreeCount v).chn = s.chn := rfl
@[simp] theorem State.withFreeCount_hpus (s : State) (v : Nat) : (s.withFreeCount v).hpus = s.hpus := rfl
@[simp] theorem State.withFreeCount_pwin (s : State) (v : Nat) : (s.withFreeCount v).pwin = s.pwin := rfl
@[simp] theorem State.withFreeCount_map (s : State) (v : Nat) : (s.withFreeCount v).map = s.map := rfl
@[simp] theorem State.withFreeCount_sched (s : State) (v : Nat) : (s.withFreeCount v).sched = s.sched := rfl
@[simp] theorem State.withFreeCount_freeCount (s : State) (v : Nat) : (s.withFreeCount v).freeCount = v := rfl
@[simp] theorem State.withFreeCount_out (s : State) (v : Nat) : (s.withFreeCount v).out = s.out := rfl
@[simp] theorem State.withFreeCount_pending (s : State) (v : Nat) : (s.withFreeCount v).pending = s.pending := rfl

@[simp] theorem State.withOut_gcs (s : State) (v : List Out) : (s.withOut v).gcs = s.gcs := rfl
@[simp] theorem State.withOut_regs (s : State) (v : List Out) : (s.withOut v).regs = s.regs := rfl
@[simp] theorem State.withOut_flt (s : State) (v : List Out) : (s.withOut v).flt = s.flt := rfl
@[simp] theorem State.withOut_ctxs (s : State) (v : List Out) : (s.withOut v).ctxs = s.ctxs := rfl
@[simp] theorem State.withOut_sets (s : State) (v : List Out) : (s.withOut v).sets = s.sets := rfl
@[simp] theorem State.withOut_incarnations (s : State) (v : List Out) : (s.withOut v).incarnations = s.incarnations := rfl
@[simp] theorem State.withOut_profiles (s : State) (v : List Out) : (s.withOut v).profiles = s.profiles := rfl
@[simp] theorem State.withOut_cht (s : State) (v : List Out) : (s.withOut v).cht = s.cht := rfl
@[simp] theorem State.withOut_log (s : State) (v : List Out) : (s.withOut v).log = s.log := rfl
@[simp] theorem State.withOut_wch (s : State) (v : List Out) : (s.withOut v).wch = s.wch := rfl
@[simp] theorem State.withOut_rings (s : State) (v : List Out) : (s.withOut v).rings = s.rings := rfl
@[simp] theorem State.withOut_privLock (s : State) (v : List Out) : (s.withOut v).privLock = s.privLock := rfl
@[simp] theorem State.withOut_ios (s : State) (v : List Out) : (s.withOut v).ios = s.ios := rfl
@[simp] theorem State.withOut_nextId (s : State) (v : List Out) : (s.withOut v).nextId = s.nextId := rfl
@[simp] theorem State.withOut_dcmds (s : State) (v : List Out) : (s.withOut v).dcmds = s.dcmds := rfl
@[simp] theorem State.withOut_ports (s : State) (v : List Out) : (s.withOut v).ports = s.ports := rfl
@[simp] theorem State.withOut_portGroups (s : State) (v : List Out) : (s.withOut v).portGroups = s.portGroups := rfl
@[simp] theorem State.withOut_rowOps (s : State) (v : List Out) : (s.withOut v).rowOps = s.rowOps := rfl
@[simp] theorem State.withOut_commits (s : State) (v : List Out) : (s.withOut v).commits = s.commits := rfl
@[simp] theorem State.withOut_passes (s : State) (v : List Out) : (s.withOut v).passes = s.passes := rfl
@[simp] theorem State.withOut_arbitrating (s : State) (v : List Out) : (s.withOut v).arbitrating = s.arbitrating := rfl
@[simp] theorem State.withOut_clusters (s : State) (v : List Out) : (s.withOut v).clusters = s.clusters := rfl
@[simp] theorem State.withOut_scc (s : State) (v : List Out) : (s.withOut v).scc = s.scc := rfl
@[simp] theorem State.withOut_dmv (s : State) (v : List Out) : (s.withOut v).dmv = s.dmv := rfl
@[simp] theorem State.withOut_interp (s : State) (v : List Out) : (s.withOut v).interp = s.interp := rfl
@[simp] theorem State.withOut_sec (s : State) (v : List Out) : (s.withOut v).sec = s.sec := rfl
@[simp] theorem State.withOut_mon (s : State) (v : List Out) : (s.withOut v).mon = s.mon := rfl
@[simp] theorem State.withOut_pair (s : State) (v : List Out) : (s.withOut v).pair = s.pair := rfl
@[simp] theorem State.withOut_chn (s : State) (v : List Out) : (s.withOut v).chn = s.chn := rfl
@[simp] theorem State.withOut_hpus (s : State) (v : List Out) : (s.withOut v).hpus = s.hpus := rfl
@[simp] theorem State.withOut_pwin (s : State) (v : List Out) : (s.withOut v).pwin = s.pwin := rfl
@[simp] theorem State.withOut_map (s : State) (v : List Out) : (s.withOut v).map = s.map := rfl
@[simp] theorem State.withOut_sched (s : State) (v : List Out) : (s.withOut v).sched = s.sched := rfl
@[simp] theorem State.withOut_freeCount (s : State) (v : List Out) : (s.withOut v).freeCount = s.freeCount := rfl
@[simp] theorem State.withOut_out (s : State) (v : List Out) : (s.withOut v).out = v := rfl
@[simp] theorem State.withOut_pending (s : State) (v : List Out) : (s.withOut v).pending = s.pending := rfl

@[simp] theorem State.withPending_gcs (s : State) (v : List Instr) : (s.withPending v).gcs = s.gcs := rfl
@[simp] theorem State.withPending_regs (s : State) (v : List Instr) : (s.withPending v).regs = s.regs := rfl
@[simp] theorem State.withPending_flt (s : State) (v : List Instr) : (s.withPending v).flt = s.flt := rfl
@[simp] theorem State.withPending_ctxs (s : State) (v : List Instr) : (s.withPending v).ctxs = s.ctxs := rfl
@[simp] theorem State.withPending_sets (s : State) (v : List Instr) : (s.withPending v).sets = s.sets := rfl
@[simp] theorem State.withPending_incarnations (s : State) (v : List Instr) : (s.withPending v).incarnations = s.incarnations := rfl
@[simp] theorem State.withPending_profiles (s : State) (v : List Instr) : (s.withPending v).profiles = s.profiles := rfl
@[simp] theorem State.withPending_cht (s : State) (v : List Instr) : (s.withPending v).cht = s.cht := rfl
@[simp] theorem State.withPending_log (s : State) (v : List Instr) : (s.withPending v).log = s.log := rfl
@[simp] theorem State.withPending_wch (s : State) (v : List Instr) : (s.withPending v).wch = s.wch := rfl
@[simp] theorem State.withPending_rings (s : State) (v : List Instr) : (s.withPending v).rings = s.rings := rfl
@[simp] theorem State.withPending_privLock (s : State) (v : List Instr) : (s.withPending v).privLock = s.privLock := rfl
@[simp] theorem State.withPending_ios (s : State) (v : List Instr) : (s.withPending v).ios = s.ios := rfl
@[simp] theorem State.withPending_nextId (s : State) (v : List Instr) : (s.withPending v).nextId = s.nextId := rfl
@[simp] theorem State.withPending_dcmds (s : State) (v : List Instr) : (s.withPending v).dcmds = s.dcmds := rfl
@[simp] theorem State.withPending_ports (s : State) (v : List Instr) : (s.withPending v).ports = s.ports := rfl
@[simp] theorem State.withPending_portGroups (s : State) (v : List Instr) : (s.withPending v).portGroups = s.portGroups := rfl
@[simp] theorem State.withPending_rowOps (s : State) (v : List Instr) : (s.withPending v).rowOps = s.rowOps := rfl
@[simp] theorem State.withPending_commits (s : State) (v : List Instr) : (s.withPending v).commits = s.commits := rfl
@[simp] theorem State.withPending_passes (s : State) (v : List Instr) : (s.withPending v).passes = s.passes := rfl
@[simp] theorem State.withPending_arbitrating (s : State) (v : List Instr) : (s.withPending v).arbitrating = s.arbitrating := rfl
@[simp] theorem State.withPending_clusters (s : State) (v : List Instr) : (s.withPending v).clusters = s.clusters := rfl
@[simp] theorem State.withPending_scc (s : State) (v : List Instr) : (s.withPending v).scc = s.scc := rfl
@[simp] theorem State.withPending_dmv (s : State) (v : List Instr) : (s.withPending v).dmv = s.dmv := rfl
@[simp] theorem State.withPending_interp (s : State) (v : List Instr) : (s.withPending v).interp = s.interp := rfl
@[simp] theorem State.withPending_sec (s : State) (v : List Instr) : (s.withPending v).sec = s.sec := rfl
@[simp] theorem State.withPending_mon (s : State) (v : List Instr) : (s.withPending v).mon = s.mon := rfl
@[simp] theorem State.withPending_pair (s : State) (v : List Instr) : (s.withPending v).pair = s.pair := rfl
@[simp] theorem State.withPending_chn (s : State) (v : List Instr) : (s.withPending v).chn = s.chn := rfl
@[simp] theorem State.withPending_hpus (s : State) (v : List Instr) : (s.withPending v).hpus = s.hpus := rfl
@[simp] theorem State.withPending_pwin (s : State) (v : List Instr) : (s.withPending v).pwin = s.pwin := rfl
@[simp] theorem State.withPending_map (s : State) (v : List Instr) : (s.withPending v).map = s.map := rfl
@[simp] theorem State.withPending_sched (s : State) (v : List Instr) : (s.withPending v).sched = s.sched := rfl
@[simp] theorem State.withPending_freeCount (s : State) (v : List Instr) : (s.withPending v).freeCount = s.freeCount := rfl
@[simp] theorem State.withPending_out (s : State) (v : List Instr) : (s.withPending v).out = s.out := rfl
@[simp] theorem State.withPending_pending (s : State) (v : List Instr) : (s.withPending v).pending = v := rfl

/-! ## Indexed parts -/

@[simp] theorem Tab.get_nil {α : Type} (d : α) (k : Nat) : Tab.get ([] : Tab α) d k = d := rfl

@[simp] theorem Tab.get_set_self {α : Type} [DecidableEq α] (t : Tab α) (d : α) (k : Nat) (v : α) : (t.set d k v).get d k = v := by
  rw [Tab.get_set, if_pos rfl]

theorem Tab.get_set_other {α : Type} [DecidableEq α] (t : Tab α) (d e : α) {j k : Nat} (v : α) (h : j ≠ k) :
    (t.set d k v).get e j = t.get e j := by
  unfold Tab.set
  split
  · rw [Tab.get_remove, if_neg h]
  · rw [Tab.get_insert, if_neg h]

@[simp] theorem State.hpu_setHpu (s : State) (p : Bool) (v : Hpu) : (s.setHpu p v).hpu p = v := Tab.get_set_self _ _ _ _

@[simp] theorem State.hpu_modHpu (s : State) (p : Bool) (f : Hpu → Hpu) : (s.modHpu p f).hpu p = f (s.hpu p) := Tab.get_set_self _ _ _ _

@[simp] theorem State.hpu_modHpu_not (s : State) (p : Bool) (f : Hpu → Hpu) : (s.modHpu p f).hpu (!p) = s.hpu (!p) :=
  Tab.get_set_other _ _ _ _ (by cases p <;> decide)

@[simp] theorem State.hpu_setHpu_not (s : State) (p : Bool) (v : Hpu) : (s.setHpu p v).hpu (!p) = s.hpu (!p) :=
  Tab.get_set_other _ _ _ _ (by cases p <;> decide)

@[simp] theorem State.ring_setRing (s : State) (r : RingId) (v : Ring) : (s.setRing r v).ring r = v := Tab.get_set_self _ _ _ _

@[simp] theorem State.ring_modRing (s : State) (r : RingId) (f : Ring → Ring) : (s.modRing r f).ring r = f (s.ring r) :=
  Tab.get_set_self _ _ _ _

theorem ringKey_injective {a b : RingId} (h : ringKey a = ringKey b) : a = b := by
  rcases a with n | c | p <;> rcases b with m | d | q <;> simp only [ringKey] at h
  · rw [BitVec.eq_of_toNat_eq h]
  · have := n.isLt; omega
  · have := n.isLt; cases q <;> simp only [ofBool] at h <;> simp at h <;> omega
  · have := m.isLt; omega
  · rw [BitVec.eq_of_toNat_eq (Nat.add_left_cancel h)]
  · have := c.isLt; cases q <;> simp only [ofBool] at h <;> simp at h <;> omega
  · have := m.isLt; cases p <;> simp only [ofBool] at h <;> simp at h <;> omega
  · have := d.isLt; cases p <;> simp only [ofBool] at h <;> simp at h <;> omega
  · cases p <;> cases q <;> simp [ofBool] at h ⊢

theorem State.ring_setRing_other (s : State) {q r : RingId} (v : Ring) (h : q ≠ r) : (s.setRing r v).ring q = s.ring q :=
  Tab.get_set_other _ _ _ _ (fun e => h (ringKey_injective e))

@[simp] theorem State.set_setSet (s : State) (i : Nat) (v : ArraySet) : (s.setSet i v).set i = v := Tab.get_set_self _ _ _ _

@[simp] theorem State.set_modSet (s : State) (i : Nat) (f : ArraySet → ArraySet) : (s.modSet i f).set i = f (s.set i) :=
  Tab.get_set_self _ _ _ _

@[simp] theorem State.port_modPort (s : State) (p : Byte) (f : Port → Port) : (s.modPort p f).port p = f (s.port p) :=
  Tab.get_set_self _ _ _ _

@[simp] theorem State.group_modGroup (s : State) (g : Nat) (f : Group → Group) : (s.modGroup g f).group g = f (s.group g) :=
  Tab.get_set_self _ _ _ _

@[simp] theorem State.chan_setChan (s : State) (n : Nat) (v : Channel) : (s.setChan n v).chan n = v := Tab.get_set_self _ _ _ _

@[simp] theorem State.ctx_setCtx (s : State) (k : Nat) (v : SCtx) : (s.setCtx k v).ctx k = v := Tab.get_set_self _ _ _ _

@[simp] theorem State.reg_setReg (s : State) (o : Nat) (v : Word64) : (s.setReg o v).reg o = v := Tab.get_set_self _ _ _ _

theorem State.reg_setReg_other (s : State) {o q : Nat} (v : Word64) (h : q ≠ o) : (s.setReg o v).reg q = s.reg q := by
  unfold State.reg State.setReg
  simp only [State.withRegs_gcs, State.withRegs_regs]
  exact Tab.get_set_other _ _ _ _ h

theorem State.regN_setRegN (s : State) (o v : Nat) : (s.setRegN o v).regN o = v % 2 ^ 64 := by
  unfold State.regN State.setRegN
  rw [State.reg_setReg, BitVec.toNat_ofNat]

theorem State.regN_count32 (s : State) (o n : Nat) : (s.count32 o n).regN o = (s.regN o + n) % 2 ^ 32 := by
  unfold State.count32
  rw [State.regN_setRegN]
  omega

theorem State.regN_count64 (s : State) (o n : Nat) : (s.count64 o n).regN o = (s.regN o + n) % 2 ^ 64 := by
  unfold State.count64
  rw [State.regN_setRegN]
  omega

end Sys2Proof.Machine
end

