-- ==== Sys2Proof/Laws/Tab.lean ====
section
/-! SUPPORT. The laws of tables and memories (Sys2Proof/Machine/Tab.lean): every update keeps the canonical form, and a read after a
write gives what was written there and what stood elsewhere. -/

namespace Sys2Proof.Machine

/-! ## Keys stay rising -/

/-- A table whose keys rise above a bound has keys that rise. -/
theorem Tab.rising_none {α : Type} {b : Option Nat} {t : Tab α} (h : Tab.rising b t = true) : Tab.rising none t = true := by
  cases t with
  | nil => rfl
  | cons e r =>
    cases b with
    | none => exact h
    | some j => simp [Tab.rising] at h ⊢; exact h.2

/-- A lower bound does as well. -/
theorem Tab.rising_le {α : Type} {i j : Nat} {t : Tab α} (hij : i ≤ j) (h : Tab.rising (some j) t = true) :
    Tab.rising (some i) t = true := by
  cases t with
  | nil => rfl
  | cons e r =>
    simp [Tab.rising] at h ⊢
    exact ⟨Nat.lt_of_le_of_lt hij h.1, h.2⟩

/-- An entry inserted above the bound keeps the keys rising. -/
theorem Tab.insert_rising {α : Type} {t : Tab α} {k : Nat} (v : α) {b : Option Nat} (h : Tab.rising b t = true)
    (hb : ∀ j, b = some j → j < k) : Tab.rising b (Tab.insert t k v) = true := by
  induction t generalizing b with
  | nil =>
    cases b with
    | none => rfl
    | some j => simp [Tab.insert, Tab.rising, hb j rfl]
  | cons e r ih =>
    obtain ⟨j, w⟩ := e
    have hr : Tab.rising (some j) r = true := by
      cases b <;> simp [Tab.rising] at h
      · exact h
      · exact h.2
    unfold Tab.insert
    split
    · next hlt =>
      cases b with
      | none => simp [Tab.rising, hlt, hr]
      | some i => simp [Tab.rising, hlt, hr, hb i rfl]
    · split
      · next hne heq =>
        subst heq
        cases b with
        | none => simpa [Tab.rising] using hr
        | some i => simp [Tab.rising, hr, hb i rfl]
      · next h1 h2 =>
        have := ih hr (fun i hi => by cases hi; omega)
        cases b with
        | none => simpa [Tab.rising] using this
        | some i =>
          simp [Tab.rising] at h ⊢
          exact ⟨h.1, this⟩

/-- Removing a key keeps the keys rising. -/
theorem Tab.remove_rising {α : Type} {t : Tab α} {k : Nat} {b : Option Nat} (h : Tab.rising b t = true) :
    Tab.rising b (Tab.remove t k) = true := by
  induction t generalizing b with
  | nil => exact h
  | cons e r ih =>
    obtain ⟨j, w⟩ := e
    have hr : Tab.rising (some j) r = true := by
      cases b <;> simp [Tab.rising] at h
      · exact h
      · exact h.2
    unfold Tab.remove
    split
    · cases b with
      | none => exact ih (Tab.rising_none hr)
      | some i =>
        simp [Tab.rising] at h
        exact ih (Tab.rising_le (Nat.le_of_lt h.1) hr)
    · cases b with
      | none => simpa [Tab.rising] using ih hr
      | some i =>
        simp [Tab.rising] at h ⊢
        exact ⟨h.1, ih hr⟩

/-! ## No entry equals the default -/

/-- Every entry of a table after an insertion is the new one or an old one. -/
theorem Tab.mem_insert {α : Type} {t : Tab α} {k : Nat} {v : α} {e : Nat × α} (h : e ∈ Tab.insert t k v) : e = (k, v) ∨ e ∈ t := by
  induction t with
  | nil => simpa [Tab.insert] using h
  | cons x r ih =>
    obtain ⟨j, w⟩ := x
    unfold Tab.insert at h
    split at h
    · simpa using h
    · split at h
      · simp at h ⊢; tauto
      · simp at h ⊢
        rcases h with h | h
        · exact .inr (.inl h)
        · rcases ih h with h | h
          · exact .inl h
          · exact .inr (.inr h)

/-- Every entry of a table after a removal is an old one. -/
theorem Tab.mem_remove {α : Type} {t : Tab α} {k : Nat} {e : Nat × α} (h : e ∈ Tab.remove t k) : e ∈ t := by
  induction t with
  | nil => exact h
  | cons x r ih =>
    obtain ⟨j, w⟩ := x
    unfold Tab.remove at h
    split at h
    · exact List.mem_cons_of_mem _ (ih h)
    · simp at h ⊢
      rcases h with h | h
      · exact .inl h
      · exact .inr (ih h)

/-! ## The canonical form -/

/-- The empty table is canonical. -/
@[simp] theorem Tab.nil_wf {α : Type} [DecidableEq α] (d : α) : Tab.wf ([] : Tab α) d = true := rfl

/-- Setting a key keeps the canonical form. -/
theorem Tab.set_wf {α : Type} [DecidableEq α] {t : Tab α} {d : α} (k : Nat) (v : α) (h : Tab.wf t d = true) :
    Tab.wf (Tab.set t d k v) d = true := by
  unfold Tab.wf at h ⊢
  simp only [Bool.and_eq_true, List.all_eq_true, decide_eq_true_eq] at h ⊢
  unfold Tab.set
  split
  · exact ⟨Tab.remove_rising h.1, fun e he => h.2 e (Tab.mem_remove he)⟩
  · next hv =>
    refine ⟨Tab.insert_rising v h.1 (fun j hj => by cases hj), fun e he => ?_⟩
    rcases Tab.mem_insert he with rfl | he
    · exact hv
    · exact h.2 e he

/-- Changing a key keeps the canonical form. -/
theorem Tab.modify_wf {α : Type} [DecidableEq α] {t : Tab α} {d : α} (k : Nat) (f : α → α) (h : Tab.wf t d = true) :
    Tab.wf (Tab.modify t d k f) d = true := Tab.set_wf k _ h

/-- Writing a byte keeps the canonical form. -/
theorem Memory.write_wf {m : Memory} (a : Nat) (b : Byte) (h : Memory.wf m = true) : Memory.wf (Memory.write m a b) = true :=
  Tab.set_wf a b h

/-- Writing a run of bytes keeps the canonical form. -/
theorem Memory.writeBytes_wf {m : Memory} (a : Nat) (l : Bytes) (h : Memory.wf m = true) :
    Memory.wf (Memory.writeBytes m a l) = true := by
  induction l generalizing m a with
  | nil => exact h
  | cons x l ih => exact ih (a + 1) (Memory.write_wf a x h)

/-- The memories of the state after reset are canonical. -/
theorem State.reset_wf : Memory.wf State.reset.interp.scratch = true ∧ Memory.wf State.reset.pwin.pool = true := by decide

/-! ## Reads and writes -/

/-- A byte read after a byte was written. -/
theorem Memory.read_write (m : Memory) (a b : Nat) (v : Byte) :
    Memory.read (Memory.write m a v) b = if b = a then v else Memory.read m b := Tab.get_set _ _ _ _ _

/-- A byte read after a run was written: the run's own byte inside it, the old byte outside. -/
theorem Memory.read_writeBytes (m : Memory) (a b : Nat) (l : Bytes) :
    Memory.read (Memory.writeBytes m a l) b = if a ≤ b ∧ b < a + l.length then l.getD (b - a) 0 else Memory.read m b := by
  induction l generalizing m a with
  | nil => simp [Memory.writeBytes]
  | cons x l ih =>
    unfold Memory.writeBytes
    rw [ih, Memory.read_write]
    by_cases h : b = a
    · subst h; simp
    · by_cases h2 : a + 1 ≤ b ∧ b < a + 1 + l.length
      · rw [if_pos h2, if_pos (by simp; omega)]
        have e : b - a = (b - (a + 1)) + 1 := by omega
        rw [e]; simp
      · rw [if_neg h2, if_neg h, if_neg (by simp; omega)]

/-- A run of bytes is read byte by byte. -/
theorem Memory.readBytes_eq (m : Memory) (a n : Nat) :
    Memory.readBytes m a n = (List.range n).map (fun i => Memory.read m (a + i)) := by
  induction n generalizing a with
  | zero => rfl
  | succ n ih =>
    unfold Memory.readBytes
    rw [ih, List.range_succ_eq_map]
    simp [Function.comp_def, Nat.add_assoc, Nat.add_comm 1]

end Sys2Proof.Machine
end

