-- ==== Sys2Proof/WellFormed.lean ====
section
/-! DEFINITION. Which commands are well formed: the operands a sender can put on a command (lengths of frames, flits, packets and
sectors, instance numbers, ranges of measured values). What the controller itself checks of a command's content is no part of
this: the meaning answers it with a status. -/

namespace Sys2Proof

/-- A Log bank number (R102). -/
def bankOk (b : BitVec 5) : Bool := decide (b.toNat < 17)

/-- A Siette context: 0 to 63 of the Chart Unit, 64 the Reaction Sequencer (R98, R359). -/
def ctxOk (c : BitVec 7) : Bool := decide (c.toNat ≤ 64)

/-- A sweep measures four quadrants (R376). -/
def Sweep.wf (w : Sweep) : Bool := decide (w.windows.length = 4)

/-- A sector is 4096 data bytes and its seal (R62). -/
def Sector.wf (s : Sector) : Bool := decide (s.data.length = 4096)

/-- Sectors of a row, each under a fragment number below 64 (R46). -/
def sectorsOk (l : List (Nat × Sector)) : Bool := l.all (fun e => decide (e.1 < 64) && e.2.wf)

/-- A read brings at most 16 MiB. -/
def BusResult.wf : BusResult → Bool
  | .ok bytes => decide (bytes.length ≤ 2 ^ 24)
  | .unsupported | .aborted | .poisoned => true

/-- A drive read brings one sector. -/
def DriveReadResult.wf : DriveReadResult → Bool
  | .ok sectors => decide (sectors.length = 1) && sectors.all Sector.wf
  | .error => true

/-- The detail of a list that could not be read is 1 to 3 (R282). -/
def SglFetch.wf : SglFetch → Bool
  | .notNeeded => true
  | .entries es => decide (1 ≤ es.length)
  | .unreadable detail => decide (1 ≤ detail.toNat) && decide (detail.toNat ≤ 3)

/-- A bring-up reports a link that is up: rate 1 to 3, width 1, 2 or 4 (R344). -/
def BringupResult.wf : BringupResult → Bool
  | .ok i => decide (i.gen ≠ 0) && decide (i.width.toNat ∈ [1, 2, 4])
  | .failed => true

/-- A word error names one of the 24,576 ways (R294), one of the 63,488 tier slots (R304), or a decode matrix. -/
def WordError.wf : WordError → Bool
  | .line i _ => decide (i < 24576)
  | .slot t _ => decide (t < 63488)
  | .matrix _ _ _ => true

/-- A command as a sender can form it. -/
def Instr.wf : Instr → Bool
  | .powerOn _ _ | .powerLoss | .coldStartProceed | .bootComplete _ _ => true
  | .startupCalibrationDone _ _ sweeps => decide (sweeps.length ≤ 17) && sweeps.all Sweep.wf
  | .mapStoreTrainingDone eyes => decide (eyes.length = 8) && eyes.all (fun e => decide (e.1 < 1024))
  | .almanacComplete | .surveyComplete _ | .journalWalkEnd | .setReplayEnd _ _ | .softReset _ | .chainReset _ _
  | .perstN _ | .perstNRelease _ | .flr _ | .d3hotEntry _ | .d0Return _ | .dockEnter | .dockExit | .pwrwarnNAssert => true
  | .railSample mv _ => decide (mv.length = 7) && mv.all (fun v => decide (v < 65536))
  | .holdQualificationExpiry | .holdResume => true
  | .junctionSample tj banks => decide (tj.length = 8) && decide (banks.length ≤ 17)
  | .fixPpsEdge _ _ _ _ | .fixPpsLost | .todLapse | .watchBoundary | .watchSeal | .sealGraceExpiry _ | .holdoverTick
  | .watchLengthChange | .generationLimit _ | .recordCommit _ | .anchor | .relocation => true
  | .stripeCommit _ _ first count => decide (1 ≤ count) && decide (first + count ≤ 256)
  | .bankFailure bank => bankOk bank
  | .bankErrorWindow _ | .resilverComplete _ | .lifeRecordDue => true
  | .calTemperatureCheck _ temps => decide (temps.length ≤ 17)
  | .calIntervalDue bank => bankOk bank
  | .calFailHoldoffExpiry bank => bankOk bank
  | .calRunStart | .calCopyComplete => true
  | .calSweepComplete _ _ sweep => sweep.wf
  | .calBankSel bank _ => bankOk bank
  | .dataRingDoorbell _ _ | .commandRingDoorbell _ _ | .eventRingDoorbell _ _ | .ringEnable _ | .ringDisable _
  | .commandRingDisable _ | .eventRingDisable _ | .ringDisableComplete _ | .privLock | .descriptorFetch _ => true
  | .descriptorReadComplete _ result => result.wf
  | .haltCloseEnd | .ringReadTimeout _ => true
  | .ioRead _ sgl errs => sgl.wf && errs.all WordError.wf
  | .ioWrite _ sgl errs => sgl.wf && errs.all WordError.wf
  | .allocationRetry _ | .ioWriteZeroes _ | .ioVerify _ | .ioNop _ | .msixHoldoffExpiry _ | .msixUnmask _ _
  | .deferredCommandStart _ => true
  | .bufferReadComplete _ result => result.wf
  | .bufferReadTimeout _ | .mgmtWatchdog | .fwRestartDone | .setCreate _ | .setModify _ | .setStart _ | .setStop _
  | .setDelete _ | .setRecover _ | .setQuery _ | .setReadPreserved _ | .setDrainComplete _ | .profileDefine _
  | .profileDelete _ | .profileQuery _ | .chartLoad _ | .chartTableWrite _ | .chartDelete _ | .chartRevise _
  | .chartLookup _ | .lookupAccept _ => true
  | .lookupComplete ctx => decide (ctx.toNat < 64)
  | .chartFlush | .portQuery _ | .portConfig _ | .portFail _ | .portRelease _ | .portReset _ | .portAdmin _
  | .groupPower _ | .logQuery _ | .watchSetTod _ | .watchSetLength _ | .watchQuery _ | .cleanRange _ | .invalRange _
  | .discardRange _ | .wayMasks _ | .regionSet _ | .regionQuery _ | .faultRead _ | .faultAck _ | .faultClear _
  | .faultLoadReaction _ | .calRun _ | .calQuery _ | .lifeRead _ | .lifeRecord _ | .pairJoin _ | .pairLeave _
  | .pairQuery _ | .fwDownload _ | .fwCommit _ | .fwQuery _ | .diagInject _ | .diagEcho _ => true
  | .sAdd ctx _ _ _ => ctxOk ctx
  | .sSub ctx _ _ _ => ctxOk ctx
  | .sAnd ctx _ _ _ => ctxOk ctx
  | .sOr ctx _ _ _ => ctxOk ctx
  | .sXor ctx _ _ _ => ctxOk ctx
  | .sShl ctx _ _ _ => ctxOk ctx
  | .sShr ctx _ _ _ => ctxOk ctx
  | .sAddi ctx _ _ _ => ctxOk ctx
  | .sAndi ctx _ _ _ => ctxOk ctx
  | .sOri ctx _ _ _ => ctxOk ctx
  | .sXori ctx _ _ _ => ctxOk ctx
  | .sShli ctx _ _ _ => ctxOk ctx
  | .sShri ctx _ _ _ => ctxOk ctx
  | .sMovi ctx _ _ _ => ctxOk ctx
  | .sMovk ctx _ _ _ => ctxOk ctx
  | .sMul ctx _ _ _ => ctxOk ctx
  | .sMulhi ctx _ _ _ => ctxOk ctx
  | .sDivm ctx _ _ _ => ctxOk ctx
  | .sModr ctx _ _ _ => ctxOk ctx
  | .sMix ctx _ _ _ => ctxOk ctx
  | .sSltu ctx _ _ _ => ctxOk ctx
  | .sSeq ctx _ _ _ => ctxOk ctx
  | .sSel ctx _ _ _ _ => ctxOk ctx
  | .sBz ctx _ _ => ctxOk ctx
  | .sBnz ctx _ _ => ctxOk ctx
  | .sBr ctx _ => ctxOk ctx
  | .sSkeq ctx _ _ => ctxOk ctx
  | .sSkne ctx _ _ => ctxOk ctx
  | .sSklt ctx _ _ => ctxOk ctx
  | .sLdt ctx _ _ _ _ _ => ctxOk ctx
  | .sPtest ctx _ _ => ctxOk ctx
  | .sEmit ctx _ _ => ctxOk ctx
  | .sFault ctx _ => ctxOk ctx
  | .sCrr ctx _ _ => ctxOk ctx
  | .sCrw ctx _ _ => ctxOk ctx
  | .sRaise ctx _ _ => ctxOk ctx
  | .sDone ctx => ctxOk ctx
  | .actHalt ctx _ => ctxOk ctx
  | .actPreserve ctx _ => ctxOk ctx
  | .actStopSet ctx _ => ctxOk ctx
  | .actFailPort ctx _ => ctxOk ctx
  | .actContainHost ctx _ => ctxOk ctx
  | .actClear ctx _ => ctxOk ctx
  | .actLife ctx _ => ctxOk ctx
  | .reactionStart | .codingPassDispatch => true
  | .codingPassComplete engine outputs => decide (engine.toNat < 18) && outputs.all (fun o => decide (o.length ≤ 2 ^ 20))
  | .cesSelfTestComplete _ _ | .cesIdleSelfTest _ _ | .decodeSolveComplete _ _ => true
  | .driveReadComplete _ result errs => result.wf && errs.all WordError.wf
  | .deadReckoningThreshold _ errs => errs.all WordError.wf
  | .driveWriteComplete _ _ | .driveFlushComplete _ _ => true
  | .driveAdminComplete _ _ cqe _ => decide (cqe.length = 16)
  | .driveShutdownComplete _ | .hardTimeout _ | .portSealLimit _ | .writeLagLimit _
  | .receiverDetection _ _ => true
  | .driveBringupComplete _ result => result.wf
  | .cstsRdyTimeout _ | .linkDown _ _ | .recoveryTimeout _ | .portResetEnd _ _ | .quarantineReset _
  | .driveAsyncEvent _ _ | .healthPoll _ | .driveDmaReject _ | .driveLinkErrorWindow _ _ | .driveL1Entry _
  | .groupDrainEnd _ | .drainTimeout _ => true
  | .groupWakeDelay group receivers => receivers.all (fun p => decide (p.toNat / 16 = group.toNat))
  | .catchupExtentDone _ _ | .rebuildPacingWindow | .rebuildStripeDone _ _ | .rebuildRetakeLimit _ _
  | .rebuildCursorDurable _ | .scrubPassStart | .scrubPacingWindow => true
  | .scrubRowReadComplete _ _ _ sectors => sectorsOk sectors
  | .rowArbitrationDone _ _ _ sectors => sectorsOk sectors
  | .scrubCursorSave => true
  | .resyncRowDone _ _ _ sectors => sectorsOk sectors
  | .tierMoveComplete _ | .mapChannelFailure _ _ | .cacheInvalidationDone | .burstGrant _ _ => true
  | .moverReadCompletion _ result => result.wf
  | .moverReadTimeout _ | .tagQuarantineExpiry _ | .transferComplete _ => true
  | .flushReadComplete _ result => result.wf
  | .copy _ desc srcList dstList => desc.wf && srcList.wf && dstList.wf
  | .channelEnable _ | .channelDisable _ | .swReq _ | .channelDesc _ _ | .mqEnable _ _ | .mqCons _ _ | .pwinPages _ => true
  | .pairLinkDown detail => decide (1 ≤ detail.toNat) && decide (detail.toNat ≤ 3)
  | .pairLaneRetrain _ | .flitIdle _ | .flitNak _ => true
  | .flitMirror _ _ units => decide (units.length ≤ 3) && units.all (fun u => decide (u.length = 64))
  | .flitMirrorAck _ seqs => decide (seqs.length ≤ 30)
  | .flitFwdDesc _ descs => decide (descs.length ≤ 3) && descs.all (fun d => decide (d.bytes.length = 64))
  | .flitFwdGrant _ _ _ _ _ _ => true
  | .flitFwdData _ _ data => decide (data.length ≤ 192)
  | .flitFwdDone _ _ _ _ | .flitSealReady _ _ _ => true
  | .flitMeta _ _ page => decide (page.length ≤ 240)
  | .flitHaltNotice _ | .flitState _ _ | .joinTimeout | .pairWaitExpiry | .probeTimeout | .fenceWaitExpiry
  | .takeoverComplete | .fenceInFall | .fenceInRise => true
  | .chainCmd _ packet => decide (packet.length = 128)
  | .scratchWrite _ _ data => decide (data.length ≤ 262)
  | .scratchRead _ _ _ | .chainTod _ | .chainEnum _ | .alertQuery _ | .chainProbe _ _ _ | .probeReply _ _ | .alertAck
  | .chainBreak => true
  | .chainFrameForward _ frame => decide (frame.length ≤ 275)
  | .alertClr => true
  | .portContainment _ cause => decide (1 ≤ cause.toNat) && decide (cause.toNat ≤ 7)
  | .containNow _ | .hpuRelease _ _ | .hostTlpError _ _ | .hostCorrectableWindow _ _ | .hostL1Entry _ | .l0pNarrow _
  | .l0pWiden _ => true
  | .bar2Write _ _ data => decide (1 ≤ data.length) && decide (data.length ≤ 4096)
  | .bar2Read _ _ len _ => decide (1 ≤ len) && decide (len ≤ 4096)
  | .barSizeWrite _ code => decide (10 ≤ code.toNat) && decide (code.toNat ≤ 16)
  | .bar0BadAccess _ _ _ | .pwinGo | .pwinCommitInForce | .poolPageRelease _ => true
  | .registerWrite _ offset wide _ => if wide then decide (offset.toNat % 8 = 0) else decide (offset.toNat % 4 = 0)
  | .shutdownTimeout _ | .rangeWalkEnd _ | .victimTierEmptied | .jtagDebugAttempt => true
  | .decayFloorCrossed rail => decide (rail.toNat < 4)
  | .controllerFatalStatus _ | .uncorrectableLinkError _ _ | .flitError _ | .chainFrameCrcError _ | .hotReset _ => true
  | .hostLinkUp _ speed width _ => decide (1 ≤ speed.toNat) && decide (speed.toNat ≤ 6) && decide (width.toNat ∈ [1, 2, 4, 8, 16])
  | .gapClosed => true
  | .lowerHalfRead _ offset => decide (offset.toNat % 8 = 0)
  | .dpgClkreqN _ _ => true

end Sys2Proof
end

