-- ==== Sys2Proof/Tests/Slice0.lean ====
section
/-! SUPPORT. The tests: small states, the worked examples of spec/ with the results that spec/ gives, an ill-formed command for each
check of WellFormed, and for every clause of the statements that has hypotheses a state and operands that meet them together. A witness
that needs a signature to verify takes that as its own hypothesis, the check being an uninterpreted function of Config. -/

set_option linter.unusedVariables false
set_option linter.style.longLine false
set_option Elab.async false

namespace Sys2Proof.Tests

open Sys2Proof.Machine

/-! ## States -/

/-- The next state of a command. -/
def after (c : Instr) (s : State) : State :=
  match exec c s with
  | .next t => t
  | _ => s

/-- The next state of a step. -/
def afterStep (s : State) : State :=
  match step s with
  | .next t => t
  | _ => s

/-- A controller in phase RUNNING with an empty Log and no drive. -/
def wUp : State :=
  { State.reset with
      gcs := { Gcs.at0 with phase := .running, resetNow := none }, scc := { Scc.at0 with ready := true, vtReady := true },
      wch := { Wch.at0 with fixNs := 5000000 }, log := { Log.at0 with walked := true } }

/-- A host link that is up, its memory space enabled. -/
def wHpu : Hpu :=
  { Hpu.at0 with perstLow := false, dlUp := true, speed := 6, width := 16,
                 cfg := { HostCfg.at0 with memEnable := true, msixEnable := true, aspmL1 := true, l0pBoth := true } }

/-- The same with both hosts linked. -/
def wHost : State := { wUp with hpus := [(0, wHpu), (1, wHpu)] }

/-- The same in another phase. -/
def wPhase (f : Phase) : State := { State.reset with gcs := { Gcs.at0 with phase := f } }

/-- Idle-dock. -/
def wDock : State := { wHost with gcs := { wHost.gcs with phase := .dock } }

/-- Host port 0 changed. -/
def wPort (h : Hpu) : State := { wHost with hpus := [(0, h), (1, wHpu)] }

/-- A peer window of one page. -/
def wWin : Window :=
  { offset := 0x10000, pages := 1, tbPage := 2, valid := true, read := true, write := true, port0 := true, port1 := true }

/-- The peer window in force. -/
def wPeer : State := { wHost with pwin := { Pwin.at0 with active := [(3, wWin)] } }

/-- A drive port in service. -/
def wDrive : Port :=
  { Port.at0 with state := .ready, formatOk := true, gen := 3, nsze := 100000, recordedCapacity := some 100000,
                  pairsGranted := 1, depthLog2 := 4 }

/-- A RUNNING set of three ports, one row a stripe, whose chart places fragment f of stripe x on port f at block x. -/
def wSet : ArraySet :=
  { ArraySet.at0 with
      state := .running, incarnation := 1, members := [0, 1, 2], stripeCount := 4096, extents := [0],
      current := { Revision.at0 with rev := 1, slot := 1 } }

/-- Two data fragments and one parity. -/
def wProfile : Profile := { typ := .rs, k := 2, par := 1, loc := 0 }

/-- The set on its drives. -/
def wSets : State :=
  { wHost with
      sets := [(0, wSet)], profiles := [(0, some wProfile)], cht := { Cht.at0 with progs := [(1, some [encodeSiette (.emit 2 1)])] },
      ports := [(0, wDrive), (1, wDrive), (2, wDrive)] }

/-- The registers of a ring of 256 entries. -/
def withRingRegs (s : State) (r : RingId) : State :=
  ((s.setRegN (ringCtx r) 0x1000).setRegN (ringCtx r + 8) 0x2000).setRegN (ringCtx r + 0x10) 8

/-- A data ring, a command ring and an event ring with their registers written, the event ring ACTIVE. -/
def wRegs : State :=
  (withRingRegs (withRingRegs (withRingRegs wSets (.data 5)) (.cmd 2)) (.event false)).setRing (.event false)
    { Ring.at0 with state := .active }

/-- A descriptor of the first block of the set. -/
def wDesc (op flags : Byte) : Desc :=
  { pos := 0, opcode := op, flags := flags, set := 0, mode := 0, blocks := 1, tag := 7, lba := 0, addr0 := 0x4000, addr1 := 0,
    len0 := 4096, len1 := 0 }

/-- The data ring ACTIVE with a descriptor in front. -/
def wFront (d : Desc) : State :=
  wRegs.setRing (.data 5) { Ring.at0 with state := .active, tail := 1, fetched := 1, queue := [d] }

/-- The data ring in a given condition. -/
def wData (g : Ring) : State := wRegs.setRing (.data 5) g

/-- A read in flight under tag 9. -/
def wRead (u : ReadUser) : HostRead := { port := false, tag := 9, user := u, off := 0, len := 64, left := 0, dead := false }

/-- Monitors with a Hold sub-state. -/
def wHold (h : HoldState) : State := { wHost with mon := { Mon.at0 with hold := h } }

/-- Every rail at a level that qualifies. -/
def wRails (s : State) : List Nat := (List.range 7).map (fun r => s.railHigh r)

/-- The Watch Timer changed, FIX_PPS in use. -/
def wWch (w : Wch) : State := { (wHost.setRegN Reg.wchCtl 1) with wch := w }

/-- A DATA record being written. -/
def wRec (typ : RecType) : Rec := { Rec.blank typ 1 with seq := 1, rowCount := 1, names := [0] }

/-- The Log with one record. -/
def wLog (r : Rec) : State := { wSets with log := { Log.at0 with recs := [r], nextSeq := 2, walked := true } }

/-- A NOP descriptor. -/
def wNop (flags : Byte) : Desc := { wDesc 5 flags with blocks := 0, addr0 := 0, len0 := 0 }

/-- An entry of 64 bytes that holds a NOP. -/
def wEntry (b0 : Byte) : Bytes := [b0, 1] ++ List.replicate 62 0

/-- A calibration run in a phase. -/
def wCal (c : CalRun) : State := { wSets with mon := { Mon.at0 with calrefOk := true, run := some c } }

/-- A clean sweep at column 15 of every quadrant. -/
def wSweep : Sweep := { q0 := 15, q1 := 15, q2 := 15, q3 := 15, windows := [50, 50, 50, 50], readbackClean := true, tempC := 40 }

/-- The data ring in a given condition, with one read in flight. -/
def wFetching (g : Ring) (u : HostRead) : State := (wData g).withDmv { Dmv.at0 with reads := [u] }

/-- Host port 1 with an MSI-X vector. -/
def wMsix (v : Nat) (e : MsixEntry) (pend : List Nat) : State :=
  { wRegs with hpus := [(0, { wHpu with msix := [(v, e)], pendingBits := pend }), (1, wHpu)] }

/-- An operation of the data ring outstanding. -/
def wIo (kind : IoKind) : Io := newIo 1 5 kind (wDesc 3 0) 0 0 false

/-- A calibration run of bank 0. -/
def wRun (ph : CalPhase) (spare : Option (BitVec 5)) : CalRun := { bank := 0, phase := ph, spare := spare, src := none }

/-- A committed DATA record of the first block of the set. -/
def wOpen : Rec := { wRec .data with status := .committed, fragMask := 1, incarnation := 1 }

/-- A command packet of an opcode with the listed PARAMS fields. -/
def wPkt (op : Nat) (fields : List (Nat × Nat × Nat)) : Bytes := leBytes 2 op ++ fill 14 0 ++ resultOf fields

/-- A packet that came by the chain port, to be served next. -/
def wAt (s : State) (pkt : Bytes) : State :=
  { s with interp := { s.interp with srcs := [(16, [pkt])], chainBusySeq := some 4 } }

/-- Words written to the scratch buffer. -/
def wScratch (s : State) (ws : List Word32) : State :=
  { s with interp := { s.interp with scratch := Memory.writeBytes [] 0 (ws.flatMap (fun w => leBytes 4 w.toNat)) } }

/-- The set in a given condition. -/
def wIn (f : ArraySet → ArraySet) : State := { wSets with sets := [(0, f wSet)] }

/-- Set 0 STOPPED. -/
def wStopped : State := wIn (fun a => { a with state := .stopped })

/-- A chart program that places fragment f of stripe x on port f at block x. -/
def wChart : Word32 := encodeSiette (.emit 2 1)

/-- The RESULT of a lookup of fragment 1 of stripe 5 of set 0. -/
def wReq : LookupReq := lookupReq 0 wSet.current 5 1 .hostIo

/-- The program of slot 1. -/
def wProg : SProg := (wSets.slotProg 1).getD { code := [], tables := [] }

/-- A PORT state changed. -/
def wPortIn (p : Nat) (v : Port) : State := { wSets with ports := Tab.set wSets.ports Port.at0 p v }

/-- A packet is ready, as a computation. -/
def isReady (s : State) (src : CmdSrc) (op : Nat) (pkt : Bytes) : Bool :=
  decide (s.frontPacket src = some pkt) && decide (opcodeOf pkt = op) && (match cmdInfo op with
    | none => false
    | some c => !s.mustWait c pkt && decide (zeroFault c.params pkt = none) && (s.denials src c).all (fun d => decide (d = none)) &&
        !(c.persistent && s.inHold))

/-- The computation answers rightly. -/
theorem ready_of {s : State} {src : CmdSrc} {op : Nat} {pkt : Bytes} (h : isReady s src op pkt = true) : Ready s src op pkt := by
  unfold isReady at h
  cases e : cmdInfo op with
  | none => simp [e] at h
  | some c =>
    simp [e] at h
    exact ⟨h.1.1, h.1.2, c, e, h.2.1.1.1, h.2.1.1.2, h.2.1.2, by rcases h.2.2 with k | k <;> simp [k]⟩

/-- An image of no body for the first part, its header alone. -/
def wSlot : FwSlot :=
  { FwSlot.at0 with image := Memory.writeBytes [] 0 ([0x57, 0x46, 0x50, 0x4E, 1, 0, 0, 0, 0, 0, 0, 2, 0, 0, 0, 0, 1] ++ fill 0x1EF 0), staged := [(0, 512)], total := 512 }

/-- A security unit whose key slot 0 signs it. -/
def wSec : Sec :=
  { Sec.at0 with provisioned := 1, keyDigests := [(0, Config.sha384 (wSlot.bytes 0x40 97))], slotA := wSlot, slotB := wSlot, running := some false }

/-- A controller with an image staged, and a packet. -/
def wImage (n : Nat) : State := wAt { wSets with sec := wSec } (wPkt 0x0C02 (if n = 0 then [] else [(0x10, 1, 1)]))

/-- The image passes the checks of R474 where its signature does. -/
theorem image_ok (hv : ∀ a b c, Config.ecdsaVerify a b c = true) : imageFault .np9256 wSec wSlot = none := by
  have a : headerOk .np9256 wSlot = true := by decide +kernel
  have b : wSlot.field 9 1 = 0 := by decide +kernel
  have d : wSlot.rollbackIndex = 0 := by decide +kernel
  have c : keyOk wSec wSlot = true := by
    unfold keyOk
    simp only [b]
    simp [wSec, Sec.at0, Tab.get]
  have e : wSec.rollback = 0 := rfl
  simp [imageFault, a, c, d, e, hv]

/-- The same wherever the image stands. -/
theorem image_at {p : Part} {c : Sec} {f : FwSlot} (hp : p = .np9256) (hc : { c with pending := none } = wSec) (hf : f = wSlot)
    (hv : ∀ a b c, Config.ecdsaVerify a b c = true) : imageFault p c f = none := by
  have h : imageFault p c f = imageFault p { c with pending := none } f := rfl
  rw [h, hp, hc, hf]
  exact image_ok hv

/-- Every check of a list passes. -/
theorem all_none {l : List (Option (Byte × Byte))} (h : l.all Option.isNone = true) : ∀ d ∈ l, d = none := by
  intro d m
  exact Option.isNone_iff_eq_none.mp (List.all_eq_true.mp h d m)

/-- Register values of a Siette machine. -/
def wG : Tab Word64 := [(1, 0xFFFFFFFFFFFFFFF0), (2, 3), (3, 70), (4, 5)]

/-- Context 63 at an instruction of a chart lookup. -/
def wIns (i : SIns) : State :=
  wSets.setCtx 63 { SCtx.at0 with use := .lookup wReq, g := wG,
                                  prog := { code := [encodeSiette i], tables := [(2, some { width := 3, size := 64, bytes := [(40, 9)] })] } }

/-- A reaction to a drive fault. -/
def wReact : Reaction :=
  { source := 0xB0, level := .warn, nominal := .warn, detail := 3, injected := false, escalated := false, latched := true,
    overflow := false, fixNs := 5, count := 1, port := 9 }

/-- Context 64 at an instruction of a reaction program. -/
def wReacts (i : SIns) : State :=
  wSets.setCtx 64 { SCtx.at0 with use := .reaction wReact, g := wG, prog := { code := [encodeSiette i], tables := [] } }

/-- A pass of two inputs and one output. -/
def wPass : Pass := { id := 1, coeffs := [[1, 1]], inputs := [[1, 2], [3, 4]], rowOp := none, commit := none, bytes := 2 }

/-- A cluster changed. -/
def wCluster (c : Bool) (f : Cluster → Cluster) : State := wSets.modCluster c f

/-- A stripe commit of one row of the set, nothing outstanding. -/
def wCommit : CommitOp :=
  { id := 5, set := 0, stripe := 0, rowFirst := 0, rowCount := 1, vp := (9, 0), lwm := 1, zero := false, holdover := false, rev := wSet.current,
    data := [], rmw := false, encode := false, got := [], waits := [], parity := [], dataRecs := [], record := none, intent := none, tried := false }

/-- A line of the set. -/
def wLine : Line := { Line.at0 with state := .clean, key := { set := 0, stripe := 5, frag := 1, row := 0 }, data := [7] }

/-- A command to drive 1, issued. -/
def wCmd (op : DriveOp) (p : Purpose) : DriveCmd := { driveCmd 7 1 op p 0 5 1 0 5 none with issued := true }

/-- That command outstanding. -/
def wCmds (d : DriveCmd) : State := { wSets with dcmds := [d] }

/-- The right sector at the place that command reads. -/
def wSector : Sector := sealFor (wSets.placeOf 0 5 1 0) 1 (SealFlags.plain false false) (3, 0) 0 [1, 2, 3]

/-- A command of ring 2 that waits for its buffer. -/
def wBuf (retried : Bool) (pkt : Bytes) : State :=
  { wRegs with interp := { Interp.at0 with srcs := [(2, [pkt])], busy := [.ring 2], bufs := [{ src := .ring 2, packet := pkt, retried := retried }] },
               cht := { wSets.cht with progs := [(1, some [wChart]), (2, some [wChart])] }, dmv := { Dmv.at0 with reads := [wRead (.buffer (.ring 2))] } }

/-- A chart program of one instruction to load into slot 2. -/
def wLoad : Bytes := wPkt 0x0301 [(0x10, 1, 2), (0x12, 2, 1), (0x28, 4, 4)]

/-- A deferred command of the chain. -/
def wDeferred (pkt : Bytes) : Deferred :=
  { src := .chain, packet := pkt, keys := [], waitWrites := [], count := 0, count2 := 0, walks := 0, waits := [], blocks := [], lost := [] }

/-- The set with a pending revision that places fragment f of stripe x on port f at block x + 1000. -/
def wPend (f : ArraySet → ArraySet) : State :=
  { (wIn (fun a => f { a with pending := some { rev := 2, slot := 2, params := [], retire := [] }, candidate := 5 })) with
      cht := { wSets.cht with progs := [(1, some [wChart]), (2, some [encodeSiette (.addi 12 1 1000), encodeSiette (.emit 2 12)])] } }

/-- That revision. -/
def wNext : Revision := { rev := 2, slot := 2, params := [], retire := [] }

/-- The right sector of a fragment of row 0 of stripe 5. -/
def wFrag (f : Nat) : Nat × Sector := (f, sealFor (wSets.placeOf 0 5 f 0) 1 (SealFlags.plain false false) (3, 0) 0 [1, 2, 3])

/-- A blank sector of a fragment. -/
def wBlank (f : Nat) : Nat × Sector := (f, { data := [], sl := Seal.zero })

/-- An intent of two stripes to resync. -/
def wResync (count : Nat) : Resync := { seq := 1, stripe := 5, count := count, rowsDone := [], watch := 3, generation := 0 }

/-- A scrub pass under way. -/
def wScrub (f : ArraySet → ArraySet) : State := { (wIn f) with sched := { scrubbing := true, behind := false, turn := 0 } }

/-- A row under arbitration. -/
def wArb : State := { wSets with arbitrating := [(0, 5, 0)], ports := [(0, wDrive), (1, wDrive), (2, { wDrive with failed := true })] }

/-- A port group changed. -/
def wGroup (n : Nat) (g : Group) : State := { wSets with portGroups := [(n, g)] }

/-- A transfer of 100 bytes in host memory. -/
def wXfer : Transfer := { Transfer.blank with port := true, bytes := 100, srcs := [(0x5000, 100)], dsts := [(0x9000, 100)] }

/-- Channel 63 RUNNING with a queue. -/
def wRunning (q : List Transfer) : Channel := { Channel.at0 63 with state := .running, enable := true, queue := q }

/-- The movers with a channel in a given condition. -/
def wMover (n : Nat) (c : Channel) : State := wSets.withDmv { Dmv.at0 with chans := [(n, c)] }

/-- A read in flight for channel 63. -/
def wPiece (left : Nat) : HostRead := { port := true, tag := 9, user := .chan 63, off := 0, len := 64, left := left, dead := false }

/-- Channel 63 with that read in flight. -/
def wPiecing (q : List Transfer) (left : Nat) : State := wSets.withDmv { Dmv.at0 with chans := [(63, wRunning q)], reads := [wPiece left] }

/-- A mover descriptor that copies bytes from one address to another. -/
def wCopy (a b n : Nat) : Bytes :=
  [1] ++ fill 15 0 ++ leBytes 8 a ++ leBytes 8 b ++ fill 8 0 ++ leBytes 4 n ++ fill 20 0

/-- Completion queue 0 enabled, of 16 records. -/
def wQueue (s : State) (m : Mq) : State :=
  ((s.setRegN (Reg.dmvMqCfg 0) 4).setRegN (Reg.dmvMqBase 0) 0x7000).withDmv { s.dmv with mqs := [(0, m)] }

/-- The header of the flit that comes next. -/
def wHdr : FlitHdr := { seq := 8, ack := 19, credits := 0 }

/-- A pair of which this is side 1, its link up. -/
def wTwin : Pair := { Pair.at0 with state := .paired, side := true, link := true, lanesUp := 8, seqRx := 7, seqTx := 20, replayBuf := [(20, 1, 0, [])] }

/-- A controller of that pair. -/
def wPair (f : Pair → Pair) : State := { wSets with pair := f wTwin }

/-- The header unit of a seal record. -/
def wUnit : Bytes :=
  let b : Bytes := [3, 0, 1, 0] ++ leBytes 8 9 ++ fill 44 0
  b ++ leBytes 8 (crc64 b).toNat

/-- An operation of the data ring that the partner serves. -/
def wAway (kind : IoKind) : Io := { wIo kind with away := true }

/-- That operation outstanding. -/
def wAways (kind : IoKind) : State := { wRegs with ios := [wAway kind], pair := wTwin }

/-- Its reference. -/
def wRef : Nat := wRegs.awayRef 5 (wDesc 3 0)

/-- What a partner sends when it joins. -/
def wPartner : PartnerState :=
  { side := false, device := BitVec.ofNat 16 (deviceId .np9256), epoch := 0, lowestState := none, sameState := true, nguids := [], chainAddr := 3,
    chainValid := true, joining := true, leaving := false }

/-- A PAIR_JOIN of the chain in progress. -/
def wJoin : State :=
  { wHost with pair := { wTwin with state := .joining, former := .alone, joinSrc := some .chain },
               interp := { (wAt wHost (wPkt 0x0B01 [(0x10, 1, 1)])).interp with busy := [.chain], deferred := [wDeferred (wPkt 0x0B01 [(0x10, 1, 1)])] } }

/-- A unit on the chain. -/
def wChain : State := { wHost with chn := { Chn.at0 with address := some 3, alert := true } }

/-- A forwarded READ. -/
def wFwd : FwdDesc := { ring := 5, index := 0, lap := false, bytes := [1] ++ fill 63 0 }

/-- A write whose data is not in yet, its record being written. -/
def wWrite : State :=
  { (wLog { wRec .data with fragMask := 1, io := some 1, filled := false }) with ios := [wIo .writeZeroes] }

/-- A write of a sector whose cache set has no way but PENDING ones. -/
def wNoWay : State :=
  { wWrite with
      ios := [wIo .write],
      scc := { wSets.scc with lines := (List.range 16).map (fun w =>
        (keySet (wSets.keyOf 0 0 0 0) * 16 + w, { wLine with state := .pending, key := wSets.keyOf 0 (w + 1) 0 0, io := some 2 })) } }

/-! ## Worked examples of the spec -/

/-- The CRC's check value over the ASCII string 123456789 (spec/02_codes_and_seals.md R63). -/
theorem test_crc_check_value : crc64 [0x31, 0x32, 0x33, 0x34, 0x35, 0x36, 0x37, 0x38, 0x39] = 0x995DC9BBDF1939FA := by decide +kernel

/-- Block 1,000,000 of an RS 16+4 set with 64 KiB fragments (R47). -/
theorem test_block_place : locate 16 16 1000000 = (3906, 4, 0) := by decide

/-- The profile of the worked example of spec/02. -/
def exProfile : Profile := { typ := .rs, k := 4, par := 2, loc := 0 }

/-- The generator rows of RS 4+2 (spec/02, Worked example: RS 4+2 encode). -/
theorem test_generator :
    exProfile.genRow 4 = [0x36, 0x5F, 0xF8, 0xD5] ∧ exProfile.genRow 5 = [0x5F, 0x36, 0xD5, 0xF8] := by decide +kernel

/-- Its parity bytes at offset 0. -/
theorem test_encode :
    gfCombine 1 [0x36, 0x5F, 0xF8, 0xD5] [[0x5A], [0xC9], [0x2E], [0x9D]] = [0x60] ∧
    gfCombine 1 [0x5F, 0x36, 0xD5, 0xF8] [[0x5A], [0xC9], [0x2E], [0x9D]] = [0xEC] := by decide +kernel

/-- Its column sums. -/
theorem test_column_sums :
    columnSumOk [[0x36, 0x5F, 0xF8, 0xD5], [0x5F, 0x36, 0xD5, 0xF8]] [[0x5A], [0xC9], [0x2E], [0x9D]] [[0x60], [0xEC]] 1 = true := by
  decide +kernel

/-- The decode of fragments 1 and 3 from d0, d2, P0 and P1 (spec/02, Worked example: RS 4+2 decode). -/
theorem test_decode :
    gfSolve [exProfile.genRow 0, exProfile.genRow 2, exProfile.genRow 4, exProfile.genRow 5] (exProfile.genRow 1) =
      some [0x8F, 0xF9, 0x35, 0xFD] ∧
    gfSolve [exProfile.genRow 0, exProfile.genRow 2, exProfile.genRow 4, exProfile.genRow 5] (exProfile.genRow 3) =
      some [0x35, 0x8F, 0x7B, 0xB0] := by decide +kernel

/-- The survivors that R53 chooses for the mask 0x0A. -/
theorem test_survivors : (exProfile.choose 0x0A 0 0).map (fun c => c.use) = some [0, 2, 4, 5] := by decide +kernel

/-- Watch number of a fix time at 1 ms (R156). -/
theorem test_watch_number : watchAt 1700000000123456789 1000000 = 1700000000123 := by decide

/-- Watch lengths: 31,250 ns divides a second, 30,000 ns does not, and 10 µs is refused once fix time passes 2,183,597,767 s (R155). -/
theorem test_watch_lengths :
    State.lengthBad wUp 31250 = false ∧ State.lengthBad wUp 30000 = true ∧
    State.lengthBad (wWch { Wch.at0 with fixNs := 2183597767000000000 }) 10000 = false ∧
    State.lengthBad (wWch { Wch.at0 with fixNs := 2183597768000000000 }) 10000 = true := by decide +kernel

/-- The eight-entry ring of spec/07: a tail of (0, 1) fills it from (0, 0); from (0, 1), (3, 1) counts 3 and (1, 0) counts 9. -/
theorem test_eight_entry_ring : posCount 8 0 8 = 8 ∧ posCount 8 8 11 = 3 ∧ posCount 8 8 1 = 9 := by decide

/-- Encodings of the declustered chart (spec/03). -/
theorem test_chart_words :
    decodeSiette 0x49C68000 = some (.divm 7 1 10) ∧ decodeSiette 0x25980FFF = some (.andi 6 6 0xFFF) ∧
    decodeSiette 0xA0440000 = some (.ldt 1 1 0 0) ∧ decodeSiette 0x800C008F = some (.bz 3 143) ∧
    decodeSiette 0x20CFFFFF = some (.addi 3 3 0x3FFFF) ∧ decodeSiette 0xC0048000 = some (.emit 1 2) := by decide +kernel

/-- Encodings of the reaction program of spec/12. -/
theorem test_reaction_words :
    decodeSiette 0x36440004 = some (.shri 9 1 4) ∧ decodeSiette 0x84240015 = some (.bnz 9 0x15) ∧
    decodeSiette 0xE8340022 = some (.crw 13 0x22) ∧ decodeSiette 0xE7800023 = some (.crr 14 0x23) ∧
    decodeSiette 0xE0200004 = some (.act 8 4) ∧ decodeSiette 0xEC202001 = some (.raise 8 0x2001) ∧
    decodeSiette 0xF0000000 = some .done := by decide +kernel

/-- One turn of the chain of the declustered chart, at an index. -/
def exTurn (i : Nat) : List SIns :=
  [.addi 3 3 0x3FFFF, .sltu 5 3 12, .bz 5 (BitVec.ofNat 8 (156 - (i + 2))), .add 5 11 3, .ldt 1 5 0 0, .ptest 3 1,
   .bz 3 (BitVec.ofNat 8 (157 - (i + 6)))]

/-- The declustered chart of spec/03, 158 instructions. -/
def exChart : List SIns :=
  [.divm 7 1 10, .mul 5 7 10, .sub 5 1 5, .mul 5 5 3, .add 5 5 2, .mul 6 7 9, .andi 6 6 0xFFF, .shli 6 6 8, .add 11 6 11, .add 1 6 5,
   .ldt 1 1 0 0, .mul 2 7 4, .add 2 2 8, .ptest 3 1, .bz 3 143] ++
  ((List.range 20).flatMap (fun x => exTurn (15 + 7 * x))) ++ [.fault 1, .fault 2, .emit 1 2]

/-- Revision 7 of its set: DP46 retired with ordinal 0, DP135 with ordinal 1. -/
def exRev : Revision :=
  { rev := 7, slot := 3, params := [(0, 2048), (1, 0x9E3779B1), (2, 11), (3, 220), (4, 20)], retire := [(0, some 0x2E), (1, some 0x87)] }

/-- The set of the traced lookup, revision 7 pending with its cursor at stripe 4,000,000, and the three bytes of T0 that the trace
names. -/
def exSets : State :=
  { wHost with
      sets := [(5, { ArraySet.at0 with
        state := .running, incarnation := 4, members := (List.range 240).map (BitVec.ofNat 8), profile := 2, fragLog2 := 4,
        stripeCount := 5156248592, current := { exRev with rev := 6, retire := [(0, some 0x2E)] }, pending := some exRev,
        cursor := 4000000 })],
      profiles := [(2, some { typ := .rs, k := 16, par := 4, loc := 0 })],
      ports := (List.range 240).map (fun i => (i, { wDrive with nsze := 7500000000, recordedCapacity := some 7500000000 })),
      cht := { Cht.at0 with
        progs := [(3, some (exChart.map encodeSiette))],
        tables := [(12, some { width := 0, size := 1048576, bytes := [(0x7318, 0x87), (0x73DC, 0xB2), (0x73DD, 0x2E)] })] } }

/-- The program verifies and has 158 instructions; with its table it takes 1,025 KiB of the chart store (spec/08). -/
theorem test_chart_verifies :
    verifyProgram chartInsOk (exChart.map encodeSiette) = none ∧ exChart.length = 158 ∧ exSets.storeUsed = 1025 := by decide +kernel

/-- The traced lookup: stripe 3906, fragment 4 lies on DP178 at DBA 7728. -/
theorem test_traced_lookup : exSets.bearing 5 exRev 3906 4 = .at 0xB2 7728 := by decide +kernel

/-- It executes 30 instructions. -/
theorem test_traced_lookup_steps :
    ((exSets.lookupCtx (lookupReq 5 exRev 3906 4 .hostIo) ((exSets.slotProg 3).getD { code := [], tables := [] })).run
      (exSets.chartPtest (exSets.set 5) exRev) 256).steps = 30 := by decide +kernel

/-- The lookup uses the pending revision below the cursor (R83). -/
theorem test_revision_by_cursor : (exSets.set 5).revFor 3906 = exRev ∧ ((exSets.set 5).revFor 4000000).rev = 6 := by decide

/-- The block space of that set (spec/08). -/
theorem test_block_space : exSets.setBlocks 5 = 1319999639552 := by decide

/-- The SET_CREATE packet of spec/08. -/
def exCreate : Bytes :=
  [1, 1, 1, 0, 0, 0, 0, 0, 0xA5, 0, 0, 0, 0, 0, 0, 0, 5, 0, 0, 0, 2, 0x10, 3, 1, 0x28, 0, 0, 0, 0, 0, 0, 0, 0x10, 0x1C, 0x56, 0x33, 1, 0] ++
    fill 10 0 ++ fill 30 0xFF ++ fill 50 0

/-- The controller that receives it: set ID 5 last held incarnation 3. -/
def exCreated : State :=
  after (.setCreate .chain) (wAt { exSets with sets := [], incarnations := [(5, 3)] } exCreate)

/-- SET_CREATE answers with incarnation 4 and revision 0, and the set is STOPPED. -/
theorem test_set_create :
    (exCreated.set 5).state = .stopped ∧ (exCreated.set 5).incarnation = 4 ∧ (exCreated.set 5).current.rev = 0 ∧
    (exCreated.set 5).members.length = 240 ∧ (exCreated.set 5).stripeCount = 5156248592 ∧
    byteAt exCreated.interp.chainReply 4 = 0 ∧ leAt exCreated.interp.chainReply 0x1C 4 = 4 := by decide +kernel

/-- SET_START is refused while DP17 is READY with another format (step 2 of spec/08). -/
theorem test_set_start_format :
    (after (.setStart .chain) (wAt (exCreated.modPort 17 (fun v => { v with formatOk := false }))
      (wPkt 0x0103 [(0x10, 1, 5)]))).interp.chainReply.take 6 = [3, 1, 0, 0, stBadField, 0x30] := by decide +kernel

/-- A change of the chart slot and the members takes the next revision and keeps the incarnation (step 5). -/
theorem test_set_modify :
    ((after (.setModify .chain) (wAt exCreated (wPkt 0x0102
      [(0x10, 1, 5), (0x12, 2, 0x0009), (0x16, 1, 4), (0x30, 8, 0xFFFFFFFFFFFDFFFF), (0x38, 8, 0xFFFFFFFFFFFFFFFF),
       (0x40, 8, 0xFFFFFFFFFFFFFFFF), (0x48, 6, 0xFFFFFFFFFFFF), (0x4E, 1, 1)]))).set 5).current.rev = 1 ∧
    ((after (.setModify .chain) (wAt exCreated (wPkt 0x0102
      [(0x10, 1, 5), (0x12, 2, 0x0009), (0x16, 1, 4), (0x30, 1, 0xFF)]))).set 5).incarnation = 4 := by decide +kernel

/-- The value of CAL.BANK5.SEL after the run of spec/13: Q0 14, Q1 15, Q2 13, Q3 16, CHECK 9. -/
theorem test_cal_sel : selShown (14 + 32 * 15 + 1024 * 13 + 32768 * 16) = 0x009835EE := by decide

/-- The live state word of DP150 in spec/12: READY, format right, 32 GT/s x1, a warning, set 2. -/
theorem test_live_word :
    ({ wHost with
        sets := [(2, { wSet with members := [150] })],
        ports := [(150, { Port.at0 with state := .ready, formatOk := true, gen := 3, width := 1, warning := true })] } : State).liveWord 150 =
      0x28742 := by decide +kernel

/-- The widened source range of spec/09: 10,048 bytes from the 64-byte line of the first byte. -/
theorem test_widened : widened false 0x0000001234567003 0x2710 = (0x0000001234567000, 10048) := by decide

/-! ## An ill-formed command for each check of WellFormed -/

/-- A bring-up of the first width. -/
def exInfo : DriveInfo :=
  { pairs := 4, mqes := 1023, sectors := 5000, formatOk := true, mdSep := false, dual := false, dlfeatZero := true, gen := 3, width := 1,
    critWarn := 0, pctUsed := 3, nguid := 7 }

/-- The counts and values of measurements. -/
theorem test_wf_measurements :
    Instr.wf (.startupCalibrationDone 0 0 (List.replicate 18 wSweep)) = false ∧
    Instr.wf (.calSweepComplete 0 0 { wSweep with windows := [50, 50, 50] }) = false ∧
    Instr.wf (.mapStoreTrainingDone (List.replicate 7 (0, true, true))) = false ∧
    Instr.wf (.mapStoreTrainingDone (List.replicate 8 (1024, true, true))) = false ∧
    Instr.wf (.railSample [1, 2, 3, 4, 5, 6] true) = false ∧ Instr.wf (.railSample [1, 2, 3, 4, 5, 6, 65536] true) = false ∧
    Instr.wf (.junctionSample (List.replicate 7 none) []) = false ∧
    Instr.wf (.junctionSample (List.replicate 8 none) (List.replicate 18 none)) = false ∧
    Instr.wf (.calTemperatureCheck 0 (List.replicate 18 none)) = false ∧ Instr.wf (.decayFloorCrossed 4) = false := by decide +kernel

/-- The numbers of banks, contexts, engines, rows and groups. -/
theorem test_wf_numbers :
    Instr.wf (.bankFailure 17) = false ∧ Instr.wf (.stripeCommit 0 0 0 0) = false ∧ Instr.wf (.stripeCommit 0 0 255 2) = false ∧
    Instr.wf (.lookupComplete 64) = false ∧ Instr.wf (.sAdd 65 1 2 3) = false ∧ Instr.wf (.codingPassComplete 18 []) = false ∧
    Instr.wf (.groupWakeDelay 2 [0x30]) = false ∧ Instr.wf (.rowArbitrationDone 0 0 0 [(64, wSector)]) = false ∧
    Instr.wf (.pairLinkDown 0) = false ∧ Instr.wf (.pairLinkDown 4) = false ∧ Instr.wf (.portContainment true 0) = false ∧
    Instr.wf (.portContainment true 8) = false := by decide +kernel

/-- The results of reads and of a bring-up. -/
theorem test_wf_results :
    Instr.wf (.driveReadComplete 1 (.ok []) []) = false ∧ Instr.wf (.driveReadComplete 1 (.ok [wSector]) []) = false ∧
    Instr.wf (.ioRead 1 (.entries []) []) = false ∧ Instr.wf (.ioRead 1 (.unreadable 0) []) = false ∧
    Instr.wf (.ioRead 1 (.unreadable 4) []) = false ∧ Instr.wf (.driveBringupComplete 1 (.ok { exInfo with gen := 0 })) = false ∧
    Instr.wf (.driveBringupComplete 1 (.ok { exInfo with width := 3 })) = false ∧ Instr.wf (.driveAdminComplete 1 true [] []) = false := by
  decide +kernel

/-- The ways and slots of word errors. -/
theorem test_wf_words :
    Instr.wf (.ioRead 1 .notNeeded [.line 24576 true]) = false ∧ Instr.wf (.ioWrite 1 .notNeeded [.line 24576 false]) = false ∧
    Instr.wf (.driveReadComplete 1 .error [.slot 63488 true]) = false ∧
    Instr.wf (.deadReckoningThreshold 1 [.line 0 true, .line 24576 true]) = false := by decide +kernel

/-- A read of more than 16 MiB, and an output of more than 1 MiB. -/
theorem test_wf_long :
    Instr.wf (.descriptorReadComplete (.data 1) (.ok (List.replicate (2 ^ 24 + 1) 0))) = false ∧
    Instr.wf (.codingPassComplete 1 [List.replicate (2 ^ 20 + 1) 0]) = false := by
  simp only [Instr.wf, BusResult.wf, List.all_cons, List.length_replicate]
  decide

/-- The lengths of flits and chain frames. -/
theorem test_wf_frames :
    Instr.wf (.flitMirror wHdr 0 (List.replicate 4 (fill 64 0))) = false ∧ Instr.wf (.flitMirror wHdr 0 [fill 63 0]) = false ∧
    Instr.wf (.flitMirrorAck wHdr (List.replicate 31 0)) = false ∧ Instr.wf (.flitFwdDesc wHdr (List.replicate 4 wFwd)) = false ∧
    Instr.wf (.flitFwdDesc wHdr [{ wFwd with bytes := [] }]) = false ∧ Instr.wf (.flitFwdData wHdr 0 (fill 193 0)) = false ∧
    Instr.wf (.flitMeta wHdr false (fill 241 0)) = false ∧ Instr.wf (.chainCmd 1 (fill 127 0)) = false ∧
    Instr.wf (.scratchWrite 1 0 (fill 263 0)) = false ∧ Instr.wf (.chainFrameForward 1 (fill 276 0)) = false := by decide +kernel

/-- The requests of a host. -/
theorem test_wf_host :
    Instr.wf (.bar2Write true 0 []) = false ∧ Instr.wf (.bar2Write true 0 (fill 4097 0)) = false ∧
    Instr.wf (.bar2Read true 0 0 .good) = false ∧ Instr.wf (.bar2Read true 0 4097 .good) = false ∧
    Instr.wf (.barSizeWrite true 9) = false ∧ Instr.wf (.barSizeWrite true 17) = false ∧
    Instr.wf (.registerWrite true 4 true 0) = false ∧ Instr.wf (.registerWrite true 2 false 0) = false ∧
    Instr.wf (.lowerHalfRead true 4) = false ∧ Instr.wf (.hostLinkUp true 0 16 HostCfg.at0) = false ∧
    Instr.wf (.hostLinkUp true 7 16 HostCfg.at0) = false ∧ Instr.wf (.hostLinkUp true 6 3 HostCfg.at0) = false := by decide +kernel

/-- The rows of the table give no bits, so no word spells a command. -/
theorem test_no_word : decodeTableWord 16 0x1234 = none ∧ (State.reset.withFetchWord 16 0x1234) = State.reset := by decide

/-! ## What meets the hypotheses of each statement -/

/-- Obligations.IdleStepAdvancesFixTimeOnly, clause 1. -/
theorem witness_IdleStepAdvancesFixTimeOnly_1 : ∃ (s : State),
    s.pending = [] :=
  ⟨({ wUp with wch := { wUp.wch with fracPs := 9999 } }), by decide⟩

/-- Obligations.ResetLeavesTheStatedValues, clause 14. -/
theorem witness_ResetLeavesTheStatedValues_14 : ∃ (n : Nat),
    n < 64 :=
  ⟨47, by decide⟩

/-- Obligations.CommandsKeepTheirFrames, clause 1. -/
theorem witness_CommandsKeepTheirFrames_1 : ∃ (c : Instr) (s : State) (t : State),
    exec c s = .next t :=
  ⟨.fixPpsLost, wUp, (after .fixPpsLost wUp), rfl⟩

/-- Obligations.QueueIsFirstInFirstOut, clause 1. -/
theorem witness_QueueIsFirstInFirstOut_1 : ∃ (s : State) (t : State),
    step s = .next t :=
  ⟨(wUp.withPending [.fixPpsLost, .powerLoss]), (afterStep (wUp.withPending [.fixPpsLost, .powerLoss])), rfl⟩

/-- Obligations.OneWayStateNeverReturns, clause 1. -/
theorem witness_OneWayStateNeverReturns_1 : ∃ (s : State) (t : State),
    step s = .next t :=
  ⟨(wUp.withPending [.powerLoss]), (afterStep (wUp.withPending [.powerLoss])), rfl⟩

/-- Obligations.StepsKeepG0Zero, clause 1. -/
theorem witness_StepsKeepG0Zero_1 : ∃ (s : State) (t : State),
    s.G0Zero ∧
    step s = .next t :=
  ⟨(wUp.withPending [.powerLoss]), (afterStep (wUp.withPending [.powerLoss])), fun _ => rfl, rfl⟩

/-- Obligations.StepsKeepMemoriesCanonical, clause 1. -/
theorem witness_StepsKeepMemoriesCanonical_1 : ∃ (s : State) (t : State),
    s.Canonical ∧
    step s = .next t :=
  ⟨(wUp.withPending [.powerLoss]), (afterStep (wUp.withPending [.powerLoss])), ⟨rfl, rfl⟩, rfl⟩

/-- Obligations.HaltAndLockEndOnlyWithAReset, clause 1. -/
theorem witness_HaltAndLockEndOnlyWithAReset_1 : ∃ (c : Instr) (s : State) (t : State),
    s.gcs.halted = true ∧
    exec c s = .next t ∧
    t.gcs.halted = false :=
  ⟨(.softReset 0x0CB0), (wUp.withGcs { wUp.gcs with halted := true }), (after (.softReset 0x0CB0) (wUp.withGcs { wUp.gcs with halted := true })), rfl, rfl, rfl⟩

/-- Obligations.HaltAndLockEndOnlyWithAReset, clause 2. -/
theorem witness_HaltAndLockEndOnlyWithAReset_2 : ∃ (c : Instr) (s : State) (t : State),
    s.privLock = true ∧
    exec c s = .next t ∧
    t.privLock = false :=
  ⟨(.chainReset 0xB0 0x0C), ({ wUp with privLock := true }), (after (.chainReset 0xB0 0x0C) { wUp with privLock := true }), rfl, rfl, rfl⟩

/-- Obligations.PowerLossAndPowerOn, clause 1. -/
theorem witness_PowerLossAndPowerOn_1 : ∃ (s : State),
    s.gcs.pwrgd = true :=
  ⟨wUp, by decide⟩

/-- Obligations.PowerLossAndPowerOn, clause 2. -/
theorem witness_PowerLossAndPowerOn_2 : ∃ (bifur : Bool) (cold : Bool) (s : State),
    s.gcs.pwrgd = false :=
  ⟨true, true, (wUp.withGcs { wUp.gcs with pwrgd := false }), by decide⟩

/-- Obligations.ResetsReturnToStartUp, clause 1. -/
theorem witness_ResetsReturnToStartUp_1 : ∃ (s : State),
    s.gcs.pwrgd = true ∧
    s.gcs.phase ≠ .romRecovery ∧
    ((∀ k, s.gcs.resetNow = some k → k = .chain)) :=
  ⟨(wUp.withGcs { wUp.gcs with resetNow := some .chain }), rfl, by decide, fun k h => by cases h; rfl⟩

/-- Obligations.ResetsReturnToStartUp, clause 2. -/
theorem witness_ResetsReturnToStartUp_2 : ∃ (key : Half) (s : State),
    key ≠ 0x0CB0 :=
  ⟨0x0CB1, wUp, by decide⟩

/-- Obligations.ResetsReturnToStartUp, clause 3. -/
theorem witness_ResetsReturnToStartUp_3 : ∃ (s : State),
    s.gcs.pwrgd = true ∧
    s.gcs.phase ≠ .romRecovery ∧
    s.gcs.resetNow = none :=
  ⟨wUp, by decide⟩

/-- Obligations.ResetsReturnToStartUp, clause 4. -/
theorem witness_ResetsReturnToStartUp_4 : ∃ (b0 : Byte) (b1 : Byte) (s : State),
    s.gcs.pwrgd = true ∧
    ¬(b0 = 0xB0 ∧ b1 = 0x0C) :=
  ⟨0xB0, 0x0D, wUp, by decide⟩

/-- Obligations.StartUpAdvances, clause 2. -/
theorem witness_StartUpAdvances_2 (hv : ∀ a b c, Config.ecdsaVerify a b c = true) : ∃ (s : State),
    s.gcs.pwrgd = true ∧
    s.gcs.phase = .boot ∧
    s.gcs.coldWait = false ∧
    imageFault s.gcs.part s.sec (s.sec.slot (s.sec.pending.getD s.sec.lastRan)) = none :=
  ⟨({ wPhase .boot with sec := wSec }), by decide +kernel, by decide +kernel, by decide +kernel, image_at rfl rfl rfl hv⟩

/-- Obligations.StartUpAdvances, clause 3. -/
theorem witness_StartUpAdvances_3 : ∃ (s : State),
    s.gcs.phase = .survey ∧
    s.gcs.almanac = false :=
  ⟨(wPhase .survey), by decide⟩

/-- Obligations.StartUpAdvances, clause 4. -/
theorem witness_StartUpAdvances_4 : ∃ (eyes : List (Nat × Bool × Bool)) (s : State),
    s.gcs.phase = .survey ∧
    s.gcs.mapTrained = false :=
  ⟨([(0, true, true)]), (wPhase .survey), by decide⟩

/-- Obligations.StartUpAdvances, clause 5. -/
theorem witness_StartUpAdvances_5 : ∃ (c0 : Nat) (c1 : Nat) (sweeps : List Sweep) (s : State),
    s.gcs.phase = .survey ∧
    s.gcs.calDone = false :=
  ⟨1000, 1000, [], (wPhase .survey), by decide⟩

/-- Obligations.StartUpAdvances, clause 6. -/
theorem witness_StartUpAdvances_6 (hv : ∀ a b c, Config.ecdsaVerify a b c = true) : ∃ (otp : WordCheck) (store : WordCheck) (s : State),
    s.gcs.pwrgd = true ∧
    s.gcs.phase = .boot ∧
    s.gcs.coldWait = false ∧
    imageFault s.gcs.part s.sec (s.sec.slot (s.sec.pending.getD s.sec.lastRan)) = none :=
  ⟨.corrected, .bad, ({ wPhase .boot with sec := wSec }), by decide +kernel, by decide +kernel, by decide +kernel, image_at rfl rfl rfl hv⟩

/-- Obligations.StartUpAdvances, clause 7. -/
theorem witness_StartUpAdvances_7 : ∃ (s : State),
    s.gcs.pwrgd = true ∧
    s.gcs.phase = .boot ∧
    s.gcs.coldWait = false ∧
    ((∀ b, imageFault s.gcs.part s.sec (s.sec.slot b) ≠ none)) :=
  ⟨State.reset, by decide⟩

/-- Obligations.SurveyAndRecovery, clause 1. -/
theorem witness_SurveyAndRecovery_1 : ∃ (ms : List SurveyMeasure) (s : State),
    s.gcs.surveyDone = false ∧
    ((s.gcs.phase = .survey ∨ s.gcs.phase = .recovery ∨ s.gcs.phase = .running)) :=
  ⟨[], (wPhase .survey), by decide⟩

/-- Obligations.SurveyAndRecovery, clause 2. -/
theorem witness_SurveyAndRecovery_2 : ∃ (s : State),
    s.gcs.phase = .recovery ∧
    s.log.walked = false ∧
    s.sets = [] ∧
    s.gcs.resetNow = some .powerOn ∧
    s.timerStart < 2 ^ 64 :=
  ⟨(wPhase .recovery), by decide⟩

/-- Obligations.SurveyAndRecovery, clause 3. -/
theorem witness_SurveyAndRecovery_3 : ∃ (set : BitVec 6) (s : State),
    s.gcs.phase = .recovery ∧
    s.log.walked = true ∧
    (s.set set.toNat).replaying = true ∧
    (s.set set.toNat).replayed = false ∧
    s.inHold = false ∧
    s.interp.deferred = [] ∧
    s.dcmds = [] ∧
    s.log.recs = [] ∧
    s.scc.ready = true ∧
    s.scc.vtReady = true ∧
    s.mayReturn = true :=
  ⟨63, ({ wUp with gcs := { wUp.gcs with phase := .recovery }, sets := [(63, { ArraySet.at0 with state := .stopped, replaying := true })] }), by decide⟩

/-- Obligations.DockIsEnteredAndLeft, clause 1. -/
theorem witness_DockIsEnteredAndLeft_1 : ∃ (s : State),
    s.haltClosed = false ∧
    s.gcs.phase = .running ∧
    s.dockRefusal = none :=
  ⟨wUp, by decide⟩

/-- Obligations.DockIsEnteredAndLeft, clause 2. -/
theorem witness_DockIsEnteredAndLeft_2 : ∃ (s : State) (r : Nat),
    s.haltClosed = false ∧
    s.gcs.phase ≠ .dock ∧
    s.dockRefusal = some r :=
  ⟨({ wUp with pair := { Pair.at0 with state := .joining } }), 4, by decide⟩

/-- Obligations.DockIsEnteredAndLeft, clause 3. -/
theorem witness_DockIsEnteredAndLeft_3 : ∃ (s : State),
    s.haltClosed = false ∧
    s.gcs.phase = .dock :=
  ⟨wDock, by decide⟩

/-- Obligations.RegisterWritesLeaveIdleDock, clause 1. -/
theorem witness_RegisterWritesLeaveIdleDock_1 : ∃ (c : Instr) (s : State),
    barWrite c = true ∧
    s.haltClosed = false ∧
    s.gcs.phase = .dock :=
  ⟨.alertClr, wDock, by decide⟩

/-- Obligations.PortResetsAndPowerStates, clause 1. -/
theorem witness_PortResetsAndPowerStates_1 : ∃ (p : Bool) (s : State),
    s.gcs.resetNow = none :=
  ⟨true, wHost, by decide⟩

/-- Obligations.PortResetsAndPowerStates, clause 3. -/
theorem witness_PortResetsAndPowerStates_3 : ∃ (p : Bool) (s : State),
    s.gcs.resetNow = none :=
  ⟨true, wHost, by decide⟩

/-- Obligations.PortResetsAndPowerStates, clause 4. -/
theorem witness_PortResetsAndPowerStates_4 : ∃ (p : Bool) (s : State) (k : ResetKind),
    s.gcs.resetNow = some k :=
  ⟨false, (wUp.withGcs { wUp.gcs with resetNow := some .soft }), .soft, by decide⟩

/-- Obligations.PortResetsAndPowerStates, clause 5. -/
theorem witness_PortResetsAndPowerStates_5 : ∃ (p : Bool) (s : State),
    s.gcs.resetNow = none :=
  ⟨false, wHost, by decide⟩

/-- Obligations.PortResetsAndPowerStates, clause 7. -/
theorem witness_PortResetsAndPowerStates_7 : ∃ (p : Bool) (s : State),
    (s.hpu p).d3hot = true :=
  ⟨false, (wPort { wHpu with d3hot := true }), by decide⟩

/-- Obligations.ContainmentAndHostLinks, clause 1. -/
theorem witness_ContainmentAndHostLinks_1 : ∃ (p : Bool) (cause : Byte) (s : State),
    cause ≠ 0 ∧
    cause.toNat ≤ 7 ∧
    (s.hpu p).contained = false :=
  ⟨true, 7, wHost, by decide⟩

/-- Obligations.ContainmentAndHostLinks, clause 2. -/
theorem witness_ContainmentAndHostLinks_2 : ∃ (p : Bool) (s : State),
    s.haltClosed = false ∧
    s.gcs.phase ≠ .dock ∧
    (s.hpu p).contained = false :=
  ⟨false, wHost, by decide⟩

/-- Obligations.ContainmentAndHostLinks, clause 3. -/
theorem witness_ContainmentAndHostLinks_3 : ∃ (p : Bool) (cause : Byte) (s : State),
    cause ≠ 0 ∧
    cause.toNat ≤ 7 ∧
    (s.hpu p).contained = true :=
  ⟨false, 1, (wPort { wHpu with contained := true, cause := 2 }), by decide⟩

/-- Obligations.ContainmentAndHostLinks, clause 4. -/
theorem witness_ContainmentAndHostLinks_4 : ∃ (p : Bool) (viaVsec : Bool) (s : State),
    ((viaVsec = false → (s.hpu !p).contained = false ∧ s.haltClosed = false ∧ s.gcs.phase ≠ .dock)) ∧
    (s.hpu p).contained = true ∧
    (s.hpu p).dlUp = true :=
  ⟨false, false, (wPort { wHpu with contained := true, cause := 2 }), by decide⟩

/-- Obligations.ContainmentAndHostLinks, clause 5. -/
theorem witness_ContainmentAndHostLinks_5 : ∃ (p : Bool) (s : State),
    (s.hpu p).contained = true ∧
    (s.hpu p).dlUp = false :=
  ⟨false, (wPort { wHpu with contained := true, dlUp := false }), by decide⟩

/-- Obligations.ContainmentAndHostLinks, clause 7. -/
theorem witness_ContainmentAndHostLinks_7 : ∃ (p : Bool) (errors : Nat) (s : State),
    s.regField (Reg.hpuCorrLimit (ofBool p)) 0 16 < errors :=
  ⟨true, 65536, wHost, by decide⟩

/-- Obligations.ContainmentAndHostLinks, clause 8. -/
theorem witness_ContainmentAndHostLinks_8 : ∃ (p : Bool) (s : State),
    (s.hpu p).cfg.aspmL1 = true ∧
    (s.hpu p).dlUp = true ∧
    (s.hpu p).inL1 = false :=
  ⟨true, wHost, by decide⟩

/-- Obligations.ContainmentAndHostLinks, clause 9. -/
theorem witness_ContainmentAndHostLinks_9 : ∃ (p : Bool) (s : State),
    (s.hpu p).speed = 6 ∧
    (s.hpu p).cfg.l0pBoth = true ∧
    s.regBit (Reg.hpuPm (ofBool p)) 8 = true ∧
    (s.hpu p).narrow = false ∧
    (s.hpu p).dlUp = true :=
  ⟨false, (wHost.setRegN (Reg.hpuPm 0) 0x300), by decide⟩

/-- Obligations.ContainmentAndHostLinks, clause 10. -/
theorem witness_ContainmentAndHostLinks_10 : ∃ (p : Bool) (s : State),
    (s.hpu p).narrow = true :=
  ⟨false, (wPort { wHpu with narrow := true }), by decide⟩

/-- Obligations.ContainmentAndHostLinks, clause 11. -/
theorem witness_ContainmentAndHostLinks_11 : ∃ (p : Bool) (speed : BitVec 4) (width : BitVec 6) (cfg : HostCfg) (s : State),
    (s.hpu p).perstLow = false ∧
    s.pair.state ≠ .fenced :=
  ⟨true, 5, 8, HostCfg.at0, wHost, by decide⟩

/-- Obligations.RegisterAccesses, clause 1. -/
theorem witness_RegisterAccesses_1 : ∃ (p : Bool) (code : BitVec 6) (s : State),
    (s.hpu p).cfg.memEnable = false ∧
    10 ≤ code.toNat ∧
    code.toNat ≤ 16 :=
  ⟨true, 16, wUp, by decide⟩

/-- Obligations.RegisterAccesses, clause 3. -/
theorem witness_RegisterAccesses_3 : ∃ (p : Bool) (offset : BitVec 26) (value : Word64) (r : RegRow) (s : State),
    (s.hpu p).contained = false ∧
    (s.hpu p).dlUp = true ∧
    (s.hpu p).d3hot = false ∧
    (s.hpu p).cfg.memEnable = true ∧
    s.haltClosed = false ∧
    s.gcs.phase ≠ .dock ∧
    offset.toNat % 4 = 0 ∧
    s.absentReg offset.toNat = false ∧
    Reg.find offset.toNat = some r ∧
    r.rw ≠ 0 ∧
    wideAt offset.toNat = false ∧
    ((offset.toNat % 8 = 4 → wideAt (offset.toNat - 4) = false)) ∧
    inBlock 0x2000000 0x8000 offset.toNat = false ∧
    doorbellOf offset.toNat = none ∧
    inBlock 0xB0100 0x800 offset.toNat = false ∧
    ((∀ v, s.rowWrite p offset.toNat v = none)) ∧
    s.writeVetoed offset.toNat (value.toNat % 2 ^ 32) = false ∧
    instAt 0x110010 64 16 offset.toNat = none ∧
    offset.toNat ∉ [Reg.fltPinLevel, Reg.logThresh, Reg.dpPm, Reg.gcsHold, Reg.wchHold] :=
  ⟨true, (BitVec.ofNat 26 Reg.gcsRbsWindow), 5, (Reg.find Reg.gcsRbsWindow).get (by decide), wHost, rfl, rfl, rfl, rfl, rfl, by decide, rfl, rfl, rfl, by decide, rfl, by decide, rfl, rfl, rfl, fun _ => rfl, rfl, rfl, by decide⟩

/-- Obligations.RegisterAccesses, clause 4. -/
theorem witness_RegisterAccesses_4 : ∃ (p : Bool) (offset : BitVec 26) (s : State),
    (s.hpu p).contained = false ∧
    (s.hpu p).dlUp = true ∧
    (s.hpu p).d3hot = false ∧
    (s.hpu p).cfg.memEnable = true ∧
    offset.toNat % 8 = 0 ∧
    wideAt offset.toNat = true :=
  ⟨true, (BitVec.ofNat 26 Reg.gcsRbsRepairs), wHost, by decide⟩

/-- Obligations.PeerWindowsReachThePool, clause 1. -/
theorem witness_PeerWindowsReachThePool_1 : ∃ (p : Bool) (addr : Word64) (data : Bytes) (w : Window) (s : State),
    (s.hpu p).contained = false ∧
    (s.hpu p).dlUp = true ∧
    (s.hpu p).d3hot = false ∧
    (s.hpu p).cfg.memEnable = true ∧
    s.winAt p addr.toNat = some w ∧
    addr.toNat + data.length ≤ w.offset + w.pages * 4096 ∧
    w.write = true :=
  ⟨true, 0x10FFE, ([1, 2]), wWin, wPeer, by decide⟩

/-- Obligations.PeerWindowsReachThePool, clause 2. -/
theorem witness_PeerWindowsReachThePool_2 : ∃ (p : Bool) (addr : Word64) (len : Nat) (w : Window) (s : State),
    (s.hpu p).contained = false ∧
    (s.hpu p).dlUp = true ∧
    (s.hpu p).d3hot = false ∧
    (s.hpu p).cfg.memEnable = true ∧
    s.winAt p addr.toNat = some w ∧
    addr.toNat + len ≤ w.offset + w.pages * 4096 ∧
    w.read = true :=
  ⟨false, 0x10FFF, 1, wWin, wPeer, by decide⟩

/-- Obligations.PeerWindowsReachThePool, clause 3. -/
theorem witness_PeerWindowsReachThePool_3 : ∃ (p : Bool) (addr : Word64) (data : Bytes) (s : State),
    (s.hpu p).contained = false ∧
    (s.hpu p).dlUp = true ∧
    (s.hpu p).d3hot = false ∧
    (s.hpu p).cfg.memEnable = true ∧
    s.winAt p addr.toNat = none :=
  ⟨false, 0x11000, [1], wPeer, by decide⟩

/-- Obligations.PeerWindowsReachThePool, clause 4. -/
theorem witness_PeerWindowsReachThePool_4 : ∃ (p : Bool) (addr : Word64) (len : Nat) (words : WordCheck) (s : State),
    (s.hpu p).contained = false ∧
    (s.hpu p).dlUp = true ∧
    (s.hpu p).d3hot = false ∧
    (s.hpu p).cfg.memEnable = true ∧
    s.winAt p addr.toNat = none :=
  ⟨false, 0xFFFF, 1, .good, wPeer, by decide⟩

/-- Obligations.PeerWindowsReachThePool, clause 5. -/
theorem witness_PeerWindowsReachThePool_5 : ∃ (p : Bool) (addr : Word64) (data : Bytes) (s : State),
    (s.hpu p).contained = true :=
  ⟨false, 0x10000, [1], (wPort { wHpu with contained := true }), by decide⟩

/-- Obligations.PeerWindowsReachThePool, clause 6. -/
theorem witness_PeerWindowsReachThePool_6 : ∃ (p : Bool) (addr : Word64) (len : Nat) (words : WordCheck) (s : State),
    (s.hpu p).contained = true ∧
    (s.hpu p).dlUp = true :=
  ⟨false, 0x10000, 4, .bad, (wPort { wHpu with contained := true }), by decide⟩

/-- Obligations.PeerWindowsReachThePool, clause 7. -/
theorem witness_PeerWindowsReachThePool_7 : ∃ (p : Bool) (addr : Word64) (len : Nat) (w : Window) (s : State),
    (s.hpu p).contained = false ∧
    (s.hpu p).dlUp = true ∧
    (s.hpu p).d3hot = false ∧
    (s.hpu p).cfg.memEnable = true ∧
    s.winAt p addr.toNat = some w ∧
    addr.toNat + len ≤ w.offset + w.pages * 4096 ∧
    w.read = true :=
  ⟨false, 0x10FFF, 1, wWin, wPeer, by decide⟩

/-- Obligations.PeerWindowCommits, clause 1. -/
theorem witness_PeerWindowCommits_1 : ∃ (s : State),
    s.haltClosed = false ∧
    s.gcs.phase ≠ .dock ∧
    s.pwin.next = none ∧
    s.commitFault = none :=
  ⟨(wHost.withPwin { Pwin.at0 with shadow := [(3, wWin)] }), by decide⟩

/-- Obligations.PeerWindowCommits, clause 2. -/
theorem witness_PeerWindowCommits_2 : ∃ (s : State) (n : Nat) (r : Byte),
    s.haltClosed = false ∧
    s.gcs.phase ≠ .dock ∧
    s.pwin.next = none ∧
    s.commitFault = some (n, r) :=
  ⟨(wHost.withPwin { Pwin.at0 with shadow := [(3, wWin), (4, wWin)] }), 3, 2, by decide⟩

/-- Obligations.PeerWindowCommits, clause 3. -/
theorem witness_PeerWindowCommits_3 : ∃ (s : State) (ws : Tab Window),
    s.pwin.next = some ws :=
  ⟨(wHost.withPwin { Pwin.at0 with next := some [(3, wWin)] }), ([(3, wWin)]), by decide⟩

/-- Obligations.PeerWindowCommits, clause 4. -/
theorem witness_PeerWindowCommits_4 : ∃ (page : BitVec 13) (s : State),
    s.pageHeld page.toNat = false :=
  ⟨8191, wHost, by decide⟩

/-- Obligations.PeerWindowCommits, clause 5. -/
theorem witness_PeerWindowCommits_5 : ∃ (value : BitVec 13) (s : State),
    s.haltClosed = false ∧
    s.gcs.phase ≠ .dock ∧
    value.toNat ≤ 4096 ∧
    ((∀ w ∈ s.pwin.active, w.2.valid = false)) :=
  ⟨4096, wHost, by decide⟩

/-- Obligations.DoorbellsMoveRings, clause 1. -/
theorem witness_DoorbellsMoveRings_1 : ∃ (n : BitVec 10) (v : Word32) (s : State),
    s.haltClosed = false ∧
    s.gcs.phase ≠ .dock ∧
    (s.ring (.data n)).state = .active ∧
    v.toNat < 2 ^ 17 ∧
    v.toNat % 2 ^ 16 < s.ringN (.data n) ∧
    posCount (s.ringN (.data n)) (s.ring (.data n)).head (doorbellPos (s.ringN (.data n)) v.toNat) ≤ s.ringN (.data n) ∧
    posCount (s.ringN (.data n)) (s.ring (.data n)).head (s.ring (.data n)).tail ≤ posCount (s.ringN (.data n)) (s.ring (.data n)).head (doorbellPos (s.ringN (.data n)) v.toNat) :=
  ⟨5, 0x10000, (wData { Ring.at0 with state := .active, tail := 1 }), by decide⟩

/-- Obligations.DoorbellsMoveRings, clause 2. -/
theorem witness_DoorbellsMoveRings_2 : ∃ (c : BitVec 4) (v : Word32) (s : State),
    s.haltClosed = false ∧
    s.gcs.phase ≠ .dock ∧
    (s.ring (.cmd c)).state = .active ∧
    v.toNat < 2 ^ 17 ∧
    v.toNat % 2 ^ 16 < s.ringN (.cmd c) ∧
    posCount (s.ringN (.cmd c)) (s.ring (.cmd c)).head (doorbellPos (s.ringN (.cmd c)) v.toNat) ≤ s.ringN (.cmd c) ∧
    posCount (s.ringN (.cmd c)) (s.ring (.cmd c)).head (s.ring (.cmd c)).tail ≤ posCount (s.ringN (.cmd c)) (s.ring (.cmd c)).head (doorbellPos (s.ringN (.cmd c)) v.toNat) :=
  ⟨2, 0x10000, (wRegs.setRing (.cmd 2) { Ring.at0 with state := .active }), by decide⟩

/-- Obligations.DoorbellsMoveRings, clause 3. -/
theorem witness_DoorbellsMoveRings_3 : ∃ (p : Bool) (v : Word32) (s : State),
    s.haltClosed = false ∧
    s.gcs.phase ≠ .dock ∧
    (s.ring (.event p)).state = .active ∧
    v.toNat < 2 ^ 17 ∧
    v.toNat % 2 ^ 16 < s.ringN (.event p) ∧
    posCount (s.ringN (.event p)) (s.ring (.event p)).head (doorbellPos (s.ringN (.event p)) v.toNat) ≤ posCount (s.ringN (.event p)) (s.ring (.event p)).head (s.ring (.event p)).tail ∧
    (s.ring (.event p)).hold = [] ∧
    (s.ring (.event p)).fullOwed = false ∧
    s.rings.all (fun e => !e.2.evtWait) = true :=
  ⟨false, 3, (wRegs.setRing (.event false) { Ring.at0 with state := .active, tail := 3 }), by decide⟩

/-- Obligations.DoorbellsMoveRings, clause 4. -/
theorem witness_DoorbellsMoveRings_4 : ∃ (n : BitVec 10) (v : Word32) (s : State),
    s.haltClosed = false ∧
    s.gcs.phase ≠ .dock ∧
    (s.ring (.data n)).state ≠ .active :=
  ⟨5, 0, wRegs, by decide⟩

/-- Obligations.DoorbellsMoveRings, clause 5. -/
theorem witness_DoorbellsMoveRings_5 : ∃ (n : BitVec 10) (v : Word32) (s : State),
    s.haltClosed = false ∧
    s.gcs.phase ≠ .dock ∧
    (s.ring (.data n)).state = .active ∧
    2 ^ 17 ≤ v.toNat :=
  ⟨5, 0x20000, (wData { Ring.at0 with state := .active }), by decide⟩

/-- Obligations.RingStates, clause 1. -/
theorem witness_RingStates_1 : ∃ (r : RingId) (s : State),
    s.haltClosed = false ∧
    s.gcs.phase ≠ .dock ∧
    (s.ring r).state = .disabled ∧
    s.enableOk r = true ∧
    s.gcs.surveyKept = false :=
  ⟨(.data 5), wRegs, by decide⟩

/-- Obligations.RingStates, clause 2. -/
theorem witness_RingStates_2 : ∃ (r : RingId) (s : State),
    s.haltClosed = false ∧
    s.gcs.phase ≠ .dock ∧
    (s.ring r).state = .disabled ∧
    s.enableOk r = false :=
  ⟨(.data 6), wRegs, by decide⟩

/-- Obligations.RingStates, clause 3. -/
theorem witness_RingStates_3 : ∃ (n : BitVec 10) (s : State),
    s.haltClosed = false ∧
    s.gcs.phase ≠ .dock ∧
    (((s.ring (.data n)).state = .active ∨ (s.ring (.data n)).state = .faulted)) :=
  ⟨5, (wData { Ring.at0 with state := .faulted }), by decide⟩

/-- Obligations.RingStates, clause 4. -/
theorem witness_RingStates_4 : ∃ (c : BitVec 4) (s : State),
    s.haltClosed = false ∧
    s.gcs.phase ≠ .dock ∧
    (((s.ring (.cmd c)).state = .active ∨ (s.ring (.cmd c)).state = .faulted)) :=
  ⟨2, (wRegs.setRing (.cmd 2) { Ring.at0 with state := .active }), by decide⟩

/-- Obligations.RingStates, clause 5. -/
theorem witness_RingStates_5 : ∃ (p : Bool) (s : State),
    s.haltClosed = false ∧
    s.gcs.phase ≠ .dock ∧
    (s.ring (.event p)).state = .active ∧
    s.portBusy p = false :=
  ⟨false, wRegs, by decide⟩

/-- Obligations.RingStates, clause 6. -/
theorem witness_RingStates_6 : ∃ (n : BitVec 10) (s : State),
    (s.ring (.data n)).state = .disabling ∧
    (s.ring (.data n)).head = (s.ring (.data n)).tail :=
  ⟨5, (wData { Ring.at0 with state := .disabling }), by decide⟩

/-- Obligations.RingStates, clause 7. -/
theorem witness_RingStates_7 : ∃ (s : State),
    s.haltClosed = false ∧
    s.gcs.phase ≠ .dock :=
  ⟨wHost, by decide⟩

/-- Obligations.RingStates, clause 8. -/
theorem witness_RingStates_8 : ∃ (s : State),
    s.gcs.halted = true ∧
    s.gcs.haltClosing = true :=
  ⟨(wRegs.withGcs { wRegs.gcs with halted := true, haltClosing := true }), by decide⟩

/-- Obligations.EntriesAreFetchedAndChecked, clause 1. -/
theorem witness_EntriesAreFetchedAndChecked_1 : ∃ (n : BitVec 10) (s : State),
    (s.ring (.data n)).state = .active ∧
    s.gcs.halted = false ∧
    s.portSilent (s.ringPort (.data n)) = false ∧
    (s.ring (.data n)).inRead = 0 ∧
    (s.ring (.data n)).fetched % (2 * s.ringN (.data n)) ≠ (s.ring (.data n)).tail % (2 * s.ringN (.data n)) ∧
    s.ringReads (s.ringPort (.data n)) < 128 ∧
    s.freeTags (s.ringPort (.data n)) ≠ [] :=
  ⟨5, (wData { Ring.at0 with state := .active, tail := 3 }), by decide⟩

/-- Obligations.EntriesAreFetchedAndChecked, clause 2. -/
theorem witness_EntriesAreFetchedAndChecked_2 : ∃ (n : BitVec 10) (b : Bytes) (h : HostRead) (s : State),
    s.entryRead (.data n) = some h ∧
    h.dead = false ∧
    (s.ring (.data n)).inRead = 1 ∧
    (s.ring (.data n)).state = .active ∧
    b.length = 64 ∧
    malformed (s.ringN (.data n)) b (descOf (s.ring (.data n)).fetched b) = none :=
  ⟨5, (wEntry 5), (wRead (.ring (.data 5))), (wFetching { Ring.at0 with state := .active, tail := 1, inRead := 1 } (wRead (.ring (.data 5)))), by decide⟩

/-- Obligations.EntriesAreFetchedAndChecked, clause 3. -/
theorem witness_EntriesAreFetchedAndChecked_3 : ∃ (n : BitVec 10) (b : Bytes) (h : HostRead) (reason : Byte) (s : State),
    s.entryRead (.data n) = some h ∧
    h.dead = false ∧
    (s.ring (.data n)).inRead = 1 ∧
    (s.ring (.data n)).state = .active ∧
    b.length = 64 ∧
    malformed (s.ringN (.data n)) b (descOf (s.ring (.data n)).fetched b) = some reason :=
  ⟨5, (wEntry 0), (wRead (.ring (.data 5))), 3, (wFetching { Ring.at0 with state := .active, tail := 1, inRead := 1 } (wRead (.ring (.data 5)))), by decide⟩

/-- Obligations.EntriesAreFetchedAndChecked, clause 4. -/
theorem witness_EntriesAreFetchedAndChecked_4 : ∃ (r : RingId) (h : HostRead) (s : State),
    s.entryRead r = some h ∧
    h.dead = false ∧
    (s.ring r).inRead ≠ 0 ∧
    (s.ring r).state = .active ∧
    (s.ring r).retried = true :=
  ⟨(.data 5), (wRead (.ring (.data 5))), (wFetching { Ring.at0 with state := .active, tail := 1, inRead := 1, retried := true } (wRead (.ring (.data 5)))), by decide⟩

/-- Obligations.EntriesAreFetchedAndChecked, clause 5. -/
theorem witness_EntriesAreFetchedAndChecked_5 : ∃ (r : RingId) (h : HostRead) (s : State),
    s.entryRead r = some h ∧
    h.dead = true :=
  ⟨(.data 5), ({ wRead (.ring (.data 5)) with dead := true }), (wFetching { Ring.at0 with state := .active, tail := 1, inRead := 1, retried := true } { wRead (.ring (.data 5)) with dead := true }), by decide⟩

/-- Obligations.EntriesAreFetchedAndChecked, clause 6. -/
theorem witness_EntriesAreFetchedAndChecked_6 : ∃ (r : RingId) (h : HostRead) (s : State),
    s.entryRead r = some h ∧
    h.dead = false ∧
    (s.ring r).inRead ≠ 0 ∧
    (s.ring r).state = .active ∧
    (s.ring r).retried = true :=
  ⟨(.data 5), (wRead (.ring (.data 5))), (wFetching { Ring.at0 with state := .active, tail := 1, inRead := 1, retried := true } (wRead (.ring (.data 5)))), by decide⟩

/-- Obligations.MessagesLeaveWhenUnmasked, clause 1. -/
theorem witness_MessagesLeaveWhenUnmasked_1 : ∃ (r : RingId) (s : State),
    (s.ring r).unsignalled ≠ 0 ∧
    bitOf (s.ringCfg r) 31 = true ∧
    (s.hpu (s.ringPort r)).cfg.msixEnable = true ∧
    (s.hpu (s.ringPort r)).cfg.functionMask = false ∧
    s.portSilent (s.ringPort r) = false ∧
    (s.msixEntry (s.ringPort r) (bitsOf (s.ringCfg r) 16 11)).masked = false :=
  ⟨(.data 5), ((wMsix 0 { MsixEntry.at0 with masked := false } []).setRegN (ringCtx (.data 5) + 0x10) (8 + 2 ^ 31)).setRing (.data 5) { Ring.at0 with state := .active, unsignalled := 1 }, by decide⟩

/-- Obligations.MessagesLeaveWhenUnmasked, clause 2. -/
theorem witness_MessagesLeaveWhenUnmasked_2 : ∃ (p : Bool) (v : BitVec 11) (s : State),
    s.haltClosed = false ∧
    s.gcs.phase ≠ .dock ∧
    (s.hpu p).cfg.msixEnable = true ∧
    (s.hpu p).cfg.functionMask = false ∧
    (s.hpu p).contained = false ∧
    (s.hpu p).d3hot = false ∧
    (s.hpu p).pendingBits = [v.toNat] :=
  ⟨false, 2047, (wMsix 2047 MsixEntry.at0 [2047]), by decide⟩

/-- Obligations.DescriptorsAreAdmitted, clause 1. -/
theorem witness_DescriptorsAreAdmitted_1 : ∃ (n : BitVec 10) (sgl : SglFetch) (d : Desc) (s : State),
    s.frontDesc n = some d ∧
    s.gcs.phase = .running ∧
    d.opcode = 1 ∧
    s.turn n = true ∧
    s.partnerOwns d = false ∧
    s.admitCheck d sgl = none ∧
    sglUnreadable sgl = none ∧
    (s.stripesOf d).all (fun t => !(s.set d.set.toNat).resyncing t) = true ∧
    (s.set (d.set.toNat % 64)).paritySeal = false :=
  ⟨5, .notNeeded, (wDesc 1 0), (wFront (wDesc 1 0)), by decide⟩

/-- Obligations.DescriptorsAreAdmitted, clause 2. -/
theorem witness_DescriptorsAreAdmitted_2 : ∃ (n : BitVec 10) (sgl : SglFetch) (d : Desc) (s : State),
    s.frontDesc n = some d ∧
    s.gcs.phase = .running ∧
    d.opcode = 2 ∧
    s.turn n = true ∧
    s.partnerOwns d = false ∧
    s.admitCheck d sgl = none ∧
    sglUnreadable sgl = none ∧
    s.writeMustWait d = false ∧
    (s.partsOf (s.set (d.set.toNat % 64)) d.lbas).all (fun p => !s.partLost (BitVec.ofNat 6 d.set.toNat) (s.set (d.set.toNat % 64)) p) = true :=
  ⟨5, .notNeeded, (wDesc 2 0), (wFront (wDesc 2 0)), by decide⟩

/-- Obligations.DescriptorsAreAdmitted, clause 3. -/
theorem witness_DescriptorsAreAdmitted_3 : ∃ (n : BitVec 10) (d : Desc) (s : State),
    s.frontDesc n = some d ∧
    s.gcs.phase = .running ∧
    d.opcode = 3 ∧
    s.turn n = true ∧
    ((∀ r ∈ s.log.recs, r.io ≠ some s.nextId)) ∧
    s.partnerOwns d = false ∧
    s.admitCheck d .notNeeded = none ∧
    s.writeMustWait d = false ∧
    (s.partsOf (s.set (d.set.toNat % 64)) d.lbas).all (fun p => !s.partLost (BitVec.ofNat 6 d.set.toNat) (s.set (d.set.toNat % 64)) p) = true :=
  ⟨5, (wDesc 3 0), (wFront (wDesc 3 0)), by decide⟩

/-- Obligations.DescriptorsAreAdmitted, clause 4. -/
theorem witness_DescriptorsAreAdmitted_4 : ∃ (n : BitVec 10) (det : Byte) (d : Desc) (s : State),
    s.frontDesc n = some d ∧
    d.opcode = 1 ∧
    s.turn n = true ∧
    s.partnerOwns d = false ∧
    s.admitCheck d (.unreadable det) = none :=
  ⟨5, 6, (wDesc 1 0), (wFront (wDesc 1 0)), by decide⟩

/-- Obligations.DescriptorsAreAdmitted, clause 5. -/
theorem witness_DescriptorsAreAdmitted_5 : ∃ (n : BitVec 10) (sgl : SglFetch) (i : Nat) (s : State),
    (s.ring (.data n)).state ≠ .active ∧
    (s.ring (.data n)).state ≠ .faulted :=
  ⟨5, .notNeeded, 24575, (wData Ring.at0), by decide⟩

/-- Obligations.DescriptorsAreAdmitted, clause 6. -/
theorem witness_DescriptorsAreAdmitted_6 : ∃ (n : BitVec 10) (sgl : SglFetch) (i : Nat) (s : State),
    (s.ring (.data n)).state ≠ .active ∧
    (s.ring (.data n)).state ≠ .faulted ∧
    (s.line i).state = .clean :=
  ⟨5, .notNeeded, 24575, ({ (wData Ring.at0) with scc := { wSets.scc with lines := [(24575, wLine)] } }), by decide⟩

/-- Obligations.DescriptorsAreAdmitted, clause 7. -/
theorem witness_DescriptorsAreAdmitted_7 : ∃ (n : BitVec 10) (io : Io) (s : State),
    s.ios.find? (fun j => j.ring = n && !j.lined && !j.away && (j.kind = .writeZeroes || j.kind = .write)) = some io ∧
    (s.lineWrite io).2 = true ∧
    ((∀ r ∈ s.log.recs, r.io = some io.id → r.typ ≠ .intent)) :=
  ⟨5, (wIo .writeZeroes), wWrite, by decide +kernel⟩

/-- Obligations.DescriptorsAreAdmitted, clause 8. -/
theorem witness_DescriptorsAreAdmitted_8 : ∃ (n : BitVec 10) (io : Io) (s : State),
    s.ios.find? (fun j => j.ring = n && !j.lined && !j.away && (j.kind = .writeZeroes || j.kind = .write)) = some io ∧
    (s.lineWrite io).2 = false :=
  ⟨5, (wIo .write), wNoWay, by decide +kernel⟩

/-- Obligations.EntriesEndInOrder, clause 1. -/
theorem witness_EntriesEndInOrder_1 : ∃ (n : BitVec 10) (d : Desc) (s : State),
    s.frontDesc n = some d ∧
    s.gcs.phase = .running ∧
    d.opcode = 5 ∧
    s.turn n = true ∧
    d.flags.getLsbD 2 = false ∧
    (s.ring (.data n)).head = d.pos ∧
    (s.ring (.data n)).ended = [] :=
  ⟨5, (wNop 0), (wFront (wNop 0)), by decide⟩

/-- Obligations.EntriesEndInOrder, clause 2. -/
theorem witness_EntriesEndInOrder_2 : ∃ (n : BitVec 10) (d : Desc) (s : State),
    s.frontDesc n = some d ∧
    s.gcs.phase = .running ∧
    d.opcode = 5 ∧
    s.turn n = true ∧
    d.flags.getLsbD 2 = true ∧
    (s.ring (.data n)).head = d.pos ∧
    (s.ring (.data n)).ended = [] ∧
    (s.ring (.event (s.ringPort (.data n)))).state = .active ∧
    s.canWrite (s.ringPort (.data n)) = true :=
  ⟨5, (wNop 4), (wFront (wNop 4)), by decide⟩

/-- Obligations.EntriesEndInOrder, clause 3. -/
theorem witness_EntriesEndInOrder_3 : ∃ (n : BitVec 10) (d : Desc) (s : State),
    s.frontDesc n = some d ∧
    s.gcs.phase = .running ∧
    d.opcode = 4 ∧
    s.turn n = true ∧
    s.partnerOwns d = false ∧
    s.admitCheck d .notNeeded = none ∧
    (s.stripesOf d).all (fun t => !(s.set d.set.toNat).resyncing t) = true ∧
    s.verifyBlocks (BitVec.ofNat 6 d.set.toNat) d = [] ∧
    d.flags.getLsbD 2 = false ∧
    (s.ring (.data n)).head = d.pos ∧
    (s.ring (.data n)).ended = [] ∧
    ((∀ j ∈ s.ios, j.id ≠ s.nextId)) :=
  ⟨5, (wDesc 4 0), (wFront (wDesc 4 0)).withLog { Log.at0 with recs := [wOpen], nextSeq := 2, walked := true }, by decide⟩

/-- Obligations.HoldIsEnteredAndLeft, clause 1. -/
theorem witness_HoldIsEnteredAndLeft_1 : ∃ (s : State),
    s.mon.hold = .normal :=
  ⟨wHost, by decide⟩

/-- Obligations.HoldIsEnteredAndLeft, clause 2. -/
theorem witness_HoldIsEnteredAndLeft_2 : ∃ (mv : List Nat) (high : Bool) (r : Nat) (s : State),
    s.mon.hold = .normal ∧
    r < 7 ∧
    mv.getD r 0 < s.railLow r ∧
    ((∀ q, q < r → s.railLow q ≤ mv.getD q 0)) :=
  ⟨(wRails wHost).set 6 1151, true, 6, wHost, by decide⟩

/-- Obligations.HoldIsEnteredAndLeft, clause 3. -/
theorem witness_HoldIsEnteredAndLeft_3 : ∃ (tj : List (Option Int)) (banks : List (Option Int)) (i : Nat) (c : Int) (s : State),
    s.mon.thermtrip = false ∧
    i < 8 ∧
    tj[i]? = some (some c) ∧
    115 < c ∧
    c ≤ 150 :=
  ⟨([some 116]), [], 0, 116, wHost, by decide⟩

/-- Obligations.HoldIsEnteredAndLeft, clause 4. -/
theorem witness_HoldIsEnteredAndLeft_4 : ∃ (mv : List Nat) (s : State),
    s.mon.hold = .hold ∧
    s.mon.thermtrip = false ∧
    ((∀ r, r < 7 → s.railLow r + s.railHyst r ≤ mv.getD r 0 ∧ mv.getD r 0 ≤ s.railHigh r)) :=
  ⟨(wRails wHost), (wHold .hold), by decide⟩

/-- Obligations.HoldIsEnteredAndLeft, clause 5. -/
theorem witness_HoldIsEnteredAndLeft_5 : ∃ (mv : List Nat) (s : State),
    ((s.mon.hold = .qualify ∨ s.mon.hold = .wait)) ∧
    ((∀ r, r < 7 → s.railLow r ≤ mv.getD r 0 ∧ mv.getD r 0 ≤ s.railHigh r)) :=
  ⟨(wRails wHost), (wHold .wait), by decide⟩

/-- Obligations.HoldIsEnteredAndLeft, clause 6. -/
theorem witness_HoldIsEnteredAndLeft_6 : ∃ (s : State),
    s.mon.hold = .qualify ∧
    s.regBit Reg.gcsHold 0 = false ∧
    s.interp.deferred = [] :=
  ⟨(wHold .qualify), by decide⟩

/-- Obligations.HoldIsEnteredAndLeft, clause 7. -/
theorem witness_HoldIsEnteredAndLeft_7 : ∃ (s : State),
    s.mon.hold = .qualify ∧
    s.regBit Reg.gcsHold 0 = true ∧
    s.mon.resumeSet = false :=
  ⟨(wHold .qualify).setRegN Reg.gcsHold 1, by decide⟩

/-- Obligations.HoldIsEnteredAndLeft, clause 8. -/
theorem witness_HoldIsEnteredAndLeft_8 : ∃ (s : State),
    s.haltClosed = false ∧
    s.gcs.phase ≠ .dock ∧
    s.mon.hold = .wait ∧
    s.interp.deferred = [] :=
  ⟨(wHold .wait), by decide⟩

/-- Obligations.HoldIsEnteredAndLeft, clause 9. -/
theorem witness_HoldIsEnteredAndLeft_9 : ∃ (s : State),
    s.haltClosed = false ∧
    s.gcs.phase ≠ .dock ∧
    ((s.mon.hold = .hold ∨ s.mon.hold = .qualify)) :=
  ⟨(wHold .hold), by decide⟩

/-- Obligations.SensorsAndDecayFloor, clause 1. -/
theorem witness_SensorsAndDecayFloor_1 : ∃ (tj : List Int) (s : State),
    tj.length = 8 ∧
    ((∀ c ∈ tj, -40 ≤ c ∧ c ≤ (s.regField Reg.monTj 8 8 : Int) ∧ c ≤ 115)) :=
  ⟨([100, -40, 0, 0, 0, 0, 0, 0]), wHost, by decide⟩

/-- Obligations.SensorsAndDecayFloor, clause 2. -/
theorem witness_SensorsAndDecayFloor_2 : ∃ (c : Int) (s : State),
    (s.regField Reg.monTj 8 8 : Int) < c ∧
    -40 ≤ c ∧
    c ≤ 115 ∧
    s.mon.tjOver = false :=
  ⟨101, wHost, by decide⟩

/-- Obligations.SensorsAndDecayFloor, clause 3. -/
theorem witness_SensorsAndDecayFloor_3 : ∃ (rail : BitVec 3) (s : State),
    (rail = 2 ∨ rail = 3) :=
  ⟨3, wHost, by decide⟩

/-- Obligations.FixEdgesAndTimeOfDay, clause 1. -/
theorem witness_FixEdgesAndTimeOfDay_1 : ∃ (interval : Nat) (lead : Int) (jit : Nat) (s : State),
    s.regBit Reg.wchCtl 0 = true ∧
    ((s.wch.timer = .locked ∨ s.wch.timer = .slewing)) ∧
    ((interval + 1000 < 1000000000 ∨ 1000001000 < interval)) ∧
    s.wch.rejectedRun < 2 :=
  ⟨999998999, 0, 0, (wWch { Wch.at0 with timer := .locked, fixNs := 5000000 }), by decide⟩

/-- Obligations.FixEdgesAndTimeOfDay, clause 2. -/
theorem witness_FixEdgesAndTimeOfDay_2 : ∃ (interval : Nat) (lead : Int) (jit : Nat) (s : State),
    s.regBit Reg.wchCtl 0 = true ∧
    s.wch.tod = none ∧
    ((s.wch.timer = .acquiring ∨ s.wch.timer = .holdover)) ∧
    s.wch.edgeAnchored = true ∧
    3 ≤ s.wch.consecutive ∧
    999900000 ≤ interval ∧
    interval ≤ 1000100000 ∧
    s.wch.rejectedRun < 3 ∧
    lead ≤ 100 ∧
    s.wch.fixNs.toNat + (-lead).toNat < 2 ^ 64 :=
  ⟨999900000, 100, 0, (wWch { Wch.at0 with timer := .holdover, fixNs := 5000000, edgeAnchored := true, consecutive := 3 }), by decide⟩

/-- Obligations.FixEdgesAndTimeOfDay, clause 3. -/
theorem witness_FixEdgesAndTimeOfDay_3 : ∃ (interval : Nat) (lead : Int) (jit : Nat) (s : State),
    s.regBit Reg.wchCtl 0 = true ∧
    s.wch.tod = none ∧
    ((s.wch.timer = .acquiring ∨ s.wch.timer = .holdover)) ∧
    s.wch.edgeAnchored = true ∧
    3 ≤ s.wch.consecutive ∧
    999900000 ≤ interval ∧
    interval ≤ 1000100000 ∧
    s.wch.rejectedRun < 3 ∧
    100 < lead :=
  ⟨1000100000, 101, 0, (wWch { Wch.at0 with timer := .acquiring, fixNs := 5000000, edgeAnchored := true, consecutive := 3 }), by decide⟩

/-- Obligations.FixEdgesAndTimeOfDay, clause 4. -/
theorem witness_FixEdgesAndTimeOfDay_4 : ∃ (interval : Nat) (lead : Int) (jit : Nat) (s : State),
    s.regBit Reg.wchCtl 0 = true ∧
    s.wch.tod = none ∧
    s.wch.timer = .slewing ∧
    999999000 ≤ interval ∧
    interval ≤ 1000001000 ∧
    -100 ≤ lead ∧
    lead ≤ 100 :=
  ⟨999999000, -100, 0, (wWch { Wch.at0 with timer := .slewing, fixNs := 5000000 }), by decide⟩

/-- Obligations.FixEdgesAndTimeOfDay, clause 5. -/
theorem witness_FixEdgesAndTimeOfDay_5 : ∃ (s : State),
    (s.wch.timer = .locked ∨ s.wch.timer = .acquiring ∨ s.wch.timer = .slewing) :=
  ⟨(wWch { Wch.at0 with timer := .locked, fixNs := 5000000 }), by decide⟩

/-- Obligations.FixEdgesAndTimeOfDay, clause 6. -/
theorem witness_FixEdgesAndTimeOfDay_6 : ∃ (interval : Nat) (lead : Int) (jit : Nat) (s : State),
    s.regBit Reg.wchCtl 0 = true ∧
    ((s.wch.timer = .locked ∨ s.wch.timer = .slewing)) ∧
    ((interval + 1000 < 1000000000 ∨ 1000001000 < interval)) ∧
    s.wch.rejectedRun = 2 :=
  ⟨999998999, 0, 0, (wWch { Wch.at0 with timer := .locked, fixNs := 5000000, rejectedRun := 2 }), by decide⟩

/-- Obligations.FixEdgesAndTimeOfDay, clause 7. -/
theorem witness_FixEdgesAndTimeOfDay_7 : ∃ (v : Word64) (interval : Nat) (lead : Int) (jit : Nat) (s : State),
    s.regBit Reg.wchCtl 0 = true ∧
    s.wch.tod = some v ∧
    s.wch.todSrc = none ∧
    s.wch.timer = .unset ∧
    s.wch.edgeAnchored = false ∧
    s.wch.todArrival.toNat + 10000 ≤ s.wch.fixNs.toNat ∧
    s.wch.fixNs.toNat ≤ v.toNat :=
  ⟨5000000, 0, 0, 0, (wWch { Wch.at0 with fixNs := 5000000, tod := some 5000000, todArrival := 4990000 }), by decide⟩

/-- Obligations.FixEdgesAndTimeOfDay, clause 8. -/
theorem witness_FixEdgesAndTimeOfDay_8 : ∃ (v : Word64) (lead : Int) (jit : Nat) (s : State),
    s.regBit Reg.wchCtl 0 = true ∧
    s.wch.tod = some v ∧
    s.wch.todSrc = none ∧
    s.wch.timer = .locked ∧
    s.wch.todArrival.toNat + 10000 ≤ s.wch.fixNs.toNat ∧
    v.toNat < s.wch.fixNs.toNat ∧
    s.wch.fixNs.toNat ≤ v.toNat + 1000000000 :=
  ⟨4000000000, 0, 0, (wWch { Wch.at0 with timer := .locked, fixNs := 5000000000, tod := some 4000000000 }), by decide⟩

/-- Obligations.FixEdgesAndTimeOfDay, clause 9. -/
theorem witness_FixEdgesAndTimeOfDay_9 : ∃ (v : Word64) (lead : Int) (jit : Nat) (s : State),
    s.regBit Reg.wchCtl 0 = true ∧
    s.wch.tod = some v ∧
    s.wch.todSrc = none ∧
    s.wch.timer = .locked ∧
    s.wch.todArrival.toNat + 10000 ≤ s.wch.fixNs.toNat ∧
    v.toNat + 1000000000 < s.wch.fixNs.toNat :=
  ⟨3999999999, 0, 0, (wWch { Wch.at0 with timer := .locked, fixNs := 5000000000, tod := some 3999999999 }), by decide⟩

/-- Obligations.FixEdgesAndTimeOfDay, clause 10. -/
theorem witness_FixEdgesAndTimeOfDay_10 : ∃ (s : State),
    s.wch.tod ≠ none ∧
    s.wch.todSrc = none :=
  ⟨(wWch { Wch.at0 with fixNs := 5000000, tod := some 7 }), by decide⟩

/-- Obligations.HoldoverAndWatches, clause 1. -/
theorem witness_HoldoverAndWatches_1 : ∃ (s : State),
    s.wch.timer = .holdover ∧
    s.wch.holdBase + (s.wch.holdS + 1) * s.wch.holdRate + (s.wch.gapTenths + 9999) / 10000 < s.wch.length :=
  ⟨(wWch { Wch.at0 with timer := .holdover, fixNs := 5000000, holdBase := 0, holdRate := 499999, holdS := 1 }), by decide⟩

/-- Obligations.HoldoverAndWatches, clause 2. -/
theorem witness_HoldoverAndWatches_2 : ∃ (s : State),
    s.wch.timer = .holdover ∧
    s.wch.beyond = false ∧
    s.wch.length ≤ s.wch.holdBase + (s.wch.holdS + 1) * s.wch.holdRate + (s.wch.gapTenths + 9999) / 10000 :=
  ⟨(wWch { Wch.at0 with timer := .holdover, fixNs := 5000000, holdBase := 0, holdRate := 500000, holdS := 1 }), by decide⟩

/-- Obligations.HoldoverAndWatches, clause 3. -/
theorem witness_HoldoverAndWatches_3 : ∃ (s : State),
    0 < s.watch.toNat ∧
    s.wch.closed.toNat < s.watch.toNat - 1 :=
  ⟨(wWch { Wch.at0 with fixNs := 5000000, closed := 3 }), by decide⟩

/-- Obligations.HoldoverAndWatches, clause 4. -/
theorem witness_HoldoverAndWatches_4 : ∃ (s : State),
    s.pair.state = .single ∧
    s.wch.sealedWatch.toNat < s.wch.closed.toNat ∧
    s.log.recs.all (fun r => !sealedDataOf s.wch.closed.toNat r) = true :=
  ⟨(wWch { Wch.at0 with fixNs := 5000000, closed := 4, sealedWatch := 3 }), by decide⟩

/-- Obligations.HoldoverAndWatches, clause 5. -/
theorem witness_HoldoverAndWatches_5 : ∃ (seq : Word64) (r : Rec) (io : Io) (s : State),
    s.findRec seq.toNat = some r ∧
    r.status = .writing ∧
    sealedDataOf s.wch.closed.toNat r = true ∧
    s.ios.find? (fun j => r.io = some j.id) = some io ∧
    io.fwd = false :=
  ⟨1, ({ wRec .data with sealedAck := true, io := some 1 }), (wIo .write), ({ (wLog { wRec .data with sealedAck := true, io := some 1 }) with ios := [wIo .write], wch := { Wch.at0 with fixNs := 5000000, closed := 4 } }), by decide⟩

/-- Obligations.HoldoverAndWatches, clause 6. -/
theorem witness_HoldoverAndWatches_6 : ∃ (s : State) (len : Nat) (f : Word64),
    s.wch.nextLength = some (len, f) ∧
    f.toNat ≤ s.wch.fixNs.toNat :=
  ⟨(wWch { Wch.at0 with fixNs := 6000000, nextLength := some (500000, 6000000) }), 500000, 6000000, by decide⟩

/-- Obligations.HoldoverAndWatches, clause 7. -/
theorem witness_HoldoverAndWatches_7 : ∃ (set : BitVec 6) (n : BitVec 10) (d : Desc) (rest : List Desc) (s : State),
    (s.set set.toNat).genWatch = s.watch ∧
    s.maxGeneration < (s.set set.toNat).generation ∧
    (s.ring (.data n)).queue = d :: rest ∧
    d.set.toNat = set.toNat ∧
    (d.opcode = 2 ∨ d.opcode = 3) :=
  ⟨0, 5, (wDesc 2 0), [], (wFront (wDesc 2 0)).setSet 0 { wSet with genWatch := 5, generation := 2 ^ 32 }, by decide⟩

/-- Obligations.HoldoverAndWatches, clause 8. -/
theorem witness_HoldoverAndWatches_8 : ∃ (s : State) (len : Nat) (f : Word64),
    s.wch.nextLength = some (len, f) ∧
    s.wch.fixNs.toNat < f.toNat :=
  ⟨(wWch { Wch.at0 with fixNs := 5999999, nextLength := some (500000, 6000000) }), 500000, 6000000, by decide⟩

/-- Obligations.RecordsCommit, clause 1. -/
theorem witness_RecordsCommit_1 : ∃ (seq : Word64) (r : Rec) (s : State),
    s.findRec seq.toNat = some r ∧
    r.status = .writing ∧
    s.rowOrderHeld r = false ∧
    r.filled = true ∧
    s.scc.asks = [] ∧
    s.gcs.writeDrivers = true ∧
    s.pair.state ≠ .paired ∧
    r.typ = .data ∧
    ((∀ io ∈ s.ios, r.seq ∉ io.waitWrites)) :=
  ⟨1, (wRec .data), (wLog (wRec .data)), by decide⟩

/-- Obligations.RecordsCommit, clause 2. -/
theorem witness_RecordsCommit_2 : ∃ (seq : Word64) (r : Rec) (v : Life) (s : State),
    s.findRec seq.toNat = some r ∧
    r.status = .writing ∧
    r.filled = true ∧
    s.gcs.writeDrivers = true ∧
    s.pair.state ≠ .paired ∧
    r.typ = .life ∧
    s.log.lives.find? (fun w => w.seq = r.seq) = some v ∧
    s.log.life.seq < r.seq :=
  ⟨1, (wRec .life), ({ Life.at0 with seq := 1, powerOnS := 3 }), (wLog (wRec .life)).withLog { (wLog (wRec .life)).log with lives := [{ Life.at0 with seq := 1, powerOnS := 3 }] }, by decide⟩

/-- Obligations.RecordsCommit, clause 3. -/
theorem witness_RecordsCommit_3 : ∃ (seq : Word64) (r : Rec) (s : State),
    s.findRec seq.toNat = some r ∧
    r.status = .writing ∧
    s.rowOrderHeld r = false ∧
    r.filled = true ∧
    s.gcs.writeDrivers = true ∧
    s.pair.state = .paired ∧
    r.partner = false :=
  ⟨1, (wRec .data), ({ (wLog (wRec .data)) with pair := { Pair.at0 with state := .paired } }), by decide⟩

/-- Obligations.RecordsCommit, clause 4. -/
theorem witness_RecordsCommit_4 : ∃ (s : State),
    s.haltClosed = false ∧
    s.gcs.phase ≠ .dock :=
  ⟨wHost, by decide⟩

/-- Obligations.RecordsCommit, clause 5. -/
theorem witness_RecordsCommit_5 : ∃ (s : State),
    s.gcs.phase ≠ .dock ∧
    s.scc.asks = [] :=
  ⟨wHost, by decide⟩

/-- Obligations.RecordsCommit, clause 6. -/
theorem witness_RecordsCommit_6 : ∃ (s : State),
    s.gcs.phase = .dock :=
  ⟨wDock, by decide⟩

/-- Obligations.RecordsMoveOn, clause 1. -/
theorem witness_RecordsMoveOn_1 : ∃ (rs : List Rec) (r : Rec) (s : State),
    ((s.log.paced = true ∨ s.log.full = true)) ∧
    s.scc.asks = [] ∧
    s.log.relocatable = some rs ∧
    r ∈ rs :=
  ⟨([{ wRec .data with status := .committed }]), ({ wRec .data with status := .committed }), (wLog (wRec .data)).withLog { Log.at0 with paced := true, nextSeq := 3, recs := [{ wRec .data with status := .committed }, { wRec .data with seq := 2, status := .committed, retired := true }] }, by decide⟩

/-- Obligations.RecordsMoveOn, clause 2. -/
theorem witness_RecordsMoveOn_2 : ∃ (set : BitVec 6) (stripe : BitVec 48) (row : Nat) (q : RowPlan) (s : State),
    s.inHold = false ∧
    s.scc.asks = [] ∧
    (s.set set.toNat).state = .running ∧
    row < (s.set set.toNat).s ∧
    s.rowPlan set stripe.toNat row = some q ∧
    ((∀ r ∈ s.log.recs, r.sealedAck = false)) :=
  ⟨0, 0, 0, ((wLog wOpen).rowPlan 0 0 0).get (by decide +kernel), (wLog wOpen), rfl, rfl, rfl, by decide, (Option.some_get _).symm, by decide⟩

/-- Obligations.BanksFailAndResilver, clause 1. -/
theorem witness_BanksFailAndResilver_1 : ∃ (bank : BitVec 5) (b : BitVec 5) (p : Nat) (s : State),
    s.bankLive bank = true ∧
    s.log.spare = some b ∧
    b ≠ bank ∧
    s.pairOfBank bank = some p ∧
    p < s.log.pairs.length ∧
    (s.pairRole p).single = false ∧
    s.mon.run = none :=
  ⟨1, 16, 0, wSets, by decide⟩

/-- Obligations.BanksFailAndResilver, clause 2. -/
theorem witness_BanksFailAndResilver_2 : ∃ (bank : BitVec 5) (p : Nat) (s : State),
    s.bankLive bank = true ∧
    s.log.spare = none ∧
    s.pairOfBank bank = some p ∧
    p < s.log.pairs.length ∧
    (s.pairRole p).single = false ∧
    s.mon.run = none :=
  ⟨1, 0, (wSets.withLog { Log.at0 with spare := none }), by decide⟩

/-- Obligations.BanksFailAndResilver, clause 3. -/
theorem witness_BanksFailAndResilver_3 : ∃ (bank : BitVec 5) (p : Nat) (s : State),
    s.bankLive bank = true ∧
    s.log.spare ≠ some bank ∧
    s.pairOfBank bank = some p ∧
    (s.pairRole p).single = true :=
  ⟨0, 0, (wSets.withLog { Log.at0 with spare := none, pairs := [{ copyA := 0, copyB := 1, single := true, resilvering := false, target := 0 }] }), by decide⟩

/-- Obligations.BanksFailAndResilver, clause 4. -/
theorem witness_BanksFailAndResilver_4 : ∃ (pair : BitVec 3) (s : State),
    (s.pairRole pair.toNat).resilvering = true ∧
    pair.toNat < s.log.pairs.length :=
  ⟨0, (wSets.withLog { Log.at0 with pairs := [{ copyA := 0, copyB := 1, single := false, resilvering := true, target := 1 }] }), by decide⟩

/-- Obligations.BanksFailAndResilver, clause 6. -/
theorem witness_BanksFailAndResilver_6 : ∃ (b : BitVec 5) (s : State),
    s.bankLive b = true :=
  ⟨16, wSets, by decide⟩

/-- Obligations.BanksFailAndResilver, clause 7. -/
theorem witness_BanksFailAndResilver_7 : ∃ (b : BitVec 5) (s : State),
    s.bankLive b = true :=
  ⟨16, wSets, by decide⟩

/-- Obligations.BanksFailAndResilver, clause 8. -/
theorem witness_BanksFailAndResilver_8 : ∃ (b : BitVec 5) (p : Nat) (n : Nat) (s : State),
    s.bankLive b = true ∧
    s.log.spare = none ∧
    s.pairOfBank b = some p ∧
    p < s.log.pairs.length ∧
    (s.pairRole p).single = false ∧
    s.mon.run = none ∧
    16 < n :=
  ⟨1, 0, 17, (wSets.withLog { Log.at0 with spare := none }), by decide⟩

/-- Obligations.CalibrationRuns, clause 1. -/
theorem witness_CalibrationRuns_1 : ∃ (calref : Nat) (temps : List (Option Int)) (n : BitVec 5) (c : Int) (s : State),
    calrefGood calref = true ∧
    s.mon.calrefOk = true ∧
    s.regBit Reg.calCtl 0 = true ∧
    s.bankLive n = true ∧
    (s.bank n).barred = false ∧
    (s.bank n).ran = true ∧
    temps[n.toNat]? = some (some c) ∧
    -40 ≤ c ∧
    c ≤ 150 ∧
    (s.regField Reg.calTrig 0 8 : Int) < c - (s.bank n).tempC :=
  ⟨120000, ([some 9]), 0, 9, ({ wSets with mon := { Mon.at0 with calrefOk := true, banks := [(0, { BankCal.at0 with ran := true })] } }), by decide⟩

/-- Obligations.CalibrationRuns, clause 2. -/
theorem witness_CalibrationRuns_2 : ∃ (calref : Nat) (s : State),
    calref < 117000 ∧
    s.mon.calrefOk = true ∧
    s.mon.run = none :=
  ⟨116999, ({ wSets with mon := { Mon.at0 with calrefOk := true } }), by decide⟩

/-- Obligations.CalibrationRuns, clause 3. -/
theorem witness_CalibrationRuns_3 : ∃ (bank : BitVec 5) (s : State),
    s.regBit Reg.calCtl 0 = true ∧
    s.bankLive bank = true ∧
    (s.bank bank).barred = false :=
  ⟨0, wSets, by decide⟩

/-- Obligations.CalibrationRuns, clause 5. -/
theorem witness_CalibrationRuns_5 : ∃ (b : BitVec 5) (n : BitVec 5) (s : State),
    s.mon.run = none ∧
    s.inHold = false ∧
    s.gcs.phase ≠ .dock ∧
    s.log.spare = some b ∧
    s.nextCalBank = some (n, none) ∧
    s.bankLive n = true ∧
    n ≠ b :=
  ⟨16, 0, ({ wSets with mon := { Mon.at0 with banks := [(0, { BankCal.at0 with due := true })] } }), by decide⟩

/-- Obligations.CalibrationRuns, clause 6. -/
theorem witness_CalibrationRuns_6 : ∃ (c : CalRun) (b : BitVec 5) (p : Nat) (s : State),
    s.mon.run = some c ∧
    c.phase = .copy ∧
    c.spare = some b ∧
    s.pairOfBank c.bank = some p ∧
    p < s.log.pairs.length :=
  ⟨(wRun .copy (some 16)), 16, 0, (wCal (wRun .copy (some 16))), by decide⟩

/-- Obligations.CalibrationRuns, clause 7. -/
theorem witness_CalibrationRuns_7 : ∃ (r0 : Nat) (r1 : Nat) (w : Sweep) (c : CalRun) (s : State),
    s.mon.run = some c ∧
    c.phase = .sweep ∧
    c.src = none ∧
    s.mon.calrefOk = true ∧
    calrefGood r0 = true ∧
    calrefGood r1 = true ∧
    sweepReason w r0 r1 (s.bank c.bank).sel 6 = none ∧
    ((∀ p, p < Config.pairs s.part → (s.pairRole p).single = false)) :=
  ⟨120000, 120000, ({ wSweep with q0 := 5, q1 := 5, q2 := 5, q3 := 5 }), (wRun .sweep none), (wCal (wRun .sweep none)), by decide⟩

/-- Obligations.CalibrationRuns, clause 8. -/
theorem witness_CalibrationRuns_8 : ∃ (r0 : Nat) (r1 : Nat) (w : Sweep) (c : CalRun) (r : Byte) (s : State),
    s.mon.run = some c ∧
    c.phase = .sweep ∧
    c.src = none ∧
    s.mon.calrefOk = true ∧
    calrefGood r0 = true ∧
    calrefGood r1 = true ∧
    sweepReason w r0 r1 (s.bank c.bank).sel 6 = some r ∧
    ((∀ p, p < Config.pairs s.part → (s.pairRole p).single = false)) :=
  ⟨120000, 120000, wSweep, (wRun .sweep none), 3, (wCal (wRun .sweep none)), by decide⟩

/-- Obligations.CalibrationRuns, clause 9. -/
theorem witness_CalibrationRuns_9 : ∃ (bank : BitVec 5) (value : Word32) (s : State),
    s.haltClosed = false ∧
    s.gcs.phase ≠ .dock ∧
    s.bankLive bank = true ∧
    (s.mon.run.map (fun c => c.bank)) ≠ some bank ∧
    value.toNat / 2 ^ 20 % 32 = selCheck (BitVec.ofNat 20 value.toNat) ∧
    selWithin (BitVec.ofNat 20 value.toNat) (s.bank bank).otp 10 = true :=
  ⟨0, 0x01500000, wSets, by decide⟩

/-- Obligations.CalibrationRuns, clause 10. -/
theorem witness_CalibrationRuns_10 : ∃ (bank : BitVec 5) (value : Word32) (s : State),
    s.haltClosed = false ∧
    s.gcs.phase ≠ .dock ∧
    s.bankLive bank = true ∧
    value.toNat / 2 ^ 20 % 32 ≠ selCheck (BitVec.ofNat 20 value.toNat) :=
  ⟨0, 0x01600000, wSets, by decide⟩

/-- Obligations.PacketsAreServedOrRefused, clause 1. -/
theorem witness_PacketsAreServedOrRefused_1 : ∃ (src : CmdSrc) (s : State) (pkt : Bytes),
    s.frontPacket src = some pkt ∧
    cmdInfo (opcodeOf pkt) = none :=
  ⟨.chain, (wAt (wSets) (wPkt 0xFFFF [])), (wPkt 0xFFFF []), by decide +kernel⟩

/-- Obligations.PacketsAreServedOrRefused, clause 2. -/
theorem witness_PacketsAreServedOrRefused_2 : ∃ (c : BitVec 4) (s : State) (pkt : Bytes),
    s.frontPacket (.ring c) = some pkt ∧
    opcodeOf pkt = 0x0103 ∧
    s.mustWait (cmdRow 0x0103 true false true [(0x10, 1)]) pkt = false ∧
    zeroFault [(0x10, 1)] pkt = none ∧
    (byteAt pkt 0x10).toNat < 64 ∧
    s.isEmpty (setOf pkt) = true ∧
    s.gcs.phase ≠ .romRecovery ∧
    s.gcs.halted = false ∧
    s.ringPriv c = false :=
  ⟨2, ({ wRegs with interp := { wRegs.interp with srcs := [(2, [wPkt 0x0103 [(0x10, 1, 3)]])] } }), (wPkt 0x0103 [(0x10, 1, 3)]), by decide +kernel⟩

/-- Obligations.PacketsAreServedOrRefused, clause 3. -/
theorem witness_PacketsAreServedOrRefused_3 : ∃ (s : State) (pkt : Bytes),
    s.frontPacket .chain = some pkt ∧
    opcodeOf pkt = 0x0704 ∧
    s.mustWait (cmdRow 0x0704 true false false [(0x10, 13)]) pkt = false ∧
    zeroFault [(0x10, 13)] pkt = none ∧
    (byteAt pkt 0x1C).toNat = 0 ∧
    s.gcs.phase ≠ .romRecovery ∧
    s.gcs.halted = true :=
  ⟨(wAt { wSets with gcs := { wSets.gcs with halted := true } } (wPkt 0x0704 [])), (wPkt 0x0704 []), by decide +kernel⟩

/-- Obligations.PacketsAreServedOrRefused, clause 4. -/
theorem witness_PacketsAreServedOrRefused_4 : ∃ (src : CmdSrc) (s : State) (pkt : Bytes),
    s.frontPacket src = some pkt ∧
    opcodeOf pkt = 0x0202 ∧
    s.mustWait (cmdRow 0x0202 true false true [(0x10, 1)]) pkt = false ∧
    zeroFault [(0x10, 1)] pkt = none ∧
    ((∀ d ∈ s.denials src (cmdRow 0x0202 true false true [(0x10, 1)]), d = none)) ∧
    (byteAt pkt 0x10).toNat < 64 ∧
    s.setsFree (fun a => decide (a.profile.toNat = setOf pkt)) = none ∧
    s.inHold = true :=
  ⟨.chain, (wAt (wHold .hold) (wPkt 0x0202 [(0x10, 1, 5)])), (wPkt 0x0202 [(0x10, 1, 5)]), by decide +kernel, by decide +kernel, by decide +kernel, by decide +kernel, all_none (by decide +kernel), by decide +kernel⟩

/-- Obligations.PacketsAreServedOrRefused, clause 5. -/
theorem witness_PacketsAreServedOrRefused_5 : ∃ (src : CmdSrc) (s : State) (pkt : Bytes) (o : Nat),
    s.frontPacket src = some pkt ∧
    opcodeOf pkt = 0x0603 ∧
    s.mustWait (cmdRow 0x0603 false false false []) pkt = false ∧
    zeroFault [] pkt = some o :=
  ⟨.chain, (wAt (wSets) (wPkt 0x0603 [(0x10, 1, 7)])), (wPkt 0x0603 [(0x10, 1, 7)]), 16, by decide +kernel⟩

/-- Obligations.PacketsAreServedOrRefused, clause 6. -/
theorem witness_PacketsAreServedOrRefused_6 : ∃ (src : CmdSrc) (s : State) (pkt : Bytes),
    Ready s src 0x0107 pkt ∧
    (byteAt pkt 0x10).toNat < 64 ∧
    (byteAt pkt 0x11).toNat < 2 :=
  ⟨.chain, (wAt (wSets) (wPkt 0x0107 [])), (wPkt 0x0107 []), ready_of (by decide +kernel), by decide +kernel⟩

/-- Obligations.PacketsAreServedOrRefused, clause 7. -/
theorem witness_PacketsAreServedOrRefused_7 : ∃ (src : CmdSrc) (s : State) (pkt : Bytes),
    Ready s src 0x0203 pkt ∧
    (byteAt pkt 0x10).toNat < 64 ∧
    s.profile (BitVec.ofNat 6 (setOf pkt)) = none :=
  ⟨.chain, (wAt (wSets) (wPkt 0x0203 [(0x10, 1, 63)])), (wPkt 0x0203 [(0x10, 1, 63)]), ready_of (by decide +kernel), by decide +kernel⟩

/-- Obligations.PacketsAreServedOrRefused, clause 8. -/
theorem witness_PacketsAreServedOrRefused_8 : ∃ (src : CmdSrc) (s : State) (pkt : Bytes) (p : Profile),
    Ready s src 0x0203 pkt ∧
    (byteAt pkt 0x10).toNat < 64 ∧
    s.profile (BitVec.ofNat 6 (setOf pkt)) = some p :=
  ⟨.chain, (wAt (wSets) (wPkt 0x0203 [])), (wPkt 0x0203 []), wProfile, ready_of (by decide +kernel), by decide +kernel⟩

/-- Obligations.PacketsAreServedOrRefused, clause 9. -/
theorem witness_PacketsAreServedOrRefused_9 : ∃ (src : CmdSrc) (s : State) (pkt : Bytes),
    Ready s src 0x0401 pkt ∧
    s.portPresent (portOf pkt) = true :=
  ⟨.chain, (wAt (wSets) (wPkt 0x0401 [(0x10, 1, 255)])), (wPkt 0x0401 [(0x10, 1, 255)]), ready_of (by decide +kernel), by decide +kernel⟩

/-- Obligations.PacketsAreServedOrRefused, clause 10. -/
theorem witness_PacketsAreServedOrRefused_10 : ∃ (src : CmdSrc) (s : State) (pkt : Bytes),
    Ready s src 0x0501 pkt ∧
    setOf pkt = 0xFF :=
  ⟨.chain, (wAt (wSets) (wPkt 0x0501 [(0x10, 1, 255)])), (wPkt 0x0501 [(0x10, 1, 255)]), ready_of (by decide +kernel), by decide +kernel⟩

/-- Obligations.PacketsAreServedOrRefused, clause 11. -/
theorem witness_PacketsAreServedOrRefused_11 : ∃ (src : CmdSrc) (s : State) (pkt : Bytes),
    Ready s src 0x0501 pkt ∧
    setOf pkt < 64 ∧
    s.isEmpty (setOf pkt) = false :=
  ⟨.chain, (wAt (wSets) (wPkt 0x0501 [])), (wPkt 0x0501 []), ready_of (by decide +kernel), by decide +kernel⟩

/-- Obligations.PacketsAreServedOrRefused, clause 12. -/
theorem witness_PacketsAreServedOrRefused_12 : ∃ (src : CmdSrc) (s : State) (pkt : Bytes),
    Ready s src 0x0603 pkt :=
  ⟨.chain, (wAt (wSets) (wPkt 0x0603 [])), (wPkt 0x0603 []), ready_of (by decide +kernel)⟩

/-- Obligations.PacketsAreServedOrRefused, clause 13. -/
theorem witness_PacketsAreServedOrRefused_13 : ∃ (src : CmdSrc) (s : State) (pkt : Bytes),
    Ready s src 0x0704 pkt ∧
    (byteAt pkt 0x1C).toNat = 0 :=
  ⟨.chain, (wAt (wSets) (wPkt 0x0704 [])), (wPkt 0x0704 []), ready_of (by decide +kernel), by decide +kernel⟩

/-- Obligations.PacketsAreServedOrRefused, clause 14. -/
theorem witness_PacketsAreServedOrRefused_14 : ∃ (src : CmdSrc) (s : State) (pkt : Bytes),
    Ready s src 0x0704 pkt ∧
    (byteAt pkt 0x1C).toNat = 1 ∧
    4 ≤ (bitList 16 (leAt pkt 0x10 2)).length :=
  ⟨.chain, (wAt (wSets) (wPkt 0x0704 [(0x10, 2, 0x000F), (0x18, 4, 0xFFFFFFFF), (0x1C, 1, 1)])), (wPkt 0x0704 [(0x10, 2, 0x000F), (0x18, 4, 0xFFFFFFFF), (0x1C, 1, 1)]), ready_of (by decide +kernel), by decide +kernel⟩

/-- Obligations.PacketsAreServedOrRefused, clause 15. -/
theorem witness_PacketsAreServedOrRefused_15 : ∃ (src : CmdSrc) (s : State) (pkt : Bytes) (r : Region),
    Ready s src 0x0706 pkt ∧
    setOf pkt < 64 ∧
    regionNo pkt < 16 ∧
    s.isEmpty (setOf pkt) = false ∧
    Tab.get (s.set (setOf pkt)).regions none (regionNo pkt) = some r :=
  ⟨.chain, (wAt (wIn (fun a => { a with regions := [(15, some { policy := .readOnly, sealedAck := true, first := 2, blocks := 4 })] })) (wPkt 0x0706 [(0x11, 1, 15)])), (wPkt 0x0706 [(0x11, 1, 15)]), ({ policy := .readOnly, sealedAck := true, first := 2, blocks := 4 }), ready_of (by decide +kernel), by decide +kernel⟩

/-- Obligations.PacketsAreServedOrRefused, clause 16. -/
theorem witness_PacketsAreServedOrRefused_16 : ∃ (src : CmdSrc) (s : State) (pkt : Bytes),
    Ready s src 0x0801 pkt :=
  ⟨.chain, (wAt (wSets) (wPkt 0x0801 [(0x10, 1, 0xD3)])), (wPkt 0x0801 [(0x10, 1, 0xD3)]), ready_of (by decide +kernel)⟩

/-- Obligations.PacketsAreServedOrRefused, clause 17. -/
theorem witness_PacketsAreServedOrRefused_17 : ∃ (src : CmdSrc) (s : State) (pkt : Bytes),
    Ready s src 0x0902 pkt ∧
    (byteAt pkt 0x10).toNat < Config.banks s.part ∧
    (byteAt pkt 0x10).toNat < 17 :=
  ⟨.chain, (wAt (wSets) (wPkt 0x0902 [(0x10, 1, 16)])), (wPkt 0x0902 [(0x10, 1, 16)]), ready_of (by decide +kernel), by decide +kernel⟩

/-- Obligations.PacketsAreServedOrRefused, clause 18. -/
theorem witness_PacketsAreServedOrRefused_18 : ∃ (src : CmdSrc) (s : State) (pkt : Bytes),
    Ready s src 0x0A01 pkt ∧
    byteAt pkt 0x2C = 1 ∧
    leAt pkt 0x20 8 % 64 = 0 ∧
    256 ≤ bufLen pkt 0x20 ∧
    leAt pkt 0x20 8 + bufLen pkt 0x20 ≤ 65536 ∧
    bufLen pkt 0x20 ≤ 2 ^ 20 ∧
    (byteAt pkt 0x2D = 0 ∧ byteAt pkt 0x2E = 0 ∧ byteAt pkt 0x2F = 0) :=
  ⟨.chain, (wAt (wSets) (wPkt 0x0A01 [(0x20, 8, 0xFF00), (0x28, 4, 256), (0x2C, 1, 1)])), (wPkt 0x0A01 [(0x20, 8, 0xFF00), (0x28, 4, 256), (0x2C, 1, 1)]), ready_of (by decide +kernel), by decide +kernel⟩

/-- Obligations.PacketsAreServedOrRefused, clause 19. -/
theorem witness_PacketsAreServedOrRefused_19 : ∃ (src : CmdSrc) (s : State) (pkt : Bytes),
    Ready s src 0x0B03 pkt ∧
    Config.hasPair s.part = true :=
  ⟨.chain, (wAt (wSets) (wPkt 0x0B03 [])), (wPkt 0x0B03 []), ready_of (by decide +kernel), by decide +kernel⟩

/-- Obligations.PacketsAreServedOrRefused, clause 20. -/
theorem witness_PacketsAreServedOrRefused_20 : ∃ (src : CmdSrc) (s : State) (pkt : Bytes),
    Ready s src 0x0C03 pkt :=
  ⟨.chain, (wAt (wSets) (wPkt 0x0C03 [])), (wPkt 0x0C03 []), ready_of (by decide +kernel)⟩

/-- Obligations.PacketsAreServedOrRefused, clause 21. -/
theorem witness_PacketsAreServedOrRefused_21 : ∃ (src : CmdSrc) (s : State) (pkt : Bytes),
    Ready s src 0x0D02 pkt :=
  ⟨.chain, (wAt (wSets) (wPkt 0x0D02 [(0x10, 1, 9)])), (wPkt 0x0D02 [(0x10, 1, 9)]), ready_of (by decide +kernel)⟩

/-- Obligations.SetCommands, clause 1. -/
theorem witness_SetCommands_1 : ∃ (src : CmdSrc) (s : State) (pkt : Bytes),
    Ready s src 0x0101 pkt ∧
    setOf pkt < 64 ∧
    ((∀ f ∈ s.attrFaults pkt 0x1FF true false, f.1 = false)) ∧
    s.membersAbsent (membersOf pkt) = false ∧
    (s.set (setOf pkt)).state = .empty :=
  ⟨.chain, (wAt (wSets) (wPkt 0x0101 [(0x10, 1, 63), (0x20, 6, 100), (0x30, 1, 0xF8)])), (wPkt 0x0101 [(0x10, 1, 63), (0x20, 6, 100), (0x30, 1, 0xF8)]), ready_of (by decide +kernel), by decide +kernel⟩

/-- Obligations.SetCommands, clause 2. -/
theorem witness_SetCommands_2 : ∃ (src : CmdSrc) (s : State) (pkt : Bytes),
    Ready s src 0x0102 pkt ∧
    ((∀ f ∈ s.modifyFaults pkt, f.1 = false)) ∧
    (byteAt pkt 0x11).toNat = 0 ∧
    leAt pkt 0x12 2 = 2 ∧
    (s.set (setOf pkt)).state = .stopped ∧
    (s.set (setOf pkt)).replaying = false ∧
    (s.set (setOf pkt)).pending = none ∧
    (s.set (setOf pkt)).queued = none ∧
    BitVec.ofNat 6 (byteAt pkt 0x14).toNat ≠ (s.set (setOf pkt)).profile :=
  ⟨.chain, (wAt ({ wStopped with profiles := [(0, some wProfile), (1, some { wProfile with par := 2 })] }) (wPkt 0x0102 [(0x12, 2, 2), (0x14, 1, 1)])), (wPkt 0x0102 [(0x12, 2, 2), (0x14, 1, 1)]), ready_of (by decide +kernel), by decide +kernel⟩

/-- Obligations.SetCommands, clause 3. -/
theorem witness_SetCommands_3 : ∃ (src : CmdSrc) (s : State) (pkt : Bytes),
    Ready s src 0x0102 pkt ∧
    ((∀ f ∈ s.modifyFaults pkt, f.1 = false)) ∧
    (byteAt pkt 0x11).toNat = 0 ∧
    leAt pkt 0x12 2 = 1 ∧
    (s.set (setOf pkt)).state = .stopped ∧
    (s.set (setOf pkt)).replaying = false ∧
    (s.set (setOf pkt)).pending = none ∧
    (s.set (setOf pkt)).queued = none ∧
    s.membersAbsent (membersOf pkt) = false :=
  ⟨.chain, (wAt (wStopped) (wPkt 0x0102 [(0x12, 2, 1), (0x30, 1, 0x0F)])), (wPkt 0x0102 [(0x12, 2, 1), (0x30, 1, 0x0F)]), ready_of (by decide +kernel), by decide +kernel⟩

/-- Obligations.SetCommands, clause 4. -/
theorem witness_SetCommands_4 : ∃ (src : CmdSrc) (s : State) (pkt : Bytes) (i : Nat),
    Ready s src 0x0102 pkt ∧
    ((∀ f ∈ s.modifyFaults pkt, f.1 = false)) ∧
    (byteAt pkt 0x11).toNat = 1 ∧
    i < 8 ∧
    leAt pkt 0x12 2 = 2 ^ i ∧
    (s.set (setOf pkt)).state = .stopped ∧
    (s.set (setOf pkt)).replaying = false ∧
    (s.set (setOf pkt)).pending = none ∧
    (s.set (setOf pkt)).queued = none ∧
    Tab.get (s.set (setOf pkt)).current.params 0 i ≠ BitVec.ofNat 64 (leAt pkt (0x40 + 8 * i) 8) :=
  ⟨.chain, (wAt (wStopped) (wPkt 0x0102 [(0x11, 1, 1), (0x12, 2, 128), (0x78, 8, 9)])), (wPkt 0x0102 [(0x11, 1, 1), (0x12, 2, 128), (0x78, 8, 9)]), 7, ready_of (by decide +kernel), by decide +kernel⟩

/-- Obligations.SetCommands, clause 5. -/
theorem witness_SetCommands_5 : ∃ (src : CmdSrc) (s : State) (pkt : Bytes),
    Ready s src 0x0103 pkt ∧
    setOf pkt < 64 ∧
    ((∀ f ∈ s.startFaults (setOf pkt), f.1 = false)) ∧
    (s.set (setOf pkt)).replaying = false ∧
    (((s.set (setOf pkt)).state = .stopped ∨ (s.set (setOf pkt)).state = .draining ∧ (s.pair.state ≠ .paired ∨ (s.set (setOf pkt)).side = s.pair.side))) :=
  ⟨.chain, (wAt (wStopped) (wPkt 0x0103 [])), (wPkt 0x0103 []), ready_of (by decide +kernel), by decide +kernel⟩

/-- Obligations.SetCommands, clause 6. -/
theorem witness_SetCommands_6 : ∃ (src : CmdSrc) (s : State) (pkt : Bytes),
    Ready s src 0x0104 pkt ∧
    setOf pkt < 64 ∧
    (s.set (setOf pkt)).state = .running ∧
    (s.set (setOf pkt)).replaying = false ∧
    ((∀ r ∈ s.log.recs, r.set.toNat ≠ setOf pkt)) :=
  ⟨.chain, (wAt (wSets) (wPkt 0x0104 [])), (wPkt 0x0104 []), ready_of (by decide +kernel), by decide +kernel⟩

/-- Obligations.SetCommands, clause 7. -/
theorem witness_SetCommands_7 : ∃ (set : BitVec 6) (s : State),
    s.drained set.toNat = true :=
  ⟨0, (wIn (fun a => { a with state := .draining })), by decide +kernel⟩

/-- Obligations.SetCommands, clause 8. -/
theorem witness_SetCommands_8 : ∃ (src : CmdSrc) (s : State) (pkt : Bytes),
    Ready s src 0x0105 pkt ∧
    setOf pkt < 64 ∧
    (byteAt pkt 0x11).toNat < 2 ∧
    (s.set (setOf pkt)).replaying = false ∧
    (((s.set (setOf pkt)).state = .stopped ∨ (byteAt pkt 0x11).toNat = 1 ∧ (s.set (setOf pkt)).state = .preserved)) :=
  ⟨.chain, (wAt (wStopped) (wPkt 0x0105 [])), (wPkt 0x0105 []), ready_of (by decide +kernel), by decide +kernel⟩

/-- Obligations.SetCommands, clause 9. -/
theorem witness_SetCommands_9 : ∃ (src : CmdSrc) (s : State) (pkt : Bytes),
    Ready s src 0x0106 pkt ∧
    setOf pkt < 64 ∧
    (s.set (setOf pkt)).state = .preserved ∧
    (s.set (setOf pkt)).replaying = false ∧
    ((∀ r ∈ s.log.recs, r.set.toNat ≠ setOf pkt)) :=
  ⟨.chain, (wAt (wIn (fun a => { a with state := .preserved })) (wPkt 0x0106 [])), (wPkt 0x0106 []), ready_of (by decide +kernel), by decide +kernel⟩

/-- Obligations.SetCommands, clause 10. -/
theorem witness_SetCommands_10 : ∃ (src : CmdSrc) (s : State) (pkt : Bytes),
    Ready s src 0x0108 pkt ∧
    setOf pkt < 64 ∧
    (s.set (setOf pkt)).state = .preserved ∧
    (s.set (setOf pkt)).replaying = false ∧
    leAt pkt 0x14 2 = 1 ∧
    leAt pkt 0x18 6 < s.setBlocks (setOf pkt) ∧
    bufLen pkt 0x20 = 4096 ∧
    leAt pkt 0x20 8 % 64 = 0 ∧
    leAt pkt 0x20 8 + 4096 ≤ 65536 ∧
    byteAt pkt 0x2C = 1 ∧
    (byteAt pkt 0x2D = 0 ∧ byteAt pkt 0x2E = 0 ∧ byteAt pkt 0x2F = 0) ∧
    ((∀ r ∈ s.log.recs, r.set.toNat ≠ setOf pkt)) ∧
    ((∀ d ∈ s.interp.deferred, d.src ≠ src)) :=
  ⟨.chain, (wAt (wIn (fun a => { a with state := .preserved })) (wPkt 0x0108 [(0x14, 2, 1), (0x20, 8, 0xF000), (0x28, 4, 4096), (0x2C, 1, 1)])), (wPkt 0x0108 [(0x14, 2, 1), (0x20, 8, 0xF000), (0x28, 4, 4096), (0x2C, 1, 1)]), ready_of (by decide +kernel), by decide +kernel⟩

/-- Obligations.ProfileAndChartCommands, clause 1. -/
theorem witness_ProfileAndChartCommands_1 : ∃ (src : CmdSrc) (s : State) (pkt : Bytes) (c : CodeType),
    Ready s src 0x0201 pkt ∧
    setOf pkt < 64 ∧
    typeOf (byteAt pkt 0x11).toNat = some c ∧
    ((∀ f ∈ (profileOf pkt c).fieldFaults, f.1 = false)) ∧
    ((∀ f ∈ (profileOf pkt c).comboFaults, f = none)) ∧
    s.setsFree (fun a => decide (a.profile.toNat = setOf pkt)) = none :=
  ⟨.chain, (wAt (wSets) (wPkt 0x0201 [(0x10, 1, 5), (0x11, 1, 3), (0x12, 1, 48), (0x13, 1, 8), (0x14, 1, 8)])), (wPkt 0x0201 [(0x10, 1, 5), (0x11, 1, 3), (0x12, 1, 48), (0x13, 1, 8), (0x14, 1, 8)]), .lrc, ready_of (by decide +kernel), by decide +kernel, by decide +kernel, by decide +kernel, all_none (by decide +kernel), by decide +kernel⟩

/-- Obligations.ProfileAndChartCommands, clause 2. -/
theorem witness_ProfileAndChartCommands_2 : ∃ (src : CmdSrc) (s : State) (pkt : Bytes),
    Ready s src 0x0202 pkt ∧
    setOf pkt < 64 ∧
    s.setsFree (fun a => decide (a.profile.toNat = setOf pkt)) = none :=
  ⟨.chain, (wAt (wSets) (wPkt 0x0202 [(0x10, 1, 63)])), (wPkt 0x0202 [(0x10, 1, 63)]), ready_of (by decide +kernel), by decide +kernel⟩

/-- Obligations.ProfileAndChartCommands, clause 3. -/
theorem witness_ProfileAndChartCommands_3 : ∃ (src : CmdSrc) (s : State) (pkt : Bytes),
    Ready s src 0x0301 pkt ∧
    slotOf pkt < 128 ∧
    loadCount pkt ≠ 0 ∧
    loadCount pkt ≤ 256 ∧
    4 * loadCount pkt ≤ bufLen pkt 0x20 ∧
    byteAt pkt 0x2C = 1 ∧
    leAt pkt 0x20 8 % 64 = 0 ∧
    leAt pkt 0x20 8 + bufLen pkt 0x20 ≤ 65536 ∧
    (byteAt pkt 0x2D = 0 ∧ byteAt pkt 0x2E = 0 ∧ byteAt pkt 0x2F = 0) ∧
    s.slotFree pkt = none ∧
    (Tab.get s.cht.progs none (slotOf pkt)).isSome = true ∧
    verifyProgram chartInsOk (codeOf (loadCount pkt) (Memory.readBytes s.interp.scratch (leAt pkt 0x20 8) (bufLen pkt 0x20))) = none :=
  ⟨.chain, (wAt (wScratch { wSets with cht := { wSets.cht with progs := [(1, some [wChart]), (2, some [wChart])] } } [wChart]) (wPkt 0x0301 [(0x10, 1, 2), (0x12, 2, 1), (0x20, 8, 0), (0x28, 4, 4), (0x2C, 1, 1)])), (wPkt 0x0301 [(0x10, 1, 2), (0x12, 2, 1), (0x20, 8, 0), (0x28, 4, 4), (0x2C, 1, 1)]), ready_of (by decide +kernel), by decide +kernel⟩

/-- Obligations.ProfileAndChartCommands, clause 4. -/
theorem witness_ProfileAndChartCommands_4 : ∃ (src : CmdSrc) (s : State) (pkt : Bytes) (i : Nat),
    Ready s src 0x0301 pkt ∧
    slotOf pkt < 128 ∧
    loadCount pkt ≠ 0 ∧
    loadCount pkt ≤ 256 ∧
    4 * loadCount pkt ≤ bufLen pkt 0x20 ∧
    byteAt pkt 0x2C = 1 ∧
    leAt pkt 0x20 8 % 64 = 0 ∧
    leAt pkt 0x20 8 + bufLen pkt 0x20 ≤ 65536 ∧
    (byteAt pkt 0x2D = 0 ∧ byteAt pkt 0x2E = 0 ∧ byteAt pkt 0x2F = 0) ∧
    s.slotFree pkt = none ∧
    (Tab.get s.cht.progs none (slotOf pkt)).isSome = true ∧
    verifyProgram chartInsOk (codeOf (loadCount pkt) (Memory.readBytes s.interp.scratch (leAt pkt 0x20 8) (bufLen pkt 0x20))) = some i :=
  ⟨.chain, (wAt (wScratch { wSets with cht := { wSets.cht with progs := [(1, some [wChart]), (2, some [wChart])] } } [wChart, 0]) (wPkt 0x0301 [(0x10, 1, 2), (0x12, 2, 2), (0x20, 8, 0), (0x28, 4, 8), (0x2C, 1, 1)])), (wPkt 0x0301 [(0x10, 1, 2), (0x12, 2, 2), (0x20, 8, 0), (0x28, 4, 8), (0x2C, 1, 1)]), 1, ready_of (by decide +kernel), by decide +kernel⟩

/-- Obligations.ProfileAndChartCommands, clause 5. -/
theorem witness_ProfileAndChartCommands_5 : ∃ (src : CmdSrc) (s : State) (pkt : Bytes),
    Ready s src 0x0302 pkt ∧
    ((∀ f ∈ s.tableFaults src pkt, f.1 = false)) ∧
    leAt pkt 0x20 8 % 64 = 0 ∧
    byteAt pkt 0x2C = 1 ∧
    s.slotFree pkt = none ∧
    s.tableOf pkt = none ∧
    s.storeOver (leAt pkt 0x14 4) = false :=
  ⟨.chain, (wAt (wScratch wSets [5]) (wPkt 0x0302 [(0x10, 1, 127), (0x11, 1, 3), (0x12, 1, 3), (0x14, 4, 128), (0x18, 4, 64), (0x28, 4, 64), (0x2C, 1, 1)])), (wPkt 0x0302 [(0x10, 1, 127), (0x11, 1, 3), (0x12, 1, 3), (0x14, 4, 128), (0x18, 4, 64), (0x28, 4, 64), (0x2C, 1, 1)]), ready_of (by decide +kernel), by decide +kernel⟩

/-- Obligations.ProfileAndChartCommands, clause 6. -/
theorem witness_ProfileAndChartCommands_6 : ∃ (src : CmdSrc) (s : State) (pkt : Bytes) (u : STable),
    Ready s src 0x0302 pkt ∧
    ((∀ f ∈ s.tableFaults src pkt, f.1 = false)) ∧
    leAt pkt 0x20 8 % 64 = 0 ∧
    byteAt pkt 0x2C = 1 ∧
    s.slotFree pkt = none ∧
    s.tableOf pkt = some u :=
  ⟨.chain, (wAt (wScratch { wSets with cht := { wSets.cht with tables := [(511, some { width := 3, size := 128, bytes := [(2, 1)] })] } } [5]) (wPkt 0x0302 [(0x10, 1, 127), (0x11, 1, 3), (0x12, 1, 3), (0x14, 4, 128), (0x18, 4, 64), (0x28, 4, 64), (0x2C, 1, 1)])), (wPkt 0x0302 [(0x10, 1, 127), (0x11, 1, 3), (0x12, 1, 3), (0x14, 4, 128), (0x18, 4, 64), (0x28, 4, 64), (0x2C, 1, 1)]), ({ width := 3, size := 128, bytes := [(2, 1)] }), ready_of (by decide +kernel), by decide +kernel⟩

/-- Obligations.ProfileAndChartCommands, clause 7. -/
theorem witness_ProfileAndChartCommands_7 : ∃ (src : CmdSrc) (s : State) (pkt : Bytes),
    Ready s src 0x0303 pkt ∧
    slotOf pkt < 128 ∧
    (byteAt pkt 0x11).toNat ≠ 0 ∧
    (byteAt pkt 0x11).toNat < 32 ∧
    s.slotFree pkt = none :=
  ⟨.chain, (wAt (wSets) (wPkt 0x0303 [(0x10, 1, 2), (0x11, 1, 31)])), (wPkt 0x0303 [(0x10, 1, 2), (0x11, 1, 31)]), ready_of (by decide +kernel), by decide +kernel⟩

/-- Obligations.ProfileAndChartCommands, clause 8. -/
theorem witness_ProfileAndChartCommands_8 : ∃ (src : CmdSrc) (s : State) (pkt : Bytes) (a : ArraySet),
    Ready s src 0x0304 pkt ∧
    setOf pkt < 64 ∧
    (byteAt pkt 0x11).toNat < 2 ∧
    s.portPresent (byteAt pkt 0x12) = true ∧
    (s.set (setOf pkt)).state ∈ [SetState.stopped, .running, .draining] ∧
    (s.set (setOf pkt)).replaying = false ∧
    s.tryRevise pkt = .ok a :=
  ⟨.chain, (wAt (wSets) (wPkt 0x0304 [(0x12, 1, 1)])), (wPkt 0x0304 [(0x12, 1, 1)]), (match (wAt wSets (wPkt 0x0304 [(0x12, 1, 1)])).tryRevise (wPkt 0x0304 [(0x12, 1, 1)]) with | .ok a => a | .error _ => wSet), ready_of (by decide +kernel), by decide +kernel⟩

/-- Obligations.ProfileAndChartCommands, clause 9. -/
theorem witness_ProfileAndChartCommands_9 : ∃ (src : CmdSrc) (s : State) (pkt : Bytes) (prog : SProg) (p : Byte) (dba : Nat) (req : LookupReq) (c : SCtx),
    Ready s src 0x0305 pkt ∧
    setOf pkt < 64 ∧
    (byteAt pkt 0x11).toNat = 0 ∧
    s.isEmpty (setOf pkt) = false ∧
    (byteAt pkt 0x12).toNat < (s.setProfile (s.set (setOf pkt))).width ∧
    leAt pkt 0x18 6 < (s.set (setOf pkt)).stripeCount.toNat ∧
    s.slotProg (s.set (setOf pkt)).current.slot.toNat = some prog ∧
    req = lookupReq (BitVec.ofNat 6 (setOf pkt)) (s.set (setOf pkt)).current (leAt pkt 0x18 6) (byteAt pkt 0x12).toNat .hostIo ∧
    c = (s.lookupCtx req prog).run (s.chartPtest (s.set (setOf pkt)) (s.set (setOf pkt)).current) 256 ∧
    s.ctxBearing req c = .at p dba :=
  ⟨.chain, (wAt (wSets) (wPkt 0x0305 [(0x12, 1, 1), (0x18, 6, 5)])), (wPkt 0x0305 [(0x12, 1, 1), (0x18, 6, 5)]), wProg, 1, 5, wReq, (wSets.lookupCtx wReq wProg).run (wSets.chartPtest wSet wSet.current) 256, ready_of (by decide +kernel), by decide +kernel⟩

/-- Obligations.ProfileAndChartCommands, clause 10. -/
theorem witness_ProfileAndChartCommands_10 : ∃ (s : State),
    s.haltClosed = false ∧
    s.gcs.phase ≠ .dock :=
  ⟨wSets, by decide⟩

/-- Obligations.PortCommands, clause 1. -/
theorem witness_PortCommands_1 : ∃ (src : CmdSrc) (s : State) (pkt : Bytes),
    Ready s src 0x0402 pkt ∧
    s.portPresent (portOf pkt) = true ∧
    (byteAt pkt 0x11).toNat ∈ [1, 2, 4] ∧
    (portOf pkt).toNat % (byteAt pkt 0x11).toNat = 0 ∧
    (byteAt pkt 0x12).toNat ∈ [1, 2, 3] ∧
    ((∀ q ∈ quadPorts (portOf pkt), s.memberOf q = none ∧ (s.port q).state = .empty ∧ s.outstanding q = [])) :=
  ⟨.chain, (wAt (wSets) (wPkt 0x0402 [(0x10, 1, 8), (0x11, 1, 4), (0x12, 1, 3)])), (wPkt 0x0402 [(0x10, 1, 8), (0x11, 1, 4), (0x12, 1, 3)]), ready_of (by decide +kernel), by decide +kernel⟩

/-- Obligations.PortCommands, clause 2. -/
theorem witness_PortCommands_2 : ∃ (src : CmdSrc) (s : State) (pkt : Bytes),
    Ready s src 0x0403 pkt ∧
    s.portPresent (portOf pkt) = true ∧
    (s.port (portOf pkt)).state ≠ .merged ∧
    (s.port (portOf pkt)).failed = false ∧
    s.outstanding (portOf pkt) = [] :=
  ⟨.chain, (wAt (wSets) (wPkt 0x0403 [(0x10, 1, 1)])), (wPkt 0x0403 [(0x10, 1, 1)]), ready_of (by decide +kernel), by decide +kernel⟩

/-- Obligations.PortCommands, clause 3. -/
theorem witness_PortCommands_3 : ∃ (src : CmdSrc) (s : State) (pkt : Bytes),
    Ready s src 0x0404 pkt ∧
    s.portPresent (portOf pkt) = true :=
  ⟨.chain, (wAt (wPortIn 1 { wDrive with state := .contained }) (wPkt 0x0404 [(0x10, 1, 1)])), (wPkt 0x0404 [(0x10, 1, 1)]), ready_of (by decide +kernel), by decide +kernel⟩

/-- Obligations.PortCommands, clause 4. -/
theorem witness_PortCommands_4 : ∃ (src : CmdSrc) (s : State) (pkt : Bytes),
    Ready s src 0x0405 pkt ∧
    s.portPresent (portOf pkt) = true ∧
    (s.port (portOf pkt)).state ∈ [PortState.ready, .empty, .error] ∧
    (s.port (portOf pkt)).failed = true ∧
    s.outstanding (portOf pkt) = [] :=
  ⟨.chain, (wAt (wPortIn 1 { wDrive with failed := true }) (wPkt 0x0405 [(0x10, 1, 1)])), (wPkt 0x0405 [(0x10, 1, 1)]), ready_of (by decide +kernel), by decide +kernel⟩

/-- Obligations.PortCommands, clause 5. -/
theorem witness_PortCommands_5 : ∃ (src : CmdSrc) (s : State) (pkt : Bytes),
    Ready s src 0x0405 pkt ∧
    s.portPresent (portOf pkt) = true ∧
    (s.port (portOf pkt)).state = .contained ∧
    s.memberOf (portOf pkt) = none :=
  ⟨.chain, (wAt (wPortIn 9 { wDrive with state := .contained }) (wPkt 0x0405 [(0x10, 1, 9)])), (wPkt 0x0405 [(0x10, 1, 9)]), ready_of (by decide +kernel), by decide +kernel⟩

/-- Obligations.PortCommands, clause 6. -/
theorem witness_PortCommands_6 : ∃ (src : CmdSrc) (s : State) (pkt : Bytes),
    Ready s src 0x0406 pkt ∧
    s.portPresent (portOf pkt) = true ∧
    (s.port (portOf pkt)).state = .ready ∧
    adminOp pkt ∈ [0x02, 0x06, 0x0A] ∧
    leAt pkt 0x20 8 % 64 = 0 ∧
    bufLen pkt 0x20 ≤ 4096 ∧
    leAt pkt 0x20 8 + bufLen pkt 0x20 ≤ 65536 ∧
    byteAt pkt 0x2C = 1 ∧
    (byteAt pkt 0x2D = 0 ∧ byteAt pkt 0x2E = 0 ∧ byteAt pkt 0x2F = 0) :=
  ⟨.chain, (wAt (wSets) (wPkt 0x0406 [(0x10, 1, 1), (0x28, 4, 4096), (0x2C, 1, 1), (0x40, 1, 6)])), (wPkt 0x0406 [(0x10, 1, 1), (0x28, 4, 4096), (0x2C, 1, 1), (0x40, 1, 6)]), ready_of (by decide +kernel), by decide +kernel⟩

/-- Obligations.PortCommands, clause 7. -/
theorem witness_PortCommands_7 : ∃ (src : CmdSrc) (s : State) (pkt : Bytes),
    Ready s src 0x0407 pkt ∧
    groupNo pkt < Config.groups s.part ∧
    (byteAt pkt 0x11).toNat = 0 ∧
    (byteAt pkt 0x12).toNat < 2 ∧
    leAt pkt 0x14 4 ≤ 60000 ∧
    (s.group (groupNo pkt)).state = .powered :=
  ⟨.chain, (wAt (wSets) (wPkt 0x0407 [(0x10, 1, 15), (0x12, 1, 1), (0x14, 4, 60000)])), (wPkt 0x0407 [(0x10, 1, 15), (0x12, 1, 1), (0x14, 4, 60000)]), ready_of (by decide +kernel), by decide +kernel⟩

/-- Obligations.PortCommands, clause 8. -/
theorem witness_PortCommands_8 : ∃ (src : CmdSrc) (s : State) (pkt : Bytes),
    Ready s src 0x0407 pkt ∧
    groupNo pkt < Config.groups s.part ∧
    (byteAt pkt 0x11).toNat = 1 ∧
    (byteAt pkt 0x12).toNat < 2 ∧
    leAt pkt 0x14 4 ≤ 60000 ∧
    (s.group (groupNo pkt)).state = .dark :=
  ⟨.chain, (wAt ({ wSets with portGroups := [(15, { Group.at0 with state := .dark })] }) (wPkt 0x0407 [(0x10, 1, 15), (0x11, 1, 1)])), (wPkt 0x0407 [(0x10, 1, 15), (0x11, 1, 1)]), ready_of (by decide +kernel), by decide +kernel⟩

/-- Obligations.PortCommands, clause 9. -/
theorem witness_PortCommands_9 : ∃ (src : CmdSrc) (s : State) (pkt : Bytes),
    Ready s src 0x0407 pkt ∧
    groupNo pkt < Config.groups s.part ∧
    (byteAt pkt 0x11).toNat = 1 ∧
    (byteAt pkt 0x12).toNat < 2 ∧
    leAt pkt 0x14 4 ≤ 60000 ∧
    (s.group (groupNo pkt)).state = .powered :=
  ⟨.chain, (wAt (wSets) (wPkt 0x0407 [(0x10, 1, 15), (0x11, 1, 1)])), (wPkt 0x0407 [(0x10, 1, 15), (0x11, 1, 1)]), ready_of (by decide +kernel), by decide +kernel⟩

/-- Obligations.WatchRangeAndRegionCommands, clause 1. -/
theorem witness_WatchRangeAndRegionCommands_1 : ∃ (src : CmdSrc) (s : State) (pkt : Bytes),
    Ready s src 0x0601 pkt ∧
    leAt pkt 0x18 8 % 1000000000 = 0 ∧
    s.wch.todSrc = none ∧
    s.regBit Reg.wchCtl 0 = true :=
  ⟨.chain, (wAt (wWch { Wch.at0 with fixNs := 5000000 }) (wPkt 0x0601 [(0x18, 8, 3000000000)])), (wPkt 0x0601 [(0x18, 8, 3000000000)]), ready_of (by decide +kernel), by decide +kernel⟩

/-- Obligations.WatchRangeAndRegionCommands, clause 2. -/
theorem witness_WatchRangeAndRegionCommands_2 : ∃ (src : CmdSrc) (s : State) (pkt : Bytes),
    Ready s src 0x0601 pkt ∧
    leAt pkt 0x18 8 % 1000000000 ≠ 0 :=
  ⟨.chain, (wAt (wHost) (wPkt 0x0601 [(0x18, 8, 2999999999)])), (wPkt 0x0601 [(0x18, 8, 2999999999)]), ready_of (by decide +kernel), by decide +kernel⟩

/-- Obligations.WatchRangeAndRegionCommands, clause 3. -/
theorem witness_WatchRangeAndRegionCommands_3 : ∃ (src : CmdSrc) (s : State) (pkt : Bytes),
    Ready s src 0x0602 pkt ∧
    s.lengthBad (leAt pkt 0x14 4) = false ∧
    ((∀ j, j < 64 → (s.set j).state = .empty)) :=
  ⟨.chain, (wAt (wHost) (wPkt 0x0602 [(0x14, 4, 500000)])), (wPkt 0x0602 [(0x14, 4, 500000)]), ready_of (by decide +kernel), by decide +kernel⟩

/-- Obligations.WatchRangeAndRegionCommands, clause 4. -/
theorem witness_WatchRangeAndRegionCommands_4 : ∃ (src : CmdSrc) (s : State) (pkt : Bytes),
    Ready s src 0x0701 pkt ∧
    ((∀ f ∈ s.rangeFields pkt, f.1 = false)) ∧
    (s.set (setOf pkt)).state ∈ [SetState.running, .draining, .stopped] ∧
    (s.set (setOf pkt)).replaying = false ∧
    s.log.recs = [] ∧
    s.interp.deferred = [] :=
  ⟨.chain, (wAt (wSets) (wPkt 0x0701 [(0x18, 6, 8190), (0x20, 6, 2)])), (wPkt 0x0701 [(0x18, 6, 8190), (0x20, 6, 2)]), ready_of (by decide +kernel), by decide +kernel⟩

/-- Obligations.WatchRangeAndRegionCommands, clause 5. -/
theorem witness_WatchRangeAndRegionCommands_5 : ∃ (src : CmdSrc) (s : State) (pkt : Bytes),
    Ready s src 0x0702 pkt ∧
    ((∀ f ∈ s.rangeFields pkt, f.1 = false)) ∧
    (s.set (setOf pkt)).state ∈ [SetState.running, .draining, .stopped] ∧
    (s.set (setOf pkt)).replaying = false ∧
    s.log.recs = [] ∧
    s.interp.deferred = [] :=
  ⟨.chain, (wAt (wSets) (wPkt 0x0702 [(0x18, 6, 8190), (0x20, 6, 2)])), (wPkt 0x0702 [(0x18, 6, 8190), (0x20, 6, 2)]), ready_of (by decide +kernel), by decide +kernel⟩

/-- Obligations.WatchRangeAndRegionCommands, clause 6. -/
theorem witness_WatchRangeAndRegionCommands_6 : ∃ (src : CmdSrc) (s : State) (pkt : Bytes),
    Ready s src 0x0703 pkt ∧
    ((∀ f ∈ s.rangeFields pkt, f.1 = false)) ∧
    (s.set (setOf pkt)).state = .stopped ∧
    (s.set (setOf pkt)).replaying = false ∧
    s.interp.deferred = [] :=
  ⟨.chain, (wAt (wStopped) (wPkt 0x0703 [(0x18, 6, 8190), (0x20, 6, 2)])), (wPkt 0x0703 [(0x18, 6, 8190), (0x20, 6, 2)]), ready_of (by decide +kernel), by decide +kernel⟩

/-- Obligations.WatchRangeAndRegionCommands, clause 7. -/
theorem witness_WatchRangeAndRegionCommands_7 : ∃ (src : CmdSrc) (s : State) (d : Deferred),
    s.interp.deferred = [d] ∧
    d.src = src ∧
    opcodeOf d.packet = 0x0702 ∧
    d.walks = 1 ∧
    d.count2 = 1 ∧
    d.waitWrites = [] ∧
    s.scc.lines = [] :=
  ⟨.chain, ({ wSets with interp := { Interp.at0 with deferred := [{ src := .chain, packet := wPkt 0x0702 [(0x20, 6, 2)], keys := [], waitWrites := [], count := 0, count2 := 1, walks := 1, waits := [], blocks := [], lost := [] }] } }), ({ src := .chain, packet := wPkt 0x0702 [(0x20, 6, 2)], keys := [], waitWrites := [], count := 0, count2 := 1, walks := 1, waits := [], blocks := [], lost := [] }), by decide⟩

/-- Obligations.WatchRangeAndRegionCommands, clause 8. -/
theorem witness_WatchRangeAndRegionCommands_8 : ∃ (src : CmdSrc) (s : State) (pkt : Bytes),
    Ready s src 0x0705 pkt ∧
    setOf pkt < 64 ∧
    regionNo pkt < 16 ∧
    (byteAt pkt 0x12).toNat = 1 ∧
    (byteAt pkt 0x17).toNat < 8 ∧
    s.regionBad pkt = false ∧
    (s.set (setOf pkt)).state = .stopped ∧
    (s.set (setOf pkt)).replaying = false :=
  ⟨.chain, (wAt (wStopped) (wPkt 0x0705 [(0x11, 1, 15), (0x12, 1, 1), (0x17, 1, 7), (0x18, 6, 2), (0x20, 6, 4)])), (wPkt 0x0705 [(0x11, 1, 15), (0x12, 1, 1), (0x17, 1, 7), (0x18, 6, 2), (0x20, 6, 4)]), ready_of (by decide +kernel), by decide +kernel⟩

/-- Obligations.ServiceCommands, clause 1. -/
theorem witness_ServiceCommands_1 : ∃ (src : CmdSrc) (s : State) (pkt : Bytes),
    Ready s src 0x0802 pkt ∧
    s.flt.first.valid = true ∧
    s.flt.first.acked = false ∧
    s.flt.first.fixNs.toNat = leAt pkt 0x18 8 :=
  ⟨.chain, (wAt ({ wSets with flt := { wSets.flt with first := { wSets.flt.first with valid := true, fixNs := 7 } } }) (wPkt 0x0802 [(0x18, 8, 7)])), (wPkt 0x0802 [(0x18, 8, 7)]), ready_of (by decide +kernel), by decide +kernel⟩

/-- Obligations.ServiceCommands, clause 2. -/
theorem witness_ServiceCommands_2 : ∃ (src : CmdSrc) (s : State) (pkt : Bytes),
    Ready s src 0x0803 pkt ∧
    (byteAt pkt 0x11).toNat = 0 ∧
    sourceAssigned (byteAt pkt 0x10) = true :=
  ⟨.chain, (wAt ((wSets.raise 0xD3 .warn 5)) (wPkt 0x0803 [(0x10, 1, 0xD3)])), (wPkt 0x0803 [(0x10, 1, 0xD3)]), ready_of (by decide +kernel), by decide +kernel⟩

/-- Obligations.ServiceCommands, clause 3. -/
theorem witness_ServiceCommands_3 : ∃ (src : CmdSrc) (s : State) (pkt : Bytes),
    Ready s src 0x0803 pkt ∧
    (byteAt pkt 0x11).toNat = 1 :=
  ⟨.chain, (wAt ((wSets.raise 0xD3 .warn 5)) (wPkt 0x0803 [(0x11, 1, 1)])), (wPkt 0x0803 [(0x11, 1, 1)]), ready_of (by decide +kernel), by decide +kernel⟩

/-- Obligations.ServiceCommands, clause 4. -/
theorem witness_ServiceCommands_4 : ∃ (src : CmdSrc) (s : State) (pkt : Bytes),
    Ready s src 0x0804 pkt ∧
    (byteAt pkt 0x10).toNat < 11 ∧
    (byteAt pkt 0x11).toNat < 4 ∧
    leAt pkt 0x12 2 = 0 ∧
    ((∀ t, t < 4 → tableBytes pkt t = 0)) ∧
    leAt pkt 0x30 8 % 64 = 0 ∧
    ((∀ f ∈ bufFields src pkt 0x30 (2 ^ 20), f.1 = false)) :=
  ⟨.chain, (wAt (wSets) (wPkt 0x0804 [(0x10, 1, 10), (0x11, 1, 3), (0x3C, 1, 1)])), (wPkt 0x0804 [(0x10, 1, 10), (0x11, 1, 3), (0x3C, 1, 1)]), ready_of (by decide +kernel), by decide +kernel⟩

/-- Obligations.ServiceCommands, clause 5. -/
theorem witness_ServiceCommands_5 : ∃ (src : CmdSrc) (s : State) (pkt : Bytes) (code : List Word32),
    Ready s src 0x0804 pkt ∧
    (byteAt pkt 0x10).toNat < 11 ∧
    (byteAt pkt 0x11).toNat < 4 ∧
    0 < leAt pkt 0x12 2 ∧
    leAt pkt 0x12 2 ≤ 256 ∧
    ((∀ t, t < 4 → tableBytes pkt t = 0)) ∧
    leAt pkt 0x30 8 % 64 = 0 ∧
    programBytes (leAt pkt 0x12 2) ≤ bufLen pkt 0x30 ∧
    byteAt pkt 0x3C = 1 ∧
    ((∀ f ∈ bufFields src pkt 0x30 (2 ^ 20), f.1 = false)) ∧
    s.reactionTables (reactionSlot pkt) ≤ 2 ^ 18 ∧
    code = codeOf (leAt pkt 0x12 2) (Memory.readBytes s.interp.scratch (leAt pkt 0x30 8) (bufLen pkt 0x30)) ∧
    verifyProgram (reactionInsOk (fun _ => none)) code = none :=
  ⟨.chain, (wAt (wScratch wSets [encodeSiette .done]) (wPkt 0x0804 [(0x10, 1, 10), (0x11, 1, 3), (0x12, 2, 1), (0x38, 4, 64), (0x3C, 1, 1)])), (wPkt 0x0804 [(0x10, 1, 10), (0x11, 1, 3), (0x12, 2, 1), (0x38, 4, 64), (0x3C, 1, 1)]), ([encodeSiette .done]), ready_of (by decide +kernel), by decide +kernel⟩

/-- Obligations.ServiceCommands, clause 6. -/
theorem witness_ServiceCommands_6 : ∃ (src : CmdSrc) (s : State) (pkt : Bytes),
    Ready s src 0x0901 pkt ∧
    (byteAt pkt 0x10).toNat < 17 ∧
    (byteAt pkt 0x10).toNat < Config.banks s.part ∧
    s.bankLive (BitVec.ofNat 5 (byteAt pkt 0x10).toNat) = true ∧
    s.log.spare.isSome = true :=
  ⟨.chain, (wAt (wSets) (wPkt 0x0901 [(0x10, 1, 0)])), (wPkt 0x0901 [(0x10, 1, 0)]), ready_of (by decide +kernel), by decide +kernel⟩

/-- Obligations.ServiceCommands, clause 7. -/
theorem witness_ServiceCommands_7 : ∃ (src : CmdSrc) (s : State) (pkt : Bytes),
    Ready s src 0x0A02 pkt :=
  ⟨.chain, (wAt (wSets) (wPkt 0x0A02 [])), (wPkt 0x0A02 []), ready_of (by decide +kernel)⟩

/-- Obligations.ServiceCommands, clause 8. -/
theorem witness_ServiceCommands_8 : ∃ (src : CmdSrc) (s : State) (pkt : Bytes),
    Ready s src 0x0B01 pkt ∧
    (byteAt pkt 0x10).toNat < 2 ∧
    Config.hasPair s.part = true ∧
    s.setsFree (fun a => decide (a.state ≠ .stopped)) = none ∧
    s.pair.state = .single :=
  ⟨.chain, (wAt (wHost) (wPkt 0x0B01 [(0x10, 1, 1)])), (wPkt 0x0B01 [(0x10, 1, 1)]), ready_of (by decide +kernel), by decide +kernel⟩

/-- Obligations.ServiceCommands, clause 9. -/
theorem witness_ServiceCommands_9 : ∃ (src : CmdSrc) (s : State) (pkt : Bytes),
    Ready s src 0x0B02 pkt ∧
    Config.hasPair s.part = true ∧
    s.setsFree (fun a => decide (a.state ≠ .stopped)) = none ∧
    s.pair.state = .paired :=
  ⟨.chain, (wAt ({ wHost with pair := { Pair.at0 with state := .paired } }) (wPkt 0x0B02 [])), (wPkt 0x0B02 []), ready_of (by decide +kernel), by decide +kernel⟩

/-- Obligations.ServiceCommands, clause 10. -/
theorem witness_ServiceCommands_10 : ∃ (src : CmdSrc) (s : State) (pkt : Bytes),
    Ready s src 0x0C01 pkt ∧
    leAt pkt 0x14 4 = 0 ∧
    leAt pkt 0x18 4 ≤ 2 ^ 24 ∧
    leAt pkt 0x20 8 % 64 = 0 ∧
    bufLen pkt 0x20 ≤ leAt pkt 0x18 4 ∧
    leAt pkt 0x20 8 + bufLen pkt 0x20 ≤ 65536 ∧
    byteAt pkt 0x2C = 1 ∧
    (byteAt pkt 0x2D = 0 ∧ byteAt pkt 0x2E = 0 ∧ byteAt pkt 0x2F = 0) :=
  ⟨.chain, (wAt (wScratch wSets [0x4E504657]) (wPkt 0x0C01 [(0x18, 4, 0x1000000), (0x28, 4, 64), (0x2C, 1, 1)])), (wPkt 0x0C01 [(0x18, 4, 0x1000000), (0x28, 4, 64), (0x2C, 1, 1)]), ready_of (by decide +kernel), by decide +kernel⟩

/-- Obligations.ServiceCommands, clause 11. -/
theorem witness_ServiceCommands_11 (hv : ∀ a b c, Config.ecdsaVerify a b c = true) : ∃ (src : CmdSrc) (s : State) (pkt : Bytes),
    Ready s src 0x0C02 pkt ∧
    (byteAt pkt 0x10).toNat = 0 ∧
    s.stageSlot.covered = true ∧
    imageFault s.part s.sec s.stageSlot = none ∧
    s.gcs.phase ≠ .romRecovery :=
  ⟨.chain, (wAt ({ wSets with sec := wSec }) (wPkt 0x0C02 [])), (wPkt 0x0C02 []), ready_of (by decide +kernel), by decide +kernel, by decide +kernel, image_at rfl rfl rfl hv, by decide +kernel⟩

/-- Obligations.ServiceCommands, clause 12. -/
theorem witness_ServiceCommands_12 (hv : ∀ a b c, Config.ecdsaVerify a b c = true) : ∃ (src : CmdSrc) (s : State) (pkt : Bytes),
    Ready s src 0x0C02 pkt ∧
    (byteAt pkt 0x10).toNat = 1 ∧
    s.stageSlot.covered = true ∧
    imageFault s.part s.sec s.stageSlot = none ∧
    s.gcs.phase ≠ .romRecovery :=
  ⟨.chain, (wAt ({ wSets with sec := wSec }) (wPkt 0x0C02 [(0x10, 1, 1)])), (wPkt 0x0C02 [(0x10, 1, 1)]), ready_of (by decide +kernel), by decide +kernel, by decide +kernel, image_at rfl rfl rfl hv, by decide +kernel⟩

/-- Obligations.ServiceCommands, clause 13. -/
theorem witness_ServiceCommands_13 : ∃ (src : CmdSrc) (s : State) (pkt : Bytes) (d : Byte),
    Ready s src 0x0C02 pkt ∧
    (byteAt pkt 0x10).toNat < 2 ∧
    s.stageSlot.covered = true ∧
    imageFault s.part s.sec s.stageSlot = some d :=
  ⟨.chain, (wAt (wSets) (wPkt 0x0C02 [(0x10, 1, 1)])), (wPkt 0x0C02 [(0x10, 1, 1)]), 3, ready_of (by decide +kernel), by decide +kernel⟩

/-- Obligations.ServiceCommands, clause 14. -/
theorem witness_ServiceCommands_14 : ∃ (src : CmdSrc) (s : State) (pkt : Bytes),
    Ready s src 0x0D01 pkt ∧
    sourceAssigned (byteAt pkt 0x10) = true ∧
    (byteAt pkt 0x10 ≠ 0x02 ∧ byteAt pkt 0x10 ≠ 0x24 ∧ byteAt pkt 0x10 ≠ 0x25) ∧
    (byteAt pkt 0x11).toNat < 2 ∧
    s.sourceAbsent (byteAt pkt 0x10) = false :=
  ⟨.chain, (wAt (wSets) (wPkt 0x0D01 [(0x10, 1, 0xD3), (0x11, 1, 1), (0x12, 1, 9)])), (wPkt 0x0D01 [(0x10, 1, 0xD3), (0x11, 1, 1), (0x12, 1, 9)]), ready_of (by decide +kernel), by decide +kernel⟩

/-- Obligations.SietteInstructions, clause 1. -/
theorem witness_SietteInstructions_1 : ∃ (k : BitVec 7) (rd : GReg) (ra : GReg) (rb : GReg) (s : State),
    s.atIns k (.add rd ra rb) = true :=
  ⟨63, 15, 1, 2, (wIns (.add 15 1 2)), by decide +kernel⟩

/-- Obligations.SietteInstructions, clause 2. -/
theorem witness_SietteInstructions_2 : ∃ (k : BitVec 7) (rd : GReg) (ra : GReg) (rb : GReg) (s : State),
    s.atIns k (.sub rd ra rb) = true :=
  ⟨63, 15, 1, 2, (wIns (.sub 15 1 2)), by decide +kernel⟩

/-- Obligations.SietteInstructions, clause 3. -/
theorem witness_SietteInstructions_3 : ∃ (k : BitVec 7) (rd : GReg) (ra : GReg) (rb : GReg) (s : State),
    s.atIns k (.and rd ra rb) = true :=
  ⟨63, 15, 1, 2, (wIns (.and 15 1 2)), by decide +kernel⟩

/-- Obligations.SietteInstructions, clause 4. -/
theorem witness_SietteInstructions_4 : ∃ (k : BitVec 7) (rd : GReg) (ra : GReg) (rb : GReg) (s : State),
    s.atIns k (.or rd ra rb) = true :=
  ⟨63, 15, 1, 2, (wIns (.or 15 1 2)), by decide +kernel⟩

/-- Obligations.SietteInstructions, clause 5. -/
theorem witness_SietteInstructions_5 : ∃ (k : BitVec 7) (rd : GReg) (ra : GReg) (rb : GReg) (s : State),
    s.atIns k (.xor rd ra rb) = true :=
  ⟨63, 15, 1, 2, (wIns (.xor 15 1 2)), by decide +kernel⟩

/-- Obligations.SietteInstructions, clause 6. -/
theorem witness_SietteInstructions_6 : ∃ (k : BitVec 7) (rd : GReg) (ra : GReg) (rb : GReg) (s : State),
    s.atIns k (.shl rd ra rb) = true :=
  ⟨63, 15, 1, 3, (wIns (.shl 15 1 3)), by decide +kernel⟩

/-- Obligations.SietteInstructions, clause 7. -/
theorem witness_SietteInstructions_7 : ∃ (k : BitVec 7) (rd : GReg) (ra : GReg) (rb : GReg) (s : State),
    s.atIns k (.shr rd ra rb) = true :=
  ⟨63, 15, 1, 3, (wIns (.shr 15 1 3)), by decide +kernel⟩

/-- Obligations.SietteInstructions, clause 8. -/
theorem witness_SietteInstructions_8 : ∃ (k : BitVec 7) (rd : GReg) (ra : GReg) (rb : GReg) (s : State),
    s.atIns k (.mul rd ra rb) = true :=
  ⟨63, 15, 1, 2, (wIns (.mul 15 1 2)), by decide +kernel⟩

/-- Obligations.SietteInstructions, clause 9. -/
theorem witness_SietteInstructions_9 : ∃ (k : BitVec 7) (rd : GReg) (ra : GReg) (rb : GReg) (s : State),
    s.atIns k (.mulhi rd ra rb) = true :=
  ⟨63, 15, 1, 2, (wIns (.mulhi 15 1 2)), by decide +kernel⟩

/-- Obligations.SietteInstructions, clause 10. -/
theorem witness_SietteInstructions_10 : ∃ (k : BitVec 7) (rd : GReg) (ra : GReg) (rb : GReg) (s : State),
    s.atIns k (.mix rd ra rb) = true :=
  ⟨63, 15, 1, 2, (wIns (.mix 15 1 2)), by decide +kernel⟩

/-- Obligations.SietteInstructions, clause 11. -/
theorem witness_SietteInstructions_11 : ∃ (k : BitVec 7) (rd : GReg) (ra : GReg) (rb : GReg) (s : State),
    s.atIns k (.sltu rd ra rb) = true :=
  ⟨63, 15, 1, 2, (wIns (.sltu 15 1 2)), by decide +kernel⟩

/-- Obligations.SietteInstructions, clause 12. -/
theorem witness_SietteInstructions_12 : ∃ (k : BitVec 7) (rd : GReg) (ra : GReg) (rb : GReg) (s : State),
    s.atIns k (.seq rd ra rb) = true :=
  ⟨63, 15, 1, 2, (wIns (.seq 15 1 2)), by decide +kernel⟩

/-- Obligations.SietteInstructions, clause 13. -/
theorem witness_SietteInstructions_13 : ∃ (k : BitVec 7) (rd : GReg) (ra : GReg) (imm : BitVec 18) (s : State),
    s.atIns k (.addi rd ra imm) = true :=
  ⟨63, 15, 1, 0x3FFF1, (wIns (.addi 15 1 0x3FFF1)), by decide +kernel⟩

/-- Obligations.SietteInstructions, clause 14. -/
theorem witness_SietteInstructions_14 : ∃ (k : BitVec 7) (rd : GReg) (ra : GReg) (imm : BitVec 18) (s : State),
    s.atIns k (.andi rd ra imm) = true :=
  ⟨63, 15, 1, 0x3FFF1, (wIns (.andi 15 1 0x3FFF1)), by decide +kernel⟩

/-- Obligations.SietteInstructions, clause 15. -/
theorem witness_SietteInstructions_15 : ∃ (k : BitVec 7) (rd : GReg) (ra : GReg) (imm : BitVec 18) (s : State),
    s.atIns k (.ori rd ra imm) = true :=
  ⟨63, 15, 1, 0x3FFF1, (wIns (.ori 15 1 0x3FFF1)), by decide +kernel⟩

/-- Obligations.SietteInstructions, clause 16. -/
theorem witness_SietteInstructions_16 : ∃ (k : BitVec 7) (rd : GReg) (ra : GReg) (imm : BitVec 18) (s : State),
    s.atIns k (.xori rd ra imm) = true :=
  ⟨63, 15, 1, 0x3FFF1, (wIns (.xori 15 1 0x3FFF1)), by decide +kernel⟩

/-- Obligations.SietteInstructions, clause 17. -/
theorem witness_SietteInstructions_17 : ∃ (k : BitVec 7) (rd : GReg) (ra : GReg) (imm : BitVec 18) (s : State),
    s.atIns k (.shli rd ra imm) = true :=
  ⟨63, 15, 1, 63, (wIns (.shli 15 1 63)), by decide +kernel⟩

/-- Obligations.SietteInstructions, clause 18. -/
theorem witness_SietteInstructions_18 : ∃ (k : BitVec 7) (rd : GReg) (ra : GReg) (imm : BitVec 18) (s : State),
    s.atIns k (.shri rd ra imm) = true :=
  ⟨63, 15, 1, 63, (wIns (.shri 15 1 63)), by decide +kernel⟩

/-- Obligations.SietteInstructions, clause 19. -/
theorem witness_SietteInstructions_19 : ∃ (k : BitVec 7) (rd : GReg) (lane : BitVec 2) (imm : BitVec 16) (s : State),
    s.atIns k (.movi rd lane imm) = true :=
  ⟨63, 1, 3, 0x1234, (wIns (.movi 1 3 0x1234)), by decide +kernel⟩

/-- Obligations.SietteInstructions, clause 20. -/
theorem witness_SietteInstructions_20 : ∃ (k : BitVec 7) (rd : GReg) (lane : BitVec 2) (imm : BitVec 16) (s : State),
    s.atIns k (.movk rd lane imm) = true :=
  ⟨63, 1, 3, 0x1234, (wIns (.movk 1 3 0x1234)), by decide +kernel⟩

/-- Obligations.SietteInstructions, clause 21. -/
theorem witness_SietteInstructions_21 : ∃ (k : BitVec 7) (rd : GReg) (rc : GReg) (ra : GReg) (rb : GReg) (s : State),
    s.atIns k (.sel rd rc ra rb) = true :=
  ⟨63, 0, 0, 1, 2, (wIns (.sel 0 0 1 2)), by decide +kernel⟩

/-- Obligations.SietteInstructions, clause 22. -/
theorem witness_SietteInstructions_22 : ∃ (k : BitVec 7) (rd : GReg) (ra : GReg) (rb : GReg) (s : State),
    s.atIns k (.divm rd ra rb) = true ∧
    (s.ctx k.toNat).get rb ≠ 0 :=
  ⟨63, 15, 1, 2, (wIns (.divm 15 1 2)), by decide +kernel⟩

/-- Obligations.SietteInstructions, clause 23. -/
theorem witness_SietteInstructions_23 : ∃ (k : BitVec 7) (rd : GReg) (ra : GReg) (rb : GReg) (s : State) (q : LookupReq),
    s.atIns k (.divm rd ra rb) = true ∧
    (s.ctx k.toNat).get rb = 0 ∧
    (s.ctx k.toNat).use = .lookup q :=
  ⟨63, 15, 1, 0, (wIns (.divm 15 1 0)), wReq, by decide +kernel⟩

/-- Obligations.SietteInstructions, clause 24. -/
theorem witness_SietteInstructions_24 : ∃ (k : BitVec 7) (rd : GReg) (ra : GReg) (rb : GReg) (s : State),
    s.atIns k (.modr rd ra rb) = true ∧
    (s.ctx k.toNat).get rb ≠ 0 :=
  ⟨63, 15, 1, 2, (wIns (.modr 15 1 2)), by decide +kernel⟩

/-- Obligations.SietteInstructions, clause 25. -/
theorem witness_SietteInstructions_25 : ∃ (k : BitVec 7) (rd : GReg) (ra : GReg) (rb : GReg) (s : State) (q : LookupReq),
    s.atIns k (.modr rd ra rb) = true ∧
    (s.ctx k.toNat).get rb = 0 ∧
    (s.ctx k.toNat).use = .lookup q :=
  ⟨63, 15, 1, 0, (wIns (.modr 15 1 0)), wReq, by decide +kernel⟩

/-- Obligations.SietteInstructions, clause 26. -/
theorem witness_SietteInstructions_26 : ∃ (k : BitVec 7) (ra : GReg) (off : BitVec 8) (s : State),
    s.atIns k (.bz ra off) = true :=
  ⟨63, 1, 1, (wIns (.bz 1 1)), by decide +kernel⟩

/-- Obligations.SietteInstructions, clause 27. -/
theorem witness_SietteInstructions_27 : ∃ (k : BitVec 7) (ra : GReg) (off : BitVec 8) (s : State),
    s.atIns k (.bnz ra off) = true :=
  ⟨63, 1, 1, (wIns (.bnz 1 1)), by decide +kernel⟩

/-- Obligations.SietteInstructions, clause 28. -/
theorem witness_SietteInstructions_28 : ∃ (k : BitVec 7) (off : BitVec 8) (s : State),
    s.atIns k (.br off) = true :=
  ⟨63, 1, (wIns (.br 1)), by decide +kernel⟩

/-- Obligations.SietteInstructions, clause 29. -/
theorem witness_SietteInstructions_29 : ∃ (k : BitVec 7) (ra : GReg) (rb : GReg) (s : State),
    s.atIns k (.skeq ra rb) = true :=
  ⟨63, 2, 1, (wIns (.skeq 2 1)), by decide +kernel⟩

/-- Obligations.SietteInstructions, clause 30. -/
theorem witness_SietteInstructions_30 : ∃ (k : BitVec 7) (ra : GReg) (rb : GReg) (s : State),
    s.atIns k (.skne ra rb) = true :=
  ⟨63, 2, 1, (wIns (.skne 2 1)), by decide +kernel⟩

/-- Obligations.SietteInstructions, clause 31. -/
theorem witness_SietteInstructions_31 : ∃ (k : BitVec 7) (ra : GReg) (rb : GReg) (s : State),
    s.atIns k (.sklt ra rb) = true :=
  ⟨63, 2, 1, (wIns (.sklt 2 1)), by decide +kernel⟩

/-- Obligations.SietteTablesAndActions, clause 1. -/
theorem witness_SietteTablesAndActions_1 : ∃ (k : BitVec 7) (rd : GReg) (ra : GReg) (n : BitVec 2) (w : BitVec 2) (words : TableWords) (s : State) (tb : STable),
    s.atIns k (.ldt rd ra n w) = true ∧
    Tab.get (s.ctx k.toNat).prog.tables none n.toNat = some tb ∧
    tb.width = w ∧
    ((s.ctx k.toNat).get ra).toNat < tb.size / 2 ^ w.toNat ∧
    words ≠ .allBad :=
  ⟨63, 15, 4, 2, 3, .mapBad, (wIns (.ldt 15 4 2 3)), ({ width := 3, size := 64, bytes := [(40, 9)] }), by decide +kernel⟩

/-- Obligations.SietteTablesAndActions, clause 2. -/
theorem witness_SietteTablesAndActions_2 : ∃ (k : BitVec 7) (rd : GReg) (ra : GReg) (n : BitVec 2) (w : BitVec 2) (words : TableWords) (s : State) (tb : STable) (q : LookupReq),
    s.atIns k (.ldt rd ra n w) = true ∧
    (s.ctx k.toNat).use = .lookup q ∧
    Tab.get (s.ctx k.toNat).prog.tables none n.toNat = some tb ∧
    tb.width = w ∧
    tb.size / 2 ^ w.toNat ≤ ((s.ctx k.toNat).get ra).toNat :=
  ⟨63, 15, 3, 2, 3, .good, (wIns (.ldt 15 3 2 3)), ({ width := 3, size := 64, bytes := [(40, 9)] }), wReq, by decide +kernel⟩

/-- Obligations.SietteTablesAndActions, clause 3. -/
theorem witness_SietteTablesAndActions_3 : ∃ (k : BitVec 7) (rd : GReg) (ra : GReg) (s : State),
    s.atIns k (.ptest rd ra) = true :=
  ⟨63, 15, 2, (wIns (.ptest 15 2)), by decide +kernel⟩

/-- Obligations.SietteTablesAndActions, clause 4. -/
theorem witness_SietteTablesAndActions_4 : ∃ (k : BitVec 7) (ra : GReg) (rb : GReg) (s : State) (q : LookupReq),
    s.atIns k (.emit ra rb) = true ∧
    (s.ctx k.toNat).use = .lookup q :=
  ⟨63, 2, 4, (wIns (.emit 2 4)), wReq, by decide +kernel⟩

/-- Obligations.SietteTablesAndActions, clause 5. -/
theorem witness_SietteTablesAndActions_5 : ∃ (k : BitVec 7) (code : BitVec 14) (s : State) (q : LookupReq),
    s.atIns k (.fault code) = true ∧
    (s.ctx k.toNat).use = .lookup q :=
  ⟨63, 0x3FFF, (wIns (.fault 0x3FFF)), wReq, by decide +kernel⟩

/-- Obligations.SietteTablesAndActions, clause 6. -/
theorem witness_SietteTablesAndActions_6 : ∃ (code : BitVec 14) (s : State) (r : Reaction),
    s.atIns 64 (.fault code) = true ∧
    (s.ctx 64).use = .reaction r :=
  ⟨0x3FFF, (wReacts (.fault 0x3FFF)), wReact, by decide +kernel⟩

/-- Obligations.SietteTablesAndActions, clause 7. -/
theorem witness_SietteTablesAndActions_7 : ∃ (s : State) (r : Reaction),
    s.atIns 64 .done = true ∧
    (s.ctx 64).use = .reaction r :=
  ⟨(wReacts .done), wReact, by decide +kernel⟩

/-- Obligations.SietteTablesAndActions, clause 8. -/
theorem witness_SietteTablesAndActions_8 : ∃ (k : BitVec 7) (rd : GReg) (i : BitVec 14) (s : State),
    s.atIns k (.crr rd i) = true :=
  ⟨64, 15, 0x30, (wReacts (.crr 15 0x30)), by decide +kernel⟩

/-- Obligations.SietteTablesAndActions, clause 9. -/
theorem witness_SietteTablesAndActions_9 : ∃ (k : BitVec 7) (ra : GReg) (i : BitVec 14) (s : State),
    s.atIns k (.crw ra i) = true ∧
    i.toNat < 16 :=
  ⟨64, 1, 15, (wReacts (.crw 1 15)), by decide +kernel⟩

/-- Obligations.SietteTablesAndActions, clause 10. -/
theorem witness_SietteTablesAndActions_10 : ∃ (k : BitVec 7) (ra : GReg) (s : State),
    s.atIns k (.crw ra 0x22) = true :=
  ⟨64, 1, (wReacts (.crw 1 0x22)), by decide +kernel⟩

/-- Obligations.SietteTablesAndActions, clause 11. -/
theorem witness_SietteTablesAndActions_11 : ∃ (k : BitVec 7) (ra : GReg) (s : State),
    s.atIns k (.crw ra 0x24) = true :=
  ⟨64, 1, (wReacts (.crw 1 0x24)), by decide +kernel⟩

/-- Obligations.SietteTablesAndActions, clause 12. -/
theorem witness_SietteTablesAndActions_12 : ∃ (k : BitVec 7) (ra : GReg) (event : BitVec 14) (s : State) (r : Reaction),
    s.atIns k (.raise ra event) = true ∧
    (s.ctx k.toNat).use = .reaction r :=
  ⟨64, 1, 0x3FFF, (wReacts (.raise 1 0x3FFF)), wReact, by decide +kernel⟩

/-- Obligations.SietteTablesAndActions, clause 13. -/
theorem witness_SietteTablesAndActions_13 : ∃ (k : BitVec 7) (ra : GReg) (s : State) (r : Reaction),
    s.atIns k (.act ra 1) = true ∧
    (s.ctx k.toNat).use = .reaction r :=
  ⟨64, 1, (wReacts (.act 1 1)), wReact, by decide +kernel⟩

/-- Obligations.SietteTablesAndActions, clause 14. -/
theorem witness_SietteTablesAndActions_14 : ∃ (k : BitVec 7) (ra : GReg) (s : State) (r : Reaction) (v : Nat),
    s.atIns k (.act ra 2) = true ∧
    (s.ctx k.toNat).use = .reaction r ∧
    ((s.ctx k.toNat).get ra).toNat = v ∧
    v < 64 ∧
    (s.set v).state ≠ .empty :=
  ⟨64, 0, (wReacts (.act 0 2)), wReact, 0, by decide +kernel⟩

/-- Obligations.SietteTablesAndActions, clause 15. -/
theorem witness_SietteTablesAndActions_15 : ∃ (k : BitVec 7) (ra : GReg) (s : State) (r : Reaction) (v : Nat),
    s.atIns k (.act ra 3) = true ∧
    (s.ctx k.toNat).use = .reaction r ∧
    ((s.ctx k.toNat).get ra).toNat = v ∧
    v < 64 ∧
    (s.set v).state = .running ∧
    ((∀ x ∈ s.log.recs, x.set.toNat ≠ v)) :=
  ⟨64, 0, (wReacts (.act 0 3)), wReact, 0, by decide +kernel⟩

/-- Obligations.SietteTablesAndActions, clause 16. -/
theorem witness_SietteTablesAndActions_16 : ∃ (k : BitVec 7) (ra : GReg) (s : State) (r : Reaction) (p : Byte),
    s.atIns k (.act ra 4) = true ∧
    (s.ctx k.toNat).use = .reaction r ∧
    ((s.ctx k.toNat).get ra).toNat = p.toNat ∧
    s.portPresent p = true ∧
    (s.port p).state ≠ .merged ∧
    s.outstanding p = [] :=
  ⟨64, 2, (wReacts (.act 2 4)), wReact, 3, by decide +kernel⟩

/-- Obligations.SietteTablesAndActions, clause 17. -/
theorem witness_SietteTablesAndActions_17 : ∃ (k : BitVec 7) (ra : GReg) (s : State) (r : Reaction) (p : Bool),
    s.atIns k (.act ra 5) = true ∧
    (s.ctx k.toNat).use = .reaction r ∧
    ((s.ctx k.toNat).get ra).toNat = ofBool p ∧
    (s.hpu p).contained = false :=
  ⟨64, 0, (wReacts (.act 0 5)), wReact, false, by decide +kernel⟩

/-- Obligations.SietteTablesAndActions, clause 18. -/
theorem witness_SietteTablesAndActions_18 : ∃ (k : BitVec 7) (ra : GReg) (s : State) (r : Reaction) (n : Byte),
    s.atIns k (.act ra 6) = true ∧
    (s.ctx k.toNat).use = .reaction r ∧
    ((s.ctx k.toNat).get ra).toNat = n.toNat ∧
    sourceAssigned n = true :=
  ⟨64, 2, (wReacts (.act 2 6)), wReact, 3, by decide +kernel⟩

/-- Obligations.SietteTablesAndActions, clause 19. -/
theorem witness_SietteTablesAndActions_19 : ∃ (k : BitVec 7) (ra : GReg) (s : State) (r : Reaction),
    s.atIns k (.act ra 7) = true ∧
    (s.ctx k.toNat).use = .reaction r :=
  ⟨64, 2, (wReacts (.act 2 7)), wReact, by decide +kernel⟩

/-- Obligations.SietteTablesAndActions, clause 20. -/
theorem witness_SietteTablesAndActions_20 : ∃ (ra : GReg) (s : State) (r : Reaction),
    s.atIns 64 (.act ra 2) = true ∧
    (s.ctx 64).use = .reaction r ∧
    64 ≤ ((s.ctx 64).get ra).toNat :=
  ⟨3, (wReacts (.act 3 2)), wReact, by decide +kernel⟩

/-- Obligations.SietteTablesAndActions, clause 21. -/
theorem witness_SietteTablesAndActions_21 : ∃ (s : State) (r : Reaction) (rest : List Reaction),
    s.flt.queue = r :: rest ∧
    s.gcs.halted = false ∧
    (s.ctx 64).use = .idle :=
  ⟨({ wSets with flt := { wSets.flt with queue := [wReact] } }), wReact, [], by decide +kernel⟩

/-- Obligations.SietteTablesAndActions, clause 22. -/
theorem witness_SietteTablesAndActions_22 : ∃ (k : BitVec 7) (rd : GReg) (ra : GReg) (n : BitVec 2) (w : BitVec 2) (words : TableWords) (s : State) (tb : STable) (q : LookupReq),
    s.atIns k (.ldt rd ra n w) = true ∧
    (s.ctx k.toNat).use = .lookup q ∧
    Tab.get (s.ctx k.toNat).prog.tables none n.toNat = some tb ∧
    tb.width = w ∧
    ((s.ctx k.toNat).get ra).toNat < tb.size / 2 ^ w.toNat :=
  ⟨63, 15, 4, 2, 3, .allBad, (wIns (.ldt 15 4 2 3)), ({ width := 3, size := 64, bytes := [(40, 9)] }), wReq, by decide +kernel⟩

/-- Obligations.SietteWordsRoundTrip, clause 2. -/
theorem witness_SietteWordsRoundTrip_2 : ∃ (w : Word32) (i : SIns),
    decodeSiette w = some i :=
  ⟨0xF0000000, .done, by decide +kernel⟩

/-- Obligations.CommandMachinery, clause 1. -/
theorem witness_CommandMachinery_1 : ∃ (src : CmdSrc) (s : State) (op : Nat) (pkt : Bytes) (c : Instr),
    s.frontPacket src = some pkt ∧
    opcodeOf pkt = op ∧
    (op, c) ∈ [(0x0106, .setRecover src), (0x0108, .setReadPreserved src), (0x0405, .portReset src), (0x0406, .portAdmin src), (0x0407, .groupPower src), (0x0601, .watchSetTod src), (0x0701, .cleanRange src), (0x0702, .invalRange src), (0x0703, .discardRange src), (0x0901, .calRun src), (0x0B01, .pairJoin src), (0x0B02, .pairLeave src), (0x0C02, .fwCommit src)] :=
  ⟨.chain, (wAt wHost (wPkt 0x0601 [])), 0x0601, (wPkt 0x0601 []), (.watchSetTod .chain), by decide +kernel, by decide +kernel, by simp⟩

/-- Obligations.CommandMachinery, clause 2. -/
theorem witness_CommandMachinery_2 : ∃ (src : CmdSrc) (s : State) (pkt : Bytes),
    Ready s src 0x0407 pkt ∧
    groupNo pkt < Config.groups s.part ∧
    (byteAt pkt 0x11).toNat = 1 ∧
    (byteAt pkt 0x12).toNat < 2 ∧
    leAt pkt 0x14 4 ≤ 60000 ∧
    (s.group (groupNo pkt)).state = .dark :=
  ⟨.chain, (wAt ({ wSets with portGroups := [(15, { Group.at0 with state := .dark })] }) (wPkt 0x0407 [(0x10, 1, 15), (0x11, 1, 1)])), (wPkt 0x0407 [(0x10, 1, 15), (0x11, 1, 1)]), ready_of (by decide +kernel), by decide +kernel⟩

/-- Obligations.CommandMachinery, clause 3. -/
theorem witness_CommandMachinery_3 : ∃ (src : CmdSrc) (s : State) (h : HostRead) (w : BufWait) (data : Bytes) (code : List Word32),
    s.bufferRead src = some h ∧
    h.dead = false ∧
    s.bufWait src = some w ∧
    w.src = src ∧
    opcodeOf w.packet = 0x0301 ∧
    code = codeOf (loadCount w.packet) (sliceAt data 0 (bufLen w.packet 0x20)) ∧
    verifyProgram chartInsOk code = none :=
  ⟨(.ring 2), (wBuf false wLoad), (wRead (.buffer (.ring 2))), ({ src := .ring 2, packet := wLoad, retried := false }), (leBytes 4 wChart.toNat), [wChart], by decide +kernel⟩

/-- Obligations.CommandMachinery, clause 4. -/
theorem witness_CommandMachinery_4 : ∃ (src : CmdSrc) (s : State) (h : HostRead) (w : BufWait),
    s.bufferRead src = some h ∧
    h.dead = false ∧
    s.bufWait src = some w ∧
    w.retried = true ∧
    s.interp.deferred = [] :=
  ⟨(.ring 2), (wBuf true wLoad), (wRead (.buffer (.ring 2))), ({ src := .ring 2, packet := wLoad, retried := true }), by decide +kernel⟩

/-- Obligations.CommandMachinery, clause 5. -/
theorem witness_CommandMachinery_5 : ∃ (src : CmdSrc) (s : State) (h : HostRead) (w : BufWait),
    s.bufferRead src = some h ∧
    h.dead = false ∧
    s.bufWait src = some w ∧
    w.retried = false :=
  ⟨(.ring 2), (wBuf false wLoad), (wRead (.buffer (.ring 2))), ({ src := .ring 2, packet := wLoad, retried := false }), by decide +kernel⟩

/-- Obligations.CommandMachinery, clause 6. -/
theorem witness_CommandMachinery_6 : ∃ (s : State),
    s.gcs.pwrgd = true ∧
    s.gcs.phase ≠ .boot ∧
    s.interp.fwRestart = none ∧
    s.escalates (fault 0x03 .contain 1) = false :=
  ⟨wHost, by decide +kernel⟩

/-- Obligations.CommandMachinery, clause 7. -/
theorem witness_CommandMachinery_7 : ∃ (s : State),
    s.interp.fwRestart = some none :=
  ⟨({ wHost with interp := { Interp.at0 with fwRestart := some none } }), by decide⟩

/-- Obligations.CommandMachinery, clause 8. -/
theorem witness_CommandMachinery_8 (hv : ∀ a b c, Config.ecdsaVerify a b c = true) : ∃ (s : State) (src : CmdSrc) (b : Bool),
    s.interp.fwRestart = some (some src) ∧
    s.sec.pending = some b ∧
    imageFault s.part s.sec (s.sec.slot b) = none :=
  ⟨({ wSets with sec := { wSec with pending := some true }, interp := { Interp.at0 with fwRestart := some (some .chain) } }), .chain, true, by decide +kernel, by decide +kernel, image_at rfl rfl rfl hv⟩

/-- Obligations.CommandMachinery, clause 9. -/
theorem witness_CommandMachinery_9 : ∃ (cls : LookupClass) (s : State) (c : Nat) (req : LookupReq) (prog : SProg),
    s.freeCtx = some c ∧
    s.cht.waiting.find? (fun r => r.cls = cls) = some req ∧
    s.mayAccept cls = true ∧
    s.slotProg req.rev.slot.toNat = some prog :=
  ⟨.hostIo, ({ wSets with cht := { wSets.cht with waiting := [wReq] } }), 0, wReq, wProg, by decide +kernel⟩

/-- Obligations.CommandMachinery, clause 10. -/
theorem witness_CommandMachinery_10 : ∃ (k : BitVec 7) (s : State) (req : LookupReq) (p : Byte) (dba : Nat),
    (s.ctx k.toNat).use = .lookup req ∧
    s.ctxBearing req ((s.ctx k.toNat).run (s.chartPtest (s.set req.set.toNat) req.rev) 256) = .at p dba ∧
    s.portServes p req.stripe = true :=
  ⟨63, (wSets.setCtx 63 (wSets.lookupCtx wReq wProg)), wReq, 1, 5, by decide +kernel⟩

/-- Obligations.CommandMachinery, clause 11. -/
theorem witness_CommandMachinery_11 : ∃ (k : BitVec 7) (s : State) (req : LookupReq) (d : Byte) (code : Byte) (pc : Nat),
    (s.ctx k.toNat).use = .lookup req ∧
    s.ctxBearing req ((s.ctx k.toNat).run (s.chartPtest (s.set req.set.toNat) req.rev) 256) = .failed d code pc :=
  ⟨63, (wSets.setCtx 63 (wSets.lookupCtx wReq { wProg with code := [encodeSiette (.fault 7)] })), wReq, 8, 7, 0, by decide +kernel⟩

/-- Obligations.CodingClusters, clause 1. -/
theorem witness_CodingClusters_1 : ∃ (s : State) (p : Pass) (rest : List Pass) (c : Bool) (e : Nat),
    s.passes = p :: rest ∧
    s.passCluster p = some c ∧
    (s.cluster c).shortestEngine = some e :=
  ⟨({ wSets with passes := [wPass] }), wPass, [], false, 0, by decide +kernel⟩

/-- Obligations.CodingClusters, clause 2. -/
theorem witness_CodingClusters_2 : ∃ (n : BitVec 5) (outputs : List Bytes) (s : State) (p : Pass) (rest : List Pass),
    (s.cluster (n.getLsbD 4)).engineQueue (n.toNat % 16) = p :: rest ∧
    outputs.length = p.coeffs.length ∧
    columnSumOk p.coeffs p.inputs outputs p.bytes = true ∧
    p.rowOp = none ∧
    p.commit = none ∧
    s.scc.asks = [] :=
  ⟨23, ([[2, 6]]), (wCluster true (fun v => { v with queues := [(7, [wPass])] })), wPass, [], by decide +kernel⟩

/-- Obligations.CodingClusters, clause 3. -/
theorem witness_CodingClusters_3 : ∃ (n : BitVec 5) (outputs : List Bytes) (s : State) (p : Pass) (rest : List Pass) (id : Nat) (c : CommitOp),
    (s.cluster (n.getLsbD 4)).engineQueue (n.toNat % 16) = p :: rest ∧
    outputs.length = p.coeffs.length ∧
    columnSumOk p.coeffs p.inputs outputs p.bytes = true ∧
    p.rowOp = none ∧
    p.commit = some id ∧
    s.commits.find? (fun c => c.id = id) = some c ∧
    c.intent = none ∧
    s.scc.asks = [] ∧
    s.gcs.phase ≠ .dock :=
  ⟨23, ([[2, 6]]), ({ (wCluster true (fun v => { v with queues := [(7, [{ wPass with commit := some 5 }])] })) with commits := [wCommit], log := { Log.at0 with nextSeq := 2, walked := true } }), ({ wPass with commit := some 5 }), [], 5, wCommit, by decide +kernel⟩

/-- Obligations.CodingClusters, clause 4. -/
theorem witness_CodingClusters_4 : ∃ (n : BitVec 5) (outputs : List Bytes) (s : State) (p : Pass) (rest : List Pass),
    (s.cluster (n.getLsbD 4)).engineQueue (n.toNat % 16) = p :: rest ∧
    n.toNat % 16 < 8 ∧
    ((outputs.length ≠ p.coeffs.length ∨ columnSumOk p.coeffs p.inputs outputs p.bytes = false)) ∧
    (s.cluster (n.getLsbD 4)).spareOk = true ∧
    (s.cluster (n.getLsbD 4)).spareFor = none :=
  ⟨23, ([[2, 7]]), (wCluster true (fun v => { v with queues := [(7, [wPass])] })), wPass, [], by decide +kernel⟩

/-- Obligations.CodingClusters, clause 5. -/
theorem witness_CodingClusters_5 : ∃ (c : Bool) (s : State),
    (s.cluster c).spareTesting = true :=
  ⟨true, (wCluster true (fun v => { v with spareTesting := true, spareOk := false })), by decide⟩

/-- Obligations.CodingClusters, clause 6. -/
theorem witness_CodingClusters_6 : ∃ (c : Bool) (s : State),
    (s.cluster c).spareTesting = true :=
  ⟨true, (wCluster true (fun v => { v with spareTesting := true, spareOk := false })), by decide⟩

/-- Obligations.CodingClusters, clause 7. -/
theorem witness_CodingClusters_7 : ∃ (s : State),
    s.gcs.phase ≠ .dock :=
  ⟨wSets, by decide⟩

/-- Obligations.CodingClusters, clause 8. -/
theorem witness_CodingClusters_8 : ∃ (s : State),
    s.gcs.phase ≠ .dock ∧
    s.clusterPresent false = true ∧
    (s.cluster false).spareOk = true ∧
    (s.cluster false).spareFor = none :=
  ⟨wSets, by decide⟩

/-- Obligations.CodingClusters, clause 9. -/
theorem witness_CodingClusters_9 : ∃ (p : Bool) (q : Bool) (s : State),
    s.gcs.phase = .dock :=
  ⟨true, false, wDock, by decide⟩

/-- Obligations.CodingClusters, clause 10. -/
theorem witness_CodingClusters_10 : ∃ (c : Bool) (s : State) (key : BitVec 6 × Word64) (rest : List (BitVec 6 × Word64)),
    (s.cluster c).solves = key :: rest ∧
    (s.cluster c).solverFenced = false ∧
    s.clusterPresent c = true ∧
    s.rowOps = [] :=
  ⟨true, (wCluster true (fun v => { v with solves := [(0, 3)], solveRetried := true })), (0, 3), [], by decide⟩

/-- Obligations.CodingClusters, clause 11. -/
theorem witness_CodingClusters_11 : ∃ (c : Bool) (s : State) (key : BitVec 6 × Word64) (rest : List (BitVec 6 × Word64)),
    (s.cluster c).solves = key :: rest ∧
    (s.cluster c).solverFenced = false ∧
    s.clusterPresent c = true ∧
    (s.cluster c).solveRetried = false :=
  ⟨true, (wCluster true (fun v => { v with solves := [(0, 3)] })), (0, 3), [], by decide⟩

/-- Obligations.CodingClusters, clause 12. -/
theorem witness_CodingClusters_12 : ∃ (c : Bool) (s : State) (key : BitVec 6 × Word64) (rest : List (BitVec 6 × Word64)),
    (s.cluster c).solves = key :: rest ∧
    (s.cluster c).solverFenced = false ∧
    s.clusterPresent c = true ∧
    (s.cluster c).solveRetried = true :=
  ⟨true, (wCluster true (fun v => { v with solves := [(0, 3)], solveRetried := true })), (0, 3), [], by decide⟩

/-- Obligations.CachesAndMapStore, clause 1. -/
theorem witness_CachesAndMapStore_1 : ∃ (key : Nat) (s : State),
    s.scc.moving = [] ∧
    (s.slot key).pin = true ∧
    (s.slot key).stale = false :=
  ⟨4, ({ wSets with scc := { wSets.scc with tier := [(4, { wLine with pin := true })] } }), by decide⟩

/-- Obligations.CachesAndMapStore, clause 2. -/
theorem witness_CachesAndMapStore_2 : ∃ (key : Nat) (i : Nat) (s : State),
    s.scc.moving = [(key, i)] ∧
    (s.slot key).pin = true ∧
    (s.slot key).key = (s.line i).key ∧
    (s.slot key).state ≠ .invalid :=
  ⟨4, 9, ({ wSets with scc := { wSets.scc with tier := [(4, { wLine with pin := true })], lines := [(9, { wLine with pin := true })], moving := [(4, 9)] } }), by decide⟩

/-- Obligations.CachesAndMapStore, clause 3. -/
theorem witness_CachesAndMapStore_3 : ∃ (s : State),
    s.scc.ready = false :=
  ⟨State.reset, by decide⟩

/-- Obligations.CachesAndMapStore, clause 4. -/
theorem witness_CachesAndMapStore_4 : ∃ (s : State),
    s.scc.vtReady = false ∧
    s.gcs.mapTrained = true :=
  ⟨({ wSets with scc := { wSets.scc with vtReady := false, tier := [(4, wLine)] }, gcs := { wSets.gcs with mapTrained := true } }), by decide⟩

/-- Obligations.CachesAndMapStore, clause 5. -/
theorem witness_CachesAndMapStore_5 : ∃ (ch : BitVec 3) (s : State),
    ch.toNat ∉ s.map.fenced :=
  ⟨7, wSets, by decide⟩

/-- Obligations.CachesAndMapStore, clause 6. -/
theorem witness_CachesAndMapStore_6 : ∃ (ch : BitVec 3) (s : State),
    ch.toNat ∉ s.map.fenced ∧
    mirrorChannel ch.toNat ∉ s.map.fenced ∧
    s.scc.tier = [] ∧
    s.scc.moving = [] :=
  ⟨7, wSets, by decide⟩

/-- Obligations.DriveCommandsComplete, clause 1. -/
theorem witness_DriveCommandsComplete_1 : ∃ (id : Nat) (s : State) (d : DriveCmd) (x : Sector) (xs : List Sector),
    s.findCmd id = some d ∧
    d.op = .read ∧
    d.quarantined = false ∧
    d.purpose = .prefetch ∧
    ((∀ o ∈ s.rowOps, o.orig ≠ d.id)) ∧
    classify (s.placeOf d.set d.stripe d.frag d.row) x = .current :=
  ⟨7, (wCmds (wCmd .read .prefetch)), (wCmd .read .prefetch), wSector, [], by decide +kernel⟩

/-- Obligations.DriveCommandsComplete, clause 2. -/
theorem witness_DriveCommandsComplete_2 : ∃ (id : Nat) (s : State) (d : DriveCmd),
    s.findCmd id = some d ∧
    d.op = .read ∧
    d.quarantined = false ∧
    d.purpose = .prefetch ∧
    ((∀ o ∈ s.rowOps, o.orig ≠ d.id)) ∧
    s.scc.lines = [] ∧
    s.interp.deferred = [] :=
  ⟨7, (wCmds (wCmd .read .prefetch)), (wCmd .read .prefetch), by decide⟩

/-- Obligations.DriveCommandsComplete, clause 3. -/
theorem witness_DriveCommandsComplete_3 : ∃ (id : Nat) (s : State) (d : DriveCmd) (r : DriveReadResult),
    s.findCmd id = some d ∧
    d.op = .read ∧
    d.quarantined = true :=
  ⟨7, (wCmds { wCmd .read .prefetch with quarantined := true }), ({ wCmd .read .prefetch with quarantined := true }), .error, by decide⟩

/-- Obligations.DriveCommandsComplete, clause 4. -/
theorem witness_DriveCommandsComplete_4 : ∃ (id : Nat) (s : State) (d : DriveCmd),
    s.findCmd id = some d ∧
    d.op = .write ∧
    d.issued = true ∧
    d.quarantined = false ∧
    d.purpose = .repair :=
  ⟨7, (wCmds (wCmd .write .repair)), (wCmd .write .repair), by decide⟩

/-- Obligations.DriveCommandsComplete, clause 5. -/
theorem witness_DriveCommandsComplete_5 : ∃ (id : Nat) (s : State) (d : DriveCmd),
    s.findCmd id = some d ∧
    d.op = .write ∧
    d.issued = true ∧
    d.quarantined = false ∧
    d.purpose = .repair ∧
    (s.port d.port).failed = false ∧
    ((∀ e ∈ s.dcmds, e.port = d.port → e.id = id)) :=
  ⟨7, (wCmds (wCmd .write .repair)), (wCmd .write .repair), by decide⟩

/-- Obligations.DriveCommandsComplete, clause 6. -/
theorem witness_DriveCommandsComplete_6 : ∃ (p : Byte) (s : State),
    (s.port p).state = .resetting :=
  ⟨1, (wPortIn 1 { wDrive with state := .resetting }), by decide⟩

/-- Obligations.DriveCommandsComplete, clause 7. -/
theorem witness_DriveCommandsComplete_7 : ∃ (p : Byte) (s : State),
    (s.port p).failed = false ∧
    (s.port p).state = .ready ∧
    (s.group (groupOf p)).state = .powered ∧
    s.outstanding p = [] :=
  ⟨1, wSets, by decide⟩

/-- Obligations.DriveCommandsComplete, clause 8. -/
theorem witness_DriveCommandsComplete_8 : ∃ (p : Byte) (s : State),
    (s.group (groupOf p)).state = .powered :=
  ⟨255, wSets, by decide⟩

/-- Obligations.DriveCommandsComplete, clause 9. -/
theorem witness_DriveCommandsComplete_9 : ∃ (p : Byte) (s : State),
    (s.port p).shutdownDone = false ∧
    (s.port p).shutdownSent = true ∧
    (s.group (groupOf p)).state = .powered :=
  ⟨255, (wPortIn 255 { Port.at0 with shutdownSent := true }), by decide⟩

/-- Obligations.DriveCommandsComplete, clause 10. -/
theorem witness_DriveCommandsComplete_10 : ∃ (id : Nat) (s : State) (d : DriveCmd) (n : Nat),
    s.findCmd id = some d ∧
    d.op = .read ∧
    d.quarantined = false ∧
    d.slow = false ∧
    d.purpose = .hostRead n ∧
    ((∀ o ∈ s.rowOps, o.orig ≠ d.id)) ∧
    (s.setProfile (s.set d.set.toNat)).decodable (s.eraseMask d.set ((s.set d.set.toNat).revFor d.stripe) d.stripe ||| maskBit d.frag) = true :=
  ⟨7, (wCmds (wCmd .read (.hostRead 1))), (wCmd .read (.hostRead 1)), 1, by decide +kernel⟩

/-- Obligations.DriveCommandsComplete, clause 11. -/
theorem witness_DriveCommandsComplete_11 : ∃ (id : Nat) (s : State) (d : DriveCmd) (n : Nat),
    s.findCmd id = some d ∧
    d.op = .read ∧
    d.quarantined = false ∧
    d.slow = false ∧
    d.purpose = .hostRead n ∧
    ((∀ o ∈ s.rowOps, o.orig ≠ d.id)) ∧
    (s.setProfile (s.set d.set.toNat)).decodable (s.eraseMask d.set ((s.set d.set.toNat).revFor d.stripe) d.stripe ||| maskBit d.frag) = false :=
  ⟨7, ({ wCmds (wCmd .read (.hostRead 1)) with ports := [(0, { wDrive with failed := true }), (1, wDrive), (2, wDrive)] }), (wCmd .read (.hostRead 1)), 1, by decide +kernel⟩

/-- Obligations.DriveCommandsComplete, clause 12. -/
theorem witness_DriveCommandsComplete_12 : ∃ (id : Nat) (s : State) (d : DriveCmd),
    s.findCmd id = some d ∧
    d.quarantined = false ∧
    d.issued = true ∧
    d.op = .write ∧
    (s.port d.port).failed = false ∧
    d.purpose = .repair ∧
    s.outstanding d.port = [d] :=
  ⟨7, (wCmds (wCmd .write .repair)), (wCmd .write .repair), by decide⟩

/-- Obligations.DriveCommandsComplete, clause 13. -/
theorem witness_DriveCommandsComplete_13 : ∃ (id : Nat) (s : State) (d : DriveCmd) (op : Byte),
    s.findCmd id = some d ∧
    d.quarantined = false ∧
    d.issued = true ∧
    d.op = .admin op :=
  ⟨7, (wCmds (wCmd (.admin 0x06) .management)), (wCmd (.admin 0x06) .management), 0x06, by decide⟩

/-- Obligations.DriveCommandsComplete, clause 14. -/
theorem witness_DriveCommandsComplete_14 : ∃ (id : Nat) (s : State) (d : DriveCmd),
    s.findCmd id = some d ∧
    d.op = .write ∧
    d.quarantined = false ∧
    d.lagged = false ∧
    d.purpose = .repair :=
  ⟨7, (wCmds (wCmd .write .repair)), (wCmd .write .repair), by decide⟩

/-- Obligations.DriveCommandsComplete, clause 15. -/
theorem witness_DriveCommandsComplete_15 : ∃ (p : Byte) (s : State) (cqe : Bytes) (data : Bytes) (op : Byte) (src : CmdSrc) (d : Deferred) (c : DriveCmd),
    c ∈ s.dcmds ∧
    c.port = p ∧
    c.op = .admin op ∧
    (s.port p).adminSrc = some src ∧
    s.interp.deferred = [d] ∧
    d.src = src ∧
    adminOp d.packet % 4 = 0 :=
  ⟨1, ({ wAt (wPortIn 1 { wDrive with adminSrc := some .chain }) (wPkt 0x0406 [(0x10, 1, 1), (0x40, 1, 0x80)]) with dcmds := [wCmd (.admin 0x80) .management], interp := { (wAt wSets (wPkt 0x0406 [(0x10, 1, 1), (0x40, 1, 0x80)])).interp with busy := [.chain], deferred := [wDeferred (wPkt 0x0406 [(0x10, 1, 1), (0x40, 1, 0x80)])] } }), [], [], 0x80, .chain, (wDeferred (wPkt 0x0406 [(0x10, 1, 1), (0x40, 1, 0x80)])), (wCmd (.admin 0x80) .management), by decide +kernel⟩

/-- Obligations.DriveCommandsComplete, clause 16. -/
theorem witness_DriveCommandsComplete_16 : ∃ (p : Byte) (s : State) (cqe : Bytes) (data : Bytes),
    ((∀ c ∈ s.dcmds, ∀ o, c.op ≠ .admin o)) ∧
    (s.port p).state = .training ∧
    (s.port p).resetSrc = none ∧
    (s.group (groupOf p)).state = .powered :=
  ⟨1, (wPortIn 1 { wDrive with state := .training }), [], [], by simp [wPortIn, wSets, wHost, wUp, State.reset], by decide, by decide, by decide⟩

/-- Obligations.DriveCommandsComplete, clause 17. -/
theorem witness_DriveCommandsComplete_17 : ∃ (id : Nat) (i : Nat) (r : DriveReadResult) (s : State),
    s.findCmd id = none :=
  ⟨7, 24575, .error, wSets, by decide⟩

/-- Obligations.DrivePortsLive, clause 1. -/
theorem witness_DrivePortsLive_1 : ∃ (p : Byte) (s : State),
    s.regField Reg.gcsRbsFail 0 16 ≠ 0 ∧
    s.regField Reg.gcsRbsFail 0 16 < (s.port p).sealFails ∧
    (s.port p).failed = false ∧
    s.outstanding p = [] :=
  ⟨1, (wPortIn 1 { wDrive with sealFails := 65536 }), by decide⟩

/-- Obligations.DrivePortsLive, clause 2. -/
theorem witness_DrivePortsLive_2 : ∃ (p : Byte) (s : State),
    s.portPresent p = true ∧
    (s.port p).state = .empty ∧
    (s.group (groupOf p)).state = .powered ∧
    s.gcs.phase = .running :=
  ⟨255, wSets, by decide⟩

/-- Obligations.DrivePortsLive, clause 3. -/
theorem witness_DrivePortsLive_3 : ∃ (p : Byte) (s : State),
    s.portPresent p = true ∧
    (s.port p).state = .empty ∧
    (s.group (groupOf p)).state = .powered ∧
    s.gcs.phase = .recovery :=
  ⟨255, ({ wSets with gcs := { wSets.gcs with phase := .recovery } }), by decide⟩

/-- Obligations.DrivePortsLive, clause 4. -/
theorem witness_DrivePortsLive_4 : ∃ (p : Byte) (i : DriveInfo) (s : State) (n : Nat) (g : Nat),
    (s.port p).state = .training ∧
    (s.port p).resetSrc = none ∧
    (s.group (groupOf p)).state = .powered ∧
    queueGrant (131072 - (s.slotsUsed - (s.port p).pairsGranted * 2 ^ (s.port p).depthLog2)) (max 1 (min (s.regField (Reg.dpQcfg p.toNat) 0 5) i.pairs)) (min (s.regField (Reg.dpQcfg p.toNat) 8 4) (Nat.log2 (i.mqes + 1))) 32 = some (n, g, false) :=
  ⟨1, ({ formatOk := true, dual := false, mdSep := false, dlfeatZero := true, critWarn := 0, pctUsed := 3, pairs := 4, mqes := 1023, width := 4, gen := 3, sectors := 5000, nguid := 7 }), (wPortIn 1 { wDrive with state := .training }), 4, 6, by decide⟩

/-- Obligations.DrivePortsLive, clause 5. -/
theorem witness_DrivePortsLive_5 : ∃ (p : Byte) (s : State),
    (s.port p).state = .training ∧
    (s.port p).resetSrc = none ∧
    (s.group (groupOf p)).state = .powered :=
  ⟨1, (wPortIn 1 { wDrive with state := .training }), by decide⟩

/-- Obligations.DrivePortsLive, clause 6. -/
theorem witness_DrivePortsLive_6 : ∃ (p : Byte) (s : State),
    (s.port p).state = .training ∧
    (s.port p).resetSrc = none ∧
    (s.group (groupOf p)).state = .powered :=
  ⟨1, (wPortIn 1 { wDrive with state := .training }), by decide⟩

/-- Obligations.DrivePortsLive, clause 7. -/
theorem witness_DrivePortsLive_7 : ∃ (p : Byte) (s : State),
    (s.port p).state = .ready ∧
    s.outstanding p = [] :=
  ⟨1, wSets, by decide⟩

/-- Obligations.DrivePortsLive, clause 8. -/
theorem witness_DrivePortsLive_8 : ∃ (p : Byte) (s : State),
    (s.port p).state = .ready ∧
    (s.port p).failed = false ∧
    s.outstanding p = [] :=
  ⟨1, wSets, by decide⟩

/-- Obligations.DrivePortsLive, clause 9. -/
theorem witness_DrivePortsLive_9 : ∃ (p : Byte) (s : State),
    (s.port p).state = .ready ∧
    s.outstanding p = [] :=
  ⟨1, wSets, by decide⟩

/-- Obligations.DrivePortsLive, clause 10. -/
theorem witness_DrivePortsLive_10 : ∃ (p : Byte) (s : State),
    (s.port p).state = .recovery ∧
    (s.port p).failed = false ∧
    s.outstanding p = [] :=
  ⟨1, (wPortIn 1 { wDrive with state := .recovery }), by decide⟩

/-- Obligations.DrivePortsLive, clause 11. -/
theorem witness_DrivePortsLive_11 : ∃ (p : Byte) (s : State),
    (s.port p).state = .resetting :=
  ⟨1, ({ (wPortIn 1 { wDrive with state := .resetting }) with dcmds := [{ wCmd .write .repair with quarantined := true }] }), by decide⟩

/-- Obligations.DrivePortsLive, clause 12. -/
theorem witness_DrivePortsLive_12 : ∃ (p : Byte) (s : State),
    (s.port p).state = .resetting ∧
    (s.port p).resetSrc = none :=
  ⟨1, (wPortIn 1 { wDrive with state := .resetting }), by decide⟩

/-- Obligations.DrivePortsLive, clause 13. -/
theorem witness_DrivePortsLive_13 : ∃ (p : Byte) (s : State),
    s.quarantined p ≠ [] ∧
    s.regField Reg.dpQuarReset 0 16 ≠ 0 ∧
    s.memberOf p = none ∧
    (s.port p).state = .ready ∧
    s.outstanding p = [] :=
  ⟨9, ({ (wPortIn 9 wDrive) with dcmds := [{ wCmd .write .repair with port := 9, quarantined := true }] }), by decide⟩

/-- Obligations.DrivePortsLive, clause 14. -/
theorem witness_DrivePortsLive_14 : ∃ (p : Byte) (cw : Byte) (s : State),
    (s.port p).state = .ready ∧
    cw ≠ 0 ∧
    cw ≠ (s.port p).critWarn :=
  ⟨1, 5, wSets, by decide⟩

/-- Obligations.DrivePortsLive, clause 15. -/
theorem witness_DrivePortsLive_15 : ∃ (p : Byte) (cw : Byte) (used : Byte) (s : State),
    s.regField Reg.dpHealthPoll 0 16 ≠ 0 ∧
    (s.port p).state = .ready ∧
    cw = (s.port p).critWarn :=
  ⟨1, 0, 50, wSets, by decide⟩

/-- Obligations.DrivePortsLive, clause 17. -/
theorem witness_DrivePortsLive_17 : ∃ (p : Byte) (errors : Nat) (s : State),
    (s.count32 (Reg.dpLinkErrors p.toNat) errors).regField Reg.dpLinkerr 0 16 < errors :=
  ⟨1, 70000, wSets, by decide⟩

/-- Obligations.DrivePortsLive, clause 18. -/
theorem witness_DrivePortsLive_18 : ∃ (p : Byte) (s : State),
    (s.port p).state = .ready ∧
    s.regBit Reg.dpPm 0 = true :=
  ⟨1, (wSets.setRegN Reg.dpPm 1), by decide⟩

/-- Obligations.DrivePortsLive, clause 19. -/
theorem witness_DrivePortsLive_19 : ∃ (p : Byte) (s : State),
    (s.port p).failed = false ∧
    s.outstanding p = [] :=
  ⟨1, wSets, by decide⟩

/-- Obligations.DrivePortsLive, clause 20. -/
theorem witness_DrivePortsLive_20 : ∃ (g : BitVec 4) (s : State),
    (s.group g.toNat).state = .draining ∧
    s.groupCmds g.toNat = [] ∧
    (s.group g.toNat).src = none ∧
    ((∀ q ∈ groupPorts g.toNat, (s.port q).state = .empty)) :=
  ⟨15, (wGroup 15 { Group.at0 with state := .draining }), by decide⟩

/-- Obligations.DrivePortsLive, clause 21. -/
theorem witness_DrivePortsLive_21 : ∃ (g : BitVec 4) (s : State),
    (s.group g.toNat).state = .draining ∧
    s.groupCmds g.toNat ≠ [] ∧
    (s.group g.toNat).force = false ∧
    (s.group g.toNat).src = none :=
  ⟨0, ({ wGroup 0 { Group.at0 with state := .draining } with dcmds := [wCmd .write .repair] }), by decide⟩

/-- Obligations.DrivePortsLive, clause 22. -/
theorem witness_DrivePortsLive_22 : ∃ (g : BitVec 4) (rs : List Byte) (s : State),
    (s.group g.toNat).state = .waking ∧
    ((∀ q ∈ groupPorts g.toNat, (s.port q).state = .dark ∧ s.memberOf q = none)) :=
  ⟨15, ([240, 255]), ({ wGroup 15 { Group.at0 with state := .waking } with ports := (List.range 16).map (fun i => (240 + i, { Port.at0 with state := .dark })) }), by decide⟩

/-- Obligations.DrivePortsLive, clause 23. -/
theorem witness_DrivePortsLive_23 : ∃ (p : Byte) (e : Nat) (s : State),
    (s.port p).catchup = true ∧
    s.extentCaught p e = true :=
  ⟨1, 3, (wPortIn 1 { wDrive with catchup := true, catchupMap := [3], catchupNext := 4096 }), by decide⟩

/-- Obligations.DrivePortsLive, clause 24. -/
theorem witness_DrivePortsLive_24 : ∃ (g : BitVec 4) (s : State),
    g.toNat < Config.groups s.part ∧
    (s.group g.toNat).clkreqLow = false ∧
    s.regField Reg.dpPm 1 2 ≠ 0 :=
  ⟨15, (wSets.setRegN Reg.dpPm 2), by decide⟩

/-- Obligations.RebuildAndResync, clause 1. -/
theorem witness_RebuildAndResync_1 : ∃ (i : Nat) (next : Revision) (s : State),
    i < 64 ∧
    s.rebuildTurn = some i ∧
    (s.set i).pending = some next ∧
    (s.set i).inFlight = [] ∧
    ((∀ p ∈ (s.set i).members, (s.port p).catchup = false)) ∧
    s.log.recs = [] ∧
    s.regField Reg.gcsRbsWindow 0 8 = 1 ∧
    (s.set i).candidate.toNat < (s.set i).stripeCount.toNat ∧
    (s.set i).nextWritten (s.set i).candidate.toNat = (s.set i).candidate.toNat ∧
    ((∀ r ∈ s.stripeReads (BitVec.ofNat 6 i) (s.set i) next (s.set i).candidate.toNat, 0 < (s.port r.1).bytesPerMs * s.regField Reg.gcsRbsShare 0 8 / 100)) ∧
    ((∀ f ∈ s.movedFrags (BitVec.ofNat 6 i) (s.set i) next (s.set i).candidate.toNat, s.fragOut (BitVec.ofNat 6 i) (s.set i).current (s.set i).candidate.toNat f = false)) :=
  ⟨0, wNext, (wPend id).setRegN Reg.gcsRbsWindow 1, by decide +kernel⟩

/-- Obligations.RebuildAndResync, clause 2. -/
theorem witness_RebuildAndResync_2 : ∃ (set : BitVec 6) (stripe : BitVec 48) (r : RebuildStripe) (s : State),
    (s.set set.toNat).inFlight = [r] ∧
    r.stripe = stripe.toNat ∧
    r.done = false ∧
    r.touched = false ∧
    s.rebuildBusy set stripe.toNat = false ∧
    s.classBWaits = false ∧
    (s.set set.toNat).nextWritten (s.set set.toNat).candidate.toNat = stripe.toNat ∧
    stripe.toNat < (s.set set.toNat).stripeCount.toNat :=
  ⟨0, 5, ({ stripe := 5, takes := 1, done := false, touched := false }), (wPend (fun a => { a with inFlight := [{ stripe := 5, takes := 1, done := false, touched := false }] })), by decide⟩

/-- Obligations.RebuildAndResync, clause 3. -/
theorem witness_RebuildAndResync_3 : ∃ (set : BitVec 6) (stripe : BitVec 48) (r : RebuildStripe) (s : State),
    r ∈ (s.set set.toNat).inFlight ∧
    r.stripe = stripe.toNat ∧
    r.done = false ∧
    4 ≤ r.takes :=
  ⟨0, 5, ({ stripe := 5, takes := 4, done := false, touched := false }), (wPend (fun a => { a with inFlight := [{ stripe := 5, takes := 4, done := false, touched := false }] })), by decide⟩

/-- Obligations.RebuildAndResync, clause 4. -/
theorem witness_RebuildAndResync_4 : ∃ (set : BitVec 6) (next : Revision) (s : State),
    (s.set set.toNat).pending = some next ∧
    (s.set set.toNat).candidate.toNat < (s.set set.toNat).stripeCount.toNat :=
  ⟨0, wNext, (wPend id), by decide⟩

/-- Obligations.RebuildAndResync, clause 5. -/
theorem witness_RebuildAndResync_5 : ∃ (set : BitVec 6) (next : Revision) (s : State),
    (s.set set.toNat).pending = some next ∧
    (s.set set.toNat).stripeCount.toNat ≤ (s.set set.toNat).candidate.toNat ∧
    (s.ring (.event false)).state = .active ∧
    s.haltClosed = false ∧
    s.canWrite false = true :=
  ⟨0, wNext, ({ (wPend (fun a => { a with candidate := 4096 })) with rings := wRegs.rings, regs := wRegs.regs }), by decide +kernel⟩

/-- Obligations.RebuildAndResync, clause 6. -/
theorem witness_RebuildAndResync_6 : ∃ (set : BitVec 6) (stripe : BitVec 48) (row : Byte) (xs : List (Nat × Sector)) (r : Resync) (s : State),
    (s.set set.toNat).resync = [r] ∧
    r.stripe ≤ stripe.toNat ∧
    stripe.toNat < r.stripe + r.count ∧
    r.rowsDone = [] ∧
    s.background (s.set set.toNat) = true ∧
    row.toNat < (s.set set.toNat).s ∧
    1 < r.count * (s.set set.toNat).s ∧
    (s.classifyRow set ((s.set set.toNat).revFor stripe.toNat) stripe.toNat row.toNat xs).unwritten (s.setProfile (s.set set.toNat)) = true :=
  ⟨0, 5, 0, ([wBlank 0, wBlank 1, wBlank 2]), (wResync 2), (wIn (fun a => { a with resync := [wResync 2] })), by decide +kernel⟩

/-- Obligations.RebuildAndResync, clause 7. -/
theorem witness_RebuildAndResync_7 : ∃ (set : BitVec 6) (stripe : BitVec 48) (row : Byte) (xs : List (Nat × Sector)) (r : Resync) (rr : RowRead) (s : State),
    (s.set set.toNat).resync = [r] ∧
    r.stripe ≤ stripe.toNat ∧
    stripe.toNat < r.stripe + r.count ∧
    r.rowsDone = [] ∧
    s.background (s.set set.toNat) = true ∧
    row.toNat < (s.set set.toNat).s ∧
    1 < r.count * (s.set set.toNat).s ∧
    rr = s.classifyRow set ((s.set set.toNat).revFor stripe.toNat) stripe.toNat row.toNat xs ∧
    rr.unwritten (s.setProfile (s.set set.toNat)) = false ∧
    resyncOutcome (s.setProfile (s.set set.toNat)) (r.watch.toNat, r.generation.toNat) (((s.setProfile (s.set set.toNat)).frags.filter (fun f => !s.fragOut set ((s.set set.toNat).revFor stripe.toNat) stripe.toNat f)).length) rr.good = .unresolved :=
  ⟨0, 5, 0, ([wFrag 0]), (wResync 2), (wSets.classifyRow 0 wSet.current 5 0 [wFrag 0]), (wIn (fun a => { a with resync := [wResync 2] })), by decide +kernel⟩

/-- Obligations.RebuildAndResync, clause 8. -/
theorem witness_RebuildAndResync_8 : ∃ (set : BitVec 6) (stripe : BitVec 48) (row : Byte) (xs : List (Nat × Sector)) (r : Resync) (s : State),
    (s.set set.toNat).resync = [r] ∧
    r.stripe = stripe.toNat ∧
    r.count = 1 ∧
    r.rowsDone.length + 1 = (s.set set.toNat).s ∧
    (stripe.toNat, row.toNat) ∉ r.rowsDone ∧
    s.background (s.set set.toNat) = true ∧
    row.toNat < (s.set set.toNat).s ∧
    (s.set set.toNat).unresolved = [] ∧
    (s.classifyRow set ((s.set set.toNat).revFor stripe.toNat) stripe.toNat row.toNat xs).unwritten (s.setProfile (s.set set.toNat)) = true :=
  ⟨0, 5, 0, ([wBlank 0, wBlank 1]), (wResync 1), (wIn (fun a => { a with resync := [wResync 1] })), by decide +kernel⟩

/-- Obligations.ScrubAndArbitration, clause 1. -/
theorem witness_ScrubAndArbitration_1 : ∃ (s : State),
    s.regBit Reg.gcsRbsCtl 1 = true ∧
    s.sched.scrubbing = false :=
  ⟨(wSets.setRegN Reg.gcsRbsCtl 2), by decide⟩

/-- Obligations.ScrubAndArbitration, clause 2. -/
theorem witness_ScrubAndArbitration_2 : ∃ (s : State),
    s.regBit Reg.gcsRbsCtl 1 = true ∧
    s.sched.scrubbing = true :=
  ⟨(wScrub id).setRegN Reg.gcsRbsCtl 2, by decide⟩

/-- Obligations.ScrubAndArbitration, clause 3. -/
theorem witness_ScrubAndArbitration_3 : ∃ (s : State),
    s.regBit Reg.gcsRbsCtl 1 = false :=
  ⟨(wSets.setRegN Reg.gcsRbsCtl 0), by decide⟩

/-- Obligations.ScrubAndArbitration, clause 4. -/
theorem witness_ScrubAndArbitration_4 : ∃ (s : State),
    s.sched.scrubbing = true ∧
    s.regBit Reg.gcsRbsCtl 1 = true ∧
    s.scrubSet = none :=
  ⟨(wScrub (fun a => { a with scrubLive := 4096 })).setRegN Reg.gcsRbsCtl 2, by decide⟩

/-- Obligations.ScrubAndArbitration, clause 5. -/
theorem witness_ScrubAndArbitration_5 : ∃ (i : Nat) (s : State),
    s.sched.scrubbing = true ∧
    s.regBit Reg.gcsRbsCtl 1 = true ∧
    s.scrubSet = some i ∧
    s.background (s.set i) = true ∧
    (s.set i).nextWritten (s.set i).scrubLive.toNat < (s.set i).stripeCount.toNat :=
  ⟨0, (wScrub (fun a => { a with scrubLive := 7, scrubGrant := 7 })).setRegN Reg.gcsRbsCtl 2, by decide +kernel⟩

/-- Obligations.ScrubAndArbitration, clause 6. -/
theorem witness_ScrubAndArbitration_6 : ∃ (set : BitVec 6) (stripe : BitVec 48) (row : Byte) (xs : List (Nat × Sector)) (s : State),
    s.sched.scrubbing = true ∧
    s.scrubSet = some set.toNat ∧
    stripe = (s.set set.toNat).scrubLive ∧
    row.toNat = (s.set set.toNat).scrubRow ∧
    stripe.toNat < (s.set set.toNat).scrubGrant.toNat :=
  ⟨0, 5, 0, ([wFrag 0, wFrag 1, wFrag 2]), (wScrub (fun a => { a with scrubLive := 5, scrubGrant := 6 })), by decide +kernel⟩

/-- Obligations.ScrubAndArbitration, clause 7. -/
theorem witness_ScrubAndArbitration_7 : ∃ (set : BitVec 6) (stripe : BitVec 48) (row : Byte) (xs : List (Nat × Sector)) (r : RowRead) (s : State),
    s.sched.scrubbing = true ∧
    s.scrubSet = some set.toNat ∧
    stripe = (s.set set.toNat).scrubLive ∧
    row.toNat = (s.set set.toNat).scrubRow ∧
    stripe.toNat < (s.set set.toNat).scrubGrant.toNat ∧
    s.rowLogged set stripe.toNat row.toNat = false ∧
    r = s.classifyRow set ((s.set set.toNat).revFor stripe.toNat) stripe.toNat row.toNat xs ∧
    r.unwritten (s.setProfile (s.set set.toNat)) = false ∧
    r.bad ≠ [] :=
  ⟨0, 5, 0, ([wFrag 0, wBlank 1]), (wSets.classifyRow 0 wSet.current 5 0 [wFrag 0, wBlank 1]), (wScrub (fun a => { a with scrubLive := 5, scrubGrant := 6 })), by decide +kernel⟩

/-- Obligations.ScrubAndArbitration, clause 9. -/
theorem witness_ScrubAndArbitration_9 : ∃ (set : BitVec 6) (stripe : BitVec 48) (row : Byte) (xs : List (Nat × Sector)) (r : RowRead) (g : List (Nat × Sector)) (vp : Version) (mask : Word64) (s : State),
    (set, stripe.toNat, row.toNat) ∈ s.arbitrating ∧
    s.classBWaits = false ∧
    r = s.classifyRow set ((s.set set.toNat).revFor stripe.toNat) stripe.toNat row.toNat xs ∧
    r.bad = [] ∧
    s.rowOps = [] ∧
    (rowCheck (s.setProfile (s.set set.toNat)) (r.good.map (fun x => (x.1, x.2.sl)))).stale = [] ∧
    arbitrateRow (s.setProfile (s.set set.toNat)) r.good = .stands g vp mask ∧
    ((∀ f ∈ (s.setProfile (s.set set.toNat)).frags, (∀ x ∈ g, x.1 ≠ f) → s.fragOut set ((s.set set.toNat).revFor stripe.toNat) stripe.toNat f = true)) :=
  ⟨0, 5, 0, ([wFrag 0, wFrag 1]), (wArb.classifyRow 0 wSet.current 5 0 [wFrag 0, wFrag 1]), ([wFrag 0, wFrag 1]), (3, 0), 3, wArb, by decide +kernel⟩

/-- Obligations.ScrubAndArbitration, clause 10. -/
theorem witness_ScrubAndArbitration_10 : ∃ (set : BitVec 6) (stripe : BitVec 48) (row : Byte) (xs : List (Nat × Sector)) (r : RowRead) (sus : List Nat) (p : Byte) (s : State),
    (set, stripe.toNat, row.toNat) ∈ s.arbitrating ∧
    s.classBWaits = false ∧
    r = s.classifyRow set ((s.set set.toNat).revFor stripe.toNat) stripe.toNat row.toNat xs ∧
    r.bad = [] ∧
    s.rowOps = [] ∧
    (rowCheck (s.setProfile (s.set set.toNat)) (r.good.map (fun x => (x.1, x.2.sl)))).stale = [] ∧
    r.unwritten (s.setProfile (s.set set.toNat)) = false ∧
    arbitrateRow (s.setProfile (s.set set.toNat)) r.good = .unresolved sus ∧
    p = s.lowestPort set ((s.set set.toNat).revFor stripe.toNat) stripe.toNat ∧
    s.escalates { source := BitVec.ofNat 8 (0xA0 + groupOf p), level := .contain, detail := 6, port := p.toNat, injected := false } = false :=
  ⟨0, 5, 0, ([wFrag 0]), (wArb.classifyRow 0 wSet.current 5 0 [wFrag 0]), ([0, 1]), 0, wArb, by decide +kernel⟩

/-- Obligations.ScrubAndArbitration, clause 11. -/
theorem witness_ScrubAndArbitration_11 : ∃ (s : State),
    s.regBit Reg.gcsRbsCtl 1 = false :=
  ⟨(wScrub id).setRegN Reg.gcsRbsCtl 0, by decide⟩

/-- Obligations.ScrubAndArbitration, clause 12. -/
theorem witness_ScrubAndArbitration_12 : ∃ (set : BitVec 6) (stripe : BitVec 48) (row : Byte) (xs : List (Nat × Sector)) (s : State),
    s.classBWaits = true :=
  ⟨0, 5, 0, [], (wRegs.setRing (.event false) { Ring.at0 with state := .active, waitB := [EventRecord.blank 4] }), by decide⟩

/-- Obligations.MoversMoveData, clause 1. -/
theorem witness_MoversMoveData_1 : ∃ (n : Nat) (off : Nat) (a : Nat) (len : Nat) (words : WordCheck) (t : Transfer) (rest : List Transfer) (s : State),
    s.dmv.retries = [] ∧
    s.granted false = some n ∧
    (s.chan n).queue = t :: rest ∧
    s.orphan t = false ∧
    (s.transferPort t).1 = false ∧
    t.srcPool = false ∧
    t.nextRead (s.chanBurst n) = some (off, a, len) ∧
    0 < len ∧
    len ≤ (s.hpu t.port).cfg.mrrs - a % (s.hpu t.port).cfg.mrrs :=
  ⟨63, 0, 0x5000, 100, .good, wXfer, [], (wMover 63 (wRunning [wXfer])), by decide +kernel⟩

/-- Obligations.MoversMoveData, clause 2. -/
theorem witness_MoversMoveData_2 : ∃ (n : Nat) (a : Nat) (data : Bytes) (t : Transfer) (rest : List Transfer) (s : State),
    s.granted true = some n ∧
    (s.chan n).queue = t :: rest ∧
    s.orphan t = false ∧
    (s.transferPort t).1 = false ∧
    t.dstPool = false ∧
    t.nextWrite (s.chanBurst n) = .write a data ∧
    0 < data.length ∧
    data.length ≤ (s.hpu t.port).cfg.mps - a % (s.hpu t.port).cfg.mps :=
  ⟨63, 0x9000, (fill 100 3), ({ wXfer with asked := 100, got := [(0, fill 100 3)] }), [], (wMover 63 (wRunning [{ wXfer with asked := 100, got := [(0, fill 100 3)] }])), by decide +kernel⟩

/-- Obligations.MoversMoveData, clause 3. -/
theorem witness_MoversMoveData_3 : ∃ (n : Nat) (a : Nat) (data : Bytes) (t : Transfer) (rest : List Transfer) (s : State),
    s.granted true = some n ∧
    (s.chan n).queue = t :: rest ∧
    s.orphan t = false ∧
    (s.transferPort t).1 = false ∧
    t.dstPool = true ∧
    t.nextWrite (s.chanBurst n) = .write a data :=
  ⟨63, 0x9000, (fill 100 3), ({ wXfer with asked := 100, got := [(0, fill 100 3)], dstPool := true }), [], (wMover 63 (wRunning [{ wXfer with asked := 100, got := [(0, fill 100 3)], dstPool := true }])), by decide +kernel⟩

/-- Obligations.MoversMoveData, clause 4. -/
theorem witness_MoversMoveData_4 : ∃ (w : Bool) (words : WordCheck) (n : Nat) (t : Transfer) (rest : List Transfer) (s : State),
    ((w = true ∨ s.dmv.retries = [])) ∧
    s.granted w = some n ∧
    (s.chan n).queue = t :: rest ∧
    s.orphan t = false ∧
    (s.transferPort t).1 = true ∧
    s.chanLine n = 0 :=
  ⟨false, .bad, 63, wXfer, [], ({ (wMover 63 (wRunning [wXfer])) with hpus := [(0, wHpu), (1, { wHpu with contained := true })] }), by decide +kernel⟩

/-- Obligations.MoversMoveData, clause 5. -/
theorem witness_MoversMoveData_5 : ∃ (g : TagRef) (n : Nat) (bytes : Bytes) (r : HostRead) (t : Transfer) (rest : List Transfer) (a : Nat) (room : Nat) (s : State),
    s.readOf g = some r ∧
    r.user = .chan n ∧
    r.dead = false ∧
    (s.chan n).flushWait = false ∧
    (s.chan n).queue = t :: rest ∧
    t.dsts ≠ [] ∧
    rangeAt t.srcs r.off = some (a, room) :=
  ⟨({ port := true, tag := 9 }), 63, (fill 64 3), (wPiece 3), wXfer, [], 0x5000, 100, (wPiecing [wXfer] 3), by decide +kernel⟩

/-- Obligations.MoversMoveData, clause 6. -/
theorem witness_MoversMoveData_6 : ∃ (g : TagRef) (n : Nat) (e : BusResult) (r : HostRead) (t : Transfer) (rest : List Transfer) (s : State),
    ((∀ b, e ≠ .ok b)) ∧
    s.readOf g = some r ∧
    r.user = .chan n ∧
    r.dead = false ∧
    (s.chan n).flushWait = false ∧
    (s.chan n).queue = t :: rest ∧
    0 < r.left :=
  ⟨({ port := true, tag := 9 }), 63, .poisoned, (wPiece 3), wXfer, [], (wPiecing [wXfer] 3), by simp, by decide +kernel⟩

/-- Obligations.MoversMoveData, clause 7. -/
theorem witness_MoversMoveData_7 : ∃ (g : TagRef) (n : Nat) (e : BusResult) (r : HostRead) (t : Transfer) (rest : List Transfer) (s : State),
    ((∀ b, e ≠ .ok b)) ∧
    s.readOf g = some r ∧
    r.user = .chan n ∧
    r.dead = false ∧
    (s.chan n).flushWait = false ∧
    (s.chan n).queue = t :: rest ∧
    r.left = 0 ∧
    s.chanLine n = 0 :=
  ⟨({ port := true, tag := 9 }), 63, .aborted, (wPiece 0), wXfer, [], (wPiecing [wXfer] 0), by simp, by decide +kernel⟩

/-- Obligations.MoversMoveData, clause 8. -/
theorem witness_MoversMoveData_8 : ∃ (g : TagRef) (n : Nat) (r : HostRead) (t : Transfer) (rest : List Transfer) (s : State),
    s.readOf g = some r ∧
    r.user = .chan n ∧
    r.dead = false ∧
    (s.chan n).queue = t :: rest ∧
    r.left = 0 ∧
    s.chanLine n = 0 :=
  ⟨({ port := true, tag := 9 }), 63, (wPiece 0), wXfer, [], (wPiecing [wXfer] 0), by decide +kernel⟩

/-- Obligations.MoversMoveData, clause 9. -/
theorem witness_MoversMoveData_9 : ∃ (g : TagRef) (result : BusResult) (s : State),
    s.readOf g = none ∧
    (g.port, g.tag, true) ∈ s.dmv.quarantine :=
  ⟨({ port := true, tag := 9 }), (.ok [1]), (wSets.withDmv { Dmv.at0 with quarantine := [(true, 9, true)] }), by decide⟩

/-- Obligations.MoversMoveData, clause 10. -/
theorem witness_MoversMoveData_10 : ∃ (g : TagRef) (b : Bool) (s : State),
    (g.port, g.tag, b) ∈ s.dmv.quarantine :=
  ⟨({ port := true, tag := 9 }), false, (wSets.withDmv { Dmv.at0 with quarantine := [(true, 9, false)] }), by decide⟩

/-- Obligations.MoversMoveData, clause 11. -/
theorem witness_MoversMoveData_11 : ∃ (n : Nat) (a : Nat) (data : Bytes) (t : Transfer) (rest : List Transfer) (s : State),
    s.granted true = some n ∧
    (s.chan n).queue = t :: rest ∧
    s.orphan t = false ∧
    (s.transferPort t).1 = false ∧
    t.nextWrite (s.chanBurst n) = .write a data :=
  ⟨63, 0x9000, (fill 100 3), ({ wXfer with asked := 100, got := [(0, fill 100 3)] }), [], (wMover 63 (wRunning [{ wXfer with asked := 100, got := [(0, fill 100 3)] }])), by decide +kernel⟩

/-- Obligations.MoversMoveData, clause 12. -/
theorem witness_MoversMoveData_12 : ∃ (n : Nat) (a : Nat) (data : Bytes) (t : Transfer) (rest : List Transfer) (s : State),
    s.granted true = some n ∧
    (s.chan n).queue = t :: rest ∧
    s.orphan t = false ∧
    (s.transferPort t).1 = false ∧
    s.chanLine n = 0 ∧
    t.nextWrite (s.chanBurst n) = .write a data :=
  ⟨63, 0x9000, (fill 100 3), ({ wXfer with asked := 100, got := [(0, fill 100 3)], dstPool := true }), [], (wMover 63 (wRunning [{ wXfer with asked := 100, got := [(0, fill 100 3)], dstPool := true }])), by decide +kernel⟩

/-- Obligations.MoverDescriptorsRun, clause 1. -/
theorem witness_MoverDescriptorsRun_1 : ∃ (ch : BitVec 6) (d : Bytes) (s : State),
    (s.chan ch.toNat).state = .running ∧
    s.chanLine ch.toNat = 0 ∧
    (s.chan ch.toNat).queue = [] ∧
    (s.chan ch.toNat).held = none ∧
    s.haltClosed = false ∧
    (s.hpu (s.regBit (Reg.dmvChCfg ch.toNat) 10)).d3hot = false ∧
    (s.hpu (s.regBit (Reg.dmvChCfg ch.toNat) 10)).contained = false ∧
    s.chanStrict ch.toNat = false ∧
    byteAt d 0 = 1 ∧
    byteAt d 1 = 0 ∧
    leAt d 2 4 = 0 ∧
    leAt d 6 2 = 0 ∧
    leAt d 0x20 8 = 0 ∧
    leAt d 0x2C 4 = 0 ∧
    leAt d 0x38 8 = 0 ∧
    0 < leAt d 0x28 4 ∧
    leAt d 0x28 4 ≤ 2 ^ 28 ∧
    leAt d 0x10 8 + leAt d 0x28 4 ≤ leAt d 0x18 8 :=
  ⟨63, (wCopy 0x5000 0x9000 100), (wMover 63 (wRunning [])), by decide +kernel⟩

/-- Obligations.MoverDescriptorsRun, clause 2. -/
theorem witness_MoverDescriptorsRun_2 : ∃ (ch : BitVec 6) (d : Bytes) (a : SglFetch) (b : SglFetch) (s : State),
    (s.chan ch.toNat).state = .running ∧
    s.chanLine ch.toNat = 0 ∧
    (s.chan ch.toNat).queue = [] ∧
    (s.chan ch.toNat).held = none ∧
    s.haltClosed = false ∧
    (s.hpu (s.regBit (Reg.dmvChCfg ch.toNat) 10)).d3hot = false ∧
    (s.hpu (s.regBit (Reg.dmvChCfg ch.toNat) 10)).contained = false ∧
    byteAt d 0 ≠ 1 :=
  ⟨63, (fill 64 2), .notNeeded, .notNeeded, (wMover 63 (wRunning [])), by decide +kernel⟩

/-- Obligations.MoverDescriptorsRun, clause 3. -/
theorem witness_MoverDescriptorsRun_3 : ∃ (ch : BitVec 6) (d : Bytes) (s : State),
    (s.chan ch.toNat).state = .running ∧
    s.chanLine ch.toNat = 0 ∧
    (s.chan ch.toNat).queue = [] ∧
    (s.chan ch.toNat).held = none ∧
    s.haltClosed = false ∧
    (s.hpu (s.regBit (Reg.dmvChCfg ch.toNat) 10)).d3hot = false ∧
    (s.hpu (s.regBit (Reg.dmvChCfg ch.toNat) 10)).contained = false ∧
    s.chanStrict ch.toNat = false ∧
    byteAt d 0 = 1 ∧
    byteAt d 1 = 0 ∧
    leAt d 2 4 = 0 ∧
    leAt d 6 2 = 0 ∧
    leAt d 0x20 8 = 0 ∧
    leAt d 0x2C 4 = 0 ∧
    leAt d 0x38 8 = 0 ∧
    0 < leAt d 0x28 4 ∧
    leAt d 0x28 4 ≤ 2 ^ 28 ∧
    leAt d 0x10 8 < leAt d 0x18 8 + leAt d 0x28 4 ∧
    leAt d 0x18 8 < leAt d 0x10 8 + leAt d 0x28 4 :=
  ⟨63, (wCopy 0x5000 0x5063 100), (wMover 63 (wRunning [])), by decide +kernel⟩

/-- Obligations.MoverDescriptorsRun, clause 4. -/
theorem witness_MoverDescriptorsRun_4 : ∃ (ch : BitVec 6) (e : BusResult) (a : SglFetch) (b : SglFetch) (s : State),
    ((∀ d, e ≠ .ok d)) ∧
    (s.chan ch.toNat).state = .running ∧
    s.chanLine ch.toNat = 0 ∧
    (s.chan ch.toNat).queue = [] ∧
    (s.chan ch.toNat).held = none ∧
    s.haltClosed = false ∧
    (s.hpu (s.regBit (Reg.dmvChCfg ch.toNat) 10)).d3hot = false ∧
    (s.hpu (s.regBit (Reg.dmvChCfg ch.toNat) 10)).contained = false :=
  ⟨63, .poisoned, .notNeeded, .notNeeded, (wMover 63 (wRunning [])), by simp, by decide +kernel⟩

/-- Obligations.MoverDescriptorsRun, clause 5. -/
theorem witness_MoverDescriptorsRun_5 : ∃ (ch : BitVec 6) (x : Transfer) (rest : List Transfer) (s : State),
    (s.chan ch.toNat).queue = x :: rest ∧
    (s.chan ch.toNat).state = .running ∧
    s.chanLine ch.toNat = 0 ∧
    x.dsts ≠ [] ∧
    x.bytes ≤ x.moved ∧
    x.flush = false ∧
    x.next = 0 ∧
    (s.chan ch.toNat).flushWait = false ∧
    s.mqRoom (s.regField (Reg.dmvChCfg ch.toNat) 12 3) = true ∧
    (s.mq (s.regField (Reg.dmvChCfg ch.toNat) 12 3)).waiting = [] :=
  ⟨63, ({ wXfer with moved := 100 }), [], (wQueue (wMover 63 (wRunning [{ wXfer with moved := 100 }])) { Mq.at0 with enabled := true }), by decide +kernel⟩

/-- Obligations.MoverDescriptorsRun, clause 6. -/
theorem witness_MoverDescriptorsRun_6 : ∃ (ch : BitVec 6) (x : Transfer) (rest : List Transfer) (s : State),
    (s.chan ch.toNat).queue = x :: rest ∧
    (s.chan ch.toNat).state = .running ∧
    x.dsts ≠ [] ∧
    x.bytes ≤ x.moved ∧
    x.flush = true ∧
    x.dstPool = false ∧
    (s.chan ch.toNat).flushWait = false ∧
    rangeAt x.srcs x.bytes = none ∧
    s.freeTags x.port ≠ [] :=
  ⟨63, ({ wXfer with moved := 100, flush := true }), [], (wMover 63 (wRunning [{ wXfer with moved := 100, flush := true }])), by decide +kernel⟩

/-- Obligations.MoverDescriptorsRun, clause 7. -/
theorem witness_MoverDescriptorsRun_7 : ∃ (ch : BitVec 6) (bytes : Bytes) (r : HostRead) (x : Transfer) (rest : List Transfer) (s : State),
    (s.chan ch.toNat).flushWait = true ∧
    s.dmv.reads = [r] ∧
    r.user = .chan ch.toNat ∧
    r.dead = false ∧
    r.len = 0 ∧
    (s.chan ch.toNat).queue = x :: rest ∧
    s.chanLine ch.toNat = 0 ∧
    s.mqRoom (s.regField (Reg.dmvChCfg ch.toNat) 12 3) = true ∧
    (s.mq (s.regField (Reg.dmvChCfg ch.toNat) 12 3)).waiting = [] :=
  ⟨63, [], ({ wPiece 3 with len := 0 }), ({ wXfer with moved := 100, flush := true }), [], (wQueue (wSets.withDmv { Dmv.at0 with chans := [(63, { wRunning [{ wXfer with moved := 100, flush := true }] with flushWait := true })], reads := [{ wPiece 3 with len := 0 }] }) { Mq.at0 with enabled := true }), by decide +kernel⟩

/-- Obligations.MoverDescriptorsRun, clause 8. -/
theorem witness_MoverDescriptorsRun_8 : ∃ (ch : BitVec 6) (x : Transfer) (io : Io) (s : State),
    (s.chan ch.toNat).queue = [x] ∧
    (s.chan ch.toNat).state = .running ∧
    s.chanLine ch.toNat ≠ 0 ∧
    x.dsts ≠ [] ∧
    x.bytes ≤ x.moved ∧
    x.flush = false ∧
    (s.chan ch.toNat).flushWait = false ∧
    s.ios = [io] ∧
    x.io = some io.id ∧
    io.kind = .read ∧
    io.lost = [] :=
  ⟨0, ({ wXfer with moved := 100, io := some 1 }), (wIo .read), ({ (wRegs.withDmv { Dmv.at0 with chans := [(0, { wRunning [{ wXfer with moved := 100, io := some 1 }] with state := .running })] }) with ios := [wIo .read] }), by decide +kernel⟩

/-- Obligations.ChannelAndQueueRegisters, clause 1. -/
theorem witness_ChannelAndQueueRegisters_1 : ∃ (ch : BitVec 6) (s : State),
    s.haltClosed = false ∧
    s.gcs.phase ≠ .dock ∧
    (s.chan ch.toNat).state = .disabled ∧
    s.dmv.unassigned = [] :=
  ⟨63, wSets, by decide⟩

/-- Obligations.ChannelAndQueueRegisters, clause 2. -/
theorem witness_ChannelAndQueueRegisters_2 : ∃ (ch : BitVec 6) (s : State),
    s.haltClosed = false ∧
    s.gcs.phase ≠ .dock ∧
    s.chanLine ch.toNat = 0 ∧
    (((s.chan ch.toNat).state = .idle ∨ (s.chan ch.toNat).state = .halted)) ∧
    (s.chan ch.toNat).desc ≠ 0 :=
  ⟨63, (wMover 63 { Channel.at0 63 with state := .halted, desc := 64 }), by decide +kernel⟩

/-- Obligations.ChannelAndQueueRegisters, clause 3. -/
theorem witness_ChannelAndQueueRegisters_3 : ∃ (ch : BitVec 6) (value : Word64) (s : State),
    s.haltClosed = false ∧
    s.gcs.phase ≠ .dock ∧
    (((s.chan ch.toNat).state = .idle ∨ (s.chan ch.toNat).state = .halted)) :=
  ⟨63, 0x7F, (wMover 63 { Channel.at0 63 with state := .halted }), by decide⟩

/-- Obligations.ChannelAndQueueRegisters, clause 4. -/
theorem witness_ChannelAndQueueRegisters_4 : ∃ (ch : BitVec 6) (value : Word64) (s : State),
    s.haltClosed = false ∧
    s.gcs.phase ≠ .dock ∧
    (s.chan ch.toNat).state ≠ .idle ∧
    (s.chan ch.toNat).state ≠ .halted :=
  ⟨63, 0x7F, (wMover 63 { Channel.at0 63 with state := .holding }), by decide⟩

/-- Obligations.ChannelAndQueueRegisters, clause 5. -/
theorem witness_ChannelAndQueueRegisters_5 : ∃ (ch : BitVec 6) (s : State),
    s.haltClosed = false ∧
    s.gcs.phase ≠ .dock ∧
    (s.chan ch.toNat).state ≠ .disabled ∧
    s.chanLine ch.toNat = 0 :=
  ⟨63, (wPiecing [wXfer] 3), by decide⟩

/-- Obligations.ChannelAndQueueRegisters, clause 6. -/
theorem witness_ChannelAndQueueRegisters_6 : ∃ (ch : BitVec 6) (s : State),
    s.haltClosed = false ∧
    s.gcs.phase ≠ .dock ∧
    (s.chan ch.toNat).state ≠ .disabled ∧
    1 ≤ s.chanLine ch.toNat ∧
    s.chanLine ch.toNat ≤ 4 ∧
    ((∀ m, m < 64 → m ≠ ch.toNat → ¬ ((s.chan m).enable = true ∧ s.chanLine m = s.chanLine ch.toNat))) :=
  ⟨47, (wSets.withDmv { Dmv.at0 with chans := (List.range 7).map (fun i => (40 + i, { Channel.at0 (40 + i) with state := .disabled, enable := false })) }), by decide +kernel⟩

/-- Obligations.ChannelAndQueueRegisters, clause 7. -/
theorem witness_ChannelAndQueueRegisters_7 : ∃ (ch : BitVec 6) (m : Nat) (x : Transfer) (s : State),
    s.haltClosed = false ∧
    s.gcs.phase ≠ .dock ∧
    (s.chan ch.toNat).state ≠ .disabled ∧
    1 ≤ s.chanLine ch.toNat ∧
    s.chanLine ch.toNat ≤ 4 ∧
    m < 64 ∧
    m ≠ ch.toNat ∧
    ((∀ k, k < 64 → k ≠ ch.toNat → ((s.chan k).enable = true ∧ s.chanLine k = s.chanLine ch.toNat ↔ k = m))) ∧
    (s.chan ch.toNat).queue = [x] ∧
    s.dmv.reads = [] :=
  ⟨47, 40, wXfer, (wSets.withDmv { Dmv.at0 with chans := (List.range 6).map (fun i => (41 + i, { Channel.at0 (41 + i) with state := .disabled, enable := false })) ++ [(47, wRunning [wXfer])] }), by decide +kernel⟩

/-- Obligations.ChannelAndQueueRegisters, clause 8. -/
theorem witness_ChannelAndQueueRegisters_8 : ∃ (q : BitVec 3) (s : State),
    s.haltClosed = false ∧
    s.gcs.phase ≠ .dock ∧
    (s.mq q.toNat).enabled = false ∧
    s.regN (Reg.dmvMqBase q.toNat) ≠ 0 ∧
    4 ≤ s.regField (Reg.dmvMqCfg q.toNat) 0 5 ∧
    s.regField (Reg.dmvMqCfg q.toNat) 0 5 ≤ 16 ∧
    (s.mq q.toNat).waiting = [] :=
  ⟨0, (wQueue wSets Mq.at0), by decide⟩

/-- Obligations.ChannelAndQueueRegisters, clause 9. -/
theorem witness_ChannelAndQueueRegisters_9 : ∃ (q : BitVec 3) (s : State),
    s.haltClosed = false ∧
    s.gcs.phase ≠ .dock :=
  ⟨7, wSets, by decide⟩

/-- Obligations.ChannelAndQueueRegisters, clause 10. -/
theorem witness_ChannelAndQueueRegisters_10 : ∃ (q : BitVec 3) (value : Word32) (s : State),
    s.haltClosed = false ∧
    s.gcs.phase ≠ .dock ∧
    (s.mq q.toNat).enabled = true ∧
    value.toNat < 2 ^ 17 ∧
    value.toNat % 2 ^ 16 < s.mqN q.toNat ∧
    posCount (s.mqN q.toNat) (s.mq q.toNat).cons (value.toNat % 2 ^ 16 + s.mqN q.toNat * bitsOf value.toNat 16 1) ≤ posCount (s.mqN q.toNat) (s.mq q.toNat).cons (s.mq q.toNat).prod ∧
    (s.mq q.toNat).waiting = [] :=
  ⟨0, 0x10005, (wQueue wSets { Mq.at0 with enabled := true, cons := 12, prod := 22 }), by decide⟩

/-- Obligations.ChannelAndQueueRegisters, clause 11. -/
theorem witness_ChannelAndQueueRegisters_11 : ∃ (q : BitVec 3) (value : Word32) (det : Byte) (s : State),
    s.haltClosed = false ∧
    s.gcs.phase ≠ .dock ∧
    consCheck (s.mq q.toNat).enabled (s.mqN q.toNat) (s.mq q.toNat).cons (s.mq q.toNat).prod value.toNat = some det :=
  ⟨0, 16, 6, (wQueue wSets { Mq.at0 with enabled := true }), by decide⟩

/-- Obligations.FlitsAreTakenInOrder, clause 1. -/
theorem witness_FlitsAreTakenInOrder_1 : ∃ (h : FlitHdr) (s : State),
    s.accepts h :=
  ⟨wHdr, (wPair id), ⟨rfl, rfl, by decide, fun _ => rfl, rfl⟩⟩

/-- Obligations.FlitsAreTakenInOrder, clause 2. -/
theorem witness_FlitsAreTakenInOrder_2 : ∃ (h : FlitHdr) (s : State),
    s.pair.state ≠ .joining ∧
    s.pair.state ≠ .paired :=
  ⟨wHdr, wSets, by decide⟩

/-- Obligations.FlitsAreTakenInOrder, clause 3. -/
theorem witness_FlitsAreTakenInOrder_3 : ∃ (h : FlitHdr) (s : State),
    s.gcs.pwrgd = true ∧
    Config.hasPair s.part = true ∧
    ((s.pair.state = .joining ∨ s.pair.state = .paired)) ∧
    s.pair.link = true ∧
    h.seq ≠ s.pair.seqRx + 1 :=
  ⟨({ wHdr with seq := 9 }), (wPair id), by decide +kernel⟩

/-- Obligations.FlitsAreTakenInOrder, clause 4. -/
theorem witness_FlitsAreTakenInOrder_4 : ∃ (h : FlitHdr) (s : State),
    s.accepts h ∧
    ¬ (s.pair.nakRun ≠ 0 ∧ s.pair.nakSeq = h.ack) :=
  ⟨wHdr, (wPair id), ⟨rfl, rfl, by decide, fun _ => rfl, rfl⟩, by decide +kernel⟩

/-- Obligations.FlitsAreTakenInOrder, clause 5. -/
theorem witness_FlitsAreTakenInOrder_5 : ∃ (h : FlitHdr) (s : State),
    s.accepts h ∧
    s.pair.nakRun = 3 ∧
    s.pair.nakSeq = h.ack :=
  ⟨wHdr, (wPair (fun p => { p with nakRun := 3, nakSeq := 19 })), ⟨rfl, rfl, by decide, fun _ => rfl, rfl⟩, by decide +kernel⟩

/-- Obligations.FlitsAreTakenInOrder, clause 6. -/
theorem witness_FlitsAreTakenInOrder_6 : ∃ (s : State),
    s.pair.link = true ∧
    s.pair.failures < 3 :=
  ⟨(wPair (fun p => { p with failures := 2 })), by decide⟩

/-- Obligations.FlitsAreTakenInOrder, clause 7. -/
theorem witness_FlitsAreTakenInOrder_7 : ∃ (s : State),
    s.pair.link = true ∧
    s.pair.failures = 3 :=
  ⟨(wPair (fun p => { p with failures := 3 })), by decide⟩

/-- Obligations.FlitsAreTakenInOrder, clause 8. -/
theorem witness_FlitsAreTakenInOrder_8 : ∃ (detail : Byte) (s : State),
    s.pair.link = true ∧
    s.pair.state = .paired ∧
    s.pair.partnerValid = true :=
  ⟨4, (wPair (fun p => { p with partnerValid := true })), by decide⟩

/-- Obligations.FlitsAreTakenInOrder, clause 9. -/
theorem witness_FlitsAreTakenInOrder_9 : ∃ (detail : Byte) (s : State),
    s.pair.link = true ∧
    s.pair.state ≠ .paired :=
  ⟨4, (wPair (fun p => { p with state := .joining })), by decide⟩

/-- Obligations.FlitsAreTakenInOrder, clause 10. -/
theorem witness_FlitsAreTakenInOrder_10 : ∃ (lane : BitVec 3) (s : State),
    s.pair.link = true ∧
    s.pair.lanesUp = 8 :=
  ⟨5, (wPair id), by decide⟩

/-- Obligations.FlitsAreTakenInOrder, clause 11. -/
theorem witness_FlitsAreTakenInOrder_11 : ∃ (lane : BitVec 3) (s : State),
    s.pair.link = true ∧
    s.pair.lanesUp = 4 ∧
    decide (4 ≤ lane.toNat) = s.pair.lanesHigh :=
  ⟨5, (wPair (fun p => { p with lanesUp := 4, lanesHigh := true })), by decide⟩

/-- Obligations.FlitsCarryThePair, clause 1. -/
theorem witness_FlitsCarryThePair_1 : ∃ (h : FlitHdr) (position : Word64) (u : Bytes) (s : State),
    s.accepts h ∧
    s.pair.state = .paired ∧
    s.pair.mirror = [] ∧
    recHeader u (position.toNat % s.halfUnits) = none ∧
    u ≠ [] :=
  ⟨wHdr, 5, (fill 64 1), (wPair id), ⟨rfl, rfl, by decide, fun _ => rfl, rfl⟩, by decide +kernel⟩

/-- Obligations.FlitsCarryThePair, clause 2. -/
theorem witness_FlitsCarryThePair_2 : ∃ (h : FlitHdr) (position : Word64) (u : Bytes) (r : Rec) (s : State),
    s.accepts h ∧
    s.pair.state = .paired ∧
    s.pair.mirror = [] ∧
    recHeader u (position.toNat % s.halfUnits) = some r ∧
    r.units = 1 :=
  ⟨wHdr, 5, wUnit, (recHeader wUnit 5).getD (wRec .data), (wPair id), ⟨rfl, rfl, by decide, fun _ => rfl, rfl⟩, by decide +kernel⟩

/-- Obligations.FlitsCarryThePair, clause 3. -/
theorem witness_FlitsCarryThePair_3 : ∃ (h : FlitHdr) (seqs : List Word64) (s : State),
    s.accepts h ∧
    ((∀ r ∈ s.log.recs, BitVec.ofNat 64 r.seq ∈ seqs → r.localDone = false)) ∧
    ((∀ r ∈ s.log.recs, r.seq < 2 ^ 64)) ∧
    s.scc.asks = [] :=
  ⟨wHdr, [1], ({ (wLog (wRec .data)) with pair := wTwin }), ⟨rfl, rfl, by decide, fun _ => rfl, rfl⟩, by decide +kernel⟩

/-- Obligations.FlitsCarryThePair, clause 4. -/
theorem witness_FlitsCarryThePair_4 : ∃ (h : FlitHdr) (r : Rec) (s : State),
    s.accepts h ∧
    s.log.recs = [r] ∧
    r.seq < 2 ^ 64 ∧
    r.typ = .sealRec ∧
    r.status = .writing ∧
    r.localDone = true ∧
    s.ios = [] :=
  ⟨wHdr, ({ wRec .sealRec with localDone := true, status := .writing }), ({ (wLog { wRec .sealRec with localDone := true, status := .writing }) with pair := wTwin }), ⟨rfl, rfl, by decide, fun _ => rfl, rfl⟩, by decide +kernel⟩

/-- Obligations.FlitsCarryThePair, clause 5. -/
theorem witness_FlitsCarryThePair_5 : ∃ (h : FlitHdr) (f : FwdDesc) (s : State),
    s.accepts h ∧
    s.pair.state = .paired ∧
    s.gcs.phase = .recovery ∧
    1 ≤ (fwdDesc f).opcode.toNat ∧
    (fwdDesc f).opcode.toNat ≤ 4 :=
  ⟨wHdr, wFwd, ({ (wPair id) with gcs := { wSets.gcs with phase := .recovery } }), ⟨rfl, rfl, by decide, fun _ => rfl, rfl⟩, by decide +kernel⟩

/-- Obligations.FlitsCarryThePair, clause 6. -/
theorem witness_FlitsCarryThePair_6 : ∃ (h : FlitHdr) (ref : Word64) (status : Byte) (detail : Byte) (watch : BitVec 48) (gen : Word32) (io : Io) (s : State),
    s.accepts h ∧
    s.awayIo ref.toNat = some io ∧
    status ≠ stOk :=
  ⟨wHdr, (BitVec.ofNat 64 wRef), 0x12, 1, 5, 6, (wAway .read), (wAways .read), ⟨rfl, rfl, by decide, fun _ => rfl, rfl⟩, by decide +kernel⟩

/-- Obligations.FlitsCarryThePair, clause 7. -/
theorem witness_FlitsCarryThePair_7 : ∃ (h : FlitHdr) (ref : Word64) (detail : Byte) (watch : BitVec 48) (gen : Word32) (io : Io) (s : State),
    s.accepts h ∧
    s.awayIo ref.toNat = some io ∧
    io.kind ≠ .write :=
  ⟨wHdr, (BitVec.ofNat 64 wRef), 1, 5, 6, (wAway .read), (wAways .read), ⟨rfl, rfl, by decide, fun _ => rfl, rfl⟩, by decide +kernel⟩

/-- Obligations.FlitsCarryThePair, clause 8. -/
theorem witness_FlitsCarryThePair_8 : ∃ (h : FlitHdr) (ref : Word64) (data : Bytes) (io : Io) (s : State),
    s.accepts h ∧
    s.fwdIo ref.toNat = none ∧
    s.awayIo ref.toNat = some io ∧
    io.kind = .read ∧
    io.blocks = [] ∧
    data.length ≤ 192 ∧
    (io.inbound ++ data).length < io.desc.blocks * 4096 :=
  ⟨wHdr, (BitVec.ofNat 64 wRef), (fill 192 7), (wAway .read), (wAways .read), ⟨rfl, rfl, by decide, fun _ => rfl, rfl⟩, by decide +kernel⟩

/-- Obligations.FlitsCarryThePair, clause 9. -/
theorem witness_FlitsCarryThePair_9 : ∃ (h : FlitHdr) (ref : Word64) (status : Byte) (detail : Byte) (io : Io) (s : State),
    s.accepts h ∧
    s.awayIo ref.toNat = some io ∧
    ((status ≠ stOk ∨ io.kind ≠ .read)) :=
  ⟨wHdr, (BitVec.ofNat 64 wRef), 0, 1, (wAway .write), (wAways .write), ⟨rfl, rfl, by decide, fun _ => rfl, rfl⟩, by decide +kernel⟩

/-- Obligations.FlitsCarryThePair, clause 10. -/
theorem witness_FlitsCarryThePair_10 : ∃ (h : FlitHdr) (ref : Word64) (detail : Byte) (io : Io) (s : State),
    s.accepts h ∧
    s.awayIo ref.toNat = some io ∧
    io.kind = .read :=
  ⟨wHdr, (BitVec.ofNat 64 wRef), 1, (wAway .read), (wAways .read), ⟨rfl, rfl, by decide, fun _ => rfl, rfl⟩, by decide +kernel⟩

/-- Obligations.FlitsCarryThePair, clause 11. -/
theorem witness_FlitsCarryThePair_11 : ∃ (h : FlitHdr) (watch : BitVec 48) (holdover : Bool) (s : State),
    s.accepts h ∧
    s.pair.state = .paired ∧
    s.sealTarget ≤ s.wch.sealedWatch.toNat :=
  ⟨wHdr, 5, true, (wPair id), ⟨rfl, rfl, by decide, fun _ => rfl, rfl⟩, by decide +kernel⟩

/-- Obligations.FlitsCarryThePair, clause 12. -/
theorem witness_FlitsCarryThePair_12 : ∃ (h : FlitHdr) (s : State),
    s.accepts h ∧
    s.pair.token = false :=
  ⟨wHdr, (wPair id), ⟨rfl, rfl, by decide, fun _ => rfl, rfl⟩, by decide +kernel⟩

/-- Obligations.FlitsCarryThePair, clause 13. -/
theorem witness_FlitsCarryThePair_13 : ∃ (h : FlitHdr) (s : State),
    s.accepts h ∧
    s.pair.token = true :=
  ⟨wHdr, (wPair (fun p => { p with token := true })), ⟨rfl, rfl, by decide, fun _ => rfl, rfl⟩, by decide +kernel⟩

/-- Obligations.FlitsCarryThePair, clause 14. -/
theorem witness_FlitsCarryThePair_14 : ∃ (h : FlitHdr) (page : Bytes) (s : State),
    s.accepts h :=
  ⟨wHdr, [1], (wPair id), ⟨rfl, rfl, by decide, fun _ => rfl, rfl⟩⟩

/-- Obligations.PairStatesChange, clause 1. -/
theorem witness_PairStatesChange_1 : ∃ (h : FlitHdr) (s : State),
    s.accepts h ∧
    s.pair.state = .paired :=
  ⟨wHdr, (wPair id), ⟨rfl, rfl, by decide, fun _ => rfl, rfl⟩, by decide +kernel⟩

/-- Obligations.PairStatesChange, clause 2. -/
theorem witness_PairStatesChange_2 : ∃ (s : State),
    s.pair.state = .paired ∧
    s.pair.probing = true ∧
    s.log.recs = [] ∧
    s.ios = [] :=
  ⟨(wPair (fun p => { p with probing := true })), by decide⟩

/-- Obligations.PairStatesChange, clause 3. -/
theorem witness_PairStatesChange_3 : ∃ (state : BitVec 3) (s : State),
    s.pair.state = .paired ∧
    s.pair.probing = true ∧
    s.log.recs = [] ∧
    s.ios = [] ∧
    s.pair.side = false ∧
    1 ≤ state.toNat ∧
    state.toNat ≤ 4 :=
  ⟨4, (wPair (fun p => { p with probing := true, side := false })), by decide⟩

/-- Obligations.PairStatesChange, clause 4. -/
theorem witness_PairStatesChange_4 : ∃ (state : BitVec 3) (down : Bool) (s : State),
    s.pair.state = .paired ∧
    s.pair.probing = true ∧
    1 ≤ state.toNat ∧
    state.toNat ≤ 4 ∧
    ((down = false ∨ s.pair.side = true)) :=
  ⟨4, true, (wPair (fun p => { p with probing := true })), by decide⟩

/-- Obligations.PairStatesChange, clause 5. -/
theorem witness_PairStatesChange_5 : ∃ (s : State),
    s.pair.state = .joining ∧
    s.pair.afterReset = true ∧
    s.pair.link = false ∧
    s.log.recs = [] ∧
    s.ios = [] :=
  ⟨(wPair (fun p => { p with state := .joining, link := false, afterReset := true })), by decide⟩

/-- Obligations.PairStatesChange, clause 6. -/
theorem witness_PairStatesChange_6 : ∃ (s : State),
    s.pair.state = .takeover ∧
    s.pair.fenceWait = true :=
  ⟨(wPair (fun p => { p with state := .takeover, fenceWait := true })), by decide⟩

/-- Obligations.PairStatesChange, clause 7. -/
theorem witness_PairStatesChange_7 : ∃ (s : State),
    s.pair.state = .takeover ∧
    s.pair.fenceWait = false ∧
    ((∀ i, i < 64 → (s.set i).state ≠ .empty → (s.set i).side = s.pair.side)) :=
  ⟨({ (wPair (fun p => { p with state := .takeover })) with sets := [(0, { wSet with side := true })] }), by decide⟩

/-- Obligations.PairStatesChange, clause 8. -/
theorem witness_PairStatesChange_8 : ∃ (s : State),
    s.gcs.pwrgd = true ∧
    s.pair.state ≠ .single ∧
    s.pair.state ≠ .fenced :=
  ⟨(wPair id), by decide⟩

/-- Obligations.PairStatesChange, clause 9. -/
theorem witness_PairStatesChange_9 : ∃ (s : State),
    ((s.pair.state = .single ∨ s.pair.state = .fenced)) :=
  ⟨wSets, by decide⟩

/-- Obligations.PairStatesChange, clause 11. -/
theorem witness_PairStatesChange_11 : ∃ (h : FlitHdr) (ps : PartnerState) (s : State),
    s.accepts h ∧
    s.pair.state = .joining ∧
    ps.leaving = false ∧
    ps.joining = true ∧
    s.joinFault ps = none ∧
    s.pair.joinSrc = none :=
  ⟨wHdr, wPartner, ({ wHost with pair := { wTwin with state := .joining } }), ⟨rfl, rfl, by decide, fun _ => rfl, rfl⟩, by decide +kernel⟩

/-- Obligations.PairStatesChange, clause 12. -/
theorem witness_PairStatesChange_12 : ∃ (h : FlitHdr) (ps : PartnerState) (st : Byte) (det : Byte) (reason : Nat) (port : Nat) (src : CmdSrc) (d : Deferred) (s : State),
    s.accepts h ∧
    s.pair.state = .joining ∧
    ps.leaving = false ∧
    ps.joining = true ∧
    s.joinFault ps = some (st, det, reason, port) ∧
    reason < 8 ∧
    s.pair.afterReset = false ∧
    s.pair.joinSrc = some src ∧
    s.interp.deferred = [d] ∧
    d.src = src :=
  ⟨wHdr, ({ wPartner with side := true }), stBadField, 0x10, 1, 0, .chain, (wDeferred (wPkt 0x0B01 [(0x10, 1, 1)])), wJoin, ⟨rfl, rfl, by decide, fun _ => rfl, rfl⟩, by decide +kernel⟩

/-- Obligations.PairStatesChange, clause 13. -/
theorem witness_PairStatesChange_13 : ∃ (h : FlitHdr) (ps : PartnerState) (s : State),
    s.accepts h ∧
    s.pair.state = .paired ∧
    ps.leaving = true :=
  ⟨wHdr, ({ wPartner with leaving := true }), (wPair id), ⟨rfl, rfl, by decide, fun _ => rfl, rfl⟩, by decide +kernel⟩

/-- Obligations.PairStatesChange, clause 14. -/
theorem witness_PairStatesChange_14 : ∃ (src : CmdSrc) (d : Deferred) (s : State),
    s.pair.state = .joining ∧
    s.pair.joinSrc = some src ∧
    s.pair.afterReset = false ∧
    s.interp.deferred = [d] ∧
    d.src = src :=
  ⟨.chain, (wDeferred (wPkt 0x0B01 [(0x10, 1, 1)])), wJoin, by decide +kernel⟩

/-- Obligations.ChainFrames, clause 1. -/
theorem witness_ChainFrames_1 : ∃ (seq : Byte) (packet : Bytes) (s : State),
    s.onChain = true ∧
    packet.length = 128 ∧
    s.interp.chainBusySeq = none ∧
    s.interp.chainLastSeq ≠ some seq ∧
    s.gcs.phase ≠ .dock :=
  ⟨9, (wPkt 0x0D02 []), wChain, by decide +kernel⟩

/-- Obligations.ChainFrames, clause 2. -/
theorem witness_ChainFrames_2 : ∃ (seq : Byte) (packet : Bytes) (s : State),
    s.onChain = true ∧
    packet.length = 128 ∧
    s.interp.chainBusySeq = some seq :=
  ⟨9, (wPkt 0x0D02 []), ({ wChain with interp := { Interp.at0 with chainBusySeq := some 9 } }), by decide +kernel⟩

/-- Obligations.ChainFrames, clause 3. -/
theorem witness_ChainFrames_3 : ∃ (seq : Byte) (q : Byte) (packet : Bytes) (s : State),
    s.onChain = true ∧
    packet.length = 128 ∧
    s.interp.chainBusySeq = some q ∧
    q ≠ seq :=
  ⟨9, 8, (wPkt 0x0D02 []), ({ wChain with interp := { Interp.at0 with chainBusySeq := some 8 } }), by decide +kernel⟩

/-- Obligations.ChainFrames, clause 4. -/
theorem witness_ChainFrames_4 : ∃ (seq : Byte) (packet : Bytes) (s : State),
    s.onChain = true ∧
    packet.length = 128 ∧
    s.interp.chainBusySeq = none ∧
    s.interp.chainLastSeq = some seq ∧
    s.gcs.phase ≠ .dock :=
  ⟨9, (wPkt 0x0D02 []), ({ wChain with interp := { Interp.at0 with chainLastSeq := some 9, chainReply := [1, 2] } }), by decide +kernel⟩

/-- Obligations.ChainFrames, clause 5. -/
theorem witness_ChainFrames_5 : ∃ (seq : Byte) (offset : Half) (data : Bytes) (s : State),
    s.onChain = true ∧
    offset.toNat % 4 = 0 ∧
    data.length % 4 = 0 ∧
    1 ≤ data.length ∧
    data.length ≤ 256 ∧
    offset.toNat + data.length ≤ 65536 :=
  ⟨9, 0xFF00, (fill 256 7), wChain, by decide +kernel⟩

/-- Obligations.ChainFrames, clause 6. -/
theorem witness_ChainFrames_6 : ∃ (seq : Byte) (offset : Half) (data : Bytes) (s : State),
    s.onChain = true ∧
    scratchOk offset.toNat data.length = false :=
  ⟨9, 0xFF04, (fill 256 7), wChain, by decide +kernel⟩

/-- Obligations.ChainFrames, clause 7. -/
theorem witness_ChainFrames_7 : ∃ (seq : Byte) (offset : Half) (count : Half) (s : State),
    s.onChain = true ∧
    offset.toNat % 4 = 0 ∧
    count.toNat % 4 = 0 ∧
    1 ≤ count.toNat ∧
    count.toNat ≤ 256 ∧
    offset.toNat + count.toNat ≤ 65536 :=
  ⟨9, 0xFF00, 256, wChain, by decide +kernel⟩

/-- Obligations.ChainFrames, clause 8. -/
theorem witness_ChainFrames_8 : ∃ (seq : Byte) (offset : Half) (count : Half) (s : State),
    s.onChain = true ∧
    scratchOk offset.toNat count.toNat = false :=
  ⟨9, 2, 4, wChain, by decide⟩

/-- Obligations.ChainFrames, clause 9. -/
theorem witness_ChainFrames_9 : ∃ (value : Word64) (s : State),
    s.gcs.pwrgd = true ∧
    value.toNat % 1000000000 = 0 ∧
    s.regBit Reg.wchCtl 0 = true ∧
    s.wch.todSrc = none :=
  ⟨3000000000, ({ wChain with regs := (wHost.setRegN Reg.wchCtl 1).regs }), by decide⟩

/-- Obligations.ChainFrames, clause 10. -/
theorem witness_ChainFrames_10 : ∃ (value : Word64) (s : State),
    s.gcs.pwrgd = true ∧
    value.toNat % 1000000000 ≠ 0 :=
  ⟨2999999999, wChain, by decide⟩

/-- Obligations.ChainFrames, clause 11. -/
theorem witness_ChainFrames_11 : ∃ (hop : Byte) (s : State),
    s.gcs.pwrgd = true ∧
    hop.toNat < 32 ∧
    s.chn.address = none ∧
    s.pair.link = false :=
  ⟨31, wHost, by decide⟩

/-- Obligations.ChainFrames, clause 12. -/
theorem witness_ChainFrames_12 : ∃ (hop : Byte) (s : State),
    s.gcs.pwrgd = true ∧
    32 ≤ hop.toNat :=
  ⟨32, wHost, by decide⟩

/-- Obligations.ChainFrames, clause 13. -/
theorem witness_ChainFrames_13 : ∃ (seq : Byte) (s : State),
    s.gcs.pwrgd = true ∧
    s.chn.alert = true :=
  ⟨9, wChain, by decide⟩

/-- Obligations.ChainFrames, clause 14. -/
theorem witness_ChainFrames_14 : ∃ (seq : Byte) (s : State),
    s.gcs.pwrgd = true ∧
    s.chn.alert = false :=
  ⟨9, wHost, by decide⟩

/-- Obligations.ChainFrames, clause 15. -/
theorem witness_ChainFrames_15 : ∃ (seq : Byte) (src : Byte) (side : Bool) (s : State),
    s.onChain = true :=
  ⟨9, 4, true, wChain, by decide⟩

/-- Obligations.ChainFrames, clause 16. -/
theorem witness_ChainFrames_16 : ∃ (s : State),
    s.onChain = true :=
  ⟨wChain, by decide⟩

/-- Obligations.ChainFrames, clause 17. -/
theorem witness_ChainFrames_17 : ∃ (s : State),
    s.haltClosed = false ∧
    s.gcs.phase ≠ .dock :=
  ⟨wChain, by decide⟩

/-- Obligations.ChainFrames, clause 18. -/
theorem witness_ChainFrames_18 : ∃ (s : State),
    s.gcs.pwrgd = true :=
  ⟨wChain, by decide⟩

/-- Obligations.ChainFrames, clause 19. -/
theorem witness_ChainFrames_19 : ∃ (dest : Byte) (frame : Bytes) (s : State),
    s.gcs.pwrgd = true ∧
    ((dest.getLsbD 5 = true ∨ dest.getLsbD 6 = true ∨ s.chn.address ≠ some (dest.setWidth 5))) :=
  ⟨0x24, [1], wChain, by decide⟩

/-- Obligations.ChainFrames, clause 20. -/
theorem witness_ChainFrames_20 : ∃ (s : State),
    s.gcs.pwrgd = true :=
  ⟨wChain, by decide⟩

/-- Obligations.ChainFrames, clause 21. -/
theorem witness_ChainFrames_21 : ∃ (s : State),
    s.gcs.pwrgd = false :=
  ⟨({ wChain with gcs := { wChain.gcs with pwrgd := false } }), by decide⟩

/-- Obligations.ChainFrames, clause 22. -/
theorem witness_ChainFrames_22 : ∃ (s : State),
    s.sec.lock ≠ 0 :=
  ⟨({ wHost with sec := { Sec.at0 with lock := 1 } }), by decide⟩

/-- Obligations.ChainFrames, clause 23. -/
theorem witness_ChainFrames_23 : ∃ (s : State),
    s.sec.lock = 0 :=
  ⟨wHost, by decide⟩


end Sys2Proof.Tests
end

section
/-! PROOFS. What a host's memory requests do (spec/00_scope.md R3, R6 to R8; spec/15_host_port.md R430, R443, R448, R450, R452). The
equations of the four kinds of BAR0 access and of BAR2 writes and reads, one for each way a request can go, the facts about what a
request leaves behind, and the statements of the family that follow from them. -/

namespace Sys2Proof.Machine

/-! ## Ports that take memory requests -/

/-- A port that takes memory requests: not frozen by containment (R443), its link up, in D0, with Memory Space Enable set. -/
structure State.Serving (s : State) (p : Bool) : Prop where
  live : (s.hpu p).contained = false
  serves : s.portServes2 p = true

theorem State.Serving.of_hpu {s : State} {p : Bool} (hc : (s.hpu p).contained = false) (hl : (s.hpu p).dlUp = true)
    (hd : (s.hpu p).d3hot = false) (hm : (s.hpu p).cfg.memEnable = true) : s.Serving p :=
  ⟨hc, by simp [State.portServes2, hl, hd, hm]⟩

theorem State.Serving.dlUp {s : State} {p : Bool} (h : s.Serving p) : (s.hpu p).dlUp = true := by
  have hs := h.serves
  simp only [State.portServes2, Bool.and_eq_true] at hs
  exact hs.1.1

/-! ## Completions -/

@[simp] theorem State.hostOut_out (s : State) (p : Bool) (o : Out) : (s.hostOut p o).out = o :: s.out := by
  unfold State.hostOut
  split <;> rfl

theorem State.mem_complete_out (s : State) (p : Bool) (o : Out) : o ∈ (s.complete p o).out := by
  simp [State.complete]

@[simp] theorem State.complete_gcs (s : State) (p : Bool) (o : Out) : (s.complete p o).gcs = s.gcs :=
  State.complete_only (M := [.hpus, .out]) (Only.refl _ s) rfl p o .gcs (by decide)

@[simp] theorem State.src_complete (s : State) (p : Bool) (o : Out) (n : Byte) : (s.complete p o).src n = s.src n :=
  State.src_of_sources (State.complete_only (M := [.hpus, .out]) (Only.refl _ s) rfl p o .sources (by decide)) n

/-! ## Faults of a request -/

theorem State.Faulted.of_src {s t u : State} {n d : Byte} (h : s.Faulted t n d) (e : u.src n = t.src n) : s.Faulted u n d := by
  unfold State.Faulted
  rw [e]
  exact h

/-- Raising a fault whose source stands as it stood in s is one fault since s. -/
theorem State.Faulted.raise {s t : State} {n : Byte} (e : t.src n = s.src n) (level : Level) (d : Byte) (h2 : n ≠ 0x02)
    (h3 : n ≠ 0x24) (h4 : n ≠ 0x25) : s.Faulted (t.raise n level d) n d := by
  obtain ⟨hcount, hopen, hdetail, -⟩ := State.raise_src t n level d h2 h3 h4
  exact ⟨by rw [hcount, e], hopen, hdetail⟩

/-- The fault source of a BAR2 miss of port p (R452). -/
def missSource (p read : Bool) : Byte := hpuSource (if read then 0x15 else 0x14) p

/-- The source of a miss is neither one that other faults raise (R349, R238) nor that of the pool (R289). -/
theorem missSource_not_mem (p read : Bool) : missSource p read ∉ ([0x02, 0x24, 0x25, 0x32] : List Byte) := by
  cases p <;> cases read <;> decide

theorem State.missed_pool (s : State) (p read : Bool) (a : Nat) (reason : Byte) : (s.missed p read a reason).pwin.pool = s.pwin.pool :=
  State.missed_only (M := .pwin :: raiseParts) (Only.refl _ s) rfl p read a reason .pool (by decide)

/-- A recorded miss raises its source with its reason, after updates that leave every source as it was. -/
theorem State.missed_raise (s : State) (p read : Bool) (a : Nat) (reason : Byte) :
    ∃ t : State, (∀ n, t.src n = s.src n) ∧ s.missed p read a reason = t.raise (missSource p read) .note reason := by
  cases read
  · refine ⟨_, ?_, rfl⟩
    exact fun _ => rfl
  · refine ⟨_, ?_, rfl⟩
    exact fun _ => rfl

theorem State.faulted_missed (s : State) (p read : Bool) (a : Nat) (reason : Byte) :
    s.Faulted (s.missed p read a reason) (missSource p read) reason := by
  obtain ⟨t, ht, e⟩ := State.missed_raise s p read a reason
  have hn := missSource_not_mem p read
  simp only [List.mem_cons, not_or] at hn
  rw [e]
  exact State.Faulted.raise (ht _) .note reason hn.1 hn.2.1 hn.2.2.1

theorem State.src_missed_pool (s : State) (p read : Bool) (a : Nat) (reason : Byte) :
    (s.missed p read a reason).src 0x32 = s.src 0x32 := by
  obtain ⟨t, ht, e⟩ := State.missed_raise s p read a reason
  rw [e, State.raise_other t _ _ .note reason _ (by decide) (by decide) (by decide), ht]
  intro h
  exact missSource_not_mem p read (by simp [← h])

/-! ## Windows (R448, R452) -/

/-- Window w of port p covers a request of len bytes at address a that its permission for the request's kind allows. -/
structure State.Covers (s : State) (p read : Bool) (a len : Nat) (w : Window) : Prop where
  found : s.winAt p a = some w
  inside : a + len ≤ w.offset + w.pages * 4096
  allowed : (if read then w.read else w.write) = true

/-- The pool address that address a of BAR2 reaches through a window. -/
def Window.poolAddr (w : Window) (a : Nat) : Nat := w.tbPage * 4096 + (a - w.offset)

theorem State.winCheck_of_none {s : State} {p : Bool} {a : Nat} (h : s.winAt p a = none) (read : Bool) (len : Nat) :
    s.winCheck p read a len = .error 1 := by
  simp only [State.winCheck, h]

theorem State.Covers.winCheck {s : State} {p read : Bool} {a len : Nat} {w : Window} (h : s.Covers p read a len w) :
    s.winCheck p read a len = .ok (w.poolAddr a) := by
  obtain ⟨hw, hin, hallow⟩ := h
  have hlen : ¬ w.offset + w.pages * 4096 < a + len := by omega
  have hdeny : ¬ (if read then !w.read else !w.write) = true := by
    cases read <;> simpa using hallow
  simp only [State.winCheck, hw, if_neg hlen, if_neg hdeny]
  rfl

/-! ## BAR2 writes (R443, R450, R452) -/

theorem exec_bar2Write (p : Bool) (addr : Word64) (data : Bytes) (s : State) :
    exec (.bar2Write p addr data) s = execBar2Write p addr data s := rfl

theorem exec_bar2Write_of_contained {s : State} {p : Bool} (h : (s.hpu p).contained = true) (addr : Word64) (data : Bytes) :
    exec (.bar2Write p addr data) s = .next (s.count32 (Reg.hpuPostedDrops (ofBool p)) 1) := by
  rw [exec_bar2Write, execBar2Write, if_pos h]

theorem exec_bar2Write_of_error {s : State} {p : Bool} {addr : Word64} {data : Bytes} {r : Byte} (h : s.Serving p)
    (hw : s.winCheck p false addr.toNat data.length = .error r) :
    exec (.bar2Write p addr data) s = .next (s.missed p false addr.toNat r) := by
  rw [exec_bar2Write, execBar2Write, if_neg (by simp [h.live]), if_neg (by simp [h.serves]), hw]

theorem exec_bar2Write_of_ok {s : State} {p : Bool} {addr : Word64} {data : Bytes} {a : Nat} (h : s.Serving p)
    (hw : s.winCheck p false addr.toNat data.length = .ok a) :
    exec (.bar2Write p addr data) s = .next (s.withPwin { s.pwin with pool := Memory.writeBytes s.pwin.pool a data }) := by
  rw [exec_bar2Write, execBar2Write, if_neg (by simp [h.live]), if_neg (by simp [h.serves]), hw]

theorem answers_bar2Write_of_covers {s : State} {p : Bool} {addr : Word64} {data : Bytes} {w : Window} (h : s.Serving p)
    (hw : s.Covers p false addr.toNat data.length w) :
    Answers (.bar2Write p addr data) s (fun t =>
      (∀ i, i < data.length → Memory.read t.pwin.pool (w.poolAddr addr.toNat + i) = data.getD i 0) ∧
      (∀ a, (a < w.poolAddr addr.toNat ∨ w.poolAddr addr.toNat + data.length ≤ a) →
        Memory.read t.pwin.pool a = Memory.read s.pwin.pool a) ∧ Only [.pwin, .pool] s t) := by
  refine ⟨_, exec_bar2Write_of_ok h hw.winCheck, fun i hi => ?_, fun a ha => ?_, only_withPwin (Only.refl _ s) rfl (.inl rfl)⟩
  · rw [State.withPwin_pwin, Memory.read_writeBytes, if_pos (by omega), Nat.add_sub_cancel_left]
  · rw [State.withPwin_pwin, Memory.read_writeBytes, if_neg (by omega)]

theorem answers_bar2Write_of_miss {s : State} {p : Bool} {addr : Word64} (h : s.Serving p) (hw : s.winAt p addr.toNat = none)
    (data : Bytes) :
    Answers (.bar2Write p addr data) s (fun t => t.pwin.pool = s.pwin.pool ∧ s.Faulted t (hpuSource 0x14 p) 1) :=
  ⟨_, exec_bar2Write_of_error h (State.winCheck_of_none hw false data.length), State.missed_pool ..,
    State.faulted_missed s p false addr.toNat 1⟩

theorem answers_bar2Write_of_contained {s : State} {p : Bool} (h : (s.hpu p).contained = true) (addr : Word64) (data : Bytes) :
    Answers (.bar2Write p addr data) s (fun t => Only [.regs] s t ∧
      t.regN (Reg.hpuPostedDrops (ofBool p)) = (s.regN (Reg.hpuPostedDrops (ofBool p)) + 1) % 2 ^ 32) :=
  ⟨_, exec_bar2Write_of_contained h addr data, State.count32_only (Only.refl _ s) rfl _ _, State.regN_count32 ..⟩

/-! ## BAR2 reads (R443, R450, R452, R289) -/

theorem exec_bar2Read (p : Bool) (addr : Word64) (len : Nat) (words : WordCheck) (s : State) :
    exec (.bar2Read p addr len words) s = execBar2Read p addr len words s := rfl

theorem exec_bar2Read_of_contained {s : State} {p : Bool} (h : (s.hpu p).contained = true) (hl : (s.hpu p).dlUp = true)
    (addr : Word64) (len : Nat) (words : WordCheck) :
    exec (.bar2Read p addr len words) s = .next (s.complete p (.unsupported p)) := by
  rw [exec_bar2Read, execBar2Read, if_neg (by simp [hl]), if_pos (.inl h)]

theorem exec_bar2Read_of_error {s : State} {p : Bool} {addr : Word64} {len : Nat} {r : Byte} (h : s.Serving p)
    (hw : s.winCheck p true addr.toNat len = .error r) (words : WordCheck) :
    exec (.bar2Read p addr len words) s = .next ((s.missed p true addr.toNat r).complete p (.unsupported p)) := by
  rw [exec_bar2Read, execBar2Read, if_neg (by simp [h.dlUp]), if_neg (by simp [h.live, h.serves]), hw]

/-- The answer to a read that reaches the pool: what its words showed decides (R289). -/
theorem exec_bar2Read_of_ok {s : State} {p : Bool} {addr : Word64} {len a : Nat} (h : s.Serving p)
    (hw : s.winCheck p true addr.toNat len = .ok a) (words : WordCheck) :
    exec (.bar2Read p addr len words) s = .next (match words with
      | .bad => ((s.missed p true addr.toNat 4).raise 0x32 .warn 2).complete p (.completerAbort p)
      | .corrected => (s.raise 0x32 .note 1).complete p (.readData p (Memory.readBytes s.pwin.pool a len))
      | .good => s.complete p (.readData p (Memory.readBytes s.pwin.pool a len))) := by
  rw [exec_bar2Read, execBar2Read, if_neg (by simp [h.dlUp]), if_neg (by simp [h.live, h.serves]), hw]
  cases words <;> rfl

section Covered
variable {s : State} {p : Bool} {addr : Word64} {len : Nat} {w : Window}

theorem answers_bar2Read_good (h : s.Serving p) (hw : s.Covers p true addr.toNat len w) :
    Answers (.bar2Read p addr len .good) s (fun t =>
      Out.readData p ((List.range len).map (fun i => Memory.read s.pwin.pool (w.poolAddr addr.toNat + i))) ∈ t.out ∧
      Only [.hpus, .out] s t) := by
  refine ⟨_, exec_bar2Read_of_ok h hw.winCheck .good, ?_, State.complete_only (Only.refl _ s) rfl p _⟩
  rw [← Memory.readBytes_eq]
  exact State.mem_complete_out ..

theorem answers_bar2Read_corrected (h : s.Serving p) (hw : s.Covers p true addr.toNat len w) :
    Answers (.bar2Read p addr len .corrected) s (fun t =>
      Out.readData p ((List.range len).map (fun i => Memory.read s.pwin.pool (w.poolAddr addr.toNat + i))) ∈ t.out ∧
      s.Faulted t 0x32 1) := by
  refine ⟨_, exec_bar2Read_of_ok h hw.winCheck .corrected, ?_, ?_⟩
  · rw [← Memory.readBytes_eq]
    exact State.mem_complete_out ..
  · have hf : s.Faulted (s.raise 0x32 .note 1) 0x32 1 := State.Faulted.raise rfl .note 1 (by decide) (by decide) (by decide)
    exact hf.of_src (State.src_complete ..)

/-- An uncorrectable word raises the pool's source and the port's: each is left alone by the raise of the other. -/
theorem answers_bar2Read_bad (h : s.Serving p) (hw : s.Covers p true addr.toNat len w) :
    Answers (.bar2Read p addr len .bad) s (fun t =>
      Out.completerAbort p ∈ t.out ∧ s.Faulted t 0x32 2 ∧ s.Faulted t (hpuSource 0x15 p) 4) := by
  refine ⟨_, exec_bar2Read_of_ok h hw.winCheck .bad, State.mem_complete_out .., ?_, ?_⟩
  · have hf : s.Faulted ((s.missed p true addr.toNat 4).raise 0x32 .warn 2) 0x32 2 :=
      State.Faulted.raise (State.src_missed_pool ..) .warn 2 (by decide) (by decide) (by decide)
    exact hf.of_src (State.src_complete ..)
  · have hn := missSource_not_mem p true
    simp only [List.mem_cons, not_or] at hn
    obtain ⟨h2, h3, h4, h32, -⟩ := hn
    refine (State.faulted_missed s p true addr.toNat 4).of_src ((State.src_complete ..).trans ?_)
    exact State.raise_other _ _ _ .warn 2 h32 h2 h3 h4

end Covered

theorem answers_bar2Read_of_miss {s : State} {p : Bool} {addr : Word64} (h : s.Serving p) (hw : s.winAt p addr.toNat = none)
    (len : Nat) (words : WordCheck) :
    Answers (.bar2Read p addr len words) s (fun t => Out.unsupported p ∈ t.out ∧ s.Faulted t (hpuSource 0x15 p) 1) :=
  ⟨_, exec_bar2Read_of_error h (State.winCheck_of_none hw true len) words, State.mem_complete_out ..,
    (State.faulted_missed s p true addr.toNat 1).of_src (State.src_complete ..)⟩

theorem answers_bar2Read_of_contained {s : State} {p : Bool} (h : (s.hpu p).contained = true) (hl : (s.hpu p).dlUp = true)
    (addr : Word64) (len : Nat) (words : WordCheck) :
    Answers (.bar2Read p addr len words) s (fun t => Out.unsupported p ∈ t.out ∧ Only [.hpus, .out] s t) :=
  ⟨_, exec_bar2Read_of_contained h hl addr len words, State.mem_complete_out .., State.complete_only (Only.refl _ s) rfl p _⟩

/-- Settles O21: a BAR2 request is decided by the window at its address, and each way it can go has its lemma above. -/
theorem peerWindowsReachThePool : Obligations.PeerWindowsReachThePool := by
  unfold Obligations.PeerWindowsReachThePool
  refine ⟨?write, ?read, ?writeMiss, ?readMiss, ?frozenWrite, ?frozenRead, ?wordErrors⟩
  case write =>
    intro p addr data w s hc hl hd hm hw hin hwr
    exact answers_bar2Write_of_covers (.of_hpu hc hl hd hm) ⟨hw, hin, hwr⟩
  case read =>
    intro p addr len w s hc hl hd hm hw hin hrd
    exact answers_bar2Read_good (.of_hpu hc hl hd hm) ⟨hw, hin, hrd⟩
  case writeMiss =>
    intro p addr data s hc hl hd hm hw
    exact answers_bar2Write_of_miss (.of_hpu hc hl hd hm) hw data
  case readMiss =>
    intro p addr len words s hc hl hd hm hw
    exact answers_bar2Read_of_miss (.of_hpu hc hl hd hm) hw len words
  case frozenWrite => exact fun _ addr data _ h => answers_bar2Write_of_contained h addr data
  case frozenRead => exact fun _ addr len words _ h hl => answers_bar2Read_of_contained h hl addr len words
  case wordErrors =>
    intro p addr len w s hc hl hd hm hw hin hrd
    exact ⟨answers_bar2Read_corrected (.of_hpu hc hl hd hm) ⟨hw, hin, hrd⟩,
      answers_bar2Read_bad (.of_hpu hc hl hd hm) ⟨hw, hin, hrd⟩⟩

/-! ## Requests that no register serves (R7, R430) -/

theorem exec_barSizeWrite {s : State} {p : Bool} {code : BitVec 6} (hm : (s.hpu p).cfg.memEnable = false) (hlo : 10 ≤ code.toNat)
    (hhi : code.toNat ≤ 16) :
    exec (.barSizeWrite p code) s = .next (s.modHpu p (fun h => { h with barSize := code.toNat })) := by
  have hok : ¬ ((s.hpu p).cfg.memEnable = true ∨ code.toNat < 10 ∨ 16 < code.toNat) := by simp [hm]; omega
  show execBarSizeWrite p code s = _
  rw [execBarSizeWrite, if_neg hok]

theorem exec_bar0BadAccess (p : Bool) (offset : BitVec 26) (width : Nat) (s : State) :
    exec (.bar0BadAccess p offset width) s = .next (s.complete p (.unsupported p)) := rfl

/-! ## Writes of stored registers (R8) -/

theorem State.storeReg_of_not_vetoed {s : State} {o v : Nat} (hv : s.writeVetoed o v = false) (hc : instAt 0x110010 64 16 o = none)
    (r : RegRow) : s.storeReg r o v = s.setRegN o (storedWord s.part r o (s.regN o) v) := by
  rw [State.storeReg, if_neg (by simp [hv]), State.lockPriv, if_neg (by simp [hc])]

/-- Five stored registers do more than hold their word. -/
theorem State.wrote_of_not_mem {o : Nat} (h : o ∉ [Reg.fltPinLevel, Reg.logThresh, Reg.dpPm, Reg.gcsHold, Reg.wchHold])
    (t s : State) (v : Nat) : t.wrote s o v = t := by
  simp only [List.mem_cons, List.not_mem_nil, not_or] at h
  obtain ⟨h1, h2, h3, h4, h5, -⟩ := h
  rw [State.wrote, if_neg h1, if_neg h2, if_neg h3, if_neg h4, if_neg h5]

theorem State.writeReg_of_stored {s : State} {p : Bool} {o v : Nat} {r : RegRow} (ha : s.absentReg o = false)
    (hr : Reg.find o = some r) (hrow : s.rowWrite p o v = none) (hw : inBlock 0xB0100 0x800 o = false) (hrw : r.rw ≠ 0) :
    s.writeReg p o v = (s.storeReg r o v).wrote s o v := by
  simp only [State.writeReg, ha, hr, hrow, hw, if_neg hrw, Bool.false_eq_true, if_false]

theorem State.write32_of_narrow {s : State} {o : Nat} (hm : inBlock 0x2000000 0x8000 o = false) (hd : doorbellOf o = none)
    (hn : wideAt o = false) (hu : o % 8 = 4 → wideAt (o - 4) = false) (p : Bool) (v : Nat) :
    s.write32 p o v = s.writeReg p o v := by
  have hupper : ¬ (decide (o % 8 = 4) && wideAt (o - 4)) = true := by simpa using hu
  simp only [State.write32, hm, hd, hn, if_neg hupper, Bool.false_eq_true, if_false]

theorem State.leaveFor_of_not_dock {s : State} (h : s.gcs.phase ≠ .dock) (o : Nat) : s.leaveFor o = s := by
  rw [State.leaveFor, State.leaveDock_phase s h, ite_self]

theorem exec_registerWrite_narrow {s : State} {p : Bool} {offset : BitVec 26} (h : s.Serving p) (hh : s.haltClosed = false)
    (hp : s.gcs.phase ≠ .dock) (ha : offset.toNat % 4 = 0) (value : Word64) :
    exec (.registerWrite p offset false value) s = .next (s.write32 p offset.toNat (value.toNat % 2 ^ 32)) := by
  show execRegisterWrite p offset false value s = _
  rw [execRegisterWrite]
  simp [h.live, h.serves, hh, alignedAt, ha, State.leaveFor_of_not_dock hp]

theorem answers_of_setRegN {c : Instr} {s : State} {o v : Nat} (h : exec c s = .next (s.setRegN o v)) :
    Answers c s (fun t => t.reg o = BitVec.ofNat 64 v ∧ (∀ q, q ≠ o → t.reg q = s.reg q) ∧ Only [.regs] s t) :=
  ⟨_, h, State.reg_setReg .., fun _ hq => State.reg_setReg_other s _ hq, State.setRegN_only (Only.refl _ s) rfl o v⟩

/-! ## Reads of lower halves (R6) -/

theorem State.latchUpper_latch {s : State} {o : Nat} (hw : wideAt o = true) :
    Tab.get (s.latchUpper o).gcs.latch none o = some (BitVec.ofNat 32 (s.readReg o / 2 ^ 32)) := by
  simp only [State.latchUpper, if_pos hw, State.withGcs_gcs, Tab.get_set_self]

theorem exec_lowerHalfRead_lower {s : State} {p : Bool} {offset : BitVec 26} (h : s.Serving p) (ha : offset.toNat % 8 = 0) :
    exec (.lowerHalfRead p offset) s =
      .next ((s.latchUpper offset.toNat).complete p (.readData p (leBytes 4 (s.read32 p offset.toNat)))) := by
  have h4 : offset.toNat % 4 = 0 := by omega
  show execLowerHalfRead p offset s = _
  rw [execLowerHalfRead]
  simp [h.dlUp, h.live, h.serves, alignedAt, h4, ha]

/-- Settles O20: a BAR0 request that reaches a stored register goes on to one word replaced, and the others to one completion. -/
theorem registerAccesses : Obligations.RegisterAccesses := by
  unfold Obligations.RegisterAccesses
  refine ⟨?barSize, ?badAccess, ?storedWrite, ?lowerHalf⟩
  case barSize =>
    intro p code s hm hlo hhi
    exact ⟨_, exec_barSizeWrite hm hlo hhi, State.hpu_modHpu .., State.hpu_modHpu_not ..,
      State.modHpu_only (Only.refl _ s) rfl p _ (.inl rfl)⟩
  case badAccess =>
    intro p offset width s
    exact ⟨_, exec_bar0BadAccess .., State.mem_complete_out .., State.complete_only (Only.refl _ s) rfl p _⟩
  case storedWrite =>
    intro p offset value r s hc hl hd hm hh hp ha habs hr hrw hn hu hmsix hbell hwin hrow hv hcfg hplain
    apply answers_of_setRegN
    rw [exec_registerWrite_narrow (.of_hpu hc hl hd hm) hh hp ha, State.write32_of_narrow hmsix hbell hn hu,
      State.writeReg_of_stored habs hr (hrow _) hwin hrw, State.wrote_of_not_mem hplain, State.storeReg_of_not_vetoed hv hcfg]
  case lowerHalf =>
    intro p offset s hc hl hd hm ha hw
    refine ⟨_, exec_lowerHalfRead_lower (.of_hpu hc hl hd hm) ha, State.mem_complete_out .., ?_,
      State.complete_only (State.latchUpper_only (Only.refl _ s) rfl _) rfl p _⟩
    rw [State.complete_gcs]
    exact State.latchUpper_latch hw

end Sys2Proof.Machine
end

section
/-! PROOFS. What the set commands do (spec/02_codes_and_seals.md R34, R35, R41, R42; spec/03 R86; spec/08_command_packets.md R251 to
R253): the frame of a stripe commit that has not reached its drive writes and of the Log's evaluation, the equation of each command on
a set that R35 allows it in, and the statement of the family that follows from them. -/

namespace Sys2Proof.Machine

/-! ## Commands whose checks pass -/

theorem failIf_eq_none {b : Bool} (h : b = false) (status : Byte) (detail : Nat) : failIf b status detail = none := by
  rw [h]
  rfl

theorem State.legalIn_eq_none {s : State} {id : Nat} {l : List SetState} (h : (s.set id).state ∈ l) : s.legalIn id l = none :=
  failIf_eq_none (by simpa using h) _ _

theorem State.replayHeld_eq_none {s : State} {id : Nat} (h : (s.set id).replaying = false) : s.replayHeld id = none :=
  failIf_eq_none h _ _

theorem setField_fst_eq_false {pkt : Bytes} (h : setOf pkt < 64) : (setField pkt).1 = false := by
  simpa [setField] using h

/-- A packet command whose checks pass answers what its run leaves, the change shared with the partner. -/
theorem answers_of_ready {i : Instr} {s : State} {src : CmdSrc} {op : Nat} {pkt : Bytes} {bad : Bytes → List (Bool × Nat)}
    {checks : Bytes → List (Option (Byte × Byte))} {run : Bytes → State} {P : State → Prop}
    (he : exec i s = serveCmd s src op bad checks run) (h : Ready s src op pkt) (hb : ∀ b ∈ bad pkt, b.1 = false)
    (hc : ∀ c ∈ checks pkt, c = none) (hP : P ((run pkt).share s op)) : Answers i s P :=
  ⟨_, he.trans (congrArg Host.Outcome.next (State.serve_ready h hb hc)), hP⟩

/-! ## The table of sets -/

theorem State.set_of_sets {s t : State} (h : t.sets = s.sets) (j : Nat) : t.set j = s.set j := by
  unfold State.set
  rw [h]

theorem State.set_setSet_other (s : State) {i j : Nat} (v : ArraySet) (h : j ≠ i) : (s.setSet i v).set j = s.set j :=
  Tab.get_set_other _ _ _ _ h

/-- A state with the sets of s but for set i, which is v. -/
theorem State.set_of_sets_setSet {s t : State} {i : Nat} {v : ArraySet} (h : t.sets = (s.setSet i v).sets) :
    t.set i = v ∧ ∀ j, j ≠ i → t.set j = s.set j :=
  ⟨(State.set_of_sets h i).trans (State.set_setSet ..), fun j hj => (State.set_of_sets h j).trans (State.set_setSet_other s v hj)⟩

@[simp] theorem State.share_sets (s old : State) (op : Nat) : (s.share old op).sets = s.sets :=
  State.share_only (M := [.regs, .pair, .out]) (Only.refl _ s) rfl old op .sets (by decide)

@[simp] theorem State.share_scc (s old : State) (op : Nat) : (s.share old op).scc = s.scc :=
  State.share_only (M := [.regs, .pair, .out]) (Only.refl _ s) rfl old op .scc (by decide)

@[simp] theorem State.share_incarnations (s old : State) (op : Nat) : (s.share old op).incarnations = s.incarnations :=
  State.share_only (M := [.regs, .pair, .out]) (Only.refl _ s) rfl old op .incarnations (by decide)

/-- The parts that a reply may change. -/
def replyWrites : List Field := [.regs, .rings, .interp, .hpus, .out]

theorem State.reply_frame (s : State) (src : CmdSrc) (pkt : Bytes) (status detail : Byte) (result : Bytes) :
    Only replyWrites s (s.reply src pkt status detail result) :=
  State.reply_only (M := replyWrites) (Only.refl _ s) rfl src pkt status detail result

@[simp] theorem State.reply_sets (s : State) (src : CmdSrc) (pkt : Bytes) (status detail : Byte) (result : Bytes) :
    (s.reply src pkt status detail result).sets = s.sets := State.reply_frame s src pkt status detail result .sets (by decide)

@[simp] theorem State.reply_scc (s : State) (src : CmdSrc) (pkt : Bytes) (status detail : Byte) (result : Bytes) :
    (s.reply src pkt status detail result).scc = s.scc := State.reply_frame s src pkt status detail result .scc (by decide)

@[simp] theorem State.reply_incarnations (s : State) (src : CmdSrc) (pkt : Bytes) (status detail : Byte) (result : Bytes) :
    (s.reply src pkt status detail result).incarnations = s.incarnations :=
  State.reply_frame s src pkt status detail result .incarnations (by decide)

@[simp] theorem State.srcQueue_share (s old : State) (op : Nat) (src : CmdSrc) : (s.share old op).srcQueue src = s.srcQueue src :=
  State.srcQueue_of_interp (by rw [State.share_interp]) src

@[simp] theorem State.srcQueue_reply (s : State) (src : CmdSrc) (pkt : Bytes) (status detail : Byte) (result : Bytes) :
    (s.reply src pkt status detail result).srcQueue src = (s.srcQueue src).drop 1 :=
  (State.reply_replied s src pkt status detail result).1

/-- What a set command that replies at once may change before its reply. -/
def setWrites : List Field := [.sets, .incarnations, .scc]

/-- A set command that put v in the place of its set and replied: the set is v, every other set stays, the reply has left. -/
theorem State.replied_setSet {s u : State} {i : Nat} {v : ArraySet} (ho : Only setWrites s u) (hs : u.sets = (s.setSet i v).sets)
    (src : CmdSrc) (pkt result : Bytes) (op : Nat) :
    ((u.reply src pkt stOk 0 result).share s op).set i = v ∧
      (∀ j, j ≠ i → ((u.reply src pkt stOk 0 result).share s op).set j = s.set j) ∧
      Replied s ((u.reply src pkt stOk 0 result).share s op) src pkt stOk 0 result := by
  obtain ⟨hset, hother⟩ := State.set_of_sets_setSet (s := s) (t := (u.reply src pkt stOk 0 result).share s op) (i := i) (v := v)
    (by rw [State.share_sets, State.reply_sets, hs])
  exact ⟨hset, hother, ((State.reply_replied u src pkt stOk 0 result).share s op).before (ho.mono rfl)⟩

theorem State.replied_setSet_self (s : State) (i : Nat) (v : ArraySet) (src : CmdSrc) (pkt result : Bytes) (op : Nat) :
    (((s.setSet i v).reply src pkt stOk 0 result).share s op).set i = v ∧
      (∀ j, j ≠ i → (((s.setSet i v).reply src pkt stOk 0 result).share s op).set j = s.set j) ∧
      Replied s (((s.setSet i v).reply src pkt stOk 0 result).share s op) src pkt stOk 0 result :=
  State.replied_setSet (State.setSet_only (Only.refl _ s) rfl i v) rfl src pkt result op

/-! ## What a set takes from a packet (R251, R252) -/

/-- SET_CREATE takes every field. -/
theorem ArraySet.withAttrs_all (a : ArraySet) (pkt : Bytes) : a.withAttrs pkt 0x1FF =
    { a with
        members := membersOf pkt, profile := BitVec.ofNat 6 (byteAt pkt 0x14).toNat,
        fragLog2 := (if (byteAt pkt 0x15).toNat = 0 then 16 else (byteAt pkt 0x15).toNat) - 12,
        stripeCount := BitVec.ofNat 48 (leAt pkt 0x20 6), writePolicy := policyOf (byteAt pkt 0x17).toNat,
        sealedAck := bitOf (byteAt pkt 0x17).toNat 2, paritySeal := bitOf (byteAt pkt 0x17).toNat 3,
        drThreshUs := BitVec.ofNat 32 (if leAt pkt 0x18 4 = 0 then 40 else leAt pkt 0x18 4) } := rfl

theorem ArraySet.withAttrs_profile (a : ArraySet) (pkt : Bytes) :
    a.withAttrs pkt 2 = { a with profile := BitVec.ofNat 6 (byteAt pkt 0x14).toNat } := rfl

theorem ArraySet.withAttrs_members (a : ArraySet) (pkt : Bytes) : a.withAttrs pkt 1 = { a with members := membersOf pkt } := rfl

/-- A FRAG_LOG2 that SET_CREATE takes is not below 12. -/
theorem State.fragLog2_of_attrFaults {s : State} {pkt : Bytes} {m : Nat} {skip : Bool} (hm : bitOf m 2 = true)
    (h : ∀ f ∈ s.attrFaults pkt m true skip, f.1 = false) :
    12 ≤ if (byteAt pkt 0x15).toNat = 0 then 16 else (byteAt pkt 0x15).toNat := by
  have hf := h _ (.tail _ (.head _))
  split
  · omega
  · next hz => simp [hm, hz] at hf; exact hf.1

/-! ## SET_CREATE (R34, R42, R252) -/

/-- The set that SET_CREATE makes. -/
def State.createdSet (s : State) (pkt : Bytes) : ArraySet :=
  ({ ArraySet.at0 with
    state := .stopped, incarnation := (s.nextIncarnation (setOf pkt)).2, side := s.pair.side,
    current := { Revision.at0 with slot := BitVec.ofNat 7 (byteAt pkt 0x16).toNat } }).withAttrs pkt 0x1FF

theorem State.nextIncarnation_frame (s : State) (id : Nat) : Only setWrites s (s.nextIncarnation id).1 :=
  State.nextIncarnation_only (Only.refl _ s) rfl id

theorem State.createSet_eq (s : State) (src : CmdSrc) (pkt : Bytes) : s.createSet src pkt =
    ((s.nextIncarnation (setOf pkt)).1.setSet (setOf pkt) (s.createdSet pkt)).reply src pkt stOk 0 (setEcho pkt (s.createdSet pkt)) := rfl

theorem answers_setCreate {s : State} {src : CmdSrc} {pkt : Bytes} {P : State → Prop} (h : Ready s src 0x0101 pkt)
    (hid : setOf pkt < 64) (hattr : ∀ f ∈ s.attrFaults pkt 0x1FF true false, f.1 = false)
    (hmem : s.membersAbsent (membersOf pkt) = false) (hst : (s.set (setOf pkt)).state = .empty)
    (hP : P ((s.createSet src pkt).share s 0x0101)) : Answers (.setCreate src) s P := by
  refine answers_of_ready (i := .setCreate src) rfl h ?_ ?_ hP
  · simpa [setField_fst_eq_false hid] using hattr
  · simp only [List.forall_mem_cons]
    exact ⟨failIf_eq_none hmem _ _, State.legalIn_eq_none (by simp [hst]), List.forall_mem_nil _⟩

/-! ## SET_MODIFY (R34, R41, R42, R86) -/

theorem answers_setModify {s : State} {src : CmdSrc} {pkt : Bytes} {P : State → Prop} (h : Ready s src 0x0102 pkt)
    (hf : ∀ f ∈ s.modifyFaults pkt, f.1 = false)
    (hmem : (byteAt pkt 0x11).toNat = 0 → bitOf (leAt pkt 0x12 2) 0 = true → s.membersAbsent (membersOf pkt) = false)
    (hst : (s.set (setOf pkt)).state = .stopped) (hr : (s.set (setOf pkt)).replaying = false)
    (hp : (s.set (setOf pkt)).pending = none) (hq : (s.set (setOf pkt)).queued = none)
    (hP : P ((s.modifySet src pkt).share s 0x0102)) : Answers (.setModify src) s P := by
  refine answers_of_ready (i := .setModify src) rfl h hf ?_ hP
  have habsent : (decide ((byteAt pkt 0x11).toNat = 0) && bitOf (leAt pkt 0x12 2) 0 &&
      decide ((s.set (setOf pkt)).state ≠ .empty) && s.membersAbsent (membersOf pkt)) = false := by
    by_contra hbad
    simp only [Bool.not_eq_false, Bool.and_eq_true, decide_eq_true_eq] at hbad
    obtain ⟨⟨⟨hform, hbit⟩, -⟩, habsent⟩ := hbad
    exact Bool.false_ne_true ((hmem hform hbit).symm.trans habsent)
  simp only [List.forall_mem_cons]
  exact ⟨failIf_eq_none habsent _ _, State.legalIn_eq_none (by simp [hst]), failIf_eq_none (by simp [hp, hq]) _ _,
    State.replayHeld_eq_none hr, List.forall_mem_nil _⟩

/-- The set that SET_MODIFY leaves when it gives a new profile (R41, R42, R307). -/
def State.reprofiledSet (s : State) (pkt : Bytes) : ArraySet :=
  { s.set (setOf pkt) with
      profile := BitVec.ofNat 6 (byteAt pkt 0x14).toNat, incarnation := (s.nextIncarnation (setOf pkt)).2,
      extents := [], regions := [], liveRegions := [], suspects := [], lostPosted := [] }

theorem State.modifySet_profile {s : State} {pkt : Bytes} (hform : (byteAt pkt 0x11).toNat = 0) (hm : leAt pkt 0x12 2 = 2)
    (hnew : BitVec.ofNat 6 (byteAt pkt 0x14).toNat ≠ (s.set (setOf pkt)).profile) (src : CmdSrc) : s.modifySet src pkt =
      (((s.nextIncarnation (setOf pkt)).1.setSet (setOf pkt) (s.reprofiledSet pkt)).dropLines (setOf pkt)).reply src pkt stOk 0
        (setEcho pkt (s.reprofiledSet pkt)) := by
  have hbit : bitOf 2 3 = false := rfl
  simp only [State.modifySet, hform, hm, hbit, ArraySet.withAttrs_profile, Bool.false_eq_true, if_false, hnew, ne_eq,
    not_false_eq_true, true_or, if_true, zero_ne_one]
  rfl

theorem State.modifySet_members {s : State} {pkt : Bytes} (hform : (byteAt pkt 0x11).toNat = 0) (hm : leAt pkt 0x12 2 = 1)
    (src : CmdSrc) : s.modifySet src pkt =
      (s.setSet (setOf pkt) { s.set (setOf pkt) with members := membersOf pkt }).reply src pkt stOk 0
        (setEcho pkt { s.set (setOf pkt) with members := membersOf pkt }) := by
  have hbit : bitOf 1 3 = false := rfl
  simp only [State.modifySet, hform, hm, hbit, ArraySet.withAttrs_members, Bool.false_eq_true, if_false, ne_eq, not_true_eq_false,
    or_self, zero_ne_one]

theorem bitList_two_pow : ∀ i, i < 8 → bitList 8 (2 ^ i) = [i] := by decide

/-- A base revision that a command changes is replaced by one with the next REV (R86). -/
theorem ArraySet.rebase_of_ne {a : ArraySet} {f : Revision → Revision} (h : f a.current ≠ a.current) :
    a.rebase f = { a with current := { f a.current with rev := a.current.rev + 1 } } := by
  simp only [ArraySet.rebase, if_neg h]

/-- The set that SET_MODIFY leaves when it changes parameter i (R86). -/
def State.reparamSet (s : State) (pkt : Bytes) (i : Nat) : ArraySet :=
  let a := s.set (setOf pkt)
  { a with current := { a.current with
      params := Tab.set a.current.params 0 i (BitVec.ofNat 64 (leAt pkt (0x40 + 8 * i) 8)), rev := a.current.rev + 1 } }

theorem State.modifySet_param {s : State} {pkt : Bytes} {i : Nat} (hform : (byteAt pkt 0x11).toNat = 1) (hi : i < 8)
    (hm : leAt pkt 0x12 2 = 2 ^ i)
    (hnew : Tab.get (s.set (setOf pkt)).current.params 0 i ≠ BitVec.ofNat 64 (leAt pkt (0x40 + 8 * i) 8)) (src : CmdSrc) :
    s.modifySet src pkt =
      (s.setSet (setOf pkt) (s.reparamSet pkt i)).reply src pkt stOk 0 (setEcho pkt (s.reparamSet pkt i)) := by
  have hne : { (s.set (setOf pkt)).current with
      params := Tab.set (s.set (setOf pkt)).current.params 0 i (BitVec.ofNat 64 (leAt pkt (0x40 + 8 * i) 8)) } ≠
        (s.set (setOf pkt)).current := by
    intro e
    have hval := congrArg (fun r : Revision => Tab.get r.params 0 i) e
    simp only [Tab.get_set_self] at hval
    exact hnew hval.symm
  simp only [State.modifySet, if_pos hform, hm, bitList_two_pow i hi, List.foldl_cons, List.foldl_nil]
  rw [ArraySet.rebase_of_ne hne]
  rfl

/-! ## SET_START (R34, R253) -/

theorem answers_setStart {s : State} {src : CmdSrc} {pkt : Bytes} {P : State → Prop} (h : Ready s src 0x0103 pkt)
    (hid : setOf pkt < 64) (hf : ∀ f ∈ s.startFaults (setOf pkt), f.1 = false) (hr : (s.set (setOf pkt)).replaying = false)
    (hst : (s.set (setOf pkt)).state = .stopped ∨
      (s.set (setOf pkt)).state = .draining ∧ (s.pair.state ≠ .paired ∨ (s.set (setOf pkt)).side = s.pair.side))
    (hP : P ((s.startSet src pkt).share s 0x0103)) : Answers (.setStart src) s P := by
  refine answers_of_ready (i := .setStart src) rfl h ?_ ?_ hP
  · simpa [setField_fst_eq_false hid] using hf
  · have hlegal : (s.set (setOf pkt)).state ∈ [SetState.stopped, .draining] := by
      rcases hst with hst | ⟨hst, -⟩ <;> simp [hst]
    have hside : (decide (s.pair.state = .paired) && decide ((s.set (setOf pkt)).side ≠ s.pair.side) &&
        decide ((s.set (setOf pkt)).state = .draining)) = false := by
      rcases hst with hst | ⟨-, hst | hst⟩ <;> simp [hst]
    simp only [List.forall_mem_cons]
    exact ⟨State.legalIn_eq_none hlegal, failIf_eq_none hside _ _, State.replayHeld_eq_none hr, List.forall_mem_nil _⟩

/-- The set that SET_START leaves. -/
def State.startedSet (s : State) (id : Nat) : ArraySet :=
  let a := s.set id
  { a with
    state := .running, liveRegions := if a.state = .stopped then a.regions else a.liveRegions, side := s.pair.side,
    ownedFrom := if s.pair.state = .paired ∧ a.side ≠ s.pair.side then s.watch + 1 else a.ownedFrom }

theorem State.startSet_eq (s : State) (src : CmdSrc) (pkt : Bytes) : s.startSet src pkt =
    (s.setSet (setOf pkt) (s.startedSet (setOf pkt))).reply src pkt stOk 0 (setBrief (setOf pkt) (s.set (setOf pkt))) := rfl

/-! ## Stripe commits before their drive writes, and the Log's evaluation (R131, R135, R299) -/

/-- What starting stripe commits may change: no set, no line of the caches, no command. -/
def commitParts : List Field := [.regs, .cht, .log, .nextId, .commits, .passes, .pair, .out]

/-- The parity of a stripe commit that journals goes to its COMMIT record: no drive write leaves yet (R131). -/
theorem State.commitCoded_frame (s : State) {c : CommitOp} (h : c.intent = none) (parity : List (Nat × Nat × Bytes)) :
    Only commitParts s (s.commitCoded c parity) := by
  simp only [State.commitCoded, h]
  refine State.setCommit_only (State.appendRec_only (only_withLog (Only.refl _ s) rfl ?_) rfl _) rfl _
  exact .inr rfl

theorem State.commitReady_frame (s : State) {c : CommitOp} (h : c.intent = none) : Only commitParts s (s.commitReady c) := by
  unfold State.commitReady
  refine only_ite (fun _ => ?_) (fun _ => only_ite (fun _ => ?_) (fun _ => ?_))
  · exact State.commitToRw_only (Only.refl _ s) rfl c
  · exact State.commitCoded_frame s h _
  · exact State.commitPass_only (Only.refl _ s) rfl c

/-- Reading a commit's sectors leaves it a commit that journals. -/
theorem State.commitReads_intent (s : State) (c : CommitOp) (l : List (Nat × Nat)) : (s.commitReads c l).2.intent = c.intent := by
  induction l generalizing s c with
  | nil => rfl
  | cons x l ih =>
    unfold State.commitReads
    split
    · exact ih ..
    · exact ih ..

theorem State.startCommit_frame (s : State) (set : BitVec 6) (stripe : Nat) (plans : List RowPlan) :
    Only commitParts s (s.startCommit set stripe plans) := by
  cases plans with
  | nil => exact Only.refl _ s
  | cons p plans =>
    simp only [State.startCommit]
    refine only_ite (fun _ => Only.trans ?_ (State.commitReady_frame _ (State.commitReads_intent ..))) (fun _ => ?_)
    all_goals
      refine State.setCommit_only (State.commitReads_only (only_withCommits (only_withNextId (Only.refl _ s) rfl) rfl) rfl _ _) rfl _

theorem State.stripeCommit_frame (s : State) (set : BitVec 6) (stripe rowFirst rowCount : Nat) :
    Only commitParts s (s.stripeCommit set stripe rowFirst rowCount) := by
  unfold State.stripeCommit
  refine only_ite (fun _ => Only.refl _ s) (fun _ => only_foldl (Only.refl _ s) fun t plans h => h.trans ?_)
  exact State.startCommit_frame t set stripe plans

/-- What evaluating the Log may change beside the requests of the cache: what stripe commits and a NOTE fault change. -/
def logParts : List Field :=
  [.gcs, .regs, .flt, .sources, .first, .cht, .log, .nextId, .rings, .commits, .passes, .clusters, .pair, .chn, .hpus, .out]

theorem State.evalLog_frame (s : State) : Only logParts (s.withScc { s.scc with asks := [] }) s.evalLog := by
  have hasks : Only logParts (s.withScc { s.scc with asks := [] }) s.answerAsks :=
    only_foldl (Only.refl _ _) fun t k h => h.trans ((State.stripeCommit_frame t k.set k.stripe k.row 1).mono rfl)
  unfold State.evalLog
  refine only_ite (fun _ => Only.trans ?_ ((State.raise_low _ 0x72 .note _ (.inl rfl)).mono rfl)) (fun _ => ?_)
  all_goals exact only_withLog hasks rfl (.inr rfl)

theorem Only.evalLog {s0 s : State} (h : Only (.scc :: logParts) s0 s) : Only (.scc :: logParts) s0 s.evalLog :=
  (only_withScc h rfl).trans ((State.evalLog_frame s).mono rfl)

@[simp] theorem State.evalLog_sets (s : State) : s.evalLog.sets = s.sets := State.evalLog_frame s .sets (by decide)

@[simp] theorem State.evalLog_interp (s : State) : s.evalLog.interp = s.interp := State.evalLog_frame s .interp (by decide)

@[simp] theorem State.srcQueue_evalLog (s : State) (src : CmdSrc) : s.evalLog.srcQueue src = s.srcQueue src :=
  State.srcQueue_of_interp (by rw [State.evalLog_interp]) src

theorem State.evalLog_scc (s : State) : s.evalLog.scc = { s.scc with asks := [] } := State.evalLog_frame s .scc (by decide)

/-! ## SET_STOP and the drain of a set (R34, R110, R253) -/

theorem answers_setStop {s : State} {src : CmdSrc} {pkt : Bytes} {P : State → Prop} (h : Ready s src 0x0104 pkt)
    (hid : setOf pkt < 64) (hst : (s.set (setOf pkt)).state = .running) (hr : (s.set (setOf pkt)).replaying = false)
    (hP : P ((((s.stopSet (setOf pkt)).reply src pkt stOk 0 (resultOf [(0x10, 1, setOf pkt)])).evalLog).share s 0x0104)) :
    Answers (.setStop src) s P := by
  refine answers_of_ready (i := .setStop src) rfl h ?_ ?_ hP
  · simp [setField_fst_eq_false hid]
  · simp only [List.forall_mem_cons]
    exact ⟨State.legalIn_eq_none (by simp [hst]), State.replayHeld_eq_none hr, List.forall_mem_nil _⟩

/-- A set without journaled data has no stripe commit to start. -/
theorem State.commitSet_of_no_recs {s : State} {id : Nat} (h : ∀ r ∈ s.log.recs, r.set.toNat ≠ id) : s.commitSet id = s := by
  have hnone : s.log.recs.filter (fun r => r.typ = .data && decide (r.set.toNat = id) && r.status = .committed && !r.retired) = [] := by
    rw [List.filter_eq_nil_iff]
    intro r hr
    simp [h r hr]
  rw [State.commitSet, hnone, List.foldl_nil]

theorem State.stopSet_of_no_recs {s : State} {id : Nat} (h : ∀ r ∈ s.log.recs, r.set.toNat ≠ id) :
    s.stopSet id = (s.setSet id { s.set id with state := .draining }).freeDetectors id := by
  rw [State.stopSet]
  exact State.commitSet_of_no_recs h

@[simp] theorem State.freeDetectors_sets (s : State) (id : Nat) : (s.freeDetectors id).sets = s.sets := rfl

@[simp] theorem State.srcQueue_freeDetectors (s : State) (id : Nat) (src : CmdSrc) : (s.freeDetectors id).srcQueue src = s.srcQueue src :=
  rfl

@[simp] theorem State.srcQueue_setSet (s : State) (id : Nat) (v : ArraySet) (src : CmdSrc) :
    (s.setSet id v).srcQueue src = s.srcQueue src := rfl

theorem State.mem_freeDetectors {s : State} {id : Nat} {d : Detector} (h : d ∈ (s.freeDetectors id).scc.detectors) :
    d.set.toNat ≠ id := by
  simpa using (List.mem_filter.1 h).2

theorem exec_setDrainComplete {s : State} {set : BitVec 6} (h : s.drained set.toNat = true) :
    ∃ t, exec (.setDrainComplete set) s = .next t ∧
      t.sets = (s.setSet set.toNat { s.set set.toNat with state := .stopped }).sets := by
  have hpost : ((s.setSet set.toNat { s.set set.toNat with state := .stopped }).post (setStateRecord set.toNat 1)).sets =
      (s.setSet set.toNat { s.set set.toNat with state := .stopped }).sets := State.post_low _ _ .sets (by decide)
  refine ⟨_, by show execSetDrainComplete set s = _; simp only [execSetDrainComplete, h]; rfl, ?_⟩
  split
  · exact hpost
  · exact hpost

/-! ## SET_DELETE (R34, R253) -/

theorem answers_setDelete {s : State} {src : CmdSrc} {pkt : Bytes} {P : State → Prop} (h : Ready s src 0x0105 pkt)
    (hid : setOf pkt < 64) (hforce : (byteAt pkt 0x11).toNat < 2) (hr : (s.set (setOf pkt)).replaying = false)
    (hst : (s.set (setOf pkt)).state = .stopped ∨ (byteAt pkt 0x11).toNat = 1 ∧ (s.set (setOf pkt)).state = .preserved)
    (hP : P (((s.deleteSet (setOf pkt)).reply src pkt stOk 0 (resultOf [(0x10, 1, setOf pkt)])).share s 0x0105)) :
    Answers (.setDelete src) s P := by
  refine answers_of_ready (i := .setDelete src) rfl h ?_ ?_ hP
  · simp [setField_fst_eq_false hid, hforce]
  · have hlegal : (s.set (setOf pkt)).state ∈
        (if (byteAt pkt 0x11).toNat = 1 then [SetState.stopped, .preserved] else [SetState.stopped]) := by
      rcases hst with hst | ⟨h1, hst⟩
      · split <;> simp [hst]
      · simp [h1, hst]
    simp only [List.forall_mem_cons]
    exact ⟨State.legalIn_eq_none hlegal, State.replayHeld_eq_none hr, List.forall_mem_nil _⟩

theorem State.deleteSet_frame (s : State) (id : Nat) : Only (.scc :: logParts) (s.setSet id ArraySet.at0) (s.deleteSet id) :=
  Only.evalLog (State.appendRetires_only (State.dropLines_only (Only.refl _ _) rfl id) rfl _ _)

theorem State.deleteSet_sets (s : State) (id : Nat) : (s.deleteSet id).sets = (s.setSet id ArraySet.at0).sets :=
  State.deleteSet_frame s id .sets (by decide)

theorem State.srcQueue_deleteSet (s : State) (id : Nat) (src : CmdSrc) : (s.deleteSet id).srcQueue src = s.srcQueue src :=
  State.srcQueue_of_interp (by rw [State.deleteSet_frame s id .interp (by decide)]; rfl) src

theorem State.deleteSet_incarnations (s : State) (id : Nat) : (s.deleteSet id).incarnations = s.incarnations :=
  State.deleteSet_frame s id .incarnations (by decide)

/-! ## Deferred set commands (R144, R248, R253) -/

theorem mem_withElem {α : Type} [DecidableEq α] (l : List α) (x : α) : x ∈ withElem l x := by
  unfold withElem
  split
  · assumption
  · simp

theorem State.startDeferred_busy (s : State) (src : CmdSrc) (pkt : Bytes) : src ∈ (s.startDeferred src pkt).1.interp.busy :=
  mem_withElem _ _

theorem State.liveRecs_of_no_recs {s : State} {id : Nat} (h : ∀ r ∈ s.log.recs, r.set.toNat ≠ id) (t : RecType) :
    s.liveRecs id t = [] := by
  rw [State.liveRecs, List.filter_eq_nil_iff]
  intro r hr
  simp [ArraySet.liveRec, h r hr]

theorem State.dropUnsealed_of_no_recs {s : State} {id : Nat} (h : ∀ r ∈ s.log.recs, r.set.toNat ≠ id) : s.dropUnsealed id = s := by
  have hsame : s.log.recs.map (fun r =>
      if (s.set id).liveRec id r ∧ r.typ = .data ∧ r.sealedAck ∧ s.wch.sealedWatch.toNat < r.watch.toNat then
        { r with status := .abandoned, reserve := 0 } else r) = s.log.recs := by
    refine (List.map_congr_left fun r hr => if_neg ?_).trans (List.map_id _)
    simp [ArraySet.liveRec, h r hr]
  simp only [State.dropUnsealed, hsame]
  rfl

theorem answers_setRecover {s : State} {src : CmdSrc} {pkt : Bytes} {P : State → Prop} (h : Ready s src 0x0106 pkt)
    (hid : setOf pkt < 64) (hst : (s.set (setOf pkt)).state = .preserved) (hr : (s.set (setOf pkt)).replaying = false)
    (hP : P ((s.startRecover src pkt).share s 0x0106)) : Answers (.setRecover src) s P := by
  refine answers_of_ready (i := .setRecover src) rfl h ?_ ?_ hP
  · simp [setField_fst_eq_false hid]
  · simp only [List.forall_mem_cons]
    exact ⟨State.legalIn_eq_none (by simp [hst]), State.replayHeld_eq_none hr, List.forall_mem_nil _⟩

/-- A deferred command replaced takes the place of the one of its source. -/
theorem State.mem_setDeferred {s : State} {d e : Deferred} (h : e ∈ s.interp.deferred) (hsrc : e.src = d.src) :
    d ∈ (s.setDeferred d).interp.deferred := List.mem_map.2 ⟨e, h, if_pos hsrc⟩

theorem State.mem_startDeferred (s : State) (src : CmdSrc) (pkt : Bytes) :
    (s.startDeferred src pkt).2 ∈ (s.startDeferred src pkt).1.interp.deferred :=
  List.mem_append.2 (.inr (.head _))

theorem State.recovering_of_mem {s : State} {d : Deferred} (h : d ∈ s.interp.deferred) (hop : opcodeOf d.packet = 0x0106) :
    s.recovering (setOf d.packet) = true :=
  List.any_eq_true.2 ⟨d, h, by simp [hop, setOf]⟩

/-- SET_RECOVER of a set without retained records starts with nothing to replay, to commit or to resync. -/
def State.recoverStarted (s : State) (src : CmdSrc) (pkt : Bytes) : State :=
  ((s.startDeferred src pkt).1.setDeferred (s.startDeferred src pkt).2).setSet (setOf pkt)
    { s.set (setOf pkt) with resync := [], unresolved := [] }

theorem State.startRecover_of_no_recs {s : State} {pkt : Bytes} (h : ∀ r ∈ s.log.recs, r.set.toNat ≠ setOf pkt) (src : CmdSrc) :
    s.startRecover src pkt = s.recoverStarted src pkt := by
  have hlog : ∀ r ∈ (s.startDeferred src pkt).1.log.recs, r.set.toNat ≠ setOf pkt := h
  simp only [State.startRecover, State.dropUnsealed_of_no_recs hlog, State.liveRecs_of_no_recs hlog]
  rfl

theorem State.recoverStarted_sets (s : State) (src : CmdSrc) (pkt : Bytes) :
    (s.recoverStarted src pkt).sets = (s.setSet (setOf pkt) { s.set (setOf pkt) with resync := [], unresolved := [] }).sets := rfl

theorem State.recoverStarted_busy (s : State) (src : CmdSrc) (pkt : Bytes) : src ∈ (s.recoverStarted src pkt).interp.busy :=
  State.startDeferred_busy s src pkt

theorem State.recoverStarted_recovering {s : State} {pkt : Bytes} (hop : opcodeOf pkt = 0x0106) (src : CmdSrc) :
    (s.recoverStarted src pkt).recovering (setOf pkt) = true :=
  State.recovering_of_mem (d := (s.startDeferred src pkt).2) (State.mem_setDeferred (State.mem_startDeferred s src pkt) rfl) hop

theorem State.recovering_share (s old : State) (op id : Nat) : (s.share old op).recovering id = s.recovering id := by
  simp only [State.recovering, State.share_interp]

/-- SET_READ_PRESERVED of one block of the set, into the scratch buffer (R244, R253). -/
theorem answers_setReadPreserved {s : State} {src : CmdSrc} {pkt : Bytes} {P : State → Prop} (h : Ready s src 0x0108 pkt)
    (hid : setOf pkt < 64) (hst : (s.set (setOf pkt)).state = .preserved) (hr : (s.set (setOf pkt)).replaying = false)
    (hcount : leAt pkt 0x14 2 = 1) (hlba : leAt pkt 0x18 6 < s.setBlocks (setOf pkt)) (hlen : bufLen pkt 0x20 = 4096)
    (halign : leAt pkt 0x20 8 % 64 = 0) (hfit : leAt pkt 0x20 8 + 4096 ≤ 65536) (hspace : byteAt pkt 0x2C = 1)
    (hzero : byteAt pkt 0x2D = 0 ∧ byteAt pkt 0x2E = 0 ∧ byteAt pkt 0x2F = 0)
    (hP : P ((s.startReadPreserved src pkt).share s 0x0108)) : Answers (.setReadPreserved src) s P := by
  refine answers_of_ready (i := .setReadPreserved src) rfl h ?_ ?_ hP
  · have hbuf : ∀ b ∈ bufFields src pkt 0x20 (2 ^ 20), b.1 = false := by
      have hlen' : leAt pkt 40 4 = 4096 := hlen
      simpa [bufFields, hlen', hspace, hzero] using hfit
    rw [List.forall_mem_append]
    refine ⟨?_, hbuf⟩
    simp [setField_fst_eq_false hid, hcount, hlen, hlba]
  · simp only [List.forall_mem_cons]
    exact ⟨failIf_eq_none (by simp [halign]) _ _, State.legalIn_eq_none (by simp [hst]), State.replayHeld_eq_none hr,
      List.forall_mem_nil _⟩

/-- The command just started is the one of its source when the source ran none. -/
theorem State.find_startDeferred {s : State} {src : CmdSrc} (h : ∀ d ∈ s.interp.deferred, d.src ≠ src) (pkt : Bytes) :
    (s.startDeferred src pkt).1.interp.deferred.find? (fun d => d.src = src) = some (s.startDeferred src pkt).2 := by
  have hnone : s.interp.deferred.find? (fun d => d.src = src) = none := by simpa [List.find?_eq_none] using h
  show (s.interp.deferred ++ [(s.startDeferred src pkt).2]).find? (fun d => d.src = src) = _
  rw [List.find?_append, hnone]
  simp [State.startDeferred]

/-- A deferred command replaced is the one of its source, when the source runs one. -/
theorem State.find_setDeferred {s : State} {d e : Deferred} (h : s.interp.deferred.find? (fun c => c.src = d.src) = some e) :
    (s.setDeferred d).interp.deferred.find? (fun c => c.src = d.src) = some d := by
  show (s.interp.deferred.map (fun c => if c.src = d.src then d else c)).find? (fun c => c.src = d.src) = some d
  revert h
  generalize s.interp.deferred = l
  intro h
  induction l with
  | nil => cases h
  | cons c l ih =>
    by_cases hc : c.src = d.src
    · simp [hc]
    · simp only [List.find?_cons, hc, List.map_cons, decide_false, if_false] at h ⊢
      exact ih h

/-- A block of SET_READ_PRESERVED asked of its drive. -/
def State.askPreserved (s : State) (set : BitVec 6) (b : Nat) : State :=
  let a := s.set set.toNat
  let x := locate (s.setProfile a).k a.s b
  (s.requestRead .hostIo set (a.revFor x.1) x.1 x.2.1 x.2.2 .preserved).1

theorem State.askPreserved_frame (s : State) (set : BitVec 6) (b : Nat) : Only [.cht, .nextId] s (s.askPreserved set b) :=
  State.requestRead_only (Only.refl _ s) rfl _ _ _ _ _ _ _

/-- A block without a retained record is read from its drive (R253). -/
theorem State.readPreserved_of_no_recs {s : State} {src : CmdSrc} {set : BitVec 6} {d : Deferred}
    (hd : s.interp.deferred.find? (fun d => d.src = src) = some d) (h : ∀ r ∈ s.log.recs, r.set.toNat ≠ set.toNat) (b : Nat) :
    s.readPreserved src set b = (s.askPreserved set b).setDeferred { d with waits := d.waits ++ [(s.nextId, b)] } := by
  simp only [State.readPreserved, hd, State.liveRecs_of_no_recs h, List.filter_nil, List.foldl_nil]
  rfl

/-- SET_READ_PRESERVED of one block, waiting for its drive. -/
def State.preservedRead (s : State) (src : CmdSrc) (pkt : Bytes) : Deferred :=
  { (s.startDeferred src pkt).2 with waits := [(s.nextId, leAt pkt 0x18 6)] }

/-- SET_READ_PRESERVED of one block started, the block asked of its drive. -/
def State.preservedAsked (s : State) (src : CmdSrc) (pkt : Bytes) : State :=
  ((s.startDeferred src pkt).1.askPreserved (BitVec.ofNat 6 (setOf pkt)) (leAt pkt 0x18 6)).setDeferred (s.preservedRead src pkt)

theorem State.preservedAsked_frame (s : State) (src : CmdSrc) (pkt : Bytes) : Only [.cht, .nextId, .interp] s (s.preservedAsked src pkt) :=
  State.setDeferred_only (((State.startDeferred_only (Only.refl _ s) rfl src pkt)).trans ((State.askPreserved_frame _ _ _).mono rfl))
    rfl _

theorem State.preservedAsked_busy (s : State) (src : CmdSrc) (pkt : Bytes) : src ∈ (s.preservedAsked src pkt).interp.busy :=
  State.startDeferred_busy s src pkt

theorem State.find_preservedAsked {s : State} {src : CmdSrc} (h : ∀ d ∈ s.interp.deferred, d.src ≠ src) (pkt : Bytes) :
    (s.preservedAsked src pkt).interp.deferred.find? (fun d => d.src = src) = some (s.preservedRead src pkt) := by
  have hstart := State.find_startDeferred h pkt
  rw [← State.askPreserved_frame _ (BitVec.ofNat 6 (setOf pkt)) (leAt pkt 0x18 6) .interp (by decide)] at hstart
  exact State.find_setDeferred (d := s.preservedRead src pkt) hstart

/-- SET_READ_PRESERVED of one block without a retained record waits for its drive. -/
theorem State.startReadPreserved_of_no_recs {s : State} {src : CmdSrc} {pkt : Bytes} (hid : setOf pkt < 64)
    (hcount : leAt pkt 0x14 2 = 1) (h : ∀ r ∈ s.log.recs, r.set.toNat ≠ setOf pkt) (hd : ∀ d ∈ s.interp.deferred, d.src ≠ src) :
    s.startReadPreserved src pkt = s.preservedAsked src pkt := by
  have hset : (BitVec.ofNat 6 (setOf pkt)).toNat = setOf pkt := by
    rw [BitVec.toNat_ofNat]
    omega
  have hblocks : (List.range (leAt pkt 0x14 2)).map (leAt pkt 0x18 6 + ·) = [leAt pkt 0x18 6] := by simp [hcount, List.range_succ]
  have hread : (s.startDeferred src pkt).1.readPreserved src (BitVec.ofNat 6 (setOf pkt)) (leAt pkt 0x18 6) = s.preservedAsked src pkt :=
    State.readPreserved_of_no_recs (State.find_startDeferred hd pkt) (by rw [hset]; exact h) _
  simp only [State.startReadPreserved, hblocks, List.foldl_cons, List.foldl_nil, hread, State.find_preservedAsked hd]
  rfl

/-- Settles O38: each command that is served reaches the equation of its run, which names the set that it leaves. -/
theorem setCommands : Obligations.SetCommands := by
  unfold Obligations.SetCommands
  refine ⟨?create, ?profile, ?members, ?params, ?start, ?stop, ?drained, ?delete, ?recover, ?readPreserved⟩
  case create =>
    intro src s pkt h hid hattr hmem hst
    apply answers_setCreate h hid hattr hmem hst
    rw [State.createSet_eq]
    obtain ⟨hset, hother, hreply⟩ := State.replied_setSet
      (State.setSet_only (State.nextIncarnation_frame s (setOf pkt)) rfl (setOf pkt) (s.createdSet pkt)) rfl src pkt
      (setEcho pkt (s.createdSet pkt)) 0x0101
    rw [hset]
    refine ⟨rfl, rfl, rfl, rfl, rfl, rfl, ?_, rfl, rfl, rfl, rfl, rfl, hother, hreply⟩
    exact Nat.sub_add_cancel (State.fragLog2_of_attrFaults rfl hattr)
  case profile =>
    intro src s pkt h hf hform hm hst hr hp hq hnew
    apply answers_setModify h hf (by simp [hm, bitOf]) hst hr hp hq
    rw [State.modifySet_profile hform hm hnew]
    obtain ⟨hset, hother, hreply⟩ := State.replied_setSet
      (State.dropLines_only (State.setSet_only (State.nextIncarnation_frame s (setOf pkt)) rfl (setOf pkt) (s.reprofiledSet pkt)) rfl
        (setOf pkt)) rfl src pkt (setEcho pkt (s.reprofiledSet pkt)) 0x0102
    rw [hset]
    exact ⟨rfl, rfl, rfl, rfl, rfl, rfl, rfl, hother, hreply⟩
  case members =>
    intro src s pkt h hf hform hm hst hr hp hq hmem
    apply answers_setModify h hf (fun _ _ => hmem) hst hr hp hq
    rw [State.modifySet_members hform hm]
    obtain ⟨hset, hother, hreply⟩ := State.replied_setSet_self s (setOf pkt) { s.set (setOf pkt) with members := membersOf pkt } src
      pkt (setEcho pkt { s.set (setOf pkt) with members := membersOf pkt }) 0x0102
    rw [hset]
    exact ⟨rfl, hother, hreply⟩
  case params =>
    intro src s pkt i h hf hform hi hm hst hr hp hq hnew
    apply answers_setModify h hf (by simp [hform]) hst hr hp hq
    rw [State.modifySet_param hform hi hm hnew]
    obtain ⟨hset, hother, -⟩ := State.replied_setSet_self s (setOf pkt) (s.reparamSet pkt i) src pkt
      (setEcho pkt (s.reparamSet pkt i)) 0x0102
    rw [hset]
    exact ⟨Tab.get_set_self .., fun j hj => Tab.get_set_other _ _ _ _ hj, rfl, rfl, hother⟩
  case start =>
    intro src s pkt h hid hf hr hst
    apply answers_setStart h hid hf hr hst
    rw [State.startSet_eq]
    obtain ⟨hset, hother, hreply⟩ := State.replied_setSet_self s (setOf pkt) (s.startedSet (setOf pkt)) src pkt
      (setBrief (setOf pkt) (s.set (setOf pkt))) 0x0103
    rw [hset]
    exact ⟨rfl, rfl, rfl, rfl, hother, hreply⟩
  case stop =>
    intro src s pkt h hid hst hr hrecs
    apply answers_setStop h hid hst hr
    rw [State.stopSet_of_no_recs hrecs]
    refine and_assoc.1 ⟨State.set_of_sets_setSet (by simp), ?detectors, by simp⟩
    rw [State.share_scc, State.evalLog_scc, State.reply_scc]
    exact fun d hd => State.mem_freeDetectors hd
  case drained =>
    intro set s h
    obtain ⟨t, he, hs⟩ := exec_setDrainComplete h
    exact ⟨t, he, State.set_of_sets_setSet hs⟩
  case delete =>
    intro src s pkt h hid hforce hr hst
    apply answers_setDelete h hid hforce hr hst
    refine ⟨congrArg ArraySet.state (State.set_of_sets_setSet (v := ArraySet.at0) ?sets).1, (State.set_of_sets_setSet ?sets).2, ?_, ?_⟩
    case sets => rw [State.share_sets, State.reply_sets, State.deleteSet_sets]
    · rw [State.share_incarnations, State.reply_incarnations, State.deleteSet_incarnations]
    · rw [State.srcQueue_share, State.srcQueue_reply, State.srcQueue_deleteSet]
  case recover =>
    intro src s pkt h hid hst hr hrecs
    apply answers_setRecover h hid hst hr
    obtain ⟨-, hop, -⟩ := h
    have hsets := (State.share_sets (s.recoverStarted src pkt) s 0x0106).trans (State.recoverStarted_sets s src pkt)
    obtain ⟨hset, hother⟩ := State.set_of_sets_setSet hsets
    rw [State.startRecover_of_no_recs hrecs, State.share_interp, State.recovering_share, hset]
    exact ⟨State.recoverStarted_busy s src pkt, State.recoverStarted_recovering hop src, hst, rfl, hother⟩
  case readPreserved =>
    intro src s pkt h hid hst hr hcount hlba hlen halign hfit hspace hzero hrecs hfree
    apply answers_setReadPreserved h hid hst hr hcount hlba hlen halign hfit hspace hzero
    rw [State.startReadPreserved_of_no_recs hid hcount hrecs hfree, State.share_interp, State.share_sets]
    exact ⟨State.preservedAsked_busy s src pkt, ⟨_, List.mem_of_find?_eq_some (State.find_preservedAsked hfree pkt), rfl, rfl⟩,
      State.preservedAsked_frame s src pkt .sets (by decide)⟩

end Sys2Proof.Machine
end

section
/-! PROOFS. The words of the Siette language (spec/03_charts_and_siette.md R90, R91): the fields that a word carries, the decoder on the
word of each format, and the encoding of whatever the decoder answers. -/

namespace Sys2Proof.Machine

/-! ## The fields of a word (R90) -/

/-- What the decoder reads in a word of opcode, rd, ra and 18 bits below them. -/
structure SpellsI (w : Word32) (op : Nat) (rd ra : GReg) (imm : Nat) : Prop where
  op : w.toNat / 2 ^ 26 = op
  rd : BitVec.ofNat 4 (w.toNat / 2 ^ 22) = rd
  ra : BitVec.ofNat 4 (w.toNat / 2 ^ 18) = ra
  imm : w.toNat % 2 ^ 18 = imm

/-- What the decoder reads in a word of opcode, rd, ra, rb and 14 bits below them. -/
structure Spells (w : Word32) (op : Nat) (rd ra rb : GReg) (lo : Nat) : Prop where
  op : w.toNat / 2 ^ 26 = op
  rd : BitVec.ofNat 4 (w.toNat / 2 ^ 22) = rd
  ra : BitVec.ofNat 4 (w.toNat / 2 ^ 18) = ra
  rb : BitVec.ofNat 4 (w.toNat / 2 ^ 14) = rb
  lo : w.toNat % 2 ^ 14 = lo

theorem SpellsI.of_eq {w : Word32} {op imm : Nat} {rd ra : GReg} (h : sWordI op rd.toNat ra.toNat imm = w) (ho : op < 2 ^ 6)
    (hi : imm < 2 ^ 18) : SpellsI w op rd ra imm := by
  have hn : w.toNat = op * 2 ^ 26 + rd.toNat * 2 ^ 22 + ra.toNat * 2 ^ 18 + imm := by
    rw [← h, sWordI, BitVec.toNat_ofNat, Nat.mod_eq_of_lt (by omega)]
  constructor
  · omega
  · bv_omega
  · bv_omega
  · omega

theorem Spells.of_eq {w : Word32} {op lo : Nat} {rd ra rb : GReg} (h : sWord op rd.toNat ra.toNat rb.toNat lo = w) (ho : op < 2 ^ 6)
    (hl : lo < 2 ^ 14) : Spells w op rd ra rb lo := by
  rw [sWord, Nat.add_assoc] at h
  obtain ⟨hop, hd, ha, hi⟩ := SpellsI.of_eq h ho (by omega)
  refine ⟨hop, hd, ha, ?_, ?_⟩
  · bv_omega
  · omega

theorem SpellsI.ofNat18 {w : Word32} {op : Nat} {rd ra : GReg} {imm : BitVec 18} (h : SpellsI w op rd ra imm.toNat) :
    BitVec.ofNat 18 w.toNat = imm :=
  BitVec.eq_of_toNat_eq ((BitVec.toNat_ofNat ..).trans h.imm)

theorem Spells.ofNat14 {w : Word32} {op : Nat} {rd ra rb : GReg} {imm : BitVec 14} (h : Spells w op rd ra rb imm.toNat) :
    BitVec.ofNat 14 w.toNat = imm :=
  BitVec.eq_of_toNat_eq ((BitVec.toNat_ofNat ..).trans h.lo)

theorem decodeSiette_encodeSiette (i : SIns) : decodeSiette (encodeSiette i) = some i := by
  generalize hw : encodeSiette i = w
  cases i
  case add rd ra rb | sub rd ra rb | and rd ra rb | or rd ra rb | xor rd ra rb | shl rd ra rb | shr rd ra rb | mul rd ra rb
      | mulhi rd ra rb | divm rd ra rb | modr rd ra rb | mix rd ra rb | sltu rd ra rb | seq rd ra rb =>
    obtain ⟨hop, hd, ha, hb, hl⟩ := Spells.of_eq hw (by decide) (by decide)
    rw [decodeSiette, hop, hd, ha, hb, hl]
    rfl
  case addi rd ra imm | andi rd ra imm | ori rd ra imm | xori rd ra imm | shli rd ra imm | shri rd ra imm =>
    have h := SpellsI.of_eq hw (by decide) imm.isLt
    rw [decodeSiette, h.op, h.rd, h.ra, h.ofNat18]
    rfl
  case movi rd lane imm | movk rd lane imm =>
    have hra : lane.toNat * 4 = (BitVec.ofNat 4 (lane.toNat * 4)).toNat := by bv_omega
    rw [encodeSiette, hra] at hw
    obtain ⟨hop, hd, ha, hi⟩ := SpellsI.of_eq hw (by decide) (by omega)
    have hlane : BitVec.ofNat 2 (w.toNat / 2 ^ 20) = lane := by bv_omega
    have himm : BitVec.ofNat 16 w.toNat = imm := by bv_omega
    have hz : w.toNat / 2 ^ 16 % 16 = 0 := by bv_omega
    rw [decodeSiette, hop, hd, hlane, himm, hz]
    rfl
  case sel rd rc ra rb =>
    obtain ⟨hop, hd, ha, hb, hl⟩ := Spells.of_eq hw (by decide) (by omega)
    have hc : BitVec.ofNat 4 (w.toNat / 2 ^ 10) = rc := by bv_omega
    have hz : w.toNat % 2 ^ 10 = 0 := by omega
    rw [decodeSiette, hop, hd, ha, hb, hc, hz]
    rfl
  case bz ra off | bnz ra off =>
    obtain ⟨hop, hd, ha, hi⟩ := SpellsI.of_eq (rd := 0) hw (by decide) (by omega)
    have hoff : BitVec.ofNat 8 w.toNat = off := by bv_omega
    have hz : w.toNat / 2 ^ 8 % 2 ^ 10 = 0 := by omega
    rw [decodeSiette, hop, hd, ha, hoff, hz]
    rfl
  case br off =>
    obtain ⟨hop, hd, ha, hi⟩ := SpellsI.of_eq (rd := 0) (ra := 0) hw (by decide) (by omega)
    have hoff : BitVec.ofNat 8 w.toNat = off := by bv_omega
    have hz : w.toNat / 2 ^ 8 % 2 ^ 10 = 0 := by omega
    rw [decodeSiette, hop, hd, ha, hoff, hz]
    rfl
  case skeq ra rb | skne ra rb | sklt ra rb | emit ra rb =>
    obtain ⟨hop, hd, ha, hb, hl⟩ := Spells.of_eq (rd := 0) hw (by decide) (by decide)
    rw [decodeSiette, hop, hd, ha, hb, hl]
    rfl
  case ldt rd ra table width =>
    have hrb : table.toNat * 4 + width.toNat = (BitVec.ofNat 4 (table.toNat * 4 + width.toNat)).toNat := by bv_omega
    rw [encodeSiette, hrb] at hw
    obtain ⟨hop, hd, ha, hb, hl⟩ := Spells.of_eq hw (by decide) (by decide)
    have ht : BitVec.ofNat 2 (w.toNat / 2 ^ 16) = table := by bv_omega
    have hwd : BitVec.ofNat 2 (w.toNat / 2 ^ 14) = width := by bv_omega
    rw [decodeSiette, hop, hd, ha, ht, hwd, hl]
    rfl
  case ptest rd ra =>
    obtain ⟨hop, hd, ha, hb, hl⟩ := Spells.of_eq (rb := 0) hw (by decide) (by decide)
    rw [decodeSiette, hop, hd, ha, hb, hl]
    rfl
  case fault code =>
    have h := Spells.of_eq (rd := 0) (ra := 0) (rb := 0) hw (by decide) code.isLt
    have hz : w.toNat / 2 ^ 14 % 2 ^ 12 = 0 := by obtain ⟨hop, hd, ha, hb, hl⟩ := h; bv_omega
    rw [decodeSiette, h.op, h.ofNat14, hz]
    rfl
  case act ra imm | crw ra imm | raise ra imm =>
    have h := Spells.of_eq (rd := 0) (rb := 0) hw (by decide) imm.isLt
    rw [decodeSiette, h.op, h.rd, h.ra, h.rb, h.ofNat14]
    rfl
  case crr rd imm =>
    have h := Spells.of_eq (ra := 0) (rb := 0) hw (by decide) imm.isLt
    rw [decodeSiette, h.op, h.rd, h.ra, h.rb, h.ofNat14]
    rfl
  case done =>
    obtain ⟨hop, hd, ha, hb, hl⟩ := Spells.of_eq (rd := 0) (ra := 0) (rb := 0) hw (by decide) (by decide)
    have hz : w.toNat % 2 ^ 26 = 0 := by bv_omega
    rw [decodeSiette, hop, hz]
    rfl

/-! ## Words that decode -/

/-- Every instruction that an answer of the decoder gives has the word for its encoding. -/
def EncodesTo (w : Word32) (o : Option SIns) : Prop := ∀ i, o = some i → encodeSiette i = w

theorem encodesTo_none (w : Word32) : EncodesTo w none := fun _ h => nomatch h

theorem encodesTo_some {w : Word32} {i : SIns} (h : encodeSiette i = w) : EncodesTo w (some i) := fun _ e => Option.some.inj e ▸ h

theorem encodesTo_ite {w : Word32} {c : Prop} [Decidable c] {a b : Option SIns} (ha : c → EncodesTo w a) (hb : EncodesTo w b) :
    EncodesTo w (if c then a else b) := by
  split
  · exact ha ‹_›
  · exact hb

/-- Along the decoder's opcodes: the fields it took, with the opcode and the zero fields it checked, are the whole word. -/
theorem encodesTo_decodeSiette (w : Word32) : EncodesTo w (decodeSiette w) := by
  unfold decodeSiette
  dsimp only
  repeat' first
    | exact encodesTo_none w
    | refine encodesTo_ite (fun _ => ?_) ?_
    | refine encodesTo_some ?_
  all_goals
    simp only [encodeSiette, sWord, sWordI]
    bv_omega

/-- Settles O46: a word gives back the fields it was made of, and the fields that the decoder takes make up the word. -/
theorem sietteWordsRoundTrip : Obligations.SietteWordsRoundTrip :=
  ⟨decodeSiette_encodeSiette, encodesTo_decodeSiette⟩

/-- Settles O45: the words written out are decoded, field by field. -/
theorem sietteWordsOfTheSpec : Obligations.SietteWordsOfTheSpec := by
  unfold Obligations.SietteWordsOfTheSpec
  decide

end Sys2Proof.Machine
end

section
/-! PROOFS. The arithmetic, logic, compare and branch instructions of Siette (spec/03_charts_and_siette.md R88, R91, R92, R95): what a
register reads after a write, what an instruction in its turn leaves in its context, and the statement of the family. -/

namespace Sys2Proof.Machine

/-! ## The registers of a machine (R88) -/

theorem SCtx.get_put_self (c : SCtx) (rd : GReg) (v : Word64) : (c.put rd v).get rd = if rd = 0 then 0 else v := by
  by_cases h : rd = 0
  · simp only [SCtx.get, if_pos h]
  · simp only [SCtx.put, SCtx.get, if_neg h, Tab.get_set_self]

theorem SCtx.get_put_other (c : SCtx) {rd r : GReg} (v : Word64) (h : r ≠ rd) : (c.put rd v).get r = c.get r := by
  have hn : r.toNat ≠ rd.toNat := fun e => h (BitVec.eq_of_toNat_eq e)
  by_cases h0 : rd = 0
  · rw [SCtx.put, if_pos h0]
  · simp only [SCtx.put, if_neg h0, SCtx.get, Tab.get_set_other _ _ _ _ hn]

theorem SCtx.put_eq (c : SCtx) (rd : GReg) (v : Word64) : c.put rd v = { c with g := (c.put rd v).g } := by
  unfold SCtx.put
  split <;> rfl

/-- A register written and the program counter moved on is all that an instruction with a result does. -/
theorem SCtx.wrote_putNext (c : SCtx) (rd : GReg) (v : Word64) : c.Wrote (c.putNext rd v) rd v := by
  refine ⟨c.get_put_self rd v, fun r h => c.get_put_other v h, ?_⟩
  simp only [SCtx.putNext]
  rw [c.put_eq rd v]

theorem SCtx.went_jump (c : SCtx) (n : Nat) : c.Went (c.jump n) n := rfl

@[simp] theorem SCtx.ended_putNext (c : SCtx) (rd : GReg) (v : Word64) : (c.putNext rd v).ended = c.ended := by
  rw [SCtx.putNext, c.put_eq]

/-! ## One instruction of a context -/

/-- A machine that has not ended, or that runs a lookup, is put back as it is. -/
theorem State.ctx_putCtx_of_running (s : State) (k : BitVec 7) {c : SCtx} (h : c.ended = none) : (s.putCtx k c).ctx k.toNat = c := by
  unfold State.putCtx
  rw [h]
  split
  · contradiction
  · contradiction
  · exact State.ctx_setCtx ..

theorem State.ctx_putCtx_of_lookup (s : State) (k : BitVec 7) {c : SCtx} {q : LookupReq} (h : c.use = .lookup q) :
    (s.putCtx k c).ctx k.toNat = c := by
  unfold State.putCtx
  rw [h]
  exact State.ctx_setCtx ..

theorem State.ended_of_atIns {s : State} {k : BitVec 7} {i : SIns} (h : s.atIns k i = true) : (s.ctx k.toNat).ended = none := by
  simp only [State.atIns, Bool.and_eq_true, Option.isNone_iff_eq_none] at h
  exact h.1.2

section Step
variable {I : Instr} {s : State} {k : BitVec 7} {i : SIns} {P : SCtx → Prop}
variable (hI : exec I s = .next (s.stepIns k i)) (hat : s.atIns k i = true)
include hI hat

/-- An instruction in its turn: what holds of the machine that it leaves, still running or at the end of a lookup, holds of the context. -/
theorem answers_stepIns (hrun : ((s.ctx k.toNat).exec (s.ctxPtest (s.ctx k.toNat)) i).ended = none ∨
      ∃ q, ((s.ctx k.toNat).exec (s.ctxPtest (s.ctx k.toNat)) i).use = .lookup q)
    (hP : P ((s.ctx k.toNat).exec (s.ctxPtest (s.ctx k.toNat)) i)) : Answers I s (fun t => P (t.ctx k.toNat)) := by
  refine ⟨_, hI, ?_⟩
  rw [State.stepIns, if_pos hat]
  rcases hrun with h | ⟨q, h⟩
  · rwa [State.ctx_putCtx_of_running _ _ h]
  · rwa [State.ctx_putCtx_of_lookup _ _ h]

theorem answers_wrote {rd : GReg} {v v' : Word64}
    (he : (s.ctx k.toNat).exec (s.ctxPtest (s.ctx k.toNat)) i = (s.ctx k.toNat).putNext rd v) (hv : v = v') :
    Answers I s (fun t => (s.ctx k.toNat).Wrote (t.ctx k.toNat) rd v') := by
  refine answers_stepIns hI hat (P := fun d => (s.ctx k.toNat).Wrote d rd v') (.inl ?_) ?_
  · rw [he, SCtx.ended_putNext, State.ended_of_atIns hat]
  · rw [he, ← hv]
    exact SCtx.wrote_putNext ..

theorem answers_went {n : Nat} (he : (s.ctx k.toNat).exec (s.ctxPtest (s.ctx k.toNat)) i = (s.ctx k.toNat).jump n) :
    Answers I s (fun t => (s.ctx k.toNat).Went (t.ctx k.toNat) n) := by
  refine answers_stepIns hI hat (P := fun d => (s.ctx k.toNat).Went d n) (.inl ?_) ?_
  · rw [he]
    exact State.ended_of_atIns hat
  · rw [he]
    exact SCtx.went_jump ..

theorem answers_finish {e : SEnd} {q : LookupReq} (hu : (s.ctx k.toNat).use = .lookup q)
    (he : (s.ctx k.toNat).exec (s.ctxPtest (s.ctx k.toNat)) i = (s.ctx k.toNat).finish e) :
    Answers I s (fun t => (t.ctx k.toNat).ended = some e ∧ (t.ctx k.toNat).g = (s.ctx k.toNat).g) := by
  refine answers_stepIns hI hat (P := fun d => d.ended = some e ∧ d.g = (s.ctx k.toNat).g) (.inr ⟨q, ?_⟩) ?_
  · rw [he]
    exact hu
  · rw [he]
    exact ⟨rfl, rfl⟩

end Step

/-- Settles O43: each instruction's effect on its machine is a register written, or a jump, or the end with its detail. -/
theorem sietteInstructions : Obligations.SietteInstructions := by
  unfold Obligations.SietteInstructions
  refine ⟨?add, ?sub, ?and, ?or, ?xor, ?shl, ?shr, ?mul, ?mulhi, ?mix, ?sltu, ?seq, ?addi, ?andi, ?ori, ?xori, ?shli, ?shri,
    ?movi, ?movk, ?sel, ?divm, ?divmZero, ?modr, ?modrZero, ?bz, ?bnz, ?br, ?skeq, ?skne, ?sklt⟩
  case add | sub | and | or | xor | shl | shr | mul | mulhi | mix | sltu | seq => exact fun _ _ _ _ _ h => answers_wrote rfl h rfl rfl
  case addi | andi | ori | xori | shli | shri | movi | movk => exact fun _ _ _ _ _ h => answers_wrote rfl h rfl rfl
  case sel => exact fun _ _ _ _ _ _ h => answers_wrote rfl h rfl (ite_not ..)
  case divm =>
    exact fun _ _ _ _ _ h hb => answers_wrote rfl h (if_neg hb) (BitVec.udiv_def ..)
  case modr =>
    exact fun _ _ _ _ _ h hb => answers_wrote rfl h (if_neg hb) (BitVec.umod_def ..)
  case divmZero | modrZero => exact fun _ _ _ _ _ _ h hb hu => answers_finish rfl h hu (if_pos hb)
  case bz | bnz => exact fun _ _ _ _ h => answers_went rfl h rfl
  case br => exact fun _ _ _ h => answers_went rfl h rfl
  case skeq | skne | sklt => exact fun _ _ _ _ h => answers_went rfl h rfl

end Sys2Proof.Machine
end

section
/-! PROOFS. The frame of every command (spec/95_what_each_step_holds.md): the frame lemma of each meaning, put under its footprint. -/

namespace Sys2Proof.Machine

/-- The frame of each command is the frame of its meaning, whose parts its footprint lists. -/
theorem exec_onlyFootprint (c : Instr) (s : State) : OnlyNext (footprint c) s (exec c s) :=
  match c with
  | .powerOn bifur cold => execPowerOn_only (Only.refl _ s) rfl bifur cold
  | .powerLoss => execPowerLoss_only (Only.refl _ s) rfl
  | .coldStartProceed => execColdStartProceed_only (Only.refl _ s) rfl
  | .bootComplete otp store => execBootComplete_only (Only.refl _ s) rfl otp store
  | .startupCalibrationDone calref0 calref1 sweeps => execStartupCalibrationDone_only (Only.refl _ s) rfl calref0 calref1 sweeps
  | .mapStoreTrainingDone eyes => execMapStoreTrainingDone_only (Only.refl _ s) rfl eyes
  | .almanacComplete => execAlmanacComplete_only (Only.refl _ s) rfl
  | .surveyComplete ms => execSurveyComplete_only (Only.refl _ s) rfl ms
  | .journalWalkEnd => execJournalWalkEnd_only (Only.refl _ s) rfl
  | .setReplayEnd set ok => execSetReplayEnd_only (Only.refl _ s) rfl set ok
  | .softReset key => execSoftReset_only (Only.refl _ s) rfl key
  | .chainReset b0 b1 => execChainReset_only (Only.refl _ s) rfl b0 b1
  | .perstN p => execPerstN_only (Only.refl _ s) rfl p
  | .perstNRelease p => execPerstNRelease_only (Only.refl _ s) rfl p
  | .flr p => execFlr_only (Only.refl _ s) rfl p
  | .d3hotEntry p => execD3hotEntry_only (Only.refl _ s) rfl p
  | .d0Return p => execD0Return_only (Only.refl _ s) rfl p
  | .dockEnter => execDockEnter_only (Only.refl _ s) rfl
  | .dockExit => execDockExit_only (Only.refl _ s) rfl
  | .pwrwarnNAssert => execPwrwarnNAssert_only (Only.refl _ s) rfl
  | .railSample mv pwrwarnHigh => execRailSample_only (Only.refl _ s) rfl mv pwrwarnHigh
  | .holdQualificationExpiry => execHoldQualificationExpiry_only (Only.refl _ s) rfl
  | .holdResume => execHoldResume_only (Only.refl _ s) rfl
  | .junctionSample tj banks => execJunctionSample_only (Only.refl _ s) rfl tj banks
  | .fixPpsEdge rising intervalNs leadNs jitterPpb => execFixPpsEdge_only (Only.refl _ s) rfl rising intervalNs leadNs jitterPpb
  | .fixPpsLost => execFixPpsLost_only (Only.refl _ s) rfl
  | .todLapse => execTodLapse_only (Only.refl _ s) rfl
  | .watchBoundary => execWatchBoundary_only (Only.refl _ s) rfl
  | .watchSeal => execWatchSeal_only (Only.refl _ s) rfl
  | .sealGraceExpiry seq => execSealGraceExpiry_only (Only.refl _ s) rfl seq
  | .holdoverTick => execHoldoverTick_only (Only.refl _ s) rfl
  | .watchLengthChange => execWatchLengthChange_only (Only.refl _ s) rfl
  | .generationLimit set => execGenerationLimit_only (Only.refl _ s) rfl set
  | .recordCommit seq => execRecordCommit_only (Only.refl _ s) rfl seq
  | .anchor => execAnchor_only (Only.refl _ s) rfl
  | .relocation => execRelocation_only (Only.refl _ s) rfl
  | .stripeCommit set stripe rowFirst rowCount => execStripeCommit_only (Only.refl _ s) rfl set stripe rowFirst rowCount
  | .bankFailure bank => execBankFailure_only (Only.refl _ s) rfl bank
  | .bankErrorWindow words => execBankErrorWindow_only (Only.refl _ s) rfl words
  | .resilverComplete pair => execResilverComplete_only (Only.refl _ s) rfl pair
  | .lifeRecordDue => execLifeRecordDue_only (Only.refl _ s) rfl
  | .calTemperatureCheck calref temps => execCalTemperatureCheck_only (Only.refl _ s) rfl calref temps
  | .calIntervalDue bank => execCalIntervalDue_only (Only.refl _ s) rfl bank
  | .calFailHoldoffExpiry bank => execCalFailHoldoffExpiry_only (Only.refl _ s) rfl bank
  | .calRunStart => execCalRunStart_only (Only.refl _ s) rfl
  | .calCopyComplete => execCalCopyComplete_only (Only.refl _ s) rfl
  | .calSweepComplete calref0 calref1 sweep => execCalSweepComplete_only (Only.refl _ s) rfl calref0 calref1 sweep
  | .calBankSel bank value => execCalBankSel_only (Only.refl _ s) rfl bank value
  | .dataRingDoorbell n value => execDataRingDoorbell_only (Only.refl _ s) rfl n value
  | .commandRingDoorbell c value => execCommandRingDoorbell_only (Only.refl _ s) rfl c value
  | .eventRingDoorbell p value => execEventRingDoorbell_only (Only.refl _ s) rfl p value
  | .ringEnable r => execRingEnable_only (Only.refl _ s) rfl r
  | .ringDisable n => execRingDisable_only (Only.refl _ s) rfl n
  | .commandRingDisable c => execCommandRingDisable_only (Only.refl _ s) rfl c
  | .eventRingDisable p => execEventRingDisable_only (Only.refl _ s) rfl p
  | .ringDisableComplete r => execRingDisableComplete_only (Only.refl _ s) rfl r
  | .privLock => execPrivLock_only (Only.refl _ s) rfl
  | .descriptorFetch r => execDescriptorFetch_only (Only.refl _ s) rfl r
  | .descriptorReadComplete r result => execDescriptorReadComplete_only (Only.refl _ s) rfl r result
  | .haltCloseEnd => execHaltCloseEnd_only (Only.refl _ s) rfl
  | .ringReadTimeout r => execRingReadTimeout_only (Only.refl _ s) rfl r
  | .ioRead n sgl errs => execIoRead_only (Only.refl _ s) rfl n sgl errs
  | .ioWrite n sgl errs => execIoWrite_only (Only.refl _ s) rfl n sgl errs
  | .allocationRetry n => execAllocationRetry_only (Only.refl _ s) rfl n
  | .ioWriteZeroes n => execIoWriteZeroes_only (Only.refl _ s) rfl n
  | .ioVerify n => execIoVerify_only (Only.refl _ s) rfl n
  | .ioNop n => execIoNop_only (Only.refl _ s) rfl n
  | .msixHoldoffExpiry r => execMsixHoldoffExpiry_only (Only.refl _ s) rfl r
  | .msixUnmask p vector => execMsixUnmask_only (Only.refl _ s) rfl p vector
  | .deferredCommandStart src => execDeferredCommandStart_only (Only.refl _ s) rfl src
  | .bufferReadComplete src result => execBufferReadComplete_only (Only.refl _ s) rfl src result
  | .bufferReadTimeout src => execBufferReadTimeout_only (Only.refl _ s) rfl src
  | .mgmtWatchdog => execMgmtWatchdog_only (Only.refl _ s) rfl
  | .fwRestartDone => execFwRestartDone_only (Only.refl _ s) rfl
  | .setCreate src => execSetCreate_only (Only.refl _ s) rfl src
  | .setModify src => execSetModify_only (Only.refl _ s) rfl src
  | .setStart src => execSetStart_only (Only.refl _ s) rfl src
  | .setStop src => execSetStop_only (Only.refl _ s) rfl src
  | .setDelete src => execSetDelete_only (Only.refl _ s) rfl src
  | .setRecover src => execSetRecover_only (Only.refl _ s) rfl src
  | .setQuery src => execSetQuery_only (Only.refl _ s) rfl src
  | .setReadPreserved src => execSetReadPreserved_only (Only.refl _ s) rfl src
  | .setDrainComplete set => execSetDrainComplete_only (Only.refl _ s) rfl set
  | .profileDefine src => execProfileDefine_only (Only.refl _ s) rfl src
  | .profileDelete src => execProfileDelete_only (Only.refl _ s) rfl src
  | .profileQuery src => execProfileQuery_only (Only.refl _ s) rfl src
  | .chartLoad src => execChartLoad_only (Only.refl _ s) rfl src
  | .chartTableWrite src => execChartTableWrite_only (Only.refl _ s) rfl src
  | .chartDelete src => execChartDelete_only (Only.refl _ s) rfl src
  | .chartRevise src => execChartRevise_only (Only.refl _ s) rfl src
  | .chartLookup src => execChartLookup_only (Only.refl _ s) rfl src
  | .lookupAccept cls => execLookupAccept_only (Only.refl _ s) rfl cls
  | .lookupComplete ctx => execLookupComplete_only (Only.refl _ s) rfl ctx
  | .chartFlush => execChartFlush_only (Only.refl _ s) rfl
  | .portQuery src => execPortQuery_only (Only.refl _ s) rfl src
  | .portConfig src => execPortConfig_only (Only.refl _ s) rfl src
  | .portFail src => execPortFail_only (Only.refl _ s) rfl src
  | .portRelease src => execPortRelease_only (Only.refl _ s) rfl src
  | .portReset src => execPortReset_only (Only.refl _ s) rfl src
  | .portAdmin src => execPortAdmin_only (Only.refl _ s) rfl src
  | .groupPower src => execGroupPower_only (Only.refl _ s) rfl src
  | .logQuery src => execLogQuery_only (Only.refl _ s) rfl src
  | .watchSetTod src => execWatchSetTod_only (Only.refl _ s) rfl src
  | .watchSetLength src => execWatchSetLength_only (Only.refl _ s) rfl src
  | .watchQuery src => execWatchQuery_only (Only.refl _ s) rfl src
  | .cleanRange src => execCleanRange_only (Only.refl _ s) rfl src
  | .invalRange src => execInvalRange_only (Only.refl _ s) rfl src
  | .discardRange src => execDiscardRange_only (Only.refl _ s) rfl src
  | .wayMasks src => execWayMasks_only (Only.refl _ s) rfl src
  | .regionSet src => execRegionSet_only (Only.refl _ s) rfl src
  | .regionQuery src => execRegionQuery_only (Only.refl _ s) rfl src
  | .faultRead src => execFaultRead_only (Only.refl _ s) rfl src
  | .faultAck src => execFaultAck_only (Only.refl _ s) rfl src
  | .faultClear src => execFaultClear_only (Only.refl _ s) rfl src
  | .faultLoadReaction src => execFaultLoadReaction_only (Only.refl _ s) rfl src
  | .calRun src => execCalRun_only (Only.refl _ s) rfl src
  | .calQuery src => execCalQuery_only (Only.refl _ s) rfl src
  | .lifeRead src => execLifeRead_only (Only.refl _ s) rfl src
  | .lifeRecord src => execLifeRecord_only (Only.refl _ s) rfl src
  | .pairJoin src => execPairJoin_only (Only.refl _ s) rfl src
  | .pairLeave src => execPairLeave_only (Only.refl _ s) rfl src
  | .pairQuery src => execPairQuery_only (Only.refl _ s) rfl src
  | .fwDownload src => execFwDownload_only (Only.refl _ s) rfl src
  | .fwCommit src => execFwCommit_only (Only.refl _ s) rfl src
  | .fwQuery src => execFwQuery_only (Only.refl _ s) rfl src
  | .diagInject src => execDiagInject_only (Only.refl _ s) rfl src
  | .diagEcho src => execDiagEcho_only (Only.refl _ s) rfl src
  | .sAdd ctx rd ra rb => execSAdd_only (Only.refl _ s) rfl ctx rd ra rb
  | .sSub ctx rd ra rb => execSSub_only (Only.refl _ s) rfl ctx rd ra rb
  | .sAnd ctx rd ra rb => execSAnd_only (Only.refl _ s) rfl ctx rd ra rb
  | .sOr ctx rd ra rb => execSOr_only (Only.refl _ s) rfl ctx rd ra rb
  | .sXor ctx rd ra rb => execSXor_only (Only.refl _ s) rfl ctx rd ra rb
  | .sShl ctx rd ra rb => execSShl_only (Only.refl _ s) rfl ctx rd ra rb
  | .sShr ctx rd ra rb => execSShr_only (Only.refl _ s) rfl ctx rd ra rb
  | .sAddi ctx rd ra imm => execSAddi_only (Only.refl _ s) rfl ctx rd ra imm
  | .sAndi ctx rd ra imm => execSAndi_only (Only.refl _ s) rfl ctx rd ra imm
  | .sOri ctx rd ra imm => execSOri_only (Only.refl _ s) rfl ctx rd ra imm
  | .sXori ctx rd ra imm => execSXori_only (Only.refl _ s) rfl ctx rd ra imm
  | .sShli ctx rd ra imm => execSShli_only (Only.refl _ s) rfl ctx rd ra imm
  | .sShri ctx rd ra imm => execSShri_only (Only.refl _ s) rfl ctx rd ra imm
  | .sMovi ctx rd lane imm => execSMovi_only (Only.refl _ s) rfl ctx rd lane imm
  | .sMovk ctx rd lane imm => execSMovk_only (Only.refl _ s) rfl ctx rd lane imm
  | .sMul ctx rd ra rb => execSMul_only (Only.refl _ s) rfl ctx rd ra rb
  | .sMulhi ctx rd ra rb => execSMulhi_only (Only.refl _ s) rfl ctx rd ra rb
  | .sDivm ctx rd ra rb => execSDivm_only (Only.refl _ s) rfl ctx rd ra rb
  | .sModr ctx rd ra rb => execSModr_only (Only.refl _ s) rfl ctx rd ra rb
  | .sMix ctx rd ra rb => execSMix_only (Only.refl _ s) rfl ctx rd ra rb
  | .sSltu ctx rd ra rb => execSSltu_only (Only.refl _ s) rfl ctx rd ra rb
  | .sSeq ctx rd ra rb => execSSeq_only (Only.refl _ s) rfl ctx rd ra rb
  | .sSel ctx rd rc ra rb => execSSel_only (Only.refl _ s) rfl ctx rd rc ra rb
  | .sBz ctx ra off => execSBz_only (Only.refl _ s) rfl ctx ra off
  | .sBnz ctx ra off => execSBnz_only (Only.refl _ s) rfl ctx ra off
  | .sBr ctx off => execSBr_only (Only.refl _ s) rfl ctx off
  | .sSkeq ctx ra rb => execSSkeq_only (Only.refl _ s) rfl ctx ra rb
  | .sSkne ctx ra rb => execSSkne_only (Only.refl _ s) rfl ctx ra rb
  | .sSklt ctx ra rb => execSSklt_only (Only.refl _ s) rfl ctx ra rb
  | .sLdt ctx rd ra table width words => execSLdt_only (Only.refl _ s) rfl ctx rd ra table width words
  | .sPtest ctx rd ra => execSPtest_only (Only.refl _ s) rfl ctx rd ra
  | .sEmit ctx ra rb => execSEmit_only (Only.refl _ s) rfl ctx ra rb
  | .sFault ctx code => execSFault_only (Only.refl _ s) rfl ctx code
  | .sCrr ctx rd index => execSCrr_only (Only.refl _ s) rfl ctx rd index
  | .sCrw ctx ra index => execSCrw_only (Only.refl _ s) rfl ctx ra index
  | .sRaise ctx ra event => execSRaise_only (Only.refl _ s) rfl ctx ra event
  | .sDone ctx => execSDone_only (Only.refl _ s) rfl ctx
  | .actHalt ctx ra => execActHalt_only (Only.refl _ s) rfl ctx ra
  | .actPreserve ctx ra => execActPreserve_only (Only.refl _ s) rfl ctx ra
  | .actStopSet ctx ra => execActStopSet_only (Only.refl _ s) rfl ctx ra
  | .actFailPort ctx ra => execActFailPort_only (Only.refl _ s) rfl ctx ra
  | .actContainHost ctx ra => execActContainHost_only (Only.refl _ s) rfl ctx ra
  | .actClear ctx ra => execActClear_only (Only.refl _ s) rfl ctx ra
  | .actLife ctx ra => execActLife_only (Only.refl _ s) rfl ctx ra
  | .reactionStart => execReactionStart_only (Only.refl _ s) rfl
  | .codingPassDispatch => execCodingPassDispatch_only (Only.refl _ s) rfl
  | .codingPassComplete engine outputs => execCodingPassComplete_only (Only.refl _ s) rfl engine outputs
  | .cesSelfTestComplete cluster pass => execCesSelfTestComplete_only (Only.refl _ s) rfl cluster pass
  | .cesIdleSelfTest pass0 pass1 => execCesIdleSelfTest_only (Only.refl _ s) rfl pass0 pass1
  | .decodeSolveComplete cluster verified => execDecodeSolveComplete_only (Only.refl _ s) rfl cluster verified
  | .driveReadComplete id result errs => execDriveReadComplete_only (Only.refl _ s) rfl id result errs
  | .driveWriteComplete id ok => execDriveWriteComplete_only (Only.refl _ s) rfl id ok
  | .driveFlushComplete port ok => execDriveFlushComplete_only (Only.refl _ s) rfl port ok
  | .driveAdminComplete port ok cqe data => execDriveAdminComplete_only (Only.refl _ s) rfl port ok cqe data
  | .driveShutdownComplete port => execDriveShutdownComplete_only (Only.refl _ s) rfl port
  | .deadReckoningThreshold id errs => execDeadReckoningThreshold_only (Only.refl _ s) rfl id errs
  | .hardTimeout id => execHardTimeout_only (Only.refl _ s) rfl id
  | .portSealLimit port => execPortSealLimit_only (Only.refl _ s) rfl port
  | .writeLagLimit id => execWriteLagLimit_only (Only.refl _ s) rfl id
  | .receiverDetection port found => execReceiverDetection_only (Only.refl _ s) rfl port found
  | .driveBringupComplete port result => execDriveBringupComplete_only (Only.refl _ s) rfl port result
  | .cstsRdyTimeout port => execCstsRdyTimeout_only (Only.refl _ s) rfl port
  | .linkDown port receiver => execLinkDown_only (Only.refl _ s) rfl port receiver
  | .recoveryTimeout port => execRecoveryTimeout_only (Only.refl _ s) rfl port
  | .portResetEnd port receiver => execPortResetEnd_only (Only.refl _ s) rfl port receiver
  | .quarantineReset port => execQuarantineReset_only (Only.refl _ s) rfl port
  | .driveAsyncEvent port critWarn => execDriveAsyncEvent_only (Only.refl _ s) rfl port critWarn
  | .healthPoll logs => execHealthPoll_only (Only.refl _ s) rfl logs
  | .driveDmaReject port => execDriveDmaReject_only (Only.refl _ s) rfl port
  | .driveLinkErrorWindow port errors => execDriveLinkErrorWindow_only (Only.refl _ s) rfl port errors
  | .driveL1Entry port => execDriveL1Entry_only (Only.refl _ s) rfl port
  | .groupDrainEnd group => execGroupDrainEnd_only (Only.refl _ s) rfl group
  | .drainTimeout group => execDrainTimeout_only (Only.refl _ s) rfl group
  | .groupWakeDelay group receivers => execGroupWakeDelay_only (Only.refl _ s) rfl group receivers
  | .catchupExtentDone port extent => execCatchupExtentDone_only (Only.refl _ s) rfl port extent
  | .rebuildPacingWindow => execRebuildPacingWindow_only (Only.refl _ s) rfl
  | .rebuildStripeDone set stripe => execRebuildStripeDone_only (Only.refl _ s) rfl set stripe
  | .rebuildRetakeLimit set stripe => execRebuildRetakeLimit_only (Only.refl _ s) rfl set stripe
  | .rebuildCursorDurable set => execRebuildCursorDurable_only (Only.refl _ s) rfl set
  | .scrubPassStart => execScrubPassStart_only (Only.refl _ s) rfl
  | .scrubPacingWindow => execScrubPacingWindow_only (Only.refl _ s) rfl
  | .scrubRowReadComplete set stripe row sectors => execScrubRowReadComplete_only (Only.refl _ s) rfl set stripe row sectors
  | .rowArbitrationDone set stripe row sectors => execRowArbitrationDone_only (Only.refl _ s) rfl set stripe row sectors
  | .scrubCursorSave => execScrubCursorSave_only (Only.refl _ s) rfl
  | .resyncRowDone set stripe row sectors => execResyncRowDone_only (Only.refl _ s) rfl set stripe row sectors
  | .tierMoveComplete key => execTierMoveComplete_only (Only.refl _ s) rfl key
  | .mapChannelFailure ch detail => execMapChannelFailure_only (Only.refl _ s) rfl ch detail
  | .cacheInvalidationDone => execCacheInvalidationDone_only (Only.refl _ s) rfl
  | .burstGrant writeEngine words => execBurstGrant_only (Only.refl _ s) rfl writeEngine words
  | .moverReadCompletion t result => execMoverReadCompletion_only (Only.refl _ s) rfl t result
  | .moverReadTimeout t => execMoverReadTimeout_only (Only.refl _ s) rfl t
  | .tagQuarantineExpiry t => execTagQuarantineExpiry_only (Only.refl _ s) rfl t
  | .transferComplete ch => execTransferComplete_only (Only.refl _ s) rfl ch
  | .flushReadComplete ch result => execFlushReadComplete_only (Only.refl _ s) rfl ch result
  | .copy ch desc srcList dstList => execCopy_only (Only.refl _ s) rfl ch desc srcList dstList
  | .channelEnable ch => execChannelEnable_only (Only.refl _ s) rfl ch
  | .channelDisable ch => execChannelDisable_only (Only.refl _ s) rfl ch
  | .swReq ch => execSwReq_only (Only.refl _ s) rfl ch
  | .channelDesc ch value => execChannelDesc_only (Only.refl _ s) rfl ch value
  | .mqEnable q enable => execMqEnable_only (Only.refl _ s) rfl q enable
  | .mqCons q value => execMqCons_only (Only.refl _ s) rfl q value
  | .pwinPages value => execPwinPages_only (Only.refl _ s) rfl value
  | .pairLinkDown detail => execPairLinkDown_only (Only.refl _ s) rfl detail
  | .pairLaneRetrain lane => execPairLaneRetrain_only (Only.refl _ s) rfl lane
  | .flitIdle h => execFlitIdle_only (Only.refl _ s) rfl h
  | .flitNak h => execFlitNak_only (Only.refl _ s) rfl h
  | .flitMirror h position units => execFlitMirror_only (Only.refl _ s) rfl h position units
  | .flitMirrorAck h seqs => execFlitMirrorAck_only (Only.refl _ s) rfl h seqs
  | .flitFwdDesc h descs => execFlitFwdDesc_only (Only.refl _ s) rfl h descs
  | .flitFwdGrant h ref status detail watch gen => execFlitFwdGrant_only (Only.refl _ s) rfl h ref status detail watch gen
  | .flitFwdData h ref data => execFlitFwdData_only (Only.refl _ s) rfl h ref data
  | .flitFwdDone h ref status detail => execFlitFwdDone_only (Only.refl _ s) rfl h ref status detail
  | .flitSealReady h watch holdover => execFlitSealReady_only (Only.refl _ s) rfl h watch holdover
  | .flitMeta h token page => execFlitMeta_only (Only.refl _ s) rfl h token page
  | .flitHaltNotice h => execFlitHaltNotice_only (Only.refl _ s) rfl h
  | .flitState h ps => execFlitState_only (Only.refl _ s) rfl h ps
  | .joinTimeout => execJoinTimeout_only (Only.refl _ s) rfl
  | .pairWaitExpiry => execPairWaitExpiry_only (Only.refl _ s) rfl
  | .probeTimeout => execProbeTimeout_only (Only.refl _ s) rfl
  | .fenceWaitExpiry => execFenceWaitExpiry_only (Only.refl _ s) rfl
  | .takeoverComplete => execTakeoverComplete_only (Only.refl _ s) rfl
  | .fenceInFall => execFenceInFall_only (Only.refl _ s) rfl
  | .fenceInRise => execFenceInRise_only (Only.refl _ s) rfl
  | .chainCmd seq packet => execChainCmd_only (Only.refl _ s) rfl seq packet
  | .scratchWrite seq offset data => execScratchWrite_only (Only.refl _ s) rfl seq offset data
  | .scratchRead seq offset count => execScratchRead_only (Only.refl _ s) rfl seq offset count
  | .chainTod value => execChainTod_only (Only.refl _ s) rfl value
  | .chainEnum hop => execChainEnum_only (Only.refl _ s) rfl hop
  | .alertQuery seq => execAlertQuery_only (Only.refl _ s) rfl seq
  | .chainProbe seq src side => execChainProbe_only (Only.refl _ s) rfl seq src side
  | .probeReply pairState linkDown => execProbeReply_only (Only.refl _ s) rfl pairState linkDown
  | .alertAck => execAlertAck_only (Only.refl _ s) rfl
  | .chainBreak => execChainBreak_only (Only.refl _ s) rfl
  | .chainFrameForward dest frame => execChainFrameForward_only (Only.refl _ s) rfl dest frame
  | .alertClr => execAlertClr_only (Only.refl _ s) rfl
  | .portContainment p cause => execPortContainment_only (Only.refl _ s) rfl p cause
  | .containNow p => execContainNow_only (Only.refl _ s) rfl p
  | .hpuRelease p viaVsec => execHpuRelease_only (Only.refl _ s) rfl p viaVsec
  | .hostTlpError p poisoned => execHostTlpError_only (Only.refl _ s) rfl p poisoned
  | .hostCorrectableWindow p errors => execHostCorrectableWindow_only (Only.refl _ s) rfl p errors
  | .hostL1Entry p => execHostL1Entry_only (Only.refl _ s) rfl p
  | .l0pNarrow p => execL0pNarrow_only (Only.refl _ s) rfl p
  | .l0pWiden p => execL0pWiden_only (Only.refl _ s) rfl p
  | .bar2Write p addr data => execBar2Write_only (Only.refl _ s) rfl p addr data
  | .bar2Read p addr len words => execBar2Read_only (Only.refl _ s) rfl p addr len words
  | .barSizeWrite p code => execBarSizeWrite_only (Only.refl _ s) rfl p code
  | .bar0BadAccess p offset width => execBar0BadAccess_only (Only.refl _ s) rfl p offset width
  | .pwinGo => execPwinGo_only (Only.refl _ s) rfl
  | .pwinCommitInForce => execPwinCommitInForce_only (Only.refl _ s) rfl
  | .poolPageRelease page => execPoolPageRelease_only (Only.refl _ s) rfl page
  | .registerWrite p offset wide value => execRegisterWrite_only (Only.refl _ s) rfl p offset wide value
  | .shutdownTimeout port => execShutdownTimeout_only (Only.refl _ s) rfl port
  | .rangeWalkEnd src => execRangeWalkEnd_only (Only.refl _ s) rfl src
  | .victimTierEmptied => execVictimTierEmptied_only (Only.refl _ s) rfl
  | .jtagDebugAttempt => execJtagDebugAttempt_only (Only.refl _ s) rfl
  | .decayFloorCrossed rail => execDecayFloorCrossed_only (Only.refl _ s) rfl rail
  | .controllerFatalStatus port => execControllerFatalStatus_only (Only.refl _ s) rfl port
  | .uncorrectableLinkError port receiver => execUncorrectableLinkError_only (Only.refl _ s) rfl port receiver
  | .flitError again => execFlitError_only (Only.refl _ s) rfl again
  | .chainFrameCrcError toThisUnit => execChainFrameCrcError_only (Only.refl _ s) rfl toThisUnit
  | .hotReset p => execHotReset_only (Only.refl _ s) rfl p
  | .hostLinkUp p speed width cfg => execHostLinkUp_only (Only.refl _ s) rfl p speed width cfg
  | .gapClosed => execGapClosed_only (Only.refl _ s) rfl
  | .lowerHalfRead p offset => execLowerHalfRead_only (Only.refl _ s) rfl p offset
  | .dpgClkreqN group low => execDpgClkreqN_only (Only.refl _ s) rfl group low

/-- Settles O6: the command keeps what the frame lemma of its meaning keeps. -/
theorem commandsKeepTheirFrames : Obligations.CommandsKeepTheirFrames :=
  fun c s t h => exec_onlyFootprint c s t h

end Sys2Proof.Machine
end

section
/-! PROOFS. g0 of every Siette machine stays zero (spec/03_charts_and_siette.md R88): what each way of changing the machines does to it.
A command whose footprint leaves the machines out has nothing to show; the others load, step or clear them. -/

namespace Sys2Proof.Machine

/-! ## g0 of one machine (R88) -/

/-- g0 of a machine is stored as zero. -/
def SCtx.G0Zero (c : SCtx) : Prop := Tab.get c.g 0 0 = 0

theorem SCtx.g0Zero_at0 : SCtx.at0.G0Zero := rfl

/-- Registers loaded from a list that does not name g0. -/
theorem g0Zero_foldl_set {l : List (Nat × Word64)} (hl : ∀ e ∈ l, e.1 ≠ 0) {t : Tab Word64} (ht : Tab.get t 0 0 = 0) :
    Tab.get (l.foldl (fun t e => Tab.set t 0 e.1 e.2) t) 0 0 = 0 := by
  induction l generalizing t with
  | nil => exact ht
  | cons e l ih =>
    refine ih (fun x hx => hl x (List.mem_cons_of_mem _ hx)) ?_
    rw [Tab.get_set_other _ _ _ _ (hl e List.mem_cons_self).symm, ht]

theorem State.g0Zero_lookupCtx (s : State) (req : LookupReq) (prog : SProg) : (s.lookupCtx req prog).G0Zero := by
  refine g0Zero_foldl_set ?_ rfl
  intro e he
  rcases List.mem_append.1 he with hfix | hparam
  · simp only [List.mem_cons, List.not_mem_nil, or_false] at hfix
    rcases hfix with rfl | rfl | rfl | rfl | rfl | rfl | rfl <;> exact Nat.succ_ne_zero _
  · obtain ⟨i, -, rfl⟩ := List.mem_map.1 hparam
    exact Nat.ne_of_gt (Nat.add_pos_left (by decide) i)

theorem Reaction.g0Zero_preloads (r : Reaction) : Tab.get r.preloads 0 0 = 0 := by
  refine g0Zero_foldl_set ?_ rfl
  simp

section Machine
variable {c : SCtx}

theorem SCtx.G0Zero.put (h : c.G0Zero) (rd : GReg) (v : Word64) : (c.put rd v).G0Zero := by
  unfold SCtx.put
  split
  · exact h
  · next hrd =>
    have hn : 0 ≠ rd.toNat := fun e => hrd (BitVec.eq_of_toNat_eq e.symm)
    exact (Tab.get_set_other _ _ _ _ hn).trans h

theorem SCtx.G0Zero.putNext (h : c.G0Zero) (rd : GReg) (v : Word64) : (c.putNext rd v).G0Zero := h.put rd v

theorem SCtx.G0Zero.jump (h : c.G0Zero) (n : Nat) : (c.jump n).G0Zero := h

theorem SCtx.G0Zero.finish (h : c.G0Zero) (e : SEnd) : (c.finish e).G0Zero := h

/-- No instruction writes g0: it writes rd through `put`, jumps, or ends. -/
theorem SCtx.G0Zero.exec (h : c.G0Zero) (ptest : Byte → Word64) (i : SIns) : (c.exec ptest i).G0Zero := by
  cases i
  case add | sub | and | or | xor | shl | shr | addi | andi | ori | xori | shli | shri | movi | movk | mul | mulhi | mix | sltu | seq
      | sel | ptest =>
    exact h.putNext ..
  case bz | bnz | br | skeq | skne | sklt | act | crr | crw | raise => exact h.jump _
  case emit | fault | done => exact h.finish _
  case divm | modr =>
    simp only [SCtx.exec]
    split
    · exact h.finish _
    · exact h.putNext ..
  case ldt =>
    simp only [SCtx.exec]
    split
    · exact h.putNext ..
    · exact h.finish _

end Machine

/-! ## g0 of every machine -/

/-- Every part of the state but the Siette machines: what changes only these keeps g0 zero. -/
def allButCtxs : List Field :=
  [.gcs, .part, .startup, .phase, .halt, .regs, .flt, .sources, .first, .reactions, .sets, .incarnations, .profiles, .cht, .log, .banks,
    .wch, .timer, .rings, .privLock, .ios, .nextId, .dcmds, .ports, .portGroups, .rowOps, .commits, .passes, .arbitrating, .clusters,
    .scc, .dmv, .interp, .scratch, .sec, .otp, .rollback, .mon, .monitor, .pair, .role, .chn, .address, .hpus, .links, .pwin, .pool,
    .map, .sched, .freeCount, .out, .pending]

section Step
variable {s t : State}

theorem State.G0Zero.of_ctxs (h : s.G0Zero) (e : t.ctxs = s.ctxs) : t.G0Zero := fun k => e ▸ h k

theorem State.G0Zero.of_only (h : s.G0Zero) (o : Only allButCtxs s t) : t.G0Zero := h.of_ctxs (o .ctxs (by decide))

theorem State.g0Zero_of_nil (h : s.ctxs = []) : s.G0Zero := fun k => by rw [h]; rfl

theorem State.G0Zero.ctx (h : s.G0Zero) (k : Nat) : (s.ctx k).G0Zero := h k

theorem State.G0Zero.setCtx (h : s.G0Zero) (k : Nat) {c : SCtx} (hc : c.G0Zero) : (s.setCtx k c).G0Zero := by
  intro j
  rw [State.setCtx, State.withCtxs_ctxs, Tab.get_set]
  split
  · exact hc
  · exact h j

/-! ### Instructions of a context -/

theorem State.G0Zero.reactionFault (h : s.G0Zero) (c : SCtx) (r : Reaction) (d code : Byte) : (s.reactionFault c r d code).G0Zero :=
  (h.setCtx 64 SCtx.g0Zero_at0).of_only (State.raise_only (State.setRegN_only (Only.refl _ _) rfl _ _) rfl _ _ _)

theorem State.G0Zero.putCtx (h : s.G0Zero) (k : BitVec 7) {c : SCtx} (hc : c.G0Zero) : (s.putCtx k c).G0Zero := by
  unfold State.putCtx
  split
  · exact h.reactionFault _ _ _ _
  · exact h.setCtx 64 SCtx.g0Zero_at0
  · exact h.setCtx _ hc

theorem State.G0Zero.stepIns (h : s.G0Zero) (k : BitVec 7) (i : SIns) : (s.stepIns k i).G0Zero := by
  unfold State.stepIns
  split
  · exact (h.of_only (State.cacheLdt_only (Only.refl _ s) rfl _)).putCtx k ((h.ctx _).exec ..)
  · exact h

theorem State.G0Zero.putControl (h : s.G0Zero) (k : BitVec 7) {c : SCtx} (hc : c.G0Zero) (i : Nat) (v : Word64) :
    (s.putControl k c i v).G0Zero := by
  have hs := h.setCtx k.toNat hc
  unfold State.putControl
  repeat' split
  · exact hs.of_only (State.setReg_only (Only.refl _ _) rfl _ _)
  · exact hs.of_only (State.evalPin_only (State.setRegN_only (Only.refl _ _) rfl _ _) rfl)
  · exact h.setCtx _ hc
  · exact h.setCtx _ hc
  · exact hs

/-- An action keeps the machines as the jump before it left them. -/
theorem State.G0Zero.act (h : s.G0Zero) (k : BitVec 7) (ra : GReg) (a : BitVec 14) (ok : Nat → Bool) {run : State → Nat → State}
    (hrun : ∀ u v, Only allButCtxs u (run u v)) : (s.act k ra a ok run).G0Zero := by
  unfold State.act
  dsimp only
  split
  · split
    · exact (h.setCtx _ ((h.ctx _).jump 1)).of_only (hrun _ _)
    · exact h.reactionFault _ _ _ _
  · exact h

theorem State.G0Zero.tableLost (h : s.G0Zero) (k slot : BitVec 7) : (s.tableLost k slot).G0Zero := by
  have hs : (s.freeByte.1.setCtx k.toNat SCtx.at0).G0Zero :=
    (h.of_only (State.freeByte_only (Only.refl _ s) rfl)).setCtx _ SCtx.g0Zero_at0
  exact hs.of_only (only_foldl (State.raise_only (Only.refl _ _) rfl _ _ _) (fun u i hu => State.preserve_only hu rfl i))

/-! ### Resets and power -/

@[simp] theorem State.dropRegs_ctxs (s : State) (f : Nat → Bool) : (s.dropRegs f).ctxs = s.ctxs :=
  State.dropRegs_only (M := allButCtxs) (Only.refl _ s) rfl f .ctxs (by decide)

@[simp] theorem State.clearAllSources_ctxs (s : State) : s.clearAllSources.ctxs = s.ctxs :=
  State.clearAllSources_only (M := allButCtxs) (Only.refl _ s) rfl .ctxs (by decide)

@[simp] theorem State.fenceAtReset_ctxs (s : State) : s.fenceAtReset.ctxs = s.ctxs :=
  State.fenceAtReset_only (M := allButCtxs) (Only.refl _ s) rfl .ctxs (by decide)

@[simp] theorem State.lostPower_ctxs (s : State) : s.lostPower.ctxs = [] := rfl

theorem State.romRestart_ctxs (s : State) : s.romRestart.ctxs = [] := rfl

@[simp] theorem State.dropWork_ctxs (s : State) : s.dropWork.ctxs = [] := by
  simp [State.dropWork]

@[simp] theorem State.softReset_ctxs (s : State) : s.softReset.ctxs = [] := by
  simp [State.softReset]

theorem State.foldl_modChan_ctxs (l : List Nat) (f : State → Nat → Channel → Channel) (s : State) :
    (l.foldl (fun u n => u.modChan n (f u n)) s).ctxs = s.ctxs :=
  only_foldl (m := allButCtxs) (Only.refl _ s) (fun _ n hu => State.modChan_only hu rfl n _) .ctxs (by decide)

@[simp] theorem State.chainResetNow_ctxs (s : State) : s.chainResetNow.ctxs = [] := by
  unfold State.chainResetNow
  rw [State.fenceAtReset_ctxs, State.withDmv_ctxs,
    State.foldl_modChan_ctxs _ (fun u n c => c.idled (decide (u.chanLine n = 0)))]
  exact s.dropWork_ctxs

end Step

/-! ### Whole commands -/

/-- Whatever next state an outcome answers has g0 of every machine zero. -/
def NextG0Zero (o : Host.Outcome State Fault Refusal) : Prop := ∀ t, o = .next t → t.G0Zero

theorem State.G0Zero.next {t : State} (h : t.G0Zero) : NextG0Zero (.next t) := fun _ e => Host.Outcome.next.inj e ▸ h

theorem nextG0Zero_ite {p : Prop} [Decidable p] {a b : Host.Outcome State Fault Refusal} (ha : NextG0Zero a) (hb : NextG0Zero b) :
    NextG0Zero (if p then a else b) := by
  split
  · exact ha
  · exact hb

/-- The state that an operation gives, if any, has g0 of every machine zero. -/
def OptG0Zero (o : Option State) : Prop := ∀ t, o = some t → t.G0Zero

theorem State.G0Zero.opt {t : State} (h : t.G0Zero) : OptG0Zero (some t) := fun _ e => Option.some.inj e ▸ h

theorem optG0Zero_none : OptG0Zero none := fun _ e => nomatch e

theorem optG0Zero_ite {p : Prop} [Decidable p] {a b : Option State} (ha : OptG0Zero a) (hb : OptG0Zero b) :
    OptG0Zero (if p then a else b) := by
  split
  · exact ha
  · exact hb

section Commands
variable {s : State} (h : s.G0Zero)
include h

/-- A command whose footprint leaves out the machines keeps g0 zero. -/
theorem State.G0Zero.exec_of_footprint {c : Instr} (hc : decide (Field.ctxs ∈ footprint c) = false) : NextG0Zero (exec c s) :=
  fun t e => h.of_ctxs (exec_onlyFootprint c s t e .ctxs (of_decide_eq_false hc))

theorem State.G0Zero.execPowerLoss : NextG0Zero (execPowerLoss s) :=
  nextG0Zero_ite h.next (State.g0Zero_of_nil s.lostPower_ctxs).next

theorem State.G0Zero.execPowerOn (bifur cold : Bool) : NextG0Zero (execPowerOn bifur cold s) :=
  nextG0Zero_ite h.next (State.g0Zero_of_nil (by simp)).next

theorem State.G0Zero.execSoftReset (key : Half) : NextG0Zero (execSoftReset key s) :=
  nextG0Zero_ite h.next (State.g0Zero_of_nil (by simp)).next

theorem State.G0Zero.execChainReset (b0 b1 : Byte) : NextG0Zero (execChainReset b0 b1 s) :=
  nextG0Zero_ite h.next (nextG0Zero_ite (h.of_only (State.count32_only (Only.refl _ s) rfl _ _)).next
    (State.g0Zero_of_nil (by simp)).next)

/-! #### Lookups and reactions -/

theorem State.G0Zero.execLookupAccept (cls : LookupClass) : NextG0Zero (execLookupAccept cls s) := by
  unfold Sys2Proof.Machine.execLookupAccept
  split
  · refine nextG0Zero_ite h.next (State.G0Zero.next ?_)
    exact (h.of_only (only_withCht (Only.refl _ s) rfl)).setCtx _ (State.g0Zero_lookupCtx ..)
  · exact h.next

theorem State.G0Zero.execLookupComplete (k : BitVec 7) : NextG0Zero (execLookupComplete k s) := by
  unfold Sys2Proof.Machine.execLookupComplete
  dsimp only
  split
  · next req _ =>
    have hs : ((s.setCtx k.toNat SCtx.at0)).G0Zero := h.setCtx _ SCtx.g0Zero_at0
    have hcount : ∀ cht n, Only allButCtxs (s.setCtx k.toNat SCtx.at0)
        ((((s.setCtx k.toNat SCtx.at0).withCht cht).count64 Reg.chtMisses n).count64 Reg.chtLookups 1) := fun cht n =>
      State.count64_only (State.count64_only (only_withCht (Only.refl _ _) rfl) rfl _ _) rfl _ _
    split
    · exact (hs.of_only (State.chartFault_only (hcount _ _) rfl _ _ _ _ _)).next
    · exact nextG0Zero_ite (hs.of_only (State.submit_only (hcount _ _) rfl _)).next
        (hs.of_only (State.readElsewhere_only (hcount _ _) rfl _)).next
  · exact h.next

theorem State.G0Zero.execSLdt (k : BitVec 7) (rd ra : GReg) (n w : BitVec 2) (words : TableWords) :
    NextG0Zero (execSLdt k rd ra n w words s) := by
  have hb : s.freeByte.1.G0Zero := h.of_only (State.freeByte_only (Only.refl _ s) rfl)
  unfold Sys2Proof.Machine.execSLdt
  dsimp only
  split
  · exact (h.tableLost _ _).next
  · exact ((hb.stepIns _ _).of_only (State.raise_only (Only.refl _ _) rfl _ _ _)).next
  · exact ((hb.stepIns _ _).of_only (State.raise_only (Only.refl _ _) rfl _ _ _)).next
  · exact (h.stepIns _ _).next

theorem State.G0Zero.execSCrr (k : BitVec 7) (rd : GReg) (i : BitVec 14) : NextG0Zero (execSCrr k rd i s) :=
  nextG0Zero_ite (h.setCtx _ ((h.ctx _).putNext ..)).next h.next

theorem State.G0Zero.execSCrw (k : BitVec 7) (ra : GReg) (i : BitVec 14) : NextG0Zero (execSCrw k ra i s) :=
  nextG0Zero_ite (h.putControl k ((h.ctx _).jump 1) _ _).next h.next

theorem State.G0Zero.execSRaise (k : BitVec 7) (ra : GReg) (event : BitVec 14) : NextG0Zero (execSRaise k ra event s) := by
  unfold Sys2Proof.Machine.execSRaise
  dsimp only
  split
  · exact ((h.setCtx _ ((h.ctx _).jump 1)).of_only (State.logEvent_only (Only.refl _ _) rfl _ _ _)).next
  · exact h.next

theorem State.G0Zero.execReactionStart : NextG0Zero (execReactionStart s) := by
  unfold Sys2Proof.Machine.execReactionStart
  split
  · exact h.next
  · next r rest _ =>
    refine nextG0Zero_ite h.next (State.G0Zero.next (State.G0Zero.setCtx ?_ 64 (Reaction.g0Zero_preloads r)))
    exact h.of_only (State.count64_only (only_withFlt (Only.refl _ s) rfl (.inl rfl) (.inl rfl) (.inl rfl)) rfl _ _)

/-! #### Packets -/

theorem State.G0Zero.serve (src : CmdSrc) (op : Nat) (bad : Bytes → List (Bool × Nat)) (checks : Bytes → List (Option (Byte × Byte)))
    {run : Bytes → State} (hrun : ∀ pkt, (run pkt).G0Zero) : (s.serve src op bad checks run).G0Zero := by
  unfold State.serve
  split
  · exact h
  · split
    · exact h.of_only (State.reply_only (Only.refl _ s) rfl _ _ _ _ _)
    · split
      · exact h
      · split
        · exact h.of_only (State.fail_only (Only.refl _ s) rfl _ _ _)
        · exact (hrun _).of_only (State.share_only (Only.refl _ _) rfl _ _)

theorem State.G0Zero.commitImage (src : CmdSrc) (pkt : Bytes) : (s.commitImage src pkt).G0Zero := by
  have hs : (s.withSec { s.sec with pending := some s.sec.stage }).G0Zero := h.of_ctxs rfl
  unfold State.commitImage
  dsimp only
  split
  · exact State.g0Zero_of_nil (State.romRestart_ctxs _)
  · split
    · exact hs.of_only (State.reply_only (Only.refl _ _) rfl _ _ _ _ _)
    · exact hs.of_only (only_withInterp (State.startDeferred_only (Only.refl _ _) rfl _ _) rfl (.inl rfl))

theorem State.G0Zero.execFwCommit (src : CmdSrc) : NextG0Zero (execFwCommit src s) :=
  (h.serve src _ _ _ (h.commitImage src)).next

/-- Of the commands that a deferred start may serve only FW_COMMIT reaches the machines, to clear them. -/
theorem State.G0Zero.execDeferredCommandStart (src : CmdSrc) : NextG0Zero (execDeferredCommandStart src s) := by
  unfold Sys2Proof.Machine.execDeferredCommandStart
  split
  · exact h.next
  · exact nextG0Zero_ite (h.exec_of_footprint (c := .setRecover src) rfl) <|
      nextG0Zero_ite (h.exec_of_footprint (c := .setReadPreserved src) rfl) <|
      nextG0Zero_ite (h.exec_of_footprint (c := .portReset src) rfl) <|
      nextG0Zero_ite (h.exec_of_footprint (c := .portAdmin src) rfl) <|
      nextG0Zero_ite (h.exec_of_footprint (c := .groupPower src) rfl) <|
      nextG0Zero_ite (h.exec_of_footprint (c := .watchSetTod src) rfl) <|
      nextG0Zero_ite (h.exec_of_footprint (c := .cleanRange src) rfl) <|
      nextG0Zero_ite (h.exec_of_footprint (c := .invalRange src) rfl) <|
      nextG0Zero_ite (h.exec_of_footprint (c := .discardRange src) rfl) <|
      nextG0Zero_ite (h.exec_of_footprint (c := .calRun src) rfl) <|
      nextG0Zero_ite (h.exec_of_footprint (c := .pairJoin src) rfl) <|
      nextG0Zero_ite (h.exec_of_footprint (c := .pairLeave src) rfl) <|
      nextG0Zero_ite (h.execFwCommit src) h.next

/-! #### Register writes -/

theorem State.G0Zero.after {m : State → Host.Outcome State Fault Refusal} (hm : NextG0Zero (m s)) : (s.after m).G0Zero := by
  unfold State.after
  split
  · next t e => exact hm t e
  · exact h

theorem State.G0Zero.afterIf (b : Bool) {m : State → Host.Outcome State Fault Refusal} (hm : NextG0Zero (m s)) :
    (s.afterIf b m).G0Zero := by
  unfold State.afterIf
  split
  · exact h.after hm
  · exact h

/-- A row that a write runs, where its command leaves out the machines. -/
theorem State.G0Zero.row {c : Instr} (hc : decide (Field.ctxs ∈ footprint c) = false) : (s.after (exec c)).G0Zero :=
  h.after (h.exec_of_footprint hc)

theorem State.G0Zero.rowIf (b : Bool) {c : Instr} (hc : decide (Field.ctxs ∈ footprint c) = false) : (s.afterIf b (exec c)).G0Zero :=
  h.afterIf b (h.exec_of_footprint hc)

/-- Of the rows that a write can run only the soft reset reaches the machines, to clear them. -/
theorem State.G0Zero.rowWrite (p : Bool) (o v : Nat) : OptG0Zero (s.rowWrite p o v) := by
  unfold State.rowWrite
  refine optG0Zero_ite (h.after (h.execSoftReset _)).opt ?_
  refine optG0Zero_ite ((h.rowIf _ (c := .dockExit) rfl).rowIf _ (c := .dockEnter) rfl).opt ?_
  refine optG0Zero_ite (h.rowIf _ (c := .anchor) rfl).opt ?_
  refine optG0Zero_ite (h.rowIf _ (c := .chartFlush) rfl).opt ?_
  refine optG0Zero_ite (h.rowIf _ (c := .privLock) rfl).opt ?_
  refine optG0Zero_ite (h.rowIf _ (c := .alertClr) rfl).opt ?_
  refine optG0Zero_ite (h.rowIf _ (c := .pwinGo) rfl).opt ?_
  refine optG0Zero_ite (h.row (c := .pwinPages _) rfl).opt ?_
  refine optG0Zero_ite (h.of_only (State.writeHpuCtl_only (Only.refl _ s) rfl _ _ _)).opt ?_
  refine optG0Zero_ite (h.of_only (State.writeHpuCtl_only (Only.refl _ s) rfl _ _ _)).opt ?_
  split
  · exact (h.row (c := .calBankSel _ _) rfl).opt
  split
  · exact (h.row (c := .mqEnable _ _) rfl).opt
  split
  · exact (h.row (c := .mqCons _ _) rfl).opt
  split
  · exact (h.of_only (State.writeChanCtl_only (Only.refl _ s) rfl _ _)).opt
  split
  · exact (h.row (c := .channelDesc _ _) rfl).opt
  split
  · exact optG0Zero_ite (h.of_only (State.writeEnable_only (Only.refl _ s) rfl _ _)).opt optG0Zero_none
  · exact optG0Zero_none

theorem State.G0Zero.writeReg (p : Bool) (o v : Nat) : (s.writeReg p o v).G0Zero := by
  unfold State.writeReg
  split
  · exact h
  · split
    · exact h
    · split
      · next e => exact h.rowWrite p o v _ e
      · split
        · exact h.of_only (State.writeShadow_only (Only.refl _ s) rfl _ _)
        · split
          · exact h
          · exact h.of_only (State.wrote_only (State.storeReg_only (Only.refl _ s) rfl _ _ _) rfl _ _ _)

theorem State.G0Zero.write32 (p : Bool) (o v : Nat) : (s.write32 p o v).G0Zero := by
  unfold State.write32
  split
  · exact h.of_only (State.writeMsix_only (Only.refl _ s) rfl _ _ _)
  · split
    · exact h.of_only (State.writeDoorbell_only (Only.refl _ s) rfl _ _)
    · split
      · exact h.of_ctxs rfl
      · split
        · exact State.G0Zero.writeReg (h.of_ctxs (State.withGcs_ctxs s _)) p _ _
        · exact h.writeReg p o v

theorem State.G0Zero.write64 (p : Bool) (o v : Nat) : (s.write64 p o v).G0Zero := by
  unfold State.write64
  split
  · exact h.of_only (State.writeMsix_only (State.writeMsix_only (Only.refl _ s) rfl _ _ _) rfl _ _ _)
  · split
    · exact h.of_only (State.writeDoorbell_only (Only.refl _ s) rfl _ _)
    · split
      · exact h.writeReg p o v
      · exact h

theorem State.G0Zero.execRegisterWrite (p : Bool) (offset : BitVec 26) (wide : Bool) (value : Word64) :
    NextG0Zero (execRegisterWrite p offset wide value s) := by
  have hleave : (s.leaveFor offset.toNat).G0Zero := h.of_only (State.leaveFor_only (Only.refl _ s) rfl _)
  exact nextG0Zero_ite (h.of_only (State.count32_only (Only.refl _ s) rfl _ _)).next <|
    nextG0Zero_ite h.next <| nextG0Zero_ite h.next <|
    nextG0Zero_ite (hleave.write64 p _ _).next (hleave.write32 p _ _).next

end Commands

/-- No command stores a value in g0: those whose footprint lists the machines step, load or clear them. -/
theorem State.G0Zero.exec {s : State} (h : s.G0Zero) (c : Instr) : NextG0Zero (exec c s) := by
  cases hc : decide (Field.ctxs ∈ footprint c) with
  | false => exact h.exec_of_footprint hc
  | true =>
    cases c
    case powerOn bifur cold => exact h.execPowerOn bifur cold
    case powerLoss => exact h.execPowerLoss
    case softReset key => exact h.execSoftReset key
    case chainReset b0 b1 => exact h.execChainReset b0 b1
    case deferredCommandStart src => exact h.execDeferredCommandStart src
    case fwCommit src => exact h.execFwCommit src
    case registerWrite p offset wide value => exact h.execRegisterWrite p offset wide value
    case lookupAccept cls => exact h.execLookupAccept cls
    case lookupComplete k => exact h.execLookupComplete k
    case reactionStart => exact h.execReactionStart
    case sLdt k rd ra n w words => exact h.execSLdt k rd ra n w words
    case sCrr k rd i => exact h.execSCrr k rd i
    case sCrw k ra i => exact h.execSCrw k ra i
    case sRaise k ra event => exact h.execSRaise k ra event
    case sAdd | sSub | sAnd | sOr | sXor | sShl | sShr | sAddi | sAndi | sOri | sXori | sShli | sShri | sMovi | sMovk | sMul | sMulhi
        | sDivm | sModr | sMix | sSltu | sSeq | sSel | sBz | sBnz | sBr | sSkeq | sSkne | sSklt | sPtest | sEmit | sFault | sDone =>
      exact (h.stepIns _ _).next
    case actHalt => exact (h.act _ _ _ _ fun u _ => State.halt_only (Only.refl _ u) rfl _).next
    case actPreserve => exact (h.act _ _ _ _ fun u _ => State.evalLog_only (State.preserve_only (Only.refl _ u) rfl _) rfl).next
    case actStopSet =>
      exact (h.act _ _ _ _ fun u _ => only_ite (fun _ => State.evalLog_only (State.stopSet_only (Only.refl _ u) rfl _) rfl)
        (fun _ => Only.refl _ u)).next
    case actFailPort => exact (h.act _ _ _ _ fun u _ => State.evalLog_only (State.failPort_only (Only.refl _ u) rfl _ _ _) rfl).next
    case actContainHost => exact (h.act _ _ _ _ fun u _ => State.contain_only (Only.refl _ u) rfl _ _).next
    case actClear =>
      exact (h.act _ _ _ _ fun u _ => only_ite (fun _ => State.clearAllSources_only (Only.refl _ u) rfl)
        (fun _ => State.clearSource_only (Only.refl _ u) rfl _)).next
    case actLife => exact (h.act _ _ _ _ fun u _ => State.appendLife_only (Only.refl _ u) rfl).next
    all_goals exact nomatch hc

theorem State.G0Zero.tick {s : State} (h : s.G0Zero) : (tick s).G0Zero := by
  unfold Sys2Proof.Machine.tick
  split
  · exact h
  · exact h.of_ctxs rfl

/-- Settles O9: a step is a core cycle, which leaves the machines alone, or the command in front. -/
theorem stepsKeepG0Zero : Obligations.StepsKeepG0Zero := by
  intro s t h e
  unfold step at e
  split at e
  · exact h.tick.next t e
  · exact State.G0Zero.exec (h.of_ctxs (State.withPending_ctxs s _)) _ t e

/-- Settles O4: at reset no machine holds a value, and no byte of the memories is written. -/
theorem resetKeepsTheInvariants : Obligations.ResetKeepsTheInvariants :=
  ⟨State.g0Zero_of_nil rfl, State.reset_wf⟩

end Sys2Proof.Machine
end

section
/-! PROOFS. Records of the Log (spec/04_the_log.md R110, R112, R120, R123, R131, R135; spec/14_pair_and_chain.md R403; spec/16 R469): what
appending records, raising faults and completing writes keep of the records and of the newest life record, what a commit of a record does,
and the statement about records, anchors and life records. -/

namespace Sys2Proof.Machine

/-! ## The Log grows -/

/-- The Log of t holds every record of s as it was, and the same newest life record. -/
structure LogGrew (s t : State) : Prop where
  recs : ∀ r ∈ s.log.recs, r ∈ t.log.recs
  life : t.log.life = s.log.life

theorem LogGrew.of_log {s t : State} (h : t.log = s.log) : LogGrew s t := by
  refine ⟨fun r hr => ?_, ?_⟩
  · rwa [h]
  · rw [h]

theorem LogGrew.refl (s : State) : LogGrew s s := .of_log rfl

theorem LogGrew.trans {s t u : State} (h : LogGrew s t) (k : LogGrew t u) : LogGrew s u :=
  ⟨fun r hr => k.recs r (h.recs r hr), k.life.trans h.life⟩

theorem LogGrew.foldl {α : Type} {f : State → α → State} (hf : ∀ s x, LogGrew s (f s x)) (l : List α) (s : State) :
    LogGrew s (l.foldl f s) := by
  induction l generalizing s with
  | nil => exact .refl s
  | cons x l ih => exact (hf s x).trans (ih (f s x))

/-! ### Records appended (R110, R111, R119, R120) -/

theorem State.anchorAhead_eq_or (s : State) (units : Nat) : s.anchorAhead units = s ∨ s.anchorAhead units = s.writeAnchor := by
  unfold State.anchorAhead
  repeat' split
  · exact .inl rfl
  · exact .inr rfl
  · exact .inl rfl

/-- The Log after a record is appended, the anchor that may go ahead of it apart. -/
theorem State.appendRec_log (s : State) (r : Rec) :
    (s.appendRec r).log.recs = s.log.recs ++ [{ r with seq := s.log.nextSeq, pos := s.log.head }] ∧
      (s.appendRec r).log.life = s.log.life := by
  simp only [State.appendRec]
  rcases State.anchorAhead_eq_or s r.units with h | h <;> rw [h]
  · split <;> exact ⟨rfl, rfl⟩
  · split <;> exact ⟨rfl, rfl⟩

theorem State.appendRec_grew (s : State) (r : Rec) : LogGrew s (s.appendRec r) := by
  obtain ⟨hrecs, hlife⟩ := State.appendRec_log s r
  exact ⟨fun q hq => hrecs ▸ List.mem_append_left _ hq, hlife⟩

/-- A life record is appended as it is written (R120). -/
theorem State.mem_appendLife (s : State) :
    { Rec.blank .life 6 with fixNs := s.wch.fixNs, seq := s.log.nextSeq, pos := s.log.head } ∈ s.appendLife.log.recs := by
  have hrecs := (State.appendRec_log s { Rec.blank .life 6 with fixNs := s.wch.fixNs }).1
  exact hrecs ▸ List.mem_append_right _ (.head _)

theorem State.appendLife_grew (s : State) : LogGrew s s.appendLife :=
  (State.appendRec_grew s { Rec.blank .life 6 with fixNs := s.wch.fixNs }).trans ⟨fun _ h => h, rfl⟩

/-! ### Faults at NOTE and WARN (R350, R470) -/

theorem State.leaveDock_of_not_dock {s : State} (h : s.gcs.phase ≠ .dock) : s.leaveDock = s := if_neg h

/-- Leaving Idle-dock may append the life record that it deferred (R469). -/
theorem State.leaveDock_grew (s : State) : LogGrew s s.leaveDock := by
  have hlife (v : Gcs) : LogGrew s (if 1 ∈ s.gcs.deferredCalendar then (s.withGcs v).appendLife else s.withGcs v) := by
    split
    · exact .trans (.of_log (State.withGcs_log s v)) (State.appendLife_grew _)
    · exact .of_log (State.withGcs_log s v)
  simp only [State.leaveDock]
  split
  · split
    · exact (hlife _).trans (.of_log rfl)
    · exact hlife _
  · exact .refl s

/-- Short of a halt, the reaction queue leaves the Log alone (R358). -/
theorem State.queueReaction_log (s : State) (f : FaultReq) {lvl : Level} (esc latched : Bool) (h : lvl ≠ .stop) :
    (s.queueReaction f lvl esc latched).1.log = s.log := by
  simp only [State.queueReaction, if_neg h]
  repeat' split
  all_goals rfl

theorem State.raiseOne_grew {s : State} {f : FaultReq} (h : f.low) : LogGrew s (s.raiseOne f).1 := by
  have hcalm : LogGrew s (if s.faultLevel f = .note then s else s.leaveDock) := by
    split
    · exact .refl s
    · exact State.leaveDock_grew s
  refine hcalm.trans (.of_log ?_)
  have hcapture (u : State) : (u.capture f).log = u.log :=
    State.capture_only (M := [.flt, .sources, .first]) (Only.refl _ u) rfl f .log (by decide)
  have hevent (u : State) (lvl : Level) : (u.faultEvent f lvl).1.log = u.log :=
    State.faultEvent_only (M := [.regs, .rings, .chn, .hpus, .out]) (Only.refl _ u) rfl f lvl .log (by decide)
  exact (State.queueReaction_log _ f _ _ (State.faultLevel_low s f h)).trans ((hevent _ _).trans (hcapture _))

theorem State.raiseFuel_grew (s : State) (n : Nat) (fs : List FaultReq) (h : ∀ f ∈ fs, f.low) : LogGrew s (s.raiseFuel n fs) := by
  induction n generalizing s fs with
  | zero => exact .refl s
  | succ n ih =>
    cases fs with
    | nil => exact .refl s
    | cons f rest =>
      have hf : f.low := h f (.head _)
      refine (State.raiseOne_grew hf).trans (ih _ _ fun g hg => ?_)
      rcases List.mem_append.1 hg with hrest | hmore
      · exact h g (.tail _ hrest)
      · exact (State.raiseOne_low s f hf).2 g hmore

theorem State.raiseAll_grew (s : State) {fs : List FaultReq} (h : ∀ f ∈ fs, f.low) : LogGrew s (s.raiseAll fs) :=
  State.raiseFuel_grew s _ _ fun f hf => h f (mem_orderFaults hf)

theorem State.raise_note_grew (s : State) (source detail : Byte) : LogGrew s (s.raise source .note detail) :=
  State.raiseAll_grew s fun f hf => .inl (by rw [List.mem_singleton.1 hf]; rfl)

/-! ### Writes that complete with OK (R126, R127) -/

/-- What a descriptor that ends with OK may change. -/
theorem State.endIo_ok_frame (s : State) (io : Io) (lba count : Nat) :
    Only [.regs, .rings, .ios, .pair, .hpus, .out] s (s.endIo io stOk 0 lba count).1 := by
  have hios : Only [.regs, .rings, .ios, .pair, .hpus, .out] s (s.withIos (s.ios.filter (fun j => j.id ≠ io.id))) :=
    only_withIos (Only.refl _ s) rfl
  unfold State.endIo
  refine only_iteFst (fun _ => only_ite (fun _ => ?_) (fun _ => hios)) (fun _ => ?_)
  · exact State.sendFlit_only hios rfl _ _ _
  · exact State.endDesc_only hios rfl _ _ _ _ _ _

theorem State.finishIo_ok_frame (s : State) (io : Io) (lba count : Nat) :
    Only (.ios :: lowParts) s (s.finishIo io stOk 0 lba count) :=
  ((State.endIo_ok_frame s io lba count).mono rfl).trans
    ((State.raiseAll_low _ _ fun _ hf => (State.endIo_faults s io _ _ _ _ _ hf).low).mono rfl)

theorem State.finishIo_ok_grew (s : State) (io : Io) (lba count : Nat) : LogGrew s (s.finishIo io stOk 0 lba count) :=
  .trans (.of_log (State.endIo_ok_frame s io lba count .log (by decide)))
    (State.raiseAll_grew _ fun _ hf => (State.endIo_faults s io _ _ _ _ _ hf).low)

theorem State.finishWrites_frame (s : State) : Only (.ios :: lowParts) s s.finishWrites :=
  only_foldl (Only.refl _ s) fun t io h => h.trans (State.finishIo_ok_frame t io _ _)

theorem State.finishWrites_grew (s : State) : LogGrew s s.finishWrites :=
  .foldl (fun t io => State.finishIo_ok_grew t io _ _) _ s

/-! ## The newest life record (R120) -/

theorem State.life_ite {c : Prop} [Decidable c] {a b : State} {v : Life} (ha : c → a.log.life = v) (hb : ¬c → b.log.life = v) :
    (if c then a else b).log.life = v := by
  split
  · exact ha ‹_›
  · exact hb ‹_›

theorem State.life_foldl {α : Type} {f : State → α → State} (hf : ∀ s x, (f s x).log.life = s.log.life) (l : List α) (s : State) :
    (l.foldl f s).log.life = s.log.life := by
  induction l generalizing s with
  | nil => rfl
  | cons x l ih => exact (ih (f s x)).trans (hf s x)

/-- Stripe commits append COMMIT records and release reserves: the newest life record stays (R131, R135). -/
theorem State.commitCoded_life (s : State) {c : CommitOp} (h : c.intent = none) (parity : List (Nat × Nat × Bytes)) :
    (s.commitCoded c parity).log.life = s.log.life := by
  simp only [State.commitCoded, h]
  exact (State.appendRec_log _ _).2

theorem State.commitReady_life (s : State) {c : CommitOp} (h : c.intent = none) : (s.commitReady c).log.life = s.log.life := by
  simp only [State.commitReady]
  split
  · rw [State.commitToRw_only (M := [.cht, .nextId, .commits, .passes]) (Only.refl _ s) rfl c .log (by decide)]
  · split
    · exact State.commitCoded_life s h _
    · rw [State.commitPass_only (M := [.nextId, .passes]) (Only.refl _ s) rfl c .log (by decide)]

theorem State.startCommit_life (s : State) (set : BitVec 6) (stripe : Nat) (plans : List RowPlan) :
    (s.startCommit set stripe plans).log.life = s.log.life := by
  cases plans with
  | nil => rfl
  | cons p plans =>
    simp only [State.startCommit]
    refine State.life_ite (fun _ => (State.commitReady_life _ (State.commitReads_intent ..)).trans ?_) (fun _ => ?_)
    all_goals
      exact congrArg Log.life (State.setCommit_only (M := [.cht, .nextId, .commits]) (State.commitReads_only
        (only_withCommits (only_withNextId (Only.refl _ s) rfl) rfl) rfl _ _) rfl _ .log (by decide))

theorem State.stripeCommit_life (s : State) (set : BitVec 6) (stripe rowFirst rowCount : Nat) :
    (s.stripeCommit set stripe rowFirst rowCount).log.life = s.log.life := by
  unfold State.stripeCommit
  exact State.life_ite (fun _ => rfl) (fun _ => State.life_foldl (fun t plans => State.startCommit_life t set stripe plans) _ s)

theorem State.answerAsks_life (s : State) : s.answerAsks.log.life = s.log.life :=
  State.life_foldl (f := fun t (k : LineKey) => t.stripeCommit k.set k.stripe k.row 1) (fun t _ => State.stripeCommit_life t _ _ _ _) _ _

/-- The tail's way past records, with the anchor and the life record that it may cause, leaves the newest life record (R110, R120). -/
theorem State.trimLog_life (s : State) : s.trimLog.log.life = s.log.life := by
  have hanchor (l : Log) (hl : l.life = s.log.life) :
      (if anchorUnits ≤ l.tailMoved then (s.withLog l).writeAnchor else s.withLog l).log.life = s.log.life :=
    State.life_ite (fun _ => hl) (fun _ => hl)
  simp only [State.trimLog]
  split
  · exact State.life_ite (fun _ => (State.appendLife_grew _).life.trans (hanchor _ rfl)) (fun _ => hanchor _ rfl)
  · exact hanchor _ rfl

/-! ## The evaluation of the Log (R135) -/

theorem State.evalLog_grew_answerAsks (s : State) : LogGrew s.answerAsks s.evalLog := by
  have hmarks (p q : Bool) : LogGrew s.answerAsks (s.answerAsks.withLog { s.answerAsks.log with full := p, paced := q }) :=
    ⟨fun _ h => h, rfl⟩
  simp only [State.evalLog]
  split
  · exact (hmarks _ _).trans (State.raise_note_grew _ _ _)
  · exact hmarks _ _

theorem State.evalLog_life (s : State) : s.evalLog.log.life = s.log.life :=
  (State.evalLog_grew_answerAsks s).life.trans (State.answerAsks_life s)

/-- While the cache asks for no stripe commit, evaluating the Log appends records at most. -/
theorem State.evalLog_grew {s : State} (h : s.scc.asks = []) : LogGrew s s.evalLog := by
  refine .trans (.of_log ?_) (State.evalLog_grew_answerAsks s)
  rw [State.answerAsks, h]
  rfl

/-! ## A record commits (R112, R403) -/

theorem State.mem_of_findRec {s : State} {n : Nat} {r : Rec} (h : s.findRec n = some r) : r ∈ s.log.recs :=
  List.mem_of_find?_eq_some h

theorem State.seq_of_findRec {s : State} {n : Nat} {r : Rec} (h : s.findRec n = some r) : r.seq = n := by
  simpa using List.find?_some h

theorem State.mem_modRec {s : State} {n : Nat} {q : Rec} (f : Rec → Rec) (h : q ∈ s.log.recs) (hn : q.seq = n) :
    f q ∈ (s.modRec n f).log.recs :=
  List.mem_map.2 ⟨q, h, if_pos hn⟩

/-- A record that was changed is found changed. -/
theorem State.findRec_modRec {s : State} {n : Nat} {r : Rec} {f : Rec → Rec} (hf : ∀ q, (f q).seq = q.seq)
    (h : s.findRec n = some r) : (s.modRec n f).findRec n = some (f r) := by
  have hsame : (fun q : Rec => decide ((if q.seq = n then f q else q).seq = n)) = fun q => decide (q.seq = n) := by
    funext q
    split <;> simp [hf]
  have hmap : (s.modRec n f).findRec n = (s.findRec n).map (fun q => if q.seq = n then f q else q) := by
    simp only [State.findRec, State.modRec, State.withLog_log, List.find?_map, Function.comp_def, hsame]
  rw [hmap, h, Option.map_some, if_pos (State.seq_of_findRec h)]

/-- A record's local copies are durable. -/
def State.localDurable (s : State) (r : Rec) : State := s.modRec r.seq (fun q => { q with localDone := true })

theorem State.findRec_localDurable {s : State} {n : Nat} {r : Rec} (h : s.findRec n = some r) :
    (s.localDurable r).findRec n = some { r with localDone := true } := by
  obtain rfl := State.seq_of_findRec h
  exact State.findRec_modRec (f := fun q => { q with localDone := true }) (fun _ => rfl) h

/-- A durable record that no earlier record of its rows holds back goes on to its commit, in PAIRED once its partner copy is durable. -/
theorem exec_recordCommit {s : State} {seq : Word64} {r : Rec} (hr : s.findRec seq.toNat = some r) (hst : r.status = .writing)
    (hf : r.filled = true) (ho : s.rowOrderHeld r = false) (hw : s.gcs.writeDrivers = true) :
    exec (.recordCommit seq) s = .next (if s.pair.state = .paired ∧ !r.partner then s.localDurable r
      else ((s.localDurable r).commitRecord r).evalLog) := by
  show execRecordCommit seq s = _
  simp only [execRecordCommit, hr]
  rw [if_neg (by simp [hst, hf, ho, hw])]
  exact (apply_ite Host.Outcome.next _ _ _).symm

theorem exec_recordCommit_alone {s : State} {seq : Word64} {r : Rec} (hr : s.findRec seq.toNat = some r) (hst : r.status = .writing)
    (hf : r.filled = true) (ho : s.rowOrderHeld r = false) (hw : s.gcs.writeDrivers = true) (hp : s.pair.state ≠ .paired) :
    exec (.recordCommit seq) s = .next ((s.localDurable r).commitRecord r).evalLog := by
  rw [exec_recordCommit hr hst hf ho hw, if_neg (fun h => hp h.1)]

/-- The record committed and counted, before what it makes durable takes effect. -/
def State.markCommitted (s : State) (r : Rec) : State :=
  (s.modRec r.seq (fun q => { q with status := .committed })).count64 Reg.logCommits 1

/-! ### DATA records (R301) -/

theorem State.dirtyLines_asks (s : State) (r : Rec) : (s.dirtyLines r).scc.asks = s.scc.asks := by
  have hkeys (l : List LineKey) : ∀ t : State, (l.foldl (fun t k => t.dropKey k) t).scc.asks = t.scc.asks := by
    induction l with
    | nil => exact fun _ => rfl
    | cons k l ih => exact fun t => ih (t.dropKey k)
  exact hkeys _ s

/-- The commit of a record keeps what its write waits for on the drives. -/
theorem State.throughOf_ioCommitted {s : State} {r : Rec} (h : ∀ io ∈ s.ios, r.seq ∉ io.waitWrites) :
    (s.ioCommitted r).throughOf r = false := by
  have hwait : ∀ io ∈ (s.ioCommitted r).ios, r.seq ∉ io.waitWrites := by
    unfold State.ioCommitted
    split
    · exact h
    · intro io hio
      obtain ⟨j, hj, rfl⟩ := List.mem_map.1 hio
      split
      · exact h j hj
      · exact h j hj
  rw [State.throughOf, List.any_eq_false]
  exact fun io hio => by simp [hwait io hio]

/-- The lines of a DATA record dirty, and its write told. -/
def State.dataCommitted (s : State) (r : Rec) : State := ((s.markCommitted r).dirtyLines r).ioCommitted r

theorem State.commitRecord_data {s : State} {r : Rec} (ht : r.typ = .data) (h : ∀ io ∈ s.ios, r.seq ∉ io.waitWrites) :
    s.commitRecord r = (s.dataCommitted r).finishWrites := by
  have hios : ((s.markCommitted r).dirtyLines r).ios = s.ios :=
    State.dirtyLines_only (M := [.scc]) (Only.refl _ (s.markCommitted r)) rfl r .ios (by decide)
  have hthrough : (s.dataCommitted r).throughOf r = false := State.throughOf_ioCommitted (by rwa [hios])
  unfold State.commitRecord
  simp only [ht]
  exact congrArg State.finishWrites (if_neg (by rw [Bool.not_eq_true]; exact hthrough))

theorem State.dataCommitted_log (s : State) (r : Rec) : (s.dataCommitted r).log = (s.markCommitted r).log :=
  State.ioCommitted_only (M := [.scc, .ios]) (State.dirtyLines_only (Only.refl _ _) rfl r) rfl r .log (by decide)

theorem State.dataCommitted_asks (s : State) (r : Rec) : (s.dataCommitted r).scc.asks = s.scc.asks := by
  rw [State.dataCommitted, State.ioCommitted_only (M := [.ios]) (Only.refl _ _) rfl r .scc (by decide)]
  exact State.dirtyLines_asks (s.markCommitted r) r

theorem State.commitRecord_data_grew {s : State} {r : Rec} (ht : r.typ = .data) (h : ∀ io ∈ s.ios, r.seq ∉ io.waitWrites)
    (ha : s.scc.asks = []) : LogGrew (s.markCommitted r) (s.commitRecord r).evalLog := by
  rw [State.commitRecord_data ht h]
  refine .trans (.of_log (State.dataCommitted_log s r)) (.trans (State.finishWrites_grew _) (State.evalLog_grew ?_))
  rw [State.finishWrites_frame (s.dataCommitted r) .scc (by decide), State.dataCommitted_asks, ha]

/-! ### Life records (R120) -/

theorem Log.lifeCommitted_newest {l : Log} {n : Nat} {v : Life} (hv : l.lives.find? (fun w => w.seq = n) = some v)
    (hn : l.life.seq < n) : (l.lifeCommitted n).life = v := by
  simp only [Log.lifeCommitted, hv, if_pos hn]

theorem State.commitRecord_life {s : State} {r : Rec} (ht : r.typ = .life) :
    (s.commitRecord r).log.life = ((s.markCommitted r).log.lifeCommitted r.seq).life := by
  unfold State.commitRecord
  simp only [ht]
  exact State.trimLog_life _

/-! ## Anchors and due life records (R110, R120, R469) -/

/-- An anchor names the tail, with the next EPOCH, in the next slot (R110). -/
theorem State.get_writeAnchor (s : State) : Tab.get s.writeAnchor.log.anchors none s.log.anchorSlot =
    some { pos := s.log.tailPos, seq := s.log.tailSeq, epoch := s.log.epoch + 1, watchHw := s.log.watchHw, fixNs := s.wch.fixNs } := by
  simp only [State.writeAnchor, State.withLog_log, Tab.get_set_self]

theorem exec_anchor {s : State} (hc : s.haltClosed = false) (hd : s.gcs.phase ≠ .dock) : exec .anchor s = .next s.writeAnchor := by
  show execAnchor s = _
  rw [execAnchor, hc, State.leaveDock_of_not_dock hd]
  rfl

theorem exec_lifeRecordDue {s : State} (h : s.gcs.phase ≠ .dock) : exec .lifeRecordDue s = .next s.appendLife.evalLog := if_neg h

theorem exec_lifeRecordDue_dock {s : State} (h : s.gcs.phase = .dock) :
    exec .lifeRecordDue s = .next (s.withGcs { s.gcs with deferredCalendar := withElem s.gcs.deferredCalendar 1 }) := if_pos h

/-- Settles O33: a record that commits stays in the Log while what its commit causes is done, a life record's tail and stripe commits
leave the newest one, and the other commands are their equations. -/
theorem recordsCommit : Obligations.RecordsCommit := by
  unfold Obligations.RecordsCommit
  refine ⟨?data, ?life, ?paired, ?anchor, ?due, ?dueInDock⟩
  case data =>
    intro seq r s hr hst ho hf ha hw hp ht hio
    refine ⟨_, exec_recordCommit_alone hr hst hf ho hw hp, { r with localDone := true, status := .committed }, ?_, rfl, rfl, ht, rfl⟩
    refine (State.commitRecord_data_grew (s := s.localDurable r) ht hio ha).recs _ ?_
    exact State.mem_modRec (fun q => { q with status := .committed })
      (State.mem_modRec (fun q => { q with localDone := true }) (State.mem_of_findRec hr) rfl) rfl
  case life =>
    intro seq r v s hr hst hf hw hp ht hv hnew
    have ho : s.rowOrderHeld r = false := by simp [State.rowOrderHeld, ht]
    refine ⟨_, exec_recordCommit_alone hr hst hf ho hw hp, ?_⟩
    show ((s.localDurable r).commitRecord r).evalLog.log.life = v
    rw [State.evalLog_life, State.commitRecord_life ht]
    exact Log.lifeCommitted_newest (l := ((s.localDurable r).markCommitted r).log) hv hnew
  case paired =>
    intro seq r s hr hst ho hf hw hp hpart
    refine ⟨s.localDurable r, ?_, ?_, List.length_map _, State.modRec_only (Only.refl _ s) rfl _ _⟩
    · rw [exec_recordCommit hr hst hf ho hw, if_pos (by simp [hp, hpart])]
    · exact State.findRec_localDurable hr
  case anchor =>
    intro s hc hd
    exact ⟨_, exec_anchor hc hd, State.get_writeAnchor s, rfl, rfl, State.writeAnchor_only (Only.refl _ s) rfl⟩
  case due =>
    intro s hd ha
    have hasks : s.appendLife.scc.asks = [] := by
      rw [State.appendLife_only (M := [.regs, .log, .pair, .out]) (Only.refl _ s) rfl .scc (by decide), ha]
    exact ⟨_, exec_lifeRecordDue hd, _, (State.evalLog_grew hasks).recs _ (State.mem_appendLife s), rfl, rfl, rfl⟩
  case dueInDock =>
    intro s hd
    exact ⟨_, exec_lifeRecordDue_dock hd, mem_withElem _ _, rfl, rfl⟩

end Sys2Proof.Machine
end

section
/-! PROOFS. FAULT_CLEAR of every source (spec/08_command_packets.md R259; spec/12 R354): what it does to a table of sources in canonical
form, and a state whose table is not, where the count of a source changes, so that the statement about the service commands fails. -/

namespace Sys2Proof.Machine

/-! ## Every entry of a table changed -/

theorem Tab.get_of_rising {α : Type} {t : Tab α} (d : α) {b k : Nat} (h : Tab.rising (some b) t = true) (hk : k ≤ b) :
    Tab.get t d k = d := by
  induction t with
  | nil => rfl
  | cons e t ih =>
    obtain ⟨j, v⟩ := e
    simp only [Tab.rising, Bool.and_eq_true, decide_eq_true_eq] at h
    obtain ⟨hj, ht⟩ := h
    rw [Tab.get, if_neg (by omega)]
    exact ih (Tab.rising_le hj.le ht)

/-- In a table with rising keys each key reads what f gives, when f keeps what an unlisted key reads as. -/
theorem Tab.get_mapV {α : Type} [DecidableEq α] {t : Tab α} {d : α} {f : Nat → α → α} (hd : ∀ k, f k d = d) {b : Option Nat}
    (h : Tab.rising b t = true) (k : Nat) : (t.mapV d f).get d k = f k (t.get d k) := by
  induction t generalizing b with
  | nil => exact (hd k).symm
  | cons e t ih =>
    obtain ⟨j, v⟩ := e
    have ht : Tab.rising (some j) t = true := (Bool.and_eq_true_iff.1 h).2
    have hrest : Tab.get (Tab.mapV t d f) d k = f k (Tab.get t d k) := ih ht
    by_cases hj : j = k
    · subst hj
      by_cases hv : f j v = d
      · rw [Tab.mapV, if_pos hv, hrest, Tab.get_of_rising d ht le_rfl, hd, Tab.get, if_pos rfl, hv]
      · rw [Tab.mapV, if_neg hv, Tab.get, if_pos rfl, Tab.get, if_pos rfl]
    · have hskip : Tab.get ((j, v) :: t) d k = Tab.get t d k := if_neg hj
      rw [hskip, Tab.mapV]
      split
      · exact hrest
      · exact (if_neg hj).trans hrest

/-! ## FAULT_CLEAR with ALL (R354) -/

/-- Served, it leaves the table of sources with every entry cleared. -/
theorem exec_faultClear_all {s : State} {src : CmdSrc} {pkt : Bytes} (h : Ready s src 0x0803 pkt) (hall : (byteAt pkt 0x11).toNat = 1) :
    ∃ t, exec (.faultClear src) s = .next t ∧ ∀ n, t.src n = s.clearAllSources.src n := by
  refine answers_of_ready (i := .faultClear src) rfl h ?fields (List.forall_mem_nil _) fun n => ?sources
  case fields => simp [hall]
  case sources =>
    refine State.src_of_sources ?_ n
    rw [if_pos hall]
    exact State.share_only (M := [.regs, .rings, .interp, .hpus, .pair, .out])
      (State.reply_only (Only.refl _ s.clearAllSources) rfl src pkt stOk 0 []) rfl s 0x0803 .sources (by decide)

/-- A canonical table of sources keeps its counts, and every source is closed. -/
theorem faultClear_all_of_wf {s : State} {src : CmdSrc} {pkt : Bytes} (h : Ready s src 0x0803 pkt) (hall : (byteAt pkt 0x11).toNat = 1)
    (hwf : s.flt.srcs.wf SrcState.at0 = true) :
    Answers (.faultClear src) s (fun t => ∀ n, (t.src n).isOpen = false ∧ (t.src n).count = (s.src n).count) := by
  obtain ⟨t, ht, hsrc⟩ := exec_faultClear_all h hall
  refine ⟨t, ht, fun n => ?_⟩
  have hclear : t.src n = { s.src n with isOpen := false, openLevel := .note, lastDetail := 0 } :=
    (hsrc n).trans (Tab.get_mapV (fun _ => rfl) (Bool.and_eq_true_iff.1 hwf).1 n.toNat)
  rw [hclear]
  exact ⟨rfl, rfl⟩

/-! ### A table that lists a source twice -/

/-- FAULT_CLEAR with ALL 1. -/
def clearAllPacket : Bytes := [0x03, 0x08] ++ fill 15 0 ++ [1] ++ fill 110 0

/-- A controller in phase RUNNING, the packet at its chain port, whose table of sources lists source 0x01 twice: as never raised, which is
what it reads as, and below that with a count of 1. -/
def listsSourceTwice : State :=
  { State.reset with
      gcs := { Gcs.at0 with phase := .running },
      flt := { State.reset.flt with srcs := [(1, SrcState.at0), (1, { SrcState.at0 with count := 1 })] },
      interp := { State.reset.interp with srcs := [(srcKey .chain, [clearAllPacket])] } }

theorem ready_listsSourceTwice : Ready listsSourceTwice .chain 0x0803 clearAllPacket := by
  refine ⟨rfl, rfl, cmdRow 0x0803 true false false [(0x10, 2)], rfl, rfl, by decide +kernel, ?denials, rfl⟩
  simp only [State.denials, List.forall_mem_cons]
  exact ⟨failIf_eq_none rfl _ _, failIf_eq_none rfl _ _, failIf_eq_none rfl _ _, List.forall_mem_nil _⟩

/-- Clearing drops the entry in front, equal to the default, and the source reads the one below it. -/
theorem count_clearAllSources_listsSourceTwice :
    (listsSourceTwice.src 1).count = 0 ∧ (listsSourceTwice.clearAllSources.src 1).count = 1 := by decide

/-- Refutes O42: its third clause speaks of every state, also one whose table of sources is not in canonical form. FAULT_CLEAR with ALL
on a table that lists source 0x01 twice makes its count 1 from 0. On a canonical table the clause holds (`faultClear_all_of_wf`). -/
theorem not_serviceCommands : ¬ Obligations.ServiceCommands := by
  unfold Obligations.ServiceCommands
  rintro ⟨-, -, hclause, -⟩
  obtain ⟨u, hu, hcount⟩ := hclause .chain listsSourceTwice clearAllPacket ready_listsSourceTwice (by decide)
  obtain ⟨t, ht, hsrc⟩ := exec_faultClear_all ready_listsSourceTwice (by decide)
  obtain rfl : u = t := Host.Outcome.next.inj (hu.symm.trans ht)
  obtain ⟨hbefore, hafter⟩ := count_clearAllSources_listsSourceTwice
  obtain ⟨-, hkept⟩ := hcount 1
  rw [hsrc] at hkept
  omega

end Sys2Proof.Machine
end

section
/-! PROOFS. Fix time and the timer states (spec/05_watches_and_fix.md R149 to R153, R161): what a core cycle adds to fix time, what the
entry to a timer state and a step of fix time change, what an edge of FIX_PPS and a time of day do, and the two statements about them. -/

namespace Sys2Proof.Machine

/-! ## The core cycle (R149, R153) -/

/-- Fix time in tenths of a picosecond. -/
def Wch.fixTenths (w : Wch) : Nat := w.fixNs.toNat * 10000 + w.fracPs

theorem Wch.fixTenths_advance {w : Wch} (hfix : w.fixNs.toNat + 2 < 2 ^ 64) (hfrac : w.fracPs < 10000) :
    w.advance.fixTenths = w.fixTenths + cycleTenths w := by
  have hcycle : cycleTenths w ≤ 8000 := by unfold cycleTenths; split <;> decide
  have hcarry : (w.fracPs + cycleTenths w) / 10000 ≤ 1 := by omega
  have hns : w.advance.fixNs.toNat = w.fixNs.toNat + (w.fracPs + cycleTenths w) / 10000 := by
    simp only [Wch.advance, BitVec.toNat_add, BitVec.toNat_ofNat]
    omega
  have hps : w.advance.fracPs = (w.fracPs + cycleTenths w) % 10000 := rfl
  unfold Wch.fixTenths
  omega

theorem step_idle {s : State} (h : s.pending = []) : step s = .next (tick s) := by
  unfold step
  rw [h]

theorem tick_of_unstarted {s : State} (h : s.wch.fixNs = 0) : tick s = s := if_pos h

theorem tick_of_started {s : State} (h : s.wch.fixNs ≠ 0) : tick s = s.withWch s.wch.advance := if_neg h

/-- Settles O2: an idle step is a tick, which advances fix time once it has started. -/
theorem idleStepAdvancesFixTimeOnly : Obligations.IdleStepAdvancesFixTimeOnly := by
  unfold Obligations.IdleStepAdvancesFixTimeOnly
  intro s h
  refine ⟨_, step_idle h, tick_only (Only.refl _ s) rfl, tick_of_unstarted, fun hstarted hfix hfrac => ?_⟩
  rw [tick_of_started hstarted]
  exact Wch.fixTenths_advance hfix hfrac

/-! ## Entry to a timer state (R150, R161, R162) -/

/-- The Watch Timer as it enters another state. -/
def Wch.entered (w : Wch) (t : TimerState) : Wch :=
  { w with timer := t, edgeAnchored := false, consecutive := 0, rejectedRun := 0, beyond := if t = .locked then false else w.beyond,
           holdS := 0, closing := false, gapTenths := 0, holdoverSeen := w.holdoverSeen || decide (t ≠ .locked) }

theorem State.enterTimer_of_ne {s : State} {t : TimerState} (h : s.wch.timer ≠ t) : s.enterTimer t = s.withWch (s.wch.entered t) :=
  if_neg h

/-- The Watch Timer as it enters HOLDOVER: the constant term, and the rate that is the larger of the floor and the drift in LOCKED. -/
def State.heldOver (s : State) (base : Nat) : Wch :=
  { s.wch.entered .holdover with holdBase := base, holdRate := max (s.regField Reg.wchHold 0 16) s.wch.maxDrift }

theorem State.enterHoldover_of_ne {s : State} (h : s.wch.timer ≠ .holdover) (base : Nat) :
    s.enterHoldover base = s.withWch (s.heldOver base) := by
  simp only [State.enterHoldover, State.enterTimer_of_ne h]
  rfl

theorem State.stepFix_of_le {s : State} {ns : Nat} (h : s.wch.fixNs.toNat ≤ ns) :
    s.stepFix ns = s.withWch { s.wch with fixNs := BitVec.ofNat 64 ns, fracPs := 0 } := if_pos h

/-! ## Faults of the Watch Timer -/

/-- The Watch Timer raises faults at NOTE and WARN only, which leave it alone. -/
theorem State.raise_wch (s : State) (source detail : Byte) {level : Level} (h : level = .note ∨ level = .warn) :
    (s.raise source level detail).wch = s.wch :=
  State.raise_low s source level detail h .wch (by decide)

/-- The states that the loss of FIX_PPS ends (R153). -/
def TimerState.followsFix (t : TimerState) : Prop := t = .locked ∨ t = .acquiring ∨ t = .slewing

/-- The level of the fault that the loss of FIX_PPS raises (R153). -/
def TimerState.lossLevel (t : TimerState) : Level := if t = .locked then .warn else .note

theorem State.fixLost_of_followsFix {s : State} (h : s.wch.timer.followsFix) :
    s.fixLost = (s.withWch (s.heldOver 100)).raise 0xD8 s.wch.timer.lossLevel 1 := by
  have hne : s.wch.timer ≠ .holdover := by rcases h with e | e | e <;> rw [e] <;> decide
  rcases h with e | e | e <;> simp only [State.fixLost, e, State.enterHoldover_of_ne hne] <;> rfl

theorem State.fixLost_wch {s : State} (h : s.wch.timer.followsFix) : s.fixLost.wch = s.heldOver 100 := by
  rw [State.fixLost_of_followsFix h]
  refine State.raise_wch _ _ _ ?_
  unfold TimerState.lossLevel
  split
  · exact .inr rfl
  · exact .inl rfl

theorem State.faulted_fixLost {s t : State} (h : t.wch.timer.followsFix) (e : t.src 0xD8 = s.src 0xD8) :
    s.Faulted t.fixLost 0xD8 1 := by
  rw [State.fixLost_of_followsFix h]
  have hsrc : (t.withWch (t.heldOver 100)).src 0xD8 = s.src 0xD8 := e
  exact State.Faulted.raise hsrc _ 1 (by decide) (by decide) (by decide)

theorem State.src_fixLost {s : State} (h : s.wch.timer.followsFix) {n : Byte} (hn : n ∉ ([0xD8, 0x02, 0x24, 0x25] : List Byte)) :
    s.fixLost.src n = s.src n := by
  simp only [List.mem_cons, List.not_mem_nil, or_false, not_or] at hn
  obtain ⟨h1, h2, h3, h4⟩ := hn
  rw [State.fixLost_of_followsFix h]
  exact State.raise_other _ _ n _ 1 h1 h2 h3 h4

theorem answers_fixPpsLost {s : State} (h : s.wch.timer.followsFix) :
    Answers .fixPpsLost s (fun t => t.wch.timer = .holdover ∧ t.wch.fixNs = s.wch.fixNs ∧ t.wch.holdS = 0 ∧
      t.wch.holdRate = max (s.regField Reg.wchHold 0 16) s.wch.maxDrift ∧ s.Faulted t 0xD8 1) := by
  have hwch := State.fixLost_wch h
  refine ⟨s.fixLost, rfl, ?_, ?_, ?_, ?_, State.faulted_fixLost h rfl⟩ <;> rw [hwch] <;> rfl

/-! ## The window of an edge (R150) -/

theorem Wch.inWindow_eq_false {w : Wch} {interval : Nat} (ht : w.timer = .locked ∨ w.timer = .slewing)
    (hi : interval + 1000 < 1000000000 ∨ 1000001000 < interval) : w.inWindow interval = false := by
  rcases ht with e | e <;> simp only [Wch.inWindow, e, Bool.and_eq_false_iff, decide_eq_false_iff_not] <;> omega

theorem Wch.inWindow_of_steady {w : Wch} {interval : Nat} (ht : w.timer = .locked ∨ w.timer = .slewing)
    (hlo : 999999000 ≤ interval) (hhi : interval ≤ 1000001000) : w.inWindow interval = true := by
  rcases ht with e | e <;> simp only [Wch.inWindow, e, Bool.and_eq_true, decide_eq_true_eq] <;> omega

/-- An edge 1 s after the last one is in the window of LOCKED. -/
theorem Wch.inWindow_of_exact {w : Wch} (ht : w.timer = .locked) : w.inWindow 1000000000 = true :=
  Wch.inWindow_of_steady (.inl ht) (Nat.le_add_right _ 1000) (Nat.le_add_right _ 1000)

theorem Wch.inWindow_of_running {w : Wch} {interval : Nat} (ht : w.timer = .acquiring ∨ w.timer = .holdover)
    (hlo : 999900000 ≤ interval) (hhi : interval ≤ 1000100000) : w.inWindow interval = true := by
  have h1 : 1000000000 ≤ interval + 100000 := by omega
  have h2 : interval ≤ 1000000000 + 100000 := by omega
  rcases ht with e | e <;> simp [Wch.inWindow, e, h1, h2]

/-! ## Rejected edges of FIX_PPS (R150, R153) -/

/-- The Watch Timer after an edge outside the window. -/
def Wch.edgeRejected (w : Wch) : Wch :=
  { w with ppsReject := (w.ppsReject + 1) % 2 ^ 32, rejectedRun := w.rejectedRun + 1, consecutive := 0 }

/-- An edge outside the window, counted and reported. -/
def State.rejectEdge (s : State) : State :=
  (s.withWch s.wch.edgeRejected).raise 0xDA .note (BitVec.ofNat 8 ((s.wch.ppsReject + 1) % 2 ^ 32))

theorem State.rejectEdge_wch (s : State) : s.rejectEdge.wch = s.wch.edgeRejected := State.raise_wch _ _ _ (.inl rfl)

theorem State.faulted_rejectEdge (s : State) : s.Faulted s.rejectEdge 0xDA (BitVec.ofNat 8 ((s.wch.ppsReject + 1) % 2 ^ 32)) := by
  have hsrc : (s.withWch s.wch.edgeRejected).src 0xDA = s.src 0xDA := rfl
  exact State.Faulted.raise hsrc _ _ (by decide) (by decide) (by decide)

theorem State.src_rejectEdge (s : State) : s.rejectEdge.src 0xD8 = s.src 0xD8 :=
  State.raise_other _ _ _ _ _ (by decide) (by decide) (by decide) (by decide)

section Edge
variable {s : State} {interval : Nat} (lead : Int) (jit : Nat) (hon : s.regBit Reg.wchCtl 0 = true)

include hon in
theorem exec_fixPpsEdge_rejected (hw : s.wch.inWindow interval = false) :
    exec (.fixPpsEdge (!s.regBit Reg.wchCtl 1) interval lead jit) s =
      .next (if 3 ≤ s.wch.rejectedRun + 1 then s.rejectEdge.fixLost else s.rejectEdge) := by
  show execFixPpsEdge _ _ _ _ s = _
  rw [execFixPpsEdge, if_neg (by simp [hon]), if_pos (by simp [hw])]
  rfl

/-! ## Accepted edges of FIX_PPS (R150, R153) -/

/-- The Watch Timer after an edge inside the window, before what the edge leads to. -/
def Wch.edgeAccepted (w : Wch) (interval : Nat) (lead : Int) (jit : Nat) : Wch :=
  { w with ppsCount := (w.ppsCount + 1) % 2 ^ 32, offsetNs := lead, rejectedRun := 0, edgeAnchored := true,
           consecutive := if w.alwaysAccepted interval then 1 else w.consecutive + 1,
           maxDrift := if w.timer = .locked then jit else w.maxDrift }

/-- An edge inside the window, counted with its offset. -/
def State.acceptEdge (s : State) (interval : Nat) (lead : Int) (jit : Nat) : State :=
  s.withWch (s.wch.edgeAccepted interval lead jit)

include hon in
theorem exec_fixPpsEdge_untimed (hw : s.wch.inWindow interval = true) (htod : s.wch.tod = none) :
    exec (.fixPpsEdge (!s.regBit Reg.wchCtl 1) interval lead jit) s =
      .next ((s.acceptEdge interval lead jit).edgeTransition lead) := by
  show execFixPpsEdge _ _ _ _ s = _
  rw [execFixPpsEdge, if_neg (by simp [hon]), if_neg (by simp [hw])]
  dsimp only
  split
  case h_1 v hv => exact nomatch htod.symm.trans hv
  case h_2 => rfl

include hon in
/-- An edge 10 µs or more after the value arrived is the one that the value names (R151). -/
theorem exec_fixPpsEdge_timed {v : Word64} (hw : s.wch.inWindow interval = true) (htod : s.wch.tod = some v) (hsrc : s.wch.todSrc = none)
    (harr : s.wch.todArrival.toNat + 10000 ≤ s.wch.fixNs.toNat) :
    exec (.fixPpsEdge (!s.regBit Reg.wchCtl 1) interval lead jit) s =
      .next ((s.acceptEdge interval lead jit).applyTod v.toNat none true) := by
  show execFixPpsEdge _ _ _ _ s = _
  rw [execFixPpsEdge, if_neg (by simp [hon]), if_neg (by simp [hw])]
  dsimp only
  split
  case h_1 w hw =>
    obtain rfl : v = w := Option.some.inj (htod.symm.trans hw)
    rw [State.withWch_wch, if_pos harr, hsrc]
    rfl
  case h_2 hnone => exact nomatch htod.symm.trans hnone

end Edge

/-- An edge in a run, after three, makes four. -/
theorem Wch.edgeAccepted_consecutive {w : Wch} {interval : Nat} (ht : w.timer = .acquiring ∨ w.timer = .holdover)
    (ha : w.edgeAnchored = true) (hc : 3 ≤ w.consecutive) (hhi : interval ≤ 1000100000) (hr : w.rejectedRun < 3) (lead : Int)
    (jit : Nat) : 4 ≤ (w.edgeAccepted interval lead jit).consecutive := by
  have h1 : ¬ 1500000000 ≤ interval := by omega
  have h2 : ¬ 3 ≤ w.rejectedRun := by omega
  have hfresh : w.alwaysAccepted interval = false := by
    rcases ht with e | e <;> simp [Wch.alwaysAccepted, e, ha, h1, h2]
  simp only [Wch.edgeAccepted, hfresh]
  exact Nat.succ_le_succ hc

/-! ### Edges that name no time of day -/

/-- The Watch Timer stepped forward to an edge that it is behind of. -/
def Wch.steppedTo (w : Wch) (lead : Int) : Wch :=
  if lead < 0 then { w with fixNs := BitVec.ofNat 64 (w.fixNs.toNat + (-lead).toNat), fracPs := 0 } else w

theorem Wch.steppedTo_fixNs {w : Wch} {lead : Int} (h : w.fixNs.toNat + (-lead).toNat < 2 ^ 64) :
    (w.steppedTo lead).fixNs.toNat = w.fixNs.toNat + (-lead).toNat := by
  unfold Wch.steppedTo
  split
  · exact Nat.mod_eq_of_lt h
  · omega

theorem Wch.steppedTo_kept (w : Wch) (lead : Int) : (w.steppedTo lead).timer = w.timer ∧ (w.steppedTo lead).ppsCount = w.ppsCount ∧
    (w.steppedTo lead).offsetNs = w.offsetNs := by
  unfold Wch.steppedTo
  split <;> exact ⟨rfl, rfl, rfl⟩

theorem State.withWch_steppedTo (s : State) (lead : Int) :
    (if lead < 0 then s.stepFix (s.wch.fixNs.toNat + (-lead).toNat) else s) = s.withWch (s.wch.steppedTo lead) := by
  unfold Wch.steppedTo
  split
  · exact State.stepFix_of_le (Nat.le_add_right _ _)
  · rfl

section Fourth
variable {s : State} {lead : Int} (ht : s.wch.timer = .acquiring ∨ s.wch.timer = .holdover) (hc : 4 ≤ s.wch.consecutive)
include ht hc

/-- The fourth edge in a row locks a timer that leads by at most 100 ns. -/
theorem State.edgeTransition_lock (hl : lead ≤ 100) :
    s.edgeTransition lead = s.withWch ((s.wch.steppedTo lead).entered .locked) := by
  have hne : (s.withWch (s.wch.steppedTo lead)).wch.timer ≠ .locked := by
    rw [State.withWch_wch, (s.wch.steppedTo_kept lead).1]
    rcases ht with e | e <;> rw [e] <;> decide
  have hlock : s.edgeTransition lead = (s.withWch (s.wch.steppedTo lead)).enterTimer .locked := by
    rw [← State.withWch_steppedTo]
    rcases ht with e | e <;> simp only [State.edgeTransition, e, if_pos hc, if_pos hl]
  rw [hlock, State.enterTimer_of_ne hne]
  rfl

theorem State.edgeTransition_slew (hl : 100 < lead) : s.edgeTransition lead = s.withWch (s.wch.entered .slewing) := by
  have hne : s.wch.timer ≠ .slewing := by rcases ht with e | e <;> rw [e] <;> decide
  rw [← State.enterTimer_of_ne hne]
  rcases ht with e | e <;> simp only [State.edgeTransition, e, if_pos hc, if_neg (Int.not_le.2 hl)]

end Fourth

theorem State.edgeTransition_slewed {s : State} {lead : Int} (ht : s.wch.timer = .slewing) (hl : -100 ≤ lead ∧ lead ≤ 100) :
    s.edgeTransition lead = s.withWch (s.wch.entered .locked) := by
  have hne : s.wch.timer ≠ .locked := by rw [ht]; decide
  rw [← State.enterTimer_of_ne hne]
  simp only [State.edgeTransition, ht, if_pos hl]

/-! ## A time of day (R151) -/

/-- The Watch Timer with no value pending. -/
def Wch.todTaken (w : Wch) : Wch := { w with tod := none, todSrc := none }

/-- The value that was pending is taken, whether it is applied or not. -/
def State.takeTod (s : State) : State := s.withWch s.wch.todTaken

/-- A value taken, then reported by 0xDB. -/
theorem State.faulted_takeTod (s : State) (d : Byte) : s.Faulted (s.takeTod.raise 0xDB .note d) 0xDB d := by
  have hsrc : s.takeTod.src 0xDB = s.src 0xDB := rfl
  exact State.Faulted.raise hsrc .note d (by decide) (by decide) (by decide)

theorem State.takeTod_raise_wch (s : State) (d : Byte) : (s.takeTod.raise 0xDB .note d).wch = s.wch.todTaken :=
  State.raise_wch s.takeTod 0xDB d (.inl rfl)

theorem State.replyTod_none (s : State) (status detail : Byte) (result : Bytes) : s.replyTod none status detail result = s := rfl

section Tod
variable {s : State} {v : Word64}

/-- A value more than 1 s behind the timer is refused. -/
theorem State.applyTod_refused (h : v.toNat + 1000000000 < s.wch.fixNs.toNat) :
    s.applyTod v.toNat none true = s.takeTod.raise 0xDB .note 1 := by
  have hd : (v.toNat : Int) - s.wch.fixNs.toNat < -1000000000 := by omega
  simp only [State.applyTod, if_pos hd]
  rfl

/-- A value at an edge that is taken: a timer ahead of it is slewed, one behind it steps forward, from UNSET into ACQUIRING. -/
theorem State.applyTod_taken (h : s.wch.fixNs.toNat ≤ v.toNat + 1000000000) :
    s.applyTod v.toNat none true =
      if v.toNat < s.wch.fixNs.toNat then s.takeTod.enterTimer .slewing
      else if s.wch.timer = .unset then (s.takeTod.stepFix v.toNat).enterTimer .acquiring
      else s.takeTod.stepFix v.toNat := by
  have hd : ¬ (v.toNat : Int) - s.wch.fixNs.toNat < -1000000000 := by omega
  rw [State.applyTod, if_neg hd]
  dsimp only
  rw [if_pos rfl, State.replyTod_none]
  by_cases hv : v.toNat < s.wch.fixNs.toNat
  · have hneg : (v.toNat : Int) - s.wch.fixNs.toNat < 0 := by omega
    rw [if_neg (Int.not_le.2 hneg), if_pos hneg, if_pos hv]
    rfl
  · have hpos : 0 ≤ (v.toNat : Int) - s.wch.fixNs.toNat := by omega
    rw [if_pos hpos, if_neg (Int.not_lt.2 hpos), if_neg hv]
    rfl

theorem State.applyTod_slew (hb : v.toNat < s.wch.fixNs.toNat) (ha : s.wch.fixNs.toNat ≤ v.toNat + 1000000000)
    (ht : s.wch.timer ≠ .slewing) : s.applyTod v.toNat none true = s.withWch (s.wch.todTaken.entered .slewing) := by
  rw [State.applyTod_taken ha, if_pos hb]
  exact State.enterTimer_of_ne ht

/-- The Watch Timer stepped forward to a value that was pending (R149, R151). -/
def Wch.todReached (w : Wch) (v : Word64) : Wch := { w.todTaken with fixNs := v, fracPs := 0 }

theorem State.stepFix_todTaken (hv : s.wch.fixNs.toNat ≤ v.toNat) :
    s.takeTod.stepFix v.toNat = s.withWch (s.wch.todReached v) := by
  have hle : s.takeTod.wch.fixNs.toNat ≤ v.toNat := hv
  rw [State.stepFix_of_le hle, BitVec.ofNat_toNat, BitVec.setWidth_eq]
  rfl

theorem State.applyTod_acquire (hv : s.wch.fixNs.toNat ≤ v.toNat) (ht : s.wch.timer = .unset) :
    s.applyTod v.toNat none true = s.withWch ((s.wch.todReached v).entered .acquiring) := by
  have hne : (s.withWch (s.wch.todReached v)).wch.timer ≠ .acquiring := by
    show s.wch.timer ≠ .acquiring
    rw [ht]
    decide
  rw [State.applyTod_taken (by omega), if_neg (by omega), if_pos ht, State.stepFix_todTaken hv, State.enterTimer_of_ne hne]
  rfl

end Tod

/-! ## What each event leads to -/

theorem onlyTimer_withWch (s : State) (w : Wch) : Only [.wch, .timer] s (s.withWch w) := only_withWch (Only.refl _ s) rfl (.inl rfl)

section Rejected
variable {s : State} {interval : Nat} (hon : s.regBit Reg.wchCtl 0 = true) (ht : s.wch.timer = .locked ∨ s.wch.timer = .slewing)
  (hi : interval + 1000 < 1000000000 ∨ 1000001000 < interval)
include hon ht hi

theorem answers_fixPpsEdge_rejected (hr : s.wch.rejectedRun < 2) (lead : Int) (jit : Nat) :
    Answers (.fixPpsEdge (!s.regBit Reg.wchCtl 1) interval lead jit) s (fun t =>
      t.wch.ppsReject = (s.wch.ppsReject + 1) % 2 ^ 32 ∧ t.wch.timer = s.wch.timer ∧ t.wch.fixNs = s.wch.fixNs ∧
      s.Faulted t 0xDA (BitVec.ofNat 8 ((s.wch.ppsReject + 1) % 2 ^ 32))) := by
  have hexec := exec_fixPpsEdge_rejected lead jit hon (Wch.inWindow_eq_false ht hi)
  rw [if_neg (by omega)] at hexec
  have hwch := s.rejectEdge_wch
  refine ⟨_, hexec, ?_, ?_, ?_, s.faulted_rejectEdge⟩ <;> rw [hwch] <;> rfl

/-- The third rejected edge in a row loses the fix. -/
theorem answers_fixPpsEdge_lost (hr : s.wch.rejectedRun = 2) (lead : Int) (jit : Nat) :
    Answers (.fixPpsEdge (!s.regBit Reg.wchCtl 1) interval lead jit) s (fun t =>
      t.wch.ppsReject = (s.wch.ppsReject + 1) % 2 ^ 32 ∧ t.wch.timer = .holdover ∧ t.wch.fixNs = s.wch.fixNs ∧
      s.Faulted t 0xDA (BitVec.ofNat 8 ((s.wch.ppsReject + 1) % 2 ^ 32)) ∧ s.Faulted t 0xD8 1) := by
  have hexec := exec_fixPpsEdge_rejected lead jit hon (Wch.inWindow_eq_false ht hi)
  rw [if_pos (by omega)] at hexec
  have hwas := s.rejectEdge_wch
  have hfollows : s.rejectEdge.wch.timer.followsFix := by
    rw [hwas]
    exact ht.imp id .inr
  have hwch := State.fixLost_wch hfollows
  refine ⟨_, hexec, ?_, ?_, ?_, s.faulted_rejectEdge.of_src (State.src_fixLost hfollows (by decide)),
    State.faulted_fixLost hfollows s.src_rejectEdge⟩
  · rw [hwch, State.heldOver, hwas]
    rfl
  · rw [hwch]
    rfl
  · rw [hwch, State.heldOver, hwas]
    rfl

end Rejected

section Accepted
variable {s : State} {interval : Nat} {lead : Int} {jit : Nat} (hon : s.regBit Reg.wchCtl 0 = true)

section Untimed
variable (htod : s.wch.tod = none)

section Fourth
variable (ht : s.wch.timer = .acquiring ∨ s.wch.timer = .holdover) (ha : s.wch.edgeAnchored = true) (hc : 3 ≤ s.wch.consecutive)
  (hlo : 999900000 ≤ interval) (hhi : interval ≤ 1000100000) (hr : s.wch.rejectedRun < 3)
include hon htod ht ha hc hlo hhi hr

theorem answers_fixPpsEdge_lock (hl : lead ≤ 100) (hfix : s.wch.fixNs.toNat + (-lead).toNat < 2 ^ 64) :
    Answers (.fixPpsEdge (!s.regBit Reg.wchCtl 1) interval lead jit) s (fun t =>
      t.wch.timer = .locked ∧ t.wch.beyond = false ∧ t.wch.ppsCount = (s.wch.ppsCount + 1) % 2 ^ 32 ∧ t.wch.offsetNs = lead ∧
      t.wch.fixNs.toNat = s.wch.fixNs.toNat + (-lead).toNat ∧ Only [.wch, .timer] s t) := by
  have hexec := exec_fixPpsEdge_untimed lead jit hon (Wch.inWindow_of_running ht hlo hhi) htod
  have hfour := Wch.edgeAccepted_consecutive ht ha hc hhi hr lead jit
  rw [State.edgeTransition_lock (s := s.acceptEdge interval lead jit) ht hfour hl] at hexec
  obtain ⟨-, hcount, hoffset⟩ := (s.wch.edgeAccepted interval lead jit).steppedTo_kept lead
  exact ⟨_, hexec, rfl, rfl, hcount, hoffset, Wch.steppedTo_fixNs hfix, onlyTimer_withWch s _⟩

theorem answers_fixPpsEdge_slew (hl : 100 < lead) :
    Answers (.fixPpsEdge (!s.regBit Reg.wchCtl 1) interval lead jit) s (fun t =>
      t.wch.timer = .slewing ∧ t.wch.fixNs = s.wch.fixNs ∧ Only [.wch, .timer] s t) := by
  have hexec := exec_fixPpsEdge_untimed lead jit hon (Wch.inWindow_of_running ht hlo hhi) htod
  have hfour := Wch.edgeAccepted_consecutive ht ha hc hhi hr lead jit
  rw [State.edgeTransition_slew (s := s.acceptEdge interval lead jit) ht hfour hl] at hexec
  exact ⟨_, hexec, rfl, rfl, onlyTimer_withWch s _⟩

end Fourth

include hon htod in
theorem answers_fixPpsEdge_slewed (ht : s.wch.timer = .slewing) (hlo : 999999000 ≤ interval) (hhi : interval ≤ 1000001000)
    (hl : -100 ≤ lead ∧ lead ≤ 100) :
    Answers (.fixPpsEdge (!s.regBit Reg.wchCtl 1) interval lead jit) s (fun t =>
      t.wch.timer = .locked ∧ t.wch.fixNs = s.wch.fixNs ∧ Only [.wch, .timer] s t) := by
  have hexec := exec_fixPpsEdge_untimed lead jit hon (Wch.inWindow_of_steady (.inr ht) hlo hhi) htod
  rw [State.edgeTransition_slewed (s := s.acceptEdge interval lead jit) ht hl] at hexec
  exact ⟨_, hexec, rfl, rfl, onlyTimer_withWch s _⟩

end Untimed

section Timed
variable {v : Word64} (htod : s.wch.tod = some v) (hsrc : s.wch.todSrc = none)
  (harr : s.wch.todArrival.toNat + 10000 ≤ s.wch.fixNs.toNat)
include hon htod hsrc harr

theorem answers_fixPpsEdge_acquire (ht : s.wch.timer = .unset) (ha : s.wch.edgeAnchored = false)
    (hv : s.wch.fixNs.toNat ≤ v.toNat) :
    Answers (.fixPpsEdge (!s.regBit Reg.wchCtl 1) interval lead jit) s (fun t =>
      t.wch.timer = .acquiring ∧ t.wch.fixNs = v ∧ t.wch.tod = none ∧ Only [.wch, .timer] s t) := by
  have hwin : s.wch.inWindow interval = true := by simp [Wch.inWindow, ht, ha]
  have hexec := exec_fixPpsEdge_timed lead jit hon hwin htod hsrc harr
  rw [State.applyTod_acquire (s := s.acceptEdge interval lead jit) hv ht] at hexec
  exact ⟨_, hexec, rfl, rfl, rfl, onlyTimer_withWch s _⟩

theorem answers_fixPpsEdge_ahead (ht : s.wch.timer = .locked) (hb : v.toNat < s.wch.fixNs.toNat)
    (hs : s.wch.fixNs.toNat ≤ v.toNat + 1000000000) :
    Answers (.fixPpsEdge (!s.regBit Reg.wchCtl 1) 1000000000 lead jit) s (fun t =>
      t.wch.timer = .slewing ∧ t.wch.fixNs = s.wch.fixNs ∧ t.wch.tod = none ∧ Only [.wch, .timer] s t) := by
  have hne : s.wch.timer ≠ .slewing := by rw [ht]; decide
  have hexec := exec_fixPpsEdge_timed lead jit hon (Wch.inWindow_of_exact ht) htod hsrc harr
  rw [State.applyTod_slew (s := s.acceptEdge 1000000000 lead jit) hb hs hne] at hexec
  exact ⟨_, hexec, rfl, rfl, rfl, onlyTimer_withWch s _⟩

theorem answers_fixPpsEdge_refused (ht : s.wch.timer = .locked) (hs : v.toNat + 1000000000 < s.wch.fixNs.toNat) :
    Answers (.fixPpsEdge (!s.regBit Reg.wchCtl 1) 1000000000 lead jit) s (fun t =>
      t.wch.timer = .locked ∧ t.wch.fixNs = s.wch.fixNs ∧ t.wch.tod = none ∧ s.Faulted t 0xDB 1) := by
  have hexec := exec_fixPpsEdge_timed lead jit hon (Wch.inWindow_of_exact ht) htod hsrc harr
  rw [State.applyTod_refused (s := s.acceptEdge 1000000000 lead jit) hs] at hexec
  have hwch := (s.acceptEdge 1000000000 lead jit).takeTod_raise_wch 1
  have hfault : s.Faulted ((s.acceptEdge 1000000000 lead jit).takeTod.raise 0xDB .note 1) 0xDB 1 :=
    (s.acceptEdge 1000000000 lead jit).faulted_takeTod 1
  refine ⟨_, hexec, ?_, ?_, ?_, hfault⟩ <;> rw [hwch]
  · exact ht
  · rfl
  · rfl

end Timed
end Accepted

theorem exec_todLapse {s : State} (h : s.wch.tod ≠ none) (hsrc : s.wch.todSrc = none) :
    exec .todLapse s = .next (s.takeTod.raise 0xDB .note 3) := by
  obtain ⟨v, hv⟩ := Option.ne_none_iff_exists'.1 h
  show execTodLapse s = _
  simp only [execTodLapse, hv, hsrc, State.replyTod_none]
  rfl

theorem answers_todLapse {s : State} (h : s.wch.tod ≠ none) (hsrc : s.wch.todSrc = none) :
    Answers .todLapse s (fun t => t.wch.tod = none ∧ t.wch.fixNs = s.wch.fixNs ∧ s.Faulted t 0xDB 3) := by
  refine ⟨_, exec_todLapse h hsrc, ?_, ?_, s.faulted_takeTod 3⟩ <;> rw [s.takeTod_raise_wch 3] <;> rfl

theorem answers_gapClosed (s : State) :
    Answers .gapClosed s (fun t =>
      t.wch.closing = false ∧ t.wch.gapTenths = 0 ∧ t.wch.fixNs = s.wch.fixNs ∧ Only [.wch, .timer] s t) :=
  ⟨_, rfl, rfl, rfl, rfl, onlyTimer_withWch s _⟩

/-- Settles O31: each edge, loss, time of day and closed gap has its lemma above. -/
theorem fixEdgesAndTimeOfDay : Obligations.FixEdgesAndTimeOfDay := by
  unfold Obligations.FixEdgesAndTimeOfDay
  refine ⟨?rejected, ?lock, ?slew, ?slewed, ?lost, ?thirdRejected, ?acquire, ?ahead, ?refused, fun _ => answers_todLapse,
    answers_gapClosed⟩
  case rejected => exact fun _ lead jit _ hon ht hi hr => answers_fixPpsEdge_rejected hon ht hi hr lead jit
  case lock =>
    intro interval lead jit s hon htod ht ha hc hlo hhi hr hl hfix
    exact answers_fixPpsEdge_lock hon htod ht ha hc hlo hhi hr hl hfix
  case slew =>
    intro interval lead jit s hon htod ht ha hc hlo hhi hr hl
    exact answers_fixPpsEdge_slew hon htod ht ha hc hlo hhi hr hl
  case slewed =>
    intro interval lead jit s hon htod ht hlo hhi hl hl'
    exact answers_fixPpsEdge_slewed hon htod ht hlo hhi ⟨hl, hl'⟩
  case lost => exact fun _ h => answers_fixPpsLost h
  case thirdRejected => exact fun _ lead jit _ hon ht hi hr => answers_fixPpsEdge_lost hon ht hi hr lead jit
  case acquire =>
    intro v interval lead jit s hon htod hsrc ht ha harr hv
    exact answers_fixPpsEdge_acquire hon htod hsrc harr ht ha hv
  case ahead =>
    intro v lead jit s hon htod hsrc ht harr hb hs
    exact answers_fixPpsEdge_ahead hon htod hsrc harr ht hb hs
  case refused =>
    intro v lead jit s hon htod hsrc ht harr hs
    exact answers_fixPpsEdge_refused hon htod hsrc harr ht hs

end Sys2Proof.Machine
end

section
/-! PROOFS. Frames of the Tilel chain (spec/14_pair_and_chain.md R406, R413 to R419, R422; spec/05_watches_and_fix.md R151; spec/17 R477):
which registers and outputs reporting a fault leaves alone, what each frame does in each of its cases, and the statement about them. -/

namespace Sys2Proof.Machine

/-! ## What reporting a fault leaves of the registers and the outputs (R350, R356, R358) -/

/-- The counters that the report of a fault may advance: chain frames and flits sent, reactions merged and dropped. -/
def reportCounters : List Nat := [Reg.chnFramesTx, Reg.pairFlitsTx, Reg.fltRxCoalesced, Reg.fltRxDropped]

/-- From s to t no other register changed, and nothing that had left was lost. -/
structure Reported (s t : State) : Prop where
  reg : ∀ o, o ∉ reportCounters → t.reg o = s.reg o
  out : s.out <:+ t.out

theorem State.reg_of_regs {s t : State} (hr : t.regs = s.regs) (hp : t.gcs.part = s.gcs.part) (o : Nat) : t.reg o = s.reg o := by
  unfold State.reg
  rw [hr, hp]

theorem Reported.of_regs {s t : State} (hr : t.regs = s.regs) (hp : t.gcs.part = s.gcs.part) (ho : s.out <:+ t.out) :
    Reported s t :=
  ⟨fun o _ => State.reg_of_regs hr hp o, ho⟩

theorem Reported.of_only {M : List Field} {s t : State} (h : Only M s t)
    (hM : Field.regs ∉ M ∧ Field.part ∉ M ∧ Field.out ∉ M) : Reported s t := by
  obtain ⟨hregs, hpart, hout⟩ := hM
  exact .of_regs (h .regs hregs) (h .part hpart) ⟨[], (h .out hout).symm⟩

theorem Reported.refl (s : State) : Reported s s := ⟨fun _ _ => rfl, List.suffix_rfl⟩

theorem Reported.trans {s t u : State} (h : Reported s t) (k : Reported t u) : Reported s u :=
  ⟨fun o ho => (k.reg o ho).trans (h.reg o ho), h.out.trans k.out⟩

theorem Reported.regN {s t : State} (h : Reported s t) {o : Nat} (ho : o ∉ reportCounters) : t.regN o = s.regN o :=
  congrArg BitVec.toNat (h.reg o ho)

theorem Reported.setRegN (s : State) {o : Nat} (h : o ∈ reportCounters) (v : Nat) : Reported s (s.setRegN o v) :=
  ⟨fun _ hq => State.reg_setReg_other s _ fun e => hq (e ▸ h), List.suffix_rfl⟩

/-! ### Records and flits -/

theorem State.notify_suffix (s : State) (r : RingId) (k : Nat) : s.out <:+ (s.notify r k).out := by
  obtain ⟨l, h⟩ := State.notify_out s r k
  exact ⟨l, h.symm⟩

theorem State.writeRecord_suffix (s : State) (p : Bool) (r : EventRecord) : s.out <:+ (s.writeRecord p r).1.out := by
  refine List.IsSuffix.trans ?_ (State.notify_suffix _ (.event p) 1)
  rw [State.hostOut_out]
  exact List.suffix_cons ..

theorem State.postTo_suffix (s : State) (p : Bool) (r : EventRecord) : s.out <:+ (s.postTo p r).1.out := by
  simp only [State.postTo]
  repeat' split
  case isFalse.isTrue => exact State.writeRecord_suffix s p r
  all_goals exact List.suffix_rfl

theorem State.postBoth_reported (s : State) (r : EventRecord) : Reported s (s.postBoth r).1 := by
  have h : Only [.rings, .hpus, .out] s (s.postBoth r).1 := State.postBoth_only (Only.refl _ s) rfl r
  exact .of_regs (h .regs (by decide)) (h .part (by decide)) ((State.postTo_suffix s false r).trans (State.postTo_suffix _ true r))

theorem State.sendFlit_reported (s : State) (typ arg : Nat) (data : Bytes) : Reported s (s.sendFlit typ arg data) := by
  refine ⟨fun o ho => ?_, List.suffix_cons ..⟩
  have hne : o ≠ Reg.pairFlitsTx := fun e => ho (by simp [e, reportCounters])
  exact State.reg_setReg_other _ _ hne

theorem State.originate_reported (s : State) (typ : Byte) (payload : Bytes) : Reported s (s.originate typ payload) := by
  have hcount : Reported s (s.count32 Reg.chnFramesTx 1) := .setRegN s (by decide) _
  exact hcount.trans (.of_regs rfl rfl (List.suffix_cons ..))

theorem State.faultEvent_reported (s : State) (f : FaultReq) (lvl : Level) : Reported s (s.faultEvent f lvl).1 := by
  unfold State.faultEvent
  split
  · exact .refl s
  · dsimp only
    split
    · exact (State.originate_reported s ..).trans (State.postBoth_reported ..)
    · exact State.postBoth_reported ..

/-! ### Idle-dock left (R470) -/

theorem State.appendRec_reported (s : State) (r : Rec) : Reported s (s.appendRec r) := by
  have hmirrored {u : State} (h : Reported s u) (pos : Nat) :
      Reported s (if u.pair.state = .paired then u.sendFlit 2 pos [] else u) := by
    split
    · exact h.trans (State.sendFlit_reported ..)
    · exact h
  have hahead : Only [.log] s (s.anchorAhead r.units) := State.anchorAhead_only (Only.refl _ s) rfl r.units
  refine hmirrored (.of_only (M := [.log]) ?_ (by decide)) _
  refine State.countUnits_only (only_withLog hahead rfl ?banks) rfl _ _
  case banks => exact .inr rfl

theorem State.appendLife_reported (s : State) : Reported s s.appendLife :=
  (State.appendRec_reported s { Rec.blank .life 6 with fixNs := s.wch.fixNs }).trans (.of_regs rfl rfl List.suffix_rfl)

theorem State.leaveDock_reported (s : State) : Reported s s.leaveDock := by
  have hlife (v : Gcs) (hv : v.part = s.gcs.part) :
      Reported s (if 1 ∈ s.gcs.deferredCalendar then (s.withGcs v).appendLife else s.withGcs v) := by
    have hgcs : Reported s (s.withGcs v) := .of_regs rfl hv List.suffix_rfl
    split
    · exact hgcs.trans (State.appendLife_reported _)
    · exact hgcs
  have hrun := hlife { s.gcs with phase := .running, deferredCalendar := [] } rfl
  simp only [State.leaveDock]
  split
  · split
    · exact hrun.trans (.of_regs rfl rfl List.suffix_rfl)
    · exact hrun
  · exact .refl s

/-! ### Faults at NOTE and WARN -/

theorem State.queueReaction_reported (s : State) (f : FaultReq) {lvl : Level} (esc latched : Bool) (h : lvl ≠ .stop) :
    Reported s (s.queueReaction f lvl esc latched).1 := by
  have hsame {u : State} (hr : u.regs = s.regs) (hp : u.gcs = s.gcs) (ho : u.out = s.out) : Reported s u :=
    .of_regs hr (congrArg Gcs.part hp) ⟨[], ho.symm⟩
  simp only [State.queueReaction, if_neg h]
  repeat' split
  · exact .refl s
  · exact (Reported.setRegN s (by decide) _).trans (.of_regs rfl rfl List.suffix_rfl)
  · exact hsame rfl rfl rfl
  · exact .setRegN s (by decide) _

theorem State.raiseOne_reported {s : State} {f : FaultReq} (h : f.low) : Reported s (s.raiseOne f).1 := by
  have hcalm : Reported s (if s.faultLevel f = .note then s else s.leaveDock) := by
    split
    · exact .refl s
    · exact State.leaveDock_reported s
  have hcapture (u : State) : Reported u (u.capture f) :=
    .of_only (State.capture_only (M := [.flt, .sources, .first]) (Only.refl _ u) rfl f) (by decide)
  exact ((hcalm.trans (hcapture _)).trans (State.faultEvent_reported ..)).trans
    (State.queueReaction_reported _ f _ _ (State.faultLevel_low s f h))

theorem State.raiseFuel_reported (s : State) (n : Nat) (fs : List FaultReq) (h : ∀ f ∈ fs, f.low) : Reported s (s.raiseFuel n fs) := by
  induction n generalizing s fs with
  | zero => exact .refl s
  | succ n ih =>
    cases fs with
    | nil => exact .refl s
    | cons f rest =>
      have hf : f.low := h f (.head _)
      refine (State.raiseOne_reported hf).trans (ih _ _ fun g hg => ?_)
      rcases List.mem_append.1 hg with hrest | hmore
      · exact h g (.tail _ hrest)
      · exact (State.raiseOne_low s f hf).2 g hmore

theorem State.raise_reported (s : State) (source detail : Byte) {level : Level} (h : level = .note ∨ level = .warn) :
    Reported s (s.raise source level detail) :=
  State.raiseFuel_reported s _ _ fun f hf => by
    rw [List.mem_singleton.1 (mem_orderFaults hf)]
    exact h

/-! ## Registers, frames and addresses -/

theorem State.regN_count32_other (s : State) {o q : Nat} (n : Nat) (h : q ≠ o) : (s.count32 o n).regN q = s.regN q :=
  congrArg BitVec.toNat (State.reg_setReg_other s _ h)

/-- A frame answered: it was counted, and its answer left. -/
theorem answered_frame (s : State) (typ seq : Byte) (payload : Bytes) :
    (s.frameIn.sendFrame typ seq payload).out = .chainFrame typ seq payload :: s.out ∧
      Only [.regs, .out] s (s.frameIn.sendFrame typ seq payload) :=
  ⟨rfl, State.sendFrame_only (State.frameIn_only (Only.refl _ s) rfl) rfl typ seq payload⟩

/-! ## CMD frames (R416) -/

/-- The packet of a CMD frame queued as the command in execution. -/
def State.queueCmd (s : State) (seq : Byte) (packet : Bytes) : State :=
  (s.withInterp { s.interp with chainBusySeq := some seq }).setSrcQueue .chain (s.srcQueue .chain ++ [packet])

theorem State.queueCmd_srcQueue (s : State) (seq : Byte) (packet : Bytes) :
    (s.queueCmd seq packet).srcQueue .chain = s.srcQueue .chain ++ [packet] := Tab.get_set_self ..

theorem State.queueCmd_only {M : List Field} {s0 s : State} (h : Only M s0 s) (hM : sub [.interp] M = true) (seq : Byte)
    (packet : Bytes) : Only M s0 (s.queueCmd seq packet) := by
  refine State.setSrcQueue_only (only_withInterp h hM ?scratch) hM _ _
  case scratch => exact .inr rfl

section Cmd
variable {s : State} {packet : Bytes} (hon : s.onChain = true) (hlen : packet.length = 128)
include hon hlen

theorem exec_chainCmd_busy {q : Byte} (hb : s.interp.chainBusySeq = some q) (seq : Byte) :
    exec (.chainCmd seq packet) s =
      .next (if q = seq then s else (s.count32 Reg.chnBusyDrops 1).raise 0xD6 .note seq) := by
  show execChainCmd seq packet s = _
  rw [execChainCmd, if_neg (by simp [hon, hlen]), hb]
  dsimp only
  split <;> rfl

theorem exec_chainCmd_idle (hb : s.interp.chainBusySeq = none) (hd : s.gcs.phase ≠ .dock) (seq : Byte) :
    exec (.chainCmd seq packet) s =
      .next (if s.interp.chainLastSeq = some seq then s.frameIn.sendFrame 0x81 seq s.interp.chainReply
        else s.frameIn.queueCmd seq packet) := by
  have hphase : s.frameIn.gcs.phase ≠ .dock := hd
  show execChainCmd seq packet s = _
  rw [execChainCmd, if_neg (by simp [hon, hlen]), hb]
  dsimp only
  rw [State.leaveDock_of_not_dock hphase]
  by_cases hlast : s.interp.chainLastSeq = some seq
  · rw [if_pos hlast]
    exact if_pos hlast
  · rw [if_neg hlast]
    exact if_neg hlast

theorem answers_chainCmd_queued (hb : s.interp.chainBusySeq = none) {seq : Byte} (hlast : s.interp.chainLastSeq ≠ some seq)
    (hd : s.gcs.phase ≠ .dock) :
    Answers (.chainCmd seq packet) s (fun t => t.srcQueue .chain = s.srcQueue .chain ++ [packet] ∧ t.interp.chainBusySeq = some seq ∧
      t.regN Reg.chnFramesRx = (s.regN Reg.chnFramesRx + 1) % 2 ^ 32 ∧ Only [.regs, .interp] s t) := by
  have hexec := exec_chainCmd_idle hon hlen hb hd seq
  rw [if_neg hlast] at hexec
  have hframes : (s.frameIn.queueCmd seq packet).regN Reg.chnFramesRx = s.frameIn.regN Reg.chnFramesRx := rfl
  exact ⟨_, hexec, s.frameIn.queueCmd_srcQueue seq packet, rfl, hframes.trans (State.regN_count32 ..),
    State.queueCmd_only (State.frameIn_only (Only.refl _ s) rfl) rfl seq packet⟩

theorem answers_chainCmd_dropped {q seq : Byte} (hb : s.interp.chainBusySeq = some q) (hne : q ≠ seq) :
    Answers (.chainCmd seq packet) s (fun t => t.interp = s.interp ∧ s.Faulted t 0xD6 seq ∧
      t.regN Reg.chnBusyDrops = (s.regN Reg.chnBusyDrops + 1) % 2 ^ 32) := by
  have hexec := exec_chainCmd_busy hon hlen hb seq
  rw [if_neg hne] at hexec
  have hsrc : (s.count32 Reg.chnBusyDrops 1).src 0xD6 = s.src 0xD6 := rfl
  have hreported := State.raise_reported (s.count32 Reg.chnBusyDrops 1) 0xD6 seq (.inl rfl)
  refine ⟨_, hexec, ?interp, State.Faulted.raise hsrc .note seq (by decide) (by decide) (by decide), ?drops⟩
  case interp => exact State.raise_low (s.count32 Reg.chnBusyDrops 1) 0xD6 .note seq (.inl rfl) .interp (by decide)
  case drops => exact (hreported.regN (by decide)).trans (State.regN_count32 ..)

theorem answers_chainCmd_repeated {seq : Byte} (hb : s.interp.chainBusySeq = none) (hlast : s.interp.chainLastSeq = some seq)
    (hd : s.gcs.phase ≠ .dock) :
    Answers (.chainCmd seq packet) s (fun t => t.interp = s.interp ∧ t.out = .chainFrame 0x81 seq s.interp.chainReply :: s.out ∧
      Only [.regs, .out] s t) := by
  have hexec := exec_chainCmd_idle hon hlen hb hd seq
  rw [if_pos hlast] at hexec
  exact ⟨_, hexec, rfl, answered_frame s ..⟩

end Cmd

/-! ## SCRATCH frames (R415) -/

theorem scratchOk_iff {offset len : Nat} : scratchOk offset len = true ↔
    offset % 4 = 0 ∧ len % 4 = 0 ∧ 1 ≤ len ∧ len ≤ 256 ∧ offset + len ≤ 65536 := by
  simp [scratchOk, and_assoc]

section Scratch
variable {s : State} (hon : s.onChain = true)
include hon

theorem exec_scratchWrite (seq : Byte) (offset : Half) (data : Bytes) :
    exec (.scratchWrite seq offset data) s = .next (if scratchOk offset.toNat data.length then
      (s.frameIn.withInterp { s.interp with scratch := Memory.writeBytes s.interp.scratch offset.toNat data }).sendFrame 0x82 seq [0]
      else s.frameIn.sendFrame 0x82 seq [stBadField]) := by
  show execScratchWrite seq offset data s = _
  rw [execScratchWrite, if_neg (by simp [hon])]
  dsimp only
  split <;> rfl

theorem exec_scratchRead (seq : Byte) (offset count : Half) :
    exec (.scratchRead seq offset count) s = .next (s.frameIn.sendFrame 0x83 seq (if scratchOk offset.toNat count.toNat then
      Memory.readBytes s.interp.scratch offset.toNat count.toNat else [stBadField])) := by
  show execScratchRead seq offset count s = _
  rw [execScratchRead, if_neg (by simp [hon])]
  dsimp only
  split <;> rfl

theorem answers_scratchWrite {offset : Half} {data : Bytes} (h : scratchOk offset.toNat data.length = true) (seq : Byte) :
    Answers (.scratchWrite seq offset data) s (fun t => t.out = .chainFrame 0x82 seq [0] :: s.out ∧
      (∀ i, i < data.length → Memory.read t.interp.scratch (offset.toNat + i) = data.getD i 0) ∧
      (∀ a, (a < offset.toNat ∨ offset.toNat + data.length ≤ a) → Memory.read t.interp.scratch a = Memory.read s.interp.scratch a) ∧
      Only [.regs, .interp, .scratch, .out] s t) := by
  have hexec := exec_scratchWrite hon seq offset data
  rw [if_pos h] at hexec
  refine ⟨_, hexec, rfl, fun i hi => ?inside, fun a ha => ?outside, ?frame⟩
  case inside => exact (Memory.read_writeBytes ..).trans (by rw [if_pos (by omega), Nat.add_sub_cancel_left])
  case outside => exact (Memory.read_writeBytes ..).trans (if_neg (by omega))
  case frame =>
    exact State.sendFrame_only (only_withInterp (State.frameIn_only (Only.refl _ s) rfl) rfl (.inl rfl)) rfl _ _ _

theorem answers_scratchWrite_refused {offset : Half} {data : Bytes} (h : scratchOk offset.toNat data.length = false) (seq : Byte) :
    Answers (.scratchWrite seq offset data) s (fun t =>
      t.out = .chainFrame 0x82 seq [stBadField] :: s.out ∧ Only [.regs, .out] s t) := by
  have hexec := exec_scratchWrite hon seq offset data
  rw [if_neg (by simp [h])] at hexec
  exact ⟨_, hexec, answered_frame s ..⟩

theorem answers_scratchRead {offset count : Half} (h : scratchOk offset.toNat count.toNat = true) (seq : Byte) :
    Answers (.scratchRead seq offset count) s (fun t => t.out = .chainFrame 0x83 seq
      ((List.range count.toNat).map (fun i => Memory.read s.interp.scratch (offset.toNat + i))) :: s.out ∧ Only [.regs, .out] s t) := by
  have hexec := exec_scratchRead hon seq offset count
  rw [if_pos h, Memory.readBytes_eq] at hexec
  exact ⟨_, hexec, answered_frame s ..⟩

theorem answers_scratchRead_refused {offset count : Half} (h : scratchOk offset.toNat count.toNat = false) (seq : Byte) :
    Answers (.scratchRead seq offset count) s (fun t =>
      t.out = .chainFrame 0x83 seq [stBadField] :: s.out ∧ Only [.regs, .out] s t) := by
  have hexec := exec_scratchRead hon seq offset count
  rw [if_neg (by simp [h])] at hexec
  exact ⟨_, hexec, answered_frame s ..⟩

/-! ## PROBE and ALERT_ACK (R406, R415, R419) -/

theorem answers_chainProbe (seq src : Byte) (side : Bool) :
    Answers (.chainProbe seq src side) s (fun t => t.out = .chainFrame 0x88 seq
      [BitVec.ofNat 8 s.pair.state.code, if s.pair.link then 0 else 1] :: s.out ∧ Only [.regs, .out] s t) := by
  have hlink : BitVec.ofNat 8 (ofBool (!s.pair.link)) = if s.pair.link then 0 else 1 := by cases s.pair.link <;> rfl
  have hexec : exec (.chainProbe seq src side) s =
      .next (s.frameIn.sendFrame 0x88 seq [BitVec.ofNat 8 s.pair.state.code, BitVec.ofNat 8 (ofBool (!s.pair.link))]) :=
    if_neg (by simp [hon])
  rw [hlink] at hexec
  exact ⟨_, hexec, answered_frame s ..⟩

theorem answers_alertAck :
    Answers .alertAck s (fun t => t.chn = { s.chn with alert := false } ∧ Only [.regs, .chn] s t) := by
  have hexec : exec .alertAck s = .next s.frameIn.clearAlert := if_pos hon
  exact ⟨_, hexec, rfl, State.clearAlert_only (State.frameIn_only (Only.refl _ s) rfl) rfl⟩

end Scratch

theorem answers_alertClr {s : State} (hc : s.haltClosed = false) (hd : s.gcs.phase ≠ .dock) :
    Answers .alertClr s (fun t => t.chn = { s.chn with alert := false } ∧ Only [.chn] s t) := by
  have hexec : exec .alertClr s = .next s.leaveDock.clearAlert := if_neg (by simp [hc])
  rw [State.leaveDock_of_not_dock hd] at hexec
  exact ⟨_, hexec, rfl, State.clearAlert_only (Only.refl _ s) rfl⟩

/-! ## Broadcasts, breaks and frames of others (R151, R413 to R415, R417, R418) -/

theorem State.submitTod_odd {s : State} {value : Word64} (h : value.toNat % 1000000000 ≠ 0) (src : Option CmdSrc) :
    s.submitTod value src = s.raise 0xDB .note 2 := if_pos h

theorem State.submitTod_waits {s : State} {value : Word64} (h : value.toNat % 1000000000 = 0) (hon : s.regBit Reg.wchCtl 0 = true)
    (hsrc : s.wch.todSrc = none) (src : Option CmdSrc) :
    s.submitTod value src =
      s.withWch { s.wch with tod := some value, todArrival := s.wch.fixNs, todSrc := src } := by
  rw [State.submitTod, if_neg (by simp [h])]
  dsimp only
  rw [hsrc, State.replyTod_none]
  exact if_pos hon

theorem State.takeAddress_alone {s : State} {a : Option (BitVec 5)} (ha : s.chn.address ≠ a) (hl : s.pair.link = false) :
    s.takeAddress a = s.withChn { s.chn with address := a } := by
  have hlink : ¬ (s.withChn { s.chn with address := a }).pair.link = true := by simp [hl]
  rw [State.takeAddress, if_neg ha]
  exact if_neg hlink

theorem State.takeAddress_chn (s : State) (a : Option (BitVec 5)) : (s.takeAddress a).chn = { s.chn with address := a } := by
  unfold State.takeAddress
  split
  next h => rw [← h]
  next =>
    dsimp only
    split <;> rfl

theorem State.takeAddress_suffix (s : State) (a : Option (BitVec 5)) : s.out <:+ (s.takeAddress a).out := by
  unfold State.takeAddress
  split
  · exact List.suffix_rfl
  · dsimp only
    split
    · exact List.suffix_cons ..
    · exact List.suffix_rfl

section Broadcast
variable {s : State} (hp : s.gcs.pwrgd = true)
include hp

theorem exec_chainTod (value : Word64) :
    exec (.chainTod value) s = .next ((s.frameIn.submitTod value none).forwardFrame (4 :: leBytes 8 value.toNat)) :=
  if_neg (by simp [hp])

theorem answers_chainTod {value : Word64} (hv : value.toNat % 1000000000 = 0) (hon : s.regBit Reg.wchCtl 0 = true)
    (hsrc : s.wch.todSrc = none) :
    Answers (.chainTod value) s (fun t => t.wch.tod = some value ∧ t.wch.todSrc = none ∧ t.wch.todArrival = s.wch.fixNs ∧
      t.out = .chainForward (4 :: leBytes 8 value.toNat) :: s.out) := by
  have hbit : s.frameIn.regBit Reg.wchCtl 0 = true := by
    rw [State.regBit, State.frameIn, State.regN_count32_other s 1 (by decide)]
    exact hon
  have hexec := exec_chainTod hp value
  rw [State.submitTod_waits hv hbit hsrc] at hexec
  exact ⟨_, hexec, rfl, rfl, rfl, rfl⟩

theorem answers_chainTod_refused {value : Word64} (hv : value.toNat % 1000000000 ≠ 0) :
    Answers (.chainTod value) s (fun t => t.wch = s.wch ∧ s.Faulted t 0xDB 2 ∧
      Out.chainForward (4 :: leBytes 8 value.toNat) ∈ t.out) := by
  have hexec := exec_chainTod hp value
  rw [State.submitTod_odd hv] at hexec
  have hsrc : s.frameIn.src 0xDB = s.src 0xDB := rfl
  have hfault : s.Faulted (s.frameIn.raise 0xDB .note 2) 0xDB 2 :=
    State.Faulted.raise hsrc .note 2 (by decide) (by decide) (by decide)
  exact ⟨_, hexec, State.raise_wch s.frameIn 0xDB 2 (.inl rfl), hfault, .head _⟩

theorem answers_chainEnum {hop : Byte} (hh : hop.toNat < 32) (ha : s.chn.address = none) (hl : s.pair.link = false) :
    Answers (.chainEnum hop) s (fun t => t.chn = { s.chn with address := some (hop.setWidth 5) } ∧
      t.out = .chainForward [5, hop + 1] :: s.out ∧ Only [.chn, .address, .out] s t) := by
  have hfree : s.chn.address ≠ some (hop.setWidth 5) := by simp [ha]
  have hexec : exec (.chainEnum hop) s = .next ((s.forwardFrame [5, hop + 1]).takeAddress (some (hop.setWidth 5))) := by
    show execChainEnum hop s = _
    rw [execChainEnum, if_neg (by simp [hp]), if_neg (Nat.not_le.2 hh)]
    exact if_neg (by simp [State.forwardFrame, State.emit, ha])
  rw [State.takeAddress_alone (s := s.forwardFrame [5, hop + 1]) hfree hl] at hexec
  refine ⟨_, hexec, rfl, rfl, ?_⟩
  exact only_withChn (State.forwardFrame_only (Only.refl _ s) rfl _) rfl (.inl rfl)

theorem answers_chainEnum_refused {hop : Byte} (hh : 32 ≤ hop.toNat) :
    Answers (.chainEnum hop) s (fun t => t.chn.address = s.chn.address ∧ s.Faulted t 0xD7 hop ∧
      Out.chainForward [5, hop + 1] ∈ t.out) := by
  have hexec : exec (.chainEnum hop) s = .next ((s.forwardFrame [5, hop + 1]).raise 0xD7 .note hop) :=
    (if_neg (by simp [hp])).trans (if_pos hh)
  have hsrc : (s.forwardFrame [5, hop + 1]).src 0xD7 = s.src 0xD7 := rfl
  have hreported := State.raise_reported (s.forwardFrame [5, hop + 1]) 0xD7 hop (.inl rfl)
  refine ⟨_, hexec, ?address, State.Faulted.raise hsrc .note hop (by decide) (by decide) (by decide), ?passed⟩
  case address => exact State.raise_low (s.forwardFrame [5, hop + 1]) 0xD7 .note hop (.inl rfl) .address (by decide)
  case passed => exact hreported.out.subset (.head _)

theorem exec_alertQuery (seq : Byte) :
    exec (.alertQuery seq) s = .next (if s.chn.alert then (s.frameIn.forwardFrame [7]).sendFrame 0x87 seq s.newestRev
      else s.frameIn.forwardFrame [7]) := by
  show execAlertQuery seq s = _
  rw [execAlertQuery, if_neg (by simp [hp])]
  by_cases ha : s.chn.alert = true
  · rw [if_pos ha]
    exact if_pos ha
  · rw [if_neg ha]
    exact if_neg ha

theorem answers_alertQuery {seq : Byte} (ha : s.chn.alert = true) :
    Answers (.alertQuery seq) s (fun t => t.out = .chainFrame 0x87 seq s.newestRev :: .chainForward [7] :: s.out ∧
      Only [.regs, .out] s t) := by
  have hexec := exec_alertQuery hp seq
  rw [if_pos ha] at hexec
  refine ⟨_, hexec, rfl, State.sendFrame_only ?_ rfl _ _ _⟩
  exact State.forwardFrame_only (State.frameIn_only (Only.refl _ s) rfl) rfl [7]

theorem answers_alertQuery_idle {seq : Byte} (ha : s.chn.alert = false) :
    Answers (.alertQuery seq) s (fun t => t.out = .chainForward [7] :: s.out ∧ Only [.regs, .out] s t) := by
  have hexec := exec_alertQuery hp seq
  rw [if_neg (by simp [ha])] at hexec
  exact ⟨_, hexec, rfl, State.forwardFrame_only (State.frameIn_only (Only.refl _ s) rfl) rfl [7]⟩

theorem answers_chainBreak :
    Answers .chainBreak s (fun t => t.chn = { s.chn with address := none } ∧ Out.chainForward [] ∈ t.out ∧
      (∀ o ∈ s.out, o ∈ t.out)) := by
  have hexec : exec .chainBreak s = .next ((s.takeAddress none).forwardFrame []) := if_pos hp
  exact ⟨_, hexec, s.takeAddress_chn none, .head _, fun _ ho => .tail _ ((s.takeAddress_suffix none).subset ho)⟩

theorem answers_chainFrameForward {dest : Byte}
    (hd : dest.getLsbD 5 = true ∨ dest.getLsbD 6 = true ∨ s.chn.address ≠ some (dest.setWidth 5)) (frame : Bytes) :
    Answers (.chainFrameForward dest frame) s (fun t => t.out = .chainForward frame :: s.out ∧ Only [.out] s t) := by
  have hexec : exec (.chainFrameForward dest frame) s = .next (s.forwardFrame frame) := by
    refine if_neg ?_
    rcases hd with h | h | h <;> simp [hp, h]
  exact ⟨_, hexec, rfl, State.forwardFrame_only (Only.refl _ s) rfl frame⟩

theorem answers_chainFrameCrcError :
    Answers (.chainFrameCrcError true) s (fun t => t.regN Reg.chnCrcErrors = (s.regN Reg.chnCrcErrors + 1) % 2 ^ 32 ∧
      s.Faulted t 0xD5 (BitVec.ofNat 8 ((s.regN Reg.chnCrcErrors + 1) % 2 ^ 32))) := by
  have hexec : exec (.chainFrameCrcError true) s = .next ((s.count32 Reg.chnCrcErrors 1).raise 0xD5 .note
      (BitVec.ofNat 8 ((s.count32 Reg.chnCrcErrors 1).regN Reg.chnCrcErrors))) := if_neg (by simp [hp])
  have hcount := State.regN_count32 s Reg.chnCrcErrors 1
  rw [hcount] at hexec
  have hsrc : (s.count32 Reg.chnCrcErrors 1).src 0xD5 = s.src 0xD5 := rfl
  have hreported := State.raise_reported (s.count32 Reg.chnCrcErrors 1) 0xD5
    (BitVec.ofNat 8 ((s.regN Reg.chnCrcErrors + 1) % 2 ^ 32)) (.inl rfl)
  exact ⟨_, hexec, (hreported.regN (by decide)).trans hcount, State.Faulted.raise hsrc .note _ (by decide) (by decide) (by decide)⟩

end Broadcast

theorem answers_jtagDebugAttempt {s : State} (h : s.sec.lock ≠ 0) :
    Answers .jtagDebugAttempt s (fun t => s.Faulted t 0xE4 1 ∧ t.sec = s.sec) := by
  have hexec : exec .jtagDebugAttempt s = .next (s.raise 0xE4 .warn 1) := if_neg h
  exact ⟨_, hexec, State.Faulted.raise rfl .warn 1 (by decide) (by decide) (by decide),
    State.raise_low s 0xE4 .warn 1 (.inr rfl) .sec (by decide)⟩

/-- Settles O60: each frame has, for each way it can go, its lemma above. -/
theorem chainFrames : Obligations.ChainFrames := by
  unfold Obligations.ChainFrames
  refine ⟨?cmd, ?executing, ?dropped, ?repeated, ?write, ?writeRefused, ?read, ?readRefused, ?tod, ?todRefused, ?enum, ?enumRefused,
    ?query, ?queryIdle, ?probe, ?ack, ?clear, ?broken, ?forward, ?crc, ?unpowered, ?debug, ?unlocked⟩
  case cmd => exact fun _ _ _ hon hlen hb hlast hd => answers_chainCmd_queued hon hlen hb hlast hd
  case executing =>
    intro seq packet s hon hlen hb
    have hexec := exec_chainCmd_busy hon hlen hb seq
    rw [if_pos rfl] at hexec
    exact ⟨s, hexec, rfl⟩
  case dropped => exact fun _ _ _ _ hon hlen hb hne => answers_chainCmd_dropped hon hlen hb hne
  case repeated => exact fun _ _ _ hon hlen hb hlast hd => answers_chainCmd_repeated hon hlen hb hlast hd
  case write =>
    intro seq offset data s hon ho hl h1 h256 hin
    exact answers_scratchWrite hon (scratchOk_iff.2 ⟨ho, hl, h1, h256, hin⟩) seq
  case writeRefused => exact fun seq _ _ _ hon h => answers_scratchWrite_refused hon h seq
  case read =>
    intro seq offset count s hon ho hl h1 h256 hin
    exact answers_scratchRead hon (scratchOk_iff.2 ⟨ho, hl, h1, h256, hin⟩) seq
  case readRefused => exact fun seq _ _ _ hon h => answers_scratchRead_refused hon h seq
  case tod => exact fun _ _ hp hv hon hsrc => answers_chainTod hp hv hon hsrc
  case todRefused => exact fun _ _ hp hv => answers_chainTod_refused hp hv
  case enum => exact fun _ _ hp hh ha hl => answers_chainEnum hp hh ha hl
  case enumRefused => exact fun _ _ hp hh => answers_chainEnum_refused hp hh
  case query => exact fun _ _ hp ha => answers_alertQuery hp ha
  case queryIdle => exact fun _ _ hp ha => answers_alertQuery_idle hp ha
  case probe => exact fun seq src side _ hon => answers_chainProbe hon seq src side
  case ack => exact fun _ hon => answers_alertAck hon
  case clear => exact fun _ hc hd => answers_alertClr hc hd
  case broken => exact fun _ hp => answers_chainBreak hp
  case forward => exact fun _ frame _ hp hd => answers_chainFrameForward hp hd frame
  case crc => exact fun _ hp => answers_chainFrameCrcError hp
  case unpowered => exact fun s hp => ⟨s, if_pos (by simp [hp]), rfl⟩
  case debug => exact fun _ h => answers_jtagDebugAttempt h
  case unlocked => exact fun s h => ⟨s, if_pos h, rfl⟩

end Sys2Proof.Machine
end

section
/-! PROOFS. The Stripe Cache, the victim tier and the channels of the Map Store (spec/10_stripe_cache.md R296, R305, R314, R316; spec/06
R197; spec/12 R349): which fault sources the Log's evaluation leaves alone, what each end of a move, of a walk and of a word does, and the
statement about them. -/

namespace Sys2Proof.Machine

/-! ## The Log's evaluation and the fault sources (R135, R299) -/

/-- The sources of faults that other faults cause (R238, R349), and the source of the Log's occupancy (R135). -/
def causedSources : List Byte := [0x02, 0x24, 0x25, 0x72]

theorem ne_of_not_mem_causedSources {n : Byte} (h : n ∉ causedSources) : n ≠ 0x02 ∧ n ≠ 0x24 ∧ n ≠ 0x25 ∧ n ≠ 0x72 := by
  simpa [causedSources] using h

/-- What starting the stripe commits that the cache asked for may change: no fault source. -/
theorem State.answerAsks_frame (s : State) : Only (.scc :: commitParts) s s.answerAsks :=
  only_foldl (only_withScc (Only.refl _ s) rfl) fun t k ht =>
    ht.trans ((State.stripeCommit_frame t k.set k.stripe k.row 1).mono rfl)

/-- The fault of the Log and those that follow from it are the only ones that the Log's evaluation raises. -/
theorem State.src_evalLog (s : State) {n : Byte} (h : n ∉ causedSources) : s.evalLog.src n = s.src n := by
  obtain ⟨h2, h3, h4, hlog⟩ := ne_of_not_mem_causedSources h
  have hsrc (v : Log) : (s.answerAsks.withLog v).src n = s.src n :=
    State.src_of_sources (State.answerAsks_frame s .sources (by decide)) n
  simp only [State.evalLog]
  split
  · exact (State.raise_other _ 0x72 n .note _ hlog h2 h3 h4).trans (hsrc _)
  · exact hsrc _

/-! ## Moves between the cache and the tier (R305, R306, R314) -/

theorem State.slot_setSlot (s : State) (k : Nat) (l : Line) : (s.setSlot k l).slot k = l := Tab.get_set_self ..

theorem State.line_setLine (s : State) (i : Nat) (l : Line) : (s.setLine i l).line i = l := Tab.get_set_self ..

theorem answers_tierMoveComplete_out {key : Nat} {s : State} (hm : s.scc.moving = []) (hpin : (s.slot key).pin = true)
    (hstale : (s.slot key).stale = false) :
    Answers (.tierMoveComplete key) s (fun t => t.slot key = { s.slot key with pin := false } ∧ t.scc.lines = s.scc.lines ∧
      Only [.scc] s t) := by
  have hexec : exec (.tierMoveComplete key) s = .next (s.setSlot key { s.slot key with pin := false }) := by
    show execTierMoveComplete key s = _
    simp [execTierMoveComplete, hm, hpin, Line.unpin, hstale]
  exact ⟨_, hexec, State.slot_setSlot .., rfl, State.setSlot_only (Only.refl _ s) rfl key _⟩

theorem answers_tierMoveComplete_back {key i : Nat} {s : State} (hm : s.scc.moving = [(key, i)]) (hpin : (s.slot key).pin = true)
    (hkey : (s.slot key).key = (s.line i).key) (hstate : (s.slot key).state ≠ .invalid) :
    Answers (.tierMoveComplete key) s (fun t => t.scc.moving = [] ∧ t.line i = { s.line i with pin := false, stale := false } ∧
      t.slot key = Line.at0 ∧ Only [.scc] s t) := by
  have hexec : exec (.tierMoveComplete key) s = .next (((s.withScc { s.scc with moving := [] }).setLine i
      { s.line i with pin := false, stale := false }).setSlot key Line.at0) := by
    show execTierMoveComplete key s = _
    have hsame : ((s.slot key).pin && decide ((s.slot key).key = (s.line i).key) && decide ((s.slot key).state ≠ .invalid)) = true := by
      simp [hpin, hkey, hstate]
    simp only [execTierMoveComplete, hm, List.find?_cons, decide_true, List.filter_cons, List.filter_nil, ne_eq, not_true_eq_false,
      decide_false]
    exact congrArg _ (if_pos hsame)
  exact ⟨_, hexec, rfl, State.line_setLine _ i _, State.slot_setSlot ..,
    State.setSlot_only (State.setLine_only (only_withScc (Only.refl _ s) rfl) rfl i _) rfl key _⟩

/-! ## Channels of the Map Store (R197, R316, R349) -/

theorem mapSource_not_mem (ch : BitVec 3) : mapSource ch.toNat ∉ causedSources := by
  revert ch
  decide

theorem mapSource_ne (ch : BitVec 3) : mapSource ch.toNat ≠ 0x92 := by
  revert ch
  decide

theorem answers_mapChannelFailure_corrected {ch : BitVec 3} {s : State} (h : ch.toNat ∉ s.map.fenced) :
    Answers (.mapChannelFailure ch 1) s (fun t => s.Faulted t (mapSource ch.toNat) 1 ∧ t.map = s.map) := by
  have hexec : exec (.mapChannelFailure ch 1) s =
      .next ((s.count32 (Reg.mapChCorrected ch.toNat) 1).raise (mapSource ch.toNat) .note 1) := by
    show execMapChannelFailure ch 1 s = _
    rw [execMapChannelFailure, if_neg h, if_pos rfl]
  obtain ⟨h2, h3, h4, -⟩ := ne_of_not_mem_causedSources (mapSource_not_mem ch)
  exact ⟨_, hexec, State.Faulted.raise rfl .note 1 h2 h3 h4, State.raise_low _ (mapSource ch.toNat) .note 1 (.inl rfl) .map (by decide)⟩

/-- A channel fenced while its mirror serves and nothing stands in the tier: the channel listed, and two faults. -/
theorem State.fenceChannel_eq {s : State} {ch : Nat} (h : ch ∉ s.map.fenced) (hmirror : mirrorChannel ch ∉ s.map.fenced)
    (htier : s.scc.tier = []) (hmoving : s.scc.moving = []) (detail : Byte) :
    s.fenceChannel ch detail = (((s.withMap { s.map with fenced := s.map.fenced ++ [ch] }).withScc
      { s.scc with tier := [], moving := [] }).raise (mapSource ch) .warn detail).raise 0x92 .note (BitVec.ofNat 8 ch) := by
  simp [State.fenceChannel, State.dropChannel, h, hmirror, htier, hmoving]

/-- The two faults of a fenced channel, and the Log's evaluation after them. -/
theorem faulted_fenced {s u : State} (h : u.flt.srcs = s.flt.srcs) (ch : BitVec 3) (detail d : Byte) :
    let t := ((u.raise (mapSource ch.toNat) .warn detail).raise 0x92 .note d).evalLog
    t.map = u.map ∧ s.Faulted t (mapSource ch.toNat) detail ∧ s.Faulted t 0x92 d := by
  have hcaused := mapSource_not_mem ch
  obtain ⟨h2, h3, h4, -⟩ := ne_of_not_mem_causedSources hcaused
  refine ⟨?map, ?channel, ?pool⟩
  case map =>
    have hraised := (State.raise_low u (mapSource ch.toNat) .warn detail (.inr rfl)).trans (State.raise_low _ 0x92 .note d (.inl rfl))
    exact Eq.trans (State.evalLog_frame _ .map (by decide)) (hraised .map (by decide))
  case channel =>
    refine (State.Faulted.raise (State.src_of_sources h _) .warn detail h2 h3 h4).of_src ?_
    rw [State.src_evalLog _ hcaused, State.raise_other _ 0x92 _ .note _ (mapSource_ne ch) h2 h3 h4]
  case pool =>
    refine (State.Faulted.raise ?_ .note d (by decide) (by decide) (by decide)).of_src (State.src_evalLog _ (by decide))
    rw [State.raise_other u _ 0x92 .warn detail (mapSource_ne ch).symm (by decide) (by decide) (by decide), State.src_of_sources h]

theorem answers_mapChannelFailure_uncorrectable {ch : BitVec 3} {s : State} (h : ch.toNat ∉ s.map.fenced)
    (hmirror : mirrorChannel ch.toNat ∉ s.map.fenced) (htier : s.scc.tier = []) (hmoving : s.scc.moving = []) :
    Answers (.mapChannelFailure ch 2) s (fun t => t.map.fenced = s.map.fenced ++ [ch.toNat] ∧
      s.Faulted t (mapSource ch.toNat) 2 ∧ s.Faulted t 0x92 (BitVec.ofNat 8 ch.toNat)) := by
  have hexec : exec (.mapChannelFailure ch 2) s =
      .next ((s.count32 (Reg.mapChUncorrectable ch.toNat) 1).fenceChannel ch.toNat 2).evalLog := by
    show execMapChannelFailure ch 2 s = _
    rw [execMapChannelFailure, if_neg h, if_neg (by decide)]
    rfl
  rw [State.fenceChannel_eq (s := s.count32 (Reg.mapChUncorrectable ch.toNat) 1) h hmirror htier hmoving] at hexec
  obtain ⟨hmap, hchannel, hpool⟩ := faulted_fenced (s := s) (u := ((s.count32 (Reg.mapChUncorrectable ch.toNat) 1).withMap
    { s.map with fenced := s.map.fenced ++ [ch.toNat] }).withScc { s.scc with tier := [], moving := [] }) rfl ch 2 (BitVec.ofNat 8 ch.toNat)
  exact ⟨_, hexec, congrArg MapStore.fenced hmap, hchannel, hpool⟩

/-- Settles O49: each event has its lemma above, and the walks that end are the two updates of the cache. -/
theorem cachesAndMapStore : Obligations.CachesAndMapStore := by
  unfold Obligations.CachesAndMapStore
  refine ⟨?moveOut, ?moveBack, ?walk, ?emptied, ?corrected, ?uncorrectable⟩
  case moveOut => exact fun _ _ hm hp hs => answers_tierMoveComplete_out hm hp hs
  case moveBack => exact fun _ _ _ hm hp hk hs => answers_tierMoveComplete_back hm hp hk hs
  case walk => exact fun s hr => ⟨_, if_neg (by simp [hr]), rfl, only_withScc (Only.refl _ s) rfl⟩
  case emptied => exact fun s hr ht => ⟨_, if_neg (by simp [hr, ht]), rfl, only_withScc (Only.refl _ s) rfl⟩
  case corrected => exact fun _ _ h => answers_mapChannelFailure_corrected h
  case uncorrectable => exact fun _ _ h hm ht hv => answers_mapChannelFailure_uncorrectable h hm ht hv

end Sys2Proof.Machine
end

section
/-! PROOFS. The drive ports (spec/06_degraded_and_rebuild.md R167; spec/11_drive_ports.md R321 to R345, R490): what changing a port and
raising one of its faults leave of the other ports and groups, what failing a port comes to when nothing is outstanding at it, what each
event of a port or of a group does, and the statement about the life of a port. -/

namespace Sys2Proof.Machine

/-! ## Ports and groups -/

theorem State.port_of_ports {s t : State} (h : t.ports = s.ports) (p : Byte) : t.port p = s.port p := by
  unfold State.port
  rw [h]

theorem State.group_of_portGroups {s t : State} (h : t.portGroups = s.portGroups) (g : Nat) : t.group g = s.group g := by
  unfold State.group
  rw [h]

@[simp] theorem State.port_withDcmds (s : State) (v : List DriveCmd) (p : Byte) : (s.withDcmds v).port p = s.port p := rfl

@[simp] theorem State.port_freeQuarantine (s : State) (p q : Byte) : (s.freeQuarantine p).port q = s.port q := rfl

@[simp] theorem State.port_withNextId (s : State) (v : Nat) (p : Byte) : (s.withNextId v).port p = s.port p := rfl

@[simp] theorem State.port_emit (s : State) (o : Out) (p : Byte) : (s.emit o).port p = s.port p := rfl

@[simp] theorem State.port_modGroup (s : State) (g : Nat) (f : Group → Group) (p : Byte) : (s.modGroup g f).port p = s.port p := rfl

@[simp] theorem State.group_emit (s : State) (o : Out) (g : Nat) : (s.emit o).group g = s.group g := rfl

theorem State.outstanding_of_dcmds {s t : State} (h : t.dcmds = s.dcmds) (p : Byte) : t.outstanding p = s.outstanding p := by
  unfold State.outstanding
  rw [h]

theorem State.memberOf_of_sets {s t : State} (h : t.sets = s.sets) (p : Byte) : t.memberOf p = s.memberOf p := by
  unfold State.memberOf
  rw [h]

theorem State.port_modPort_other (s : State) {p q : Byte} (f : Port → Port) (h : q ≠ p) : (s.modPort p f).port q = s.port q :=
  Tab.get_set_other _ _ _ _ fun e => h (BitVec.eq_of_toNat_eq e)

theorem State.group_modGroup_other (s : State) {g h : Nat} (f : Group → Group) (hne : h ≠ g) : (s.modGroup g f).group h = s.group h :=
  Tab.get_set_other _ _ _ _ hne

theorem groupPorts_nodup (g : BitVec 4) : (groupPorts g.toNat).Nodup := by
  refine List.nodup_range.map_on fun i hi j hj h => ?_
  have hg := g.isLt
  have hmod := congrArg BitVec.toNat h
  simp only [BitVec.toNat_ofNat] at hmod
  simp only [List.mem_range] at hi hj
  omega

/-- Folding a step that changes one port, over ports each listed once: each listed port is changed once. -/
theorem foldl_port {I : State → Prop} {step : State → Byte → State} {F : Byte → Port → Port} {l : List Byte} (hl : l.Nodup)
    (hkeep : ∀ t, ∀ p ∈ l, I t → I (step t p)) (hself : ∀ t, ∀ p ∈ l, I t → (step t p).port p = F p (t.port p))
    (hother : ∀ t, ∀ p ∈ l, I t → ∀ q, q ≠ p → (step t p).port q = t.port q) {s : State} (hs : I s) (q : Byte) :
    (l.foldl step s).port q = if q ∈ l then F q (s.port q) else s.port q := by
  induction l generalizing s with
  | nil => rfl
  | cons p l ih =>
    obtain ⟨hp, hl⟩ := List.nodup_cons.1 hl
    have hrest := ih hl (fun t r hr => hkeep t r (.tail _ hr)) (fun t r hr => hself t r (.tail _ hr))
      (fun t r hr => hother t r (.tail _ hr)) (hkeep s p (.head _) hs)
    rw [List.foldl_cons, hrest]
    by_cases hq : q = p
    · subst hq
      rw [if_neg hp, if_pos (.head _), hself s q (.head _) hs]
    · rw [hother s p (.head _) hs q hq]
      simp [hq]

/-! ## Faults of ports and groups (R345) -/

/-- One fault raised, with the faults it causes, is one fault of its source (R350). -/
theorem State.Faulted.raiseAll {s t : State} {f : FaultReq} (e : t.src f.source = s.src f.source) (h2 : f.source ≠ 0x02)
    (h3 : f.source ≠ 0x24) (h4 : f.source ≠ 0x25) : s.Faulted (t.raiseAll [f]) f.source f.detail := by
  have hrest : (t.raiseAll [f]).src f.source = (t.raiseOne f).1.src f.source := by
    show (t.raiseFuel 68 [f]).src f.source = _
    unfold State.raiseFuel
    refine State.raiseFuel_other _ _ _ _ (fun g hg => ?_) h2 h3 h4
    rcases State.raiseOne_consequent t f g hg with e | e | e <;> rw [e]
    · exact h2.symm
    · exact h3.symm
    · exact h4.symm
  have hcaptured := State.capture_src (if t.faultLevel f = .note then t else t.leaveDock) f
  rw [State.src_calm, e] at hcaptured
  have hsrc := (hrest.trans (State.src_of_sources (State.raiseOne_sources t f) _)).trans hcaptured
  unfold State.Faulted
  rw [hsrc]
  exact ⟨rfl, rfl, rfl⟩

/-- The link, engine and power source of a group is no source that other events raise. -/
theorem linkSource_not_mem (p : Byte) : BitVec.ofNat 8 (0xB0 + groupOf p) ∉ causedSources := by
  have hp := p.isLt
  simp only [causedSources, List.mem_cons, List.not_mem_nil, or_false, ← BitVec.toNat_inj, BitVec.toNat_ofNat, BitVec.reduceToNat,
    groupOf]
  omega

theorem State.Faulted.linkFault {s t : State} (h : t.flt.srcs = s.flt.srcs) (p : Byte) (level : Level) (d : Byte) :
    s.Faulted (t.linkFault p level d) (BitVec.ofNat 8 (0xB0 + groupOf p)) d := by
  obtain ⟨h2, h3, h4, -⟩ := ne_of_not_mem_causedSources (linkSource_not_mem p)
  exact State.Faulted.raiseAll (State.src_of_sources h _) h2 h3 h4

/-- What a fault of a port may change: the fault records, the event rings, Idle-dock and what its group reports last. -/
abbrev portFaultParts : List Field := .portGroups :: lowParts

theorem State.linkFault_low (s : State) (p : Byte) {level : Level} (d : Byte) (h : level = .note ∨ level = .warn) :
    Only portFaultParts s (s.linkFault p level d) := State.raisePort_low s _ p level d true h

theorem State.mediaFault_low (s : State) (p : Byte) {level : Level} (d : Byte) (h : level = .note ∨ level = .warn) :
    Only portFaultParts s (s.mediaFault p level d) := State.raisePort_low s _ p level d false h

/-- A fault of a port leaves the state of every group. -/
theorem State.group_state_linkFault (s : State) (p : Byte) {level : Level} (d : Byte) (h : level = .note ∨ level = .warn) (g : Nat) :
    ((s.linkFault p level d).group g).state = (s.group g).state := by
  have hlast := State.raiseAll_low (s.modGroup (groupOf p) fun v => { v with lastPort := p, lastDetail := d, lastLink := true })
    [{ source := BitVec.ofNat 8 (0xB0 + groupOf p), level := level, detail := d, port := p.toNat, injected := false }]
    (fun f hf => by rw [List.mem_singleton.1 hf]; exact h)
  have hgroups : (s.linkFault p level d).group g = _ := State.group_of_portGroups (hlast .portGroups (by decide)) g
  rw [hgroups]
  by_cases hg : g = groupOf p
  · rw [hg, State.group_modGroup]
  · rw [State.group_modGroup_other s _ hg]

/-! ## The Log's evaluation (R135, R299) -/

theorem State.evalLog_ports (s : State) : s.evalLog.ports = s.ports := State.evalLog_frame s .ports (by decide)

@[simp] theorem State.port_evalLog (s : State) (p : Byte) : s.evalLog.port p = s.port p := State.port_of_ports s.evalLog_ports p

/-! ## A port that fails (R167 to R170) -/

theorem State.autoRetire_ports (s : State) (p : Byte) : (s.autoRetire p).ports = s.ports := by
  have hfault := State.mediaFault_low s p (level := .warn) 0x17 (.inr rfl) .ports (by decide)
  unfold State.autoRetire
  split
  · rfl
  · split
    · rfl
    · split
      · rfl
      · split
        · rfl
        · exact hfault

/-- With nothing outstanding at it, a port that fails is the one port that changes. -/
theorem State.failPort_ports {s : State} {p : Byte} (hf : (s.port p).failed = false) (ho : s.outstanding p = []) (d : Byte) (gone : Bool) :
    (s.failPort p d gone).ports = (s.modPort p fun v => { v with failed := true, catchup := false }).ports := by
  have hfault := State.mediaFault_low (s.modPort p fun v => { v with failed := true, catchup := false }) p (level := .warn) d (.inr rfl)
  have hnone : ((s.modPort p fun v => { v with failed := true, catchup := false }).mediaFault p .warn d).outstanding p = [] :=
    (State.outstanding_of_dcmds (hfault .dcmds (by decide)) p).trans ho
  unfold State.failPort
  rw [if_neg (by simp [hf])]
  simp only [hnone]
  exact (State.autoRetire_ports _ p).trans (hfault .ports (by decide))

theorem State.port_failPort {s : State} {p : Byte} (hf : (s.port p).failed = false) (ho : s.outstanding p = []) (d : Byte) (gone : Bool) :
    (s.failPort p d gone).port p = { s.port p with failed := true, catchup := false } :=
  (State.port_of_ports (State.failPort_ports hf ho d gone) p).trans (State.port_modPort ..)

theorem answers_portSealLimit {p : Byte} {s : State} (hlimit : s.regField Reg.gcsRbsFail 0 16 ≠ 0)
    (hpast : s.regField Reg.gcsRbsFail 0 16 < (s.port p).sealFails) (hf : (s.port p).failed = false) (ho : s.outstanding p = []) :
    Answers (.portSealLimit p) s (fun t => (t.port p).failed = true ∧ (t.port p).sealFails = 0) := by
  have hexec : exec (.portSealLimit p) s =
      .next ((s.modPort p fun v => { v with sealFails := 0 }).failPort p 0x15 false).evalLog := if_neg (by omega)
  have hfailed := State.port_failPort (s := s.modPort p fun v => { v with sealFails := 0 }) (p := p)
    (by rw [State.port_modPort]; exact hf) ho 0x15 false
  rw [State.port_modPort] at hfailed
  refine ⟨_, hexec, ?_, ?_⟩
  all_goals rw [State.port_evalLog, hfailed]

theorem answers_controllerFatalStatus {p : Byte} {s : State} (hf : (s.port p).failed = false) (ho : s.outstanding p = []) :
    Answers (.controllerFatalStatus p) s (fun t => (t.port p).failed = true ∧ (∀ q, q ≠ p → t.port q = s.port q)) := by
  have hports := (State.evalLog_ports _).trans (State.failPort_ports hf ho 0x13 false)
  refine ⟨_, rfl, ?failed, fun q hq => ?others⟩
  case failed => rw [State.port_of_ports hports, State.port_modPort]
  case others => rw [State.port_of_ports hports, State.port_modPort_other s _ hq]

/-! ## Detection and bring-up (R322 to R327, R335) -/

/-- A receiver found at an EMPTY port of a powered group: the port trains, which is reported but while drives are first found. -/
theorem exec_receiverDetection {p : Byte} {s : State} (hp : s.portPresent p = true) (he : (s.port p).state = .empty)
    (hg : (s.group (groupOf p)).state = .powered) :
    exec (.receiverDetection p true) s = .next (if s.starting then s.modPort p fun v => { v with state := .training }
      else (s.modPort p fun v => { v with state := .training }).linkFault p .note 0x0B) := if_neg (by simp [hp, he, hg])

theorem answers_receiverDetection_running {p : Byte} {s : State} (hp : s.portPresent p = true) (he : (s.port p).state = .empty)
    (hg : (s.group (groupOf p)).state = .powered) (hr : s.gcs.phase = .running) :
    Answers (.receiverDetection p true) s (fun t => t.port p = { s.port p with state := .training } ∧
      s.Faulted t (BitVec.ofNat 8 (0xB0 + groupOf p)) 0x0B) := by
  have hexec := exec_receiverDetection hp he hg
  rw [if_neg (by simp [State.starting, hr])] at hexec
  refine ⟨_, hexec, ?port, State.Faulted.linkFault rfl p .note 0x0B⟩
  case port =>
    rw [State.port_of_ports (State.linkFault_low _ p _ (.inl rfl) .ports (by decide)), State.port_modPort]

theorem answers_receiverDetection_recovery {p : Byte} {s : State} (hp : s.portPresent p = true) (he : (s.port p).state = .empty)
    (hg : (s.group (groupOf p)).state = .powered) (hr : s.gcs.phase = .recovery) :
    Answers (.receiverDetection p true) s (fun t => t.port p = { s.port p with state := .training } ∧ Only [.ports] s t) := by
  have hexec := exec_receiverDetection hp he hg
  rw [if_pos (by simp [State.starting, hr])] at hexec
  exact ⟨_, hexec, State.port_modPort .., State.modPort_only (Only.refl _ s) rfl p _⟩

/-- A group that does not wake has no wake to end. -/
theorem State.groupUp_eq_self {s : State} {g : Nat} (h : (s.group g).state ≠ .waking) : s.groupUp g = s := if_pos (.inl h)

/-- A bring-up that failed, in a powered group and for no command: the port is in ERROR and its group reports it. -/
theorem State.bringupFailed_eq {s : State} {p : Byte} (ht : (s.port p).state = .training) (hr : (s.port p).resetSrc = none)
    (hg : (s.group (groupOf p)).state = .powered) :
    s.bringupFailed p = (s.modPort p fun v => { v.leave .error with resetSrc := none }).linkFault p .warn 3 := by
  have hgroup : (((s.modPort p fun v => { v.leave .error with resetSrc := none }).linkFault p .warn 3).group (groupOf p)).state ≠
      .waking := by
    rw [State.group_state_linkFault _ p 3 (.inr rfl)]
    exact fun h => absurd (hg.symm.trans h) (by decide)
  unfold State.bringupFailed
  rw [if_neg (by simp [ht])]
  simp only [hr]
  exact State.groupUp_eq_self hgroup

theorem answers_bringupFailed {c : Instr} {s : State} {p : Byte} (hc : exec c s = .next (s.bringupFailed p))
    (ht : (s.port p).state = .training) (hr : (s.port p).resetSrc = none) (hg : (s.group (groupOf p)).state = .powered) :
    Answers c s (fun t => (t.port p).state = .error ∧ s.Faulted t (BitVec.ofNat 8 (0xB0 + groupOf p)) 3) := by
  rw [State.bringupFailed_eq ht hr hg] at hc
  refine ⟨_, hc, ?port, State.Faulted.linkFault rfl p .warn 3⟩
  case port =>
    rw [State.port_of_ports (State.linkFault_low _ p _ (.inr rfl) .ports (by decide)), State.port_modPort]
    rfl

/-- A drive brought up (R324 to R327, R503): its port as the drive reports itself, with the queues it was granted. -/
def Port.up (v : Port) (i : DriveInfo) (pairs depth : Nat) : Port :=
  { v with
      state := .ready, formatOk := i.formatOk, dual := i.dual, mdSep := i.mdSep, gen := i.gen, nsze := i.sectors,
      recordedCapacity := some i.sectors, pairsGranted := pairs, depthLog2 := depth, critWarn := i.critWarn,
      warning := decide (i.critWarn ≠ 0), pctUsed := i.pctUsed, nguid := i.nguid, resetSrc := none, sealFails := 0,
      shutdownSent := false, shutdownDone := false, catchup := i.formatOk && !v.failed && !v.catchupMap.isEmpty, catchupNext := 0 }

/-- What follows a bring-up may change: no port. -/
def bringupParts : List Field := .dcmds :: .interp :: portFaultParts

theorem Only.linkFault_if {s0 s : State} (h : Only bringupParts s0 s) (c : Prop) [Decidable c] (p : Byte) {level : Level} (d : Byte)
    (hl : level = .note ∨ level = .warn) : Only bringupParts s0 (if c then s.linkFault p level d else s) :=
  only_ite (fun _ => h.trans ((State.linkFault_low s p d hl).mono rfl)) (fun _ => h)

/-- A port whose drive came up with the queues it asked for: nothing after that changes a port again. -/
theorem answers_driveBringupComplete_ok {p : Byte} {i : DriveInfo} {s : State} {n g : Nat} (ht : (s.port p).state = .training)
    (hgrant : queueGrant (131072 - (s.slotsUsed - (s.port p).pairsGranted * 2 ^ (s.port p).depthLog2))
      (max 1 (min (s.regField (Reg.dpQcfg p.toNat) 0 5) i.pairs))
      (min (s.regField (Reg.dpQcfg p.toNat) 8 4) (Nat.log2 (i.mqes + 1))) 32 = some (n, g, false)) :
    Answers (.driveBringupComplete p (.ok i)) s (fun t => t.port p = (s.port p).up i n g) := by
  have hblank (c : Prop) [Decidable c] (o : Out) :
      Only bringupParts (s.modPort p fun v => v.up i n g) ((if c then s.emit o else s).modPort p fun v => v.up i n g) := by
    split
    · exact State.emit_only (Only.refl _ (s.modPort p _)) rfl o
    · exact Only.refl _ _
  have hkept {t : State} (h : Only bringupParts (s.modPort p fun v => v.up i n g) t) : t.port p = (s.port p).up i n g :=
    (State.port_of_ports (h .ports (by decide)) p).trans (State.port_modPort s p _)
  show ∃ t, execDriveBringupComplete p (.ok i) s = .next t ∧ _
  simp only [execDriveBringupComplete, hgrant, ht]
  refine ⟨_, rfl, hkept ?_⟩
  refine State.groupUp_only (State.endFor_only (State.issueWaiting_only ?_ rfl p) rfl _ _ _ _) rfl _
  exact ((((hblank _ _).linkFault_if _ p 2 (.inl rfl)).linkFault_if _ p 4 (.inl rfl)).linkFault_if _ p 6 (.inr rfl)).linkFault_if _ p 1
    (.inl rfl)

/-! ## Links that are lost (R323, R334, R345) -/

theorem State.outstanding_freeQuarantine {s : State} {p : Byte} (ho : s.outstanding p = []) : (s.freeQuarantine p).outstanding p = [] := by
  simp only [State.outstanding, List.filter_eq_nil_iff] at ho ⊢
  exact fun d hd => ho d (List.mem_of_mem_filter hd)

theorem State.loseLink_eq {s : State} {p : Byte} (ho : s.outstanding p = []) :
    ∃ v, s.loseLink p = s.withDcmds v := by
  unfold State.loseLink
  simp only [State.outstanding_freeQuarantine ho]
  exact ⟨_, rfl⟩

/-- The link of a READY port lost, its drive still there: the port waits in RECOVERY. -/
theorem State.portLinkDown_ready {s : State} {p : Byte} (hr : (s.port p).state = .ready) (ho : s.outstanding p = []) :
    ∃ v, s.portLinkDown p true =
      ((s.count32 (Reg.dpLinkDowns p.toNat) 1).modPort p fun v => { v with state := .recovery, gen := 0, inL1 := false }).withDcmds v := by
  unfold State.portLinkDown
  simp only [hr]
  exact State.loseLink_eq ho

theorem answers_linkDown_receiver {p : Byte} {s : State} (hr : (s.port p).state = .ready) (ho : s.outstanding p = []) :
    Answers (.linkDown p true) s (fun t => t.port p = { s.port p with state := .recovery, gen := 0, inL1 := false }) := by
  obtain ⟨v, hdown⟩ := State.portLinkDown_ready hr ho
  refine ⟨_, rfl, (State.port_evalLog ..).trans ?_⟩
  rw [hdown, State.port_withDcmds, State.port_modPort]
  rfl

theorem answers_uncorrectableLinkError {p : Byte} {s : State} (hr : (s.port p).state = .ready) (ho : s.outstanding p = []) :
    Answers (.uncorrectableLinkError p true) s (fun t => (t.port p).state = .recovery ∧
      s.Faulted t (BitVec.ofNat 8 (0xB0 + groupOf p)) 8) := by
  have hfault := State.linkFault_low s p (level := .warn) 8 (.inr rfl)
  obtain ⟨v, hdown⟩ := State.portLinkDown_ready (s := s.linkFault p .warn 8) (p := p)
    (by rw [State.port_of_ports (hfault .ports (by decide)), hr]) ((State.outstanding_of_dcmds (hfault .dcmds (by decide)) p).trans ho)
  refine ⟨_, rfl, ?port, ?fault⟩
  case port =>
    rw [State.port_evalLog, hdown, State.port_withDcmds, State.port_modPort]
  case fault =>
    refine (State.Faulted.linkFault rfl p .warn 8).of_src ?_
    rw [State.src_evalLog _ (linkSource_not_mem p), hdown]
    rfl

/-- A port whose drive is gone, with nothing outstanding at it, is CONTAINED and failed. -/
theorem port_failPort_contained {s : State} {p : Byte} {u : State} (hu : u.port p = (s.port p).leave .contained)
    (hf : (s.port p).failed = false) (ho : u.outstanding p = []) (d : Byte) :
    (((u.failPort p d true).evalLog).port p).state = .contained ∧ (((u.failPort p d true).evalLog).port p).failed = true := by
  rw [State.port_evalLog, State.port_failPort (by rw [hu]; exact hf) ho, hu]
  exact ⟨rfl, rfl⟩

theorem answers_linkDown_gone {p : Byte} {s : State} (hr : (s.port p).state = .ready) (hf : (s.port p).failed = false)
    (ho : s.outstanding p = []) :
    Answers (.linkDown p false) s (fun t => (t.port p).state = .contained ∧ (t.port p).failed = true) := by
  have hexec : exec (.linkDown p false) s = .next (((((s.count32 (Reg.dpLinkDowns p.toNat) 1).modPort p
      fun v => v.leave .contained).freeQuarantine p).failPort p 0x10 true).evalLog) := by
    show Host.Outcome.next (s.portLinkDown p false).evalLog = _
    simp only [State.portLinkDown, hr]
    rfl
  have hleft : (((s.count32 (Reg.dpLinkDowns p.toNat) 1).modPort p fun v => v.leave .contained).freeQuarantine p).port p =
      (s.port p).leave .contained := by
    rw [State.port_freeQuarantine, State.port_modPort]
    rfl
  exact ⟨_, hexec, port_failPort_contained hleft hf (State.outstanding_freeQuarantine ho) 0x10⟩

theorem answers_recoveryTimeout {p : Byte} {s : State} (hr : (s.port p).state = .recovery) (hf : (s.port p).failed = false)
    (ho : s.outstanding p = []) :
    Answers (.recoveryTimeout p) s (fun t => (t.port p).state = .contained ∧ (t.port p).failed = true) := by
  have hexec : exec (.recoveryTimeout p) s = .next ((s.modPort p fun v => v.leave .contained).failPort p 0x11 true).evalLog :=
    if_neg (by simp [hr])
  have hleft : (s.modPort p fun v => v.leave .contained).port p = (s.port p).leave .contained := State.port_modPort s p _
  exact ⟨_, hexec, port_failPort_contained hleft hf ho 0x11⟩

/-! ## Resets (R323, R333, R337) -/

theorem answers_portResetEnd_receiver {p : Byte} {s : State} (hr : (s.port p).state = .resetting) :
    Answers (.portResetEnd p true) s (fun t => t.port p = (s.port p).leave .training ∧
      (∀ d ∈ t.dcmds, ¬ (d.port = p ∧ d.quarantined = true)) ∧ Only [.ports, .dcmds] s t) := by
  have hexec : exec (.portResetEnd p true) s = .next ((s.freeQuarantine p).modPort p fun v => v.leave .training) :=
    if_neg (by simp [hr])
  refine ⟨_, hexec, State.port_modPort .., fun d hd => ?freed,
    State.modPort_only (State.freeQuarantine_only (Only.refl _ s) rfl p) rfl p _⟩
  case freed =>
    have hfree := (List.mem_filter.1 hd).2
    rintro ⟨hp, hq⟩
    simp [hp, hq] at hfree

theorem answers_portResetEnd_gone {p : Byte} {s : State} (hr : (s.port p).state = .resetting) (hsrc : (s.port p).resetSrc = none) :
    Answers (.portResetEnd p false) s (fun t => (t.port p).state = .empty ∧ Only [.ports, .dcmds] s t) := by
  have hexec : exec (.portResetEnd p false) s =
      .next ((s.freeQuarantine p).modPort p fun v => { v.leave .empty with resetSrc := none }) := by
    show execPortResetEnd p false s = _
    simp only [execPortResetEnd, hr, hsrc]
    rfl
  exact ⟨_, hexec, congrArg Port.state (State.port_modPort ..),
    State.modPort_only (State.freeQuarantine_only (Only.refl _ s) rfl p) rfl p _⟩

/-- The reset of a READY drive with nothing outstanding: the port is RESETTING, a Flush has left, and no fault is reported. -/
theorem State.startReset_ready {s : State} {p : Byte} (hr : (s.port p).state = .ready) (ho : s.outstanding p = []) (src : Option CmdSrc) :
    ((s.startReset p src).port p).state = .resetting ∧ (s.startReset p src).flt = s.flt ∧
      (s.startReset p src).out = .driveCmd (driveCmd s.nextId p .flush .management 0 0 0 0 0 none) :: s.out := by
  have hreset : s.startReset p src = ((s.modPort p fun v =>
      { v with state := .resetting, resetSrc := src, shutdownSent := false, shutdownDone := false }).withNextId (s.nextId + 1)).emit
        (.driveCmd (driveCmd s.nextId p .flush .management 0 0 0 0 0 none)) := by
    simp only [State.startReset, hr, ho]
    rfl
  rw [hreset, State.port_emit, State.port_withNextId, State.port_modPort]
  exact ⟨rfl, rfl, rfl⟩

theorem answers_quarantineReset {p : Byte} {s : State} (hq : s.quarantined p ≠ []) (hon : s.regField Reg.dpQuarReset 0 16 ≠ 0)
    (hm : s.memberOf p = none) (hr : (s.port p).state = .ready) (ho : s.outstanding p = []) :
    Answers (.quarantineReset p) s (fun t => (t.port p).state = .resetting ∧ s.Faulted t (BitVec.ofNat 8 (0xB0 + groupOf p)) 0x0A) := by
  have hfault := State.linkFault_low s p (level := .note) 0x0A (.inl rfl)
  have hexec : exec (.quarantineReset p) s = .next ((s.linkFault p .note 0x0A).startReset p none) := by
    show execQuarantineReset p s = _
    simp [execQuarantineReset, hq, hon, hm, hr]
  obtain ⟨hreset, hflt, -⟩ := State.startReset_ready (s := s.linkFault p .note 0x0A) (p := p)
    (by rw [State.port_of_ports (hfault .ports (by decide)), hr]) ((State.outstanding_of_dcmds (hfault .dcmds (by decide)) p).trans ho) none
  exact ⟨_, hexec, hreset, (State.Faulted.linkFault rfl p .note 0x0A).of_src (State.src_of_sources (congrArg Flt.srcs hflt) _)⟩

/-! ## Warnings, errors and L1 (R321, R330, R343, R345) -/

theorem answers_driveAsyncEvent {p cw : Byte} {s : State} (hr : (s.port p).state = .ready) (h0 : cw ≠ 0)
    (hne : cw ≠ (s.port p).critWarn) :
    Answers (.driveAsyncEvent p cw) s (fun t => t.port p = { s.port p with critWarn := cw, warning := true } ∧
      s.Faulted t (BitVec.ofNat 8 (0xB0 + groupOf p)) 6) := by
  have hexec : exec (.driveAsyncEvent p cw) s =
      .next ((s.modPort p fun v => { v with critWarn := cw, warning := decide (cw ≠ 0) }).linkFault p .warn 6) := by
    show execDriveAsyncEvent p cw s = _
    rw [execDriveAsyncEvent, if_neg (by simp [hr])]
    exact congrArg _ (if_pos ⟨h0, hne⟩)
  refine ⟨_, hexec, ?changed, State.Faulted.linkFault rfl p .warn 6⟩
  case changed =>
    rw [State.port_of_ports (State.linkFault_low _ p 6 (.inr rfl) .ports (by decide)), State.port_modPort, decide_eq_true h0]

theorem answers_healthPoll {p cw used : Byte} {s : State} (hon : s.regField Reg.dpHealthPoll 0 16 ≠ 0) (hr : (s.port p).state = .ready)
    (hcw : cw = (s.port p).critWarn) :
    Answers (.healthPoll [(p, cw, used)]) s (fun t => (t.port p).pctUsed = used ∧ (t.port p).critWarn = cw ∧ Only [.ports] s t) := by
  have hexec : exec (.healthPoll [(p, cw, used)]) s = .next ((s.modPort p fun v => { v with pctUsed := used }).modPort p
      fun v => { v with critWarn := cw, warning := decide (cw ≠ 0) }) := by
    show execHealthPoll [(p, cw, used)] s = _
    rw [execHealthPoll, if_neg hon]
    simp [hr, State.critWarning, hcw]
  refine ⟨_, hexec, ?_, ?_, State.modPort_only (State.modPort_only (Only.refl _ s) rfl p _) rfl p _⟩
  all_goals rw [State.port_modPort, State.port_modPort]

theorem answers_driveDmaReject (p : Byte) (s : State) :
    Answers (.driveDmaReject p) s (fun t => s.Faulted t (BitVec.ofNat 8 (0xB0 + groupOf p)) 5) :=
  ⟨_, rfl, State.Faulted.linkFault rfl p .warn 5⟩

theorem answers_driveLinkErrorWindow {p : Byte} {errors : Nat} {s : State}
    (h : (s.count32 (Reg.dpLinkErrors p.toNat) errors).regField Reg.dpLinkerr 0 16 < errors) :
    Answers (.driveLinkErrorWindow p errors) s (fun t => s.Faulted t (BitVec.ofNat 8 (0xB0 + groupOf p)) 7) := by
  have hexec : exec (.driveLinkErrorWindow p errors) s =
      .next ((s.count32 (Reg.dpLinkErrors p.toNat) errors).linkFault p .note 7) := congrArg _ (if_pos h)
  exact ⟨_, hexec, State.Faulted.linkFault rfl p .note 7⟩

theorem answers_driveL1Entry {p : Byte} {s : State} (hr : (s.port p).state = .ready) (hpm : s.regBit Reg.dpPm 0 = true) :
    Answers (.driveL1Entry p) s (fun t => t.port p = { s.port p with inL1 := true } ∧ Only [.ports] s t) :=
  ⟨_, if_pos ⟨hr, hpm⟩, State.port_modPort .., State.modPort_only (Only.refl _ s) rfl p _⟩

/-! ## Groups (R340, R342, R490) -/

/-- A drained group without a READY drive has nothing to flush. -/
theorem State.flushGroup_eq_self {s : State} {g : Nat} (h : ∀ q ∈ groupPorts g, (s.port q).hasDrive = false) : s.flushGroup g = s :=
  List.foldlRecOn (motive := (· = s)) (groupPorts g) _ rfl fun t ht q hq => by
    subst ht
    simp [h q hq]

/-- The power of the listed ports goes off (R340 step 7): each of them is DARK, a MERGED one stays MERGED. -/
theorem port_foldl_dark {l : List Byte} (hl : l.Nodup) (s : State) (q : Byte) :
    (l.foldl (fun s p => (s.freeQuarantine p).modPort p fun v => if v.state = .merged then v else v.leave .dark) s).port q =
      if q ∈ l then (if (s.port q).state = .merged then s.port q else (s.port q).leave .dark) else s.port q :=
  foldl_port (I := fun _ => True) (F := fun _ v => if v.state = .merged then v else v.leave .dark) hl (fun _ _ _ _ => trivial)
    (fun t p _ _ => State.port_modPort (t.freeQuarantine p) p _)
    (fun t p _ _ _ hne => State.port_modPort_other (t.freeQuarantine p) _ hne) trivial q

theorem answers_groupDrainEnd {g : BitVec 4} {s : State} (hd : (s.group g.toNat).state = .draining) (hc : s.groupCmds g.toNat = [])
    (hsrc : (s.group g.toNat).src = none) (he : ∀ q ∈ groupPorts g.toNat, (s.port q).state = .empty) :
    Answers (.groupDrainEnd g) s (fun t => (t.group g.toNat).state = .dark ∧ (t.group g.toNat).pwren = false ∧
      (∀ q ∈ groupPorts g.toNat, (t.port q).state = .dark)) := by
  have hdrive : ∀ q ∈ groupPorts g.toNat, (s.port q).hasDrive = false := fun q hq => by simp [Port.hasDrive, he q hq]
  have hexec : exec (.groupDrainEnd g) s = .next (((groupPorts g.toNat).foldl (fun s p =>
      (s.freeQuarantine p).modPort p fun v => if v.state = .merged then v else v.leave .dark) s).modGroup g.toNat
        fun v => { v with state := .dark, pwren := false, src := none }) := by
    show execGroupDrainEnd g s = _
    rw [execGroupDrainEnd, if_neg (by simp [hd, hc]), State.groupDrained, State.flushGroup_eq_self hdrive, State.groupDown,
      if_neg (by simpa [hd] using fun q hq hx => absurd ((hdrive q hq).symm.trans hx) (by decide))]
    simp only [hsrc]
    rfl
  refine ⟨_, hexec, ?_, ?_, fun q hq => ?_⟩
  · rw [State.group_modGroup]
  · rw [State.group_modGroup]
  · have hport := port_foldl_dark (groupPorts_nodup g) s q
    rw [if_pos hq, if_neg (by simp [he q hq])] at hport
    rw [State.port_modGroup, hport]
    rfl

/-- What a group that keeps its power does to a port (R340 step 5): what was skipped meanwhile is caught up. -/
def Port.resume (v : Port) : Port :=
  if v.state = .ready ∧ v.formatOk ∧ !v.failed ∧ v.catchupMap ≠ [] then { v with catchup := true, catchupNext := 0 } else v

theorem port_foldl_resume {l : List Byte} (hl : l.Nodup) (s : State) (q : Byte) :
    (l.foldl (fun s p => s.modPort p Port.resume) s).port q = if q ∈ l then (s.port q).resume else s.port q :=
  foldl_port (I := fun _ => True) (F := fun _ => Port.resume) hl (fun _ _ _ _ => trivial)
    (fun t p _ _ => State.port_modPort t p _) (fun t _ _ _ _ hne => State.port_modPort_other t _ hne) trivial q

theorem foldl_modPort_only {M : List Field} (hM : sub [.ports] M = true) (l : List Byte) (f : Port → Port) (s : State) :
    Only M s (l.foldl (fun s p => s.modPort p f) s) :=
  only_foldl (Only.refl _ s) fun _ p ht => State.modPort_only ht hM p f

theorem groupOf_sixteen_mul (g : BitVec 4) : groupOf (BitVec.ofNat 8 (16 * g.toNat)) = g.toNat := by
  have hg := g.isLt
  simp only [groupOf, BitVec.toNat_ofNat]
  omega

theorem answers_drainTimeout {g : BitVec 4} {s : State} (hd : (s.group g.toNat).state = .draining) (hc : s.groupCmds g.toNat ≠ [])
    (hf : (s.group g.toNat).force = false) (hsrc : (s.group g.toNat).src = none) :
    Answers (.drainTimeout g) s (fun t => (t.group g.toNat).state = .powered ∧
      (∀ q : Byte, t.port q = if q ∈ groupPorts g.toNat then (s.port q).resume else s.port q) ∧
      s.Faulted t (BitVec.ofNat 8 (0xB0 + g.toNat)) 9) := by
  have hexec : exec (.drainTimeout g) s = .next (((groupPorts g.toNat).foldl (fun s p => s.modPort p Port.resume)
      (s.modGroup g.toNat fun v => { v with state := .powered, src := none, leftovers := 0 })).linkFault
        (BitVec.ofNat 8 (16 * g.toNat)) .note 9) := by
    show execDrainTimeout g s = _
    simp only [execDrainTimeout, hd, hf, hsrc]
    rw [if_neg (by decide), if_neg (by simpa using hc), if_neg (by decide)]
    rfl
  have hports := fun u : State => State.linkFault_low u (BitVec.ofNat 8 (16 * g.toNat)) (level := .note) 9 (.inl rfl)
  have hfold := fun u : State => foldl_modPort_only (M := [.ports]) rfl (groupPorts g.toNat) Port.resume u
  refine ⟨_, hexec, ?group, fun q => ?ports, ?fault⟩
  case group =>
    rw [State.group_state_linkFault _ _ 9 (.inl rfl), State.group_of_portGroups (hfold _ .portGroups (by decide)), State.group_modGroup]
  case ports =>
    rw [State.port_of_ports (hports _ .ports (by decide)), port_foldl_resume (groupPorts_nodup g)]
    rfl
  case fault =>
    have hfault := State.Faulted.linkFault (s := s) (hfold (s.modGroup g.toNat fun v =>
      { v with state := .powered, src := none, leftovers := 0 }) .sources (by decide)) (BitVec.ofNat 8 (16 * g.toNat)) .note 9
    rwa [groupOf_sixteen_mul] at hfault

/-- What the wake of its group makes of a port (R342 steps 2 and 3). -/
def State.wakePort (rs : List Byte) (s : State) (p : Byte) : State :=
  if (s.port p).state ≠ .dark then s
  else if p ∈ rs then s.modPort p (fun v => { v with state := .training })
  else
    let s := s.modPort p (fun v => { v with state := .empty })
    if (s.memberOf p).isSome then s.failPort p 0x11 true else s

theorem exec_groupWakeDelay {g : BitVec 4} {s : State} (h : (s.group g.toNat).state = .waking) (rs : List Byte) :
    exec (.groupWakeDelay g rs) s = .next (((groupPorts g.toNat).foldl (State.wakePort rs) s).groupUp g.toNat) := if_neg (by simp [h])

/-- A port that has a receiver trains, and one that has none is EMPTY. -/
def Port.woken (v : Port) (receiver : Bool) : Port := { v with state := if receiver then .training else .empty }

/-- A port of no set does not fail. -/
theorem State.wakePort_eq {s : State} {p : Byte} (hm : s.memberOf p = none) (rs : List Byte) :
    s.wakePort rs p = if (s.port p).state ≠ .dark then s else s.modPort p fun v => v.woken (decide (p ∈ rs)) := by
  have hafter (f : Port → Port) : (s.modPort p f).memberOf p = none := hm
  by_cases hr : p ∈ rs <;> simp [State.wakePort, Port.woken, hr, hafter]

theorem answers_groupWakeDelay {g : BitVec 4} {rs : List Byte} {s : State} (hw : (s.group g.toNat).state = .waking)
    (hd : ∀ q ∈ groupPorts g.toNat, (s.port q).state = .dark ∧ s.memberOf q = none) :
    Answers (.groupWakeDelay g rs) s (fun t => ∀ q ∈ groupPorts g.toNat,
      (t.port q).state = if q ∈ rs then .training else .empty) := by
  have hmember : ∀ t : State, t.sets = s.sets → ∀ p ∈ groupPorts g.toNat, t.memberOf p = none := fun t ht p hp =>
    (State.memberOf_of_sets ht p).trans (hd p hp).2
  have hport : ∀ q, ((groupPorts g.toNat).foldl (State.wakePort rs) s).port q = _ :=
    foldl_port (I := fun t => t.sets = s.sets) (F := fun p v => if v.state ≠ .dark then v else v.woken (decide (p ∈ rs)))
      (groupPorts_nodup g) ?keep ?self ?other rfl
  case keep =>
    intro t p hp ht
    rw [State.wakePort_eq (hmember t ht p hp)]
    split <;> exact ht
  case self =>
    intro t p hp ht
    rw [State.wakePort_eq (hmember t ht p hp)]
    split
    · rfl
    · exact State.port_modPort ..
  case other =>
    intro t p hp ht q hq
    rw [State.wakePort_eq (hmember t ht p hp)]
    split
    · rfl
    · exact State.port_modPort_other t _ hq
  have hup (u : State) : (u.groupUp g.toNat).ports = u.ports :=
    State.groupUp_only (M := [.regs, .rings, .portGroups, .interp, .hpus, .out]) (Only.refl _ u) rfl _ .ports (by decide)
  refine ⟨_, exec_groupWakeDelay hw rs, fun q hq => ?_⟩
  rw [State.port_of_ports (hup _), hport, if_pos hq, if_neg (by simp [(hd q hq).1])]
  simp [Port.woken]

/-! ## Catch-up of an extent, and the clocks of the groups (R342, R490) -/

theorem answers_catchupExtentDone {p : Byte} {e : Nat} {s : State} (hc : (s.port p).catchup = true) (he : s.extentCaught p e = true) :
    Answers (.catchupExtentDone p e) s (fun t => (t.port p).catchupMap = without (s.port p).catchupMap e ∧
      (t.port p).catchup = !(without (s.port p).catchupMap e).isEmpty ∧ Only [.ports] s t) := by
  refine ⟨_, if_neg (by simp [hc, he]), ?_, ?_, State.modPort_only (Only.refl _ s) rfl p _⟩
  all_goals rw [State.port_modPort]

/-- The clock of a group that asks for it starts, and no other (R490). -/
theorem State.reportClocks_clkreq {s : State} {g : BitVec 4} (hg : g.toNat < Config.groups s.part)
    (hoff : (s.group g.toNat).clkreqLow = false) (hpm : s.regField Reg.dpPm 1 2 ≠ 0) :
    (s.modGroup g.toNat fun v => { v with clkreqLow := true }).reportClocks s =
      (s.modGroup g.toNat fun v => { v with clkreqLow := true }).emit (.refclk g true) := by
  have hdiff : ∀ i, ((s.modGroup g.toNat fun v => { v with clkreqLow := true }).refclkRuns i != s.refclkRuns i) = (i == g.toNat) := by
    intro i
    by_cases hi : i = g.toNat
    · subst hi
      simp [State.refclkRuns, hoff, hpm]
    · have hregs : (s.modGroup g.toNat fun v => { v with clkreqLow := true }).regField Reg.dpPm 1 2 = s.regField Reg.dpPm 1 2 := rfl
      simp [State.refclkRuns, State.group_modGroup_other s _ hi, hregs, hi]
  have hon : (s.modGroup g.toNat fun v => { v with clkreqLow := true }).refclkRuns g.toNat = true := by simp [State.refclkRuns]
  have hone : (List.range (Config.groups s.part)).filter (· == g.toNat) = [g.toNat] := by
    rw [List.filter_beq, List.count_eq_one_of_mem List.nodup_range (List.mem_range.2 hg)]
    rfl
  unfold State.reportClocks
  simp only [hdiff]
  rw [show (s.modGroup g.toNat _).part = s.part from rfl, hone, List.foldl_cons, List.foldl_nil, hon,
    BitVec.ofNat_toNat, BitVec.setWidth_eq]

theorem answers_dpgClkreqN {g : BitVec 4} {s : State} (hg : g.toNat < Config.groups s.part) (hoff : (s.group g.toNat).clkreqLow = false)
    (hpm : s.regField Reg.dpPm 1 2 ≠ 0) :
    Answers (.dpgClkreqN g true) s (fun t => t.group g.toNat = { s.group g.toNat with clkreqLow := true } ∧
      t.out = .refclk g true :: s.out ∧ Only [.portGroups, .out] s t) := by
  have hexec : exec (.dpgClkreqN g true) s =
      .next ((s.modGroup g.toNat fun v => { v with clkreqLow := true }).reportClocks s) := if_neg (not_le.2 hg)
  rw [State.reportClocks_clkreq hg hoff hpm] at hexec
  exact ⟨_, hexec, (State.group_emit ..).trans (State.group_modGroup s _ _), rfl,
    State.emit_only (State.modGroup_only (Only.refl _ s) rfl _ _) rfl _⟩

/-- Settles O51: each event of a port or of a group has, for each way it can go, its lemma above. -/
theorem drivePortsLive : Obligations.DrivePortsLive := by
  unfold Obligations.DrivePortsLive
  refine ⟨?sealLimit, ?detected, ?found, ?up, ?failed, ?timeout, ?down, ?gone, ?linkError, ?recovery, ?resetEnd, ?resetGone, ?quarantine,
    ?warning, ?poll, ?reject, ?window, ?l1, ?fatal, ?drained, ?drainTimeout, ?wake, ?caughtUp, ?clock⟩
  case sealLimit => exact fun _ _ hl hp hf ho => answers_portSealLimit hl hp hf ho
  case detected => exact fun _ _ hp he hg hr => answers_receiverDetection_running hp he hg hr
  case found => exact fun _ _ hp he hg hr => answers_receiverDetection_recovery hp he hg hr
  case up =>
    intro p i s n g ht _ _ hgrant
    obtain ⟨t, hexec, hport⟩ := answers_driveBringupComplete_ok ht hgrant
    exact ⟨t, hexec, by simp [hport, Port.up]⟩
  case failed =>
    intro p s ht hr hg
    have hexec : exec (.driveBringupComplete p .failed) s = .next (s.bringupFailed p) := if_neg (by simp [ht])
    exact answers_bringupFailed hexec ht hr hg
  case timeout => exact fun _ _ ht hr hg => answers_bringupFailed rfl ht hr hg
  case down => exact fun _ _ hr ho => answers_linkDown_receiver hr ho
  case gone => exact fun _ _ hr hf ho => answers_linkDown_gone hr hf ho
  case linkError => exact fun _ _ hr ho => answers_uncorrectableLinkError hr ho
  case recovery => exact fun _ _ hr hf ho => answers_recoveryTimeout hr hf ho
  case resetEnd => exact fun _ _ hr => answers_portResetEnd_receiver hr
  case resetGone => exact fun _ _ hr hs => answers_portResetEnd_gone hr hs
  case quarantine => exact fun _ _ hq hon hm hr ho => answers_quarantineReset hq hon hm hr ho
  case warning => exact fun _ _ _ hr h0 hne => answers_driveAsyncEvent hr h0 hne
  case poll => exact fun _ _ _ _ hon hr hcw => answers_healthPoll hon hr hcw
  case reject => exact answers_driveDmaReject
  case window => exact fun _ _ _ h => answers_driveLinkErrorWindow h
  case l1 => exact fun _ _ hr hpm => answers_driveL1Entry hr hpm
  case fatal => exact fun _ _ hf ho => answers_controllerFatalStatus hf ho
  case drained => exact fun _ _ hd hc hs he => answers_groupDrainEnd hd hc hs he
  case drainTimeout =>
    intro g s hd hc hf hs
    obtain ⟨t, hexec, hgroup, hports, hfault⟩ := answers_drainTimeout hd hc hf hs
    refine ⟨t, hexec, hgroup, fun q => ?_, hfault⟩
    rw [hports]
    by_cases hq : q ∈ groupPorts g.toNat <;> simp [hq, Port.resume]
  case wake => exact fun _ _ _ hw hd => answers_groupWakeDelay hw hd
  case caughtUp => exact fun _ _ _ hc he => answers_catchupExtentDone hc he
  case clock => exact fun _ _ hg hoff hpm => answers_dpgClkreqN hg hoff hpm

end Sys2Proof.Machine
end

section
/-! PROOFS. The scrub cursors (spec/06_degraded_and_rebuild.md R193): SCRUB_CURSOR_SAVE on a table of sets in canonical form, and a state
whose table is not, where the live cursor of a set changes, so that the statement about scrub and row arbitration fails. -/

namespace Sys2Proof.Machine

/-- A canonical table of sets: the cursor of every set is made durable, and nothing else of a set changes. -/
theorem answers_scrubCursorSave_of_wf {s : State} (hwf : s.sets.wf ArraySet.at0 = true) :
    Answers .scrubCursorSave s (fun t => (∀ i, t.set i = { s.set i with scrubCursor := (s.set i).scrubLive }) ∧ Only [.sets] s t) :=
  ⟨_, rfl, fun i => Tab.get_mapV (fun _ => rfl) (Bool.and_eq_true_iff.1 hwf).1 i, only_withSets (Only.refl _ s) rfl⟩

/-- A controller whose table of sets lists set 0 twice: with a durable cursor at stripe 5 and a live one at stripe 0, which is what it
reads as, and below that with a live cursor at stripe 7. -/
def listsSetTwice : State :=
  { State.reset with
      sets := [(0, { ArraySet.at0 with scrubCursor := 5 }), (0, { ArraySet.at0 with scrubLive := 7 })] }

/-- The entry in front becomes the default and leaves the list, and set 0 reads the one below it. -/
theorem scrubLive_listsSetTwice : ∃ t, exec .scrubCursorSave listsSetTwice = .next t ∧
    (listsSetTwice.set 0).scrubLive = 0 ∧ (t.set 0).scrubLive = 7 := ⟨_, rfl, by decide, by decide⟩

/-- Refutes O53: its eighth clause speaks of every state, also one whose table of sets is not in canonical form. SCRUB_CURSOR_SAVE on a
table that lists set 0 twice moves the live cursor of set 0 from stripe 0 to stripe 7. On a canonical table the clause holds
(`answers_scrubCursorSave_of_wf`). -/
theorem not_scrubAndArbitration : ¬ Obligations.ScrubAndArbitration := by
  unfold Obligations.ScrubAndArbitration
  rintro ⟨-, -, -, -, -, -, -, hclause, -⟩
  obtain ⟨u, hu, hcursors, -⟩ := hclause listsSetTwice
  obtain ⟨t, ht, hbefore, hafter⟩ := scrubLive_listsSetTwice
  obtain rfl : u = t := Host.Outcome.next.inj (hu.symm.trans ht)
  have hlive := congrArg ArraySet.scrubLive (hcursors 0)
  rw [hafter, hbefore] at hlive
  exact absurd hlive (by decide)

end Sys2Proof.Machine
end

section
/-! PROOFS. What ends a halt and what clears PRIV_LOCK (spec/07_host_rings.md R222, R239; spec/08_command_packets.md R246, R248;
spec/16_startup_and_resets.md R463, R466). A command that cannot ask for a reset keeps both: its footprint lists neither, or it sets the
lock, or it is a register write elsewhere. FW_COMMIT, the one command packet that can, is denied during a halt. -/

namespace Sys2Proof.Machine

/-- From s to t a halt goes on, and PRIV_LOCK stays set. -/
structure Latched (s t : State) : Prop where
  halt : s.gcs.halted = true → t.gcs.halted = true
  lock : s.privLock = true → t.privLock = true

theorem Latched.refl (s : State) : Latched s s := ⟨id, id⟩

theorem Latched.trans {s t u : State} (h : Latched s t) (k : Latched t u) : Latched s u := ⟨k.halt ∘ h.halt, k.lock ∘ h.lock⟩

/-- Neither the halt nor PRIV_LOCK is among the parts of a frame. -/
def keepsLatches (M : List Field) : Bool := decide (Field.halt ∉ M) && decide (Field.privLock ∉ M)

theorem Latched.of_only {M : List Field} {s t : State} (h : Only M s t) (hM : keepsLatches M = true) : Latched s t := by
  simp only [keepsLatches, Bool.and_eq_true, decide_eq_true_eq] at hM
  exact ⟨h .halt hM.1, fun hl => Eq.trans (h .privLock hM.2) hl⟩

/-- Whatever next state an outcome answers keeps the halt and PRIV_LOCK of s. -/
def NextLatched (s : State) (o : Host.Outcome State Fault Refusal) : Prop := ∀ t, o = .next t → Latched s t

theorem Latched.next {s t : State} (h : Latched s t) : NextLatched s (.next t) := fun _ e => Host.Outcome.next.inj e ▸ h

theorem nextLatched_ite {s : State} {p : Prop} [Decidable p] {a b : Host.Outcome State Fault Refusal} (ha : p → NextLatched s a)
    (hb : ¬p → NextLatched s b) : NextLatched s (if p then a else b) := by
  split
  · exact ha ‹_›
  · exact hb ‹_›

theorem nextLatched_of_footprint {c : Instr} (hc : keepsLatches (footprint c) = true) (s : State) : NextLatched s (exec c s) :=
  fun t e => .of_only (exec_onlyFootprint c s t e) hc

theorem State.leaveDock_latched (s : State) : Latched s s.leaveDock :=
  .of_only (M := dockParts) (State.leaveDock_only (Only.refl _ s) rfl) rfl

theorem execPrivLock_latched (s : State) : NextLatched s (execPrivLock s) :=
  nextLatched_ite (fun _ => (Latched.refl s).next) fun _ => Latched.next ⟨s.leaveDock_latched.halt, fun _ => rfl⟩

/-! ## Register writes to other registers than GCS.RESET (R463) -/

section RowWrites
variable (s : State)

theorem State.after_latched {m : State → Host.Outcome State Fault Refusal} (hm : NextLatched s (m s)) : Latched s (s.after m) := by
  unfold State.after
  split
  · next t e => exact hm t e
  · exact .refl s

theorem State.afterIf_latched (b : Bool) {m : State → Host.Outcome State Fault Refusal} (hm : NextLatched s (m s)) :
    Latched s (s.afterIf b m) := by
  unfold State.afterIf
  split
  · exact s.after_latched hm
  · exact .refl s

/-- A row that a write runs, where its command can ask for no reset. -/
theorem State.row_latched {c : Instr} (hc : keepsLatches (footprint c) = true) : Latched s (s.after (exec c)) :=
  s.after_latched (nextLatched_of_footprint hc s)

theorem State.rowIf_latched (b : Bool) {c : Instr} (hc : keepsLatches (footprint c) = true) : Latched s (s.afterIf b (exec c)) :=
  s.afterIf_latched b (nextLatched_of_footprint hc s)

/-- The state that an operation gives, if any, keeps the halt and PRIV_LOCK. -/
def OptLatched (o : Option State) : Prop := ∀ t, o = some t → Latched s t

variable {s}

theorem Latched.opt {t : State} (h : Latched s t) : OptLatched s (some t) := fun _ e => Option.some.inj e ▸ h

theorem optLatched_none : OptLatched s none := fun _ e => nomatch e

theorem optLatched_ite {p : Prop} [Decidable p] {a b : Option State} (ha : OptLatched s a) (hb : OptLatched s b) :
    OptLatched s (if p then a else b) := by
  split
  · exact ha
  · exact hb

variable (s)

/-- Of the rows that a write can run only GCS.RESET reaches the resets. -/
theorem State.rowWrite_latched (p : Bool) {o : Nat} (v : Nat) (ho : o ≠ Reg.gcsReset) : OptLatched s (s.rowWrite p o v) := by
  unfold State.rowWrite
  rw [if_neg ho]
  refine optLatched_ite ((s.rowIf_latched _ (c := .dockExit) rfl).trans (State.rowIf_latched _ _ (c := .dockEnter) rfl)).opt ?_
  refine optLatched_ite (s.rowIf_latched _ (c := .anchor) rfl).opt ?_
  refine optLatched_ite (s.rowIf_latched _ (c := .chartFlush) rfl).opt ?_
  refine optLatched_ite (s.afterIf_latched _ (execPrivLock_latched s)).opt ?_
  refine optLatched_ite (s.rowIf_latched _ (c := .alertClr) rfl).opt ?_
  refine optLatched_ite (s.rowIf_latched _ (c := .pwinGo) rfl).opt ?_
  refine optLatched_ite (s.row_latched (c := .pwinPages _) rfl).opt ?_
  have hctl (n : Bool) : Latched s (s.writeHpuCtl p n v) :=
    .of_only (State.writeHpuCtl_only (M := footprint (.containNow n)) (Only.refl _ s) rfl p n v) rfl
  refine optLatched_ite (hctl false).opt (optLatched_ite (hctl true).opt ?_)
  split
  · exact (s.row_latched (c := .calBankSel _ _) rfl).opt
  split
  · exact (s.row_latched (c := .mqEnable _ _) rfl).opt
  split
  · exact (s.row_latched (c := .mqCons _ _) rfl).opt
  split
  · exact (Latched.of_only (State.writeChanCtl_only (M := footprint (.channelDisable 0)) (Only.refl _ s) rfl _ _) rfl).opt
  split
  · exact (s.row_latched (c := .channelDesc _ _) rfl).opt
  split
  · exact optLatched_ite (Latched.of_only (State.writeEnable_only (M := footprint (.ringEnable (.data 0))) (Only.refl _ s) rfl _ _)
      rfl).opt optLatched_none
  · exact optLatched_none

theorem State.writeReg_latched (p : Bool) {o : Nat} (v : Nat) (ho : o ≠ Reg.gcsReset) : Latched s (s.writeReg p o v) := by
  unfold State.writeReg
  split
  · exact .refl s
  · split
    · exact .refl s
    · split
      · next e => exact s.rowWrite_latched p v ho _ e
      · split
        · exact .of_only (M := [.pwin]) (State.writeShadow_only (Only.refl _ s) rfl _ _) rfl
        · split
          · exact .refl s
          · exact .of_only (M := .timer :: footprint .holdResume)
              (State.wrote_only (State.storeReg_only (Only.refl _ s) rfl _ _ _) rfl _ _ _) rfl

theorem State.write32_latched (p : Bool) {o : Nat} (v : Nat) (ho : o ≠ Reg.gcsReset) : Latched s (s.write32 p o v) := by
  have hgcs (low : Tab (Option Word32)) : Latched s (s.withGcs { s.gcs with splitLow := low }) := ⟨id, id⟩
  unfold State.write32
  split
  · exact .of_only (M := footprint (.msixUnmask p 0)) (State.writeMsix_only (Only.refl _ s) rfl _ _ _) rfl
  · split
    · exact .of_only (M := raiseParts) (State.writeDoorbell_only (Only.refl _ s) rfl _ _) rfl
    · split
      · exact hgcs _
      · split
        · next hupper =>
          have hlower : o - 4 ≠ Reg.gcsReset := by
            simp only [Bool.and_eq_true, decide_eq_true_eq] at hupper
            simp only [Reg.gcsReset]
            omega
          exact (hgcs _).trans (State.writeReg_latched _ p _ hlower)
        · exact s.writeReg_latched p v ho

theorem State.write64_latched (p : Bool) {o : Nat} (v : Nat) (ho : o ≠ Reg.gcsReset) : Latched s (s.write64 p o v) := by
  unfold State.write64
  split
  · exact .of_only (M := footprint (.msixUnmask p 0))
      (State.writeMsix_only (State.writeMsix_only (Only.refl _ s) rfl _ _ _) rfl _ _ _) rfl
  · split
    · exact .of_only (M := raiseParts) (State.writeDoorbell_only (Only.refl _ s) rfl _ _) rfl
    · split
      · exact s.writeReg_latched p v ho
      · exact .refl s

theorem execRegisterWrite_latched (p : Bool) {offset : BitVec 26} (wide : Bool) (value : Word64) (ho : offset.toNat ≠ Reg.gcsReset) :
    NextLatched s (execRegisterWrite p offset wide value s) := by
  have hleave : Latched s (s.leaveFor offset.toNat) := .of_only (M := dockParts) (State.leaveFor_only (Only.refl _ s) rfl _) rfl
  refine nextLatched_ite (fun _ => ?dropped) fun _ => nextLatched_ite (fun _ => (Latched.refl s).next) fun _ =>
    nextLatched_ite (fun _ => (Latched.refl s).next) fun _ => nextLatched_ite (fun _ => ?whole) fun _ => ?word
  case dropped => exact (Latched.of_only (M := [.regs]) (State.count32_only (Only.refl _ s) rfl _ _) rfl).next
  case whole => exact (hleave.trans (State.write64_latched _ p _ ho)).next
  case word => exact (hleave.trans (State.write32_latched _ p _ ho)).next

end RowWrites

/-! ## Command packets during a halt (R246) -/

theorem isSome_foldl {α β : Type} {f : Option β → α → Option β} (hf : ∀ b a, (f b a).isSome = true) {l : List α} (hl : l ≠ [])
    (b : Option β) : (l.foldl f b).isSome = true := by
  rw [← List.dropLast_concat_getLast hl, List.foldl_append]
  exact hf _ _

/-- A list of checks with one that fails reports a failure. -/
theorem reported_ne_none {l : List (Option (Byte × Byte))} {f : Byte × Byte} (h : some f ∈ l) : reported l ≠ none := by
  have hne : l.filterMap id ≠ [] := List.ne_nil_of_mem (List.mem_filterMap.2 ⟨some f, h, rfl⟩)
  refine Option.isSome_iff_ne_none.1 (isSome_foldl (fun b a => ?_) hne none)
  cases b <;> rfl

/-- A privileged command fails its checks while the controller is halted. -/
theorem State.verdict_ne_none_of_halted {s : State} {c : CmdInfo} (hh : s.gcs.halted = true) (hc : c.priv = true) (src : CmdSrc)
    (pkt : Bytes) (bad : List (Bool × Nat)) (checks : List (Option (Byte × Byte))) : s.verdict src c pkt bad checks ≠ none := by
  refine reported_ne_none (f := (stDenied, 5)) ?_
  simp [State.denials, failIf, hh, hc]

theorem cmdInfo_op {op : Nat} {c : CmdInfo} (h : cmdInfo op = some c) : c.op = op := by
  simpa using List.find?_some h

/-- A command that is privileged is answered with a failure, or waits, while the controller is halted. -/
theorem State.serve_only_of_halted {s : State} {op : Nat} (hh : s.gcs.halted = true) (hop : ∀ c, cmdInfo op = some c → c.priv = true)
    (src : CmdSrc) (bad : Bytes → List (Bool × Nat)) (checks : Bytes → List (Option (Byte × Byte))) (run : Bytes → State) :
    Only (.freeCount :: replyParts) s (s.serve src op bad checks run) := by
  unfold State.serve
  split
  · exact Only.refl _ s
  · split
    · exact State.reply_only (Only.refl _ s) rfl _ _ _ _ _
    · next c hc =>
      split
      · exact Only.refl _ s
      · next hserved =>
        have hpriv : c.priv = true := hop c (by rwa [← not_not.1 fun e => hserved (.inl e), cmdInfo_op hc])
        split
        · exact State.fail_only (Only.refl _ s) rfl _ _ _
        · next hv => exact absurd hv (State.verdict_ne_none_of_halted hh hpriv src _ _ _)

theorem cmdInfo_fwCommit_priv {c : CmdInfo} (h : cmdInfo 0x0C02 = some c) : c.priv = true := by
  have hrow : cmdInfo 0x0C02 = some (cmdRow 0x0C02 true true true [(0x10, 1)]) := by decide
  rw [← Option.some.inj (hrow.symm.trans h)]
  rfl

theorem execFwCommit_latched {s : State} (hh : s.gcs.halted = true) (src : CmdSrc) : NextLatched s (execFwCommit src s) :=
  (Latched.of_only (State.serve_only_of_halted hh (fun _ => cmdInfo_fwCommit_priv) src _ _ _) rfl).next

/-- Of the commands that a deferred start may serve only FW_COMMIT can ask for a reset. -/
theorem execDeferredCommandStart_latched {s : State} (hh : s.gcs.halted = true) (src : CmdSrc) :
    NextLatched s (execDeferredCommandStart src s) := by
  have hrow (c : Instr) (hc : keepsLatches (footprint c) = true) (p : Prop) : p → NextLatched s (exec c s) :=
    fun _ => nextLatched_of_footprint hc s
  unfold execDeferredCommandStart
  split
  · exact (Latched.refl s).next
  · exact nextLatched_ite (hrow (.setRecover src) rfl _) fun _ => nextLatched_ite (hrow (.setReadPreserved src) rfl _) fun _ =>
      nextLatched_ite (hrow (.portReset src) rfl _) fun _ => nextLatched_ite (hrow (.portAdmin src) rfl _) fun _ =>
      nextLatched_ite (hrow (.groupPower src) rfl _) fun _ => nextLatched_ite (hrow (.watchSetTod src) rfl _) fun _ =>
      nextLatched_ite (hrow (.cleanRange src) rfl _) fun _ => nextLatched_ite (hrow (.invalRange src) rfl _) fun _ =>
      nextLatched_ite (hrow (.discardRange src) rfl _) fun _ => nextLatched_ite (hrow (.calRun src) rfl _) fun _ =>
      nextLatched_ite (hrow (.pairJoin src) rfl _) fun _ => nextLatched_ite (hrow (.pairLeave src) rfl _) fun _ =>
      nextLatched_ite (fun _ => execFwCommit_latched hh src) fun _ => (Latched.refl s).next

/-! ## Whole commands -/

/-- The commands that may ask for a reset (R261, R458, R463). -/
def mayReset : Instr → Bool
  | .powerLoss | .powerOn _ _ | .softReset _ | .chainReset _ _ | .fwCommit _ | .deferredCommandStart _ => true
  | .registerWrite _ o _ _ => decide (o.toNat = Reg.gcsReset)
  | _ => false

theorem mayReset_iff (c : Instr) : mayReset c = true ↔
    c = .powerLoss ∨ (∃ b k, c = .powerOn b k) ∨ (∃ k, c = .softReset k) ∨ (∃ a b, c = .chainReset a b) ∨
      (∃ p o w v, c = .registerWrite p o w v ∧ o.toNat = Reg.gcsReset) ∨ (∃ src, c = .fwCommit src) ∨
      ∃ src, c = .deferredCommandStart src := by
  cases c <;> simp [mayReset]

/-- A command that can ask for no reset keeps the halt and PRIV_LOCK. -/
theorem exec_latched {c : Instr} (h : mayReset c = false) (s : State) : NextLatched s (exec c s) := by
  cases hc : keepsLatches (footprint c) with
  | true => exact nextLatched_of_footprint hc s
  | false =>
    cases c
    case privLock => exact execPrivLock_latched s
    case registerWrite p offset wide value => exact execRegisterWrite_latched s p wide value (of_decide_eq_false h)
    case powerLoss | powerOn | softReset | chainReset | fwCommit | deferredCommandStart => exact nomatch h
    all_goals exact nomatch hc


/-- Settles O11: a command that can ask for no reset keeps both, and during a halt no packet can ask for one. -/
theorem haltAndLockEndOnlyWithAReset : Obligations.HaltAndLockEndOnlyWithAReset := by
  unfold Obligations.HaltAndLockEndOnlyWithAReset
  refine ⟨fun c s t hset he hclear => ?halt, fun c s t hset he hclear => ?lock⟩
  case lock =>
    cases hc : mayReset c with
    | true => exact (mayReset_iff c).1 hc
    | false => exact absurd ((exec_latched hc s t he).lock hset) (by simp [hclear])
  case halt =>
    have hends : ¬ NextLatched s (exec c s) := fun hl => absurd ((hl t he).halt hset) (by simp [hclear])
    cases hc : mayReset c with
    | false => exact absurd (exec_latched hc s) hends
    | true =>
      rcases (mayReset_iff c).1 hc with h | h | h | h | h | ⟨src, rfl⟩ | ⟨src, rfl⟩
      · exact .inl h
      · exact .inr (.inl h)
      · exact .inr (.inr (.inl h))
      · exact .inr (.inr (.inr (.inl h)))
      · exact .inr (.inr (.inr (.inr h)))
      · exact absurd (execFwCommit_latched hset src) hends
      · exact absurd (execDeferredCommandStart_latched hset src) hends

end Sys2Proof.Machine
end

section
/-! PROOFS. Resets and power states of one host port (spec/07_host_rings.md R215; spec/15_host_port.md R458; spec/16_startup_and_resets.md
R463, R466, R471): what the effects of an FLR leave of the port, and what each event makes of it. -/

namespace Sys2Proof.Machine

/-- The FLR source of a port (R455) is none that other faults raise (R349, R238). -/
theorem flrSource_not_mem (p : Bool) : hpuSource 0x17 p ∉ ([0x02, 0x24, 0x25] : List Byte) := by cases p <;> decide

/-- A port as an FLR leaves it (R466): out of containment and D3hot, its configuration space and its vectors at their reset values. -/
def Hpu.flrReset (h : Hpu) : Hpu :=
  { h with contained := false, d3hot := false, inL1 := false, cfg := HostCfg.at0, barSize := 10, msix := [], pendingBits := [] }

/-- The effects of an FLR end with the reset of the port itself. -/
theorem State.exists_hpu_flrEffects (s : State) (p : Bool) : ∃ h : Hpu, (s.flrEffects p).hpu p = h.flrReset :=
  ⟨_, State.hpu_modHpu _ p Hpu.flrReset⟩

theorem execPerstN_of_no_reset {s : State} (p : Bool) (h : s.gcs.resetNow = none) :
    exec (.perstN p) s = .next ((((s.flrEffects p).linkReset p).modHpu p (fun h => { h with perstLow := true })).modHpu p
      (fun h => { h with cause := 0 })) := if_neg (by simp [h])

theorem execFlr_of_no_reset {s : State} (p : Bool) (h : s.gcs.resetNow = none) :
    exec (.flr p) s = .next ((s.flrEffects p).raise (hpuSource 0x17 p) .note 1) := if_neg (by simp [h])

theorem execHotReset_of_no_reset {s : State} (p : Bool) (h : s.gcs.resetNow = none) :
    exec (.hotReset p) s = .next (((s.flrEffects p).linkReset p).modHpu p (fun h =>
      { h with contained := (s.hpu p).contained, cause := (s.hpu p).cause })) := if_neg (by simp [h])

theorem State.hpu_linkReset (s : State) (p : Bool) : (s.linkReset p).hpu p =
    { s.hpu p with dlUp := false, speed := 0, width := 0, narrow := false, inL1 := false } := State.hpu_modHpu ..

theorem answers_perstN {s : State} (p : Bool) (h : s.gcs.resetNow = none) :
    Answers (.perstN p) s (fun t =>
      (t.hpu p).perstLow = true ∧ (t.hpu p).dlUp = false ∧ (t.hpu p).contained = false ∧ (t.hpu p).cause = 0 ∧
      (t.hpu p).d3hot = false ∧ (t.hpu p).cfg = HostCfg.at0 ∧ (t.hpu p).msix = [] ∧ (t.hpu p).barSize = 10) := by
  obtain ⟨g, hg⟩ := s.exists_hpu_flrEffects p
  refine ⟨_, execPerstN_of_no_reset p h, ?_⟩
  simp [State.hpu_linkReset, hg, Hpu.flrReset]

theorem answers_flr {s : State} (p : Bool) (h : s.gcs.resetNow = none) :
    Answers (.flr p) s (fun t =>
      (t.hpu p).contained = false ∧ (t.hpu p).d3hot = false ∧ (t.hpu p).cfg = HostCfg.at0 ∧
      (t.hpu p).msix = [] ∧ (t.src (hpuSource 0x17 p)).isOpen = true) := by
  obtain ⟨g, hg⟩ := s.exists_hpu_flrEffects p
  have hne := flrSource_not_mem p
  simp only [List.mem_cons, List.not_mem_nil, or_false, not_or] at hne
  obtain ⟨h2, h24, h25⟩ := hne
  have hlinks : (((s.flrEffects p).raise (hpuSource 0x17 p) .note 1).hpu p).fixed = g.flrReset.fixed :=
    (State.raise_low _ _ _ _ (.inl rfl) .links (by decide) p).trans (congrArg Hpu.fixed hg)
  refine ⟨_, execFlr_of_no_reset p h, ?_, ?_, ?_, ?_, (State.raise_src _ _ _ _ h2 h24 h25).2.1⟩
  · exact congrArg Hpu.contained hlinks
  · exact congrArg Hpu.d3hot hlinks
  · exact congrArg Hpu.cfg hlinks
  · exact congrArg Hpu.msix hlinks

theorem answers_hotReset {s : State} (p : Bool) (h : s.gcs.resetNow = none) :
    Answers (.hotReset p) s (fun t =>
      (t.hpu p).dlUp = false ∧ (t.hpu p).contained = (s.hpu p).contained ∧ (t.hpu p).cause = (s.hpu p).cause ∧
      (t.hpu p).cfg = HostCfg.at0) := by
  obtain ⟨g, hg⟩ := s.exists_hpu_flrEffects p
  refine ⟨_, execHotReset_of_no_reset p h, ?_⟩
  simp [State.hpu_linkReset, hg, Hpu.flrReset]

/-- A command that changes one host port changes nothing else. -/
theorem answers_modHpu {c : Instr} {s : State} {p : Bool} {f : Hpu → Hpu} (h : exec c s = .next (s.modHpu p f)) :
    Answers c s (fun t => t.hpu p = f (s.hpu p) ∧ t.hpu (!p) = s.hpu (!p) ∧ Only [.hpus, .links] s t) :=
  ⟨_, h, s.hpu_modHpu p f, s.hpu_modHpu_not p f, State.modHpu_only (Only.refl _ s) rfl p f (.inl rfl)⟩

/-- What had waited for D0 leaves, and of the port itself nothing else changes (R471). -/
theorem answers_d0Return {s : State} {p : Bool} (h : (s.hpu p).d3hot = true) :
    Answers (.d0Return p) s (fun t => (t.hpu p).fixed = { (s.hpu p).fixed with d3hot := false }) := by
  have hexec : exec (.d0Return p) s = .next ((s.modHpu p (fun h => { h with d3hot := false })).resumePort p) := if_neg (by simp [h])
  have hresume : Only (.dmv :: raiseParts) (s.modHpu p (fun h => { h with d3hot := false })) _ :=
    State.resumePort_only (Only.refl _ _) rfl p
  exact ⟨_, hexec, (hresume .links (by decide) p).trans (congrArg Hpu.fixed (State.hpu_modHpu ..))⟩

/-- Settles O18: each event of a port is the change of the port that its lemma above states. -/
theorem portResetsAndPowerStates : Obligations.PortResetsAndPowerStates := by
  unfold Obligations.PortResetsAndPowerStates
  refine ⟨fun p _ h => answers_perstN p h, fun _ _ => answers_modHpu (f := fun h => { h with perstLow := false }) rfl,
    fun p _ h => answers_flr p h, fun p s k h => ?ignored, fun p _ h => answers_hotReset p h,
    fun _ _ => answers_modHpu (f := fun h => { h with d3hot := true }) rfl, fun _ _ h => answers_d0Return h⟩
  case ignored => exact if_pos (by simp [h])

end Sys2Proof.Machine
end

section
/-! PROOFS. MSI-X messages (spec/07_host_rings.md R230; spec/15_host_port.md R437, R438): a message that nothing holds back leaves, after
the holdoff of its ring or once its vector is unmasked. -/

namespace Sys2Proof.Machine

theorem State.portSilent_eq_false_iff {s : State} {p : Bool} :
    s.portSilent p = false ↔ (s.hpu p).contained = false ∧ (s.hpu p).d3hot = false ∧ s.haltClosed = false := by
  simp only [State.portSilent, Bool.or_eq_false_iff, and_assoc]

@[simp] theorem State.haltClosed_modHpu (s : State) (p : Bool) (f : Hpu → Hpu) : (s.modHpu p f).haltClosed = s.haltClosed := rfl

theorem State.ring_of_rings {s t : State} (h : t.rings = s.rings) (r : RingId) : t.ring r = s.ring r := by
  unfold State.ring
  rw [h]

@[simp] theorem State.ring_hostOut (s : State) (p : Bool) (o : Out) (r : RingId) : (s.hostOut p o).ring r = s.ring r :=
  State.ring_of_rings (State.hostOut_only (M := [.hpus, .out]) (Only.refl _ s) rfl p o .rings (by decide)) r

/-- Sending takes the link out of L1 (R439) and changes nothing else of the port. -/
theorem State.hpu_hostOut (s : State) (p : Bool) (o : Out) : (s.hostOut p o).hpu p = { s.hpu p with inL1 := false } := by
  unfold State.hostOut
  split
  · exact s.hpu_modHpu p (fun h => { h with inL1 := false })
  · next h => rw [← Bool.eq_false_iff.2 h]; rfl

/-- Nothing holds back the message of vector v of port p (R438, R443): MSI-X is enabled, neither the function nor the vector is masked,
and the port may send. -/
structure State.MsixOpen (s : State) (p : Bool) (v : Nat) : Prop where
  enabled : (s.hpu p).cfg.msixEnable = true
  functionOpen : (s.hpu p).cfg.functionMask = false
  vectorOpen : (s.msixEntry p v).masked = false
  sends : s.portSilent p = false

/-- A change of the port that leaves its configuration, its power state and its vectors alone leaves its messages free to go. -/
theorem State.MsixOpen.modHpu {s : State} {p : Bool} {v : Nat} (h : s.MsixOpen p v) {f : Hpu → Hpu}
    (hcfg : (f (s.hpu p)).cfg = (s.hpu p).cfg) (hcont : (f (s.hpu p)).contained = (s.hpu p).contained)
    (hd3 : (f (s.hpu p)).d3hot = (s.hpu p).d3hot) (hmsix : (f (s.hpu p)).msix = (s.hpu p).msix) : (s.modHpu p f).MsixOpen p v := by
  obtain ⟨henabled, hfunction, hvector, hsends⟩ := h
  refine ⟨?_, ?_, ?_, ?_⟩
  · rw [State.hpu_modHpu, hcfg, henabled]
  · rw [State.hpu_modHpu, hcfg, hfunction]
  · rw [State.msixEntry, State.hpu_modHpu, hmsix]
    exact hvector
  · rw [State.portSilent_eq_false_iff] at hsends ⊢
    rwa [State.hpu_modHpu, hcont, hd3]

/-- A message that is not held back leaves. -/
theorem State.MsixOpen.sendMsix {s : State} {p : Bool} {v : Nat} (h : s.MsixOpen p v) : s.sendMsix p v = s.hostOut p (.msix p v) := by
  obtain ⟨henabled, hfunction, hvector, hsends⟩ := h
  have hopen : s.haltClosed = false := (State.portSilent_eq_false_iff.1 hsends).2.2
  simp [State.sendMsix, henabled, hfunction, hvector, hsends, hopen]

/-! ## The holdoff of a ring (R230) -/

theorem answers_msixHoldoffExpiry {r : RingId} {s : State} (hu : (s.ring r).unsignalled ≠ 0) (hen : bitOf (s.ringCfg r) 31 = true)
    (hopen : s.MsixOpen (s.ringPort r) (bitsOf (s.ringCfg r) 16 11)) :
    Answers (.msixHoldoffExpiry (.ring r)) s (fun t =>
      Out.msix (s.ringPort r) (bitsOf (s.ringCfg r) 16 11) ∈ t.out ∧ (t.ring r).unsignalled = 0 ∧ Only [.rings, .hpus, .out] s t) := by
  have hsignalled : (s.modRing r (fun g => { g with unsignalled := 0 })).MsixOpen (s.ringPort r) (bitsOf (s.ringCfg r) 16 11) :=
    ⟨hopen.enabled, hopen.functionOpen, hopen.vectorOpen, hopen.sends⟩
  have hexec : exec (.msixHoldoffExpiry (.ring r)) s = .next ((s.modRing r (fun g => { g with unsignalled := 0 })).hostOut
      (s.ringPort r) (.msix (s.ringPort r) (bitsOf (s.ringCfg r) 16 11))) :=
    (if_neg (by simp [hu, hen])).trans (congrArg _ hsignalled.sendMsix)
  exact ⟨_, hexec, by simp, by simp, State.hostOut_only (State.modRing_only (Only.refl _ s) rfl r _) rfl _ _⟩

/-! ## Unmasking (R438) -/

/-- The one pending message of a port leaves when nothing holds it back. -/
theorem State.MsixOpen.sendPending {s : State} {p : Bool} {v : Nat} (h : s.MsixOpen p v) (hb : (s.hpu p).pendingBits = [v]) :
    s.sendPending p = (s.modHpu p (fun h => { h with pendingBits := without h.pendingBits v })).hostOut p (.msix p v) := by
  have hcleared : (s.modHpu p (fun h => { h with pendingBits := without h.pendingBits v })).MsixOpen p v := h.modHpu rfl rfl rfl rfl
  rw [← hcleared.sendMsix]
  obtain ⟨henabled, hfunction, hvector, hsends⟩ := h
  simp [State.sendPending, henabled, hfunction, hvector, hsends, hb]

/-- Vector v of a port unmasked. -/
def Hpu.unmask (h : Hpu) (v : Nat) : Hpu :=
  { h with msix := Tab.set h.msix MsixEntry.at0 v { Tab.get h.msix MsixEntry.at0 v with masked := false } }

theorem answers_msixUnmask {p : Bool} {v : BitVec 11} {s : State} (hc : s.haltClosed = false) (hd : s.gcs.phase ≠ .dock)
    (hen : (s.hpu p).cfg.msixEnable = true) (hf : (s.hpu p).cfg.functionMask = false) (hcont : (s.hpu p).contained = false)
    (hd3 : (s.hpu p).d3hot = false) (hb : (s.hpu p).pendingBits = [v.toNat]) :
    Answers (.msixUnmask p v) s (fun t =>
      Out.msix p v.toNat ∈ t.out ∧ (t.hpu p).pendingBits = [] ∧ (t.msixEntry p v.toNat).masked = false ∧
        Only [.hpus, .links, .out] s t) := by
  have hopen : (s.modHpu p (fun h => h.unmask v.toNat)).MsixOpen p v.toNat := by
    refine ⟨by simpa [Hpu.unmask] using hen, by simpa [Hpu.unmask] using hf, ?vector, ?sends⟩
    case vector => simp [State.msixEntry, Hpu.unmask]
    case sends => simpa [State.portSilent_eq_false_iff, Hpu.unmask] using ⟨hcont, hd3, hc⟩
  have hpending : ((s.modHpu p (fun h => h.unmask v.toNat)).hpu p).pendingBits = [v.toNat] := by
    simpa [Hpu.unmask] using hb
  have hexec : exec (.msixUnmask p v) s = .next ((s.modHpu p (fun h => h.unmask v.toNat)).sendPending p) := by
    refine (if_neg (by simp [hc])).trans ?_
    rw [State.leaveDock_of_not_dock hd]
    rfl
  rw [hopen.sendPending hpending] at hexec
  refine ⟨_, hexec, by simp, ?bits, ?entry, ?frame⟩
  case bits => simp [State.hpu_hostOut, Hpu.unmask, hb, without]
  case entry => simp [State.msixEntry, State.hpu_hostOut, Hpu.unmask]
  case frame =>
    exact State.hostOut_only (State.modHpu_only (State.modHpu_only (Only.refl _ s) rfl p _ (.inl rfl)) rfl p _ (.inl rfl)) rfl _ _

/-- Settles O26: the message leaves, after the holdoff or on unmasking. -/
theorem messagesLeaveWhenUnmasked : Obligations.MessagesLeaveWhenUnmasked := by
  unfold Obligations.MessagesLeaveWhenUnmasked
  exact ⟨fun _ _ hu hen hx hf hs hv => answers_msixHoldoffExpiry hu hen ⟨hx, hf, hv, hs⟩,
    fun _ _ _ hc hd hen hf hcont hd3 hb => answers_msixUnmask hc hd hen hf hcont hd3 hb⟩

end Sys2Proof.Machine
end

section
/-! PROOFS. The states of the rings (spec/07_host_rings.md R210 to R213, R216, R221, R236, R239): what records, heads that move and faults
below STOP leave of them, the descriptors that a disable ends, and what enabling, disabling, locking and the halt close make of a ring. -/

namespace Sys2Proof.Machine

/-! ## Records, head words and faults keep the state of every ring -/

/-- Every ring is in the state of R210 in t that it has in s. -/
structure SameRingStates (s t : State) : Prop where
  state : ∀ r, (t.ring r).state = (s.ring r).state

theorem SameRingStates.refl (s : State) : SameRingStates s s := ⟨fun _ => rfl⟩

theorem SameRingStates.trans {s t u : State} (h : SameRingStates s t) (k : SameRingStates t u) : SameRingStates s u :=
  ⟨fun r => (k.state r).trans (h.state r)⟩

theorem SameRingStates.of_only {M : List Field} {s t : State} (h : Only M s t) (hM : decide (Field.rings ∉ M) = true) :
    SameRingStates s t := ⟨fun r => congrArg Ring.state (State.ring_of_rings (h .rings (of_decide_eq_true hM)) r)⟩

theorem State.setRing_sameStates (s : State) {r : RingId} {v : Ring} (h : v.state = (s.ring r).state) :
    SameRingStates s (s.setRing r v) := by
  refine ⟨fun q => ?_⟩
  by_cases hq : q = r
  · rw [hq, State.ring_setRing, h]
  · rw [State.ring_setRing_other s v hq]

theorem State.modRing_sameStates (s : State) {r : RingId} {f : Ring → Ring} (h : ∀ g, (f g).state = g.state) :
    SameRingStates s (s.modRing r f) := s.setRing_sameStates (h _)

theorem State.hostOut_sameStates (s : State) (p : Bool) (o : Out) : SameRingStates s (s.hostOut p o) :=
  ⟨fun r => congrArg Ring.state (s.ring_hostOut p o r)⟩

theorem State.notify_sameStates (s : State) (r : RingId) (k : Nat) : SameRingStates s (s.notify r k) := by
  have hmod (u : Nat) : SameRingStates s (s.modRing r (fun g => { g with unsignalled := u })) := s.modRing_sameStates fun _ => rfl
  unfold State.notify
  split
  · exact .refl s
  · dsimp only
    split
    · exact (hmod 0).trans (.of_only (M := [.hpus, .out]) (State.sendMsix_only (Only.refl _ _) rfl _ _) rfl)
    · exact hmod _

theorem State.writeRecord_sameStates (s : State) (p : Bool) (r : EventRecord) : SameRingStates s (s.writeRecord p r).1 := by
  unfold State.writeRecord
  refine SameRingStates.trans (SameRingStates.trans (s.setRing_sameStates ?event) (State.hostOut_sameStates _ _ _))
    (State.notify_sameStates _ _ _)
  case event => rfl

theorem State.postTo_sameStates (s : State) (p : Bool) (r : EventRecord) : SameRingStates s (s.postTo p r).1 := by
  have hevent {v : Ring} (hv : v.state = (s.ring (.event p)).state) : SameRingStates s (s.setRing (.event p) v) :=
    s.setRing_sameStates hv
  simp only [State.postTo]
  split
  · exact .refl s
  split
  · exact s.writeRecord_sameStates p r
  split
  · exact .refl s
  split
  · exact hevent rfl
  split
  · exact hevent rfl
  split
  · exact hevent rfl
  · exact .refl s

theorem State.postBoth_sameStates (s : State) (r : EventRecord) : SameRingStates s (s.postBoth r).1 :=
  (s.postTo_sameStates false r).trans (State.postTo_sameStates _ true r)

theorem State.faultEvent_sameStates (s : State) (f : FaultReq) (lvl : Level) : SameRingStates s (s.faultEvent f lvl).1 := by
  have hframe (typ : Byte) (payload : Bytes) : SameRingStates s (s.originate typ payload) :=
    .of_only (M := [.regs, .chn, .out]) (State.originate_only (Only.refl _ s) rfl typ payload) rfl
  unfold State.faultEvent
  split
  · exact .refl s
  · dsimp only
    split
    · exact (hframe ..).trans (State.postBoth_sameStates ..)
    · exact State.postBoth_sameStates ..

/-- Below STOP a reaction is queued, merged or dropped: no halt takes the rings (R358). -/
theorem State.queueReaction_sameStates (s : State) (f : FaultReq) {lvl : Level} (esc latched : Bool) (h : lvl ≠ .stop) :
    SameRingStates s (s.queueReaction f lvl esc latched).1 := by
  simp only [State.queueReaction, if_neg h]
  repeat' split
  all_goals exact ⟨fun _ => rfl⟩

theorem State.raiseOne_sameStates {s : State} {f : FaultReq} (h : f.low) : SameRingStates s (s.raiseOne f).1 := by
  have hcalm : SameRingStates s (if s.faultLevel f = .note then s else s.leaveDock) := by
    split
    · exact .refl s
    · exact .of_only (M := dockParts) (State.leaveDock_only (Only.refl _ s) rfl) rfl
  have hcapture (u : State) : SameRingStates u (u.capture f) :=
    .of_only (M := [.flt, .sources, .first]) (State.capture_only (Only.refl _ u) rfl f) rfl
  exact ((hcalm.trans (hcapture _)).trans (State.faultEvent_sameStates ..)).trans
    (State.queueReaction_sameStates _ f _ _ (State.faultLevel_low s f h))

theorem State.raiseFuel_sameStates (s : State) (n : Nat) (fs : List FaultReq) (h : ∀ f ∈ fs, f.low) :
    SameRingStates s (s.raiseFuel n fs) := by
  induction n generalizing s fs with
  | zero => exact .refl s
  | succ n ih =>
    cases fs with
    | nil => exact .refl s
    | cons f rest =>
      have hf : f.low := h f (.head _)
      refine (State.raiseOne_sameStates hf).trans (ih _ _ fun g hg => ?_)
      rcases List.mem_append.1 hg with hrest | hmore
      · exact h g (.tail _ hrest)
      · exact (State.raiseOne_low s f hf).2 g hmore

/-- Faults that posting records causes, once raised, leave every ring in its state. -/
theorem State.raiseAll_sameStates (s : State) {fs : List FaultReq} (h : ∀ f ∈ fs, f.ofEvents) : SameRingStates s (s.raiseAll fs) :=
  State.raiseFuel_sameStates s _ _ fun f hf => (h f (mem_orderFaults hf)).low

/-! ## Entries that end keep the state of every ring -/

theorem State.publish_sameStates (s : State) (r : RingId) (k : Nat) : SameRingStates s (s.publish r k) :=
  (s.hostOut_sameStates ..).trans (State.notify_sameStates ..)

theorem State.passEnded_sameStates (s : State) (r : RingId) (n : Nat) : SameRingStates s (s.passEnded r n).1 := by
  induction n generalizing s with
  | zero => exact .refl s
  | succ n ih =>
    have hpost (rec : EventRecord) {x : State × List FaultReq × Posted} (e : s.postTo (s.ringPort r) rec = x) :
        SameRingStates s x.1 := e ▸ s.postTo_sameStates _ rec
    unfold State.passEnded
    dsimp only
    split
    · exact .refl s
    · split
      · refine SameRingStates.trans ?_ (ih _)
        exact s.modRing_sameStates fun _ => rfl
      · split
        · next e =>
          refine (hpost _ e).trans ?_
          dsimp only
          exact State.modRing_sameStates _ fun _ => rfl
        · next e =>
          refine ((hpost _ e).trans ?_).trans (ih _)
          dsimp only
          exact State.modRing_sameStates _ fun _ => rfl

theorem State.advanceHead_sameStates (s : State) (r : RingId) : SameRingStates s (s.advanceHead r).1 := by
  unfold State.advanceHead
  split
  · exact .refl s
  · dsimp only
    split
    · exact s.passEnded_sameStates ..
    · exact (s.passEnded_sameStates ..).trans (State.publish_sameStates ..)

theorem State.endEntry_sameStates (s : State) (r : RingId) (pos : Nat) (status : Byte) (rec : Option EventRecord) :
    SameRingStates s (s.endEntry r pos status rec).1 := by
  unfold State.endEntry
  refine SameRingStates.trans ?_ (State.advanceHead_sameStates _ _)
  exact s.modRing_sameStates fun _ => rfl

theorem State.endDesc_sameStates (s : State) (ring : BitVec 10) (d : Desc) (status detail : Byte) (lba count : Nat) :
    SameRingStates s (s.endDesc ring d status detail lba count).1 := s.endEntry_sameStates ..

theorem State.endIo_sameStates (s : State) (io : Io) (status detail : Byte) (lba count : Nat) :
    SameRingStates s (s.endIo io status detail lba count).1 := by
  have hios : Only [.ios, .log, .scc, .dcmds] s (s.withIos (s.ios.filter (fun j => j.id ≠ io.id))) :=
    only_withIos (Only.refl _ s) rfl
  have hleft : Only [.ios, .log, .scc, .dcmds] s (if status = 0 then s.withIos (s.ios.filter (fun j => j.id ≠ io.id))
      else ((s.withIos (s.ios.filter (fun j => j.id ≠ io.id))).abandonIo io.id).discardReads io.id) :=
    only_ite (fun _ => hios) fun _ => State.discardReads_only (State.abandonIo_only hios rfl _) rfl _
  unfold State.endIo
  extract_lets u v
  have hv : SameRingStates s v := .of_only hleft rfl
  split
  · dsimp only
    split
    · exact hv.trans (.of_only (M := [.regs, .pair, .out]) (State.sendFlit_only (Only.refl _ v) rfl _ _ _) rfl)
    · exact hv
  · exact hv.trans (State.endDesc_sameStates ..)

theorem State.endIos_sameStates (s : State) (f : Io → Byte × Byte) (l : List Io) : SameRingStates s (s.endIos f l).1 := by
  induction l generalizing s with
  | nil => exact .refl s
  | cons io l ih => exact (s.endIo_sameStates ..).trans (ih _)

/-- The faults that posting a record caused, raised: they halt nothing and end no descriptor. -/
theorem raised_sameStates {x : State × List FaultReq} (h : ∀ f ∈ x.2, f.ofEvents) : SameRingStates x.1 (raised x) :=
  x.1.raiseAll_sameStates h

theorem raised_ios {x : State × List FaultReq} (h : ∀ f ∈ x.2, f.ofEvents) : (raised x).ios = x.1.ios :=
  State.raiseAll_low x.1 x.2 (fun f hf => (h f hf).low) .ios (by decide)

theorem State.abortRing_sameStates (s : State) (n : BitVec 10) (stop : Nat) (keep : Io → Bool) :
    SameRingStates s (s.abortRing n stop keep).1 := by
  unfold State.abortRing
  extract_lets r g sz mine tags ps flags gone left dropped stopped
  have hleft : Only [.ios, .log, .scc, .dcmds] s left := only_withIos (Only.refl _ s) rfl
  have hdropped : Only [.ios, .log, .scc, .dcmds] s dropped :=
    only_foldl hleft fun _ _ h => State.discardReads_only (State.abandonIo_only h rfl _) rfl _
  have hstopped : SameRingStates dropped stopped := dropped.modRing_sameStates fun _ => rfl
  exact ((SameRingStates.of_only hdropped rfl).trans hstopped).trans (State.advanceHead_sameStates ..)

/-- Of the descriptors of ring n admitted on this side, those kept stay (R213). -/
theorem State.abortRing_ios (s : State) (n : BitVec 10) (stop : Nat) (keep : Io → Bool) :
    (s.abortRing n stop keep).1.ios = s.ios.filter (fun io => !(io.ring = n && !io.fwd && !keep io)) := by
  unfold State.abortRing
  extract_lets r g sz mine tags ps flags gone left dropped stopped
  have hdropped : Only [.log, .scc, .dcmds, .rings, .hpus, .out] left dropped :=
    only_foldl (Only.refl _ _) fun _ _ h => State.discardReads_only (State.abandonIo_only h rfl _) rfl _
  have hadvanced : Only [.log, .scc, .dcmds, .rings, .hpus, .out] left (stopped.advanceHead r).1 :=
    State.advanceHead_only (State.modRing_only hdropped rfl _ _) rfl r
  exact hadvanced .ios (by decide)

theorem State.endIo_ios (s : State) (io : Io) (status detail : Byte) (lba count : Nat) :
    (s.endIo io status detail lba count).1.ios = s.ios.filter (fun j => j.id ≠ io.id) := by
  unfold State.endIo
  extract_lets u v
  have hv : Only [.log, .scc, .dcmds, .regs, .pair, .rings, .hpus, .out] u v :=
    only_ite (fun _ => Only.refl _ _) fun _ => State.discardReads_only (State.abandonIo_only (Only.refl _ _) rfl _) rfl _
  have hend (P : Prop) [Decidable P] : Only [.log, .scc, .dcmds, .regs, .pair, .rings, .hpus, .out] u
      (if P then (if v.pair.state = .paired then v.sendFlit 7 io.ref [status, detail] else v, [])
        else v.endDesc io.ring io.desc status detail lba count).1 :=
    only_iteFst (fun _ => only_ite (fun _ => State.sendFlit_only hv rfl _ _ _) fun _ => hv) fun _ =>
      State.endDesc_only hv rfl _ _ _ _ _ _
  exact hend _ .ios (by decide)

/-- What is left after descriptors ended bears none of their ids. -/
theorem State.mem_endIos_ios {s : State} {f : Io → Byte × Byte} {l : List Io} {j : Io} (h : j ∈ (s.endIos f l).1.ios) :
    j ∈ s.ios ∧ ∀ io ∈ l, j.id ≠ io.id := by
  induction l generalizing s with
  | nil => exact ⟨h, fun _ hio => nomatch hio⟩
  | cons io l ih =>
    have hlast : j ∈ ((s.endIo io (f io).1 (f io).2 io.desc.lba io.desc.blocks).1.endIos f l).1.ios := h
    obtain ⟨hleft, hrest⟩ := ih hlast
    rw [State.endIo_ios, List.mem_filter, decide_eq_true_eq] at hleft
    exact ⟨hleft.1, List.forall_mem_cons.2 ⟨hleft.2, hrest⟩⟩

/-! ## Enabling (R211, R212) -/

theorem State.postSurvey_of_not_kept {s : State} (h : s.gcs.surveyKept = false) (p : Bool) : s.postSurvey p = s :=
  if_pos (by simp [h])

theorem answers_ringEnable {s : State} {r : RingId} (hc : s.haltClosed = false) (hd : s.gcs.phase ≠ .dock)
    (hr : (s.ring r).state = .disabled) (hok : s.enableOk r = true) (hsurvey : s.gcs.surveyKept = false) :
    Answers (.ringEnable r) s (fun t =>
      t.ring r = { Ring.at0 with state := .active } ∧ (∀ q, q ≠ r → t.ring q = s.ring q) ∧ Only [.rings] s t) := by
  have hexec : exec (.ringEnable r) s = .next (s.setRing r { Ring.at0 with state := .active }) := by
    refine (if_neg (by simp [hc])).trans ?_
    rw [State.leaveDock_of_not_dock hd]
    refine (if_neg (by simp [hr])).trans ((if_neg (by simp [hok])).trans ?_)
    cases r with
    | event p => exact congrArg Host.Outcome.next (State.postSurvey_of_not_kept (s := s.setRing _ _) hsurvey p)
    | data n => rfl
    | cmd c => rfl
  exact ⟨_, hexec, State.ring_setRing .., fun q hq => State.ring_setRing_other s _ hq, State.setRing_only (Only.refl _ s) rfl _ _⟩

theorem answers_ringEnable_refused {s : State} {r : RingId} (hc : s.haltClosed = false) (hd : s.gcs.phase ≠ .dock)
    (hr : (s.ring r).state = .disabled) (hok : s.enableOk r = false) :
    Answers (.ringEnable r) s (fun t => s.Faulted t 0x22 5) := by
  have hexec : exec (.ringEnable r) s = .next (s.raise 0x22 .note 5) := by
    refine (if_neg (by simp [hc])).trans ?_
    rw [State.leaveDock_of_not_dock hd]
    exact (if_neg (by simp [hr])).trans (if_pos (by simp [hok]))
  exact ⟨_, hexec, .raise rfl _ _ (by decide) (by decide) (by decide)⟩

/-! ## Disabling (R211, R213, R216) -/

theorem State.endRing_sameStates (s : State) (n : BitVec 10) : SameRingStates s (s.endRing n) := by
  unfold State.endRing
  extract_lets scc freed aborted
  have haborted : SameRingStates freed aborted :=
    (State.abortRing_sameStates ..).trans (raised_sameStates (State.abortRing_faults _ _ _ _))
  have hended (l : List Io) : SameRingStates aborted (raised (aborted.endIos (fun _ => (0, 0)) l)) :=
    (State.endIos_sameStates ..).trans (raised_sameStates (State.endIos_faults _ _ _))
  exact (SameRingStates.of_only (M := [.scc]) (only_withScc (Only.refl _ s) rfl) rfl).trans (haborted.trans (hended _))

/-- Of the descriptors of a ring whose work ended, only those that the partner forwarded are left (R213). -/
theorem State.fwd_of_mem_endRing_ios {s : State} {n : BitVec 10} {io : Io} (h : io ∈ (s.endRing n).ios) (hn : io.ring = n) :
    io.fwd = true := by
  unfold State.endRing at h
  extract_lets scc freed aborted at h
  rw [raised_ios (State.endIos_faults _ _ _)] at h
  obtain ⟨hkept, hleft⟩ := State.mem_endIos_ios h
  by_contra hfwd
  have hcommitted : io.committed = true := by
    have hk := hkept
    simp only [aborted] at hk
    rw [raised_ios (State.abortRing_faults _ _ _ _), State.abortRing_ios, List.mem_filter] at hk
    simpa [hn, hfwd] using hk.2
  exact hleft io (List.mem_filter.2 ⟨hkept, by simp [hn, hfwd, hcommitted]⟩) rfl

theorem answers_ringDisable {s : State} {n : BitVec 10} (hc : s.haltClosed = false) (hd : s.gcs.phase ≠ .dock)
    (hr : (s.ring (.data n)).state = .active ∨ (s.ring (.data n)).state = .faulted) :
    Answers (.ringDisable n) s (fun t => (t.ring (.data n)).state = .disabling ∧ ∀ io ∈ t.ios, io.ring = n → io.fwd = true) := by
  have hexec : exec (.ringDisable n) s =
      .next ((s.setRing (.data n) { s.ring (.data n) with state := .disabling }).endRing n) := by
    refine (if_neg (by simp [hc])).trans ?_
    rw [State.leaveDock_of_not_dock hd]
    exact if_pos hr
  exact ⟨_, hexec, ((State.endRing_sameStates _ n).state _).trans (congrArg Ring.state (State.ring_setRing ..)),
    fun _ hio hn => State.fwd_of_mem_endRing_ios hio hn⟩

theorem answers_commandRingDisable {s : State} {c : BitVec 4} (hc : s.haltClosed = false) (hd : s.gcs.phase ≠ .dock)
    (hr : (s.ring (.cmd c)).state = .active ∨ (s.ring (.cmd c)).state = .faulted) :
    Answers (.commandRingDisable c) s (fun t =>
      (t.ring (.cmd c)).state = .disabling ∧ (t.srcQueue (.ring c)).length ≤ 1 ∧
      (CmdSrc.ring c ∉ s.interp.busy → t.srcQueue (.ring c) = []) ∧ Only [.rings, .interp] s t) := by
  let stopped := s.setRing (.cmd c) { s.ring (.cmd c) with state := .disabling, inRead := 0 }
  have hexec : exec (.commandRingDisable c) s = .next (stopped.discardPackets c) := by
    refine (if_neg (by simp [hc])).trans ?_
    rw [State.leaveDock_of_not_dock hd]
    exact if_pos hr
  have hqueue : (stopped.discardPackets c).srcQueue (.ring c) =
      (s.srcQueue (.ring c)).take (if CmdSrc.ring c ∈ s.interp.busy then 1 else 0) := Tab.get_set_self ..
  have hstate : ((stopped.discardPackets c).ring (.cmd c)).state = .disabling :=
    congrArg Ring.state (State.ring_setRing s (.cmd c) { s.ring (.cmd c) with state := .disabling, inRead := 0 })
  refine ⟨_, hexec, hstate, ?_, fun hidle => ?_, ?_⟩
  · rw [hqueue, List.length_take]
    split <;> omega
  · rw [hqueue, if_neg hidle, List.take_zero]
  · exact State.setSrcQueue_only (State.setRing_only (Only.refl _ s) rfl _ _) rfl _ _

theorem answers_eventRingDisable {s : State} {p : Bool} (hc : s.haltClosed = false) (hd : s.gcs.phase ≠ .dock)
    (hr : (s.ring (.event p)).state = .active) (hp : s.portBusy p = false) :
    Answers (.eventRingDisable p) s (fun t =>
      t.ring (.event p) = { s.ring (.event p) with state := .disabled, hold := [], waitB := [] } ∧ Only [.rings] s t) := by
  have hexec : exec (.eventRingDisable p) s =
      .next (s.setRing (.event p) { s.ring (.event p) with state := .disabled, hold := [], waitB := [] }) := by
    refine (if_neg (by simp [hc])).trans ?_
    rw [State.leaveDock_of_not_dock hd]
    exact if_neg (by simp [hr, hp])
  exact ⟨_, hexec, State.ring_setRing .., State.setRing_only (Only.refl _ s) rfl _ _⟩

theorem State.postRingState_sameStates (s : State) (r : RingId) (code : Nat) : SameRingStates s (s.postRingState r code) :=
  (s.postTo_sameStates _ _).trans (State.raiseAll_sameStates _ (State.postTo_faults _ _ _))

theorem answers_ringDisableComplete {s : State} {n : BitVec 10} (hr : (s.ring (.data n)).state = .disabling)
    (hended : (s.ring (.data n)).head = (s.ring (.data n)).tail) :
    Answers (.ringDisableComplete (.data n)) s (fun t => (t.ring (.data n)).state = .disabled) := by
  have hexec : exec (.ringDisableComplete (.data n)) s =
      .next ((s.setRing (.data n) { s.ring (.data n) with state := .disabled }).postRingState (.data n) 0) :=
    if_pos ⟨hr, by simp [hended]⟩
  exact ⟨_, hexec, ((State.postRingState_sameStates _ _ _).state _).trans (congrArg Ring.state (State.ring_setRing ..))⟩

/-! ## PRIV_LOCK (R239) and the end of the halt close (R221) -/

theorem answers_privLock {s : State} (hc : s.haltClosed = false) (hd : s.gcs.phase ≠ .dock) :
    Answers .privLock s (fun t => t.privLock = true ∧ Only [.privLock] s t) := by
  have hexec : exec .privLock s = .next (s.withPrivLock true) := by
    refine (if_neg (by simp [hc])).trans ?_
    rw [State.leaveDock_of_not_dock hd]
  exact ⟨_, hexec, rfl, only_withPrivLock (Only.refl _ s) rfl⟩

/-- A key whose value is not the default, and does not become it, is changed in place, whatever else the table lists. -/
theorem Tab.get_mapV_of_ne {α : Type} [DecidableEq α] {t : Tab α} {d : α} {f : Nat → α → α} {k : Nat} (hk : t.get d k ≠ d)
    (hf : f k (t.get d k) ≠ d) : (t.mapV d f).get d k = f k (t.get d k) := by
  induction t with
  | nil => exact absurd rfl hk
  | cons e r ih =>
    obtain ⟨j, v⟩ := e
    by_cases hj : j = k
    · subst hj
      simp only [Tab.get, if_pos] at hf ⊢
      simp [Tab.mapV, hf, Tab.get]
    · simp only [Tab.get, if_neg hj] at hk hf ⊢
      have hrest := ih hk hf
      simp only [Tab.mapV]
      split
      · exact hrest
      · exact (if_neg hj).trans hrest

/-- What the end of the halt close makes of the ring at a key (R221). -/
def Ring.closed (k : Nat) (g : Ring) : Ring :=
  if 1040 ≤ k ∧ g.state = .active then { g with state := .halted, hold := [], waitB := [] } else g

theorem Ring.ne_at0_of_state {g : Ring} (h : g.state ≠ .disabled) : g ≠ Ring.at0 := fun e => h (e ▸ rfl)

theorem answers_haltCloseEnd {s : State} (hh : s.gcs.halted = true) (hclosing : s.gcs.haltClosing = true) :
    Answers .haltCloseEnd s (fun t => t.haltClosed = true ∧
      (∀ p, (s.ring (.event p)).state = .active → (t.ring (.event p)).state = .halted ∧ (t.ring (.event p)).hold = []) ∧
      Only [.gcs, .rings] s t) := by
  have hexec : exec .haltCloseEnd s = .next ((s.withGcs { s.gcs with haltClosing := false }).withRings
      (Tab.mapV s.rings Ring.at0 Ring.closed)) := if_neg (by simp [hclosing])
  refine ⟨_, hexec, by simp [State.haltClosed, hh], fun p hp => ?_, execHaltCloseEnd_only (Only.refl _ s) rfl _ hexec⟩
  have hclosed : Ring.closed (ringKey (.event p)) (s.ring (.event p)) =
      { s.ring (.event p) with state := .halted, hold := [], waitB := [] } := if_pos ⟨Nat.le_add_right .., hp⟩
  have hget : ((s.withGcs { s.gcs with haltClosing := false }).withRings (Tab.mapV s.rings Ring.at0 Ring.closed)).ring (.event p) =
      Ring.closed (ringKey (.event p)) (s.ring (.event p)) :=
    Tab.get_mapV_of_ne (Ring.ne_at0_of_state (by simp [State.ring] at hp; simp [hp])) (by
      refine Ring.ne_at0_of_state ?_
      show (Ring.closed (ringKey (.event p)) (s.ring (.event p))).state ≠ _
      simp [hclosed])
  rw [hget, hclosed]
  exact ⟨rfl, rfl⟩

/-- Settles O24: each command that changes the state of a ring has, for each way it can go, its lemma above. -/
theorem ringStates : Obligations.RingStates := by
  unfold Obligations.RingStates
  exact ⟨fun _ _ hc hd hr hok hs => answers_ringEnable hc hd hr hok hs, fun _ _ hc hd hr hok => answers_ringEnable_refused hc hd hr hok,
    fun _ _ hc hd hr => answers_ringDisable hc hd hr, fun _ _ hc hd hr => answers_commandRingDisable hc hd hr,
    fun _ _ hc hd hr hp => answers_eventRingDisable hc hd hr hp, fun _ _ hr he => answers_ringDisableComplete hr he,
    fun _ hc hd => answers_privLock hc hd, fun _ hh hcl => answers_haltCloseEnd hh hcl⟩

end Sys2Proof.Machine
end

section
/-! PROOFS. Descriptors that end at once (spec/07_host_rings.md R218, R224, R228, R229, R234): how the head of a data ring passes an entry
that ended at it, what admission leaves of the ring, and the two commands whose entries end so. -/

namespace Sys2Proof.Machine

/-! ## The registers of a ring -/

theorem State.regN_count64_other (s : State) {o q : Nat} (n : Nat) (h : q ≠ o) : (s.count64 o n).regN q = s.regN q :=
  congrArg BitVec.toNat (State.reg_setReg_other s _ h)

/-- The count of admitted descriptors (R239) is not in the context of a ring. -/
theorem State.ringCfg_countAdmitted (s : State) (n : BitVec 10) : (s.count64 Reg.rngAdmitted 1).ringCfg (.data n) = s.ringCfg (.data n) := by
  refine State.regN_count64_other s 1 ?_
  have hn := n.isLt
  simp only [ringCtx, Reg.rngAdmitted]
  omega

/-! ## The head passes one entry (R228, R229) -/

/-- A data ring whose head can pass an entry that ends at a position: it publishes, its port sends, and no other entry has ended. -/
structure State.AtHead (s : State) (n : BitVec 10) (pos : Nat) : Prop where
  publishes : ringPublishes s (.data n) = true
  sends : s.portSilent (s.ringPort (.data n)) = false
  head : (s.ring (.data n)).head = pos
  ended : (s.ring (.data n)).ended = []

/-- From s to u the head of data ring n passed one entry. -/
structure HeadPassed (n : BitVec 10) (s u : State) : Prop where
  head : (u.ring (.data n)).head = posAdd (s.ringN (.data n)) (s.ring (.data n)).head 1
  exc : (u.ring (.data n)).exc = (s.ring (.data n)).exc
  doneCount : (u.ring (.data n)).doneCount = ((s.ring (.data n)).doneCount + 1) % 2 ^ 64
  frame : Only [.rings] s u

/-- An entry of data ring n ended and not yet passed. -/
def State.withEnded (s : State) (n : BitVec 10) (e : Ended) : State :=
  s.modRing (.data n) (fun g => { g with ended := g.ended ++ [e] })

theorem State.AtHead.ring_withEnded {s : State} {n : BitVec 10} {pos : Nat} (h : s.AtHead n pos) (e : Ended) :
    (s.withEnded n e).ring (.data n) = { s.ring (.data n) with ended := [e] } := by
  rw [State.withEnded, State.ring_modRing, h.ended, List.nil_append]

theorem State.AtHead.publishes_withEnded {s : State} {n : BitVec 10} {pos : Nat} (h : s.AtHead n pos) (e : Ended) :
    ringPublishes (s.withEnded n e) (.data n) = true := by
  have hp := h.publishes
  unfold ringPublishes at hp ⊢
  rw [h.ring_withEnded e]
  exact hp

/-- The context of ring r once the head passes the entry at a position, for which x records were written (R228). -/
def State.headPast (s : State) (r : RingId) (pos x : Nat) (g : Ring) : Ring :=
  { g with head := posAdd (s.ringN r) g.head 1, exc := g.exc + BitVec.ofNat 32 x, ended := g.ended.filter (fun d => d.pos ≠ pos),
           doneCount := (g.doneCount + 1) % 2 ^ 64,
           stallUs := if g.evtWait then satTo 32 (g.stallUs + s.usSince g.stallSince) else g.stallUs, evtWait := false }

/-- The head passes one entry and is published. -/
theorem State.AtHead.advanceHead {s u : State} {n : BitVec 10} {pos : Nat} {e : Ended} {f : List FaultReq} (h : s.AtHead n pos)
    (hpass : (s.withEnded n e).passEnded (.data n) 1 = (u, f, 1)) :
    (s.withEnded n e).advanceHead (.data n) = (u.publish (.data n) 1, f) := by
  have hsends : (s.withEnded n e).portSilent ((s.withEnded n e).ringPort (.data n)) = false := h.sends
  have hlen : ((s.withEnded n e).ring (.data n)).ended.length = 1 := by rw [h.ring_withEnded]; rfl
  unfold State.advanceHead
  rw [if_neg (by simp [h.publishes_withEnded, hsends]), hlen, hpass]
  rfl

/-- An entry that ends at the head without a record: the head passes it and is published. -/
theorem State.AtHead.endEntry_none {s : State} {n : BitVec 10} {pos : Nat} (h : s.AtHead n pos) (status : Byte) :
    ∃ u, s.endEntry (.data n) pos status none = (u.publish (.data n) 1, []) ∧ HeadPassed n s u := by
  have hring := h.ring_withEnded { pos := pos, status := status, record := none }
  let u := (s.withEnded n { pos := pos, status := status, record := none }).modRing (.data n)
    (s.headPast (.data n) pos 0)
  have hpass : (s.withEnded n { pos := pos, status := status, record := none }).passEnded (.data n) 1 = (u, [], 1) := by
    unfold State.passEnded
    simp only [hring, List.find?_cons, h.head, decide_true]
    rfl
  have hu : u.ring (.data n) = s.headPast (.data n) pos 0
      { s.ring (.data n) with ended := [{ pos := pos, status := status, record := none }] } := by
    rw [← hring]
    exact State.ring_modRing ..
  refine ⟨u, h.advanceHead hpass, congrArg Ring.head hu, (congrArg Ring.exc hu).trans (BitVec.add_zero _),
    congrArg Ring.doneCount hu, ?frame⟩
  case frame => exact State.modRing_only (State.modRing_only (Only.refl _ s) rfl _ _) rfl _ _

/-- An entry that ends at the head with a record that is written: the head passes it and is published. -/
theorem State.AtHead.endEntry_some {s w : State} {n : BitVec 10} {pos : Nat} {rec : EventRecord} {f : List FaultReq}
    (h : s.AtHead n pos) (status : Byte)
    (hpost : (s.withEnded n { pos := pos, status := status, record := some rec }).postTo (s.ringPort (.data n)) rec = (w, f, .yes)) :
    ∃ u : State, s.endEntry (.data n) pos status (some rec) = (u.publish (.data n) 1, f) ∧ u.out = w.out := by
  have hring := h.ring_withEnded { pos := pos, status := status, record := some rec }
  have hport : (s.withEnded n { pos := pos, status := status, record := some rec }).ringPort (.data n) = s.ringPort (.data n) := rfl
  have hpass : (s.withEnded n { pos := pos, status := status, record := some rec }).passEnded (.data n) 1 =
      (w.modRing (.data n) (w.headPast (.data n) pos 1), f ++ [], 1) := by
    unfold State.passEnded
    simp only [hring, List.find?_cons, h.head, decide_true, hport, hpost]
    rfl
  rw [List.append_nil] at hpass
  exact ⟨_, h.advanceHead hpass, rfl⟩

/-! ## Head words (R229) -/

theorem State.ring_sendMsix (s : State) (p : Bool) (v : Nat) (r : RingId) : (s.sendMsix p v).ring r = s.ring r :=
  State.ring_of_rings (State.sendMsix_only (M := [.hpus, .out]) (Only.refl _ s) rfl p v .rings (by decide)) r

/-- A notification counts, or signals, the completions of its ring. -/
theorem State.exists_ring_notify (s : State) (r : RingId) (k : Nat) : ∃ x, (s.notify r k).ring r = { s.ring r with unsignalled := x } := by
  unfold State.notify
  split
  · exact ⟨_, rfl⟩
  · dsimp only
    split
    · exact ⟨0, by rw [State.ring_sendMsix, State.ring_modRing]⟩
    · exact ⟨_, State.ring_modRing ..⟩

theorem State.exists_ring_publish (s : State) (r : RingId) (k : Nat) :
    ∃ x, (s.publish r k).ring r = { s.ring r with unsignalled := x } := by
  obtain ⟨x, hx⟩ := State.exists_ring_notify (s.hostOut (s.ringPort r) (.headWord r (headWordOf (s.ringN r) (s.ring r).head (s.ring r).exc))) r k
  exact ⟨x, hx.trans (by rw [State.ring_hostOut])⟩

theorem State.publish_suffix (s : State) (r : RingId) (k : Nat) :
    Out.headWord r (headWordOf (s.ringN r) (s.ring r).head (s.ring r).exc) :: s.out <:+ (s.publish r k).out := by
  rw [← State.hostOut_out s (s.ringPort r)]
  exact State.notify_suffix _ r k

/-- The head word of the entry that the head passed last leaves (R228). -/
theorem HeadPassed.publish {n : BitVec 10} {s u : State} (h : HeadPassed n s u) :
    ((u.publish (.data n) 1).ring (.data n)).head = posAdd (s.ringN (.data n)) (s.ring (.data n)).head 1 ∧
    ((u.publish (.data n) 1).ring (.data n)).exc = (s.ring (.data n)).exc ∧
    ((u.publish (.data n) 1).ring (.data n)).doneCount = ((s.ring (.data n)).doneCount + 1) % 2 ^ 64 ∧
    Out.headWord (.data n) (headWordOf (s.ringN (.data n)) (posAdd (s.ringN (.data n)) (s.ring (.data n)).head 1)
      (s.ring (.data n)).exc) ∈ (u.publish (.data n) 1).out ∧
    Only [.rings, .hpus, .out] s (u.publish (.data n) 1) := by
  obtain ⟨x, hx⟩ := u.exists_ring_publish (.data n) 1
  have hcfg : u.ringN (.data n) = s.ringN (.data n) := by
    unfold State.ringN State.ringCfg State.regN
    rw [State.reg_of_regs (h.frame .regs (by decide)) (h.frame .part (by decide))]
  refine ⟨(congrArg Ring.head hx).trans h.head, (congrArg Ring.exc hx).trans h.exc, (congrArg Ring.doneCount hx).trans h.doneCount, ?_,
    State.publish_only (h.frame.mono rfl) rfl _ _⟩
  rw [← h.head, ← h.exc, ← hcfg]
  exact (u.publish_suffix (.data n) 1).subset (.head _)

/-! ## Descriptors that end with OK and no record (R218, R228) -/

theorem State.AtHead.finishDesc_ok {s : State} {n : BitVec 10} {d : Desc} (h : s.AtHead n d.pos) (hevt : d.flags.getLsbD 2 = false)
    (lba count : Nat) : ∃ u : State, s.finishDesc n d stOk 0 lba count = u.publish (.data n) 1 ∧ HeadPassed n s u := by
  obtain ⟨u, hu, hpassed⟩ := h.endEntry_none stOk
  refine ⟨u, ?_, hpassed⟩
  have hnone : s.endDesc n d stOk 0 lba count = s.endEntry (.data n) d.pos stOk none := by
    unfold State.endDesc
    rw [hevt]
    rfl
  rw [State.finishDesc, hnone, hu]
  rfl

/-- A descriptor of this side that ends with OK leaves the list of those outstanding. -/
theorem State.finishIo_ok (s : State) {io : Io} (h : io.fwd = false) (lba count : Nat) :
    s.finishIo io stOk 0 lba count = (s.withIos (s.ios.filter (fun j => j.id ≠ io.id))).finishDesc io.ring io.desc stOk 0 lba count :=
  congrArg raised (if_neg (by simp [h]))

/-! ## The front descriptor (R223, R224) -/

theorem State.frontDesc_inv {s : State} {n : BitVec 10} {d : Desc} (h : s.frontDesc n = some d) :
    ((s.ring (.data n)).state = .active ∨ (s.ring (.data n)).state = .faulted) ∧ s.portSilent (s.ringPort (.data n)) = false := by
  simp only [State.frontDesc] at h
  split at h
  · cases h
  · next hn =>
    obtain ⟨hstate, hn⟩ := not_or.1 hn
    exact ⟨not_not.1 hstate, Bool.eq_false_iff.2 (not_or.1 (not_or.1 hn).2).1⟩

theorem State.atHead_of_front {s : State} {n : BitVec 10} {d : Desc} (h : s.frontDesc n = some d)
    (hhead : (s.ring (.data n)).head = d.pos) (hended : (s.ring (.data n)).ended = []) : s.AtHead n d.pos := by
  obtain ⟨hstate, hsends⟩ := State.frontDesc_inv h
  refine ⟨?_, hsends, hhead, hended⟩
  unfold ringPublishes
  rcases hstate with h | h <;> rw [h]

/-- The mark that passing the turn to ring n leaves on the ring at a key (R223). -/
def State.turnMark (s : State) (n : BitVec 10) (k : Nat) (g : Ring) : Ring :=
  { g with lastTurn := if k < 1024 ∧ s.ringPrio (.data (BitVec.ofNat 10 k)) = s.ringPrio (.data n) then decide (k = n.toNat)
                       else g.lastTurn }

theorem State.passTurn_eq (s : State) (n : BitVec 10) : s.passTurn n = s.withRings (Tab.mapV s.rings Ring.at0 (s.turnMark n)) := by
  unfold State.passTurn State.turnMark
  congr 2
  funext k g
  split <;> rfl

/-- Passing the turn leaves every ring in use but for its mark. -/
theorem State.ring_passTurn {s : State} {r : RingId} (n : BitVec 10) (h : (s.ring r).state ≠ .disabled) :
    (s.passTurn n).ring r = s.turnMark n (ringKey r) (s.ring r) := by
  rw [State.passTurn_eq]
  exact Tab.get_mapV_of_ne (Ring.ne_at0_of_state h) (Ring.ne_at0_of_state h)

theorem State.takeFront_eq {s : State} (hd : s.gcs.phase ≠ .dock) (n : BitVec 10) : s.takeFront n =
    (s.passTurn n).modRing (.data n) (fun g => { g with queue := g.queue.drop 1, admitWait := false }) :=
  State.leaveDock_of_not_dock (s := (s.passTurn n).modRing _ _) hd

/-- A descriptor admitted or ended has left the queue of its ring, whose positions stand. -/
theorem State.ring_takeFront {s : State} {n : BitVec 10} (hd : s.gcs.phase ≠ .dock) (h : (s.ring (.data n)).state ≠ .disabled) :
    (s.takeFront n).ring (.data n) =
      { s.turnMark n (ringKey (.data n)) (s.ring (.data n)) with queue := (s.ring (.data n)).queue.drop 1, admitWait := false } := by
  rw [State.takeFront_eq hd, State.ring_modRing, State.ring_passTurn n h]
  rfl

theorem State.ring_event_takeFront {s : State} {n : BitVec 10} {p : Bool} (hd : s.gcs.phase ≠ .dock)
    (h : (s.ring (.event p)).state ≠ .disabled) :
    (s.takeFront n).ring (.event p) = s.turnMark n (ringKey (.event p)) (s.ring (.event p)) := by
  rw [State.takeFront_eq hd, State.modRing, State.ring_setRing_other _ _ (by simp), State.ring_passTurn n h]

/-- Once the front descriptor is taken the head stands where it stood, and can pass its entry. -/
theorem State.atHead_takeFront {s : State} {n : BitVec 10} {d : Desc} (h : s.frontDesc n = some d) (hd : s.gcs.phase ≠ .dock)
    (hhead : (s.ring (.data n)).head = d.pos) (hended : (s.ring (.data n)).ended = []) : (s.takeFront n).AtHead n d.pos := by
  obtain ⟨hstate, hsends⟩ := State.frontDesc_inv h
  have hring := State.ring_takeFront hd (n := n) (by rcases hstate with h | h <;> simp [h])
  refine ⟨?_, ?_, (congrArg Ring.head hring).trans hhead, (congrArg Ring.ended hring).trans hended⟩
  · unfold ringPublishes
    rw [hring]
    rcases hstate with h | h <;> simp [State.turnMark, h]
  · rw [State.takeFront_eq hd, State.passTurn_eq]
    exact hsends

/-! ## NOP (R218) -/

theorem exec_ioNop {s : State} {n : BitVec 10} {d : Desc} (h : s.frontDesc n = some d) (hop : d.opcode = 5) (ht : s.turn n = true) :
    exec (.ioNop n) s = .next ((s.takeFront n).finishDesc n d stOk 0 0 0) := by
  show execIoNop n s = _
  simp only [execIoNop, h]
  exact if_neg (by simp [hop, ht])

theorem answers_ioNop {s : State} {n : BitVec 10} {d : Desc} (h : s.frontDesc n = some d) (hr : s.gcs.phase = .running)
    (hop : d.opcode = 5) (ht : s.turn n = true) (hevt : d.flags.getLsbD 2 = false) (hhead : (s.ring (.data n)).head = d.pos)
    (hended : (s.ring (.data n)).ended = []) :
    Answers (.ioNop n) s (fun t =>
      (t.ring (.data n)).head = posAdd (s.ringN (.data n)) d.pos 1 ∧ (t.ring (.data n)).exc = (s.ring (.data n)).exc ∧
      (t.ring (.data n)).doneCount = ((s.ring (.data n)).doneCount + 1) % 2 ^ 64 ∧
      Out.headWord (.data n) (headWordOf (s.ringN (.data n)) (posAdd (s.ringN (.data n)) d.pos 1) (s.ring (.data n)).exc) ∈ t.out ∧
      t.ios = s.ios) := by
  have hd : s.gcs.phase ≠ .dock := by simp [hr]
  obtain ⟨hstate, -⟩ := State.frontDesc_inv h
  have hring := State.ring_takeFront hd (n := n) (by rcases hstate with h | h <;> simp [h])
  have hcfg : (s.takeFront n).ringN (.data n) = s.ringN (.data n) := by
    rw [State.takeFront_eq hd, State.passTurn_eq]
    rfl
  have hat := State.atHead_takeFront h hd hhead hended
  obtain ⟨u, hu, hpassed⟩ := hat.finishDesc_ok hevt 0 0
  obtain ⟨hh, hexc, hdone, hout, hframe⟩ := hpassed.publish
  rw [hcfg, hat.head] at hh hout
  rw [congrArg Ring.exc hring] at hexc hout
  rw [congrArg Ring.doneCount hring] at hdone
  refine ⟨_, (exec_ioNop h hop ht).trans (congrArg _ hu), hh, hexc, hdone, hout, ?_⟩
  exact (State.takeFront_only (M := .rings :: dockParts) (Only.refl _ s) rfl n .ios (by decide)).trans (hframe .ios (by decide))

/-! ### NOP with EVT (R234) -/

/-- Whether a record can be written depends on the event ring's positions, its hold, its size and its port. -/
theorem State.canWrite_of_ring {s t : State} {p : Bool} {b : Bool} (he : t.ring (.event p) = { s.ring (.event p) with lastTurn := b })
    (hN : t.ringN (.event p) = s.ringN (.event p)) (hs : t.portSilent p = s.portSilent p) : t.canWrite p = s.canWrite p := by
  unfold State.canWrite State.eventFree
  rw [he, hN, hs]

/-- A record for which the event ring has room is written (R236). -/
theorem State.postTo_of_canWrite {s : State} {p : Bool} (h : (s.ring (.event p)).state = .active) (hw : s.canWrite p = true)
    (r : EventRecord) : s.postTo p r = ((s.writeRecord p r).1, (s.writeRecord p r).2, .yes) := by
  have hsends : s.portSilent p = false := by
    simp only [State.canWrite, Bool.and_eq_true, Bool.not_eq_true'] at hw
    exact hw.2
  have hopen : s.haltClosed = false := (State.portSilent_eq_false_iff.1 hsends).2.2
  simp [State.postTo, h, hopen, hw]

theorem State.record_mem_writeRecord (s : State) (p : Bool) (r : EventRecord) :
    Out.record p (s.ring (.event p)).tail r ∈ (s.writeRecord p r).1.out := by
  refine (State.notify_suffix _ (.event p) 1).subset ?_
  rw [State.hostOut_out]
  exact .head _

/-- What had left when faults below STOP were raised is still there. -/
theorem raised_suffix {x : State × List FaultReq} (h : ∀ f ∈ x.2, f.ofEvents) : x.1.out <:+ (raised x).out :=
  (State.raiseFuel_reported x.1 _ _ fun f hf => (h f (mem_orderFaults hf)).low).out

theorem State.ring_event_withEnded (s : State) (n : BitVec 10) (e : Ended) (p : Bool) :
    (s.withEnded n e).ring (.event p) = s.ring (.event p) := State.ring_setRing_other s _ (by simp)

theorem State.canWrite_withEnded (s : State) (n : BitVec 10) (e : Ended) (p : Bool) : (s.withEnded n e).canWrite p = s.canWrite p :=
  State.canWrite_of_ring (b := (s.ring (.event p)).lastTurn) (s.ring_event_withEnded n e p) rfl rfl

/-- The record of an entry that ends at the head of its ring is written, if the event ring has room. -/
theorem State.AtHead.record_mem_endEntry {s : State} {n : BitVec 10} {pos : Nat} (h : s.AtHead n pos) (status : Byte) (rec : EventRecord)
    (hactive : (s.ring (.event (s.ringPort (.data n)))).state = .active) (hw : s.canWrite (s.ringPort (.data n)) = true) :
    Out.record (s.ringPort (.data n)) (s.ring (.event (s.ringPort (.data n)))).tail rec ∈
      (raised (s.endEntry (.data n) pos status (some rec))).out := by
  have hpost := State.postTo_of_canWrite (s := s.withEnded n { pos := pos, status := status, record := some rec })
    (by rwa [State.ring_event_withEnded]) (by rwa [State.canWrite_withEnded]) rec
  obtain ⟨u, hu, hout⟩ := h.endEntry_some status hpost
  have hleft : Out.record (s.ringPort (.data n)) (s.ring (.event (s.ringPort (.data n)))).tail rec ∈ u.out := by
    rw [hout, ← State.ring_event_withEnded s n { pos := pos, status := status, record := some rec }]
    exact State.record_mem_writeRecord _ _ _
  refine (raised_suffix (State.endEntry_faults _ _ _ _ _)).subset ?_
  rw [hu]
  exact (u.publish_suffix (.data n) 1).subset (.tail _ hleft)

theorem State.finishDesc_of_evt (s : State) (n : BitVec 10) {d : Desc} (h : d.flags.getLsbD 2 = true) (status detail : Byte)
    (lba count : Nat) : s.finishDesc n d status detail lba count =
      raised (s.endEntry (.data n) d.pos status (some (s.ioRecord n d status detail lba count))) := by
  unfold State.finishDesc State.endDesc
  rw [h, Bool.or_true]
  rfl

theorem answers_ioNop_evt {s : State} {n : BitVec 10} {d : Desc} (h : s.frontDesc n = some d) (hr : s.gcs.phase = .running)
    (hop : d.opcode = 5) (ht : s.turn n = true) (hevt : d.flags.getLsbD 2 = true) (hhead : (s.ring (.data n)).head = d.pos)
    (hended : (s.ring (.data n)).ended = []) (hactive : (s.ring (.event (s.ringPort (.data n)))).state = .active)
    (hw : s.canWrite (s.ringPort (.data n)) = true) :
    Answers (.ioNop n) s (fun t =>
      ∃ r : EventRecord, r.typ = 1 ∧ r.status = 0 ∧ r.tag = d.tag ∧ r.ring = n.setWidth 16 ∧
        Out.record (s.ringPort (.data n)) (s.ring (.event (s.ringPort (.data n)))).tail r ∈ t.out) := by
  have hd : s.gcs.phase ≠ .dock := by simp [hr]
  have hevent := State.ring_event_takeFront (n := n) (p := s.ringPort (.data n)) hd (by simp [hactive])
  have hsame : ((s.takeFront n).ringPort (.data n) = s.ringPort (.data n) ∧
      (s.takeFront n).ringN (.event (s.ringPort (.data n))) = s.ringN (.event (s.ringPort (.data n)))) ∧
      (s.takeFront n).portSilent (s.ringPort (.data n)) = s.portSilent (s.ringPort (.data n)) := by
    rw [State.takeFront_eq hd, State.passTurn_eq]
    exact ⟨⟨rfl, rfl⟩, rfl⟩
  obtain ⟨⟨hport, hN⟩, hsilent⟩ := hsame
  have hwrite : (s.takeFront n).canWrite (s.ringPort (.data n)) = true := (State.canWrite_of_ring hevent hN hsilent).trans hw
  have hmem := (State.atHead_takeFront h hd hhead hended).record_mem_endEntry stOk ((s.takeFront n).ioRecord n d stOk 0 0 0)
    (by rw [hport, hevent]; exact hactive) (by rw [hport, hwrite])
  rw [hport, hevent, ← State.finishDesc_of_evt _ n hevt] at hmem
  exact ⟨_, exec_ioNop h hop ht, (s.takeFront n).ioRecord n d stOk 0 0 0, rfl, rfl, rfl, rfl, hmem⟩

/-! ## VERIFY (R218) -/

theorem State.AtHead.withNextId {s : State} {n : BitVec 10} {pos : Nat} (h : s.AtHead n pos) (k : Nat) : (s.withNextId k).AtHead n pos :=
  ⟨h.publishes, h.sends, h.head, h.ended⟩

theorem State.AtHead.withIos {s : State} {n : BitVec 10} {pos : Nat} (h : s.AtHead n pos) (l : List Io) : (s.withIos l).AtHead n pos :=
  ⟨h.publishes, h.sends, h.head, h.ended⟩

theorem State.AtHead.countAdmitted {s : State} {n : BitVec 10} {pos : Nat} (h : s.AtHead n pos) :
    (s.count64 Reg.rngAdmitted 1).AtHead n pos := by
  have hport : (s.count64 Reg.rngAdmitted 1).ringPort (.data n) = s.ringPort (.data n) :=
    congrArg (fun c => bitOf c 8) (s.ringCfg_countAdmitted n)
  refine ⟨h.publishes, ?_, h.head, h.ended⟩
  rw [hport]
  exact h.sends

/-- The front descriptor admitted under a fresh id, and l the operations then outstanding. -/
def State.admitted (s : State) (n : BitVec 10) (l : List Io) : State :=
  (((s.takeFront n).count64 Reg.rngAdmitted 1).withNextId (s.nextId + 1)).withIos l

/-- An operation that joined the list of those outstanding and left it again leaves the list as it was. -/
theorem filter_map_append_fresh {l : List Io} {io : Io} (h : ∀ j ∈ l, j.id ≠ io.id) :
    ((l ++ [io]).map (fun j => if j.id = io.id then io else j)).filter (fun j => j.id ≠ io.id) = l := by
  have hmap : l.map (fun j => if j.id = io.id then io else j) = l.map id := List.map_congr_left fun j hj => if_neg (h j hj)
  rw [List.map_append, hmap, List.map_id, List.filter_append, List.filter_eq_self.2 fun j hj => decide_eq_true (h j hj)]
  simp

/-- A VERIFY whose every row is skipped is admitted and ends at once. -/
theorem exec_ioVerify {s : State} {n : BitVec 10} {d : Desc} (h : s.frontDesc n = some d) (hd : s.gcs.phase ≠ .dock)
    (hop : d.opcode = 4) (ht : s.turn n = true) (hown : s.partnerOwns d = false) (hadmit : s.admitCheck d .notNeeded = none)
    (hsync : (s.stripesOf d).all (fun t => !(s.set d.set.toNat).resyncing t) = true)
    (hrows : s.verifyBlocks (BitVec.ofNat 6 d.set.toNat) d = []) (hfresh : ∀ j ∈ s.ios, j.id ≠ s.nextId) :
    exec (.ioVerify n) s = .next ((s.admitted n s.ios).finishDesc n d stOk 0 d.lba d.blocks) := by
  have hready : ¬((s.stripesOf d).any (fun t => (s.set d.set.toNat).resyncing t) = true) := by simpa using hsync
  have hsame : (s.takeFront n).ios = s.ios ∧ (s.takeFront n).nextId = s.nextId := by
    rw [State.takeFront_eq hd, State.passTurn_eq]
    exact ⟨rfl, rfl⟩
  let io := newIo s.nextId n .verify d (s.takeFront n).watch 0 false
  have hgathered : exec (.ioVerify n) s = .next (((s.admitted n (s.ios ++ [io])).setIo io).finishIo io stOk 0 d.lba d.blocks) := by
    show execIoVerify n s = _
    simp only [execIoVerify, h, hadmit, hrows]
    rw [if_neg (by simp [hop, ht]), if_neg (by simp [hown]), if_neg hready, State.count64, State.setRegN, State.setReg,
      State.withRegs_ios, State.withRegs_nextId, hsame.1, hsame.2]
    rfl
  rw [hgathered, State.finishIo_ok _ rfl]
  have hleft : ((s.admitted n (s.ios ++ [io])).setIo io).ios.filter (fun j => j.id ≠ io.id) = s.ios := filter_map_append_fresh hfresh
  rw [hleft]
  rfl

theorem answers_ioVerify {s : State} {n : BitVec 10} {d : Desc} (h : s.frontDesc n = some d) (hr : s.gcs.phase = .running)
    (hop : d.opcode = 4) (ht : s.turn n = true) (hown : s.partnerOwns d = false) (hadmit : s.admitCheck d .notNeeded = none)
    (hsync : (s.stripesOf d).all (fun t => !(s.set d.set.toNat).resyncing t) = true)
    (hrows : s.verifyBlocks (BitVec.ofNat 6 d.set.toNat) d = []) (hevt : d.flags.getLsbD 2 = false)
    (hhead : (s.ring (.data n)).head = d.pos) (hended : (s.ring (.data n)).ended = []) (hfresh : ∀ j ∈ s.ios, j.id ≠ s.nextId) :
    Answers (.ioVerify n) s (fun t =>
      (t.ring (.data n)).head = posAdd (s.ringN (.data n)) d.pos 1 ∧ t.ios = s.ios ∧
      t.regN Reg.rngAdmitted = (s.regN Reg.rngAdmitted + 1) % 2 ^ 64) := by
  have hd : s.gcs.phase ≠ .dock := by simp [hr]
  have hregs : (s.takeFront n).regN = s.regN := by
    rw [State.takeFront_eq hd, State.passTurn_eq]
    rfl
  have hat : (s.admitted n s.ios).AtHead n d.pos :=
    (((State.atHead_takeFront h hd hhead hended).countAdmitted).withNextId _).withIos _
  have hN : (s.admitted n s.ios).ringN (.data n) = s.ringN (.data n) := by
    have hcfg : (s.admitted n s.ios).ringCfg (.data n) = s.ringCfg (.data n) :=
      ((s.takeFront n).ringCfg_countAdmitted n).trans (congrFun hregs _)
    unfold State.ringN
    rw [hcfg]
  have hcount : (s.admitted n s.ios).regN Reg.rngAdmitted = (s.regN Reg.rngAdmitted + 1) % 2 ^ 64 := by
    rw [← hregs]
    exact State.regN_count64 (s.takeFront n) Reg.rngAdmitted 1
  obtain ⟨u, hu, hpassed⟩ := hat.finishDesc_ok hevt d.lba d.blocks
  obtain ⟨hh, -, -, -, hframe⟩ := hpassed.publish
  have hexec := exec_ioVerify h hd hop ht hown hadmit hsync hrows hfresh
  rw [hu] at hexec
  refine ⟨_, hexec, by rw [hh, hN, hat.head], hframe .ios (by decide), ?_⟩
  rw [← hcount]
  exact congrArg BitVec.toNat (State.reg_of_regs (hframe .regs (by decide)) (hframe .part (by decide)) _)

/-- Settles O28: a NOP and a VERIFY with nothing to read end at the head, which passes them. -/
theorem entriesEndInOrder : Obligations.EntriesEndInOrder := by
  unfold Obligations.EntriesEndInOrder
  exact ⟨fun _ _ _ h hr hop ht hevt hhead hended => answers_ioNop h hr hop ht hevt hhead hended,
    fun _ _ _ h hr hop ht hevt hhead hended ha hw => answers_ioNop_evt h hr hop ht hevt hhead hended ha hw,
    fun _ _ _ h hr hop ht hown had hs hrows hevt hhead hended hf =>
      answers_ioVerify h hr hop ht hown had hs hrows hevt hhead hended hf⟩

end Sys2Proof.Machine
end

section
/-! PROOFS. The registers of mover channels and completion queues (spec/07_host_rings.md R206; spec/09_data_movers.md R265, R266, R279 to
R281, R286, R287): what a write of each does in the states that the rules name. -/

namespace Sys2Proof.Machine

/-! ## Channels and queues as tables -/

theorem State.chan_setChan_other (s : State) {k n : Nat} (v : Channel) (h : k ≠ n) : (s.setChan n v).chan k = s.chan k :=
  Tab.get_set_other _ _ _ _ h

@[simp] theorem State.chan_modChan (s : State) (n : Nat) (f : Channel → Channel) : (s.modChan n f).chan n = f (s.chan n) :=
  State.chan_setChan ..

theorem State.chan_modChan_other (s : State) {k n : Nat} (f : Channel → Channel) (h : k ≠ n) : (s.modChan n f).chan k = s.chan k :=
  s.chan_setChan_other _ h

@[simp] theorem State.mq_modMq (s : State) (q : Nat) (f : Mq → Mq) : (s.modMq q f).mq q = f (s.mq q) := Tab.get_set_self ..

theorem State.raise_dmv (s : State) (source detail : Byte) : (s.raise source .note detail).dmv = s.dmv :=
  State.raise_low s source .note detail (.inl rfl) .dmv (by decide)

/-- A command that changes one channel leaves the other channels and every other part of the state. -/
theorem answers_modChan {c : Instr} {s : State} {n : Nat} {f : Channel → Channel} (h : exec c s = .next (s.modChan n f)) :
    Answers c s (fun t => t.chan n = f (s.chan n) ∧ (∀ k, k ≠ n → t.chan k = s.chan k) ∧ Only [.dmv] s t) :=
  ⟨_, h, s.chan_modChan n f, fun _ hk => s.chan_modChan_other f hk, State.modChan_only (Only.refl _ s) rfl n f⟩

/-! ## CTL.ENABLE, SW_REQ and DESC (R279, R280) -/

/-- With no transfer waiting for a channel none is assigned (R266). -/
theorem State.assignWaiting_of_nil {s : State} (h : s.dmv.unassigned = []) (line : Nat) : s.assignWaiting line = s := by
  have hsame : s.withDmv { s.dmv with unassigned := [] } = s := by rw [← h]; rfl
  unfold State.assignWaiting
  simp only [h, List.filter_nil, List.foldl_nil]
  exact hsame

section Writes
variable {s : State} (hc : s.haltClosed = false) (hd : s.gcs.phase ≠ .dock)
include hc hd

theorem answers_channelEnable {ch : BitVec 6} (hs : (s.chan ch.toNat).state = .disabled) (hu : s.dmv.unassigned = []) :
    Answers (.channelEnable ch) s (fun t => t.chan ch.toNat = { s.chan ch.toNat with state := .idle, enable := true } ∧
      (∀ k, k ≠ ch.toNat → t.chan k = s.chan k) ∧ Only [.dmv] s t) := by
  have hexec : exec (.channelEnable ch) s = .next (s.modChan ch.toNat (fun c => { c with state := .idle, enable := true })) := by
    refine (if_neg (by simp [hc])).trans ?_
    rw [State.leaveDock_of_not_dock hd]
    refine (if_neg (by simp [hs])).trans (congrArg _ ?_)
    exact State.assignWaiting_of_nil (s := s.modChan ch.toNat (fun c => { c with state := .idle, enable := true })) hu _
  exact answers_modChan hexec

theorem answers_swReq {ch : BitVec 6} (hl : s.chanLine ch.toNat = 0)
    (hs : (s.chan ch.toNat).state = .idle ∨ (s.chan ch.toNat).state = .halted) (hdesc : (s.chan ch.toNat).desc ≠ 0) :
    Answers (.swReq ch) s (fun t => t.chan ch.toNat = { s.chan ch.toNat with state := .running, swReq := true } ∧
      (∀ k, k ≠ ch.toNat → t.chan k = s.chan k) ∧ Only [.dmv] s t) := by
  have hexec : exec (.swReq ch) s = .next (s.modChan ch.toNat (fun c => { c with state := .running, swReq := true })) := by
    refine (if_neg (by simp [hc])).trans ?_
    rw [State.leaveDock_of_not_dock hd]
    exact if_pos ⟨hl, hs, hdesc⟩
  exact answers_modChan hexec

theorem exec_channelDesc (ch : BitVec 6) (value : Word64) :
    exec (.channelDesc ch value) s = if (s.chan ch.toNat).state = .idle ∨ (s.chan ch.toNat).state = .halted then
      .next (s.modChan ch.toNat (fun c => { c with desc := value &&& ~~~63#64 })) else .next s := by
  refine (if_neg (by simp [hc])).trans ?_
  rw [State.leaveDock_of_not_dock hd]

theorem answers_channelDesc {ch : BitVec 6} (value : Word64)
    (hs : (s.chan ch.toNat).state = .idle ∨ (s.chan ch.toNat).state = .halted) :
    Answers (.channelDesc ch value) s (fun t => t.chan ch.toNat = { s.chan ch.toNat with desc := value &&& ~~~63#64 } ∧
      Only [.dmv] s t) := by
  obtain ⟨t, hexec, hchan, -, honly⟩ := answers_modChan ((exec_channelDesc hc hd ch value).trans (if_pos hs))
  exact ⟨t, hexec, hchan, honly⟩

theorem answers_channelDesc_ignored {ch : BitVec 6} (value : Word64) (hi : (s.chan ch.toNat).state ≠ .idle)
    (hh : (s.chan ch.toNat).state ≠ .halted) : Answers (.channelDesc ch value) s (fun t => t = s) :=
  ⟨s, (exec_channelDesc hc hd ch value).trans (if_neg (not_or.2 ⟨hi, hh⟩)), rfl⟩

end Writes

/-! ## Tags in quarantine (R286) -/

/-- From s to t the tags listed entered quarantine, and nothing else of the movers changed but what was reported. -/
def Quarantined (s t : State) (l : List (Bool × BitVec 10 × Bool)) : Prop :=
  ∃ reported, t.dmv = { s.dmv with quarantine := s.dmv.quarantine ++ l, quarReported := reported }

theorem State.quarantineTag_quarantined (s : State) (p : Bool) (tag : BitVec 10) (reported : Bool) :
    Quarantined s (s.quarantineTag p tag reported) [(p, tag, reported)] := by
  unfold State.quarantineTag
  dsimp only
  split
  · exact ⟨_, State.raise_dmv ..⟩
  · exact ⟨_, rfl⟩

theorem Quarantined.trans {s t u : State} {l m : List (Bool × BitVec 10 × Bool)} (h : Quarantined s t l) (k : Quarantined t u m) :
    Quarantined s u (l ++ m) := by
  obtain ⟨a, ha⟩ := h
  obtain ⟨b, hb⟩ := k
  exact ⟨b, by rw [hb, ha, ← List.append_assoc]⟩

theorem State.foldl_quarantined (l : List HostRead) (s : State) :
    Quarantined s (l.foldl (fun s r => s.quarantineTag r.port r.tag false) s) (l.map (fun r => (r.port, r.tag, false))) := by
  induction l generalizing s with
  | nil => exact ⟨s.dmv.quarReported, by simp⟩
  | cons r l ih => exact (s.quarantineTag_quarantined r.port r.tag false).trans (ih _)

/-- The reads of a channel leave, their tags in quarantine. -/
theorem State.quarantineReads_dmv (s : State) (n : Nat) : ∃ reported, (s.quarantineReads n).dmv =
    { s.dmv with
        reads := s.dmv.reads.filter (fun r => r.user ≠ .chan n), retries := s.dmv.retries.filter (fun r => r.user ≠ .chan n),
        quarantine := s.dmv.quarantine ++ (s.dmv.reads.filter (fun r => r.user = .chan n)).map (fun r => (r.port, r.tag, false)),
        quarReported := reported } := State.foldl_quarantined _ _

/-- With no read outstanding no tag enters quarantine. -/
theorem State.quarantineReads_of_nil {s : State} (h : s.dmv.reads = []) (n : Nat) : s.quarantineReads n =
    s.withDmv { s.dmv with reads := [], retries := s.dmv.retries.filter (fun r => r.user ≠ .chan n) } := by
  unfold State.quarantineReads
  simp only [h, List.filter_nil, List.foldl_nil]

theorem State.quarantineReads_chan (s : State) (n k : Nat) : (s.quarantineReads n).chan k = s.chan k := by
  obtain ⟨_, h⟩ := s.quarantineReads_dmv n
  unfold State.chan
  rw [h]

/-! ## Disabling (R281) -/

/-- A line 0 channel once it is disabled, with what its registers then read. -/
def Channel.dropped (c : Channel) (bytes desc : Word64) : Channel :=
  { c with state := .disabled, enable := false, swReq := false, queue := [], held := none, flushWait := false, bytes := bytes,
           desc := desc }

/-- A channel of another line once it is disabled. -/
def Channel.retired (c : Channel) : Channel := { c with state := .disabled, enable := false, queue := [], flushWait := false }

/-- A line 0 channel drops its descriptor, and of the movers' queues only what it waits for. -/
theorem State.exists_disableChannel_line0 {s : State} {n : Nat} (hl : s.chanLine n = 0) : ∃ u : State, ∃ bytes desc,
    s.disableChannel n = u.modChan n (fun c => c.dropped bytes desc) ∧ u.dmv.reads = (s.quarantineReads n).dmv.reads ∧
      u.dmv.quarantine = (s.quarantineReads n).dmv.quarantine :=
  ⟨_, _, _, if_pos hl, rfl, rfl⟩

theorem State.disableChannel_of_line {s : State} {n : Nat} (hl : s.chanLine n ≠ 0) : s.disableChannel n =
    (s.chan n).queue.foldl (fun t x => t.queueTransfer (s.chanLine n) x.restart)
      ((s.quarantineReads n).modChan n Channel.retired) := if_neg hl

/-- The one enabled channel of a line takes its transfers (R266). -/
theorem State.lineChannel_of_one {s : State} {line m : Nat} (hm : m < 64)
    (h : ∀ k, k < 64 → ((s.chan k).enable = true ∧ s.chanLine k = line ↔ k = m)) : s.lineChannel line = some m := by
  have hone : (List.range 64).filter (fun k => (s.chan k).enable && decide (s.chanLine k = line)) = [m] := by
    have hbeq : ∀ k ∈ List.range 64, ((s.chan k).enable && decide (s.chanLine k = line)) = (k == m) := fun k hk => by
      rw [Bool.eq_iff_iff, Bool.and_eq_true, decide_eq_true_eq, beq_iff_eq]
      exact h k (List.mem_range.1 hk)
    rw [List.filter_congr hbeq, List.filter_beq, List.count_eq_one_of_mem List.nodup_range (List.mem_range.2 hm)]
    rfl
  unfold State.lineChannel
  rw [hone]
  rfl

section Disable
variable {s : State} {ch : BitVec 6} (hc : s.haltClosed = false) (hd : s.gcs.phase ≠ .dock)
  (hs : (s.chan ch.toNat).state ≠ .disabled)
include hc hd hs

theorem exec_channelDisable : exec (.channelDisable ch) s =
    if 1 ≤ s.chanLine ch.toNat ∧ s.chanLine ch.toNat ≤ 4 ∧ !(chanNumbers.any (fun m => decide (m ≠ ch.toNat) && (s.chan m).enable &&
      decide (s.chanLine m = s.chanLine ch.toNat))) then .next (s.raise 0x35 .note (BitVec.ofNat 8 ch.toNat))
    else .next (s.disableChannel ch.toNat) := by
  refine (if_neg (by simp [hc])).trans ?_
  rw [State.leaveDock_of_not_dock hd]
  exact if_neg hs

theorem answers_channelDisable_line0 (hl : s.chanLine ch.toNat = 0) :
    Answers (.channelDisable ch) s (fun t => (t.chan ch.toNat).state = .disabled ∧ (t.chan ch.toNat).enable = false ∧
      (t.chan ch.toNat).queue = [] ∧ (∀ r ∈ t.dmv.reads, r.user ≠ .chan ch.toNat) ∧
      (∀ r ∈ s.dmv.reads, r.user = .chan ch.toNat → (r.port, r.tag, false) ∈ t.dmv.quarantine)) := by
  obtain ⟨u, bytes, desc, hu, hreads, hquar⟩ := State.exists_disableChannel_line0 hl
  obtain ⟨_, hdmv⟩ := s.quarantineReads_dmv ch.toNat
  have hexec := (exec_channelDisable hc hd hs).trans (if_neg (by simp [hl]))
  rw [hu] at hexec
  refine ⟨_, hexec, ?_, ?_, ?_, fun r hr => ?_, fun r hr huser => ?_⟩
  · rw [State.chan_modChan, Channel.dropped]
  · rw [State.chan_modChan, Channel.dropped]
  · rw [State.chan_modChan, Channel.dropped]
  · have hr' : r ∈ u.dmv.reads := hr
    rw [hreads, hdmv] at hr'
    exact of_decide_eq_true (List.mem_filter.1 hr').2
  · show _ ∈ u.dmv.quarantine
    rw [hquar, hdmv]
    exact List.mem_append_right _ (List.mem_map.2 ⟨r, List.mem_filter.2 ⟨hr, decide_eq_true huser⟩, rfl⟩)

/-- The last channel of lines 1 to 4 stays enabled (R281). -/
theorem answers_channelDisable_last (hlo : 1 ≤ s.chanLine ch.toNat) (hhi : s.chanLine ch.toNat ≤ 4)
    (hlast : ∀ m, m < 64 → m ≠ ch.toNat → ¬ ((s.chan m).enable = true ∧ s.chanLine m = s.chanLine ch.toNat)) :
    Answers (.channelDisable ch) s (fun t => t.dmv = s.dmv ∧ s.Faulted t 0x35 (ch.setWidth 8)) := by
  have hnone : chanNumbers.any (fun m => decide (m ≠ ch.toNat) && (s.chan m).enable &&
      decide (s.chanLine m = s.chanLine ch.toNat)) = false := by
    refine List.any_eq_false.2 fun m hm hother => ?_
    simp only [Bool.and_eq_true, decide_eq_true_eq] at hother
    exact hlast m (List.mem_range.1 hm) hother.1.1 ⟨hother.1.2, hother.2⟩
  have hexec := (exec_channelDisable hc hd hs).trans (if_pos ⟨hlo, hhi, by rw [hnone]; rfl⟩)
  rw [BitVec.ofNat_toNat] at hexec
  exact ⟨_, hexec, State.raise_dmv .., .raise rfl _ _ (by decide) (by decide) (by decide)⟩

/-- The transfer of a channel of lines 1 to 4 starts again on the other channel of its line (R281). -/
theorem answers_channelDisable_handed {m : Nat} {x : Transfer} (hlo : 1 ≤ s.chanLine ch.toNat) (hm : m < 64) (hne : m ≠ ch.toNat)
    (hone : ∀ k, k < 64 → k ≠ ch.toNat → ((s.chan k).enable = true ∧ s.chanLine k = s.chanLine ch.toNat ↔ k = m))
    (hq : (s.chan ch.toNat).queue = [x]) (hreads : s.dmv.reads = []) :
    Answers (.channelDisable ch) s (fun t => (t.chan ch.toNat).state = .disabled ∧ (t.chan ch.toNat).queue = [] ∧
      (t.chan m).queue = (s.chan m).queue ++ [x.restart]) := by
  let u := (s.quarantineReads ch.toNat).modChan ch.toNat Channel.retired
  have hother {k : Nat} (hk : k ≠ ch.toNat) : u.chan k = s.chan k :=
    (State.chan_modChan_other _ _ hk).trans (s.quarantineReads_chan _ k)
  have hline (k : Nat) : u.chanLine k = s.chanLine k := by
    simp only [u, State.quarantineReads_of_nil hreads]
    rfl
  have hfree : u.lineChannel (s.chanLine ch.toNat) = some m := by
    refine State.lineChannel_of_one hm fun k hk => ?_
    by_cases hkn : k = ch.toNat
    · have hoff : (u.chan k).enable = false := by rw [hkn]; exact congrArg Channel.enable (State.chan_modChan ..)
      rw [hoff, hkn]
      simp [Ne.symm hne]
    · rw [hother hkn, hline]
      exact hone k hk hkn
  have hdisable : s.disableChannel ch.toNat = u.queueTransfer (s.chanLine ch.toNat) x.restart := by
    rw [State.disableChannel_of_line (by omega), hq]
    rfl
  have hany : chanNumbers.any (fun m => decide (m ≠ ch.toNat) && (s.chan m).enable &&
      decide (s.chanLine m = s.chanLine ch.toNat)) = true := by
    obtain ⟨hen, hl⟩ := (hone m hm hne).2 rfl
    exact List.any_eq_true.2 ⟨m, List.mem_range.2 hm, by simp [hne, hen, hl]⟩
  have hexec := (exec_channelDisable hc hd hs).trans (if_neg (by rw [hany]; simp))
  rw [hdisable, State.queueTransfer, hfree] at hexec
  have hch {v : Channel} : (u.setChan m v).chan ch.toNat = (s.chan ch.toNat).retired := by
    rw [State.chan_setChan_other _ _ hne.symm, State.chan_modChan, State.quarantineReads_chan]
  exact ⟨_, hexec, congrArg Channel.state hch, congrArg Channel.queue hch,
    (congrArg Channel.queue (State.chan_setChan ..)).trans (by rw [hother hne])⟩

end Disable

/-! ## Completion queues (R287, R206) -/

/-- A queue for which no record waits has nothing to write. -/
theorem State.drainMq_of_nil {s : State} {q : Nat} (h : (s.mq q).waiting = []) (k : Nat) : s.drainMq q k = s := by
  cases k with
  | zero => rfl
  | succ k =>
    unfold State.drainMq
    rw [h]

section Queues
variable {s : State} {q : BitVec 3} (hc : s.haltClosed = false) (hd : s.gcs.phase ≠ .dock)
include hc hd

theorem answers_mqEnable (hen : (s.mq q.toNat).enabled = false) (hbase : s.regN (Reg.dmvMqBase q.toNat) ≠ 0)
    (hlo : 4 ≤ s.regField (Reg.dmvMqCfg q.toNat) 0 5) (hhi : s.regField (Reg.dmvMqCfg q.toNat) 0 5 ≤ 16)
    (hw : (s.mq q.toNat).waiting = []) :
    Answers (.mqEnable q true) s (fun t =>
      t.mq q.toNat = { s.mq q.toNat with enabled := true, prod := 0, cons := 0, unsignalled := 0 } ∧ Only [.dmv] s t) := by
  have hexec : exec (.mqEnable q true) s = .next
      ((s.modMq q.toNat (fun m => { m with enabled := true, prod := 0, cons := 0, unsignalled := 0 })).drainMq q.toNat 64) := by
    refine (if_neg (by simp [hc])).trans ?_
    rw [State.leaveDock_of_not_dock hd]
    exact (if_neg (by simp)).trans (if_neg (by simp [hen, hbase, hlo, hhi]))
  rw [State.drainMq_of_nil (by rw [State.mq_modMq]; exact hw)] at hexec
  exact ⟨_, hexec, s.mq_modMq .., State.modMq_only (Only.refl _ s) rfl _ _⟩

theorem answers_mqEnable_off :
    Answers (.mqEnable q false) s (fun t => t.mq q.toNat = { s.mq q.toNat with enabled := false } ∧ Only [.dmv] s t) := by
  have hexec : exec (.mqEnable q false) s = .next (s.modMq q.toNat (fun m => { m with enabled := false })) := by
    refine (if_neg (by simp [hc])).trans ?_
    rw [State.leaveDock_of_not_dock hd]
    rfl
  exact ⟨_, hexec, s.mq_modMq .., State.modMq_only (Only.refl _ s) rfl _ _⟩

theorem exec_mqCons_of_none {value : Word32}
    (h : consCheck (s.mq q.toNat).enabled (s.mqN q.toNat) (s.mq q.toNat).cons (s.mq q.toNat).prod value.toNat = none) :
    exec (.mqCons q value) s = .next ((s.modMq q.toNat (fun m => { m with
      cons := value.toNat % 2 ^ 16 + s.mqN q.toNat * bitsOf value.toNat 16 1 })).drainMq q.toNat 64) := by
  refine (if_neg (by simp [hc])).trans ?_
  rw [State.leaveDock_of_not_dock hd]
  simp only [h]

/-- A consumer doorbell that passes the checks of R206 moves the consumer. -/
theorem answers_mqCons {value : Word32} (hen : (s.mq q.toNat).enabled = true) (hzero : value.toNat < 2 ^ 17)
    (hindex : value.toNat % 2 ^ 16 < s.mqN q.toNat)
    (hprod : posCount (s.mqN q.toNat) (s.mq q.toNat).cons (value.toNat % 2 ^ 16 + s.mqN q.toNat * bitsOf value.toNat 16 1) ≤
      posCount (s.mqN q.toNat) (s.mq q.toNat).cons (s.mq q.toNat).prod) (hw : (s.mq q.toNat).waiting = []) :
    Answers (.mqCons q value) s (fun t => t.mq q.toNat =
      { s.mq q.toNat with cons := value.toNat % 2 ^ 16 + s.mqN q.toNat * bitsOf value.toNat 16 1 } ∧ Only [.dmv] s t) := by
  have hpass : consCheck (s.mq q.toNat).enabled (s.mqN q.toNat) (s.mq q.toNat).cons (s.mq q.toNat).prod value.toNat = none := by
    unfold consCheck
    rw [if_neg (by simp [hen]), if_neg (by omega), if_neg (by omega), if_neg (by omega)]
  have hexec := exec_mqCons_of_none hc hd hpass
  rw [State.drainMq_of_nil (by rw [State.mq_modMq]; exact hw)] at hexec
  exact ⟨_, hexec, s.mq_modMq .., State.modMq_only (Only.refl _ s) rfl _ _⟩

/-- One that fails a check raises 0x22 with the first it fails. -/
theorem answers_mqCons_refused {value : Word32} {det : Byte}
    (h : consCheck (s.mq q.toNat).enabled (s.mqN q.toNat) (s.mq q.toNat).cons (s.mq q.toNat).prod value.toNat = some det) :
    Answers (.mqCons q value) s (fun t => t.dmv = s.dmv ∧ s.Faulted t 0x22 det) := by
  have hexec : exec (.mqCons q value) s = .next (s.raise 0x22 .note det) := by
    refine (if_neg (by simp [hc])).trans ?_
    rw [State.leaveDock_of_not_dock hd]
    simp only [h]
  exact ⟨_, hexec, State.raise_dmv .., .raise rfl _ _ (by decide) (by decide) (by decide)⟩

end Queues

/-- Settles O56: each write of a register of a channel or a queue has, for each way it can go, its lemma above. -/
theorem channelAndQueueRegisters : Obligations.ChannelAndQueueRegisters := by
  unfold Obligations.ChannelAndQueueRegisters
  refine ⟨?enable, ?request, ?desc, ?ignored, ?line0, ?last, ?handed, ?queueOn, ?queueOff, ?consumer, ?refused⟩
  case enable => exact fun _ _ hc hd hs hu => answers_channelEnable hc hd hs hu
  case request => exact fun _ _ hc hd hl hs hdesc => answers_swReq hc hd hl hs hdesc
  case desc => exact fun _ v _ hc hd hs => answers_channelDesc hc hd v hs
  case ignored => exact fun _ v _ hc hd hi hh => answers_channelDesc_ignored hc hd v hi hh
  case line0 => exact fun _ _ hc hd hs hl => answers_channelDisable_line0 hc hd hs hl
  case last => exact fun _ _ hc hd hs hlo hhi hlast => answers_channelDisable_last hc hd hs hlo hhi hlast
  case handed =>
    exact fun _ _ _ _ hc hd hs hlo _ hm hne hone hq hreads => answers_channelDisable_handed hc hd hs hlo hm hne hone hq hreads
  case queueOn => exact fun _ _ hc hd hen hbase hlo hhi hw => answers_mqEnable hc hd hen hbase hlo hhi hw
  case queueOff => exact fun _ _ hc hd => answers_mqEnable_off hc hd
  case consumer => exact fun _ _ _ hc hd hen hzero hindex hprod hw => answers_mqCons hc hd hen hzero hindex hprod hw
  case refused => exact fun _ _ _ _ hc hd h => answers_mqCons_refused hc hd h

end Sys2Proof.Machine
end

section
/-! PROOFS. The Data Movers at work (spec/09_data_movers.md R267, R271, R274, R275, R279, R282, R284, R286 to R290): how a descriptor ends
and its record leaves, what a burst, a read that comes back and a read that fails make of a channel, the checks of a descriptor, and the
two statements about them. -/

namespace Sys2Proof.Machine

/-! ## What leaves the movers alone -/

theorem State.raise_dmv_of_low (s : State) (source detail : Byte) {level : Level} (h : level = .note ∨ level = .warn) :
    (s.raise source level detail).dmv = s.dmv := State.raise_low s source level detail h .dmv (by decide)

@[simp] theorem State.hostOut_dmv (s : State) (p : Bool) (o : Out) : (s.hostOut p o).dmv = s.dmv :=
  State.hostOut_only (M := [.hpus, .out]) (Only.refl _ s) rfl p o .dmv (by decide)

@[simp] theorem State.sendMsix_dmv (s : State) (p : Bool) (v : Nat) : (s.sendMsix p v).dmv = s.dmv :=
  State.sendMsix_only (M := [.hpus, .out]) (Only.refl _ s) rfl p v .dmv (by decide)

theorem State.regN_hostOut (s : State) (p : Bool) (o : Out) (k : Nat) : (s.hostOut p o).regN k = s.regN k := by
  have h : Only [.hpus, .out] s (s.hostOut p o) := State.hostOut_only (Only.refl _ s) rfl p o
  exact congrArg BitVec.toNat (State.reg_of_regs (h .regs (by decide)) (h .part (by decide)) k)

theorem State.sendMsix_suffix (s : State) (p : Bool) (v : Nat) : s.out <:+ (s.sendMsix p v).out := by
  unfold State.sendMsix
  split
  · exact List.suffix_rfl
  · split
    · exact List.suffix_rfl
    · rw [State.hostOut_out]
      exact List.suffix_cons ..

theorem State.chan_of_dmv {s t : State} (h : t.dmv = s.dmv) (n : Nat) : t.chan n = s.chan n := by
  unfold State.chan
  rw [h]

/-- No counter that the report of a fault advances is the CFG register of a channel. -/
theorem dmvChCfg_not_mem_reportCounters (n : Nat) : Reg.dmvChCfg n ∉ reportCounters := by
  simp only [reportCounters, Reg.dmvChCfg, Reg.chnFramesTx, Reg.pairFlitsTx, Reg.fltRxCoalesced, Reg.fltRxDropped, List.mem_cons,
    List.not_mem_nil, or_false]
  omega

theorem Reported.chanLine {s t : State} (h : Reported s t) (n : Nat) : t.chanLine n = s.chanLine n := by
  unfold State.chanLine State.regField
  rw [h.regN (dmvChCfg_not_mem_reportCounters n)]

/-! ## Records of completion queues (R287, R288) -/

/-- From c to d the movers changed in their channels and queues at most. -/
def Dmv.Recorded (c d : Dmv) : Prop := d = { c with chans := d.chans, mqs := d.mqs }

theorem Dmv.Recorded.trans {a b c : Dmv} (h : a.Recorded b) (k : b.Recorded c) : a.Recorded c := by
  unfold Dmv.Recorded at *
  rw [k, h]

/-- A record's place in its queue taken, x records then unsignalled. -/
def State.advanceMq (s : State) (q x : Nat) : State :=
  s.modMq q (fun m => { m with prod := posAdd (s.mqN q) m.prod 1, unsignalled := x })

/-- A record written leaves the controller, and takes its place in its queue. -/
theorem State.exists_writeMq (s : State) (q : Nat) (r : MqRecord) : ∃ x, (s.writeMq q r).dmv = (s.advanceMq q x).dmv ∧
    (.mqRecord q (s.mq q).prod r :: s.out) <:+ (s.writeMq q r).out := by
  have hplace (x : Nat) : ((s.hostOut (s.mqPort q) (.mqRecord q (s.mq q).prod r)).advanceMq q x).dmv = (s.advanceMq q x).dmv := by
    unfold State.advanceMq State.modMq State.mqN State.regField
    simp only [State.withDmv_dmv, State.hostOut_dmv, State.regN_hostOut]
  have hout (x : Nat) : ((s.hostOut (s.mqPort q) (.mqRecord q (s.mq q).prod r)).advanceMq q x).out =
      .mqRecord q (s.mq q).prod r :: s.out := State.hostOut_out ..
  unfold State.writeMq
  dsimp only
  split
  · exact ⟨_, (State.sendMsix_dmv ..).trans (hplace _), hout _ ▸ State.sendMsix_suffix ..⟩
  · exact ⟨_, hplace _, hout _ ▸ List.suffix_rfl⟩

theorem State.writeMq_recorded (s : State) (q : Nat) (r : MqRecord) : s.dmv.Recorded (s.writeMq q r).dmv := by
  obtain ⟨x, h, -⟩ := s.exists_writeMq q r
  rw [h]
  rfl

theorem State.chan_writeMq (s : State) (q : Nat) (r : MqRecord) (n : Nat) : (s.writeMq q r).chan n = s.chan n := by
  obtain ⟨x, h, -⟩ := s.exists_writeMq q r
  exact State.chan_of_dmv h n

theorem State.prod_writeMq (s : State) (q : Nat) (r : MqRecord) :
    ((s.writeMq q r).mq q).prod = posAdd (s.mqN q) (s.mq q).prod 1 := by
  obtain ⟨x, h, -⟩ := s.exists_writeMq q r
  have hmq : (s.writeMq q r).mq q = (s.advanceMq q x).mq q := by unfold State.mq; rw [h]
  rw [hmq, State.advanceMq, State.mq_modMq]

theorem State.mem_writeMq_out (s : State) (q : Nat) (r : MqRecord) : .mqRecord q (s.mq q).prod r ∈ (s.writeMq q r).out := by
  obtain ⟨x, -, h⟩ := s.exists_writeMq q r
  exact h.subset (.head _)

/-- From c to d at most the state of a channel, SW_REQ, DESC and its held record changed. -/
def Channel.Posted (c d : Channel) : Prop := d = { c with state := d.state, swReq := d.swReq, desc := d.desc, held := d.held }

theorem State.afterRecord_posted (s : State) (n : Nat) (status : Byte) (next : Word64) :
    (s.chan n).Posted ((s.afterRecord n status next).chan n) := by
  unfold State.afterRecord
  rw [State.chan_modChan]
  split
  · rfl
  · split <;> rfl

/-- The queue of a channel's records (R287). -/
def State.chanMq (s : State) (n : Nat) : Nat := s.regField (Reg.dmvChCfg n) 12 3

theorem State.postMq_of_room {s : State} {n : Nat} (hroom : s.mqRoom (s.chanMq n) = true) (hw : (s.mq (s.chanMq n)).waiting = [])
    (r : MqRecord) (next : Word64) : s.postMq n r next = (s.writeMq (s.chanMq n) r).afterRecord n r.status next := by
  refine if_pos ?_
  show (s.mqRoom (s.chanMq n) && (s.mq (s.chanMq n)).waiting.isEmpty) = true
  rw [hroom, hw]
  rfl

theorem State.postMq_posted (s : State) (n : Nat) (r : MqRecord) (next : Word64) : (s.chan n).Posted ((s.postMq n r next).chan n) := by
  unfold State.postMq
  dsimp only
  split
  · rw [← s.chan_writeMq _ r n]
    exact State.afterRecord_posted ..
  · have hheld (f : Mq → Mq) (u : State) (q : Nat) : (u.modMq q f).chan n = u.chan n := rfl
    rw [hheld, State.chan_modChan]
    rfl

theorem State.postMq_recorded (s : State) (n : Nat) (r : MqRecord) (next : Word64) : s.dmv.Recorded (s.postMq n r next).dmv := by
  unfold State.postMq
  dsimp only
  split
  · exact (s.writeMq_recorded ..).trans rfl
  · rfl

/-! ## The end of a descriptor (R279, R282, R287) -/

/-- A channel whose descriptor ended with an outcome. -/
def Channel.ended (c : Channel) (status detail : Byte) (bytes : Nat) : Channel :=
  { c with status := status, detail := detail, bytes := BitVec.ofNat 64 bytes, queue := [], flushWait := false,
           errors := if status = stBusError then (c.errors + 1) % 2 ^ 32 else c.errors }

/-- The state once a descriptor ended with an outcome, before its record is posted. -/
def State.withEndedChan (s : State) (n : Nat) (status detail : Byte) (bytes : Nat) : State :=
  (s.killReads n).modChan n (fun c => c.ended status detail bytes)

/-- The record of a descriptor of channel n (R287). -/
def moverRecord (n : Nat) (status detail : Byte) (bytes : Nat) (tag : Word64) : MqRecord :=
  { channel := BitVec.ofNat 8 n, status := status, detail := detail, bytes := BitVec.ofNat 32 bytes, tag := tag }

section Ends
variable (s : State) (n : Nat) (status detail : Byte) (bytes : Nat) (tag next : Word64)

theorem State.chan_withEndedChan : (s.withEndedChan n status detail bytes).chan n = (s.chan n).ended status detail bytes :=
  State.chan_modChan ..

variable {status} in
theorem State.endMover_of_ne (h : status ≠ stBusError) : s.endMover n status detail bytes tag next =
    (s.withEndedChan n status detail bytes).postMq n (moverRecord n status detail bytes tag) next := by
  unfold State.endMover
  dsimp only
  rw [if_neg h]
  rfl

theorem State.endMover_busError : s.endMover n stBusError detail bytes tag next =
    ((s.withEndedChan n stBusError detail bytes).raise 0x31 .note (BitVec.ofNat 8 n)).postMq n
      (moverRecord n stBusError detail bytes tag) next := rfl

/-- Whatever the outcome, the descriptor's end comes to its record posted in a state of the same movers. -/
theorem State.exists_endMover : ∃ u : State, u.dmv = (s.withEndedChan n status detail bytes).dmv ∧
    s.endMover n status detail bytes tag next = u.postMq n (moverRecord n status detail bytes tag) next := by
  by_cases h : status = stBusError
  · subst h
    exact ⟨_, State.raise_dmv .., s.endMover_busError ..⟩
  · exact ⟨_, rfl, s.endMover_of_ne n detail bytes tag next h⟩

theorem State.endMover_posted :
    ((s.chan n).ended status detail bytes).Posted ((s.endMover n status detail bytes tag next).chan n) := by
  obtain ⟨u, hdmv, hend⟩ := s.exists_endMover n status detail bytes tag next
  rw [hend, ← s.chan_withEndedChan, ← State.chan_of_dmv hdmv]
  exact u.postMq_posted ..

theorem State.endMover_recorded : (s.killReads n).dmv.Recorded (s.endMover n status detail bytes tag next).dmv := by
  obtain ⟨u, hdmv, hend⟩ := s.exists_endMover n status detail bytes tag next
  have hended : (s.killReads n).dmv.Recorded u.dmv := by rw [hdmv]; rfl
  rw [hend]
  exact hended.trans (u.postMq_recorded ..)

theorem State.src_postMq (r : MqRecord) (k : Byte) : (s.postMq n r next).src k = s.src k :=
  State.src_of_sources (State.postMq_only (M := [.dmv, .hpus, .out]) (Only.refl _ s) rfl n r next .sources (by decide)) k

/-- BUS_ERROR raises 0x31 with the number of the channel (R282). -/
theorem State.faulted_endMover : s.Faulted (s.endMover n stBusError detail bytes tag next) 0x31 (BitVec.ofNat 8 n) := by
  rw [State.endMover_busError]
  exact (State.Faulted.raise (t := s.withEndedChan n stBusError detail bytes) rfl .note _ (by decide) (by decide)
    (by decide)).of_src (State.src_postMq ..)

theorem State.src_endMover {k : Byte} (h : k ≠ 0x31) (h2 : k ≠ 0x02) (h3 : k ≠ 0x24) (h4 : k ≠ 0x25) :
    (s.endMover n status detail bytes tag next).src k = s.src k := by
  by_cases hs : status = stBusError
  · subst hs
    rw [State.endMover_busError, State.src_postMq, State.raise_other _ _ _ _ _ h h2 h3 h4]
    rfl
  · rw [State.endMover_of_ne _ _ _ _ _ _ hs, State.src_postMq]
    rfl

end Ends

/-- What a line 0 descriptor that ends with BUS_ERROR leaves in its channel. -/
theorem State.endMover_busError_chan (s : State) (n : Nat) (detail : Byte) (bytes : Nat) (tag next : Word64) :
    ((s.endMover n stBusError detail bytes tag next).chan n).status = stBusError ∧
    ((s.endMover n stBusError detail bytes tag next).chan n).detail = detail ∧
    ((s.endMover n stBusError detail bytes tag next).chan n).queue = [] ∧
    ((s.endMover n stBusError detail bytes tag next).chan n).errors = ((s.chan n).errors + 1) % 2 ^ 32 := by
  have h := s.endMover_posted n stBusError detail bytes tag next
  exact ⟨congrArg Channel.status h, congrArg Channel.detail h, congrArg Channel.queue h, congrArg Channel.errors h⟩

/-- The first descriptor of a line 0 channel ends with the bytes it moved. -/
theorem State.endTransfer_line0 {s : State} {n : Nat} {t : Transfer} {rest : List Transfer} (hq : (s.chan n).queue = t :: rest)
    (hl : s.chanLine n = 0) (status detail : Byte) :
    s.endTransfer n status detail = s.endMover n status detail t.moved t.tag t.next := by
  unfold State.endTransfer
  rw [hq]
  exact if_pos hl

/-! ## Reads that leave (R271, R282, R285) -/

/-- A read in flight under tag x. -/
def State.withRead (s : State) (r : HostRead) (x : Nat) : State :=
  s.withDmv { s.dmv with reads := s.dmv.reads ++ [{ r with tag := BitVec.ofNat 10 x }], tagCount := s.dmv.tagCount + 1 }

theorem State.chan_withRead (s : State) (r : HostRead) (x k : Nat) : (s.withRead r x).chan k = s.chan k := rfl

/-- With a tag free the read leaves under one of them. -/
theorem State.exists_issueRead {s : State} {r : HostRead} (h : s.freeTags r.port ≠ []) (addr len : Nat) :
    ∃ x ∈ s.freeTags r.port, s.issueRead r addr len =
      (s.withRead r x).hostOut r.port (.memRead r.port (BitVec.ofNat 10 x) addr len) := by
  unfold State.issueRead
  split
  · next e => exact absurd e h
  · next x l e =>
    refine ⟨_, ?_, rfl⟩
    have hlt : (Config.freeTag s.dmv.tagCount).toNat % (l.length + 1) < (x :: l).length := Nat.mod_lt _ l.length.succ_pos
    rw [e, List.getD_eq_getElem _ _ hlt]
    exact List.getElem_mem _

/-- From c to d a read was issued, in flight or waiting for a tag, and no channel changed. -/
structure Dmv.Issued (c d : Dmv) (r : HostRead) : Prop where
  chans : d.chans = c.chans
  issued : ∃ tag, { r with tag := tag } ∈ d.reads ++ d.retries

theorem State.issueRead_issued (s : State) (r : HostRead) (addr len : Nat) : s.dmv.Issued (s.issueRead r addr len).dmv r := by
  by_cases h : s.freeTags r.port = []
  · have hwait : s.issueRead r addr len = s.withDmv { s.dmv with retries := s.dmv.retries ++ [r] } := by
      unfold State.issueRead
      rw [h]
    rw [hwait]
    exact ⟨rfl, r.tag, by simp⟩
  · obtain ⟨x, -, hleft⟩ := State.exists_issueRead h addr len
    rw [hleft, State.hostOut_dmv]
    exact ⟨rfl, BitVec.ofNat 10 x, by simp [State.withRead]⟩

theorem State.issuePiece_of_range {s : State} {t : Transfer} {r : HostRead} {a k : Nat} (h : rangeAt t.srcs r.off = some (a, k))
    (n : Nat) : s.issuePiece n t r = s.issueRead r (widened (s.chanStrict n) a r.len).1 (widened (s.chanStrict n) a r.len).2 := by
  unfold State.issuePiece
  rw [h]

/-- Past the last source byte the read is one of zero length at the last destination (R290). -/
theorem State.issuePiece_of_none {s : State} {t : Transfer} {r : HostRead} (h : rangeAt t.srcs r.off = none) (n : Nat) :
    s.issuePiece n t r = s.issueRead r (((rangeAt t.dsts (t.bytes - 1)).map (fun x => x.1)).getD 0) 0 := by
  unfold State.issuePiece
  rw [h]

theorem State.issuePiece_issued (s : State) (n : Nat) (t : Transfer) (r : HostRead) : s.dmv.Issued (s.issuePiece n t r).dmv r := by
  unfold State.issuePiece
  split <;> exact s.issueRead_issued ..

theorem State.src_issuePiece (s : State) (n : Nat) (t : Transfer) (r : HostRead) (k : Byte) :
    (s.issuePiece n t r).src k = s.src k :=
  State.src_of_sources (State.issuePiece_only (M := [.dmv, .hpus, .out]) (Only.refl _ s) rfl n t r .sources (by decide)) k

theorem State.lt_of_mem_freeTags {s : State} {p : Bool} {x : Nat} (h : x ∈ s.freeTags p) : x < 2 ^ 10 := by
  have hpool := (List.mem_filter.1 h).1
  unfold State.tagPool at hpool
  split at hpool
  · obtain ⟨y, hy, rfl⟩ := List.mem_map.1 hpool
    have := List.mem_range.1 hy
    omega
  · have := List.mem_range.1 hpool
    omega

/-! ## Reads that come back (R282, R284) -/

theorem BusResult.eq_failure {e : BusResult} (h : ∀ b, e ≠ .ok b) : e = .unsupported ∨ e = .aborted ∨ e = .poisoned := by
  cases e with
  | ok b => exact absurd rfl (h b)
  | unsupported => exact .inl rfl
  | aborted => exact .inr (.inl rfl)
  | poisoned => exact .inr (.inr rfl)

theorem State.readOf_dropRead (s : State) (g : TagRef) : (s.dropRead g).readOf g = none := by
  refine List.find?_eq_none.2 fun r hr => ?_
  have hkept := (List.mem_filter.1 hr).2
  simpa [imp_iff_not_or] using hkept

section Returns
variable {s : State} {g : TagRef} {n : Nat} {r : HostRead} {t : Transfer} {rest : List Transfer}

/-- A read of channel n in flight under tag g, for the transfer in front of the channel. -/
structure State.Reading (s : State) (g : TagRef) (n : Nat) (r : HostRead) (t : Transfer) (rest : List Transfer) : Prop where
  found : s.readOf g = some r
  user : r.user = .chan n
  live : r.dead = false
  queue : (s.chan n).queue = t :: rest

section
variable (h : s.Reading g n r t rest)
include h

theorem State.Reading.exec_ok (hf : (s.chan n).flushWait = false) {a room : Nat} (hrange : rangeAt t.srcs r.off = some (a, room))
    (bytes : Bytes) : exec (.moverReadCompletion g (.ok bytes)) s = .next ((s.dropRead g).piece n r.off
      (sliceAt bytes (a - (widened (s.chanStrict n) a r.len).1) r.len)) := by
  show execMoverReadCompletion g (.ok bytes) s = _
  have hq : ((s.dropRead g).chan n).queue = t :: rest := h.queue
  have hf' : ((s.dropRead g).chan n).flushWait = false := hf
  simp only [execMoverReadCompletion, h.found, h.user, h.live, hf', hq, hrange, Bool.false_eq_true, or_self, if_false, Option.map_some,
    Option.getD_some]
  rfl

theorem State.Reading.exec_failed (hf : (s.chan n).flushWait = false) {e : BusResult} (he : ∀ b, e ≠ .ok b) :
    exec (.moverReadCompletion g e) s = .next ((s.dropRead g).readFailed n r (busDetail e)) := by
  show execMoverReadCompletion g e s = _
  have hf' : ((s.dropRead g).chan n).flushWait = false := hf
  rcases BusResult.eq_failure he with rfl | rfl | rfl <;>
    simp only [execMoverReadCompletion, h.found, h.user, h.live, hf', Bool.false_eq_true, or_self, if_false]

theorem State.Reading.exec_timeout :
    exec (.moverReadTimeout g) s = .next (((s.dropRead g).quarantineTag g.port g.tag true).readFailed n r 5) := by
  show execMoverReadTimeout g s = _
  simp only [execMoverReadTimeout, h.found, h.user]

end

/-- A live read that fails with no reissue left ends its transfer. -/
theorem State.readFailed_last (hd : r.dead = false) (hq : (s.chan n).queue = t :: rest) (hleft : r.left = 0) (detail : Byte) :
    s.readFailed n r detail = s.endTransfer n stBusError detail := by
  unfold State.readFailed
  rw [if_neg (by simp [hd]), hq]
  exact if_pos hleft

theorem State.readFailed_again (hd : r.dead = false) (hq : (s.chan n).queue = t :: rest) (hleft : 0 < r.left) (detail : Byte) :
    s.readFailed n r detail =
      ((s.count64 Reg.dmvRetries 1).raise 0x30 .note detail).issuePiece n t { r with left := r.left - 1 } := by
  unfold State.readFailed
  rw [if_neg (by simp [hd]), hq]
  exact if_neg (by omega)

/-- A piece that arrives for a transfer with a destination is kept at its offset. -/
theorem State.piece_of_dsts (hq : (s.chan n).queue = t :: rest) (hdst : t.dsts ≠ []) (off : Nat) (data : Bytes) :
    s.piece n off data = s.modChan n (fun c => { c with queue := { t with got := t.got ++ [(off, data)] } :: rest }) := by
  unfold State.piece
  rw [hq]
  exact if_neg (by simp [Transfer.gathered, hdst])

theorem answers_moverReadCompletion_ok (h : s.Reading g n r t rest) (hf : (s.chan n).flushWait = false) (hdst : t.dsts ≠ [])
    {a room : Nat} (hrange : rangeAt t.srcs r.off = some (a, room)) (bytes : Bytes) :
    Answers (.moverReadCompletion g (.ok bytes)) s (fun u => (u.chan n).queue = { t with got := t.got ++
        [(r.off, sliceAt bytes (a - (widened (s.chanStrict n) a r.len).1) r.len)] } :: rest ∧
      u.readOf g = none ∧ Only [.dmv] s u) := by
  have hdrop : Only [.dmv] s (s.dropRead g) := only_withDmv (Only.refl _ s) rfl
  refine ⟨_, h.exec_ok hf hrange bytes, ?_⟩
  rw [State.piece_of_dsts (s := s.dropRead g) h.queue hdst]
  exact ⟨congrArg Channel.queue (State.chan_modChan ..), s.readOf_dropRead g, State.modChan_only hdrop rfl _ _⟩

/-- A read that fails with reissues left is issued again, and the transfer stays (R282). -/
theorem answers_moverReadCompletion_again (h : s.Reading g n r t rest) (hf : (s.chan n).flushWait = false) {e : BusResult}
    (he : ∀ b, e ≠ .ok b) (hleft : 0 < r.left) :
    Answers (.moverReadCompletion g e) s (fun u => s.Faulted u 0x30 (busDetail e) ∧ (u.chan n).queue = t :: rest ∧
      ∃ q ∈ u.dmv.reads ++ u.dmv.retries, q.user = .chan n ∧ q.off = r.off ∧ q.len = r.len ∧ q.left = r.left - 1) := by
  let u := ((s.dropRead g).count64 Reg.dmvRetries 1).raise 0x30 .note (busDetail e)
  have hu : u.dmv = (s.dropRead g).dmv := State.raise_dmv ..
  obtain ⟨hchans, tag, hissued⟩ := u.issuePiece_issued n t { r with left := r.left - 1 }
  have hchan : ∀ k, (u.issuePiece n t { r with left := r.left - 1 }).chan k = s.chan k := fun k => by
    unfold State.chan
    rw [hchans, hu]
    rfl
  have hfault : s.Faulted u 0x30 (busDetail e) :=
    State.Faulted.raise (t := (s.dropRead g).count64 Reg.dmvRetries 1) rfl .note _ (by decide) (by decide) (by decide)
  have hexec := h.exec_failed hf he
  rw [State.readFailed_again (s := s.dropRead g) h.live h.queue hleft] at hexec
  exact ⟨_, hexec, hfault.of_src (State.src_issuePiece ..), (congrArg Channel.queue (hchan n)).trans h.queue, _, hissued, h.user, rfl,
    rfl, rfl⟩

/-- With no reissue left the descriptor ends (R282). -/
theorem answers_moverReadCompletion_last (h : s.Reading g n r t rest) (hf : (s.chan n).flushWait = false) {e : BusResult}
    (he : ∀ b, e ≠ .ok b) (hleft : r.left = 0) (hl : s.chanLine n = 0) :
    Answers (.moverReadCompletion g e) s (fun u => (u.chan n).status = stBusError ∧ (u.chan n).detail = busDetail e ∧
      (u.chan n).queue = [] ∧ (u.chan n).errors = ((s.chan n).errors + 1) % 2 ^ 32 ∧ s.Faulted u 0x31 (BitVec.ofNat 8 n)) := by
  have hexec := h.exec_failed hf he
  rw [State.readFailed_last (s := s.dropRead g) h.live h.queue hleft, State.endTransfer_line0 (s := s.dropRead g) h.queue hl] at hexec
  obtain ⟨hstatus, hdetail, hqueue, herrors⟩ := (s.dropRead g).endMover_busError_chan n (busDetail e) t.moved t.tag t.next
  exact ⟨_, hexec, hstatus, hdetail, hqueue, herrors, (s.dropRead g).faulted_endMover ..⟩

/-! ## Timeouts and tags in quarantine (R282, R284, R286) -/

theorem State.withDmv_reported (s : State) (d : Dmv) : Reported s (s.withDmv d) :=
  .of_only (M := [.dmv]) (only_withDmv (Only.refl _ s) rfl) (by decide)

theorem State.quarantineTag_reported (s : State) (p : Bool) (tag : BitVec 10) (reported : Bool) :
    Reported s (s.quarantineTag p tag reported) := by
  unfold State.quarantineTag
  dsimp only
  split
  · exact ((s.withDmv_reported _).trans (State.withDmv_reported _ _)).trans (State.raise_reported _ _ _ (.inl rfl))
  · exact s.withDmv_reported _

theorem State.src_quarantineTag (s : State) (p : Bool) (tag : BitVec 10) (reported : Bool) {k : Byte} (h : k ≠ 0x34) (h2 : k ≠ 0x02)
    (h3 : k ≠ 0x24) (h4 : k ≠ 0x25) : (s.quarantineTag p tag reported).src k = s.src k := by
  unfold State.quarantineTag
  dsimp only
  split
  · exact State.raise_other _ _ _ _ _ h h2 h3 h4
  · rfl

theorem answers_moverReadTimeout (h : s.Reading g n r t rest) (hleft : r.left = 0) (hl : s.chanLine n = 0) :
    Answers (.moverReadTimeout g) s (fun u => (g.port, g.tag, true) ∈ u.dmv.quarantine ∧ (u.chan n).status = stBusError ∧
      (u.chan n).detail = 5 ∧ s.Faulted u 0x31 (BitVec.ofNat 8 n)) := by
  let u := (s.dropRead g).quarantineTag g.port g.tag true
  obtain ⟨reported, hu⟩ := (s.dropRead g).quarantineTag_quarantined g.port g.tag true
  have hq : (u.chan n).queue = t :: rest := by
    refine (congrArg Channel.queue ?_).trans h.queue
    show Tab.get u.dmv.chans _ n = _
    rw [hu]
    rfl
  have hline : u.chanLine n = 0 := ((s.dropRead g).quarantineTag_reported ..).chanLine n |>.trans hl
  have hsrc : u.src 0x31 = s.src 0x31 := (s.dropRead g).src_quarantineTag _ _ _ (by decide) (by decide) (by decide) (by decide)
  have hexec := h.exec_timeout
  rw [State.readFailed_last (s := u) h.live hq hleft, State.endTransfer_line0 hq hline] at hexec
  obtain ⟨hstatus, hdetail, -⟩ := u.endMover_busError_chan n 5 t.moved t.tag t.next
  refine ⟨_, hexec, ?_, hstatus, hdetail, ?_⟩
  · have hkept := congrArg Dmv.quarantine (u.endMover_recorded n stBusError 5 t.moved t.tag t.next)
    rw [show (u.endMover n stBusError 5 t.moved t.tag t.next).dmv.quarantine = u.dmv.quarantine from hkept, hu]
    exact List.mem_append_right _ (.head _)
  · obtain ⟨hcount, hopen, hlast⟩ := u.faulted_endMover n 5 t.moved t.tag t.next
    exact ⟨by rw [hcount, hsrc], hopen, hlast⟩

end Returns

/-- Data that comes after its timeout was reported is counted, and reported by 0x33 (R284). -/
theorem answers_moverReadCompletion_late {s : State} {g : TagRef} (h : s.readOf g = none) (hq : (g.port, g.tag, true) ∈ s.dmv.quarantine)
    (result : BusResult) :
    Answers (.moverReadCompletion g result) s (fun u => s.Faulted u 0x33 (BitVec.ofNat 8 (ofBool g.port)) ∧
      u.regN Reg.dmvLateCpl = (s.regN Reg.dmvLateCpl + 1) % 2 ^ 32 ∧ u.dmv = s.dmv) := by
  have hexec : exec (.moverReadCompletion g result) s =
      .next ((s.count32 Reg.dmvLateCpl 1).raise 0x33 .note (BitVec.ofNat 8 (ofBool g.port))) := by
    show execMoverReadCompletion g result s = _
    unfold execMoverReadCompletion
    rw [h]
    exact if_pos (List.any_eq_true.2 ⟨_, hq, by simp⟩)
  have hreported := (s.count32 Reg.dmvLateCpl 1).raise_reported 0x33 (BitVec.ofNat 8 (ofBool g.port)) (level := .note) (.inl rfl)
  exact ⟨_, hexec, State.Faulted.raise (t := s.count32 Reg.dmvLateCpl 1) rfl .note _ (by decide) (by decide) (by decide),
    (hreported.regN (by decide)).trans (s.regN_count32 ..), State.raise_dmv ..⟩

theorem answers_tagQuarantineExpiry {s : State} {g : TagRef} {b : Bool} (h : (g.port, g.tag, b) ∈ s.dmv.quarantine) :
    Answers (.tagQuarantineExpiry g) s (fun u => (∀ c, (g.port, g.tag, c) ∉ u.dmv.quarantine) ∧
      (∀ p x c, (p, x) ≠ (g.port, g.tag) → ((p, x, c) ∈ u.dmv.quarantine ↔ (p, x, c) ∈ s.dmv.quarantine)) ∧ Only [.dmv] s u) := by
  have hexec : exec (.tagQuarantineExpiry g) s = .next (s.withDmv { s.dmv with
      quarantine := s.dmv.quarantine.filter (fun q => !(q.1 = g.port && q.2.1 = g.tag)),
      quarReported := s.dmv.quarReported.set (ofBool g.port) false }) :=
    if_pos (List.any_eq_true.2 ⟨_, h, by simp⟩)
  refine ⟨_, hexec, fun c hc => ?_, fun p x c hne => ?_, only_withDmv (Only.refl _ s) rfl⟩
  · have hother := (List.mem_filter.1 hc).2
    simp at hother
  · refine List.mem_filter.trans (and_iff_left ?_)
    simpa [imp_iff_not_or] using hne

/-! ## Grants (R267) -/

theorem mem_of_find?_orElse_head? {α : Type} {l : List α} {p : α → Bool} {x : α}
    (h : (l.find? p).orElse (fun _ => l.head?) = some x) : x ∈ l := by
  cases hp : l.find? p with
  | some y =>
    rw [hp] at h
    exact Option.some.inj h ▸ List.mem_of_find?_eq_some hp
  | none =>
    rw [hp] at h
    exact List.mem_of_mem_head? h

/-- An engine grants a channel that is ready for it. -/
theorem State.chanReady_of_granted {s : State} {write : Bool} {n : Nat} (h : s.granted write = some n) : s.chanReady write n = true := by
  unfold State.granted at h
  dsimp only at h
  split at h
  · exact nomatch h
  · exact (List.mem_filter.1 (List.mem_filter.1 (mem_of_find?_orElse_head? h)).1).2

/-- Channel n is granted for its transfer t, which has its I/O. -/
structure State.Granted (s : State) (write : Bool) (n : Nat) (t : Transfer) (rest : List Transfer) : Prop where
  turn : write = true ∨ s.dmv.retries = []
  granted : s.granted write = some n
  queue : (s.chan n).queue = t :: rest
  owned : s.orphan t = false

/-- The engine notes the channel it granted last (R267). -/
def State.lastGranted (s : State) (write : Bool) (n : Nat) : State :=
  s.withDmv (if write then { s.dmv with lastWrite := n } else { s.dmv with lastRead := n })

theorem State.chan_lastGranted (s : State) (write : Bool) (n k : Nat) : (s.lastGranted write n).chan k = s.chan k := by
  cases write <;> rfl

section Grants
variable {s : State} {write : Bool} {n : Nat} {t : Transfer} {rest : List Transfer} (h : s.Granted write n t rest)
include h

theorem State.Granted.exec_grant (words : WordCheck) : exec (.burstGrant write words) s = .next (s.grantTo write words n) := by
  show execBurstGrant write words s = _
  unfold execBurstGrant
  rw [h.granted]
  rcases h.turn with rfl | hretries
  · rfl
  · rw [hretries]
    cases write <;> rfl

/-- A read of the host is granted only while a tag of its port is free (R267). -/
theorem State.Granted.freeTags (hread : write = false) (hlive : (s.transferPort t).1 = false) (hsrc : t.srcPool = false)
    {x : Nat × Nat × Nat} (hnext : t.nextRead (s.chanBurst n) = some x) : s.freeTags t.port ≠ [] := by
  subst hread
  have hready := State.chanReady_of_granted h.granted
  unfold State.chanReady at hready
  dsimp only at hready
  rw [h.queue] at hready
  dsimp only at hready
  split at hready
  · exact nomatch hready
  · intro hnone
    simp [hnext, hlive, h.owned, hsrc, hnone] at hready

theorem State.Granted.grantTo_contained (hfrozen : (s.transferPort t).1 = true) (words : WordCheck) :
    s.grantTo write words n = (s.lastGranted write n).endTransfer n stContained 1 := by
  unfold State.grantTo
  rw [h.queue]
  exact (if_neg (Bool.eq_false_iff.1 h.owned)).trans (if_pos hfrozen)

variable (hlive : (s.transferPort t).1 = false)
include hlive

/-- The burst of a granted transfer whose port is not contained, and what its words showed (R289). -/
theorem State.Granted.grantTo_live (words : WordCheck) : s.grantTo write words n =
    match words, (s.lastGranted write n).readsBuffer write n t with
    | .corrected, true => (if write then (s.lastGranted write n).writeBurst n t rest
        else (s.lastGranted write n).readBurst n t rest).raise 0x32 .note 1
    | .bad, true => ((s.lastGranted write n).endTransfer n stBusError 4).raise 0x32 .warn 2
    | _, _ => if write then (s.lastGranted write n).writeBurst n t rest else (s.lastGranted write n).readBurst n t rest := by
  unfold State.grantTo
  rw [h.queue]
  exact (if_neg (Bool.eq_false_iff.1 h.owned)).trans (if_neg (Bool.eq_false_iff.1 hlive))

end Grants

theorem answers_burstGrant_contained {s : State} {write : Bool} {n : Nat} {t : Transfer} {rest : List Transfer}
    (h : s.Granted write n t rest) (hfrozen : (s.transferPort t).1 = true) (hl : s.chanLine n = 0) (words : WordCheck) :
    Answers (.burstGrant write words) s
      (fun u => (u.chan n).status = stContained ∧ (u.chan n).detail = 1 ∧ (u.chan n).queue = []) := by
  have hexec := h.exec_grant words
  rw [h.grantTo_contained hfrozen,
    State.endTransfer_line0 ((congrArg Channel.queue (s.chan_lastGranted ..)).trans h.queue) hl] at hexec
  have hend := (s.lastGranted write n).endMover_posted n stContained 1 t.moved t.tag t.next
  exact ⟨_, hexec, congrArg Channel.status hend, congrArg Channel.detail hend, congrArg Channel.queue hend⟩

/-! ## Read bursts (R267, R271) -/

/-- A run that does not cross a multiple of the unit is one piece. -/
theorem cutRun_of_le {unit addr off len : Nat} (hpos : 0 < len) (hle : len ≤ unit - addr % unit) (fuel : Nat) :
    cutRun unit addr off (fuel + 1) len = [(off, len)] := by
  obtain ⟨k, rfl⟩ : ∃ k, len = k + 1 := ⟨len - 1, by omega⟩
  show (if min (k + 1) (unit - addr % unit) = 0 then [] else _) = _
  rw [Nat.min_eq_left hle, if_neg k.succ_ne_zero, Nat.sub_self]
  cases fuel <;> rfl

theorem Transfer.nextRead_range {t : Transfer} {burst off a len : Nat} (h : t.nextRead burst = some (off, a, len)) :
    ∃ k, rangeAt t.srcs off = some (a, k) := by
  unfold Transfer.nextRead at h
  split at h
  · exact nomatch h
  · obtain ⟨⟨a', k⟩, hrange, hx⟩ := Option.map_eq_some_iff.1 h
    cases hx
    exact ⟨k, hrange⟩

/-- The read of a piece of channel n's transfer (R267, R282). -/
def State.pieceRead (s : State) (n : Nat) (t : Transfer) (off len : Nat) : HostRead :=
  { port := t.port, tag := 0, user := .chan n, off := off, len := len, left := s.regField (Reg.dmvChCfg n) 4 3, dead := false }

/-- The bytes of the next burst taken as asked for. -/
def State.asking (s : State) (n : Nat) (t : Transfer) (rest : List Transfer) (len : Nat) : State :=
  s.modChan n (fun c => { c with queue := { t with asked := t.asked + len } :: rest })

theorem State.queue_asking (s : State) (n : Nat) (t : Transfer) (rest : List Transfer) (len : Nat) :
    ((s.asking n t rest len).chan n).queue = { t with asked := t.asked + len } :: rest := congrArg Channel.queue (s.chan_modChan n _)

/-- A burst that the port asks for whole is one read. -/
theorem State.readBurst_one {s : State} {n off a len : Nat} {t : Transfer} {rest : List Transfer} (hsrc : t.srcPool = false)
    (hnext : t.nextRead (s.chanBurst n) = some (off, a, len)) (hpos : 0 < len)
    (hle : len ≤ (s.hpu t.port).cfg.mrrs - a % (s.hpu t.port).cfg.mrrs) :
    s.readBurst n t rest = (s.asking n t rest len).issueRead (s.pieceRead n t off len) (widened (s.chanStrict n) a len).1
      (widened (s.chanStrict n) a len).2 := by
  obtain ⟨k, hrange⟩ := Transfer.nextRead_range hnext
  have hpiece := State.issuePiece_of_range (s := s.asking n t rest len) (t := { t with asked := t.asked + len })
    (r := s.pieceRead n t off len) hrange n
  unfold State.readBurst
  rw [hnext]
  dsimp only
  rw [if_neg (by simp [hsrc]), show (State.hpu (s.modChan n _) t.port) = s.hpu t.port from rfl, cutRun_of_le hpos hle 63]
  exact hpiece

theorem answers_burstGrant_read {s : State} {n off a len : Nat} {t : Transfer} {rest : List Transfer} (h : s.Granted false n t rest)
    (hlive : (s.transferPort t).1 = false) (hsrc : t.srcPool = false) (hnext : t.nextRead (s.chanBurst n) = some (off, a, len))
    (hpos : 0 < len) (hle : len ≤ (s.hpu t.port).cfg.mrrs - a % (s.hpu t.port).cfg.mrrs) (words : WordCheck) :
    Answers (.burstGrant false words) s (fun u => u.dmv.lastRead = n ∧ (u.chan n).queue = { t with asked := t.asked + len } :: rest ∧
      ∃ r ∈ u.dmv.reads, r.port = t.port ∧ r.tag.toNat ∈ s.freeTags t.port ∧ r.user = .chan n ∧ r.off = off ∧ r.len = len ∧
        r.left = s.regField (Reg.dmvChCfg n) 4 3 ∧ r.dead = false ∧
        Out.memRead t.port r.tag (widened (s.chanStrict n) a len).1 (widened (s.chanStrict n) a len).2 ∈ u.out) := by
  let v := s.lastGranted false n
  let r := s.pieceRead n t off len
  have hfree : (v.asking n t rest len).freeTags r.port ≠ [] := h.freeTags rfl hlive hsrc hnext
  obtain ⟨x, hx, hissue⟩ := State.exists_issueRead hfree (widened (s.chanStrict n) a len).1 (widened (s.chanStrict n) a len).2
  have hburst : v.readBurst n t rest = _ := (State.readBurst_one (s := v) hsrc hnext hpos hle).trans hissue
  have hgood : v.readsBuffer false n t = false := by simp [State.readsBuffer, hsrc]
  have hexec : exec (.burstGrant false words) s = .next (v.readBurst n t rest) := by
    rw [h.exec_grant words, h.grantTo_live hlive, hgood]
    cases words <;> rfl
  have hdmv : (v.readBurst n t rest).dmv = ((v.asking n t rest len).withRead r x).dmv := by rw [hburst, State.hostOut_dmv]
  refine ⟨_, hexec, congrArg Dmv.lastRead hdmv, ?queue, { r with tag := BitVec.ofNat 10 x }, ?mem, rfl, ?tag, rfl, rfl, rfl, rfl, rfl,
    ?out⟩
  case queue =>
    rw [State.chan_of_dmv hdmv n]
    exact v.queue_asking n t rest len
  case mem =>
    rw [hdmv]
    exact List.mem_append_right _ (.head _)
  case tag =>
    rw [BitVec.toNat_ofNat, Nat.mod_eq_of_lt (State.lt_of_mem_freeTags hx)]
    exact hx
  case out =>
    rw [hburst, State.hostOut_out]
    exact .head _

/-! ## Write bursts (R267, R289) -/

/-- Bytes of the transfer in front counted as moved. -/
def State.moving (s : State) (n : Nat) (t : Transfer) (rest : List Transfer) (len : Nat) : State :=
  s.modChan n (fun c => { c with queue := { t with moved := t.moved + len } :: rest, bytes := BitVec.ofNat 64 (t.moved + len) })

theorem State.queue_moving (s : State) (n : Nat) (t : Transfer) (rest : List Transfer) (len : Nat) :
    ((s.moving n t rest len).chan n).queue = { t with moved := t.moved + len } :: rest := congrArg Channel.queue (s.chan_modChan n _)

section WriteBurst
variable {s : State} {n a : Nat} {data : Bytes} {t : Transfer} {rest : List Transfer}
  (hnext : t.nextWrite (s.chanBurst n) = .write a data)
include hnext

theorem State.writeBurst_pool (hdst : t.dstPool = true) : s.writeBurst n t rest =
    (s.moving n t rest data.length).withPwin { s.pwin with pool := Memory.writeBytes s.pwin.pool a data } := by
  unfold State.writeBurst
  rw [hnext]
  exact if_pos hdst

theorem State.writeBurst_host (hdst : t.dstPool = false) (hpos : 0 < data.length)
    (hle : data.length ≤ (s.hpu t.port).cfg.mps - a % (s.hpu t.port).cfg.mps) : s.writeBurst n t rest =
    (s.moving n t rest data.length).hostOut t.port (.hostWrite t.port (BitVec.ofNat 64 a) (sliceAt data 0 data.length)) := by
  unfold State.writeBurst
  rw [hnext]
  dsimp only
  rw [if_neg (by simp [hdst]), show (State.hpu (s.modChan n _) t.port) = s.hpu t.port from rfl, cutRun_of_le hpos hle 63]
  rfl

/-- Wherever it goes, a write burst changes the movers only by the bytes moved. -/
theorem State.writeBurst_frame : Only [.hpus, .pwin, .pool, .out] (s.moving n t rest data.length) (s.writeBurst n t rest) := by
  unfold State.writeBurst
  rw [hnext]
  dsimp only
  exact only_ite (fun _ => only_withPwin (Only.refl _ _) rfl (.inl rfl)) fun _ =>
    only_foldl (Only.refl _ _) fun _ _ h => State.hostOut_only h rfl _ _

theorem State.readsBuffer_write : (s.lastGranted true n).readsBuffer true n t = true := by
  unfold State.readsBuffer
  rw [show (s.lastGranted true n).chanBurst n = s.chanBurst n from rfl, hnext]
  rfl

end WriteBurst

section Writes
variable {s : State} {n a : Nat} {data : Bytes} {t : Transfer} {rest : List Transfer} (h : s.Granted true n t rest)
  (hlive : (s.transferPort t).1 = false)
include h hlive

theorem State.Granted.exec_write_good : exec (.burstGrant true .good) s = .next ((s.lastGranted true n).writeBurst n t rest) := by
  rw [h.exec_grant, h.grantTo_live hlive]
  rfl

/-- A write that the host takes whole leaves as one request. -/
theorem answers_burstGrant_host (hdst : t.dstPool = false) (hnext : t.nextWrite (s.chanBurst n) = .write a data) (hpos : 0 < data.length)
    (hle : data.length ≤ (s.hpu t.port).cfg.mps - a % (s.hpu t.port).cfg.mps) :
    Answers (.burstGrant true .good) s (fun u => u.dmv.lastWrite = n ∧
      (u.chan n).queue = { t with moved := t.moved + data.length } :: rest ∧
      Out.hostWrite t.port (BitVec.ofNat 64 a) (sliceAt data 0 data.length) ∈ u.out ∧ u.pwin = s.pwin) := by
  let v := s.lastGranted true n
  have hburst := State.writeBurst_host (s := v) (rest := rest) hnext hdst hpos hle
  have hframe := State.writeBurst_frame (s := v) (rest := rest) hnext
  have hdmv : (v.writeBurst n t rest).dmv = (v.moving n t rest data.length).dmv := hframe .dmv (by decide)
  refine ⟨_, h.exec_write_good hlive, congrArg Dmv.lastWrite hdmv, ?queue, ?out, ?pool⟩
  case queue =>
    rw [State.chan_of_dmv hdmv n]
    exact v.queue_moving n t rest data.length
  case out =>
    rw [hburst, State.hostOut_out]
    exact .head _
  case pool =>
    have hout : Only [.hpus, .out] (v.moving n t rest data.length) (v.writeBurst n t rest) :=
      hburst ▸ State.hostOut_only (Only.refl _ _) rfl _ _
    exact hout .pwin (by decide)

/-- A write to the pool changes the bytes that it names and no other. -/
theorem answers_burstGrant_pool (hdst : t.dstPool = true) (hnext : t.nextWrite (s.chanBurst n) = .write a data) :
    Answers (.burstGrant true .good) s (fun u => (u.chan n).queue = { t with moved := t.moved + data.length } :: rest ∧
      (∀ i, i < data.length → Memory.read u.pwin.pool (a + i) = data.getD i 0) ∧
      (∀ b, (b < a ∨ a + data.length ≤ b) → Memory.read u.pwin.pool b = Memory.read s.pwin.pool b) ∧ u.out = s.out) := by
  have hexec := h.exec_write_good hlive
  rw [State.writeBurst_pool (s := s.lastGranted true n) hnext hdst] at hexec
  refine ⟨_, hexec, (s.lastGranted true n).queue_moving n t rest data.length, fun i hi => ?_, fun b hb => ?_, rfl⟩
  · refine (Memory.read_writeBytes ..).trans ?_
    rw [if_pos (by omega), Nat.add_sub_cancel_left]
  · exact (Memory.read_writeBytes ..).trans (if_neg (by omega))

variable (hnext : t.nextWrite (s.chanBurst n) = .write a data)
include hnext

/-- Words that had to be corrected are reported, and the burst goes on (R289). -/
theorem answers_burstGrant_corrected :
    Answers (.burstGrant true .corrected) s (fun u => (u.chan n).queue = { t with moved := t.moved + data.length } :: rest ∧
      s.Faulted u 0x32 1) := by
  let v := s.lastGranted true n
  have hframe := State.writeBurst_frame (s := v) (rest := rest) hnext
  have hdmv : ((v.writeBurst n t rest).raise 0x32 .note 1).dmv = (v.moving n t rest data.length).dmv :=
    (State.raise_dmv ..).trans (hframe .dmv (by decide))
  have hexec : exec (.burstGrant true .corrected) s = .next ((v.writeBurst n t rest).raise 0x32 .note 1) := by
    rw [h.exec_grant, h.grantTo_live hlive, State.readsBuffer_write hnext]
    rfl
  refine ⟨_, hexec, ?_, .raise (State.src_of_sources (hframe .sources (by decide)) 0x32) _ _ (by decide) (by decide) (by decide)⟩
  rw [State.chan_of_dmv hdmv n]
  exact v.queue_moving n t rest data.length

/-- A word that cannot be corrected ends the transfer (R289). -/
theorem answers_burstGrant_bad (hl : s.chanLine n = 0) :
    Answers (.burstGrant true .bad) s (fun u => (u.chan n).status = stBusError ∧ (u.chan n).detail = 4 ∧ (u.chan n).queue = [] ∧
      s.Faulted u 0x32 2) := by
  let v := s.lastGranted true n
  let w := v.endMover n stBusError 4 t.moved t.tag t.next
  have hq : (v.chan n).queue = t :: rest := (congrArg Channel.queue (s.chan_lastGranted ..)).trans h.queue
  have hexec : exec (.burstGrant true .bad) s = .next (w.raise 0x32 .warn 2) := by
    rw [h.exec_grant, h.grantTo_live hlive, State.readsBuffer_write hnext]
    show Host.Outcome.next ((v.endTransfer n stBusError 4).raise 0x32 .warn 2) = _
    rw [State.endTransfer_line0 hq hl]
  have hchan : (w.raise 0x32 .warn 2).chan n = w.chan n := State.chan_of_dmv (w.raise_dmv_of_low _ _ (.inr rfl)) n
  obtain ⟨hstatus, hdetail, hqueue, -⟩ := v.endMover_busError_chan n 4 t.moved t.tag t.next
  refine ⟨_, hexec, ?_, ?_, ?_, .raise ?_ _ _ (by decide) (by decide) (by decide)⟩
  · rw [hchan, hstatus]
  · rw [hchan, hdetail]
  · rw [hchan, hqueue]
  · exact v.src_endMover n stBusError 4 _ _ _ (by decide) (by decide) (by decide) (by decide)

end Writes

/-- Settles O54: each burst and each read that comes back has, for each way it can go, its lemma above. -/
theorem moversMoveData : Obligations.MoversMoveData := by
  unfold Obligations.MoversMoveData
  refine ⟨?read, ?host, ?pool, ?contained, ?arrived, ?again, ?last, ?timeout, ?late, ?expiry, ?corrected, ?bad⟩
  case read =>
    exact fun _ _ _ _ words _ _ _ hr hg hq ho hlive hsrc hnext hpos hle =>
      answers_burstGrant_read ⟨.inr hr, hg, hq, ho⟩ hlive hsrc hnext hpos hle words
  case host =>
    exact fun _ _ _ _ _ _ hg hq ho hlive hdst hnext hpos hle =>
      answers_burstGrant_host ⟨.inl rfl, hg, hq, ho⟩ hlive hdst hnext hpos hle
  case pool => exact fun _ _ _ _ _ _ hg hq ho hlive hdst hnext => answers_burstGrant_pool ⟨.inl rfl, hg, hq, ho⟩ hlive hdst hnext
  case contained => exact fun _ words _ _ _ _ ht hg hq ho hfrozen hl => answers_burstGrant_contained ⟨ht, hg, hq, ho⟩ hfrozen hl words
  case arrived =>
    exact fun _ _ bytes _ _ _ _ _ _ hr hu hd hf hq hdst hrange => answers_moverReadCompletion_ok ⟨hr, hu, hd, hq⟩ hf hdst hrange bytes
  case again => exact fun _ _ _ _ _ _ _ he hr hu hd hf hq hleft => answers_moverReadCompletion_again ⟨hr, hu, hd, hq⟩ hf he hleft
  case last => exact fun _ _ _ _ _ _ _ he hr hu hd hf hq hleft hl => answers_moverReadCompletion_last ⟨hr, hu, hd, hq⟩ hf he hleft hl
  case timeout => exact fun _ _ _ _ _ _ hr hu hd hq hleft hl => answers_moverReadTimeout ⟨hr, hu, hd, hq⟩ hleft hl
  case late => exact fun _ result _ hr hq => answers_moverReadCompletion_late hr hq result
  case expiry => exact fun _ _ _ hq => answers_tagQuarantineExpiry hq
  case corrected => exact fun _ _ _ _ _ _ hg hq ho hlive hnext => answers_burstGrant_corrected ⟨.inl rfl, hg, hq, ho⟩ hlive hnext
  case bad => exact fun _ _ _ _ _ _ hg hq ho hlive hl hnext => answers_burstGrant_bad ⟨.inl rfl, hg, hq, ho⟩ hlive hnext hl

/-! ## Zero fields of a descriptor -/

theorem leAt_succ (d : Bytes) (off n : Nat) : leAt d off (n + 1) = (byteAt d off).toNat + 256 * leAt d (off + 1) n := by
  unfold leAt byteAt
  by_cases h : off < d.length
  · rw [List.drop_eq_getElem_cons h, List.getD_eq_getElem _ _ h]
    rfl
  · rw [List.drop_eq_nil_of_le (by omega), List.drop_eq_nil_of_le (by omega), List.getD_eq_default _ _ (by omega)]
    simp [leNat]

/-- A field is zero when all its bytes are. -/
theorem leAt_eq_zero_iff {d : Bytes} {off n : Nat} : leAt d off n = 0 ↔ ∀ i < n, byteAt d (off + i) = 0 := by
  induction n generalizing off with
  | zero => simp [leAt, leNat]
  | succ n ih =>
    have hfirst : (byteAt d off).toNat = 0 ↔ byteAt d off = 0 := by rw [← BitVec.toNat_inj]; rfl
    rw [leAt_succ, Nat.forall_lt_succ_left, Nat.add_eq_zero_iff, Nat.mul_eq_zero, or_iff_right (by decide), ih, hfirst]
    exact and_congr_right' (forall₂_congr fun i _ => by rw [Nat.add_assoc, Nat.add_comm 1])

/-- A field inside a run of zero bytes is zero. -/
theorem leAt_eq_zero_of_run {d : Bytes} {off n : Nat} (h : leAt d off n = 0) (k : Nat) {m : Nat} (hm : k + m ≤ n) :
    leAt d (off + k) m = 0 :=
  leAt_eq_zero_iff.2 fun i hi => Nat.add_assoc off k i ▸ leAt_eq_zero_iff.1 h (k + i) (by omega)

/-! ## Descriptors and their checks (R274, R275, R276) -/

/-- Channel n reads the descriptor that DESC names (R279): it runs, with no transfer and no record of its own, and its host port is
neither in D3hot nor contained. -/
structure State.Fetching (s : State) (n : Nat) : Prop where
  running : (s.chan n).state = .running
  line : s.chanLine n = 0
  free : (s.chan n).queue = []
  posted : (s.chan n).held = none
  opened : s.haltClosed = false
  awake : (s.hpu (s.regBit (Reg.dmvChCfg n) 10)).d3hot = false
  live : (s.hpu (s.regBit (Reg.dmvChCfg n) 10)).contained = false

/-- The source that a descriptor names. -/
def copySrc (d : Bytes) (list : SglFetch) : MoverSide :=
  { space := (byteAt d 2).toNat, win := (byteAt d 4).toNat, addr := leAt d 0x10 8, entries := leAt d 0x20 4,
    sgl := bitOf (byteAt d 1).toNat 0, list := list, align := 1 }

/-- The destination that a descriptor names. -/
def copyDst (d : Bytes) (list : SglFetch) : MoverSide :=
  { space := (byteAt d 3).toNat, win := (byteAt d 5).toNat, addr := leAt d 0x18 8, entries := leAt d 0x24 4,
    sgl := bitOf (byteAt d 1).toNat 1, list := list, align := 2 }

/-- Whether a field marked zero is not, or the count of bytes is out of its range (R274). -/
def copyZeroBad (d : Bytes) (src dst : MoverSide) : Bool :=
  decide (8 ≤ (byteAt d 1).toNat) || decide (leAt d 6 2 ≠ 0) || decide (leAt d 0x2C 4 ≠ 0) || decide (leAt d 0x38 8 ≠ 0) ||
    src.zeroBad || dst.zeroBad || decide (leAt d 0x28 4 = 0) || decide (2 ^ 28 < leAt d 0x28 4)

/-- The checks of a descriptor after that of its opcode, in the order listed by R275. -/
def State.copyChecks (s : State) (n : Nat) (d : Bytes) (src dst : MoverSide) : List (Option (Byte × Byte)) :=
  [failIf (copyZeroBad d src dst) stBadField 1,
    failIf (src.listBad (leAt d 0x28 4) || dst.listBad (leAt d 0x28 4)) stBadField 3] ++
    s.sideWindow src (leAt d 0x28 4) ++ s.sideWindow dst (leAt d 0x28 4) ++
    [s.sideAlign n src (leAt d 0x28 4), s.sideAlign n dst (leAt d 0x28 4),
      failIf (decide (src.space = dst.space) && extentsMeet (extentOf (s.sideRanges src (leAt d 0x28 4)))
        (extentOf (s.sideRanges dst (leAt d 0x28 4)))) stOverlap 1]

/-- Why a descriptor that was read moves nothing, if so. -/
def State.copyFault (s : State) (n : Nat) (d : Bytes) (src dst : MoverSide) : Option (Byte × Byte) :=
  (reported (failIf (decide (byteAt d 0 ≠ 1)) stBadOpcode 1 :: s.copyChecks n d src dst)).orElse
    (fun _ => src.unreadable.orElse (fun _ => dst.unreadable))

/-- The transfer of a descriptor that passed its checks. -/
def State.copyTransfer (s : State) (n : Nat) (d : Bytes) (src dst : MoverSide) : Transfer :=
  { Transfer.blank with
    port := s.regBit (Reg.dmvChCfg n) 10, bytes := leAt d 0x28 4, srcs := s.sideRanges src (leAt d 0x28 4),
    srcPool := decide (src.space = 1), dsts := s.sideRanges dst (leAt d 0x28 4), dstPool := decide (dst.space = 1),
    tag := BitVec.ofNat 64 (leAt d 8 8), next := BitVec.ofNat 64 (leAt d 0x30 8), flush := bitOf (byteAt d 1).toNat 2,
    held := (if src.space = 1 then [s.winRange src.win] else []) ++ (if dst.space = 1 then [s.winRange dst.win] else []) }

section Copy
variable {s : State} {ch : BitVec 6} (h : s.Fetching ch.toNat)
include h

/-- What stops a descriptor from being read does not hold. -/
theorem State.Fetching.not_stopped : ¬ ((s.chan ch.toNat).state ≠ .running ∨ s.chanLine ch.toNat ≠ 0 ∨
    !(s.chan ch.toNat).queue.isEmpty ∨ (s.chan ch.toNat).held.isSome ∨ (s.hpu (s.regBit (Reg.dmvChCfg ch.toNat) 10)).d3hot ∨
    s.haltClosed) := by
  simp [h.running, h.line, h.free, h.posted, h.awake, h.opened]

theorem exec_copy_of_fault {d : Bytes} {a b : SglFetch} {f : Byte × Byte}
    (hf : s.copyFault ch.toNat d (copySrc d a) (copyDst d b) = some f) :
    exec (.copy ch (.ok d) a b) s = .next (s.endMover ch.toNat f.1 f.2 0 (BitVec.ofNat 64 (leAt d 8 8)) 0) := by
  refine (if_neg h.not_stopped).trans ((if_neg (Bool.eq_false_iff.1 h.live)).trans ?_)
  show (match s.copyFault ch.toNat d (copySrc d a) (copyDst d b) with
    | some (st, det) => _
    | none => _) = _
  rw [hf]

theorem exec_copy_of_none {d : Bytes} {a b : SglFetch} (hf : s.copyFault ch.toNat d (copySrc d a) (copyDst d b) = none) :
    exec (.copy ch (.ok d) a b) s = .next (s.modChan ch.toNat (fun c =>
      { c with bytes := 0, queue := [s.copyTransfer ch.toNat d (copySrc d a) (copyDst d b)] })) := by
  refine (if_neg h.not_stopped).trans ((if_neg (Bool.eq_false_iff.1 h.live)).trans ?_)
  show (match s.copyFault ch.toNat d (copySrc d a) (copyDst d b) with
    | some (st, det) => _
    | none => _) = _
  rw [hf]
  rfl

theorem exec_copy_unread {e : BusResult} (he : ∀ d, e ≠ .ok d) (a b : SglFetch) :
    exec (.copy ch e a b) s = .next (s.endMover ch.toNat stBusError 6 0 0 0) := by
  refine (if_neg h.not_stopped).trans ((if_neg (Bool.eq_false_iff.1 h.live)).trans ?_)
  rcases BusResult.eq_failure he with rfl | rfl | rfl <;> rfl

end Copy

/-! ### Opcodes -/

/-- No failure ranks before BAD_OPCODE (R12). -/
theorem one_le_statusRank (c : Byte) : 1 ≤ statusRank c := by
  unfold statusRank
  repeat' split
  all_goals decide

/-- A failed check of rank 1 that comes first is the one reported. -/
theorem reported_cons_of_rank {f : Byte × Byte} (h : statusRank f.1 = 1) (l : List (Option (Byte × Byte))) :
    reported (some f :: l) = some f := by
  have hkeep (c : Byte × Byte) : firstFailure f c = f := if_neg (by have := one_le_statusRank c.1; omega)
  have hfold (cs : List (Byte × Byte)) : cs.foldl (fun acc c => match acc with
      | none => some c
      | some a => some (firstFailure a c)) (some f) = some f := by
    induction cs with
    | nil => rfl
    | cons c cs ih => simpa only [List.foldl_cons, hkeep] using ih
  exact hfold _

theorem answers_copy_badOpcode {s : State} {ch : BitVec 6} (h : s.Fetching ch.toNat) {d : Bytes} (hop : byteAt d 0 ≠ 1)
    (a b : SglFetch) :
    Answers (.copy ch (.ok d) a b) s (fun t => (t.chan ch.toNat).status = stBadOpcode ∧ (t.chan ch.toNat).detail = 1 ∧
      (t.chan ch.toNat).queue = [] ∧ (t.chan ch.toNat).bytes = 0) := by
  have hfault : s.copyFault ch.toNat d (copySrc d a) (copyDst d b) = some (stBadOpcode, 1) := by
    unfold State.copyFault
    rw [show failIf (decide (byteAt d 0 ≠ 1)) stBadOpcode 1 = some (stBadOpcode, 1) from if_pos (decide_eq_true hop),
      reported_cons_of_rank rfl]
    rfl
  have hend := s.endMover_posted ch.toNat stBadOpcode 1 0 (BitVec.ofNat 64 (leAt d 8 8)) 0
  exact ⟨_, exec_copy_of_fault h hfault, congrArg Channel.status hend, congrArg Channel.detail hend, congrArg Channel.queue hend,
    congrArg Channel.bytes hend⟩

theorem answers_copy_unread {s : State} {ch : BitVec 6} (h : s.Fetching ch.toNat) {e : BusResult} (he : ∀ d, e ≠ .ok d)
    (a b : SglFetch) :
    Answers (.copy ch e a b) s (fun t => (t.chan ch.toNat).status = stBusError ∧ (t.chan ch.toNat).detail = 6 ∧
      s.Faulted t 0x31 (ch.setWidth 8)) := by
  obtain ⟨hstatus, hdetail, -⟩ := s.endMover_busError_chan ch.toNat 6 0 0 0
  have hfault := s.faulted_endMover ch.toNat 6 0 0 0
  rw [BitVec.ofNat_toNat] at hfault
  exact ⟨_, exec_copy_unread h he a b, hstatus, hdetail, hfault⟩

/-! ### Copies between ranges of the host -/

/-- A side that is one range of the host. -/
def hostSide (addr align : Nat) : MoverSide :=
  { space := 0, win := 0, addr := addr, entries := 0, sgl := false, list := .notNeeded, align := align }

/-- A descriptor that copies one range of the host to another, its fields marked zero being zero. -/
structure HostCopy (d : Bytes) : Prop where
  opcode : byteAt d 0 = 1
  flags : byteAt d 1 = 0
  spaces : leAt d 2 4 = 0
  zero06 : leAt d 6 2 = 0
  entries : leAt d 0x20 8 = 0
  zero2C : leAt d 0x2C 4 = 0
  zero38 : leAt d 0x38 8 = 0
  pos : 0 < leAt d 0x28 4
  bounded : leAt d 0x28 4 ≤ 2 ^ 28

namespace HostCopy
variable {d : Bytes} (h : HostCopy d)
include h

theorem side (i : Nat) (hi : i < 4) : (byteAt d (2 + i)).toNat = 0 := by
  rw [leAt_eq_zero_iff.1 h.spaces i hi]
  rfl

theorem src : copySrc d .notNeeded = hostSide (leAt d 0x10 8) 1 := by
  unfold copySrc
  rw [h.side 0 (by decide), h.side 2 (by decide), h.flags, leAt_eq_zero_of_run h.entries 0 (by decide)]
  rfl

theorem dst : copyDst d .notNeeded = hostSide (leAt d 0x18 8) 2 := by
  unfold copyDst
  rw [h.side 1 (by decide), h.side 3 (by decide), h.flags, leAt_eq_zero_of_run h.entries 4 (by decide)]
  rfl

/-- Of its checks only that of the operands can fail. -/
theorem copyFault {s : State} {n : Nat} (hstrict : s.chanStrict n = false) :
    s.copyFault n d (copySrc d .notNeeded) (copyDst d .notNeeded) =
      failIf (decide (leAt d 0x10 8 < leAt d 0x18 8 + leAt d 0x28 4) && decide (leAt d 0x18 8 < leAt d 0x10 8 + leAt d 0x28 4))
        stOverlap 1 := by
  have hpos := h.pos
  have hbounded := h.bounded
  have hzero : copyZeroBad d (hostSide (leAt d 0x10 8) 1) (hostSide (leAt d 0x18 8) 2) = false := by
    simp [copyZeroBad, MoverSide.zeroBad, hostSide, h.flags, h.zero06, h.zero2C, h.zero38]
    omega
  have halign (addr align : Nat) : s.sideAlign n (hostSide addr align) (leAt d 0x28 4) = none := by
    simp [State.sideAlign, hostSide, hstrict, failIf]
  have hlast (x : Option (Byte × Byte)) : (reported [none, none, none, none, none, x]).orElse (fun _ => none) = x := by
    cases x <;> rfl
  have hop : failIf (decide (byteAt d 0 ≠ 1)) stBadOpcode 1 = none := by simp [h.opcode, failIf]
  unfold State.copyFault State.copyChecks
  rw [h.src, h.dst, hzero, halign, halign, hop]
  exact hlast _

end HostCopy

theorem answers_copy {s : State} {ch : BitVec 6} (h : s.Fetching ch.toNat) (hstrict : s.chanStrict ch.toNat = false) {d : Bytes}
    (hd : HostCopy d) (hapart : leAt d 0x10 8 + leAt d 0x28 4 ≤ leAt d 0x18 8) :
    Answers (.copy ch (.ok d) .notNeeded .notNeeded) s (fun t =>
      (t.chan ch.toNat).queue = [{ Transfer.blank with
        port := s.regBit (Reg.dmvChCfg ch.toNat) 10, bytes := leAt d 0x28 4, srcs := [(leAt d 0x10 8, leAt d 0x28 4)],
        dsts := [(leAt d 0x18 8, leAt d 0x28 4)], tag := BitVec.ofNat 64 (leAt d 8 8), next := BitVec.ofNat 64 (leAt d 0x30 8) }] ∧
      (t.chan ch.toNat).state = .running ∧ Only [.dmv] s t) := by
  have hfault := (hd.copyFault hstrict).trans (if_neg (by simp; omega))
  have hexec := exec_copy_of_none h hfault
  rw [hd.src, hd.dst] at hexec
  refine ⟨_, hexec, ?_, (congrArg Channel.state (s.chan_modChan ..)).trans h.running, State.modChan_only (Only.refl _ s) rfl _ _⟩
  refine (congrArg Channel.queue (s.chan_modChan ..)).trans ?_
  simp [State.copyTransfer, hostSide, State.sideRanges, hd.flags, bitOf, Transfer.blank]

theorem answers_copy_overlap {s : State} {ch : BitVec 6} (h : s.Fetching ch.toNat) (hstrict : s.chanStrict ch.toNat = false) {d : Bytes}
    (hd : HostCopy d) (hdst : leAt d 0x10 8 < leAt d 0x18 8 + leAt d 0x28 4) (hsrc : leAt d 0x18 8 < leAt d 0x10 8 + leAt d 0x28 4) :
    Answers (.copy ch (.ok d) .notNeeded .notNeeded) s (fun t => (t.chan ch.toNat).status = stOverlap ∧ (t.chan ch.toNat).detail = 1 ∧
      (t.chan ch.toNat).queue = []) := by
  have hfault := (hd.copyFault hstrict).trans (if_pos (by simp [hdst, hsrc]))
  have hend := s.endMover_posted ch.toNat stOverlap 1 0 (BitVec.ofNat 64 (leAt d 8 8)) 0
  exact ⟨_, exec_copy_of_fault h hfault, congrArg Channel.status hend, congrArg Channel.detail hend, congrArg Channel.queue hend⟩

/-! ## The end of a transfer (R229, R279, R287, R290) -/

/-- The transfer in front of channel n has written its last byte. -/
structure State.Finished (s : State) (n : Nat) (x : Transfer) (rest : List Transfer) : Prop where
  queue : (s.chan n).queue = x :: rest
  running : (s.chan n).state = .running
  dsts : x.dsts ≠ []
  moved : x.bytes ≤ x.moved
  unflushed : (s.chan n).flushWait = false

section Complete
variable {s : State} {ch : BitVec 6} {x : Transfer} {rest : List Transfer} (h : s.Finished ch.toNat x rest)
include h

theorem exec_transferComplete : exec (.transferComplete ch) s =
    if x.flush && !x.dstPool then .next ((s.modChan ch.toNat (fun c => { c with flushWait := true })).issuePiece ch.toNat x
      (s.pieceRead ch.toNat x x.bytes 0))
    else .next (s.endTransfer ch.toNat stOk 0) := by
  show execTransferComplete ch s = _
  unfold execTransferComplete
  dsimp only
  rw [h.queue]
  exact if_neg (by simp [h.running, h.dsts, h.moved, h.unflushed])

theorem exec_transferComplete_end (hflush : x.flush = false) :
    exec (.transferComplete ch) s = .next (s.endTransfer ch.toNat stOk 0) :=
  (exec_transferComplete h).trans (if_neg (by simp [hflush]))

/-- With FLUSH a zero-length read of the destination goes first (R290). -/
theorem answers_transferComplete_flush (hflush : x.flush = true) (hdst : x.dstPool = false) (hend : rangeAt x.srcs x.bytes = none)
    (hfree : s.freeTags x.port ≠ []) :
    Answers (.transferComplete ch) s (fun t => (t.chan ch.toNat).flushWait = true ∧ (t.chan ch.toNat).queue = x :: rest ∧
      ∃ r ∈ t.dmv.reads, r.user = .chan ch.toNat ∧ r.len = 0 ∧ r.dead = false ∧
        Out.memRead x.port r.tag (((rangeAt x.dsts (x.bytes - 1)).map (fun y => y.1)).getD 0) 0 ∈ t.out) := by
  let u := s.modChan ch.toNat (fun c => { c with flushWait := true })
  let r := s.pieceRead ch.toNat x x.bytes 0
  obtain ⟨k, -, hissue⟩ := State.exists_issueRead (s := u) (r := r) hfree
    (((rangeAt x.dsts (x.bytes - 1)).map (fun y => y.1)).getD 0) 0
  have hexec := (exec_transferComplete h).trans (if_pos (by simp [hflush, hdst]))
  rw [State.issuePiece_of_none (s := u) (r := r) hend, hissue] at hexec
  have hchan : ∀ o, ((u.withRead r k).hostOut r.port o).chan ch.toNat = { s.chan ch.toNat with flushWait := true } := fun o =>
    (State.chan_of_dmv (State.hostOut_dmv ..) _).trans ((State.chan_withRead ..).trans (s.chan_modChan ..))
  refine ⟨_, hexec, congrArg Channel.flushWait (hchan _), (congrArg Channel.queue (hchan _)).trans h.queue,
    { r with tag := BitVec.ofNat 10 k }, ?_, rfl, rfl, rfl, ?_⟩
  · rw [State.hostOut_dmv]
    exact List.mem_append_right _ (.head _)
  · rw [State.hostOut_out]
    exact .head _

end Complete

/-! ### Descriptors of line 0 that end with OK -/

section Posted
variable {s : State} {ch : BitVec 6} (hroom : s.mqRoom (s.chanMq ch.toNat) = true) (hw : (s.mq (s.chanMq ch.toNat)).waiting = [])
include hroom hw

/-- Where the queue has room the record of an OK is written at once. -/
theorem State.endMover_ok (bytes : Nat) (tag next : Word64) : s.endMover ch.toNat stOk 0 bytes tag next =
    ((s.withEndedChan ch.toNat stOk 0 bytes).writeMq (s.chanMq ch.toNat) (moverRecord ch.toNat stOk 0 bytes tag)).afterRecord ch.toNat
      stOk next := by
  rw [State.endMover_of_ne _ _ _ _ _ _ (by decide)]
  exact State.postMq_of_room (s := s.withEndedChan ch.toNat stOk 0 bytes) hroom hw _ _

theorem State.mem_endMover_ok_out (bytes : Nat) (tag next : Word64) :
    Out.mqRecord (s.chanMq ch.toNat) (s.mq (s.chanMq ch.toNat)).prod
      { channel := ch.setWidth 8, status := stOk, detail := 0, bytes := BitVec.ofNat 32 bytes, tag := tag } ∈
      (s.endMover ch.toNat stOk 0 bytes tag next).out := by
  have hmem := (s.withEndedChan ch.toNat stOk 0 bytes).mem_writeMq_out (s.chanMq ch.toNat) (moverRecord ch.toNat stOk 0 bytes tag)
  rw [moverRecord, BitVec.ofNat_toNat] at hmem
  rw [State.endMover_ok hroom hw, moverRecord, BitVec.ofNat_toNat]
  exact hmem

/-- At the end of the chain the channel is idle (R279). -/
theorem answers_transferComplete_line0 {x : Transfer} {rest : List Transfer} (h : s.Finished ch.toNat x rest)
    (hl : s.chanLine ch.toNat = 0) (hflush : x.flush = false) (hnext : x.next = 0) :
    Answers (.transferComplete ch) s (fun t => (t.chan ch.toNat).state = .idle ∧ (t.chan ch.toNat).queue = [] ∧
      (t.chan ch.toNat).status = stOk ∧
      Out.mqRecord (s.chanMq ch.toNat) (s.mq (s.chanMq ch.toNat)).prod
        { channel := ch.setWidth 8, status := stOk, detail := 0, bytes := BitVec.ofNat 32 x.moved, tag := x.tag } ∈ t.out ∧
      (t.mq (s.chanMq ch.toNat)).prod = posAdd (s.mqN (s.chanMq ch.toNat)) (s.mq (s.chanMq ch.toNat)).prod 1) := by
  let v := (s.withEndedChan ch.toNat stOk 0 x.moved).writeMq (s.chanMq ch.toNat) (moverRecord ch.toNat stOk 0 x.moved x.tag)
  have hend : s.endMover ch.toNat stOk 0 x.moved x.tag 0 = v.afterRecord ch.toNat stOk 0 := State.endMover_ok hroom hw ..
  have hposted := s.endMover_posted ch.toNat stOk 0 x.moved x.tag 0
  have hexec := exec_transferComplete_end h hflush
  rw [State.endTransfer_line0 h.queue hl, hnext] at hexec
  refine ⟨_, hexec, ?idle, congrArg Channel.queue hposted, congrArg Channel.status hposted,
    State.mem_endMover_ok_out hroom hw x.moved x.tag 0, ?prod⟩
  case idle =>
    rw [hend]
    exact congrArg Channel.state (v.chan_modChan ..)
  case prod =>
    rw [hend]
    exact State.prod_writeMq ..

/-- The flush read came back, and the record is posted (R290). -/
theorem answers_flushReadComplete {bytes : Bytes} {r : HostRead} {x : Transfer} {rest : List Transfer}
    (hwait : (s.chan ch.toNat).flushWait = true) (hreads : s.dmv.reads = [r]) (huser : r.user = .chan ch.toNat) (hdead : r.dead = false)
    (hlen : r.len = 0) (hq : (s.chan ch.toNat).queue = x :: rest) (hl : s.chanLine ch.toNat = 0) :
    Answers (.flushReadComplete ch (.ok bytes)) s (fun t => (t.chan ch.toNat).flushWait = false ∧ (t.chan ch.toNat).status = stOk ∧
      t.dmv.reads = [] ∧
      Out.mqRecord (s.chanMq ch.toNat) (s.mq (s.chanMq ch.toNat)).prod
        { channel := ch.setWidth 8, status := stOk, detail := 0, bytes := BitVec.ofNat 32 x.moved, tag := x.tag } ∈ t.out) := by
  let v := s.dropRead { port := r.port, tag := r.tag }
  have hfind : s.dmv.reads.find? (fun r => r.user = .chan ch.toNat && !r.dead && decide (r.len = 0)) = some r := by
    simp [hreads, huser, hdead, hlen]
  have hnone : v.dmv.reads = [] := by simp [v, State.dropRead, hreads]
  have hexec : exec (.flushReadComplete ch (.ok bytes)) s = .next (v.endMover ch.toNat stOk 0 x.moved x.tag x.next) := by
    rw [← State.endTransfer_line0 (s := v) hq hl]
    refine (if_neg (by simp [hwait])).trans ?_
    rw [hfind]
  have hposted := v.endMover_posted ch.toNat stOk 0 x.moved x.tag x.next
  have hreads' := congrArg Dmv.reads (v.endMover_recorded ch.toNat stOk 0 x.moved x.tag x.next)
  refine ⟨_, hexec, congrArg Channel.flushWait hposted, congrArg Channel.status hposted, hreads'.trans ?_,
    State.mem_endMover_ok_out (s := v) hroom hw x.moved x.tag x.next⟩
  show v.dmv.reads.map _ = []
  rw [hnone, List.map_nil]

end Posted

/-! ### Transfers of an I/O -/

theorem State.finishIo_ok_ios (s : State) (io : Io) (lba count : Nat) :
    (s.finishIo io stOk 0 lba count).ios = s.ios.filter (fun j => j.id ≠ io.id) :=
  (raised_ios (s.endIo_faults io stOk 0 lba count)).trans (s.endIo_ios ..)

/-- A channel whose transfer x in front ended with an outcome, the transfers `rest` behind it. -/
def Channel.passed (c : Channel) (status detail : Byte) (x : Transfer) (rest : List Transfer) : Channel :=
  { c with status := status, detail := detail, bytes := BitVec.ofNat 64 x.moved, queue := rest,
           state := if rest.isEmpty ∧ c.state = .running then .idle else c.state,
           errors := if status = stBusError then (c.errors + 1) % 2 ^ 32 else c.errors }

/-- A transfer that served a READ which lost nothing ends its I/O (R231). -/
theorem State.endTransfer_read {s : State} {n : Nat} {x : Transfer} {rest : List Transfer} {io : Io} (hq : (s.chan n).queue = x :: rest)
    (hl : s.chanLine n ≠ 0) (hfind : s.ios.find? (fun io => x.io = some io.id) = some io) (hkind : io.kind = .read)
    (hlost : io.lost = []) : s.endTransfer n stOk 0 =
      ((s.killReads n).modChan n (fun c => c.passed stOk 0 x rest)).finishIo io stOk 0 io.desc.lba io.desc.blocks := by
  let u := (s.killReads n).modChan n (fun c => c.passed stOk 0 x rest)
  have hfound : u.ios.find? (fun io => x.io = some io.id) = some io := hfind
  unfold State.endTransfer
  rw [hq]
  refine (if_neg hl).trans ?_
  show (match u.ios.find? (fun io => x.io = some io.id) with
    | none => _
    | some io => _) = _
  rw [hfound]
  dsimp only
  rw [if_neg (by decide), hkind, hlost]
  rfl

/-- The last transfer of a channel of another line, for a READ that lost nothing, ends its I/O (R229, R231). -/
theorem answers_transferComplete_read {s : State} {ch : BitVec 6} {x : Transfer} {io : Io} (h : s.Finished ch.toNat x [])
    (hl : s.chanLine ch.toNat ≠ 0) (hflush : x.flush = false) (hios : s.ios = [io]) (hio : x.io = some io.id)
    (hkind : io.kind = .read) (hlost : io.lost = []) :
    Answers (.transferComplete ch) s (fun t => t.ios = [] ∧ (t.chan ch.toNat).state = .idle ∧ (t.chan ch.toNat).queue = [] ∧
      (t.chan ch.toNat).status = stOk) := by
  let u := (s.killReads ch.toNat).modChan ch.toNat (fun c => c.passed stOk 0 x [])
  have hexec := exec_transferComplete_end h hflush
  rw [State.endTransfer_read h.queue hl (by simp [hios, hio]) hkind hlost] at hexec
  have hchan : (u.finishIo io stOk 0 io.desc.lba io.desc.blocks).chan ch.toNat = (s.chan ch.toNat).passed stOk 0 x [] :=
    (State.chan_of_dmv (u.finishIo_ok_frame io _ _ .dmv (by decide)) _).trans (State.chan_modChan ..)
  have hidle : ((s.chan ch.toNat).passed stOk 0 x []).state = .idle := if_pos ⟨rfl, h.running⟩
  refine ⟨_, hexec, ?_, (congrArg Channel.state hchan).trans hidle, congrArg Channel.queue hchan, congrArg Channel.status hchan⟩
  rw [State.finishIo_ok_ios]
  show s.ios.filter _ = []
  simp [hios]

/-- Settles O55: each descriptor that is read and each transfer that ends has, for each way it can go, its lemma above. -/
theorem moverDescriptorsRun : Obligations.MoverDescriptorsRun := by
  unfold Obligations.MoverDescriptorsRun
  refine ⟨?copy, ?opcode, ?overlap, ?unread, ?posted, ?flush, ?flushed, ?read⟩
  case copy =>
    exact fun _ _ _ hr hl hq hheld hc hd3 hlive hstrict hop hfl hsp h06 hen h2C h38 hpos hmax hapart =>
      answers_copy ⟨hr, hl, hq, hheld, hc, hd3, hlive⟩ hstrict ⟨hop, hfl, hsp, h06, hen, h2C, h38, hpos, hmax⟩ hapart
  case opcode =>
    exact fun _ _ a b _ hr hl hq hheld hc hd3 hlive hop => answers_copy_badOpcode ⟨hr, hl, hq, hheld, hc, hd3, hlive⟩ hop a b
  case overlap =>
    exact fun _ _ _ hr hl hq hheld hc hd3 hlive hstrict hop hfl hsp h06 hen h2C h38 hpos hmax hdst hsrc =>
      answers_copy_overlap ⟨hr, hl, hq, hheld, hc, hd3, hlive⟩ hstrict ⟨hop, hfl, hsp, h06, hen, h2C, h38, hpos, hmax⟩ hdst hsrc
  case unread =>
    exact fun _ _ a b _ he hr hl hq hheld hc hd3 hlive => answers_copy_unread ⟨hr, hl, hq, hheld, hc, hd3, hlive⟩ he a b
  case posted =>
    exact fun _ _ _ _ hq hr hl hdst hmoved hflush hnext hf hroom hw =>
      answers_transferComplete_line0 hroom hw ⟨hq, hr, hdst, hmoved, hf⟩ hl hflush hnext
  case flush =>
    exact fun _ _ _ _ hq hr hdst hmoved hflush hpool hf hend hfree =>
      answers_transferComplete_flush ⟨hq, hr, hdst, hmoved, hf⟩ hflush hpool hend hfree
  case flushed =>
    exact fun _ _ _ _ _ _ hf hreads huser hdead hlen hq hl hroom hw =>
      answers_flushReadComplete hroom hw hf hreads huser hdead hlen hq hl
  case read =>
    exact fun _ _ _ _ hq hr hl hdst hmoved hflush hf hios hio hkind hlost =>
      answers_transferComplete_read ⟨hq, hr, hdst, hmoved, hf⟩ hl hflush hios hio hkind hlost

end Sys2Proof.Machine
end

section
/-! PROOFS. The calibration of the Log (spec/13_calibration_and_hold.md R369 to R385): what a change of one bank, of one pair and of every
bank's temperature leaves and what a CALREF sample does, what the check marks, how a run starts, copies and ends, what a host's selection
does, and the statement about them. -/

namespace Sys2Proof.Machine

/-! ## Banks and pairs (R102, R369) -/

@[simp] theorem State.bank_modBank (s : State) (n : BitVec 5) (f : BankCal → BankCal) : (s.modBank n f).bank n = f (s.bank n) :=
  Tab.get_set_self _ _ _ _

theorem State.bank_modBank_other (s : State) {m n : BitVec 5} (f : BankCal → BankCal) (h : m ≠ n) : (s.modBank n f).bank m = s.bank m :=
  Tab.get_set_other _ _ _ _ fun e => h (BitVec.eq_of_toNat_eq e)

theorem State.bank_of_banks {s t : State} (h : t.mon.banks = s.mon.banks) (n : BitVec 5) : t.bank n = s.bank n := by
  unfold State.bank
  rw [h]

theorem State.mem_presentBanks_of_live {s : State} {n : BitVec 5} (h : s.bankLive n = true) : n ∈ s.presentBanks := by
  simp only [State.bankLive, Bool.and_eq_true, decide_eq_true_eq] at h
  exact h.1

theorem State.toNat_lt_banks_of_live {s : State} {n : BitVec 5} (h : s.bankLive n = true) : n.toNat < Config.banks s.part := by
  obtain ⟨i, hi, rfl⟩ := List.mem_map.1 (State.mem_presentBanks_of_live h)
  have hi := List.mem_range.1 hi
  rw [BitVec.toNat_ofNat]
  omega

/-- The pairs, the spare and the fenced banks decide each pair's role. -/
theorem State.pairRole_of_banks {s t : State} (h : t.log.banks = s.log.banks) (p : Nat) : t.pairRole p = s.pairRole p := by
  have hpairs : t.log.pairs = s.log.pairs := congrArg Prod.fst h
  unfold State.pairRole
  rw [hpairs]

theorem State.spare_of_banks {s t : State} (h : t.log.banks = s.log.banks) : t.log.spare = s.log.spare :=
  congrArg (fun b => b.2.1) h

/-- While every pair has both its copies a spare that became free stays free (R107). -/
theorem State.useFreeSpare_of_double {s : State} (h : ∀ p, p < Config.pairs s.part → (s.pairRole p).single = false) :
    s.useFreeSpare = s := by
  have hnone : (List.range (Config.pairs s.part)).find? (fun p => (s.pairRole p).single) = none :=
    List.find?_eq_none.2 fun p hp => by simp [h p (List.mem_range.1 hp)]
  unfold State.useFreeSpare
  rw [hnone]
  split <;> rfl

/-! ## CALREF (R385) -/

/-- The monitors with a CALREF sample taken. -/
def Mon.sampled (m : Mon) (v : Nat) : Mon := { m with calref := v % 2 ^ 18, calrefOk := calrefGood v, calrefSeen := true }

theorem State.sampleCalref_of_good {s : State} {v : Nat} (hok : s.mon.calrefOk = true) (h : calrefGood v = true) :
    s.sampleCalref v = s.withMon (s.mon.sampled v) := by
  simp [State.sampleCalref, Mon.sampled, hok, h]

theorem calrefGood_of_lt {v : Nat} (h : v < 117000) : calrefGood v = false := by
  simp only [calrefGood, Bool.and_eq_false_iff, decide_eq_false_iff_not]
  omega

theorem State.sampleCalref_of_low {s : State} {v : Nat} (hok : s.mon.calrefOk = true) (h : v < 117000) :
    s.sampleCalref v = (s.withMon (s.mon.sampled v)).raise 0xC0 .warn 1 := by
  simp [State.sampleCalref, Mon.sampled, hok, h, calrefGood_of_lt h]

/-! ## The check of the temperatures (R372) -/

theorem Tab.get_foldl_modify {α : Type} [DecidableEq α] {l : List Nat} (hl : l.Nodup) (t : Tab α) (d : α)
    (f : Nat → α → α) (k : Nat) :
    (l.foldl (fun t i => t.modify d i (f i)) t).get d k = if k ∈ l then f k (t.get d k) else t.get d k := by
  induction l generalizing t with
  | nil => rfl
  | cons i l ih =>
    obtain ⟨hi, hl⟩ := List.nodup_cons.1 hl
    rw [List.foldl_cons, ih hl]
    by_cases hk : k = i
    · subst hk
      rw [if_neg hi, if_pos (.head _)]
      exact Tab.get_set_self _ _ _ _
    · have hget : (t.modify d i (f i)).get d k = t.get d k := Tab.get_set_other _ _ _ _ hk
      simp [hget, hk]

/-- A bank with the temperature that a check read, none where its sensor failed. -/
def BankCal.sensed (temps : List (Option Int)) (i : Nat) (b : BankCal) : BankCal :=
  { b with nowC := if sensorOk (temps.getD i none) then temps.getD i none else none }

/-- Every present bank with the temperature that a check read. -/
def State.sensedBanks (s : State) (temps : List (Option Int)) : Tab BankCal :=
  (List.range (min (Config.banks s.part) temps.length)).foldl (fun t i => t.modify BankCal.at0 i (BankCal.sensed temps i)) s.mon.banks

theorem State.get_sensedBanks {s : State} {n : BitVec 5} {temps : List (Option Int)} {c : Int} (hn : s.bankLive n = true)
    (htemp : temps[n.toNat]? = some (some c)) (hlow : -40 ≤ c) (hhigh : c ≤ 150) :
    (s.sensedBanks temps).get BankCal.at0 n.toNat = { s.bank n with nowC := some c } := by
  have hlen : n.toNat < temps.length := (List.getElem?_eq_some_iff.1 htemp).1
  have hmem : n.toNat ∈ List.range (min (Config.banks s.part) temps.length) :=
    List.mem_range.2 (lt_min (State.toNat_lt_banks_of_live hn) hlen)
  rw [State.sensedBanks, Tab.get_foldl_modify List.nodup_range, if_pos hmem]
  simp [BankCal.sensed, State.bank, htemp, sensorOk, hlow, hhigh]

/-- A second of power counted and the temperatures of a check taken (R120, R372). -/
def State.secondPassed (s : State) (calref : Nat) (temps : List (Option Int)) : State :=
  let hot := match maxSample s.mon.tj with
    | some c => decide (95 < c)
    | none => false
  let s := s.withLog { s.log with powerOnS := s.log.powerOnS + 1, hotS := s.log.hotS + ofBool hot }
  let s := s.withMon { s.mon with
    calrefRun := if calrefGood calref then min 3 (s.mon.calrefRun + 1) else 0, banks := s.sensedBanks temps }
  s.withLog { s.log with tmax := s.bankTmax }

/-- A bank that the check finds due is marked. -/
def State.markDue (s : State) (n : BitVec 5) : State :=
  if s.bankLive n && s.dueAtCheck n then s.modBank n (fun b => { b with due := true }) else s

/-- Every bank that the check finds due is marked, while calibration is enabled. -/
def State.markAllDue (s : State) : State := if s.regBit Reg.calCtl 0 then s.presentBanks.foldl State.markDue s else s

@[simp] theorem State.secondPassed_flt (s : State) (calref : Nat) (temps : List (Option Int)) :
    (s.secondPassed calref temps).flt = s.flt := rfl

@[simp] theorem State.secondPassed_calrefOk (s : State) (calref : Nat) (temps : List (Option Int)) :
    (s.secondPassed calref temps).mon.calrefOk = s.mon.calrefOk := rfl

@[simp] theorem State.secondPassed_run (s : State) (calref : Nat) (temps : List (Option Int)) :
    (s.secondPassed calref temps).mon.run = s.mon.run := rfl

@[simp] theorem State.secondPassed_powerOnS (s : State) (calref : Nat) (temps : List (Option Int)) :
    (s.secondPassed calref temps).log.powerOnS = s.log.powerOnS + 1 := rfl

theorem State.bank_secondPassed {s : State} {n : BitVec 5} {temps : List (Option Int)} {c : Int} (hn : s.bankLive n = true)
    (htemp : temps[n.toNat]? = some (some c)) (hlow : -40 ≤ c) (hhigh : c ≤ 150) (calref : Nat) :
    (s.secondPassed calref temps).bank n = { s.bank n with nowC := some c } :=
  State.get_sensedBanks hn htemp hlow hhigh

theorem next_markAllDue (u : State) : (if u.regBit Reg.calCtl 0 = true then .next (u.presentBanks.foldl State.markDue u) else .next u) =
    (.next u.markAllDue : Host.Outcome State Fault Refusal) := (apply_ite _ _ _ _).symm

/-- A check that ends no run: its reference is good, or no run is active. -/
theorem exec_calTemperatureCheck {s : State} {calref : Nat} (h : calrefGood calref = true ∨ (s.sampleCalref calref).mon.run = none)
    (temps : List (Option Int)) :
    exec (.calTemperatureCheck calref temps) s = .next ((s.sampleCalref calref).secondPassed calref temps).markAllDue := by
  let u := (s.sampleCalref calref).secondPassed calref temps
  have hkept : (if calrefGood calref then u else
      match u.mon.run with
      | none => u
      | some c =>
        match c.src with
        | none => u.endCalRun 1
        | some src => (u.endCalRun 1).endCalCommand src c.bank stCalRefBad) = u := by
    rcases h with hgood | hnone
    · rw [if_pos hgood]
    · rw [State.secondPassed_run, hnone, ite_self]
  exact (congrArg (fun v : State => if v.regBit Reg.calCtl 0 then Host.Outcome.next (v.presentBanks.foldl State.markDue v) else .next v)
    hkept).trans (next_markAllDue u)

theorem State.dueAtCheck_of_moved {s : State} {n : BitVec 5} {c : Int} (hbar : (s.bank n).barred = false) (hran : (s.bank n).ran = true)
    (hnow : (s.bank n).nowC = some c) (hmoved : (s.regField Reg.calTrig 0 8 : Int) < c - (s.bank n).tempC) :
    s.dueAtCheck n = true := by
  simp [State.dueAtCheck, hbar, hran, hnow, hmoved]

/-- Marking banks changes the monitors' banks and nothing else. -/
theorem State.markDue_eq (s : State) (n : BitVec 5) : ∃ v, s.markDue n = s.withMon { s.mon with banks := v } := by
  unfold State.markDue
  split
  · exact ⟨_, rfl⟩
  · exact ⟨s.mon.banks, rfl⟩

theorem State.foldl_markDue_eq (l : List (BitVec 5)) (s : State) :
    ∃ v, l.foldl State.markDue s = s.withMon { s.mon with banks := v } := by
  induction l generalizing s with
  | nil => exact ⟨s.mon.banks, rfl⟩
  | cons n l ih =>
    obtain ⟨v, hn⟩ := s.markDue_eq n
    rw [List.foldl_cons, hn]
    exact ih _

theorem State.markAllDue_eq (s : State) : ∃ v, s.markAllDue = s.withMon { s.mon with banks := v } := by
  unfold State.markAllDue
  split
  · exact s.foldl_markDue_eq _
  · exact ⟨s.mon.banks, rfl⟩

@[simp] theorem State.markAllDue_flt (s : State) : s.markAllDue.flt = s.flt := by
  obtain ⟨v, h⟩ := s.markAllDue_eq
  rw [h, State.withMon_flt]

@[simp] theorem State.markAllDue_log (s : State) : s.markAllDue.log = s.log := by
  obtain ⟨v, h⟩ := s.markAllDue_eq
  rw [h, State.withMon_log]

@[simp] theorem State.markAllDue_calrefOk (s : State) : s.markAllDue.mon.calrefOk = s.mon.calrefOk := by
  obtain ⟨v, h⟩ := s.markAllDue_eq
  rw [h, State.withMon_mon]

/-- Of a bank, marking changes the mark alone. -/
theorem State.bank_markDue (s : State) (m n : BitVec 5) :
    (s.markDue m).bank n = { s.bank n with due := (s.bank n).due || (decide (n = m) && s.bankLive n && s.dueAtCheck n) } := by
  unfold State.markDue
  by_cases hn : n = m
  · subst hn
    split <;> simp [*]
  · split
    · simp [s.bank_modBank_other _ hn, hn]
    · simp [hn]

theorem State.bankLive_markDue (s : State) (m n : BitVec 5) : (s.markDue m).bankLive n = s.bankLive n := by
  obtain ⟨v, h⟩ := s.markDue_eq m
  rw [h]
  rfl

theorem State.dueAtCheck_markDue (s : State) (m n : BitVec 5) : (s.markDue m).dueAtCheck n = s.dueAtCheck n := by
  have hbank := s.bank_markDue m n
  obtain ⟨v, h⟩ := s.markDue_eq m
  rw [h] at hbank ⊢
  unfold State.dueAtCheck
  rw [hbank]
  rfl

theorem State.due_foldl_markDue (l : List (BitVec 5)) (s : State) (n : BitVec 5) :
    ((l.foldl State.markDue s).bank n).due = ((s.bank n).due || (decide (n ∈ l) && s.bankLive n && s.dueAtCheck n)) := by
  induction l generalizing s with
  | nil => simp
  | cons m l ih =>
    rw [List.foldl_cons, ih, s.bank_markDue, s.bankLive_markDue, s.dueAtCheck_markDue]
    by_cases hm : n = m
    · subst hm
      cases s.bankLive n <;> cases s.dueAtCheck n <;> simp
    · simp [hm]

theorem State.due_markAllDue {s : State} {n : BitVec 5} (hen : s.regBit Reg.calCtl 0 = true) (hn : s.bankLive n = true)
    (hdue : s.dueAtCheck n = true) : (s.markAllDue.bank n).due = true := by
  rw [State.markAllDue, if_pos hen, State.due_foldl_markDue, hn, hdue]
  simp [State.mem_presentBanks_of_live hn]

theorem answers_calTemperatureCheck {calref : Nat} {temps : List (Option Int)} {n : BitVec 5} {c : Int} {s : State}
    (hgood : calrefGood calref = true) (hok : s.mon.calrefOk = true) (hen : s.regBit Reg.calCtl 0 = true) (hn : s.bankLive n = true)
    (hbar : (s.bank n).barred = false) (hran : (s.bank n).ran = true) (htemp : temps[n.toNat]? = some (some c)) (hlow : -40 ≤ c)
    (hhigh : c ≤ 150) (hmoved : (s.regField Reg.calTrig 0 8 : Int) < c - (s.bank n).tempC) :
    Answers (.calTemperatureCheck calref temps) s (fun t =>
      (t.bank n).due = true ∧ t.log.powerOnS = s.log.powerOnS + 1 ∧ t.flt = s.flt) := by
  let v := s.withMon (s.mon.sampled calref)
  let u := v.secondPassed calref temps
  have hexec := exec_calTemperatureCheck (s := s) (.inl hgood) temps
  rw [State.sampleCalref_of_good hok hgood] at hexec
  have hbank : u.bank n = { s.bank n with nowC := some c } := State.bank_secondPassed (s := v) hn htemp hlow hhigh calref
  have hdue : u.dueAtCheck n = true :=
    State.dueAtCheck_of_moved (c := c) (by rw [hbank, hbar]) (by rw [hbank, hran]) (by rw [hbank]) (by rw [hbank]; exact hmoved)
  refine ⟨_, hexec, State.due_markAllDue (s := u) hen hn hdue, ?seconds, ?faults⟩
  case seconds => rw [State.markAllDue_log, State.secondPassed_powerOnS, State.withMon_log]
  case faults => rw [State.markAllDue_flt, State.secondPassed_flt, State.withMon_flt]

/-- A reference below its range ends no run where none is active, and raises its source at the start of the excursion (R385). -/
theorem answers_calTemperatureCheck_low {calref : Nat} {s : State} (hlow : calref < 117000) (hok : s.mon.calrefOk = true)
    (hrun : s.mon.run = none) :
    Answers (.calTemperatureCheck calref []) s (fun t => t.mon.calrefOk = false ∧ s.Faulted t 0xC0 1) := by
  let v := (s.withMon (s.mon.sampled calref)).raise 0xC0 .warn 1
  have hmon : v.mon = s.mon.sampled calref := State.raise_low _ 0xC0 .warn 1 (.inr rfl) .mon (by decide)
  have hsample := State.sampleCalref_of_low hok hlow
  have hexec := exec_calTemperatureCheck (s := s) (.inr (by rw [hsample, hmon]; exact hrun)) []
  rw [hsample] at hexec
  refine ⟨_, hexec, ?ok, ?fault⟩
  case ok => rw [State.markAllDue_calrefOk, State.secondPassed_calrefOk, hmon, Mon.sampled, calrefGood_of_lt hlow]
  case fault =>
    have hfault : s.Faulted v 0xC0 1 := State.Faulted.raise rfl .warn 1 (by decide) (by decide) (by decide)
    exact hfault.of_src (State.src_of_sources (by rw [State.markAllDue_flt, State.secondPassed_flt]) _)

/-! ## Banks that are due for other reasons (R372, R378) -/

theorem answers_calIntervalDue {bank : BitVec 5} {s : State} (hen : s.regBit Reg.calCtl 0 = true) (hn : s.bankLive bank = true)
    (hbar : (s.bank bank).barred = false) :
    Answers (.calIntervalDue bank) s (fun t => t.bank bank = { s.bank bank with due := true } ∧ Only [.mon, .monitor] s t) :=
  ⟨_, if_pos (by simp [hen, hn, hbar]), s.bank_modBank .., State.modBank_only (Only.refl _ s) rfl _ _⟩

theorem answers_calFailHoldoffExpiry (bank : BitVec 5) (s : State) :
    Answers (.calFailHoldoffExpiry bank) s (fun t => t.bank bank = { s.bank bank with barred := false } ∧ Only [.mon, .monitor] s t) :=
  ⟨_, rfl, s.bank_modBank .., State.modBank_only (Only.refl _ s) rfl _ _⟩

/-! ## A run starts and copies (R373, R374) -/

/-- The run of a due bank started: the spare joins it. -/
def State.runStarted (s : State) (n b : BitVec 5) : State :=
  (s.withMon { s.mon with run := some { bank := n, phase := .copy, spare := some b, src := none }, lastBank := n }).withLog
    { s.log with spare := none }

theorem exec_calRunStart {b n : BitVec 5} {s : State} (hrun : s.mon.run = none) (hhold : s.inHold = false) (hd : s.gcs.phase ≠ .dock)
    (hspare : s.log.spare = some b) (hnext : s.nextCalBank = some (n, none)) (hn : s.bankLive n = true) (hne : n ≠ b) :
    exec .calRunStart s = .next (s.runStarted n b) := by
  have hidle : ¬ (s.mon.run.isSome || s.inHold || s.gcs.phase = .dock) = true := by simp [hrun, hhold, hd]
  refine (if_neg hidle).trans ?_
  simp [hspare, hnext, hn, hne, State.runStarted]

/-- The copy of a bank ended: the spare, written whole, has its place in the pair, and the sweep begins. -/
def State.copied (s : State) (c : CalRun) (b : BitVec 5) (p : Nat) : State :=
  let s := s.setRole p ((s.pairRole p).swap c.bank b)
  let s := s.withLog { s.log with bankWrites := s.log.bankWrites.modify 0 b.toNat (· + 2097152) }
  s.withMon { s.mon with run := some { c with phase := .sweep, spare := none } }

theorem exec_calCopyComplete {c : CalRun} {b : BitVec 5} {p : Nat} {s : State} (hrun : s.mon.run = some c) (hphase : c.phase = .copy)
    (hspare : c.spare = some b) (hpair : s.pairOfBank c.bank = some p) : exec .calCopyComplete s = .next (s.copied c b p) := by
  show execCalCopyComplete s = _
  simp only [execCalCopyComplete, hrun, hphase, hspare, hpair]
  rfl

theorem State.pairRole_copied (s : State) (c : CalRun) (b : BitVec 5) {p : Nat} (hp : p < s.log.pairs.length) :
    (s.copied c b p).pairRole p = (s.pairRole p).swap c.bank b := by
  have hpairs : (s.copied c b p).log.pairs = s.log.pairs.set p ((s.pairRole p).swap c.bank b) := rfl
  rw [State.pairRole, hpairs]
  simp [hp]

/-! ## The end of a sweep (R376 to R378) -/

/-- A run's sweep has ended: both references are sampled, and the bank is the spare. -/
def State.swept (s : State) (calref : Nat) (n : BitVec 5) : State :=
  (s.withMon (s.mon.sampled calref)).withLog { s.log with spare := some n }

theorem State.sampleCalref_twice {s : State} {r0 r1 : Nat} (hok : s.mon.calrefOk = true) (h0 : calrefGood r0 = true)
    (h1 : calrefGood r1 = true) : (s.sampleCalref r0).sampleCalref r1 = s.withMon (s.mon.sampled r1) := by
  rw [State.sampleCalref_of_good hok h0, State.sampleCalref_of_good (s := s.withMon (s.mon.sampled r0)) h0 h1]
  rfl

theorem State.bank_takeSelection (s : State) (n : BitVec 5) (w : Sweep) :
    (s.takeSelection n w).bank n = { s.bank n with
      sel := sweepSel w, origin := 0, tempC := w.tempC, timeNs := s.wch.fixNs, due := false, barred := false, ran := true } := by
  simp only [State.takeSelection]
  split
  · exact s.bank_modBank ..
  · exact (State.bank_of_banks rfl n).trans (s.bank_modBank ..)

/-- A run without a command whose sweep passes (R378). -/
def State.passedRun (s : State) (n : BitVec 5) (w : Sweep) : State :=
  let s := (s.takeSelection n w).count32 Reg.calRuns 1
  s.withMon { s.mon with run := none }

theorem State.passedRun_frame (s : State) (n : BitVec 5) (w : Sweep) : Only [.regs, .mon, .monitor] s (s.passedRun n w) :=
  only_withMon (State.count32_only (State.takeSelection_only (Only.refl _ s) rfl n w) rfl _ _) rfl (.inl rfl)

theorem State.failRun_frame (s : State) (r : Byte) :
    Only lowParts (s.withMon { s.mon with run := none, lastReason := r }) (s.failRun r) :=
  (State.count32_only (Only.refl _ _) rfl _ _).trans (State.raise_low _ 0xC1 _ r (ite_eq_or_eq ..).symm)

theorem State.failRun_mon (s : State) (r : Byte) : (s.failRun r).mon = { s.mon with run := none, lastReason := r } :=
  s.failRun_frame r .mon (by decide)

theorem State.faulted_failRun {s t : State} (h : t.flt.srcs = s.flt.srcs) (r : Byte) : s.Faulted (t.failRun r) 0xC1 r :=
  let u := (t.withMon { t.mon with run := none, lastReason := r }).count32 Reg.calFails 1
  State.Faulted.raise (t := u) (n := 0xC1) (State.src_of_sources h 0xC1) _ r (by decide) (by decide) (by decide)

theorem State.bank_passedRun (s : State) (n : BitVec 5) (w : Sweep) : (s.passedRun n w).bank n = (s.takeSelection n w).bank n :=
  State.bank_of_banks rfl n

/-- A run whose sweep fails a check (R378): the bank stays due for its reference's sake, and is held off for any other. -/
def State.failedRun (s : State) (n : BitVec 5) (r : Byte) : State :=
  (s.modBank n (fun b => { b with due := decide (r = 1), barred := b.barred || decide (r ≠ 1) })).failRun r

theorem State.failedRun_mon (s : State) (n : BitVec 5) (r : Byte) : (s.failedRun n r).mon =
    { (s.modBank n (fun b => { b with due := decide (r = 1), barred := b.barred || decide (r ≠ 1) })).mon with
      run := none, lastReason := r } := State.failRun_mon _ r

theorem State.failedRun_banks (s : State) (n : BitVec 5) (r : Byte) : (s.failedRun n r).log.banks = s.log.banks :=
  State.failRun_frame _ r .banks (by decide)

theorem State.failedRun_part (s : State) (n : BitVec 5) (r : Byte) : (s.failedRun n r).part = s.part :=
  State.failRun_frame _ r .part (by decide)

theorem State.faulted_failedRun {s t : State} (h : t.flt.srcs = s.flt.srcs) (n : BitVec 5) (r : Byte) :
    s.Faulted (t.failedRun n r) 0xC1 r := State.faulted_failRun (t := t.modBank n _) h r

theorem State.sel_failedRun (s : State) (n : BitVec 5) (r : Byte) : ((s.failedRun n r).bank n).sel = (s.bank n).sel := by
  rw [State.bank_of_banks (congrArg (fun m => m.banks) (s.failedRun_mon n r)), State.bank_modBank]

theorem State.swept_of_good {s : State} {r0 r1 : Nat} (hok : s.mon.calrefOk = true) (h0 : calrefGood r0 = true)
    (h1 : calrefGood r1 = true) (n : BitVec 5) :
    ((s.sampleCalref r0).sampleCalref r1).withLog { ((s.sampleCalref r0).sampleCalref r1).log with spare := some n } = s.swept r1 n := by
  rw [State.sampleCalref_twice hok h0 h1]
  rfl

/-- The spare that a sweep frees stays free, whatever the end of its run did besides. -/
theorem State.useFreeSpare_of_swept {s t : State} {calref : Nat} {n : BitVec 5}
    (hdouble : ∀ p, p < Config.pairs s.part → (s.pairRole p).single = false) (hbanks : t.log.banks = (s.swept calref n).log.banks)
    (hpart : t.part = s.part) : t.useFreeSpare = t :=
  State.useFreeSpare_of_double fun p hp => by
    rw [State.pairRole_of_banks hbanks]
    exact hdouble p (hpart ▸ hp)

section Sweep
variable {s : State} {c : CalRun} {r0 r1 : Nat} {w : Sweep} (hrun : s.mon.run = some c) (hphase : c.phase = .sweep) (hsrc : c.src = none)
  (hok : s.mon.calrefOk = true) (h0 : calrefGood r0 = true) (h1 : calrefGood r1 = true)
  (hdouble : ∀ p, p < Config.pairs s.part → (s.pairRole p).single = false)
include hrun hphase hsrc hok h0 h1 hdouble

theorem exec_calSweepComplete_pass (hpass : sweepReason w r0 r1 (s.bank c.bank).sel 6 = none) :
    exec (.calSweepComplete r0 r1 w) s = .next ((s.swept r1 c.bank).passedRun c.bank w) := by
  have hframe := (s.swept r1 c.bank).passedRun_frame c.bank w
  have hspare := State.useFreeSpare_of_swept hdouble (hframe .banks (by decide)) (hframe .part (by decide))
  have hsel : sweepReason w r0 r1 ((s.swept r1 c.bank).bank c.bank).sel 6 = none := hpass
  show execCalSweepComplete r0 r1 w s = _
  simp only [execCalSweepComplete, hrun, hphase, State.swept_of_good hok h0 h1, hsel, hsrc]
  rw [if_neg (by decide)]
  exact congrArg Host.Outcome.next hspare

theorem exec_calSweepComplete_fail {r : Byte} (hfail : sweepReason w r0 r1 (s.bank c.bank).sel 6 = some r) :
    exec (.calSweepComplete r0 r1 w) s = .next ((s.swept r1 c.bank).failedRun c.bank r) := by
  have hspare := State.useFreeSpare_of_swept hdouble ((s.swept r1 c.bank).failedRun_banks c.bank r)
    ((s.swept r1 c.bank).failedRun_part c.bank r)
  have hsel : sweepReason w r0 r1 ((s.swept r1 c.bank).bank c.bank).sel 6 = some r := hfail
  show execCalSweepComplete r0 r1 w s = _
  simp only [execCalSweepComplete, hrun, hphase, State.swept_of_good hok h0 h1, hsel, hsrc]
  rw [if_neg (by decide)]
  exact congrArg Host.Outcome.next hspare

theorem answers_calSweepComplete_pass (hpass : sweepReason w r0 r1 (s.bank c.bank).sel 6 = none) :
    Answers (.calSweepComplete r0 r1 w) s (fun t =>
      (t.bank c.bank).sel = sweepSel w ∧ (t.bank c.bank).origin = 0 ∧ (t.bank c.bank).due = false ∧ t.mon.run = none ∧
      t.log.spare = some c.bank ∧ t.flt = s.flt) := by
  let u := s.swept r1 c.bank
  have hbank := (u.bank_passedRun c.bank w).trans (u.bank_takeSelection c.bank w)
  have hframe := u.passedRun_frame c.bank w
  exact ⟨_, exec_calSweepComplete_pass hrun hphase hsrc hok h0 h1 hdouble hpass, congrArg BankCal.sel hbank,
    congrArg BankCal.origin hbank, congrArg BankCal.due hbank, rfl, State.spare_of_banks (hframe .banks (by decide)),
    hframe .flt (by decide)⟩

theorem answers_calSweepComplete_fail {r : Byte} (hfail : sweepReason w r0 r1 (s.bank c.bank).sel 6 = some r) :
    Answers (.calSweepComplete r0 r1 w) s (fun t =>
      (t.bank c.bank).sel = (s.bank c.bank).sel ∧ t.mon.run = none ∧ t.mon.lastReason = r ∧ t.log.spare = some c.bank ∧
      s.Faulted t 0xC1 r) := by
  let u := s.swept r1 c.bank
  have hmon := u.failedRun_mon c.bank r
  have hsrcs : u.flt.srcs = s.flt.srcs := rfl
  exact ⟨_, exec_calSweepComplete_fail hrun hphase hsrc hok h0 h1 hdouble hfail, u.sel_failedRun c.bank r,
    congrArg (fun m => m.run) hmon, congrArg (fun m => m.lastReason) hmon, State.spare_of_banks (u.failedRun_banks c.bank r),
    State.faulted_failedRun hsrcs c.bank r⟩

end Sweep

/-! ## A selection that a host writes (R380) -/

section Host
variable {s : State} {bank : BitVec 5} {value : Word32} (hc : s.haltClosed = false) (hd : s.gcs.phase ≠ .dock)
  (hn : s.bankLive bank = true)
include hc hd hn

theorem answers_calBankSel (hrun : (s.mon.run.map (fun c => c.bank)) ≠ some bank)
    (hcheck : value.toNat / 2 ^ 20 % 32 = selCheck (BitVec.ofNat 20 value.toNat))
    (hnear : selWithin (BitVec.ofNat 20 value.toNat) (s.bank bank).otp 10 = true) :
    Answers (.calBankSel bank value) s (fun t =>
      t.bank bank = { s.bank bank with sel := BitVec.ofNat 20 value.toNat, origin := 1 } ∧ t.flt = s.flt) := by
  let u := s.modBank bank (fun b => { b with sel := BitVec.ofNat 20 value.toNat, origin := 1 })
  have hexec : exec (.calBankSel bank value) s = .next (u.count32 Reg.calGen 1) := by
    show execCalBankSel bank value s = _
    simp only [execCalBankSel, State.leaveDock_of_not_dock hd]
    rw [if_neg (by simp [hc]), if_neg (by simp [hn]), if_neg (not_not.2 hcheck), if_neg hrun, if_neg (by rw [hnear]; decide)]
  exact ⟨_, hexec, s.bank_modBank .., rfl⟩

theorem answers_calBankSel_badCheck (hcheck : value.toNat / 2 ^ 20 % 32 ≠ selCheck (BitVec.ofNat 20 value.toNat)) :
    Answers (.calBankSel bank value) s (fun t => (t.bank bank).sel = (s.bank bank).sel ∧ s.Faulted t 0xC3 1) := by
  have hexec : exec (.calBankSel bank value) s = .next (s.raise 0xC3 .note 1) := by
    show execCalBankSel bank value s = _
    simp only [execCalBankSel, State.leaveDock_of_not_dock hd]
    rw [if_neg (by simp [hc]), if_neg (by simp [hn]), if_pos hcheck]
  have hmon : (s.raise 0xC3 .note 1).mon = s.mon := State.raise_low s 0xC3 .note 1 (.inl rfl) .mon (by decide)
  exact ⟨_, hexec, congrArg BankCal.sel (State.bank_of_banks (congrArg Mon.banks hmon) bank),
    State.Faulted.raise rfl .note 1 (by decide) (by decide) (by decide)⟩

end Host

/-- Settles O36: each event of a calibration has its lemma above. -/
theorem calibrationRuns : Obligations.CalibrationRuns := by
  unfold Obligations.CalibrationRuns
  refine ⟨?moved, ?low, ?interval, ?holdoff, ?start, ?copy, ?pass, ?fail, ?host, ?badCheck⟩
  case moved =>
    exact fun _ _ _ _ _ hgood hok hen hn hbar hran htemp hlow hhigh hmoved =>
      answers_calTemperatureCheck hgood hok hen hn hbar hran htemp hlow hhigh hmoved
  case low => exact fun _ _ hlow hok hrun => answers_calTemperatureCheck_low hlow hok hrun
  case interval => exact fun _ _ hen hn hbar => answers_calIntervalDue hen hn hbar
  case holdoff => exact answers_calFailHoldoffExpiry
  case start =>
    exact fun _ _ _ hrun hhold hd hspare hnext hn hne => ⟨_, exec_calRunStart hrun hhold hd hspare hnext hn hne, rfl, rfl, rfl⟩
  case copy =>
    exact fun _ _ _ s hrun hphase hspare hpair hp => ⟨_, exec_calCopyComplete hrun hphase hspare hpair, s.pairRole_copied _ _ hp, rfl⟩
  case pass =>
    exact fun _ _ _ _ _ hrun hphase hsrc hok h0 h1 hpass hdouble =>
      answers_calSweepComplete_pass hrun hphase hsrc hok h0 h1 hdouble hpass
  case fail =>
    exact fun _ _ _ _ _ _ hrun hphase hsrc hok h0 h1 hfail hdouble =>
      answers_calSweepComplete_fail hrun hphase hsrc hok h0 h1 hdouble hfail
  case host => exact fun _ _ _ hc hd hn hrun hcheck hnear => answers_calBankSel hc hd hn hrun hcheck hnear
  case badCheck => exact fun _ _ _ hc hd hn hcheck => answers_calBankSel_badCheck hc hd hn hcheck

end Sys2Proof.Machine
end

section
/-! PROOFS. Flits of the pair link (spec/14_pair_and_chain.md R406, R410 to R412, R420): a flit that the link takes or refuses, the NAK
sent for one that failed, the sent flits that go again, the link and its lanes that are lost, and the statement about them. -/

namespace Sys2Proof.Machine

/-! ## Flits taken (R410 to R412) -/

/-- The state once the link took a flit and counted it, before the flit acts. -/
def State.taken (s : State) (h : FlitHdr) : State := (s.withPair (s.pair.took h)).count64 Reg.pairFlitsRx 1

theorem State.taken_only {M : List Field} (s : State) (h : FlitHdr) (hM : sub [.regs, .pair, .role] M = true) : Only M s (s.taken h) :=
  Only.mono (State.count64_only (only_withPair (Only.refl [.regs, .pair, .role] s) rfl (.inl rfl)) rfl _ _) hM

@[simp] theorem State.taken_log (s : State) (h : FlitHdr) : (s.taken h).log = s.log := rfl

@[simp] theorem State.taken_pair (s : State) (h : FlitHdr) : (s.taken h).pair = s.pair.took h := rfl

theorem State.regN_taken_other (s : State) (h : FlitHdr) {o : Nat} (ho : o ≠ Reg.pairFlitsRx) : (s.taken h).regN o = s.regN o :=
  congrArg BitVec.toNat (State.reg_setReg_other _ _ ho)

/-- A flit that the link takes acts on the state that took it; with no descriptor of the partner waiting, that is all. -/
theorem State.accepts.goodFlit {s : State} {h : FlitHdr} (ha : s.accepts h) {run : State → State}
    (hw : (run (s.taken h)).drainFwd [] (run (s.taken h)).pair.forwarded = run (s.taken h)) : s.goodFlit h run = run (s.taken h) := by
  obtain ⟨hpower, hpart, hstate, hseq, -⟩ := ha
  rw [State.goodFlit, if_neg (by simp [hpower, hpart, hstate]), if_neg fun k => k.2 (hseq k.1)]
  exact hw

theorem State.drainFwd_of_nil {s : State} (h : s.pair.forwarded = []) : s.drainFwd [] s.pair.forwarded = s := by
  rw [h]
  rfl

/-- A command that is a taken flit answers the state in which the flit acted. -/
theorem State.accepts.answers {s : State} {h : FlitHdr} (ha : s.accepts h) {c : Instr} {run : State → State} {P : State → Prop}
    {t : State} (hc : exec c s = .next (s.goodFlit h run)) (hrun : run (s.taken h) = t) (hw : t.pair.forwarded = []) (hP : P t) :
    Answers c s P := by
  subst hrun
  exact ⟨_, hc, (ha.goodFlit (State.drainFwd_of_nil hw)).symm ▸ hP⟩

theorem State.accepts.forwarded {s : State} {h : FlitHdr} (ha : s.accepts h) : s.pair.forwarded = [] := ha.2.2.2.2

/-- Pairs of one role agree on everything that is read off the role. -/
theorem Pair.eq_of_role {α : Type} (f : Pair → α) (hf : ∀ p, f p.role = f p) {p q : Pair} (h : p.role = q.role) : f p = f q := by
  rw [← hf p, h, hf q]

theorem State.goodFlit_of_apart {s : State} (hj : s.pair.state ≠ .joining) (hp : s.pair.state ≠ .paired) (h : FlitHdr)
    (run : State → State) : s.goodFlit h run = s :=
  if_pos (.inr (.inr (not_or.2 ⟨hj, hp⟩)))

/-! ## Flits that failed (R412) -/

/-- A failure counted and answered with NAK. -/
def State.nakSent (s : State) (n : Nat) : State := (s.withPair { s.pair with failures := n }).sendFlit 1 0 []

theorem State.nakSent_out (s : State) (n : Nat) : (s.nakSent n).out = .flit (s.pair.seqTx + 1) s.pair.seqRx 1 0 [] :: s.out := rfl

theorem State.nakSent_srcs (s : State) (n : Nat) : (s.nakSent n).flt.srcs = s.flt.srcs := rfl

theorem State.nakSent_frame (s : State) (n : Nat) : Only [.regs, .pair, .role, .out] s (s.nakSent n) :=
  State.sendFlit_only (only_withPair (Only.refl _ s) rfl (.inl rfl)) rfl _ _ _

theorem State.badFlit_first (s : State) : s.badFlit false = s.nakSent 1 := rfl

theorem State.badFlit_again (s : State) :
    s.badFlit true = if 4 ≤ s.pair.failures + 1 then (s.nakSent (s.pair.failures + 1)).linkLost 2 else s.nakSent (s.pair.failures + 1) :=
  rfl

theorem exec_flitError {s : State} (hl : s.pair.link = true) (again : Bool) : exec (.flitError again) s = .next (s.badFlit again) :=
  if_pos hl

/-- A flit out of order is a flit that failed. -/
theorem exec_flitIdle_outOfOrder {s : State} {h : FlitHdr} (hpower : s.gcs.pwrgd = true) (hpart : Config.hasPair s.part = true)
    (hstate : s.pair.state = .joining ∨ s.pair.state = .paired) (hl : s.pair.link = true) (hseq : h.seq ≠ s.pair.seqRx + 1) :
    exec (.flitIdle h) s = .next (s.nakSent 1) := by
  show execFlitIdle h s = _
  rw [execFlitIdle, State.goodFlit, if_neg (by simp [hpower, hpart, hstate]), if_pos ⟨hl, hseq⟩, State.badFlit_first]

/-! ## The link lost (R406, R412) -/

/-- The link down and its training gone. -/
def Pair.down (p : Pair) : Pair := { p with link := false, lanesUp := 0, lanesHigh := false, failures := 0, nakRun := 0 }

/-- The pair once the link is lost: in PAIRED the partner is probed. -/
def Pair.lost (p : Pair) : Pair := { p.down with probing := p.probing || decide (p.state = .paired) }

/-- The loss of the link, as a fault that has been raised and a probe that leaves in PAIRED for a partner with a known address. -/
theorem State.linkLost_of_link {s : State} (hl : s.pair.link = true) (detail : Byte) : s.linkLost detail =
    let t := (s.withPair s.pair.down).raise 0xD1 .warn detail
    if t.pair.state ≠ .paired then t
    else if t.pair.partnerValid then
      (t.withPair { t.pair with probing := true }).originate 0x08 [BitVec.ofNat 8 (ofBool t.pair.side)]
    else t.withPair { t.pair with probing := true } := by
  rw [State.linkLost, if_neg (by simp [hl])]
  rfl

theorem State.role_raised_down (s : State) (detail : Byte) :
    ((s.withPair s.pair.down).raise 0xD1 .warn detail).pair.role = s.pair.down.role :=
  State.raise_low (s.withPair s.pair.down) 0xD1 .warn detail (.inr rfl) .role (by decide)

/-- Of the pair's role, only the link and the probe change. -/
theorem State.role_linkLost {s : State} (hl : s.pair.link = true) (detail : Byte) : (s.linkLost detail).pair.role = s.pair.lost.role := by
  have hrole := s.role_raised_down detail
  rw [State.linkLost_of_link hl]
  generalize (s.withPair s.pair.down).raise 0xD1 .warn detail = t at hrole
  have hstate : t.pair.state = s.pair.state := Pair.eq_of_role (q := s.pair.down) Pair.state (fun _ => rfl) hrole
  have hprobed : Pair.role { t.pair with probing := true } = Pair.role { s.pair.down with probing := true } :=
    congrArg (fun p : Pair => { p with probing := true }) hrole
  dsimp only
  by_cases hp : s.pair.state = .paired
  · rw [if_neg (not_not.2 (hstate.trans hp)), Pair.lost, decide_eq_true hp, Bool.or_true]
    split
    · exact hprobed
    · exact hprobed
  · rw [if_pos (fun k => hp (hstate.symm.trans k)), Pair.lost, decide_eq_false hp, Bool.or_false]
    exact hrole

theorem State.link_linkLost {s : State} (hl : s.pair.link = true) (detail : Byte) : (s.linkLost detail).pair.link = false :=
  Pair.eq_of_role Pair.link (fun _ => rfl) (State.role_linkLost hl detail)

theorem exec_pairLinkDown (s : State) (detail : Byte) : exec (.pairLinkDown detail) s = .next (s.linkLost detail) := rfl

/-- 0xD1 is raised with the cause. -/
theorem State.faulted_linkLost {s u : State} (hu : u.flt.srcs = s.flt.srcs) (hl : u.pair.link = true) (detail : Byte) :
    s.Faulted (u.linkLost detail) 0xD1 detail := by
  have hraised : s.Faulted ((u.withPair u.pair.down).raise 0xD1 .warn detail) 0xD1 detail :=
    .raise (State.src_of_sources (by exact hu) _) .warn detail (by decide) (by decide) (by decide)
  refine hraised.of_src (State.src_of_sources ?_ _)
  rw [State.linkLost_of_link hl]
  dsimp only
  split
  · rfl
  · split
    · rfl
    · rfl

/-- In PAIRED a partner with a known chain address is probed. -/
theorem State.probe_mem_linkLost {s : State} (hl : s.pair.link = true) (hp : s.pair.state = .paired) (hv : s.pair.partnerValid = true)
    (detail : Byte) : ∃ seq, Out.chainFrame 8 seq [BitVec.ofNat 8 (ofBool s.pair.side)] ∈ (s.linkLost detail).out := by
  have hrole := s.role_raised_down detail
  rw [State.linkLost_of_link hl]
  generalize (s.withPair s.pair.down).raise 0xD1 .warn detail = t at hrole
  have hstate : t.pair.state = .paired := (Pair.eq_of_role Pair.state (fun _ => rfl) hrole).trans hp
  have hvalid : t.pair.partnerValid = true := (Pair.eq_of_role Pair.partnerValid (fun _ => rfl) hrole).trans hv
  have hside : t.pair.side = s.pair.side := Pair.eq_of_role (q := s.pair.down) Pair.side (fun _ => rfl) hrole
  dsimp only
  rw [if_neg (not_not.2 hstate), if_pos hvalid, hside]
  exact ⟨t.chn.origSeq, .head _⟩

/-- A command that loses the link. -/
theorem answers_of_linkLost {c : Instr} {s u : State} {detail : Byte} (hc : exec c s = .next (u.linkLost detail))
    (hu : u.flt.srcs = s.flt.srcs) (hl : u.pair.link = true) :
    Answers c s (fun t => t.pair.link = false ∧ s.Faulted t 0xD1 detail) :=
  ⟨_, hc, State.link_linkLost hl detail, State.faulted_linkLost hu hl detail⟩

/-! ## Lanes (R410, R420) -/

theorem exec_pairLaneRetrain_first {s : State} (hl : s.pair.link = true) (h8 : s.pair.lanesUp = 8) (lane : BitVec 3) :
    exec (.pairLaneRetrain lane) s =
      .next ((s.withPair { s.pair with lanesUp := 4, lanesHigh := decide (lane.toNat < 4) }).raise 0xD0 .note 4) := by
  show execPairLaneRetrain lane s = _
  rw [execPairLaneRetrain, if_neg (by simp [hl, Pair.usesLane, h8]), if_pos h8]

theorem exec_pairLaneRetrain_second {s : State} {lane : BitVec 3} (hl : s.pair.link = true) (h4 : s.pair.lanesUp = 4)
    (hused : decide (4 ≤ lane.toNat) = s.pair.lanesHigh) : exec (.pairLaneRetrain lane) s = .next (s.linkLost 3) := by
  show execPairLaneRetrain lane s = _
  rw [execPairLaneRetrain, if_neg (by simp [hl, Pair.usesLane, h4, hused]), if_neg (by simp [h4])]

theorem answers_pairLaneRetrain_first {s : State} (hl : s.pair.link = true) (h8 : s.pair.lanesUp = 8) (lane : BitVec 3) :
    Answers (.pairLaneRetrain lane) s (fun t => t.pair.lanesUp = 4 ∧ t.pair.lanesHigh = decide (lane.toNat < 4) ∧ t.pair.link = true ∧
      s.Faulted t 0xD0 4) := by
  have hrole := State.raise_low (s.withPair { s.pair with lanesUp := 4, lanesHigh := decide (lane.toNat < 4) }) 0xD0 .note 4 (.inl rfl)
    .role (by decide)
  exact ⟨_, exec_pairLaneRetrain_first hl h8 lane, Pair.eq_of_role Pair.lanesUp (fun _ => rfl) hrole,
    Pair.eq_of_role Pair.lanesHigh (fun _ => rfl) hrole, (Pair.eq_of_role Pair.link (fun _ => rfl) hrole).trans hl,
    .raise rfl .note 4 (by decide) (by decide) (by decide)⟩

/-! ## Sent flits that go again (R412) -/

/-- One sent flit sent again. -/
def State.resend (s : State) (f : BitVec 12 × Nat × Nat × Bytes) : State :=
  (s.count32 Reg.pairReplays 1).emit (.flit f.1 s.pair.seqRx f.2.1 f.2.2.1 f.2.2.2)

theorem State.foldl_resend_frame (l : List (BitVec 12 × Nat × Nat × Bytes)) (s : State) :
    Only [.regs, .out] s (l.foldl State.resend s) :=
  only_foldl (Only.refl _ s) fun _ _ h => State.emit_only (State.count32_only h rfl _ _) rfl _

theorem State.foldl_resend_suffix (l : List (BitVec 12 × Nat × Nat × Bytes)) (s : State) : s.out <:+ (l.foldl State.resend s).out := by
  induction l generalizing s with
  | nil => exact List.suffix_rfl
  | cons f l ih => exact (List.suffix_cons ..).trans (ih (s.resend f))

theorem State.mem_foldl_resend {l : List (BitVec 12 × Nat × Nat × Bytes)} {f : BitVec 12 × Nat × Nat × Bytes} (h : f ∈ l)
    (s : State) :
    Out.flit f.1 s.pair.seqRx f.2.1 f.2.2.1 f.2.2.2 ∈ (l.foldl State.resend s).out := by
  induction l generalizing s with
  | nil => cases h
  | cons g l ih =>
    rcases List.mem_cons.1 h with rfl | hl
    · exact (State.foldl_resend_suffix l (s.resend f)).subset (.head _)
    · exact ih hl (s.resend g)

/-- A NAK counted against the sent flit that it asks for. -/
def State.nakTaken (s : State) (ack : BitVec 12) (n : Nat) : State := s.withPair { s.pair with nakSeq := ack, nakRun := n }

theorem State.replayFlits_new {s : State} {ack : BitVec 12} (h : ¬ (s.pair.nakRun ≠ 0 ∧ s.pair.nakSeq = ack)) :
    s.replayFlits ack = s.pair.replayBuf.foldl State.resend (s.nakTaken ack 1) := by
  rw [State.replayFlits, if_neg h]
  rfl

theorem State.replayFlits_fourth {s : State} {ack : BitVec 12} (hrun : s.pair.nakRun = 3) (hseq : s.pair.nakSeq = ack) :
    s.replayFlits ack = (s.nakTaken ack 4).linkLost 2 := by
  have hn : (if s.pair.nakRun ≠ 0 ∧ s.pair.nakSeq = ack then s.pair.nakRun + 1 else 1) = 4 := by
    rw [if_pos ⟨by omega, hseq⟩, hrun]
  rw [State.replayFlits, hn]
  rfl

section Nak

variable {s : State} {h : FlitHdr} (ha : s.accepts h)
include ha

theorem answers_flitNak_new (hn : ¬ (s.pair.nakRun ≠ 0 ∧ s.pair.nakSeq = h.ack)) :
    Answers (.flitNak h) s (fun t => t.pair = { s.pair.took h with nakSeq := h.ack, nakRun := 1 } ∧
      (∀ f ∈ ackTrim h.ack s.pair.replayBuf, Out.flit f.1 h.seq f.2.1 f.2.2.1 f.2.2.2 ∈ t.out) ∧
      Only [.regs, .pair, .role, .out] s t) := by
  have hnew : (s.taken h).replayFlits h.ack = (s.pair.took h).replayBuf.foldl State.resend ((s.taken h).nakTaken h.ack 1) :=
    State.replayFlits_new hn
  have hframe := State.foldl_resend_frame (s.pair.took h).replayBuf ((s.taken h).nakTaken h.ack 1)
  have hpair := hframe .pair (by decide)
  have htaken : Only [.regs, .pair, .role, .out] s ((s.taken h).nakTaken h.ack 1) :=
    only_withPair (s.taken_only h rfl) rfl (.inl rfl)
  exact ha.answers rfl hnew ((congrArg Pair.forwarded hpair).trans ha.forwarded)
    ⟨hpair, fun f hf => State.mem_foldl_resend hf _, htaken.trans (hframe.mono rfl)⟩

theorem answers_flitNak_fourth (hrun : s.pair.nakRun = 3) (hseq : s.pair.nakSeq = h.ack) :
    Answers (.flitNak h) s (fun t => t.pair.link = false ∧ s.Faulted t 0xD1 2) := by
  have hfourth : (s.taken h).replayFlits h.ack = ((s.taken h).nakTaken h.ack 4).linkLost 2 := State.replayFlits_fourth hrun hseq
  have hrole := State.role_linkLost (s := (s.taken h).nakTaken h.ack 4) rfl 2
  exact ha.answers rfl hfourth ((Pair.eq_of_role Pair.forwarded (fun _ => rfl) hrole).trans ha.forwarded)
    ⟨Pair.eq_of_role Pair.link (fun _ => rfl) hrole, State.faulted_linkLost (by rfl) rfl 2⟩

end Nak

/-- Settles O57: the equation of the link in each of its cases, and what losing the link leaves. -/
theorem flitsAreTakenInOrder : Obligations.FlitsAreTakenInOrder := by
  unfold Obligations.FlitsAreTakenInOrder
  refine ⟨?idle, ?apart, ?outOfOrder, ?nak, ?nakFourth, ?error, ?errorFourth, ?downPaired, ?downApart, ?laneFirst, ?laneSecond⟩
  case idle =>
    intro h s ha
    exact ha.answers rfl rfl ha.forwarded ⟨rfl, State.regN_count64 .., s.taken_only h rfl⟩
  case apart =>
    intro h s hj hp
    exact ⟨s, congrArg _ (State.goodFlit_of_apart hj hp h _), rfl⟩
  case outOfOrder =>
    intro h s hpower hpart hstate hl hseq
    exact ⟨_, exec_flitIdle_outOfOrder hpower hpart hstate hl hseq, rfl, rfl, hl, s.nakSent_out 1 ▸ .head _, s.nakSent_frame 1⟩
  case nak => exact fun _ _ ha hn => answers_flitNak_new ha hn
  case nakFourth => exact fun _ _ ha hrun hseq => answers_flitNak_fourth ha hrun hseq
  case error =>
    intro s hl hn
    refine ⟨s.nakSent (s.pair.failures + 1), ?_, rfl, hl, s.nakSent_out _ ▸ .head _, s.nakSent_frame _⟩
    rw [exec_flitError hl, State.badFlit_again, if_neg (by omega)]
  case errorFourth =>
    intro s hl hn
    have hexec : exec (.flitError true) s = .next ((s.nakSent (s.pair.failures + 1)).linkLost 2) := by
      rw [exec_flitError hl, State.badFlit_again, if_pos (by omega)]
    have hlink : (s.nakSent (s.pair.failures + 1)).pair.link = true := hl
    have hrole := State.role_linkLost hlink 2
    exact ⟨_, hexec, Pair.eq_of_role Pair.link (fun _ => rfl) hrole, Pair.eq_of_role Pair.failures (fun _ => rfl) hrole,
      State.faulted_linkLost (s.nakSent_srcs _) hlink 2⟩
  case downPaired =>
    intro detail s hl hp hv
    have hrole := State.role_linkLost hl detail
    exact ⟨_, exec_pairLinkDown s detail, Pair.eq_of_role Pair.link (fun _ => rfl) hrole,
      Pair.eq_of_role Pair.lanesUp (fun _ => rfl) hrole,
      (Pair.eq_of_role Pair.probing (fun _ => rfl) hrole).trans (by simp [Pair.lost, Pair.down, hp]),
      State.probe_mem_linkLost hl hp hv detail, State.faulted_linkLost rfl hl detail⟩
  case downApart =>
    intro detail s hl hp
    have hrole := State.role_linkLost hl detail
    exact ⟨_, exec_pairLinkDown s detail, Pair.eq_of_role Pair.link (fun _ => rfl) hrole,
      (Pair.eq_of_role Pair.state (fun _ => rfl) hrole).trans rfl,
      (Pair.eq_of_role Pair.probing (fun _ => rfl) hrole).trans (by simp [Pair.lost, Pair.down, hp]),
      State.faulted_linkLost rfl hl detail⟩
  case laneFirst => exact fun lane _ hl h8 => answers_pairLaneRetrain_first hl h8 lane
  case laneSecond => exact fun _ _ hl h4 hused => answers_of_linkLost (exec_pairLaneRetrain_second hl h4 hused) rfl hl

end Sys2Proof.Machine
end

section
/-! PROOFS. What the flits of a pair carry (spec/14_pair_and_chain.md R397, R401 to R405; spec/04_the_log.md R112): units of the mirror
half, acknowledged records, descriptors and entries that one side forwards to the other, seals, the token, and the statement about them. -/

namespace Sys2Proof.Machine

/-! ## The mirror half (R402, R403) -/

/-- One unit kept at its position in the mirror half. -/
def State.unitKept (s : State) (pos : Nat) (u : Bytes) : State :=
  s.withPair { s.pair with mirrorUnits := Tab.set s.pair.mirrorUnits [] (pos % s.halfUnits) u }

theorem State.get_unitKept (s : State) (pos : Nat) (u : Bytes) :
    Tab.get (s.unitKept pos u).pair.mirrorUnits [] (pos % s.halfUnits) = u := Tab.get_set_self ..

/-- While the mirror half holds no record, any unit may be a header (R140). -/
theorem headerPlace_of_empty {p : Pair} (hm : p.mirror = []) (f : Rec → Nat) : (p.mirror.getLast?.map f).isNone = true := by
  rw [hm]
  rfl

theorem State.mirrorUnit_of_no_header {s : State} {pos : Nat} {u : Bytes} (hm : s.pair.mirror = [])
    (hu : recHeader u (pos % s.halfUnits) = none) : s.mirrorUnit pos u = s.unitKept pos u := by
  unfold State.mirrorUnit
  dsimp only
  rw [if_pos (.inl (headerPlace_of_empty hm _)), hu]
  rfl

/-- A record joined the mirror half with its unit. -/
def State.recordKept (s : State) (pos : Nat) (u : Bytes) (r : Rec) : State :=
  (s.unitKept pos u).withPair { (s.unitKept pos u).pair with mirror := s.pair.mirror ++ [r] }

theorem State.mirrorUnit_of_header {s : State} {pos : Nat} {u : Bytes} {r : Rec} (hm : s.pair.mirror = [])
    (hu : recHeader u (pos % s.halfUnits) = some r) (h1 : r.units = 1) :
    s.mirrorUnit pos u = (s.recordKept pos u r).mirrorDone r := by
  unfold State.mirrorUnit
  dsimp only
  rw [if_pos (.inl (headerPlace_of_empty hm _)), hu]
  exact if_pos h1

/-- A record that is durable in the mirror half is acknowledged. -/
theorem State.mirrorDone_out (s : State) (r : Rec) :
    (s.mirrorDone r).out = .flit (s.pair.seqTx + 1) s.pair.seqRx 3 r.seq (leBytes 8 r.seq) :: s.out := rfl

theorem State.mirrorDone_mirrorUnits (s : State) (r : Rec) : (s.mirrorDone r).pair.mirrorUnits = s.pair.mirrorUnits := rfl

theorem State.mirrorDone_forwarded (s : State) (r : Rec) : (s.mirrorDone r).pair.forwarded = s.pair.forwarded := rfl

section Mirror

variable {s : State} {h : FlitHdr} {position : Word64} {u : Bytes} (ha : s.accepts h) (hp : s.pair.state = .paired)
  (hm : s.pair.mirror = [])
include ha hp hm

theorem answers_flitMirror_unit (hu : recHeader u (position.toNat % s.halfUnits) = none) :
    Answers (.flitMirror h position [u]) s (fun t => Tab.get t.pair.mirrorUnits [] (position.toNat % s.halfUnits) = u ∧
      t.pair.mirror = [] ∧ Only [.regs, .pair, .role] s t) := by
  have hrun : (if (s.taken h).pair.state = .paired then (s.taken h).mirrorRun position.toNat ([u].take 3) else s.taken h) =
      (s.taken h).unitKept position.toNat u := (if_pos hp).trans (State.mirrorUnit_of_no_header (s := s.taken h) hm hu)
  exact ha.answers rfl hrun ha.forwarded
    ⟨State.get_unitKept .., hm, only_withPair (s.taken_only h rfl) rfl (.inl rfl)⟩

theorem answers_flitMirror_record {r : Rec} (hu : recHeader u (position.toNat % s.halfUnits) = some r) (h1 : r.units = 1) :
    Answers (.flitMirror h position [u]) s (fun t =>
      (∃ ack, Out.flit (s.pair.seqTx + 1) ack 3 r.seq (leBytes 8 r.seq) ∈ t.out) ∧
      Tab.get t.pair.mirrorUnits [] (position.toNat % s.halfUnits) = u) := by
  have hrun : (if (s.taken h).pair.state = .paired then (s.taken h).mirrorRun position.toNat ([u].take 3) else s.taken h) =
      ((s.taken h).recordKept position.toNat u r).mirrorDone r :=
    (if_pos hp).trans (State.mirrorUnit_of_header (s := s.taken h) hm hu h1)
  have hsent := State.mirrorDone_out ((s.taken h).recordKept position.toNat u r) r
  exact ha.answers rfl hrun ((State.mirrorDone_forwarded ..).trans ha.forwarded)
    ⟨⟨h.seq, hsent ▸ .head _⟩, (congrArg (Tab.get · [] _) (State.mirrorDone_mirrorUnits ..)).trans ((s.taken h).get_unitKept ..)⟩

end Mirror

/-! ## Records of the partner copy (R403, R404) -/

/-- The listed records that are being written are durable at the partner. -/
def State.mirrored (s : State) (seqs : List Nat) : State :=
  s.withLog { s.log with
    recs := s.log.recs.map fun r => if r.seq ∈ seqs ∧ r.status = .writing then { r with partner := true } else r }

theorem State.mem_mirrored {s : State} {seqs : List Nat} {r : Rec} (hr : r ∈ s.log.recs) (hs : r.seq ∈ seqs)
    (hw : r.status = .writing) : { r with partner := true } ∈ (s.mirrored seqs).log.recs :=
  List.mem_map.2 ⟨r, hr, if_pos ⟨hs, hw⟩⟩

/-- The records that commit once they are durable at the partner: those durable here (R403). -/
def State.durableHere (s : State) (seqs : List Nat) : List Rec :=
  s.log.recs.filter fun r => decide (r.seq ∈ seqs) && decide (r.status = .writing) && r.localDone

theorem State.partnerDurable_eq (s : State) (seqs : List Nat) : s.partnerDurable seqs =
    (((s.mirrored seqs).durableHere seqs).foldl (fun t r => t.commitRecord r) (s.mirrored seqs)).evalLog := rfl

/-- Records that are not durable here yet wait. -/
theorem State.partnerDurable_waiting {s : State} {seqs : List Nat} (h : ∀ r ∈ s.log.recs, r.seq ∈ seqs → r.localDone = false) :
    s.partnerDurable seqs = (s.mirrored seqs).evalLog := by
  have hnone : (s.mirrored seqs).durableHere seqs = [] := by
    rw [State.durableHere, List.filter_eq_nil_iff]
    intro q hq
    obtain ⟨r, hr, rfl⟩ := List.mem_map.1 hq
    have hlocal := h r hr
    split <;> simp_all
  rw [State.partnerDurable_eq, hnone]
  rfl

theorem State.evalLog_forwarded (s : State) : s.evalLog.pair.forwarded = s.pair.forwarded :=
  Pair.eq_of_role Pair.forwarded (fun _ => rfl) (s.evalLog_frame .role (by decide))

theorem answers_flitMirrorAck {s : State} {h : FlitHdr} {seqs : List Word64} (ha : s.accepts h)
    (hlocal : ∀ r ∈ s.log.recs, BitVec.ofNat 64 r.seq ∈ seqs → r.localDone = false) (hseq : ∀ r ∈ s.log.recs, r.seq < 2 ^ 64)
    (hasks : s.scc.asks = []) :
    Answers (.flitMirrorAck h seqs) s (fun t => ∀ r ∈ s.log.recs, BitVec.ofNat 64 r.seq ∈ seqs → r.status = .writing →
      { r with partner := true } ∈ t.log.recs) := by
  have hlisted {n : Nat} (hn : n < 2 ^ 64) : n ∈ seqs.map (fun q => q.toNat) ↔ BitVec.ofNat 64 n ∈ seqs := by
    rw [List.mem_map]
    constructor
    · rintro ⟨q, hq, rfl⟩
      rwa [BitVec.ofNat_toNat, BitVec.setWidth_eq]
    · exact fun hq => ⟨_, hq, (BitVec.toNat_ofNat ..).trans (Nat.mod_eq_of_lt hn)⟩
  have hrun : (s.taken h).partnerDurable (seqs.map fun q => q.toNat) = ((s.taken h).mirrored (seqs.map fun q => q.toNat)).evalLog :=
    State.partnerDurable_waiting fun r hr hs => hlocal r hr ((hlisted (hseq r hr)).1 hs)
  exact ha.answers rfl hrun ((State.evalLog_forwarded _).trans ha.forwarded) fun r hr hs hw =>
    (State.evalLog_grew (s := (s.taken h).mirrored _) hasks).recs _
      (State.mem_mirrored (s := s.taken h) hr ((hlisted (hseq r hr)).2 hs) hw)

/-! ### A seal record that commits (R112, R403) -/

/-- Without DATA records there is nothing to commit to the stripes (R131). -/
theorem State.stripeCommit_of_no_data {s : State} (h : ∀ r ∈ s.log.recs, r.typ ≠ .data) (set : BitVec 6) (stripe first count : Nat) :
    s.stripeCommit set stripe first count = s := by
  have hopen (row : Nat) : s.openData set stripe row = [] := by
    rw [State.openData, List.filter_eq_nil_iff]
    intro r hr
    simp [h r hr]
  have hplan (row : Nat) : s.rowPlan set stripe row = none := by
    rw [State.rowPlan, hopen]
    split <;> rfl
  have hplans (l : List Nat) : l.filterMap (fun row => s.rowPlan set stripe row) = [] := by simp [hplan]
  unfold State.stripeCommit
  dsimp only
  split
  · rfl
  · rw [hplans]
    rfl

theorem State.answerAsks_of_no_data {s : State} (h : ∀ r ∈ s.log.recs, r.typ ≠ .data) :
    s.answerAsks = s.withScc { s.scc with asks := [] } := by
  have hfold (l : List LineKey) (t : State) (ht : ∀ r ∈ t.log.recs, r.typ ≠ .data) :
      l.foldl (fun t k => t.stripeCommit k.set k.stripe k.row 1) t = t := by
    induction l with
    | nil => rfl
    | cons k l ih => rw [List.foldl_cons, State.stripeCommit_of_no_data ht, ih]
  exact hfold _ _ h

/-- Without DATA records, evaluating the Log keeps its records and reports at most a fault. -/
theorem State.evalLog_of_no_data {s : State} (h : ∀ r ∈ s.log.recs, r.typ ≠ .data) :
    LogGrew s s.evalLog ∧ Reported s s.evalLog := by
  have hasks := State.answerAsks_of_no_data h
  refine ⟨.trans (.of_log ?_) s.evalLog_grew_answerAsks, ?_⟩
  · rw [hasks]
    rfl
  · have hmarked (b c : Bool) : Reported s (s.answerAsks.withLog { s.answerAsks.log with full := b, paced := c }) := by
      rw [hasks]
      exact .of_regs rfl rfl List.suffix_rfl
    simp only [State.evalLog]
    split
    · exact (hmarked _ _).trans (State.raise_reported _ _ _ (.inl rfl))
    · exact hmarked _ _

/-- The writes that waited for a seal record no longer wait (R127). -/
def State.sealTold (s : State) (r : Rec) : State :=
  s.withIos (s.ios.map fun io =>
    if io.waitSeal ∧ io.watch.toNat ≤ r.watch.toNat then
      { io with waitSeal := false, committed := io.committed || io.waitRecs.isEmpty } else io)

/-- The SEALED DATA records whose stripe commits waited for a seal record (R127). -/
def State.sealedRows (s : State) (r : Rec) : List Rec :=
  s.log.recs.filter fun q => q.typ = .data && q.sealedAck && q.status = .committed && !q.retired &&
    decide (q.watch.toNat ≤ r.watch.toNat) && s.throughOf q

theorem State.commitRecord_seal {s : State} {r : Rec} (ht : r.typ = .sealRec) : s.commitRecord r =
    ((((s.markCommitted r).sealTold r).sealedRows r).foldl (fun t q => t.stripeCommit q.set q.stripe q.rowFirst q.rowCount)
      ((s.markCommitted r).sealTold r)).finishWrites := by
  unfold State.commitRecord
  simp only [ht]
  rfl

theorem State.sealTold_of_no_ios {s : State} (h : s.ios = []) (r : Rec) : s.sealTold r = s := by
  have hios : s.withIos s.ios = s := rfl
  rw [State.sealTold, h, List.map_nil, ← h, hios]

theorem State.finishWrites_of_no_ios {s : State} (h : s.ios = []) : s.finishWrites = s := by
  rw [State.finishWrites, h]
  rfl

/-- Alone in the Log, with no write outstanding, a seal record is committed and counted, and nothing else. -/
theorem State.commitRecord_seal_alone {s : State} {r : Rec} (ht : r.typ = .sealRec) (hios : s.ios = [])
    (hdata : ∀ q ∈ s.log.recs, q.typ ≠ .data) : s.commitRecord r = s.markCommitted r := by
  have hmarked : (s.markCommitted r).ios = [] := hios
  have hrows : (s.markCommitted r).sealedRows r = [] := by
    rw [State.sealedRows, List.filter_eq_nil_iff]
    intro q hq
    obtain ⟨p, hp, rfl⟩ := List.mem_map.1 hq
    have hp := hdata p hp
    split <;> simp [hp]
  rw [State.commitRecord_seal ht, State.sealTold_of_no_ios hmarked, hrows]
  exact State.finishWrites_of_no_ios hmarked

/-- A seal record that is durable here, committed by its partner copy. -/
def State.sealDurable (s : State) (r : Rec) : State := (s.mirrored [r.seq]).markCommitted { r with partner := true }

section Seal

variable {s : State} {r : Rec} (hrecs : s.log.recs = [r]) (hw : r.status = .writing)
include hrecs hw

theorem State.mirrored_alone : (s.mirrored [r.seq]).log.recs = [{ r with partner := true }] := by
  simp [State.mirrored, hrecs, hw]

theorem State.sealDurable_recs : (s.sealDurable r).log.recs = [{ r with partner := true, status := .committed }] := by
  show (s.mirrored [r.seq]).log.recs.map _ = _
  rw [State.mirrored_alone hrecs hw, List.map_singleton, if_pos rfl]

theorem State.partnerDurable_seal (ht : r.typ = .sealRec) (hlocal : r.localDone = true) (hios : s.ios = []) :
    s.partnerDurable [r.seq] = (s.sealDurable r).evalLog := by
  have hone := State.mirrored_alone hrecs hw
  have hdurable : (s.mirrored [r.seq]).durableHere [r.seq] = [{ r with partner := true }] := by
    simp [State.durableHere, hone, hw, hlocal]
  have hdata : ∀ q ∈ (s.mirrored [r.seq]).log.recs, q.typ ≠ .data := by simp [hone, ht]
  rw [State.partnerDurable_eq, hdurable, List.foldl_cons, List.foldl_nil,
    State.commitRecord_seal_alone (by exact ht) (by exact hios) hdata]
  rfl

end Seal

theorem answers_flitMirrorAck_seal {s : State} {h : FlitHdr} {r : Rec} (ha : s.accepts h) (hrecs : s.log.recs = [r])
    (hseq : r.seq < 2 ^ 64) (ht : r.typ = .sealRec) (hw : r.status = .writing) (hlocal : r.localDone = true) (hios : s.ios = []) :
    Answers (.flitMirrorAck h [BitVec.ofNat 64 r.seq]) s (fun t =>
      { r with partner := true, status := .committed } ∈ t.log.recs ∧
      t.regN Reg.logCommits = (s.regN Reg.logCommits + 1) % 2 ^ 64) := by
  have htaken : (s.taken h).log.recs = [r] := hrecs
  have hnat : [BitVec.ofNat 64 r.seq].map (fun q => q.toNat) = [r.seq] := by
    rw [List.map_singleton, BitVec.toNat_ofNat, Nat.mod_eq_of_lt hseq]
  have hrun : (s.taken h).partnerDurable ([BitVec.ofNat 64 r.seq].map fun q => q.toNat) = ((s.taken h).sealDurable r).evalLog := by
    rw [hnat, State.partnerDurable_seal htaken hw ht hlocal hios]
  have hone := State.sealDurable_recs htaken hw
  have hdata : ∀ q ∈ ((s.taken h).sealDurable r).log.recs, q.typ ≠ .data := by
    rw [hone]
    simp [ht]
  obtain ⟨hgrew, hreported⟩ := State.evalLog_of_no_data hdata
  have hcount : ((s.taken h).sealDurable r).regN Reg.logCommits = ((s.taken h).regN Reg.logCommits + 1) % 2 ^ 64 :=
    State.regN_count64 ..
  refine ha.answers rfl hrun ((State.evalLog_forwarded _).trans ha.forwarded) ⟨hgrew.recs _ (hone ▸ .head _), ?_⟩
  rw [hreported.regN (by decide), hcount, s.regN_taken_other h (by decide)]

/-! ## Forwarded descriptors (R401) -/

theorem State.ringCfg_taken (s : State) (h : FlitHdr) (n : BitVec 10) : (s.taken h).ringCfg (.data n) = s.ringCfg (.data n) := by
  refine s.regN_taken_other h ?_
  have hn := n.isLt
  simp only [ringCtx, Reg.pairFlitsRx]
  omega

/-- The link takes a flit without a change to the entries that this side forwarded. -/
theorem State.awayIo_taken (s : State) (h : FlitHdr) (ref : Nat) : (s.taken h).awayIo ref = s.awayIo ref := by
  have href (n : BitVec 10) (d : Desc) : (s.taken h).awayRef n d = s.awayRef n d := by
    simp only [State.awayRef, State.ringN, s.ringCfg_taken h]
  simp only [State.awayIo, href]
  rfl

theorem State.finishIo_ios (s : State) (io : Io) (status detail : Byte) (lba count : Nat) :
    (s.finishIo io status detail lba count).ios = s.ios.filter (fun j => j.id ≠ io.id) :=
  (raised_ios (s.endIo_faults io status detail lba count)).trans (s.endIo_ios ..)

/-- Ending a descriptor leaves the descriptors of the partner that wait. -/
theorem State.finishIo_forwarded (s : State) (io : Io) (status detail : Byte) (lba count : Nat) :
    (s.finishIo io status detail lba count).pair.forwarded = s.pair.forwarded :=
  Pair.eq_of_role Pair.forwarded (fun _ => rfl)
    (State.finishIo_only (M := raiseParts) (Only.refl _ s) rfl io status detail lba count .role (by decide))

/-- A flit that ends a forwarded entry takes its descriptor out of the outstanding ones. -/
theorem State.accepts.answers_finishIo {s : State} {h : FlitHdr} (ha : s.accepts h) {c : Instr} {run : State → State}
    (hc : exec c s = .next (s.goodFlit h run)) {io : Io} {status detail : Byte}
    (hrun : run (s.taken h) = (s.taken h).finishIo io status detail io.desc.lba io.desc.blocks) :
    Answers c s (fun t => ∀ j ∈ t.ios, j.id ≠ io.id) := by
  refine ha.answers hc hrun ((State.finishIo_forwarded ..).trans ha.forwarded) fun j hj => ?_
  rw [State.finishIo_ios] at hj
  exact of_decide_eq_true (List.mem_filter.1 hj).2

theorem State.mem_setIo {s : State} {io j : Io} (h : io ∈ s.ios) (hid : io.id = j.id) : j ∈ (s.setIo j).ios :=
  List.mem_map.2 ⟨io, h, if_pos hid⟩

/-- A flit that replaces an outstanding I/O. -/
theorem State.accepts.answers_setIo {s : State} {h : FlitHdr} (ha : s.accepts h) {c : Instr} {run : State → State}
    (hc : exec c s = .next (s.goodFlit h run)) {io j : Io} (hio : io ∈ s.ios) (hid : io.id = j.id)
    (hrun : run (s.taken h) = (s.taken h).setIo j) :
    Answers c s (fun t => j ∈ t.ios ∧ Only [.regs, .pair, .role, .ios] s t) := by
  exact ha.answers hc hrun ha.forwarded ⟨State.mem_setIo (s := s.taken h) hio hid, State.setIo_only (s.taken_only h rfl) rfl j⟩

section Away

variable {s : State} {h : FlitHdr} {ref : Word64} {io : Io} (ha : s.accepts h) (hio : s.awayIo ref.toNat = some io)
include hio

theorem State.mem_of_awayIo : io ∈ s.ios := List.mem_of_find?_eq_some hio

include ha

theorem answers_flitFwdGrant_refused {status : Byte} (hst : status ≠ stOk) (detail : Byte) (watch : BitVec 48) (gen : Word32) :
    Answers (.flitFwdGrant h ref status detail watch gen) s (fun t => ∀ j ∈ t.ios, j.id ≠ io.id) := by
  refine ha.answers_finishIo (status := status) (detail := detail) rfl ?_
  rw [State.fwdGranted, s.awayIo_taken h, hio]
  exact if_pos hst

theorem answers_flitFwdGrant_ok (hk : io.kind ≠ .write) (detail : Byte) (watch : BitVec 48) (gen : Word32) :
    Answers (.flitFwdGrant h ref stOk detail watch gen) s (fun t =>
      { io with watch := watch, generation := gen } ∈ t.ios ∧ Only [.regs, .pair, .role, .ios] s t) := by
  refine ha.answers_setIo rfl (State.mem_of_awayIo hio) rfl ?_
  rw [State.fwdGranted, s.awayIo_taken h, hio]
  exact (if_neg (not_not.2 rfl)).trans (if_pos hk)

theorem answers_flitFwdData {data : Bytes} (hf : s.fwdIo ref.toNat = none) (hk : io.kind = .read) (hb : io.blocks = [])
    (h192 : data.length ≤ 192) (hlen : (io.inbound ++ data).length < io.desc.blocks * 4096) :
    Answers (.flitFwdData h ref data) s (fun t => { io with inbound := io.inbound ++ data } ∈ t.ios ∧
      Only [.regs, .pair, .role, .ios] s t) := by
  refine ha.answers_setIo rfl (State.mem_of_awayIo hio) rfl ?_
  have hf' : (s.taken h).fwdIo ref.toNat = none := hf
  rw [List.take_of_length_le h192, State.fwdBytes, hf']
  dsimp only
  rw [s.awayIo_taken h, hio]
  exact (if_neg (by simp [hk, hb])).trans (if_pos hlen)

theorem answers_flitFwdDone_ended {status : Byte} (he : status ≠ stOk ∨ io.kind ≠ .read) (detail : Byte) :
    Answers (.flitFwdDone h ref status detail) s (fun t => ∀ j ∈ t.ios, j.id ≠ io.id) := by
  refine ha.answers_finishIo (status := status) (detail := detail) rfl ?_
  rw [State.fwdEnded, s.awayIo_taken h, hio]
  exact if_neg (not_and_or.2 he)

theorem answers_flitFwdDone_read (hk : io.kind = .read) (detail : Byte) :
    Answers (.flitFwdDone h ref stOk detail) s (fun t => t.ios = s.ios ∧ Only [.regs, .pair, .role] s t) := by
  have hrun : (s.taken h).fwdEnded ref.toNat stOk detail = s.taken h := by
    rw [State.fwdEnded, s.awayIo_taken h, hio]
    exact if_pos ⟨rfl, hk⟩
  exact ha.answers rfl hrun ha.forwarded ⟨rfl, s.taken_only h rfl⟩

end Away

/-- A descriptor of the partner is not admitted before the controller runs (R401). -/
theorem State.tryFwd_recovery {s : State} {f : FwdDesc} (hr : s.gcs.phase = .recovery) (h1 : 1 ≤ (fwdDesc f).opcode.toNat)
    (h4 : (fwdDesc f).opcode.toNat ≤ 4) : s.tryFwd f = (s, false) := by
  have hop : (fwdDesc f).opcode.toNat = 1 ∨ (fwdDesc f).opcode.toNat = 2 ∨ (fwdDesc f).opcode.toNat = 3 ∨
      (fwdDesc f).opcode.toNat = 4 := by omega
  rw [State.tryFwd]
  dsimp only
  rcases hop with h | h | h | h <;> rw [h] <;> exact if_pos (.inr (.inr (.inl (by simp [hr]))))

/-- Forwarded descriptors that join those that wait for admission. -/
def State.queueFwd (s : State) (l : List FwdDesc) : State :=
  if s.pair.state = .paired then s.withPair { s.pair with forwarded := s.pair.forwarded ++ l.take 3 } else s

theorem exec_flitFwdDesc (h : FlitHdr) (l : List FwdDesc) (s : State) :
    exec (.flitFwdDesc h l) s = .next (s.goodFlit h fun t => t.queueFwd l) := rfl

theorem answers_flitFwdDesc {s : State} {h : FlitHdr} {f : FwdDesc} (ha : s.accepts h) (hp : s.pair.state = .paired)
    (hr : s.gcs.phase = .recovery) (h1 : 1 ≤ (fwdDesc f).opcode.toNat) (h4 : (fwdDesc f).opcode.toNat ≤ 4) :
    Answers (.flitFwdDesc h [f]) s (fun t => t.pair = { s.pair.took h with forwarded := [f] } ∧ Only [.regs, .pair, .role] s t) := by
  have hnone : (s.pair.took h).forwarded = [] := ha.forwarded
  have hqueue : (s.taken h).queueFwd [f] = (s.taken h).withPair { s.pair.took h with forwarded := [f] } := by
    rw [State.queueFwd, if_pos (by exact hp), s.taken_pair, hnone]
    rfl
  have hkept : ((s.taken h).queueFwd [f]).drainFwd [] ((s.taken h).queueFwd [f]).pair.forwarded = (s.taken h).queueFwd [f] := by
    rw [hqueue, State.withPair_pair, State.drainFwd, if_neg List.not_mem_nil, State.tryFwd_recovery (by exact hr) h1 h4]
    rfl
  refine ⟨_, exec_flitFwdDesc h [f] s, ?_⟩
  rw [ha.goodFlit (run := fun t => t.queueFwd [f]) hkept, hqueue]
  exact ⟨rfl, only_withPair (s.taken_only h rfl) rfl (.inl rfl)⟩

/-! ## Seals and the token (R397, R405) -/

theorem answers_flitSealReady {s : State} {h : FlitHdr} (ha : s.accepts h) (hp : s.pair.state = .paired)
    (hsealed : s.sealTarget ≤ s.wch.sealedWatch.toNat) (watch : BitVec 48) (holdover : Bool) :
    Answers (.flitSealReady h watch holdover) s (fun t =>
      t.wch.partnerReady = s.wch.partnerReady ++ [(watch, holdover)] ∧ t.log = s.log) := by
  have hseal (u : State) (hu : u.sealTarget ≤ u.wch.sealedWatch.toNat) : u.trySeal = u := if_pos hu
  have hrun : (if (s.taken h).pair.state = .paired then
      ((s.taken h).withWch { s.wch with partnerReady := s.wch.partnerReady ++ [(watch, holdover)] }).trySeal else s.taken h) =
      (s.taken h).withWch { s.wch with partnerReady := s.wch.partnerReady ++ [(watch, holdover)] } :=
    (if_pos hp).trans (hseal _ hsealed)
  exact ha.answers rfl hrun ha.forwarded ⟨rfl, rfl⟩

/-- A flit with the token and no page: this side gives the token up when it holds it, and takes it otherwise. -/
theorem exec_flitMeta_token (h : FlitHdr) (s : State) : exec (.flitMeta h true []) s = .next (s.goodFlit h fun t =>
    if t.pair.token then (t.withPair { t.pair with token := false }).sendFlit 9 0 [] else t.withPair { t.pair with token := true }) := rfl

/-- Settles O58: each flit has its lemma above. -/
theorem flitsCarryThePair : Obligations.FlitsCarryThePair := by
  unfold Obligations.FlitsCarryThePair
  refine ⟨?unit, ?record, ?ack, ?ackSeal, ?descs, ?refused, ?granted, ?data, ?ended, ?read, ?sealReady, ?takes, ?gives, ?page⟩
  case unit => exact fun _ _ _ _ ha hp hm hu _ => answers_flitMirror_unit ha hp hm hu
  case record => exact fun _ _ _ _ _ ha hp hm hu h1 => answers_flitMirror_record ha hp hm hu h1
  case ack => exact fun _ _ _ ha hlocal hseq hasks => answers_flitMirrorAck ha hlocal hseq hasks
  case ackSeal => exact fun _ _ _ ha hrecs hseq ht hw hlocal hios => answers_flitMirrorAck_seal ha hrecs hseq ht hw hlocal hios
  case descs => exact fun _ _ _ ha hp hr h1 h4 => answers_flitFwdDesc ha hp hr h1 h4
  case refused => exact fun _ _ _ detail watch gen _ _ ha hio hst => answers_flitFwdGrant_refused ha hio hst detail watch gen
  case granted => exact fun _ _ detail watch gen _ _ ha hio hk => answers_flitFwdGrant_ok ha hio hk detail watch gen
  case data => exact fun _ _ _ _ _ ha hf hio hk hb h192 hlen => answers_flitFwdData ha hio hf hk hb h192 hlen
  case ended => exact fun _ _ _ detail _ _ ha hio he => answers_flitFwdDone_ended ha hio he detail
  case read => exact fun _ _ detail _ _ ha hio hk => answers_flitFwdDone_read ha hio hk detail
  case sealReady => exact fun _ watch holdover _ ha hp hsealed => answers_flitSealReady ha hp hsealed watch holdover
  case takes =>
    intro h s ha htok
    have hnot : ¬ (s.taken h).pair.token = true := by simp [Pair.took, htok]
    exact ha.answers (exec_flitMeta_token h s) (if_neg hnot) ha.forwarded ⟨rfl, only_withPair (s.taken_only h rfl) rfl (.inl rfl)⟩
  case gives => exact fun h s ha htok => ha.answers (exec_flitMeta_token h s) (if_pos htok) ha.forwarded ⟨rfl, .head _⟩
  case page => exact fun h _ s ha => ha.answers rfl (if_pos (.inl rfl)) ha.forwarded ⟨rfl, s.taken_only h rfl⟩

end Sys2Proof.Machine
end

section
/-! PROOFS. A join of a pair that fails (spec/14_pair_and_chain.md R395, R396, R420, R421): what the check of a partner's state names, what
its failure leaves, and a partner's report with a port that no register can hold, so that the statement about the pair states fails. -/

namespace Sys2Proof.Machine

/-! ## What the checks of a join name (R396) -/

/-- A port that check 4 names is one of its ports. -/
theorem State.mem_joinPorts_of_badPort {s : State} {ps : PartnerState} {q : Nat} (h : s.badPort ps = some q) : q ∈ s.joinPorts ps :=
  List.mem_of_find?_eq_some h

theorem State.joinPorts_lt {s : State} {ps : PartnerState} (hps : ∀ e ∈ ps.nguids, e.1 < 256) {q : Nat} (h : q ∈ s.joinPorts ps) :
    q < 256 := by
  unfold State.joinPorts at h
  split at h
  · exact List.mem_range.1 (List.mem_filter.1 h).1
  · split at h
    · obtain ⟨e, he, rfl⟩ := List.mem_map.1 h
      exact hps e he
    · cases h

/-- The port that a failed join names, when the partner reports ports of 8 bits (R45). -/
theorem State.joinFault_port_lt {s : State} {ps : PartnerState} (hps : ∀ e ∈ ps.nguids, e.1 < 256) {st det : Byte} {reason port : Nat}
    (h : s.joinFault ps = some (st, det, reason, port)) : port < 256 := by
  have hbad (h : (s.badPort ps).map (fun q => (stBadField, (0x10 : Byte), 4, q)) = some (st, det, reason, port)) : port < 256 := by
    obtain ⟨q, hq, hport⟩ := Option.map_eq_some_iff.1 h
    simp only [Prod.mk.injEq] at hport
    exact hport.2.2.2 ▸ State.joinPorts_lt hps (State.mem_joinPorts_of_badPort hq)
  have hnamed {a b : Byte} {n : Nat} (h : some (a, b, n, 0) = some (st, det, reason, port)) : port < 256 := by
    simp only [Option.some.injEq, Prod.mk.injEq] at h
    omega
  unfold State.joinFault at h
  dsimp only at h
  repeat' split at h
  all_goals first
    | exact hbad h
    | exact hnamed h


/-! ## A join that fails (R395, R396, R420, R421) -/

/-- The partner's chain address as it reports it (R412). -/
def State.partnerHeard (s : State) (ps : PartnerState) : State :=
  s.withPair { s.pair with
    partnerAddr := if ps.chainValid then ps.chainAddr else s.pair.partnerAddr, partnerValid := ps.chainValid }

/-- The checks of a join read nothing that the link changes when it takes the partner's state. -/
theorem State.joinFault_heard (s : State) (h : FlitHdr) (ps : PartnerState) :
    ((s.taken h).partnerHeard ps).joinFault ps = s.joinFault ps := rfl

/-- In JOINING, the state of a partner that joins and fails a check. -/
theorem State.accepts.answers_joinFailed {s : State} {h : FlitHdr} {ps : PartnerState} {f : Byte × Byte × Nat × Nat} (ha : s.accepts h)
    (hj : s.pair.state = .joining) (hleave : ps.leaving = false) (hjoin : ps.joining = true) (hf : s.joinFault ps = some f) {t : State}
    (ht : ((s.taken h).partnerHeard ps).joinFailed f = t) (hw : t.pair.forwarded = []) {P : State → Prop} (hP : P t) :
    Answers (.flitState h ps) s P := by
  refine ha.answers rfl ?_ hw hP
  have hfault := (s.joinFault_heard h ps).trans hf
  refine (if_neg (by simp [hleave])).trans ((if_pos ⟨hj, hjoin⟩).trans ?_)
  split
  case h_1 g hg =>
    obtain rfl : g = f := Option.some.inj (hg.symm.trans hfault)
    exact ht
  case h_2 hg => exact nomatch hg.symm.trans hfault

/-- The former state after a PAIR_JOIN that ended. -/
def State.joinLeft (s : State) : State :=
  s.withPair { s.pair with state := s.pair.former, link := false, lanesUp := 0, fenceOut := decide (s.pair.former = .alone) }

theorem State.leaveJoin_of_command {s : State} (h : s.pair.afterReset = false) : s.leaveJoin = s.joinLeft :=
  if_neg (by simp [h])

theorem State.reply_deferred (s : State) (src : CmdSrc) (pkt : Bytes) (status detail : Byte) (result : Bytes) :
    (s.reply src pkt status detail result).interp.deferred = s.interp.deferred := by
  cases src with
  | chain => rfl
  | ring c =>
    have hwrite (u : State) (bytes : Bytes) : (u.writeReply c bytes).interp.deferred = u.interp.deferred := by
      rw [State.writeReply_interp]
    simp only [State.reply]
    repeat' split
    · rfl
    · rfl
    · exact hwrite ..

theorem State.reply_pair (s : State) (src : CmdSrc) (pkt : Bytes) (status detail : Byte) (result : Bytes) :
    (s.reply src pkt status detail result).pair = s.pair := s.reply_frame src pkt status detail result .pair (by decide)

/-- Of the registers, a reply changes those of the chain alone (R416, R422). -/
theorem State.regN_reply (s : State) (src : CmdSrc) (pkt : Bytes) (status detail : Byte) (result : Bytes) {o : Nat}
    (ho : o ∉ [Reg.chnLastSeq, Reg.chnFramesTx]) : (s.reply src pkt status detail result).regN o = s.regN o := by
  simp only [List.mem_cons, List.not_mem_nil, or_false, not_or] at ho
  obtain ⟨hseq, hframes⟩ := ho
  cases src with
  | chain =>
    exact (congrArg BitVec.toNat (State.reg_setReg_other _ _ hframes)).trans
      (congrArg BitVec.toNat (State.reg_setReg_other _ _ hseq))
  | ring c =>
    have hwrite (u : State) (bytes : Bytes) : (u.writeReply c bytes).regN o = u.regN o := by
      have hframe : Only [.rings, .hpus, .out] u (u.writeReply c bytes) := State.writeReply_only (Only.refl _ u) rfl c bytes
      exact congrArg BitVec.toNat (State.reg_of_regs (hframe .regs (by decide)) (hframe .part (by decide)) o)
    simp only [State.reply]
    repeat' split
    · rfl
    · rfl
    · exact hwrite ..

theorem State.reply_sources (s : State) (src : CmdSrc) (pkt : Bytes) (status detail : Byte) (result : Bytes) :
    (s.reply src pkt status detail result).flt.srcs = s.flt.srcs := s.reply_frame src pkt status detail result .sources (by decide)

/-- The deferred PAIR_JOIN of a source answered. -/
def State.joinReplied (s : State) (d : Deferred) (status detail : Byte) (result : Bytes) : State :=
  (s.withPair { s.pair with joinSrc := none }).endDeferred d status detail result

theorem State.answerJoin_of_command {s : State} {src : CmdSrc} {d : Deferred} (hsrc : s.pair.joinSrc = some src)
    (hd : s.interp.deferred = [d]) (hds : d.src = src) (status detail : Byte) (result : Bytes) :
    s.answerJoin status detail result = s.joinReplied d status detail result := by
  have hfind : s.pair.joinSrc.bind (fun src => s.interp.deferred.find? (fun d => d.src = src)) = some d := by
    rw [hsrc, Option.bind_some, hd, List.find?_cons_of_pos (by simpa using hds)]
  rw [State.answerJoin, hfind]
  rfl

/-! ### The command that joins, while faults are raised -/

theorem State.appendRec_joinSrc (s : State) (r : Rec) : (s.appendRec r).pair.joinSrc = s.pair.joinSrc := by
  simp only [State.appendRec]
  rcases State.anchorAhead_eq_or s r.units with h | h <;> rw [h]
  · split <;> rfl
  · split <;> rfl

theorem State.leaveDock_joinSrc (s : State) : s.leaveDock.pair.joinSrc = s.pair.joinSrc := by
  have hlife (v : Gcs) :
      (if 1 ∈ s.gcs.deferredCalendar then (s.withGcs v).appendLife else s.withGcs v).pair.joinSrc = s.pair.joinSrc := by
    split
    · exact State.appendRec_joinSrc (s.withGcs v) { Rec.blank .life 6 with fixNs := s.wch.fixNs }
    · rfl
  simp only [State.leaveDock]
  split
  · split
    · exact hlife _
    · exact hlife _
  · rfl

theorem State.queueReaction_pair (s : State) (f : FaultReq) {lvl : Level} (esc latched : Bool) (h : lvl ≠ .stop) :
    (s.queueReaction f lvl esc latched).1.pair = s.pair := by
  simp only [State.queueReaction, if_neg h]
  repeat' split
  all_goals rfl

theorem State.raiseOne_joinSrc {s : State} {f : FaultReq} (h : f.low) : (s.raiseOne f).1.pair.joinSrc = s.pair.joinSrc := by
  have hcapture (u : State) : (u.capture f).pair = u.pair :=
    State.capture_only (M := [.flt, .sources, .first]) (Only.refl _ u) rfl f .pair (by decide)
  have hevent (u : State) (lvl : Level) : (u.faultEvent f lvl).1.pair = u.pair :=
    State.faultEvent_only (M := [.regs, .rings, .chn, .hpus, .out]) (Only.refl _ u) rfl f lvl .pair (by decide)
  have hcalm : (if s.faultLevel f = .note then s else s.leaveDock).pair.joinSrc = s.pair.joinSrc := by
    split
    · rfl
    · exact s.leaveDock_joinSrc
  refine (congrArg Pair.joinSrc ?_).trans hcalm
  exact (State.queueReaction_pair _ f _ _ (State.faultLevel_low s f h)).trans ((hevent _ _).trans (hcapture _))

theorem State.raiseFuel_joinSrc (s : State) (n : Nat) (fs : List FaultReq) (h : ∀ f ∈ fs, f.low) :
    (s.raiseFuel n fs).pair.joinSrc = s.pair.joinSrc := by
  induction n generalizing s fs with
  | zero => rfl
  | succ n ih =>
    cases fs with
    | nil => rfl
    | cons f rest =>
      have hf : f.low := h f (.head _)
      refine (ih _ _ fun g hg => ?_).trans (State.raiseOne_joinSrc hf)
      rcases List.mem_append.1 hg with hrest | hmore
      · exact h g (.tail _ hrest)
      · exact (State.raiseOne_low s f hf).2 g hmore

/-- A fault at NOTE keeps the command that waits for the join. -/
theorem State.raise_note_joinSrc (s : State) (source detail : Byte) : (s.raise source .note detail).pair.joinSrc = s.pair.joinSrc :=
  State.raiseFuel_joinSrc s _ _ fun f hf => .inl (by rw [List.mem_singleton.1 (mem_orderFaults hf)]; rfl)

section Replied

variable (s : State) (d : Deferred) (status detail : Byte)

theorem State.joinReplied_pair : (s.joinReplied d status detail []).pair = { s.pair with joinSrc := none } := State.reply_pair ..

theorem State.joinReplied_sources : (s.joinReplied d status detail []).flt.srcs = s.flt.srcs := State.reply_sources ..

theorem State.joinReplied_srcQueue : (s.joinReplied d status detail []).srcQueue d.src = (s.srcQueue d.src).drop 1 :=
  State.srcQueue_reply ..

theorem State.joinReplied_joinFail : (s.joinReplied d status detail []).regN Reg.pairJoinFail = s.regN Reg.pairJoinFail :=
  State.regN_reply _ _ _ _ _ _ (by decide)

/-- The PAIR_JOIN answered and 0xD4 raised with the reason. -/
def State.joinRefused (s : State) (d : Deferred) (status detail reason : Byte) : State :=
  (s.joinReplied d status detail []).raise 0xD4 .note reason

variable (reason : Byte)

theorem State.joinRefused_frame : Only lowParts (s.joinReplied d status detail []) (s.joinRefused d status detail reason) :=
  State.raise_low _ _ _ _ (.inl rfl)

theorem State.joinRefused_role : (s.joinRefused d status detail reason).pair.role = s.pair.role := by
  have hreplied := congrArg Pair.role (s.joinReplied_pair d status detail)
  exact Eq.trans (s.joinRefused_frame d status detail reason .role (by decide)) hreplied

theorem State.joinRefused_joinSrc : (s.joinRefused d status detail reason).pair.joinSrc = none :=
  (State.raise_note_joinSrc ..).trans (congrArg Pair.joinSrc (s.joinReplied_pair d status detail))

theorem State.joinRefused_deferred (hd : s.interp.deferred = [d]) : (s.joinRefused d status detail reason).interp.deferred = [] := by
  rw [s.joinRefused_frame d status detail reason .interp (by decide)]
  refine (State.reply_deferred ..).trans ?_
  show s.interp.deferred.filter _ = []
  simp [hd]

theorem State.joinRefused_srcQueue : (s.joinRefused d status detail reason).srcQueue d.src = (s.srcQueue d.src).drop 1 :=
  (State.srcQueue_of_interp (by rw [s.joinRefused_frame d status detail reason .interp (by decide)]) _).trans
    (s.joinReplied_srcQueue d status detail)

theorem State.joinRefused_joinFail : (s.joinRefused d status detail reason).regN Reg.pairJoinFail = s.regN Reg.pairJoinFail :=
  ((State.raise_reported _ _ _ (.inl rfl)).regN (by decide)).trans (s.joinReplied_joinFail d status detail)

theorem State.faulted_joinRefused : s.Faulted (s.joinRefused d status detail reason) 0xD4 reason :=
  .raise (State.src_of_sources (s.joinReplied_sources d status detail) _) .note reason (by decide) (by decide) (by decide)

end Replied

/-- The former state, with the reason and the port of a failed check in their register. -/
def State.joinMarked (s : State) (reason port : Nat) : State := (s.setRegN Reg.pairJoinFail (reason + 2 ^ 8 * port)).joinLeft

section Failed

variable {s : State} {src : CmdSrc} {d : Deferred} (hreset : s.pair.afterReset = false) (hsrc : s.pair.joinSrc = some src)
  (hd : s.interp.deferred = [d]) (hds : d.src = src)
include hreset hsrc hd hds

theorem State.leaveJoin_answerJoin (status detail : Byte) (result : Bytes) :
    s.leaveJoin.answerJoin status detail result = s.joinLeft.joinReplied d status detail result := by
  rw [State.leaveJoin_of_command hreset]
  exact State.answerJoin_of_command (s := s.joinLeft) hsrc hd hds status detail result

/-- A failed check leaves its reason and port, answers the PAIR_JOIN, and raises 0xD4. -/
theorem State.joinFailed_of_command (st det : Byte) (reason port : Nat) : s.joinFailed (st, det, reason, port) =
    (s.joinMarked reason port).joinRefused d st det (BitVec.ofNat 8 reason) :=
  congrArg (fun t : State => t.raise 0xD4 .note (BitVec.ofNat 8 reason))
    (State.leaveJoin_answerJoin (s := s.setRegN Reg.pairJoinFail (reason + 2 ^ 8 * port)) hreset hsrc hd hds st det [])

/-- What a failed check leaves when its reason and its port fit the register. -/
theorem State.joinFailed_outcome (st det : Byte) {reason port : Nat} (hreason : reason < 8) (hport : port < 256) {t : State}
    (ht : s.joinFailed (st, det, reason, port) = t) :
    t.pair.role = { s.joinLeft.pair with joinSrc := none }.role ∧ t.pair.joinSrc = none ∧ t.interp.deferred = [] ∧
      t.srcQueue d.src = (s.srcQueue d.src).drop 1 ∧ t.regN Reg.pairJoinFail = reason + 2 ^ 8 * port ∧
      s.Faulted t 0xD4 (BitVec.ofNat 8 reason) := by
  have hmarked : (s.joinMarked reason port).regN Reg.pairJoinFail = reason + 2 ^ 8 * port :=
    (State.regN_setRegN ..).trans (Nat.mod_eq_of_lt (by omega))
  rw [← ht, State.joinFailed_of_command hreset hsrc hd hds]
  exact ⟨(s.joinMarked reason port).joinRefused_role d st det _, (s.joinMarked reason port).joinRefused_joinSrc d st det _,
    (s.joinMarked reason port).joinRefused_deferred d st det _ hd, (s.joinMarked reason port).joinRefused_srcQueue d st det _,
    ((s.joinMarked reason port).joinRefused_joinFail d st det _).trans hmarked,
    (s.joinMarked reason port).faulted_joinRefused d st det _⟩

end Failed

/-- A join that a PAIR_JOIN asked for and that fails a check, when the partner reports ports of 8 bits (R421): the former state, the
reply, the reason with its port, and 0xD4. -/
theorem answers_flitState_failed {h : FlitHdr} {ps : PartnerState} {st det : Byte} {reason port : Nat} {src : CmdSrc} {d : Deferred}
    {s : State} (ha : s.accepts h) (hj : s.pair.state = .joining) (hleave : ps.leaving = false) (hjoin : ps.joining = true)
    (hf : s.joinFault ps = some (st, det, reason, port)) (hreason : reason < 8) (hreset : s.pair.afterReset = false)
    (hsrc : s.pair.joinSrc = some src) (hd : s.interp.deferred = [d]) (hds : d.src = src) (hps : ∀ e ∈ ps.nguids, e.1 < 256) :
    Answers (.flitState h ps) s (fun t => t.pair.state = s.pair.former ∧ t.pair.joinSrc = none ∧ t.interp.deferred = [] ∧
      t.srcQueue src = (s.srcQueue src).drop 1 ∧ t.regN Reg.pairJoinFail = reason + 2 ^ 8 * port ∧
      s.Faulted t 0xD4 (BitVec.ofNat 8 reason)) := by
  subst hds
  obtain ⟨hrole, hkept⟩ := State.joinFailed_outcome (s := (s.taken h).partnerHeard ps) hreset hsrc hd rfl st det hreason
    (State.joinFault_port_lt hps hf) rfl
  exact ha.answers_joinFailed hj hleave hjoin hf rfl ((Pair.eq_of_role Pair.forwarded (fun _ => rfl) hrole).trans ha.forwarded)
    ⟨Pair.eq_of_role Pair.state (fun _ => rfl) hrole, hkept⟩

/-! ## A port that no register can hold -/

/-- A partner that reports one dual-ported drive, on port 2^56. -/
def reportsHugePort : PartnerState :=
  { side := true, device := BitVec.ofNat 16 (deviceId .np9256), epoch := 0, lowestState := some 2, sameState := true,
    nguids := [(2 ^ 56, 0)], chainAddr := 0, chainValid := false, joining := true, leaving := false }

/-- A PAIR_JOIN of the chain. -/
def chainJoin : Deferred :=
  { src := .chain, packet := [], keys := [], waitWrites := [], count := 0, count2 := 0, walks := 0, waits := [], blocks := [], lost := [] }

/-- A controller without sets that joins for that command. -/
def joinsForChain : State :=
  { State.reset with
      pair := { Pair.at0 with state := .joining, joinSrc := some .chain },
      interp := { State.reset.interp with deferred := [chainJoin] } }

theorem accepts_joinsForChain : joinsForChain.accepts { seq := 0, ack := 0, credits := 0 } :=
  ⟨rfl, rfl, .inl rfl, by decide, rfl⟩

/-- The drive is not ready on this side, and its port is the one that the checks name. -/
theorem joinFault_joinsForChain : joinsForChain.joinFault reportsHugePort = some (stBadField, 0x10, 4, 2 ^ 56) := by decide

/-- Refutes O59: its twelfth clause speaks of every state that a partner may report, also one that names a port of more than 8 bits. A
partner that reports a drive on port 2^56 fails check 4 with that port, and a register of 64 bits holds no 4 + 2^8 * 2^56. For ports of
8 bits, the width of PORT in R421, the clause holds (`answers_flitState_failed`). -/
theorem not_pairStatesChange : ¬ Obligations.PairStatesChange := by
  unfold Obligations.PairStatesChange
  rintro ⟨-, -, -, -, -, -, -, -, -, -, -, hclause, -⟩
  obtain ⟨t, -, -, -, -, -, hreg, -⟩ := hclause _ reportsHugePort _ _ 4 (2 ^ 56) .chain chainJoin joinsForChain accepts_joinsForChain
    rfl rfl rfl joinFault_joinsForChain (by decide) rfl rfl rfl rfl
  have hwidth : t.regN Reg.pairJoinFail < 2 ^ 64 := (t.reg Reg.pairJoinFail).isLt
  omega

end Sys2Proof.Machine
end

section
/-! PROOFS. The steps of start-up (spec/16_startup_and_resets.md R458, R474, R475, R479; spec/15_host_port.md R431; spec/17_electrical.md
R499): when RECOVERY begins, what the word checks of BOOT report, and what the boot ROM does with an image that passes and with none. -/

namespace Sys2Proof.Machine

theorem State.raise_frame (s : State) (n : Byte) (level : Level) (d : Byte) : Only raiseParts s (s.raise n level d) :=
  State.raise_only (Only.refl _ s) rfl n level d

theorem answers_coldStartProceed (s : State) :
    Answers .coldStartProceed s (fun t => t.gcs.coldWait = false ∧ Only [.gcs, .startup] s t) :=
  ⟨_, rfl, rfl, only_withGcs (Only.refl _ s) rfl (.inr rfl) (.inl rfl) (.inr rfl) (.inr id)⟩

/-! ## RECOVERY begins (R431, R458) -/

theorem State.beginRecovery_startup (s : State) : s.beginRecovery.gcs.startup = s.gcs.startup :=
  State.beginRecovery_only (M := [.gcs, .phase, .log]) (Only.refl _ s) rfl .startup (by decide)

/-- From the survey, RECOVERY begins exactly when all three of its conditions are recorded. -/
theorem State.beginRecovery_phase_iff {s : State} (h : s.gcs.phase = .survey) :
    s.beginRecovery.gcs.phase = .recovery ↔ s.gcs.almanac = true ∧ s.gcs.mapTrained = true ∧ s.gcs.calDone = true := by
  unfold State.beginRecovery
  split
  case isTrue hall => exact iff_of_true rfl hall.2
  case isFalse hnot => exact iff_of_false (by simp [h]) fun hall => hnot ⟨h, hall⟩

/-- A state in which the survey stands where it stood in s: its phase, and which of the three conditions are recorded. -/
structure State.SurveyKept (s t : State) : Prop where
  phase : t.gcs.phase = s.gcs.phase
  almanac : t.gcs.almanac = s.gcs.almanac
  mapTrained : t.gcs.mapTrained = s.gcs.mapTrained
  calDone : t.gcs.calDone = s.gcs.calDone

theorem Only.surveyKept {M : List Field} {s t : State} (h : Only M s t) (hphase : .phase ∉ M) (hstart : .startup ∉ M)
    (hs : s.gcs.phase = .survey) : s.SurveyKept t := by
  have hstartup : t.gcs.startup = s.gcs.startup := h .startup hstart
  exact ⟨h .phase hphase (by simp [hs]), (congrArg Gcs.almanac hstartup :), (congrArg Gcs.mapTrained hstartup :),
    (congrArg Gcs.calDone hstartup :)⟩

theorem answers_almanacComplete {s : State} (h : s.gcs.phase = .survey) (hn : s.gcs.almanac = false) :
    Answers .almanacComplete s (fun t =>
      t.gcs.almanac = true ∧ (t.gcs.phase = .recovery ↔ s.gcs.mapTrained = true ∧ s.gcs.calDone = true)) := by
  have hexec : exec .almanacComplete s = .next (s.withGcs { s.gcs with almanac := true }).beginRecovery := if_neg (by simp [h, hn])
  have hphase := State.beginRecovery_phase_iff (s := s.withGcs { s.gcs with almanac := true }) h
  exact ⟨_, hexec, congrArg Gcs.almanac (State.beginRecovery_startup _), hphase.trans (and_iff_right rfl)⟩

/-- Training of the Map Store is recorded after updates that leave the survey where it stood. -/
theorem exec_mapStoreTrainingDone {s : State} (h : s.gcs.phase = .survey) (hn : s.gcs.mapTrained = false)
    (eyes : List (Nat × Bool × Bool)) : ∃ t, s.SurveyKept t ∧
      exec (.mapStoreTrainingDone eyes) s = .next (t.withGcs { t.gcs with mapTrained := true }).beginRecovery := by
  refine ⟨_, Only.surveyKept (M := .map :: raiseParts) ?_ (by decide) (by decide) h, if_neg (by simp [h, hn])⟩
  exact only_foldl (only_withMap (Only.refl _ s) rfl) fun t c ht => State.fenceChannel_only ht rfl c 4

theorem answers_mapStoreTrainingDone {s : State} (h : s.gcs.phase = .survey) (hn : s.gcs.mapTrained = false)
    (eyes : List (Nat × Bool × Bool)) : Answers (.mapStoreTrainingDone eyes) s (fun t =>
      t.gcs.mapTrained = true ∧ (t.gcs.phase = .recovery ↔ s.gcs.almanac = true ∧ s.gcs.calDone = true)) := by
  obtain ⟨t, hkept, hexec⟩ := exec_mapStoreTrainingDone h hn eyes
  have hphase := State.beginRecovery_phase_iff (s := t.withGcs { t.gcs with mapTrained := true }) (hkept.phase.trans h)
  refine ⟨_, hexec, congrArg Gcs.mapTrained (State.beginRecovery_startup _), ?_⟩
  rw [← hkept.almanac, ← hkept.calDone]
  exact hphase.trans (and_congr_right fun _ => and_iff_right rfl)

/-- The calibration is recorded after updates that leave the survey where it stood. -/
theorem exec_startupCalibrationDone {s : State} (h : s.gcs.phase = .survey) (hn : s.gcs.calDone = false) (c0 c1 : Nat)
    (sweeps : List Sweep) : ∃ t, s.SurveyKept t ∧
      exec (.startupCalibrationDone c0 c1 sweeps) s = .next (t.withGcs { t.gcs with calDone := true }).beginRecovery := by
  refine ⟨_, Only.surveyKept (M := .monitor :: raiseParts) ?_ (by decide) (by decide) h, if_neg (by simp [h, hn])⟩
  have hsampled := State.sampleCalref_only (State.sampleCalref_only (Only.refl (.monitor :: raiseParts) s) rfl c0) rfl c1
  have hbank (w : BitVec 5 → Sweep) (t : State) (n : BitVec 5) (ht : Only (.monitor :: raiseParts) s t) :=
    State.startupBank_only ht rfl c0 c1 n (w n)
  exact only_ite (fun _ => only_foldl hsampled (hbank _)) fun _ => State.raise_only (only_foldl hsampled (hbank _)) rfl _ _ _

theorem answers_startupCalibrationDone {s : State} (h : s.gcs.phase = .survey) (hn : s.gcs.calDone = false) (c0 c1 : Nat)
    (sweeps : List Sweep) : Answers (.startupCalibrationDone c0 c1 sweeps) s (fun t =>
      t.gcs.calDone = true ∧ (t.gcs.phase = .recovery ↔ s.gcs.almanac = true ∧ s.gcs.mapTrained = true)) := by
  obtain ⟨t, hkept, hexec⟩ := exec_startupCalibrationDone h hn c0 c1 sweeps
  have hphase := State.beginRecovery_phase_iff (s := t.withGcs { t.gcs with calDone := true }) (hkept.phase.trans h)
  refine ⟨_, hexec, congrArg Gcs.calDone (State.beginRecovery_startup _), ?_⟩
  rw [← hkept.almanac, ← hkept.mapTrained]
  exact hphase.trans (and_congr_right fun _ => and_iff_left rfl)

/-! ## The word checks of BOOT (R479) -/

/-- What the check of the OTP words reports. -/
def State.otpChecked (s : State) : WordCheck → State
  | .good => s
  | .corrected => s.raise 0xE3 .note 1
  | .bad => s.raise 0xE3 .stop 2

/-- What the checks of the OTP words and of the firmware store report. -/
def State.wordsChecked (s : State) (otp store : WordCheck) : State :=
  if store = .bad then (s.otpChecked otp).raise 0xE5 .warn 1 else s.otpChecked otp

theorem State.otpChecked_frame (s : State) (otp : WordCheck) : Only raiseParts s (s.otpChecked otp) := by
  cases otp with
  | good => exact Only.refl _ s
  | corrected | bad => exact s.raise_frame _ _ _

theorem State.wordsChecked_frame (s : State) (otp store : WordCheck) : Only raiseParts s (s.wordsChecked otp store) := by
  have hotp := s.otpChecked_frame otp
  exact only_ite (fun _ => hotp.trans (State.raise_frame _ _ _ _)) fun _ => hotp

theorem State.wordsChecked_part (s : State) (otp store : WordCheck) : (s.wordsChecked otp store).part = s.part :=
  s.wordsChecked_frame otp store .part (by decide)

theorem State.wordsChecked_sec (s : State) (otp store : WordCheck) : (s.wordsChecked otp store).sec = s.sec :=
  s.wordsChecked_frame otp store .sec (by decide)

/-- The check of the firmware store leaves the source of the OTP check alone. -/
theorem State.src_wordsChecked (s : State) (otp store : WordCheck) : (s.wordsChecked otp store).src 0xE3 = (s.otpChecked otp).src 0xE3 := by
  unfold State.wordsChecked
  split
  · exact State.raise_other _ _ _ _ _ (by decide) (by decide) (by decide) (by decide)
  · rfl

theorem State.src_otpChecked (s : State) (otp : WordCheck) : (s.otpChecked otp).src 0xE5 = s.src 0xE5 := by
  cases otp with
  | good => rfl
  | corrected | bad => exact State.raise_other _ _ _ _ _ (by decide) (by decide) (by decide) (by decide)

theorem State.faulted_wordsChecked_corrected (s : State) (store : WordCheck) : s.Faulted (s.wordsChecked .corrected store) 0xE3 1 :=
  (State.Faulted.raise rfl .note 1 (by decide) (by decide) (by decide)).of_src (s.src_wordsChecked .corrected store)

theorem State.faulted_wordsChecked_bad (s : State) (store : WordCheck) : s.Faulted (s.wordsChecked .bad store) 0xE3 2 :=
  (State.Faulted.raise rfl .stop 2 (by decide) (by decide) (by decide)).of_src (s.src_wordsChecked .bad store)

theorem State.faulted_wordsChecked_store (s : State) (otp : WordCheck) : s.Faulted (s.wordsChecked otp .bad) 0xE5 1 :=
  State.Faulted.raise (s.src_otpChecked otp) .warn 1 (by decide) (by decide) (by decide)

/-! ## ROM recovery (R475) -/

/-- ROM recovery entered: no image runs, and 0xE1 is raised. -/
def State.romEntered (s : State) : State :=
  ((s.withSec { s.sec with running := none, pending := none, fallback := true, rom := true, fwRunning := 0 }).withGcs
    { s.gcs with phase := .romRecovery, resetNow := none }).raise 0xE1 .stop 1

theorem State.romEntered_phase (s : State) : s.romEntered.gcs.phase = .romRecovery :=
  State.raise_frame _ 0xE1 .stop 1 .phase (by decide) (fun h => nomatch h)

theorem State.romEntered_resetNow (s : State) : s.romEntered.gcs.resetNow = none := by
  have hstartup : s.romEntered.gcs.startup = _ := State.raise_frame _ 0xE1 .stop 1 .startup (by decide)
  exact congrArg Gcs.resetNow hstartup

theorem State.romEntered_sec (s : State) : s.romEntered.sec =
    { s.sec with running := none, pending := none, fallback := true, rom := true, fwRunning := 0 } :=
  State.raise_frame _ 0xE1 .stop 1 .sec (by decide)

theorem State.romEntered_isOpen (s : State) : (s.romEntered.src 0xE1).isOpen = true :=
  (State.raise_src _ 0xE1 .stop 1 (by decide) (by decide) (by decide)).2.1

/-! ## The choice of an image (R458, R474, R475) -/

theorem State.restartImage_of_passes {s : State} (h : imageFault s.part s.sec (s.sec.slot (s.sec.pending.getD s.sec.lastRan)) = none) :
    s.restartImage = s.withSec (s.sec.started (s.sec.pending.getD s.sec.lastRan) false) := by
  unfold State.restartImage
  simp only [h]

/-- The refusal of the first image changes neither the part nor the slots, so that the other image is refused after it too. -/
theorem State.restartImage_of_refused {s : State} (h : ∀ b, imageFault s.part s.sec (s.sec.slot b) ≠ none) :
    ∃ t : State, s.restartImage = t.romEntered := by
  obtain ⟨d, hd⟩ := Option.ne_none_iff_exists'.1 (h (s.sec.pending.getD s.sec.lastRan))
  obtain ⟨e, he⟩ := Option.ne_none_iff_exists'.1 (h (!s.sec.pending.getD s.sec.lastRan))
  have hpart : (s.raise 0xE0 .warn d).part = s.part := s.raise_frame 0xE0 .warn d .part (by decide)
  have hsec : (s.raise 0xE0 .warn d).sec = s.sec := s.raise_frame 0xE0 .warn d .sec (by decide)
  have hother : imageFault (s.raise 0xE0 .warn d).part (s.raise 0xE0 .warn d).sec
      ((s.raise 0xE0 .warn d).sec.slot !s.sec.pending.getD s.sec.lastRan) = some e := by
    rw [hpart, hsec]
    exact he
  refine ⟨s.raise 0xE0 .warn d, ?_⟩
  unfold State.restartImage
  simp only [hd, hother]
  rfl

/-- The survey begins unless the choice of R475 ended in ROM recovery (R458). -/
def State.booted (s : State) : State := if s.sec.rom then s else s.withGcs { s.gcs with phase := .survey }

/-- BOOT_COMPLETE reports what the word checks found, makes the choice of R475, and begins the survey. -/
theorem exec_bootComplete {s : State} (hpower : s.gcs.pwrgd = true) (hboot : s.gcs.phase = .boot) (hwait : s.gcs.coldWait = false)
    (otp store : WordCheck) : exec (.bootComplete otp store) s = .next (s.wordsChecked otp store).restartImage.booted := by
  refine (if_neg (by simp [hpower, hboot, hwait])).trans ?_
  dsimp only
  generalize ht : (if store = .bad then _ else _ : State) = t
  have hwords : s.wordsChecked otp store = t := by
    rw [← ht]
    cases otp <;> rfl
  rw [hwords]
  unfold State.restartImage
  dsimp only
  cases imageFault t.part t.sec (t.sec.slot (t.sec.pending.getD t.sec.lastRan)) with
  | none => rfl
  | some d =>
    dsimp only
    cases imageFault (t.raise 0xE0 .warn d).part (t.raise 0xE0 .warn d).sec
        ((t.raise 0xE0 .warn d).sec.slot !t.sec.pending.getD t.sec.lastRan) with
    | none => rfl
    | some e => exact congrArg Host.Outcome.next (if_pos (congrArg Sec.rom (State.romEntered_sec _))).symm

theorem State.booted_of_passes {s : State} (h : imageFault s.part s.sec (s.sec.slot (s.sec.pending.getD s.sec.lastRan)) = none) :
    s.restartImage.booted =
      (s.withSec (s.sec.started (s.sec.pending.getD s.sec.lastRan) false)).withGcs { s.gcs with phase := .survey } := by
  rw [State.restartImage_of_passes h]
  rfl

theorem State.booted_romEntered (s : State) : s.romEntered.booted = s.romEntered := if_pos (congrArg Sec.rom s.romEntered_sec)

section Powered

variable {s : State} (hpower : s.gcs.pwrgd = true) (hboot : s.gcs.phase = .boot) (hwait : s.gcs.coldWait = false)
include hpower hboot hwait

/-- An image that passes is started on top of what the word checks report. -/
theorem exec_bootComplete_of_passes
    (himage : imageFault s.gcs.part s.sec (s.sec.slot (s.sec.pending.getD s.sec.lastRan)) = none) (otp store : WordCheck) :
    exec (.bootComplete otp store) s = .next (((s.wordsChecked otp store).withSec
      (s.sec.started (s.sec.pending.getD s.sec.lastRan) false)).withGcs { (s.wordsChecked otp store).gcs with phase := .survey }) := by
  rw [exec_bootComplete hpower hboot hwait, State.booted_of_passes, s.wordsChecked_sec]
  rw [s.wordsChecked_part, s.wordsChecked_sec]
  exact himage

theorem answers_bootComplete_good
    (himage : imageFault s.gcs.part s.sec (s.sec.slot (s.sec.pending.getD s.sec.lastRan)) = none) :
    Answers (.bootComplete .good .good) s (fun t =>
      t.gcs.phase = .survey ∧ t.sec.running = some (s.sec.pending.getD s.sec.lastRan) ∧ t.sec.pending = none ∧ t.sec.rom = false ∧
      t.sec.fwRunning = (s.sec.slot (s.sec.pending.getD s.sec.lastRan)).version ∧ Only [.gcs, .phase, .sec] s t) := by
  refine ⟨_, exec_bootComplete_of_passes hpower hboot hwait himage .good .good, rfl, rfl, rfl, rfl, rfl, ?_⟩
  exact only_withGcs (only_withSec (Only.refl _ s) rfl (.inr (Sec.started_otp ..)) (.inr rfl)) rfl (.inr rfl) (.inr rfl) (.inl rfl)
    (.inr id)

theorem answers_bootComplete_of_passes
    (himage : imageFault s.gcs.part s.sec (s.sec.slot (s.sec.pending.getD s.sec.lastRan)) = none) (otp store : WordCheck) :
    Answers (.bootComplete otp store) s (fun t =>
      t.gcs.phase = .survey ∧ t.sec.running = some (s.sec.pending.getD s.sec.lastRan) ∧
      (otp = .corrected → s.Faulted t 0xE3 1) ∧ (otp = .bad → s.Faulted t 0xE3 2) ∧ (store = .bad → s.Faulted t 0xE5 1)) := by
  refine ⟨_, exec_bootComplete_of_passes hpower hboot hwait himage otp store, rfl, rfl, ?corrected, ?bad, ?store⟩
  case corrected =>
    rintro rfl
    exact (s.faulted_wordsChecked_corrected store).of_src rfl
  case bad =>
    rintro rfl
    exact (s.faulted_wordsChecked_bad store).of_src rfl
  case store =>
    rintro rfl
    exact (s.faulted_wordsChecked_store otp).of_src rfl

theorem answers_bootComplete_of_refused (himages : ∀ b, imageFault s.gcs.part s.sec (s.sec.slot b) ≠ none) (otp store : WordCheck) :
    Answers (.bootComplete otp store) s (fun t =>
      t.gcs.phase = .romRecovery ∧ t.sec.rom = true ∧ t.sec.running = none ∧ t.gcs.resetNow = none ∧ (t.src 0xE1).isOpen = true) := by
  obtain ⟨t, ht⟩ := State.restartImage_of_refused (s := s.wordsChecked otp store) (by
    rw [s.wordsChecked_part, s.wordsChecked_sec]
    exact himages)
  have hexec := exec_bootComplete hpower hboot hwait otp store
  rw [ht, t.booted_romEntered] at hexec
  exact ⟨_, hexec, t.romEntered_phase, congrArg Sec.rom t.romEntered_sec, congrArg Sec.running t.romEntered_sec, t.romEntered_resetNow,
    t.romEntered_isOpen⟩

end Powered

/-- Settles O14: what each step of start-up does stands in the lemmas above, and RECOVERY begins with the last of its three conditions
(`State.beginRecovery_phase_iff`). -/
theorem startUpAdvances : Obligations.StartUpAdvances := by
  unfold Obligations.StartUpAdvances
  refine ⟨answers_coldStartProceed, ?good, ?almanac, ?trained, ?calibrated, ?words, ?refused⟩
  case good => exact fun s hpower hboot hwait himage => answers_bootComplete_good hpower hboot hwait himage
  case almanac => exact fun s h hn => answers_almanacComplete h hn
  case trained => exact fun eyes s h hn => answers_mapStoreTrainingDone h hn eyes
  case calibrated => exact fun c0 c1 sweeps s h hn => answers_startupCalibrationDone h hn c0 c1 sweeps
  case words => exact fun otp store s hpower hboot hwait himage => answers_bootComplete_of_passes hpower hboot hwait himage otp store
  case refused => exact fun s hpower hboot hwait himages => answers_bootComplete_of_refused hpower hboot hwait himages

end Sys2Proof.Machine
end

section
/-! PROOFS. What a step is, what no step undoes, the values of reset and Idle-dock (spec/16_startup_and_resets.md R458, R468 to R470, R476;
spec/17_electrical.md R472 to R474). Most of it is read off the frame of each command (`exec_onlyFootprint`). -/

namespace Sys2Proof.Machine

/-! ## Steps and the queue -/

/-- Settles O1: it is the second branch of a step. -/
theorem stepRunsTheFrontCommand : Obligations.StepRunsTheFrontCommand := fun _ _ => rfl

/-- No footprint lists the queue, the part number or the fuses. -/
theorem sealed_not_mem_footprint (c : Instr) :
    decide (Field.pending ∈ footprint c) = false ∧ decide (Field.part ∈ footprint c) = false ∧
      decide (Field.otp ∈ footprint c) = false := by
  cases c <;> exact ⟨rfl, rfl, rfl⟩

/-- Only the survey's footprint lists the anti-rollback index. -/
theorem rollback_not_mem_footprint {c : Instr} (h : ∀ ms, c ≠ .surveyComplete ms) :
    decide (Field.rollback ∈ footprint c) = false := by
  cases c
  case surveyComplete ms => exact absurd rfl (h ms)
  all_goals rfl

theorem pending_of_exec {c : Instr} {s t : State} (h : exec c s = .next t) : t.pending = s.pending :=
  exec_onlyFootprint c s t h .pending (of_decide_eq_false (sealed_not_mem_footprint c).1)

theorem State.tick_frame (s : State) : Only [.wch, .timer] s (tick s) := tick_only (Only.refl _ s) rfl

/-- A step is a core cycle on an empty queue, or the command in front run with the rest. -/
theorem step_cases {s t : State} (h : step s = .next t) :
    (s.pending = [] ∧ t = tick s) ∨ ∃ c rest, s.pending = c :: rest ∧ exec c (s.withPending rest) = .next t := by
  unfold step at h
  split at h
  · next hp => exact .inl ⟨hp, (Host.Outcome.next.inj h).symm⟩
  · next c rest hp => exact .inr ⟨c, rest, hp, h⟩

/-- Settles O7: a core cycle leaves the empty queue alone, and a command the queue's rest. -/
theorem queueIsFirstInFirstOut : Obligations.QueueIsFirstInFirstOut := by
  intro s t h
  obtain ⟨hp, rfl⟩ | ⟨c, rest, hp, h⟩ := step_cases h
  · rw [State.tick_frame s .pending (by decide), hp]
    rfl
  · rw [pending_of_exec h, hp]
    rfl

/-! ## What no step undoes (R472 to R476) -/

/-- What the entries of the survey and their consequences may change (R460, R461). -/
def surveyParts : List Field := raiseParts ++ [.startup, .banks, .monitor, .map, .freeCount]

/-- The survey leaves the anti-rollback index, or raises it to that of the running image (R476). -/
theorem rollback_le_of_execSurveyComplete {s t : State} {ms : List SurveyMeasure} (h : execSurveyComplete ms s = .next t) :
    s.sec.rollback ≤ t.sec.rollback := by
  unfold execSurveyComplete at h
  split at h
  · cases h
    exact le_rfl
  · extract_lets es failed gcs done sent posted at h
    have hfailed : Only surveyParts s failed := only_foldl (Only.refl _ s) fun _ _ hu => State.surveyFail_only hu rfl _
    have hdone : Only surveyParts s done := only_withGcs hfailed rfl (.inr rfl) (.inl rfl) (.inr rfl) (.inr id)
    have hsent : Only surveyParts s sent := only_foldl hdone fun _ _ hu => State.originate_only hu rfl _ _
    have hposted : Only surveyParts s posted := State.postSurvey_only (State.postSurvey_only hsent rfl _) rfl _
    have hkept : posted.sec.rollback = s.sec.rollback := hposted .rollback (by decide)
    rw [← hkept]
    split at h
    · exact Host.Outcome.next.inj h ▸ le_rfl
    · next b _ =>
      extract_lets ri at h
      split at h
      · next hlt =>
        have hraised : _ = ri := State.raise_frame (posted.withSec { posted.sec with rollback := ri }) 0xE2 .note (BitVec.ofNat 8 ri)
          .rollback (by decide)
        exact Host.Outcome.next.inj h ▸ hlt.le.trans hraised.ge
      · exact Host.Outcome.next.inj h ▸ le_rfl


/-- No command lowers the anti-rollback index. -/
theorem rollback_le_of_exec {c : Instr} {s t : State} (h : exec c s = .next t) : s.sec.rollback ≤ t.sec.rollback := by
  by_cases hc : ∃ ms, c = .surveyComplete ms
  · obtain ⟨ms, rfl⟩ := hc
    exact rollback_le_of_execSurveyComplete h
  · exact (exec_onlyFootprint c s t h .rollback
      (of_decide_eq_false (rollback_not_mem_footprint fun ms e => hc ⟨ms, e⟩))).ge

/-- Settles O8: footprints leave out the part and the fuses, and the survey alone touches the index, to raise it. -/
theorem oneWayStateNeverReturns : Obligations.OneWayStateNeverReturns := by
  intro s t h
  obtain ⟨-, rfl⟩ | ⟨c, rest, -, h⟩ := step_cases h
  · exact ⟨s.tick_frame .part (by decide), s.tick_frame .otp (by decide), (s.tick_frame .rollback (by decide)).ge⟩
  · obtain ⟨-, hpart, hotp⟩ := sealed_not_mem_footprint c
    have hframe := exec_onlyFootprint c _ t h
    exact ⟨hframe .part (of_decide_eq_false hpart), hframe .otp (of_decide_eq_false hotp),
      (rollback_le_of_exec h : (s.withPending rest).sec.rollback ≤ _)⟩

/-! ## Reset -/

/-- Settles O3: each value stands in the definition of the state after reset. -/
theorem resetLeavesTheStatedValues : Obligations.ResetLeavesTheStatedValues := by
  unfold Obligations.ResetLeavesTheStatedValues
  refine ⟨rfl, rfl, rfl, rfl, fun _ => ⟨rfl, rfl⟩, rfl, rfl, fun _ => rfl, fun _ => rfl, fun _ => rfl, rfl, rfl, rfl, ?channels, rfl,
    rfl, fun _ => rfl, rfl⟩
  case channels => decide

/-! ## Idle-dock (R468 to R470) -/

section Dock
variable {s : State}

theorem State.leaveDock_gcs (h : s.gcs.phase = .dock) :
    s.leaveDock.gcs = { s.gcs with phase := .running, deferredCalendar := [] } := by
  have hlife (u : State) : u.appendLife.gcs = u.gcs :=
    State.appendLife_only (M := [.regs, .log, .pair, .out]) (Only.refl _ u) rfl .gcs (by decide)
  have htest (u : State) : u.testSpares.gcs = u.gcs := rfl
  simp only [State.leaveDock, if_pos h, apply_ite State.gcs, hlife, htest, State.withGcs_gcs, ite_self]

theorem State.leaveDock_phase_running (h : s.gcs.phase = .dock) : s.leaveDock.gcs.phase = .running :=
  congrArg Gcs.phase (s.leaveDock_gcs h)

theorem State.leaveDock_haltClosed (h : s.gcs.phase = .dock) : s.leaveDock.haltClosed = s.haltClosed := by
  simp only [State.haltClosed, State.leaveDock_gcs h]

theorem State.leaveDock_leaveDock (h : s.gcs.phase = .dock) : s.leaveDock.leaveDock = s.leaveDock :=
  State.leaveDock_phase _ (by simp [State.leaveDock_phase_running h])

/-- Each of these rows leaves Idle-dock once the halt does not drop the write, and leaving it twice is leaving it once. -/
theorem exec_leaveDock {c : Instr} (hc : barWrite c = true) (h : s.gcs.phase = .dock) (hn : s.haltClosed = false) :
    exec c s = exec c s.leaveDock := by
  have hn' := (State.leaveDock_haltClosed h).trans hn
  have hl := State.leaveDock_leaveDock h
  cases c
  case dataRingDoorbell | commandRingDoorbell | eventRingDoorbell | ringEnable | ringDisable | commandRingDisable | eventRingDisable
      | privLock | msixUnmask | chartFlush | anchor | calBankSel | containNow | channelEnable | channelDisable | swReq | channelDesc
      | mqEnable | mqCons | pwinPages | pwinGo | alertClr | holdResume =>
    simp only [exec, execDataRingDoorbell, execCommandRingDoorbell, execEventRingDoorbell, execRingEnable, execRingDisable,
      execCommandRingDisable, execEventRingDisable, execPrivLock, execMsixUnmask, execChartFlush, execAnchor, execCalBankSel,
      execContainNow, execChannelEnable, execChannelDisable, execSwReq, execChannelDesc, execMqEnable, execMqCons, execPwinPages,
      execPwinGo, execAlertClr, execHoldResume, hn, hn', hl, Bool.false_eq_true, if_false]
  all_goals exact nomatch hc

/-- Settles O17: the row acts on the state that Idle-dock left. -/
theorem registerWritesLeaveIdleDock : Obligations.RegisterWritesLeaveIdleDock :=
  fun _ _ hc hn h => ⟨State.leaveDock_phase_running h, exec_leaveDock hc h hn⟩

end Dock

/-- The reasons of R468 are numbered 1 to 5. -/
theorem State.dockRefusal_le {s : State} {r : Nat} (h : s.dockRefusal = some r) : r ≤ 5 := by
  unfold State.dockRefusal at h
  repeat' split at h
  all_goals cases h <;> decide

/-- Settles O16: the refusal decides which branch of DOCK_ENTER is taken, and DOCK_EXIT only leaves. -/
theorem dockIsEnteredAndLeft : Obligations.DockIsEnteredAndLeft := by
  unfold Obligations.DockIsEnteredAndLeft
  refine ⟨?enter, ?refuse, ?exit⟩
  case enter =>
    intro s hn hrun hok
    have hexec : exec .dockEnter s = .next ((s.withGcs { s.gcs with phase := .dock }).count32 Reg.gcsDockCount 1) := by
      simp [exec, execDockEnter, hn, s.leaveDock_phase (by simp [hrun]), hok, hrun]
    have hgcs : Only [.gcs, .phase, .regs] s (s.withGcs { s.gcs with phase := .dock }) :=
      only_withGcs (Only.refl _ s) rfl (.inr rfl) (.inr rfl) (.inl rfl) (.inr id)
    exact ⟨_, hexec, rfl, State.count32_only hgcs rfl _ _⟩
  case refuse =>
    intro s r hn hdock hr
    have hexec : exec .dockEnter s = .next (s.setRegN Reg.gcsDock (r * 2 ^ 8)) := by
      simp [exec, execDockEnter, hn, s.leaveDock_phase hdock, hr]
    have hle := State.dockRefusal_le hr
    exact ⟨_, hexec, (s.regN_setRegN _ _).trans (Nat.mod_eq_of_lt (by omega)), State.setRegN_only (Only.refl _ s) rfl _ _⟩
  case exit =>
    intro s hn hdock
    have hexec : exec .dockExit s = .next s.leaveDock := if_neg (by simp [hn])
    exact ⟨_, hexec, State.leaveDock_phase_running hdock, congrArg Gcs.deferredCalendar (s.leaveDock_gcs hdock),
      State.leaveDock_only (Only.refl _ s) rfl⟩

end Sys2Proof.Machine
end

section
/-! PROOFS. Every command has a meaning (spec/95_what_each_step_holds.md): each branch of each meaning answers a next state, so that none
faults and none is refused. -/

namespace Sys2Proof.Machine

/-- An outcome is a next state. -/
def GoesOn (o : Host.Outcome State Fault Refusal) : Prop := ∃ t, o = .next t

theorem goesOn_next (t : State) : GoesOn (.next t) := ⟨t, rfl⟩

/-- A guard under which nothing more is decided. -/
theorem goesOn_guard {p : Prop} [Decidable p] {t : State} {o : Host.Outcome State Fault Refusal} (h : GoesOn o) :
    GoesOn (if p then .next t else o) := by
  split
  · exact goesOn_next t
  · exact h

/-- A deferred start serves one of thirteen packets, each of which is answered, or changes nothing. -/
theorem goesOn_execDeferredCommandStart (src : CmdSrc) (s : State) : GoesOn (execDeferredCommandStart src s) := by
  unfold execDeferredCommandStart
  split
  · exact goesOn_next _
  · repeat' refine goesOn_guard ?_
    exact goesOn_next _

/-- Every meaning ends in a next state: after one or more guards, in each branch of what it looks up in the state, or at once. -/
theorem goesOn_exec (c : Instr) (s : State) : GoesOn (exec c s) := by
  cases c
  case deferredCommandStart src => exact goesOn_execDeferredCommandStart src s
  case watchBoundary | generationLimit | startupCalibrationDone | calTemperatureCheck | calIntervalDue | anchor | resilverComplete
      | lifeRecordDue | chartFlush | driveFlushComplete | shutdownTimeout | portSealLimit | receiverDetection | recoveryTimeout
      | quarantineReset | driveAsyncEvent | healthPoll | driveL1Entry | groupDrainEnd | groupWakeDelay | tagQuarantineExpiry
      | dataRingDoorbell | commandRingDoorbell | ringDisableComplete | privLock | haltCloseEnd | msixUnmask | cesIdleSelfTest
      | catchupExtentDone | rebuildStripeDone | rebuildRetakeLimit | rowArbitrationDone | scrubRowReadComplete
      | cacheInvalidationDone | victimTierEmptied | portContainment | containNow | hostCorrectableWindow | hostL1Entry | l0pNarrow
      | l0pWiden | hostLinkUp | barSizeWrite | d0Return | flr | perstN | hotReset | poolPageRelease | jtagDebugAttempt
      | decayFloorCrossed | mapStoreTrainingDone | almanacComplete | dockExit | powerLoss | powerOn | softReset | journalWalkEnd
      | setDrainComplete | mgmtWatchdog | sCrr | sCrw | flitError | probeTimeout | fenceWaitExpiry | pairWaitExpiry
      | takeoverComplete | joinTimeout | fenceInFall | chainProbe | alertAck | alertClr | chainTod | chainBreak
      | chainFrameForward | chainFrameCrcError | dpgClkreqN =>
    exact goesOn_guard <| goesOn_next _
  case holdoverTick | portResetEnd | channelEnable | swReq | channelDesc | pwinPages | ringDisable | commandRingDisable
      | eventRingDisable | cesSelfTestComplete | scrubPassStart | chainReset | pairLaneRetrain | probeReply | scratchWrite
      | scratchRead | alertQuery | lowerHalfRead =>
    exact goesOn_guard <| goesOn_guard <| goesOn_next _
  case drainTimeout | channelDisable | mqEnable | mapChannelFailure | hpuRelease | holdQualificationExpiry | chainEnum =>
    exact goesOn_guard <| goesOn_guard <| goesOn_guard <| goesOn_next _
  case registerWrite =>
    exact goesOn_guard <| goesOn_guard <| goesOn_guard <| goesOn_guard <| goesOn_next _
  case calBankSel =>
    exact goesOn_guard <| goesOn_guard <| goesOn_guard <| goesOn_guard <| goesOn_guard <| goesOn_next _
  case fixPpsEdge | todLapse | sealGraceExpiry | watchLengthChange | railSample | junctionSample | calRunStart | calCopyComplete
      | calSweepComplete | recordCommit | relocation | lookupAccept | lookupComplete | driveReadComplete | driveWriteComplete
      | deadReckoningThreshold | hardTimeout | writeLagLimit | driveBringupComplete | ioWrite | ioWriteZeroes | allocationRetry
      | ioRead | ioVerify | ioNop | burstGrant | moverReadCompletion | moverReadTimeout | transferComplete | flushReadComplete
      | copy | mqCons | eventRingDoorbell | ringEnable | descriptorFetch | descriptorReadComplete | ringReadTimeout
      | msixHoldoffExpiry | codingPassDispatch | codingPassComplete | decodeSolveComplete | rebuildPacingWindow
      | rebuildCursorDurable | scrubPacingWindow | resyncRowDone | tierMoveComplete | rangeWalkEnd | bar2Write | bar2Read | pwinGo
      | pwinCommitInForce | bootComplete | surveyComplete | dockEnter | setReplayEnd | driveAdminComplete | holdResume
      | fwRestartDone | bufferReadComplete | bufferReadTimeout | sLdt | sRaise | reactionStart | chainCmd =>
    dsimp only [exec, execFixPpsEdge, execTodLapse, execSealGraceExpiry, execWatchLengthChange, execRailSample, execJunctionSample,
      execCalRunStart, execCalCopyComplete, execCalSweepComplete, execRecordCommit, execRelocation, execLookupAccept,
      execLookupComplete, execDriveReadComplete, execDriveWriteComplete, execDeadReckoningThreshold, execHardTimeout,
      execWriteLagLimit, execDriveBringupComplete, execIoWrite, execIoWriteZeroes, execAllocationRetry, execIoRead,
      execIoVerify, execIoNop, execBurstGrant, execMoverReadCompletion, execMoverReadTimeout, execTransferComplete,
      execFlushReadComplete, execCopy, execMqCons, execEventRingDoorbell, execRingEnable, execDescriptorFetch,
      execDescriptorReadComplete, execRingReadTimeout, execMsixHoldoffExpiry, execCodingPassDispatch,
      execCodingPassComplete, execDecodeSolveComplete, execRebuildPacingWindow, execRebuildCursorDurable,
      execScrubPacingWindow, execResyncRowDone, execTierMoveComplete, execRangeWalkEnd, execBar2Write, execBar2Read,
      execPwinGo, execPwinCommitInForce, execBootComplete, execSurveyComplete, execDockEnter, execSetReplayEnd,
      execDriveAdminComplete, execHoldResume, execFwRestartDone, execBufferReadComplete, execBufferReadTimeout, execSLdt,
      execSRaise, execReactionStart, execChainCmd]
    repeat' split
    all_goals exact goesOn_next _
  all_goals exact goesOn_next _

/-- Settles O5: no branch of any meaning is a fault or a refusal. -/
theorem everyCommandCompletes : Obligations.EveryCommandCompletes := goesOn_exec

end Sys2Proof.Machine
end

section
/-! PROOFS. The scratch buffer (spec/08_command_packets.md): what keeps it in canonical form, the answer of a sector, which
SET_READ_PRESERVED may put into the buffer, and the row operations that end in one. -/

namespace Sys2Proof.Machine

/-- The scratch buffer is in canonical form. -/
def State.ScratchWf (s : State) : Prop := Memory.wf s.interp.scratch = true

/-- Every part of the state but the scratch buffer. -/
def allButScratch : List Field :=
  [.gcs, .part, .startup, .phase, .halt, .regs, .flt, .sources, .first, .reactions, .ctxs, .sets, .incarnations, .profiles, .cht, .log,
    .banks, .wch, .timer, .rings, .privLock, .ios, .nextId, .dcmds, .ports, .portGroups, .rowOps, .commits, .passes, .arbitrating,
    .clusters, .scc, .dmv, .interp, .sec, .otp, .rollback, .mon, .monitor, .pair, .role, .chn, .address, .hpus, .links, .pwin, .pool,
    .map, .sched, .freeCount, .out, .pending]

section Combine
variable {s t : State}

theorem State.ScratchWf.of_only (h : s.ScratchWf) (o : Only allButScratch s t) : t.ScratchWf := by
  have e : t.interp.scratch = s.interp.scratch := o .scratch (by decide)
  unfold State.ScratchWf
  rw [e]
  exact h

theorem scratchWf_of_nil {s : State} (h : s.interp.scratch = []) : s.ScratchWf := by
  unfold State.ScratchWf
  rw [h]
  rfl

theorem scratchWf_ite {p : Prop} [Decidable p] (hs : s.ScratchWf) (ht : t.ScratchWf) : (if p then s else t).ScratchWf := by
  split
  · exact hs
  · exact ht

theorem scratchWf_foldl {α : Type} {l : List α} {f : State → α → State} (h : s.ScratchWf)
    (hf : ∀ u x, u.ScratchWf → (f u x).ScratchWf) : (l.foldl f s).ScratchWf := by
  induction l generalizing s with
  | nil => exact h
  | cons x l ih => exact ih (hf s x h)

theorem scratchWf_foldlFst {α β : Type} {l : List α} {f : State × β → α → State × β} {p : State × β} (h : p.1.ScratchWf)
    (hf : ∀ p x, p.1.ScratchWf → (f p x).1.ScratchWf) : (l.foldl f p).1.ScratchWf := by
  induction l generalizing p with
  | nil => exact h
  | cons x l ih => exact ih (hf p x h)

end Combine

theorem scratchWf_fst {α : Type} {x : State × α} {t : State} {a : α} (h : x.1.ScratchWf) (e : x = (t, a)) : t.ScratchWf := by
  rw [e] at h
  exact h

section Answers
variable {s : State} (h : s.ScratchWf)
include h

theorem State.ScratchWf.writeBuffer (src : CmdSrc) (pkt : Bytes) (off : Nat) (data : Bytes) :
    (s.writeBuffer src pkt off data).1.ScratchWf := by
  unfold State.writeBuffer
  dsimp only
  split
  · exact Memory.writeBytes_wf _ _ h
  · split
    · exact h
    · split
      · exact h
      · exact scratchWf_ite h (h.of_only (State.hostOut_only (Only.refl _ s) rfl _ _))

theorem State.ScratchWf.deliverPreserved (d : Deferred) : (s.deliverPreserved d).ScratchWf := by
  unfold State.deliverPreserved
  extract_lets lba n addr out u
  have hu : u.ScratchWf := scratchWf_foldlFst h fun _ _ hacc => hacc.writeBuffer _ _ _ _
  split
  · exact hu.of_only (State.endDeferred_only (Only.refl _ u) rfl _ _ _ _)
  · split
    · exact hu.of_only (State.endDeferred_only (Only.refl _ u) rfl _ _ _ _)
    · exact hu.of_only (State.endDeferred_only (State.freeByte_only (Only.refl _ u) rfl) rfl _ _ _ _)

theorem State.ScratchWf.answerPreserved (id : Nat) (res : Option Bytes) : (s.answerPreserved id res).ScratchWf := by
  unfold State.answerPreserved
  split
  · exact h
  · extract_lets mine d interp u
    have hu : u.ScratchWf := h
    exact scratchWf_ite (hu.deliverPreserved d) hu

theorem State.ScratchWf.answer (id : Nat) (res : Option Sector) : (s.answer id res).ScratchWf :=
  (h.of_only (State.answerCommits_only (State.answerIos_only (Only.refl _ s) rfl _ _) rfl _ _ _
    fun _ _ hu => State.commitReady_only hu rfl _)).answerPreserved _ _

/-! ### Shared updates that leave the buffer alone -/

theorem State.ScratchWf.setRowOp (o : RowOp) : (s.setRowOp o).ScratchWf := h.of_only (State.setRowOp_only (Only.refl _ s) rfl o)

theorem State.ScratchWf.dropRowOp (id : Nat) : (s.dropRowOp id).ScratchWf :=
  h.of_only (State.dropRowOp_only (Only.refl _ s) rfl id)

theorem State.ScratchWf.endFill (id : Nat) (x : Option Sector) : (s.endFill id x).ScratchWf :=
  h.of_only (State.endFill_only (Only.refl _ s) rfl id x)

theorem State.ScratchWf.arbitrate (set : BitVec 6) (stripe row : Nat) : (s.arbitrate set stripe row).ScratchWf :=
  h.of_only (State.arbitrate_only (Only.refl _ s) rfl set stripe row)

theorem State.ScratchWf.sectorFault (p detail : Byte) : (s.sectorFault p detail).ScratchWf :=
  h.of_only (State.sectorFault_only (Only.refl _ s) rfl p detail)

theorem State.ScratchWf.modPort (p : Byte) (f : Port → Port) : (s.modPort p f).ScratchWf :=
  h.of_only (State.modPort_only (Only.refl _ s) rfl p f)

theorem State.ScratchWf.evalLog : s.evalLog.ScratchWf := h.of_only (State.evalLog_only (Only.refl _ s) rfl)

theorem State.ScratchWf.rowReads {o o' : RowOp} {l : List Nat} {t : State} (e : s.rowReads o l = (t, o')) : t.ScratchWf :=
  scratchWf_fst (h.of_only (State.rowReads_only (Only.refl _ s) rfl o l)) e

/-! ### Row operations (spec/06_degraded_and_rebuild.md) -/

theorem State.ScratchWf.lostRow (o : RowOp) : (s.lostRow o).ScratchWf := by
  unfold State.lostRow
  split
  · exact h.of_only (State.rebuildLost_only (Only.refl _ s) rfl _)
  · exact h.modPort _ _
  · exact ((h.of_only (State.reportLost_only (Only.refl _ s) rfl _ _ _ _)).endFill _ _).answer _ _

theorem State.ScratchWf.loseRow (o : RowOp) : (s.loseRow o).ScratchWf :=
  scratchWf_ite (h.dropRowOp _) ((h.dropRowOp _).lostRow o)

theorem State.ScratchWf.rowChoose (o : RowOp) : (s.rowChoose o).ScratchWf := by
  unfold State.rowChoose
  extract_lets p
  split
  · exact h.loseRow o
  · extract_lets reads ver o1
    split
    next u o2 e =>
      have hu := h.rowReads e
      split
      next v o3 e =>
        refine State.ScratchWf.setRowOp ?_ _
        split at e
        · exact scratchWf_fst (hu.of_only (State.matrixLookup_only (Only.refl _ u) rfl _)) e
        · exact scratchWf_fst (x := (u, _)) hu e

theorem State.ScratchWf.acceptRow (o : RowOp) (data : Bytes) (prediction : Option Bytes) (repairs : List (Nat × Bytes)) :
    (s.acceptRow o data prediction repairs).ScratchWf := by
  unfold State.acceptRow
  extract_lets vd vp o1 s1 fl x s2 s3 s4 s5 s6
  split
  · exact (h.setRowOp _).arbitrate _ _ _
  · have h2 : s2.ScratchWf := (h.setRowOp o1).of_only (State.insertSurvivors_only (Only.refl _ s1) rfl _)
    have h3 : s3.ScratchWf := scratchWf_ite h2
      (scratchWf_foldl h2 fun _ _ hu => hu.of_only (State.restoreWrite_only (Only.refl _ _) rfl _ _ _ _ _ _ _ _ _ _))
    split
    · exact (h3.of_only (State.rebuildStore_only (Only.refl _ s3) rfl _ _)).dropRowOp _
    · exact (h3.of_only (State.catchupStore_only (Only.refl _ s3) rfl _ _)).dropRowOp _
    · have h4 : s4.ScratchWf := h3.of_only (State.count64_only (Only.refl _ s3) rfl _ _)
      have h5 : s5.ScratchWf := scratchWf_ite (h4.endFill _ _) (h4.of_only (State.insertClean_only (Only.refl _ s4) rfl _ _ _ _ _))
      exact scratchWf_ite (h5.answer _ _) ((h5.answer _ _).dropRowOp _)

theorem State.ScratchWf.rowPass (o : RowOp) (p : Profile) : (s.rowPass o p).ScratchWf := by
  unfold State.rowPass
  split
  · exact h.loseRow o
  · exact (h.setRowOp _).of_only (State.queuePass_only (Only.refl _ _) rfl _ _ _ _ _)

omit h in
theorem State.ScratchWf.rowDecode (fuel : Nat) {s : State} (h : s.ScratchWf) (o : RowOp) : (s.rowDecode o fuel).ScratchWf := by
  induction fuel generalizing s o with
  | zero => exact h
  | succ fuel ih =>
    unfold State.rowDecode
    extract_lets p need chk s1 mask o1 s2 v o2 d
    split
    · exact h
    · split
      · exact (h.setRowOp _).arbitrate _ _ _
      · have h1 : s1.ScratchWf := scratchWf_foldl h fun _ _ hu => hu.sectorFault _ _
        split
        · split
          · exact h1.rowChoose _
          · exact ih (h1.rowChoose _) _
        · exact scratchWf_ite (h.acceptRow _ _ _ _) (h.rowPass _ _)

theorem State.ScratchWf.rowBlank (o : RowOp) : (s.rowBlank o).ScratchWf := by
  unfold State.rowBlank
  extract_lets p s1 mask o1 s2
  split
  · have h2 : s2.ScratchWf := (scratchWf_foldl h fun _ _ hu => hu.sectorFault _ _).rowChoose _
    split
    · exact h2
    · exact h2.rowDecode _ _
  · exact scratchWf_ite (((h.dropRowOp _).endFill _ _).answer _ _) (h.loseRow _)

theorem State.ScratchWf.rowVerify (o : RowOp) : (s.rowVerify o).ScratchWf := by
  unfold State.rowVerify
  dsimp only
  split
  · exact (h.dropRowOp _).answer _ _
  · exact scratchWf_ite ((h.setRowOp _).arbitrate _ _ _) ((h.dropRowOp _).answer _ _)

theorem State.ScratchWf.rowSealCheck (o : RowOp) : (s.rowSealCheck o).ScratchWf := by
  unfold State.rowSealCheck
  extract_lets p s1 s2 o1 tried chk s3 s4 s5
  split
  · split
    · have h1 : s1.ScratchWf := h.rowChoose _
      split
      · exact h1
      · exact h1.rowDecode _ _
    · split
      next u o2 e => exact scratchWf_ite ((h.rowReads e).rowBlank _) ((h.rowReads e).setRowOp _)
  · have h2 : s2.ScratchWf := scratchWf_foldl h fun _ _ hu => hu.sectorFault _ _
    split
    · split
      next u o2 e => exact (scratchWf_fst (h2.of_only (State.rowRead_only (Only.refl _ s2) rfl _ _)) e).setRowOp _
    · split
      · have h4 : s4.ScratchWf := (h2.sectorFault _ _).rowChoose _
        split
        · exact h4
        · exact h4.rowDecode _ _
      · have h5 : s5.ScratchWf := scratchWf_ite (h2.arbitrate _ _ _) h2
        exact ((h5.dropRowOp _).endFill _ _).answer _ _

theorem State.ScratchWf.rowStep (id : Nat) : (s.rowStep id).ScratchWf := by
  unfold State.rowStep
  split
  · exact h
  · next o _ =>
    split
    · exact h.rowDecode _ _
    · exact scratchWf_ite (h.rowBlank _) h
    · exact scratchWf_ite (h.rowVerify _) h
    · exact scratchWf_ite (h.rowSealCheck _) h

theorem State.ScratchWf.startRowWith (set : BitVec 6) (rev : Revision) (stripe row frag orig : Nat) (mode : RowMode)
    (purpose : Purpose) (bad : List Nat) (got : List (Nat × Sector)) :
    (s.startRowWith set rev stripe row frag orig mode purpose bad got).ScratchWf := by
  unfold State.startRowWith
  extract_lets p base id o u
  have hu : u.ScratchWf := h
  split
  · exact (hu.rowChoose _).rowStep _
  · split
    next v o1 e => exact ((hu.rowReads e).setRowOp _).rowStep _
  · split
    next v o1 e => exact ((hu.rowReads e).setRowOp _).rowStep _

theorem State.ScratchWf.startRow (set : BitVec 6) (rev : Revision) (stripe row frag orig : Nat) (mode : RowMode)
    (purpose : Purpose) (bad : List Nat) : (s.startRow set rev stripe row frag orig mode purpose bad).ScratchWf :=
  h.startRowWith ..

theorem State.ScratchWf.rowSector (id f : Nat) (cls : SectorClass) (x : Option Sector) : (s.rowSector id f cls x).ScratchWf := by
  unfold State.rowSector
  split
  · exact h
  · extract_lets o1 blank o2
    split
    · exact (h.setRowOp _).rowStep _
    · split
      · exact (h.setRowOp _).rowStep _
      · split
        · split
          · exact (scratchWf_ite (h.sectorFault _ _) h).setRowOp _
          · split
            · split
              next u o3 e => exact ((h.rowReads e).setRowOp _).rowStep _
            · exact ((h.setRowOp _).rowChoose _).rowStep _
        · exact (h.setRowOp _).rowStep _

end Answers

end Sys2Proof.Machine
end

section
/-! PROOFS. The scratch buffer, continued: reads of drives that complete, fail or go elsewhere, and ports that fail, reset or lose
their link. -/

namespace Sys2Proof.Machine

section Drives
variable {s : State} (h : s.ScratchWf)
include h

theorem State.ScratchWf.commitSwitch (c : CommitOp) : (s.commitSwitch c).ScratchWf :=
  h.of_only (State.commitSwitch_only (Only.refl _ s) rfl c)

theorem State.ScratchWf.slowSelf (d : DriveCmd) : (s.slowSelf d).ScratchWf :=
  scratchWf_ite h <| scratchWf_ite (h.startRow ..) <| scratchWf_ite h (h.startRow ..)

theorem State.ScratchWf.slowRead (d : DriveCmd) : (s.slowRead d).ScratchWf := by
  unfold State.slowRead
  split
  case h_1 | h_2 | h_3 | h_4 => exact h.slowSelf d
  case h_5 =>
    split
    · exact scratchWf_ite (h.slowSelf d) (h.commitSwitch _)
    · exact h.slowSelf d
  case h_6 =>
    split
    · exact h
    · exact scratchWf_ite (((h.setRowOp _).rowChoose _).rowStep _) <| scratchWf_ite h (h.rowSector ..)
  case h_7 => exact h.endFill _ _

theorem State.ScratchWf.endCommands (gone : Bool) (ds : List DriveCmd) : (s.endCommands gone ds).ScratchWf := by
  refine scratchWf_foldl h fun u d hu => ?_
  extract_lets v
  have hv : v.ScratchWf := scratchWf_ite (hu.of_only (State.dropCmd_only (Only.refl _ u) rfl _))
    (hu.of_only (State.quarantine_only (Only.refl _ u) rfl _))
  split
  · exact hv.slowRead d
  · exact hv.of_only (State.writeSettled_only (Only.refl _ v) rfl _)
  · exact hv

theorem State.ScratchWf.failPort (p detail : Byte) (gone : Bool) : (s.failPort p detail gone).ScratchWf := by
  refine scratchWf_ite h (State.ScratchWf.of_only (State.ScratchWf.endCommands ?_ _ _) (State.autoRetire_only (Only.refl _ _) rfl _))
  exact (h.modPort _ _).of_only (State.mediaFault_only (Only.refl _ _) rfl _ _ _)

theorem State.ScratchWf.startReset (p : Byte) (src : Option CmdSrc) : (s.startReset p src).ScratchWf := by
  unfold State.startReset
  extract_lets was ds s1 s2 id
  have h2 : s2.ScratchWf := (h.modPort _ _).endCommands _ _
  exact scratchWf_ite h2 (h2.of_only (only_withOut (State.modPort_only (Only.refl _ s2) rfl _ _) rfl))

theorem State.ScratchWf.readElsewhere (r : LookupReq) : (s.readElsewhere r).ScratchWf := by
  unfold State.readElsewhere
  split
  · exact h.endFill _ _
  · exact h.rowSector ..
  · split
    · exact h.commitSwitch _
    · exact h.startRow ..
  · exact h.startRow ..

theorem State.ScratchWf.catchupRow (d : DriveCmd) (x : Option Sector) : (s.catchupRow d x).ScratchWf := h.startRowWith ..

theorem State.ScratchWf.insertClean (k : LineKey) (c : CacheClass) (data : Bytes) (q : Seal) (age : Nat) :
    (s.insertClean k c data q age).ScratchWf := h.of_only (State.insertClean_only (Only.refl _ s) rfl _ _ _ _ _)

theorem State.ScratchWf.sectorGood (d : DriveCmd) (x : Sector) : (s.sectorGood d x).ScratchWf := by
  unfold State.sectorGood
  split
  · exact h.rowSector ..
  · extract_lets u
    have hu : u.ScratchWf := h.insertClean ..
    split
    · exact hu
    · refine scratchWf_ite hu ?_
      split
      · exact hu
      · exact hu.of_only (State.driveWrite_only (Only.refl _ u) rfl _ _ _ _ _ _ _ _)
  · exact h.insertClean ..
  · exact h.catchupRow ..
  · exact (h.endFill ..).answer ..

theorem State.ScratchWf.sectorBad (d : DriveCmd) (cls : SectorClass) : (s.sectorBad d cls).ScratchWf := by
  unfold State.sectorBad
  extract_lets rev blank
  split
  · exact (scratchWf_ite h (h.sectorFault _ _)).rowSector ..
  · exact (h.endFill ..).sectorFault _ _
  · exact (scratchWf_ite h (h.sectorFault _ _)).catchupRow ..
  · split
    · exact scratchWf_ite (h.commitSwitch _) (h.startRow ..)
    · exact scratchWf_ite ((h.sectorFault _ _).commitSwitch _) (((h.sectorFault _ _).commitSwitch _).startRow ..)
    · exact h.startRow ..
    · exact (h.sectorFault _ _).startRow ..

theorem State.ScratchWf.readDone (d : DriveCmd) (cls : SectorClass) (x : Option Sector) : (s.readDone d cls x).ScratchWf := by
  unfold State.readDone
  split
  · split
    · exact h.of_only (State.lateOriginal_only (Only.refl _ s) rfl _ _ _ _ _)
    · exact scratchWf_ite (scratchWf_ite h (((h.dropRowOp _).endFill ..).answer ..))
        ((scratchWf_ite h (h.sectorFault _ _)).rowSector ..)
  · exact h
  · exact scratchWf_ite (h.sectorGood ..) (h.sectorBad ..)
  · exact h.sectorBad ..

theorem State.ScratchWf.readError (d : DriveCmd) : (s.readError d).ScratchWf := by
  unfold State.readError
  split
  · exact h
  · exact h.rowSector ..
  · exact h.endFill ..
  · exact h.catchupRow ..
  · extract_lets rev
    split
    · exact scratchWf_ite (h.commitSwitch _) ((h.commitSwitch _).startRow ..)
    · exact h.startRow ..

theorem State.ScratchWf.loseLink (p : Byte) : (s.loseLink p).ScratchWf := by
  refine State.ScratchWf.endCommands ?_ _ _
  exact h.of_only (only_withDcmds (State.freeQuarantine_only (Only.refl _ s) rfl _) rfl)

theorem State.ScratchWf.portLinkDown (port : Byte) (receiver : Bool) : (s.portLinkDown port receiver).ScratchWf := by
  unfold State.portLinkDown
  extract_lets v s1 s2
  split
  · have h1 : s1.ScratchWf := h.of_only (State.count32_only (Only.refl _ s) rfl _ _)
    exact scratchWf_ite ((h1.modPort _ _).loseLink _)
      (((h1.modPort _ _).of_only (State.freeQuarantine_only (Only.refl _ _) rfl _)).failPort ..)
  · refine scratchWf_ite h (State.ScratchWf.of_only (s := s2) ((h.modPort _ _).failPort ..) ?_)
    exact State.groupUp_only (State.endFor_only (Only.refl _ s2) rfl _ _ _ _) rfl _
  · exact h

end Drives

end Sys2Proof.Machine
end

section
/-! PROOFS. The scratch buffer, continued: released coding passes, rebuild, arbitration, command packets and forwarded descriptors. -/

namespace Sys2Proof.Machine

section Work
variable {s : State} (h : s.ScratchWf)
include h

theorem State.ScratchWf.sealReads (io : Io) : (s.sealReads io).ScratchWf := by
  refine scratchWf_ite h (scratchWf_foldl h fun u w hu => scratchWf_ite hu ?_)
  exact hu.startRow ..

theorem State.ScratchWf.verifyReads (set : BitVec 6) (a : ArraySet) (io : Io) :
    (io.waits.foldl (fun u w =>
      let (stripe, frag, row) := u.placeOfBlock a w.2
      u.startRow set (a.revFor stripe) stripe row frag w.1 .verify (.verify io.id) []) s).ScratchWf :=
  scratchWf_foldl h fun _ _ hu => hu.startRow ..

theorem State.ScratchWf.ioGathered (io : Io) : (s.ioGathered io).ScratchWf := h.of_only (State.ioGathered_only (Only.refl _ s) rfl io)

theorem State.ScratchWf.setIo (io : Io) : (s.setIo io).ScratchWf := h.of_only (State.setIo_only (Only.refl _ s) rfl io)

theorem State.ScratchWf.release (p : Pass) (outputs : List Bytes) : (s.release p outputs).ScratchWf := by
  unfold State.release
  split
  · split
    · exact h
    · exact scratchWf_ite h (h.acceptRow ..)
  · split
    · exact h
    · next c _ =>
      extract_lets prof u
      have hu : u.ScratchWf := h.of_only (State.commitCoded_only (Only.refl _ s) rfl _ _)
      split
      · exact hu.of_only (State.settleIntent_only (Only.refl _ u) rfl _)
      · exact hu
  · exact h

theorem State.ScratchWf.matrixReady (c : Bool) (key : BitVec 6 × Word64) : (s.matrixReady c key).ScratchWf := by
  refine scratchWf_foldl h fun u o hu => ?_
  split
  · exact hu
  · exact (hu.setRowOp _).rowStep _

theorem State.ScratchWf.matrixRetry : s.matrixRetry.ScratchWf := by
  refine scratchWf_foldl h fun u o hu => ?_
  split
  next v o1 e => exact ((scratchWf_fst (hu.of_only (State.matrixLookup_only (Only.refl _ u) rfl _)) e).setRowOp _).rowStep _

theorem State.ScratchWf.rebuildRow (set : BitVec 6) (stripe row : Nat) (frags : List Nat) :
    (s.rebuildRow set stripe row frags).ScratchWf :=
  scratchWf_foldl h fun u _ hu => scratchWf_ite (hu.of_only (State.requestRead_only (Only.refl _ u) rfl _ _ _ _ _ _ _)) <|
    scratchWf_ite hu (hu.startRow ..)

theorem State.ScratchWf.takeStripe (set : BitVec 6) (next : Revision) (stripe : Nat) : (s.takeStripe set next stripe).ScratchWf := by
  refine scratchWf_foldl ?_ fun _ _ hu => hu.rebuildRow ..
  exact h.of_only (State.setSet_only (Only.refl _ s) rfl _ _)

omit h in
theorem State.ScratchWf.startStripes (set : BitVec 6) (next : Revision) (n : Nat) {s : State} (h : s.ScratchWf) (use : WindowUse) :
    (s.startStripes set next n use).ScratchWf := by
  induction n generalizing s use with
  | zero => exact h
  | succ n ih =>
    unfold State.startStripes
    extract_lets a again last fresh room pick limit
    clear_value pick
    split
    · exact h
    · refine scratchWf_ite (h.of_only (State.stripeCommit_only (Only.refl _ s) rfl _ _ _ _)) (scratchWf_ite h ?_)
      exact ih (h.takeStripe ..) _

theorem State.ScratchWf.voidedRead (o : RowOp) (v : Verdict) (r : RowRead) : (s.voidedRead o v r).ScratchWf := by
  unfold State.voidedRead
  extract_lets p
  split
  · exact (h.dropRowOp _).answer ..
  · exact (h.dropRowOp _).answer ..
  · split
    · exact (h.dropRowOp _).lostRow _
    · split
      · exact scratchWf_ite (h.dropRowOp _) ((h.of_only (State.rebuildStore_only (Only.refl _ s) rfl _ _)).dropRowOp _)
      · exact scratchWf_ite (h.dropRowOp _) ((h.of_only (State.catchupStore_only (Only.refl _ s) rfl _ _)).dropRowOp _)
      · exact scratchWf_ite (((h.endFill ..).answer ..).setRowOp _) (((h.endFill ..).answer ..).dropRowOp _)

theorem State.ScratchWf.arbitrated (set : BitVec 6) (stripe row : Nat) (r : RowRead) : (s.arbitrated set stripe row r).ScratchWf := by
  unfold State.arbitrated
  extract_lets a p rev s1 chk v s2 s3
  have h1 : s1.ScratchWf := h
  have h2 : s2.ScratchWf := scratchWf_ite h1 (h1.of_only (State.rowFaults_only (Only.refl _ s1) rfl _ _ _ _ _))
  have h3 : s3.ScratchWf := by
    unfold s3
    generalize v = verdict
    split
    · exact h2.of_only (State.repairRow_only (Only.refl _ s2) rfl _ _ _ _ _ _ _)
    · exact scratchWf_ite h2 (h2.of_only (State.mediaFault_only (State.modSet_only (Only.refl _ s2) rfl _ _) rfl _ _ _))
  exact scratchWf_foldl h3 fun _ _ hu => hu.voidedRead ..

/-! ### Packets -/

theorem State.ScratchWf.reply (src : CmdSrc) (pkt : Bytes) (status detail : Byte) (result : Bytes) :
    (s.reply src pkt status detail result).ScratchWf := h.of_only (State.reply_only (Only.refl _ s) rfl _ _ _ _ _)

theorem State.ScratchWf.startDeferred (src : CmdSrc) (pkt : Bytes) : (s.startDeferred src pkt).1.ScratchWf :=
  h.of_only (State.startDeferred_only (Only.refl _ s) rfl _ _)

theorem State.ScratchWf.startReadPreserved (src : CmdSrc) (pkt : Bytes) : (s.startReadPreserved src pkt).ScratchWf := by
  unfold State.startReadPreserved
  extract_lets s1 s2
  have h2 : s2.ScratchWf := scratchWf_foldl (h.startDeferred src pkt)
    fun u _ hu => hu.of_only (State.readPreserved_only (Only.refl _ u) rfl _ _ _)
  split
  · exact h2
  · exact scratchWf_ite (h2.deliverPreserved _) h2

theorem State.ScratchWf.reformPort (p : Byte) (width : Nat) : (s.reformPort p width).ScratchWf := by
  unfold State.reformPort
  refine scratchWf_ite (scratchWf_ite h ?_) ?_
  · exact ((h.endCommands ..).of_only (State.freeQuarantine_only (Only.refl _ _) rfl _)).modPort _ _
  · extract_lets was u
    have hu : u.ScratchWf := h.modPort _ _
    clear_value was
    split
    · exact hu.modPort _ _
    · exact hu.startReset ..
    · exact hu.startReset ..
    · exact hu

theorem State.ScratchWf.configPort (src : CmdSrc) (pkt : Bytes) : (s.configPort src pkt).ScratchWf :=
  (scratchWf_foldl ((h.modPort _ _).reply ..) fun _ _ hu => hu.reformPort ..).evalLog

theorem State.ScratchWf.finishAdmin (port : Byte) (d : Deferred) (cqe data : Bytes) : (s.finishAdmin port d cqe data).ScratchWf := by
  unfold State.finishAdmin
  extract_lets pkt len moved
  split
  next u ok e =>
    have hu : u.ScratchWf := by
      split at e
      · exact scratchWf_fst (h.writeBuffer ..) e
      · exact scratchWf_fst (x := (s, true)) h e
    exact scratchWf_ite (hu.of_only (State.endDeferred_only (Only.refl _ u) rfl _ _ _ _))
      (hu.of_only (State.endDeferred_only (Only.refl _ u) rfl _ _ _ _))

theorem State.ScratchWf.readLife (src : CmdSrc) (pkt : Bytes) :
    (match s.writeBuffer src pkt 0x20 s.log.life.payload with
      | (u, ok) =>
        if ok then u.reply src pkt stOk 0 (resultOf [(0x18, 8, u.log.life.fixNs.toNat), (0x20, 8, u.log.life.seq)])
        else u.reply src pkt stContained 1 []).ScratchWf :=
  scratchWf_ite ((h.writeBuffer ..).reply ..) ((h.writeBuffer ..).reply ..)

theorem State.ScratchWf.commitImage (src : CmdSrc) (pkt : Bytes) : (s.commitImage src pkt).ScratchWf := by
  unfold State.commitImage
  extract_lets v sec s1 s2
  have h1 : s1.ScratchWf := h
  have h2 : s2.ScratchWf := h1.startDeferred src pkt
  exact scratchWf_ite (scratchWf_of_nil rfl) (scratchWf_ite (h1.reply ..) h2)

/-! ### Flits -/

theorem State.ScratchWf.admitFwd (f : FwdDesc) (kind : IoKind) : (s.admitFwd f kind).ScratchWf := by
  unfold State.admitFwd
  extract_lets d ring set s1 io1 io2 s2 io3 io4 s3
  have h1 : s1.ScratchWf := h.of_only (State.count64_only (Only.refl _ s) rfl _ _)
  split
  · have h2 : s2.ScratchWf := h1.of_only (State.grant_only (only_withIos (only_withNextId (Only.refl _ s1) rfl) rfl) rfl _ _ _ _ _)
    split
    next u io e =>
      have hu : u.ScratchWf := scratchWf_fst (h2.of_only (State.readBlocks_only (Only.refl _ s2) rfl _ _)) e
      exact scratchWf_ite ((hu.setIo _).ioGathered _) ((hu.setIo _).sealReads _)
  · have h3 : s3.ScratchWf := h1.of_only (State.grant_only (only_withIos (only_withNextId (Only.refl _ s1) rfl) rfl) rfl _ _ _ _ _)
    split
    next u io e =>
      have hu : u.ScratchWf := scratchWf_fst (h3.of_only (State.verifyRows_only (Only.refl _ s3) rfl _ _)) e
      exact scratchWf_ite ((hu.setIo _).ioGathered _) ((hu.setIo _).verifyReads ..)
  · exact h1.of_only (State.bindWrite_only (Only.refl _ s1) rfl _ _ _ _)

theorem State.ScratchWf.leaveDock : s.leaveDock.ScratchWf := h.of_only (State.leaveDock_only (Only.refl _ s) rfl)

theorem State.ScratchWf.tryFwd (f : FwdDesc) : (s.tryFwd f).1.ScratchWf := by
  have hgrant (ref : Nat) (st det : Byte) : (s.grant ref st det 0 0).ScratchWf :=
    h.of_only (State.grant_only (Only.refl _ s) rfl _ _ _ _ _)
  have hadmit (kind : IoKind) : (s.leaveDock.admitFwd f kind).ScratchWf := h.leaveDock.admitFwd ..
  unfold State.tryFwd
  extract_lets d a kind? parts
  clear_value kind?
  split
  · exact h
  · split
    · exact h
    · split
      · exact hgrant ..
      · split
        · split
          · exact hgrant ..
          · split
            · exact h
            · exact hadmit _
        · split
          · exact h
          · exact hadmit _

omit h in
theorem State.ScratchWf.drainFwd (l : List FwdDesc) {s : State} (h : s.ScratchWf) (held : List Half) : (s.drainFwd held l).ScratchWf := by
  induction l generalizing s held with
  | nil => exact h
  | cons f l ih =>
    unfold State.drainFwd
    split
    · exact ih h _
    · split
      · next u e =>
        have hu : u.ScratchWf := scratchWf_fst (h.tryFwd f) e
        refine ih ?_ _
        exact hu
      · next u e => exact ih (scratchWf_fst (h.tryFwd f) e) _

theorem State.ScratchWf.goodFlit (hd : FlitHdr) {run : State → State} (hrun : ∀ u, u.ScratchWf → (run u).ScratchWf) :
    (s.goodFlit hd run).ScratchWf := by
  refine scratchWf_ite h (scratchWf_ite (h.of_only (State.badFlit_only (Only.refl _ s) rfl _)) ?_)
  refine State.ScratchWf.drainFwd _ (hrun _ ?_) _
  exact h.of_only (State.count64_only (only_withPair (Only.refl _ s) rfl (.inl rfl)) rfl _ _)

end Work

end Sys2Proof.Machine
end

section
/-! PROOFS. The scratch buffer, continued: every command keeps it in canonical form. -/

namespace Sys2Proof.Machine

/-- Whatever next state an outcome answers has the property. -/
def NextHas (P : State → Prop) (o : Host.Outcome State Fault Refusal) : Prop := ∀ t, o = .next t → P t

theorem nextHas_next {P : State → Prop} {t : State} (h : P t) : NextHas P (.next t) := fun _ e => Host.Outcome.next.inj e ▸ h

theorem nextHas_ite {P : State → Prop} {p : Prop} [Decidable p] {a b : Host.Outcome State Fault Refusal} (ha : NextHas P a)
    (hb : NextHas P b) : NextHas P (if p then a else b) := by
  split
  · exact ha
  · exact hb

/-- The rows that a deferred command may start. -/
def deferredRows (src : CmdSrc) : List Instr :=
  [.setRecover src, .setReadPreserved src, .portReset src, .portAdmin src, .groupPower src, .watchSetTod src, .cleanRange src,
    .invalRange src, .discardRange src, .calRun src, .pairJoin src, .pairLeave src, .fwCommit src]

/-- A property of the state and of what each of these rows answers holds of what a deferred start answers. -/
theorem nextHas_deferred {P : State → Prop} {s : State} (h : P s) {src : CmdSrc}
    (hrow : ∀ c ∈ deferredRows src, NextHas P (exec c s)) : NextHas P (execDeferredCommandStart src s) := by
  simp only [deferredRows, List.forall_mem_cons] at hrow
  obtain ⟨hrecover, hread, hreset, hadmin, hgroup, htod, hclean, hinval, hdiscard, hcal, hjoin, hleave, hcommit, -⟩ := hrow
  unfold execDeferredCommandStart
  split
  · exact nextHas_next h
  · exact nextHas_ite hrecover <| nextHas_ite hread <| nextHas_ite hreset <| nextHas_ite hadmin <| nextHas_ite hgroup <|
      nextHas_ite htod <| nextHas_ite hclean <| nextHas_ite hinval <| nextHas_ite hdiscard <| nextHas_ite hcal <|
      nextHas_ite hjoin <| nextHas_ite hleave <| nextHas_ite hcommit (nextHas_next h)

theorem State.ScratchWf.next {t : State} (h : t.ScratchWf) : NextHas State.ScratchWf (.next t) := nextHas_next h

/-- Of the rows that a deferred command may start three reach the scratch buffer. -/
theorem scratch_not_mem_deferredRows {src : CmdSrc} : ∀ c ∈ deferredRows src,
    c = .setReadPreserved src ∨ c = .portReset src ∨ c = .fwCommit src ∨ decide (Field.scratch ∈ footprint c) = false := by
  simp only [deferredRows, List.forall_mem_cons]
  refine ⟨?_, .inl trivial, .inr (.inl trivial), ?_, ?_, ?_, ?_, ?_, ?_, ?_, ?_, ?_, .inr (.inr (.inl trivial)),
    List.forall_mem_nil _⟩ <;>
    exact .inr (.inr (.inr rfl))

section Commands
variable {s : State} (h : s.ScratchWf)
include h

/-- A command whose footprint leaves out the buffer keeps it. -/
theorem State.ScratchWf.exec_of_footprint {c : Instr} (hc : decide (Field.scratch ∈ footprint c) = false) :
    NextHas State.ScratchWf (exec c s) := by
  intro t e
  have ht : t.interp.scratch = s.interp.scratch := exec_onlyFootprint c s t e .scratch (of_decide_eq_false hc)
  unfold State.ScratchWf
  rw [ht]
  exact h

/-! ### Power -/

theorem State.ScratchWf.execPowerLoss : NextHas State.ScratchWf (execPowerLoss s) :=
  nextHas_ite h.next (scratchWf_of_nil (s := s.lostPower) rfl).next

theorem State.ScratchWf.execPowerOn (bifur cold : Bool) : NextHas State.ScratchWf (execPowerOn bifur cold s) := by
  refine nextHas_ite h.next (State.ScratchWf.next (State.ScratchWf.of_only ?_ (State.fenceAtReset_only (Only.refl _ _) rfl)))
  exact scratchWf_of_nil rfl

/-! ### Drives and their ports -/

theorem State.ScratchWf.wordErrors (errs : List WordError) : (s.wordErrors errs).ScratchWf :=
  h.of_only (State.wordErrors_only (Only.refl _ s) rfl errs)

theorem State.ScratchWf.count64 (o n : Nat) : (s.count64 o n).ScratchWf := h.of_only (State.count64_only (Only.refl _ s) rfl o n)

theorem State.ScratchWf.dropCmd (id : Nat) : (s.dropCmd id).ScratchWf := h.of_only (State.dropCmd_only (Only.refl _ s) rfl id)

theorem State.ScratchWf.endFor (src : Option CmdSrc) (status detail : Byte) (result : Bytes) :
    (s.endFor src status detail result).ScratchWf := h.of_only (State.endFor_only (Only.refl _ s) rfl _ _ _ _)

theorem State.ScratchWf.rangeStep : s.rangeStep.ScratchWf := h.of_only (State.rangeStep_only (Only.refl _ s) rfl)

theorem State.ScratchWf.execDriveReadComplete (id : Nat) (result : DriveReadResult) (errs : List WordError) :
    NextHas State.ScratchWf (execDriveReadComplete id result errs s) := by
  unfold Sys2Proof.Machine.execDriveReadComplete
  extract_lets s1
  have h1 : s1.ScratchWf := h.wordErrors errs
  split
  · exact h1.next
  · next d _ =>
    have h2 : (s1.dropCmd id).ScratchWf := h1.dropCmd id
    refine nextHas_ite h1.next (nextHas_ite h2.next ?_)
    have h3 : ((s1.dropCmd id).count64 (Reg.dpReads d.port.toNat) 1).ScratchWf := h2.count64 _ _
    split
    · refine State.ScratchWf.next (State.ScratchWf.evalLog (State.ScratchWf.rangeStep (State.ScratchWf.readError ?_ _)))
      exact h3.of_only (State.mediaFault_only (State.modPort_only (State.count32_only (Only.refl _ _) rfl _ _) rfl _ _) rfl _ _ _)
    · split
      · exact (h3.readDone ..).rangeStep.evalLog.next
      · exact (h3.readDone ..).rangeStep.evalLog.next

theorem State.ScratchWf.execDriveWriteComplete (id : Nat) (ok : Bool) : NextHas State.ScratchWf (execDriveWriteComplete id ok s) := by
  unfold Sys2Proof.Machine.execDriveWriteComplete
  split
  · exact h.next
  · next d _ =>
    refine nextHas_ite h.next (nextHas_ite (h.dropCmd id).next ?_)
    extract_lets s1 s2 s3
    have h1 : s1.ScratchWf := h.count64 _ _
    have h2 : s2.ScratchWf := by
      unfold s2
      split
      · exact scratchWf_ite (h1.of_only (State.intentFailed_only (Only.refl _ s1) rfl _)) h1
      · exact h1
    have h3 : s3.ScratchWf := ((h2.dropCmd id).failPort ..).of_only (State.writeSettled_only (Only.refl _ _) rfl _)
    refine nextHas_ite ?_ ?_
    · exact (State.ScratchWf.of_only (h1.dropCmd id)
        (State.writeSettled_only (State.issueWaiting_only (Only.refl _ _) rfl _) rfl _)).evalLog.next
    · exact (scratchWf_ite (h3.of_only (State.replayFailed_only (Only.refl _ s3) rfl _)) h3).evalLog.next

theorem State.ScratchWf.execDriveFlushComplete (port : Byte) (ok : Bool) : NextHas State.ScratchWf (execDriveFlushComplete port ok s) := by
  have hs : (if ok then s else s.failPort port 0x14 false).ScratchWf := scratchWf_ite h (h.failPort ..)
  exact nextHas_ite (hs.of_only (State.sendShutdown_only (Only.refl _ _) rfl _)).next hs.next

theorem State.ScratchWf.execDeadReckoningThreshold (id : Nat) (errs : List WordError) :
    NextHas State.ScratchWf (execDeadReckoningThreshold id errs s) := by
  unfold Sys2Proof.Machine.execDeadReckoningThreshold
  extract_lets s1
  have h1 : s1.ScratchWf := h.wordErrors errs
  split
  · exact h1.next
  · refine nextHas_ite h1.next ?_
    split
    case h_5 =>
      refine (State.ScratchWf.slowRead ?_ _).next
      exact h1
    all_goals exact h1.next

theorem State.ScratchWf.execHardTimeout (id : Nat) : NextHas State.ScratchWf (execHardTimeout id s) := by
  unfold Sys2Proof.Machine.execHardTimeout
  split
  · exact h.next
  · next d _ =>
    refine nextHas_ite h.next ?_
    extract_lets s1 src
    have h1 : s1.ScratchWf := by
      unfold s1
      split
      case h_3 => exact h.of_only (State.count32_only (Only.refl _ s) rfl _ _)
      all_goals exact h
    split
    · exact (((h1.dropCmd id).modPort _ _).endFor ..).next
    · exact (h1.failPort ..).evalLog.next

theorem State.ScratchWf.execPortSealLimit (port : Byte) : NextHas State.ScratchWf (execPortSealLimit port s) :=
  nextHas_ite h.next ((h.modPort _ _).failPort ..).evalLog.next

theorem State.ScratchWf.linkFault (p : Byte) (lvl : Level) (detail : Byte) : (s.linkFault p lvl detail).ScratchWf :=
  h.of_only (State.linkFault_only (Only.refl _ s) rfl _ _ _)

theorem State.ScratchWf.execQuarantineReset (port : Byte) : NextHas State.ScratchWf (execQuarantineReset port s) :=
  nextHas_ite h.next ((h.linkFault ..).startReset ..).next

theorem State.ScratchWf.execRecoveryTimeout (port : Byte) : NextHas State.ScratchWf (execRecoveryTimeout port s) :=
  nextHas_ite h.next ((h.modPort _ _).failPort ..).evalLog.next

theorem State.ScratchWf.execDrainTimeout (group : BitVec 4) : NextHas State.ScratchWf (execDrainTimeout group s) := by
  have hmod (u : State) (hu : u.ScratchWf) (f : Group → Group) : (u.modGroup group.toNat f).ScratchWf :=
    hu.of_only (State.modGroup_only (Only.refl _ u) rfl _ _)
  have hdrained (u : State) (hu : u.ScratchWf) : (u.groupDrained group.toNat).ScratchWf :=
    hu.of_only (State.groupDrained_only (Only.refl _ u) rfl _)
  refine nextHas_ite h.next (nextHas_ite (hdrained s h).next (nextHas_ite ?_ ?_))
  · exact (hdrained _ ((hmod s h _).endCommands ..)).evalLog.next
  · exact (((scratchWf_foldl (hmod s h _) fun _ _ hu => hu.modPort _ _).linkFault ..).endFor ..).next

theorem State.ScratchWf.execGroupWakeDelay (group : BitVec 4) (receivers : List Byte) :
    NextHas State.ScratchWf (execGroupWakeDelay group receivers s) := by
  refine nextHas_ite h.next (State.ScratchWf.next (State.ScratchWf.of_only ?_ (State.groupUp_only (Only.refl _ _) rfl _)))
  refine scratchWf_foldl h fun u p hu => scratchWf_ite hu (scratchWf_ite (hu.modPort _ _) ?_)
  exact scratchWf_ite ((hu.modPort _ _).failPort ..) (hu.modPort _ _)

theorem State.ScratchWf.execLookupComplete (k : BitVec 7) : NextHas State.ScratchWf (execLookupComplete k s) := by
  unfold Sys2Proof.Machine.execLookupComplete
  dsimp only
  split
  · next req _ =>
    have hcount : ∀ cht n, ((((s.setCtx k.toNat SCtx.at0).withCht cht).count64 Reg.chtMisses n).count64 Reg.chtLookups 1).ScratchWf :=
      fun cht _ => State.ScratchWf.count64 (State.ScratchWf.count64 (s := (s.setCtx k.toNat SCtx.at0).withCht cht) h _ _) _ _
    split
    · exact ((hcount _ _).of_only (State.chartFault_only (Only.refl _ _) rfl _ _ _ _ _)).next
    · exact nextHas_ite ((hcount _ _).of_only (State.submit_only (Only.refl _ _) rfl _)).next ((hcount _ _).readElsewhere _).next
  · exact h.next

/-! ### Host commands -/

theorem State.ScratchWf.finishDesc (n : BitVec 10) (d : Desc) (st det : Byte) (lba count : Nat) :
    ((s.takeFront n).finishDesc n d st det lba count).ScratchWf :=
  h.of_only (State.finishDesc_only (State.takeFront_only (Only.refl _ s) rfl _) rfl _ _ _ _ _ _)

theorem State.ScratchWf.execIoRead (n : BitVec 10) (sgl : SglFetch) (errs : List WordError) :
    NextHas State.ScratchWf (execIoRead n sgl errs s) := by
  unfold Sys2Proof.Machine.execIoRead
  extract_lets s1
  have h1 : s1.ScratchWf := h.wordErrors errs
  split
  · exact h1.next
  · next d _ =>
    refine nextHas_ite h1.next (nextHas_ite (h1.of_only (State.forwardDesc_only (Only.refl _ s1) rfl _ _ _ _)).next ?_)
    split
    · exact (h1.finishDesc ..).next
    · refine nextHas_ite (h1.of_only (State.waitFront_only (Only.refl _ s1) rfl _)).next ?_
      extract_lets io1 io2 s3
      have h3 : s3.ScratchWf := h1.of_only <|
        only_withIos (only_withNextId (State.count64_only (State.takeFront_only (Only.refl _ s1) rfl _) rfl _ _) rfl) rfl
      split
      next u io e =>
        have hu : u.ScratchWf := scratchWf_fst (h3.of_only (State.readBlocks_only (Only.refl _ s3) rfl _ _)) e
        refine State.ScratchWf.next (State.ScratchWf.evalLog (State.ScratchWf.of_only ?_ (State.detect_only (Only.refl _ _) rfl _ _)))
        exact scratchWf_ite ((hu.setIo _).ioGathered _) ((hu.setIo _).sealReads _)

theorem State.ScratchWf.execIoVerify (n : BitVec 10) : NextHas State.ScratchWf (execIoVerify n s) := by
  unfold Sys2Proof.Machine.execIoVerify
  split
  · exact h.next
  · next d _ =>
    refine nextHas_ite h.next (nextHas_ite (h.of_only (State.forwardDesc_only (Only.refl _ s) rfl _ _ _ _)).next ?_)
    split
    · exact (h.finishDesc ..).next
    · refine nextHas_ite (h.of_only (State.waitFront_only (Only.refl _ s) rfl _)).next ?_
      extract_lets set a rows s1 io1 s2
      have h2 : s2.ScratchWf := h.of_only <|
        only_withIos (only_withNextId (State.count64_only (State.takeFront_only (Only.refl _ s) rfl _) rfl _ _) rfl) rfl
      split
      next u io e =>
        have hu : u.ScratchWf := scratchWf_fst (h2.of_only (State.verifyRows_only (Only.refl _ s2) rfl _ _)) e
        extract_lets u1
        have hu1 : u1.ScratchWf := hu.setIo _
        refine nextHas_ite (hu1.ioGathered _).next ?_
        exact (hu1.verifyReads set a io).next

/-! ### Coding, rebuild, arbitration -/

theorem State.ScratchWf.modCluster (c : Bool) (f : Cluster → Cluster) : (s.modCluster c f).ScratchWf :=
  h.of_only (State.modCluster_only (Only.refl _ s) rfl _ _)

theorem State.ScratchWf.execCodingPassComplete (engine : BitVec 5) (outputs : List Bytes) :
    NextHas State.ScratchWf (execCodingPassComplete engine outputs s) := by
  unfold Sys2Proof.Machine.execCodingPassComplete
  dsimp only
  split
  · exact h.next
  · exact nextHas_ite ((h.modCluster _ _).release ..).evalLog.next
      (h.of_only (State.engineFailed_only (Only.refl _ s) rfl _ _)).next

theorem State.ScratchWf.execDecodeSolveComplete (cluster verified : Bool) :
    NextHas State.ScratchWf (execDecodeSolveComplete cluster verified s) := by
  unfold Sys2Proof.Machine.execDecodeSolveComplete
  dsimp only
  split
  · exact h.next
  · refine nextHas_ite h.next (nextHas_ite ?_ (nextHas_ite (h.modCluster _ _).next ?_))
    · exact (((h.modCluster _ _).modCluster _ _).matrixReady ..).matrixRetry.next
    · exact ((h.modCluster _ _).of_only (State.raise_only (Only.refl _ _) rfl _ _ _)).next

theorem State.ScratchWf.execRebuildPacingWindow : NextHas State.ScratchWf (execRebuildPacingWindow s) := by
  unfold Sys2Proof.Machine.execRebuildPacingWindow
  split
  · exact h.next
  · extract_lets set
    split
    next u use e =>
      have hu : u.ScratchWf :=
        scratchWf_fst (h.of_only (State.catchupSet_only (only_withSched (Only.refl _ s) rfl) rfl _)) e
      split
      · exact hu.next
      · exact ((hu.of_only (State.modSet_only (Only.refl _ u) rfl _ _)).startStripes _ _ _ _).next

theorem State.ScratchWf.execRowArbitrationDone (set : BitVec 6) (stripe : BitVec 48) (row : Byte) (sectors : List (Nat × Sector)) :
    NextHas State.ScratchWf (execRowArbitrationDone set stripe row sectors s) := nextHas_ite h.next (h.arbitrated ..).next

/-! ### Packets -/

theorem State.ScratchWf.serve (src : CmdSrc) (op : Nat) (bad : Bytes → List (Bool × Nat)) (checks : Bytes → List (Option (Byte × Byte)))
    {run : Bytes → State} (hrun : ∀ pkt, (run pkt).ScratchWf) : (s.serve src op bad checks run).ScratchWf := by
  unfold State.serve
  split
  · exact h
  · split
    · exact h.reply ..
    · refine scratchWf_ite h ?_
      split
      · exact h.of_only (State.fail_only (Only.refl _ s) rfl _ _ _)
      · exact (hrun _).of_only (State.share_only (Only.refl _ _) rfl _ _)

theorem State.ScratchWf.execSetReadPreserved (src : CmdSrc) : NextHas State.ScratchWf (execSetReadPreserved src s) :=
  (h.serve _ _ _ _ fun _ => h.startReadPreserved ..).next

theorem State.ScratchWf.execPortFail (src : CmdSrc) : NextHas State.ScratchWf (execPortFail src s) :=
  (h.serve _ _ _ _ fun _ => ((h.failPort ..).reply ..).evalLog).next

theorem State.ScratchWf.execPortConfig (src : CmdSrc) : NextHas State.ScratchWf (execPortConfig src s) :=
  (h.serve _ _ _ _ fun _ => h.configPort ..).next

theorem State.ScratchWf.execPortReset (src : CmdSrc) : NextHas State.ScratchWf (execPortReset src s) := by
  refine (h.serve _ _ _ _ fun pkt => ?_).next
  split
  · exact h.reply ..
  · exact ((h.startDeferred ..).startReset ..).evalLog

theorem State.ScratchWf.execLifeRead (src : CmdSrc) : NextHas State.ScratchWf (execLifeRead src s) :=
  (h.serve _ _ _ _ fun _ => h.readLife ..).next

theorem State.ScratchWf.execFwCommit (src : CmdSrc) : NextHas State.ScratchWf (execFwCommit src s) :=
  (h.serve _ _ _ _ fun _ => h.commitImage ..).next

theorem State.ScratchWf.execDeferredCommandStart (src : CmdSrc) : NextHas State.ScratchWf (execDeferredCommandStart src s) := by
  refine nextHas_deferred h fun c hc => ?_
  rcases scratch_not_mem_deferredRows c hc with rfl | rfl | rfl | hc
  · exact h.execSetReadPreserved src
  · exact h.execPortReset src
  · exact h.execFwCommit src
  · exact h.exec_of_footprint hc

theorem State.ScratchWf.execDriveAdminComplete (port : Byte) (ok : Bool) (cqe data : Bytes) :
    NextHas State.ScratchWf (execDriveAdminComplete port ok cqe data s) := by
  have hdrop : (s.dropAdmin port).ScratchWf := h.of_only (State.dropAdmin_only (Only.refl _ s) rfl _)
  unfold Sys2Proof.Machine.execDriveAdminComplete
  refine nextHas_ite ?_ ?_
  · split
    · exact (hdrop.finishAdmin ..).next
    · exact hdrop.next
  · exact (scratchWf_ite h (h.of_only (State.bringupFailed_only (Only.refl _ s) rfl _))).next

theorem State.ScratchWf.execScratchWrite (seq : Byte) (offset : Half) (data : Bytes) :
    NextHas State.ScratchWf (execScratchWrite seq offset data s) := by
  have hin : s.frameIn.ScratchWf := h.of_only (State.frameIn_only (Only.refl _ s) rfl)
  have hsend (u : State) (hu : u.ScratchWf) (typ : Byte) (p : Bytes) : (u.sendFrame typ seq p).ScratchWf :=
    hu.of_only (State.sendFrame_only (Only.refl _ u) rfl _ _ _)
  refine nextHas_ite h.next (nextHas_ite (hsend _ ?_ _ _).next (hsend _ hin _ _).next)
  exact Memory.writeBytes_wf _ _ hin

theorem State.ScratchWf.act (k : BitVec 7) (ra : GReg) (a : BitVec 14) (ok : Nat → Bool) {run : State → Nat → State}
    (hrun : ∀ u v, u.ScratchWf → (run u v).ScratchWf) : (s.act k ra a ok run).ScratchWf := by
  unfold State.act
  dsimp only
  split
  · refine scratchWf_ite (hrun _ _ ?_) (h.of_only (State.reactionFault_only (Only.refl _ s) rfl _ _ _ _))
    exact h.of_only (State.setCtx_only (Only.refl _ s) rfl _ _)
  · exact h

end Commands

section Flits
variable {s : State} (h : s.ScratchWf)
include h

/-! ### Pair-link flits (spec/14_pair_and_chain.md) -/

theorem State.ScratchWf.joinAnswer (ps : PartnerState) :
    (match s.joinFault ps with
      | some f => s.joinFailed f
      | none => s.joined).ScratchWf := by
  split
  · exact h.of_only (State.joinFailed_only (Only.refl _ s) rfl _)
  · exact h.of_only (State.joined_only (Only.refl _ s) rfl)

theorem State.ScratchWf.execFlitNak (hd : FlitHdr) : NextHas State.ScratchWf (execFlitNak hd s) :=
  (h.goodFlit hd fun u hu => hu.of_only (State.replayFlits_only (Only.refl _ u) rfl _)).next

theorem State.ScratchWf.execFlitMirror (hd : FlitHdr) (position : Word64) (units : List Bytes) :
    NextHas State.ScratchWf (execFlitMirror hd position units s) :=
  (h.goodFlit hd fun u hu => scratchWf_ite (hu.of_only (State.mirrorRun_only (Only.refl _ u) rfl _ _)) hu).next

theorem State.ScratchWf.execFlitMirrorAck (hd : FlitHdr) (seqs : List Word64) : NextHas State.ScratchWf (execFlitMirrorAck hd seqs s) :=
  (h.goodFlit hd fun u hu => hu.of_only (State.partnerDurable_only (Only.refl _ u) rfl _)).next

theorem State.ScratchWf.execFlitFwdDesc (hd : FlitHdr) (descs : List FwdDesc) :
    NextHas State.ScratchWf (execFlitFwdDesc hd descs s) :=
  (h.goodFlit hd fun u hu => scratchWf_ite (hu.of_only (only_withPair (Only.refl _ u) rfl (.inl rfl))) hu).next

theorem State.ScratchWf.execFlitFwdGrant (hd : FlitHdr) (ref : Word64) (status detail : Byte) (watch : BitVec 48) (gen : Word32) :
    NextHas State.ScratchWf (execFlitFwdGrant hd ref status detail watch gen s) :=
  (h.goodFlit hd fun u hu => hu.of_only (State.fwdGranted_only (Only.refl _ u) rfl _ _ _ _ _)).next

theorem State.ScratchWf.execFlitFwdData (hd : FlitHdr) (ref : Word64) (data : Bytes) :
    NextHas State.ScratchWf (execFlitFwdData hd ref data s) :=
  (h.goodFlit hd fun u hu => hu.of_only (State.fwdBytes_only (Only.refl _ u) rfl _ _)).next

theorem State.ScratchWf.execFlitFwdDone (hd : FlitHdr) (ref : Word64) (status detail : Byte) :
    NextHas State.ScratchWf (execFlitFwdDone hd ref status detail s) :=
  (h.goodFlit hd fun u hu => hu.of_only (State.fwdEnded_only (Only.refl _ u) rfl _ _ _)).next

theorem State.ScratchWf.execFlitSealReady (hd : FlitHdr) (watch : BitVec 48) (holdover : Bool) :
    NextHas State.ScratchWf (execFlitSealReady hd watch holdover s) :=
  (h.goodFlit hd fun u hu =>
    scratchWf_ite (hu.of_only (State.trySeal_only (only_withWch (Only.refl _ u) rfl (.inl rfl)) rfl)) hu).next

theorem State.ScratchWf.execFlitMeta (hd : FlitHdr) (token : Bool) (page : Bytes) :
    NextHas State.ScratchWf (execFlitMeta hd token page s) :=
  (h.goodFlit hd fun u hu => scratchWf_ite hu <|
    scratchWf_ite (hu.of_only (State.sendFlit_only (only_withPair (Only.refl _ u) rfl (.inl rfl)) rfl _ _ _))
      (hu.of_only (only_withPair (Only.refl _ u) rfl (.inl rfl)))).next

theorem State.ScratchWf.execFlitHaltNotice (hd : FlitHdr) : NextHas State.ScratchWf (execFlitHaltNotice hd s) :=
  (h.goodFlit hd fun u hu => scratchWf_ite (hu.of_only (State.declareFailed_only (Only.refl _ u) rfl _)) hu).next

theorem State.ScratchWf.execFlitState (hd : FlitHdr) (ps : PartnerState) : NextHas State.ScratchWf (execFlitState hd ps s) := by
  refine (h.goodFlit hd fun u hu => ?_).next
  extract_lets _ v
  have hv : v.ScratchWf := hu
  exact scratchWf_ite (hv.of_only (State.leavePair_only (Only.refl _ v) rfl)) (scratchWf_ite (hv.joinAnswer ps) hv)

end Flits

/-- Every command keeps the scratch buffer in canonical form: those whose footprint lists it clear it or write bytes to it, mostly
because a sector that arrives may be one that SET_READ_PRESERVED waits for. -/
theorem State.ScratchWf.exec {s : State} (h : s.ScratchWf) (c : Instr) : NextHas State.ScratchWf (exec c s) := by
  cases hc : decide (Field.scratch ∈ footprint c) with
  | false => exact h.exec_of_footprint hc
  | true =>
    cases c
    case powerOn bifur cold => exact h.execPowerOn bifur cold
    case powerLoss => exact h.execPowerLoss
    case deferredCommandStart src => exact h.execDeferredCommandStart src
    case fwCommit src => exact h.execFwCommit src
    case setReadPreserved src => exact h.execSetReadPreserved src
    case lifeRead src => exact h.execLifeRead src
    case driveAdminComplete port ok cqe data => exact h.execDriveAdminComplete port ok cqe data
    case scratchWrite seq offset data => exact h.execScratchWrite seq offset data
    case ioRead n sgl errs => exact h.execIoRead n sgl errs
    case ioVerify n => exact h.execIoVerify n
    case portConfig src => exact h.execPortConfig src
    case portFail src => exact h.execPortFail src
    case portReset src => exact h.execPortReset src
    case codingPassComplete engine outputs => exact h.execCodingPassComplete engine outputs
    case decodeSolveComplete cluster verified => exact h.execDecodeSolveComplete cluster verified
    case driveReadComplete id result errs => exact h.execDriveReadComplete id result errs
    case driveFlushComplete port ok => exact h.execDriveFlushComplete port ok
    case driveWriteComplete id ok => exact h.execDriveWriteComplete id ok
    case deadReckoningThreshold id errs => exact h.execDeadReckoningThreshold id errs
    case hardTimeout id => exact h.execHardTimeout id
    case portSealLimit port => exact h.execPortSealLimit port
    case linkDown port receiver => exact (h.portLinkDown port receiver).evalLog.next
    case recoveryTimeout port => exact h.execRecoveryTimeout port
    case quarantineReset port => exact h.execQuarantineReset port
    case drainTimeout group => exact h.execDrainTimeout group
    case groupWakeDelay group receivers => exact h.execGroupWakeDelay group receivers
    case rowArbitrationDone set stripe row sectors => exact h.execRowArbitrationDone set stripe row sectors
    case rebuildPacingWindow => exact h.execRebuildPacingWindow
    case controllerFatalStatus port => exact (h.failPort port _ _).evalLog.next
    case uncorrectableLinkError port receiver => exact ((h.linkFault port _ _).portLinkDown port receiver).evalLog.next
    case lookupComplete k => exact h.execLookupComplete k
    case actFailPort k ra => exact (h.act k ra _ _ fun _ _ hu => (hu.failPort ..).evalLog).next
    case flitIdle hd => exact (h.goodFlit hd fun _ hu => hu).next
    case flitNak hd => exact h.execFlitNak hd
    case flitMirror hd position units => exact h.execFlitMirror hd position units
    case flitMirrorAck hd seqs => exact h.execFlitMirrorAck hd seqs
    case flitFwdDesc hd descs => exact h.execFlitFwdDesc hd descs
    case flitFwdGrant hd ref status detail watch gen => exact h.execFlitFwdGrant hd ref status detail watch gen
    case flitFwdData hd ref data => exact h.execFlitFwdData hd ref data
    case flitFwdDone hd ref status detail => exact h.execFlitFwdDone hd ref status detail
    case flitSealReady hd watch holdover => exact h.execFlitSealReady hd watch holdover
    case flitMeta hd token page => exact h.execFlitMeta hd token page
    case flitHaltNotice hd => exact h.execFlitHaltNotice hd
    case flitState hd ps => exact h.execFlitState hd ps
    all_goals exact nomatch hc

end Sys2Proof.Machine
end

section
/-! PROOFS. The peer-window pool (spec/15_host_port.md): every command keeps it in canonical form; and the statement about both memories. -/

namespace Sys2Proof.Machine

/-- The peer-window pool is in canonical form. -/
def State.PoolWf (s : State) : Prop := Memory.wf s.pwin.pool = true

/-- Every part of the state but the pool. -/
def allButPool : List Field :=
  [.gcs, .part, .startup, .phase, .halt, .regs, .flt, .sources, .first, .reactions, .ctxs, .sets, .incarnations, .profiles, .cht, .log,
    .banks, .wch, .timer, .rings, .privLock, .ios, .nextId, .dcmds, .ports, .portGroups, .rowOps, .commits, .passes, .arbitrating,
    .clusters, .scc, .dmv, .interp, .scratch, .sec, .otp, .rollback, .mon, .monitor, .pair, .role, .chn, .address, .hpus, .links, .pwin,
    .map, .sched, .freeCount, .out, .pending]

theorem poolWf_of_nil {s : State} (h : s.pwin.pool = []) : s.PoolWf := by
  unfold State.PoolWf
  rw [h]
  rfl

theorem poolWf_ite {p : Prop} [Decidable p] {s t : State} (hs : s.PoolWf) (ht : t.PoolWf) : (if p then s else t).PoolWf := by
  split
  · exact hs
  · exact ht

theorem State.PoolWf.next {t : State} (h : t.PoolWf) : NextHas State.PoolWf (.next t) := nextHas_next h

/-- The state that an operation gives, if any, has the property. -/
def OptHas (P : State → Prop) (o : Option State) : Prop := ∀ t, o = some t → P t

theorem optHas_some {P : State → Prop} {t : State} (h : P t) : OptHas P (some t) := fun _ e => Option.some.inj e ▸ h

theorem optHas_none {P : State → Prop} : OptHas P none := fun _ e => nomatch e

theorem optHas_ite {P : State → Prop} {p : Prop} [Decidable p] {a b : Option State} (ha : OptHas P a) (hb : OptHas P b) :
    OptHas P (if p then a else b) := by
  split
  · exact ha
  · exact hb

/-! ### Pages that are zeroed (R451) -/

theorem Tab.filter_rising {α : Type} {t : Tab α} {b : Option Nat} (p : Nat × α → Bool) (h : Tab.rising b t = true) :
    Tab.rising b (t.filter p) = true := by
  induction t generalizing b with
  | nil => exact h
  | cons e r ih =>
    obtain ⟨j, w⟩ := e
    have ⟨hb, hr⟩ := Bool.and_eq_true_iff.1 h
    rw [List.filter_cons]
    split
    · exact Bool.and_eq_true_iff.2 ⟨hb, ih hr⟩
    · cases b with
      | none => exact ih (Tab.rising_none hr)
      | some i => exact ih (Tab.rising_le (Nat.le_of_lt (of_decide_eq_true hb)) hr)

theorem Tab.filter_wf {α : Type} [DecidableEq α] {t : Tab α} {d : α} (p : Nat × α → Bool) (h : Tab.wf t d = true) :
    Tab.wf (t.filter p) d = true := by
  have ⟨hr, hd⟩ := Bool.and_eq_true_iff.1 h
  refine Bool.and_eq_true_iff.2 ⟨Tab.filter_rising p hr, List.all_eq_true.2 fun e he => ?_⟩
  exact List.all_eq_true.1 hd e (List.mem_filter.1 he).1

theorem zeroPages_wf {m : Memory} (pages : List Nat) (h : Memory.wf m = true) : Memory.wf (zeroPages m pages) = true := Tab.filter_wf _ h

/-- Of the rows that a deferred command may start only FW_COMMIT reaches the pool. -/
theorem pool_not_mem_deferredRows {src : CmdSrc} : ∀ c ∈ deferredRows src,
    c = .fwCommit src ∨ decide (Field.pool ∈ footprint c) = false := by
  simp only [deferredRows, List.forall_mem_cons]
  refine ⟨?_, ?_, ?_, ?_, ?_, ?_, ?_, ?_, ?_, ?_, ?_, ?_, .inl trivial, List.forall_mem_nil _⟩ <;> exact .inr rfl

section Commands
variable {s : State} (h : s.PoolWf)
include h

theorem State.PoolWf.of_only {t : State} (o : Only allButPool s t) : t.PoolWf := by
  have e : t.pwin.pool = s.pwin.pool := o .pool (by decide)
  unfold State.PoolWf
  rw [e]
  exact h

/-- A command whose footprint leaves out the pool keeps it. -/
theorem State.PoolWf.exec_of_footprint {c : Instr} (hc : decide (Field.pool ∈ footprint c) = false) :
    NextHas State.PoolWf (exec c s) := by
  intro t e
  have ht : t.pwin.pool = s.pwin.pool := exec_onlyFootprint c s t e .pool (of_decide_eq_false hc)
  unfold State.PoolWf
  rw [ht]
  exact h

/-! ### Resets, which empty the pool -/

omit h in
theorem State.softReset_poolWf (s : State) : s.softReset.PoolWf := by
  unfold State.softReset
  exact (poolWf_of_nil rfl).of_only (State.fenceAtReset_only (Only.refl _ _) rfl)

theorem State.PoolWf.execPowerLoss : NextHas State.PoolWf (execPowerLoss s) :=
  nextHas_ite h.next (poolWf_of_nil (s := s.lostPower) rfl).next

theorem State.PoolWf.execPowerOn (bifur cold : Bool) : NextHas State.PoolWf (execPowerOn bifur cold s) := by
  refine nextHas_ite h.next (State.PoolWf.next (State.PoolWf.of_only ?_ (State.fenceAtReset_only (Only.refl _ _) rfl)))
  exact poolWf_of_nil rfl

theorem State.PoolWf.execSoftReset (key : Half) : NextHas State.PoolWf (execSoftReset key s) :=
  nextHas_ite h.next (State.softReset_poolWf _).next

theorem State.PoolWf.commitImage (src : CmdSrc) (pkt : Bytes) : (s.commitImage src pkt).PoolWf := by
  unfold State.commitImage
  extract_lets v sec s1 s2
  have h1 : s1.PoolWf := h
  exact poolWf_ite (poolWf_of_nil rfl) <|
    poolWf_ite (h1.of_only (State.reply_only (Only.refl _ s1) rfl _ _ _ _ _)) <|
    h1.of_only (only_withInterp (State.startDeferred_only (Only.refl _ s1) rfl _ _) rfl (.inl rfl))

theorem State.PoolWf.execFwCommit (src : CmdSrc) : NextHas State.PoolWf (execFwCommit src s) := by
  unfold Sys2Proof.Machine.execFwCommit serveCmd State.serve
  refine State.PoolWf.next ?_
  split
  · exact h
  · split
    · exact h.of_only (State.reply_only (Only.refl _ s) rfl _ _ _ _ _)
    · refine poolWf_ite h ?_
      split
      · exact h.of_only (State.fail_only (Only.refl _ s) rfl _ _ _)
      · exact (h.commitImage src _).of_only (State.share_only (Only.refl _ _) rfl _ _)

theorem State.PoolWf.execDeferredCommandStart (src : CmdSrc) : NextHas State.PoolWf (execDeferredCommandStart src s) := by
  refine nextHas_deferred h fun c hc => ?_
  rcases pool_not_mem_deferredRows c hc with rfl | hc
  · exact h.execFwCommit src
  · exact h.exec_of_footprint hc

/-! ### Bytes that a host or the mover writes -/

theorem State.PoolWf.writePool (a : Nat) (data : Bytes) :
    (s.withPwin { s.pwin with pool := Memory.writeBytes s.pwin.pool a data }).PoolWf := Memory.writeBytes_wf a data h

theorem State.PoolWf.execBar2Write (p : Bool) (addr : Word64) (data : Bytes) : NextHas State.PoolWf (execBar2Write p addr data s) := by
  refine nextHas_ite ?_ (nextHas_ite h.next ?_)
  · exact (h.of_only (State.count32_only (Only.refl _ s) rfl _ _)).next
  · split
    · exact (h.of_only (State.missed_only (Only.refl _ s) rfl _ _ _ _)).next
    · exact (h.writePool _ _).next

theorem State.PoolWf.execPwinCommitInForce : NextHas State.PoolWf (execPwinCommitInForce s) := by
  unfold Sys2Proof.Machine.execPwinCommitInForce
  split
  · exact h.next
  · exact State.PoolWf.next (zeroPages_wf _ h)

theorem State.PoolWf.writeBurst (n : Nat) (t : Transfer) (rest : List Transfer) : (s.writeBurst n t rest).PoolWf := by
  have hmod (f : Channel → Channel) : (s.modChan n f).PoolWf := h.of_only (State.modChan_only (Only.refl _ s) rfl _ _)
  unfold State.writeBurst
  split
  · exact h
  · exact hmod _
  · extract_lets s1
    have h1 : s1.PoolWf := hmod _
    exact poolWf_ite (h1.writePool _ _) (h1.of_only (only_foldl (Only.refl _ s1) fun _ _ hu => State.hostOut_only hu rfl _ _))

theorem State.PoolWf.grantTo (write : Bool) (words : WordCheck) (n : Nat) : (s.grantTo write words n).PoolWf := by
  unfold State.grantTo
  split
  · exact h
  · next t rest _ =>
    extract_lets _ s1 burst
    have h1 : s1.PoolWf := h.of_only (only_withDmv (Only.refl _ s) rfl)
    have hend (status detail : Byte) : (s1.endTransfer n status detail).PoolWf :=
      h1.of_only (State.endTransfer_only (Only.refl _ s1) rfl _ _ _)
    have hburst : (burst s1).PoolWf := poolWf_ite (h1.writeBurst n t rest) (h1.of_only (State.readBurst_only (Only.refl _ s1) rfl _ _ _))
    refine poolWf_ite (hend _ _) (poolWf_ite (hend _ _) ?_)
    split
    · exact hburst.of_only (State.raise_only (Only.refl _ _) rfl _ _ _)
    · exact (hend _ _).of_only (State.raise_only (Only.refl _ _) rfl _ _ _)
    · exact hburst

theorem State.PoolWf.execBurstGrant (writeEngine : Bool) (words : WordCheck) :
    NextHas State.PoolWf (execBurstGrant writeEngine words s) := by
  unfold Sys2Proof.Machine.execBurstGrant
  split
  · extract_lets _ s1
    have h1 : s1.PoolWf := h.of_only (only_withDmv (Only.refl _ s) rfl)
    split
    · split
      · exact h1.next
      · exact (h1.of_only (State.issuePiece_only (Only.refl _ s1) rfl _ _ _)).next
    · exact (h1.of_only (State.issueRead_only (Only.refl _ s1) rfl _ _ _)).next
  · split
    · exact h.next
    · exact (h.grantTo _ words _).next

/-! ### Register writes, of which GCS.RESET empties the pool -/

theorem State.PoolWf.after {m : State → Host.Outcome State Fault Refusal} (hm : NextHas State.PoolWf (m s)) : (s.after m).PoolWf := by
  unfold State.after
  split
  · next t e => exact hm t e
  · exact h

/-- A row that a write runs, where its command leaves out the pool. -/
theorem State.PoolWf.row {c : Instr} (hc : decide (Field.pool ∈ footprint c) = false) : (s.after (exec c)).PoolWf :=
  h.after (h.exec_of_footprint hc)

theorem State.PoolWf.rowIf (b : Bool) {c : Instr} (hc : decide (Field.pool ∈ footprint c) = false) : (s.afterIf b (exec c)).PoolWf :=
  poolWf_ite (h.row hc) h

theorem State.PoolWf.rowWrite (p : Bool) (o v : Nat) : OptHas State.PoolWf (s.rowWrite p o v) := by
  have hctl (n : Bool) : (s.writeHpuCtl p n v).PoolWf := h.of_only (State.writeHpuCtl_only (Only.refl _ s) rfl _ _ _)
  unfold State.rowWrite
  refine optHas_ite (optHas_some (h.after (h.execSoftReset _))) ?_
  refine optHas_ite (optHas_some ((h.rowIf _ (c := .dockExit) rfl).rowIf _ (c := .dockEnter) rfl)) ?_
  refine optHas_ite (optHas_some (h.rowIf _ (c := .anchor) rfl)) ?_
  refine optHas_ite (optHas_some (h.rowIf _ (c := .chartFlush) rfl)) ?_
  refine optHas_ite (optHas_some (h.rowIf _ (c := .privLock) rfl)) ?_
  refine optHas_ite (optHas_some (h.rowIf _ (c := .alertClr) rfl)) ?_
  refine optHas_ite (optHas_some (h.rowIf _ (c := .pwinGo) rfl)) ?_
  refine optHas_ite (optHas_some (h.row (c := .pwinPages _) rfl)) ?_
  refine optHas_ite (optHas_some (hctl false)) (optHas_ite (optHas_some (hctl true)) ?_)
  split
  · exact optHas_some (h.row (c := .calBankSel _ _) rfl)
  split
  · exact optHas_some (h.row (c := .mqEnable _ _) rfl)
  split
  · exact optHas_some (h.row (c := .mqCons _ _) rfl)
  split
  · exact optHas_some (h.of_only (State.writeChanCtl_only (Only.refl _ s) rfl _ _))
  split
  · exact optHas_some (h.row (c := .channelDesc _ _) rfl)
  split
  · exact optHas_ite (optHas_some (h.of_only (State.writeEnable_only (Only.refl _ s) rfl _ _))) optHas_none
  · exact optHas_none

theorem State.PoolWf.writeReg (p : Bool) (o v : Nat) : (s.writeReg p o v).PoolWf := by
  unfold State.writeReg
  split
  · exact h
  · split
    · exact h
    · split
      · next e => exact h.rowWrite p o v _ e
      · refine poolWf_ite (h.of_only (State.writeShadow_only (Only.refl _ s) rfl _ _)) ?_
        exact poolWf_ite h (h.of_only (State.wrote_only (State.storeReg_only (Only.refl _ s) rfl _ _ _) rfl _ _ _))

theorem State.PoolWf.write32 (p : Bool) (o v : Nat) : (s.write32 p o v).PoolWf := by
  unfold State.write32
  refine poolWf_ite (h.of_only (State.writeMsix_only (Only.refl _ s) rfl _ _ _)) ?_
  split
  · exact h.of_only (State.writeDoorbell_only (Only.refl _ s) rfl _ _)
  · refine poolWf_ite h (poolWf_ite ?_ (h.writeReg p o v))
    have hgcs (g : Gcs) : (s.withGcs g).PoolWf := h
    exact (hgcs _).writeReg p _ _

theorem State.PoolWf.write64 (p : Bool) (o v : Nat) : (s.write64 p o v).PoolWf := by
  unfold State.write64
  refine poolWf_ite (h.of_only (State.writeMsix_only (State.writeMsix_only (Only.refl _ s) rfl _ _ _) rfl _ _ _)) ?_
  split
  · exact h.of_only (State.writeDoorbell_only (Only.refl _ s) rfl _ _)
  · exact poolWf_ite (h.writeReg p o v) h

theorem State.PoolWf.execRegisterWrite (p : Bool) (offset : BitVec 26) (wide : Bool) (value : Word64) :
    NextHas State.PoolWf (execRegisterWrite p offset wide value s) := by
  have hleave : (s.leaveFor offset.toNat).PoolWf := h.of_only (State.leaveFor_only (Only.refl _ s) rfl _)
  exact nextHas_ite (h.of_only (State.count32_only (Only.refl _ s) rfl _ _)).next <|
    nextHas_ite h.next <| nextHas_ite h.next <| nextHas_ite (hleave.write64 p _ _).next (hleave.write32 p _ _).next

end Commands

/-- Every command keeps the pool in canonical form: those whose footprint lists it empty it, write bytes to it or zero pages of it. -/
theorem State.PoolWf.exec {s : State} (h : s.PoolWf) (c : Instr) : NextHas State.PoolWf (exec c s) := by
  cases hc : decide (Field.pool ∈ footprint c) with
  | false => exact h.exec_of_footprint hc
  | true =>
    cases c
    case powerOn bifur cold => exact h.execPowerOn bifur cold
    case powerLoss => exact h.execPowerLoss
    case softReset key => exact h.execSoftReset key
    case deferredCommandStart src => exact h.execDeferredCommandStart src
    case fwCommit src => exact h.execFwCommit src
    case burstGrant writeEngine words => exact h.execBurstGrant writeEngine words
    case registerWrite p offset wide value => exact h.execRegisterWrite p offset wide value
    case bar2Write p addr data => exact h.execBar2Write p addr data
    case pwinCommitInForce => exact h.execPwinCommitInForce
    all_goals exact nomatch hc

/-- Settles O10: a core cycle leaves both memories alone, and each command keeps each of them in canonical form. -/
theorem stepsKeepMemoriesCanonical : Obligations.StepsKeepMemoriesCanonical := by
  intro s t h e
  have hscratch : s.ScratchWf := h.1
  have hpool : s.PoolWf := h.2
  rcases step_cases e with ⟨-, rfl⟩ | ⟨c, rest, -, ht⟩
  · exact ⟨hscratch.of_only (s.tick_frame.mono rfl), hpool.of_only (s.tick_frame.mono rfl)⟩
  · have hs : (s.withPending rest).ScratchWf := hscratch
    have hp : (s.withPending rest).PoolWf := hpool
    exact ⟨hs.exec c t ht, hp.exec c t ht⟩

end Sys2Proof.Machine
end
